-- ==== Sys2Proof/Word.lean ====
section
/-! DEFINITION. The word types of the Nolael: bytes, 32-bit words, and the bit patterns of
binary32 and binary64 values. -/

namespace Sys2Proof

/-- One byte. -/
abbrev Byte := BitVec 8

/-- A word is 32 bits unless the text names another width (file 00, numbers and wording). -/
abbrev Word := BitVec 32

/-- The bit pattern of an IEEE 754 binary32 value (R143). -/
abbrev F32 := BitVec 32

/-- The bit pattern of an IEEE 754 binary64 value (R143). -/
abbrev F64 := BitVec 64

/-- A device channel identifier, class in bits 15:11 and index in bits 10:0 (R10). -/
abbrev ChanId := BitVec 16

end Sys2Proof
end

