-- ==== Sys2Proof/Syntax.lean ====
section
/-! DEFINITION. The commands the Nolael takes from outside: mailbox commands, host transfers on
PSP1, and the events of its pins, clocks and engines (spec/opcode_table.json), with the types of
their operands. -/

namespace Sys2Proof

/-- A rate domain (R15, R16, R178). -/
inductive Dom where
  | M | F | S
  deriving DecidableEq, Repr

/-- One side of a serial audio port (R282). -/
inductive Side where
  | rx | tx
  deriving DecidableEq, Repr

/-- The supply rails the Hearth monitors (R589). -/
inductive Rail where
  | vddHearth | vddioA | vddCore | vddioB | vddLine | vddaStove
  deriving DecidableEq, Repr

/-- The memory classes of the error log (R410), and the history memory of a bridge direction (R185). -/
inductive MemClass where
  | store | cellData | program | coef | comb | ianikRam | mailboxRam | vault | bridge
  deriving DecidableEq, Repr

/-- One word of one memory, as the error log names it: `unit` is the cell number (classes 1 to 3), the Comb (class 4) or
the bridge direction, `bank` the bank of classes 2 and 3, `addr` the word address (R410). -/
structure WordAt where
  cls  : MemClass
  unit : Nat
  bank : Nat
  addr : Nat
  deriving DecidableEq, Repr

/-- A physical upset of a stored codeword: one flipped bit is correctable, two are not (R407). -/
structure Upset where
  word     : WordAt
  double   : Bool
  syndrome : BitVec 7
  deriving DecidableEq, Repr

/-- What a wake request finds: BOOT_SEL, and whether WAKE stays high after it or falls (R28, R511, log entry 67). -/
structure WakeBalls where
  sel   : BitVec 2
  stays : Bool
  deriving DecidableEq, Repr

/-- How PSP1_SEL rises at the end of a transfer (R446). -/
inductive SelRise where
  | insideUnit | atBoundary | beforeStatus | afterExtraEdges | complete
  deriving DecidableEq, Repr

/-- A mailbox command as its user wrote it: the fields of words 0 to 2 but the opcode, and the words
from word 3 on (R471). -/
structure Req where
  ver     : Byte
  flags   : Byte
  tag     : BitVec 16
  len     : BitVec 16
  target  : Word
  payload : List Word
  deriving DecidableEq, Repr

/-- What one power-up step reports (R505): whether it passed, the failing cells (step 7), the failing
channels (step 8), the first failing word (step 5), the 32 conversions of the Damper ADC check (step 9,
R364) and the Hearth cycles counted so far. -/
structure StepResult where
  ok      : Bool
  cells   : Word
  chans   : Word
  memFail : Option WordAt
  refs    : List (BitVec 12)
  hcyc    : Word
  deriving DecidableEq, Repr

/-- What the Stove and the Stoker see at one comparison instant (R242, R252, R272): the references for
which the instant is a comparison of their base, those whose divided signal showed an edge since the
instant before, the phase of the loop's reference in TDC units (1/512 Stove cycle, net of nothing),
whether the frequency word stands at an end of the DCO range, the phase of the software loop's measure
reference and whether it had an edge, the offset in units of 2^-40 to which the loop filter sets the DCO where the loop
is closed, and the phase of a switch's target in TDC units. -/
structure Comparison where
  due      : BitVec 13
  edges    : BitVec 13
  phase    : Int
  rangeEnd : Bool
  swPhase  : Int
  swEdge   : Bool
  dcoOfs   : Int
  tgtPhase : Int
  deriving DecidableEq, Repr

/-- A frame that a port side ends (R285, R300): its position and period in Hive cycles, DIN as sampled at counts 0 to
B, the frame sync as sampled at counts B − 1 and B, and how far a converter's buffer is from its centre in M frames. -/
structure PortFrame where
  port   : Fin 8
  side   : Side
  pos    : Nat
  period : Nat
  data   : List Bool
  sync   : Bool × Bool
  fill   : Rat
  deriving DecidableEq, Repr

/-- The upstream region of a line frame as it reaches the master (R314, R315, R319, R331): the phase q, the codes of bytes
88 to 219, first symbol most significant, and the measured round trip in symbols. -/
structure LineFrame where
  q       : Fin 4
  codes   : List (BitVec 10)
  trip    : Nat
  deriving DecidableEq, Repr

/-- The commands of the Nolael, one constructor per row of spec/opcode_table.json, in the table's order. -/
inductive Instr where
  /-- SYS_INFO (R500). Command reporting device identity, firmware version, life-cycle, power state, mailbox versions and frame number. -/
  | sysInfo (m : Fin 4) (r : Req)
  /-- SYS_HELLO (R481). Command that negotiates the mailbox protocol version for later commands on that mailbox. -/
  | sysHello (m : Fin 4) (r : Req)
  /-- SYS_POWER (R498). Command requesting RUN, STANDBY or HEARTH and releasing the named sequencers. -/
  | sysPower (m : Fin 4) (r : Req)
  /-- SYS_LOOPBACK (R497). Command that echoes its payload unchanged. -/
  | sysLoopback (m : Fin 4) (r : Req)
  /-- SYS_PRESENCE (R488). Command that reports, closes or sets the length of the presence window. -/
  | sysPresence (m : Fin 4) (r : Req)
  /-- SYS_RESET (R499). Command applying an Ianik reset or a system reset at the tick of S + 2. -/
  | sysReset (m : Fin 4) (r : Req)
  /-- SYS_WATCHDOG (R491). Command that sets or reports the watchdog period and restarts the count. -/
  | sysWatchdog (m : Fin 4) (r : Req)
  /-- CELL_INFO (R106). Command reporting a cell's role, epoch, banks, metadata and fault action. -/
  | cellInfo (m : Fin 4) (r : Req)
  /-- CELL_ROLE_SET (R73). Command scheduling a cell role change for effect frame E. -/
  | cellRoleSet (m : Fin 4) (r : Req)
  /-- CELL_PROG_WRITE (R88). Command writing program words into an inactive program bank. -/
  | cellProgWrite (m : Fin 4) (r : Req)
  /-- CELL_PROG_META (R63). Command writing image ID, length and descriptor set of an inactive program bank. -/
  | cellProgMeta (m : Fin 4) (r : Req)
  /-- CELL_COEF_WRITE (R84). Command writing coefficient words to the inactive bank on arrival or to the active bank at E. -/
  | cellCoefWrite (m : Fin 4) (r : Req)
  /-- CELL_BANK_SWAP (R86). Command making an inactive program and/or coefficient bank active at E. -/
  | cellBankSwap (m : Fin 4) (r : Req)
  /-- CELL_GLIDE_SET (R89). Command starting a glide of one g register at E over n frames. -/
  | cellGlideSet (m : Fin 4) (r : Req)
  /-- CELL_GROUP_COMMIT (R91). Command applying bank swaps and glide starts of several cells atomically at E. -/
  | cellGroupCommit (m : Fin 4) (r : Req)
  /-- CELL_STATUS (R106). Command reporting a cell's fault, queue and spark screen status words. -/
  | cellStatus (m : Fin 4) (r : Req)
  /-- CELL_FAULT_CLEAR (R98). Command clearing cell fault bits or queue statistics and restarting outputs with a fade-in at E. -/
  | cellFaultClear (m : Fin 4) (r : Req)
  /-- CELL_FAULT_POLICY (R97). Command setting a cell's fault action REPORT, FADE or ZERO at E. -/
  | cellFaultPolicy (m : Fin 4) (r : Req)
  /-- CELL_MEM_READ (R106). Deferred command snapshotting cell memory words at the tick of E. -/
  | cellMemRead (m : Fin 4) (r : Req)
  /-- CELL_IMAGE_LOAD (R103). Deferred command loading a verified image part into a cell's inactive banks. -/
  | cellImageLoad (m : Fin 4) (r : Req)
  /-- COMB_INFO (R176). Command reporting a Comb's column counts, ratio and COMB_STAT. -/
  | combInfo (m : Fin 4) (r : Req)
  /-- COMB_MAP_SET (R154). Command changing intake or outlet map entries at E. -/
  | combMapSet (m : Fin 4) (r : Req)
  /-- COMB_MAP_GET (R176). Command reporting intake or outlet map entries. -/
  | combMapGet (m : Fin 4) (r : Req)
  /-- COMB_STAGE (R157). Command staging node gains and marking their sink columns. -/
  | combStage (m : Fin 4) (r : Req)
  /-- COMB_STAGE_BULK (R174). Command staging gains from records in a bulk range. -/
  | combStageBulk (m : Fin 4) (r : Req)
  /-- COMB_COMMIT (R160). Command committing staged gains of marked columns with a ramp at E. -/
  | combCommit (m : Fin 4) (r : Req)
  /-- COMB_STAGE_DISCARD (R175). Command resetting staged gains to targets and clearing marks. -/
  | combStageDiscard (m : Fin 4) (r : Req)
  /-- COMB_GAIN_READ (R176). Command reporting current, target or staged gains. -/
  | combGainRead (m : Fin 4) (r : Req)
  /-- COMB_STATUS (R176). Command reporting COMB_STAT, staged marks, ramping flags and the last commit. -/
  | combStatus (m : Fin 4) (r : Req)
  /-- CHIMNEY_STATUS (R173). Command reporting spark screen status of all cells and then clearing the masked ones. -/
  | chimneyStatus (m : Fin 4) (r : Req)
  /-- DOMAIN_INFO (R199). Command reporting HIVE_DOM_STAT and Q, P, R of the last change. -/
  | domainInfo (m : Fin 4) (r : Req)
  /-- DOMAIN_SET (R186). Command changing fM, F multiplier or S divider through fade, pause and restart. -/
  | domainSet (m : Fin 4) (r : Req)
  /-- BRIDGE_MODE_SET (R185). Command setting a bridge direction's filter mode at E, with a slip. -/
  | bridgeModeSet (m : Fin 4) (r : Req)
  /-- BRIDGE_STATUS (R199). Command reporting bridge modes and slip counts. -/
  | bridgeStatus (m : Fin 4) (r : Req)
  /-- TESTGEN_SET (R196). Command setting a test generator's waveform, frequency and level at E. -/
  | testgenSet (m : Fin 4) (r : Req)
  /-- BEL_INFO (R241). Command reporting Bellows channel configuration and group enables. -/
  | belInfo (m : Fin 4) (r : Req)
  /-- BEL_CONFIG (R240). Command configuring Bellows channels at E. -/
  | belConfig (m : Fin 4) (r : Req)
  /-- BEL_LOOP_SET (R214). Command setting loop coefficients and resetting integrators at E. -/
  | belLoopSet (m : Fin 4) (r : Req)
  /-- BEL_ENABLE (R223). Command enabling or disabling Bellows channels at E. -/
  | belEnable (m : Fin 4) (r : Req)
  /-- BEL_MUTE (R224). Command muting or unmuting Bellows channels at E. -/
  | belMute (m : Fin 4) (r : Req)
  /-- BEL_CARRIER_SET (R220). Command setting carrier spread mode and depth at E. -/
  | belCarrierSet (m : Fin 4) (r : Req)
  /-- BEL_STATUS (R241). Command reporting BEL_CH_STAT and BEL_CH_CNT per channel. -/
  | belStatus (m : Fin 4) (r : Req)
  /-- BEL_FAULT_CLEAR (R240). Command clearing Bellows fault bits and counters at E. -/
  | belFaultClear (m : Fin 4) (r : Req)
  /-- BEL_FAULT_POLICY (R240). Command setting driver-fault, mismatch and feedback-loss policies at E. -/
  | belFaultPolicy (m : Fin 4) (r : Req)
  /-- BEL_MEASURE_Z (R234). Deferred command measuring speaker impedance on one QUIET channel. -/
  | belMeasureZ (m : Fin 4) (r : Req)
  /-- STOVE_INFO (R281). Command reporting fM, DCO offset, lock state and clock output settings. -/
  | stoveInfo (m : Fin 4) (r : Req)
  /-- STKR_REF_CONFIG (R280). Command configuring one Stoker reference. -/
  | stkrRefConfig (m : Fin 4) (r : Req)
  /-- STKR_MODE_SET (R257). Command setting native or compatibility mode, revert, bandwidth and build-out parameters. -/
  | stkrModeSet (m : Fin 4) (r : Req)
  /-- STKR_SELECT (R256). Command naming or clearing the manually selected reference. -/
  | stkrSelect (m : Fin 4) (r : Req)
  /-- STKR_STATUS (R281). Command reporting STKR_STAT, phase error, build-out and gate numbers. -/
  | stkrStatus (m : Fin 4) (r : Req)
  /-- STKR_REF_STATUS (R281). Command reporting one reference's status and last measurements. -/
  | stkrRefStatus (m : Fin 4) (r : Req)
  /-- STOVE_OUT_SET (R247). Command changing MCLK0, MCLK1 and CLKOUT settings at E. -/
  | stoveOutSet (m : Fin 4) (r : Req)
  /-- STKR_SW_CONFIG (R272). Command enabling the software reference and naming its measure reference. -/
  | stkrSwConfig (m : Fin 4) (r : Req)
  /-- STKR_EMBER_READ (R281). Command reporting kept gate offsets and the Ember frequency. -/
  | stkrEmberRead (m : Fin 4) (r : Req)
  /-- PORT_INFO (R311). Command reporting port side configuration words. -/
  | portInfo (m : Fin 4) (r : Req)
  /-- PORT_CONFIG (R310). Command configuring an OFF port side, with a port side reset. -/
  | portConfig (m : Fin 4) (r : Req)
  /-- PORT_ENABLE (R303). Command enabling or disabling port sides or a whole group at E. -/
  | portEnable (m : Fin 4) (r : Req)
  /-- PORT_GROUP_SET (R302). Command adding a side to or removing it from an alignment group. -/
  | portGroupSet (m : Fin 4) (r : Req)
  /-- PORT_STATUS (R311). Command reporting port side status, counters, rate and position. -/
  | portStatus (m : Fin 4) (r : Req)
  /-- PORT_CLEAR (R310). Command clearing port status bits and counters. -/
  | portClear (m : Fin 4) (r : Req)
  /-- HW_INFO (R360). Command reporting chain status and slot rates and owners. -/
  | hwInfo (m : Fin 4) (r : Req)
  /-- HW_CHAIN_CONFIG (R358). Command configuring a Hivewire chain while it is off. -/
  | hwChainConfig (m : Fin 4) (r : Req)
  /-- HW_WALK (R343). Deferred command starting, continuing or stopping a discovery walk. -/
  | hwWalk (m : Fin 4) (r : Req)
  /-- HW_NODE_INFO (R360). Command reporting a node's descriptor, version and grant. -/
  | hwNodeInfo (m : Fin 4) (r : Req)
  /-- HW_SLOT_MAP (R357). Deferred command mapping a Hivewire slot at E via a node transaction. -/
  | hwSlotMap (m : Fin 4) (r : Req)
  /-- HW_NODE_XACT (R358). Deferred command reading or writing node registers. -/
  | hwNodeXact (m : Fin 4) (r : Req)
  /-- HW_STATUS (R360). Command reporting chain status, counters, round trip and line voltage. -/
  | hwStatus (m : Fin 4) (r : Req)
  /-- HW_CLEAR (R358). Command clearing chain status bits and counters. -/
  | hwClear (m : Fin 4) (r : Req)
  /-- HW_PARTNER_SET (R351). Deferred command naming or ending the chain's partner node. -/
  | hwPartnerSet (m : Fin 4) (r : Req)
  /-- DMPR_INFO (R388). Command reporting DMPR_STAT and sense readings. -/
  | dmprInfo (m : Fin 4) (r : Req)
  /-- DMPR_SUPPLY_CONFIG (R367). Command setting divider ratios and supply thresholds. -/
  | dmprSupplyConfig (m : Fin 4) (r : Req)
  /-- DMPR_CRANK_CURVE (R368). Command setting the crank ceiling curve. -/
  | dmprCrankCurve (m : Fin 4) (r : Req)
  /-- DMPR_OUT_CONFIG (R375). Command setting energy and DC rules of channels. -/
  | dmprOutConfig (m : Fin 4) (r : Req)
  /-- DMPR_LINE_CONFIG (R387). Command setting line trip, shunt, energy limit and retry parameters. -/
  | dmprLineConfig (m : Fin 4) (r : Req)
  /-- DMPR_STATUS (R388). Command reporting Damper status and per-channel ceilings. -/
  | dmprStatus (m : Fin 4) (r : Req)
  /-- DMPR_CLEAR (R387). Command clearing Damper latches, tries, W1C bits and kill count. -/
  | dmprClear (m : Fin 4) (r : Req)
  /-- DMPR_ENERGY_READ (R388). Command reporting energy window sums and DC means. -/
  | dmprEnergyRead (m : Fin 4) (r : Req)
  /-- MEM_INFO (R424). Command reporting memory block power states. -/
  | memInfo (m : Fin 4) (r : Req)
  /-- MEM_POWER_SET (R402). Command changing memory block power states at E. -/
  | memPowerSet (m : Fin 4) (r : Req)
  /-- MEM_ECC_STATUS (R423). Command reporting ECC counts per memory class. -/
  | memEccStatus (m : Fin 4) (r : Req)
  /-- MEM_ERR_READ (R410). Command reporting the first and latest uncorrectable error records. -/
  | memErrRead (m : Fin 4) (r : Req)
  /-- MEM_PATROL_SET (R421). Command configuring scrub and region tests. -/
  | memPatrolSet (m : Fin 4) (r : Req)
  /-- MEM_PATROL_STATUS (R424). Command reporting Patrol status and marker. -/
  | memPatrolStatus (m : Fin 4) (r : Req)
  /-- VAULT_WIPE (R417). Deferred command wiping the Vault. -/
  | vaultWipe (m : Fin 4) (r : Req)
  /-- VAULT_STATUS (R424). Command reporting Vault wipe state and history. -/
  | vaultStatus (m : Fin 4) (r : Req)
  /-- MEM_CLEAR (R421). Command clearing ECC counts, error log or MEM_OFF_ACC. -/
  | memClear (m : Fin 4) (r : Req)
  /-- PSP_INFO (R462). Command reporting the 15 PSP0 device profiles. -/
  | pspInfo (m : Fin 4) (r : Req)
  /-- PSP_DEV_CONFIG (R429). Command setting a PSP0 select code's profile. -/
  | pspDevConfig (m : Fin 4) (r : Req)
  /-- PSP_XFER (R461). Deferred command running a raw PSP0 transfer. -/
  | pspXfer (m : Fin 4) (r : Req)
  /-- FGR_RING_CONFIG (R450). Command configuring a Forager ring's kind, channels and buffer. -/
  | fgrRingConfig (m : Fin 4) (r : Req)
  /-- FGR_DESC_PUSH (R449). Command pushing descriptors onto a Forager ring. -/
  | fgrDescPush (m : Fin 4) (r : Req)
  /-- FGR_RING_ENABLE (R456). Command starting or stopping a stream ring at E. -/
  | fgrRingEnable (m : Fin 4) (r : Req)
  /-- FGR_STATUS (R462). Command reporting ring status, fill index and latest completion. -/
  | fgrStatus (m : Fin 4) (r : Req)
  /-- FGR_CLEAR (R461). Command clearing ring counters and PSP0 status bits. -/
  | fgrClear (m : Fin 4) (r : Req)
  /-- PSP_STATUS (R462). Command reporting PSP0 status and the tagged range. -/
  | pspStatus (m : Fin 4) (r : Req)
  /-- BOOT_INFO (R544). Command reporting boot status, slots, tunings and key slots. -/
  | bootInfo (m : Fin 4) (r : Req)
  /-- IMG_UPDATE_BEGIN (R532). Deferred command erasing the target slot and opening an update session. -/
  | imgUpdateBegin (m : Fin 4) (r : Req)
  /-- IMG_UPDATE_WRITE (R532). Deferred command programming a 4 KiB region of the target slot from the bulk area. -/
  | imgUpdateWrite (m : Fin 4) (r : Req)
  /-- IMG_UPDATE_END (R532). Deferred command sequencing, verifying and validating the target slot. -/
  | imgUpdateEnd (m : Fin 4) (r : Req)
  /-- IMG_CONFIRM (R532). Deferred command making the booted TRIAL slot ACTIVE and retiring the other. -/
  | imgConfirm (m : Fin 4) (r : Req)
  /-- TUNE_LOAD (R533). Deferred command loading and committing a tuning at one frame. -/
  | tuneLoad (m : Fin 4) (r : Req)
  /-- IMG_MEAS_EXTEND (R523). Command extending MEAS7 with a host digest. -/
  | imgMeasExtend (m : Fin 4) (r : Req)
  /-- LC_ADVANCE (R538). Deferred command advancing the life-cycle, wiping the Vault and resetting. -/
  | lcAdvance (m : Fin 4) (r : Req)
  /-- KEY_REVOKE (R539). Deferred command blowing a key-hash slot's revoke bit. -/
  | keyRevoke (m : Fin 4) (r : Req)
  /-- BOOT_RECOVERY_BEGIN (R510). Command setting the recovery flag and applying a system reset. -/
  | bootRecoveryBegin (m : Fin 4) (r : Req)
  /-- BOOT_PUSH (R537). ROM command accepting a pushed manifest or block part. -/
  | bootPush (m : Fin 4) (r : Req)
  /-- SVC_FAULT_READ (R569). Command reporting HRTH_FAULT and the fault log. -/
  | svcFaultRead (m : Fin 4) (r : Req)
  /-- SVC_FAULT_CLEAR (R568). Command emptying the fault log or clearing HRTH_FAULT W1C bits. -/
  | svcFaultClear (m : Fin 4) (r : Req)
  /-- SVC_SPK_TEST (R560). Deferred routine measuring and classifying speaker impedance per channel and frequency. -/
  | svcSpkTest (m : Fin 4) (r : Req)
  /-- SVC_DC_OFFSET (R562). Deferred routine averaging DC offset of QUIET channels over B blocks. -/
  | svcDcOffset (m : Fin 4) (r : Req)
  /-- SVC_MIC_LOOP (R563). Deferred routine driving a channel and analysing a captured microphone channel. -/
  | svcMicLoop (m : Fin 4) (r : Req)
  /-- SVC_LINE_HEALTH (R564). Deferred routine recording Hivewire line statistics over W frames. -/
  | svcLineHealth (m : Fin 4) (r : Req)
  /-- SVC_CAPTURE_READ (R565). Command copying captured frames into a bulk range. -/
  | svcCaptureRead (m : Fin 4) (r : Req)
  /-- SVC_ABORT (R566). Command stopping the running service routine at the next measurement boundary. -/
  | svcAbort (m : Fin 4) (r : Req)
  /-- EVT_INFO (R504). Command reporting pending, mask, ring state and record mask. -/
  | evtInfo (m : Fin 4) (r : Req)
  /-- EVT_COUNT_READ (R501). Command reporting a snapshot of event counters and SAT bits. -/
  | evtCountRead (m : Fin 4) (r : Req)
  /-- EVT_COUNT_CLEAR (R503). Command clearing event counters and SAT bits. -/
  | evtCountClear (m : Fin 4) (r : Req)
  /-- EVT_RING_CONFIG (R502). Command setting the record mask, clearing the dropped count or emptying the ring. -/
  | evtRingConfig (m : Fin 4) (r : Req)
  /-- EVT_TRACE_MARK (R503). Command writing a trace mark record to the ring. -/
  | evtTraceMark (m : Fin 4) (r : Req)
  /-- MBX_DOORBELL (R467). Host write to MBXn_DOORBELL ringing a mailbox or setting MBX_RING_LOST. -/
  | mbxDoorbell (n : Fin 4) (seq : Byte)
  /-- HRTH_RST_IANIK (R580). Keyed RESET_CTL write applying an Ianik reset. -/
  | hrthRstIanik (v : Word)
  /-- PSP_CNT_CLR (R447). Write of bit 23 of PSP1_STAT clearing PSP_ERR_CNT. -/
  | pspCntClr
  /-- WIN_PAGE_WRITE (R578). Write to WIN_PAGE selecting the mailbox RAM page for later transfers. -/
  | winPageWrite (v : Word)
  /-- STKR_SW_SEQ_READ (R273). Read of STKR_SW_SEQ latching STKR_SW_PHASE. -/
  | stkrSwSeqRead
  /-- STKR_SW_COMMIT (R274). Write committing STKR_SW_OFS to the Stove with a sequence number. -/
  | stkrSwCommit (v : Word)
  /-- FRAME_COUNT_LO_READ (R552). Read of FRAME_COUNT_LO latching the 64-bit frame counter copy. -/
  | frameCountLoRead
  /-- MEAS_LATCH_READ (R575). Read transfer starting in the MEAS range latching all eight MEAS registers. -/
  | measLatchRead
  /-- BIT_SET_ALIAS_WRITE (R396). Write through the bit-set alias performed as one read-modify-write. -/
  | bitSetAliasWrite (addr : BitVec 16) (v : Word)
  /-- BIT_CLEAR_ALIAS_WRITE (R396). Write through the bit-clear alias performed as one read-modify-write. -/
  | bitClearAliasWrite (addr : BitVec 16) (v : Word)
  /-- REGISTER_WRITE (R7). Host write to a register field with no behaviour of its own, by its access code. -/
  | registerWrite (addr : BitVec 16) (v : Word)
  /-- MAILBOX_RAM_WRITE (R398). Host write of a word into the mailbox RAM through the page window. -/
  | mailboxRamWrite (addr : BitVec 16) (v : Word) (coll : Option Word)
  /-- PSP1_COMMAND_UNIT (R440). Arrival of a PSP1 command and address unit starting a transfer or ignoring a bad command. -/
  | psp1CommandUnit (cmd : Byte) (addr : BitVec 16)
  /-- PSP1_SEL_RISE (R446). PSP1_SEL rising ending a transfer, with partial, short or extra handling. -/
  | psp1SelRise (k : SelRise)
  /-- PSP_BUZZED (R442). 64 wait edges without read data answering the read with buzz. -/
  | pspBuzzed
  /-- PSP_BUSY_DROP (R444). 64 wait edges on a write unit abandoning the rest of the transfer. -/
  | pspBusyDrop (addr : BitVec 16) (v : Word)
  /-- VDD_HEARTH_RISE (R26). VDD_HEARTH rising through its threshold, Hearth power-on reset and entry to HEARTH. -/
  | vddHearthRise (cfgOk keeperLow : Bool)
  /-- VDD_HEARTH_FALL (R26). VDD_HEARTH falling below its threshold taking the device OFF. -/
  | vddHearthFall
  /-- WAKE_REQUEST (R28). WAKE high for 64 Hearth cycles starting power-up when conditions hold. -/
  | wakeRequest (w : WakeBalls)
  /-- RST_N_LOW (R596). RST_N low for 32 Hearth samples applying a system reset and entering HEARTH. -/
  | rstNLow
  /-- RST_N_RISE (R29). RST_N rising allowing a pending wake to start power-up. -/
  | rstNRise
  /-- VDD_CORE_LOSS (R26). VDD_CORE below threshold for 1 µs forcing HEARTH and recording a supply loss. -/
  | vddCoreLoss
  /-- VDDIO_A_FAIL (R589). VDDIO_A failure acting as RST_N low. -/
  | vddioAFail
  /-- RAIL_FAIL (R590). VDDIO_B, VDD_LINE or VDDA_STOVE failure clearing HRTH_SUPPLY_OK. -/
  | railFail (r : Rail)
  /-- RAIL_GOOD (R589). A rail reaching its good threshold. -/
  | railGood (r : Rail)
  /-- VOLTAGE_GLITCH (R589). Voltage glitch declared, wiping the Vault and closing presence. -/
  | voltageGlitch
  /-- CLOCK_GLITCH (R589). Ianik clock period glitch declared, wiping the Vault. -/
  | clockGlitch
  /-- TAMPER_N_LOW (R417). TAMPER_N low for 1 µs wiping the Vault and raising EV59. -/
  | tamperNLow
  /-- VAULT_WIPE_COMPLETE (R417). Completion of the Vault zeroise and read-back. -/
  | vaultWipeComplete (clean : Bool)
  /-- KEEPER_RELEASE (R487). 32 consecutive high KEEPER samples resetting and arming the hold counter. -/
  | keeperRelease
  /-- KEEPER_HOLD (R487). Armed hold counter reaching 2.0 s opening the presence window. -/
  | keeperHold
  /-- PRESENCE_WINDOW_END (R488). Presence window count ending and closing the window. -/
  | presenceWindowEnd
  /-- THERMAL_CONVERSION (R553). Periodic junction temperature conversion raising EV57 or EV58. -/
  | thermalConversion (tj : F32)
  /-- TRST_N_LOW (R598). TRST_N low loading IDCODE into the test access port. -/
  | trstNLow
  /-- EXTEST (R599). Boundary scan instruction driving balls from the boundary register under system reset. -/
  | extest (drive : List Bool)
  /-- IDCODE (R598). Boundary scan instruction selecting the identification register. -/
  | idcode
  /-- SAMPLE_PRELOAD (R598). Boundary scan instruction sampling and preloading the boundary register. -/
  | samplePreload (sampled preload : List Bool)
  /-- CLAMP (R599). Boundary scan instruction holding outputs from the boundary register with bypass. -/
  | clamp
  /-- HIGHZ (R599). Boundary scan instruction placing outputs in high impedance. -/
  | highz
  /-- BYPASS (R598). Boundary scan bypass instruction, also taken by unknown codes; leaving EXTEST, CLAMP or HIGHZ enters HEARTH. -/
  | bypass (code : BitVec 4)
  /-- POWER_UP_STEP (R505). Completion or failure of a power-up self-test step. -/
  | powerUpStep (res : StepResult)
  /-- POWER_UP_BUDGET_EXPIRY (R506). 12 ms budget expiring before step 9 passes. -/
  | powerUpBudgetExpiry
  /-- BOOT_SOURCE_START (R511). ROM starting the next boot source once Ianik RAM has passed. -/
  | bootSourceStart
  /-- MANIFEST_VERIFIED (R521). Completion of the manifest signature and key check. -/
  | manifestVerified (media : Bool)
  /-- BLOCK_VERIFIED (R522). Completion of a block read and digest check. -/
  | blockVerified (media : Bool)
  /-- PUSH_WAIT_TIMEOUT (R537). 2.0 s without a BOOT_PUSH failing the push source. -/
  | pushWaitTimeout
  /-- STANDBY_REACHED (R26). Boot chain complete with the Stove locked, HRTH_STATUS reporting STANDBY. -/
  | standbyReached
  /-- M_FRAME_TICK (R13). M frame tick advancing the frame counter and applying changes stamped for the frame. -/
  | mFrameTick (ups : List Upset)
  /-- F_FRAME_TICK (R15). F frame tick at an offset inside the M frame. -/
  | fFrameTick (ups : List Upset)
  /-- DOORBELL_STROBE (R603). Doorbell strobe at Hive cycle 16,000 sampling mailboxes and posting responses. -/
  | doorbellStrobe
  /-- RUN_TO_STANDBY_COMPLETE (R26). Completion of muting, line power off and Hive halt. -/
  | runToStandbyComplete
  /-- HEARTH_ENTRY_RESET (R26). System reset of every island but the Hearth completing a HEARTH entry. -/
  | hearthEntryReset
  /-- CELL_WINDOW (R66). Cell window in which each cell issues its L program slots. -/
  | cellWindow (d : Dom) (n : Nat) (ups : List Upset)
  /-- STORE_TURN (R139). A waiting cell Store access performed at its Waggle turn. -/
  | storeTurn (c : Fin 32) (ups : List Upset)
  /-- CHIMNEY_PHASE (R167). Collection of cell outboxes into source columns. -/
  | chimneyPhase (d : Dom)
  /-- OUTLET_PHASE (R152). Comb computing external sinks and writing outbound entries. -/
  | outletPhase (d : Dom) (ups : List Upset)
  /-- CELL_QUEUE_ENTRY_ARRIVAL (R81). Arrival of a cell queue message, applied at once if unstamped or dropped if stale. -/
  | cellQueueEntryArrival
  /-- SEALED_CLEAR_DONE (R94). Completion of the sealed-role clear raising EV10. -/
  | sealedClearDone (c : Fin 32)
  /-- CELL_FAULT_FADE_END (R97). End of a fault fade or fade-in count. -/
  | cellFaultFadeEnd (c : Fin 32)
  /-- RAMP_END (R161). A column's ramp reaching its length, possibly raising EV14. -/
  | rampEnd (d : Dom) (col : Nat)
  /-- RATE_CHANGE_LOCK_TIMEOUT (R192). 4 ms without Stove lock after P ending the change in lock timed out. -/
  | rateChangeLockTimeout
  /-- STOVE_COMPARISON (R242). Stove comparison of the reference edge with the DCO feedback edge. -/
  | stoveComparison (x : Comparison)
  /-- MEASUREMENT_GATE_END (R251). End of a 1 s gate taking reference frequency results. -/
  | measurementGateEnd (offs : List (Option Int)) (dco : Int)
  /-- WAIT_TO_RESTORE_EXPIRY (R258). Wait-to-restore time ending and a revertive switch becoming due. -/
  | waitToRestoreExpiry (ref : Fin 13)
  /-- QUALIFY_END (R260). 16 comparisons of qualify ending with pass or drop of the target. -/
  | qualifyEnd (freq : Option Int) (phase : Int)
  /-- MOVE_END (R261). End of move selecting the target and raising EV16 and EV22. -/
  | moveEnd
  /-- SETTLE_TIMEOUT (R262). 8,000 comparisons without settling declared a lock loss. -/
  | settleTimeout
  /-- RELOCK_ACQUIRE (R269). After the Bellows acknowledgement, acquiring the best reference or crystal. -/
  | relockAcquire
  /-- RELOCK_ATTEMPT_TIMEOUT (R269). 32 comparisons without lock moving the relock to the next reference. -/
  | relockAttemptTimeout
  /-- SW_REF_WATCHDOG (R275). Software reference lost when no commit applied within the watchdog period. -/
  | swRefWatchdog
  /-- CRYSTAL_STOPPED (R254). No crystal edge for 16 Hearth cycles, holding Ember open-loop and recording the stop. -/
  | crystalStopped
  /-- STOVE_TICK_MISSING (R254). No M tick for 1,024 Hearth cycles raising EV21 and relocking. -/
  | stoveTickMissing
  /-- BELLOWS_UPDATE (R213). Bellows update instant computing the modulation index of each channel. -/
  | bellowsUpdate (fb : List (BitVec 16 × BitVec 16))
  /-- DRV_WAKE_END (R223). BEL_DRV_WAKE frames elapsed, WAKING channels start switching in QUIET. -/
  | drvWakeEnd (g : Fin 8)
  /-- UNMUTE_START (R224). Unmute ramp starting after effect frame and 2 frames of QUIET. -/
  | unmuteStart (c : Fin 32)
  /-- MUTE_RAMP_END (R224). Mute gain reaching 0 or 1 entering QUIET or PLAYING. -/
  | muteRampEnd (c : Fin 32)
  /-- DISABLE_STOP (R225). Channel stopping at a carrier end after a muted disable. -/
  | disableStop (c : Fin 32)
  /-- KILL_ENTER (R227). Kill status copy reading killed, channel entering KILLED. -/
  | killEnter (c : Fin 32)
  /-- KILL_RELEASE_RESTART (R228). Kill released, channel restarting at a carrier boundary. -/
  | killReleaseRestart (c : Fin 32)
  /-- DRIVER_FAULT (R229). DRV_FAULT low for 8 counts taking the group FAULTED with EV40. -/
  | driverFault (g : Fin 8)
  /-- DRIVER_FAULT_RETRY (R230). 1 s after a driver fault reasserting DRV_EN under the retry policy. -/
  | driverFaultRetry (g : Fin 8)
  /-- FEEDBACK_LOSS (R212). Bitstream constant for 256 FB_CLK cycles declared lost with EV41. -/
  | feedbackLoss (c : Fin 32) (volt : Bool)
  /-- MISMATCH_WINDOW_END (R217). End of a 64-update window detecting feedback mismatch. -/
  | mismatchWindowEnd
  /-- BELLOWS_MUTE_REQUEST (R231). Stoker mute request ramping channels down to HELD. -/
  | bellowsMuteRequest
  /-- BELLOWS_MUTE_ACK (R231). Acknowledgement once no channel is switching. -/
  | bellowsMuteAck
  /-- MEASURE_Z_COMPLETE (R234). Impedance measurement completing with EV4. -/
  | measureZComplete
  /-- DAMPER_ADC_SAMPLE (R361). Damper ADC conversion slot sampling a sense input. -/
  | damperAdcSample (slot : Fin 8) (code : BitVec 12)
  /-- ENERGY_BLOCK_END (R371). End of a 12,288-FB_CLK energy and DC block. -/
  | energyBlockEnd (bits : List (List (BitVec 16 × BitVec 16)))
  /-- COOL_DOWN_END (R372). Energy cool-down ending and restoring the ceiling. -/
  | coolDownEnd (c : Fin 32)
  /-- ENERGY_TRIES_RESET (R372). 10 s without excess returning DMPR_C_TRIES to 0. -/
  | energyTriesReset (c : Fin 32)
  /-- LINE_RETRY (R379). Retry time after a trip requesting a walk. -/
  | lineRetry (x : Fin 2)
  /-- LINE_TRIES_RESET (R379). 10 s powered without trip returning line tries to 0. -/
  | lineTriesReset (x : Fin 2)
  /-- STORED_ENERGY_CHECK (R381). Damper check of line stored energy granting or refusing the permit. -/
  | storedEnergyCheck (x : Fin 2)
  /-- LINE_PERMIT_LAPSE (R382). Line permit lapsing 1 ms after grant. -/
  | linePermitLapse (x : Fin 2)
  /-- PORT_FRAME_COMPLETE (R285). Port side completing a frame at a good frame sync and filling its entry. -/
  | portFrameComplete (f : PortFrame)
  /-- FRAME_SYNC_GLITCH (R297). Frame sync at a wrong count discarding the frame. -/
  | frameSyncGlitch (p : Fin 8) (side : Side)
  /-- HOLD_STAGE_CHECK (R295). Hold stage substituting an incomplete receive entry at cycle 31,999. -/
  | holdStageCheck (p : Fin 8) (edgeSeen : Bool)
  /-- TRANSMIT_PIN_FRAME_OPEN (R296). Transmit pin frame opening, sending 0 on an incomplete entry. -/
  | transmitPinFrameOpen (p : Fin 8)
  /-- LOSS_OF_CLOCK (R298). Two frame periods without frame sync declaring loss with tail-out. -/
  | lossOfClock (p : Fin 8) (side : Side)
  /-- PORT_MEASURE_DONE (R301). 64 good frames measured, rate checked, side aligned and fade-in started: `period` is the length of the 64 frames and `pos` the position of the last, both in Hive cycles. -/
  | portMeasureDone (p : Fin 8) (side : Side) (period pos : Nat)
  /-- GROUP_ALIGN_TIMEOUT (R303). Member not ready 256 frames after group enable aligning alone. -/
  | groupAlignTimeout (g : Fin 4)
  /-- LINE_FRAME_RECEIVED (R331). Upstream region of a line frame received, checked and delivered. -/
  | lineFrameReceived (x : Fin 2) (f : LineFrame)
  /-- CONTROL_REPLY_RECEIVED (R335). Whole node reply message accepted by the master. -/
  | controlReplyReceived (x : Fin 2)
  /-- CONTROL_REQUEST_RETRY (R336). Request without a good reply sent again, or ended with TIMEOUT. -/
  | controlRequestRetry (x : Fin 2)
  /-- DISCOVER_REPEAT (R344). DISCOVER repeated every 2 M frames during a walk. -/
  | discoverRepeat (x : Fin 2)
  /-- DISCOVER_TIMEOUT (R344). HW_BOOT_TMO frames without an answer stopping the walk. -/
  | discoverTimeout (x : Fin 2)
  /-- WALK_VSNS_LOW (R343). Line voltage below 1.0 V allowing hop 1 to be checked and powered. -/
  | walkVsnsLow (x : Fin 2)
  /-- WALK_VGOOD_REACHED (R343). LINEx_VSNS reaching HW_VGOOD, discovery begins. -/
  | walkVgoodReached (x : Fin 2)
  /-- WALK_VGOOD_TIMEOUT (R343). Line voltage wait timing out stopping the walk with VGOOD. -/
  | walkVgoodTimeout (x : Fin 2)
  /-- NODE_LOSS (R346). 16 frames without heartbeat declaring nodes lost with EV33 or EV37. -/
  | nodeLoss (x : Fin 2) (node : Nat)
  /-- SLOT_TAIL_OUT_END (R347). Lost node's upstream slots taking rate off after tail-out. -/
  | slotTailOutEnd (x : Fin 2)
  /-- AUTO_WALK_RETRY (R348). HW_RETRY frames elapsed starting an automatic walk. -/
  | autoWalkRetry (x : Fin 2)
  /-- PSP0_TRANSACTION_END (R434). End of a PSP0 transaction and start of the next waiting request. -/
  | psp0TransactionEnd (data : List Byte)
  /-- PSP0_RDY_TIMEOUT (R430). PSP0_RDY low for PSP_RDY_TMO causing a media error. -/
  | psp0RdyTimeout
  /-- STATUS_POLL (R432). Status poll of a programming device, with media error after PSP_PROG_TMO polls. -/
  | statusPoll (status : Byte)
  /-- FETCH_MISS (R435). Ianik fetch missing the prefetch buffer starting a demand fill. -/
  | fetchMiss (addr : Nat)
  /-- LINE_FILL_COMPLETE (R438). Fill completing, tag-checked and installed or rejected. -/
  | lineFillComplete (media : Bool)
  /-- DESCRIPTOR_START (R451). A Forager descriptor starting once its buffer condition holds. -/
  | descriptorStart (ring : Fin 16)
  /-- DESCRIPTOR_COMPLETE (R455). Descriptor completing with OK, LATE, MEDIA or STOPPED. -/
  | descriptorComplete (ring : Fin 16)
  /-- DEADLINE_MISS (R454). Descriptor incomplete at the tick of its deadline raising EV48. -/
  | deadlineMiss (ring : Fin 16)
  /-- PATROL_SCRUB_READ (R411). Patrol scrub read of a memory word. -/
  | patrolScrubRead (w : WordAt) (ups : List Upset)
  /-- REGION_INTERVAL_EXPIRY (R412). Region interval expiring making a region test due. -/
  | regionIntervalExpiry
  /-- REGION_TEST_START (R413). Region test starting after a doorbell strobe. -/
  | regionTestStart
  /-- PATROL_MARKER_ACK (R414). Hearth acknowledging a marker write, the engine entering the next phase. -/
  | patrolMarkerAck
  /-- EVENT_DELIVERY (R545). Event handshake reaching the event block, counting and setting pending. -/
  | eventDelivery (n : Fin 64)
  /-- COMPLETION_RECORD_WRITE (R478). Writing a waiting completion record once ring room exists, raising EV4. -/
  | completionRecordWrite
  /-- CROSSING_TIMEOUT (R40). Handshake unacknowledged for 1,024 sender cycles raising EV52. -/
  | crossingTimeout (src dst : Fin 26)
  /-- WATCHDOG_EXPIRY (R491). Ianik watchdog expiring, recording the fault and raising EV63; `earlier` expiries fell within
  the 10 s before it. -/
  | watchdogExpiry (earlier : Fin 4)
  /-- IANIK_RESET_EXIT (R493). Ianik leaving reset, recovering Patrol, writing TIMEOUT completions and resuming service. -/
  | ianikResetExit
  /-- FIRMWARE_FAULT (R495). Firmware fault survived and reported with EV5. -/
  | firmwareFault (cls : Byte) (code : BitVec 24)
  /-- HEARTH_RESPONDER_SERVE (R483). Hearth responder sampling and answering a mailbox ring in Hearth-safe. -/
  | hearthResponderServe (n : Fin 4)
  /-- HEARTH_RESPONDER_RESET (R499). Hearth responder applying a system reset 100 µs after its response. -/
  | hearthResponderReset
  /-- CRYSTAL_RESUME (R254). The Hearth sees crystal edges again after declaring the crystal stopped, so gate results, tolerance disqualification and crystal qualification resume. -/
  | crystalResume
  /-- TEST_LOGIC_RESET (R598). The test access port reaching the Test-Logic-Reset state through TMS loads IDCODE, and leaving EXTEST, CLAMP or HIGHZ this way takes the device to HEARTH. -/
  | testLogicReset
  /-- REGION_TEST_PHASE_END (R412). The SAVE copy, the March C- TEST or the RESTORE read-back of a region test finishes, which writes the next marker phase or returns the marker to idle. -/
  | regionTestPhaseEnd (failed : List Nat) (readBackOk : Bool)
  deriving DecidableEq, Repr

end Sys2Proof
end

