-- ==== Sys2Proof/Decode.lean ====
section
/-! DEFINITION. The command that a word spells by the bits of spec/opcode_table.json. No row of the table
gives bits: the commands come through mailboxes, registers, pins and clocks. -/

namespace Sys2Proof

/-- The command a table word spells: no row of the opcode table gives bits, so none. -/
def decodeTableWord (_nbits _w : Nat) : Option Instr := none

end Sys2Proof
end

