-- ==== Sys2Proof/Config.lean ====
section
/-! DEFINITION. What the specification leaves open: free values, each an opaque constant without a body, so
that nothing can be proved of a value it takes. A statement about one holds whatever it is. -/

namespace Sys2Proof.Config

/-- A free 32-bit value, by the number of the draw (DESIGN CHOICE, log entry 2). -/
opaque freeWord : Nat → Word

/-- A free 64-bit value, by the number of the draw (DESIGN CHOICE, log entry 2). -/
opaque freeLong : Nat → BitVec 64

/-- A special function's result where the specification bounds its error and states no value: function 0 RCP
to 5 TANH, by its operand (R145, R146, log entry 6). -/
opaque sfu : Nat → F32 → F32

/-- SIN2PI of a test generator's phase accumulator other than 0 (R196, R145, log entry 6). -/
opaque genSine : Word → F32

/-- A tap of a bridge filter: whether it interpolates, G, the ratio r and the tap's distance from the centre, 1 to G r
(R181, log entry 7). -/
opaque bridgeTap : Bool → Nat → Nat → Nat → F32

/-- A tap of an edge rate converter's filter: input samples an M frame, and the tap's distance from the centre in input
samples (R193, R194, log entry 68). -/
opaque ercTap : Rat → Rat → F32

/-- The rates a firmware configuration names, by its measurement: the fM code in bits 1:0, the m code in bits 5:4
and the d code in bits 9:8, a code of 0 for m or d naming none (R179, log entry 8). -/
opaque fwRates : BitVec 256 → Word

/-- A tap of a Bellows input filter: the path, 0 M or the F multiplier, and the tap's distance from the centre, 0 to G_u
(R207, log entry 7). -/
opaque belTap : Nat → Nat → F32

/-- The phase in degrees of a sine of given in-phase and quadrature parts (R563, log entry 9). -/
opaque fitPhase : Rat → Rat → F32

/-- The SHA-256 of the Hearth configuration and the fuse image, by the fuses: life-cycle, PUSH_OFF and revoke bits in
one word, then the key hashes and the select 0 profile (R523, log entry 2). -/
opaque fuseDigest : List Word → BitVec 256

/-! The content of image components. The specification names their kinds and fixes no layout (R519), so what a
component says is a free function of its digest (log entry 20). -/

/-- A cell program set or coefficient set holds the image of this ID (R103, R519, log entry 20). -/
opaque imageIn : BitVec 256 → BitVec 16 → Bool

/-- The words of an image: program words, least significant 32 bits first, or coefficients (log entry 20). -/
opaque imageWords : BitVec 256 → BitVec 16 → List Word

/-- The metadata of an image: for a program L and the 32 words of its descriptors; for a coefficient set the start
and the length of its patch window (R63, log entry 20). -/
opaque imageMeta : BitVec 256 → BitVec 16 → List Word

/-- The cells that a cell program set names (R533, log entry 20). -/
opaque tuneMask : BitVec 256 → Word

/-- What a cell program set says of a cell, as word 3 of CELL_ROLE_SET: domain, slot, CLEAR and image ID (R533, log
entry 20). -/
opaque tuneCell : BitVec 256 → Nat → Word

/-- The image ID that a coefficient set gives a cell (R533, log entry 20). -/
opaque tuneCoef : BitVec 256 → Nat → BitVec 16

/-- The outlet map (true) or intake map of a Comb in the Comb defaults, from column 0 (R519, log entry 20). -/
opaque tuneMap : BitVec 256 → Nat → Bool → List ChanId

/-- The gains of a Comb in the Comb defaults, in node order (R519, log entry 20). -/
opaque tuneGains : BitVec 256 → Nat → List F32

/-- The ramp length of the Comb defaults (R533, log entry 20). -/
opaque tuneRamp : BitVec 256 → BitVec 16

/-- A port and Hivewire configuration: words 3 and 4 of PORT_CONFIG for the receive and the transmit side of each
port, then words 3 to 8 of HW_CHAIN_CONFIG for each chain (R519, log entry 20). -/
opaque tunePorts : BitVec 256 → List Word

/-- The Damper configuration of a firmware configuration: words 3 to 11 of DMPR_SUPPLY_CONFIG and 3 to 18 of
DMPR_CRANK_CURVE (R519, log entry 20). -/
opaque fwDamper : BitVec 256 → List Word

/-- AUTO_RUN of a firmware configuration in bit 0, the Bellows, chain A and chain B it releases in bits 4 to 6 (R526,
log entry 20). -/
opaque fwAuto : BitVec 256 → Word

/-- The channels of the early tuning that AUTO_RUN enables (R526, log entry 20). -/
opaque fwChannels : BitVec 256 → Word

/-- The line number at which the tagged range of a line-tag table begins (R437, log entry 20). -/
opaque tagBase : BitVec 256 → Nat

/-- The Ianik RAM block that a line-tag table takes, IB1 to IB6 as 0 to 5 (R437, log entry 20). -/
opaque tagBlock : BitVec 256 → Nat

/-- The key for sealed tunings that the firmware derives at boot, by MEAS0, which covers the fuses and the life-cycle
(R416, R538, log entry 21). -/
opaque sealKey : BitVec 256 → BitVec 256

/-- A sealed component, by its digest, decrypts with the key words that stand in the Vault (R522, log entry 21). -/
opaque unseals : BitVec 256 → List Word → Bool

end Sys2Proof.Config
end

