-- ==== Sys2Proof/Machine/State.lean ====
section
/-! DEFINITION. The state of the Nolael as plain data: every register, memory, queue, counter, mode and
pin the spec gives the device, and the queue of waiting commands. A field's default is its reset value.
Each field's docstring reads: what it is | width | rule | reset. -/

namespace Sys2Proof.Machine

/-- Why a step stops. The spec gives every command an effect, so nothing stops with a fault. -/
inductive Fault where
  deriving DecidableEq, Repr

/-- Why a command has no meaning here. -/
inductive Refusal where
  /-- Raised by an arm of exec whose command has no meaning yet; safe, nothing is claimed of it. -/
  | notModelled (mnemonic : String)
  deriving DecidableEq, Repr

/-! ### Sparse memories -/

/-- A memory as its listed bytes, addresses strictly rising, no byte equal to the unlisted value. -/
abbrev Mem := List Host.Cell

/-- Sparse data by key, keys strictly rising, no value equal to the default. -/
abbrev Sparse (α : Type) := List (Nat × α)

/-! ### Hearth -/

/-- The power states of HRTH_PWR (R25, R579) and OFF. -/
inductive Power where
  | off | hearth | powerUp | standby | run | hearthSafe | runToStandby | standbyToHearth
  deriving DecidableEq, Repr

/-- The security life-cycle (R1, R538). -/
inductive LifeCycle where
  | blank | develop | production | returned
  deriving DecidableEq, Repr

/-- The power state and what decides it. -/
structure PowerSt where
  /-- power state | 4 bits | 17 R579, 01 R25 | HEARTH -/
  st : Power := .hearth
  /-- Hive sequencer released | 1 bit | 17 R579 | 0 -/
  seqHive : Bool := false
  /-- Bellows sequencer released | 1 bit | 17 R579 | 0 -/
  seqBel : Bool := false
  /-- chain A, B sequencers released | 2 × 1 bit | 17 R579 | 0 -/
  seqHw : Vector Bool 2 := .replicate 2 false
  /-- Ianik is held in reset | 1 bit | 17 R579 | 0 -/
  ianikRst : Bool := false
  /-- cause of the latest Ianik reset | 4 bits | 17 R580 | 0 -/
  rstLast : BitVec 4 := 0
  /-- boot-critical flag | 1 bit | 15 R509, 17 R579 | 0 -/
  bootCrit : Bool := false
  /-- one-shot recovery flag | 1 bit | 15 R510, 17 R579 | 0 -/
  recovery : Bool := false
  /-- WAKE reads high | 1 bit | 17 R579, 01 R28 | 0 -/
  wakePin : Bool := false
  /-- a wake request not yet acted on | 1 bit | 01 R28 R34 | 0 -/
  wakeHeld : Bool := false
  /-- RST_N reads high | 1 bit | 18 R586 R596 | DESIGN CHOICE 1 (log entry 4) -/
  rstN : Bool := true
  /-- BOOT_SEL[1:0] as the latest wake request gives it | 2 bits | 15 R511 | DESIGN CHOICE 0 (log entry 4) -/
  bootSel : BitVec 2 := 0
  /-- rails reporting good, in the order of R589 from VDD_HEARTH | 6 × 1 bit | 18 R589, 17 R579 | VDD_HEARTH good, others not (HRTH_SUPPLY_OK 0) -/
  rails : Vector Bool 6 := #v[true, false, false, false, false, false]
  /-- wakes since the Hearth power-on reset | 8 bits | 17 R579 | 0 -/
  wakes : Byte := 0
  /-- life-cycle fuses | 2 bits | 00 R1, 15 R538 | BLANK (0b00) -/
  lc : LifeCycle := .blank
  /-- boot attempt count | 2 bits | 15 R513 | 0 -/
  attempts : Nat := 0
  /-- a commanded HEARTH entry is to be followed by nothing but its reset (R26); a SYS_RESET system reset pends on STANDBY (R499) | 1 bit | 14 R499 | 0 -/
  sysResetPends : Bool := false
  /-- HRTH_STATUS has reported STANDBY since the system reset | 1 bit | 14 R486 | 0 -/
  sawStandby : Bool := false
  deriving DecidableEq, Repr

/-- One entry of the fault log (R557). -/
structure LogEntry where
  cause : Byte
  wakes : Byte
  detail : BitVec 16
  frame : Word
  hcycles : BitVec 64
  deriving DecidableEq, Repr

/-- The fault record (R555, R556). -/
structure FaultRec where
  /-- failed power-up step | 4 bits | 16 R555 | 0 -/
  step : BitVec 4 := 0
  /-- HRTH_F_SAFE | 1 bit | 16 R555 | 0 -/
  safe : Bool := false
  /-- HRTH_F_FETCH | 1 bit | 16 R555 | 0 -/
  fetch : Bool := false
  /-- HRTH_F_WDOG | 1 bit | 16 R555 | 0 -/
  wdog : Bool := false
  /-- HRTH_F_WDOG4 | 1 bit | 16 R555 | 0 -/
  wdog4 : Bool := false
  /-- HRTH_F_VAULT | 1 bit | 16 R555, 12 R419 | 0 -/
  vault : Bool := false
  /-- HRTH_F_XTAL | 1 bit | 16 R555 | 0 -/
  xtal : Bool := false
  /-- HRTH_F_TICK | 1 bit | 16 R555 | 0 -/
  tick : Bool := false
  /-- HRTH_F_SUPPLY | 1 bit | 16 R555 | 0 -/
  supply : Bool := false
  /-- HRTH_F_TAMPER | 1 bit | 16 R555 | 0 -/
  tamper : Bool := false
  /-- HRTH_F_GLITCH | 1 bit | 16 R555 | 0 -/
  glitch : Bool := false
  /-- HRTH_F_XTO | 1 bit | 16 R555 | 0 -/
  xto : Bool := false
  /-- HRTH_F_THERM | 1 bit | 16 R555 | 0 -/
  therm : Bool := false
  /-- sender island of the latest crossing timeout | 5 bits | 16 R555 | 0 -/
  xsrc : BitVec 5 := 0
  /-- receiver island of the latest crossing timeout | 5 bits | 16 R555 | 0 -/
  xdst : BitVec 5 := 0
  /-- fault log, newest first | 16 entries × 4 words | 16 R556 R557 | empty -/
  log : List LogEntry := []
  /-- overwrite count of the log | 8 bits | 16 R556 | 0 -/
  overwrites : Nat := 0
  deriving DecidableEq, Repr

/-- KEEPER and the presence window (R487 to R489). -/
structure Keeper where
  /-- presence window open | 1 bit | 14 R489 | 0 -/
  isOpen : Bool := false
  /-- KEEPER reads low | 1 bit | 14 R489 | 0 -/
  pin : Bool := false
  /-- a hold counts toward a window | 1 bit | 14 R489 | 0 -/
  armed : Bool := false
  /-- window length L in seconds | 12 bits | 14 R489 | 600 -/
  len : Nat := 600
  /-- length the open window's count started from, in seconds | 12 bits | 14 R488 R489 | 0 -/
  openLen : Nat := 0
  deriving DecidableEq, Repr

/-- The watchdog, the thermal sensor and the Patrol marker, which the Hearth keeps. -/
structure HearthUnits where
  /-- watchdog period P in ms | 10 bits | 14 R491 | 100 -/
  wdP : Nat := 100
  /-- expiries in the current 10 s window | 3 bits | 14 R494 | 0 -/
  wdWindow : Nat := 0
  /-- expiries since the system reset | 8 bits | 14 R500 | 0 -/
  wdTotal : Nat := 0
  /-- the count runs anew with P since its last restart | 1 bit | 14 R491 | DESIGN CHOICE 0 (log entry 4) -/
  wdRestarted : Bool := false
  /-- last junction temperature | binary32 | 16 R553 | DESIGN CHOICE +0.0 (log entry 4) -/
  tj : F32 := 0
  /-- EV57 waits for a conversion below 110 °C | 1 bit | 16 R553 | 0 -/
  warnHeld : Bool := false
  /-- EV58 waits for a conversion below 125 °C | 1 bit | 16 R553 | 0 -/
  critHeld : Bool := false
  /-- RUN requests are refused until a conversion below 110 °C | 1 bit | 16 R554 | 0 -/
  runBarred : Bool := false
  /-- the thermal transition starts 2 M frames after the next strobe | 1 bit | 16 R554 | 0 -/
  thermPends : Bool := false
  /-- HRTH_PM_PHASE | 2 bits | 12 R414 | 0 -/
  pmPhase : BitVec 2 := 0
  /-- HRTH_PM_MEM | 1 bit | 12 R414 | 0 -/
  pmMem : Bool := false
  /-- HRTH_PM_REGION | 13 bits | 12 R414 | 0 -/
  pmRegion : Nat := 0
  /-- HRTH_PM_PASS | 16 bits | 12 R414 | 0 -/
  pmPass : Nat := 0
  /-- HRTH_PM_CRC | 32 bits | 12 R414 | 0 -/
  pmCrc : Word := 0
  /-- crystal declared stopped | 1 bit | 08 R254 | 0 -/
  xtalStopped : Bool := false
  deriving DecidableEq, Repr

/-- The instructions of the test access port (R598). -/
inductive TapInstr where
  | extest | idcode | samplePreload | clamp | highz | bypass
  deriving DecidableEq, Repr

/-- Boundary scan (R598, R599). -/
structure Scan where
  /-- test access port instruction | 4 bits | 18 R598 | IDCODE -/
  ir : TapInstr := .idcode
  /-- EXTEST, CLAMP or HIGHZ is in force and the Hearth holds the system reset | 1 bit | 18 R599 | 0 -/
  inForce : Bool := false
  /-- boundary register, one bit a signal ball it covers | 1 bit a ball | 18 R598 | DESIGN CHOICE no bits set (log entry 4) -/
  boundary : List Bool := []
  deriving DecidableEq, Repr

/-! ### Events, host port, mailboxes -/

/-- One response posted or to be posted (R473). -/
structure Response where
  opcode : BitVec 16
  status : Byte
  ver : Byte
  tag : BitVec 16
  target : Word
  payload : List Word
  deriving DecidableEq, Repr

/-- A deferred command's outcome waiting for ring room (R476, R478). -/
structure Completion where
  opcode : BitVec 16
  status : Byte
  mbx : Nat
  tag : BitVec 16
  payload : List Word
  deriving DecidableEq, Repr

/-- The event block (R545 to R552) and the source side of the event crossings (R50). -/
structure Events where
  /-- EVT_PEND0, EVT_PEND1 | 64 bits | 16 R552 | 0 -/
  pend : BitVec 64 := 0
  /-- EVT_MASK0, EVT_MASK1 | 64 bits | 16 R552 | 0x7000_0000_0000_0000 -/
  mask : BitVec 64 := 0x7000000000000000
  /-- EVT_SAT0, EVT_SAT1 | 64 bits | 16 R552 | 0 -/
  sat : BitVec 64 := 0
  /-- EVT_COUNT0 to EVT_COUNT63 | 64 × 32 bits | 16 R551 | 0 -/
  counts : Vector Nat 64 := .replicate 64 0
  /-- occurrence accumulators at the sources | 64 × 16 bits | 02 R50 | 0 -/
  acc : Vector Nat 64 := .replicate 64 0
  /-- the share of those that a source beside the event's own has raised, key 32 × event + island of R555 | 16 bits each | 02 R50 R57 | none -/
  parts : Sparse Nat := []
  /-- detail words carried with the next delivery | 64 × 32 bits | 16 R546 R550 | 0 -/
  detail : Vector Word 64 := .replicate 64 0
  /-- record mask of EVT_RING_CONFIG | 64 bits | 14 R502 | 0xFFFF_FFFF_FFFF_FFE0 -/
  recMask : BitVec 64 := 0xFFFFFFFFFFFFFFE0
  /-- sequence number of the next ring record | 16 bits | 14 R476 | DESIGN CHOICE 0 (log entry 4) -/
  ringSeq : Nat := 0
  /-- ring head, word index 0 to 1,019 | 32 bits in mailbox RAM word 0xF000 | 14 R464 R477 | 0 -/
  head : Nat := 0
  /-- last valid ring tail Ianik read | word index 0 to 1,019 | 14 R477 | 0 -/
  tail : Nat := 0
  /-- ring dropped count | 32 bits in mailbox RAM word 0xF008 | 14 R478 | 0 -/
  dropped : Nat := 0
  /-- completion records waiting for room, oldest first | queue | 14 R478 | empty -/
  waiting : List Completion := []
  deriving DecidableEq, Repr

/-- The transfer on PSP1: its direction, the data units left, the current address, its area, its page, whether its rest
is ignored, and whether it latched MEAS (R440, R444, R445, R446, R575). -/
structure Transfer where
  read : Bool
  count : Nat
  addr : Nat
  area : Nat
  page : Bool
  dead : Bool := false
  meas : Bool := false
  deriving DecidableEq, Repr

/-- The PSP1 island: the host port, WIN_PAGE, PSP1_STAT, DPR_STAT and the read latches. -/
structure HostPort where
  /-- WIN_PG | 1 bit | 17 R581 | 0 -/
  winPage : Bool := false
  /-- PSP1_STAT flags, bits 7:0 | 8 bits | 13 R447 | 0 -/
  flags : Byte := 0
  /-- PSP_ERR_CNT | 8 bits | 13 R447 | 0 -/
  errCnt : Nat := 0
  /-- DPR_COLL | 1 bit | 12 R400 | 0 -/
  dprColl : Bool := false
  /-- DPR_COLL_CNT | 8 bits | 12 R400 | 0 -/
  dprCnt : Nat := 0
  /-- DPR_ADDR, word address of the latest collision | 14 bits | 12 R400 | 0 -/
  dprAddr : Nat := 0
  /-- latched copy of the M frame counter | 64 bits | 16 R552 | all ones -/
  fcLatch : BitVec 64 := BitVec.allOnes 64
  /-- latched copies of MEAS0 to MEAS7 | 8 × 256 bits | 17 R575 | 0 -/
  measLatch : Vector (BitVec 256) 8 := .replicate 8 0
  /-- transfer in progress | command and address unit | 13 R440 | none -/
  xfer : Option Transfer := none
  /-- status unit driven for the current read | 8 bits | 13 R441 R442 | DESIGN CHOICE 0 (log entry 4) -/
  statusUnit : Byte := 0
  /-- data units read for the current read transfer, first to last | 1 to 64 words | 13 R440 R443 | empty -/
  out : List Word := []
  deriving DecidableEq, Repr

/-- MBX_STATE (R466). -/
inductive MbxSt where
  | idle | rung | busy | done
  deriving DecidableEq, Repr

/-- One mailbox: MBXn_STAT (R466), its response to post at the next strobe, and the response posted. -/
structure Mbx where
  /-- MBX_STATE | 2 bits | 14 R466 | IDLE -/
  st : MbxSt := .idle
  /-- MBX_RING_LOST | 1 bit | 14 R466 | 0 -/
  ringLost : Bool := false
  /-- MBX_HEARTH | 1 bit | 14 R466 | 0 -/
  hearth : Bool := false
  /-- MBX_VER | 4 bits | 14 R466 | 1 -/
  ver : Nat := 1
  /-- MBX_STATUS | 8 bits | 14 R466 | 0 -/
  status : Byte := 0
  /-- MBX_SEQ_DONE | 8 bits | 14 R466 | 0 -/
  seqDone : Byte := 0
  /-- MBX_SEQ_RUNG | 8 bits | 14 R466 | 0 -/
  seqRung : Byte := 0
  /-- response to be posted at the next doorbell strobe | up to 128 words | 14 R470 | none -/
  resp : Option Response := none
  /-- M frame S in which the command was sampled | 64 bits | 14 R470 | 0 -/
  sampled : Nat := 0
  /-- the sampled command set QUIET | 1 bit | 14 R472 | 0 -/
  quiet : Bool := false
  /-- that response comes from the Hearth responder or is the TIMEOUT of R493 | 1 bit | 14 R466 R492 R493 | 0 -/
  fromHearth : Bool := false
  /-- version granted by the SYS_HELLO being answered, in force after its response | 2 bits | 14 R481 | none -/
  grant : Option Nat := none
  /-- bulk range owned until the response, first word and length | 2 × 16 bits | 14 R482 | none -/
  bulk : Option (Nat × Nat) := none
  deriving DecidableEq, Repr

/-! ### Hive: cells -/

/-- Power state of a memory block (R402). -/
inductive BlkPow where
  | on | retention | off
  deriving DecidableEq, Repr

/-- Fault action of a cell (R97). -/
inductive FaultAct where
  | report | fade | zero
  deriving DecidableEq, Repr

/-- What a cell's outputs undergo (R97, R98): `fading k` is frame k of the fade, `fadingIn k` frame k of
the fade-in. -/
inductive OutAct where
  | live | fading (k : Nat) | muted | fadingIn (k : Nat)
  deriving DecidableEq, Repr

/-- A cell's role but for its image and epoch (R69, R71). -/
structure Role where
  dom : Dom
  slot : Nat
  deriving DecidableEq, Repr

/-- A role change accepted or applying (R73 to R75, R105). -/
structure RoleChange where
  role : Option Role
  clear : Bool
  p : Fin 2
  c : Fin 2
  epoch : Byte
  frame : Nat
  deriving DecidableEq, Repr

/-- Metadata of a program bank (R63). -/
structure PMeta where
  /-- image ID | 16 bits | 03 R63 | 0 (empty) -/
  image : BitVec 16 := 0
  /-- program length L | 18 bits | 03 R63 | DESIGN CHOICE 0 (log entry 4) -/
  len : Nat := 0
  /-- descriptor set | 16 × 64 bits | 03 R63, 04 R117 | unused (HIVE_D_SPACE 0b11) -/
  desc : Vector (BitVec 64) 16 := .replicate 16 0xC000000000000000
  /-- sealed flag | 1 bit | 03 R63 | 0 -/
  isSealed : Bool := false
  deriving DecidableEq, Repr

/-- Metadata of a coefficient bank (R63). -/
structure CMeta where
  /-- image ID | 16 bits | 03 R63 | 0 (empty) -/
  image : BitVec 16 := 0
  /-- sealed flag | 1 bit | 03 R63 | 0 -/
  isSealed : Bool := false
  /-- patch window start | 15 bits | 03 R63 | 0 -/
  winStart : Nat := 0
  /-- patch window length | 16 bits | 03 R63 | 0 -/
  winLen : Nat := 0
  deriving DecidableEq, Repr

/-- A glide register with its ramp (R89): n frames left to reach the target from `start`. -/
structure Glide where
  /-- value | binary32 | 04 R113, 03 R73 R89 | +0.0 -/
  v : F32 := 0
  /-- value before the ramp | binary32 | 03 R89 | +0.0 -/
  start : F32 := 0
  /-- target | binary32 | 03 R89 | +0.0 -/
  target : F32 := 0
  /-- ramp length n; 0: no ramp | 16 bits | 03 R89 | 0 -/
  n : Nat := 0
  /-- step k reached | 16 bits | 03 R89 | 0 -/
  k : Nat := 0
  /-- M frame of the effect frame, whose domain frames keep v | 64 bits | 03 R89 | 0 -/
  eff : Nat := 0
  deriving DecidableEq, Repr

/-- What a queue message does (R77, R79). A coefficient write with `judge` is judged against the banks as they stand when
it arrives (R84). -/
inductive CellMsg where
  | role (rc : RoleChange)
  | prog (bank : Fin 2) (first : Nat) (words : List Word)
  | progMeta (bank : Fin 2) (image : BitVec 16) (len : Nat) (desc : List (BitVec 64))
  | coef (judge : Bool) (bank : Fin 2) (image : Option (BitVec 16)) (first : Nat) (words : List Word)
  | swap (p c : Bool) (glide : Option (Nat × Nat × F32))
  | glide (g n : Nat) (target : F32)
  | faultClear (mask : Word)
  | policy (a : FaultAct)
  | memRead (mem : Nat) (bank : Fin 2) (first count : Nat) (mbx : Nat) (tag : BitVec 16)
  deriving DecidableEq, Repr

/-- One message of a cell's queue, with the number of entries it takes (R77). -/
structure QEntry where
  cell : Fin 32
  epoch : Byte
  frame : Option Nat
  entries : Nat
  mbx : Nat
  sampled : Nat
  msg : CellMsg
  deriving DecidableEq, Repr

/-- A register write on its way (R112): it lands in slot `land`. -/
inductive RegWrite where
  | vec (r : Nat) (lane : Nat) (x : F32)
  | acc (r : Nat) (lane : Nat) (x : F64)
  | ptr (j : Nat) (x : Nat)
  | msk (r : Nat) (lane : Nat) (b : Bool)
  | cnt (k : Nat) (x : BitVec 16)
  | out (lane : Nat) (x : F32)
  deriving DecidableEq, Repr

/-- A pending register write with its landing slot, its issue slot and whether the A slot issued it (R136). -/
structure PendWrite where
  land : Nat
  issue : Nat
  fromA : Bool
  w : RegWrite
  deriving DecidableEq, Repr

/-- A waiting Store access of a cell (R139): `dest` is the vector register and lanes of a load. -/
structure StoreWait where
  bank : Nat
  addr : Nat
  issue : Nat
  turn : Nat
  pc : Nat
  load : Bool
  reg : Nat
  lanes : List Nat
  val : F32
  deriving DecidableEq, Repr

/-- One REPEAT level (R132, R133). -/
structure RepLevel where
  first : Nat
  last : Nat
  count : Nat
  pass : Nat
  deriving DecidableEq, Repr

/-- A MAC-family result in the chain (R125). -/
structure MacRes where
  reg : Nat
  slot : Nat
  val : Vector F64 8
  deriving DecidableEq, Repr

/-- How far a cell is in its window (R66, R111, R132, R139). -/
structure Run where
  /-- next issue slot i | 18 bits | 03 R66 | 0 -/
  slot : Nat := 0
  /-- next word in program order | 13 bits | 04 R111 | 0 -/
  pc : Nat := 0
  /-- active REPEAT levels, inner first | at most 2 | 04 R132 R134 | empty -/
  reps : List RepLevel := []
  /-- register writes on their way | pipeline | 04 R112 R136 | empty -/
  writes : List PendWrite := []
  /-- waiting Store accesses | at most one a bank | 04 R139 | empty -/
  waits : List StoreWait := []
  /-- windows already taken, bank and turn slot of issued Store accesses | schedule | 04 R140 | empty -/
  turns : List (Nat × Nat) := []
  /-- latest MAC-family results | accumulator chain | 04 R125 | empty -/
  macs : List MacRes := []
  deriving DecidableEq, Repr

/-- The memories of a cell (R62, R63, R394, R401). -/
structure CellMem where
  /-- program banks P0, P1 | 2 × 4,096 × 128 bits | 03 R62 | 0 (R507) -/
  prog : Vector Mem 2 := .replicate 2 []
  /-- coefficient banks C0, C1 | 2 × 32,768 × 32 bits | 03 R62 | 0 (R507) -/
  coef : Vector Mem 2 := .replicate 2 []
  /-- data RAM | 65,536 × 32 bits | 03 R62 | 0 (R507) -/
  data : Mem := []
  /-- data RAM groups of 8 words whose fresh mark is clear, rising | 8,192 marks | 12 R394 | every mark set -/
  written : List Nat := []
  /-- metadata of P0, P1 | as PMeta | 03 R63 | empty -/
  pmeta : Vector PMeta 2 := .replicate 2 {}
  /-- metadata of C0, C1 | as CMeta | 03 R63 | empty -/
  cmeta : Vector CMeta 2 := .replicate 2 {}
  /-- power of P0, P1, C0, C1, D0 to D3 | 8 × 2 bits | 12 R401 R402 | ON -/
  pow : Vector BlkPow 8 := .replicate 8 .on
  deriving DecidableEq, Repr

/-- The registers of a cell (R113, R114). -/
structure CellRegs where
  /-- v0 to v31 | 32 × 8 × binary32 | 04 R113 | DESIGN CHOICE +0.0 (log entry 4) -/
  v : Vector (Vector F32 8) 32 := .replicate 32 (.replicate 8 0)
  /-- acc0 to acc7 | 8 × 8 × binary64 | 04 R113 | DESIGN CHOICE +0.0 (log entry 4) -/
  acc : Vector (Vector F64 8) 8 := .replicate 8 (.replicate 8 0)
  /-- p0 to p15 | 16 × 21 bits | 04 R113 R114 | 0 -/
  p : Vector Nat 16 := .replicate 16 0
  /-- d0 to d15 | 16 × 64 bits | 04 R113 R117 | unused (HIVE_D_SPACE 0b11) -/
  d : Vector (BitVec 64) 16 := .replicate 16 0xC000000000000000
  /-- k0 to k3 | 2 × 12 and 2 × 16 bits | 04 R113 R114 | DESIGN CHOICE 0 (log entry 4) -/
  k : Vector (BitVec 16) 4 := .replicate 4 0
  /-- m0 to m3 | 4 × 8 bits | 04 R113 R114 | 0xFF (m1 to m3: DESIGN CHOICE, log entry 4) -/
  m : Vector Byte 4 := .replicate 4 0xFF
  /-- g0 to g15 | 16 × binary32 with ramp | 04 R113, 03 R89 | +0.0 -/
  g : Vector Glide 16 := .replicate 16 {}
  /-- in0 to in7, the inbox | 8 × binary32 | 04 R113, 03 R67 | DESIGN CHOICE +0.0 (log entry 4) -/
  inb : Vector F32 8 := .replicate 8 0
  /-- out0 to out7, the outbox | 8 × binary32 | 04 R113, 03 R67 | DESIGN CHOICE +0.0 (log entry 4) -/
  outb : Vector F32 8 := .replicate 8 0
  /-- origins o0 to o15 | 16 × 21 bits | 04 R119 | 0 -/
  o : Vector Nat 16 := .replicate 16 0
  deriving DecidableEq, Repr

/-- Fault and status state of a cell (R96 to R101, R169). -/
structure CellStat where
  /-- HIVE_FLT_WAGGLE, ECC_STORE, ECC_COEF, ECC_DATA, ECC_PROG, RSVD_OP | 6 bits | 03 R100 | 0 -/
  flt : BitVec 6 := 0
  /-- HIVE_FLT_FIRST_PC | 12 bits | 03 R100 | 0 -/
  firstPc : Nat := 0
  /-- HIVE_FLT_ACTION with its frame count | 2 bits | 03 R97 R98 R100 | live -/
  act : OutAct := .live
  /-- output vector y of the frame before the fault | 8 × binary32 | 03 R97 | +0.0 -/
  fadeBase : Vector F32 8 := .replicate 8 0
  /-- outputs of the last frame before the spark screen | 8 × binary32 | 03 R97 | +0.0 -/
  last : Vector F32 8 := .replicate 8 0
  /-- a program fault fell in this frame before any action began | 1 bit | 03 R97 | 0 -/
  newFault : Bool := false
  /-- fault action set by CELL_FAULT_POLICY | 2 bits | 03 R97 | FADE -/
  policy : FaultAct := .fade
  /-- HIVE_Q_FLUSHED | 16 bits | 03 R101 | 0 -/
  flushed : Nat := 0
  /-- HIVE_Q_STALE | 8 bits | 03 R101 | 0 -/
  stale : Nat := 0
  /-- COMB_SPK_COUNT | 8 bits | 05 R169 | 0 -/
  spkCount : Nat := 0
  /-- COMB_SPK_CLAMP | 8 bits | 05 R169 | 0 -/
  spkClamp : Byte := 0
  /-- COMB_SPK_NONFIN | 8 bits | 05 R169 | 0 -/
  spkNonfin : Byte := 0
  deriving DecidableEq, Repr

/-- One of the 32 cells. -/
structure Cell where
  /-- memories | 640 KiB | 03 R62 | see CellMem -/
  mem : CellMem := {}
  /-- register set | as R113 | 04 R113 | see CellRegs -/
  regs : CellRegs := {}
  /-- status | three words | 03 R100 R101, 05 R169 | see CellStat -/
  stat : CellStat := {}
  /-- domain and domain slot; none: no role | 5 bits | 03 R69 R71 | none -/
  role : Option Role := none
  /-- epoch | 8 bits | 03 R72 | 0 -/
  epoch : Byte := 0
  /-- active program bank | 1 bit | 03 R64 | DESIGN CHOICE P0, not in use without a role (log entry 4) -/
  actP : Fin 2 := 0
  /-- active coefficient bank | 1 bit | 03 R64 | DESIGN CHOICE C0, not in use without a role (log entry 4) -/
  actC : Fin 2 := 0
  /-- message queue, oldest first | 16 entries | 03 R77 | empty -/
  queue : List QEntry := []
  /-- role change accepted and not yet applied | as RoleChange | 03 R82 R107 | none -/
  pendRole : Option RoleChange := none
  /-- the current frame of the domain is the zero-output frame | 1 bit | 03 R74 | 0 -/
  zeroFrame : Bool := false
  /-- a role change to none raises EV10 in the next M Chimney | 1 bit | 03 R74 | 0 -/
  noneDone : Bool := false
  /-- the clear engine clears the data RAM in this zero-output frame | 1 bit | 03 R75 | 0 -/
  clearReq : Bool := false
  /-- clearing after a sealed role | 1 bit | 03 R94 | 0 -/
  clearing : Bool := false
  /-- progress through the window | as Run | 03 R66 | see Run -/
  run : Run := {}
  deriving DecidableEq, Repr

/-! ### Hive: Combs, bridges, generators, slot buffers -/

/-- The three gains of a node (R155, "Gains: staged, target and current"). -/
structure Node where
  /-- staged gain | binary32 | 05 R155 R157 | +0.0 -/
  staged : F32 := 0
  /-- target gain | binary32 | 05 R155 R160 | +0.0 -/
  target : F32 := 0
  /-- current gain | binary32 | 05 R155 R161 | +0.0 -/
  cur : F32 := 0
  deriving DecidableEq, Repr

/-- The ramp of a sink column (R160, R161): position k of n frames. -/
structure Ramp where
  n : Nat
  k : Nat
  deriving DecidableEq, Repr

/-- A held staging command (R158). -/
structure HeldStage where
  a : Nat
  b : Nat
  row : Bool
  gains : List F32
  afterE : Nat
  deriving DecidableEq, Repr

/-- One Comb (R148 to R166, R177). -/
structure Comb where
  /-- node memory, key sink × sources + source | 12 bytes a node | 05 R148 R155 | +0.0 in all three forms -/
  nodes : Sparse Node := []
  /-- intake map, key external source column | 256 or 64 × 16 bits | 05 R153 R155 | 0x0000 -/
  intake : Sparse ChanId := []
  /-- outlet map, key external sink column | 256 or 64 × 16 bits | 05 R153 R155 | 0x0000 -/
  outlet : Sparse ChanId := []
  /-- external source columns silent since their Hivewire slot changed rate, rising | 256 or 64 × 1 bit | 05 R154 | none -/
  inDead : List Nat := []
  /-- external sink columns that drive nothing since their Hivewire slot changed rate, rising | 256 or 64 × 1 bit | 05 R154 | none -/
  outDead : List Nat := []
  /-- sink columns marked staged, rising | 512 or 128 × 1 bit | 05 R157 R155 | none -/
  marks : List Nat := []
  /-- ramps of sink columns, key column | ramp length and position | 05 R160 R161 | none -/
  ramps : Sparse Ramp := []
  /-- pending commits, effect frame and length, oldest first | at most 4 | 05 R163 | none -/
  commits : List (Nat × Nat) := []
  /-- staging commands held by Ianik | at most 16 | 05 R158 | none -/
  held : List HeldStage := []
  /-- cell-output source columns as the Chimney last wrote them, key column | binary32 each | 05 R167 | +0.0 -/
  cellOut : Sparse F32 := []
  /-- COMB_ECC_CORR | 8 bits | 05 R177 | 0 -/
  eccCorr : Nat := 0
  /-- COMB_ECC_UNC | 8 bits | 05 R177 | 0 -/
  eccUnc : Nat := 0
  /-- E and n of the last commit applied | 64 and 16 bits | 05 R176 | none (reads 0) -/
  lastCommit : Option (Nat × Nat) := none
  deriving DecidableEq, Repr

/-- Filter mode of a bridge direction (R181). -/
inductive BridgeMode where
  | hold | fast | standard
  deriving DecidableEq, Repr

/-- One bridge direction (R181 to R185): inputs written, newest first, with the frame of the writing domain. -/
structure Bridge where
  /-- filter mode | 2 bits | 06 R181 R185 | HOLD -/
  mode : BridgeMode := .hold
  /-- slip count | 16 bits | 06 R185 | 0 -/
  slips : Nat := 0
  /-- input history, frame and 32 channels, newest first | history memory | 06 R185 | +0.0 (empty) -/
  hist : List (Nat × List F32) := []
  deriving DecidableEq, Repr

/-- Waveform of a test generator (R196). -/
inductive Wave where
  | off | sine | square | noise | dc | impulse
  deriving DecidableEq, Repr

/-- One test generator (R196). -/
structure TestGen where
  /-- waveform | 3 bits | 06 R196 | off -/
  wave : Wave := .off
  /-- frequency | binary32 Hz | 06 R196 | DESIGN CHOICE +0.0 (log entry 4) -/
  f : F32 := 0
  /-- level L | binary32 | 06 R196 | DESIGN CHOICE +0.0 (log entry 4) -/
  level : F32 := 0
  /-- phase accumulator | 32 bits | 06 R196 | 0 -/
  phase : Word := 0
  /-- phase increment | 32 bits | 06 R196 R187 | DESIGN CHOICE 0 (log entry 4) -/
  inc : Word := 0
  /-- noise state | 32 bits | 06 R196 | 0x0000_0001 -/
  lfsr : Word := 1
  /-- no domain frame of the generator has run yet | 1 bit | 06 R196 | 0 -/
  first : Bool := false
  /-- value for the current frame of its domain | binary32 | 06 R196 | +0.0 -/
  value : F32 := 0
  deriving DecidableEq, Repr

/-- One entry of a slot buffer (R46): complete, tag and the channels' values. -/
structure Entry where
  complete : Bool
  tag : BitVec 16
  vals : List F32
  deriving DecidableEq, Repr

/-- A slot buffer of 4 entries (R46); no entry carries a valid tag after a reset (R57). -/
abbrev SlotBuf := Vector (Option Entry) 4

/-- Where the Hive stands in a rate change (R186, R190, R200). -/
inductive DomPhase where
  | running | fadingOut | paused | waitLock | fadingIn
  deriving DecidableEq, Repr

/-- A rate change under way or ended in a lock timeout (R186, R190 to R192). -/
structure RateChange where
  fm : Bool
  m : Nat
  d : Nat
  clearFs : Bool
  q : Nat
  p : Nat
  r : Nat
  fmChange : Bool
  mbx : Nat
  tag : BitVec 16
  lockAt : Option Nat
  deriving DecidableEq, Repr

/-- Rates and rate change state (R178, R200). -/
structure Domains where
  /-- HIVE_DOM_FM, 1 for 44.1 kHz | 1 bit | 06 R200 | 0 -/
  fm : Bool := false
  /-- F multiplier in force | code in 2 bits | 06 R178 R200 | 4 (0b10) -/
  m : Nat := 4
  /-- S divider in force | code in 2 bits | 06 R178 R200 | 3 (0b10) -/
  d : Nat := 3
  /-- HIVE_DOM_PHASE, but for lock timed out | 3 bits | 06 R200 | running -/
  phase : DomPhase := .running
  /-- a rate change ended in a lock timeout, and no further one has completed | 1 bit | 06 R192 | 0 -/
  stuck : Bool := false
  /-- HIVE_DOM_CHANGES | 8 bits | 06 R200 | 0 -/
  changes : Nat := 0
  /-- rate change under way | as RateChange | 06 R186 | none -/
  change : Option RateChange := none
  /-- Q, P and R of the last or current change | 3 × 64 bits | 06 R199 | 0 -/
  lastQPR : Nat × Nat × Nat := (0, 0, 0)
  /-- F frame of the M frame reached, 0 to m − 1 | 3 bits | 01 R15 | 0 -/
  fIdx : Nat := 0
  deriving DecidableEq, Repr

/-- The masters of the Store beside the cells (R389). -/
inductive Master where
  | forager | ianik | patrol
  deriving DecidableEq, Repr

/-- An access of such a master that waits for a turn of its bank: a write carries its word (R391). -/
structure FreeAcc where
  who : Master
  addr : Nat
  data : Option Word
  deriving DecidableEq, Repr

/-- Store, Combs, bridges and the rest of the Hive. -/
structure Hive where
  /-- the 32 cells | 32 × Cell | 03 R62 | see Cell -/
  cells : Vector Cell 32 := .replicate 32 {}
  /-- Combs M, F, S | 3 × Comb | 05 R148 | see Comb -/
  combs : Vector Comb 3 := .replicate 3 {}
  /-- the Store | 2,097,152 × 32 bits | 12 R389 | 0 (R507) -/
  store : Mem := []
  /-- Store groups (row × 64 + bank) whose fresh mark is clear, rising | 262,144 marks | 12 R394 | every mark set -/
  storeWritten : List Nat := []
  /-- accesses of the other masters that wait for their turns, oldest first | one a bank and master | 12 R390 R391 | none -/
  free : List FreeAcc := []
  /-- Hive cycle that the next of them meets, mod 64 | 6 bits | 12 R390 | DESIGN CHOICE 0 (log entry 66) -/
  cycle : Nat := 0
  /-- power of the 16 Store segments | 16 × 2 bits | 12 R401 R402 | ON -/
  storePow : Vector BlkPow 16 := .replicate 16 .on
  /-- Ianik to Hive queue, oldest first | 32 × 128 bits | 02 R51 | empty -/
  transit : List QEntry := []
  /-- bridges M→F, F→M, M→S, S→M | 4 × Bridge | 06 R185 | see Bridge -/
  bridges : Vector Bridge 4 := .replicate 4 {}
  /-- test generators, domain × 8 + generator | 24 × TestGen | 06 R196 | off -/
  gens : Vector TestGen 24 := .replicate 24 {}
  /-- rates | as Domains | 06 R200 | see Domains -/
  dom : Domains := {}
  /-- M frame in which the Hive runs first; none: the sequencer is held | 64 bits | 14 R498 | none -/
  firstFrame : Option Nat := none
  /-- inbound monitor entries, voltage 0 to 31 and current 32 to 63 | slot buffer | 07 R218, 02 R46 | no valid tag -/
  monitors : SlotBuf := .replicate 4 none
  /-- playback values for the current M frame, 64 stream channels | 64 × binary32 | 13 R452 | +0.0 -/
  playback : List F32 := []
  /-- playback values decided for the next M frame | 64 × binary32 | 13 R452 | +0.0 -/
  playNext : List F32 := []
  /-- capture values of the last M Outlet, 64 stream channels | 64 × binary32 | 13 R453 | +0.0 -/
  capture : List F32 := []
  /-- outbound Bellows M entries, 32 channels | slot buffer | 07 R207 | no valid tag -/
  belM : SlotBuf := .replicate 4 none
  /-- outbound Bellows F entries, 32 channels | slot buffer | 07 R207 | no valid tag -/
  belF : SlotBuf := .replicate 4 none
  /-- values of the F inputs that cross to the low-latency paths | 32 × binary32 | 07 R208 | +0.0 -/
  belLL : List F32 := []
  deriving DecidableEq, Repr

/-! ### Bellows -/

/-- Channel states (R222). -/
inductive BelSt where
  | disabled | waking | quiet | ramping | playing | killed | faulted | held
  deriving DecidableEq, Repr

/-- A running impedance measurement (R234): samples are accumulator phase, v and i of each update, newest
first. -/
structure Measure where
  dc : Bool
  amp : F32
  freq : F32
  k : Nat
  frame : Nat
  updates : Nat
  phase : Word
  inc : Word
  samples : List (Word × F32 × F32)
  limited : Bool
  mbx : Nat
  tag : BitVec 16
  service : Bool
  deriving DecidableEq, Repr

/-- Configuration of a Bellows channel (R214, R240). -/
structure BelCfg where
  /-- low-latency path selected | 1 bit | 07 R240 | 0 -/
  ll : Bool := false
  /-- BEL_PHASE; none: the default floor(125 c / 4) | 10 bits | 07 R219 | default of R219 -/
  phase : Option Nat := none
  /-- BEL_VGAIN | binary32 volts per unit | 07 R240 | DESIGN CHOICE 1.0 (log entry 4) -/
  vgain : F32 := 0x3F800000
  /-- BEL_VFB_FS | binary32 volts | 07 R240 | DESIGN CHOICE 1.0 (log entry 4) -/
  vfb : F32 := 0x3F800000
  /-- BEL_IFB_FS | binary32 amperes | 07 R240 | DESIGN CHOICE 1.0 (log entry 4) -/
  ifb : F32 := 0x3F800000
  /-- BEL_DMIN | binary32 | 07 R206 | 0.02 -/
  dmin : F32 := 0x3CA3D70A
  /-- BEL_MUTE_LEN | 13 bits | 07 R224 | 256 -/
  muteLen : Nat := 256
  /-- BEL_ILIM | binary32 amperes | 07 R216 R240 | DESIGN CHOICE 0, disabled (log entry 4) -/
  ilim : F32 := 0
  /-- BEL_MISMATCH | binary32 volts | 07 R217 | 2.0 -/
  mismatch : F32 := 0x40000000
  /-- kp | binary32 | 07 R214 | 0.5 -/
  kp : F32 := 0x3F000000
  /-- k1 | binary32 | 07 R214 | 0.125 -/
  k1 : F32 := 0x3E000000
  /-- k2 | binary32 | 07 R214 | 0.03125 -/
  k2 : F32 := 0x3D000000
  /-- k3 | binary32 | 07 R214 | 0 -/
  k3 : F32 := 0
  /-- kd | binary32 ohms | 07 R214 | 0 -/
  kd : F32 := 0
  /-- driver fault policy: retry | 1 bit | 07 R240 | 0 latch -/
  retry : Bool := false
  /-- mismatch policy: FAULTED | 1 bit | 07 R240 | 1 -/
  mismatchFault : Bool := true
  /-- feedback loss policy: open loop | 1 bit | 07 R240 | 0 FAULTED -/
  lossOpen : Bool := false
  deriving DecidableEq, Repr

/-- One Bellows channel (R222, R237, R238). -/
structure BelCh where
  /-- configuration | as BelCfg | 07 R240 | see BelCfg -/
  cfg : BelCfg := {}
  /-- BEL_ST | 3 bits | 07 R237 | DISABLED -/
  st : BelSt := .disabled
  /-- mute gain g_mute, as steps of 1 / BEL_MUTE_LEN | 0 to BEL_MUTE_LEN | 07 R222 R224 | 0 -/
  mute : Nat := 0
  /-- the ramp moves toward 1 | 1 bit | 07 R224 | 0 -/
  up : Bool := false
  /-- an unmute waits for 2 M frames of QUIET | 1 bit | 07 R224 | 0 -/
  unmutePends : Bool := false
  /-- a disable waits for g_mute 0 | 1 bit | 07 R225 | 0 -/
  stopping : Bool := false
  /-- a mute of the Stoker's request waits for g_mute 0 | 1 bit | 07 R231 | 0 -/
  holding : Bool := false
  /-- mute state to restore after KILLED or HELD | 1 bit | 07 R228 R231 R232 | 0 -/
  restore : Bool := false
  /-- FAULTED takes effect at the kill's release | 1 bit | 07 R228 | 0 -/
  faultPends : Bool := false
  /-- M frame from which QUIET counts | 64 bits | 07 R223 R224 | 0 -/
  quietFrom : Nat := 0
  /-- updates spent in QUIET | 6 bits | 07 R224 | 0 -/
  quietUpd : Nat := 0
  /-- M frame at which WAKING ends | 64 bits | 07 R223 | 0 -/
  wakeAt : Nat := 0
  /-- BEL_LL_FALLBACK | 1 bit | 07 R210 R237 | 0 -/
  fallback : Bool := false
  /-- BEL_CLIP_SEEN | 1 bit | 07 R237 | 0 -/
  clipSeen : Bool := false
  /-- BEL_ILIM_SEEN | 1 bit | 07 R237 | 0 -/
  ilimSeen : Bool := false
  /-- BEL_OPEN_LOOP | 1 bit | 07 R237 | 0 -/
  openLoop : Bool := false
  /-- BEL_FLT_FBLOSS_I, FBLOSS_V, MISMATCH, DRV, KILL | 5 bits | 07 R237 | 0 -/
  flt : BitVec 5 := 0
  /-- BEL_CLIP_CNT | 16 bits | 07 R238 | 0 -/
  clipCnt : Nat := 0
  /-- BEL_ILIM_CNT | 16 bits | 07 R238 | 0 -/
  ilimCnt : Nat := 0
  /-- s1, s2, s3 | 3 × binary64 | 07 R213 R214 | 0 -/
  s1 : F64 := 0
  /-- second integrator | binary64 | 07 R213 | 0 -/
  s2 : F64 := 0
  /-- third integrator | binary64 | 07 R213 | 0 -/
  s3 : F64 := 0
  /-- applied ceiling c in units of 1/32 steps kept as binary32 | binary32 | 07 R226, 02 R45 | 0 (full attenuation) -/
  ceil : F32 := 0
  /-- factor on the next index from current limiting; none: 1 | binary32 | 07 R216 | none -/
  limNext : Option F32 := none
  /-- μ of update 2j of this carrier period | binary32 | 07 R205 | 0 -/
  mu0 : F32 := 0
  /-- μ of the latest update | binary32 | 07 R213 | 0 -/
  mu : F32 := 0
  /-- edges of the last carrier period: A rise, A fall, B rise, B fall, in sub-steps from the local tick | 4 × 20 bits | 07 R205 R219 R220 | 0, no edges -/
  edges : Nat × Nat × Nat × Nat := (0, 0, 0, 0)
  /-- sum of |e| over the mismatch window | exact | 07 R217 | 0 -/
  errSum : Rat := 0
  /-- updates in the mismatch window | 7 bits | 07 R217 | 0 -/
  errN : Nat := 0
  /-- the window held a clipped or current-limited update | 1 bit | 07 R217 | 0 -/
  errVoid : Bool := false
  /-- sums of v and i over the updates of this M frame | exact | 07 R218 | 0 -/
  monV : Rat := 0
  /-- sum of i over the updates of this M frame | exact | 07 R218 | 0 -/
  monI : Rat := 0
  /-- updates switching in this M frame | 5 bits | 07 R218 | 0 -/
  monN : Nat := 0
  /-- M path history, newest first | 25 × binary32 | 07 R207 | +0.0 -/
  histM : List F32 := []
  /-- F path history, newest first | 17 × binary32 | 07 R207 R210 | +0.0 -/
  histF : List F32 := []
  /-- values of the low-latency path, newest first | 2 × binary32 | 07 R208 | +0.0 -/
  histLL : List F32 := []
  /-- FBV bits sampled, newest lowest | 48 bits | 07 R201 R211 | DESIGN CHOICE 0 (log entry 11) -/
  fbv : BitVec 48 := 0
  /-- FBI bits sampled, newest lowest | 48 bits | 07 R201 R211 | DESIGN CHOICE 0 (log entry 11) -/
  fbi : BitVec 48 := 0
  /-- the Damper's ceiling as accepted | binary32 | 02 R45, 07 R226 | 0, full attenuation -/
  ceilIn : F32 := 0
  /-- kill status copy reads killed | 1 bit | 02 R45, 07 R227 | killed -/
  killIn : Bool := true
  /-- impedance measurement | as Measure | 07 R234 | none -/
  meas : Option Measure := none
  deriving DecidableEq, Repr

/-- One group of four channels (R201). -/
structure BelGrp where
  /-- DRV_EN asserted by the Bellows | 1 bit | 07 R223 | 0 -/
  drvEn : Bool := false
  /-- BEL_DRV_WAKE | 8 bits | 07 R223 | 4 -/
  drvWake : Nat := 4
  /-- BEL_RETRIES | 2 bits | 07 R237 R230 | 0 -/
  retries : Nat := 0
  /-- M frame of the latest driver fault | 64 bits | 07 R230 | none -/
  faultAt : Option Nat := none
  /-- M frame of the latest retry | 64 bits | 07 R230 | none -/
  retryAt : Option Nat := none
  /-- the fourth fault latched the group | 1 bit | 07 R230 | 0 -/
  latched : Bool := false
  /-- channels enabled when the fault came | 4 bits | 07 R230 | 0 -/
  wasOn : List Nat := []
  deriving DecidableEq, Repr

/-- The Bellows island. -/
structure Bellows where
  /-- the 32 channels | 32 × BelCh | 07 R201 | see BelCh -/
  ch : Vector BelCh 32 := .replicate 32 {}
  /-- the 8 groups | 8 × BelGrp | 07 R201 | see BelGrp -/
  grp : Vector BelGrp 8 := .replicate 8 {}
  /-- spread mode: 0 off, 1 triangle, 2 pseudo-random | 2 bits | 07 R220 R240 | DESIGN CHOICE 0 (log entry 4) -/
  spread : Nat := 0
  /-- spread depth D | 7 bits | 07 R220 | DESIGN CHOICE 0 (log entry 4) -/
  depth : Nat := 0
  /-- spread LFSR | 32 bits | 07 R220, 06 R606 | 0x0000_0001 -/
  lfsr : Word := 1
  /-- bits drawn for this M frame's order: descending and rotation | 4 bits | 06 R606 | 0 -/
  order : Bool × Nat := (false, 0)
  /-- next update u of the M frame | 0 to 16 | 07 R203 | 0 -/
  upd : Nat := 0
  /-- mute requested by the Stoker | 1 bit | 07 R231 | 0 -/
  muteReq : Bool := false
  /-- mute acknowledged | 1 bit | 07 R231 | 0 -/
  muteAck : Bool := false
  /-- vrail accepted from the Damper | binary32 volts | 07 R215 | 0 -/
  vrail : F32 := 0
  deriving DecidableEq, Repr

/-! ### Stove and Stoker -/

/-- STKR_STATE (R276). -/
inductive StkrSt where
  | stopped | acquire | locked | qualify | move | settle | ember | freeRun
  deriving DecidableEq, Repr

/-- One reference (R248, R249, R277). -/
structure Ref where
  /-- listed | 1 bit | 08 R249 | 0 -/
  listed : Bool := false
  /-- priority | 4 bits | 08 R249 | 15 -/
  prio : Nat := 15
  /-- quality code in use | 4 bits | 08 R249 | 0xF -/
  qcode : Nat := 15
  /-- tolerance | binary32 ppm | 08 R249 | 50.0 -/
  tol : F32 := 0x42480000
  /-- slope limit | binary32 ppm/s | 08 R249 | 0.5 -/
  slope : F32 := 0x3F000000
  /-- comparison base: 8 kHz | 1 bit | 08 R249 R248 | audio (IDs 0 and 12: 8 kHz) -/
  base8k : Bool := false
  /-- port source: RBCLK | 1 bit | 08 R249 | RFS -/
  rbclk : Bool := false
  /-- input divider n_in | 17 bits | 08 R249 | 6 -/
  nin : Nat := 6
  /-- edge seen in the last comparison period | 1 bit | 08 R277 | 0 -/
  active : Bool := false
  /-- comparison instants without an edge in a row | 2 bits | 08 R252 | 0 -/
  missed : Nat := 0
  /-- active through the whole gate so far | 1 bit | 08 R251 | 0 -/
  gateWhole : Bool := false
  /-- qualified | 1 bit | 08 R253 | 0 -/
  qual : Bool := false
  /-- gates in tolerance in a row | 4 bits | 08 R277 | 0 -/
  good : Nat := 0
  /-- gates out of tolerance in a row | 4 bits | 08 R277 | 0 -/
  bad : Nat := 0
  /-- first of those gates | 64 bits | 08 R267 | 0 -/
  badFrom : Nat := 0
  /-- wait-to-restore gates left | 8 bits | 08 R277 R258 | 0 -/
  wtrLeft : Nat := 0
  /-- wait-to-restore running | 1 bit | 08 R277 | 0 -/
  wtr : Bool := false
  /-- last gate offset, 0.001 ppm | signed | 08 R281 | DESIGN CHOICE 0 (log entry 4) -/
  lastOfs : Int := 0
  /-- last slope, 0.001 ppm per second | exact | 08 R255 R281 | DESIGN CHOICE 0 (log entry 4) -/
  lastSl : Rat := 0
  /-- gate results, newest first, in 0.001 ppm | 5 kept | 08 R251 R255 | empty -/
  gates : List Int := []
  /-- gate of the freeze mark | 64 bits | 08 R255 | none -/
  freeze : Option Nat := none
  /-- gates within the slope limit since the mark | 7 bits | 08 R255 | 0 -/
  calm : Nat := 0
  deriving DecidableEq, Repr

/-- The software-closed loop (R272 to R275). -/
structure SwLoop where
  /-- reference 12 enabled | 1 bit | 08 R272 R279 | DESIGN CHOICE 0 (log entry 4) -/
  enabled : Bool := false
  /-- measure reference ID | 4 bits | 08 R272 | DESIGN CHOICE 0 (log entry 4) -/
  meas : Nat := 0
  /-- watchdog period in comparisons | 16 bits | 08 R275 | 8,000 -/
  wdog : Nat := 8000
  /-- step per commit | binary32 ppm | 08 R274 | 1.0 -/
  step : F32 := 0x3F800000
  /-- STKR_SW_CMP_SEQ of the latest comparison | 16 bits | 08 R273 | 0 -/
  cmpSeq : Nat := 0
  /-- phase latched at the latest comparison | 32 bits signed | 08 R272 R273 | 0 -/
  phaseNow : Int := 0
  /-- STKR_SW_NOEDGE | 1 bit | 08 R273 | 0 -/
  noEdge : Bool := false
  /-- STKR_SW_PH, latched by a read of STKR_SW_SEQ | 32 bits | 08 R273 | 0 -/
  phLatch : Word := 0
  /-- STKR_SW_APPLIED | 8 bits | 08 R273 | 0 -/
  applied : Byte := 0
  /-- STKR_SW_CLAMPED | 1 bit | 08 R273 | 0 -/
  clamped : Bool := false
  /-- STKR_SW_OFS, shadow offset | 32 bits signed | 08 R273 | 0 -/
  ofs : Word := 0
  /-- applied offset in units of 2^-40 | 32 bits signed | 08 R274 | 0 -/
  cur : Int := 0
  /-- commits on their way, oldest first: sequence number and offset | 8 and 32 bits each | 02 R37, 08 R274 | none -/
  pend : List (Byte × Word) := []
  /-- a commit was applied in this gate | 1 bit | 08 R275 | 0 -/
  inGate : Bool := false
  /-- gates with a commit in a row | 3 bits | 08 R275 | 0 -/
  goodGates : Nat := 0
  /-- crystal comparisons since the last commit | 17 bits | 08 R275 | 0 -/
  since : Nat := 0
  deriving DecidableEq, Repr

/-- The Stove and the Stoker (R242 to R281). -/
structure Stove where
  /-- the Stove issues frame ticks | 1 bit | 01 R14, 08 R245 | 0 -/
  running : Bool := false
  /-- lock reported | 1 bit | 08 R244, 02 R45 | unlocked -/
  lock : Bool := false
  /-- M frame counter | 64 bits | 01 R14, 02 R604 | 0 -/
  frame : Nat := 0
  /-- the counter's copy is valid | 1 bit | 02 R604 | 0 -/
  valid : Bool := false
  /-- STKR_STATE | 4 bits | 08 R276 | stopped -/
  st : StkrSt := .stopped
  /-- STKR_SEL | 4 bits | 08 R276 | 0xF none -/
  sel : Option (Fin 13) := none
  /-- STKR_TGT | 4 bits | 08 R276 | 0xF none -/
  tgt : Option (Fin 13) := none
  /-- compatibility mode | 1 bit | 08 R276 | 0 -/
  compat : Bool := false
  /-- STKR_REVERT | 1 bit | 08 R276 | 1 -/
  revert : Bool := true
  /-- STKR_IN_EMBER | 1 bit | 08 R276 | 0 -/
  inEmber : Bool := false
  /-- STKR_HOLDING | 1 bit | 08 R276 | 0 -/
  holding : Bool := false
  /-- STKR_BW | 2 bits | 08 R276 | 0b10 -/
  bw : BitVec 2 := 2
  /-- STKR_SWITCHES | 8 bits | 08 R276 | 0 -/
  switches : Nat := 0
  /-- manual selection | 4 bits | 08 R256 | none -/
  manual : Option (Fin 13) := none
  /-- STKR_PBO_THR in ns | 10 bits | 08 R264 | 50 -/
  pboThr : Nat := 50
  /-- re-zero slew | binary32 ns/s | 08 R265 | 0 -/
  slew : F32 := 0
  /-- references 0 to 12 | 13 × Ref | 08 R248 | see Ref -/
  refs : Vector Ref 13 := (Vector.replicate 13 ({} : Ref)).set 0 { base8k := true, nin := 3072 } |>.set 10 { nin := 24 } |>.set 11 { nin := 24 } |>.set 12 { base8k := true }
  /-- build-out in ns | exact | 08 R261 R264 | 0 -/
  buildOut : Rat := 0
  /-- phase error net of the build-out at the last comparison, ns | exact | 08 R281 | 0 -/
  err : Rat := 0
  /-- phase error before a suspected hit, ns | exact | 08 R264 | none -/
  hitFrom : Option (Rat × Rat) := none
  /-- comparisons within ±2 ns in a row | 4 bits | 08 R244 | 0 -/
  inWin : Nat := 0
  /-- comparisons beyond ±500 ns in a row | 3 bits | 08 R244 | 0 -/
  outWin : Nat := 0
  /-- comparisons in this phase of a switch | 13 bits | 08 R260 R262 | 0 -/
  cmps : Nat := 0
  /-- references dropped in this switch or relock | 13 bits | 08 R260 R269 | empty -/
  dropped : List Nat := []
  /-- a relock waits for the Bellows acknowledgement or runs | 2 bits | 08 R269 | 0 -/
  relock : Bool := false
  /-- reference the relock acquires | 4 bits | 08 R269 | none -/
  acq : Option (Fin 13) := none
  /-- the target's phase at its last comparison, ns | exact | 08 R263 R264 | none -/
  tgtErr : Option Rat := none
  /-- the target's phase before a suspected hit, and the difference, ns | exact | 08 R263 R264 | none -/
  tgtHit : Option (Rat × Rat) := none
  /-- a switch starts at the next comparison instant | 1 bit | 08 R259 | 0 -/
  switchPends : Bool := false
  /-- current gate number | 64 bits | 08 R251 | 0 -/
  gate : Nat := 0
  /-- DCO gate offsets, newest first, 0.001 ppm; none: not counted | 160 kept | 08 R267 | empty -/
  dcoGates : List (Option Int) := []
  /-- frequency word: the DCO's offset from 64,000 × fM in units of 2^-40 | signed | 08 R243 R281 R275, 02 R45 | 0 -/
  dco : Int := 0
  /-- the target missed an edge in this qualify | 1 bit | 08 R260 | 0 -/
  qMiss : Bool := false
  /-- build-out before the move under way, ns | exact | 08 R261 | 0 -/
  moveFrom : Rat := 0
  /-- loss gate of the selected reference while the loop holds its word | 64 bits | 08 R267 | 0 -/
  lossGate : Nat := 0
  /-- the loop was LOCKED and settled throughout this gate | 1 bit | 08 R267 | 0 -/
  gateLocked : Bool := false
  /-- Ember frequency in 0.001 ppm and the gates it was averaged over | signed, 8 bits | 08 R267 R281 | 0, 0 -/
  ember : Rat × Nat := (0, 0)
  /-- freeze-mark gate and loss gate of the last Ember entry | 2 × 64 bits | 08 R281 | 0, 0 -/
  emberGates : Nat × Nat := (0, 0)
  /-- MCLK0 code | 2 bits | 08 R247 R279 | 3 (512 × fM) -/
  mclk0 : BitVec 2 := 3
  /-- MCLK1 code | 2 bits | 08 R247 R279 | 3 (512 × fM) -/
  mclk1 : BitVec 2 := 3
  /-- CLKOUT code | 3 bits | 08 R247 R279 | 0 off -/
  clkout : BitVec 3 := 0
  /-- CLKOUT is held low until the next tick | 1 bit | 08 R247 | 0 -/
  clkLow : Bool := false
  /-- MCLK0, MCLK1 and master clocks held low during a change of fM | 1 bit | 06 R190 | 0 -/
  clocksHeld : Bool := false
  /-- software loop | as SwLoop | 08 R272 | see SwLoop -/
  sw : SwLoop := {}
  deriving DecidableEq, Repr

/-! ### Serial audio ports -/

/-- PORT_ST (R307). -/
inductive PortSt where
  | off | wait | measure | fadeIn | run | tail | incompat
  deriving DecidableEq, Repr

/-- PORT_MODE_NOW (R307). -/
inductive PortMode where
  | master | locked | foreign
  deriving DecidableEq, Repr

/-- One side of a port (R282 to R311). -/
structure PortSide where
  /-- PORT_CONFIG word 3 | 25 bits | 09 R310 | 0x0000_0104 -/
  w3 : Word := 0x104
  /-- PORT_CONFIG word 4, the slot mask | 32 bits | 09 R310 | 0x0000_0003 -/
  w4 : Word := 3
  /-- enabled by PORT_ENABLE | 1 bit | 09 R305 | 0 -/
  enabled : Bool := false
  /-- PORT_ST | 3 bits | 09 R307 | OFF -/
  st : PortSt := .off
  /-- PORT_MODE_NOW | 2 bits | 09 R307 | master -/
  mode : PortMode := .master
  /-- PORT_ERC_LOCK | 1 bit | 09 R307 | 0 -/
  ercLock : Bool := false
  /-- PORT_G | 1 bit | 09 R307 | 0 -/
  g : Bool := false
  /-- alignment group joined | 3 bits | 09 R307 R302 | none -/
  grp : Option (Fin 4) := none
  /-- PORT_STAT event bits 8:0 | 9 bits | 09 R307 | 0 -/
  ev : BitVec 9 := 0
  /-- PORT_GLITCH_CNT | 8 bits | 09 R308 | 0 -/
  glitchCnt : Nat := 0
  /-- PORT_LOSS_CNT | 8 bits | 09 R308 | 0 -/
  lossCnt : Nat := 0
  /-- PORT_LATE_CNT | 8 bits | 09 R308 | 0 -/
  lateCnt : Nat := 0
  /-- PORT_CLIP_CNT | 8 bits | 09 R308 | 0 -/
  clipCnt : Nat := 0
  /-- measured frame period in Hive cycles; 0: none | value crossing | 02 R45, 09 R311 | 0 (no rate) -/
  period : Nat := 0
  /-- reference period in Hive cycles | 17 bits | 09 R300 | DESIGN CHOICE 32,000 (log entry 4) -/
  refPeriod : Nat := 32000
  /-- good frames off by more than 2 % in a row | 3 bits | 09 R300 | 0 -/
  offRate : Nat := 0
  /-- aligned position in Hive cycles | 15 bits | 09 R293 R311 | DESIGN CHOICE 0 (log entry 4) -/
  pos : Nat := 0
  /-- converter fill in M frames from the centre | exact | 09 R311, 06 R195 | DESIGN CHOICE 0 (log entry 4) -/
  fill : Rat := 0
  /-- good frames measured in this restart | 7 bits | 09 R301 | 0 -/
  measured : Nat := 0
  /-- number of the next frame to complete or open | 64 bits | 09 R292 | 0 -/
  next : Nat := 0
  /-- frames of fade-in done, k | 5 bits | 09 R301 | 0 -/
  fadeK : Nat := 0
  /-- M frame D of the tail-out | 64 bits | 09 R299 | none -/
  tailD : Option Nat := none
  /-- values h of the entry for D − 1 | 32 × binary32 | 09 R299 | +0.0 -/
  tailH : List F32 := []
  /-- go to OFF when the tail ends | 1 bit | 09 R310 | 0 -/
  offAfter : Bool := false
  /-- frames have numbers since the last alignment | 1 bit | 09 R292 | 0 -/
  numbered : Bool := false
  /-- number of the first frame since the last alignment | 64 bits | 09 R292 R301 | 0 -/
  first : Nat := 0
  /-- M frame whose entry the hold stage has checked last | 64 bits | 09 R295 | none -/
  checked : Option Nat := none
  /-- step 3 of the restart passed; the side waits for its group | 1 bit | 09 R303 | 0 -/
  ready : Bool := false
  /-- the group's placement was refused since the restart | 1 bit | 09 R304 | 0 -/
  refused : Bool := false
  /-- values of the last entry written | 32 × binary32 | 09 R295 R297 | +0.0 -/
  lastVals : List F32 := []
  /-- the tail-out under way takes a converter's output; with the flag, a locked one's | 2 bits | 09 R299 | none -/
  tailErc : Option Bool := none
  /-- M frames that the newest sample of the converter's buffer is old | Nat | 06 R193 | 0 -/
  ercAge : Nat := 0
  /-- sample buffer of the edge rate converter, newest frame first | frames of 32 × binary32 | 06 R193 | empty -/
  erc : List (List F32) := []
  /-- last output of the edge rate converter | 32 × binary32 | 09 R295 | +0.0 -/
  ercLast : List F32 := []
  /-- slot buffer with the Hive | 4 × 32 channels | 02 R46 | no valid tag -/
  buf : SlotBuf := .replicate 4 none
  /-- fade-in factor at which a transmit tail-out began | binary32 | 09 R299 R301 | 1.0 -/
  tailF : F32 := 0x3F800000
  /-- codes of the last transmit pin frame; none: high-impedance slot | 32 slots | 09 R286 R287 | empty -/
  pin : List (Option Word) := []
  deriving DecidableEq, Repr

/-- One alignment group (R302 to R304). -/
structure PortGrp where
  /-- PORT_GRP_LATE | 1 bit | 09 R302 | DESIGN CHOICE 0 (log entry 4) -/
  late : Bool := false
  /-- g fixed at the first alignment | 1 bit | 09 R302 | none -/
  g : Option Bool := none
  /-- effect frame of the group's enable | 64 bits | 09 R303 | none -/
  enabledAt : Option Nat := none
  deriving DecidableEq, Repr

/-! ### Hivewire -/

/-- Rate of a slot (R320). -/
inductive HwRate where
  | off | quad | m | s
  deriving DecidableEq, Repr

/-- One Hivewire slot (R320 to R324). -/
structure HwSlot where
  /-- rate | 2 bits | 10 R320 | off -/
  rate : HwRate := .off
  /-- owner node | 4 bits | 10 R324 | 0 none -/
  owner : Nat := 0
  /-- first slot of a pair | 1 bit | 10 R322 | 0 -/
  paired : Bool := false
  /-- second slot of a pair, or reserved for the partner's reports | 1 bit | 10 R322 R351 | 0 -/
  reserved : Bool := false
  /-- values of the channels for phases 0 to 3 as last written | 4 × binary32 | 10 R325 | +0.0 -/
  last : Vector F32 4 := .replicate 4 0
  /-- samples of the M or S frame being received, phase order | 4 × binary32 | 10 R325 | none -/
  cur : Vector (Option F32) 4 := .replicate 4 none
  /-- quad samples: x of the latest line frames, newest first; none: missing | 3 kept | 10 R326 | empty -/
  quad : List (Option F32) := []
  /-- concealed c of the latest line frames, newest first | 3 × binary64 | 10 R326 R329 | +0.0 -/
  conc : List F64 := []
  /-- M frame D and values h of a tail-out | 64 bits, 4 × binary32 | 10 R347 | none -/
  tail : Option (Nat × Vector F32 4) := none
  deriving DecidableEq, Repr

/-- A node on a chain (R339, R341). -/
structure HwNode where
  desc : List Byte
  ver : Nat
  grant : Nat
  missed : Nat
  event : List Byte
  deriving DecidableEq, Repr

/-- Why a control message was sent (R344, R350). -/
inductive XactFor where
  | walk
  | slotMap (mbx : Nat) (tag : BitVec 16) (eff : Nat)
  | nodeXact (mbx : Nat) (tag : BitVec 16) (write : Bool) (count : Nat)
  | partner (mbx : Nat) (tag : BitVec 16) (node slot : Nat)
  | tunnel
  | event (node : Nat)
  | genUpdate
  deriving DecidableEq, Repr

/-- A control request (R334 to R337). -/
structure Xact where
  dest : Nat
  gen : Nat
  op : Byte
  payload : List Byte
  tag : BitVec 4
  tries : Nat
  why : XactFor
  deriving DecidableEq, Repr

/-- An HW_SLOT_MAP accepted and not yet applied (R357): the frame E, its user, and whether the node has answered. -/
structure PendMap where
  eff : Nat
  mbx : Nat
  tag : BitVec 16
  up : Bool
  slot : Nat
  acked : Bool
  deriving DecidableEq, Repr

/-- Steps of the discovery walk (R343, R344). -/
inductive WalkSt where
  | none | vsnsLow | check1 | vgood | discover | desc1 | desc2 | assign | genUpdate | checkNext | downPower
  deriving DecidableEq, Repr

/-- One Hivewire chain (R312 to R360). -/
structure Chain where
  /-- HW_ST | 4 bits | 10 R353 | off (0) -/
  st : Nat := 0
  /-- HW_GEN | 4 bits | 10 R340 R353 | 0 -/
  gen : Nat := 0
  /-- nodes present, node 1 first | at most 12 | 10 R339 R353 | none -/
  nodes : List HwNode := []
  /-- HW_WALK_STOP | 4 bits | 10 R353 | 0 -/
  stop : Nat := 0
  /-- HW_PARTNER | 4 bits | 10 R353 | 0 -/
  partner : Nat := 0
  /-- slot of the partner's reports | 6 bits | 10 R351 | 0 -/
  partnerSlot : Nat := 0
  /-- latest partner report | 24 bits | 10 R351 | none -/
  report : Option (BitVec 24) := none
  /-- unwrapped time of the partner's tick in 1/16 symbol | Int | 10 R351 | none -/
  ticks : Option Int := none
  /-- HW_PWR, LINEx_PWR_EN high | 1 bit | 10 R353 | 0 -/
  pwr : Bool := false
  /-- HW_CHAIN_STAT event bits 6:0 | 7 bits | 10 R353 | 0 -/
  ev : BitVec 7 := 0
  /-- HW_ERR_CNT | 16 bits | 10 R354 | 0 -/
  errCnt : Nat := 0
  /-- HW_RETRY_CNT | 8 bits | 10 R354 | 0 -/
  retryCnt : Nat := 0
  /-- HW_LOST_CNT | 8 bits | 10 R354 | 0 -/
  lostCnt : Nat := 0
  /-- HW_MAX_VER | 2 bits | 10 R358 | DESIGN CHOICE 3 (log entry 4) -/
  maxVer : Nat := 3
  /-- HW_AUTO | 1 bit | 10 R353 | 0 -/
  auto : Bool := false
  /-- HW_ERR_THR | 16 bits | 10 R358 | 16 -/
  errThr : Nat := 16
  /-- HW_IBUDGET | binary32 A | 10 R358 | 2.0 -/
  ibudget : F32 := 0x40000000
  /-- HW_VGOOD | binary32 V | 10 R358 | 8.0 -/
  vgood : F32 := 0x41000000
  /-- LINEx_VSNS divider ratio | binary32 | 10 R358 | DESIGN CHOICE 1.0 (log entry 4) -/
  ratio : F32 := 0x3F800000
  /-- HW_BOOT_TMO in M frames | 16 bits | 10 R358 | 2,400 -/
  bootTmo : Nat := 2400
  /-- HW_RETRY in M frames | 23 bits | 10 R358 | 48,000 -/
  retry : Nat := 48000
  /-- upstream slots 0 to 39 | 40 × HwSlot | 10 R315 | off -/
  up : Vector HwSlot 40 := .replicate 40 {}
  /-- downstream slots 0 to 15 | 16 × HwSlot | 10 R315 | off -/
  down : Vector HwSlot 16 := .replicate 16 {}
  /-- inbound M entries, index slot × 4 + phase | slot buffer | 02 R46, 10 R325 | no valid tag -/
  inM : SlotBuf := .replicate 4 none
  /-- inbound S entries | slot buffer | 02 R46, 10 R325 | no valid tag -/
  inS : SlotBuf := .replicate 4 none
  /-- inbound F entries, index slot × 4 | slot buffer | 02 R46, 10 R326 | no valid tag -/
  inF : SlotBuf := .replicate 4 none
  /-- outbound M entries | slot buffer | 02 R46, 10 R327 | no valid tag -/
  outM : SlotBuf := .replicate 4 none
  /-- outbound S entries | slot buffer | 02 R46, 10 R327 | no valid tag -/
  outS : SlotBuf := .replicate 4 none
  /-- outbound F entries, index slot × 4 | slot buffer | 02 R46, 10 R328 | no valid tag -/
  outF : SlotBuf := .replicate 4 none
  /-- outbound F entries that the adapter has read, newest first | 4 × 64 channels | 10 R328 R330 | +0.0 (empty) -/
  fHist : List (List F32) := []
  /-- line frames of this M frame whose upstream regions are done | 3 bits | 10 R319 R347 | 0 -/
  gotQ : Nat := 0
  /-- this M frame's line frame of phase 0 has brought its upstream region | 1 bit | 10 R346 | 0 -/
  heard : Bool := false
  /-- characters of this M frame's line frames that are sent, phase 0 first | 4 × 56 × 9 bits | 10 R314 R315 | empty -/
  chars : List (List (Bool × Byte)) := []
  /-- running disparity of the master's transmitter at the M frame's start is positive | 1 bit | 10 R314 | DESIGN CHOICE negative (log entry 4) -/
  disp : Bool := false
  /-- downstream samples k of the current M frame, phase by phase | 4 × 16 slots | 10 R323 R327 R328 | empty -/
  line : List (List Int) := []
  /-- slot maps accepted and not yet applied | list | 10 R357 | empty -/
  maps : List PendMap := []
  /-- HW_WALK commands to act on at the next M frame tick, oldest first: mode, mailbox, tag | 2, 2 and 16 bits each | 10 R356 | none -/
  cmdPend : List (Nat × Nat × BitVec 16) := []
  /-- the walk's next transaction | one message | 10 R344 R350 | none -/
  walkReq : Option Xact := none
  /-- attach bits of the last q = 2 line frame | 12 bits | 10 R317 | 0 -/
  attach : BitVec 12 := 0
  /-- the partner on this chain rang MBX2 and waits for its response | 1 bit | 14 R485 | 0 -/
  tunRang : Bool := false
  /-- first M frame that may carry the next request | 64 bits | 10 R336 | 0 -/
  nextAt : Nat := 0
  /-- requests waiting, oldest first: the first 8 in the crossing's queue, the others behind a stalled Ianik | 8 messages | 02 R51, 10 R336 | empty -/
  queue : List Xact := []
  /-- request outstanding, with the M frame T that carried it | 16 bytes | 10 R336 | none -/
  out : Option (Xact × Nat) := none
  /-- the request last begun, with the M frame that carries it | 16 bytes | 10 R334 R336 | none -/
  msg : Option (Xact × Nat) := none
  /-- last tag used | 4 bits | 10 R336 | DESIGN CHOICE 0 (log entry 4) -/
  tag : BitVec 4 := 0
  /-- the last transaction sent was the walk's | 1 bit | 10 R350 | 0 -/
  lastWalk : Bool := false
  /-- fragments of the reply received, phases 0 to 3: byte 212 and four bytes; none: lost | 4 × 5 bytes | 10 R317 R334 | none -/
  frags : Vector (Option (List Byte)) 4 := .replicate 4 none
  /-- step of the discovery walk | as WalkSt | 10 R343 R344 | none -/
  walk : WalkSt := .none
  /-- M frame at which that step began | 64 bits | 10 R343 R344 | 0 -/
  walkFrom : Nat := 0
  /-- descriptor bytes of the node under discovery | up to 36 bytes | 10 R341 | empty -/
  walkDesc : List Byte := []
  /-- that hop was powered after an attach report | 1 bit | 10 R345 | 0 -/
  walkAttach : Bool := false
  /-- mailbox and tag of the HW_WALK command | 2 and 16 bits | 10 R345 | none -/
  walkCmd : Option (Nat × BitVec 16) := none
  /-- GEN_UPDATE broadcasts left and the old generation | 2 and 4 bits | 10 R340 | 0, 0 -/
  genLeft : Nat × Nat := (0, 0)
  /-- line frames in error in the window of 4,800 M frames, and its number | 16 and 64 bits | 10 R332 | 0, 0 -/
  errWin : Nat × Nat := (0, 0)
  /-- EV34 or EV38 raised in that window | 1 bit | 10 R332 | 0 -/
  errRaised : Bool := false
  /-- attention bits of the last q = 1 line frame | 12 bits | 10 R317 | 0 -/
  attention : BitVec 12 := 0
  /-- measured round trip in symbols | 9 bits | 10 R319 R360 | DESIGN CHOICE 0 (log entry 4) -/
  trip : Nat := 0
  /-- M frame of the last node loss or failed automatic walk | 64 bits | 10 R348 | none -/
  retryFrom : Option Nat := none
  /-- TUNNEL: next offset to write in MBX2's command area, and whether a byte passed 0x01FF | 10 bits | 14 R485 | 0, 0 -/
  tunIn : Nat × Bool := (0, false)
  /-- TUNNEL: response bytes sent; none: no response to send | 10 bits | 14 R485 | none -/
  tunOut : Option Nat := none
  /-- TUNNEL: the partner asked for transfers | 1 bit | 10 R352 | 0 -/
  tunActive : Bool := false
  /-- stored-energy check requested: capacitance in 0.1 µF and whether the input is VSENSE_BAT | 16 bits | 11 R381 | none -/
  check : Option (Nat × Bool) := none
  deriving DecidableEq, Repr

/-! ### Damper -/

/-- DMPR_SUPPLY (R366, R384). -/
inductive Supply where
  | normal | warn | cut | loadDump
  deriving DecidableEq, Repr

/-- Damper state of one channel (R371 to R375, R385). -/
structure DmprCh where
  /-- DMPR_C_ST | 2 bits | 11 R385 | normal (0) -/
  st : Nat := 0
  /-- DMPR_C_TRIES | 2 bits | 11 R385 | 0 -/
  tries : Nat := 0
  /-- DC detection latched on the kill line | 1 bit | 11 R373 R376 | 0 -/
  dcKill : Bool := false
  /-- DMPR_C_DRVOFF | 1 bit | 11 R374 R385 | 0 -/
  drvOff : Bool := false
  /-- DMPR_C_EV_DC | 1 bit | 11 R385 | 0 -/
  evDc : Bool := false
  /-- DMPR_C_EV_ENERGY | 1 bit | 11 R385 | 0 -/
  evEnergy : Bool := false
  /-- cool-down under way | 1 bit | 11 R372 | 0 -/
  cooling : Bool := false
  /-- energy ceiling is 0 | 1 bit | 11 R372 | 0 (ceiling 1.0) -/
  eZero : Bool := false
  /-- energy of the last blocks, newest first | W_E × binary64 | 11 R372 | 0 (empty) -/
  eWin : List F64 := []
  /-- means of v of the last blocks, newest first | W_D × binary64 | 11 R373 | 0 (empty) -/
  dWin : List F64 := []
  /-- the last block ended with a DC detection | 1 bit | 11 R374 | 0 -/
  dcLast : Bool := false
  /-- ceiling last sent | binary32 | 11 R376 R388, 02 R45 | 0, full attenuation -/
  sent : F32 := 0
  /-- DMPR_E_LIM | binary32 J | 11 R372 | 20.0 -/
  eLim : F32 := 0x41A00000
  /-- W_E | 10 bits | 11 R372 | 100 -/
  wE : Nat := 100
  /-- W_D | 10 bits | 11 R373 | 100 -/
  wD : Nat := 100
  /-- DMPR_DC_THR | binary32 V | 11 R373 | 2.0 -/
  dcThr : F32 := 0x40000000
  /-- DMPR_COOL | binary32 s | 11 R372 | 2.0 -/
  cool : F32 := 0x40000000
  /-- energy rule on | 1 bit | 11 R387 | 1 -/
  ruleE : Bool := true
  /-- DC rule on | 1 bit | 11 R387 | 1 -/
  ruleD : Bool := true
  /-- BEL_VFB_FS copy | binary32 | 11 R370 | DESIGN CHOICE 1.0 (log entry 4) -/
  vfb : F32 := 0x3F800000
  /-- BEL_IFB_FS copy | binary32 | 11 R370 | DESIGN CHOICE 1.0 (log entry 4) -/
  ifb : F32 := 0x3F800000
  /-- FBV bits that its decimator holds, newest lowest | 48 bits | 11 R370 | DESIGN CHOICE 0 (log entry 11) -/
  vBits : BitVec 48 := 0
  /-- FBI bits that its decimator holds, newest lowest | 48 bits | 11 R370 | DESIGN CHOICE 0 (log entry 11) -/
  iBits : BitVec 48 := 0
  deriving DecidableEq, Repr

/-- Damper state of one line (R378 to R382, R384). -/
structure DmprLine where
  /-- DMPR_Lx_ST | 2 bits | 11 R384 | normal (0) -/
  st : Nat := 0
  /-- DMPR_Lx_TRIES | 2 bits | 11 R384 | 0 -/
  tries : Nat := 0
  /-- DMPR_Lx_PERMIT | 1 bit | 11 R384 | 0 -/
  permit : Bool := false
  /-- overcurrent samples in a row | 2 bits | 11 R378 | 0 -/
  ovr : Nat := 0
  /-- latest current, amperes | exact | 11 R388 | DESIGN CHOICE 0 (log entry 4) -/
  amps : Rat := 0
  /-- latest LINEx_VSNS samples in volts, newest first | 8 kept | 11 R381 R388 | DESIGN CHOICE none, reads 0 (log entry 4) -/
  volts : List Rat := []
  /-- DMPR_ITRIP | binary32 A | 11 R378 | 2.2 -/
  itrip : F32 := 0x400CCCCD
  /-- shunt | binary32 mΩ | 11 R387 | 50.0 -/
  shunt : F32 := 0x42480000
  /-- DMPR_LINE_ELIM | binary32 mJ | 11 R381 | 16.0 -/
  elim : F32 := 0x41800000
  /-- DMPR_LRETRY_T | binary32 s | 11 R379 | 1.0 -/
  retryT : F32 := 0x3F800000
  /-- DMPR_LRETRY_N | 2 bits | 11 R379 | 3 -/
  retryN : Nat := 3
  deriving DecidableEq, Repr

/-- Supply thresholds, ratios and crank curve (R362, R367, R368). -/
structure DmprCfg where
  /-- VSENSE_BAT ratio | binary32 | 11 R362 | 12.0 -/
  batRatio : F32 := 0x41400000
  /-- VSENSE_RAIL ratio | binary32 | 11 R362 | 12.0 -/
  railRatio : F32 := 0x41400000
  /-- crank warn | binary32 V | 11 R367 | 9.0 -/
  warn : F32 := 0x41100000
  /-- warn hysteresis | binary32 V | 11 R367 | 0.25 -/
  hyst : F32 := 0x3E800000
  /-- crank cut | binary32 V | 11 R367 | 6.0 -/
  cut : F32 := 0x40C00000
  /-- resume | binary32 V | 11 R367 | 7.0 -/
  resume : F32 := 0x40E00000
  /-- load dump | binary32 V | 11 R367 | 18.0 -/
  dump : F32 := 0x41900000
  /-- release | binary32 V | 11 R367 | 16.0 -/
  release : F32 := 0x41800000
  /-- DMPR_LD_DRVOFF | 1 bit | 11 R369 | 0 -/
  ldDrvOff : Bool := false
  /-- crank curve as configured, V and c; none: the default points of R368 | 8 × 2 × binary32 | 11 R368 | default points -/
  curve : Option (List (F32 × F32)) := none
  deriving DecidableEq, Repr

/-- The Damper (R361 to R388). -/
structure Damper where
  /-- the Damper runs | 1 bit | 11 R365 | 0 -/
  running : Bool := false
  /-- configuration in force | as DmprCfg | 11 R367 | see DmprCfg -/
  cfg : DmprCfg := {}
  /-- configuration taken at the next round boundary | as DmprCfg | 11, "The 0x08xx commands" | none -/
  cfgNext : Option DmprCfg := none
  /-- supply state | 3 bits | 11 R384 | NORMAL -/
  supply : Supply := .normal
  /-- VSENSE_BAT samples in volts, newest first | 16 kept | 11 R366 | none -/
  bat : List Rat := []
  /-- VSENSE_BAT samples taken since the restart | count to 16 | 11 R365 | 0 -/
  batN : Nat := 0
  /-- samples in a row below cut, at or above resume, above load dump, at or below release | 4 counts | 11 R366 | 0 -/
  runs : Nat × Nat × Nat × Nat := (0, 0, 0, 0)
  /-- VSENSE_RAIL in volts | exact | 11 R388 | DESIGN CHOICE 0 (log entry 4) -/
  rail : Rat := 0
  /-- samples in a row at 0 or full scale, per ADC input: BAT, RAIL, A VSNS, B VSNS, A ISNS, B ISNS | 6 counts | 11 R363 | 0 -/
  stuck : Vector Nat 6 := .replicate 6 0
  /-- channels | 32 × DmprCh | 11 R385 | see DmprCh -/
  ch : Vector DmprCh 32 := .replicate 32 {}
  /-- chain A and B lines | 2 × DmprLine | 11 R384 | see DmprLine -/
  line : Vector DmprLine 2 := .replicate 2 {}
  /-- line configuration taken at the next round boundary | 2 × DmprLine | 11, "The 0x08xx commands" | none -/
  lineNext : Vector (Option DmprLine) 2 := .replicate 2 none
  /-- channel configuration taken at the next round boundary | 32 × DmprCh | 11, "The 0x08xx commands" | none -/
  chNext : Vector (Option DmprCh) 32 := .replicate 32 none
  /-- DMPR_KILL_CNT | 8 bits | 11 R384 | 0 -/
  killCnt : Nat := 0
  /-- DMPR_STAT event bits 6:0 | 7 bits | 11 R384 | 0 -/
  ev : BitVec 7 := 0
  /-- first ceilings and kill states issued since the restart | 1 bit | 11 R365 | 0 -/
  issued : Bool := false
  deriving DecidableEq, Repr

/-! ### Memory care, PSP0 and Forager -/

/-- Patrol, error counts and the Vault (R407 to R424). -/
structure MemCare where
  /-- corrected and uncorrectable counts per class | 8 × 16 and 8 bits | 12 R423 | 0 -/
  ecc : Vector (Nat × Nat) 8 := .replicate 8 (0, 0)
  /-- first error record | 3 words | 12 R410 | none (reads 0) -/
  first : Option (Word × Word × Word) := none
  /-- latest error record | 3 words | 12 R410 | none (reads 0) -/
  latest : Option (Word × Word × Word) := none
  /-- MEM_PT_SCRUB | 1 bit | 12 R422 | 1 -/
  scrub : Bool := true
  /-- MEM_PT_REGION | 1 bit | 12 R422 | 1 -/
  region : Bool := true
  /-- pass period in s | 12 bits | 12 R411 | 60 -/
  period : Nat := 60
  /-- region interval in M frames | 23 bits | 12 R412 | 48,000 -/
  interval : Nat := 48000
  /-- MEM_PT_RECOVERED | 1 bit | 12 R422 | 0 -/
  recovered : Bool := false
  /-- MEM_OFF_ACC | 1 bit | 12 R405 R422 | 0 -/
  offAcc : Bool := false
  /-- MEM_PT_PASSES | 18 bits | 12 R422 | 0 -/
  passes : Nat := 0
  /-- words that the pass under way has read of the Store, mailbox RAM, Ianik RAM and the Vault, numbered through, as
  ranges from a first word to below an end | set of words | 12 R411 | none -/
  scrubbed : List (Nat × Nat) := []
  /-- M frame in which the region interval under way began | 64 bits | 12 R412 | DESIGN CHOICE 0 (log entry 4) -/
  intervalFrom : Nat := 0
  /-- M frame of the latest doorbell strobe | 64 bits | 12 R413 | none -/
  strobeAt : Option Nat := none
  /-- a region test is due | 1 bit | 12 R412 | 0 -/
  due : Bool := false
  /-- next region of the Store and of Ianik RAM | 13 bits each | 12 R412 | 0, 0 -/
  nextRegion : Nat × Nat := (0, 0)
  /-- the next region test is of Ianik RAM | 1 bit | 12 R412 | DESIGN CHOICE 0 (log entry 4) -/
  nextIsRam : Bool := false
  /-- last region tested in each memory | 13 bits each | 12 R424 | 0, 0 -/
  lastRegion : Nat × Nat := (0, 0)
  /-- phase whose marker write waits for the Hearth's acknowledgement | 2 bits | 12 R414 | none -/
  nextPhase : Option (BitVec 2) := none
  /-- phase the engine runs | 2 bits | 12 R412 | idle (0) -/
  phase : BitVec 2 := 0
  /-- M frame in which the region test started | 64 bits | 12 R413 | 0 -/
  startFrame : Nat := 0
  /-- words upset and not yet rewritten | set of codewords | 12 R407 | none -/
  upsets : List Upset := []
  /-- Ianik RAM | 1,024 KiB | 12 R389 | 0 (R507) -/
  ianikRam : Mem := []
  /-- Vault | 256 KiB | 12 R416 | 0 -/
  vault : Mem := []
  /-- the key area holds the keys derived at boot | 1 bit | 12 R416 | 0 -/
  keysIn : Bool := false
  /-- Vault wipe under way | 1 bit | 12 R417 R424 | 0 -/
  wiping : Bool := false
  /-- Vault locked | 1 bit | 12 R419 | 0 -/
  locked : Bool := false
  /-- a read-back failed once in this wipe | 1 bit | 12 R419 | 0 -/
  repeated : Bool := false
  /-- wipes since power-up | 8 bits | 12 R424 | 0 -/
  wipes : Nat := 0
  /-- cause of the latest wipe, in the order of R417 | 8 bits | 12 R424 | 0 -/
  cause : Nat := 0
  /-- VAULT_WIPE commands waiting for the wipe, mailbox and tag | deferred | 12 R424 | none -/
  cmds : List (Nat × BitVec 16) := []
  /-- pending block power completions of this M frame: the blocks are unreachable | blocks | 12 R402 | none -/
  moving : List (Option (Fin 32) × Nat) := []
  deriving DecidableEq, Repr

/-- A device profile of PSP0 (R429), as PSP_DEV_CONFIG words 3 to 6 hold it. -/
structure Profile where
  /-- commands | 4 × 8 bits | 13 R429 R461 | DESIGN CHOICE 0 (log entry 4) -/
  w3 : Word := 0
  /-- AW, DUMMY, CONT, RDY_EN, PRESENT, MODE_ON, BUSY_MASK | 32 bits | 13 R429 R461 | PSP_PRESENT 0; rest DESIGN CHOICE 0 (log entry 4) -/
  w4 : Word := 0
  /-- DIV, PAGE, POLL | 32 bits | 13 R429 R461 | DESIGN CHOICE 0 (log entry 4) -/
  w5 : Word := 0
  /-- PROG_TMO, RDY_TMO | 32 bits | 13 R429 R461 | DESIGN CHOICE 0 (log entry 4) -/
  w6 : Word := 0
  /-- the device is in continuous-read mode | 1 bit | 13 R431 | 0 -/
  cont : Bool := false
  /-- an exit frame is due before the next transaction | 1 bit | 13 R431 | 0 -/
  exitDue : Bool := false
  deriving DecidableEq, Repr

/-- What a PSP0 request serves (R434); `gone`: its work has been discarded meanwhile; `cut`: so too, by a Hive hold that
cuts a write burst (R457). -/
inductive P0For where
  | ring (r : Fin 16)
  | fill (line : Nat) (demand : Bool)
  | xfer (mbx : Nat) (tag : BitVec 16)
  | image
  | gone
  | cut
  deriving DecidableEq, Repr

/-- A request of PSP0: a read of `len` bytes, or a write or erase sequence (R432, R434). -/
structure P0Req where
  why : P0For
  sel : Nat
  addr : Nat
  len : Nat
  write : Bool
  erase : Bool
  raw : Bool
  cmd : Byte
  data : List Byte
  /-- no address phase -/
  bare : Bool
  /-- dummy clocks of a raw read -/
  dummy : Nat
  /-- the write-enable transaction of this page has been sent -/
  enabled : Bool
  deriving DecidableEq, Repr

/-- The phases of a transaction on the wire (R427, R431): an exit frame before it, the command unless it is omitted, the
address and its width (0: no address phase), the mode bits, the dummy clocks, and the data units with their width. -/
structure P0Frame where
  exitFirst : Bool
  cmd : Option Byte
  addrBits : Nat
  addr : Nat
  mode : Option Byte
  dummy : Nat
  unit : Nat
  units : Nat
  deriving DecidableEq, Repr

/-- Ring states and kinds (R448, R459). -/
inductive RingSt where
  | off | ready | armed | running
  deriving DecidableEq, Repr

/-- A Forager ring's kind (R459). -/
inductive RingKind where
  | playback | capture | copy | none
  deriving DecidableEq, Repr

/-- A descriptor held by a ring (R449). -/
structure Desc where
  flash : Nat
  sel : Nat
  toFlash : Bool
  ianikRam : Bool
  irq : Bool
  mem : Nat
  len : Nat
  deadline : Nat
  tag : Word
  started : Bool
  done : Nat
  first : Nat
  late : Bool
  media : Bool
  /-- words of captured frames that are read whole and not sent yet (R453) -/
  carry : List Word
  stopped : Bool
  deriving DecidableEq, Repr

/-- One Forager ring (R448 to R457, R459). -/
structure Ring where
  /-- FGR_ST | 2 bits | 13 R459 | OFF -/
  st : RingSt := .off
  /-- FGR_KIND | 2 bits | 13 R459 | 0b00 -/
  kind : RingKind := .playback
  /-- format: S16 | 1 bit | 13 R450 | DESIGN CHOICE 0 (log entry 4) -/
  s16 : Bool := false
  /-- alignment group | 3 bits | 13 R459 | none -/
  grp : Option (Fin 4) := none
  /-- first channel b | 6 bits | 13 R450 | DESIGN CHOICE 0 (log entry 4) -/
  b : Nat := 0
  /-- channels c | 7 bits | 13 R450 | DESIGN CHOICE 0 (log entry 4) -/
  c : Nat := 0
  /-- buffer base B | 21 bits | 13 R450 | DESIGN CHOICE 0 (log entry 4) -/
  base : Nat := 0
  /-- buffer length K in frames | 21 bits | 13 R450 | DESIGN CHOICE 0 (log entry 4) -/
  k : Nat := 0
  /-- start frame N0 | 64 bits | 13 R450 R456 | DESIGN CHOICE 0 (log entry 4) -/
  n0 : Nat := 0
  /-- fill index Φ, or frames written for capture | relative index | 13 R451 R453 | 0 -/
  fill : Nat := 0
  /-- stream indices read | count r | 13 R451 | 0 -/
  reads : Nat := 0
  /-- descriptors, head first | at most 64 | 13 R448 | none -/
  descs : List Desc := []
  /-- FGR_EV_MEDIA | 1 bit | 13 R459 | 0 -/
  evMedia : Bool := false
  /-- FGR_MISS_CNT | 8 bits | 13 R459 | 0 -/
  miss : Nat := 0
  /-- FGR_SUB_CNT | 8 bits | 13 R459 | 0 -/
  sub : Nat := 0
  /-- tag and status of the latest completion | 32 and 2 bits | 13 R462 | 0 -/
  lastDone : Word × Nat := (0, 0)
  deriving DecidableEq, Repr

/-- PSP0, the prefetch buffer and the Forager (R425 to R438, R448 to R459). -/
structure Flash where
  /-- profiles of select codes 0 to 14 | 15 × Profile | 13 R429 | see Profile; code 0 from fuses -/
  prof : Vector Profile 15 := .replicate 15 {}
  /-- PSP_TAGFAIL_CNT | 8 bits | 13 R458 | 0 -/
  tagFail : Nat := 0
  /-- PSP_MEDIA_CNT | 8 bits | 13 R458 | 0 -/
  mediaCnt : Nat := 0
  /-- PSP_XIP_LOCKED | 1 bit | 13 R437 R458 | 0 -/
  locked : Bool := false
  /-- PSP_LAST_SEL | 4 bits | 13 R458 | 0xF -/
  lastSel : Nat := 15
  /-- PSP_EV_TAG | 1 bit | 13 R458 | 0 -/
  evTag : Bool := false
  /-- PSP_EV_MEDIA | 1 bit | 13 R458 | 0 -/
  evMedia : Bool := false
  /-- tagged range: base and line count | 26 and 15 bits | 13 R437 R462 | 0, 0 -/
  tagRange : Nat × Nat := (0, 0)
  /-- Ianik RAM block that holds the tag table, the tag of line i at its byte 8 i | 1 to 6 | 13 R437 | DESIGN CHOICE 1 (log entry 4) -/
  tagBlk : Nat := 1
  /-- prefetch buffer: lines held, set by set least recently used last | 256 lines of 64 bytes | 13 R435 | empty -/
  lines : List (Nat × List Byte) := []
  /-- line Ianik waits for | 26 bits | 13 R435 | none -/
  stalled : Option Nat := none
  /-- requests waiting | queue | 13 R434 | empty -/
  queue : List P0Req := []
  /-- transaction under way | as P0Req | 13 R434 | none -/
  cur : Option P0Req := none
  /-- phases of that transaction, or of the latest | as P0Frame | 13 R427 R431 | none -/
  frame : Option P0Frame := none
  /-- fills whose lines have arrived and are checked next, with demand marks | list | 13 R436 R438 | none -/
  filled : List (Nat × Bool) := []
  /-- write sequences whose devices are polled, next to be polled first, with the polls so far | 16 bits each | 13 R432 | none -/
  polled : List (P0Req × Nat) := []
  /-- rings 0 to 15 | 16 × Ring | 13 R448 | see Ring -/
  rings : Vector Ring 16 := .replicate 16 {}
  /-- contents of the boot flash on select code 0, an external device | bytes, erased 0xFF | 15 R515 | DESIGN CHOICE erased (log entry 5) -/
  mem : Mem := []
  deriving DecidableEq, Repr

/-! ### Boot, images, life-cycle -/

/-- The fuses (R1). -/
structure Fuses where
  /-- key-hash slots programmed | 4 × 256 bits | 00 R1, 15 R538 | unprogrammed -/
  keys : Vector (Option (BitVec 256)) 4 := .replicate 4 none
  /-- revoke bits | 4 bits | 00 R1, 15 R539 | 0 -/
  revoked : Vector Bool 4 := .replicate 4 false
  /-- PUSH_OFF | 1 bit | 00 R1, 15 R512 | 0 -/
  pushOff : Bool := false
  /-- reset profile of PSP0 select code 0 | 4 words | 00 R1, 13 R429 | DESIGN CHOICE PSP_PRESENT 0 (log entry 4) -/
  prof0 : Profile := {}
  deriving DecidableEq, Repr

/-- Boot sources (R511). -/
inductive BootSrc where
  | none | slotA | slotB | push | recovery
  deriving DecidableEq, Repr

/-- A component of a manifest (R519). -/
structure Component where
  kind : Nat
  early : Bool
  isSealed : Bool
  tuning : Nat
  first : Nat
  count : Nat
  len : Nat
  deriving DecidableEq, Repr

/-- A manifest that has been read (R518). -/
structure Manifest where
  kind : Nat
  version : Word
  tuning : Nat
  comps : List Component
  digests : List (BitVec 256)
  keyHash : BitVec 256
  deriving DecidableEq, Repr

/-- A TUNE_LOAD or CELL_IMAGE_LOAD under way (R533, R536). -/
structure TuneJob where
  tuning : Nat
  image : BitVec 16
  persist : Bool
  eff : Nat
  mbx : Nat
  tag : BitVec 16
  cell : Option (Fin 32 × Bool × Bool)
  blocks : List Nat
  retried : Bool
  commit : Option Nat
  deriving DecidableEq, Repr

/-- A flash operation of an image command: an erase of `n` bytes, a program, or the verification of the target slot
(R532). -/
inductive FlashOp where
  | erase (a n : Nat)
  | prog (a : Nat) (bs : List Byte)
  | check (slotB : Bool)
  deriving DecidableEq, Repr

/-- An image command at work on the flash (R532, R534): the operations left, first to last, and the payload of its
completion. -/
structure ImgJob where
  op : BitVec 16
  mbx : Nat
  tag : BitVec 16
  ops : List FlashOp
  payload : List Word
  /-- the read of the verification under way has been repeated (R522) -/
  retried : Bool
  deriving DecidableEq, Repr

/-- Power-up, boot and image state (R505 to R544). -/
structure Boot where
  /-- BOOT_ST_FAIL | 4 bits | 15 R540 | 0 -/
  fail : BitVec 4 := 0
  /-- BOOT_ST_DONE | 1 bit | 15, BOOT_ST_RESULT | 0 -/
  done : Bool := false
  /-- BOOT_ST_PASS | 9 bits | 15, BOOT_ST_RESULT | 0 -/
  pass : BitVec 9 := 0
  /-- BOOT_ST_HCYC | 32 bits | 15, BOOT_ST_TIME | 0 -/
  hcyc : Word := 0
  /-- BOOT_ST_MEMFAIL | 32 bits | 15, BOOT_ST_MEMFAIL | 0 -/
  memFail : Word := 0
  /-- BOOT_ST_CELLFAIL | 32 bits | 15, BOOT_ST_CELLS | 0 -/
  cellFail : Word := 0
  /-- BOOT_ST_BELFAIL | 32 bits | 15, BOOT_ST_BEL | 0 -/
  belFail : Word := 0
  /-- BOOT_SRC | 4 bits | 15 R540 | none yet -/
  src : BootSrc := .none
  /-- BOOT_STEP | 4 bits | 15 R540 | 0 -/
  step : Nat := 0
  /-- BOOT_TRIAL | 1 bit | 15 R540 | 0 -/
  trial : Bool := false
  /-- BOOT_FALLBACK | 1 bit | 15 R540 | 0 -/
  fallback : Bool := false
  /-- BOOT_WAIT | 1 bit | 15 R540 | 0 -/
  wait : Bool := false
  /-- BOOT_EARLY_DONE | 1 bit | 15 R540 | 0 -/
  earlyDone : Bool := false
  /-- BOOT_FULL_DONE | 1 bit | 15 R540 | 0 -/
  fullDone : Bool := false
  /-- BOOT_SEL_SEEN: BOOT_SEL[1:0] as applied at the wake | 2 bits | 15 R512 R540 | 0 -/
  sel : BitVec 2 := 0
  /-- BOOT_ATTEMPTS, copy of the Hearth count as this boot leaves it | 2 bits | 15 R540 | 0 -/
  attempts : Nat := 0
  /-- BOOT_FAIL | 4 bits | 15 R540 | 0 -/
  reason : BitVec 4 := 0
  /-- BOOT_FAIL_BLOCK | 8 bits | 15 R540 | 0 -/
  failBlock : Byte := 0
  /-- sources still to try, first to last: 0 slots, 1 push, 2 recovery | queue | 15 R511 | empty -/
  order : List Nat := []
  /-- slots still to try in the slots source: A false, B true | queue | 15 R529 | empty -/
  cands : List Bool := []
  /-- MEAS0 to MEAS7 | 8 × 256 bits | 15 R523, 17 R582 | 0 -/
  meas : Vector (BitVec 256) 8 := .replicate 8 0
  /-- fuses | as Fuses | 00 R1 | see Fuses -/
  fuses : Fuses := {}
  /-- revoke bits as step 2 read them | 4 bits | 15 R505 R539 | 0 -/
  revRead : Vector Bool 4 := .replicate 4 false
  /-- manifest of the image being loaded or running | as Manifest | 15 R518 | none -/
  man : Option Manifest := none
  /-- blocks of that image verified | set of block indices | 15 R522 | none -/
  verified : List Nat := []
  /-- the read of the current block failed once | 1 bit | 15 R522 | 0 -/
  retried : Bool := false
  /-- the part of the boot set after the early set failed while the firmware ran | 1 bit | 15 R522 R526 | 0 -/
  loadFailed : Bool := false
  /-- bytes of a pushed manifest and its blocks | push buffer | 15 R537 | empty -/
  pushed : Mem := []
  /-- bytes of the pushed manifest written so far | count | 15 R537 | 0 -/
  pushedLen : Nat := 0
  /-- words received of each pushed block, key block | counts | 15 R537 | none -/
  pushedN : Sparse Nat := []
  /-- the host has ended the push | 1 bit | 15 R543 | 0 -/
  pushEnd : Bool := false
  /-- the firmware of the image runs | 1 bit | 15 R524 R537 | 0 -/
  booted : Bool := false
  /-- the rates of an applied firmware configuration are not in force yet | 1 bit | 06 R179 | 0 -/
  ratesDue : Bool := false
  /-- components applied, by kind | 8 bits | 15 R525 | 0 -/
  applied : Byte := 0
  /-- Damper configuration applied | 1 bit | 15 R525 | 0 -/
  dmprApplied : Bool := false
  /-- AUTO_RUN stamped a release | 1 bit | 15 R526 | 0 -/
  autoRun : Bool := false
  /-- the boot tuning has verified and waits for the Hive's first frame | 1 bit | 15 R526 | 0 -/
  tuneDue : Bool := false
  /-- tunings whose banks wait for the cells' memories to pass, oldest first | list | 15 R507 | empty -/
  banksHeld : List Nat := []
  /-- running tuning ID | 16 bits | 15 R544 | 0 -/
  running : Nat := 0
  /-- boot tuning ID from the log | 16 bits | 15 R534 R544 | 0 -/
  bootTuning : Nat := 0
  /-- update session open: target slot B | 1 bit | 15 R532 | none -/
  session : Option Bool := none
  /-- regions of the target written in this session | set of region indices | 15 R532 | none -/
  regions : List Nat := []
  /-- tuning or image load under way | as TuneJob | 15 R533 R536 | none -/
  job : Option TuneJob := none
  /-- tuning and image loads accepted behind it, oldest first | queue | 15 R533, 03 R103 | empty -/
  jobs : List TuneJob := []
  /-- image commands at work on the flash, oldest first | queue | 15 R532 | empty -/
  img : List ImgJob := []
  /-- a life-cycle advance applies a system reset after its completion | 1 bit | 15 R538 | 0 -/
  lcReset : Bool := false
  deriving DecidableEq, Repr

/-! ### Ianik -/

/-- A deferred command outstanding (R475). -/
structure Deferred where
  opcode : BitVec 16
  mbx : Nat
  tag : BitVec 16
  bulk : Option (Nat × Nat)
  deriving DecidableEq, Repr

/-- A frame-stamped change held staged in its target island (R22, R42). `groupPart` is what a group's enable sends to one side
of the group; `combCommit` is the record of a commit, whose
frame and length the Comb holds (R163, R165). -/
inductive Change where
  | combMap (d : Dom) (outlet : Bool) (first : Nat) (ids : List ChanId)
  | combCommit (d : Dom)
  | bridgeMode (dir : Fin 4) (mode : BridgeMode)
  | testgen (i : Fin 24) (wave : Wave) (f level : F32)
  | belConfig (mask : Word) (ws : List Word)
  | belLoop (mask : Word) (ks : List F32)
  | belEnable (mask : Word) (on : Bool)
  | belMute (mask : Word) (on : Bool)
  | belCarrier (mode depth : Nat)
  | belFaultClear (mask : Word) (bits : Word)
  | belPolicy (mask : Word) (bits : Word)
  | belMeasure (c : Fin 32) (m : Measure)
  | stoveOut (w : Word)
  | portEnable (p : Fin 8) (side : Side) (on : Bool)
  | groupEnable (g : Fin 4) (on : Bool)
  | groupPart (p : Fin 8) (side : Side)
  | slotMap (x : Fin 2) (up : Bool) (slot : Nat) (rate : HwRate) (paired : Bool) (owner : Nat)
  | memPower (cell : Option (Fin 32)) (blocks : Word) (dst : BlkPow)
  | ringStart (r : Fin 16)
  | ringStop (r : Fin 16)
  | release (hive bel hwA hwB : Bool)
  | toStandby (mbx : Option (Nat × BitVec 16))
  | toHearth
  | ianikReset
  | systemReset
  | tune (tuning : Nat) (roles : List (Fin 32 × RoleChange)) (swaps : List (Fin 32))
  | autoTune (tuning : Nat) (d4 d6 : BitVec 256)
  deriving DecidableEq, Repr

/-- The handshake that carries a staged change (R37, R40, R41): its request waits for the one before it on the crossing, is
raised, is acknowledged, or is withdrawn without an acknowledgement, seen by the receiver or not. -/
inductive Shake where
  | waits | raised | acked | seen | lost
  deriving DecidableEq, Repr

/-- A staged change with its stamp, the mailbox (4: the firmware's own) and the M frame of the command it is a part of, the
tag of that command, and its handshake (R37, R42). -/
structure Stamped where
  frame : Nat
  chg : Change
  cmd : Nat × Nat
  tag : BitVec 16 := 0
  shake : Shake := .raised
  deriving DecidableEq, Repr

/-- A service routine under way (R558 to R566). -/
structure Routine where
  op : BitVec 16
  mbx : Nat
  tag : BitVec 16
  abort : Bool
  words : List Word
  target : Word
  /-- measurements still to run: channel and frequency -/
  todo : List (Nat × F32)
  eff : Nat
  results : List (List Word)
  bulk : Nat × Nat
  blocks : List (List F64)
  mins : List Rat
  counts : List Nat
  deriving DecidableEq, Repr

/-- Ianik's own state: deferred commands, staged changes, service routine. -/
structure Ianik where
  /-- deferred commands outstanding | at most 16 | 14 R475 | none -/
  deferred : List Deferred := []
  /-- staged frame-stamped changes, in order of arrival | staged in their islands | 02 R42 | none -/
  staged : List Stamped := []
  /-- messages that wait for credit in the full Ianik to Hive queue, oldest first | stalled at Ianik | 02 R51 | none -/
  stalled : List QEntry := []
  /-- service routine running | as Routine | 16 R558 | none -/
  routine : Option Routine := none
  /-- RUN to STANDBY under way: mailbox and tag of its command; inner none: no command | 2 and 16 bits | 14 R498 | none -/
  standbyCmd : Option (Option (Nat × BitVec 16)) := none
  /-- firmware faults survived, newest first | service record | 14 R495 | none -/
  fwFaults : List (Byte × BitVec 24) := []
  /-- sequence number of the next partner ring | 8 bits | 14 R485 | 0x01 -/
  ringCount : Byte := 1
  /-- MBX2 command cut by a byte past 0x01FF | 1 bit | 14 R485 | 0 -/
  tunOverflow : Bool := false
  deriving DecidableEq, Repr

/-! ### The whole machine -/

/-- The state of the Nolael. -/
structure State where
  /-- MODEL: commands waiting, first in first out | queue | the model's own | empty -/
  pending : List Instr := []
  /-- MODEL: counter of free values drawn, applied to the opaque functions of Config | count | the model's own | DESIGN CHOICE 0 (log entry 2) -/
  fresh : Nat := 0
  /-- power state | as PowerSt | 17 R579 | see PowerSt -/
  pow : PowerSt := {}
  /-- fault record | as FaultRec | 16 R555 | see FaultRec -/
  flt : FaultRec := {}
  /-- KEEPER | as Keeper | 14 R489 | see Keeper -/
  keeper : Keeper := {}
  /-- watchdog, thermal sensor, marker | as HearthUnits | 14 R491, 16 R553, 12 R414 | see HearthUnits -/
  hearth : HearthUnits := {}
  /-- boundary scan | as Scan | 18 R598 | see Scan -/
  scan : Scan := {}
  /-- event block | as Events | 16 R552 | see Events -/
  evt : Events := {}
  /-- host port | as HostPort | 13 R447, 12 R400 | see HostPort -/
  host : HostPort := {}
  /-- mailboxes MBX0 to MBX3 | 4 × Mbx | 14 R466 | see Mbx -/
  mbx : Vector Mbx 4 := .replicate 4 {}
  /-- mailbox RAM | 64 KiB | 12 R397, 14 R464 | 0 (R507) -/
  ram : Mem := []
  /-- Ianik | as Ianik | 14 R463 | see Ianik -/
  ianik : Ianik := {}
  /-- Hive | as Hive | 01 R13 | see Hive -/
  hive : Hive := {}
  /-- Bellows | as Bellows | 07 R201 | see Bellows -/
  bel : Bellows := {}
  /-- Stove and Stoker | as Stove | 08 R242 | see Stove -/
  stove : Stove := {}
  /-- port receive sides 0 to 7 | 8 × PortSide | 09 R282 | see PortSide -/
  rx : Vector PortSide 8 := .replicate 8 {}
  /-- port transmit sides 0 to 7 | 8 × PortSide | 09 R282 | see PortSide -/
  tx : Vector PortSide 8 := .replicate 8 {}
  /-- alignment groups | 4 × PortGrp | 09 R302 | see PortGrp -/
  grps : Vector PortGrp 4 := .replicate 4 {}
  /-- Hivewire chains A and B | 2 × Chain | 10 R312 | see Chain -/
  hw : Vector Chain 2 := .replicate 2 {}
  /-- Damper | as Damper | 11 R361 | see Damper -/
  dmpr : Damper := {}
  /-- memory care and Vault | as MemCare | 12 R407 | see MemCare -/
  care : MemCare := {}
  /-- PSP0 and Forager | as Flash | 13 R425 | see Flash -/
  p0 : Flash := {}
  /-- boot and images | as Boot | 15 R505 | see Boot -/
  boot : Boot := {}
  deriving DecidableEq, Repr

/-- The machine right after the Hearth power-on reset, which resets all 26 islands (R56, R571): the power
state is HEARTH (R579) and every field holds its reset value. -/
def State.reset : State := {}

end Sys2Proof.Machine
end

