-- ==== Sys2Proof/Machine/Mem.lean ====
section
/-! DEFINITION. Sparse memories in canonical form, byte memories read and written as little-endian words
(R6), and updates of fixed vectors. -/

namespace Sys2Proof.Machine

/-! ### Sparse data -/

/-- The value at key `k`; an unlisted key reads as `d`. -/
def sget {α : Type} (d : α) : List (Nat × α) → Nat → α
  | [], _ => d
  | (k', v) :: r, k => if k = k' then v else sget d r k

/-- Put `v` at key `k`, keeping the canonical form: keys strictly rising and no entry equal to `d`. -/
def sset {α : Type} [DecidableEq α] (d : α) : List (Nat × α) → Nat → α → List (Nat × α)
  | [], k, v => if v = d then [] else [(k, v)]
  | (k', v') :: r, k, v =>
    if k < k' then (if v = d then (k', v') :: r else (k, v) :: (k', v') :: r)
    else if k = k' then (if v = d then r else (k, v) :: r)
    else (k', v') :: sset d r k v

/-- The canonical form: keys strictly rising, no entry equal to the unlisted value. -/
def swf {α : Type} [DecidableEq α] (d : α) : List (Nat × α) → Bool
  | [] => true
  | (k, v) :: r => (v != d) && r.all (fun p => decide (k < p.1)) && swf d r

/-- The canonical form of a byte memory whose unlisted addresses read `d`. -/
abbrev Memory.wf (d : Byte) (m : Mem) : Bool := swf d m

/-- Keep the entries whose key satisfies `p`. -/
def skeep {α : Type} (p : Nat → Bool) (m : List (Nat × α)) : List (Nat × α) := m.filter (fun e => p e.1)

/-- Change every listed value by its key, keeping the canonical form; `f` must leave the unlisted value. -/
def smap {α : Type} [DecidableEq α] (d : α) (f : Nat → α → α) (m : List (Nat × α)) : List (Nat × α) :=
  (m.map (fun e => (e.1, f e.1 e.2))).filter (fun e => decide (e.2 ≠ d))

/-! ### Byte memories -/

/-- One byte; an unlisted address reads 0. -/
def rdB (m : Mem) (a : Nat) : Byte := sget 0 m a

/-- Write one byte. -/
def wrB (m : Mem) (a : Nat) (b : Byte) : Mem := sset 0 m a b

/-- The 32-bit word at byte address `a`, byte `a` in bits 7:0 (R6). -/
def rdW (m : Mem) (a : Nat) : Word :=
  rdB m (a + 3) ++ rdB m (a + 2) ++ rdB m (a + 1) ++ rdB m a

/-- Write the 32-bit word at byte address `a`. -/
def wrW (m : Mem) (a : Nat) (w : Word) : Mem :=
  wrB (wrB (wrB (wrB m a (w.extractLsb' 0 8)) (a + 1) (w.extractLsb' 8 8)) (a + 2) (w.extractLsb' 16 8))
    (a + 3) (w.extractLsb' 24 8)

/-- Write words from byte address `a` upwards. -/
def wrWs (m : Mem) (a : Nat) : List Word → Mem
  | [] => m
  | w :: ws => wrWs (wrW m a w) (a + 4) ws

/-- Read `n` words from byte address `a` upwards. -/
def rdWs (m : Mem) (a : Nat) : Nat → List Word
  | 0 => []
  | n + 1 => rdW m a :: rdWs m (a + 4) n

/-- Write bytes from address `a` upwards. -/
def wrBs (m : Mem) (a : Nat) : List Byte → Mem
  | [] => m
  | b :: bs => wrBs (wrB m a b) (a + 1) bs

/-- Read `n` bytes from address `a` upwards. -/
def rdBs (m : Mem) (a : Nat) : Nat → List Byte
  | 0 => []
  | n + 1 => rdB m a :: rdBs m (a + 1) n

/-- Forget the bytes in `[a, a + n)`: they read 0. -/
def zeroMem (m : Mem) (a n : Nat) : Mem := skeep (fun k => decide (k < a) || decide (a + n ≤ k)) m

/-- A byte of flash, which reads 0xFF where erased (R515). -/
def rdFlash (m : Mem) (a : Nat) : Byte := sget 0xFF m a

/-- Program one byte of flash: it clears bits and sets none (log entry 5). -/
def progFlash (m : Mem) (a : Nat) (b : Byte) : Mem := sset 0xFF m a (rdFlash m a &&& b)

/-- Read `n` bytes of flash. -/
def rdFlashs (m : Mem) (a : Nat) : Nat → List Byte
  | 0 => []
  | n + 1 => rdFlash m a :: rdFlashs m (a + 1) n

/-- Program bytes of flash from address `a` upwards. -/
def progFlashs (m : Mem) (a : Nat) : List Byte → Mem
  | [] => m
  | b :: bs => progFlashs (progFlash m a b) (a + 1) bs

/-- Erase `[a, a + n)`. -/
def eraseFlash (m : Mem) (a n : Nat) : Mem := skeep (fun k => decide (k < a) || decide (a + n ≤ k)) m

/-- Words as bytes, low byte first (R6). -/
def wordsToBytes : List Word → List Byte
  | [] => []
  | w :: ws => w.extractLsb' 0 8 :: w.extractLsb' 8 8 :: w.extractLsb' 16 8 :: w.extractLsb' 24 8 ::
      wordsToBytes ws

/-- The 32-bit word of four bytes, first byte lowest (R6). -/
def wordOf (b0 b1 b2 b3 : Byte) : Word := b3 ++ b2 ++ b1 ++ b0

/-- Bytes as words; a last group short of four bytes is filled with zeros. -/
def bytesToWords : List Byte → List Word
  | [] => []
  | [a] => [wordOf a 0 0 0]
  | [a, b] => [wordOf a b 0 0]
  | [a, b, c] => [wordOf a b c 0]
  | a :: b :: c :: d :: r => wordOf a b c d :: bytesToWords r

/-! ### Vectors and rising sets -/

/-- Change entry `i` of a vector. -/
def vmod {α : Type} {n : Nat} (v : Vector α n) (i : Fin n) (f : α → α) : Vector α n := v.set i (f v[i])

/-- Change every entry of a vector, with its index. -/
def vmap {α : Type} {n : Nat} (v : Vector α n) (f : Fin n → α → α) : Vector α n :=
  Vector.ofFn (fun i : Fin n => f i v[i])

/-- Entry `i` of a vector, `d` beyond its end. -/
def vgetD {α : Type} {n : Nat} (v : Vector α n) (i : Nat) (d : α) : α := if h : i < n then v[i] else d

/-- Change entry `i` of a vector; beyond its end nothing changes. -/
def vmodN {α : Type} {n : Nat} (v : Vector α n) (i : Nat) (f : α → α) : Vector α n :=
  if h : i < n then v.set i (f v[i]) else v

/-- Put `x` into a rising list without repeats. -/
def insertN (x : Nat) : List Nat → List Nat
  | [] => [x]
  | y :: r => if x < y then x :: y :: r else if x = y then y :: r else y :: insertN x r

/-- The indices below `n` whose bit of `w` is set, rising. -/
def bitsOf {w : Nat} (n : Nat) (x : BitVec w) : List Nat := (List.range n).filter (fun i => x.getLsbD i)

/-- The mask with bit `i` set. -/
def bit (i : Nat) : Word := BitVec.ofNat 32 (2 ^ i)

/-- The mask of a list of bit numbers. -/
def maskOf : List Nat → Word
  | [] => 0
  | i :: r => bit i ||| maskOf r

/-- A Bool as one bit of a word. -/
def b2w (b : Bool) (i : Nat) : Word := if b then bit i else 0

/-- A number in a field of a word that starts at bit `i`. -/
def n2w (n i : Nat) : Word := BitVec.ofNat 32 (n * 2 ^ i)

/-- The two words of a 64-bit item, bits 31:0 first (R601). -/
def pair64 (n : Nat) : List Word := [BitVec.ofNat 32 n, BitVec.ofNat 32 (n / 2 ^ 32)]

/-- A counter that sticks at `top`. -/
def stick (top n : Nat) : Nat := if n < top then n + 1 else n

/-- The field of `len` bits of `w` from bit `lo`. -/
def fld {n : Nat} (w : BitVec n) (lo len : Nat) : Nat := w.toNat / 2 ^ lo % 2 ^ len

end Sys2Proof.Machine
end

