-- ==== Sys2Proof/Machine/Ops.lean ====
section
/-! DEFINITION. Shared operations: frame numbers, free values, raising an event, the fault record, staged
changes, and the completion of deferred commands. -/

namespace Sys2Proof.Machine

/-! ### Frames -/

/-- A frame number, 64 bits wide (R14). -/
def addF (n k : Nat) : Nat := (n + k) % 2 ^ 64

/-- The frame number before `n` (R14). -/
def prevF (n : Nat) : Nat := addF n (2 ^ 64 - 1)

/-- The current M frame number (R14). -/
def frameNo (s : State) : Nat := s.stove.frame

/-- The effect frame E = S + 2 of a command sampled now. -/
def effFrame (s : State) : Nat := addF s.stove.frame 2

/-! ### Free values -/

/-- Put a change in its place by frame, after those of the same frame (R42). -/
def insBy {α : Type} (k : α → Nat) (x : α) : List α → List α
  | [] => [x]
  | y :: r => if k x < k y then x :: y :: r else y :: insBy k x r

/-- Changes in the order of their frames. -/
def byFrame {α : Type} (k : α → Nat) (l : List α) : List α := l.foldl (fun l x => insBy k x l) []

/-- Draw a free 64-bit value (log entry 2). -/
def drawLong (s : State) : BitVec 64 × State := (Config.freeLong s.fresh, { s with fresh := s.fresh + 1 })

/-- Draw a free 32-bit value (log entry 2). -/
def drawWord (s : State) : Word × State := (Config.freeWord s.fresh, { s with fresh := s.fresh + 1 })

/-! ### Events -/

/-- The events whose detail word is a mask: occurrences that merge are ORed (R546, R550). -/
def maskEvents : List Nat :=
  [8, 9, 10, 12, 13, 14, 19, 20, 23, 24, 25, 26, 27, 28, 29, 30, 31, 32, 33, 36, 37, 40, 41, 42, 46, 47, 48,
    49, 51]

/-- Merge a new occurrence's detail word with those not yet delivered (R546). -/
def mergeDetail (n : Nat) (fresh : Bool) (old new : Word) : Word :=
  if fresh then new else if maskEvents.contains n then old ||| new else new

/-- One occurrence of event `n` at its source: it counts in the occurrence accumulator and its detail merges
with those waiting for the same handshake (R50, R546). -/
def raiseEvt (n : Nat) (d : Word) (e : Events) : Events :=
  { e with
    acc := vmodN e.acc n (stick 65535)
    detail := vmodN e.detail n (fun old => mergeDetail n (vgetD e.acc n 0 = 0) old d) }

/-- Raise event `n` with detail word `d` (R50). -/
def raise (n : Nat) (d : Word) (s : State) : State := { s with evt := raiseEvt n d s.evt }

/-- One occurrence of event `n` at island `src`, where that is not the only source of the event (R50, R57, R555). -/
def raiseFrom (src n : Nat) (d : Word) (s : State) : State :=
  let s := raise n d s
  { s with evt := { s.evt with
      parts := sset 0 s.evt.parts (32 * n + src) (stick 65535 (sget 0 s.evt.parts (32 * n + src))) } }

/-- Raise event `n` where `c` holds. -/
def raiseIf (c : Bool) (n : Nat) (d : Word) (s : State) : State := if c then raise n d s else s

/-- Raise event `n` for each thing that the mask `d` names: each is an occurrence of its own (R50, R546, log entry 56). -/
def raiseMask (n : Nat) (d : Word) (s : State) : State :=
  (List.range 32).foldl (fun s k => if d.getLsbD k then raise n (BitVec.ofNat 32 (2 ^ k)) s else s) s

/-- The occurrences of event `n` that sources beside its own have raised and that are not delivered (R50). -/
def partSum (n : Nat) (e : Events) : Nat := ((e.parts.filter (fun p => p.1 / 32 = n)).map (·.2)).sum

/-- The undelivered occurrences of event `n` that are left once island `src` is reset, whose own event it is with
`own`. -/
def leftOf (src n : Nat) (own : Bool) (e : Events) : Nat :=
  (if own then partSum n e else vgetD e.acc n 0) - sget 0 e.parts (32 * n + src)

/-- Discard the undelivered occurrences of an island that is reset: its own events `own`, and its share of the events
with further sources (R57). -/
def dropEvts (src : Nat) (own : List Nat) (s : State) : State :=
  let left (i : Fin 64) : Nat := leftOf src i.val (own.contains i.val) s.evt
  { s with evt := { s.evt with
      acc := vmap s.evt.acc (fun i _ => left i)
      detail := vmap s.evt.detail (fun i d => if left i = 0 then 0 else d)
      parts := s.evt.parts.filter (fun p => p.1 % 32 ≠ src) } }

/-! ### The fault record -/

/-- The frame word of a fault log entry: bits 31:0 of the counter copy, or all ones while not valid (R557). -/
def logFrame (s : State) : Word := if s.stove.valid then BitVec.ofNat 32 s.stove.frame else 0xFFFFFFFF

/-- Write a fault log entry: the newest first, 16 kept; an entry over 16 replaces the oldest and counts as an
overwrite (R556, R557). The count of Hearth cycles is a free value (log entry 2). -/
def logFault (cause : Nat) (detail : BitVec 16) (s : State) : State :=
  let (h, s) := drawLong s
  let e : LogEntry := ⟨BitVec.ofNat 8 cause, s.pow.wakes, detail, logFrame s, h⟩
  { s with flt := { s.flt with
      log := (e :: s.flt.log).take 16
      overwrites := if s.flt.log.length < 16 then s.flt.overwrites else stick 255 s.flt.overwrites } }

/-! ### Staged changes and deferred commands -/

/-- The island in which a staged change stands, by its number of R555; none: in more than one. -/
def chgIsland : Change → Option Nat
  | .combMap _ _ _ _ | .combCommit _ | .bridgeMode _ _ | .testgen _ _ _ _ | .memPower _ _ _ | .tune _ _ _
  | .autoTune _ _ _ => some 0
  | .stoveOut _ => some 1
  | .belConfig _ _ | .belLoop _ _ | .belEnable _ _ | .belMute _ _ | .belCarrier _ _ | .belFaultClear _ _
  | .belPolicy _ _ | .belMeasure _ _ => some 2
  | .release _ _ _ _ | .toStandby _ | .toHearth | .ianikReset | .systemReset => some 5
  | .ringStart _ | .ringStop _ => some 6
  | .portEnable p .rx _ | .groupPart p .rx => some (8 + p.val)
  | .portEnable p .tx _ | .groupPart p .tx => some (16 + p.val)
  | .slotMap x _ _ _ _ _ => some (24 + x.val)
  | .groupEnable _ _ => none

/-- A request to the island of this change is raised and not yet acknowledged (R37). -/
def crossingTaken (c : Change) (s : State) : Bool :=
  (chgIsland c).isSome && s.ianik.staged.any (fun x => x.shake == .raised && chgIsland x.chg == chgIsland c)

/-- Stage a frame-stamped change in its target island, with its request raised, or waiting where the crossing is taken: a
part of the command with tag `t` that is sampled now on mailbox `m` (R37, R42). -/
def stage (m : Nat) (t : BitVec 16) (e : Nat) (c : Change) (s : State) : State :=
  { s with ianik := { s.ianik with staged := s.ianik.staged ++
      [{ frame := e, chg := c, cmd := (m, s.stove.frame), tag := t
         shake := if crossingTaken c s then .waits else .raised }] } }

/-- Stage a change that no mailbox command asks for: the firmware's own (R42). -/
def stageOwn (e : Nat) (c : Change) (s : State) : State :=
  stage 4 0 e c s

/-- By the next M frame tick every request has been raised and acknowledged, but for those withdrawn (R37, R38, R40, R42). -/
def shakesDone (s : State) : State :=
  { s with ianik := { s.ianik with staged := s.ianik.staged.map (fun c =>
      if c.shake = .raised ∨ c.shake = .waits then { c with shake := .acked } else c) } }

/-- Ianik's half of every crossing is reset: no request stands. One that was raised has reached its island or not, a free
value; one that waits has not (R41, R57, log entry 2). -/
def shakesIdle (s : State) : State :=
  let (w, s) := drawLong s
  { s with ianik := { s.ianik with staged := s.ianik.staged.mapIdx (fun i c => match c.shake with
      | .raised => { c with shake := if w.getLsbD (i % 64) then .acked else .lost }
      | .waits => { c with shake := .lost }
      | _ => c) } }

/-- Withdraw every staged change that `p` names. -/
def unstage (p : Stamped → Bool) (s : State) : State :=
  { s with ianik := { s.ianik with staged := s.ianik.staged.filter (fun c => !p c) } }

/-- Record a deferred command as outstanding (R475). -/
def defer (op : Nat) (m : Nat) (tag : BitVec 16) (bulk : Option (Nat × Nat)) (s : State) : State :=
  { s with ianik := { s.ianik with deferred := s.ianik.deferred ++ [⟨BitVec.ofNat 16 op, m, tag, bulk⟩] } }

/-- A deferred command by its opcode, mailbox and tag. -/
def isDeferred (op : Nat) (m : Nat) (tag : BitVec 16) (d : Deferred) : Bool :=
  d.opcode == BitVec.ofNat 16 op && d.mbx == m && d.tag == tag

/-- The deferred command is outstanding and its work has not ended yet (R475, R478). -/
def outstanding (op : Nat) (m : Nat) (tag : BitVec 16) (s : State) : Bool :=
  decide ((s.evt.waiting.filter (fun c => c.opcode == BitVec.ofNat 16 op && c.mbx == m && c.tag == tag)).length <
    (s.ianik.deferred.filter (isDeferred op m tag)).length)

/-- The work of a deferred command ends: its completion record waits for the ring (R475, R478). A command that an
Ianik reset cut is answered by R493, and nothing else completes it. -/
def complete (op : Nat) (m : Nat) (tag : BitVec 16) (status : Byte) (payload : List Word) (s : State) : State :=
  if s.pow.ianikRst || !outstanding op m tag s then s
  else { s with evt := { s.evt with waiting := s.evt.waiting ++ [⟨BitVec.ofNat 16 op, status, m, tag, payload⟩] } }

/-! ### Power -/

/-- STANDBY, RUN or the way from RUN to STANDBY: the states in which Ianik's firmware serves (R25, R26). -/
def inService (s : State) : Bool :=
  match s.pow.st with
  | .standby | .run | .runToStandby => true
  | _ => false

/-- Any state in which all six supplies stand and the device is powered up or powering up. -/
def poweredUp (s : State) : Bool :=
  match s.pow.st with
  | .standby | .run | .runToStandby | .powerUp | .standbyToHearth => true
  | _ => false

/-- Ianik runs its firmware (R25, R56). -/
def ianikRuns (s : State) : Bool := inService s && !s.pow.ianikRst

/-- The Hive runs: its sequencer is released and its first frame has come (R26, R498). -/
def hiveRuns (s : State) : Bool :=
  s.pow.seqHive && match s.hive.firstFrame with
    | some f => decide (f ≤ s.stove.frame)
    | none => false

/-- The Damper runs in every powered state but Hearth-safe (R365). -/
def damperRuns (s : State) : Bool := s.dmpr.running

/-- No state change: the answer of an event that finds nothing to act on. -/
def idleNext (s : State) : Host.Outcome State Fault Refusal := .next s

end Sys2Proof.Machine
end

