-- ==== Sys2Proof/Machine/Ecc.lean ====
section
/-! DEFINITION. Error correction, the error log, fresh marks and block power: one read and one write of a word
of each audio memory (R394, R402, R405, R407 to R410). -/

namespace Sys2Proof.Machine

/-! ### Error correction -/

/-- The number of a memory class in the error log (R410); a bridge history has none, and nothing counts it. -/
def classNo : MemClass → Nat
  | .store => 0
  | .cellData => 1
  | .program => 2
  | .coef => 3
  | .comb => 4
  | .ianikRam => 5
  | .mailboxRam => 6
  | .vault => 7
  | .bridge => 8

/-- The island that holds a memory class, the source of its errors (R555). -/
def classIsland : MemClass → Nat
  | .store | .cellData | .program | .coef | .comb | .bridge => 0
  | .ianikRam | .vault => 3
  | .mailboxRam => 7

/-- The upset standing in a word, if any (R407). -/
def upsetOf (w : WordAt) (s : State) : Option Upset := s.care.upsets.find? (fun u => decide (u.word = w))

/-- A write stores a fresh codeword: no upset is left in it (R407). -/
def healWord (w : WordAt) (s : State) : State :=
  { s with care := { s.care with upsets := s.care.upsets.filter (fun u => decide (u.word ≠ w)) } }

/-- Count a corrected error of a class (R408, R423). -/
def countCorr (c : MemClass) (s : State) : State :=
  { s with care := { s.care with ecc := vmodN s.care.ecc (classNo c) (fun p => (stick 65535 p.1, p.2)) } }

/-- Word 0 of an error-log record (R410). -/
def errWord0 (w : WordAt) (syndrome : BitVec 7) (patrol : Bool) : Word :=
  n2w (classNo w.cls) 24 |||
  (match w.cls with
    | .cellData => n2w w.unit 16
    | .program | .coef => n2w w.unit 16 ||| n2w w.bank 23
    | .comb => n2w w.unit 16
    | _ => 0) |||
  n2w syndrome.toNat 9 ||| b2w patrol 8

/-- An uncorrectable error: count, log, EV54 (R409, R410). -/
def countUnc (w : WordAt) (syndrome : BitVec 7) (patrol : Bool) (s : State) : State :=
  let w0 := errWord0 w syndrome patrol
  let r := (w0, BitVec.ofNat 32 w.addr, BitVec.ofNat 32 s.stove.frame)
  raiseFrom (classIsland w.cls) 54 w0 { s with care := { s.care with
    ecc := vmodN s.care.ecc (classNo w.cls) (fun p => (p.1, stick 255 p.2))
    first := some (s.care.first.getD r)
    latest := some r } }

/-- A functional read of a word meets its codeword: true where the data stand, false on an uncorrectable
error (R408, R409). -/
def checkWord (w : WordAt) (s : State) : Bool × State :=
  match upsetOf w s with
  | none => (true, s)
  | some u => if u.double then (false, countUnc w u.syndrome false s) else (true, countCorr w.cls s)

/-- Patrol reads a word and meets its codeword: a corrected word is counted, with EV53, and rewritten, but for one of the
Vault, which Patrol only reads; false on an uncorrectable error (R389, R408, R409, R416, log entry 24). -/
def patrolWord (w : WordAt) (s : State) : Bool × State :=
  match upsetOf w s with
  | none => (true, s)
  | some u =>
    if u.double then (false, countUnc w u.syndrome true s)
    else (true, raise 53 (n2w (classNo w.cls) 24) (countCorr w.cls (if w.cls = .vault then s else healWord w s)))

/-- New physical upsets strike stored words (R407): an upset of a word already upset by one bit makes it
uncorrectable. -/
def strike (ups : List Upset) (s : State) : State :=
  ups.foldl (fun s u =>
    match upsetOf u.word s with
    | none => { s with care := { s.care with upsets := s.care.upsets ++ [u] } }
    | some _ =>
      let s := healWord u.word s
      { s with care := { s.care with upsets := s.care.upsets ++ [{ u with double := true }] } }) s

/-! ### Cells -/

/-- Cell `c`. -/
def cellAt (s : State) (c : Fin 32) : Cell := s.hive.cells[c]

/-- Change cell `c`. -/
def modCell (c : Fin 32) (f : Cell → Cell) (s : State) : State :=
  { s with hive := { s.hive with cells := vmod s.hive.cells c f } }

/-- Forget the upsets of the words that `p` names: their words are lost or rewritten. -/
def forget (p : WordAt → Bool) (s : State) : State :=
  { s with care := { s.care with upsets := s.care.upsets.filter (fun u => !p u.word) } }

/-- Quarter `q` of a cell's data RAM is ON (R401, R402). -/
def quarterOn (m : CellMem) (q : Nat) : Bool := vgetD m.pow (4 + q) .off == .on

/-- The groups of the data RAM without a fresh mark once the clear engine has written every word of the quarters that are
ON (R75, R94, R394). -/
def clearedMarks (m : CellMem) : List Nat :=
  (List.range 4).flatMap (fun q =>
    if quarterOn m q then (List.range 2048).map (2048 * q + ·) else m.written.filter (fun g => g / 2048 = q))

/-- The clear engine writes +0.0 to every word of a cell's data RAM, in its quarters that are ON (R75, R394, R402). -/
def clearDataRam (y : Cell) : Cell :=
  { y with mem := { y.mem with
      data := skeep (fun a => !quarterOn y.mem (a / 65536)) y.mem.data
      written := clearedMarks y.mem } }

/-- The clear engine clears the data RAM of cell `c` (R75). -/
def clearData (c : Fin 32) (s : State) : State :=
  let pow := (cellAt s c).mem.pow
  forget (fun w => w.cls == .cellData && w.unit == c.val && vgetD pow (4 + w.addr / 16384) .off == .on)
    (modCell c clearDataRam s)

/-- A cell program fault: its bit, the first address, EV8 (R96, R99, R100). -/
def cellFault (c : Fin 32) (b : Nat) (pc : Nat) (s : State) : State :=
  raise 8 (bit c) (modCell c (fun x => { x with stat := { x.stat with
    firstPc := if x.stat.flt &&& 0x1F = 0 then pc else x.stat.firstPc
    flt := x.stat.flt ||| BitVec.ofNat 6 (2 ^ b)
    newFault := true } }) s)

/-- A Waggle conflict: HIVE_FLT_WAGGLE and EV9 (R141). -/
def cellWaggle (c : Fin 32) (s : State) : State :=
  raise 9 (bit c) (modCell c (fun x => { x with stat := { x.stat with flt := x.stat.flt ||| 0x20 } }) s)

/-! ### Data RAM and coefficient banks -/

/-- A block of a cell is on and not in transition (R402). -/
def cellBlkOn (c : Fin 32) (b : Nat) (s : State) : Bool :=
  vgetD (cellAt s c).mem.pow b .off == .on && !s.care.moving.contains (some c, b)

/-- A Store segment is on and not in transition (R402). -/
def segOn (k : Nat) (s : State) : Bool :=
  vgetD s.hive.storePow k .off == .on && !s.care.moving.contains (none, k)

/-- A program read of a data RAM word: +0.0 in a marked group, on an uncorrectable error, or where the quarter
is not on (R394, R96). -/
def rdData (c : Fin 32) (pc a : Nat) (s : State) : F32 × State :=
  let m := (cellAt s c).mem
  if !cellBlkOn c (4 + a / 16384) s || !m.written.contains (a / 8) then (0, s) else
    let (ok, s) := checkWord ⟨.cellData, c, 0, a⟩ s
    if ok then (rdW m.data (4 * a), s) else (0, cellFault c 2 pc s)

/-- Heal the words of a list of addresses. -/
def healWords (mk : Nat → WordAt) : List Nat → State → State
  | [], s => s
  | a :: as, s => healWords mk as (healWord (mk a) s)

/-- A write of a data RAM word: in a marked group the other seven words become +0.0 and the mark clears
(R394). -/
def wrData (c : Fin 32) (a : Nat) (x : F32) (s : State) : State :=
  if !cellBlkOn c (4 + a / 16384) s then s else
  let g := a / 8
  let marked := !(cellAt s c).mem.written.contains g
  let s := if marked then healWords (fun a => ⟨.cellData, c, 0, a⟩) ((List.range 8).map (8 * g + ·)) s
           else healWord ⟨.cellData, c, 0, a⟩ s
  modCell c (fun y => { y with mem := { y.mem with
    data := wrW (if marked then zeroMem y.mem.data (32 * g) 32 else y.mem.data) (4 * a) x
    written := insertN g y.mem.written } }) s

/-- A program read of a word of the active coefficient bank: +0.0 on an uncorrectable error (R96). -/
def rdCoef (c : Fin 32) (pc a : Nat) (s : State) : F32 × State :=
  let x := cellAt s c
  let (ok, s) := checkWord ⟨.coef, c, x.actC, a⟩ s
  if ok then (rdW x.mem.coef[x.actC] (4 * a), s) else (0, cellFault c 3 pc s)

/-- Write a word of a coefficient bank. -/
def wrCoef (c : Fin 32) (b : Fin 2) (a : Nat) (x : Word) (s : State) : State :=
  modCell c (fun y => { y with mem := { y.mem with coef := vmod y.mem.coef b (fun m => wrW m (4 * a) x) } })
    (healWord ⟨.coef, c, b, a⟩ s)

/-- Write consecutive words of a coefficient bank. -/
def wrCoefs (c : Fin 32) (b : Fin 2) (a : Nat) : List Word → State → State
  | [], s => s
  | w :: ws, s => wrCoefs c b (a + 1) ws (wrCoef c b a w s)

/-- Write consecutive 32-bit words of a program bank; four make one program word (R110). -/
def wrProgs (c : Fin 32) (b : Fin 2) (a : Nat) : List Word → State → State
  | [], s => s
  | w :: ws, s =>
    wrProgs c b (a + 1) ws
      (modCell c (fun y => { y with mem := { y.mem with prog := vmod y.mem.prog b (fun m => wrW m (4 * a) w) } })
        (healWord ⟨.program, c, b, a⟩ s))

/-! ### The Store -/

/-- The fresh-mark group of a Store word: 8 words of one bank (R394). -/
def storeGroup (a : Nat) : Nat := a / 512 * 64 + a % 64

/-- The words of the group of a Store word. -/
def storeGroupWords (a : Nat) : List Nat := (List.range 8).map (fun r => a / 512 * 512 + r * 64 + a % 64)

/-- A read of a Store word: the value, and whether an uncorrectable error was met. A marked group reads +0.0
without its codeword (R394, R409). -/
def rdStore (a : Nat) (s : State) : Word × Bool × State :=
  if !s.hive.storeWritten.contains (storeGroup a) then (0, false, s) else
    let (ok, s) := checkWord ⟨.store, 0, 0, a⟩ s
    if ok then (rdW s.hive.store (4 * a), false, s) else (0, true, s)

/-- Zero the words of a list of addresses. -/
def zeroWords (m : Mem) : List Nat → Mem
  | [] => m
  | a :: as => zeroWords (wrW m (4 * a) 0) as

/-- A write of a Store word (R394). -/
def wrStore (a : Nat) (x : Word) (s : State) : State :=
  let marked := !s.hive.storeWritten.contains (storeGroup a)
  let s := if marked then healWords (fun a => ⟨.store, 0, 0, a⟩) (storeGroupWords a) s
           else healWord ⟨.store, 0, 0, a⟩ s
  { s with hive := { s.hive with
      store := wrW (if marked then zeroWords s.hive.store (storeGroupWords a) else s.hive.store) (4 * a) x
      storeWritten := insertN (storeGroup a) s.hive.storeWritten } }

/-- An access of the Forager, Ianik or Patrol to a block that is not on: MEM_OFF_ACC (R405). -/
def offAccess (s : State) : State := { s with care := { s.care with offAcc := true } }

/-! ### Free turns -/

/-- The free-turn index of bank `b` in Hive cycle `t`; none: the turn is a cell's (R390). -/
def freeIndex (t b : Nat) : Option Nat :=
  let v := (b + (64 - t % 64)) % 64
  if 32 ≤ v then some (v - 32) else none

/-- The masters in the order in which a free turn goes to them (R390). -/
def freeOrder (u : Nat) : List Master :=
  if u < 16 then [.forager, .ianik, .patrol]
  else if u < 28 then [.ianik, .forager, .patrol]
  else [.patrol, .ianik, .forager]

/-- The waiting access that takes the turn of bank `b` in Hive cycle `t` (R390, R391). -/
def freeTaker (ws : List FreeAcc) (t b : Nat) : Option FreeAcc :=
  match freeIndex t b with
  | some u => (freeOrder u).findSome? (fun m => ws.find? (fun w => w.who = m ∧ w.addr % 64 = b))
  | none => none

/-- Patrol reads a Store word in its turn; one with an uncorrectable error is rewritten as zero (R394, R409, R411). -/
def patrolStore (a : Nat) (s : State) : Word × State :=
  if !s.hive.storeWritten.contains (storeGroup a) then (0, s) else
    let (ok, s) := patrolWord ⟨.store, 0, 0, a⟩ s
    if ok then (rdW s.hive.store (4 * a), s) else (0, wrStore a 0 s)

/-- An access is performed in its turn; a read answers its word (R391, R405, R409). -/
def freePerform (w : FreeAcc) (s : State) : Word × State :=
  let s := { s with hive := { s.hive with free := s.hive.free.erase w } }
  if !segOn (w.addr / 131072) s then (0, offAccess s) else
    match w.data with
    | some x => (x, wrStore w.addr x s)
    | none =>
      if w.who = .patrol then patrolStore w.addr s else
        let (x, _, s) := rdStore w.addr s
        (x, s)

/-- The turns of one Hive cycle go to waiting accesses; each answers with its access (R390, R392). -/
def freeCycle (s : State) : List (FreeAcc × Word) × State :=
  let takers := ((s.hive.free.map (·.addr % 64)).eraseDups).filterMap (freeTaker s.hive.free s.hive.cycle)
  let (rs, s) := takers.foldl (fun (p : List (FreeAcc × Word) × State) w =>
    let (x, s) := freePerform w p.2
    (p.1 ++ [(w, x)], s)) ([], s)
  (rs, { s with hive := { s.hive with cycle := (s.hive.cycle + 1) % 64 } })

/-- Hive cycles pass until access `w` has its turn, within 64 of them (R390). -/
def freeRun (w : FreeAcc) : Nat → State → Word × State
  | 0, s => (0, s)
  | n + 1, s =>
    let (rs, s) := freeCycle s
    match rs.find? (fun r => r.1 = w) with
    | some r => (r.2, s)
    | none => freeRun w n s

/-- Hive cycles pass until master `m` has no access waiting for bank `b` (R391). -/
def freeStall (m : Master) (b : Nat) : Nat → State → State
  | 0, s => s
  | n + 1, s =>
    if s.hive.free.any (fun w => decide (w.who = m) && decide (w.addr % 64 = b)) then freeStall m b n (freeCycle s).2 else s

/-- An access joins those that wait; its master stalls first where it already has one at that bank (R391). -/
def freeJoin (w : FreeAcc) (s : State) : State :=
  let s := freeStall w.who (w.addr % 64) 64 s
  { s with hive := { s.hive with free := s.hive.free ++ [w] } }

/-- Hive cycles pass until no access waits (R390, R391). -/
def freeFlush : Nat → State → State
  | 0, s => s
  | n + 1, s => if s.hive.free.isEmpty then s else freeFlush n (freeCycle s).2

/-- A Store read by a master other than a cell: the master goes on with the word its turn brings (R390, R405, R409). -/
def rdStoreX (m : Master) (a : Nat) (s : State) : Word × State :=
  freeRun ⟨m, a, none⟩ 64 (freeJoin ⟨m, a, none⟩ s)

/-- A Store write by a master other than a cell: it waits for its turn, and the master goes on (R390, R391, R405). -/
def wrStoreX (m : Master) (a : Nat) (x : Word) (s : State) : State := freeJoin ⟨m, a, some x⟩ s

/-- Store writes of consecutive words. -/
def wrStoresX (m : Master) (a : Nat) : List Word → State → State
  | [], s => s
  | w :: ws, s => wrStoresX m (a + 1) ws (wrStoreX m a w s)

/-- Store reads of consecutive words. -/
def rdStoresX (m : Master) (a : Nat) : Nat → State → List Word × State
  | 0, s => ([], s)
  | n + 1, s =>
    let (w, s) := rdStoreX m a s
    let (ws, s) := rdStoresX m (a + 1) n s
    (w :: ws, s)

end Sys2Proof.Machine
end

