-- ==== Sys2Proof/Machine/Float.lean ====
section
/-! DEFINITION. Binary32 and binary64 arithmetic as R143 to R147 lay it down: exact operands, one rounding to
nearest even, subnormals taken as zero. -/

namespace Sys2Proof.Machine

/-- A floating-point value: not a number, infinity, or sign and magnitude. -/
inductive FV where
  | nan
  | inf (neg : Bool)
  | fin (neg : Bool) (mag : Rat)
  deriving DecidableEq, Repr

/-- 2^e for an integer e. -/
def pow2 (e : Int) : Rat :=
  match e with
  | .ofNat n => ((2 ^ n : Nat) : Rat)
  | .negSucc n => mkRat 1 (2 ^ (n + 1))

/-- Round half to even at a quotient of naturals: num / den. -/
def rne (num den : Nat) : Nat :=
  let n := num / den
  let r := num % den
  if 2 * r < den then n else if den < 2 * r then n + 1 else if n % 2 = 0 then n else n + 1

/-- A positive rational rounded to `p` bits with unbounded exponent: (m, e) stands for m × 2^e with
2^(p-1) ≤ m < 2^p (R143). -/
def roundPos (p : Nat) (q : Rat) : Nat × Int :=
  let num := q.num.toNat
  let den := q.den
  let l : Int := (Nat.log2 num : Int) - (Nat.log2 den : Int)
  let l := if q < pow2 l then l - 1 else l
  let e := l - ((p : Int) - 1)
  let m := match e with
    | .ofNat k => rne num (den * 2 ^ k)
    | .negSucc k => rne (num * 2 ^ (k + 1)) den
  if m = 2 ^ p then (2 ^ (p - 1), e + 1) else (m, e)

/-- Encode a sign and a magnitude with `p` bits of precision and `eb` exponent bits: zero below the smallest
normal, infinity on overflow (R143). -/
def encodeMag (p eb : Nat) (neg : Bool) (q : Rat) : Nat :=
  let s := if neg then 2 ^ (p - 1 + eb) else 0
  if q ≤ 0 then s else
    let (m, e) := roundPos p q
    let be : Int := e + ((p : Int) - 1) + ((2 ^ (eb - 1) - 1 : Nat) : Int)
    if be ≤ 0 then s
    else if be ≥ ((2 ^ eb - 1 : Nat) : Int) then s + (2 ^ eb - 1) * 2 ^ (p - 1)
    else s + be.toNat * 2 ^ (p - 1) + (m - 2 ^ (p - 1))

/-- Decode with `p` bits of precision and `eb` exponent bits; a subnormal is a zero of its sign (R143). -/
def decodeFV (p eb x : Nat) : FV :=
  let neg := x / 2 ^ (p - 1 + eb) % 2 = 1
  let e := x / 2 ^ (p - 1) % 2 ^ eb
  let m := x % 2 ^ (p - 1)
  if e = 2 ^ eb - 1 then (if m = 0 then .inf neg else .nan)
  else if e = 0 then .fin neg 0
  else .fin neg (((2 ^ (p - 1) + m : Nat) : Rat) * pow2 ((e : Int) - ((2 ^ (eb - 1) - 1 : Nat) : Int) - ((p : Int) - 1)))

/-- The value of a binary32 pattern. -/
def fv32 (x : F32) : FV := decodeFV 24 8 x.toNat

/-- The value of a binary64 pattern. -/
def fv64 (x : F64) : FV := decodeFV 53 11 x.toNat

/-- Round a value to binary32; a NaN is 0x7FC0_0000 (R144). -/
def toF32 : FV → F32
  | .nan => 0x7FC00000
  | .inf neg => if neg then 0xFF800000 else 0x7F800000
  | .fin neg q => BitVec.ofNat 32 (encodeMag 24 8 neg q)

/-- Round a value to binary64; a NaN is 0x7FF8_0000_0000_0000 (R144). -/
def toF64 : FV → F64
  | .nan => 0x7FF8000000000000
  | .inf neg => if neg then 0xFFF0000000000000 else 0x7FF0000000000000
  | .fin neg q => BitVec.ofNat 64 (encodeMag 53 11 neg q)

/-- The signed rational of a finite value. -/
def signedQ (neg : Bool) (q : Rat) : Rat := if neg then -q else q

/-- A value from a signed rational; an exact zero takes the sign given. -/
def ofSigned (zeroNeg : Bool) (x : Rat) : FV :=
  if x < 0 then .fin true (-x) else if x = 0 then .fin zeroNeg 0 else .fin false x

/-- Exact sum; an exact zero of operands of unlike signs is +0 (IEEE 754, R143, R144). -/
def fvAdd : FV → FV → FV
  | .nan, _ => .nan
  | _, .nan => .nan
  | .inf a, .inf b => if a = b then .inf a else .nan
  | .inf a, _ => .inf a
  | _, .inf b => .inf b
  | .fin a x, .fin b y => ofSigned (a && b) (signedQ a x + signedQ b y)

/-- Exact product (R144). -/
def fvMul : FV → FV → FV
  | .nan, _ => .nan
  | _, .nan => .nan
  | .inf a, .inf b => .inf (a != b)
  | .inf a, .fin b y => if y = 0 then .nan else .inf (a != b)
  | .fin a x, .inf b => if x = 0 then .nan else .inf (a != b)
  | .fin a x, .fin b y => .fin (a != b) (x * y)

/-- Change of sign. -/
def fvNeg : FV → FV
  | .nan => .nan
  | .inf a => .inf (!a)
  | .fin a x => .fin (!a) x

/-- Magnitude. -/
def fvAbs : FV → FV
  | .nan => .nan
  | .inf _ => .inf false
  | .fin _ x => .fin false x

/-- Is the value a NaN? -/
def fvIsNan : FV → Bool
  | .nan => true
  | _ => false

/-- Is the value finite? -/
def fvIsFin : FV → Bool
  | .fin _ _ => true
  | _ => false

/-- Order of two values that are no NaN, −0 below +0 where `z` asks for it (R147). -/
def fvLt (z : Bool) : FV → FV → Bool
  | .inf a, .inf b => a && !b
  | .inf a, .fin _ _ => a
  | .fin _ _, .inf b => !b
  | .fin a x, .fin b y =>
    if signedQ a x = signedQ b y then z && a && !b && decide (x = 0)
    else decide (signedQ a x < signedQ b y)
  | _, _ => false

/-- Equality as CMP takes it: the two zeros are equal (R147). -/
def fvEq (x y : FV) : Bool := !fvIsNan x && !fvIsNan y && !fvLt false x y && !fvLt false y x

/-! ### binary32 operations -/

def f32Add (a b : F32) : F32 := toF32 (fvAdd (fv32 a) (fv32 b))
def f32Sub (a b : F32) : F32 := toF32 (fvAdd (fv32 a) (fvNeg (fv32 b)))
def f32Mul (a b : F32) : F32 := toF32 (fvMul (fv32 a) (fv32 b))

/-- A × B + C with one rounding. -/
def f32Fma (a b c : F32) : F32 := toF32 (fvAdd (fvMul (fv32 a) (fv32 b)) (fv32 c))

/-- Flip the sign bit (R124). -/
def f32Neg (a : F32) : F32 := a ^^^ 0x80000000

/-- |A|; a NaN gives the quiet NaN, a subnormal zero (R143, R144). -/
def f32Abs (a : F32) : F32 := toF32 (fvAbs (fv32 a))

/-- MIN (R147). -/
def f32Min (a b : F32) : F32 :=
  let x := fv32 a
  let y := fv32 b
  if fvIsNan x then toF32 y else if fvIsNan y then toF32 x else if fvLt true y x then toF32 y else toF32 x

/-- MAX (R147). -/
def f32Max (a b : F32) : F32 :=
  let x := fv32 a
  let y := fv32 b
  if fvIsNan x then toF32 y else if fvIsNan y then toF32 x else if fvLt true x y then toF32 y else toF32 x

/-- CLAMP: min(max(A, B), C); with one NaN among A and B it delivers the other operand, and with a NaN only in C the
quiet NaN (R144, R147). -/
def f32Clamp (a b c : F32) : F32 :=
  if fvIsNan (fv32 a) then toF32 (fv32 b)
  else if fvIsNan (fv32 b) then toF32 (fv32 a)
  else if fvIsNan (fv32 c) then toF32 (fv32 c)
  else f32Min (f32Max a b) c

/-- CMP by the function selector: 0 LT, 1 LE, 2 EQ, 3 NE, 4 GE, 5 GT; a NaN makes NE true and every other
condition false (R123, R147). -/
def f32Cmp (fn : Nat) (a b : F32) : Bool :=
  let x := fv32 a
  let y := fv32 b
  let bad := fvIsNan x || fvIsNan y
  match fn with
  | 0 => !bad && fvLt false x y
  | 1 => !bad && !fvLt false y x
  | 2 => fvEq x y
  | 3 => !fvEq x y
  | 4 => !bad && !fvLt false x y
  | _ => !bad && fvLt false y x

/-- Finite and not a NaN. -/
def f32Fin (a : F32) : Bool := fvIsFin (fv32 a)

/-- The rational value of a finite binary32; 0 for the others. -/
def f32Q (a : F32) : Rat :=
  match fv32 a with
  | .fin n q => signedQ n q
  | _ => 0

/-- A rational rounded to binary32. -/
def qF32 (x : Rat) : F32 := toF32 (ofSigned false x)

/-- The rational value of a finite binary64; 0 for the others. -/
def f64Q (a : F64) : Rat :=
  match fv64 a with
  | .fin n q => signedQ n q
  | _ => 0

/-- A rational rounded to binary64. -/
def qF64 (x : Rat) : F64 := toF64 (ofSigned false x)

/-! ### binary64 operations -/

/-- Widen binary32 to binary64. -/
def f32To64 (a : F32) : F64 := toF64 (fv32 a)

/-- Round binary64 to binary32. -/
def f64To32 (a : F64) : F32 := toF32 (fv64 a)

def f64Add (a b : F64) : F64 := toF64 (fvAdd (fv64 a) (fv64 b))

/-- acc ± A × B: the product of two binary32 values is exact in binary64 and the sum is rounded once (R123). -/
def f64Mac (neg : Bool) (acc : F64) (a b : F32) : F64 :=
  let p := fvMul (fv32 a) (fv32 b)
  toF64 (fvAdd (fv64 acc) (if neg then fvNeg p else p))

/-- A × B in binary64, exact. -/
def f64Mulz (a b : F32) : F64 := toF64 (fvMul (fv32 a) (fv32 b))

/-- Exact quotient by a positive number, rounded to binary64. -/
def f64DivN (a : F64) (n : Nat) : F64 :=
  match fv64 a with
  | .fin s q => toF64 (.fin s (q / (n : Rat)))
  | x => toF64 x

/-- Product with a number, rounded to binary64. -/
def f64MulN (a : F64) (n : Nat) : F64 :=
  match fv64 a with
  | .fin s q => toF64 (.fin s (q * (n : Rat)))
  | .inf s => if n = 0 then 0x7FF8000000000000 else toF64 (.inf s)
  | .nan => 0x7FF8000000000000

/-- Flip the sign of a binary64 value. -/
def f64Neg (a : F64) : F64 := a ^^^ 0x8000000000000000

/-- v + (t − v) × k / n computed in binary64 and rounded to binary32 (R89, R161). -/
def glideAt (v t : F32) (k n : Nat) : F32 :=
  f64To32 (f64Add (f32To64 v) (f64DivN (f64MulN (f64Add (f32To64 t) (f64Neg (f32To64 v))) k) n))

/-- Product in binary64. -/
def f64Mul (a b : F64) : F64 := toF64 (fvMul (fv64 a) (fv64 b))

/-- Quotient by a positive rational in binary32. -/
def f32DivQ (a : F32) (d : Rat) : F32 :=
  match fv32 a with
  | .fin n q => toF32 (.fin n (q / d))
  | x => toF32 x

/-- A binary32 value within bounds that are themselves taken as binary32 values. -/
def f32Rng (lo hi : Rat) (a : F32) : Bool :=
  f32Fin a && decide (f32Q (qF32 lo) ≤ f32Q a) && decide (f32Q a ≤ f32Q (qF32 hi))

/-- A finite binary32 value above 0 and at most `hi`. -/
def f32Pos (hi : Rat) (a : F32) : Bool := f32Fin a && decide (0 < f32Q a) && decide (f32Q a ≤ f32Q (qF32 hi))

/-- The square root of a rational that is not negative, to 200 binary places below the point (log entry 9). -/
def sqrtQ (q : Rat) : Rat := mkRat (Nat.sqrt (q.num.toNat * 2 ^ 400 / q.den)) (2 ^ 200)

/-! ### Special functions

LOG2, EXP2, SIN2PI and TANH are approximated by series in fixed point with 128 binary places, far closer than the
bounds that R145 states (DEDUCED, log entry 6). -/

/-- One in fixed point. -/
def fxOne : Int := 2 ^ 128

/-- π in fixed point. -/
def fxPi : Int := 1069028584064966747859680373161870783300

/-- The natural logarithm of 2 in fixed point. -/
def fxLn2 : Int := 235865763225513294137944142764154484399

/-- A rational in fixed point. -/
def toFx (q : Rat) : Int := q.num * fxOne / (q.den : Int)

/-- The rational of a fixed-point number. -/
def ofFx (x : Int) : Rat := mkRat x (2 ^ 128)

/-- Product in fixed point. -/
def fxMul (a b : Int) : Int := a * b / fxOne

/-- A power series: each term is the one before it times `r` over the next `s` indices, 1 or 2 of them. -/
def fxSeries (s : Nat) (r : Int) : Nat → Nat → Int → Int → Int
  | 0, _, _, acc => acc
  | n + 1, k, t, acc =>
    fxSeries s r n (k + s) (fxMul t r / (if s = 1 then (k : Int) else (k : Int) * ((k : Int) + 1))) (acc + t)

/-- 2^x for x in [0, 1). -/
def exp2Fx (x : Int) : Int := fxSeries 1 (fxMul x fxLn2) 40 1 fxOne 0

/-- sin 2πx for x in (0, 1). -/
def sinFx (x : Int) : Int :=
  let y := 2 * fxMul fxPi (if 2 * x ≤ fxOne then x else x - fxOne)
  fxSeries 2 (-(fxMul y y)) 40 2 y 0

/-- The sum of z^i / i over odd i, half the logarithm of (1 + z) / (1 − z). -/
def oddSeries (z2 : Int) : Nat → Nat → Int → Int → Int
  | 0, _, _, acc => acc
  | n + 1, i, t, acc => oddSeries z2 n (i + 2) (fxMul t z2) (acc + t / (i : Int))

/-- The base 2 logarithm of a positive magnitude. -/
def log2Q (q : Rat) : Rat :=
  let k := (roundPos 200 q).2 + 199
  let t := q * pow2 (-k)
  let z := toFx ((t - 1) / (t + 1))
  (k : Rat) + ofFx (2 * oddSeries (fxMul z z) 45 1 z 0) / ofFx fxLn2

/-- 2^a. -/
def exp2Q (a : Rat) : Rat := ofFx (exp2Fx (toFx (a - (a.floor : Rat)))) * pow2 a.floor

/-- sin 2πa. -/
def sinQ (a : Rat) : Rat := ofFx (sinFx (toFx (a - (a.floor : Rat))))

/-- The hyperbolic tangent. -/
def tanhQ (a : Rat) : Rat :=
  if 64 < a then 1 else if a < -64 then -1 else
    let y := exp2Q (2 * a / ofFx fxLn2)
    (y - 1) / (y + 1)

/-- The unit in the last place of a positive magnitude in binary32. -/
def ulp32 (q : Rat) : Rat := if q ≤ 0 then 0 else pow2 (roundPos 24 q).2

/-- Accept a free result where `ok` holds of its value, else take `fb`. -/
def bounded (v : F32) (ok : Rat → Bool) (fb : F32) : F32 :=
  match fv32 v with
  | .fin n q => if ok (signedQ n q) then toF32 (.fin n q) else fb
  | _ => fb

/-- RCP of a finite non-zero magnitude: within 1 ulp of 1/q (R145). -/
def rcpMag (a : F32) (neg : Bool) (q : Rat) : F32 :=
  let x := signedQ neg (1 / q)
  let r := toF32 (.fin neg (1 / q))
  match fv32 r with
  | .fin _ m => if m = 0 then r else
      bounded (Config.sfu 0 a) (fun v => decide (v - x ≤ ulp32 (1 / q)) && decide (x - v ≤ ulp32 (1 / q))) r
  | _ => r

/-- A binary32 approximation of 1/√q that lies within 1 ulp: the square root of a scaled integer. -/
def rsqrtNear (q : Rat) : Rat :=
  let n := (q.den * 2 ^ 400) / q.num.toNat
  mkRat (Nat.sqrt n) (2 ^ 200)

/-- RSQRT of a positive finite value: within 1 ulp of 1/√q (R145). -/
def rsqrtMag (a : F32) (q : Rat) : F32 :=
  let r := qF32 (rsqrtNear q)
  let u := ulp32 (rsqrtNear q)
  bounded (Config.sfu 1 a)
    (fun v => decide (0 < v - u) && decide ((v - u) * (v - u) * q ≤ 1) && decide (1 ≤ (v + u) * (v + u) * q)) r

/-- A free result within `bound` of `x`, which `x` rounded stands in for where it is not. -/
def nearQ (v : F32) (x bound : Rat) : F32 :=
  bounded v (fun y => decide (y - x ≤ bound) && decide (x - y ≤ bound)) (qF32 x)

/-- The magnitude of a rational. -/
def absQ (x : Rat) : Rat := if x < 0 then -x else x

/-- LOG2 of a positive magnitude: within 2^−21 where it lies in [0.5, 2], else within 1 ulp (R145). -/
def log2Mag (a : F32) (q : Rat) : F32 :=
  let x := log2Q q
  nearQ (Config.sfu 2 a) x (if 1 / 2 ≤ q ∧ q ≤ 2 then pow2 (-21) else ulp32 (absQ x))

/-- EXP2 of a finite value: within 1 ulp; infinity or zero outside the range of the format (R143, R145). -/
def exp2Fin (a : F32) (x : Rat) : F32 :=
  if 128 ≤ x then 0x7F800000 else if x < -126 then qF32 (if x < -130 then 0 else exp2Q x)
  else nearQ (Config.sfu 3 a) (exp2Q x) (ulp32 (exp2Q x))

/-- The special functions: the stated limits and invalid cases, free within the stated bound elsewhere
(R144, R145, log entry 6). -/
def f32Sfu (fn : Nat) (a : F32) : F32 :=
  match fn, fv32 a with
  | _, .nan => 0x7FC00000
  | 0, .inf n => toF32 (.fin n 0)
  | 0, .fin n q => if q = 0 then toF32 (.inf n) else rcpMag a n q
  | 1, .inf n => if n then 0x7FC00000 else 0
  | 1, .fin n q => if q = 0 then toF32 (.inf n) else if n then 0x7FC00000 else rsqrtMag a q
  | 2, .inf n => if n then 0x7FC00000 else 0x7F800000
  | 2, .fin n q => if q = 0 then 0xFF800000 else if n then 0x7FC00000 else log2Mag a q
  | 3, .inf n => if n then 0 else 0x7F800000
  | 3, .fin n q => exp2Fin a (signedQ n q)
  | 4, .inf _ => 0x7FC00000
  | 4, .fin n q => if q.den = 1 then 0 else nearQ (Config.sfu 4 a) (sinQ (signedQ n q)) (pow2 (-22))
  | 5, .inf n => if n then 0xBF800000 else 0x3F800000
  | _, .fin n q => nearQ (Config.sfu 5 a) (tanhQ (signedQ n q)) (pow2 (-23))
  | _, .inf _ => 0x7FC00000

/-- SIN2PI of a test generator's phase φ = p / 2^32, +0.0 at 0 (R145, R196, log entry 6). -/
def genSin (p : Word) : F32 :=
  if p = 0 then 0 else nearQ (Config.genSine p) (sinQ (mkRat (p.toNat : Int) (2 ^ 32))) (pow2 (-22))

/-- A value passed through an operation: a subnormal becomes zero, a NaN the quiet NaN (R143, R144). -/
def canon32 (a : F32) : F32 :=
  let e := fld a 23 8
  if e = 0 then a &&& 0x80000000 else if e = 255 ∧ fld a 0 23 ≠ 0 then 0x7FC00000 else a

/-- Is a binary32 value finite and within [lo, hi]? -/
def f32In (lo hi : Rat) (a : F32) : Bool := f32Fin a && decide (lo ≤ f32Q a) && decide (f32Q a ≤ hi)

end Sys2Proof.Machine
end

