-- ==== Sys2Proof/Machine/CellExec.lean ====
section
/-! DEFINITION. The cell instruction set: the instruction word, the three slots, the exposed pipeline and the
Store's Waggle turns (R110 to R147). -/

namespace Sys2Proof.Machine

/-! ### The instruction word -/

/-- A field of a number: `len` bits from bit `lo`. -/
def nfld (w lo len : Nat) : Nat := w / 2 ^ lo % 2 ^ len

/-- A two's complement field of `len` bits. -/
def sgn (len w : Nat) : Int := if w < 2 ^ (len - 1) then w else (w : Int) - (2 ^ len : Nat)

/-- The A slot (R122). -/
structure AOp where
  aop : Nat
  msk : Nat
  dst : Nat
  sa : Nat
  sb : Nat
  sc : Nat
  na : Bool
  nb : Bool
  nc : Bool
  ba : Bool
  bal : Nat
  bb : Bool
  bbl : Nat
  fn : Nat
  deriving DecidableEq, Repr

/-- The M slot (R126). -/
structure MOp where
  mop : Nat
  msk : Nat
  reg : Nat
  dsc : Nat
  off : Int
  pm : Nat
  rev : Bool
  kx : Bool
  ksel : Nat
  lane : Nat
  xr : Nat
  imm : F32
  deriving DecidableEq, Repr

/-- The A slot of an instruction word, bits 127:76 (R110, R122). -/
def decodeA (w : Nat) : AOp :=
  let a := nfld w 76 52
  { aop := nfld a 46 6, msk := nfld a 44 2, dst := nfld a 38 6, sa := nfld a 30 8, sb := nfld a 22 8
    sc := nfld a 14 8, na := nfld a 13 1 = 1, nb := nfld a 12 1 = 1, nc := nfld a 11 1 = 1
    ba := nfld a 10 1 = 1, bal := nfld a 7 3, bb := nfld a 6 1 = 1, bbl := nfld a 3 3, fn := nfld a 0 3 }

/-- The M slot of an instruction word, bits 75:24 (R110, R126). -/
def decodeM (w : Nat) : MOp :=
  let m := nfld w 24 52
  { mop := nfld m 47 5, msk := nfld m 45 2, reg := nfld m 39 6, dsc := nfld m 35 4
    off := sgn 21 (nfld m 14 21), pm := nfld m 12 2, rev := nfld m 11 1 = 1, kx := nfld m 10 1 = 1
    ksel := nfld m 8 2, lane := nfld m 5 3, xr := nfld m 0 5, imm := BitVec.ofNat 32 (nfld m 7 32) }

/-- The C slot of an instruction word, bits 23:0 (R110, R131). -/
def decodeC (w : Nat) : Nat := nfld w 0 24

/-! ### Operands -/

/-- A binary32 source operand (R115, R116); none: a code that is no binary32 source. -/
def srcV (c : Cell) (code : Nat) : Option (Vector F32 8) :=
  if h : code < 32 then some c.regs.v[code]
  else if code < 0x28 then none
  else if code < 0x30 then some (.replicate 8 (vgetD c.regs.inb (code - 0x28) 0))
  else if code = 0x30 then some c.regs.inb
  else if 0x40 ≤ code ∧ code < 0x50 then some (.replicate 8 (vgetD c.regs.g (code - 0x40) {}).v)
  else if code = 0x80 then some (.replicate 8 0)
  else if code = 0x81 then some (.replicate 8 0x3F800000)
  else if code = 0x82 then some (.replicate 8 0x3F000000)
  else if code = 0x83 then some (.replicate 8 0x40000000)
  else none

/-- An accumulator source operand (R115, R116). -/
def srcAcc (c : Cell) (code : Nat) : Option (Vector F64 8) :=
  if 0x20 ≤ code ∧ code < 0x28 then some (vgetD c.regs.acc (code - 0x20) (.replicate 8 0)) else none

/-- Negation, then lane broadcast of a binary32 source (R124). -/
def modV (neg bc : Bool) (bl : Nat) (x : Vector F32 8) : Vector F32 8 :=
  let y := if neg then x.map f32Neg else x
  if bc then .replicate 8 (vgetD y bl 0) else y

/-- Negation, then lane broadcast of an accumulator source (R124). -/
def modAcc (neg bc : Bool) (bl : Nat) (x : Vector F64 8) : Vector F64 8 :=
  let y := if neg then x.map (· ^^^ 0x8000000000000000) else x
  if bc then .replicate 8 (vgetD y bl 0) else y

/-- The mask register `k` (R113). -/
def maskReg (c : Cell) (k : Nat) : Byte := vgetD c.regs.m k 0xFF

/-! ### The A slot -/

/-- What an A slot does: its writes with their latency, and a MAC-family result for the chain. -/
structure AEff where
  lat : Nat
  writes : List RegWrite
  mac : Option (Nat × Vector F64 8)

/-- The lanes whose bit of a mask is set. -/
def lanesOf (m : Byte) : List Nat := bitsOf 8 m

/-- The writes of a binary32 result to v, OUT or none (R115, R124); none: no such destination. -/
def dstV (dst : Nat) (m : Byte) (x : Vector F32 8) : Option (List RegWrite) :=
  if dst < 32 then some ((lanesOf m).map (fun l => .vec dst l (vgetD x l 0)))
  else if dst = 0x31 then some ((lanesOf m).map (fun l => .out l (vgetD x l 0)))
  else if dst = 0x3F then some []
  else none

/-- The writes of an accumulator result (R115, R124). -/
def dstAcc (dst : Nat) (m : Byte) (x : Vector F64 8) : Option (List RegWrite) :=
  if 0x20 ≤ dst ∧ dst < 0x28 then some ((lanesOf m).map (fun l => .acc (dst - 0x20) l (vgetD x l 0))) else none

/-- The writes of a comparison to m1 to m3 (R115, R123, R124). -/
def dstMask (dst : Nat) (m : Byte) (b : Nat → Bool) : Option (List RegWrite) :=
  if 0x35 ≤ dst ∧ dst < 0x38 then some ((lanesOf m).map (fun l => .msk (dst - 0x34) l (b l))) else none

/-- A lane-wise result of one source. -/
def aUn (c : Cell) (a : AOp) (f : F32 → F32) : Option (Vector F32 8) := do
  let x ← srcV c a.sa
  pure ((modV a.na a.ba a.bal x).map f)

/-- A lane-wise result of two sources. -/
def aBin (c : Cell) (a : AOp) (f : F32 → F32 → F32) : Option (Vector F32 8) := do
  let x ← srcV c a.sa
  let y ← srcV c a.sb
  let x := modV a.na a.ba a.bal x
  let y := modV a.nb a.bb a.bbl y
  pure (Vector.ofFn fun l => f x[l] y[l])

/-- A lane-wise result of three sources; there is no broadcast of source C. -/
def aTri (c : Cell) (a : AOp) (f : F32 → F32 → F32 → F32) : Option (Vector F32 8) := do
  let x ← srcV c a.sa
  let y ← srcV c a.sb
  let z ← srcV c a.sc
  let x := modV a.na a.ba a.bal x
  let y := modV a.nb a.bb a.bbl y
  let z := modV a.nc false 0 z
  pure (Vector.ofFn fun l => f x[l] y[l] z[l])

/-- A binary32 result written with a latency. -/
def aPut (c : Cell) (a : AOp) (lat : Nat) (x : Option (Vector F32 8)) : Option AEff := do
  let x ← x
  let ws ← dstV a.dst (maskReg c a.msk) x
  pure ⟨lat, ws, none⟩

/-- An accumulator result written with latency 4. -/
def aPutAcc (c : Cell) (a : AOp) (x : Option (Vector F64 8)) : Option AEff := do
  let x ← x
  let ws ← dstAcc a.dst (maskReg c a.msk) x
  pure ⟨4, ws, none⟩

/-- The accumulator input of a MAC-family operation issued in slot `j`: the result of the latest such operation
of slots j − 3 to j − 1, else the register (R125). -/
def macIn (c : Cell) (n j : Nat) : Vector F64 8 :=
  match c.run.macs.find? (fun m => m.reg = n ∧ j ≤ m.slot + 3) with
  | some m => m.val
  | none => vgetD c.regs.acc n (.replicate 8 0)

/-- MACZ, MAC and MSC (R123, R125). -/
def aMac (c : Cell) (a : AOp) (slot : Nat) (f : F64 → F32 → F32 → F64) : Option AEff := do
  let x ← srcV c a.sa
  let y ← srcV c a.sb
  let x := modV a.na a.ba a.bal x
  let y := modV a.nb a.bb a.bbl y
  let n := a.dst - 0x20
  let old := macIn c n slot
  let m := maskReg c a.msk
  let r := Vector.ofFn fun l : Fin 8 => if m.getLsbD l then f old[l] x[l] y[l] else old[l]
  let ws ← dstAcc a.dst m r
  pure ⟨4, ws, some (n, r)⟩

/-- The sum of the 8 lanes in the order of ACCSUM (R123). -/
def accSum (x : Vector F64 8) : F64 :=
  f64Add (f64Add (f64Add x[0] x[1]) (f64Add x[2] x[3])) (f64Add (f64Add x[4] x[5]) (f64Add x[6] x[7]))

/-- The A slot's effect, issued in `slot`; none: a reserved encoding (R123, R135). Two points the specification leaves
open (DESIGN CHOICE, log entry 61): FN 6 and 7 of CMP and of SFU count as reserved encodings, and SEL takes only the
lane it selects as its input, so that a NaN in the other operand does not reach the result. -/
def aExec (c : Cell) (slot : Nat) (a : AOp) : Option AEff :=
  match a.aop with
  | 0x00 => some ⟨1, [], none⟩
  | 0x01 => aPut c a 1 (aUn c a canon32)
  | 0x02 => aPut c a 4 (aBin c a f32Add)
  | 0x03 => aPut c a 4 (aBin c a f32Sub)
  | 0x04 => aPut c a 4 (aBin c a f32Mul)
  | 0x05 => aPut c a 4 (aTri c a f32Fma)
  | 0x06 => aPut c a 2 (aBin c a f32Min)
  | 0x07 => aPut c a 2 (aBin c a f32Max)
  | 0x08 => aPut c a 1 (aUn c a f32Abs)
  | 0x09 => aPut c a 2 (aTri c a f32Clamp)
  | 0x0A => do
    let x ← srcV c a.sa
    let y ← srcV c a.sb
    let x := modV a.na a.ba a.bal x
    let y := modV a.nb a.bb a.bbl y
    if 5 < a.fn then none else
    let ws ← dstMask a.dst (maskReg c a.msk) (fun l => f32Cmp a.fn (vgetD x l 0) (vgetD y l 0))
    pure ⟨2, ws, none⟩
  | 0x0B => do
    let x ← srcV c a.sa
    let y ← srcV c a.sb
    let x := modV a.na a.ba a.bal x
    let y := modV a.nb a.bb a.bbl y
    let m := maskReg c (a.fn % 4)
    aPut c a 1 (some (Vector.ofFn fun l : Fin 8 => canon32 (if m.getLsbD l then x[l] else y[l])))
  | 0x0C => do
    let x ← srcV c a.sa
    let x := modV a.na a.ba a.bal x
    aPut c a 1 (some (Vector.ofFn fun l : Fin 8 => canon32 (vgetD x ((l.val + a.fn) % 8) 0)))
  | 0x0D => if 5 < a.fn then none else aPut c a 8 (aUn c a (f32Sfu a.fn))
  | 0x10 => aMac c a slot (fun _ x y => f64Mulz x y)
  | 0x11 => aMac c a slot (f64Mac false)
  | 0x12 => aMac c a slot (f64Mac true)
  | 0x13 => do
    let x ← srcV c a.sa
    aPutAcc c a (some ((modV a.na a.ba a.bal x).map f32To64))
  | 0x14 => do
    let x ← srcAcc c a.sa
    let y ← srcAcc c a.sb
    let x := modAcc a.na a.ba a.bal x
    let y := modAcc a.nb a.bb a.bbl y
    aPutAcc c a (some (Vector.ofFn fun l => f64Add x[l] y[l]))
  | 0x15 => do
    let x ← srcAcc c a.sa
    aPutAcc c a (some (.replicate 8 (accSum (modAcc a.na a.ba a.bal x))))
  | 0x16 => do
    let x ← srcAcc c a.sa
    aPut c a 4 (some ((modAcc a.na a.ba a.bal x).map f64To32))
  | _ => none

/-! ### Writes on their way -/

/-- The order in which writes take effect: landing slot, then issue slot, then the A slot last (R136). -/
def landsBefore (a b : PendWrite) : Bool :=
  decide (a.land < b.land) || (a.land = b.land && (decide (a.issue < b.issue) ||
    (a.issue = b.issue && !a.fromA && b.fromA)))

/-- Put a write among those on their way. -/
def insWrite (w : PendWrite) : List PendWrite → List PendWrite
  | [] => [w]
  | x :: r => if landsBefore w x then w :: x :: r else x :: insWrite w r

/-- A register write takes effect (R113, R136). -/
def landReg (r : CellRegs) : RegWrite → CellRegs
  | .vec k l x => { r with v := vmodN r.v k (fun v => vmodN v l (fun _ => x)) }
  | .acc k l x => { r with acc := vmodN r.acc k (fun v => vmodN v l (fun _ => x)) }
  | .ptr j x => { r with p := vmodN r.p j (fun _ => x) }
  | .msk k l b => { r with m := vmodN r.m k (fun m =>
      if b then m ||| BitVec.ofNat 8 (2 ^ l) else m &&& ~~~ BitVec.ofNat 8 (2 ^ l)) }
  | .cnt k x => { r with k := vmodN r.k k (fun _ => x) }
  | .out l x => { r with outb := vmodN r.outb l (fun _ => x) }

/-- The writes that land at or before slot `i` take effect, in their order. -/
def landTo (i : Nat) (c : Cell) : Cell :=
  { c with
    regs := (c.run.writes.filter (fun w => w.land ≤ i)).foldl (fun r w => landReg r w.w) c.regs
    run := { c.run with writes := c.run.writes.filter (fun w => decide (i < w.land)) } }

/-- Put writes issued in slot `i` on their way with latency `lat`. -/
def issueWrites (i lat : Nat) (fromA : Bool) (ws : List RegWrite) (c : Cell) : Cell :=
  { c with run := { c.run with
      writes := ws.foldl (fun l w => insWrite ⟨i + lat, i, fromA, w⟩ l) c.run.writes } }

/-! ### Descriptors -/

/-- HIVE_D_SPACE of descriptor `j` (R117). -/
def dSpace (c : Cell) (j : Nat) : Nat := fld (vgetD c.regs.d j 0xC000000000000000) 62 2

/-- The buffer length of descriptor `j` (R117). -/
def dLen (c : Cell) (j : Nat) : Nat := fld (vgetD c.regs.d j 0) 21 21 + 1

/-- The buffer base of descriptor `j` (R117). -/
def dBase (c : Cell) (j : Nat) : Nat := fld (vgetD c.regs.d j 0) 0 21

/-- The post-modify step of descriptor `j` (R117). -/
def dStride (c : Cell) (j : Nat) : Int := sgn 16 (fld (vgetD c.regs.d j 0) 42 16)

/-- The offset x of an access through `j` (R120). -/
def accX (c : Cell) (j : Nat) (m : MOp) : Nat :=
  (((vgetD c.regs.p j 0 : Nat) : Int) + m.off +
    (if m.kx then ((vgetD c.regs.k m.ksel 0).toNat : Int) else 0)).emod (dLen c j) |>.toNat

/-- The word address of a lane offset (R120). -/
def accAddr (c : Cell) (j : Nat) (laneOff : Int) : Nat :=
  dBase c j + ((laneOff - ((vgetD c.regs.o j 0 : Nat) : Int)).emod (dLen c j)).toNat

/-- The word address of lane `l` (R120). -/
def laneAddr (c : Cell) (j x : Nat) (rev : Bool) (l : Nat) : Nat :=
  accAddr c j (if rev then (x : Int) - l else (x : Int) + l)

/-- The write of post-modify (R121, R126). -/
def postMod (c : Cell) (j pm : Nat) : List RegWrite :=
  match pm with
  | 1 => [.ptr j (((vgetD c.regs.p j 0 : Nat) : Int) + dStride c j |>.emod (dLen c j)).toNat]
  | 2 => [.ptr j (((vgetD c.regs.p j 0 : Nat) : Int) - dStride c j |>.emod (dLen c j)).toNat]
  | _ => []

/-! ### The M slot -/

/-- The turn slot of a Store access (R139). -/
def turnSlot (i b c phi : Nat) : Nat := i + (((b : Int) - c - phi - i).emod 64).toNat

/-- A read of a word in the data RAM or the active coefficient bank (R120). -/
def rdSpace (c : Fin 32) (pc space a : Nat) (s : State) : F32 × State :=
  if space = 0 then rdData c pc a s else rdCoef c pc a s

/-- Reads of several lanes: lane and value. -/
def rdLanes (c : Fin 32) (pc space : Nat) (addr : Nat → Nat) : List Nat → State → List (Nat × F32) × State
  | [], s => ([], s)
  | l :: ls, s =>
    let (x, s) := rdSpace c pc space (addr l) s
    let (r, s) := rdLanes c pc space addr ls s
    ((l, x) :: r, s)

/-- One Store access issued: it waits for its turn, or is lost in a Waggle conflict (R139 to R141). A lost load
returns +0.0. -/
def storeIssue (c : Fin 32) (phi i pc : Nat) (load : Bool) (reg : Nat) (lanes : List Nat) (a : Nat) (x : F32)
    (s : State) : State :=
  let b := a % 64
  let t := turnSlot i b c phi
  if (cellAt s c).run.turns.contains (b, t) then
    let s := cellWaggle c s
    if load then modCell c (issueWrites i 64 false (lanes.map (fun l => .vec reg l 0))) s else s
  else modCell c (fun y => { y with run := { y.run with
    turns := y.run.turns ++ [(b, t)]
    waits := y.run.waits ++ [⟨b, a, i, t, pc, load, reg, lanes, x⟩] } }) s

/-- A waiting access is performed in its turn (R139, R96). -/
def storePerform (c : Fin 32) (w : StoreWait) (s : State) : State :=
  let s := modCell c (fun y => { y with run := { y.run with waits := y.run.waits.erase w } }) s
  let on := segOn (w.addr / 131072) s
  if w.load then
    let (x, bad, s) := if on then rdStore w.addr s else (0, false, s)
    let s := if bad then cellFault c 4 w.pc s else s
    modCell c (issueWrites w.issue 64 false (w.lanes.map (fun l => .vec w.reg l x))) s
  else if on then wrStore w.addr w.val s else s

/-- The waiting access whose turn comes first. -/
def firstWait : List StoreWait → Option StoreWait
  | [] => none
  | w :: ws => match firstWait ws with
    | some v => some (if v.turn < w.turn then v else w)
    | none => some w

/-- The accesses whose turn is slot `i` are performed. -/
def performTurn (c : Fin 32) (i : Nat) (s : State) : State :=
  ((cellAt s c).run.waits.filter (fun w => w.turn = i)).foldl (fun s w => storePerform c w s) s

/-- A store to the data RAM or the Store by lanes and addresses (R127, R130, R139). -/
def storeLanes (c : Fin 32) (phi i pc space : Nat) : List (Nat × F32) → State → State
  | [], s => s
  | (a, x) :: r, s =>
    storeLanes c phi i pc space r
      (if space = 0 then wrData c a x s else storeIssue c phi i pc false 0 [] a x s)

/-- Table interpolation of one lane (R129). -/
def tliLane (c : Fin 32) (pc space j x : Nat) (u : F32) (s : State) : F32 × State :=
  let y := cellAt s c
  let len := dLen y j
  let uq : Rat := match fv32 u with
    | .nan => 0
    | .inf n => if n then 0 else ((len - 1 : Nat) : Rat)
    | .fin n q => if signedQ n q < 0 then 0 else if ((len - 1 : Nat) : Rat) < q then ((len - 1 : Nat) : Rat) else signedQ n q
  let i := min uq.floor.toNat (len - 2)
  let f := qF32 (uq - (i : Rat))
  let (t0, s) := rdSpace c pc space (accAddr y j ((x : Int) + i)) s
  let (t1, s) := rdSpace c pc space (accAddr y j ((x : Int) + i + 1)) s
  (f32Fma f (f32Sub t1 t0) t0, s)

/-- Table interpolation of several lanes. -/
def tliLanes (c : Fin 32) (pc space j x : Nat) (u : Vector F32 8) : List Nat → State → List (Nat × F32) × State
  | [], s => ([], s)
  | l :: ls, s =>
    let (v, s) := tliLane c pc space j x (vgetD u l 0) s
    let (r, s) := tliLanes c pc space j x u ls s
    ((l, v) :: r, s)

/-- Writes of loaded lanes to a vector register. -/
def laneWrites (reg : Nat) (vs : List (Nat × F32)) : List RegWrite := vs.map (fun v => .vec reg v.1 v.2)

/-- Is the M slot a reserved encoding (R127, R135)? -/
def mReserved (c : Cell) (m : MOp) : Bool :=
  let sp := dSpace c m.dsc
  match m.mop with
  | 0x00 | 0x08 | 0x09 => false
  | 0x01 | 0x02 => m.reg ≥ 32 || m.pm = 3 || sp = 3
  | 0x03 => (m.reg ≥ 32 && m.reg ≠ 0x30) || m.pm = 3 || sp = 3 || sp = 1
  | 0x04 => (m.reg ≥ 32 && !(0x28 ≤ m.reg && m.reg ≤ 0x30)) || m.pm = 3 || sp = 3 || sp = 1
  | 0x05 => m.reg ≥ 32 || m.reg % 2 = 1 || m.pm = 3 || m.dsc % 2 = 1 || sp ≠ 0 || dSpace c (m.dsc + 1) ≠ 1
  | 0x06 => m.reg ≥ 32 || m.pm = 3 || sp = 3 || sp = 2
  | 0x07 => m.reg ≥ 32
  | _ => true

/-- A load by lanes: LD of each masked lane, LDS of one word for every masked lane (R127, R128). The moves of the M slot pass
their patterns as they are, NaN and subnormal ones too: R144 speaks of operations (DESIGN CHOICE, log entry 61). -/
def mLoad (c : Fin 32) (phi i pc : Nat) (m : MOp) (lanes : List Nat) (s : State) : State :=
  let y := cellAt s c
  let j := m.dsc
  let sp := dSpace y j
  let x := accX y j m
  if m.mop = 0x01 then
    if sp = 2 then
      lanes.foldl (fun s l => storeIssue c phi i pc true m.reg [l] (laneAddr y j x m.rev l) 0 s) s
    else
      let (vs, s) := rdLanes c pc sp (laneAddr y j x m.rev) lanes s
      modCell c (issueWrites i 2 false (laneWrites m.reg vs)) s
  else if lanes = [] then s
  else if sp = 2 then storeIssue c phi i pc true m.reg lanes (accAddr y j x) 0 s
  else
    let (v, s) := rdSpace c pc sp (accAddr y j x) s
    modCell c (issueWrites i 2 false (laneWrites m.reg (lanes.map (fun l => (l, v))))) s

/-- ST and STS (R127, R128). -/
def mStore (c : Fin 32) (phi i pc : Nat) (m : MOp) (mask : Byte) (s : State) : State :=
  let y := cellAt s c
  let j := m.dsc
  let x := accX y j m
  let src := (srcV y m.reg).getD (.replicate 8 0)
  let stores : List (Nat × F32) :=
    if m.mop = 0x03 then (lanesOf mask).map (fun l => (laneAddr y j x m.rev l, vgetD src l 0))
    else if mask.getLsbD m.lane then [(accAddr y j x, vgetD src m.lane 0)] else []
  storeLanes c phi i pc (dSpace y j) stores s

/-- LDP: data RAM through dj, coefficient bank through d(j+1) (R127). -/
def mPair (c : Fin 32) (i pc : Nat) (m : MOp) (lanes : List Nat) (s : State) : State :=
  let y := cellAt s c
  let j := m.dsc
  let (v0, s) := rdLanes c pc 0 (laneAddr y j (accX y j m) m.rev) lanes s
  let (v1, s) := rdLanes c pc 1 (laneAddr y (j + 1) (accX y (j + 1) m) m.rev) lanes s
  modCell c (issueWrites i 2 false (laneWrites m.reg v0 ++ laneWrites (m.reg + 1) v1)) s

/-- TLI (R127, R129). -/
def mTable (c : Fin 32) (i pc : Nat) (m : MOp) (lanes : List Nat) (s : State) : State :=
  let y := cellAt s c
  let (vs, s) := tliLanes c pc (dSpace y m.dsc) m.dsc (accX y m.dsc m) (vgetD y.regs.v m.xr (.replicate 8 0)) lanes s
  modCell c (issueWrites i 4 false (laneWrites m.reg vs)) s

/-- The M slot issued in slot `i` from word `pc` (R127). -/
def mExec (c : Fin 32) (phi i pc : Nat) (m : MOp) (s : State) : State :=
  let y := cellAt s c
  if mReserved y m then cellFault c 0 pc s else
  let mask := maskReg y m.msk
  let lanes := lanesOf mask
  let after (s : State) : State :=
    let ps := postMod y m.dsc m.pm ++ (if m.mop = 0x05 then postMod y (m.dsc + 1) m.pm else [])
    modCell c (issueWrites i 1 false ps) s
  match m.mop with
  | 0x01 | 0x02 => after (mLoad c phi i pc m lanes s)
  | 0x03 | 0x04 => after (mStore c phi i pc m mask s)
  | 0x05 => after (mPair c i pc m lanes s)
  | 0x06 => after (mTable c i pc m lanes s)
  | 0x07 => modCell c (issueWrites i 1 false (lanes.map (fun l => .vec m.reg l m.imm))) s
  | 0x08 => modCell c (issueWrites i 1 false [.ptr m.dsc (m.off.emod (dLen y m.dsc)).toNat]) s
  | 0x09 => modCell c (issueWrites i 1 false
      [.ptr m.dsc ((((vgetD y.regs.p m.dsc 0 : Nat) : Int) + m.off).emod (dLen y m.dsc)).toNat]) s
  | _ => s

/-! ### The C slot -/

/-- What a C slot does: register writes, and a REPEAT with its count and block. -/
inductive CEff where
  | writes (ws : List RegWrite)
  | rep (count block : Nat)

/-- Writes of a whole mask register. -/
def maskWrites (k : Nat) (v : Byte) : List RegWrite := (List.range 8).map (fun l => .msk k l (v.getLsbD l))

/-- The C slot; none: a reserved encoding (R131, R134, R135). -/
def cExec (y : Cell) (pc : Nat) (w : Nat) : Option CEff :=
  match nfld w 20 4 with
  | 0x0 => some (.writes [])
  | 0x1 =>
    let block := nfld w 0 8 + 1
    match y.run.reps with
    | [] => some (.rep (nfld w 8 12 + 1) block)
    | [lv] => if pc + block ≤ lv.last then some (.rep (nfld w 8 12 + 1) block) else none
    | _ => none
  | 0x2 => if nfld w 8 2 = 0 then none else some (.writes (maskWrites (nfld w 8 2) (BitVec.ofNat 8 (nfld w 0 8))))
  | 0x3 =>
    let a := maskReg y (nfld w 10 2)
    let b := maskReg y (nfld w 8 2)
    let r := match nfld w 18 2 with
      | 0 => a &&& b
      | 1 => a ||| b
      | 2 => a ^^^ b
      | _ => a &&& ~~~ b
    if nfld w 12 2 = 0 then none else some (.writes (maskWrites (nfld w 12 2) r))
  | 0x4 => if nfld w 16 2 < 2 then none else some (.writes [.cnt (nfld w 16 2) (BitVec.ofNat 16 (nfld w 0 16))])
  | 0x5 =>
    if nfld w 16 2 < 2 then none
    else some (.writes [.cnt (nfld w 16 2) (vgetD y.regs.k (nfld w 16 2) 0 + BitVec.ofNat 16 (nfld w 0 16))])
  | _ => none

/-- The next word in program order after `pc`, with the REPEAT levels left, inner first (R132, R133). -/
def repNext (pc : Nat) : List RepLevel → Nat × List RepLevel
  | [] => (pc + 1, [])
  | lv :: r =>
    if pc = lv.last then
      if lv.pass + 1 < lv.count then (lv.first, { lv with pass := lv.pass + 1 } :: r) else repNext pc r
    else (pc + 1, lv :: r)

/-- k0 and k1 as the active levels leave them: k0 for the outer level, k1 for the inner (R114, R133). While only the
outer level is active k1 reads 0 (DESIGN CHOICE, log entry 61). -/
def repCounters (reps : List RepLevel) (k : Vector (BitVec 16) 4) : Vector (BitVec 16) 4 :=
  match reps with
  | [] => vmodN (vmodN k 0 (fun _ => 0)) 1 (fun _ => 0)
  | [o] => vmodN (vmodN k 0 (fun _ => BitVec.ofNat 16 o.pass)) 1 (fun _ => 0)
  | i :: o :: _ => vmodN (vmodN k 0 (fun _ => BitVec.ofNat 16 o.pass)) 1 (fun _ => BitVec.ofNat 16 i.pass)

/-! ### Issue -/

/-- The 128-bit word of a program bank (R110). -/
def progWord (m : Mem) (w : Nat) : Nat :=
  (rdW m (16 * w)).toNat + (rdW m (16 * w + 4)).toNat * 2 ^ 32 + (rdW m (16 * w + 8)).toNat * 2 ^ 64 +
    (rdW m (16 * w + 12)).toNat * 2 ^ 96

/-- Check the four codewords of a program word: true where all stand (R96, R407). -/
def checkProg (c : Fin 32) (w : Nat) : List Nat → State → Bool × State
  | [], s => (true, s)
  | k :: ks, s =>
    let (ok, s) := checkWord ⟨.program, c, (cellAt s c).actP, 4 * w + k⟩ s
    let (ok', s) := checkProg c w ks s
    (ok && ok', s)

/-- The word that program order fetches: beyond word 4,095, or on an uncorrectable error, a no-operation word
(R111, R96). -/
def fetchWord (c : Fin 32) (s : State) : Nat × State :=
  let y := cellAt s c
  let pc := y.run.pc
  if 4095 < pc then (0, s) else
    let (ok, s) := checkProg c pc [0, 1, 2, 3] s
    if ok then (progWord y.mem.prog[y.actP] pc, s) else (0, cellFault c 1 pc s)

/-- The A slot issues. -/
def issueA (c : Fin 32) (i pc w : Nat) (y : Cell) (s : State) : State :=
  match aExec y i (decodeA w) with
  | none => cellFault c 0 pc s
  | some e => modCell c (fun z =>
      let z := issueWrites i e.lat true e.writes z
      match e.mac with
      | none => z
      | some (n, v) => { z with run := { z.run with
          macs := ⟨n, i, v⟩ :: z.run.macs.filter (fun m => decide (i < m.slot + 4)) } }) s

/-- The C slot issues, and program order moves on (R131 to R134). -/
def issueC (c : Fin 32) (i pc w : Nat) (y : Cell) (s : State) : State :=
  match cExec y pc (decodeC w) with
  | some (.rep n b) => modCell c (fun z =>
      let reps := ⟨pc + 1, pc + b, n, 0⟩ :: y.run.reps
      { z with run := { z.run with pc := pc + 1, reps := reps }
               regs := { z.regs with k := repCounters reps z.regs.k } }) s
  | e =>
    let (npc, reps) := repNext pc y.run.reps
    let s := modCell c (fun z =>
      let z := match e with
        | some (.writes ws) => issueWrites i 1 false ws z
        | _ => z
      { z with run := { z.run with pc := npc, reps := reps }
               regs := { z.regs with k := repCounters reps z.regs.k } }) s
    if e.isNone then cellFault c 0 pc s else s

/-- A cell issues slot `i` of its program: the writes that land in this cycle are read, all three slots read
their operands now, and the Store accesses whose turn is now are performed (R111, R112, R139). -/
def issueSlot (c : Fin 32) (phi : Nat) (s : State) : State :=
  let i := (cellAt s c).run.slot
  let s := modCell c (landTo i) s
  let (w, s) := fetchWord c s
  let y := cellAt s c
  let pc := y.run.pc
  let s := issueA c i pc w y s
  let s := mExec c phi i pc (decodeM w) s
  issueC c i pc w y s

/-- One Hive cycle of a cell's window: it issues a word while any of its L slots is left; Store turns and
landing writes go on after them (R66, R111). -/
def cellSlot (c : Fin 32) (phi : Nat) (s : State) : State :=
  let y := cellAt s c
  let i := y.run.slot
  let s := if i < (vgetD y.mem.pmeta y.actP.val {}).len then issueSlot c phi s else modCell c (landTo i) s
  let s := performTurn c i s
  modCell c (fun z => { z with run := { z.run with
    slot := i + 1
    turns := z.run.turns.filter (fun t => decide (i < t.2)) } }) s

/-- A cell begins a domain frame: its pointers read 0, its origins advance, and it starts at word 0 (R111,
R114, R119). -/
def cellFrameStart (y : Cell) : Cell :=
  { y with
    run := {}
    regs := { y.regs with
      p := .replicate 16 0
      k := repCounters [] y.regs.k
      o := vmap y.regs.o (fun j o =>
        if (vgetD y.regs.d j.val 0).getLsbD 61 then o else (o + 1) % dLen y j.val) } }

/-- The waiting access of some cells whose turn comes first, with its cell. -/
def firstTurn (s : State) : List (Fin 32) → Option (Fin 32 × StoreWait)
  | [] => none
  | c :: cs =>
    match firstWait (cellAt s c).run.waits, firstTurn s cs with
    | some w, some v => some (if v.2.turn < w.turn then v else (c, w))
    | some w, none => some (c, w)
    | none, v => v

/-- The accesses of some cells whose turns come before `t` are performed in the order of their turns, at most `n` of them
(R139, R392). -/
def turnsBefore (cs : List (Fin 32)) (t : Nat) : Nat → State → State
  | 0, s => s
  | n + 1, s =>
    match firstTurn s cs with
    | some v => if v.2.turn < t then turnsBefore cs t n (storePerform v.1 v.2 s) else s
    | none => s

/-- Every register write of a cell that is still on its way lands (R137). -/
def landAll (y : Cell) : Cell := landTo (y.run.slot + 200000) y

end Sys2Proof.Machine
end

