-- ==== Sys2Proof/Machine/Operands.lean ====
section
/-! DEFINITION. The operand forms of mailbox commands: words and fields of a command, effect frames, masks and
bulk ranges, and the tests that refuse them. -/

namespace Sys2Proof.Machine

/-- The number of payload words a command declares (R471). -/
def nWords (r : Req) : Nat := r.len.toNat / 4

/-- Command word `i`, counted from word 3 for the first payload word (R471); a word beyond the length reads 0. -/
def arg (r : Req) (i : Nat) : Word := if i - 3 < nWords r then r.payload.getD (i - 3) 0 else 0

/-- Command words `i` to `i + n - 1`. -/
def args (r : Req) (i : Nat) : Nat → List Word
  | 0 => []
  | n + 1 => arg r i :: args r (i + 1) n

/-- A 64-bit operand in words `i` and `i + 1`, bits 31:0 first. -/
def arg64 (r : Req) (i : Nat) : Nat := (arg r i).toNat + (arg r (i + 1)).toNat * 2 ^ 32

/-- A field of command word `i`. -/
def argF (r : Req) (i lo len : Nat) : Nat := fld (arg r i) lo len

/-- A flag of command word `i`. -/
def argB (r : Req) (i b : Nat) : Bool := (arg r i).getLsbD b

/-- Bits outside `allowed` are set (R8, R474). -/
def rsvd (w allowed : Word) : Bool := w &&& ~~~ allowed != 0

/-- The form every command shares: no reserved flag, a length that is a multiple of 4 and holds the `n` words
the command needs (R472, R474). -/
def badForm (n : Nat) (r : Req) : Bool :=
  r.flags &&& 0xFE != 0 || r.len.toNat % 4 != 0 || decide (nWords r < n)

/-- A target word that must be 0 is not. -/
def badTarget (r : Req) : Bool := r.target != 0

/-- An effect frame below S + 2; 0 asks for the earliest (R102). -/
def badE (e : Nat) (s : State) : Bool := e != 0 && decide (e < effFrame s)

/-- The effect frame used: an E of 0 means S + 2 (R102). -/
def useE (e : Nat) (s : State) : Nat := if e = 0 then effFrame s else e

/-- The first multiple of `d` at or after `n`. -/
def upTo (d n : Nat) : Nat := (n + d - 1) / d * d

/-- The effect frame of a change that must fall on an S frame tick where `sDom` holds (R102). -/
def useES (sDom : Bool) (e : Nat) (s : State) : Nat :=
  if e = 0 then (if sDom then upTo s.hive.dom.d (effFrame s) else effFrame s) else e

/-- The F multiplier and the S divider in force in M frame `e`, as far as an accepted rate change tells: those it brings
from its P on (R186; DEDUCED, log entry 62). -/
def ratesFor (e : Nat) (s : State) : Nat × Nat :=
  match s.hive.dom.change with
  | some x => if x.p ≤ e then (x.m, x.d) else (s.hive.dom.m, s.hive.dom.d)
  | none => (s.hive.dom.m, s.hive.dom.d)

/-- The F multipliers and S dividers in force in M frame `e` or after it: a change that is accepted and has its P after `e`
brings a second pair (R65, R186; DEDUCED, log entry 62). -/
def ratesFrom (e : Nat) (s : State) : List (Nat × Nat) :=
  match s.hive.dom.change with
  | some x => if x.p ≤ e then [(x.m, x.d)] else [(s.hive.dom.m, s.hive.dom.d), (x.m, x.d)]
  | none => [(s.hive.dom.m, s.hive.dom.d)]

/-- An effect frame that is too early, or off the S frame ticks where `sDom` holds (R102); the divider is the one in force
in that frame (DEDUCED, log entry 62). -/
def badES (sDom : Bool) (e : Nat) (s : State) : Bool :=
  badE e s || (sDom && e != 0 && e % (ratesFor e s).2 != 0)

/-- A rate change is under way and the effect frame `e` falls from Q to R − 1; while R is not known yet, any frame
from Q on (R189). -/
def rateBars (e : Nat) (s : State) : Bool :=
  match s.hive.dom.change with
  | some x => decide (x.q ≤ e) && ((x.fmChange && x.r == 0) || decide (e < x.r))
  | none => false

/-- The same for changes to cells, Combs, bridges and generators, which a lock timeout bars as well (R192). -/
def hiveBars (e : Nat) (s : State) : Bool := rateBars e s || s.hive.dom.stuck

/-! ### Bulk ranges -/

/-- A bulk range of no words, or past 0xEFFF (R482). -/
def badBulk (first len : Nat) : Bool := len == 0 || decide (14336 < first + len)

/-- Two ranges overlap. -/
def overlap (a b : Nat × Nat) : Bool := decide (a.1 < b.1 + b.2) && decide (b.1 < a.1 + a.2)

/-- The ranges that commands own now (R482). -/
def ownedBulk (s : State) : List (Nat × Nat) :=
  s.mbx.toList.filterMap (·.bulk) ++ s.ianik.deferred.filterMap (·.bulk)

/-- A range that overlaps one another command owns (R482). -/
def bulkTaken (first len : Nat) (s : State) : Bool := (ownedBulk s).any (overlap (first, len))

/-- The RAM address of a bulk word (R464, R482). -/
def bulkAddr (w : Nat) : Nat := 0x1000 + 4 * w

/-- Mailbox `m` owns a bulk range until its response (R482). -/
def ownBulk (m : Nat) (first len : Nat) (s : State) : State :=
  { s with mbx := vmodN s.mbx m (fun b => { b with bulk := some (first, len) }) }

/-! ### Units -/

/-- The number of a domain: M 0, F 1, S 2. -/
def domNo : Dom → Nat
  | .M => 0
  | .F => 1
  | .S => 2

/-- The domain of a number. -/
def domOf : Nat → Dom
  | 0 => .M
  | 1 => .F
  | _ => .S

/-- The domain of a number as an index. -/
def domIx (d : Dom) : Fin 3 :=
  match d with
  | .M => 0
  | .F => 1
  | .S => 2

/-- A number below `n` as an index; a larger one wraps. -/
def ixN (n : Nat) (h : 0 < n) (k : Nat) : Fin n := ⟨k % n, Nat.mod_lt k h⟩

/-- A cell number (R62). -/
def cellIx (k : Nat) : Fin 32 := ixN 32 (by decide) k

/-- A bank number (R62). -/
def bankIx (b : Bool) : Fin 2 := if b then 1 else 0

/-- The CRC-free echo of a list of words to a count. -/
def padTo (n : Nat) (ws : List Word) : List Word := ws ++ List.replicate (n - ws.length) 0

end Sys2Proof.Machine
end

