-- ==== Sys2Proof/Machine/Flags.lean ====
section
/-! DEFINITION. The status words of the Hearth, the mailboxes, the host port and the start, each composed from
the state it reports, and the clearing of their W1C bits. -/

namespace Sys2Proof.Machine

/-! ### Codes -/

/-- HRTH_PWR (R579). -/
def powCode : Power → Nat
  | .off | .hearth => 0
  | .powerUp => 1
  | .standby => 2
  | .run => 3
  | .hearthSafe => 4
  | .runToStandby => 5
  | .standbyToHearth => 6

/-- The life-cycle as SYS_INFO codes it (R500). -/
def lcCode : LifeCycle → Nat
  | .blank => 0
  | .develop => 1
  | .production => 2
  | .returned => 3

/-- MBX_STATE (R466). -/
def mbxCode : MbxSt → Nat
  | .idle => 0
  | .rung => 1
  | .busy => 2
  | .done => 3

/-- PRODUCTION or RETURNED. -/
def lcFielded (s : State) : Bool :=
  match s.pow.lc with
  | .production | .returned => true
  | _ => false

/-! ### Registers -/

/-- HRTH_STATUS (R579). -/
def hrthStatus (s : State) : Word :=
  n2w (powCode s.pow.st) 28 ||| b2w s.pow.seqHive 27 ||| b2w s.pow.seqBel 26 |||
  b2w s.pow.seqHw[0] 25 ||| b2w s.pow.seqHw[1] 24 ||| b2w (s.stove.lock || s.stove.inEmber) 23 |||
  b2w s.pow.ianikRst 22 ||| b2w s.pow.bootCrit 21 ||| b2w s.pow.recovery 20 ||| b2w s.pow.wakePin 19 |||
  b2w (s.pow.rails.toList.all id) 18 ||| n2w (lcCode s.pow.lc) 16 ||| n2w s.pow.wakes.toNat 8

/-- HRTH_FAULT (R555). -/
def hrthFault (s : State) : Word :=
  n2w s.flt.step.toNat 28 ||| b2w s.flt.safe 27 ||| b2w s.flt.fetch 26 ||| b2w s.flt.wdog 25 |||
  b2w s.flt.wdog4 24 ||| b2w s.flt.vault 23 ||| b2w s.flt.xtal 22 ||| b2w s.flt.tick 21 |||
  b2w s.flt.supply 20 ||| b2w s.flt.tamper 19 ||| b2w s.flt.glitch 18 ||| b2w s.flt.xto 17 |||
  b2w s.flt.therm 16 ||| n2w s.flt.xsrc.toNat 11 ||| n2w s.flt.xdst.toNat 6

/-- Clear the W1C bits of HRTH_FAULT that `w` names (R7, R555). -/
def clearFault (w : Word) (f : FaultRec) : FaultRec :=
  { f with
    fetch := f.fetch && !w.getLsbD 26, wdog := f.wdog && !w.getLsbD 25, wdog4 := f.wdog4 && !w.getLsbD 24
    xtal := f.xtal && !w.getLsbD 22, tick := f.tick && !w.getLsbD 21, supply := f.supply && !w.getLsbD 20
    tamper := f.tamper && !w.getLsbD 19, glitch := f.glitch && !w.getLsbD 18, xto := f.xto && !w.getLsbD 17
    therm := f.therm && !w.getLsbD 16 }

/-- KEEPER reads low: a hold that an armed counter counts may be under way, so that the level is then a free value (R487,
R489, log entry 2). -/
def keeperPin (s : State) : Bool := if s.keeper.armed then (Config.freeLong s.fresh).getLsbD 0 else s.keeper.pin

/-- KEEPER_STATUS with `left` seconds left (R489). -/
def keeperStatus (left : Nat) (s : State) : Word :=
  b2w s.keeper.isOpen 31 ||| b2w (keeperPin s) 30 ||| b2w s.keeper.armed 29 ||| n2w s.keeper.len 16 |||
  n2w (if s.keeper.isOpen then left else 0) 0

/-- The whole seconds left in the open window: a free value up to the length it started from (R489, log
entry 2). -/
def keeperLeft (s : State) : Nat := (Config.freeWord s.fresh).toNat % (s.keeper.openLen + 1)

/-- MBXn_STAT (R466). -/
def mbxStat (b : Mbx) : Word :=
  n2w (mbxCode b.st) 30 ||| b2w b.ringLost 29 ||| b2w b.hearth 28 ||| n2w b.ver 24 ||| n2w b.status.toNat 16 |||
  n2w b.seqDone.toNat 8 ||| n2w b.seqRung.toNat 0

/-- RESET_CTL as it reads (R580). -/
def resetCtl (s : State) : Word := n2w s.pow.rstLast.toNat 4

/-- PSP1_STAT (R447): the error count in bits 31:24 and the flags in bits 7:0. -/
def psp1Stat (s : State) : Word := n2w s.host.errCnt 24 ||| n2w s.host.flags.toNat 0

/-- DPR_STAT (R400). -/
def dprStat (s : State) : Word :=
  b2w s.host.dprColl 31 ||| n2w s.host.dprCnt 16 ||| n2w s.host.dprAddr 2

/-- BOOT_ST_RESULT. -/
def bootResult (s : State) : Word :=
  n2w s.boot.fail.toNat 28 ||| b2w s.boot.done 9 ||| n2w s.boot.pass.toNat 0

/-- BOOT_SRC (R540). -/
def srcCode : BootSrc → Nat
  | .none => 0
  | .slotA => 1
  | .slotB => 2
  | .push => 3
  | .recovery => 4

/-- BOOT_STATUS (R540). -/
def bootStatus (s : State) : Word :=
  n2w (srcCode s.boot.src) 28 ||| n2w s.boot.step 24 ||| n2w (lcCode s.pow.lc) 22 ||| b2w s.boot.trial 21 |||
  b2w s.boot.fallback 20 ||| b2w s.boot.wait 19 ||| b2w s.boot.earlyDone 18 ||| b2w s.boot.fullDone 17 |||
  n2w s.boot.sel.toNat 14 ||| n2w s.boot.attempts 12 ||| n2w s.boot.reason.toNat 8 |||
  n2w s.boot.failBlock.toNat 0

/-- HRTH_PATROL_MARK, 64 bits (R414). -/
def patrolMark (s : State) : Nat :=
  s.hearth.pmPhase.toNat * 2 ^ 62 + (if s.hearth.pmMem then 2 ^ 61 else 0) + s.hearth.pmRegion * 2 ^ 48 +
    s.hearth.pmPass * 2 ^ 32 + s.hearth.pmCrc.toNat

/-- HOST_IRQ is driven low (R549). -/
def irqLow (s : State) : Bool := s.evt.pend &&& s.evt.mask != 0 && s.pow.st != .off

/-- The presence window is open for a command on mailbox `m`; MBX2 never has it (R484, R490). -/
def presence (m : Nat) (s : State) : Bool := s.keeper.isOpen && m != 2

end Sys2Proof.Machine
end

