-- ==== Sys2Proof/Machine/Mailbox.lean ====
section
/-! DEFINITION. The mailbox protocol: rings, sampling with the one order of refusals, responses and their
posting (R465 to R482). -/

namespace Sys2Proof.Machine

/-! ### Statuses -/

def stOk : Nat := 0x00
def stBusy : Nat := 0x01
def stBadOpcode : Nat := 0x02
def stBadArg : Nat := 0x03
def stStale : Nat := 0x04
def stPresence : Nat := 0x05
def stVersion : Nat := 0x06
def stState : Nat := 0x07
def stTimeout : Nat := 0x08
def stMedia : Nat := 0x09
def stAuth : Nat := 0x0A
def stDeferred : Nat := 0x0B
def stOverflow : Nat := 0x0C

/-- A mailbox command: its opcode, its minimum version, its refusals and its effect. A check answers true where
the command is refused for it; `act` gives the state, the status and the response payload (R471 to R474). -/
structure CmdDef where
  opcode : Nat
  minVer : Nat
  needs : Nat → Req → State → Bool := fun _ _ _ => false
  auth : Nat → Req → State → Bool := fun _ _ _ => false
  bad : Req → State → Bool
  stale : Req → State → Bool := fun _ _ => false
  wrong : Nat → Req → State → Bool := fun _ _ _ => false
  busy : Req → State → Bool := fun _ _ => false
  deferred : Bool := false
  refused : Nat → Req → State → State := fun _ _ s => s
  act : Nat → Req → State → State × Nat × List Word

/-- The version in force on mailbox `m` (R479). -/
def mbxVer (m : Fin 4) (s : State) : Nat := s.mbx[m].ver

/-- The ROM serves: it waits for a push or a recovery load (R537). -/
def romServing (s : State) : Bool := s.pow.st == .powerUp && s.boot.wait && !s.pow.ianikRst

/-- The commands the ROM serves: SYS_INFO, BOOT_INFO, BOOT_PUSH (R537). -/
def romKnows (op : Nat) : Bool := op == 0x0000 || op == 0x0B00 || op == 0x0B0A

/-- The first refusal in the order of R474; none: the command is accepted. -/
def refusal (d : CmdDef) (m : Fin 4) (r : Req) (s : State) : Option Nat :=
  if r.ver.toNat < 1 || mbxVer m s < r.ver.toNat || r.ver.toNat < d.minVer then some stVersion
  else if 480 < r.len.toNat then some stOverflow
  else if d.needs m r s && !presence m s then some stPresence
  else if d.auth m r s then some stAuth
  else if d.bad r s then some stBadArg
  else if d.stale r s then some stStale
  else if d.wrong m r s || (romServing s && !romKnows d.opcode) then some stState
  else if d.busy r s || (d.deferred && decide (16 ≤ s.ianik.deferred.length)) then some stBusy
  else none

/-- Change mailbox `m`. -/
def modMbx (m : Fin 4) (f : Mbx → Mbx) (s : State) : State := { s with mbx := vmod s.mbx m f }

/-- The response of a command sampled now, held until the strobe of S + 1 posts it (R467, R470, R473). -/
def answer (op : Nat) (m : Fin 4) (r : Req) (status : Nat) (payload : List Word) (hearth : Bool) (s : State) :
    State :=
  modMbx m (fun b => { b with
    st := .busy
    sampled := s.stove.frame
    quiet := r.flags.getLsbD 0
    fromHearth := hearth
    resp := some ⟨BitVec.ofNat 16 op, BitVec.ofNat 8 status, r.ver, r.tag, r.target, payload⟩ }) s

/-- Ianik reads the ring tail at a strobe, and keeps the last valid one (R477); with an uncorrectable error it reads 0
(R409). -/
def readTail (s : State) : State :=
  let (ok, s) := checkWord ⟨.mailboxRam, 0, 0, 0xF004 / 4⟩ s
  let t := if ok then (rdW s.ram 0xF004).toNat else 0
  if t ≤ 1019 then { s with evt := { s.evt with tail := t } } else s

/-- Sample a command on mailbox `m`: refuse it by the first status of R474, or act and answer. -/
def sample (d : CmdDef) (m : Fin 4) (r : Req) (s : State) : State :=
  match refusal d m r s with
  | some st => answer d.opcode m r st [] false (d.refused st r s)
  | none =>
    let (s', st, payload) := d.act m r s
    answer d.opcode m r st payload false s'

/-! ### Areas and rings -/

/-- Write a word of the mailbox RAM (R397, R407). -/
def ramWrite (a : Nat) (w : Word) (s : State) : State :=
  { healWord ⟨.mailboxRam, 0, 0, a / 4⟩ s with ram := wrW s.ram a w }

/-- Write consecutive words of the mailbox RAM. -/
def ramWrites (a : Nat) : List Word → State → State
  | [], s => s
  | w :: ws, s => ramWrites (a + 4) ws (ramWrite a w s)

/-- The command area of mailbox `m` (R464). -/
def cmdArea (m : Nat) : Nat := 0x400 * m

/-- The response area of mailbox `m` (R464). -/
def rspArea (m : Nat) : Nat := 0x400 * m + 0x200

/-- Words 0 to 2 and the payload of a command (R471). -/
def reqWords (op : Nat) (r : Req) : List Word :=
  [n2w op 16 ||| n2w r.flags.toNat 8 ||| n2w r.ver.toNat 0, n2w r.tag.toNat 16 ||| n2w r.len.toNat 0, r.target] ++
    r.payload.take 125

/-- PSP1 serves the window: from the end of power-up step 3 to the reset of its island (R573), and the mailbox RAM is
powered (R397). -/
def mbxReach (s : State) : Bool :=
  match s.pow.st with
  | .powerUp => decide (4 ≤ s.boot.step)
  | .standby | .run | .runToStandby | .hearthSafe | .standbyToHearth => true
  | .off | .hearth => false

/-- A host write of a word of the mailbox RAM; before BOOT_STEP reads 6 it is not kept (R507). -/
def hostRam (a : Nat) (w : Word) (s : State) : State :=
  if (s.pow.st = .powerUp ∧ s.boot.step < 6) ∨ a / 4 * 4 = 0xF00C then s else ramWrite a w s

/-- Host writes of consecutive words. -/
def hostRams (a : Nat) : List Word → State → State
  | [], s => s
  | w :: ws, s => hostRams (a + 4) ws (hostRam a w s)

/-- Mailbox `m` is sampled: Ianik's firmware serves, the firmware applies its own configuration on MBX3 in
power-up, or the ROM serves the mailbox of its source, with the mailbox RAM tested, and no fetch miss stalls Ianik (R435,
R486, R507, R537). -/
def mbxServed (m : Fin 4) (s : State) : Bool :=
  s.p0.stalled.isNone && (ianikRuns s ||
  (s.pow.st == .powerUp && !s.pow.ianikRst && decide (6 ≤ s.boot.step) &&
    (if s.boot.wait then (if s.boot.src == .recovery then m == 1 else m == 0) else m == 3)))

/-- A doorbell write that is ignored sets MBX_RING_LOST (R468). -/
def ringLost (m : Fin 4) (s : State) : State := modMbx m (fun b => { b with ringLost := true }) s

/-- An accepted ring (R467). -/
def ringMbx (m : Fin 4) (seq : Byte) (s : State) : State :=
  modMbx m (fun b => { b with st := .rung, seqRung := seq }) s

/-- Does the mailbox accept a ring (R467, R468)? -/
def mbxFree (m : Fin 4) (s : State) : Bool := s.mbx[m].st == .idle || s.mbx[m].st == .done

/-- A mailbox command as one step: its user writes it into the command area and rings with the number that
MBX_SEQ_RUNG shows, and the doorbell strobe of this frame samples it (DESIGN CHOICE, log entry 1). Where nobody
serves the mailbox it stays RUNG; where the mailbox is RUNG or BUSY the ring is lost. -/
def mbxCommand (d : CmdDef) (m : Fin 4) (r : Req) (s : State) : State :=
  if !mbxReach s then s
  else if !mbxFree m s then ringLost m s
  else
    let s := ringMbx m s.mbx[m].seqRung (hostRams (cmdArea m) (reqWords d.opcode r) s)
    if mbxServed m s then sample d m r (readTail s) else s

/-! ### Reading a rung command -/

/-- Words of the mailbox RAM as Ianik reads them: one with an uncorrectable error reads 0 (R409). -/
def ramReads (a n : Nat) (s : State) : List Word :=
  let bad := s.care.upsets.filter (fun u => u.double && u.word.cls == .mailboxRam)
  if bad.isEmpty then rdWs s.ram a n
  else (List.range n).map (fun i => if bad.any (fun u => decide (u.word.addr = a / 4 + i)) then 0 else rdW s.ram (a + 4 * i))

/-- The command in the command area of mailbox `m`: its opcode and the rest (R471). -/
def readReq (m : Nat) (s : State) : Nat × Req :=
  let ws := ramReads (cmdArea m) 123 s
  let w0 := ws.getD 0 0
  let w1 := ws.getD 1 0
  (fld w0 16 16,
    { ver := w0.extractLsb' 0 8, flags := w0.extractLsb' 8 8, tag := w1.extractLsb' 16 16
      len := w1.extractLsb' 0 16, target := ws.getD 2 0
      payload := ws.drop 3 })

/-- An uncorrectable error stands in one of the words Ianik reads of a command (R409). -/
def cmdSpoiled (m : Nat) (r : Req) (s : State) : Bool :=
  s.care.upsets.any (fun u => u.double && u.word.cls == .mailboxRam &&
    decide (cmdArea m / 4 ≤ u.word.addr) && decide (u.word.addr < cmdArea m / 4 + 3 + min (nWords r) 120))

/-- An uncorrectable error stands in the word of the mailbox RAM at byte address `a` (R409). -/
def wordBad (a : Nat) (s : State) : Bool :=
  s.care.upsets.any (fun u => u.double && u.word.cls == .mailboxRam && decide (u.word.addr = a / 4))

/-- The command on a mailbox that has bytes past its area or an error in its words: OVERFLOW and BAD_ARG at their places
in the order of R474 (R409, R485). -/
def cutRefusal (d : CmdDef) (m : Fin 4) (r : Req) (spoiled ovr : Bool) (s : State) : Option Nat :=
  match refusal d m r s with
  | some st =>
    if st = stVersion then some st
    else if ovr then some stOverflow
    else if spoiled && st != stOverflow && st != stPresence && st != stAuth then some stBadArg
    else some st
  | none => if ovr then some stOverflow else if spoiled then some stBadArg else none

/-- Every error in the words that are read of a command is counted, and an uncorrectable one logged (R408, R409). -/
def cmdErrs (m : Nat) (r : Req) (s : State) : State :=
  (s.care.upsets.filter (fun u => u.word.cls == .mailboxRam && decide (cmdArea m / 4 ≤ u.word.addr) &&
    decide (u.word.addr < cmdArea m / 4 + 3 + min (nWords r) 120))).foldl (fun s u => (checkWord u.word s).2) s

/-- An uncorrectable error stands in one of `n` words of the bulk area from word `first` (R409). -/
def bulkSpoiled (first n : Nat) (s : State) : Bool :=
  s.care.upsets.any (fun u => u.double && u.word.cls == .mailboxRam &&
    decide (bulkAddr first / 4 ≤ u.word.addr) && decide (u.word.addr < bulkAddr first / 4 + n))

/-- Ianik reads a bulk range: every error in it is counted, and an uncorrectable one logged (R408, R409). -/
def bulkErrs (first n : Nat) (s : State) : State :=
  (s.care.upsets.filter (fun u => u.word.cls == .mailboxRam && decide (bulkAddr first / 4 ≤ u.word.addr) &&
    decide (u.word.addr < bulkAddr first / 4 + n))).foldl (fun s u => (checkWord u.word s).2) s

/-- A bulk command refused for an uncorrectable error in its range: the error is counted and logged (R409). -/
def bulkRefused (first n : Nat) (st : Nat) (s : State) : State :=
  if st = stBadArg ∧ bulkSpoiled first n s = true then bulkErrs first n s else s

/-- The words of a bulk range (R482). -/
def bulkWords (first n : Nat) (s : State) : List Word := rdWs s.ram (bulkAddr first) n

/-- The Hearth, or Ianik after a reset, answers the command of a mailbox with a status of its own; a COMB_COMMIT or
COMB_MAP_SET raises EV15 (R165, R483, R492, R493). -/
def mbxFails (m : Fin 4) (st : Nat) (s : State) : State :=
  let q := readReq m s
  answer q.1 m q.2 st [] true (if q.1 = 0x0201 ∨ q.1 = 0x0205 then raiseFrom 5 15 (n2w q.1 16 ||| n2w st 8) s else s)

/-! ### Posting -/

/-- The words of a response (R473). -/
def rspWords (p : Response) : List Word :=
  [n2w p.opcode.toNat 16 ||| n2w p.status.toNat 8 ||| n2w p.ver.toNat 0,
    n2w p.tag.toNat 16 ||| n2w (4 * p.payload.length) 0, p.target] ++ p.payload

/-- Post the response of mailbox `m`: its words, then DONE with the status and the sequence number in one
change, the version a SYS_HELLO granted, and EV0 + m unless QUIET (R467, R470, R481, R482). -/
def post (m : Fin 4) (s : State) : State :=
  match s.mbx[m].resp with
  | none => s
  | some p =>
    let b := s.mbx[m]
    let quiet := b.quiet
    let s := ramWrites (rspArea m) (rspWords p) s
    let s := modMbx m (fun b => { b with
      st := .done, status := p.status, seqDone := b.seqRung, hearth := b.fromHearth
      ver := b.grant.getD b.ver, grant := none, bulk := none, resp := none }) s
    let d := n2w p.tag.toNat 16 ||| n2w p.status.toNat 8
    if quiet then s else if b.fromHearth then raiseFrom 5 m d s else raise m d s

/-- Does the strobe of this frame post the response of mailbox `m`: is it one M frame old (R470)? -/
def postDue (m : Fin 4) (s : State) : Bool :=
  s.mbx[m].st == .busy && s.mbx[m].resp.isSome && (s.mbx[m].sampled != s.stove.frame || !s.stove.valid)

end Sys2Proof.Machine
end

