-- ==== Sys2Proof/Machine/Cells.lean ====
section
/-! DEFINITION. Hive cells: roles and epochs, the message queue, coefficient writes, swaps, glides, faults and
the 0x01xx commands (R62 to R109, R602). -/

namespace Sys2Proof.Machine

/-! ### Domains and windows -/

/-- The cell window's length of a domain at the ratios in force (R65). -/
def winLen (d : Dom) (m dv : Nat) : Nat :=
  match d with
  | .M => 29440
  | .F => 32000 / m - 640
  | .S => 32000 * dv - 1152

/-- A program of length `len` passes the window of a domain at some rates in force in M frame `e` or after it (R65; DEDUCED,
log entry 62). -/
def winShort (d : Dom) (len e : Nat) (s : State) : Bool :=
  (ratesFrom e s).any (fun x => decide (winLen d x.1 x.2 < len))

/-- The domain of a cell; none: no role. -/
def cellDom (y : Cell) : Option Dom := y.role.map (·.dom)

/-- A cell that is in the S domain, or moves into it or out of it by an accepted role change (R102). -/
def touchesS (y : Cell) : Bool :=
  cellDom y == some .S ||
    match y.pendRole with
    | some rc => rc.role.map (·.dom) == some .S
    | none => false

/-- A cell is sealed while an active bank has its sealed flag set ("Sealed cells"). -/
def cellSealed (y : Cell) : Bool :=
  y.role.isSome && (y.mem.pmeta[y.actP].isSealed || y.mem.cmeta[y.actC].isSealed)

/-- The role and the active banks that a command's epoch names: as they stand, or as the pending role change
leaves them (R82, R84). -/
def roleView (y : Cell) (ep : Byte) : Option Role × Fin 2 × Fin 2 :=
  match y.pendRole with
  | some rc => if ep = rc.epoch ∧ ep ≠ y.epoch then (rc.role, rc.p, rc.c) else (y.role, y.actP, y.actC)
  | none => (y.role, y.actP, y.actC)

/-! ### Target -/

/-- The cell a target word names. -/
def tgtCell (r : Req) : Fin 32 := cellIx (fld r.target 0 5)

/-- The epoch a target word expects. -/
def tgtEpoch (r : Req) : Byte := r.target.extractLsb' 8 8

/-- The cell of a target word and the state. -/
def tgt (r : Req) (s : State) : Cell := cellAt s (tgtCell r)

/-- Reserved bits of the target word. -/
def badCellTarget (r : Req) : Bool := rsvd r.target 0xFF1F

/-- An epoch that is neither the cell's nor that of its accepted role change (R82). -/
def staleEpoch (y : Cell) (ep : Byte) : Bool :=
  ep != y.epoch && match y.pendRole with
    | some rc => ep != rc.epoch
    | none => true

/-- The stale check of a command with a cell target (R82). -/
def staleTarget (r : Req) (s : State) : Bool := staleEpoch (tgt r s) (tgtEpoch r)

/-- A refusal with STALE_ROLE raises EV11 with the cell and the opcode (R82, R550). -/
def staleRefused (op : Nat) (st : Nat) (r : Req) (s : State) : State :=
  raiseIf (st == stStale) 11 (n2w op 16 ||| n2w (fld r.target 0 5) 0) s

/-- Every 0x01xx command is refused while the Hive sequencer is held (R602). -/
def hiveHeld (s : State) : Bool := !s.pow.seqHive

/-- A TUNE_LOAD is outstanding (R536). -/
def tuneBusy (s : State) : Bool :=
  (s.boot.job.toList ++ s.boot.jobs).any (·.cell.isNone)

/-! ### Queue -/

/-- The queue entries of cell `c`, waiting or on their way (R77, R78). -/
def queueDepth (c : Fin 32) (s : State) : Nat :=
  ((cellAt s c).queue.map (·.entries)).sum +
    (((s.hive.transit ++ s.ianik.stalled).filter (fun e => e.cell = c)).map (·.entries)).sum

/-- The queue of cell `c` has no room for `n` entries (R78). -/
def queueFull (c : Fin 32) (n : Nat) (s : State) : Bool := decide (16 < queueDepth c s + n)

/-- The 128-bit units a message takes in the Ianik to Hive queue: its data words, at least one unit (R51; DESIGN CHOICE,
log entry 63). -/
def msgUnits (e : QEntry) : Nat :=
  match e.msg with
  | .prog _ _ ws => max 1 ((ws.length + 3) / 4)
  | .progMeta _ _ _ _ => 9
  | .coef _ _ _ _ ws => max 1 ((ws.length + 3) / 4)
  | _ => 1

/-- The units of the Ianik to Hive queue in use (R51). -/
def transitUnits (s : State) : Nat := (s.hive.transit.map msgUnits).sum

/-- A message leaves Ianik for a cell's queue; it stalls at Ianik while the Ianik to Hive queue has no credit for it or
an older message stalls (R51, R77). -/
def sendCell (e : QEntry) (s : State) : State :=
  if s.ianik.stalled.isEmpty && decide (transitUnits s + msgUnits e ≤ 32) then
    { s with hive := { s.hive with transit := s.hive.transit ++ [e] } }
  else { s with ianik := { s.ianik with stalled := s.ianik.stalled ++ [e] } }

/-- Stalled messages enter the queue, oldest first, as far as there is credit (R51). -/
def refill : Nat → State → State
  | 0, s => s
  | n + 1, s =>
    match s.ianik.stalled with
    | [] => s
    | e :: r =>
      if transitUnits s + msgUnits e ≤ 32 then
        refill n { s with
          hive := { s.hive with transit := s.hive.transit ++ [e] }, ianik := { s.ianik with stalled := r } }
      else s

/-- Messages accepted for cell `c` and not yet applied, in the order in which they were sent. -/
def cellEntries (c : Fin 32) (s : State) : List QEntry :=
  (cellAt s c).queue ++ (s.hive.transit ++ s.ianik.stalled).filter (fun e => e.cell = c)

/-- A cell's role, active program bank and active coefficient bank. -/
abbrev CellView := Option Role × Fin 2 × Fin 2

/-- What an accepted change makes of a cell's role and banks: a role change sets them, a swap takes the other program bank,
coefficient bank or both. An entry of the queue needs the cell's epoch to be its own, a staged commit does not (R80, R81). -/
inductive ProgStep where
  | takes (need : Option Byte) (v : CellView)
  | swaps (need : Option Byte) (p c : Bool)
  deriving DecidableEq, Repr

/-- The epoch that a step needs. -/
def ProgStep.need : ProgStep → Option Byte
  | .takes n _ => n
  | .swaps n _ _ => n

/-- The cell's epoch after a step (R72). -/
def epochAfter (ep : Byte) : ProgStep → Byte
  | .takes _ _ => ep + 1
  | .swaps _ _ _ => ep

/-- The view after a step. -/
def viewAfter (v : CellView) : ProgStep → CellView
  | .takes _ t => t
  | .swaps _ p c => (v.1, if p then v.2.1 + 1 else v.2.1, if c then v.2.2 + 1 else v.2.2)

/-- The step that an entry of the queue stands for, by twice its frame, one more for a swap (R79). -/
def entryStep (q : QEntry) : Option (Nat × ProgStep) :=
  match q.frame, q.msg with
  | some f, .role rc => some (2 * f, .takes (some q.epoch) (rc.role, rc.p, rc.c))
  | some f, .swap p c _ => some (2 * f + 1, .swaps (some q.epoch) p c)
  | _, _ => none

/-- The step that a staged commit of a tuning stands for in cell `c` (R533). -/
def stagedStep (c : Fin 32) (x : Stamped) : Option (Nat × ProgStep) :=
  match x.chg with
  | .tune _ roles swaps =>
    match roles.find? (fun r => r.1 = c) with
    | some r => some (2 * x.frame, .takes none (r.2.role, r.2.p, r.2.c))
    | none => if swaps.contains c then some (2 * x.frame + 1, .swaps none true true) else none
  | _ => none

/-- The views that the steps lead to from an epoch and a view, each with its frame; a step whose epoch has passed changes
nothing (R80, R81). -/
def stepViews : Byte → CellView → List (Nat × ProgStep) → List (Nat × CellView)
  | _, _, [] => []
  | ep, v, (k, st) :: r =>
    if st.need.getD ep = ep then (k / 2, viewAfter v st) :: stepViews (epochAfter ep st) (viewAfter v st) r
    else stepViews ep v r

/-- The roles and active banks that accepted changes will give cell `c`, in the order of their frames (R84, R108, R403). -/
def progViews (c : Fin 32) (s : State) : List (Nat × CellView) :=
  stepViews (cellAt s c).epoch ((cellAt s c).role, (cellAt s c).actP, (cellAt s c).actC)
    (byFrame (·.1) ((cellEntries c s).filterMap entryStep ++ s.ianik.staged.filterMap (stagedStep c)))

/-- A pending role change, swap or commit group makes program bank `b` active (R84). -/
def progBankComing (c : Fin 32) (b : Fin 2) (s : State) : Bool :=
  (progViews c s).any (fun v => v.2.1.isSome && v.2.2.1 == b)

/-- A block of a cell is ON, by its index of R421. -/
def cellBlk (y : Cell) (b : Nat) : Bool := vgetD y.mem.pow b .off == .on

/-! ### Descriptor reach -/

/-- Does a descriptor's buffer reach the block of data RAM or Store of `size` words that starts at `lo`
(R403)? -/
def dReach (d : BitVec 64) (space lo size : Nat) : Bool :=
  fld d 62 2 == space && decide (fld d 0 21 < lo + size) && decide (lo < fld d 0 21 + fld d 21 21 + 1)

/-- A descriptor set reaches a block that is not ON (R404). -/
def dOff (y : Cell) (ds : Vector (BitVec 64) 16) (s : State) : Bool :=
  ds.toList.any (fun d =>
    (List.range 4).any (fun q => dReach d 0 (q * 16384) 16384 && !cellBlk y (4 + q)) ||
    (List.range 16).any (fun k => dReach d 2 (k * 131072) 131072 && vgetD s.hive.storePow k .off != .on))

/-- Banks that may not become active: not ON, or their descriptors reach a block that is not ON (R404). -/
def banksOff (y : Cell) (p c : Option (Fin 2)) (s : State) : Bool :=
  (match p with
    | some b => !cellBlk y b || dOff y y.mem.pmeta[b].desc s
    | none => false) ||
  (match c with
    | some b => !cellBlk y (2 + b)
    | none => false)

/-! ### Status words -/

/-- HIVE_FLT_ACTION (R100). -/
def actCode : OutAct → Nat
  | .live => 0
  | .fading _ => 1
  | .muted => 2
  | .fadingIn _ => 3

/-- HIVE_CELL_FAULT (R100). -/
def cellFaultWord (y : Cell) : Word :=
  n2w (actCode y.stat.act) 30 ||| n2w y.stat.firstPc 12 ||| n2w y.stat.flt.toNat 0

/-- HIVE_CELL_QSTAT (R101). -/
def cellQstat (y : Cell) : Word :=
  n2w y.stat.flushed 16 ||| n2w y.stat.stale 8 ||| n2w (min 31 (y.queue.map (·.entries)).sum) 0

/-- The spark screen status word (R169). -/
def sparkWord (y : Cell) : Word :=
  n2w y.stat.spkCount 24 ||| n2w y.stat.spkClamp.toNat 8 ||| n2w y.stat.spkNonfin.toNat 0

/-- The code of a fault action (R105). -/
def policyCode : FaultAct → Nat
  | .report => 0
  | .fade => 1
  | .zero => 2

/-- The fault action of a code. -/
def policyOf : Nat → FaultAct
  | 0 => .report
  | 1 => .fade
  | _ => .zero

/-- A role as CELL_ROLE_SET word 3 bits 4:0 lay it out (R105). -/
def roleWord (r : Option Role) : Word :=
  match r with
  | some x => n2w (domNo x.dom) 0 ||| n2w x.slot 2
  | none => 3

/-! ### CELL_INFO, CELL_STATUS -/

/-- The response of CELL_INFO (R106). -/
def cellInfoWords (y : Cell) : List Word :=
  [roleWord y.role, n2w y.epoch.toNat 0,
    (if y.role.isSome then n2w y.actP 6 ||| n2w y.actC 7 else bit 31),
    n2w y.mem.pmeta[0].image.toNat 0, n2w y.mem.pmeta[0].len 0, b2w y.mem.pmeta[0].isSealed 0,
    n2w y.mem.pmeta[1].image.toNat 0, n2w y.mem.pmeta[1].len 0, b2w y.mem.pmeta[1].isSealed 0,
    n2w y.mem.cmeta[0].image.toNat 0, 0, b2w y.mem.cmeta[0].isSealed 0,
    n2w y.mem.cmeta[1].image.toNat 0, 0, b2w y.mem.cmeta[1].isSealed 0,
    n2w (policyCode y.stat.policy) 0]

/-- CELL_INFO (R103, R106). -/
def cellInfoDef : CmdDef :=
  { opcode := 0x0100, minVer := 1
    bad := fun r _ => badForm 0 r || badCellTarget r
    stale := staleTarget, refused := staleRefused 0x0100
    wrong := fun _ _ s => hiveHeld s
    act := fun _ r s => (s, stOk, cellInfoWords (tgt r s)) }

/-- CELL_STATUS (R103, R106). -/
def cellStatusDef : CmdDef :=
  { opcode := 0x0108, minVer := 1
    bad := fun r _ => badForm 0 r || badCellTarget r
    stale := staleTarget, refused := staleRefused 0x0108
    wrong := fun _ _ s => hiveHeld s
    act := fun _ r s => (s, stOk, [cellFaultWord (tgt r s), cellQstat (tgt r s), sparkWord (tgt r s)]) }

/-! ### CELL_ROLE_SET -/

/-- The role that word 3 asks for (R105). -/
def askedRole (r : Req) : Option Role :=
  match argF r 3 0 2 with
  | 0 => some ⟨.M, 0⟩
  | 1 => some ⟨.F, argF r 3 2 3⟩
  | 2 => some ⟨.S, argF r 3 2 3⟩
  | _ => none

/-- The old or the new domain is S (R73, R102). -/
def roleSetS (r : Req) (s : State) : Bool := touchesS (tgt r s) || (askedRole r).map (·.dom) == some .S

/-- The roles that cell `k` holds, or will hold by a role change or a commit accepted (R107). -/
def rolesOf (k : Fin 32) (s : State) : List Role :=
  (cellAt s k).role.toList ++ (progViews k s).filterMap (·.2.1)

/-- The roles of domain `d` that cells other than `c` hold, or will hold (R107). -/
def holders (d : Dom) (c : Fin 32) (s : State) : List Role :=
  ((List.finRange 32).filter (· ≠ c)).flatMap (fun k => (rolesOf k s).filter (fun r => r.dom = d))

/-- The cells that hold domain `d`, or will, counted once each (R107). -/
def holderCount (d : Dom) (s : State) : Nat :=
  ((List.finRange 32).filter (fun k => (rolesOf k s).any (fun r => r.dom = d))).length

/-- CELL_ROLE_SET refused with BAD_ARG (R65, R102, R105, R107). The windows are those of the rates in force from E on, as an
accepted rate change leaves them (DEDUCED, log entry 62). -/
def roleSetBad (r : Req) (s : State) : Bool :=
  let y := tgt r s
  let p := y.mem.pmeta[bankIx (argB r 3 6)]
  badForm 3 r || badCellTarget r || rsvd (arg r 3) 0xFFFF00FF ||
  (argF r 3 2 3 != 0 && (argF r 3 0 2 == 0 || argF r 3 0 2 == 3)) ||
  badES (roleSetS r s) (arg64 r 4) s ||
  p.image.toNat != argF r 3 16 16 ||
  (match askedRole r with
    | some x => winShort x.dom p.len (useES (roleSetS r s) (arg64 r 4) s) s ||
        y.mem.cmeta[bankIx (argB r 3 7)].image == 0
    | none => false)

/-- CELL_ROLE_SET refused with STATE (R82, R94, R107, R404, R536). -/
def roleSetWrong (r : Req) (s : State) : Bool :=
  let c := tgtCell r
  let y := tgt r s
  hiveHeld s || tuneBusy s || y.pendRole.isSome || y.clearing ||
  hiveBars (useES (roleSetS r s) (arg64 r 4) s) s || (cellSealed y && (askedRole r).isSome) ||
  (match askedRole r with
    | some x =>
      (x.dom != .M && (decide (8 ≤ holderCount x.dom s) || (holders x.dom c s).any (fun h => h.slot = x.slot))) ||
      banksOff y (some (bankIx (argB r 3 6))) (some (bankIx (argB r 3 7))) s
    | none => false)

/-- CELL_ROLE_SET's effect: the role change is accepted and sent, stamped E (R72, R73, R106). -/
def roleSetAct (m : Nat) (r : Req) (s : State) : State × Nat × List Word :=
  let c := tgtCell r
  let y := tgt r s
  let e := useES (roleSetS r s) (arg64 r 4) s
  let rc : RoleChange := ⟨askedRole r, argB r 3 5, bankIx (argB r 3 6), bankIx (argB r 3 7), y.epoch + 1, e⟩
  let s := modCell c (fun z => { z with pendRole := some rc }) s
  (sendCell ⟨c, y.epoch, some e, 1, m, s.stove.frame, .role rc⟩ s, stOk, n2w rc.epoch.toNat 0 :: pair64 e)

/-- CELL_ROLE_SET (R73, R103). -/
def cellRoleSetDef : CmdDef :=
  { opcode := 0x0101, minVer := 2
    bad := roleSetBad, stale := staleTarget, refused := staleRefused 0x0101
    wrong := fun _ r s => roleSetWrong r s
    busy := fun r s => queueFull (tgtCell r) 1 s
    act := roleSetAct }

/-! ### Program writes -/

/-- A program bank that may not be written now (R84, R88, R93, R104, R404). A cell that clears after a sealed role refuses
the write too (DESIGN CHOICE, log entry 61). -/
def progWrong (r : Req) (s : State) : Bool :=
  let y := tgt r s
  let b := bankIx (argB r 3 0)
  hiveHeld s || lcFielded s || (y.role.isSome && y.actP == b) || tgtEpoch r != y.epoch ||
  progBankComing (tgtCell r) b s || (cellSealed y && y.mem.pmeta[b].isSealed) || y.clearing || !cellBlk y b

/-- CELL_PROG_WRITE (R88, R103, R105). -/
def cellProgWriteDef : CmdDef :=
  { opcode := 0x0102, minVer := 1
    bad := fun r _ => badForm (1 + 4 * argF r 3 8 8) r || badCellTarget r || rsvd (arg r 3) 0x0FFFFF01 ||
      argF r 3 8 8 == 0 || decide (28 < argF r 3 8 8) || decide (4096 < argF r 3 16 12 + argF r 3 8 8)
    stale := staleTarget, refused := staleRefused 0x0102
    wrong := fun _ r s => progWrong r s
    busy := fun r s => queueFull (tgtCell r) ((argF r 3 8 8 + 3) / 4) s
    act := fun m r s =>
      let n := argF r 3 8 8
      (sendCell ⟨tgtCell r, tgtEpoch r, none, (n + 3) / 4, m, s.stove.frame,
        .prog (bankIx (argB r 3 0)) (argF r 3 16 12) (args r 4 (4 * n))⟩ s, stOk, []) }

/-- The 16 descriptors of CELL_PROG_META (R105). -/
def metaDescs (r : Req) : List (BitVec 64) := (List.range 16).map (fun j => BitVec.ofNat 64 (arg64 r (6 + 2 * j)))

/-- A descriptor that breaks the limits of its space, or sets a reserved bit (R117, R118). -/
def badDesc (d : BitVec 64) : Bool :=
  let base := fld d 0 21
  let len := fld d 21 21 + 1
  fld d 58 3 != 0 ||
  match fld d 62 2 with
  | 0 => decide (65536 < base + len) || len % 8 != 0
  | 1 => decide (32768 < base + len) || len % 8 != 0 || !d.getLsbD 61
  | 2 => decide (2097152 < base + len) || len % 64 != 0
  | _ => false

/-- CELL_PROG_META (R63, R103, R105, R118). -/
def cellProgMetaDef : CmdDef :=
  { opcode := 0x0103, minVer := 1
    bad := fun r _ => badForm 35 r || badCellTarget r || rsvd (arg r 3) 1 || rsvd (arg r 4) 0xFFFF ||
      rsvd (arg r 5) 0x3FFFF || argF r 5 0 18 == 0 || decide (190848 < argF r 5 0 18) || (metaDescs r).any badDesc
    stale := staleTarget, refused := staleRefused 0x0103
    wrong := fun _ r s => progWrong r s
    busy := fun r s => queueFull (tgtCell r) 3 s
    act := fun m r s =>
      (sendCell ⟨tgtCell r, tgtEpoch r, none, 3, m, s.stove.frame,
        .progMeta (bankIx (argB r 3 0)) (BitVec.ofNat 16 (argF r 4 0 16)) (argF r 5 0 18) (metaDescs r)⟩ s,
        stOk, []) }

/-! ### CELL_COEF_WRITE -/

/-- E of CELL_COEF_WRITE: bits 31:0 from word 4, bits 63:32 from S; 0 asks for the earliest (R105). -/
def coefE (r : Req) (s : State) : Nat :=
  if arg r 4 = 0 then 0 else s.stove.frame / 2 ^ 32 * 2 ^ 32 + (arg r 4).toNat

/-- The command carries the epoch of the pending role change (R84). -/
def carriesPending (y : Cell) (ep : Byte) : Option RoleChange :=
  match y.pendRole with
  | some rc => if ep = rc.epoch ∧ ep ≠ y.epoch then some rc else none
  | none => none

/-- Is the write one to a bank that is active, or that the pending role change makes active (R83, R84)? -/
def coefActive (r : Req) (s : State) : Bool :=
  let v := roleView (tgt r s) (tgtEpoch r)
  v.1.isSome && v.2.2 == bankIx (argB r 3 0)

/-- The effect frame a coefficient write takes if it is stamped (R83, R84). -/
def coefFrame (r : Req) (s : State) : Nat :=
  let y := tgt r s
  match carriesPending y (tgtEpoch r) with
  | some rc =>
    if coefActive r s then (if coefE r s = 0 then max (useES (touchesS y) 0 s) rc.frame else coefE r s) else rc.frame
  | none => useES (touchesS y) (coefE r s) s

/-- The stamp of a coefficient write as the banks stand when it is sampled; none: applied on arrival (R83, R84). -/
def coefStamp (r : Req) (s : State) : Option Nat :=
  if (carriesPending (tgt r s) (tgtEpoch r)).isSome || coefActive r s then some (coefFrame r s) else none

/-- CELL_COEF_WRITE refused with BAD_ARG (R84, R85, R93, R102, R105). -/
def coefBad (r : Req) (s : State) : Bool :=
  let y := tgt r s
  let n := argF r 3 8 7
  let a := argF r 3 16 15
  let b := y.mem.cmeta[bankIx (argB r 3 0)]
  badForm (3 + n) r || badCellTarget r || rsvd (arg r 3) 0x7FFF7F03 || rsvd (arg r 5) 0xFFFF ||
  n == 0 || decide (112 < n) || decide (32768 < a + n) ||
  (b.isSealed && !(decide (b.winStart ≤ a) && decide (a + n ≤ b.winStart + b.winLen))) ||
  badES (touchesS y) (coefE r s) s ||
  (coefActive r s && match carriesPending y (tgtEpoch r) with
    | some rc => coefE r s != 0 && decide (coefE r s < rc.frame)
    | none => false)

/-- CELL_COEF_WRITE (R83 to R85, R103, R105, R106). With the cell's current epoch it is judged once more against the banks
when it arrives; a cell that clears after a sealed role refuses it (DESIGN CHOICE, log entry 61). -/
def cellCoefWriteDef : CmdDef :=
  { opcode := 0x0104, minVer := 1
    bad := coefBad, stale := staleTarget, refused := staleRefused 0x0104
    wrong := fun _ r s => hiveHeld s || (tgt r s).clearing || !cellBlk (tgt r s) (2 + bankIx (argB r 3 0)) ||
      (match coefStamp r s with
        | some e => hiveBars e s
        | none => false)
    busy := fun r s => queueFull (tgtCell r) ((argF r 3 8 7 + 15) / 16) s
    act := fun m r s =>
      let n := argF r 3 8 7
      let e := coefStamp r s
      let judge := (carriesPending (tgt r s) (tgtEpoch r)).isNone
      (sendCell ⟨tgtCell r, tgtEpoch r, some (coefFrame r s), (n + 15) / 16, m, s.stove.frame,
        .coef judge (bankIx (argB r 3 0)) (if argB r 3 1 then some (BitVec.ofNat 16 (argF r 5 0 16)) else none)
          (argF r 3 16 15) (args r 6 n)⟩ s, stOk, pair64 (e.getD 0)) }

/-! ### Swaps, glides, groups -/

/-- A swap at frame `e` that R87 refuses with BAD_ARG: a program bank with too long an L or no image, a coefficient bank
with no image. Where another swap of the cell is pending, the banks still count as they stand at the sampling (DESIGN
CHOICE, log entry 61); the windows are those of the rates in force from `e` on (DEDUCED, log entry 62). -/
def swapBad (y : Cell) (ep : Byte) (p c : Bool) (e : Nat) (s : State) : Bool :=
  let v := roleView y ep
  let np := y.mem.pmeta[v.2.1 + 1]
  let nc := y.mem.cmeta[v.2.2 + 1]
  match v.1 with
  | none => false
  | some x =>
    (p && (np.image == 0 || winShort x.dom np.len e s)) || (c && nc.image == 0)

/-- A swap refused with STATE: no role, a sealed bank beside an unsealed one, a bank or block that is not ON
(R87, R95, R404). -/
def swapWrong (y : Cell) (ep : Byte) (p c : Bool) (s : State) : Bool :=
  let v := roleView y ep
  let np := if p then v.2.1 + 1 else v.2.1
  let nc := if c then v.2.2 + 1 else v.2.2
  v.1.isNone || y.mem.pmeta[np].isSealed != y.mem.cmeta[nc].isSealed ||
  banksOff y (if p then some np else none) (if c then some nc else none) s

/-- CELL_BANK_SWAP (R86, R87, R103, R105). -/
def cellBankSwapDef : CmdDef :=
  { opcode := 0x0105, minVer := 1
    bad := fun r s => badForm 3 r || badCellTarget r || rsvd (arg r 3) 3 || arg r 3 == 0 ||
      badES (touchesS (tgt r s)) (arg64 r 4) s || swapBad (tgt r s) (tgtEpoch r) (argB r 3 0) (argB r 3 1)
        (useES (touchesS (tgt r s)) (arg64 r 4) s) s
    stale := staleTarget, refused := staleRefused 0x0105
    wrong := fun _ r s => hiveHeld s || tuneBusy s || (tgt r s).clearing ||
      hiveBars (useES (touchesS (tgt r s)) (arg64 r 4) s) s ||
      swapWrong (tgt r s) (tgtEpoch r) (argB r 3 0) (argB r 3 1) s
    busy := fun r s => queueFull (tgtCell r) 1 s
    act := fun m r s =>
      let e := useES (touchesS (tgt r s)) (arg64 r 4) s
      (sendCell ⟨tgtCell r, tgtEpoch r, some e, 1, m, s.stove.frame, .swap (argB r 3 0) (argB r 3 1) none⟩ s,
        stOk, pair64 e) }

/-- CELL_GLIDE_SET (R89, R103, R105). -/
def cellGlideSetDef : CmdDef :=
  { opcode := 0x0106, minVer := 2
    bad := fun r s => badForm 4 r || badCellTarget r || rsvd (arg r 3) 0xFFFF000F ||
      badES (touchesS (tgt r s)) (arg64 r 5) s
    stale := staleTarget, refused := staleRefused 0x0106
    wrong := fun _ r s => hiveHeld s || hiveBars (useES (touchesS (tgt r s)) (arg64 r 5) s) s
    busy := fun r s => queueFull (tgtCell r) 1 s
    act := fun m r s =>
      let e := useES (touchesS (tgt r s)) (arg64 r 5) s
      (sendCell ⟨tgtCell r, tgtEpoch r, some e, 1, m, s.stove.frame,
        .glide (argF r 3 0 4) (argF r 3 16 16) (arg r 4)⟩ s, stOk, pair64 e) }

/-- One entry of CELL_GROUP_COMMIT (R105). -/
structure GroupEntry where
  tw : Word
  fl : Word
  target : F32

/-- The entries of a group (R105). -/
def groupEntries (r : Req) : List GroupEntry :=
  (List.range (argF r 3 0 6)).map (fun i => ⟨arg r (6 + 3 * i), arg r (7 + 3 * i), arg r (8 + 3 * i)⟩)

/-- The cell of a group entry. -/
def geCell (g : GroupEntry) : Fin 32 := cellIx (fld g.tw 0 5)

/-- The epoch of a group entry. -/
def geEpoch (g : GroupEntry) : Byte := g.tw.extractLsb' 8 8

/-- A group that holds a cell whose changes must fall on an S frame tick (R92, R102). -/
def groupS (r : Req) (s : State) : Bool := (groupEntries r).any (fun g => touchesS (cellAt s (geCell g)))

/-- The cells of a group are distinct. -/
def distinctCells : List GroupEntry → Bool
  | [] => true
  | g :: gs => !gs.any (fun h => geCell h == geCell g) && distinctCells gs

/-- CELL_GROUP_COMMIT refused with BAD_ARG (R87, R91, R92, R105). A group that names one cell twice is refused whole (DESIGN
CHOICE, log entry 61). -/
def groupBad (r : Req) (s : State) : Bool :=
  badForm (3 + 3 * argF r 3 0 6) r || badTarget r || rsvd (arg r 3) 0x3F || argF r 3 0 6 == 0 ||
  decide (32 < argF r 3 0 6) || badES (groupS r s) (arg64 r 4) s || !distinctCells (groupEntries r) ||
  (groupEntries r).any (fun g => rsvd g.tw 0xFF1F || rsvd g.fl 0xFFFF0F07 || g.fl &&& 7 == 0 ||
    swapBad (cellAt s (geCell g)) (geEpoch g) (g.fl.getLsbD 0) (g.fl.getLsbD 1)
      (useES (groupS r s) (arg64 r 4) s) s)

/-- The first stale entry of a group, for EV11 (R82, R91). -/
def groupStale (r : Req) (s : State) : Option GroupEntry :=
  (groupEntries r).find? (fun g => staleEpoch (cellAt s (geCell g)) (geEpoch g))

/-- The message of a group entry: a swap, a glide start or both (R91). -/
def groupMsg (g : GroupEntry) : CellMsg :=
  .swap (g.fl.getLsbD 0) (g.fl.getLsbD 1)
    (if g.fl.getLsbD 2 then some (fld g.fl 8 4, fld g.fl 16 16, g.target) else none)

/-- CELL_GROUP_COMMIT (R91, R103, R105). -/
def cellGroupCommitDef : CmdDef :=
  { opcode := 0x0107, minVer := 2
    bad := groupBad
    stale := fun r s => (groupStale r s).isSome
    refused := fun st r s => raiseIf (st == stStale) 11
      (n2w 0x0107 16 ||| (match groupStale r s with
        | some g => n2w (geCell g) 0
        | none => 0)) s
    wrong := fun _ r s => hiveHeld s || tuneBusy s || hiveBars (useES (groupS r s) (arg64 r 4) s) s ||
      (groupEntries r).any (fun g =>
      g.fl &&& 3 != 0 && ((cellAt s (geCell g)).clearing ||
        swapWrong (cellAt s (geCell g)) (geEpoch g) (g.fl.getLsbD 0) (g.fl.getLsbD 1) s))
    busy := fun r s => (groupEntries r).any (fun g => queueFull (geCell g) 1 s)
    act := fun m r s =>
      let e := useES (groupS r s) (arg64 r 4) s
      ((groupEntries r).foldl (fun t g =>
        sendCell ⟨geCell g, geEpoch g, some e, 1, m, s.stove.frame, groupMsg g⟩ t) s, stOk, pair64 e) }

/-! ### Faults, memory reads, image loads -/

/-- CELL_FAULT_CLEAR (R98, R100, R103, R105). Bits 30:7 of its mask, to which R105 gives no meaning, count as reserved (DESIGN
CHOICE, log entry 61). -/
def cellFaultClearDef : CmdDef :=
  { opcode := 0x0109, minVer := 1
    bad := fun r s => badForm 3 r || badCellTarget r || rsvd (arg r 3) 0x8000007F ||
      badES (touchesS (tgt r s)) (arg64 r 4) s
    stale := staleTarget, refused := staleRefused 0x0109
    wrong := fun _ r s => hiveHeld s || hiveBars (useES (touchesS (tgt r s)) (arg64 r 4) s) s
    busy := fun r s => queueFull (tgtCell r) 1 s
    act := fun m r s =>
      let e := useES (touchesS (tgt r s)) (arg64 r 4) s
      (sendCell ⟨tgtCell r, tgtEpoch r, some e, 1, m, s.stove.frame, .faultClear (arg r 3)⟩ s, stOk, pair64 e) }

/-- CELL_FAULT_POLICY (R97, R103, R105). -/
def cellFaultPolicyDef : CmdDef :=
  { opcode := 0x010A, minVer := 2
    bad := fun r s => badForm 3 r || badCellTarget r || rsvd (arg r 3) 3 || arg r 3 == 3 ||
      badES (touchesS (tgt r s)) (arg64 r 4) s
    stale := staleTarget, refused := staleRefused 0x010A
    wrong := fun _ r s => hiveHeld s || hiveBars (useES (touchesS (tgt r s)) (arg64 r 4) s) s
    busy := fun r s => queueFull (tgtCell r) 1 s
    act := fun m r s =>
      let e := useES (touchesS (tgt r s)) (arg64 r 4) s
      (sendCell ⟨tgtCell r, tgtEpoch r, some e, 1, m, s.stove.frame, .policy (policyOf (argF r 3 0 2))⟩ s, stOk,
        pair64 e) }

/-- The size in words of a memory that CELL_MEM_READ names (R62, R105). -/
def memSize : Nat → Nat
  | 0 => 65536
  | 3 => 4096
  | _ => 32768

/-- CELL_MEM_READ refused with BAD_ARG (R102, R105). -/
def memReadBad (r : Req) (s : State) : Bool :=
  let k := argF r 3 0 2
  let n := argF r 4 0 7
  badForm 4 r || badCellTarget r || rsvd (arg r 3) 0xFFFF0007 || rsvd (arg r 4) 0x7F || n == 0 ||
  decide ((if k = 3 then 28 else 112) < n) || (argB r 3 2 && k != 3) ||
  decide (memSize k < argF r 3 16 16 + n) || badES (touchesS (tgt r s)) (arg64 r 5) s

/-- CELL_MEM_READ: the snapshot is deferred (R93, R103, R105, R106). Memories 1 and 2 of a cell without a role, which has no
active bank, are refused with STATE (DESIGN CHOICE, log entry 61). -/
def cellMemReadDef : CmdDef :=
  { opcode := 0x010B, minVer := 3
    needs := fun _ r s => cellSealed (tgt r s) && s.pow.lc == .develop
    auth := fun _ r s => cellSealed (tgt r s) && lcFielded s
    bad := memReadBad, stale := staleTarget, refused := staleRefused 0x010B
    wrong := fun _ r s => hiveHeld s || hiveBars (useES (touchesS (tgt r s)) (arg64 r 5) s) s ||
      ((argF r 3 0 2 == 1 || argF r 3 0 2 == 2) && (tgt r s).role.isNone)
    busy := fun r s => queueFull (tgtCell r) 1 s
    deferred := true
    act := fun m r s =>
      let e := useES (touchesS (tgt r s)) (arg64 r 5) s
      let s := sendCell ⟨tgtCell r, tgtEpoch r, some e, 1, m, s.stove.frame,
        .memRead (argF r 3 0 2) (bankIx (argB r 3 2)) (argF r 3 16 16) (argF r 4 0 7) m r.tag⟩ s
      (defer 0x010B m r.tag none s, stDeferred, pair64 e) }

/-! ### Applying messages -/

/-- Read `n` words of a cell memory as they stand, for CELL_MEM_READ: an uncorrectable word reads 0 (R96, R409),
and so does a word of a marked group (R394). -/
def snapWords (mk : Nat → WordAt) (rd : Nat → Word) : List Nat → State → List Word × State
  | [], s => ([], s)
  | a :: as, s =>
    let (ok, s) := checkWord (mk a) s
    let (ws, s) := snapWords mk rd as s
    ((if ok then rd a else 0) :: ws, s)

/-- The block of a cell, by its index of R421, that holds word `a` of a memory that CELL_MEM_READ names (R105, R401). -/
def memBlk (y : Cell) (k : Nat) (bank : Fin 2) (a : Nat) : Nat :=
  match k with
  | 0 => 4 + a / 16384
  | 3 => bank.val
  | _ => 2 + (if k = 1 then y.actC else y.actC + 1).val

/-- Words of blocks that are not ON read 0, and MEM_OFF_ACC is set (R402, R405). -/
def memMasked (c : Fin 32) (pre : Cell) (k : Nat) (bank : Fin 2) (first : Nat) (ws : List Word) (s : State) :
    List Word × State :=
  let on (i : Nat) : Bool := cellBlkOn c (memBlk pre k bank (first + (if k = 3 then i / 4 else i))) s
  if (List.range ws.length).all on then (ws, s)
  else ((List.range ws.length).map (fun i => if on i then ws.getD i 0 else 0), offAccess s)

/-- The words CELL_MEM_READ reads from the cell as it stood at the tick (R106). -/
def memSnapshot (c : Fin 32) (pre : Cell) (k : Nat) (bank : Fin 2) (first n : Nat) (s : State) :
    List Word × State :=
  let as := (List.range n).map (first + ·)
  match k with
  | 0 =>
    let live := as.map (fun a => (a, pre.mem.written.contains (a / 8)))
    let (ws, s) := snapWords (fun a => ⟨.cellData, c, 0, a⟩) (fun a => rdW pre.mem.data (4 * a))
      ((live.filter (·.2)).map (·.1)) s
    ((live.foldl (fun (acc : List Word × List Word) p =>
      if p.2 then (acc.1 ++ [acc.2.headD 0], acc.2.tail) else (acc.1 ++ [0], acc.2)) ([], ws)).1, s)
  | 3 =>
    let b := bank
    snapWords (fun a => ⟨.program, c, b, a⟩) (fun a => rdW pre.mem.prog[b] (4 * a))
      ((List.range (4 * n)).map (4 * first + ·)) s
  | _ =>
    let b : Fin 2 := if k = 1 then pre.actC else pre.actC + 1
    snapWords (fun a => ⟨.coef, c, b, a⟩) (fun a => rdW pre.mem.coef[b] (4 * a)) as s

/-- Start a glide at effect frame E from the value of the frame before (R89, R90). -/
def startGlide (pre : Cell) (e g n : Nat) (t : F32) (y : Cell) : Cell :=
  let v := (vgetD pre.regs.g g {}).v
  { y with regs := { y.regs with g := vmodN y.regs.g g (fun _ =>
      if n = 0 then { v := t } else { v := v, start := v, target := t, n := n, k := 0, eff := e }) } }

/-- A program bank becomes active: its descriptors, and the origins reduced to the new lengths (R86, R119). -/
def takeProg (b : Fin 2) (y : Cell) : Cell :=
  let d := y.mem.pmeta[b].desc
  { y with
    actP := b
    regs := { y.regs with
      d := d
      o := vmap y.regs.o (fun j o => o % (fld (vgetD d j.val 0) 21 21 + 1)) } }

/-- The register set after a role change (R73, R114, R119). -/
def roleRegs (d : Vector (BitVec 64) 16) (r : CellRegs) : CellRegs :=
  { r with
    v := .replicate 32 (.replicate 8 0)
    acc := .replicate 8 (.replicate 8 0)
    m := .replicate 4 0xFF
    k := vmodN (vmodN r.k 2 (fun _ => 0)) 3 (fun _ => 0)
    d := d
    g := .replicate 16 {}
    o := .replicate 16 0 }

/-- Is an entry a role change? -/
def isRole (e : QEntry) : Bool :=
  match e.msg with
  | .role _ => true
  | _ => false

/-- The entries a role change removes from the queue: those that carry another epoch (R80). -/
def flushed (ep : Byte) (y : Cell) : List QEntry := y.queue.filter (fun e => e.epoch ≠ ep)

/-- A cell takes a new role at the tick of E (R73, R74, R80, R94, R99, R101, R114). CLEAR asked by a change to domain none,
which has no zero-output frame, clears nothing (R75; DESIGN CHOICE, log entry 61). -/
def takeRole (rc : RoleChange) (y : Cell) : Cell :=
  let wasSealed := cellSealed y
  let rest := y.queue.filter (fun e => e.epoch = rc.epoch)
  { y with
    role := rc.role
    epoch := rc.epoch
    actP := rc.p
    actC := rc.c
    regs := roleRegs y.mem.pmeta[rc.p].desc y.regs
    stat := { y.stat with
      flt := 0, firstPc := 0, act := .live, newFault := false, stale := 0
      spkCount := 0, spkClamp := 0, spkNonfin := 0
      flushed := min 65535 ((flushed rc.epoch y).map (·.entries)).sum }
    queue := rest
    pendRole := none
    zeroFrame := rc.role.isSome
    noneDone := rc.role.isNone && !wasSealed
    clearReq := rc.clear && rc.role.isSome
    clearing := y.clearing || wasSealed
    run := {} }

/-- A CELL_MEM_READ whose entry is removed completes without words (R602). -/
def memReadEnds (status : Nat) (e : QEntry) (s : State) : State :=
  match e.msg with
  | .memRead _ _ _ _ m tag => complete 0x010B m tag (BitVec.ofNat 8 status) [] s
  | _ => s

/-- An entry that a withdrawal, a late arrival or an old stamp discards: a CELL_MEM_READ completes with TIMEOUT,
and a role change is no longer pending (R42, R602). -/
def entryLost (q : QEntry) (s : State) : State :=
  match q.msg with
  | .role _ => modCell q.cell (fun y => { y with pendRole := none }) s
  | _ => memReadEnds stTimeout q s

/-- An entry is dropped because its epoch is no longer the cell's: HIVE_Q_STALE, EV11 (R81, R602). -/
def dropStale (e : QEntry) (s : State) : State :=
  let s := modCell e.cell (fun y => { y with stat := { y.stat with stale := min 255 (y.stat.stale + e.entries) } }) s
  memReadEnds stStale e (raiseFrom 0 11 (n2w e.cell 0) s)

/-- Does an entry that applies at a tick raise EV12 (R109)? -/
def raisesEv12 : CellMsg → Bool
  | .coef _ _ _ _ _ | .swap _ _ _ | .glide _ _ _ => true
  | _ => false

/-- A coefficient write sets its bank's image ID where it asks for that (R105). -/
def setCoefId (c : Fin 32) (b : Fin 2) (image : Option (BitVec 16)) (s : State) : State :=
  match image with
  | some i => modCell c (fun y => { y with mem := { y.mem with
      cmeta := vmod y.mem.cmeta b (fun p => { p with image := i }) } }) s
  | none => s

/-- A message takes effect. `pre` is the cell as it stood at the tick and `e` the M frame (R79, R86, R89, R98). A write to a
bank that is not ON, or moves in this frame, is not performed (R402, R405). The clear of
HIVE_CELL_FAULT bits leaves HIVE_FLT_FIRST_PC at the address it holds until the next fault (R100; DESIGN CHOICE, log
entry 61). -/
def applyMsg (pre : Cell) (e : Nat) (q : QEntry) (s : State) : State :=
  let c := q.cell
  match q.msg with
  | .role _ => s
  | .prog b first ws => if cellBlkOn c b s then wrProgs c b (4 * first) ws s else offAccess s
  | .progMeta b image len ds =>
    if cellBlkOn c b s then modCell c (fun y => { y with mem := { y.mem with
      pmeta := vmod y.mem.pmeta b (fun p => { p with image := image, len := len
                                                     desc := Vector.ofFn (fun j : Fin 16 => ds.getD j 0) }) } }) s
    else offAccess s
  | .coef _ b image first ws =>
    if cellBlkOn c (2 + b) s then wrCoefs c b first ws (setCoefId c b image s) else offAccess s
  | .swap p k gl => modCell c (fun y =>
      let y := if p then takeProg (y.actP + 1) y else y
      let y := if k then { y with actC := y.actC + 1 } else y
      match gl with
      | some (g, n, t) => startGlide pre e g n t y
      | none => y) s
  | .glide g n t => modCell c (startGlide pre e g n t) s
  | .faultClear mask => modCell c (fun y => { y with stat := { y.stat with
      flt := y.stat.flt &&& ~~~ mask.extractLsb' 0 6
      flushed := if mask.getLsbD 31 then 0 else y.stat.flushed
      stale := if mask.getLsbD 31 then 0 else y.stat.stale
      act := if mask.getLsbD 6 then (match y.stat.act with
        | .fading _ | .muted => .fadingIn 1
        | a => a) else y.stat.act } }) s
  | .policy a => modCell c (fun y => { y with stat := { y.stat with policy := a } }) s
  | .memRead k b first n m tag =>
    let (ws, s) := memSnapshot c pre k b first n s
    let (ws, s) := memMasked c pre k b first ws s
    complete 0x010B m tag (BitVec.ofNat 8 stOk) ws s

/-- The role change of a cell stamped `e`, with its entry, if it is due (R79). -/
def roleDue (e : Nat) (y : Cell) : Option (QEntry × RoleChange) :=
  match y.queue.find? (fun q => q.frame = some e && isRole q && q.epoch == y.epoch) with
  | some q => match q.msg with
    | .role rc => some (q, rc)
    | _ => none
  | none => none

/-- The entry of an applying role change leaves the queue, and the cell takes the role (R73, R79). -/
def takeOwn (q : QEntry) (rc : RoleChange) (y : Cell) : Cell := takeRole rc { y with queue := y.queue.erase q }

/-- Apply the entries of a list stamped `e`, in order of arrival, or drop them as stale (R79, R81). -/
def applyDue (pre : Cell) (e : Nat) : List QEntry → State → State
  | [], s => s
  | q :: qs, s =>
    let y := cellAt s q.cell
    let s := if q.epoch = y.epoch then applyMsg pre e q s else dropStale q s
    applyDue pre e qs s

/-- The stamped commands that raise EV12 as their entries apply in a cell at the tick of `e`: mailbox and M frame of the
sampling (R109). -/
def ev12Cell (e : Nat) (y : Cell) : List (Nat × Nat) :=
  let ep := match roleDue e y with
    | some x => x.2.epoch
    | none => y.epoch
  (y.queue.filter (fun q => q.frame = some e && q.epoch == ep && raisesEv12 q.msg)).map (fun q => (q.mbx, q.sampled))

/-- EV12 once for each command, whatever the number of cells it names (R50, R109). -/
def raiseEv12 (e : Nat) (s : State) : State :=
  (s.hive.cells.toList.flatMap (ev12Cell e)).eraseDups.foldl (fun s _ => raise 12 8 s) s

/-- The queue entries of cell `c` at the tick of M frame `e`: the role change first, then every other entry
stamped `e`; older stamps are discarded (R42, R79). -/
def cellTick (c : Fin 32) (e : Nat) (s : State) : State :=
  let pre := cellAt s c
  let s := match roleDue e pre with
    | some (q, rc) =>
      (flushed rc.epoch { pre with queue := pre.queue.erase q }).foldl (fun s q => memReadEnds stStale q s)
        (modCell c (takeOwn q rc) s)
    | none => s
  let q := (cellAt s c).queue
  let s := modCell c (fun y => { y with queue := y.queue.filter (fun q => match q.frame with
    | some f => decide (e < f)
    | none => false) }) s
  let s := applyDue pre e (q.filter (fun q => q.frame = some e)) s
  (q.filter (fun q => match q.frame with
    | some f => decide (f < e)
    | none => false)).foldl (fun s q => entryLost q s) s

/-- One glide register at a domain frame of M frame `n` (R89). -/
def glideStep (n : Nat) (g : Glide) : Glide :=
  if g.n = 0 ∨ g.n ≤ g.k ∨ n ≤ g.eff then g
  else
    let k := g.k + 1
    { g with k := k, v := if k = g.n then g.target else glideAt g.start g.target k g.n }

/-- Every glide register of a cell steps at a domain frame of M frame `n` (R89). -/
def glideAll (n : Nat) (y : Cell) : Cell := { y with regs := { y.regs with g := y.regs.g.map (glideStep n) } }

/-- The response of the command of an entry, if it is not posted yet, carries `ws` (R84, R106). -/
def reAnswer (q : QEntry) (ws : List Word) (s : State) : State :=
  { s with mbx := vmap s.mbx (fun m b =>
      if m.val = q.mbx ∧ b.st = .busy ∧ b.sampled = q.sampled then
        { b with resp := b.resp.map (fun p => if p.status.toNat = stOk then { p with payload := ws } else p) }
      else b) }

/-- A message applies on its arrival, or is dropped as stale (R77, R81, R83). -/
def arriveNow (q : QEntry) (s : State) : State :=
  let y := cellAt s q.cell
  if q.epoch = y.epoch then applyMsg y s.stove.frame q s else dropStale q s

/-- A stamped message waits in its cell's queue; at or after the tick of its frame it is discarded (R42, R77). -/
def arriveLater (f : Nat) (q : QEntry) (s : State) : State :=
  if f ≤ s.stove.frame then entryLost q s
  else modCell q.cell (fun y => { y with queue := y.queue ++ [q] }) s

/-- The coefficient bank that an entry judged on arrival names is active (R84). -/
def coefLive (q : QEntry) (s : State) : Bool :=
  let y := cellAt s q.cell
  match q.msg with
  | .coef true b _ _ _ => y.role.isSome && y.actC == b
  | _ => false

/-- The entry is a coefficient write that is judged against the banks as they stand now (R84). -/
def isJudged (q : QEntry) : Bool :=
  match q.msg with
  | .coef true _ _ _ _ => true
  | _ => false

/-- A message reaches its cell's queue: unstamped, it applies at once; stamped, it waits. A coefficient write with the
cell's current epoch is judged now: to the active bank it waits for its frame, to an inactive one it applies at once,
and the response carries the frame it uses (R77, R81, R83, R84, R106). -/
def queueArrive (q : QEntry) (s : State) : State :=
  match q.frame with
  | none => arriveNow q s
  | some f =>
    if isJudged q then
      if coefLive q s then arriveLater f q (reAnswer q (pair64 f) s) else arriveNow q (reAnswer q (pair64 0) s)
    else arriveLater f q s

/-! ### Meanings -/

/-- CELL_INFO (R106). -/
def execCellInfo (m : Fin 4) (r : Req) (s : State) : Host.Outcome State Fault Refusal :=
  .next (mbxCommand cellInfoDef m r s)
/-- CELL_ROLE_SET (R73). -/
def execCellRoleSet (m : Fin 4) (r : Req) (s : State) : Host.Outcome State Fault Refusal :=
  .next (mbxCommand cellRoleSetDef m r s)
/-- CELL_PROG_WRITE (R88). -/
def execCellProgWrite (m : Fin 4) (r : Req) (s : State) : Host.Outcome State Fault Refusal :=
  .next (mbxCommand cellProgWriteDef m r s)
/-- CELL_PROG_META (R63). -/
def execCellProgMeta (m : Fin 4) (r : Req) (s : State) : Host.Outcome State Fault Refusal :=
  .next (mbxCommand cellProgMetaDef m r s)
/-- CELL_COEF_WRITE (R84). -/
def execCellCoefWrite (m : Fin 4) (r : Req) (s : State) : Host.Outcome State Fault Refusal :=
  .next (mbxCommand cellCoefWriteDef m r s)
/-- CELL_BANK_SWAP (R86). -/
def execCellBankSwap (m : Fin 4) (r : Req) (s : State) : Host.Outcome State Fault Refusal :=
  .next (mbxCommand cellBankSwapDef m r s)
/-- CELL_GLIDE_SET (R89). -/
def execCellGlideSet (m : Fin 4) (r : Req) (s : State) : Host.Outcome State Fault Refusal :=
  .next (mbxCommand cellGlideSetDef m r s)
/-- CELL_GROUP_COMMIT (R91). -/
def execCellGroupCommit (m : Fin 4) (r : Req) (s : State) : Host.Outcome State Fault Refusal :=
  .next (mbxCommand cellGroupCommitDef m r s)
/-- CELL_STATUS (R106). -/
def execCellStatus (m : Fin 4) (r : Req) (s : State) : Host.Outcome State Fault Refusal :=
  .next (mbxCommand cellStatusDef m r s)
/-- CELL_FAULT_CLEAR (R98). -/
def execCellFaultClear (m : Fin 4) (r : Req) (s : State) : Host.Outcome State Fault Refusal :=
  .next (mbxCommand cellFaultClearDef m r s)
/-- CELL_FAULT_POLICY (R97). -/
def execCellFaultPolicy (m : Fin 4) (r : Req) (s : State) : Host.Outcome State Fault Refusal :=
  .next (mbxCommand cellFaultPolicyDef m r s)
/-- CELL_MEM_READ (R106). -/
def execCellMemRead (m : Fin 4) (r : Req) (s : State) : Host.Outcome State Fault Refusal :=
  .next (mbxCommand cellMemReadDef m r s)

/-- CELL_QUEUE_ENTRY_ARRIVAL: the oldest message of the Ianik to Hive queue reaches its cell (R51, R81). -/
def execCellQueueEntryArrival (s : State) : Host.Outcome State Fault Refusal :=
  match s.hive.transit with
  | [] => .next s
  | q :: rest => .next (refill s.ianik.stalled.length (queueArrive q { s with hive := { s.hive with transit := rest } }))

/-- The program and coefficient banks and the data RAM of a cell read zero, and so does all their metadata (R94). -/
def wipeCell (y : Cell) : Cell :=
  { y with mem := { y.mem with
      prog := .replicate 2 [], coef := .replicate 2 [], data := [], written := clearedMarks y.mem
      pmeta := .replicate 2 { desc := .replicate 16 0 }, cmeta := .replicate 2 {} } }

/-- The words of a cell's banks and data RAM are written, so no upset stands in them (R94, R407). -/
def healCell (c : Fin 32) (s : State) : State :=
  let mine (u : Upset) : Bool := u.word.unit == c.val && match u.word.cls with
    | .cellData | .program | .coef => true
    | _ => false
  { s with care := { s.care with upsets := s.care.upsets.filter (fun u => !mine u) } }

/-- SEALED_CLEAR_DONE: the clear after a sealed role completes with EV10 (R94). -/
def execSealedClearDone (c : Fin 32) (s : State) : Host.Outcome State Fault Refusal :=
  if (cellAt s c).clearing then
    .next (raise 10 (bit c) (modCell c (fun y => { wipeCell y with clearing := false }) (healCell c s)))
  else .next s

/-- CELL_FAULT_FADE_END: the last frame of a fade leaves the outputs muted, that of a fade-in leaves them live
(R97, R98). -/
def execCellFaultFadeEnd (c : Fin 32) (s : State) : Host.Outcome State Fault Refusal :=
  .next (modCell c (fun y => { y with stat := { y.stat with act := match y.stat.act with
    | .fading k => if 15 ≤ k then .muted else .fading k
    | .fadingIn k => if 16 ≤ k then .live else .fadingIn k
    | a => a } }) s)

/-- A cell issues no access any more whose turn comes before `t`: it has issued its slots as far, or all of its program
(R139). -/
def issuedTo (t : Nat) (y : Cell) : Bool :=
  y.zeroFrame || decide (t ≤ y.run.slot) || decide ((vgetD y.mem.pmeta y.actP.val {}).len ≤ y.run.slot)

/-- STORE_TURN: the turn of the first waiting Store access of a cell comes, once every cell of its domain has issued its
slots as far; the accesses of these cells with earlier turns are performed before it (R139, R392). -/
def execStoreTurn (c : Fin 32) (ups : List Upset) (s : State) : Host.Outcome State Fault Refusal :=
  let s := strike ups s
  let cs := (List.finRange 32).filter (fun k => cellDom (cellAt s k) == cellDom (cellAt s c))
  match firstWait (cellAt s c).run.waits with
  | some w =>
    if cs.all (fun k => issuedTo w.turn (cellAt s k)) then .next (storePerform c w (turnsBefore cs w.turn 2048 s))
    else .next s
  | none => .next s

end Sys2Proof.Machine
end

