-- ==== Sys2Proof/Machine/Comb.lean ====
section
/-! DEFINITION. The Comb crosspoints: columns, maps, node gains with staging, commits and ramps, node errors, and
the 0x02xx commands with CHIMNEY_STATUS (R148 to R177). -/

namespace Sys2Proof.Machine

/-! ### Columns -/

/-- External columns of a kind in a Comb (R148). -/
def extCols (d : Dom) : Nat :=
  match d with
  | .M => 256
  | .F | .S => 64

/-- Source columns, and as many sink columns (R148). -/
def cols (d : Dom) : Nat := 2 * extCols d

/-- The node that joins a sink column to a source column, as a key of the node memory (R148). -/
def nodeKey (d : Dom) (sink src : Nat) : Nat := sink * cols d + src

/-- The Comb of a domain. -/
def combAt (s : State) (d : Dom) : Comb := s.hive.combs[domIx d]

/-- Change the Comb of a domain. -/
def modComb (d : Dom) (f : Comb → Comb) (s : State) : State :=
  { s with hive := { s.hive with combs := vmod s.hive.combs (domIx d) f } }

/-- The bit of a Comb in the masks of EV12 and EV14 (R550). -/
def combBit (d : Dom) : Word := bit (domNo d)

/-- The target word's Comb. -/
def tgtComb (r : Req) : Dom := domOf (fld r.target 0 2)

/-- A target word that names no Comb. -/
def badComb (r : Req) : Bool := decide (2 < r.target.toNat)

/-! ### Device channels -/

/-- The class of a channel identifier (R10). -/
def idClass (i : ChanId) : Nat := fld i 11 5

/-- The index of a channel identifier (R10). -/
def idIndex (i : ChanId) : Nat := fld i 0 11

/-- The rate that fits a Comb (R10). -/
def domRate (d : Dom) : HwRate :=
  match d with
  | .M => .m
  | .F => .quad
  | .S => .s

/-- A Hivewire slot of the rate of a Comb that an identifier may name: not the second slot of a pair, and phase 0
alone in a quad-rate slot (R153, R321, R322). -/
def hwFits (d : Dom) (x : HwSlot) (phase : Nat) : Bool :=
  x.rate == domRate d && !x.reserved && (d != .F || phase == 0)

/-- A channel that may stand behind an external source column of a Comb (R10, R11, R12, R153). -/
def srcFits (d : Dom) (i : ChanId) (s : State) : Bool :=
  let x := idIndex i
  match idClass i, d with
  | 0x00, _ => x == 0
  | 0x01, .M => decide (x < 256)
  | 0x03, _ => decide (x < 160) && hwFits d (vgetD s.hw[0].up (x / 4) {}) (x % 4)
  | 0x05, _ => decide (x < 160) && hwFits d (vgetD s.hw[1].up (x / 4) {}) (x % 4)
  | 0x08, .M => decide (x < 32)
  | 0x09, .M => decide (x < 32)
  | 0x0A, .M => decide (x < 64)
  | 0x0C, .F => decide (x < 32)
  | 0x0D, .M => decide (x < 32)
  | 0x0E, .S => decide (x < 32)
  | 0x0F, .M => decide (x < 32)
  | 0x10, _ => decide (x < 24) && x / 8 == domNo d
  | _, _ => false

/-- A channel that may stand behind an external sink column of a Comb (R10, R11, R12, R153). -/
def sinkFits (d : Dom) (i : ChanId) (s : State) : Bool :=
  let x := idIndex i
  match idClass i, d with
  | 0x00, _ => x == 0
  | 0x02, .M => decide (x < 256)
  | 0x04, _ => decide (x < 64) && hwFits d (vgetD s.hw[0].down (x / 4) {}) (x % 4)
  | 0x06, _ => decide (x < 64) && hwFits d (vgetD s.hw[1].down (x / 4) {}) (x % 4)
  | 0x07, .M => decide (x < 64) && x % 2 == 0
  | 0x07, .F => decide (x < 64) && x % 2 == 1
  | 0x0B, .M => decide (x < 64)
  | 0x0C, .M => decide (x < 32)
  | 0x0D, .F => decide (x < 32)
  | 0x0E, .M => decide (x < 32)
  | 0x0F, .S => decide (x < 32)
  | _, _ => false

/-! ### Maps -/

/-- Write consecutive map entries. -/
def mapPut (m : Sparse ChanId) (first : Nat) : List ChanId → Sparse ChanId
  | [] => m
  | i :: is => mapPut (sset 0 m first i) (first + 1) is

/-- A map change applies: its columns read from, or write to, their new channels (R154). -/
def applyMap (d : Dom) (outlet : Bool) (first : Nat) (ids : List ChanId) (s : State) : State :=
  let covers (c : Nat) : Bool := decide (first ≤ c) && decide (c < first + ids.length)
  modComb d (fun c =>
    if outlet then { c with outlet := mapPut c.outlet first ids, outDead := c.outDead.filter (fun k => !covers k) }
    else { c with intake := mapPut c.intake first ids, inDead := c.inDead.filter (fun k => !covers k) }) s

/-- A change of an outlet map with its frame: Comb, first column and identifiers. -/
abbrev OutStep := Nat × Dom × Nat × List ChanId

/-- The outlet map changes that are staged, in order of arrival. -/
def outSteps (s : State) : List OutStep :=
  s.ianik.staged.filterMap (fun x => match x.chg with
    | .combMap d true first ids => some (x.frame, d, first, ids)
    | _ => none)

/-- The outlet maps of the three Combs as the changes leave them in frame `f` (R42, R153). -/
def outletsAt (f : Nat) (l : List OutStep) (s : State) : State :=
  (l.filter (fun x => x.1 ≤ f)).foldl (fun t x => applyMap x.2.1 true x.2.2.1 x.2.2.2 t) s

/-- The columns of one Comb that an outlet map names with channel `i`. -/
def outletUses (i : ChanId) (d : Dom) (s : State) : Nat := ((combAt s d).outlet.filter (fun e => e.2 = i)).length

/-- One of the channels stands in more than one outlet column (R153). -/
def outletTwice (ids : List ChanId) (s : State) : Bool :=
  ids.any (fun i => i != 0 && decide (1 < outletUses i .M s + outletUses i .F s + outletUses i .S s))

/-- Mark the columns of a Comb that name a Hivewire slot whose rate changes: class and slot (R154). -/
def silenceSlot (cls slot : Nat) (s : State) : State :=
  let names (i : ChanId) : Bool := idClass i == cls && idIndex i / 4 == slot
  let mark (c : Comb) : Comb :=
    { c with
      inDead := (c.intake.filter (fun e => names e.2)).foldl (fun l e => insertN e.1 l) c.inDead
      outDead := (c.outlet.filter (fun e => names e.2)).foldl (fun l e => insertN e.1 l) c.outDead }
  { s with hive := { s.hive with combs := s.hive.combs.map mark } }

/-! ### Gains -/

/-- A gain no command may write: not finite, or beyond 64.0 (R156). -/
def badGain (g : F32) : Bool := !f32In (-64) 64 g

/-- A gain as it is staged: a subnormal as +0.0 (R156). -/
def stGain (g : F32) : F32 := if fld g 23 8 = 0 ∧ fld g 0 23 ≠ 0 then 0 else g

/-- Stage gains in order: with ROW 0 for sink A from source B up, with ROW 1 for source B into sinks A up; each
sink column touched is marked (R157, R173). -/
def stageGains (d : Dom) (row : Bool) (a b : Nat) : List F32 → Comb → Comb
  | [], c => c
  | g :: gs, c =>
    let k := nodeKey d a b
    let c := { c with
      nodes := sset {} c.nodes k { sget {} c.nodes k with staged := stGain g }
      marks := insertN a c.marks }
    if row then stageGains d row (a + 1) b gs c else stageGains d row a (b + 1) gs c

/-- Stage and heal the node words that are written (R157, R407). -/
def stageNow (d : Dom) (row : Bool) (a b : Nat) (gs : List F32) (s : State) : State :=
  let ks := (List.range gs.length).map (fun j => if row then nodeKey d (a + j) b else nodeKey d a (b + j))
  modComb d (stageGains d row a b gs) (healWords (fun k => ⟨.comb, domNo d, 0, 3 * k⟩) ks s)

/-- Staged gains go back to the targets in every marked column (R175). -/
def discardStage (d : Dom) (c : Comb) : Comb :=
  { c with
    nodes := smap {} (fun k n => if c.marks.contains (k / cols d) then { n with staged := n.target } else n) c.nodes
    marks := [] }

/-- One ramp step of a node: step k of n (R161). -/
def rampStep (n k : Nat) (x : Node) : Node :=
  { x with cur :=
    if n ≤ k then x.target
    else f32Fma (f32Sub x.target x.cur) (qF32 (mkRat 1 (n - k + 1))) x.cur }

/-- The ramps of a Comb go on by one domain frame, but for the columns that a commit restarts at this tick (R161,
R162). A ramp at its length keeps its flag until RAMP_END. -/
def stepRamps (d : Dom) (skip : List Nat) (c : Comb) : Comb :=
  let moves (col : Nat) : Option Ramp :=
    if skip.contains col then none else
      match c.ramps.find? (fun e => e.1 = col) with
      | some e => if e.2.k < e.2.n then some { e.2 with k := e.2.k + 1 } else none
      | none => none
  { c with
    nodes := smap {} (fun k x => match moves (k / cols d) with
      | some r => rampStep r.n r.k x
      | none => x) c.nodes
    ramps := c.ramps.map (fun e => (e.1, (moves e.1).getD e.2)) }

/-- A commit with effect frame E and ramp length n applies to every marked column (R160, R161). -/
def applyCommit (d : Dom) (e n : Nat) (c : Comb) : Comb :=
  { c with
    nodes := smap {} (fun k x => if c.marks.contains (k / cols d) then
        { x with target := x.staged, cur := if n = 0 then x.staged else x.cur } else x) c.nodes
    ramps := c.marks.foldl (fun rs col => sset ⟨0, 0⟩ rs col ⟨n, 0⟩) c.ramps
    marks := []
    commits := c.commits.filter (fun p => p.1 ≠ e)
    lastCommit := some (e, n) }

/-- The number of sink columns now ramping (R177). -/
def ramping (c : Comb) : Nat := c.ramps.length

/-- Apply the held staging of a Comb that waited for the commit of frame `e` (R158). -/
def releaseHeld (d : Dom) (e : Nat) (s : State) : State :=
  let due := (combAt s d).held.filter (fun h => h.afterE = e)
  let s := modComb d (fun c => { c with held := c.held.filter (fun h => h.afterE ≠ e) }) s
  due.foldl (fun s h => stageNow d h.row h.a h.b h.gains s) s

/-- A commit of frame `e` is withdrawn: the staging held for it waits for the commit before it, or applies where none is
pending (R158). -/
def commitGone (d : Dom) (e : Nat) (s : State) : State :=
  let s := modComb d (fun c => { c with commits := c.commits.filter (fun p => p.1 ≠ e) }) s
  match ((combAt s d).commits.filter (fun p => p.1 < e)).getLast? with
  | some p => modComb d (fun c => { c with
      held := c.held.map (fun h => if h.afterE = e then { h with afterE := p.1 } else h) }) s
  | none => releaseHeld d e s

/-- The Comb of domain `d` at the tick of M frame `e`: a commit due applies with EV12, and EV14 where no column
ramps after it (R160, R164). -/
def commitTick (d : Dom) (e : Nat) (s : State) : State :=
  match (combAt s d).commits.find? (fun p => p.1 = e) with
  | some p =>
    let s := raise 12 (combBit d) (modComb d (applyCommit d e p.2) s)
    releaseHeld d e (raiseIf (ramping (combAt s d) = 0) 14 (combBit d) s)
  | none => modComb d (fun c => { c with commits := c.commits.filter (fun p => decide (e < p.1)) }) s

/-- The columns a commit due at `e` restarts. -/
def restarted (d : Dom) (e : Nat) (s : State) : List Nat :=
  let c := combAt s d
  if c.commits.any (fun p => p.1 = e) then c.marks else []

/-! ### Node errors and sums -/

/-- A node word with an uncorrectable error is met: counted and logged, with EV54; a current gain clears the node, a staged
or a target gain reads +0.0 from then on (R166, R409, log entry 25). -/
def nodeBad (d : Dom) (u : Upset) (s : State) : State :=
  let k := u.word.addr / 3
  let s := countUnc u.word u.syndrome false s
  let cut (n : Node) : Node := match u.word.addr % 3 with
    | 0 => { n with staged := 0 }
    | 1 => { n with target := 0 }
    | _ => {}
  let ws := if u.word.addr % 3 = 2 then [3 * k, 3 * k + 1, 3 * k + 2] else [u.word.addr]
  modComb d (fun c => { c with nodes := sset {} c.nodes k (cut (sget {} c.nodes k)), eccUnc := stick 255 c.eccUnc })
    (healWords (fun a => ⟨.comb, domNo d, 0, a⟩) ws s)

/-- One upset node word met by the datapath: a single bit is rewritten and counted (R166, R408). Word address 3 k + form,
staged 0, target 1, current 2 (log entry 25). -/
def nodeError (d : Dom) (u : Upset) (s : State) : State :=
  if u.double then nodeBad d u s
  else modComb d (fun c => { c with eccCorr := stick 255 c.eccCorr }) (countCorr .comb (healWord u.word s))

/-- The datapath reads the nodes of the sink columns from `lo` below `hi` (R166). -/
def combErrors (d : Dom) (lo hi : Nat) (s : State) : State :=
  (s.care.upsets.filter (fun u => u.word.cls == .comb && u.word.unit == domNo d &&
    decide (lo * cols d ≤ u.word.addr / 3) && decide (u.word.addr / 3 < hi * cols d))).foldl
      (fun s u => nodeError d u s) s

/-- A source value as a sum takes it: a non-finite one as +0.0 (R151). -/
def finOr0 (x : F32) : F32 := if f32Fin x then x else 0

/-- A sink column's value: exact products in ascending source order, the running sum rounded to binary64 at each
addition, the last sum to binary32, −0.0 as +0.0 (R151). An unlisted node has gain +0.0 and adds nothing. -/
def sinkSum (d : Dom) (nodes : Sparse Node) (src : Nat → F32) (sink : Nat) : F32 :=
  let col := nodes.filter (fun e => e.1 / cols d = sink)
  let y := f64To32 (col.foldl (fun acc e => f64Mac false acc e.2.cur (finOr0 (src (e.1 % cols d)))) 0)
  if y = 0x80000000 then 0 else y

/-! ### Status -/

/-- COMB_STAT (R177). -/
def combStat (c : Comb) : Word :=
  n2w (ramping c) 22 ||| n2w c.commits.length 19 ||| b2w (!c.marks.isEmpty) 18 ||| n2w c.eccCorr 8 |||
  n2w c.eccUnc 0

/-- The ratio of a Comb's domain as an integer (R176). -/
def combRatio (d : Dom) (s : State) : Nat :=
  match d with
  | .M => 1
  | .F => s.hive.dom.m
  | .S => s.hive.dom.d

/-- Sixteen words with one bit a column (R176). -/
def colWords (cs : List Nat) : List Word :=
  (List.range 16).map (fun w => maskOf ((cs.filter (fun c => c / 32 = w)).map (· % 32)))

/-- Identifiers packed two a word, the lower column in bits 15:0 (R173). -/
def packIds : List ChanId → List Word
  | [] => []
  | [a] => [n2w a.toNat 0]
  | a :: b :: r => (n2w b.toNat 16 ||| n2w a.toNat 0) :: packIds r

/-- Identifier `i` of a command that packs them from word `w`. -/
def argId (r : Req) (w i : Nat) : ChanId := BitVec.ofNat 16 (argF r (w + i / 2) (16 * (i % 2)) 16)

/-- The identifiers of COMB_MAP_SET (R173). -/
def mapIds (r : Req) : List ChanId := (List.range (argF r 4 0 8)).map (argId r 7)

/-! ### The 0x02xx commands -/

/-- COMB_INFO (R172, R176). -/
def combInfoDef : CmdDef :=
  { opcode := 0x0200, minVer := 1
    bad := fun r _ => badForm 0 r || badComb r
    wrong := fun _ _ s => hiveHeld s
    act := fun _ r s =>
      let d := tgtComb r
      (s, stOk, [n2w (cols d) 0, n2w (cols d) 0, n2w (combRatio d s) 0, combStat (combAt s d)]) }

/-- A map command's columns: external columns of the Comb, 1 to 224 of them (R173). -/
def badMapCols (r : Req) : Bool :=
  rsvd (arg r 3) 0x03FF0001 || rsvd (arg r 4) 0xFF || argF r 4 0 8 == 0 || decide (224 < argF r 4 0 8) ||
  decide (extCols (tgtComb r) < argF r 3 16 10 + argF r 4 0 8)

/-- The effect frame of a Comb command whose E stands in words `w` and `w + 1` (R171). -/
def combE (w : Nat) (r : Req) (s : State) : Nat := useES (tgtComb r == .S) (arg64 r w) s

/-- An outlet map change in frame `x.1` makes the map of that frame, or of the frame of a later change that is staged, name
one of its channels twice (R153). -/
def outletClash (x : OutStep) (s : State) : Bool :=
  let l := byFrame (·.1) (outSteps s ++ [x])
  ((l.map (·.1)).filter (fun f => x.1 ≤ f)).any (fun f => outletTwice x.2.2.2 (outletsAt f l s))

/-- COMB_MAP_SET refused with BAD_ARG (R11, R153, R171, R173). -/
def mapSetBad (r : Req) (s : State) : Bool :=
  let d := tgtComb r
  let n := argF r 4 0 8
  let ids := mapIds r
  let e := combE 5 r s
  badForm (4 + (n + 1) / 2) r || badComb r || badMapCols r ||
  (n % 2 == 1 && argF r (7 + n / 2) 16 16 != 0) || badES (d == .S) (arg64 r 5) s ||
  ids.any (fun i => !(if argB r 3 0 then sinkFits d i s else srcFits d i s)) ||
  (argB r 3 0 && outletClash (e, d, argF r 3 16 10, ids) s)

/-- A Comb commit or map change that is refused raises EV15 (R165). -/
def ev15 (op : Nat) (st : Nat) (_ : Req) (s : State) : State := raise 15 (n2w op 16 ||| n2w st 8) s

/-- COMB_MAP_SET (R153, R154, R172). -/
def combMapSetDef : CmdDef :=
  { opcode := 0x0201, minVer := 1
    bad := mapSetBad
    wrong := fun _ r s => hiveHeld s || tuneBusy s || hiveBars (combE 5 r s) s
    refused := ev15 0x0201
    act := fun m r s =>
      let e := combE 5 r s
      (stage m r.tag e (.combMap (tgtComb r) (argB r 3 0) (argF r 3 16 10) (mapIds r)) s, stOk, pair64 e) }

/-- COMB_MAP_GET (R172, R176). -/
def combMapGetDef : CmdDef :=
  { opcode := 0x0202, minVer := 1
    bad := fun r _ => badForm 2 r || badComb r || badMapCols r
    wrong := fun _ _ s => hiveHeld s
    act := fun _ r s =>
      let c := combAt s (tgtComb r)
      let m := if argB r 3 0 then c.outlet else c.intake
      (s, stOk, packIds ((List.range (argF r 4 0 8)).map (fun j => sget 0 m (argF r 3 16 10 + j)))) }

/-- A run of nodes that leaves the Comb, or an empty one (R173). -/
def badRun (d : Dom) (a b n : Nat) (row : Bool) : Bool :=
  n == 0 || decide (cols d < (if row then a + n else a + 1)) || decide (cols d < (if row then b + 1 else b + n))

/-- COMB_STAGE (R156 to R158, R172, R173). -/
def combStageDef : CmdDef :=
  { opcode := 0x0203, minVer := 1
    bad := fun r _ =>
      let n := argF r 4 0 7
      badForm (2 + n) r || badComb r || rsvd (arg r 3) 0x03FF03FF || rsvd (arg r 4) 0x8000007F ||
      decide (112 < n) || badRun (tgtComb r) (argF r 3 0 10) (argF r 3 16 10) n (argB r 4 31) ||
      (args r 5 n).any badGain
    wrong := fun _ _ s => hiveHeld s || tuneBusy s
    busy := fun r s => let c := combAt s (tgtComb r)
      !c.commits.isEmpty && decide (16 ≤ c.held.length)
    act := fun _ r s =>
      let d := tgtComb r
      let a := argF r 3 0 10
      let b := argF r 3 16 10
      let gs := args r 5 (argF r 4 0 7)
      let c := combAt s d
      match c.commits.getLast? with
      | some p => (modComb d (fun c => { c with held := c.held ++ [⟨a, b, argB r 4 31, gs, p.1⟩] }) s, stOk, [])
      | none => (stageNow d (argB r 4 31) a b gs s, stOk, []) }

/-- One record of COMB_STAGE_BULK (R174). -/
structure StageRec where
  a : Nat
  b : Nat
  row : Bool
  gains : List F32

/-- The records of a bulk range; none: one breaks R156 or R173 or runs past the length (R174). -/
def stageRecs (d : Dom) : Nat → List Word → Option (List StageRec)
  | _, [] => some []
  | 0, _ => none
  | _ + 1, [_] => none
  | fuel + 1, w0 :: w1 :: ws =>
    let n := fld w1 0 10
    let r : StageRec := ⟨fld w0 0 10, fld w0 16 10, w1.getLsbD 31, ws.take n⟩
    if rsvd w0 0x03FF03FF || rsvd w1 0x800003FF || decide (512 < n) || decide (ws.length < n) ||
      badRun d r.a r.b n r.row || r.gains.any badGain then none
    else (stageRecs d fuel (ws.drop n)).map (r :: ·)

/-- The records that a COMB_STAGE_BULK names. -/
def bulkRecs (r : Req) (s : State) : Option (List StageRec) :=
  let n := argF r 4 0 14
  stageRecs (tgtComb r) n (bulkWords (argF r 3 0 16) n s)

/-- COMB_STAGE_BULK (R158, R172 to R174). -/
def combStageBulkDef : CmdDef :=
  { opcode := 0x0204, minVer := 2
    bad := fun r s =>
      badForm 2 r || badComb r || rsvd (arg r 3) 0xFFFF || rsvd (arg r 4) 0x3FFF ||
      badBulk (argF r 3 0 16) (argF r 4 0 14) || bulkSpoiled (argF r 3 0 16) (argF r 4 0 14) s ||
      (bulkRecs r s).isNone
    refused := fun st r s => bulkRefused (argF r 3 0 16) (argF r 4 0 14) st s
    wrong := fun _ r s => hiveHeld s || tuneBusy s || !(combAt s (tgtComb r)).commits.isEmpty ||
      bulkTaken (argF r 3 0 16) (argF r 4 0 14) s
    act := fun m r s =>
      let d := tgtComb r
      let rs := (bulkRecs r s).getD []
      let s := bulkErrs (argF r 3 0 16) (argF r 4 0 14) s
      (ownBulk m (argF r 3 0 16) (argF r 4 0 14) (rs.foldl (fun s x => stageNow d x.row x.a x.b x.gains s) s), stOk,
        [n2w (rs.map (fun x => x.gains.length)).sum 0]) }

/-- COMB_COMMIT (R160, R163, R171, R172). -/
def combCommitDef : CmdDef :=
  { opcode := 0x0205, minVer := 1
    bad := fun r s => badForm 3 r || badComb r || rsvd (arg r 3) 0xFFFF || badES (tgtComb r == .S) (arg64 r 4) s ||
      (combAt s (tgtComb r)).commits.any (fun p => decide (combE 4 r s ≤ p.1))
    wrong := fun _ r s => hiveHeld s || tuneBusy s || hiveBars (combE 4 r s) s
    busy := fun r s => decide (4 ≤ (combAt s (tgtComb r)).commits.length)
    refused := ev15 0x0205
    act := fun m r s =>
      let e := combE 4 r s
      (stage m r.tag e (.combCommit (tgtComb r))
        (modComb (tgtComb r) (fun c => { c with commits := c.commits ++ [(e, argF r 3 0 16)] }) s), stOk, pair64 e) }

/-- COMB_STAGE_DISCARD (R158, R172, R175). -/
def combStageDiscardDef : CmdDef :=
  { opcode := 0x0206, minVer := 2
    bad := fun r _ => badForm 0 r || badComb r
    wrong := fun _ r s => hiveHeld s || !(combAt s (tgtComb r)).commits.isEmpty
    act := fun _ r s => (modComb (tgtComb r) (discardStage (tgtComb r)) s, stOk, []) }

/-- A gain of a node by its form: current, target, staged (R173). -/
def gainOf (form : Nat) (n : Node) : F32 :=
  match form with
  | 0 => n.cur
  | 1 => n.target
  | _ => n.staged

/-- Ianik reads words of nodes: a corrected error is counted in its class, an uncorrectable one is treated as the datapath
treats it (R166, R408, R409). -/
def gainErrs (d : Dom) (ws : List Nat) (s : State) : State :=
  (s.care.upsets.filter (fun u => u.word.cls == .comb && u.word.unit == domNo d && ws.contains u.word.addr)).foldl
    (fun s u => if u.double then nodeBad d u s else countCorr .comb s) s

/-- COMB_GAIN_READ (R172, R173, R176, R407). -/
def combGainReadDef : CmdDef :=
  { opcode := 0x0207, minVer := 1
    bad := fun r _ =>
      let n := argF r 4 0 7
      badForm 2 r || badComb r || rsvd (arg r 3) 0x03FF03FF || rsvd (arg r 4) 0x8000037F || decide (112 < n) ||
      argF r 4 8 2 == 3 || badRun (tgtComb r) (argF r 3 0 10) (argF r 3 16 10) n (argB r 4 31)
    wrong := fun _ _ s => hiveHeld s
    act := fun _ r s =>
      let d := tgtComb r
      let a := argF r 3 0 10
      let b := argF r 3 16 10
      let form := argF r 4 8 2
      let ks := (List.range (argF r 4 0 7)).map (fun j => if argB r 4 31 then nodeKey d (a + j) b else nodeKey d a (b + j))
      let s := gainErrs d (ks.map (fun k => 3 * k + (2 - form))) s
      (s, stOk, ks.map (fun k => gainOf form (sget {} (combAt s d).nodes k))) }

/-- COMB_STATUS (R172, R176). -/
def combStatusDef : CmdDef :=
  { opcode := 0x0208, minVer := 1
    bad := fun r _ => badForm 0 r || badComb r
    wrong := fun _ _ s => hiveHeld s
    act := fun _ r s =>
      let c := combAt s (tgtComb r)
      let l := c.lastCommit.getD (0, 0)
      (s, stOk, combStat c :: (colWords c.marks ++ colWords (c.ramps.map (·.1)) ++ pair64 l.1 ++ [n2w l.2 0])) }

/-- Clear COMB_SPK_STAT of the cells of a mask (R169, R173). -/
def clearSparks (mask : Word) (s : State) : State :=
  { s with hive := { s.hive with cells := vmap s.hive.cells (fun c y =>
      if mask.getLsbD c then { y with stat := { y.stat with spkCount := 0, spkClamp := 0, spkNonfin := 0 } } else y) } }

/-- CHIMNEY_STATUS: the words before the clear, then the clear (R169, R172, R173, R176). -/
def chimneyStatusDef : CmdDef :=
  { opcode := 0x0209, minVer := 2
    bad := fun r _ => badForm 1 r || badComb r
    wrong := fun _ _ s => hiveHeld s
    act := fun _ r s => (clearSparks (arg r 3) s, stOk, s.hive.cells.toList.map sparkWord) }

/-! ### Meanings -/

/-- COMB_INFO (R176). -/
def execCombInfo (m : Fin 4) (r : Req) (s : State) : Host.Outcome State Fault Refusal :=
  .next (mbxCommand combInfoDef m r s)
/-- COMB_MAP_SET (R154). -/
def execCombMapSet (m : Fin 4) (r : Req) (s : State) : Host.Outcome State Fault Refusal :=
  .next (mbxCommand combMapSetDef m r s)
/-- COMB_MAP_GET (R176). -/
def execCombMapGet (m : Fin 4) (r : Req) (s : State) : Host.Outcome State Fault Refusal :=
  .next (mbxCommand combMapGetDef m r s)
/-- COMB_STAGE (R157). -/
def execCombStage (m : Fin 4) (r : Req) (s : State) : Host.Outcome State Fault Refusal :=
  .next (mbxCommand combStageDef m r s)
/-- COMB_STAGE_BULK (R174). -/
def execCombStageBulk (m : Fin 4) (r : Req) (s : State) : Host.Outcome State Fault Refusal :=
  .next (mbxCommand combStageBulkDef m r s)
/-- COMB_COMMIT (R160). -/
def execCombCommit (m : Fin 4) (r : Req) (s : State) : Host.Outcome State Fault Refusal :=
  .next (mbxCommand combCommitDef m r s)
/-- COMB_STAGE_DISCARD (R175). -/
def execCombStageDiscard (m : Fin 4) (r : Req) (s : State) : Host.Outcome State Fault Refusal :=
  .next (mbxCommand combStageDiscardDef m r s)
/-- COMB_GAIN_READ (R176). -/
def execCombGainRead (m : Fin 4) (r : Req) (s : State) : Host.Outcome State Fault Refusal :=
  .next (mbxCommand combGainReadDef m r s)
/-- COMB_STATUS (R176). -/
def execCombStatus (m : Fin 4) (r : Req) (s : State) : Host.Outcome State Fault Refusal :=
  .next (mbxCommand combStatusDef m r s)
/-- CHIMNEY_STATUS (R173). -/
def execChimneyStatus (m : Fin 4) (r : Req) (s : State) : Host.Outcome State Fault Refusal :=
  .next (mbxCommand chimneyStatusDef m r s)

/-- RAMP_END: a column whose ramp has reached its length stops ramping; EV14 where it was the last of its Comb
(R161, R164). -/
def execRampEnd (d : Dom) (col : Nat) (s : State) : Host.Outcome State Fault Refusal :=
  match (combAt s d).ramps.find? (fun e => e.1 = col) with
  | some e =>
    if e.2.n ≤ e.2.k then
      let s := modComb d (fun c => { c with ramps := skeep (· ≠ col) c.ramps }) s
      .next (raiseIf (ramping (combAt s d) = 0) 14 (combBit d) s)
    else .next s
  | none => .next s

end Sys2Proof.Machine
end

