-- ==== Sys2Proof/Machine/Domains.lean ====
section
/-! DEFINITION. Rate domains: rates and their change, the four bridges, the test generators, and the 0x03xx
commands (R178 to R200, R605). -/

namespace Sys2Proof.Machine

/-! ### Rates -/

/-- The Domains record changes. -/
def modDom (f : Domains → Domains) (s : State) : State :=
  { s with hive := { s.hive with dom := f s.hive.dom } }

/-- The F multiplier of a code (R178). -/
def mOf (c : Nat) : Nat := 2 ^ c

/-- The S divider of a code (R178). -/
def dOf : Nat → Nat
  | 1 => 2
  | 2 => 3
  | _ => 6

/-- The code of an F multiplier. -/
def mCode : Nat → Nat
  | 2 => 1
  | 4 => 2
  | _ => 3

/-- The code of an S divider. -/
def dCode : Nat → Nat
  | 2 => 1
  | 3 => 2
  | _ => 3

/-- fM in Hz (R178). -/
def fmHz (fm : Bool) : Nat := if fm then 44100 else 48000

/-- The frame rate of a domain in Hz (R178). -/
def domHz (d : Dom) (x : Domains) : Rat :=
  match d with
  | .M => (fmHz x.fm : Rat)
  | .F => ((fmHz x.fm * x.m : Nat) : Rat)
  | .S => mkRat (fmHz x.fm) x.d

/-- The number of the current frame of a domain (R15, R16). -/
def domFrame (d : Dom) (s : State) : Nat :=
  match d with
  | .M => s.stove.frame
  | .F => s.stove.frame * s.hive.dom.m + s.hive.dom.fIdx
  | .S => s.stove.frame / s.hive.dom.d

/-- No phase runs in any domain: the pause of a rate change, or the pause that a lock timeout holds (R17, R186, R192). -/
def hivePaused (s : State) : Bool :=
  match s.hive.dom.phase with
  | .paused | .waitLock => true
  | .running => s.hive.dom.stuck
  | .fadingOut | .fadingIn => false

/-- The Hive executes its phases. -/
def hivePhases (s : State) : Bool := hiveRuns s && !hivePaused s

/-- The factor a rate change puts on every external sink column in an M frame (R186). -/
def outFactor (n : Nat) (s : State) : F32 :=
  match s.hive.dom.phase, s.hive.dom.change with
  | .fadingOut, some x => qF32 (mkRat ((63 : Int) - ((n - x.q : Nat) : Int)) 63)
  | .fadingIn, some x => qF32 (mkRat ((n - x.r + 1 : Nat) : Int) 64)
  | _, _ => 0x3F800000

/-! ### Test generators -/

/-- One step of the LFSR x^32 + x^22 + x^2 + x + 1 in Fibonacci form (R196). -/
def lfsrStep (w : Word) : Word :=
  let fb := (w.getLsbD 31 != w.getLsbD 21) != (w.getLsbD 1 != w.getLsbD 0)
  w <<< 1 ||| b2w fb 0

/-- Round half to even of a rational that is not negative. -/
def rneQ (q : Rat) : Nat := rne q.num.toNat q.den

/-- The phase increment of a frequency in a domain (R196). -/
def phaseInc (f : F32) (hz : Rat) : Word := BitVec.ofNat 32 (rneQ (f32Q f * ((2 ^ 32 : Nat) : Rat) / hz))

/-- One domain frame of a test generator (R196). -/
def genStep (g : TestGen) : TestGen :=
  let ph := if g.first then 0 else g.phase + g.inc
  let st := lfsrStep g.lfsr
  match g.wave with
  | .off => { g with value := 0 }
  | .sine => { g with first := false, phase := ph
                      value := f32Mul g.level (genSin ph) }
  | .square => { g with first := false, phase := ph, value := if ph.getLsbD 31 then f32Neg g.level else g.level }
  | .noise => { g with first := false, lfsr := st
                       value := qF32 (f32Q g.level * ((st.toInt : Int) : Rat) / ((2 ^ 31 : Nat) : Rat)) }
  | .dc => { g with first := false, value := g.level }
  | .impulse => { g with first := false, value := if g.first then g.level else 0 }

/-- The generators of a domain step by one frame of it (R196). -/
def stepGens (d : Dom) (s : State) : State :=
  { s with hive := { s.hive with gens := vmap s.hive.gens (fun i g => if i.val / 8 = domNo d then genStep g else g) } }

/-- A TESTGEN_SET takes effect (R196). -/
def setGen (i : Fin 24) (w : Wave) (f level : F32) (s : State) : State :=
  { s with hive := { s.hive with gens := vmod s.hive.gens i (fun _ =>
      { wave := w, f := f, level := level, inc := phaseInc f (domHz (domOf (i.val / 8)) s.hive.dom), first := true }) } }

/-- At the tick of P every phase increment follows the new rate of its domain (R187). -/
def retimeGens (s : State) : State :=
  { s with hive := { s.hive with gens := vmap s.hive.gens (fun i g =>
      { g with inc := phaseInc g.f (domHz (domOf (i.val / 8)) s.hive.dom) }) } }

/-! ### Bridges -/

/-- The directions of the bridges: M→F 0, F→M 1, M→S 2, S→M 3 (R10). -/
def modBridge (i : Nat) (f : Bridge → Bridge) (s : State) : State :=
  { s with hive := { s.hive with bridges := vmodN s.hive.bridges i f } }

/-- A slip clears the direction's history and counts (R185). -/
def slip (b : Bridge) : Bridge := { b with hist := [], slips := stick 65535 b.slips }

/-- The directions of a mask slip with EV23; their history memories are written anew (R185). -/
def slips (mask : Word) (s : State) : State :=
  raise 23 mask { forget (fun w => w.cls == .bridge && mask.getLsbD w.unit) s with
    hive := { s.hive with bridges := vmap s.hive.bridges (fun i b => if mask.getLsbD i then slip b else b) } }

/-- The bridge directions that the Intake of a domain reads (R10). -/
def bridgesInto : Dom → List Nat
  | .M => [1, 3]
  | .F => [0]
  | .S => [2]

/-- The Intake of a domain reads the histories of its bridges: a direction with an uncorrectable error in it slips
(R185). -/
def bridgeErrors (d : Dom) (s : State) : State :=
  let mask := maskOf ((bridgesInto d).filter (fun i =>
    s.care.upsets.any (fun u => u.double && u.word.cls == .bridge && u.word.unit == i)))
  if mask = 0 then s else slips mask s

/-- The group delay of a filter mode in slower frames (R181). -/
def modeG : BridgeMode → Nat
  | .hold => 0
  | .fast => 3
  | .standard => 16

/-- The code of a filter mode (R181). -/
def modeCode : BridgeMode → Nat
  | .hold => 0
  | .fast => 1
  | .standard => 2

/-- The filter mode of a code. -/
def modeOf : Nat → BridgeMode
  | 0 => .hold
  | 1 => .fast
  | _ => .standard

/-- A channel of a frame of the writing domain, +0.0 where none was written since the history was cleared. -/
def bridgeIn (b : Bridge) (f : Int) (ch : Nat) : F32 :=
  match b.hist.find? (fun e => ((e.1 : Nat) : Int) = f) with
  | some e => finOr0 (e.2.getD ch 0)
  | none => 0

/-- The ratio of a bridge direction. -/
def bridgeR (i : Nat) (x : Domains) : Nat := if i < 2 then x.m else x.d

/-- A direction into the faster domain: M→F and S→M. -/
def bridgeUp (i : Nat) : Bool := i == 0 || i == 3

/-- A tap's index as its distance from the centre of a filter of 2 `c` + 1 taps: the response is symmetric (R181,
R207). -/
def fromCentre (c k : Nat) : Nat := if k ≤ c then c - k else k - c

/-- The value of a free tap of a bridge at a distance from the centre. -/
def rawTap (up : Bool) (g r dist : Nat) : Rat := f32Q (Config.bridgeTap up g r dist)

/-- The sum of the free taps of a decimator, beside the centre. -/
def sideSum (g r : Nat) : Rat := ((List.range (g * r)).map (fun i => 2 * rawTap false g r (i + 1))).sum

/-- The sum of the free taps of the polyphase branch of tap `k`: those further than r / 2 from the centre. -/
def branchSum (g r k : Nat) : Rat :=
  (((List.range (2 * g * r + 1)).filter (fun i => i % r = k % r ∧ r < 2 * fromCentre (g * r) i)).map (fun i =>
    rawTap true g r (fromCentre (g * r) i))).sum

/-- A tap of a bridge filter. The free taps fix it by the rule on the sums: the centre of a decimator, and in each branch
of an interpolator the tap or the two taps next to the centre, bring the sum to 1.0 but for one rounding (R181, log
entry 7). -/
def bridgeTapAt (up : Bool) (g r k : Nat) : F32 :=
  let dist := fromCentre (g * r) k
  if up then
    if r < 2 * dist then Config.bridgeTap up g r dist
    else qF32 ((1 - branchSum g r k) / (if 2 * dist = r then 2 else 1))
  else if dist = 0 then qF32 (1 - sideSum g r)
  else Config.bridgeTap up g r dist

/-- The output of a bridge channel in frame `j` of the reading domain (R182 to R184). Taps are summed by rising
index (log entry 7). -/
def bridgeOut (i : Nat) (ch j : Nat) (s : State) : F32 :=
  let b := vgetD s.hive.bridges i {}
  let r := bridgeR i s.hive.dom
  match b.mode with
  | .hold => bridgeIn b (if bridgeUp i then (((j / r : Nat) : Int) - 2) else (((j : Int) - 1) * r - 1)) ch
  | md =>
    let g := modeG md
    let x (k : Nat) : F32 :=
      if bridgeUp i then
        let t : Int := (j : Int) - k
        if t.emod r = 0 then bridgeIn b (t / r - 2) ch else 0
      else bridgeIn b (((j : Int) - 1) * r - 1 - k) ch
    f64To32 ((List.range (2 * g * r + 1)).foldl (fun acc k => f64Mac false acc (bridgeTapAt (bridgeUp i) g r k) (x k)) 0)

/-- An Outlet writes the 32 channels of a bridge input for frame `j` of its domain (R180). -/
def bridgeWrite (i j : Nat) (vals : List F32) (s : State) : State :=
  modBridge i (fun b => { b with hist := ((j, vals) :: b.hist).take 300 }) s

/-! ### A rate change at the ticks -/

/-- Every data RAM word of the F and S cells becomes +0.0 (R187). -/
def clearFS (s : State) : State :=
  ((List.finRange 32).filter (fun c => cellDom (cellAt s c) == some .F || cellDom (cellAt s c) == some .S)).foldl
    (fun s c => clearData c s) s

/-- The change is complete (R186, R191, R192, R200). -/
def rateDone (s : State) : State :=
  modDom (fun x => { x with phase := .running, stuck := false, changes := stick 255 x.changes, change := none }) s

/-- The tick of P in the Hive: the new m, d and fM apply, the generators are retimed, F and S entries from outside
are invalid, the adapters' history is +0.0, and CLEAR_FS clears (R186, R187, R190, R330). -/
def rateAtP (x : RateChange) (s : State) : State :=
  let s := modDom (fun y => { y with fm := x.fm, m := x.m, d := x.d, fIdx := 0 }) s
  let s := { retimeGens s with hw := s.hw.map (fun c => { c with
    inF := .replicate 4 none, inS := .replicate 4 none, outF := .replicate 4 none, fHist := []
    up := c.up.map (fun z => { z with quad := List.replicate 3 (some 0), conc := List.replicate 3 0 }) }) }
  if x.clearFs && !hiveHeld s && x.r != x.p then clearFS s else s

/-- What the rate change under way does at the tick of M frame `n` in the Hive (R186, R190, R191). In STANDBY, where R is
P, the phase reads running, but for the wait for lock. -/
def rateTick (n : Nat) (s : State) : State :=
  match s.hive.dom.change with
  | none => s
  | some x =>
    let s := if n = x.q ∧ n ≠ x.p then modDom (fun y => { y with phase := .fadingOut }) s else s
    let s := if n = x.p then
        let s := rateAtP x s
        if x.fmChange then modDom (fun y => { y with phase := .waitLock }) s
        else if x.r = x.p ∨ hiveHeld s then rateDone s
        else modDom (fun y => { y with phase := .paused }) s
      else s
    if hiveHeld s ∨ x.r = x.p then s
    else if n = x.r then modDom (fun y => { y with phase := .fadingIn }) (slips 0xF s)
    else if x.r ≠ 0 ∧ n = x.r + 63 then rateDone s
    else s

/-- The Stove reports lock in M frame `n`: a change of fM that waits names R and completes its command with EV4
(R190, R191). -/
def rateLock (n : Nat) (s : State) : State :=
  match s.hive.dom.change with
  | some x =>
    if s.hive.dom.phase = .waitLock then
      let r := if hiveHeld s then 0 else upTo x.d (n + 16)
      let s := complete 0x0301 x.mbx x.tag (BitVec.ofNat 8 stOk) (pair64 r) s
      if hiveHeld s then rateDone s
      else modDom (fun y => { y with
        phase := .paused, change := some { x with r := r, lockAt := some n }, lastQPR := (x.q, x.p, r) }) s
    else s
  | none => s

/-! ### DOMAIN_SET -/

/-- A rate change is under way (R186, R188). -/
def rateBusy (s : State) : Bool := s.hive.dom.change.isSome

/-- A change ended in a lock timeout (R192). -/
def rateStuck (s : State) : Bool := s.hive.dom.stuck

/-- The rates a DOMAIN_SET names. -/
def setFm (r : Req) : Bool := argF r 3 0 2 == 1
def setM (r : Req) : Nat := mOf (argF r 3 4 2)
def setD (r : Req) : Nat := dOf (argF r 3 8 2)

/-- It names the rates in force (R605). -/
def setSame (r : Req) (s : State) : Bool :=
  let x := s.hive.dom
  setFm r == x.fm && setM r == x.m && setD r == x.d

/-- The Stove must lock anew for it: a change of fM, or any DOMAIN_SET after a lock timeout (R190, R192). -/
def setLocks (r : Req) (s : State) : Bool := setFm r != s.hive.dom.fm || rateStuck s

/-- Q (R186, R191, R192). -/
def setQ (r : Req) (s : State) : Nat :=
  if hiveHeld s || rateStuck s then effFrame s
  else if arg64 r 4 = 0 then upTo s.hive.dom.d (s.stove.frame + 66) - 64
  else arg64 r 4

/-- P (R186, R191, R192). -/
def setP (r : Req) (s : State) : Nat := if hiveHeld s || rateStuck s then setQ r s else setQ r s + 64

/-- R where it is known when the command is sampled (R186, R190, R191). -/
def setR (r : Req) (s : State) : Nat :=
  if setLocks r s then 0 else if hiveHeld s then setP r s else upTo (setD r) (setP r s + 16)

/-- DOMAIN_SET refused with BAD_ARG (R188, R191, R198). -/
def domainSetBad (r : Req) (s : State) : Bool :=
  badForm 3 r || badTarget r || rsvd (arg r 3) 0x00010333 || decide (1 < argF r 3 0 2) || argF r 3 4 2 == 0 ||
  argF r 3 8 2 == 0 ||
  (!hiveHeld s && !rateStuck s && arg64 r 4 != 0 &&
    (decide (arg64 r 4 < effFrame s) || (arg64 r 4 + 64) % s.hive.dom.d != 0))

/-- The stamps of everything pending (R188). A TUNE_LOAD that is still loading counts with the frame it names (DESIGN CHOICE,
log entry 74). -/
def pendingStamps (s : State) : List Nat :=
  (s.boot.job.toList ++ s.boot.jobs).filterMap (fun j => if j.cell.isSome ∨ j.eff = 0 then none else some j.eff) ++
  s.ianik.staged.map (·.frame) ++ s.hive.combs.toList.flatMap (fun c => c.commits.map (·.1)) ++
  s.hive.cells.toList.flatMap (fun y => y.queue.filterMap (·.frame)) ++ (s.hive.transit ++ s.ianik.stalled).filterMap (·.frame)

/-- The roles and banks that cell `c` holds from M frame `p` on, by the changes accepted so far (R108). -/
def viewsFrom (c : Fin 32) (p : Nat) (s : State) : List CellView :=
  let y := cellAt s c
  let vs := progViews c s
  let base := match (vs.filter (fun v => v.1 < p)).getLast? with
    | some v => v.2
    | none => (y.role, y.actP, y.actC)
  base :: (vs.filter (fun v => p ≤ v.1)).map (·.2)

/-- The program of some cell would not fit the window of the new rates (R108). -/
def windowsShort (p m d : Nat) (s : State) : Bool :=
  (List.finRange 32).any (fun c => (viewsFrom c p s).any (fun v => match v.1 with
    | some x => decide (winLen x.dom m d < (cellAt s c).mem.pmeta[v.2.1].len)
    | none => false))

/-- DOMAIN_SET refused with STATE (R108, R188, R191). -/
def domainSetWrong (r : Req) (s : State) : Bool :=
  windowsShort (setP r s) (setM r) (setD r) s ||
  rateBusy s ||
  (pendingStamps s).any (fun e => decide (setQ r s ≤ e) && (setLocks r s || decide (e < setR r s))) ||
  (setFm r != s.hive.dom.fm && !hiveHeld s && (s.pow.seqBel || s.pow.seqHw[0] || s.pow.seqHw[1]))

/-- DOMAIN_SET's effect (R186, R190 to R192, R199, R605). -/
def domainSetAct (m : Nat) (r : Req) (s : State) : State × Nat × List Word :=
  if setSame r s && !rateStuck s then (s, stOk, [0, 0, 0, 0, 0, 0]) else
    let x : RateChange := ⟨setFm r, setM r, setD r, argB r 3 16, setQ r s, setP r s, setR r s, setLocks r s, m, r.tag, none⟩
    let t := modDom (fun y => { y with change := some x, lastQPR := (x.q, x.p, x.r) }) s
    let ws := pair64 x.q ++ pair64 x.p ++ pair64 x.r
    if x.fmChange then (defer 0x0301 m r.tag none t, stDeferred, ws) else (t, stOk, ws)

/-- DOMAIN_SET (R186, R197). -/
def domainSetDef : CmdDef :=
  { opcode := 0x0301, minVer := 2
    bad := domainSetBad
    wrong := fun _ r s => domainSetWrong r s
    busy := fun r s => setLocks r s && decide (16 ≤ s.ianik.deferred.length)
    act := domainSetAct }

/-- The code of a phase in HIVE_DOM_PHASE (R200). -/
def domPhaseCode : DomPhase → Nat
  | .running => 0
  | .fadingOut => 1
  | .paused => 2
  | .waitLock => 3
  | .fadingIn => 4

/-- HIVE_DOM_PHASE: lock timed out until a further DOMAIN_SET completes (R192, R200). -/
def domPhase (x : Domains) : Nat := if x.stuck then 5 else domPhaseCode x.phase

/-- HIVE_DOM_STAT (R200). -/
def domStat (s : State) : Word :=
  let x := s.hive.dom
  n2w x.changes 24 ||| n2w (domPhase x) 16 ||| n2w (dCode x.d) 8 ||| n2w (mCode x.m) 4 ||| b2w x.fm 0

/-- DOMAIN_INFO (R197, R199). -/
def domainInfoDef : CmdDef :=
  { opcode := 0x0300, minVer := 1
    bad := fun r _ => badForm 0 r || badTarget r
    act := fun _ _ s =>
      let l := s.hive.dom.lastQPR
      (s, stOk, domStat s :: (pair64 l.1 ++ pair64 l.2.1 ++ pair64 l.2.2)) }

/-! ### Bridge and generator commands -/

/-- The direction a bridge command names. -/
def tgtDir (r : Req) : Fin 4 := ixN 4 (by decide) (fld r.target 0 2)

/-- A direction to or from S. -/
def dirS (r : Req) : Bool := decide (2 ≤ fld r.target 0 2)

/-- BRIDGE_MODE_SET (R185, R197, R198). -/
def bridgeModeSetDef : CmdDef :=
  { opcode := 0x0302, minVer := 2
    bad := fun r s => badForm 3 r || rsvd r.target 3 || rsvd (arg r 3) 3 || arg r 3 == 3 ||
      badES (dirS r) (arg64 r 4) s
    wrong := fun _ r s => hiveHeld s || hiveBars (useES (dirS r) (arg64 r 4) s) s
    act := fun m r s =>
      let e := useES (dirS r) (arg64 r 4) s
      (stage m r.tag e (.bridgeMode (tgtDir r) (modeOf (argF r 3 0 2))) s, stOk, pair64 e) }

/-- A bridge takes a filter mode and slips (R185). -/
def setBridge (i : Fin 4) (md : BridgeMode) (s : State) : State :=
  slips (bit i) (modBridge i (fun b => { b with mode := md }) s)

/-- BRIDGE_STATUS (R197, R199). -/
def bridgeStatusDef : CmdDef :=
  { opcode := 0x0303, minVer := 2
    bad := fun r _ => badForm 0 r || rsvd r.target 3
    wrong := fun _ _ s => hiveHeld s
    act := fun _ _ s =>
      let b := s.hive.bridges
      (s, stOk, b.toList.map (fun x => n2w (modeCode x.mode) 0) ++
        [n2w b[1].slips 16 ||| n2w b[0].slips 0, n2w b[3].slips 16 ||| n2w b[2].slips 0]) }

/-- The waveform of a code (R196). -/
def waveOf : Nat → Wave
  | 0 => .off
  | 1 => .sine
  | 2 => .square
  | 3 => .noise
  | 4 => .dc
  | _ => .impulse

/-- A generator of the S domain. -/
def genS (r : Req) : Bool := fld r.target 0 2 == 2

/-- The generator a TESTGEN_SET names. -/
def tgtGen (r : Req) : Fin 24 := ixN 24 (by decide) (fld r.target 0 2 * 8 + fld r.target 2 3)

/-- TESTGEN_SET (R196 to R198). The frequency is held to the rate of the domain at the sampling, also where a rate change
pends (DESIGN CHOICE, log entry 74). -/
def testgenSetDef : CmdDef :=
  { opcode := 0x0304, minVer := 2
    bad := fun r s => badForm 5 r || rsvd r.target 0x1F || fld r.target 0 2 == 3 || rsvd (arg r 3) 7 ||
      decide (5 < (arg r 3).toNat) || !f32Fin (arg r 4) || decide (f32Q (arg r 4) < 0) ||
      decide (domHz (domOf (fld r.target 0 2)) s.hive.dom ≤ 2 * f32Q (arg r 4)) || !f32In (-8) 8 (arg r 5) ||
      badES (genS r) (arg64 r 6) s
    wrong := fun _ r s => hiveHeld s || hiveBars (useES (genS r) (arg64 r 6) s) s
    act := fun m r s =>
      let e := useES (genS r) (arg64 r 6) s
      (stage m r.tag e (.testgen (tgtGen r) (waveOf (argF r 3 0 3)) (arg r 4) (arg r 5)) s, stOk, pair64 e) }

/-! ### Meanings -/

/-- DOMAIN_INFO (R199). -/
def execDomainInfo (m : Fin 4) (r : Req) (s : State) : Host.Outcome State Fault Refusal :=
  .next (mbxCommand domainInfoDef m r s)
/-- DOMAIN_SET (R186). -/
def execDomainSet (m : Fin 4) (r : Req) (s : State) : Host.Outcome State Fault Refusal :=
  .next (mbxCommand domainSetDef m r s)
/-- BRIDGE_MODE_SET (R185). -/
def execBridgeModeSet (m : Fin 4) (r : Req) (s : State) : Host.Outcome State Fault Refusal :=
  .next (mbxCommand bridgeModeSetDef m r s)
/-- BRIDGE_STATUS (R199). -/
def execBridgeStatus (m : Fin 4) (r : Req) (s : State) : Host.Outcome State Fault Refusal :=
  .next (mbxCommand bridgeStatusDef m r s)
/-- TESTGEN_SET (R196). -/
def execTestgenSet (m : Fin 4) (r : Req) (s : State) : Host.Outcome State Fault Refusal :=
  .next (mbxCommand testgenSetDef m r s)

/-- RATE_CHANGE_LOCK_TIMEOUT: 4 ms after P without lock the change ends, EV4 reports TIMEOUT, and the phase reads
lock timed out (R192). -/
def execRateChangeLockTimeout (s : State) : Host.Outcome State Fault Refusal :=
  match s.hive.dom.change with
  | some x =>
    if s.hive.dom.phase = .waitLock ∧ s.stove.lock = false then
      .next (complete 0x0301 x.mbx x.tag (BitVec.ofNat 8 stTimeout) (pair64 0)
        (modDom (fun y => { y with phase := .running, stuck := true, change := none }) s))
    else .next s
  | none => .next s

end Sys2Proof.Machine
end

