-- ==== Sys2Proof/Machine/System.lean ====
section
/-! DEFINITION. The ring of records, the event block, and the 0x00xx and 0x0Dxx commands (R475 to R504, R545 to
R551). -/

namespace Sys2Proof.Machine

/-! ### The ring -/

/-- Words free for records (R477). -/
def ringFree (e : Events) : Nat := (e.tail + 1019 - e.head) % 1020

/-- Words a record of `n` words takes where the head stands, a padding record before it included (R477). -/
def ringNeed (n : Nat) (e : Events) : Nat := if e.head + n ≤ 1020 then n else 1020 - e.head + n

/-- A record of `n` words fits (R477). -/
def ringFits (n : Nat) (e : Events) : Bool := decide (ringNeed n e ≤ ringFree e)

/-- The RAM address of ring word `i` (R464). -/
def ringAddr (i : Nat) : Nat := 0xF010 + 4 * i

/-- Write a record that fits: kind, and the words after the header; the head advances after the last word (R476,
R477). -/
def ringPut (kind : Nat) (ws : List Word) (s : State) : State :=
  let n := ws.length + 1
  let h := s.evt.head
  let s := if h + n ≤ 1020 then s else ramWrite (ringAddr h) 0 s
  let h := if h + n ≤ 1020 then h else 0
  let s := ramWrites (ringAddr h) ((n2w kind 24 ||| n2w n 16 ||| n2w s.evt.ringSeq 0) :: ws) s
  let h := (h + n) % 1020
  let s := ramWrite 0xF000 (n2w h 0) s
  { s with evt := { s.evt with head := h, ringSeq := (s.evt.ringSeq + 1) % 65536 } }

/-- A record is dropped (R478). -/
def ringDrop (s : State) : State :=
  let n := stick 0xFFFFFFFF s.evt.dropped
  { ramWrite 0xF008 (n2w n 0) s with evt := { s.evt with dropped := n } }

/-- The words of a completion record after its header (R476). -/
def completionWords (c : Completion) (frame : Nat) : List Word :=
  [n2w c.opcode.toNat 16 ||| n2w c.status.toNat 8 ||| n2w c.mbx 0,
    n2w c.tag.toNat 16 ||| n2w (4 * c.payload.length) 0, n2w frame 0] ++ c.payload

/-- Remove the first element that satisfies `p`. -/
def dropFirst {α : Type} (p : α → Bool) : List α → List α
  | [] => []
  | x :: xs => if p x then xs else x :: dropFirst p xs

/-- Write the oldest waiting completion where it fits: its command is no longer outstanding, and EV4 is raised
(R475, R478). -/
def completionWrite (s : State) : State :=
  match s.evt.waiting with
  | [] => s
  | c :: cs =>
    let ws := completionWords c s.stove.frame
    if ringFits (ws.length + 1) s.evt then
      let s := ringPut 1 ws { s with evt := { s.evt with waiting := cs } }
      let s := { s with ianik := { s.ianik with deferred := dropFirst (fun d =>
        d.opcode == c.opcode && d.mbx == c.mbx && d.tag == c.tag) s.ianik.deferred } }
      raise 4 (n2w c.opcode.toNat 16 ||| n2w c.status.toNat 8 ||| n2w c.mbx 0) s
    else s

/-- Write waiting completions as long as they fit. -/
def completionsWrite : Nat → State → State
  | 0, s => s
  | n + 1, s => completionsWrite n (completionWrite s)

/-- Ianik writes records: its firmware runs, or the ROM after step 9 (R478). -/
def recordsOn (s : State) : Bool :=
  ianikRuns s || (s.pow.st == .powerUp && s.boot.done && !s.pow.ianikRst)

/-- The M frame number of the Hearth's copy, all ones while it is not valid (R552). -/
def frameCopy (s : State) : Nat := if s.stove.valid then s.stove.frame else 2 ^ 64 - 1

/-! ### Delivery -/

/-- The event record of a delivery: written where there is room, else counted as dropped; none where no Ianik could
write it but the Hearth responder holds the ring (R478). -/
def eventRecord (n occ : Nat) (d : Word) (s : State) : State :=
  if !s.evt.recMask.getLsbD n then s
  else if recordsOn s then
    let s := completionsWrite s.evt.waiting.length s
    if s.evt.waiting.isEmpty && ringFits 5 s.evt then
      ringPut 2 ([n2w occ 16 ||| n2w n 0] ++ pair64 (frameCopy s) ++ [d]) s
    else ringDrop s
  else if s.pow.ianikRst || s.pow.st == .hearthSafe then ringDrop s
  else s

/-- EVT_COUNTn grows by the occurrences and sticks; the first saturation raises EV56 (R551). -/
def countEvent (n occ : Nat) (s : State) : State :=
  let v := vgetD s.evt.counts n 0 + occ
  if v < 2 ^ 32 then { s with evt := { s.evt with counts := vmodN s.evt.counts n (fun _ => v) } }
  else
    let was := s.evt.sat.getLsbD n
    let s := { s with evt := { s.evt with
      counts := vmodN s.evt.counts n (fun _ => 2 ^ 32 - 1), sat := s.evt.sat ||| BitVec.ofNat 64 (2 ^ n) } }
    raiseIf (!was && n != 56) 56 (n2w n 0) s

/-- EVENT_DELIVERY: the occurrences waiting at the source reach the event block (R50, R545). -/
def execEventDelivery (n : Fin 64) (s : State) : Host.Outcome State Fault Refusal :=
  let occ := s.evt.acc[n]
  if occ = 0 ∨ s.pow.st = .off then .next s else
    let d := s.evt.detail[n]
    let s := { s with evt := { s.evt with
      acc := vmod s.evt.acc n (fun _ => 0)
      parts := s.evt.parts.filter (fun p => p.1 / 32 ≠ n.val)
      detail := vmod s.evt.detail n (fun _ => 0)
      pend := s.evt.pend ||| BitVec.ofNat 64 (2 ^ n.val) } }
    .next (eventRecord n occ d (countEvent n occ s))

/-- COMPLETION_RECORD_WRITE: the oldest waiting completion record is written once there is room (R478). -/
def execCompletionRecordWrite (s : State) : Host.Outcome State Fault Refusal :=
  .next (if recordsOn s then completionWrite s else s)

/-- FIRMWARE_FAULT: a fault survived is recorded and raises EV5 (R495, R557). -/
def execFirmwareFault (cls : Byte) (code : BitVec 24) (s : State) : Host.Outcome State Fault Refusal :=
  if recordsOn s then
    let s := { s with ianik := { s.ianik with fwFaults := (cls, code) :: s.ianik.fwFaults } }
    .next (raise 5 (n2w cls.toNat 24 ||| n2w code.toNat 0) (logFault 0x0B (code.extractLsb' 0 16) s))
  else .next s

/-! ### The 0x00xx commands -/

/-- DEV_ID (file 17). -/
def devId : Word := 0x3232

/-- The firmware version of SYS_INFO (R500). -/
def fwVersion (s : State) : Word :=
  match s.boot.man with
  | some m => if romServing s then 0x00B00000 else m.version
  | none => 0x00B00000

/-- SYS_INFO (R496, R500). -/
def sysInfoDef : CmdDef :=
  { opcode := 0x0000, minVer := 1
    bad := fun r _ => badForm 0 r || badTarget r
    act := fun _ _ s =>
      (s, stOk, [devId, fwVersion s, n2w (lcCode s.pow.lc) 0, hrthStatus s,
        n2w s.mbx[3].ver 24 ||| n2w s.mbx[2].ver 16 ||| n2w s.mbx[1].ver 8 ||| n2w s.mbx[0].ver 0] ++
        pair64 s.stove.frame ++ [n2w s.ianik.deferred.length 0]) }

/-- SYS_HELLO: the version asked for is granted and holds after the response (R481, R497, R500). -/
def sysHelloDef : CmdDef :=
  { opcode := 0x0001, minVer := 1
    bad := fun r _ => badForm 1 r || badTarget r || rsvd (arg r 3) 0xF || argF r 3 0 4 == 0 ||
      decide (3 < argF r 3 0 4)
    act := fun m r s =>
      ({ s with mbx := vmodN s.mbx m (fun b => { b with grant := some (argF r 3 0 4) }) }, stOk,
        [n2w (argF r 3 0 4) 0, devId, fwVersion s, n2w m 0, n2w (lcCode s.pow.lc) 0]) }

/-- A component kind of a tuning or the firmware configuration has been applied, by its number of R519. -/
def applied (s : State) (k : Nat) : Bool := s.boot.applied.getLsbD k

/-- What a release of the Hive needs (R525): firmware configuration 3, cell programs 4, coefficients 5, Comb
defaults 6 (R519). A recovery image never meets it. -/
def hiveOk (s : State) : Bool :=
  applied s 3 && applied s 4 && applied s 5 && applied s 6 && s.boot.src != .recovery

/-- What a release of the Bellows needs (R525). -/
def belOk (s : State) : Bool := hiveOk s && s.boot.dmprApplied

/-- What a release of a chain needs: port and Hivewire configuration 7 (R519, R525). -/
def hwOk (s : State) : Bool := hiveOk s && applied s 7

/-- SYS_POWER with target RUN is refused with STATE (R31, R189, R498, R525, R554). -/
def runWrong (r : Req) (s : State) : Bool :=
  rateBars (effFrame s) s ||
  !(s.pow.st == .standby || s.pow.st == .run) || s.hearth.runBarred ||
  (s.pow.st == .standby && !hiveOk s) || (argB r 3 4 && !belOk s) ||
  ((argB r 3 5 || argB r 3 6) && !hwOk s)

/-- SYS_POWER refused with STATE (R30, R31, R189, R498). -/
def sysPowerWrong (r : Req) (s : State) : Bool :=
  match argF r 3 0 2 with
  | 0 => runWrong r s
  | 1 => !(s.pow.st == .standby || s.pow.st == .run) || !s.ianik.deferred.isEmpty || rateBars (effFrame s) s
  | _ => s.pow.st != .standby || !s.ianik.deferred.isEmpty || rateBars (effFrame s) s

/-- SYS_POWER's effect (R498). -/
def sysPowerAct (m : Nat) (r : Req) (s : State) : State × Nat × List Word :=
  let e := effFrame s
  match argF r 3 0 2 with
  | 0 => (stage m r.tag e (.release true (argB r 3 4) (argB r 3 5) (argB r 3 6)) s, stOk, pair64 e)
  | 1 =>
    if s.pow.st = .run then
      (defer 0x0002 m r.tag none (stage m r.tag e (.toStandby (some (m, r.tag))) s), stDeferred, pair64 e)
    else (s, stOk, pair64 e)
  | _ => (stage m r.tag e .toHearth s, stOk, pair64 e)

/-- SYS_POWER (R496 to R498). -/
def sysPowerDef : CmdDef :=
  { opcode := 0x0002, minVer := 1
    bad := fun r _ => badForm 1 r || badTarget r || rsvd (arg r 3) 0x73 || argF r 3 0 2 == 3 ||
      (argF r 3 0 2 != 0 && argF r 3 4 3 != 0)
    wrong := fun _ r s => sysPowerWrong r s
    act := sysPowerAct }

/-- SYS_LOOPBACK (R497, R500). -/
def sysLoopbackDef : CmdDef :=
  { opcode := 0x0003, minVer := 1
    bad := fun r _ => badForm 0 r || badTarget r
    act := fun _ r s => (s, stOk, args r 3 (nWords r)) }

/-- The presence window closes with EV7, where it is open (R488, R550). -/
def closePresence (cause : Nat) (s : State) : State :=
  if s.keeper.isOpen then
    raise 7 (n2w cause 0) { s with keeper := { s.keeper with isOpen := false } }
  else s

/-- SYS_PRESENCE (R488, R490, R496, R497, R500). -/
def sysPresenceDef : CmdDef :=
  { opcode := 0x0004, minVer := 2
    needs := fun _ r _ => argF r 3 0 2 == 2
    bad := fun r _ => badForm 1 r || badTarget r || rsvd (arg r 3) 3 || arg r 3 == 3 ||
      (arg r 3 == 2 && (badForm 2 r || rsvd (arg r 4) 0xFFF || decide ((arg r 4).toNat < 60) ||
        decide (3600 < (arg r 4).toNat)))
    act := fun _ r s =>
      let s := match argF r 3 0 2 with
        | 1 => closePresence 1 s
        | 2 => { s with keeper := { s.keeper with len := argF r 4 0 12 } }
        | _ => s
      ({ s with fresh := s.fresh + 1 }, stOk, [keeperStatus (keeperLeft s) s]) }

/-- A system reset that a command asks for: from RUN by the transition to STANDBY first (R499). -/
def askSystemReset (m : Nat) (t : BitVec 16) (s : State) : State :=
  let e := effFrame s
  match s.pow.st with
  | .run => stage m t e (.toStandby none) { s with pow := { s.pow with sysResetPends := true } }
  | .runToStandby => { s with pow := { s.pow with sysResetPends := true } }
  | _ => stage m t e .systemReset s

/-- SYS_RESET (R189, R497, R499, R500). -/
def sysResetDef : CmdDef :=
  { opcode := 0x0005, minVer := 1
    bad := fun r _ => badForm 1 r || badTarget r || rsvd (arg r 3) 1
    wrong := fun _ _ s => rateBars (effFrame s) s
    act := fun m r s =>
      let e := effFrame s
      let s := if argB r 3 0 then askSystemReset m r.tag s else stage m r.tag e .ianikReset s
      (s, stOk, pair64 e) }

/-- SYS_WATCHDOG (R491, R497, R500). -/
def sysWatchdogDef : CmdDef :=
  { opcode := 0x0006, minVer := 2
    bad := fun r _ => badForm 1 r || badTarget r || rsvd (arg r 3) 0x3FF ||
      (arg r 3 != 0 && (decide ((arg r 3).toNat < 10) || decide (1000 < (arg r 3).toNat)))
    act := fun _ r s =>
      let s := if arg r 3 = 0 then s else
        { s with hearth := { s.hearth with wdP := argF r 3 0 10, wdRestarted := true } }
      (s, stOk, [n2w s.hearth.wdP 0, n2w s.hearth.wdTotal 0]) }

/-! ### The 0x0Dxx commands -/

/-- A 64-bit mask as two words. -/
def words64 (x : BitVec 64) : List Word := [x.extractLsb' 0 32, x.extractLsb' 32 32]

/-- EVT_INFO (R501, R504). -/
def evtInfoDef : CmdDef :=
  { opcode := 0x0D00, minVer := 1
    bad := fun r _ => badForm 0 r || badTarget r
    act := fun _ _ s => (s, stOk, words64 s.evt.pend ++ words64 s.evt.mask ++
      [n2w s.evt.head 0, n2w s.evt.tail 0, n2w s.evt.dropped 0] ++ words64 s.evt.recMask) }

/-- EVT_COUNT_READ (R501, R502, R504). -/
def evtCountReadDef : CmdDef :=
  { opcode := 0x0D01, minVer := 1
    bad := fun r _ => badForm 1 r || badTarget r || rsvd (arg r 3) 0x7F3F || argF r 3 8 7 == 0 ||
      decide (64 < argF r 3 0 6 + argF r 3 8 7)
    act := fun _ r s =>
      (s, stOk, (List.range (argF r 3 8 7)).map (fun j => n2w (vgetD s.evt.counts (argF r 3 0 6 + j) 0) 0) ++
        words64 s.evt.sat) }

/-- EVT_COUNT_CLEAR (R501 to R503). -/
def evtCountClearDef : CmdDef :=
  { opcode := 0x0D02, minVer := 2
    bad := fun r _ => badForm 2 r || badTarget r
    act := fun _ r s =>
      let mask := BitVec.ofNat 64 (arg64 r 3)
      ({ s with evt := { s.evt with
        counts := vmap s.evt.counts (fun i c => if mask.getLsbD i then 0 else c), sat := s.evt.sat &&& ~~~ mask } },
        stOk, []) }

/-- EVT_RING_CONFIG (R501 to R503). -/
def evtRingConfigDef : CmdDef :=
  { opcode := 0x0D03, minVer := 2
    bad := fun r _ => badForm 3 r || badTarget r || rsvd (arg r 5) 3
    wrong := fun _ r s => argB r 5 1 && !s.evt.waiting.isEmpty
    act := fun _ r s =>
      let s := { s with evt := { s.evt with recMask := BitVec.ofNat 64 (arg64 r 3) } }
      let s := if argB r 5 0 then { ramWrite 0xF008 0 s with evt := { s.evt with dropped := 0 } } else s
      let s := if argB r 5 1 then
          { ramWrites 0xF000 [0, 0] s with evt := { s.evt with head := 0, tail := 0 } } else s
      (s, stOk, []) }

/-- EVT_TRACE_MARK (R476, R501 to R504). -/
def evtTraceMarkDef : CmdDef :=
  { opcode := 0x0D04, minVer := 3
    bad := fun r _ => badForm (1 + argF r 3 16 4) r || badTarget r || rsvd (arg r 3) 0xFFFFF ||
      argF r 3 16 4 == 0 || decide (8 < argF r 3 16 4)
    act := fun _ r s =>
      let n := argF r 3 16 4
      let s := completionsWrite s.evt.waiting.length s
      if ringFits (4 + n) s.evt then
        (ringPut 3 ([n2w (argF r 3 0 16) 16 ||| n2w n 0] ++ pair64 s.stove.frame ++ args r 4 n) s, stOk,
          [n2w s.evt.ringSeq 0])
      else (ringDrop s, stOverflow, []) }

/-! ### Meanings -/

/-- SYS_INFO (R500). -/
def execSysInfo (m : Fin 4) (r : Req) (s : State) : Host.Outcome State Fault Refusal :=
  .next (mbxCommand sysInfoDef m r s)
/-- SYS_HELLO (R481). -/
def execSysHello (m : Fin 4) (r : Req) (s : State) : Host.Outcome State Fault Refusal :=
  .next (mbxCommand sysHelloDef m r s)
/-- SYS_POWER (R498). -/
def execSysPower (m : Fin 4) (r : Req) (s : State) : Host.Outcome State Fault Refusal :=
  .next (mbxCommand sysPowerDef m r s)
/-- SYS_LOOPBACK (R497). -/
def execSysLoopback (m : Fin 4) (r : Req) (s : State) : Host.Outcome State Fault Refusal :=
  .next (mbxCommand sysLoopbackDef m r s)
/-- SYS_PRESENCE (R488). -/
def execSysPresence (m : Fin 4) (r : Req) (s : State) : Host.Outcome State Fault Refusal :=
  .next (mbxCommand sysPresenceDef m r s)
/-- SYS_RESET (R499). -/
def execSysReset (m : Fin 4) (r : Req) (s : State) : Host.Outcome State Fault Refusal :=
  .next (mbxCommand sysResetDef m r s)
/-- SYS_WATCHDOG (R491). -/
def execSysWatchdog (m : Fin 4) (r : Req) (s : State) : Host.Outcome State Fault Refusal :=
  .next (mbxCommand sysWatchdogDef m r s)
/-- EVT_INFO (R504). -/
def execEvtInfo (m : Fin 4) (r : Req) (s : State) : Host.Outcome State Fault Refusal :=
  .next (mbxCommand evtInfoDef m r s)
/-- EVT_COUNT_READ (R501). -/
def execEvtCountRead (m : Fin 4) (r : Req) (s : State) : Host.Outcome State Fault Refusal :=
  .next (mbxCommand evtCountReadDef m r s)
/-- EVT_COUNT_CLEAR (R503). -/
def execEvtCountClear (m : Fin 4) (r : Req) (s : State) : Host.Outcome State Fault Refusal :=
  .next (mbxCommand evtCountClearDef m r s)
/-- EVT_RING_CONFIG (R502). -/
def execEvtRingConfig (m : Fin 4) (r : Req) (s : State) : Host.Outcome State Fault Refusal :=
  .next (mbxCommand evtRingConfigDef m r s)
/-- EVT_TRACE_MARK (R503). -/
def execEvtTraceMark (m : Fin 4) (r : Req) (s : State) : Host.Outcome State Fault Refusal :=
  .next (mbxCommand evtTraceMarkDef m r s)

end Sys2Proof.Machine
end

