-- ==== Sys2Proof/Machine/Bellows.lean ====
section
/-! DEFINITION. The Bellows: input paths, the closed loop, carrier and edges, channel states and faults, impedance
measurement, and the 0x04xx commands (R201 to R241, R606). -/

namespace Sys2Proof.Machine

/-! ### Access -/

/-- Channel `c`. -/
def belAt (s : State) (c : Fin 32) : BelCh := s.bel.ch[c]

/-- Change channel `c`. -/
def modBel (c : Fin 32) (f : BelCh → BelCh) (s : State) : State :=
  { s with bel := { s.bel with ch := vmod s.bel.ch c f } }

/-- The group of a channel (R201). -/
def grpOf (c : Fin 32) : Fin 8 := ixN 8 (by decide) (c.val / 4)

/-- The channels of a group (R201). -/
def chansOf (g : Fin 8) : List (Fin 32) := (List.finRange 32).filter (fun c => c.val / 4 = g.val)

/-- Change group `g`. -/
def modGrp (g : Fin 8) (f : BelGrp → BelGrp) (s : State) : State :=
  { s with bel := { s.bel with grp := vmod s.bel.grp g f } }

/-- The channels a mask names. -/
def maskChans (m : Word) : List (Fin 32) := (List.finRange 32).filter (fun c => m.getLsbD c)

/-- The Bellows runs: its sequencer is released (R202). -/
def belRuns (s : State) : Bool := s.pow.seqBel && inService s

/-- A state in which the channel switches (R222). -/
def belSwitches (x : BelSt) : Bool :=
  match x with
  | .quiet | .ramping | .playing => true
  | _ => false

/-- DISABLED or FAULTED. -/
def belIdle (x : BelSt) : Bool :=
  match x with
  | .disabled | .faulted => true
  | _ => false

/-- BEL_PHASE in force (R219). -/
def belPhase (c : Fin 32) (y : BelCh) : Nat := y.cfg.phase.getD (125 * c.val / 4)

/-- The F input runs on the low-latency path (R208, R210). -/
def llActive (y : BelCh) (m : Nat) : Bool := y.cfg.ll && m != 2

/-! ### Measurements that end -/

/-- Five free words: the four figures of a measurement that did not reach its end, and the word whose low bit is its OPEN
flag (R241, log entry 9). -/
def drawFigures (s : State) : List Word × State :=
  let (r, s) := drawWord s
  let (x, s) := drawWord s
  let (v, s) := drawWord s
  let (i, s) := drawWord s
  let (f, s) := drawWord s
  ([r, x, v, i, f], s)

/-- Remove the impedance measurement of channel `c`. A command's measurement completes with `status` and figures the
rules state no value for; a service routine reports its own as aborted and goes on (R236, R241, R560). -/
def endMeasure (c : Fin 32) (status : Nat) (s : State) : State :=
  match (belAt s c).meas with
  | none => s
  | some m =>
    let s := modBel c (fun y => { y with meas := none }) s
    if m.service then s else
      let (fs, s) := drawFigures s
      complete 0x0409 m.mbx m.tag (BitVec.ofNat 8 status) (fs.take 4 ++ [(fs.getD 4 0 &&& 1) ||| b2w m.limited 1]) s

/-! ### State changes -/

/-- Loop stopped, integrators 0 (R222). -/
def loopOff (y : BelCh) : BelCh := { y with s1 := 0, s2 := 0, s3 := 0, limNext := none, edges := (0, 0, 0, 0) }

/-- The channel starts switching in QUIET (R223, R224). -/
def toQuiet (y : BelCh) : BelCh :=
  { loopOff y with st := .quiet, mute := 0, up := false, quietUpd := 0, stopping := false, holding := false }

/-- The channel is FAULTED: at once, or at the kill's release (R212, R217, R228, R229). -/
def belFault (c : Fin 32) (s : State) : State :=
  let s := endMeasure c stState s
  modBel c (fun y =>
    if y.st = .killed then { y with faultPends := true }
    else { loopOff y with st := .faulted, mute := 0, up := false, unmutePends := false, stopping := false
                          holding := false, openLoop := false }) s

/-- The mute state the channel holds or moves toward is PLAYING (R228, R232). -/
def towardPlaying (y : BelCh) : Bool :=
  match y.st with
  | .playing => true
  | .held | .killed => y.restore
  | _ => y.up || y.unmutePends || (y.holding && y.restore)

/-- A channel is commanded to mute or unmute at the tick of E (R224). -/
def muteChan (on : Bool) (y : BelCh) : BelCh :=
  match y.st with
  | .playing => if on then { y with st := .ramping, up := false } else y
  | .ramping => if y.stopping || y.holding then (if y.holding then { y with restore := !on } else y)
                else { y with up := !on }
  | .quiet => if y.holding then { y with restore := !on } else { y with unmutePends := !on && !y.stopping }
  | .waking => { y with unmutePends := !on }
  | .killed | .held => { y with restore := !on }
  | .disabled | .faulted => y

/-- A channel is commanded to be disabled at the tick of E (R225, R228). A channel that does not switch, WAKING or HELD,
is DISABLED at once, and a disable takes the place of a hold that the channel ramps down for (DESIGN CHOICE, log entry
75). -/
def disableChan (y : BelCh) : BelCh :=
  let y := { y with unmutePends := false, restore := false }
  match y.st with
  | .playing => { y with st := .ramping, up := false, stopping := true, holding := false }
  | .ramping | .quiet => { y with up := false, stopping := true, holding := false }
  | .waking | .held => { loopOff y with st := .disabled, mute := 0, stopping := false, holding := false }
  | .killed => { y with stopping := true }
  | .disabled | .faulted => y

/-- A channel is commanded to be enabled at the tick of E (R223). An enable takes back a disable that is under way: the
channel ends its ramp in QUIET, or in HELD where a relock `holds` (DESIGN CHOICE, log entry 75). -/
def enableChan (holds : Bool) (e wake : Nat) (y : BelCh) : BelCh :=
  match y.st with
  | .disabled => { y with st := .waking, wakeAt := addF e wake, unmutePends := false, restore := false }
  | _ => { y with stopping := false, holding := y.holding || (y.stopping && holds && belSwitches y.st) }

/-- Deassert DRV_EN of every group whose four channels are DISABLED or FAULTED (R225). -/
def drvTick (s : State) : State :=
  { s with bel := { s.bel with grp := vmap s.bel.grp (fun g x =>
      if (chansOf g).all (fun c => belIdle (belAt s c).st) then { x with drvEn := false } else x) } }

/-- BEL_ENABLE takes effect (R223, R225). -/
def belEnableNow (e : Nat) (mask : Word) (on : Bool) (s : State) : State :=
  (maskChans mask).foldl (fun s c =>
    if on then
      let s := modGrp (grpOf c) (fun g => { g with drvEn := true }) s
      modBel c (enableChan (s.bel.muteReq && !s.stove.lock) e s.bel.grp[grpOf c].drvWake) s
    else modBel c disableChan s) s

/-- BEL_MUTE takes effect; an unmute of a measured channel ends its measurement only as the channel leaves QUIET
(R224). -/
def belMuteNow (mask : Word) (on : Bool) (s : State) : State :=
  (maskChans mask).foldl (fun s c => modBel c (muteChan on) s) s

/-- BEL_FAULT_CLEAR takes effect (R230, R240). -/
def belFaultClearNow (mask : Word) (bits : Word) (s : State) : State :=
  (maskChans mask).foldl (fun s c =>
    let s := modGrp (grpOf c) (fun g => { g with retries := 0, latched := false }) s
    modBel c (fun y =>
      let f := y.flt &&& ~~~ bits.extractLsb' 0 5
      { y with
        flt := f
        clipSeen := y.clipSeen && !bits.getLsbD 5, ilimSeen := y.ilimSeen && !bits.getLsbD 5
        clipCnt := if bits.getLsbD 31 then 0 else y.clipCnt
        ilimCnt := if bits.getLsbD 31 then 0 else y.ilimCnt
        st := if y.st = .faulted ∧ f = 0 then .disabled else y.st }) s) s

/-- BEL_CONFIG takes effect: words 3 to 10 of the command (R210, R240). -/
def belConfigNow (mask : Word) (ws : List Word) (s : State) : State :=
  let w (i : Nat) : Word := ws.getD (i - 3) 0
  (maskChans mask).foldl (fun s c =>
    let s := modGrp (grpOf c) (fun g => { g with drvWake := fld (w 8) 16 8 }) s
    let s := { s with dmpr := { s.dmpr with ch := vmod s.dmpr.ch c (fun y => { y with vfb := w 5, ifb := w 6 }) } }
    modBel c (fun y => { y with
      fallback := (w 3).getLsbD 0 && s.hive.dom.m == 2
      cfg := { y.cfg with
        ll := (w 3).getLsbD 0
        phase := if (w 3).getLsbD 1 then none else some (fld (w 3) 16 10)
        vgain := w 4, vfb := w 5, ifb := w 6, dmin := w 7, muteLen := fld (w 8) 0 13, ilim := w 9
        mismatch := w 10 } }) s) s

/-- BEL_LOOP_SET takes effect (R214). -/
def belLoopNow (mask : Word) (ks : List F32) (s : State) : State :=
  (maskChans mask).foldl (fun s c => modBel c (fun y => { y with
    s1 := 0, s2 := 0, s3 := 0
    cfg := { y.cfg with kp := ks.getD 0 0, k1 := ks.getD 1 0, k2 := ks.getD 2 0, k3 := ks.getD 3 0
                        kd := ks.getD 4 0 } }) s) s

/-- BEL_FAULT_POLICY takes effect (R240). -/
def belPolicyNow (mask : Word) (bits : Word) (s : State) : State :=
  (maskChans mask).foldl (fun s c => modBel c (fun y => { y with cfg := { y.cfg with
    retry := bits.getLsbD 0, mismatchFault := bits.getLsbD 4, lossOpen := bits.getLsbD 5 } }) s) s

/-- An impedance measurement starts on a channel in QUIET, or ends with STATE (R234, R236). -/
def belMeasureNow (c : Fin 32) (m : Measure) (s : State) : State :=
  let s := modBel c (fun y => { y with meas := some m }) s
  if (belAt s c).st = .quiet then s else endMeasure c stState s

/-- The F paths at the tick of P of a rate change, or at a change of m in STANDBY (R210, R191). -/
def belRatio (m : Nat) (s : State) : State :=
  { s with bel := { s.bel with ch := s.bel.ch.map (fun y => { y with histF := [], histLL := [], fallback := y.cfg.ll && m == 2 }) } }

/-! ### Carrier and spread -/

/-- Round to nearest, ties to even, of a rational of either sign. -/
def rneInt (q : Rat) : Int := if q < 0 then -((rneQ (-q) : Nat) : Int) else ((rneQ q : Nat) : Int)

/-- Draw 4 bits of the spread LFSR: descending, and the rotation (R606). -/
def drawOrder (w : Word) : Word × Bool × Nat :=
  let w1 := lfsrStep w
  let w2 := lfsrStep w1
  let w3 := lfsrStep w2
  (lfsrStep w3, w.getLsbD 31, (w1.getLsbD 31).toNat * 4 + (w2.getLsbD 31).toNat * 2 + (w3.getLsbD 31).toNat)

/-- The carrier order of a new M frame `n`; the LFSR steps in the M frames of the pseudo-random order alone (R220, R606;
DESIGN CHOICE, log entry 74). -/
def spreadTick (n : Nat) (b : Bellows) : Bellows :=
  match b.spread with
  | 2 => let (w, d, r) := drawOrder b.lfsr
         { b with lfsr := w, order := (d, r) }
  | _ => { b with order := (n % 2 == 1, 0) }

/-- The length of carrier period j in counts (R220). -/
def carrierLen (b : Bellows) (j : Nat) : Nat :=
  if b.spread = 0 then 1000 else
    let p := (j + b.order.2) % 8
    let q := if b.order.1 then 7 - p else p
    ((1000 : Int) + rneInt (mkRat ((b.depth : Int) * (2 * (q : Int) - 7)) 7)).toNat

/-- The duty of leg A (`neg` false) or B of an index, (1 ± mu)/2 rounded to binary32 at each step (R205; DESIGN CHOICE,
log entry 75). -/
def duty (neg : Bool) (mu : F32) : F32 := f32Mul (f32Add 0x3F800000 (if neg then f32Neg mu else mu)) 0x3F000000

/-- The edges of a carrier period in sub-steps: A rise, A fall, B rise, B fall (R205). -/
def edgesOf (p : Nat) (mu0 mu1 : F32) : Nat × Nat × Nat × Nat :=
  let h := 32 * p
  let r (neg : Bool) (mu : F32) : Nat := rneQ ((h : Rat) * f32Q (duty neg mu))
  (h - r false mu0, h + r false mu1, h - r true mu0, h + r true mu1)

/-! ### Input paths -/

/-- A dot product as R209 forms it: exact products, sum in binary64, one rounding. -/
def dot64 (ps : List (F32 × F32)) : F32 :=
  f64To32 (ps.foldl (fun acc p => f64Mac false acc p.1 (finOr0 p.2)) 0)

/-- The M path's output at update `u` (R207, R209). -/
def pathM (y : BelCh) (u : Nat) : F32 :=
  dot64 ((List.range 25).filterMap (fun k =>
    if u + 16 * k ≤ 384 then some (Config.belTap 0 (fromCentre 192 (u + 16 * k)), y.histM.getD k 0) else none))

/-- G_u of an F path (R207). -/
def belGu : Nat → Nat
  | 2 => 64
  | 4 => 24
  | _ => 8

/-- The F path's output at update `u` of the M frame with multiplier `m` (R207 to R210). -/
def pathF (y : BelCh) (m u : Nat) : F32 :=
  let r := 16 / m
  let v := u % r
  if llActive y m then
    if m = 4 then dot64 [(qF32 (mkRat (4 - v) 4), y.histLL.getD 1 0), (qF32 (mkRat v 4), y.histLL.getD 0 0)]
    else dot64 [(0x3F800000, y.histLL.getD 0 0)]
  else
    dot64 ((List.range (2 * belGu m / r + 1)).filterMap (fun k =>
      if v + r * k ≤ 2 * belGu m then some (Config.belTap m (fromCentre (belGu m) (v + r * k)), y.histF.getD k 0) else none))

/-- The outbound M and F entries the Bellows reads at its local ticks: those of the frame before (R49, R207). -/
def entryVal (b : SlotBuf) (n : Nat) (ch : Nat) : F32 :=
  match vgetD b (n % 4) none with
  | some e => if e.complete ∧ e.tag = BitVec.ofNat 16 n then e.vals.getD ch 0 else 0
  | none => 0

/-- The local tick of M frame `n`: entry n − 1 enters the M paths, and the updates start anew (R203, R207). -/
def belTickM (n : Nat) (s : State) : State :=
  { s with bel := { spreadTick n s.bel with
      upd := 0
      ch := vmap s.bel.ch (fun c y => { y with
        histM := (entryVal s.hive.belM (prevF n) c :: y.histM).take 25
        monV := 0, monI := 0, monN := 0 }) } }

/-- The local tick of F frame `j`: entry j − 1 enters the F paths, and the value crossing's value the low-latency paths
(R207, R208). -/
def belTickF (j : Nat) (s : State) : State :=
  { s with bel := { s.bel with ch := vmap s.bel.ch (fun c y => { y with
      histF := (entryVal s.hive.belF (prevF j) c :: y.histF).take 17
      histLL := (s.hive.belLL.getD c.val 0 :: y.histLL).take 2 }) } }

/-! ### The loop -/

/-- The weights of a third-order sinc decimator by 16, three running sums of 16 bits, the first half; the other half
mirrors it (R211). -/
def sincHalf : List Nat := [1, 3, 6, 10, 15, 21, 28, 36, 45, 55, 66, 78, 91, 105, 120, 136, 150, 162, 172, 180, 186, 190, 192]

/-- A decimator's output, 0 to 4,096: the weighted count of the ones among the bits 1 to 46 cycles old, whose centre is
24 cycles before the update (R211, log entry 11). -/
def sincOut (h : BitVec 48) : Nat :=
  (List.range 46).foldl (fun a k => if h.getLsbD (k + 1) then a + sincHalf.getD (min k (45 - k)) 0 else a) 0

/-- The 16 bits of an update period enter a bit history, the newest lowest (R201). -/
def bitsIn (h : BitVec 48) (b : BitVec 16) : BitVec 48 := (h <<< 16) ||| b.setWidth 48

/-- A decimator output d, 0 to 4,096, as a value of full scale fs (R211, log entry 11). -/
def fbValue (d : Nat) (fs : F32) : F32 := qF32 (mkRat (2 * (d : Int) - 4096) 4096 * f32Q fs)

/-- The applied ceiling moves toward the Damper's by at most 1/32 (R226). -/
def ceilStep (target c : F32) : F32 :=
  let t := f32Q target
  let x := f32Q c
  if x + mkRat 1 32 < t then qF32 (x + mkRat 1 32)
  else if t < x - mkRat 1 32 then qF32 (x - mkRat 1 32)
  else target

/-- The linear factor on a measurement's signal at its update `n` (R234). -/
def measFactor (k n : Nat) : F32 :=
  if n < 256 then qF32 (mkRat n 256)
  else if n < 256 + 16 * k then 0x3F800000
  else qF32 (mkRat ((512 + 16 * k - n : Nat) : Int) 256)

/-- The test signal of a measurement (R234). -/
def measSignal (m : Measure) : F32 :=
  let a := if m.dc then m.amp
    else f32Mul m.amp (genSin m.phase)
  f32Mul a (measFactor m.k m.updates)

/-- A measurement takes one update's feedback (R234, R235). -/
def measStep (v i : F32) (lim : Bool) (m : Measure) : Measure :=
  { m with
    updates := m.updates + 1
    phase := m.phase + m.inc
    limited := m.limited || lim
    samples := if 256 ≤ m.updates ∧ m.updates < 256 + 16 * m.k then (m.phase, v, i) :: m.samples else m.samples }

/-- A term of the loop: the product in binary32; a coefficient of 0 removes it (R213, R214). -/
def loopTerm (k x : F32) : F32 := if f32Q k = 0 then 0 else f32Mul k x

/-- The start of carrier period j in counts from the local tick, for a channel's phase offset (R219, R220). -/
def carrierStart (b : Bellows) (phase j : Nat) : Nat := (List.range j).foldl (fun a i => a + carrierLen b i) phase

/-- Edges moved to a period that starts at count `start` (R205, R219). -/
def edgesAt (start : Nat) (e : Nat × Nat × Nat × Nat) : Nat × Nat × Nat × Nat :=
  let o := 64 * start
  (o + e.1, o + e.2.1, o + e.2.2.1, o + e.2.2.2)

/-- One update of a switching channel, whose carrier period has length `len` and starts at count `start` (R205, R213,
R215, R216, R218). The sums s1 to s3 are binary64; every other term is rounded to binary32 (log entry 35). -/
def loopStep (m u len start : Nat) (vrail : F32) (y : BelCh) : BelCh :=
  let g := y.cfg
  let v := fbValue (sincOut y.fbv) g.vfb
  let i := fbValue (sincOut y.fbi) g.ifb
  let test := match y.meas with
    | some q => measSignal q
    | none => 0
  let y0 := f32Mul (f32Mul g.vgain (f32Add (pathM y u) (pathF y m u))) (qF32 (mkRat y.mute g.muteLen))
  let dem := f32Mul (f32Add y0 test) y.ceil
  let e := if y.openLoop then 0 else f32Sub dem v
  let t1 := f64Add y.s1 (f32To64 (loopTerm g.k1 e))
  let t2 := f64Add y.s2 (f32To64 (loopTerm g.k2 (f64To32 t1)))
  let t3 := f64Add y.s3 (f32To64 (loopTerm g.k3 (f64To32 t2)))
  let w := f32Add (f32Add (f32Add (f32Add dem (loopTerm g.kp e)) (f64To32 t1)) (f64To32 t2)) (f64To32 t3)
  let mu := f32DivQ (f32Sub w (loopTerm g.kd i)) (max (f32Q vrail) 4)
  let mu := match y.limNext with
    | some k => f32Mul mu k
    | none => mu
  let lim := f32Sub 0x3F800000 (f32Mul 0x40000000 g.dmin)
  let clip := decide (f32Q lim < f32Q (f32Abs mu)) || !f32Fin mu
  let mu := if clip then (if mu.getLsbD 31 then f32Neg lim else lim) else mu
  let hold := clip || y.limNext.isSome || y.openLoop
  let ovr := decide (f32Q g.ilim ≠ 0) && decide (f32Q g.ilim < f32Q (f32Abs i))
  { y with
    s1 := if hold then y.s1 else t1, s2 := if hold then y.s2 else t2, s3 := if hold then y.s3 else t3
    limNext := if ovr then some (qF32 (f32Q g.ilim / f32Q (f32Abs i))) else none
    mu0 := if u % 2 = 0 then mu else y.mu0
    mu := mu
    edges := if u % 2 = 1 then edgesAt start (edgesOf len y.mu0 mu) else y.edges
    clipSeen := y.clipSeen || clip
    clipCnt := if clip then stick 65535 y.clipCnt else y.clipCnt
    ilimSeen := y.ilimSeen || ovr
    ilimCnt := if ovr then stick 65535 y.ilimCnt else y.ilimCnt
    errSum := y.errSum + f32Q (f32Abs e)
    errN := y.errN + 1
    errVoid := y.errVoid || clip || ovr || y.limNext.isSome
    monV := y.monV + f32Q v, monI := y.monI + f32Q i, monN := y.monN + 1
    meas := y.meas.map (measStep v i (clip || ovr || decide (f32Q y.ceil < 1))) }

/-- The mute gain moves by one step after the update that used it (R224). -/
def muteStep (y : BelCh) : BelCh :=
  match y.st with
  | .ramping => if y.up then { y with mute := min y.cfg.muteLen (y.mute + 1) } else { y with mute := y.mute - 1 }
  | .quiet => { y with quietUpd := min 32 (y.quietUpd + 1) }
  | _ => y

/-- A channel the Stoker's mute has brought to 0 enters HELD at a carrier boundary (R231). A channel whose disable is
under way never holds: it stops DISABLED (DESIGN CHOICE, log entry 75). -/
def holdStep (u : Nat) (y : BelCh) : BelCh :=
  if u % 2 = 0 ∧ y.holding = true ∧ y.mute = 0 ∧ belSwitches y.st = true then
    { loopOff y with st := .held, up := false, holding := false, unmutePends := false }
  else y

/-- One channel at an update instant, after the 16 bits of each bitstream since the last (R211, R213, R224, R226,
R231). -/
def belUpdate (m u len start : Nat) (vrail : F32) (b : BitVec 16 × BitVec 16) (y : BelCh) : BelCh :=
  let y := { y with fbv := bitsIn y.fbv b.1, fbi := bitsIn y.fbi b.2 }
  let y := holdStep u y
  let y := { y with ceil := ceilStep y.ceilIn y.ceil }
  if belSwitches y.st then muteStep (loopStep m u len start vrail y) else y

/-- A monitor value: the mean over 16 updates divided by full scale, +0.0 where the channel did not switch (R218). -/
def monitorOf (n : Nat) (sum : Rat) (fs : F32) : F32 := if n = 0 ∨ f32Q fs = 0 then 0 else qF32 (sum / 16 / f32Q fs)

/-- The monitor entry of M frame `n` (R218). -/
def writeMonitors (n : Nat) (s : State) : State :=
  let v := s.bel.ch.toList.map (fun y => monitorOf y.monN y.monV y.cfg.vgain)
  let i := s.bel.ch.toList.map (fun y => monitorOf y.monN y.monI y.cfg.ifb)
  { s with hive := { s.hive with monitors := vmodN s.hive.monitors (n % 4) (fun _ =>
      some ⟨true, BitVec.ofNat 16 n, v ++ i⟩) } }

/-- BELLOWS_UPDATE: the next of the 16 update instants of the M frame, with the 16 FBV and FBI bits that every channel
has sampled since the last (R201, R203, R211, R213). -/
def execBellowsUpdate (fb : List (BitVec 16 × BitVec 16)) (s : State) : Host.Outcome State Fault Refusal :=
  if belRuns s && decide (s.bel.upd < 16) then
    let u := s.bel.upd
    let len := carrierLen s.bel (u / 2)
    let was := s
    let s := { s with bel := { s.bel with
      upd := u + 1
      ch := vmap s.bel.ch (fun c y =>
        belUpdate s.hive.dom.m u len (carrierStart s.bel (belPhase c y) (u / 2)) s.bel.vrail
          (fb.getD c.val (0, 0)) y) } }
    let s := (List.finRange 32).foldl (fun s c =>
      if (belAt was c).st = .quiet ∧ (belAt s c).st ≠ .quiet then endMeasure c stState s else s) s
    .next (if u = 15 then writeMonitors s.stove.frame s else s)
  else .next s

/-! ### Timed and fault events -/

/-- A relock keeps the channels muted until the Stove has locked again (R24, R231, R232). -/
def relockHolds (s : State) : Bool := !s.stove.lock

/-- The channel is KILLED, and keeps in `restore` what it returns to (R227, R228). -/
def killNow (y : BelCh) : BelCh :=
  { loopOff y with
    st := .killed, flt := y.flt ||| 1, restore := towardPlaying y, holding := y.holding || y.st == .held
    mute := 0, up := false, unmutePends := false, faultPends := false }

/-- A channel that leaves WAKING: KILLED under a kill, HELD during a relock, otherwise QUIET (R24, R223, R227). -/
def wakeEnd (holds : Bool) (y : BelCh) : BelCh :=
  if y.killIn then killNow y
  else if holds then { loopOff y with st := .held, restore := y.unmutePends, unmutePends := false }
  else { toQuiet y with unmutePends := y.unmutePends }

/-- DRV_WAKE_END: the WAKING channels of a group whose time has passed start switching in QUIET (R223). -/
def execDrvWakeEnd (g : Fin 8) (s : State) : Host.Outcome State Fault Refusal :=
  .next ((chansOf g).foldl (fun s c => modBel c (fun y =>
    if y.st = .waking ∧ y.wakeAt ≤ s.stove.frame then wakeEnd (relockHolds s) y else y) s) s)

/-- UNMUTE_START: the ramp toward 1 starts at the tick that ends 2 M frames of QUIET (R224, R228). -/
def execUnmuteStart (c : Fin 32) (s : State) : Host.Outcome State Fault Refusal :=
  let y := belAt s c
  if y.st = .quiet ∧ y.unmutePends = true ∧ s.bel.upd = 0 ∧ 32 ≤ y.quietUpd ∧ y.stopping = false ∧ y.holding = false ∧
      relockHolds s = false then
    .next (endMeasure c stState (modBel c (fun y => { y with st := .ramping, up := true, unmutePends := false }) s))
  else .next s

/-- MUTE_RAMP_END: the mute gain has reached 1 or 0 (R224). -/
def execMuteRampEnd (c : Fin 32) (s : State) : Host.Outcome State Fault Refusal :=
  .next (modBel c (fun y =>
    if y.st = .ramping ∧ y.up = true ∧ y.cfg.muteLen ≤ y.mute then { y with st := .playing }
    else if y.st = .ramping ∧ y.up = false ∧ y.mute = 0 then { y with st := .quiet, quietUpd := 0 }
    else y) s)

/-- DISABLE_STOP: a disabled channel whose mute gain is 0 stops at a carrier end (R225). -/
def execDisableStop (c : Fin 32) (s : State) : Host.Outcome State Fault Refusal :=
  let y := belAt s c
  if belSwitches y.st ∧ y.stopping = true ∧ y.mute = 0 then
    .next (modBel c (fun y => { loopOff y with
      st := .disabled, up := false, stopping := false, holding := false, openLoop := false })
      (endMeasure c stState s))
  else .next s

/-- KILL_ENTER: the kill status copy of a channel that switches, wakes or is HELD reads killed (R227, R228, R232; log
entry 54). -/
def execKillEnter (c : Fin 32) (s : State) : Host.Outcome State Fault Refusal :=
  let y := belAt s c
  if belRuns s = true ∧ y.killIn = true ∧ (belSwitches y.st = true ∨ y.st = .held ∨ y.st = .waking) then
    .next (modBel c killNow (endMeasure c stState s))
  else .next s

/-- KILL_RELEASE_RESTART: the kill status copy reads released; a channel whose wake time has not passed goes on waking
(R223, R228, R231; log entry 54). -/
def execKillReleaseRestart (c : Fin 32) (s : State) : Host.Outcome State Fault Refusal :=
  let y := belAt s c
  if y.st = .killed ∧ y.killIn = false then
    .next (modBel c (fun y =>
      if y.faultPends then { y with st := .faulted, faultPends := false, stopping := false, holding := false
                                    openLoop := false }
      else if y.stopping then { y with st := .disabled, stopping := false, holding := false, restore := false }
      else if relockHolds s then { y with st := .held, holding := false }
      else if s.stove.frame < y.wakeAt then { y with st := .waking, unmutePends := y.restore, restore := false, holding := false }
      else { toQuiet y with unmutePends := y.restore }) s)
  else .next s

/-- DRIVER_FAULT: the group's four channels are FAULTED and DRV_EN falls (R229, R230). -/
def execDriverFault (g : Fin 8) (s : State) : Host.Outcome State Fault Refusal :=
  let x := s.bel.grp[g]
  if belRuns s && x.drvEn && !(chansOf g).any (fun c => (belAt s c).st == .waking) then
    let near := match x.retryAt with
      | some r => decide (s.stove.frame < r + 48000)
      | none => false
    let s := modGrp g (fun x => { x with
      drvEn := false
      retries := if near then min 3 (x.retries + 1) else x.retries
      latched := x.latched || (near && x.retries == 3)
      faultAt := if near && x.retries == 3 then none else some s.stove.frame
      wasOn := ((chansOf g).filter (fun c => !belIdle (belAt s c).st)).map (·.val) }) s
    let s := (chansOf g).foldl (fun s c => belFault c (modBel c (fun y => { y with flt := y.flt ||| 2 }) s)) s
    .next (raise 40 (bit g) s)
  else .next s

/-- DRIVER_FAULT_RETRY: 48,000 M frames after a driver fault the retry policy asserts DRV_EN again (R230). -/
def execDriverFaultRetry (g : Fin 8) (s : State) : Host.Outcome State Fault Refusal :=
  let x := s.bel.grp[g]
  let cs := (chansOf g).filter (fun c => x.wasOn.contains c.val && (belAt s c).cfg.retry && (belAt s c).st == .faulted)
  match x.faultAt with
  | some f =>
    if belRuns s && decide (f + 48000 ≤ s.stove.frame) && !x.latched && !cs.isEmpty then
      let s := modGrp g (fun x => { x with drvEn := true, faultAt := none, retryAt := some s.stove.frame }) s
      .next (cs.foldl (fun s c => modBel c (fun y =>
        { y with st := .waking, wakeAt := addF s.stove.frame x.drvWake }) s) s)
    else .next s
  | none => .next s

/-- FEEDBACK_LOSS: a bitstream of a switching channel held one level for an M frame (R212). The open loop that it starts
ends as the channel becomes DISABLED or FAULTED (DESIGN CHOICE, log entry 75). -/
def execFeedbackLoss (c : Fin 32) (volt : Bool) (s : State) : Host.Outcome State Fault Refusal :=
  let y := belAt s c
  if belRuns s && belSwitches y.st then
    let s := raise 41 (bit c) (modBel c (fun y => { y with flt := y.flt ||| (if volt then 8 else 16) }) s)
    .next (if y.cfg.lossOpen then
        modBel c (fun y => { y with openLoop := true, s1 := 0, s2 := 0, s3 := 0 }) s
      else belFault c s)
  else .next s

/-- MISMATCH_WINDOW_END: the windows of 64 updates end together, and one whose mean error is too large is a
feedback mismatch (R217). -/
def execMismatchWindowEnd (s : State) : Host.Outcome State Fault Refusal :=
  if belRuns s && ((s.bel.upd == 16 && s.stove.frame % 4 == 3) || (s.bel.upd == 0 && s.stove.frame % 4 == 0)) then
    let bad := (List.finRange 32).filter (fun c =>
      let y := belAt s c
      y.errN == 64 && !y.errVoid && decide (f32Q y.cfg.mismatch < y.errSum / 64))
    let s := { s with bel := { s.bel with ch := s.bel.ch.map (fun y =>
      { y with errSum := 0, errN := 0, errVoid := false }) } }
    .next (bad.foldl (fun s (c : Fin 32) =>
      let s := raise 41 (bit c) (modBel c (fun y => { y with flt := y.flt ||| 4 }) s)
      if (belAt s c).cfg.mismatchFault then belFault c s else s) s)
  else .next s

/-- The Stoker's mute request reaches every channel; one whose disable is under way goes on to DISABLED (R231, log entry
75). -/
def muteRequest (s : State) : State :=
  { s with bel := { s.bel with
      muteReq := true, muteAck := false
      ch := s.bel.ch.map (fun y =>
        let r := towardPlaying y
        match y.st with
        | .playing => { y with st := .ramping, up := false, holding := true, restore := r }
        | .ramping => if y.stopping then y else { y with up := false, holding := true, restore := r }
        | .quiet => if y.stopping then y else { y with holding := true, restore := r, unmutePends := false }
        | .waking => { loopOff y with st := .held, restore := r, unmutePends := false }
        | _ => y) } }

/-- BELLOWS_MUTE_REQUEST: a relock asks for the mute before it acquires a reference (R24, R231); the relock of a change
of fM acquires at once and asks for none (R270). A measured channel is muted with the rest. -/
def execBellowsMuteRequest (s : State) : Host.Outcome State Fault Refusal :=
  if s.stove.relock && s.stove.acq.isNone && !s.bel.muteReq && belRuns s then .next (muteRequest s) else .next s

/-- BELLOWS_MUTE_ACK: no channel is switching, or the Bellows sequencer is held (R231). -/
def execBellowsMuteAck (s : State) : Host.Outcome State Fault Refusal :=
  if s.stove.relock && (!belRuns s || (s.bel.muteReq && s.bel.ch.toList.all (fun y => !belSwitches y.st))) then
    .next { s with bel := { s.bel with muteAck := true } }
  else .next s

/-- The first M frame tick after the Stove reports lock: HELD channels restart in QUIET (R232). -/
def heldRestart (s : State) : State :=
  if s.stove.lock then
    { s with bel := { s.bel with
        muteReq := false, muteAck := false
        ch := s.bel.ch.map (fun y =>
          match y.st with
          | .held => { toQuiet y with unmutePends := y.restore }
          | .killed => { y with holding := false }
          | _ => if y.holding then { y with holding := false, unmutePends := y.restore } else y) } }
  else s

/-! ### Status words -/

/-- BEL_ST (R222). -/
def belCode : BelSt → Nat
  | .disabled => 0
  | .waking => 1
  | .quiet => 2
  | .ramping => 3
  | .playing => 4
  | .killed => 5
  | .faulted => 6
  | .held => 7

/-- BEL_CH_STAT (R237). -/
def belStat (c : Fin 32) (s : State) : Word :=
  let y := belAt s c
  n2w (belCode y.st) 29 ||| b2w (llActive y s.hive.dom.m) 28 ||| b2w y.fallback 27 ||| b2w y.clipSeen 26 |||
  b2w y.ilimSeen 25 ||| b2w y.openLoop 24 ||| n2w s.bel.grp[grpOf c].retries 16 ||| n2w y.flt.toNat 0

/-- BEL_CH_CNT (R238). -/
def belCnt (y : BelCh) : Word := n2w y.clipCnt 16 ||| n2w y.ilimCnt 0

/-! ### The 0x04xx commands -/

/-- Every Bellows command is refused while the Bellows sequencer is held (R239). -/
def belHeld (s : State) : Bool := !s.pow.seqBel

/-- Some named channel is in no state of the list (R239). -/
def belNot (p : BelSt → Bool) (r : Req) (s : State) : Bool :=
  (maskChans r.target).any (fun c => !p (belAt s c).st)

/-- The common form: `n` words, a mask that names a channel, E in word `w` (R239). -/
def belBad (n w : Nat) (r : Req) (s : State) : Bool := badForm n r || r.target == 0 || badE (arg64 r w) s

/-- The common refusal with STATE of a stamped Bellows command (R189, R239). -/
def belWrong (w : Nat) (p : BelSt → Bool) (r : Req) (s : State) : Bool :=
  belHeld s || belNot p r s || rateBars (useE (arg64 r w) s) s

/-- A stamped Bellows command's effect: the change is staged for E, and the response carries E (R241). -/
def belStage (m w : Nat) (chg : Req → Change) (r : Req) (s : State) : State × Nat × List Word :=
  let e := useE (arg64 r w) s
  (stage m r.tag e (chg r) s, stOk, pair64 e)

/-- BEL_INFO (R239, R241). -/
def belInfoDef : CmdDef :=
  { opcode := 0x0400, minVer := 1
    bad := fun r _ => badForm 0 r || r.target == 0
    wrong := fun _ _ s => belHeld s
    act := fun _ r s =>
      (s, stOk, (maskChans r.target).flatMap (fun c =>
        [belStat c s, n2w (belPhase c (belAt s c)) 16, b2w (belAt s c).cfg.ll 0]) ++
        [n2w s.bel.spread 0, n2w s.bel.depth 8,
          maskOf ((List.finRange 8).filterMap (fun g => if s.bel.grp[g].drvEn then some g.val else none))]) }

/-- BEL_CONFIG refused with BAD_ARG (R206, R210, R224, R240). -/
def belConfigBad (r : Req) (s : State) : Bool :=
  belBad 10 11 r s || rsvd (arg r 3) 0x03FF0003 || decide (999 < argF r 3 16 10) || (argB r 3 0 && s.hive.dom.m == 2) ||
  !f32Pos 64 (arg r 4) || !f32Rng 1 200 (arg r 5) || !f32Rng 1 100 (arg r 6) ||
  !f32Rng (mkRat 5 1000) (mkRat 1 10) (arg r 7) || rsvd (arg r 8) 0x00FF1FFF || decide (argF r 8 0 13 < 16) ||
  decide (4096 < argF r 8 0 13) || argF r 8 16 8 == 0 || !f32Fin (arg r 9) || decide (f32Q (arg r 9) < 0) ||
  !f32Rng (mkRat 1 10) 50 (arg r 10)

/-- BEL_CONFIG (R239, R240). -/
def belConfigDef : CmdDef :=
  { opcode := 0x0401, minVer := 1
    bad := belConfigBad
    wrong := fun _ r s => belWrong 11 belIdle r s
    act := fun m r s => belStage m 11 (fun r => .belConfig r.target (args r 3 8)) r s }

/-- BEL_LOOP_SET (R214, R239, R240). -/
def belLoopSetDef : CmdDef :=
  { opcode := 0x0402, minVer := 2
    bad := fun r s => belBad 7 8 r s || !f32Rng 0 8 (arg r 3) || !f32Rng 0 1 (arg r 4) || !f32Rng 0 1 (arg r 5) ||
      !f32Rng 0 1 (arg r 6) || !f32Rng 0 16 (arg r 7)
    wrong := fun _ r s => belWrong 8 (fun x => belIdle x || x == .quiet) r s
    act := fun m r s => belStage m 8 (fun r => .belLoop r.target (args r 3 5)) r s }

/-- BEL_ENABLE (R223, R225, R239, R240). -/
def belEnableDef : CmdDef :=
  { opcode := 0x0403, minVer := 1
    bad := fun r s => belBad 3 4 r s || rsvd (arg r 3) 1
    wrong := fun _ r s => belWrong 4 (fun _ => true) r s
    act := fun m r s => belStage m 4 (fun r => .belEnable r.target (argB r 3 0)) r s }

/-- An accepted BEL_ENABLE, the last one staged up to frame `e` that names channel `c`, takes it out of DISABLED: the
worked example under R225 unmutes such a channel (R239, DEDUCED, log entry 31). -/
def enableStaged (e : Nat) (c : Fin 32) (s : State) : Bool :=
  s.ianik.staged.foldl (fun b x => match x.chg with
    | .belEnable mask on => if mask.getLsbD c.val && decide (x.frame ≤ e) then on else b
    | _ => b) false

/-- BEL_MUTE (R224, R239, R240). -/
def belMuteDef : CmdDef :=
  { opcode := 0x0404, minVer := 1
    bad := fun r s => belBad 3 4 r s || rsvd (arg r 3) 1
    wrong := fun _ r s => belHeld s || rateBars (useE (arg64 r 4) s) s ||
      (maskChans r.target).any (fun c => (belAt s c).st == .disabled && !enableStaged (useE (arg64 r 4) s) c s)
    act := fun m r s => belStage m 4 (fun r => .belMute r.target (argB r 3 0)) r s }

/-- BEL_CARRIER_SET (R220, R221, R239, R240). -/
def belCarrierSetDef : CmdDef :=
  { opcode := 0x0405, minVer := 2
    bad := fun r s => belBad 3 4 r s || r.target != 0xFFFFFFFF || rsvd (arg r 3) 0x7F03 || argF r 3 0 2 == 3 ||
      decide (64 < argF r 3 8 7)
    wrong := fun _ r s => belWrong 4 belIdle r s
    act := fun m r s => belStage m 4 (fun r => .belCarrier (argF r 3 0 2) (argF r 3 8 7)) r s }

/-- BEL_STATUS (R239, R241). -/
def belStatusDef : CmdDef :=
  { opcode := 0x0406, minVer := 1
    bad := fun r _ => badForm 0 r || r.target == 0
    wrong := fun _ _ s => belHeld s
    act := fun _ r s => (s, stOk, (maskChans r.target).flatMap (fun c => [belStat c s, belCnt (belAt s c)])) }

/-- BEL_FAULT_CLEAR (R239, R240). -/
def belFaultClearDef : CmdDef :=
  { opcode := 0x0407, minVer := 1
    bad := fun r s => belBad 3 4 r s || rsvd (arg r 3) 0x8000003F
    wrong := fun _ r s => belWrong 4 (fun _ => true) r s
    act := fun m r s => belStage m 4 (fun r => .belFaultClear r.target (arg r 3)) r s }

/-- BEL_FAULT_POLICY (R239, R240). -/
def belFaultPolicyDef : CmdDef :=
  { opcode := 0x0408, minVer := 2
    bad := fun r s => belBad 3 4 r s || rsvd (arg r 3) 0x31
    wrong := fun _ r s => belWrong 4 (fun _ => true) r s
    act := fun m r s => belStage m 4 (fun r => .belPolicy r.target (arg r 3)) r s }

/-- The phase increment of a measurement at the update rate (R234). -/
def measInc (f : F32) (s : State) : Word := phaseInc f ((16 * fmHz s.hive.dom.fm : Nat) : Rat)

/-- A measurement stands or is staged on a channel. -/
def measTaken (c : Fin 32) (s : State) : Bool :=
  (belAt s c).meas.isSome || s.ianik.staged.any (fun x => match x.chg with
    | .belMeasure d _ => d == c
    | _ => false)

/-- BEL_MEASURE_Z (R234, R239 to R241). -/
def belMeasureZDef : CmdDef :=
  { opcode := 0x0409, minVer := 3
    bad := fun r s => belBad 6 7 r s || (maskChans r.target).length != 1 || rsvd (arg r 3) 1 ||
      (!argB r 3 0 && !f32Rng 10 20000 (arg r 4)) || !f32Pos (if argB r 3 0 then 2 else 8) (arg r 5) ||
      rsvd (arg r 6) 0xFFFF || decide (argF r 6 0 16 < 48) || decide (48000 < argF r 6 0 16)
    wrong := fun _ r s => belWrong 7 (· == .quiet) r s
    busy := fun r s => (maskChans r.target).any (fun c => measTaken c s)
    deferred := true
    act := fun m r s =>
      let e := useE (arg64 r 7) s
      let c := (maskChans r.target).headD 0
      let q : Measure := ⟨argB r 3 0, arg r 5, arg r 4, argF r 6 0 16, e, 0, 0, measInc (arg r 4) s, [], false, m, r.tag, false⟩
      (defer 0x0409 m r.tag none (stage m r.tag e (.belMeasure c q) s), stDeferred, pair64 e) }

/-! ### Meanings -/

/-- BEL_INFO (R241). -/
def execBelInfo (m : Fin 4) (r : Req) (s : State) : Host.Outcome State Fault Refusal :=
  .next (mbxCommand belInfoDef m r s)
/-- BEL_CONFIG (R240). -/
def execBelConfig (m : Fin 4) (r : Req) (s : State) : Host.Outcome State Fault Refusal :=
  .next (mbxCommand belConfigDef m r s)
/-- BEL_LOOP_SET (R214). -/
def execBelLoopSet (m : Fin 4) (r : Req) (s : State) : Host.Outcome State Fault Refusal :=
  .next (mbxCommand belLoopSetDef m r s)
/-- BEL_ENABLE (R223). -/
def execBelEnable (m : Fin 4) (r : Req) (s : State) : Host.Outcome State Fault Refusal :=
  .next (mbxCommand belEnableDef m r s)
/-- BEL_MUTE (R224). -/
def execBelMute (m : Fin 4) (r : Req) (s : State) : Host.Outcome State Fault Refusal :=
  .next (mbxCommand belMuteDef m r s)
/-- BEL_CARRIER_SET (R220). -/
def execBelCarrierSet (m : Fin 4) (r : Req) (s : State) : Host.Outcome State Fault Refusal :=
  .next (mbxCommand belCarrierSetDef m r s)
/-- BEL_STATUS (R241). -/
def execBelStatus (m : Fin 4) (r : Req) (s : State) : Host.Outcome State Fault Refusal :=
  .next (mbxCommand belStatusDef m r s)
/-- BEL_FAULT_CLEAR (R240). -/
def execBelFaultClear (m : Fin 4) (r : Req) (s : State) : Host.Outcome State Fault Refusal :=
  .next (mbxCommand belFaultClearDef m r s)
/-- BEL_FAULT_POLICY (R240). -/
def execBelFaultPolicy (m : Fin 4) (r : Req) (s : State) : Host.Outcome State Fault Refusal :=
  .next (mbxCommand belFaultPolicyDef m r s)
/-- BEL_MEASURE_Z (R234). -/
def execBelMeasureZ (m : Fin 4) (r : Req) (s : State) : Host.Outcome State Fault Refusal :=
  .next (mbxCommand belMeasureZDef m r s)

end Sys2Proof.Machine
end

