-- ==== Sys2Proof/Machine/Crypto.lean ====
section
/-! DEFINITION. The digests and the signature of images: SHA-256, CRC-32 of IEEE 802.3 and ECDSA over P-256
(R412, R516, R518, R521 to R523). -/

namespace Sys2Proof.Machine

/-! ### Numbers and bytes -/

/-- A big-endian number of bytes, as digests, keys and signatures are read (PRESUMED, log entry 19). -/
def natBE (bs : List Byte) : Nat := bs.foldl (fun n b => n * 256 + b.toNat) 0

/-- A little-endian number of bytes (R6). -/
def natLE : List Byte → Nat
  | [] => 0
  | b :: bs => b.toNat + 256 * natLE bs

/-- The `n` bytes of a number, first byte most significant. -/
def bytesBE : Nat → Nat → List Byte
  | 0, _ => []
  | n + 1, x => bytesBE n (x / 256) ++ [BitVec.ofNat 8 x]

/-- The `n` bytes of a number, first byte least significant. -/
def bytesLE : Nat → Nat → List Byte
  | 0, _ => []
  | n + 1, x => BitVec.ofNat 8 x :: bytesLE n (x / 256)

/-- Thirty-two bytes as a 256-bit value, the first byte in bits 7:0 (R523). -/
def digestOf (bs : List Byte) : BitVec 256 := BitVec.ofNat 256 (natLE bs)

/-- The bytes of a 256-bit value, the first from bits 7:0 (R523). -/
def digestBytes (d : BitVec 256) : List Byte := bytesLE 32 d.toNat

/-- The eight words of a 256-bit value, bits 31:0 first (R523). -/
def digestWords (d : BitVec 256) : List Word := (List.range 8).map (fun i => d.extractLsb' (32 * i) 32)

/-! ### SHA-256 -/

/-- The round constants of SHA-256. -/
def shaK : List Word :=
  [0x428a2f98, 0x71374491, 0xb5c0fbcf, 0xe9b5dba5, 0x3956c25b, 0x59f111f1, 0x923f82a4, 0xab1c5ed5] ++
  [0xd807aa98, 0x12835b01, 0x243185be, 0x550c7dc3, 0x72be5d74, 0x80deb1fe, 0x9bdc06a7, 0xc19bf174] ++
  [0xe49b69c1, 0xefbe4786, 0x0fc19dc6, 0x240ca1cc, 0x2de92c6f, 0x4a7484aa, 0x5cb0a9dc, 0x76f988da] ++
  [0x983e5152, 0xa831c66d, 0xb00327c8, 0xbf597fc7, 0xc6e00bf3, 0xd5a79147, 0x06ca6351, 0x14292967] ++
  [0x27b70a85, 0x2e1b2138, 0x4d2c6dfc, 0x53380d13, 0x650a7354, 0x766a0abb, 0x81c2c92e, 0x92722c85] ++
  [0xa2bfe8a1, 0xa81a664b, 0xc24b8b70, 0xc76c51a3, 0xd192e819, 0xd6990624, 0xf40e3585, 0x106aa070] ++
  [0x19a4c116, 0x1e376c08, 0x2748774c, 0x34b0bcb5, 0x391c0cb3, 0x4ed8aa4a, 0x5b9cca4f, 0x682e6ff3] ++
  [0x748f82ee, 0x78a5636f, 0x84c87814, 0x8cc70208, 0x90befffa, 0xa4506ceb, 0xbef9a3f7, 0xc67178f2]

/-- The working variables of SHA-256. -/
structure Sha where
  a : Word
  b : Word
  c : Word
  d : Word
  e : Word
  f : Word
  g : Word
  h : Word

/-- One round of SHA-256 with round constant `k` and schedule word `w`. -/
def shaRound (v : Sha) (k w : Word) : Sha :=
  let s1 := v.e.rotateRight 6 ^^^ v.e.rotateRight 11 ^^^ v.e.rotateRight 25
  let ch := (v.e &&& v.f) ^^^ (~~~ v.e &&& v.g)
  let t1 := v.h + s1 + ch + k + w
  let s0 := v.a.rotateRight 2 ^^^ v.a.rotateRight 13 ^^^ v.a.rotateRight 22
  let maj := (v.a &&& v.b) ^^^ (v.a &&& v.c) ^^^ (v.b &&& v.c)
  ⟨t1 + (s0 + maj), v.a, v.b, v.c, v.d + t1, v.e, v.f, v.g⟩

/-- The rounds over the schedule `w`, kept as its next 16 words. -/
def shaRounds : List Word → List Word → Sha → Sha
  | [], _, v => v
  | k :: ks, w, v =>
    let w0 := w.getD 0 0
    let w1 := w.getD 1 0
    let w14 := w.getD 14 0
    let s0 := w1.rotateRight 7 ^^^ w1.rotateRight 18 ^^^ w1 >>> 3
    let s1 := w14.rotateRight 17 ^^^ w14.rotateRight 19 ^^^ w14 >>> 10
    shaRounds ks (w.drop 1 ++ [w0 + s0 + w.getD 9 0 + s1]) (shaRound v k w0)

/-- One block of 64 bytes. -/
def shaBlock (v : Sha) (bs : List Byte) : Sha :=
  let w := (List.range 16).map (fun i => BitVec.ofNat 32 (natBE ((bs.drop (4 * i)).take 4)))
  let r := shaRounds shaK w v
  ⟨v.a + r.a, v.b + r.b, v.c + r.c, v.d + r.d, v.e + r.e, v.f + r.f, v.g + r.g, v.h + r.h⟩

/-- The blocks of a padded message. -/
def shaBlocks : Nat → List Byte → Sha → Sha
  | 0, _, v => v
  | n + 1, bs, v => shaBlocks n (bs.drop 64) (shaBlock v (bs.take 64))

/-- A message with its padding. -/
def shaPad (bs : List Byte) : List Byte :=
  let n := bs.length
  bs ++ [0x80] ++ List.replicate ((119 - n % 64) % 64) 0 ++ bytesBE 8 (8 * n)

/-- SHA-256, 32 bytes. -/
def sha256 (bs : List Byte) : List Byte :=
  let p := shaPad bs
  let v := shaBlocks (p.length / 64) p ⟨0x6a09e667, 0xbb67ae85, 0x3c6ef372, 0xa54ff53a, 0x510e527f, 0x9b05688c,
    0x1f83d9ab, 0x5be0cd19⟩
  [v.a, v.b, v.c, v.d, v.e, v.f, v.g, v.h].flatMap (fun w => bytesBE 4 w.toNat)

/-- An extension of a measurement by a digest: SHA-256(MEAS ‖ d) (R523). -/
def extendMeas (m d : BitVec 256) : BitVec 256 := digestOf (sha256 (digestBytes m ++ digestBytes d))

/-! ### CRC-32 -/

/-- One bit of CRC-32. -/
def crc32Bit (c : Word) : Word := if c.getLsbD 0 then c >>> 1 ^^^ 0xEDB88320 else c >>> 1

/-- One byte of CRC-32. -/
def crc32Byte (c : Word) (b : Byte) : Word := (List.range 8).foldl (fun c _ => crc32Bit c) (c ^^^ b.setWidth 32)

/-- CRC-32 of IEEE 802.3 (R412, R516). -/
def crc32 (bs : List Byte) : Word := bs.foldl crc32Byte 0xFFFFFFFF ^^^ 0xFFFFFFFF

/-! ### ECDSA over P-256 -/

/-- The field of P-256. -/
def ecP : Nat := 2 ^ 256 - 2 ^ 224 + 2 ^ 192 + 2 ^ 96 - 1

/-- The order of its generator. -/
def ecN : Nat := 0xFFFFFFFF00000000FFFFFFFFFFFFFFFFBCE6FAADA7179E84F3B9CAC2FC632551

/-- The constant b of its curve. -/
def ecB : Nat := 0x5AC635D8AA3A93E7B3EBBD55769886BC651D06B0CC53B0F63BCE3C3E27D2604B

/-- Its generator. -/
def ecG : Nat × Nat :=
  (0x6B17D1F2E12C4247F8BCE6E563A440F277037D812DEB33A0F4A13945D898C296,
    0x4FE342E2FE1A7F9B8EE7EB4A7C0F9E162BCE33576B315ECECBB6406837BF51F5)

/-- A power modulo `m`, the exponent taken by bits from bit `n - 1` down. -/
def powMod (m a e : Nat) : Nat → Nat
  | 0 => 1 % m
  | n + 1 =>
    let r := powMod m a (e / 2) n
    if e % 2 = 1 then r * r % m * a % m else r * r % m

/-- The inverse modulo a prime. -/
def invMod (m a : Nat) : Nat := powMod m (a % m) (m - 2) 256

/-- The sum of two points; none is the point at infinity. -/
def ecAdd (p q : Option (Nat × Nat)) : Option (Nat × Nat) :=
  match p, q with
  | none, _ => q
  | _, none => p
  | some (x, y), some (u, v) =>
    if x = u ∧ (y + v) % ecP = 0 then none
    else
      let l := if x = u then (3 * x * x + (ecP - 3)) * invMod ecP (2 * y) % ecP
               else (v + ecP - y) * invMod ecP (u + ecP - x) % ecP
      let z := (l * l + 2 * ecP - x - u) % ecP
      some (z, (l * (x + ecP - z) + ecP - y) % ecP)

/-- A multiple of a point, the factor taken by `n` bits. -/
def ecMul (k : Nat) (p : Option (Nat × Nat)) : Nat → Option (Nat × Nat)
  | 0 => none
  | n + 1 =>
    let r := ecMul (k / 2) p n
    let d := ecAdd r r
    if k % 2 = 1 then ecAdd d p else d

/-- The signature r ‖ s of a digest verifies with the public key x ‖ y (R518, R521). -/
def ecdsaOk (digest key sig : List Byte) : Bool :=
  let x := natLE (key.take 32)
  let y := natLE ((key.drop 32).take 32)
  let r := natLE (sig.take 32)
  let t := natLE ((sig.drop 32).take 32)
  if x < ecP ∧ y < ecP ∧ (y * y) % ecP = (x * x * x + (ecP - 3) * x + ecB) % ecP ∧
      0 < r ∧ r < ecN ∧ 0 < t ∧ t < ecN then
    let w := invMod ecN t
    match ecAdd (ecMul (natBE digest * w % ecN) (some ecG) 256) (ecMul (r * w % ecN) (some (x, y)) 256) with
    | some (u, _) => u % ecN == r
    | none => false
  else false

end Sys2Proof.Machine
end

