-- ==== Sys2Proof/Machine/LineCode.lean ====
section
/-! DEFINITION. The 8b/10b code of the Hivewire line: its data and control characters with running disparity (R314, log
entry 70). A code's first symbol is its most significant bit. -/

namespace Sys2Proof.Machine

/-- The ones of a code of `n` bits. -/
def onesOf (n : Nat) (v : Nat) : Nat := (List.range n).foldl (fun a i => a + v / 2 ^ i % 2) 0

/-- A code of `n` bits in the form for a positive (`rd`) or negative running disparity: one that is not balanced, or one
of the two balanced pairs, is inverted for a positive one. -/
def codeFor (n : Nat) (pairs : List Nat) (rd : Bool) (v : Nat) : Nat :=
  if rd && (2 * onesOf n v != n || pairs.contains v) then 2 ^ n - 1 - v else v

/-- The running disparity after a code of `n` bits. -/
def rdAfter (n : Nat) (rd : Bool) (v : Nat) : Bool :=
  let k := 2 * onesOf n v
  if n < k then true else if k < n then false else rd

/-- The six-bit codes of data values 0 to 31 at negative running disparity. -/
def sixCodes : List Nat :=
  [0b100111, 0b011101, 0b101101, 0b110001, 0b110101, 0b101001, 0b011001, 0b111000,
   0b111001, 0b100101, 0b010101, 0b110100, 0b001101, 0b101100, 0b011100, 0b010111] ++
  [0b011011, 0b100011, 0b010011, 0b110010, 0b001011, 0b101010, 0b011010, 0b111010,
   0b110011, 0b100110, 0b010110, 0b110110, 0b001110, 0b101110, 0b011110, 0b101011]

/-- The four-bit codes of values 0 to 7 at negative running disparity. -/
def fourCodes : List Nat := [0b1011, 0b1001, 0b0101, 0b1100, 0b1101, 0b1010, 0b0110, 0b1110]

/-- The other four-bit code of the value 7, which avoids a run of five symbols. -/
def altSeven : Nat := 0b0111

/-- The control characters with their codes at negative running disparity. -/
def ctlCodes : List (Nat × Nat) :=
  [(0x1C, 0b0011110100), (0x3C, 0b0011111001), (0x5C, 0b0011110101), (0x7C, 0b0011110011), (0x9C, 0b0011110010),
   (0xBC, 0b0011111010), (0xDC, 0b0011110110), (0xFC, 0b0011111000), (0xF7, 0b1110101000), (0xFB, 0b1101101000),
   (0xFD, 0b1011101000), (0xFE, 0b0111101000)]

/-- The value 7 takes its other code after six symbols that end in two equal ones. -/
def takesAlt (rd : Bool) (x : Nat) : Bool := if rd then [11, 13, 14].contains x else [17, 18, 20].contains x

/-- The code of a byte, a data (`ctl` false) or control character, at a running disparity. -/
def lineEncode (rd ctl : Bool) (b : Byte) : BitVec 10 :=
  if ctl then
    match ctlCodes.find? (fun p => p.1 == b.toNat) with
    | some p => BitVec.ofNat 10 (if rd then 1023 - p.2 else p.2)
    | none => 0
  else
    let x := b.toNat % 32
    let y := b.toNat / 32
    let six := codeFor 6 [0b111000] rd (sixCodes.getD x 0)
    let mid := rdAfter 6 rd six
    let four := codeFor 4 [0b1100] mid (if y = 7 ∧ takesAlt mid x = true then altSeven else fourCodes.getD y 0)
    BitVec.ofNat 10 (six * 16 + four)

/-- The position of a code, in either of its forms. -/
def codeIx (n : Nat) (pairs codes : List Nat) (v : Nat) : Option Nat :=
  codes.findIdx? (fun c => codeFor n pairs false c == v || codeFor n pairs true c == v)

/-- The character that a code spells at a running disparity; none: a code or disparity error. -/
def lineDecode (rd : Bool) (v : BitVec 10) : Option (Bool × Byte) :=
  let n := v.toNat
  let cand : Option (Bool × Byte) :=
    match ctlCodes.find? (fun p => p.2 == n || 1023 - p.2 == n) with
    | some p => some (true, BitVec.ofNat 8 p.1)
    | none =>
      match codeIx 6 [0b111000] sixCodes (n / 16), codeIx 4 [0b1100] (fourCodes ++ [altSeven]) (n % 16) with
      | some x, some y => some (false, BitVec.ofNat 8 (min y 7 * 32 + x))
      | _, _ => none
  cand.filter (fun c => lineEncode rd c.1 c.2 == v)

/-- The codes of a run of characters from a running disparity on, and the disparity after them. -/
def lineEncodes (rd : Bool) : List (Bool × Byte) → List (BitVec 10) × Bool
  | [] => ([], rd)
  | c :: cs =>
    let v := lineEncode rd c.1 c.2
    let r := lineEncodes (rdAfter 10 rd v.toNat) cs
    (v :: r.1, r.2)

/-- The characters of a run of codes from a running disparity on; none: an error in that code. -/
def lineDecodes (rd : Bool) : List (BitVec 10) → List (Option (Bool × Byte))
  | [] => []
  | v :: vs => lineDecode rd v :: lineDecodes (rdAfter 10 rd v.toNat) vs

end Sys2Proof.Machine
end

