-- ==== Sys2Proof/Machine/Ports.lean ====
section
/-! DEFINITION. The serial audio ports: configuration, frames, placement, the hold stage, restart and fade,
alignment groups, and the 0x06xx commands (R282 to R311). -/

namespace Sys2Proof.Machine

/-! ### Access -/

/-- One side of one port. -/
def sideAt (p : Fin 8) (d : Side) (s : State) : PortSide :=
  match d with
  | .rx => s.rx[p]
  | .tx => s.tx[p]

/-- Change one side of one port. -/
def modSide (p : Fin 8) (d : Side) (f : PortSide → PortSide) (s : State) : State :=
  match d with
  | .rx => { s with rx := vmod s.rx p f }
  | .tx => { s with tx := vmod s.tx p f }

/-- Both sides of the eight ports, receive sides first. -/
def allSides : List (Fin 8 × Side) :=
  (List.finRange 8).map (fun p => (p, Side.rx)) ++ (List.finRange 8).map (fun p => (p, Side.tx))

/-- The configuration word a side's clock and format follow: a synchronous receive side takes its transmit
side's (R290). -/
def clockWord (p : Fin 8) (d : Side) (s : State) : Word :=
  match d with
  | .rx => if s.rx[p].w3.getLsbD 16 then s.tx[p].w3 else s.rx[p].w3
  | .tx => s.tx[p].w3

/-- The slots S of a configuration word (R284, R310). -/
def cfgSlots (w3 : Word) : Nat := fld w3 2 5 + 1

/-- The slot width w of a configuration word (R284, R310). -/
def cfgWidth (w3 : Word) : Nat := 16 + 8 * min (fld w3 8 2) 2

/-- The frame length B in bits (R284). -/
def cfgBits (w3 : Word) : Nat := cfgSlots w3 * cfgWidth w3

/-- The clock mode of a configuration word: 0 master, 1 locked, 2 foreign, 3 auto (R310). -/
def cfgMode (w3 : Word) : Nat := fld w3 14 2

/-- The clock mode in force at a restart (R288, R291): an auto side is locked while its named reference is
selected. -/
def modeNow (p : Fin 8) (d : Side) (s : State) : PortMode :=
  let w := clockWord p d s
  match cfgMode w with
  | 0 => .master
  | 1 => .locked
  | 2 => .foreign
  | _ => if s.stove.sel.map (·.val) = some (fld w 20 4) then .locked else .foreign

/-- The band of R293, by position: the last 8 bit periods of the M frame for a receive side, the first 8 for a
transmit side. -/
def inBand (d : Side) (bits pos : Nat) : Bool :=
  match d with
  | .rx => decide (32000 * bits ≤ pos * bits + 8 * 32000)
  | .tx => decide (pos * bits < 8 * 32000)

/-- The position of a master side: its local tick, 3 bit-clock cycles after the Hive's (R39, R289). -/
def masterPos (bits : Nat) : Nat := 3 * 32000 / bits

/-! ### Flags -/

/-- The island of a port side, as a source of events. -/
def sideSrc (p : Fin 8) (d : Side) : Nat :=
  match d with
  | .rx => 8 + p.val
  | .tx => 16 + p.val

/-- PORT_STAT event bits: set, with EV24 + n for those that raise it (R50, R307, R308, R550). -/
def portFlag (p : Fin 8) (d : Side) (b : Nat) (s : State) : State :=
  let s := modSide p d (fun y => { y with ev := y.ev ||| BitVec.ofNat 9 (2 ^ b) }) s
  if b < 3 then s else
    raiseFrom (sideSrc p d) (24 + p.val) (match d with
      | .rx => bit b
      | .tx => bit (b + 16)) s

/-- The crossings of a port side that is reset: its staged enable and its undelivered events are discarded (R56,
R57). -/
def sideCut (p : Fin 8) (d : Side) (s : State) : State :=
  dropEvts (sideSrc p d) [] (unstage (fun x => match x.chg with
    | .portEnable q e _ | .groupPart q e => q == p && e == d
    | _ => false) s)

/-- A late, underrun or discarded frame counts (R308). -/
def portLate (p : Fin 8) (d : Side) (b : Nat) (s : State) : State :=
  portFlag p d b (modSide p d (fun y => { y with lateCnt := stick 255 y.lateCnt }) s)

/-! ### Slot buffers, tails and restart -/

/-- The values of a receive side's entry for M frame `n`; one that is not complete reads +0.0 (R47). -/
def rxEntry (p : Fin 8) (n : Nat) (s : State) : List F32 :=
  match vgetD s.rx[p].buf (n % 4) none with
  | some e => if e.complete ∧ e.tag = BitVec.ofNat 16 n then e.vals else []
  | none => []

/-- The entry for M frame `n` is complete (R46, R47). -/
def entryReady (b : SlotBuf) (n : Nat) : Bool :=
  match vgetD b (n % 4) none with
  | some e => e.complete && e.tag == BitVec.ofNat 16 n
  | none => false

/-- Complete the entry for M frame `n` of a receive side. -/
def rxWrite (p : Fin 8) (n : Nat) (vals : List F32) (s : State) : State :=
  modSide p .rx (fun y => { y with
    lastVals := vals, buf := vmodN y.buf (n % 4) (fun _ => some ⟨true, BitVec.ofNat 16 n, vals⟩) }) s

/-- The factor of frame k of a tail-out (R299). -/
def tailFactor (k : Nat) : F32 := if k < 15 then qF32 (mkRat (15 - k : Nat) 16) else 0

/-- The tail-out's entry for M frame `n` of a receive side (R299). -/
def writeTail (p : Fin 8) (n : Nat) (s : State) : State :=
  match s.rx[p].tailD with
  | some d =>
    if d ≤ n ∧ n ≤ d + 15 then
      rxWrite p n (s.rx[p].tailH.map (fun h => f32Mul h (tailFactor (n - d)))) s
    else s
  | none => s

/-- A tail-out starts in M frame `n`, where none runs yet; a transmit side's scales what the side sent until then, and
goes on from the factor of a fade-in that it ends (R299, log entry 40). -/
def startTail (p : Fin 8) (d : Side) (n : Nat) (s : State) : State :=
  if (sideAt p d s).tailD.isSome then s else
    let h := match d with
      | .rx => rxEntry p (prevF n) s
      | .tx => []
    let s := modSide p d (fun y => { y with
      tailD := some n, tailH := h, tailErc := if y.mode = .foreign then some y.ercLock else none
      tailF := if y.st = .fadeIn then qF32 (mkRat (min y.fadeK 16) 16) else 0x3F800000 }) s
    match d with
    | .rx => writeTail p n s
    | .tx => s

/-- The group a side belongs to waits for its joint start (R303). -/
def groupWaits (y : PortSide) (s : State) : Bool :=
  match y.grp with
  | some g => s.grps[g].enabledAt.isSome
  | none => false

/-- The placement offset of a group with PORT_GRP_LATE, or as fixed before (R302). -/
def groupG (g : Fin 4) (s : State) : Option Bool := if s.grps[g].late then some true else s.grps[g].g

/-- A side aligns with placement offset `g` at a position and starts its fade-in (R292, R301). -/
def alignSide (p : Fin 8) (d : Side) (g : Bool) (s : State) : State :=
  modSide p d (fun y => { y with
    st := .fadeIn, g := g, fadeK := 0, numbered := false, offRate := 0, ready := false, refused := false }) s

/-- A side aligns alone: with its group's offset, which it fixes where none is, or with its own; a master or foreign side
has none of its own (R292, R293, R302). -/
def alignAlone (p : Fin 8) (d : Side) (s : State) : State :=
  let y := sideAt p d s
  let band := inBand d (cfgBits (clockWord p d s)) y.pos
  match y.grp with
  | some g =>
    let o := (groupG g s).getD band
    alignSide p d o { s with grps := vmod s.grps g (fun x => { x with g := some o }) }
  | none => alignSide p d (y.mode == .locked && band) s

/-- A side that completed step 3 of its restart rejoins its group, or stays in MEASURE with PORT_EV_DRIFT set once where
its position lies in the band and the group's offset is 0; a side without a group aligns (R293, R302, R304). -/
def rejoin (p : Fin 8) (d : Side) (s : State) : State :=
  let y := sideAt p d s
  match y.grp with
  | some g =>
    if groupG g s = some false ∧ inBand d (cfgBits (clockWord p d s)) y.pos = true then
      if y.refused then s else modSide p d (fun y => { y with refused := true }) (portFlag p d 3 s)
    else alignAlone p d s
  | none => alignAlone p d s

/-- A restart, in M frame `n`, with a tail-out where `tail` holds (R301). -/
def restartSide (p : Fin 8) (d : Side) (tail : Bool) (n : Nat) (s : State) : State :=
  let mode := modeNow p d s
  let s := if tail then startTail p d n s else s
  let s := modSide p d (fun y => { y with
    mode := mode, st := .wait, ercLock := false, measured := 0, offRate := 0, fadeK := 0, offAfter := false
    ready := false, refused := false
    numbered := y.numbered && d == .tx && y.tailD.isSome }) s
  if mode = .master then
    let s := modSide p d (fun y => { y with
      st := .measure, ready := true, pos := masterPos (cfgBits (clockWord p d s)) }) s
    if groupWaits (sideAt p d s) s then s else rejoin p d s
  else s

/-- Sides run: in RUN, from the Hive's first frame on, and while they tail out on the way to STANDBY (R305). -/
def portsRun (s : State) : Bool := (s.pow.st == .run || s.pow.st == .runToStandby) && hiveRuns s

/-- A side that is OFF or tailing toward OFF. -/
def sideStopped (y : PortSide) : Bool := y.st == .off || y.st == .tail

/-- A side stops with a tail-out from M frame `n`, then OFF (R299, R305, R310). -/
def stopSide (p : Fin 8) (d : Side) (n : Nat) (s : State) : State :=
  if sideStopped (sideAt p d s) then s
  else modSide p d (fun y => { y with st := .tail, offAfter := true, ready := false }) (startTail p d n s)

/-- PORT_ENABLE takes effect on a side at the tick of M frame `n` (R301, R305, R310). -/
def portEnableNow (p : Fin 8) (d : Side) (on : Bool) (n : Nat) (s : State) : State :=
  let s := modSide p d (fun y => { y with enabled := on }) s
  if on then
    if s.pow.st = .run ∧ hiveRuns s = true ∧ sideStopped (sideAt p d s) = true then restartSide p d false n s else s
  else stopSide p d n s

/-- The members of a group (R302). -/
def membersOf (g : Fin 4) (s : State) : List (Fin 8 × Side) :=
  allSides.filter (fun x => (sideAt x.1 x.2 s).grp == some g)

/-- PORT_ENABLE takes effect on a group (R303). -/
def groupEnableNow (g : Fin 4) (on : Bool) (n : Nat) (s : State) : State :=
  let s := { s with grps := vmod s.grps g (fun x => { x with enabledAt := if on then some n else none }) }
  (membersOf g s).foldl (fun s x => portEnableNow x.1 x.2 on n s) s

/-- Every enabled side that is OFF starts, at the first M frame tick after the Hive's release (R305). -/
def portsStart (n : Nat) (s : State) : State :=
  let s := { s with grps := s.grps.map (fun x => { x with enabledAt := x.enabledAt.map (fun _ => n) }) }
  allSides.foldl (fun s x =>
    let y := sideAt x.1 x.2 s
    if y.enabled && y.st == .off then restartSide x.1 x.2 false n s else s) s

/-- Every running side tails out, and keeps its enable (R305). -/
def portsStop (n : Nat) (s : State) : State := allSides.foldl (fun s x => stopSide x.1 x.2 n s) s

/-- Forget the placement offset of every group without members. -/
def emptyGroups (s : State) : State :=
  { s with grps := vmap s.grps (fun g x => if (membersOf g s).isEmpty then { x with g := none } else x) }

/-- The port side reset of a change of fM: status, group and measurements are reset, and every enabled side restarts
without a tail-out (R9, R190, R301, R306, R307, log entry 39). -/
def portsReset (n : Nat) (s : State) : State :=
  emptyGroups (allSides.foldl (fun s x =>
    let run := (sideAt x.1 x.2 s).enabled && !sideStopped (sideAt x.1 x.2 s)
    let s := modSide x.1 x.2 (fun y => { w3 := y.w3, w4 := y.w4, enabled := y.enabled }) (sideCut x.1 x.2 s)
    if run && s.pow.st == .run then restartSide x.1 x.2 false n s else s) s)

/-- The Stoker names the selected reference: an auto side whose mode changes with it restarts (R271, R291). -/
def portsNotify (s : State) : State :=
  allSides.foldl (fun s x =>
    let y := sideAt x.1 x.2 s
    if cfgMode (clockWord x.1 x.2 s) == 3 && !sideStopped y && modeNow x.1 x.2 s != y.mode then
      restartSide x.1 x.2 true s.stove.frame s
    else s) s

/-- The group members that have a clock: their frame syncs come (R303). -/
def hasClock (y : PortSide) : Bool := !sideStopped y && y.st != .wait

/-- The ready members of a group align together, with one placement offset (R302, R303). -/
def alignGroup (g : Fin 4) (s : State) : State :=
  let ms := (membersOf g s).filter (fun x => (sideAt x.1 x.2 s).ready)
  let band := ms.any (fun x => inBand x.2 (cfgBits (clockWord x.1 x.2 s)) (sideAt x.1 x.2 s).pos)
  let o := (groupG g s).getD band
  ms.foldl (fun s x => alignSide x.1 x.2 o s)
    { s with grps := vmod s.grps g (fun x => { x with g := some o, enabledAt := none }) }

/-- The joint start of a group at the tick of M frame `n`: every member that has a clock has completed step 3. A clock shows
within 2 frame periods, so a member without one holds the others up no longer (R303, log entry 12). -/
def groupTick (n : Nat) (g : Fin 4) (s : State) : State :=
  match s.grps[g].enabledAt with
  | none => s
  | some e =>
    let ms := (membersOf g s).map (fun x => sideAt x.1 x.2 s)
    let ok := ms.all (fun y => y.ready || y.st == .fadeIn || y.st == .run || (!hasClock y && decide (e + 3 ≤ n)))
    if ok && ms.any (·.ready) then alignGroup g s else s

/-- The values that the entry of M frame `n` carries; one that is not complete reads +0.0. -/
def entryVals (b : SlotBuf) (n : Nat) : List F32 :=
  match vgetD b (n % 4) none with
  | some e => if e.complete && e.tag == BitVec.ofNat 16 n then e.vals else []
  | none => []

/-- A frame enters a converter's sample buffer (R193). -/
def ercPush (vs : List F32) (y : PortSide) : PortSide := { y with erc := (vs :: y.erc).take 48, ercAge := 0 }

/-- The converter of a foreign transmit side takes the entry of the frame before `n`, as long as a tail-out of such a side
runs too (R193, R299). -/
def ercTick (n : Nat) (s : State) : State :=
  { s with tx := vmap s.tx (fun _ y =>
      if (y.mode = .foreign ∨ (y.tailD.isSome ∧ y.tailErc.isSome)) ∧ y.st ≠ .off then ercPush (entryVals y.buf (prevF n)) y else y) }

/-- What the M tick of frame `n` does to the ports: joint starts, converters, tail-outs and their ends; a stopped side
drives its data low (R193, R299, R303, R305, R310). -/
def portsTick (n : Nat) (s : State) : State :=
  let s := ercTick n s
  let s := (List.finRange 4).foldl (fun s g => groupTick n g s) s
  let s := allSides.foldl (fun s x =>
    match (sideAt x.1 x.2 s).tailD with
    | some d =>
      if d + 15 < n then
        modSide x.1 x.2 (fun y => { y with
          tailD := none, tailH := [], offAfter := false
          st := if y.offAfter then .off else y.st
          pin := if y.offAfter then [] else y.pin
          numbered := y.numbered && (y.st == .fadeIn || y.st == .run) }) s
      else s
    | none => s) s
  (List.finRange 8).foldl (fun s p => writeTail p n s) s

/-! ### Samples -/

/-- A received slot code as a value (R286). -/
def codeVal (w : Nat) (code : Word) : F32 :=
  let k := code.toNat % 2 ^ w
  qF32 (mkRat (if 2 ^ (w - 1) ≤ k then (k : Int) - ((2 ^ w : Nat) : Int) else (k : Int)) (2 ^ (w - 1)))

/-- A value as a slot code, and whether it was clamped (R286). -/
def valCode (w : Nat) (y : F32) : Word × Bool :=
  let top : Int := ((2 ^ (w - 1) : Nat) : Int)
  let x : Int := if f32Fin y then
      let q := f32Q y * (top : Rat)
      if q < 0 then -((rneQ (-q) : Nat) : Int) else ((rneQ q : Nat) : Int)
    else if y.getLsbD 31 then -top - 1 else top
  if x < -top then (BitVec.ofInt 32 (-top), true)
  else if top - 1 < x then (BitVec.ofInt 32 (top - 1), true)
  else (BitVec.ofInt 32 x, false)

/-- The values of a received frame: +0.0 in a slot beyond S or cleared in the mask (R283, R286). -/
def rxVals (w3 w4 : Word) (codes : List Word) : List F32 :=
  (List.range 32).map (fun i =>
    if i < cfgSlots w3 ∧ w4.getLsbD i = true then codeVal (cfgWidth w3) (codes.getD i 0) else 0)

/-- The data delay δ of a configuration word (R284, R310). -/
def cfgDelay (w3 : Word) : Nat :=
  match fld w3 0 2 with
  | 0 => 1
  | 1 => 0
  | _ => fld w3 12 1

/-- The frame sync, sampled as `a` and at the next edge as `b`, opens a frame (R284). -/
def fsOpens (w3 : Word) (a b : Bool) : Bool :=
  let x := a != w3.getLsbD 11
  let y := b != w3.getLsbD 11
  if fld w3 0 2 = 0 then x && !y else !x && y

/-- The code of slot `i` of a frame: its bit j is sampled at count δ + i × w + j, the most significant first (R284,
R285). -/
def slotCode (w3 : Word) (data : List Bool) (i : Nat) : Word :=
  BitVec.ofNat 32 ((List.range (cfgWidth w3)).foldl
    (fun a j => 2 * a + (data.getD (cfgDelay w3 + i * cfgWidth w3 + j) false).toNat) 0)

/-- The codes of a frame's slots (R285). -/
def frameCodes (w3 : Word) (data : List Bool) : List Word := (List.range (cfgSlots w3)).map (slotCode w3 data)

/-- The output of an edge rate converter that takes `per` samples an M frame: a linear-phase filter centred 3 M frames,
and the buffer's distance from its centre, before the newest sample as it came in; that sample is `ercAge` M frames old
by now. +0.0 until the converter is locked (R193 to R195, log entry 68). -/
def ercOut (per : Rat) (y : PortSide) : List F32 :=
  if !y.ercLock then [] else
    let h := (3 + max (-3) (min 3 y.fill)) * per
    let x := h - (y.ercAge : Rat) * per
    (List.range 32).map (fun i => dot64 ((List.range ((x + h).floor.toNat + 1)).map (fun (k : Nat) =>
      (Config.ercTap per (absQ ((k : Rat) - x)), (y.erc.getD k []).getD i 0))))

/-- A converter's output in the slots that exist and are enabled. -/
def ercSlots (w3 w4 : Word) (vs : List F32) : List F32 :=
  (List.range 32).map (fun i => if i < cfgSlots w3 ∧ w4.getLsbD i = true then vs.getD i 0 else 0)

/-- The next numbered frame of a fade-in: PORT_EV_RESTART and the end of a running tail-out at k = 1, full level
from k = 16 (R301). The answer is the factor. -/
def fadeStep (p : Fin 8) (d : Side) (s : State) : F32 × State :=
  let y := sideAt p d s
  if y.st = .fadeIn then
    let k := y.fadeK + 1
    let s := if k = 1 then portFlag p d 8 (modSide p d (fun y => { y with tailD := none, tailH := [] }) s) else s
    (qF32 (mkRat (min k 16) 16), modSide p d (fun y => { y with
      fadeK := k, st := if 16 ≤ k then .run else .fadeIn }) s)
  else (0x3F800000, s)

/-- Scale the values of a frame. -/
def scaleVals (f : F32) (vs : List F32) : List F32 := if f = 0x3F800000 then vs else vs.map (fun v => f32Mul v f)

/-- The number of the next frame of a side, fixed by the first after the alignment (R292). -/
def numberSide (p : Fin 8) (d : Side) (n : Nat) (s : State) : State :=
  modSide p d (fun y => if y.numbered then y else
    let k := match d with
      | .rx => addF n (if y.g then 1 else 0)
      | .tx => if y.g then addF n (2 ^ 64 - 1) else n
    { y with numbered := true, next := k, first := k }) s

/-- The side's frames count on. -/
def countSide (p : Fin 8) (d : Side) (s : State) : State :=
  modSide p d (fun y => { y with next := addF y.next 1 }) s

/-- A receive frame with the values `vs` fills its entry, or is late and discarded (R48, R292, R295, R301). -/
def deliverRx (p : Fin 8) (vs : List F32) (s : State) : State :=
  let n := s.stove.frame
  let s := numberSide p .rx n s
  let k := s.rx[p].next
  let late := decide (k < n) || s.rx[p].checked == some k
  let (f, s) := fadeStep p .rx s
  let s := countSide p .rx s
  if late then portLate p .rx 2 s else rxWrite p k (scaleVals f vs) s

/-! ### Frame events -/

/-- The difference of two positions around the M frame. -/
def posDiff (a b : Nat) : Nat :=
  let d := (a + 32000 - b % 32000) % 32000
  min d (32000 - d)

/-- A converter's buffer is more than 1 M frame from its centre (R195). -/
def ercLost (fill : Rat) : Bool := decide (1 < fill) || decide (fill < -1)

/-- A change of rate, or a converter that unlocks, declared on a side (R195, R300). -/
def rateChanged (p : Fin 8) (d : Side) (s : State) : State :=
  restartSide p d true s.stove.frame (portFlag p d 5 s)

/-- A frame sync at a wrong count, or none at count B: the frame in progress is discarded; a receive side repeats the
previous values on time, a foreign one to its converter, and a measurement starts anew (R297, R301). -/
def syncGlitch (p : Fin 8) (side : Side) (s : State) : State :=
  let y := sideAt p side s
  if !portsRun s || y.st == .off || y.mode == .master then s else
    let s := portFlag p side 6 (modSide p side (fun y => { y with glitchCnt := stick 255 y.glitchCnt }) s)
    match y.st with
    | .wait | .tail => s
    | .measure | .incompat => modSide p side (fun y => { y with measured := 0 }) s
    | _ =>
      if side = .rx ∧ y.mode = .foreign then modSide p .rx (fun y => ercPush (y.erc.headD []) y) s
      else if side = .rx ∧ y.numbered = true then
        let (_, s) := fadeStep p .rx s
        let k := y.next
        let s := countSide p .rx s
        if k < s.stove.frame ∨ y.checked = some k then portLate p .rx 2 s else rxWrite p k y.lastVals s
      else s

/-- FRAME_SYNC_GLITCH (R297). -/
def execFrameSyncGlitch (p : Fin 8) (side : Side) (s : State) : Host.Outcome State Fault Refusal :=
  .next (syncGlitch p side s)

/-- PORT_FRAME_COMPLETE: a frame ends at count B. Where the frame sync opens the next, the frame is good, and a receive
side delivers it, a foreign one to its converter, whose buffer fills while the rate is measured; where it does not, that
is a glitch (R195, R285, R293, R294, R297, R300, R301). -/
def execPortFrameComplete (f : PortFrame) (s : State) : Host.Outcome State Fault Refusal :=
  let y := sideAt f.port f.side s
  let w := clockWord f.port f.side s
  if !portsRun s || y.st == .off || (y.mode == .master && s.stove.clocksHeld) then .next s
  else if !(y.mode == .master || fsOpens w f.sync.1 f.sync.2) then .next (syncGlitch f.port f.side s)
  else if y.st = .tail then .next s
  else
    let vs := rxVals w y.w4 (frameCodes w f.data)
    let s := modSide f.port f.side (fun y => { y with period := f.period, fill := f.fill }) s
    let s := if f.side = .rx ∧ y.mode = .foreign then modSide f.port .rx (ercPush vs) s else s
    match y.st with
    | .wait => .next (modSide f.port f.side (fun y => { y with st := .measure, measured := 1 }) s)
    | .measure | .incompat => .next (modSide f.port f.side (fun y => { y with measured := min 127 (y.measured + 1) }) s)
    | _ =>
      let off := decide (y.refPeriod < 50 * (max f.period y.refPeriod - min f.period y.refPeriod))
      let cnt := if off then y.offRate + 1 else 0
      let s := modSide f.port f.side (fun y => { y with offRate := cnt }) s
      if y.mode ≠ .master ∧ (4 ≤ cnt ∨ (y.mode = .foreign ∧ ercLost f.fill = true)) then
        .next (rateChanged f.port f.side s)
      else if y.mode = .locked ∧ 4 * 32000 < posDiff f.pos y.pos * cfgBits w then
        .next (restartSide f.port f.side (f.side == .rx) s.stove.frame (portFlag f.port f.side 3 s))
      else if f.side = .rx then
        .next (if y.mode = .foreign then s else deliverRx f.port vs s)
      else .next s

/-- What a foreign receive side's converter gives the entry: its last output where its buffer is empty (R193, R195). -/
def ercEntry (p : Fin 8) (fill : Rat) (y : PortSide) (s : State) : List F32 :=
  if fill ≤ -3 then y.ercLast
  else ercSlots (clockWord p .rx s) y.w4 (ercOut (mkRat 32000 y.refPeriod) { y with fill := fill })

/-- A foreign receive side at the hold stage, its buffer at `fill`: the newest foreign sample ages by an M frame until
the next comes (R193, R195, R295). -/
def holdForeign (p : Fin 8) (fill : Rat) (s : State) : State :=
  let vs := ercEntry p fill s.rx[p] s
  let n := s.stove.frame
  let s := modSide p .rx (fun y => { y with fill := fill, ercLast := vs, ercAge := y.ercAge + 1 }) s
  let p2 := fadeStep p .rx (numberSide p .rx n s)
  rxWrite p n (scaleVals p2.1 vs) p2.2

/-- HOLD_STAGE_CHECK: at Hive cycle 31,999 an incomplete entry gets its substitute; a foreign side's converter
writes its entry here, repeats its last output where its buffer is empty, or declares itself unlocked (R193, R195,
R295). -/
def execHoldStageCheck (p : Fin 8) (edgeSeen : Bool) (s : State) : Host.Outcome State Fault Refusal :=
  let y := s.rx[p]
  let n := s.stove.frame
  if !portsRun s || !(y.st == .fadeIn || y.st == .run) then .next s
  else if y.mode = .foreign then
    let fill := if edgeSeen then y.fill else y.fill - 1
    if -3 < fill ∧ ercLost fill = true then .next (rateChanged p .rx (modSide p .rx (fun y => { y with fill := fill }) s))
    else .next (holdForeign p fill s)
  else
    let s := modSide p .rx (fun y => { y with checked := some n }) s
    if y.numbered = false ∨ n < y.first ∨ entryReady y.buf n = true then .next s
    else if edgeSeen then .next (portLate p .rx 1 (rxWrite p n [] s))
    else .next (rxWrite p n (rxEntry p (prevF n) s) s)

/-- The codes of a transmit pin frame: a slot cleared in the mask or beyond S is 0 or high-impedance (R283, R286,
R287). -/
def pinCodes (w3 w4 : Word) (vs : List F32) : List (Option Word) :=
  (List.range 32).map (fun i =>
    if i < cfgSlots w3 ∧ w4.getLsbD i = true then some (valCode (cfgWidth w3) (vs.getD i 0)).1
    else if w3.getLsbD 24 then none else some 0)

/-- A slot of the pin frame is clamped (R286). -/
def pinClips (w3 w4 : Word) (vs : List F32) : Bool :=
  (List.range 32).any (fun i =>
    decide (i < cfgSlots w3) && w4.getLsbD i && (valCode (cfgWidth w3) (vs.getD i 0)).2)

/-- A pin frame goes out with the values `vs`, scaled by a running tail-out (R286, R299). -/
def sendPin (p : Fin 8) (vs : List F32) (s : State) : State :=
  let y := s.tx[p]
  let vs := match y.tailD with
    | some d => if d ≤ s.stove.frame then vs.map (fun v => f32Mul (f32Mul v y.tailF) (tailFactor (s.stove.frame - d))) else vs
    | none => vs
  let s := modSide p .tx (fun y => { y with pin := pinCodes y.w3 y.w4 vs }) s
  if pinClips y.w3 y.w4 vs then
    portFlag p .tx 0 (modSide p .tx (fun y => { y with clipCnt := stick 255 y.clipCnt }) s)
  else s

/-- The lock of the converter that fills a transmit side's pin frames: a foreign side's, or that of the side that tails
out; none for the other sides (R193, R299). -/
def txErc (y : PortSide) : Option Bool :=
  if y.tailD.isSome then y.tailErc else if y.mode = .foreign then some y.ercLock else none

/-- The values of the pin frame with number `k` of a transmit side: a converter fills it, or the side takes the entry
before `k`; none: that entry is not there (R286, R292, R299). -/
def pinVals (k : Nat) (y : PortSide) : Option (List F32) :=
  match txErc y with
  | some l => some (ercOut 1 { y with ercLock := l })
  | none => if entryReady y.buf (prevF k) then (vgetD y.buf (prevF k % 4) none).map (·.vals) else none

/-- The pin frame with number `k` of a transmit side goes out, scaled by `f`; one without its entry is zeros and counts
late (R286, R296). -/
def pinBody (p : Fin 8) (f : F32) (k : Nat) (s : State) : State :=
  match pinVals k s.tx[p] with
  | some vs => sendPin p (scaleVals f vs) s
  | none => sendPin p [] (portLate p .tx 1 s)

/-- TRANSMIT_PIN_FRAME_OPEN: a pin frame opens in the current M frame and carries the entry its number names
(R286, R287, R292, R296, R299, R301). -/
def execTransmitPinFrameOpen (p : Fin 8) (s : State) : Host.Outcome State Fault Refusal :=
  let y := s.tx[p]
  if !portsRun s || y.st == .off || (y.mode == .master && s.stove.clocksHeld) then .next s
  else if y.st != .fadeIn && y.st != .run && !y.numbered then .next (sendPin p [] s)
  else
    let s := numberSide p .tx s.stove.frame s
    let k := s.tx[p].next
    let (f, s) := fadeStep p .tx s
    .next (pinBody p f k (countSide p .tx s))

/-- LOSS_OF_CLOCK: 2 frame periods without a good frame sync; the side restarts, a receive side with a tail-out (R298,
R301). A master side sees its own frame syncs, but where a change of fM holds its clocks low (R190). -/
def execLossOfClock (p : Fin 8) (side : Side) (s : State) : Host.Outcome State Fault Refusal :=
  let y := sideAt p side s
  if !portsRun s || y.st == .off || y.st == .wait || (y.mode == .master && !s.stove.clocksHeld) then .next s else
    let s := portFlag p side 7 (modSide p side (fun y => { y with lossCnt := stick 255 y.lossCnt }) s)
    if y.st = .tail then .next s
    else
      .next (restartSide p side (side == .rx) s.stove.frame s)

/-- The measured rate lets the side go on (R301): within ±1,000 ppm of fM where it is locked, 8 to 192 kHz and at
most 49.152 MHz of bit clock where it is foreign. `t` is the length of 64 frames in Hive cycles. -/
def rateFits (foreign : Bool) (bits t : Nat) (fm : Bool) : Bool :=
  if foreign then
    let r : Rat := ((fmHz fm * 64 * 32000 : Nat) : Rat) / (t : Rat)
    decide (0 < t) && decide (8000 ≤ r) && decide (r ≤ 192000) && decide ((bits : Rat) * r ≤ 49152000)
  else decide ((max (64 * 32000) t - min (64 * 32000) t) * 1000 ≤ t)

/-- PORT_MEASURE_DONE: the rate is checked and the side aligns, alone or with its group (R301 to R304). -/
def execPortMeasureDone (p : Fin 8) (side : Side) (period pos : Nat) (s : State) : Host.Outcome State Fault Refusal :=
  let y := sideAt p side s
  let w := clockWord p side s
  if !portsRun s || !(y.st == .measure || y.st == .incompat) || (y.mode == .master && !y.refused) ||
      decide (y.measured < 64) then .next s
  else if !rateFits (y.mode == .foreign) (cfgBits w) period s.hive.dom.fm then
    .next (portFlag p side 4 (modSide p side (fun y => { y with st := .incompat, measured := 0, ready := false }) s))
  else
    let s := modSide p side (fun y => { y with
      st := .measure, measured := 0, pos := pos, ercLock := y.mode == .foreign
      fill := if y.mode = .foreign then 0 else y.fill
      refPeriod := if y.mode = .foreign then period / 64 else 32000 }) s
    .next (if groupWaits y s then modSide p side (fun y => { y with ready := true }) s else rejoin p side s)

/-- GROUP_ALIGN_TIMEOUT: 256 M frames after the group's effect frame the members that are ready align, and the
others are left to align alone (R303). -/
def execGroupAlignTimeout (g : Fin 4) (s : State) : Host.Outcome State Fault Refusal :=
  match s.grps[g].enabledAt with
  | some e =>
    if e + 256 ≤ s.stove.frame then
      if (membersOf g s).any (fun x => (sideAt x.1 x.2 s).ready) then .next (alignGroup g s)
      else .next { s with grps := vmod s.grps g (fun x => { x with enabledAt := none }) }
    else .next s
  | none => .next s

/-! ### The 0x06xx commands -/

/-- The port a command names. -/
def tgtPort (r : Req) : Fin 8 := ixN 8 (by decide) (fld r.target 0 3)

/-- The sides a command names, receive first. -/
def tgtSides (r : Req) : List Side :=
  (if r.target.getLsbD 8 then [.rx] else []) ++ (if r.target.getLsbD 9 then [.tx] else [])

/-- A target word of a port command that is refused. -/
def badPort (r : Req) : Bool := rsvd r.target 0x307 || (tgtSides r).isEmpty

/-- PORT_ST (R307). -/
def portCode : PortSt → Nat
  | .off => 0
  | .wait => 1
  | .measure => 2
  | .fadeIn => 3
  | .run => 4
  | .tail => 5
  | .incompat => 6

/-- PORT_MODE_NOW (R307). -/
def portModeCode : PortMode → Nat
  | .master => 0
  | .locked => 1
  | .foreign => 2

/-- PORT_STAT (R307). -/
def portStat (y : PortSide) : Word :=
  n2w (portCode y.st) 29 ||| n2w (portModeCode y.mode) 27 ||| b2w y.ercLock 26 ||| b2w y.g 25 |||
  b2w y.grp.isSome 24 ||| n2w ((y.grp.map (·.val)).getD 0) 22 ||| n2w y.ev.toNat 0

/-- PORT_CNT (R308). -/
def portCnt (y : PortSide) : Word :=
  n2w y.glitchCnt 24 ||| n2w y.lossCnt 16 ||| n2w y.lateCnt 8 ||| n2w y.clipCnt 0

/-- The measured frame rate in Hz; no rate reads 0 (R45, R311). -/
def portRate (y : PortSide) (s : State) : F32 :=
  if y.period = 0 then 0 else qF32 (mkRat (fmHz s.hive.dom.fm * 32000 : Nat) y.period)

/-- Every side has stopped, as in RUN before the Hive runs (R305). -/
def portsOver (s : State) : Bool := !hiveRuns s || allSides.all (fun x => (sideAt x.1 x.2 s).st == .off)

/-- PORT_INFO (R309, R311). -/
def portInfoDef : CmdDef :=
  { opcode := 0x0600, minVer := 1
    bad := fun r _ => badForm 0 r || badPort r
    act := fun _ r s => (s, stOk, (tgtSides r).flatMap (fun d =>
      [(sideAt (tgtPort r) d s).w3, (sideAt (tgtPort r) d s).w4])) }

/-- A PORT_CONFIG word 3 out of range for a side (R289, R291, R310). -/
def badPortWord (w : Word) (d : Side) : Bool :=
  rsvd w 0x01F3FF7F || fld w 0 2 == 3 || fld w 8 2 == 3 || fld w 2 5 == 0 ||
  (fld w 0 2 != 2 && fld w 2 5 != 1) || decide (12 < fld w 20 4) ||
  (cfgMode w == 0 && decide (1024 < cfgBits w)) || (cfgMode w == 3 && w.getLsbD 17) ||
  (d == .tx && w.getLsbD 16)

/-- PORT_CONFIG (R56, R309, R310). -/
def portConfigDef : CmdDef :=
  { opcode := 0x0601, minVer := 1
    bad := fun r _ => badForm 2 r || badPort r || (tgtSides r).any (badPortWord (arg r 3))
    wrong := fun _ r s => (tgtSides r).any (fun d => (sideAt (tgtPort r) d s).st != .off)
    act := fun _ r s => ((tgtSides r).foldl (fun s d =>
      modSide (tgtPort r) d (fun y => { w3 := arg r 3, w4 := arg r 4, enabled := y.enabled })
        (sideCut (tgtPort r) d s)) s, stOk, []) }

/-- A start of a ring is accepted for effect frame E: N0 is E (R448, R456). -/
def armRing (m : Nat) (t : BitVec 16) (r : Fin 16) (e : Nat) (s : State) : State :=
  stage m t e (.ringStart r) { s with p0 := { s.p0 with rings := vmod s.p0.rings r (fun x =>
    { x with st := .armed, n0 := e }) } }

/-- The configured stream rings of a group are started with it (R456). -/
def armGroup (m : Nat) (t : BitVec 16) (g : Fin 4) (e : Nat) (s : State) : State :=
  (List.finRange 16).foldl (fun s r =>
    let x := s.p0.rings[r]
    if x.grp == some g && x.st == .ready && (x.kind == .playback || x.kind == .capture) then armRing m t r e s else s) s

/-- PORT_ENABLE (R102, R303, R305, R309, R310). -/
def portEnableDef : CmdDef :=
  { opcode := 0x0602, minVer := 1
    bad := fun r s => badForm 3 r || rsvd (arg r 3) 0x33 || (!argB r 3 1 && badPort r) || badE (arg64 r 4) s
    wrong := fun _ r s => s.pow.st == .hearthSafe || rateBars (useE (arg64 r 4) s) s || (match s.hive.dom.change with
      | some x => x.fmChange
      | none => false)
    act := fun m r s =>
      let e := useE (arg64 r 4) s
      let on := argB r 3 0
      let s := if argB r 3 1 then
          let g : Fin 4 := ixN 4 (by decide) (argF r 3 4 2)
          let s := (membersOf g s).foldl (fun s x => stage m r.tag e (.groupPart x.1 x.2) s) s
          stage m r.tag e (.groupEnable g on) (if on then armGroup m r.tag g e s else s)
        else (tgtSides r).foldl (fun s d => stage m r.tag e (.portEnable (tgtPort r) d on) s) s
      (s, stOk, pair64 e) }

/-- A side joins a group or leaves it. -/
def joinGroup (g : Fin 4) (on : Bool) (y : PortSide) : PortSide :=
  if on then { y with grp := some g } else { y with grp := if y.grp = some g then none else y.grp }

/-- PORT_GROUP_SET (R302, R309, R310). -/
def portGroupSetDef : CmdDef :=
  { opcode := 0x0603, minVer := 2
    bad := fun r s => badForm 1 r || badPort r || rsvd (arg r 3) 0xF ||
      (tgtSides r).any (fun d => decide (2 ≤ cfgMode (clockWord (tgtPort r) d s)))
    wrong := fun _ r s => (tgtSides r).any (fun d => (sideAt (tgtPort r) d s).st != .off)
    act := fun _ r s =>
      let g : Fin 4 := ixN 4 (by decide) (argF r 3 0 2)
      let s := (tgtSides r).foldl (fun s d => modSide (tgtPort r) d (joinGroup g (argB r 3 2)) s) s
      let s := { s with grps := vmod s.grps g (fun x => { x with late := argB r 3 3 }) }
      (emptyGroups s, stOk, []) }

/-- PORT_STATUS (R309, R311). -/
def portStatusDef : CmdDef :=
  { opcode := 0x0604, minVer := 1
    bad := fun r _ => badForm 0 r || badPort r
    act := fun _ r s => (s, stOk, (tgtSides r).flatMap (fun d =>
      let y := sideAt (tgtPort r) d s
      [portStat y, portCnt y, portRate y s, n2w y.pos 0, qF32 y.fill])) }

/-- PORT_CLEAR on a side (R307, R308, R310). -/
def clearSide (w : Word) (y : PortSide) : PortSide :=
  let y := { y with ev := y.ev &&& ~~~ (w.extractLsb' 0 9) }
  if w.getLsbD 31 then { y with glitchCnt := 0, lossCnt := 0, lateCnt := 0, clipCnt := 0 } else y

/-- PORT_CLEAR (R309, R310). -/
def portClearDef : CmdDef :=
  { opcode := 0x0605, minVer := 2
    bad := fun r _ => badForm 1 r || badPort r || rsvd (arg r 3) 0x800001FF
    act := fun _ r s => ((tgtSides r).foldl (fun s d => modSide (tgtPort r) d (clearSide (arg r 3)) s) s, stOk, []) }

/-- PORT_INFO. -/
def execPortInfo (m : Fin 4) (r : Req) (s : State) : Host.Outcome State Fault Refusal :=
  .next (mbxCommand portInfoDef m r s)

/-- PORT_CONFIG. -/
def execPortConfig (m : Fin 4) (r : Req) (s : State) : Host.Outcome State Fault Refusal :=
  .next (mbxCommand portConfigDef m r s)

/-- PORT_ENABLE. -/
def execPortEnable (m : Fin 4) (r : Req) (s : State) : Host.Outcome State Fault Refusal :=
  .next (mbxCommand portEnableDef m r s)

/-- PORT_GROUP_SET. -/
def execPortGroupSet (m : Fin 4) (r : Req) (s : State) : Host.Outcome State Fault Refusal :=
  .next (mbxCommand portGroupSetDef m r s)

/-- PORT_STATUS. -/
def execPortStatus (m : Fin 4) (r : Req) (s : State) : Host.Outcome State Fault Refusal :=
  .next (mbxCommand portStatusDef m r s)

/-- PORT_CLEAR. -/
def execPortClear (m : Fin 4) (r : Req) (s : State) : Host.Outcome State Fault Refusal :=
  .next (mbxCommand portClearDef m r s)

end Sys2Proof.Machine
end

