-- ==== Sys2Proof/Machine/Stove.lean ====
section
/-! DEFINITION. The Stove and the Stoker: comparisons, lock and relock, references, ranking, switching, phase
build-out, Ember, the software loop and the 0x05xx commands (R242 to R281). -/

namespace Sys2Proof.Machine

/-! ### Access -/

/-- Change the Stove. -/
def modStove (f : Stove → Stove) (s : State) : State := { s with stove := f s.stove }

/-- Change a reference. -/
def modRef (i : Fin 13) (f : Ref → Ref) (s : State) : State :=
  modStove (fun x => { x with refs := vmod x.refs i f }) s

/-- The mask of a reference. -/
def refBit (i : Fin 13) : Word := bit i.val

/-- A reference is qualified; the crystal is while the Hearth reports it running (R253). -/
def refQual (i : Fin 13) (s : State) : Bool :=
  if i = 0 then !s.hearth.xtalStopped else s.stove.refs[i].qual

/-- A reference the Stoker ranks: listed, qualified, and not of quality code 0xF (R256, R257). -/
def refRanked (i : Fin 13) (s : State) : Bool :=
  s.stove.refs[i].listed && refQual i s && s.stove.refs[i].qcode != 15

/-- The rank of a reference; less is better (R256, R257). -/
def refKey (i : Fin 13) (s : State) : Nat :=
  let r := s.stove.refs[i]
  if s.stove.compat then r.qcode * 10000 + r.prio * 100 + i.val
  else (if s.stove.manual = some i then 0 else 10000) + r.prio * 100 + i.val

/-- `i` outranks `j`; a ranked reference outranks one that is not (R256). -/
def outranks (i j : Fin 13) (s : State) : Bool :=
  refRanked i s && (!refRanked j s || decide (refKey i s < refKey j s))

/-- The highest-ranked reference among those that `p` admits. -/
def bestRef (p : Fin 13 → Bool) (s : State) : Option (Fin 13) :=
  (List.finRange 13).foldl (fun best i =>
    if p i && refRanked i s then
      match best with
      | some j => if refKey i s < refKey j s then some i else some j
      | none => some i
    else best) none

/-- The target of a switch: the highest-ranked reference but the one being left and those dropped (R259, R260). -/
def switchTarget (s : State) : Option (Fin 13) :=
  bestRef (fun i => s.stove.sel != some i && !s.stove.dropped.contains i.val) s

/-- Some reference is listed (R250). -/
def anyListed (s : State) : Bool := s.stove.refs.toList.any (·.listed)

/-- A switch is in qualify, move or settle (R263, R280). -/
def switching (s : State) : Bool :=
  s.stove.st == .qualify || s.stove.st == .move || s.stove.st == .settle

/-- A reference that is compared on the crystal's base (R248). -/
def cmpBase (i : Fin 13) : Fin 13 := if i = 12 then 0 else i

/-- The reference the loop follows now (R250, R259 to R262, R266, R269). -/
def loopRef (s : State) : Option (Fin 13) :=
  match s.stove.st with
  | .stopped | .ember => none
  | .acquire => s.stove.acq
  | .freeRun => some 0
  | .move => none
  | .locked | .qualify | .settle => if s.stove.holding || s.stove.inEmber then none else s.stove.sel

/-- A TDC phase in nanoseconds (R242, R243). -/
def phaseNs (ph : Int) (s : State) : Rat := mkRat (ph * 1000000000) (512 * 8000 * fmHz s.hive.dom.fm)

/-- EV22 with a change of the build-out (R261, R264, R550). -/
def buildOutEvt (d : Rat) (s : State) : State := raise 22 (qF32 d) s

/-! ### Ember -/

/-- The Ember frequency in 0.001 ppm and the number of gates it is averaged over (R267). Entry k of the kept
offsets belongs to gate `gate` − 1 − k. -/
def emberMean (gate upTo : Nat) (kept : List (Option Int)) : Rat × Nat :=
  let w : Int := (upTo : Int) - 16
  let inWin (k : Nat) : Bool := decide (w - 63 ≤ (gate : Int) - 1 - k) && decide ((gate : Int) - 1 - k ≤ w)
  let vs := (List.range kept.length).filterMap (fun k => if inWin k then kept.getD k none else none)
  if vs.isEmpty then
    match kept.filterMap id with
    | v :: _ => ((v : Rat), 1)
    | [] => (0, 0)
  else (((vs.foldl (· + ·) 0 : Int) : Rat) / ((vs.length : Nat) : Rat), vs.length)

/-- The freeze mark of the selected reference (R255). -/
def freezeGate (s : State) : Option Nat :=
  match s.stove.sel with
  | some i => s.stove.refs[i].freeze
  | none => none

/-- A frequency in 0.001 ppm as a word in units of 2^-40 (R243, R267). -/
def freqWord (f : Rat) : Int := rneInt (f * ((2 ^ 40 : Nat) : Rat) / 1000000000)

/-- Ember entry: EV17, no reference selected, and the DCO at the Ember frequency; with the crystal stopped it stays at
its last word (R254, R266, R267, R271, log entry 69). -/
def enterEmber (s : State) : State :=
  let x := s.stove
  let loss := x.lossGate
  let upTo := match freezeGate s with
    | some f => min f loss
    | none => loss
  let s := raise 17 (n2w ((x.sel.map (·.val)).getD 15) 0) s
  let m := emberMean x.gate upTo x.dcoGates
  let word := if s.hearth.xtalStopped then x.dco else freqWord m.1
  portsNotify (modStove (fun x => { x with
    st := .ember, inEmber := true, sel := none, tgt := none, switchPends := false, holding := false, dropped := []
    ember := m, dco := word
    emberGates := ((freezeGate s).getD 0, loss), hitFrom := none }) s)

/-! ### Starting and leaving a switch -/

/-- A switch is to start at the next comparison instant (R259). -/
def pendSwitch (s : State) : State :=
  modStove (fun x => { x with switchPends := true, tgt := switchTarget s }) s

/-- No target is left for a switch: Ember goes on, or is entered after a loss, or the selected reference stays
(R259, R260, R263). -/
def noTarget (s : State) : State :=
  if s.stove.inEmber then
    modStove (fun x => { x with st := .ember, tgt := none, switchPends := false, dropped := [] }) s
  else if s.stove.holding then enterEmber s
  else modStove (fun x => { x with st := .locked, tgt := none, switchPends := false, dropped := [] }) s

/-- The selected reference is lost or disqualified, with its loss gate (R259, R263, R266). -/
def selGone (gate : Nat) (s : State) : State :=
  match s.stove.st with
  | .locked | .settle =>
    let s := modStove (fun x => { x with st := .locked, holding := true, lossGate := gate, dropped := [], hitFrom := none }) s
    if (switchTarget s).isSome then pendSwitch s else enterEmber s
  | .qualify => modStove (fun x => { x with holding := true, lossGate := gate }) s
  | _ => s

/-- The target is lost or disqualified (R263): in qualify the next-ranked reference is tried. -/
def tgtGone (s : State) : State :=
  if s.stove.st = .qualify then
    if (switchTarget s).isSome then
      pendSwitch (modStove (fun x => { x with st := if x.inEmber then .ember else .locked }) s)
    else noTarget s
  else s

/-- References that were lost or disqualified, with the loss gate of each (R252, R253). -/
def refsGone (is : List (Fin 13 × Nat)) (s : State) : State :=
  is.foldl (fun s g =>
    if s.stove.sel = some g.1 then selGone g.2 s
    else if s.stove.tgt = some g.1 then tgtGone s
    else s) s

/-- The start of a switch at a comparison instant (R259): qualify begins, and this comparison counts where the
target is compared at it. -/
def startSwitch (x : Comparison) (s : State) : State :=
  match switchTarget s with
  | some t =>
    let due := x.due.getLsbD (cmpBase t).val
    let edge := x.edges.getLsbD (cmpBase t).val
    modStove (fun y => { y with
      st := .qualify, tgt := some t, switchPends := false
      cmps := if due then 1 else 0
      qMiss := due && !edge
      tgtErr := if due && edge then some (phaseNs x.tgtPhase s) else none, tgtHit := none }) s
  | none => noTarget s

/-- The hit detector at a phase `e`, after a phase `err` and with a suspicion `sus`, the phase before it and the
difference: the mean of the two differences where a hit is declared, and the suspicion that stands (R264). -/
def hitJudge (thr err : Rat) (sus : Option (Rat × Rat)) (e : Rat) : Option Rat × Option (Rat × Rat) :=
  let next := if thr < absQ (e - err) then some (err, e - err) else none
  match sus with
  | some (p, d) =>
    let d2 := e - p
    if (0 < d ∧ thr / 2 < d2) ∨ (d < 0 ∧ d2 < -(thr / 2)) then (some ((d + d2) / 2), none) else (none, next)
  | none => (none, next)

/-- The phase of a switch's target, with its hit detector: a hit restarts the 16 comparisons of qualify, and in move the
build-out includes it (R263, R264). -/
def targetPhase (e : Rat) (y : Stove) : Stove :=
  match y.tgtErr with
  | none => { y with tgtErr := some e }
  | some p =>
    let (hit, sus) := hitJudge ((y.pboThr : Nat) : Rat) p y.tgtHit e
    let y' := { y with tgtErr := some e, tgtHit := sus }
    match hit with
    | none => y'
    | some m =>
      if y.st = .qualify then { y' with cmps := 0, qMiss := false }
      else { y' with buildOut := (y.tgtHit.map (·.1)).getD p + m }

/-- A comparison of a switch's target (R260 to R263). -/
def countTarget (x : Comparison) (s : State) : State :=
  match s.stove.tgt with
  | some t =>
    if x.due.getLsbD (cmpBase t).val then
      let edge := x.edges.getLsbD (cmpBase t).val
      let s := modStove (fun y => { y with
        cmps := min 8000 (y.cmps + 1)
        qMiss := y.qMiss || (y.st == .qualify && !edge) }) s
      if edge ∧ t ≠ 12 ∧ (s.stove.st = .qualify ∨ s.stove.st = .move) then
        modStove (targetPhase (phaseNs x.tgtPhase s)) s
      else s
    else s
  | none => s

/-- Free run: no reference is listed, and the Stove runs on the crystal (R250). -/
def toFreeRun (s : State) : State :=
  portsNotify (modStove (fun x => { x with
    st := .freeRun, sel := none, tgt := none, switchPends := false, holding := false, inEmber := false }) s)

/-- Reference `i` outranks the selected one, which is listed: its wait-to-restore runs (R258). -/
def restores (i : Fin 13) (s : State) : Bool :=
  match s.stove.sel with
  | some k => i != k && s.stove.refs[k].listed && outranks i k s
  | none => false

/-- A wait-to-restore stops once its reference has lost its qualification or its rank (R258). -/
def wtrStop (s : State) : State :=
  modStove (fun x => { x with refs := vmap x.refs (fun i r =>
    if r.wtr && !restores i s then { r with wtr := false, wtrLeft := 0 } else r) }) s

/-- The listing and the ranks decide: between free run and a locked crystal, on the wait-to-restore timers, on leaving an
unlisted selected reference, and on leaving Ember when a listed reference qualifies (R250, R258, R259, R268). -/
def selectByList (s : State) : State :=
  let s := wtrStop s
  match s.stove.st with
  | .freeRun =>
    if anyListed s then modStove (fun x => { x with st := .locked, sel := some 0 }) s else s
  | .locked =>
    if !anyListed s then toFreeRun s
    else match s.stove.sel with
      | some i =>
        if !s.stove.switchPends && !s.stove.refs[i].listed && (switchTarget s).isSome then pendSwitch s else s
      | none => s
  | .ember => if !anyListed s then toFreeRun s else if !s.stove.switchPends && (switchTarget s).isSome then pendSwitch s else s
  | _ => s

/-! ### Lock -/

/-- Lock loss: EV21 with its cause, once; the loop holds its word, and the Stoker relocks (R244, R263, R269). -/
def lockLoss (cause : Nat) (s : State) : State :=
  if s.stove.relock then s
  else
    let s := raise 21 (n2w cause 0) s
    modStove (fun x => { x with
      lock := false, st := .acquire, relock := true, acq := none, tgt := none, switchPends := false
      dropped := [], holding := true, inEmber := false, hitFrom := none, inWin := 0, outWin := 0, cmps := 0 })
      { s with bel := { s.bel with muteAck := false } }

/-- The Stove reports lock (R190, R244, R269, R270). -/
def lockReport (s : State) : State :=
  let held := s.stove.clocksHeld
  let some0 := s.stove.acq
  let s := modStove (fun x => { x with
    lock := true, relock := false, acq := none, dropped := [], holding := false, clocksHeld := false
    inWin := 0, outWin := 0, cmps := 0, hitFrom := none
    st := if anyListed s then .locked else .freeRun
    sel := if anyListed s then some0 else none }) s
  let s := if held then portsReset s.stove.frame s else portsNotify s
  rateLock s.stove.frame s

/-- At the tick of P in a change of fM the Stove retargets to the crystal; the clocks are held low, every reference
starts unqualified, and the kept offsets are cleared (R190, R267, R270). -/
def stoveRetarget (s : State) : State :=
  modStove (fun x => { x with
    lock := false, st := .acquire, relock := true, acq := some 0, sel := none, tgt := none, switchPends := false
    dropped := [], holding := false, inEmber := false, hitFrom := none, inWin := 0, outWin := 0, cmps := 0
    buildOut := 0, clocksHeld := true, dcoGates := [], gateLocked := false
    refs := x.refs.map (fun r => { r with
      qual := false, good := 0, bad := 0, wtr := false, wtrLeft := 0, gates := [], gateWhole := false
      freeze := none, calm := 0 })
    sw := { x.sw with goodGates := 0 } }) s

/-! ### One comparison -/

/-- The references compared at this instant see an edge or miss one; at the second in a row a listed reference is lost,
with EV19 (R252, R277). The software reference has no edges. -/
def refEdge (x : Comparison) (i : Fin 13) (r : Ref) : Ref :=
  let r := if x.due.getLsbD i.val && decide (i ≠ 12) then { r with active := x.edges.getLsbD i.val } else r
  if r.listed && x.due.getLsbD i.val && decide (i ≠ 12) then
    let e := x.edges.getLsbD i.val
    let n := if e then 0 else min 2 (r.missed + 1)
    let lost := !e && r.missed == 1 && decide (i ≠ 0)
    { r with
      missed := n, gateWhole := r.gateWhole && e
      qual := r.qual && !lost, good := if lost then 0 else r.good
      wtr := r.wtr && !lost, wtrLeft := if lost then 0 else r.wtrLeft }
  else r

/-- The references lost at this instant (R252). -/
def refsLost (x : Comparison) (s : State) : List (Fin 13) :=
  (List.finRange 13).filter (fun i =>
    let r := s.stove.refs[i]
    r.listed && x.due.getLsbD i.val && decide (i ≠ 12 ∧ i ≠ 0) && !x.edges.getLsbD i.val && r.missed == 1)

/-- One commit is applied at a crystal comparison: limited to ±1,000 ppm and to the step, with the clamp shown
(R274). -/
def swApplyOne (w : SwLoop) (p : Byte × Word) : SwLoop :=
  let want := p.2.toInt
  let lim : Int := 1099511628
  let a := max (-lim) (min lim want)
  let st : Int := (rneQ (f32Q w.step * ((2 ^ 40 : Nat) : Rat) / 1000000) : Nat)
  let b := max (w.cur - st) (min (w.cur + st) a)
  { w with cur := b, applied := p.1, clamped := decide (b ≠ want), inGate := true, since := 0 }

/-- The commits that have arrived are applied at a crystal comparison in their order; none is lost (R37, R274). -/
def swApply (w : SwLoop) : SwLoop := w.pend.foldl swApplyOne { w with pend := [] }

/-- A crystal comparison of the software loop: the measure reference's phase is latched, and a waiting commit
applied (R272 to R275). -/
def swCompare (x : Comparison) (w : SwLoop) : SwLoop :=
  let w := { w with
    cmpSeq := (w.cmpSeq + 1) % 65536, noEdge := !x.swEdge
    phaseNow := if x.swEdge then x.swPhase else w.phaseNow }
  swApply { w with since := min 65535 (w.since + 1) }

/-- The re-zero slew moves the build-out toward 0 at a comparison and stops there (R265). -/
def rezeroStep (x : Stove) : Stove :=
  let d := f32Q x.slew / 8000
  if d = 0 then x
  else { x with buildOut :=
    if d < x.buildOut then x.buildOut - d else if x.buildOut < -d then x.buildOut + d else 0 }

/-- The window counts of R244 and R262. -/
def windowStep (x : Stove) : Stove :=
  let a := absQ x.err
  { x with inWin := if a ≤ 2 then min 8 (x.inWin + 1) else 0, outWin := if 500 < a then min 4 (x.outWin + 1) else 0 }

/-- The phase error `e` of a comparison: a hit that it declares moves the build-out and explains the errors before it
(R244, R262, R264). The answer is the change of the build-out, 0 where there is none. -/
def hitStep (e : Rat) (x : Stove) : Stove × Rat :=
  let (hit, sus) := hitJudge ((x.pboThr : Nat) : Rat) x.err x.hitFrom e
  match hit with
  | some m => ({ windowStep { x with err := e - m } with hitFrom := none, buildOut := x.buildOut + m, outWin := 0 }, m)
  | none => (windowStep { x with err := e, hitFrom := sus }, 0)

/-- The errors beyond the lock window make a lock loss: four in a row, once the next comparison has not shown the fourth
to be a hit (R244). `x` is the Stove before the comparison, `y` after it. -/
def windowLost (x y : Stove) (hit : Bool) : Bool :=
  (decide (4 ≤ y.outWin) && y.hitFrom.isNone) || (decide (4 ≤ x.outWin) && x.hitFrom.isSome && !hit)

/-- One comparison of the reference the loop follows (R242, R244, R262, R264). -/
def loopCompare (x : Comparison) (s : State) : State :=
  if x.rangeEnd then lockLoss 1 s
  else
    let e := phaseNs x.phase s - s.stove.buildOut
    if s.stove.st = .acquire then
      let s := modStove (fun y => windowStep { y with err := e }) s
      if 8 ≤ s.stove.inWin then lockReport s else s
    else
      let was := s.stove
      let (y, m) := hitStep e was
      let s := { s with stove := y }
      let s := if m = 0 then s else buildOutEvt m s
      if windowLost was y (decide (m ≠ 0)) then lockLoss 0 s
      else if s.stove.st = .settle ∧ 8 ≤ s.stove.inWin then
        modStove (fun y => { y with st := .locked, tgt := none, dropped := [] }) s
      else s

/-- The loop's comparison at an instant: with an edge the frequency word follows the loop filter, or the applied offset
of reference 12; without one the word is held, the window counts start anew, and a hit that this comparison had to
confirm is none, so that it explains no errors (R244, R260, R264, R274, log entry 38). -/
def loopStepNow (i : Fin 13) (x : Comparison) (s : State) : State :=
  if !x.due.getLsbD (cmpBase i).val then s
  else
    let s := modStove (fun y => if y.st = .acquire then { y with cmps := min 8000 (y.cmps + 1) } else y) s
    if x.edges.getLsbD (cmpBase i).val || x.rangeEnd then
      loopCompare x (modStove (fun y => { y with dco := if i = 12 then y.sw.cur else x.dcoOfs }) s)
    else if s.stove.st ≠ .acquire ∧ 4 ≤ s.stove.outWin ∧ s.stove.hitFrom.isSome then lockLoss 0 s
    else modStove (fun y => { y with inWin := 0, outWin := 0, hitFrom := none }) s

/-- The comparison base of the build-out's comparisons (R242, R265). -/
def slewBase (s : State) : Fin 13 := cmpBase ((s.stove.sel.orElse (fun _ => s.stove.tgt)).getD 0)

/-- The Stove compares: not stopped, and not with the loop open in Ember (R265, R266). -/
def slews (x : Comparison) (s : State) : Bool :=
  x.due.getLsbD (slewBase s).val && s.stove.st != .stopped && s.stove.st != .ember

/-- The time of a partner's tick in 1/16 symbol from its line frame's start at the master: the unwrapped report and half
the measured round trip. A report that is missing gives none (R351, log entry 13). -/
def partnerTick (c : Fin 2) (s : State) : Option Int :=
  let h := s.hw[c]
  if h.partner = 0 ∨ h.report.isNone then none else h.ticks.map (· + 8 * (h.trip : Int))

/-- A partner's clock ticks where the latest line frame brought its report (R248, R351). -/
def partnerTicks (c : Fin 2) (s : State) : Bool := (partnerTick c s).isSome

/-- The edges that reach the Stoker: of a partner's clock none without its reports (R248, R351). -/
def heardEdges (x : Comparison) (s : State) : Comparison :=
  let mute : BitVec 13 := (if partnerTicks 0 s then 0 else 0x400) ||| (if partnerTicks 1 s then 0 else 0x800)
  { x with edges := x.edges &&& ~~~ mute, swEdge := x.swEdge && !mute.getLsbD s.stove.sw.meas }

/-- STOVE_COMPARISON: one comparison instant (R242, R252, R259, R262, R264 to R266, R274). -/
def execStoveComparison (x : Comparison) (s : State) : Host.Outcome State Fault Refusal :=
  if !s.stove.running then .next s else
    let x := heardEdges x s
    let follows := loopRef s
    let s := if s.stove.switchPends then startSwitch x s else countTarget x s
    let lost := refsLost x s
    let s := raiseMask 19 (maskOf (lost.map (·.val)))
      (modStove (fun y => { y with refs := vmap y.refs (refEdge x) }) s)
    let s := if x.due.getLsbD 0 then modStove (fun y => { y with sw := swCompare x y.sw }) s else s
    let s := match follows with
      | some i => loopStepNow i x s
      | none => s
    let s := if slews x s then modStove rezeroStep s else s
    let s := refsGone (lost.map (fun i => (i, s.stove.gate))) s
    let s := selectByList s
    .next (modStove (fun y => { y with gateLocked := y.gateLocked && (y.st == .locked || y.st == .freeRun) }) s)

/-! ### Gates -/

/-- A gate result of a reference: the tolerance counts (R251, R253, R277). -/
def gateResult (g : Nat) (r : Ref) (f : Int) : Ref :=
  let inTol := decide (((max f (-f) : Int) : Rat) ≤ f32Q r.tol * 1000)
  { r with
    gates := (f :: r.gates).take 5, lastOfs := f
    good := if inTol then stick 15 r.good else 0
    bad := if inTol then 0 else min 8 (r.bad + 1)
    badFrom := if r.bad = 0 then g else r.badFrom
    qual := if inTol then r.qual || decide (3 ≤ r.good) else r.qual && decide (r.bad < 7) }

/-- The last slope in 0.001 ppm per second, where five results stand (R255). -/
def lastSlope (r : Ref) : Option Rat :=
  match r.gates with
  | [f0, _, _, _, f4] => some (((f0 - f4 : Int) : Rat) / 4)
  | _ => none

/-- A slope that a gate's result completes is kept (R255, R281). -/
def slopeStep (r : Ref) : Ref := { r with lastSl := (lastSlope r).getD r.lastSl }

/-- The freeze mark of the selected reference at gate `g` (R255). -/
def freezeStep (g : Nat) (r : Ref) : Ref :=
  match lastSlope r with
  | some x =>
    if f32Q r.slope * 1000 < absQ x then { r with freeze := some g, calm := 0 }
    else if r.freeze.isSome then
      (if 79 ≤ r.calm then { r with freeze := none, calm := 0 } else { r with calm := r.calm + 1 })
    else r
  | none => { r with calm := 0 }

/-- What one gate does to a reference: its result if it was active through the whole gate and the crystal runs, and
the start of the next gate (R251, R253 to R255). The software reference counts gates with a commit (R275). -/
def gateRef (g : Nat) (stopped : Bool) (sel : Option (Fin 13)) (w : SwLoop) (offs : List (Option Int)) (i : Fin 13)
    (r : Ref) : Ref :=
  let r := if r.listed && !stopped then
      if i = 12 then
        let n := if w.inGate then stick 15 r.good else 0
        { r with good := n, qual := r.qual || (w.enabled && decide (4 ≤ n)) }
      else match r.gateWhole, offs.getD i.val none with
        | true, some f =>
          let r := slopeStep (if i = 0 then { gateResult g r f with qual := r.qual } else gateResult g r f)
          if sel = some i then freezeStep g r else r
        | _, _ => { r with gates := [], calm := 0, good := 0, bad := 0 }
    else { r with gates := [], calm := 0, good := 0, bad := 0 }
  { r with gateWhole := r.active && r.listed }

/-- Wait-to-restore at the end of a gate: a reference that outranks the selected one counts down; any other timer
stops (R258). -/
def wtrStep (s : State) : State :=
  let len := if s.stove.compat then 5 else 10
  modStove (fun x => { x with refs := vmap x.refs (fun i r =>
    if restores i s then
      if r.wtr then { r with wtrLeft := r.wtrLeft - 1 } else { r with wtr := true, wtrLeft := len }
    else { r with wtr := false, wtrLeft := 0 }) }) s

/-- In qualify, a reference that qualifies and outranks the target takes its place (R263). -/
def betterTarget (new : List (Fin 13)) (s : State) : State :=
  match s.stove.st, s.stove.tgt with
  | .qualify, some t =>
    if new.any (fun i => outranks i t s) then
      pendSwitch (modStove (fun x => { x with st := if x.inEmber then .ember else .locked }) s)
    else s
  | _, _ => s

/-- MEASUREMENT_GATE_END: a gate's results, qualification, the freeze mark, the DCO's offset and wait-to-restore
(R251, R253, R255, R258, R267). Offsets are in 0.001 ppm. -/
def execMeasurementGateEnd (offs : List (Option Int)) (dco : Int) (s : State) : Host.Outcome State Fault Refusal :=
  if !s.stove.running then .next s else
    let g := s.stove.gate
    let stop := s.hearth.xtalStopped
    let was := s.stove.refs
    let s := modStove (fun x => { x with
      refs := vmap x.refs (gateRef g stop x.sel x.sw offs)
      gate := addF g 1
      dcoGates := ((if x.gateLocked && !stop then some dco else none) :: x.dcoGates).take 160
      gateLocked := x.st == .locked || x.st == .freeRun
      sw := { x.sw with inGate := false, goodGates := if x.sw.inGate then min 7 (x.sw.goodGates + 1) else 0 } }) s
    let off := (List.finRange 13).filter (fun i => was[i].qual && !s.stove.refs[i].qual)
    let on := (List.finRange 13).filter (fun i => !was[i].qual && s.stove.refs[i].qual)
    let s := raiseMask 20 (maskOf (on.map (·.val))) (raiseMask 19 (maskOf (off.map (·.val))) s)
    let s := wtrStep s
    let s := refsGone (off.map (fun i => (i, s.stove.refs[i].badFrom))) s
    .next (selectByList (betterTarget on s))

/-- WAIT_TO_RESTORE_EXPIRY: a revertive switch becomes due (R258, R259). -/
def execWaitToRestoreExpiry (ref : Fin 13) (s : State) : Host.Outcome State Fault Refusal :=
  let r := s.stove.refs[ref]
  if s.stove.running && r.wtr && decide (r.wtrLeft = 0) && s.stove.revert && s.stove.st == .locked &&
      !s.stove.switchPends then
    match s.stove.sel with
    | some k => if outranks ref k s then .next (pendSwitch s) else .next s
    | none => .next s
  else .next s

/-! ### The phases of a switch -/

/-- The word of a frequency `f` in 0.001 ppm relative to the DCO at word `w` (R243, R261). -/
def retune (w f : Int) : Int := rneInt (mkRat ((2 ^ 40 + w) * (1000000000 + f)) 1000000000) - 2 ^ 40

/-- QUALIFY_END: 16 comparisons of the target; it passes, and the move begins, or it is dropped (R260, R261). `freq` is
its frequency relative to the DCO in 0.001 ppm, `phase` its phase difference in TDC units. -/
def execQualifyEnd (freq : Option Int) (phase : Int) (s : State) : Host.Outcome State Fault Refusal :=
  if s.stove.st == .qualify && decide (16 ≤ s.stove.cmps) then
    match s.stove.tgt with
    | some t =>
      let pass := !s.stove.qMiss && (match freq with
        | some f => decide (((max f (-f) : Int) : Rat) ≤ f32Q s.stove.refs[t].tol * 1000)
        | none => false)
      if pass then
        .next (modStove (fun x => { x with
          st := .move, cmps := 0, moveFrom := x.buildOut, buildOut := phaseNs phase s
          dco := if t = 12 then x.dco else retune x.dco (freq.getD 0), hitFrom := none }) s)
      else
        let s := modStove (fun x => { x with dropped := t.val :: x.dropped, st := if x.inEmber then .ember else .locked }) s
        if (switchTarget s).isSome then .next (pendSwitch s) else .next (noTarget s)
    | none => .next s
  else .next s

/-- The loss gate of a reference that is found unqualified: the first of its 8 gates out of tolerance where those made it
so, the current gate otherwise (R267). -/
def lossOf (t : Fin 13) (s : State) : Nat :=
  let r := s.stove.refs[t]
  if r.bad = 8 then r.badFrom else s.stove.gate

/-- MOVE_END: the target becomes the selected reference, with EV16, EV22 and, out of Ember, EV18; the ports learn of it
(R261, R268, R271, R275). -/
def execMoveEnd (s : State) : Host.Outcome State Fault Refusal :=
  if s.stove.st == .move && decide (1 ≤ s.stove.cmps) then
    match s.stove.tgt with
    | some t =>
      let prev := (s.stove.sel.map (·.val)).getD 15
      let s := raise 16 (n2w t.val 4 ||| n2w prev 0) s
      let s := buildOutEvt (s.stove.buildOut - s.stove.moveFrom) s
      let s := raiseIf s.stove.inEmber 18 (n2w t.val 0) s
      let s := modStove (fun x => { x with
        st := .settle, sel := some t, inEmber := false, holding := false, switches := stick 255 x.switches
        cmps := 0, inWin := 0, outWin := 0, dropped := []
        err := (x.tgtErr.map (· - x.buildOut)).getD 0, hitFrom := x.tgtHit.map (fun h => (h.1 - x.buildOut, h.2))
        tgtErr := none, tgtHit := none
        refs := x.refs.map (fun r => { r with freeze := none, calm := 0 })
        sw := if t = 12 then { x.sw with cur := x.dco, ofs := BitVec.ofInt 32 x.dco } else x.sw }) s
      let s := portsNotify s
      .next (if refQual t s then s else selGone (lossOf t s) s)
    | none => .next s
  else .next s

/-- SETTLE_TIMEOUT: a settle that has not ended within 8,000 comparisons is a lock loss (R262). -/
def execSettleTimeout (s : State) : Host.Outcome State Fault Refusal :=
  if s.stove.st == .settle && decide (8000 ≤ s.stove.cmps) then .next (lockLoss 0 s) else .next s

/-! ### Relock and clock monitors -/

/-- The relock acquires a reference with a build-out of 0 (R269). -/
def acquireRef (i : Fin 13) (s : State) : State :=
  modStove (fun x => { x with acq := some i, buildOut := 0, cmps := 0, inWin := 0, outWin := 0, hitFrom := none, holding := false }) s

/-- RELOCK_ACQUIRE: once the Bellows has acknowledged the mute, the highest-ranked reference or the crystal is acquired
(R269). -/
def execRelockAcquire (s : State) : Host.Outcome State Fault Refusal :=
  if s.stove.relock && s.bel.muteAck && s.stove.acq.isNone then
    .next (acquireRef ((bestRef (fun _ => true) s).getD 0) s)
  else .next s

/-- RELOCK_ATTEMPT_TIMEOUT: no lock within 32 comparisons; the next-ranked reference, then the crystal, then a new round
(R269). -/
def execRelockAttemptTimeout (s : State) : Host.Outcome State Fault Refusal :=
  match s.stove.acq with
  | some k =>
    if s.stove.relock && s.stove.st == .acquire && decide (32 ≤ s.stove.cmps) then
      let s := modStove (fun x => { x with dropped := k.val :: x.dropped }) s
      match bestRef (fun i => !s.stove.dropped.contains i.val) s with
      | some i => .next (acquireRef i s)
      | none =>
        if s.stove.dropped.contains 0 then
          let s := modStove (fun x => { x with dropped := [] }) s
          .next (acquireRef ((bestRef (fun _ => true) s).getD 0) s)
        else .next (acquireRef 0 s)
    else .next s
  | none => .next s

/-- SW_REF_WATCHDOG: no commit within the watchdog period; the software reference is lost (R275). -/
def execSwRefWatchdog (s : State) : Host.Outcome State Fault Refusal :=
  if s.stove.running && s.stove.sw.enabled && decide (s.stove.sw.wdog ≤ s.stove.sw.since) && s.stove.refs[12].qual then
    let s := modRef 12 (fun r => { r with qual := false, good := 0, wtr := false, wtrLeft := 0 }) s
    let s := modStove (fun x => { x with sw := { x.sw with goodGates := 0 } }) s
    .next (selectByList (refsGone [(12, s.stove.gate)] (raise 19 (refBit 12) s)))
  else .next s

/-- CRYSTAL_STOPPED: the stop is recorded, and a crystal that is listed or selected is disqualified (R253, R254, R259,
R266, R555). -/
def execCrystalStopped (s : State) : Host.Outcome State Fault Refusal :=
  if s.hearth.xtalStopped || s.pow.st == .off then .next s else
    let s := { s with hearth := { s.hearth with xtalStopped := true }, flt := { s.flt with xtal := true } }
    let s := logFault 0x06 0 s
    if s.stove.running && (s.stove.refs[0].listed || s.stove.sel == some 0) then
      .next (refsGone [(0, s.stove.gate)] (raise 19 1 s))
    else .next s

/-- The DCO runs at the Ember frequency again once the crystal does (R254, R266). -/
def emberWord (s : State) : State :=
  if s.stove.inEmber && (s.stove.st == .ember || s.stove.st == .qualify) then
    modStove (fun x => { x with dco := freqWord x.ember.1 }) s
  else s

/-- CRYSTAL_RESUME: the crystal runs again, and a listed crystal requalifies (R253, R254, R266). -/
def execCrystalResume (s : State) : Host.Outcome State Fault Refusal :=
  if s.hearth.xtalStopped then
    let s := emberWord { s with hearth := { s.hearth with xtalStopped := false } }
    if s.stove.running && s.stove.refs[0].listed then .next (selectByList (betterTarget [0] (raise 20 1 s))) else .next s
  else .next s

/-- STOVE_TICK_MISSING: EV21 with cause 2, the record, and a relock (R244, R254). -/
def execStoveTickMissing (s : State) : Host.Outcome State Fault Refusal :=
  if s.stove.running then
    .next (lockLoss 2 (logFault 0x07 0 { s with flt := { s.flt with tick := true } }))
  else .next s

/-! ### Status words -/

/-- STKR_STATE (R276). -/
def stkrCode : StkrSt → Nat
  | .stopped => 0
  | .acquire => 1
  | .locked => 2
  | .qualify => 3
  | .move => 4
  | .settle => 5
  | .ember => 6
  | .freeRun => 7

/-- STKR_STAT (R276). -/
def stkrStat (s : State) : Word :=
  let x := s.stove
  n2w (stkrCode x.st) 28 ||| n2w ((x.sel.map (·.val)).getD 15) 24 ||| n2w ((x.tgt.map (·.val)).getD 15) 20 |||
  b2w x.compat 19 ||| b2w x.revert 18 ||| b2w x.inEmber 17 ||| b2w x.holding 16 |||
  b2w (x.refs.toList.any (·.freeze.isSome)) 15 |||
  b2w (f32Q x.slew != 0 && x.buildOut != 0) 14 ||| n2w x.bw.toNat 12 ||| n2w x.switches 0

/-- STKR_REF_STAT (R277). -/
def refStat (i : Fin 13) (s : State) : Word :=
  let r := s.stove.refs[i]
  n2w r.qcode 28 ||| n2w r.prio 24 ||| b2w r.listed 23 ||| b2w r.active 22 ||| b2w (refQual i s) 21 |||
  b2w r.wtr 20 ||| b2w r.freeze.isSome 19 ||| b2w r.base8k 18 ||| n2w r.good 12 ||| n2w r.bad 8 ||| n2w r.wtrLeft 0

/-- The clock output settings, laid out as STOVE_OUT_SET word 3 (R281). -/
def outWord (s : State) : Word :=
  n2w s.stove.clkout.toNat 8 ||| n2w s.stove.mclk1.toNat 2 ||| n2w s.stove.mclk0.toNat 0

/-- STOVE_OUT_SET takes effect; a change of CLKOUT to or from the crystal holds it low until the next tick (R247). -/
def stoveOutNow (w : Word) (s : State) : State :=
  modStove (fun x =>
    let c := w.extractLsb' 8 3
    { x with
      mclk0 := w.extractLsb' 0 2, mclk1 := w.extractLsb' 2 2, clkout := c
      clkLow := x.clkLow || (c != x.clkout && (c == 4 || x.clkout == 4)) }) s

/-- 0.001 ppm as binary32 ppm. -/
def ppm32 (x : Rat) : F32 := qF32 (x / 1000)

/-! ### The 0x05xx commands -/

/-- The reference a command names (R278). -/
def tgtRef (r : Req) : Fin 13 := ixN 13 (by decide) r.target.toNat

/-- A reference ID above 12 is refused. -/
def badRef (r : Req) : Bool := decide (12 < r.target.toNat)

/-- STOVE_INFO (R278, R281). -/
def stoveInfoDef : CmdDef :=
  { opcode := 0x0500, minVer := 1
    bad := fun r _ => badForm 0 r || badTarget r
    act := fun _ _ s => (s, stOk, [b2w s.hive.dom.fm 0,
      qF32 (mkRat (s.stove.dco * 1000000) (2 ^ 40)), b2w s.stove.lock 0, outWord s]) }

/-- The comparison base a STKR_REF_CONFIG asks for: configured for REFIN only (R248, R249). -/
def cfgBase (i : Fin 13) (r : Req) (x : Ref) : Bool := if i = 1 then argB r 3 1 else x.base8k

/-- The port source it asks for: IDs 2 to 9 only (R249, R279). -/
def cfgRbclk (i : Fin 13) (r : Req) (x : Ref) : Bool := if 2 ≤ i.val ∧ i.val ≤ 9 then argB r 3 2 else x.rbclk

/-- The n_in it asks for: ignored for IDs 0, 10, 11 and 12 (R279). -/
def cfgNin (i : Fin 13) (r : Req) (x : Ref) : Nat := if 1 ≤ i.val ∧ i.val ≤ 9 then argF r 3 16 16 + 1 else x.nin

/-- The signal of a reference would change (R280). -/
def refMoves (r : Req) (s : State) : Bool :=
  let i := tgtRef r
  let x := s.stove.refs[i]
  cfgBase i r x != x.base8k || cfgRbclk i r x != x.rbclk || cfgNin i r x != x.nin

/-- More than the priority or quality code would change (R280). -/
def refChanges (r : Req) (s : State) : Bool :=
  let i := tgtRef r
  let x := s.stove.refs[i]
  refMoves r s || argB r 3 0 != x.listed || (i != 0 && (arg r 4 != x.tol || arg r 5 != x.slope))

/-- A switch, a relock or a change of fM is under way (R280). -/
def stokerBusy (s : State) : Bool :=
  switching s || s.stove.relock || (match s.hive.dom.change with
    | some x => x.fmChange
    | none => false)

/-- STKR_REF_CONFIG's effect on the reference (R249, R280). -/
def configRef (r : Req) (s : State) (x : Ref) : Ref :=
  let i := tgtRef r
  let keep := !refChanges r s || s.stove.sel == some i
  let x := if keep then x else { x with
    good := 0, bad := 0, qual := false, gates := [], wtr := false, wtrLeft := 0, gateWhole := false }
  let x := if argB r 3 0 && !x.listed then { x with missed := 2, gateWhole := false } else x
  { x with
    listed := argB r 3 0, prio := argF r 3 4 4
    qcode := if i = 10 ∨ i = 11 then x.qcode else argF r 3 8 4
    base8k := cfgBase i r x, rbclk := cfgRbclk i r x, nin := cfgNin i r x
    tol := if i = 0 then x.tol else arg r 4, slope := if i = 0 then x.slope else arg r 5 }

/-- STKR_REF_CONFIG (R249, R257, R259, R278 to R280). A switch it causes starts at the next comparison. -/
def stkrRefConfigDef : CmdDef :=
  { opcode := 0x0501, minVer := 1
    bad := fun r _ => badForm 3 r || badRef r || rsvd (arg r 3) 0xFFFF0FF7 || argF r 3 4 4 == 0 ||
      !f32Rng 1 1000 (arg r 4) || !f32Rng (mkRat 1 100) 10 (arg r 5)
    wrong := fun _ r s =>
      (stokerBusy s && (s.stove.tgt == some (tgtRef r) || s.stove.acq == some (tgtRef r))) ||
      (s.stove.sel == some (tgtRef r) && refMoves r s)
    act := fun _ r s => (selectByList (modRef (tgtRef r) (configRef r s) s), stOk, []) }

/-- STKR_MODE_SET (R257, R258, R264, R265, R278 to R280). -/
def stkrModeSetDef : CmdDef :=
  { opcode := 0x0502, minVer := 2
    bad := fun r _ => badForm 2 r || badTarget r || rsvd (arg r 3) 0x03FF0033 || decide (argF r 3 16 10 < 10) ||
      decide (1000 < argF r 3 16 10) ||
      !(f32Fin (arg r 4) && (f32Q (arg r 4) == 0 || f32Rng (mkRat 1 10) 1 (arg r 4)))
    wrong := fun _ _ s => stokerBusy s
    act := fun _ r s => (modStove (fun x => { x with
      compat := argB r 3 0, revert := argB r 3 1, bw := BitVec.ofNat 2 (argF r 3 4 2), pboThr := argF r 3 16 10
      slew := arg r 4 }) s, stOk, []) }

/-- STKR_SELECT (R256, R257, R259, R278 to R280). -/
def stkrSelectDef : CmdDef :=
  { opcode := 0x0503, minVer := 1
    bad := fun r s => badForm 1 r || badTarget r || rsvd (arg r 3) 0x1F ||
      (!argB r 3 4 && (decide (12 < argF r 3 0 4) || !s.stove.refs[ixN 13 (by decide) (argF r 3 0 4)].listed))
    wrong := fun _ _ s => s.stove.compat || stokerBusy s
    act := fun _ r s =>
      if argB r 3 4 then (modStove (fun x => { x with manual := none }) s, stOk, [])
      else
        let i : Fin 13 := ixN 13 (by decide) (argF r 3 0 4)
        let s := modStove (fun x => { x with manual := some i, dropped := [] }) s
        if s.stove.st = .locked ∧ s.stove.sel ≠ some i ∧ refRanked i s = true then (pendSwitch s, stOk, [])
        else (s, stOk, []) }

/-- STKR_STATUS (R278, R281). -/
def stkrStatusDef : CmdDef :=
  { opcode := 0x0504, minVer := 1
    bad := fun r _ => badForm 0 r || badTarget r
    act := fun _ _ s => (s, stOk, [stkrStat s, qF32 s.stove.err, qF32 s.stove.buildOut] ++ pair64 s.stove.gate ++
      pair64 s.stove.emberGates.1 ++ pair64 s.stove.emberGates.2) }

/-- STKR_REF_STATUS (R278, R281). -/
def stkrRefStatusDef : CmdDef :=
  { opcode := 0x0505, minVer := 2
    bad := fun r _ => badForm 0 r || badRef r
    act := fun _ r s =>
      let x := s.stove.refs[tgtRef r]
      (s, stOk, [refStat (tgtRef r) s, ppm32 ((x.lastOfs : Int) : Rat), ppm32 x.lastSl, x.tol, x.slope]) }

/-- STOVE_OUT_SET (R102, R189, R247, R278, R279, R281). -/
def stoveOutSetDef : CmdDef :=
  { opcode := 0x0506, minVer := 2
    bad := fun r s => badForm 3 r || badTarget r || rsvd (arg r 3) 0x70F || decide (4 < argF r 3 8 3) || badE (arg64 r 4) s
    wrong := fun _ r s => rateBars (useE (arg64 r 4) s) s
    act := fun m r s =>
      let e := useE (arg64 r 4) s
      (stage m r.tag e (.stoveOut (arg r 3)) s, stOk, pair64 e) }

/-- STKR_SW_CONFIG (R272, R274, R275, R278 to R280). -/
def stkrSwConfigDef : CmdDef :=
  { opcode := 0x0507, minVer := 3
    bad := fun r _ => badForm 2 r || badTarget r || rsvd (arg r 3) 0xFFFF00F1 || decide (11 < argF r 3 4 4) ||
      decide (argF r 3 16 16 < 8) || !f32Rng (mkRat 1 100) 100 (arg r 4)
    wrong := fun _ r s => !argB r 3 0 && s.stove.sel == some 12
    act := fun _ r s =>
      let s := modStove (fun x => { x with sw := { x.sw with
        enabled := argB r 3 0, meas := argF r 3 4 4, wdog := argF r 3 16 16, step := arg r 4 } }) s
      (if argB r 3 0 then s else modRef 12 (fun x => { x with qual := false, good := 0 }) s, stOk, []) }

/-- A validity mask of kept offsets in four words, the first in bit 0 of the first word (R281). -/
def maskWords (vs : List (Option Int)) : List Word :=
  (List.range 4).map (fun k => maskOf ((List.range 32).filter (fun i => ((vs.getD (32 * k + i) none)).isSome)))

/-- STKR_EMBER_READ (R278, R279, R281). -/
def stkrEmberReadDef : CmdDef :=
  { opcode := 0x0508, minVer := 3
    bad := fun r _ => badForm 1 r || badTarget r || rsvd (arg r 3) 0x7FFF || argF r 3 8 7 == 0 ||
      decide (112 < argF r 3 8 7) || decide (160 < argF r 3 0 8 + argF r 3 8 7)
    act := fun _ r s =>
      let vs := (List.range (argF r 3 8 7)).map (fun k => s.stove.dcoGates.getD (argF r 3 0 8 + k) none)
      (s, stOk, pair64 (s.stove.gate - 1) ++ maskWords vs ++ vs.map (fun v => ppm32 ((v.getD 0 : Int) : Rat)) ++
        [ppm32 s.stove.ember.1, n2w s.stove.ember.2 0]) }

/-- STOVE_INFO. -/
def execStoveInfo (m : Fin 4) (r : Req) (s : State) : Host.Outcome State Fault Refusal :=
  .next (mbxCommand stoveInfoDef m r s)

/-- STKR_REF_CONFIG. -/
def execStkrRefConfig (m : Fin 4) (r : Req) (s : State) : Host.Outcome State Fault Refusal :=
  .next (mbxCommand stkrRefConfigDef m r s)

/-- STKR_MODE_SET. -/
def execStkrModeSet (m : Fin 4) (r : Req) (s : State) : Host.Outcome State Fault Refusal :=
  .next (mbxCommand stkrModeSetDef m r s)

/-- STKR_SELECT. -/
def execStkrSelect (m : Fin 4) (r : Req) (s : State) : Host.Outcome State Fault Refusal :=
  .next (mbxCommand stkrSelectDef m r s)

/-- STKR_STATUS. -/
def execStkrStatus (m : Fin 4) (r : Req) (s : State) : Host.Outcome State Fault Refusal :=
  .next (mbxCommand stkrStatusDef m r s)

/-- STKR_REF_STATUS. -/
def execStkrRefStatus (m : Fin 4) (r : Req) (s : State) : Host.Outcome State Fault Refusal :=
  .next (mbxCommand stkrRefStatusDef m r s)

/-- STOVE_OUT_SET. -/
def execStoveOutSet (m : Fin 4) (r : Req) (s : State) : Host.Outcome State Fault Refusal :=
  .next (mbxCommand stoveOutSetDef m r s)

/-- STKR_SW_CONFIG. -/
def execStkrSwConfig (m : Fin 4) (r : Req) (s : State) : Host.Outcome State Fault Refusal :=
  .next (mbxCommand stkrSwConfigDef m r s)

/-- STKR_EMBER_READ. -/
def execStkrEmberRead (m : Fin 4) (r : Req) (s : State) : Host.Outcome State Fault Refusal :=
  .next (mbxCommand stkrEmberReadDef m r s)

end Sys2Proof.Machine
end

