-- ==== Sys2Proof/Machine/Hivewire.lean ====
section
/-! DEFINITION. The Hivewire chains: line frames, slots and the quad-rate adapter, control messages, generations,
the discovery walk, node loss, the partner's tunnel, and the 0x07xx commands (R312 to R360). -/

namespace Sys2Proof.Machine

/-! ### Access -/

/-- Change a chain. -/
def modHw (x : Fin 2) (f : Chain → Chain) (s : State) : State := { s with hw := vmod s.hw x f }

/-- A chain runs: its sequencer is released in a state that serves (R25, R356). -/
def hwRuns (x : Fin 2) (s : State) : Bool := s.pow.seqHw[x] && inService s

/-- The event of a chain: EV32 to EV35 for A, EV36 to EV39 for B (R550). -/
def hwEvt (x : Fin 2) (n : Nat) : Nat := n + 4 * x.val

/-- Set an event bit of HW_CHAIN_STAT (R353). -/
def hwFlag (x : Fin 2) (b : Nat) (s : State) : State := modHw x (fun c => { c with ev := c.ev ||| BitVec.ofNat 7 (2 ^ b) }) s

/-- The upstream and downstream channel classes of a chain (R10). -/
def hwClass (x : Fin 2) (up : Bool) : Nat := 3 + 2 * x.val + if up then 0 else 1

/-- The next generation (R340). -/
def nextGen (g : Nat) : Nat := (g + 1) % 16

/-- The latest line voltage the Damper converted (R312, R388). -/
def lineVolts (x : Fin 2) (s : State) : Rat := s.dmpr.line[x].volts.headD 0

/-! ### Check sums -/

/-- One byte of a CRC of `w` bits, most significant bit first. -/
def crcByte (w poly crc : Nat) (b : Byte) : Nat :=
  (List.range 8).foldl (fun c _ =>
    let top := c / 2 ^ (w - 1) % 2
    Nat.xor (c * 2 % 2 ^ w) (if top = 1 then poly else 0)) (Nat.xor crc (b.toNat * 2 ^ (w - 8)))

/-- CRC-8 of a line frame: x^8 + x^2 + x + 1, initial value 0 (R316). -/
def crc8 (bs : List Byte) : Nat := bs.foldl (crcByte 8 0x07) 0

/-- CRC-16 of a control message: x^16 + x^12 + x^5 + 1, initial value 0xFFFF (R334). -/
def crc16 (bs : List Byte) : Nat := bs.foldl (crcByte 16 0x1021) 0xFFFF

/-! ### Requests -/

/-- A request of a chain, with its payload from byte 2 on (R334, R337). -/
def mkXact (c : Chain) (dest : Nat) (op : Nat) (payload : List Byte) (why : XactFor) : Xact :=
  ⟨dest, c.gen, BitVec.ofNat 8 op, payload, 0, 0, why⟩

/-- A byte of a number. -/
def byteOf (n : Nat) : Byte := BitVec.ofNat 8 n

/-- The 16 bytes of a request: opcode, tag, payload with its unused bytes 0, and CRC-16, low byte first (R334, R337). -/
def xactBytes (q : Xact) : List Byte :=
  let m := q.op :: byteOf (16 * q.tag.toNat) :: (q.payload ++ List.replicate (12 - q.payload.length) 0).take 12
  m ++ [byteOf (crc16 m), byteOf (crc16 m / 256)]

/-- NOP, which no node answers (R337). -/
def nopXact (c : Chain) : Xact := mkXact c 0 0x00 [] .genUpdate

/-- NODE_RESET, to a node that resets without a reply (R337). -/
def nodeResetXact (c : Chain) (node : Nat) : Xact := mkXact c node 0x0B [] .genUpdate

/-- POWER_GRANT of a current in mA (R337). -/
def powerGrantXact (c : Chain) (node amps : Nat) : Xact := mkXact c node 0x0C [byteOf (amps / 256), byteOf amps] .genUpdate

/-- Queue a request behind those waiting (R336). -/
def queueXact (x : Fin 2) (q : Xact) (s : State) : State := modHw x (fun c => { c with queue := c.queue ++ [q] }) s

/-- The completion of a walk command: HW_WALK_STOP, HW_NODES, HW_GEN (R345, R360). -/
def walkDone (status : Nat) (m : Nat) (tag : BitVec 16) (c : Chain) (s : State) : State :=
  complete 0x0702 m tag (BitVec.ofNat 8 status) [n2w c.stop 0, n2w c.nodes.length 0, n2w c.gen 0] s

/-- A walk stops with a reason: its status, its event, the power it removes, and its command's completion (R345). A
hop is removed by DOWN_POWER open to the node before it, or by LINEx_PWR_EN low for hop 1. -/
def endWalk (x : Fin 2) (reason : Nat) (s : State) : State :=
  let c := s.hw[x]
  if c.walk = .none then s else
    let k := c.nodes.length + 1
    let drop := [1, 2, 3, 4, 5, 6, 8].contains reason
    let low := reason == 9 || (drop && k == 1)
    let s := modHw x (fun c => { c with
      walk := .none, walkReq := none, walkDesc := [], stop := reason, check := none
      out := match c.out with
        | some o => if o.1.why = .walk then none else some o
        | none => none
      pwr := c.pwr && !low
      st := if c.st = 3 then 3 else if c.pwr && !low then 2 else 0
      retryFrom := if c.nodes.isEmpty then some s.stove.frame else c.retryFrom
      walkCmd := none
      queue := if drop && k != 1 then c.queue ++ [mkXact c (k - 1) 0x05 [0] .walk] else c.queue }) s
    let s := if [2, 6, 7, 9].contains reason then
        hwFlag x 5 (raise (hwEvt x 35) (n2w reason 0 ||| b2w (c.st == 3) 8) s)
      else s
    match c.walkCmd with
    | some (m, tag) => walkDone stOk m tag s.hw[x] s
    | none => s

/-- The transaction behind a request ends with STALE_ROLE or TIMEOUT (R336, R340, R360). -/
def xactEnds (x : Fin 2) (status : Nat) (q : Xact) (s : State) : State :=
  match q.why with
  | .nodeXact m tag _ _ => complete 0x0705 m tag (BitVec.ofNat 8 status) [] s
  | .partner m tag _ _ => complete 0x0708 m tag (BitVec.ofNat 8 status) [] s
  | .slotMap m tag eff =>
    if status = stStale then
      let dead := s.hw[x].maps.filter (fun p => p.mbx = m ∧ p.tag = tag ∧ p.eff = eff)
      let s := unstage (fun c => decide (c.frame = eff) && (match c.chg with
        | .slotMap y up slot _ _ _ => y == x && dead.any (fun p => p.up == up && p.slot == slot)
        | _ => false)) s
      let s := modHw x (fun c => { c with maps := c.maps.filter (fun p => ¬ (p.mbx = m ∧ p.tag = tag ∧ p.eff = eff)) }) s
      complete 0x0704 m tag (BitVec.ofNat 8 status) [] s
    else s
  | .walk =>
    let k := s.hw[x].nodes.length + 1
    if q.op = 0x05 then endWalk x 10 s else endWalk x (if k = 1 then 1 else 2) s
  | _ => s

/-- The generation advances: every transaction that carries another is discarded with STALE_ROLE (R340). -/
def advanceGen (x : Fin 2) (s : State) : State :=
  let c := s.hw[x]
  let g := nextGen c.gen
  let old := (match c.out with
    | some o => [o.1]
    | none => []) ++ c.queue
  let s := modHw x (fun c => { c with gen := g, queue := [], out := none }) s
  old.foldl (fun s q => if q.why = .walk then s else xactEnds x stStale q s) s

/-- GEN_UPDATE is to be broadcast in three consecutive M frames under the old generation (R340). -/
def startGenUpdate (x : Fin 2) (old : Nat) (s : State) : State := modHw x (fun c => { c with genLeft := (3, old) }) s

/-! ### Slots -/

/-- The code of a slot rate (R337). -/
def rateCode : HwRate → Nat
  | .off => 0
  | .quad => 1
  | .m => 2
  | .s => 3

/-- The slot rate of a code. -/
def rateOf : Nat → HwRate
  | 0 => .off
  | 1 => .quad
  | 2 => .m
  | _ => .s

/-- A slot map takes effect (R154, R322, R338): the slot starts anew, and a pair takes slot s + 1 with it. -/
def setSlots {n : Nat} (v : Vector HwSlot n) (slot : Nat) (rate : HwRate) (paired : Bool) (owner : Nat) :
    Vector HwSlot n :=
  let was := (vgetD v slot {}).paired
  let v := vmodN v slot (fun _ =>
    { rate := rate, owner := if rate = .off then 0 else owner, paired := paired && rate != .off })
  if paired && rate != .off then vmodN v (slot + 1) (fun _ => { reserved := true, owner := owner })
  else if was then vmodN v (slot + 1) (fun _ => {})
  else v

/-- SLOT_MAP takes effect at the tick of E (R154, R338, R357). -/
def slotMapNow (x : Fin 2) (up : Bool) (slot : Nat) (rate : HwRate) (paired : Bool) (owner : Nat) (s : State) : State :=
  let c := s.hw[x]
  let old := if up then (vgetD c.up slot {}).rate else (vgetD c.down slot {}).rate
  let s := modHw x (fun c =>
    if up then { c with up := setSlots c.up slot rate paired owner }
    else { c with down := setSlots c.down slot rate paired owner }) s
  if old = rate then s else silenceSlot (hwClass x up) slot s

/-- The upstream slots that `p` names take the rate off, and their columns follow R154. -/
def freeSlots (x : Fin 2) (p : HwSlot → Bool) (s : State) : State :=
  let ks := (List.range 40).filter (fun k => p (vgetD s.hw[x].up k {}))
  ks.foldl (fun s k => silenceSlot (hwClass x true) k (modHw x (fun c => { c with up := vmodN c.up k (fun _ => {}) }) s)) s

/-! ### Loss and power-off -/

/-- The partner role ends on a chain whose partner is gone; its report slot is free again (R351, log entry 13). -/
def dropPartner (x : Fin 2) (s : State) : State :=
  let c := s.hw[x]
  if c.partner = 0 then s else
    modHw x (fun c => { c with
      partner := 0, report := none, ticks := none, tunActive := false, tunOut := none, tunRang := false
      queue := c.queue.filter (fun q => q.why ≠ .tunnel)
      up := vmodN c.up c.partnerSlot (fun _ => {}) }) s

/-- A slot's tail-out from M frame `f`, `g` of whose line frames have passed: h is what the slot carried in the frame before
of its rate, and a quad-rate sample of a line frame that has passed is scaled too (R326, R347). -/
def tailSlot (f g : Nat) (u : HwSlot) : HwSlot :=
  if u.rate = .quad then
    let h := if g = 0 then (u.quad.getD 0 none).getD (vgetD u.last 0 0) else f64To32 (u.conc.getD (g - 1) 0)
    { u with
      tail := some (f, vmodN u.last 0 (fun _ => h))
      quad := u.quad.zipIdx.map (fun e => if e.2 < g then some (f32Mul h (tailFactor (g - 1 - e.2))) else e.1)
      conc := u.conc.zipIdx.map (fun e =>
        if e.2 + 1 < g then f32To64 (f32Mul h (tailFactor (g - 2 - e.2))) else e.1) }
  else { u with tail := some (f, u.last) }

/-- Nodes from number `n` on are declared lost (R339, R346, R347): EV33 or EV37 for each, the count, the tail-outs, and the
next generation. -/
def loseFrom (x : Fin 2) (n : Nat) (s : State) : State :=
  let c := s.hw[x]
  let lost := (List.range c.nodes.length).filter (fun i => n ≤ i + 1)
  if lost.isEmpty then s else
    let s := hwFlag x 3 (lost.foldl (fun s i => raise (hwEvt x 33) (bit i) s) s)
    let f := s.stove.frame
    let s := modHw x (fun c => { c with
      lostCnt := min 255 (c.lostCnt + lost.length)
      nodes := c.nodes.take (n - 1)
      retryFrom := some f
      up := c.up.map (fun u =>
        if n ≤ u.owner ∧ u.rate ≠ .off ∧ u.tail = none then tailSlot f c.gotQ u else u) }) s
    let s := if n ≤ c.partner then dropPartner x s else s
    let s := if c.walk = .none then s else endWalk x 10 s
    let s := advanceGen x s
    if s.hw[x].nodes.isEmpty then s else startGenUpdate x c.gen s

/-- A commanded power-off: LINEx_PWR_EN low, every node removed without an event, and the next generation (R340, R349).
Slots of the removed nodes take the rate off (log entry 14). -/
def hwPowerOff (x : Fin 2) (s : State) : State :=
  let s := endWalk x 10 s
  let s := dropPartner x s
  let s := freeSlots x (fun u => u.owner != 0) s
  let s := modHw x (fun c => { c with
    pwr := false, nodes := [], genLeft := (0, 0), st := if c.st = 3 then 3 else 0, retryFrom := some s.stove.frame }) s
  advanceGen x s

/-- A Damper line trip: LINEx_PWR_EN low, the walk ends with ABORT, every node is lost at once (R349, R378, R379). -/
def lineTripped (x : Fin 2) (latched : Bool) (s : State) : State :=
  let s := endWalk x 10 s
  let s := loseFrom x 1 s
  modHw x (fun c => { c with pwr := false, st := if latched then 3 else 0 }) s

/-- A chain hold resets the line and its status words, and keeps the configuration that no status word shows (R9, R56,
R353, log entry 15). -/
def hwHold (c : Chain) : Chain :=
  { maxVer := c.maxVer, errThr := c.errThr, ibudget := c.ibudget, vgood := c.vgood, ratio := c.ratio
    bootTmo := c.bootTmo, retry := c.retry }

/-! ### The walk -/

/-- The walk begins at hop 1 (R343): the line must first read below 1.0 V, so its power is off. -/
def startWalk (x : Fin 2) (cmd : Option (Nat × BitVec 16)) (n : Nat) (s : State) : State :=
  modHw x (fun c => { c with
    st := 1, walk := .vsnsLow, walkFrom := n, walkCmd := cmd, walkDesc := [], walkReq := none, pwr := false }) s

/-- The walk goes on from the last node, as step 6 of R344. -/
def resumeWalk (x : Fin 2) (cmd : Option (Nat × BitVec 16)) (n : Nat) (s : State) : State :=
  modHw x (fun c => { c with st := 1, walk := .genUpdate, walkFrom := n, walkCmd := cmd, walkDesc := [], walkReq := none }) s

/-- The capacitance of every node on the chain plus 10 µF, in units of 0.1 µF (R344, R381). -/
def chainCap (c : Chain) : Nat :=
  100 + (c.nodes.map (fun n => (n.desc.getD 12 0).toNat * 256 + (n.desc.getD 13 0).toNat)).foldl (· + ·) 0

/-- The node at the end of the chain reports an attached node without power (R317). -/
def lastAttach (c : Chain) : Bool := !c.nodes.isEmpty && c.attach.getLsbD (c.nodes.length - 1)

/-- Steps 6 and 7 of R344, once the broadcasts are over: a check for the next hop, or the end. -/
def walkOn (x : Fin 2) (s : State) : State :=
  let c := s.hw[x]
  if lastAttach c then modHw x (fun c => { c with walk := .checkNext, check := some (chainCap c, false) }) s
  else endWalk x 0 s

/-- The next transaction of the walk. -/
def walkSend (x : Fin 2) (w : WalkSt) (dest op : Nat) (payload : List Byte) (s : State) : State :=
  modHw x (fun c => { c with walk := w, walkReq := some (mkXact c dest op payload .walk) }) s

/-- Step 1 of R344 for a hop powered at M frame `n`. -/
def walkDiscover (x : Fin 2) (n : Nat) (s : State) : State :=
  walkSend x .discover 15 0x01 [] (modHw x (fun c => { c with walkFrom := n, walkDesc := [], walkAttach := !c.nodes.isEmpty }) s)

/-- The highest version a node lists that does not exceed HW_MAX_VER (R342); 0 for none. -/
def nodeVersion (vers : Byte) (maxVer : Nat) : Nat :=
  if vers.getLsbD 2 ∧ 3 ≤ maxVer then 3 else if vers.getLsbD 1 ∧ 2 ≤ maxVer then 2 else if vers.getLsbD 0 then 1 else 0

/-- The current granted to a node in mA (R344): its full current within the budget, else for a v3 node the largest
from its minimum on. -/
def nodeGrant (c : Chain) (desc : List Byte) (ver : Nat) : Option Nat :=
  let w (i : Nat) : Nat := (desc.getD i 0).toNat * 256 + (desc.getD (i + 1) 0).toNat
  let total := (c.nodes.map (·.grant)).foldl (· + ·) 0
  let budget := (f32Q c.ibudget * 1000).floor.toNat
  if total + w 14 ≤ budget then some (w 14)
  else if ver = 3 ∧ total + w 16 ≤ budget then some (budget - total)
  else none

/-- Steps 3 and 4 of R344: the refusals of R345 in their order, else ASSIGN. -/
def walkAssign (x : Fin 2) (s : State) : State :=
  let c := s.hw[x]
  let ver := nodeVersion (c.walkDesc.getD 5 0) c.maxVer
  let k := c.nodes.length + 1
  if 320 < c.trip then endWalk x 3 s
  else if ver = 0 then endWalk x 4 s
  else if s.hive.dom.fm && !(c.walkDesc.getD 7 0).getLsbD 2 then endWalk x 5 s
  else match nodeGrant c c.walkDesc ver with
    | none => endWalk x 6 s
    | some g =>
      if 12 < k then endWalk x 8 s
      else walkSend x .assign 15 0x03 [byteOf k, byteOf (nextGen c.gen), byteOf ver, byteOf (g / 256), byteOf g] s

/-- ASSIGN succeeded: the node is added with its version and grant, EV32 or EV36, the next generation, and GEN_UPDATE
where other nodes are present (R340, R344). -/
def walkAdded (x : Fin 2) (q : Xact) (s : State) : State :=
  let c := s.hw[x]
  let node : HwNode := ⟨c.walkDesc, (q.payload.getD 2 0).toNat,
    (q.payload.getD 3 0).toNat * 256 + (q.payload.getD 4 0).toNat, 0, []⟩
  let s := hwFlag x 2 (raise (hwEvt x 32) (bit c.nodes.length) s)
  let s := advanceGen x s
  let s := if c.nodes.isEmpty then s else startGenUpdate x c.gen s
  modHw x (fun c => { c with
    nodes := c.nodes ++ [node], walk := .genUpdate, walkFrom := s.stove.frame, retryFrom := none }) s

/-- A good reply to a transaction of the walk (R344). -/
def walkReply (x : Fin 2) (q : Xact) (payload : List Byte) (s : State) : State :=
  let c := s.hw[x]
  match c.walk with
  | .discover => walkSend x .desc1 15 0x02 [1] (modHw x (fun c => { c with walkDesc := payload }) s)
  | .desc1 => walkSend x .desc2 15 0x02 [2] (modHw x (fun c => { c with walkDesc := c.walkDesc ++ payload }) s)
  | .desc2 => walkAssign x (modHw x (fun c => { c with walkDesc := c.walkDesc ++ payload }) s)
  | .assign => walkAdded x q s
  | .downPower => walkDiscover x (s.stove.frame + 1) s
  | _ => s

/-! ### Sending -/

/-- The bytes of MBX2's response that the next TUNNEL request carries, and whether it starts the response (R485). -/
def tunnelBytes (x : Fin 2) (s : State) : List Byte :=
  match s.hw[x].tunOut with
  | some k =>
    let len := 12 + fld (rdW s.ram (rspArea 2 + 4)) 0 16
    rdBs s.ram (rspArea 2 + k) (min 11 (len - k))
  | none => []

/-- A TUNNEL request (R337, R352, R485). -/
def tunnelXact (x : Fin 2) (s : State) : Xact :=
  let c := s.hw[x]
  let bs := tunnelBytes x s
  let start := c.tunOut == some 0
  mkXact c c.partner 0x0A (byteOf (bs.length + if start then 64 else 0) :: bs) .tunnel

/-- A SLOT_MAP request can go out in M frame `n`: its delta E − T fits 16 bits. Any other request can (R338, R357). -/
def canSend (n : Nat) (q : Xact) : Bool :=
  match q.why with
  | .slotMap _ _ eff => decide (eff < n + 65536)
  | _ => true

/-- A SLOT_MAP request whose delta would be below 2 does not go out any more (R338). -/
def tooLate (n : Nat) (q : Xact) : Bool :=
  match q.why with
  | .slotMap _ _ eff => decide (eff < n + 2)
  | _ => false

/-- The request as M frame `n` carries it: SLOT_MAP with delta E − T in its bytes 9 and 10 (R337, R338, R357). -/
def stampDelta (n : Nat) (q : Xact) : Xact :=
  match q.why with
  | .slotMap _ _ eff => { q with payload := q.payload.take 7 ++ [byteOf ((eff - n) / 256), byteOf (eff - n)] }
  | _ => q

/-- The next request that may go out in M frame `n`: the walk's and the others in turn (R350). -/
def nextXact (n : Nat) (c : Chain) : Option (Xact × Chain) :=
  match c.walkReq, c.queue.find? (canSend n) with
  | some w, none => some (w, { c with walkReq := none, lastWalk := true })
  | some w, some q =>
    if c.lastWalk then some (q, { c with queue := c.queue.erase q, lastWalk := false })
    else some (w, { c with walkReq := none, lastWalk := true })
  | none, some q => some (q, { c with queue := c.queue.erase q, lastWalk := false })
  | none, none => none

/-- A request goes out in M frame `n`: the next one may follow in `n` + 2, or after a broadcast in `n` + 1 (R336). -/
def launch (n : Nat) (q : Xact) (c : Chain) : Chain :=
  { c with out := some (stampDelta n q, n), msg := some (stampDelta n q, n), nextAt := if q.dest = 0 then addF n 1 else addF n 2 }

/-- A DOWN_POWER request with close (R337, R382). -/
def closes (q : Xact) : Bool := q.op == 0x05 && q.payload == [1]

/-- A request is transmitted in M frame `n`. A DOWN_POWER close uses the line permit, and one that finds none is not
transmitted and ends with TIMEOUT (R336, R382). -/
def transmit (x : Fin 2) (n : Nat) (q : Xact) (s : State) : State :=
  if closes q then
    if s.dmpr.line[x].permit then
      modHw x (launch n q)
        { s with dmpr := { s.dmpr with line := vmod s.dmpr.line x (fun l => { l with permit := false }) } }
    else xactEnds x stTimeout q s
  else modHw x (launch n q) s

/-- Start of a request in M frame `n` where none is outstanding (R336). -/
def hwSend (x : Fin 2) (n : Nat) (s : State) : State :=
  let s := modHw x (fun c => { c with queue := c.queue.filter (fun q => !tooLate n q) }) s
  let c := s.hw[x]
  if c.out.isSome || decide (n < c.nextAt) then s
  else if c.genLeft.1 ≠ 0 then
    let g : Xact := ⟨0, c.genLeft.2, 0x04, [byteOf c.gen], c.tag, 0, .genUpdate⟩
    modHw x (fun c => launch n g { c with genLeft := (c.genLeft.1 - 1, c.genLeft.2) }) s
  else match nextXact n c with
    | none => s
    | some (q, c') =>
      let q := { q with tag := c.tag + 1 }
      transmit x n q (modHw x (fun _ => { c' with tag := c.tag + 1 }) s)

/-! ### Downstream samples -/

/-- A value as a slot sample of `w` bits (R323). -/
def slotSample (w : Nat) (y : F32) : Int := (valCode w y).1.toInt

/-- The M and S samples of the four line frames of M frame `n`: M entry n − 1, and in the M frames of an S start the S
entry of the S frame before (R327). Quad-rate slots stand at 0 until their line frame begins. -/
def lineOut (c : Chain) (n d : Nat) : List (List Int) :=
  (List.range 4).map (fun q => (List.range 16).map (fun k =>
    let u := vgetD c.down k {}
    let w := if u.paired then 32 else 24
    match u.rate with
    | .m => slotSample w (entryVal c.outM (prevF n) (k * 4 + q))
    | .s => if n % d = 0 then slotSample w (entryVal c.outS (prevF (n / d)) (k * 4 + q)) else 0
    | _ => 0))

/-- An outbound F entry that the adapter has read, `i` entries before the newest, in binary64; a non-finite value reads
+0.0 (R328, R329). -/
def fOut (c : Chain) (i k : Nat) : F64 := f32To64 (finOr0 ((c.fHist.getD i []).getD (4 * k) 0))

/-- Half a value in binary64. -/
def half64 (a : F64) : F64 := f64DivN a 2

/-- The quad-rate downstream value of a line frame in slot `k` at multiplier `m`, formed at the F tick after which it is
sent; `odd` is the second line frame of an F frame at ×2. It is computed in binary64 and rounded once (R328, R329). -/
def quadOut (c : Chain) (m : Nat) (odd : Bool) (k : Nat) : F32 :=
  let e (i : Nat) : F64 := fOut c i k
  f64To32 (match m with
    | 4 => e 0
    | 8 => f64Add (f64Add (half64 (half64 (e 3))) (half64 (e 2))) (half64 (half64 (e 1)))
    | _ => if odd then half64 (f64Add (e 1) (e 0)) else e 1)

/-- The quad-rate samples of phase `q` of the M frame (R328). -/
def quadLine (m q : Nat) (c : Chain) : Chain :=
  { c with line := c.line.zipIdx.map (fun r =>
      if r.2 = q then (List.range 16).map (fun k =>
        let u := vgetD c.down k {}
        if u.rate = .quad then slotSample (if u.paired then 32 else 24) (quadOut c m (decide (q % 2 = 1)) k) else r.1.getD k 0)
      else r.1) }

/-- The line frames whose quad-rate samples are decided at F frame `k` of an M frame (R328). -/
def quadPhases (m k : Nat) : List Nat :=
  match m with
  | 4 => [k]
  | 8 => if k % 2 = 0 then [k / 2] else []
  | _ => [2 * k, 2 * k + 1]

/-- The adapter reads the outbound entry of the F frame before `f` (R49, R328). -/
def readF (f : Nat) (c : Chain) : Chain :=
  { c with fHist := ((List.range 64).map (entryVal c.outF (prevF f)) :: c.fHist).take 4 }

/-- F frame `k` of M frame `n` on a chain. -/
def hwTickF (n k : Nat) (x : Fin 2) (s : State) : State :=
  let m := s.hive.dom.m
  if hwRuns x s then
    modHw x (fun c => (quadPhases m k).foldl (fun c q => quadLine m q c) (readF (n * m + k) c)) s
  else s

/-! ### The master's bytes -/

/-- The three bytes of downstream slot `k` in a line frame, most significant first: a paired sample has its bits 7:0 in
the first byte of the second slot (R315, R322, R323). An unused slot carries zeros (log entry 70). -/
def slotDown (c : Chain) (xs : List Int) (k : Nat) : List Byte :=
  let u := vgetD c.down k {}
  let v : Word := BitVec.ofInt 32 (xs.getD k 0)
  if u.paired then [v.extractLsb' 24 8, v.extractLsb' 16 8, v.extractLsb' 8 8]
  else if k % 2 = 1 ∧ (vgetD c.down (k - 1) {}).paired = true then
    let w : Word := BitVec.ofInt 32 (xs.getD (k - 1) 0)
    [w.extractLsb' 0 8, 0, 0]
  else [v.extractLsb' 16 8, v.extractLsb' 8 8, v.extractLsb' 0 8]

/-- The message that M frame `n` carries: the request begun in it, or NOP (R334, R336, log entry 70). -/
def downMessage (c : Chain) (n : Nat) : Xact :=
  match c.msg with
  | some (q, t) => if t = n then q else nopXact c
  | none => nopXact c

/-- The characters that the master sends in the line frame of phase `q` of M frame `n`: control down and the downstream
slots (R315, R316, R327, R334, R335). -/
def lineDown (c : Chain) (n d q : Nat) : List (Bool × Byte) :=
  let m := downMessage c n
  let head : List Byte := [byteOf (64 * q + if n % d = 0 then 32 else 0), byteOf (16 * m.gen + m.dest)] ++
    ((xactBytes m).drop (4 * q)).take 4
  let slots := (List.range 16).flatMap (slotDown c (c.line.getD q []))
  (true, 0xBC) :: (head ++ [byteOf (crc8 (head ++ slots))] ++ slots).map (fun b => (false, b))

/-- The characters of that line frame: as they were sent, or as they stand (R315). -/
def lineChars (c : Chain) (n d q : Nat) : List (Bool × Byte) :=
  match c.chars[q]? with
  | some l => l
  | none => lineDown c n d q

/-- The symbols of that line frame, ten to a character (R314). -/
def lineSymbols (c : Chain) (n d q : Nat) : List (BitVec 10) :=
  (lineEncodes c.disp ((List.range (q + 1)).flatMap (lineChars c n d))).1.drop (56 * q)

/-- The line frames of M frame `n` below phase `upTo` have been sent (R314, R315). -/
def sentLines (n d upTo : Nat) (c : Chain) : Chain :=
  (List.range 4).foldl (fun c q =>
    if c.chars.length ≤ q ∧ q < upTo then { c with chars := c.chars ++ [lineDown c n d q] } else c) c

/-- A HW_WALK command in its M frame `n`: mode, mailbox and tag (R356, R360). -/
def hwCommandOne (x : Fin 2) (n : Nat) (s : State) (p : Nat × Nat × BitVec 16) : State :=
  let c := s.hw[x]
  match p.1 with
  | 0 => if c.st = 0 then startWalk x (some p.2) n s else walkDone stState p.2.1 p.2.2 c s
  | 1 => if c.st = 2 ∧ c.nodes ≠ [] then resumeWalk x (some p.2) n s else walkDone stState p.2.1 p.2.2 c s
  | _ =>
    let s := hwPowerOff x s
    walkDone stOk p.2.1 p.2.2 s.hw[x] s

/-- The HW_WALK commands waiting for their M frame, in the order of their sampling (R356, R360). -/
def hwCommand (x : Fin 2) (n : Nat) (s : State) : State :=
  s.hw[x].cmdPend.foldl (hwCommandOne x n) (modHw x (fun c => { c with cmdPend := [] }) s)

/-- The chain whose partner MBX2 serves: A before B (R484). -/
def tunnelServes (x : Fin 2) (s : State) : Bool := x == 0 || s.hw[0].partner == 0

/-- The partner that MBX2 serves and that asks for transfers gets a TUNNEL request of Ianik's where none is on its way
(R352, R484). -/
def hwTunnel (x : Fin 2) (s : State) : State :=
  let c := s.hw[x]
  let busy := c.queue.any (fun q => q.why == .tunnel) || (match c.out with
    | some o => o.1.why == .tunnel
    | none => false)
  if !s.pow.ianikRst && tunnelServes x s && c.tunActive && c.partner != 0 && !busy then queueXact x (tunnelXact x s) s else s

/-- The M frame tick `n` of a chain: its commands, the walk, the next request, and the samples to send (R327, R336,
R343, R352). -/
def hwTick (n : Nat) (x : Fin 2) (s : State) : State :=
  if hwRuns x s then
    let s := modHw x (fun c => { c with
      out := match c.out with
        | some o => if o.1.dest = 0 then none else some o
        | none => none }) s
    let s := hwCommand x n s
    let c := s.hw[x]
    let s := if c.walk = .genUpdate ∧ c.genLeft.1 = 0 ∧ c.out = none ∧ c.walkFrom ≤ n then walkOn x s else s
    let s := hwSend x n (hwTunnel x s)
    hwTickF n 0 x (modHw x (fun c => { c with line := lineOut c n s.hive.dom.d }) s)
  else s

/-! ### Upstream samples -/

/-- The characters of a line frame's upstream region from byte 88 on, in error where none. The running disparity starts
with the preamble's first comma (R315, R331). -/
def upChars (f : LineFrame) : List (Option (Bool × Byte)) :=
  lineDecodes (f.codes.headD 0 == lineEncode true true 0xBC) f.codes

/-- Byte 92 + i of an upstream region, with its control flag. -/
def upChar (cs : List (Option (Bool × Byte))) (i : Nat) : Bool × Byte := (cs.getD (4 + i) none).getD (false, 0)

/-- The bytes 92 to 219 of an upstream region. -/
def upBytes (cs : List (Option (Bool × Byte))) : List Byte := (List.range 128).map (fun i => (upChar cs i).2)

/-- An upstream region is in error: a code or disparity error, or a failed CRC-8 (R317, R331). -/
def upBad (cs : List (Option (Bool × Byte))) : Bool :=
  cs.any (·.isNone) || crc8 ((upBytes cs).take 127) != (upChar cs 127).2.toNat

/-- Slot `k` arrives as three K28.0 (R318, R324). -/
def upIdle (cs : List (Option (Bool × Byte))) (k : Nat) : Bool :=
  (List.range 3).all (fun i => upChar cs (3 * k + i) == (true, 0x1C))

/-- The sample of upstream slot `k` in a line frame: missing where one of its slots arrives as three K28.0 (R322 to
R324). -/
def upSample (cs : List (Option (Bool × Byte))) (u : HwSlot) (k : Nat) : Option F32 :=
  let b (i : Nat) : Nat := (upChar cs i).2.toNat
  if upIdle cs k || (u.paired && upIdle cs (k + 1)) then none
  else
    let hi := b (3 * k) * 65536 + b (3 * k + 1) * 256 + b (3 * k + 2)
    if u.paired then some (codeVal 32 (BitVec.ofNat 32 (hi * 256 + b (3 * k + 3))))
    else some (codeVal 24 (BitVec.ofNat 32 hi))

/-- The value of channel phase `q` in a frame of the slot's rate, `k` frames into a tail-out (R325, R347). -/
def upValue (u : HwSlot) (q k : Nat) : F32 :=
  match u.tail with
  | some t => f32Mul (vgetD t.2 q 0) (tailFactor k)
  | none => (vgetD u.cur q none).getD (vgetD u.last q 0)

/-- How far frame `n` of a rate stands into a tail-out from M frame `dd`, with `per` M frames to a frame (R347). -/
def tailK (u : HwSlot) (n per : Nat) : Nat :=
  match u.tail with
  | some t => n - (t.1 + per - 1) / per
  | none => 0

/-- Complete an inbound entry of the slots of one rate (R325): index slot × 4 + phase. -/
def inEntry (c : Chain) (r : HwRate) (n per : Nat) : List F32 :=
  (List.range 160).map (fun i =>
    let u := vgetD c.up (i / 4) {}
    if u.rate = r then upValue u (i % 4) (tailK u n per) else 0)

/-- The slots of one rate keep the values of the entry just completed. -/
def keepLast (c : Chain) (r : HwRate) (n per : Nat) : Chain :=
  { c with up := c.up.map (fun u =>
      if u.rate = r then { u with
        last := Vector.ofFn (fun q : Fin 4 => upValue u q (tailK u n per)), cur := .replicate 4 none }
      else u) }

/-- The concealed value c[L − 1], formed in binary64 when line frame L is received (R326, R329). -/
def conceal (u : HwSlot) : F64 :=
  match u.quad.getD 1 none with
  | some x => f32To64 x
  | none =>
    match u.quad.getD 0 none with
    | some x1 => half64 (f64Add (u.conc.headD 0) (f32To64 x1))
    | none => u.conc.headD 0

/-- Line frame `l` on the quad-rate slots: a new sample, and the concealed value of the line frame before (R326, R347). -/
def quadIn (l : Nat) (xs : Nat → Option F32) (c : Chain) : Chain :=
  { c with up := vmap c.up (fun k u =>
      if u.rate = .quad then
        let x := match u.tail with
          | some t => some (f32Mul (vgetD t.2 0 0) (tailFactor (l - 4 * t.1)))
          | none => xs k
        let u := { u with quad := (x :: u.quad).take 3 }
        let v := conceal u
        { u with conc := (v :: u.conc).take 3, last := vmodN u.last 0 (fun _ => f64To32 v) }
      else u) }

/-- An F entry of the quad-rate slots. -/
def putF (f : Nat) (val : HwSlot → F32) (c : Chain) : Chain :=
  let vs := (List.range 160).map (fun i =>
    let u := vgetD c.up (i / 4) {}
    if u.rate = .quad ∧ i % 4 = 0 then val u else 0)
  { c with inF := vmodN c.inF (f % 4) (fun _ => some ⟨true, BitVec.ofNat 16 f, vs⟩) }

/-- The F entries that line frame `l` completes at multiplier `m` (R326). -/
def quadEntries (m l : Nat) (c : Chain) : Chain :=
  let now (u : HwSlot) : F32 := f64To32 (u.conc.headD 0)
  match m with
  | 4 => putF l now c
  | 8 => putF (2 * l + 2) now (putF (2 * l + 1) now c)
  | _ =>
    if l % 2 = 0 then
      putF (l / 2) (fun u => f64To32 (half64 (f64Add (u.conc.getD 1 0) (u.conc.getD 0 0)))) c
    else c

/-- Some mapped slot is missing its sample (R324, R331, R353). -/
def anyMissing (n d : Nat) (xs : Nat → Option F32) (c : Chain) : Bool :=
  (List.range 40).any (fun k =>
    let u := vgetD c.up k {}
    u.rate != .off && u.tail.isNone && (u.rate != .s || n % d == 0) && (xs k).isNone)

/-- The samples of a line frame of phase `q` in M frame `n` (R325, R326). -/
def lineSamples (n m d q : Nat) (xs : Nat → Option F32) (c : Chain) : Chain :=
  let c := { c with up := vmap c.up (fun k u =>
    if u.rate = .m ∨ (u.rate = .s ∧ n % d = 0) then { u with cur := vmodN u.cur q (fun _ => xs k) } else u) }
  let c := quadEntries m (4 * n + q) (quadIn (4 * n + q) xs c)
  if q = 3 then
    let c := keepLast { c with inM := vmodN c.inM (n % 4) (fun _ =>
      some ⟨true, BitVec.ofNat 16 n, inEntry c .m n 1⟩) } .m n 1
    if n % d = 0 then
      keepLast { c with inS := vmodN c.inS (n / d % 4) (fun _ =>
        some ⟨true, BitVec.ofNat 16 (n / d), inEntry c .s (n / d) d⟩) } .s (n / d) d
    else c
  else c

/-- Some upstream slot has a rate (R320). -/
def slotsUsed (c : Chain) : Bool := c.up.toList.any (·.rate != .off)

/-- Line frames of M frame `n` below phase `upTo` that brought no upstream region: their samples are missing, a tail-out
goes on, and the partner's report is missing (R324, R325, R347, R351, R353). -/
def fillLines (n m d upTo : Nat) (c : Chain) : Chain :=
  (List.range 4).foldl (fun c q =>
    if c.gotQ ≤ q ∧ q < upTo ∧ (slotsUsed c = true ∨ c.partner ≠ 0) then
      let ev := if anyMissing n d (fun _ => none) c then c.ev ||| 1 else c.ev
      { lineSamples n m d q (fun _ => none) c with gotQ := q + 1, ev := ev, report := none }
    else c) c

/-- The line frames that have passed at the F tick `k` of an M frame. -/
def linesPast (m k : Nat) : Nat :=
  match m with
  | 4 => k
  | 8 => k / 2
  | _ => 2 * k

/-- The line frames of M frame `n` below phase `upTo` have passed, downstream and upstream. -/
def linesOver (n m d upTo : Nat) (c : Chain) : Chain := fillLines n m d upTo (sentLines n d upTo c)

/-- Before F tick `k` of M frame `n`, the line frames that have passed are done on every chain that runs. -/
def hwLines (n k : Nat) (s : State) : State :=
  let m := s.hive.dom.m
  { s with hw := vmap s.hw (fun x c => if hwRuns x s then linesOver n m s.hive.dom.d (linesPast m k) c else c) }

/-- The heartbeat of q = 0: each node's count of M frames without one (R346). -/
def heartbeat (bad : Bool) (w : BitVec 16) (c : Chain) : Chain :=
  { c with
    heard := true
    nodes := c.nodes.zipIdx.map (fun e =>
      { e.1 with missed := if !bad && w.getLsbD e.2 then 0 else min 16 (e.1.missed + 1) }) }

/-- The end of M frame `n` on a chain: its line frames are done, a frame that brought no heartbeats counts as their absence,
and the transmitter's disparity stands as they leave it (R314, R346). -/
def lineFrameEnd (n m d : Nat) (c : Chain) : Chain :=
  let c := linesOver n m d 4 c
  let c := if c.heard then c else heartbeat true 0 c
  { c with gotQ := 0, heard := false, disp := (lineEncodes c.disp c.chars.flatten).2, chars := [] }

/-- Before the tick that ends M frame `n`, its line frames are done. -/
def hwLinesEnd (n : Nat) (s : State) : State :=
  { s with hw := vmap s.hw (fun x c => if hwRuns x s then lineFrameEnd n s.hive.dom.m s.hive.dom.d c else c) }

/-- A line frame in error counts, and at the threshold raises EV34 or EV38 once a window of 4,800 M frames (R331,
R332). -/
def lineError (x : Fin 2) (s : State) : State :=
  let c := s.hw[x]
  let w := s.stove.frame / 4800
  let n := if c.errWin.2 = w then c.errWin.1 + 1 else 1
  let was := c.errRaised && c.errWin.2 == w
  let hit := !was && decide (c.errThr ≤ n)
  let s := modHw x (fun c => { c with errCnt := stick 65535 c.errCnt, errWin := (n, w), errRaised := was || hit }) s
  if hit then hwFlag x 4 (raise (hwEvt x 34) (n2w n 0) s) else s

/-- The service field of a line frame (R317). -/
def service (cs : List (Option (Bool × Byte))) : BitVec 16 := (upChar cs 125).2 ++ (upChar cs 126).2

/-- Attention of q = 1: Ianik asks for an event read for each node that holds an unread event; the partner asks for
transfers (R317, R337, R352). -/
def attention (x : Fin 2) (w : BitVec 16) (s : State) : State :=
  let c := s.hw[x]
  let s := modHw x (fun c => { c with attention := w.extractLsb' 0 12 }) s
  if s.pow.ianikRst then s else (List.range c.nodes.length).foldl (fun s i =>
    if !w.getLsbD i then s
    else if c.partner = i + 1 then modHw x (fun c => { c with tunActive := true }) s
    else if c.queue.any (fun q => q.why == .event (i + 1)) || (match c.out with
        | some o => o.1.why == .event (i + 1)
        | none => false) then s
    else queueXact x (mkXact s.hw[x] (i + 1) 0x09 [] (.event (i + 1))) s) s

/-- Attach bits of q = 2: with HW_AUTO, the walk resumes when the last node's bit becomes set (R317, R348). -/
def attachBits (x : Fin 2) (w : BitVec 16) (s : State) : State :=
  let was := lastAttach s.hw[x]
  let s := modHw x (fun c => { c with attach := w.extractLsb' 0 12 }) s
  let c := s.hw[x]
  if !was && lastAttach c && c.auto && c.walk == .none && c.st == 2 then resumeWalk x none s.stove.frame s else s

/-- A report's time, unwrapped from the one before: the nearest time that differs from it by whole line frames of 2,560
symbols (R314, R351, log entry 13). -/
def unwrapTick (was : Option Int) (t : Nat) : Int :=
  match was with
  | none => t
  | some w =>
    let d := ((t : Int) - w) % 40960
    w + if 20480 ≤ d then d - 40960 else d

/-- The partner's report in its slot (R351): its quality code is the reference's (R249). A missing report gives no
tick. -/
def partnerReport (x : Fin 2) (bad : Bool) (cs : List (Option (Bool × Byte))) (s : State) : State :=
  let c := s.hw[x]
  if c.partner = 0 then s
  else
    let k := c.partnerSlot
    if bad || upIdle cs k then modHw x (fun c => { c with report := none }) s
    else
      let r : BitVec 24 := (upChar cs (3 * k)).2 ++ (upChar cs (3 * k + 1)).2 ++ (upChar cs (3 * k + 2)).2
      modRef (ixN 13 (by decide) (10 + x.val)) (fun y => { y with qcode := fld r 20 4 })
        (modHw x (fun c => { c with report := some r, ticks := some (unwrapTick c.ticks (fld r 0 16)) }) s)

/-- LINE_FRAME_RECEIVED: the upstream region of a line frame of the current M frame (R317, R319, R325, R326, R331, R332,
R346, R351). -/
def execLineFrameReceived (x : Fin 2) (f : LineFrame) (s : State) : Host.Outcome State Fault Refusal :=
  if !hwRuns x s then .next s else
    let n := s.stove.frame
    let q := f.q.val
    let cs := upChars f
    let bad := upBad cs
    let s := if bad then lineError x s else s
    let s := modHw x (fun c => { fillLines n s.hive.dom.m s.hive.dom.d q c with gotQ := q + 1 }) s
    let xs (k : Nat) : Option F32 := if bad then none else upSample cs (vgetD s.hw[x].up k {}) k
    let s := if anyMissing n s.hive.dom.d xs s.hw[x] then hwFlag x 0 s else s
    let s := modHw x (fun c => lineSamples n s.hive.dom.m s.hive.dom.d q xs { c with trip := f.trip }) s
    let s := partnerReport x bad cs s
    let frag : Option (List Byte) := if bad then none else some (((upBytes cs).drop 120).take 5)
    let s := modHw x (fun c =>
      { c with frags := vmodN (if q = 0 then Vector.replicate 4 none else c.frags) q (fun _ => frag) }) s
    let w := service cs
    match q with
    | 0 => .next (modHw x (heartbeat bad w) s)
    | 1 => .next (if bad then s else attention x w s)
    | 2 => .next (if bad then s else attachBits x w s)
    | _ => .next s

/-! ### Replies -/

/-- The reply message in the fragments received, with its source and generation (R317, R334, R335). -/
def replyMsg (c : Chain) : Option (Nat × Nat × List Byte) :=
  match c.frags[0], c.frags[1], c.frags[2], c.frags[3] with
  | some a, some b, some d, some e =>
    let h := a.headD 0
    let bs := a.drop 1 ++ b.drop 1 ++ d.drop 1 ++ e.drop 1
    let crc := (bs.getD 14 0).toNat + (bs.getD 15 0).toNat * 256
    if b.headD 0 = h ∧ d.headD 0 = h ∧ e.headD 0 = h ∧ crc16 (bs.take 14) = crc then
      some (fld h 4 4, fld h 0 4, bs)
    else none
  | _, _, _, _ => none

/-- A good reply to request `q` (R335): generation, source, opcode and tag match; a TUNNEL reply with bits 5:4 of its
byte 2 set counts as lost (R485). -/
def replyFits (c : Chain) (q : Xact) (src gen : Nat) (bs : List Byte) : Bool :=
  decide (src = q.dest) && decide (gen = c.gen) && (bs.getD 0 0 == q.op ||| 0x80) &&
  decide (fld (bs.getD 1 0) 4 4 = q.tag.toNat) && !(q.op == 0x0A && (bs.getD 2 0) &&& 0x30 != 0)

/-- A TUNNEL reply's command bytes go into MBX2's command area (R485). -/
def tunnelWrite (x : Fin 2) : List Byte → State → State
  | [], s => s
  | b :: bs, s =>
    let k := s.hw[x].tunIn.1
    if k < 512 then
      let a := cmdArea 2 + k
      let w := rdW s.ram (a / 4 * 4)
      let sh := 8 * (a % 4)
      let w := (w &&& ~~~ ((0xFF : Word) <<< sh)) ||| ((b.setWidth 32) <<< sh)
      tunnelWrite x bs (ramWrite (a / 4 * 4) w (modHw x (fun c => { c with tunIn := (k + 1, c.tunIn.2) }) s))
    else tunnelWrite x bs (modHw x (fun c => { c with tunIn := (k, true) }) s)

/-- The partner rings MBX2 with Ianik's count (R485). -/
def partnerRing (x : Fin 2) (s : State) : State :=
  let k := s.ianik.ringCount
  let ovr := s.hw[x].tunIn.2
  let s := { s with ianik := { s.ianik with ringCount := k + 1 } }
  if mbxFree 2 s then
    modHw x (fun c => { c with tunRang := true })
      (ringMbx 2 k { s with ianik := { s.ianik with tunOverflow := ovr } })
  else ringLost 2 s

/-- A TUNNEL reply (R352, R485): `sent` response bytes have gone down with its request. -/
def tunnelReply (x : Fin 2) (sent : Nat) (bs : List Byte) (s : State) : State :=
  let b2 := bs.headD 0
  let n := min 11 (fld b2 0 4)
  let s := modHw x (fun c => { c with
    tunIn := if b2.getLsbD 6 then (0, false) else c.tunIn
    tunOut := match c.tunOut with
      | some k => if 12 + fld (rdW s.ram (rspArea 2 + 4)) 0 16 ≤ k + sent then none else some (k + sent)
      | none => none }) s
  let s := tunnelWrite x ((bs.drop 1).take n) s
  let s := if b2.getLsbD 7 then partnerRing x s else s
  modHw x (fun c => { c with tunActive := decide (n ≠ 0) || c.tunOut.isSome }) s

/-- Ianik takes a TUNNEL reply of node `k`: Ianik runs, and the node is the partner that MBX2 serves (R484, R485). -/
def tunnelTakes (x : Fin 2) (k : Nat) (s : State) : Bool :=
  !s.pow.ianikRst && tunnelServes x s && s.hw[x].partner == k && k != 0

/-- MBX2's response has been posted: the partner that rang gets it (R485). -/
def tunnelPosted (s : State) : State :=
  { s with hw := s.hw.map (fun c =>
      if c.tunRang then { c with tunRang := false, tunOut := some 0, tunActive := true } else c) }

/-- The effect of a good reply, by what the request was for (R337, R344, R357, R358, R360). -/
def replyActs (x : Fin 2) (q : Xact) (bs : List Byte) (s : State) : State :=
  let st := fld (bs.getD 1 0) 0 4
  let payload := (bs.drop 2).take 12
  match q.why with
  | .walk => if st = 0 then walkReply x q payload s else xactEnds x stTimeout q s
  | .slotMap m tag eff =>
    if st = 0 then modHw x (fun c => { c with maps := c.maps.map (fun p =>
      if p.mbx = m ∧ p.tag = tag ∧ p.eff = eff then { p with acked := true } else p) }) s
    else s
  | .nodeXact m tag write n =>
    complete 0x0705 m tag (BitVec.ofNat 8 stOk) (n2w st 0 :: if write then [] else bytesToWords (payload.take n)) s
  | .partner m tag node slot =>
    if st = 0 then
      let s := dropPartner x s
      let s := if node = 0 then s else modHw x (fun c => { c with
        partner := node, partnerSlot := slot, tunIn := (0, false)
        up := vmodN c.up slot (fun _ => { reserved := true }) }) s
      let s := if x = 0 ∧ node ≠ 0 then
          modHw 1 (fun c => { c with queue := c.queue.filter (fun q => q.why ≠ .tunnel) }) s
        else s
      complete 0x0708 m tag (BitVec.ofNat 8 stOk) [] s
    else complete 0x0708 m tag (BitVec.ofNat 8 stTimeout) [] s
  | .tunnel =>
    if tunnelTakes x q.dest s then tunnelReply x (fld (q.payload.headD 0) 0 4) payload s else s
  | .event k => modHw x (fun c => { c with nodes := c.nodes.zipIdx.map (fun e =>
      if e.2 + 1 = k then { e.1 with event := payload } else e.1) }) s
  | .genUpdate => s

/-- CONTROL_REPLY_RECEIVED: the reply in the line frames of this M frame, if it is whole and matches the outstanding
request; any other is ignored (R334 to R336). -/
def execControlReplyReceived (x : Fin 2) (s : State) : Host.Outcome State Fault Refusal :=
  if !hwRuns x s then .next s else
    let c := s.hw[x]
    match c.out, replyMsg c with
    | some (q, t), some (src, gen, bs) =>
      let s := modHw x (fun c => { c with frags := .replicate 4 none }) s
      if t < s.stove.frame ∧ replyFits c q src gen bs = true then
        .next (replyActs x q bs (modHw x (fun c => { c with out := none }) s))
      else .next s
    | _, _ => .next s

/-- CONTROL_REQUEST_RETRY: in T + 2 a request without a good reply is sent again, at most 3 times, then ends with
TIMEOUT (R336), as a DOWN_POWER close does that finds no permit (R382). -/
def execControlRequestRetry (x : Fin 2) (s : State) : Host.Outcome State Fault Refusal :=
  match s.hw[x].out with
  | some (q, t) =>
    if hwRuns x s && decide (t + 2 ≤ s.stove.frame) && decide (q.dest ≠ 0) && q.op != 0x01 then
      if tooLate s.stove.frame q then .next (modHw x (fun c => { c with out := none }) s)
      else if q.tries < 3 ∧ (closes q = false ∨ s.dmpr.line[x].permit = true) then
        .next (hwFlag x 1 (transmit x s.stove.frame { q with tries := q.tries + 1 }
          (modHw x (fun c => { c with retryCnt := stick 255 c.retryCnt }) s)))
      else .next (xactEnds x stTimeout q (modHw x (fun c => { c with out := none }) s))
    else .next s
  | none => .next s

/-! ### Walk events -/

/-- DISCOVER_REPEAT: DISCOVER goes out again 2 M frames after the last (R344), in turn with other requests (R350). -/
def execDiscoverRepeat (x : Fin 2) (s : State) : Host.Outcome State Fault Refusal :=
  let c := s.hw[x]
  if hwRuns x s && c.walk == .discover && c.walkReq.isNone then
    match c.out with
    | some (q, t) =>
      if q.op = 0x01 ∧ t + 2 ≤ s.stove.frame then
        .next (hwSend x s.stove.frame (walkSend x .discover 15 0x01 [] (modHw x (fun c => { c with out := none }) s)))
      else .next s
    | none => .next s
  else .next s

/-- DISCOVER_TIMEOUT: HW_BOOT_TMO M frames without an answer (R344, R345). -/
def execDiscoverTimeout (x : Fin 2) (s : State) : Host.Outcome State Fault Refusal :=
  let c := s.hw[x]
  if hwRuns x s && c.walk == .discover && decide (c.walkFrom + c.bootTmo ≤ s.stove.frame) then
    .next (endWalk x (if c.walkAttach then 2 else 1) s)
  else .next s

/-- WALK_VSNS_LOW: the line reads below 1.0 V, and the check for hop 1 is requested: 10 µF at VSENSE_BAT (R343). -/
def execWalkVsnsLow (x : Fin 2) (s : State) : Host.Outcome State Fault Refusal :=
  let c := s.hw[x]
  if hwRuns x s && c.walk == .vsnsLow && decide (c.walkFrom ≤ s.stove.frame) && decide (lineVolts x s < 1) then
    .next (modHw x (fun c => { c with walk := .check1, check := some (100, true) }) s)
  else .next s

/-- WALK_VGOOD_REACHED: the line has reached HW_VGOOD, and DISCOVER begins in this M frame (R343, R344). -/
def execWalkVgoodReached (x : Fin 2) (s : State) : Host.Outcome State Fault Refusal :=
  let c := s.hw[x]
  if hwRuns x s && c.walk == .vgood && decide (f32Q c.vgood ≤ lineVolts x s) then
    .next (hwSend x s.stove.frame (walkDiscover x s.stove.frame s))
  else .next s

/-- WALK_VGOOD_TIMEOUT: the line still above 1.0 V after 4,800 M frames, or below HW_VGOOD after 480 (R343). -/
def execWalkVgoodTimeout (x : Fin 2) (s : State) : Host.Outcome State Fault Refusal :=
  let c := s.hw[x]
  let t := s.stove.frame - c.walkFrom
  if hwRuns x s && ((c.walk == .vsnsLow && decide (4800 ≤ t)) || (c.walk == .vgood && decide (480 < t))) then
    .next (endWalk x 9 s)
  else .next s

/-- The Damper answers a stored-energy check: the permit powers the hop, or the walk stops (R343 to R345, R381, R382). -/
def checkAnswer (x : Fin 2) (granted : Bool) (s : State) : State :=
  let c := s.hw[x]
  let s := modHw x (fun c => { c with check := none }) s
  match c.walk with
  | .check1 =>
    if granted then
      modHw x (fun c => { c with pwr := true, walk := .vgood, walkFrom := s.stove.frame })
        { s with dmpr := { s.dmpr with line := vmod s.dmpr.line x (fun l => { l with permit := false }) } }
    else endWalk x 7 s
  | .checkNext =>
    if granted then hwSend x s.stove.frame (walkSend x .downPower c.nodes.length 0x05 [1] s) else endWalk x 7 s
  | _ => s

/-- NODE_LOSS: 16 consecutive M frames without a heartbeat of a node (R346). -/
def execNodeLoss (x : Fin 2) (node : Nat) (s : State) : Host.Outcome State Fault Refusal :=
  let c := s.hw[x]
  if hwRuns x s && decide (1 ≤ node) && (match c.nodes[node - 1]? with
      | some y => decide (16 ≤ y.missed)
      | none => false) then
    .next (loseFrom x node s)
  else .next s

/-- SLOT_TAIL_OUT_END: at D + 16 × d the slots of lost nodes take the rate off (R347). -/
def execSlotTailOutEnd (x : Fin 2) (s : State) : Host.Outcome State Fault Refusal :=
  let d := s.hive.dom.d
  let n := s.stove.frame
  .next (freeSlots x (fun u => match u.tail with
    | some t => decide (t.1 + 16 * d ≤ n)
    | none => false) s)

/-- AUTO_WALK_RETRY: with HW_AUTO, HW_RETRY M frames after a loss or a failed walk the walk resumes, or starts where no
node is present (R348). -/
def execAutoWalkRetry (x : Fin 2) (s : State) : Host.Outcome State Fault Refusal :=
  let c := s.hw[x]
  if hwRuns x s && c.auto && c.walk == .none && c.st != 3 then
    match c.retryFrom with
    | some f =>
      if f + c.retry ≤ s.stove.frame then
        if c.nodes.isEmpty then .next (startWalk x none s.stove.frame s)
        else if lastAttach c then
          .next (resumeWalk x none s.stove.frame (modHw x (fun c => { c with retryFrom := none }) s))
        else .next s
      else .next s
    | none => .next s
  else .next s

/-! ### Slot maps at the strobe -/

/-- A slot map that is withdrawn: its staged change, its request and its command go, with TIMEOUT (R42, R357). -/
def dropMap (x : Fin 2) (s : State) (p : PendMap) : State :=
  let mine (q : Xact) : Bool := q.why == .slotMap p.mbx p.tag p.eff
  let s := unstage (fun c => decide (c.frame = p.eff) && (match c.chg with
    | .slotMap y up slot _ _ _ => y == x && up == p.up && slot == p.slot
    | _ => false)) s
  let s := modHw x (fun c => { c with
    maps := c.maps.filter (fun k => k ≠ p)
    queue := c.queue.filter (fun q => !mine q)
    out := match c.out with
      | some o => if mine o.1 then none else some o
      | none => none }) s
  complete 0x0704 p.mbx p.tag (BitVec.ofNat 8 stTimeout) [] s

/-- At the doorbell strobe of M frame E − 1 a slot map completes, or is withdrawn with TIMEOUT where the node has not
answered (R42, R357). -/
def hwStrobe (n : Nat) (x : Fin 2) (s : State) : State :=
  let due := s.hw[x].maps.filter (fun p => decide (p.eff ≤ n + 1))
  let s := modHw x (fun c => { c with maps := c.maps.filter (fun p => decide (n + 1 < p.eff)) }) s
  due.foldl (fun s p =>
    if p.acked then complete 0x0704 p.mbx p.tag (BitVec.ofNat 8 stOk) [] s else dropMap x s p) s

/-! ### The 0x07xx commands -/

/-- The chain a command names. -/
def tgtChain (r : Req) : Fin 2 := if r.target.getLsbD 0 then 1 else 0

/-- The node address and generation it names. -/
def tgtNode (r : Req) : Nat := fld r.target 8 4
def tgtGenNo (r : Req) : Nat := fld r.target 12 4

/-- The node of an address. -/
def nodeAt (x : Fin 2) (k : Nat) (s : State) : Option HwNode := if k = 0 then none else s.hw[x].nodes[k - 1]?

/-- A target word that is refused: a reserved bit, or a node that is not present (R355). -/
def badNode (r : Req) (s : State) : Bool :=
  rsvd r.target 0xFF01 || (tgtNode r != 0 && (nodeAt (tgtChain r) (tgtNode r) s).isNone)

/-- The walk has powered the hop of this address and has not assigned its node yet (R344, R350). -/
def discovering (x : Fin 2) (k : Nat) (s : State) : Bool :=
  let c := s.hw[x]
  k == c.nodes.length + 1 && (c.walk == .discover || c.walk == .desc1 || c.walk == .desc2 || c.walk == .assign)

/-- As `badNode`, for a transaction: one to the node under discovery is refused with STATE instead (R350, R355). -/
def badXactNode (r : Req) (s : State) : Bool :=
  badNode r s && !(!rsvd r.target 0xFF01 && discovering (tgtChain r) (tgtNode r) s)

/-- A node named with another generation than HW_GEN (R355). -/
def staleNode (r : Req) (s : State) : Bool := tgtNode r != 0 && tgtGenNo r != s.hw[tgtChain r].gen

/-- The chain's sequencer is held (R356). -/
def hwHeld (r : Req) (s : State) : Bool := !s.pow.seqHw[tgtChain r]

/-- HW_CHAIN_STAT (R353). -/
def chainStat (c : Chain) : Word :=
  n2w c.st 28 ||| n2w c.gen 24 ||| n2w c.nodes.length 20 ||| n2w c.stop 16 ||| n2w c.partner 12 |||
  b2w c.auto 11 ||| b2w c.pwr 10 ||| n2w c.ev.toNat 0

/-- HW_CHAIN_CNT (R354). -/
def chainCnt (c : Chain) : Word := n2w c.errCnt 16 ||| n2w c.retryCnt 8 ||| n2w c.lostCnt 0

/-- The byte of HW_INFO for a slot: rate code in bits 1:0, owner in bits 7:4 (R360, log entry 16). -/
def slotByte (u : HwSlot) : Byte := byteOf (rateCode u.rate + 16 * u.owner)

/-- HW_INFO (R356, R360). -/
def hwInfoDef : CmdDef :=
  { opcode := 0x0700, minVer := 1
    bad := fun r s => badForm 0 r || badNode r s
    stale := staleNode
    act := fun _ r s =>
      let c := s.hw[tgtChain r]
      (s, stOk, chainStat c :: bytesToWords (c.up.toList.map slotByte ++ c.down.toList.map slotByte)) }

/-- HW_CHAIN_CONFIG (R355, R356, R358). -/
def hwChainConfigDef : CmdDef :=
  { opcode := 0x0701, minVer := 1
    bad := fun r s => badForm 6 r || badNode r s || rsvd (arg r 3) 0xFFFF0007 || argF r 3 0 2 == 0 || argF r 3 16 16 == 0 ||
      !f32Rng (mkRat 1 10) 2 (arg r 4) || !f32Rng 6 16 (arg r 5) || !f32Rng 1 20 (arg r 6) || rsvd (arg r 7) 0xFFFF ||
      decide ((arg r 7).toNat < 48) || decide (48000 < (arg r 7).toNat) || decide ((arg r 8).toNat < 4800) ||
      decide (4800000 < (arg r 8).toNat)
    stale := staleNode
    wrong := fun _ r s => hwHeld r s || s.hw[tgtChain r].st != 0
    act := fun _ r s => (modHw (tgtChain r) (fun c => { c with
      maxVer := argF r 3 0 2, auto := argB r 3 2, errThr := argF r 3 16 16, ibudget := arg r 4, vgood := arg r 5
      ratio := arg r 6, bootTmo := (arg r 7).toNat, retry := (arg r 8).toNat
      retryFrom := if argB r 3 2 then some s.stove.frame else c.retryFrom }) s, stOk, []) }

/-- A mode of HW_WALK that the chain's state refuses (R356, R358, R360). -/
def walkBars (mode : Nat) (c : Chain) : Bool :=
  (mode == 0 && c.st != 0) || (mode == 1 && (c.st != 2 || c.nodes.isEmpty))

/-- HW_WALK (R345, R350, R355, R356, R358). -/
def hwWalkDef : CmdDef :=
  { opcode := 0x0702, minVer := 1, deferred := true
    bad := fun r s => badForm 1 r || badNode r s || rsvd (arg r 3) 3 || argF r 3 0 2 == 3
    stale := staleNode
    wrong := fun _ r s => hwHeld r s || walkBars (argF r 3 0 2) s.hw[tgtChain r]
    act := fun m r s =>
      (defer 0x0702 m r.tag none (modHw (tgtChain r) (fun c => { c with cmdPend := c.cmdPend ++ [(argF r 3 0 2, m, r.tag)] }) s),
        stDeferred, []) }

/-- HW_NODE_INFO (R355, R356, R360). -/
def hwNodeInfoDef : CmdDef :=
  { opcode := 0x0703, minVer := 1
    bad := fun r s => badForm 0 r || badNode r s || tgtNode r == 0
    stale := staleNode
    act := fun _ r s => match nodeAt (tgtChain r) (tgtNode r) s with
      | some y => (s, stOk, padTo 9 (bytesToWords y.desc) ++ [n2w y.ver 0, n2w y.grant 0])
      | none => (s, stOk, []) }

/-- The effect frame of HW_SLOT_MAP: at least S + 4, and for an S-rate slot a multiple of d (R357). -/
def mapE (r : Req) (s : State) : Nat :=
  let e := arg64 r 5
  if e = 0 then (if argF r 3 8 2 = 3 then upTo s.hive.dom.d (s.stove.frame + 4) else addF s.stove.frame 4) else e

/-- A slot map: the direction, the slot, its rate, whether it is paired, and its owner. -/
abbrev MapArgs : Type := Bool × Nat × HwRate × Bool × Nat

/-- The slots of a chain with a map applied (R338). -/
def withMap (c : Chain) (p : MapArgs) : Chain :=
  let (up, slot, rate, paired, owner) := p
  if up then { c with up := setSlots c.up slot rate paired owner }
  else { c with down := setSlots c.down slot rate paired owner }

/-- The accepted maps of chain `x` whose frame `p` admits, in the order of their frames (R338, R357). -/
def mapsWhere (x : Fin 2) (p : Nat → Bool) (s : State) : List MapArgs :=
  (byFrame (·.frame) (s.ianik.staged.filter (fun k => p k.frame))).filterMap (fun k => match k.chg with
    | .slotMap y up slot rate paired owner => if y == x then some (up, slot, rate, paired, owner) else none
    | _ => none)

/-- The slots of chain `x` as the accepted maps leave them in frame `e` (R338, R357). -/
def slotsAt (x : Fin 2) (e : Nat) (s : State) : Chain := (mapsWhere x (fun f => decide (f ≤ e)) s).foldl withMap s.hw[x]

/-- The upstream slots that a node wants; no bound for one that is not present (R341). -/
def wantedOf (x : Fin 2) (owner : Nat) (s : State) : Nat :=
  match nodeAt x owner s with
  | some y => (y.desc.getD 8 0).toNat
  | none => 40

/-- A map that the slots `c` leave no room for: a reserved slot, slot s + 1 in use, another owner's slot, or more slots than
the owner wants (R322, R359). -/
def mapTaken (x : Fin 2) (s : State) (c : Chain) (p : MapArgs) : Bool :=
  let (up, slot, rate, pair, owner) := p
  let u := if up then vgetD c.up slot {} else vgetD c.down slot {}
  let u1 := if up then vgetD c.up (slot + 1) {} else vgetD c.down (slot + 1) {}
  let others := ((List.range 40).filter (fun k =>
    k ≠ slot ∧ ¬ ((pair = true ∨ u.paired = true) ∧ k = slot + 1) ∧ (vgetD c.up k {}).owner = owner ∧ owner ≠ 0)).length
  u.reserved || (pair && !u.paired && (u1.rate != .off || u1.reserved)) ||
  (up && ((u.owner != 0 && u.owner != owner) ||
    (rate != .off && decide (wantedOf x owner s < others + if pair then 2 else 1))))

/-- A map for frame `e` that the maps accepted up to `e` leave no room for, or that leaves none for one accepted for a later
frame (R357, R359). -/
def mapClash (x : Fin 2) (e : Nat) (p : MapArgs) (s : State) : Bool :=
  let c := slotsAt x e s
  mapTaken x s c p ||
    ((mapsWhere x (fun f => decide (e < f)) s).foldl (fun b q => (b.1 || mapTaken x s b.2 q, withMap b.2 q))
      (false, withMap c p)).1

/-- A PHASE_REPORT request on its way reserves an upstream slot (R351). -/
def partnerAsks (c : Chain) (slot : Nat) : Bool :=
  (c.queue ++ (match c.out with
    | some o => [o.1]
    | none => [])).any (fun q => match q.why with
      | .partner _ _ k sl => k != 0 && sl == slot
      | _ => false)

/-- HW_SLOT_MAP refused with BAD_ARG: slots count as the accepted maps leave them in its frame and in later ones (R322,
R355, R357 to R359). -/
def slotMapBad (r : Req) (s : State) : Bool :=
  let c := s.hw[tgtChain r]
  let down := argB r 3 0
  let slot := argF r 3 1 6
  let rate := argF r 3 8 2
  let pair := argB r 3 10
  let owner := argF r 3 12 4
  let size := if down then 16 else 40
  let node := nodeAt (tgtChain r) owner s
  let found := discovering (tgtChain r) owner s
  badForm 4 r || badXactNode r s || rsvd (arg r 3) 0xF77F || decide (size ≤ slot) ||
  (!down && (partnerAsks c slot || (pair && partnerAsks c (slot + 1)))) || (down && owner != 0) ||
  (arg64 r 5 != 0 && (decide (arg64 r 5 < s.stove.frame + 4) || (rate == 3 && arg64 r 5 % (ratesFor (arg64 r 5) s).2 != 0))) ||
  (pair && (slot % 2 == 1 || (if down then decide (c.maxVer < 2) else match node with
    | some y => decide (y.ver < 2)
    | none => !found))) ||
  (!down && (owner == 0 || (node.isNone && !found))) ||
  mapClash (tgtChain r) (mapE r s) (!down, slot, rateOf rate, pair, owner) s

/-- HW_SLOT_MAP (R338, R355 to R360). -/
def hwSlotMapDef : CmdDef :=
  { opcode := 0x0704, minVer := 2, deferred := true
    bad := slotMapBad
    stale := staleNode
    wrong := fun _ r s => hwHeld r s || rateBars (mapE r s) s || discovering (tgtChain r) (tgtNode r) s ||
      (!argB r 3 0 && discovering (tgtChain r) (argF r 3 12 4) s)
    act := fun m r s =>
      let x := tgtChain r
      let e := mapE r s
      let down := argB r 3 0
      let slot := argF r 3 1 6
      let rate := argF r 3 8 2
      let owner := argF r 3 12 4
      let s := stage m r.tag e (.slotMap x (!down) slot (rateOf rate) (argB r 3 10) owner) s
      let s := modHw x (fun c => { c with maps := c.maps ++ [⟨e, m, r.tag, !down, slot, down⟩] }) s
      let ch (i : Nat) : Byte := byteOf (argF r 4 (8 * i) 8)
      let s := if down then s else
        queueXact x (mkXact s.hw[x] owner 0x06
          [0, byteOf slot, byteOf (rate + if argB r 3 10 then 4 else 0), ch 0, ch 1, ch 2, ch 3] (.slotMap m r.tag e)) s
      (defer 0x0704 m r.tag none s, stDeferred, pair64 e) }

/-- HW_NODE_XACT (R355, R356, R358, R360). -/
def hwNodeXactDef : CmdDef :=
  { opcode := 0x0705, minVer := 2, deferred := true
    bad := fun r s => badForm (if argB r 3 0 then 1 + (argF r 3 8 4 + 3) / 4 else 1) r || badXactNode r s || tgtNode r == 0 ||
      rsvd (arg r 3) 0xFFFF0F01 || argF r 3 8 4 == 0 || decide (8 < argF r 3 8 4)
    stale := staleNode
    wrong := fun _ r s => hwHeld r s || discovering (tgtChain r) (tgtNode r) s
    act := fun m r s =>
      let x := tgtChain r
      let n := argF r 3 8 4
      let wr := argB r 3 0
      let data := if wr then (wordsToBytes [arg r 4, arg r 5]).take n else []
      let q := mkXact s.hw[x] (tgtNode r) (if wr then 0x08 else 0x07)
        ([byteOf (argF r 3 24 8), byteOf (argF r 3 16 8), byteOf n] ++ data) (.nodeXact m r.tag wr n)
      (defer 0x0705 m r.tag none (queueXact x q s), stDeferred, []) }

/-- HW_STATUS (R356, R360). -/
def hwStatusDef : CmdDef :=
  { opcode := 0x0706, minVer := 1
    bad := fun r s => badForm 0 r || badNode r s
    stale := staleNode
    act := fun _ r s =>
      let c := s.hw[tgtChain r]
      (s, stOk, [chainStat c, chainCnt c, n2w c.trip 0, qF32 (lineVolts (tgtChain r) s)]) }

/-- HW_CLEAR (R353 to R356, R358). -/
def hwClearDef : CmdDef :=
  { opcode := 0x0707, minVer := 2
    bad := fun r s => badForm 1 r || badNode r s || rsvd (arg r 3) 0x8000007F
    stale := staleNode
    wrong := fun _ r s => hwHeld r s
    act := fun _ r s => (modHw (tgtChain r) (fun c =>
      let c := { c with ev := c.ev &&& ~~~ ((arg r 3).extractLsb' 0 7) }
      if argB r 3 31 then { c with errCnt := 0, retryCnt := 0, lostCnt := 0 } else c) s, stOk, []) }

/-- HW_PARTNER_SET refused with BAD_ARG (R355, R358, R359). -/
def partnerBad (r : Req) (s : State) : Bool :=
  let c := s.hw[tgtChain r]
  let k := argF r 3 0 4
  let slot := argF r 3 8 6
  let used (c : Chain) : Bool :=
    let u := vgetD c.up slot {}
    u.rate != .off || u.reserved || u.owner != 0
  let asked (p : MapArgs) : Bool := p.1 && p.2.2.1 != .off && (p.2.1 == slot || (p.2.2.2.1 && p.2.1 + 1 == slot))
  badForm 1 r || badXactNode r s || rsvd (arg r 3) 0x3F0F ||
  (k != 0 && (match nodeAt (tgtChain r) k s with
    | some y => decide (y.ver < 3) || !(y.desc.getD 7 0).getLsbD 0
    | none => !discovering (tgtChain r) k s)) ||
  (k != 0 && (decide (40 ≤ slot) || used c || (mapsWhere (tgtChain r) (fun _ => true) s).any asked ||
    partnerAsks c slot))

/-- HW_PARTNER_SET (R351, R355, R356, R358 to R360): PHASE_REPORT goes to the new partner, or ends the old one's
role. -/
def hwPartnerSetDef : CmdDef :=
  { opcode := 0x0708, minVer := 3, deferred := true
    bad := partnerBad
    stale := staleNode
    wrong := fun _ r s => hwHeld r s || discovering (tgtChain r) (tgtNode r) s ||
      discovering (tgtChain r) (argF r 3 0 4) s
    act := fun m r s =>
      let x := tgtChain r
      let k := argF r 3 0 4
      let slot := argF r 3 8 6
      let c := s.hw[x]
      let s := defer 0x0708 m r.tag none s
      if k = 0 ∧ c.partner = 0 then (complete 0x0708 m r.tag (BitVec.ofNat 8 stOk) [] s, stDeferred, [])
      else
        let q := mkXact c (if k = 0 then c.partner else k) 0x0D [byteOf (if k = 0 then 0 else 1), byteOf slot]
          (.partner m r.tag k slot)
        (queueXact x q s, stDeferred, []) }

/-- HW_INFO. -/
def execHwInfo (m : Fin 4) (r : Req) (s : State) : Host.Outcome State Fault Refusal :=
  .next (mbxCommand hwInfoDef m r s)

/-- HW_CHAIN_CONFIG. -/
def execHwChainConfig (m : Fin 4) (r : Req) (s : State) : Host.Outcome State Fault Refusal :=
  .next (mbxCommand hwChainConfigDef m r s)

/-- HW_WALK. -/
def execHwWalk (m : Fin 4) (r : Req) (s : State) : Host.Outcome State Fault Refusal :=
  .next (mbxCommand hwWalkDef m r s)

/-- HW_NODE_INFO. -/
def execHwNodeInfo (m : Fin 4) (r : Req) (s : State) : Host.Outcome State Fault Refusal :=
  .next (mbxCommand hwNodeInfoDef m r s)

/-- HW_SLOT_MAP. -/
def execHwSlotMap (m : Fin 4) (r : Req) (s : State) : Host.Outcome State Fault Refusal :=
  .next (mbxCommand hwSlotMapDef m r s)

/-- HW_NODE_XACT. -/
def execHwNodeXact (m : Fin 4) (r : Req) (s : State) : Host.Outcome State Fault Refusal :=
  .next (mbxCommand hwNodeXactDef m r s)

/-- HW_STATUS. -/
def execHwStatus (m : Fin 4) (r : Req) (s : State) : Host.Outcome State Fault Refusal :=
  .next (mbxCommand hwStatusDef m r s)

/-- HW_CLEAR. -/
def execHwClear (m : Fin 4) (r : Req) (s : State) : Host.Outcome State Fault Refusal :=
  .next (mbxCommand hwClearDef m r s)

/-- HW_PARTNER_SET. -/
def execHwPartnerSet (m : Fin 4) (r : Req) (s : State) : Host.Outcome State Fault Refusal :=
  .next (mbxCommand hwPartnerSetDef m r s)

end Sys2Proof.Machine
end

