-- ==== Sys2Proof/Machine/Damper.lean ====
section
/-! DEFINITION. The Damper: sense inputs, supply states, energy and DC rules, ceilings and kills, line protection, the
stored-energy check, and the 0x08xx commands (R361 to R388). -/

namespace Sys2Proof.Machine

/-! ### Access -/

/-- Change the Damper. -/
def modDmpr (f : Damper → Damper) (s : State) : State := { s with dmpr := f s.dmpr }

/-- Change the Damper's state of a channel. -/
def modDch (c : Fin 32) (f : DmprCh → DmprCh) (s : State) : State := modDmpr (fun d => { d with ch := vmod d.ch c f }) s

/-- Change the Damper's state of a line. -/
def modLine (x : Fin 2) (f : DmprLine → DmprLine) (s : State) : State :=
  modDmpr (fun d => { d with line := vmod d.line x f }) s

/-- Set an event bit of DMPR_STAT (R384). -/
def dmprFlag (b : Nat) (s : State) : State := modDmpr (fun d => { d with ev := d.ev ||| BitVec.ofNat 7 (2 ^ b) }) s

/-! ### Supply -/

/-- The voltage of a single-ended input: code 0xFFF is 1.8 V at the ball (R361, R362, log entry 17). -/
def senseVolts (code : BitVec 12) (ratio : F32) : Rat := mkRat (18 * (code.toNat : Int)) (10 * 4095) * f32Q ratio

/-- The current of a line across its shunt: code 0xFFF is 150 mV (R361, R362, log entry 17). -/
def senseAmps (code : BitVec 12) (shunt : F32) : Rat := mkRat (150 * (code.toNat : Int)) 4095 / f32Q shunt

/-- The battery mean: the mean of the latest 16 samples (R366). -/
def batMean (d : Damper) : Rat :=
  if d.bat.isEmpty then 0 else (d.bat.foldl (· + ·) 0) / ((d.bat.length : Nat) : Rat)

/-- The points of the crank curve (R368). -/
def curvePoints (g : DmprCfg) : List (Rat × Rat) :=
  match g.curve with
  | some ps => ps.map (fun p => (f32Q p.1, f32Q p.2))
  | none => (List.range 8).map (fun (k : Nat) => (9 - mkRat (3 * (k : Int)) 7, 1 - mkRat (k : Int) 14))

/-- A curve of descending points at `v`: the first value above it, the last below it, linear between (R368). -/
def curveAt (v : Rat) : List (Rat × Rat) → Rat
  | [] => 1
  | [p] => p.2
  | p :: q :: r =>
    if p.1 ≤ v then p.2
    else if q.1 ≤ v then q.2 + (p.2 - q.2) * (v - q.1) / (p.1 - q.1)
    else curveAt v (q :: r)

/-- The state that the battery mean and the thresholds give (R366, R368, log entry 18). -/
def supplyOf (d : Damper) : Supply :=
  let m := batMean d
  if m < f32Q d.cfg.cut then .cut else if m < f32Q d.cfg.warn then .warn else .normal

/-- The supply ceiling of a state (R368). -/
def ceilOf (d : Damper) : Supply → Rat
  | .normal => 1
  | .warn => curveAt (batMean d) (curvePoints d.cfg)
  | .cut => 0
  | .loadDump => 1

/-- The supply ceiling (R368). -/
def supplyCeil (d : Damper) : Rat := ceilOf d (if d.supply = .loadDump then supplyOf d else d.supply)

/-- The kill line of a channel is asserted (R369, R373, R376). -/
def killLine (d : Damper) (y : DmprCh) : Bool := d.supply == .loadDump || y.dcKill

/-- The ceilings go out, from the 16th battery sample on (R365, R376). -/
def dmprSend (d : Damper) : Damper :=
  if d.batN < 16 then d else
    let sup := supplyCeil d
    { d with
      issued := true
      ch := d.ch.map (fun y => { y with sent := if y.eZero then 0 else qF32 sup }) }

/-- The value crossings to a released Bellows: each channel's ceiling and kill status, once the Damper has issued its
first (R45, R226, R227, R365, R376). -/
def dmprCopies (s : State) : State :=
  if s.dmpr.issued && s.pow.seqBel then
    { s with bel := { s.bel with ch := vmap s.bel.ch (fun c y =>
        { y with ceilIn := s.dmpr.ch[c].sent, killIn := killLine s.dmpr s.dmpr.ch[c] }) } }
  else s

/-- The Damper changes, and sends what changed (R376). -/
def dmprMove (f : Damper → Damper) (s : State) : State := dmprCopies (modDmpr (fun d => dmprSend (f d)) s)

/-- DRV_EN of a group is forced low (R369, R374, R377). -/
def drvForced (g : Fin 8) (s : State) : Bool :=
  (s.dmpr.supply == .loadDump && s.dmpr.cfg.ldDrvOff) || (chansOf g).any (fun c => s.dmpr.ch[c].drvOff)

/-- The level of the ball DRV_ENg (R377). -/
def drvEnBall (g : Fin 8) (s : State) : Bool := s.bel.grp[g].drvEn && !drvForced g s

/-- A count of samples in a row. -/
def inRow (c : Bool) (n : Nat) : Nat := if c then min 64 (n + 1) else 0

/-- The supply state after a battery sample, with the event it enters by: 43, 44, 45 or 0 for none (R366). -/
def supplyMove (d : Damper) : Supply × Nat :=
  let g := d.cfg
  let m := batMean d
  if d.supply ≠ .loadDump ∧ 4 ≤ d.runs.2.2.1 then (.loadDump, 45)
  else match d.supply with
    | .normal =>
      if 8 ≤ d.runs.1 then (.cut, 44)
      else if 16 ≤ d.batN ∧ m < f32Q g.warn then (.warn, 43) else (.normal, 0)
    | .warn =>
      if 8 ≤ d.runs.1 then (.cut, 44)
      else if f32Q g.warn + f32Q g.hyst ≤ m then (.normal, 0) else (.warn, 0)
    | .cut => if 64 ≤ d.runs.2.1 then (.warn, 0) else (.cut, 0)
    | .loadDump => if 64 ≤ d.runs.2.2.2 then (supplyOf d, 0) else (.loadDump, 0)

/-- One VSENSE_BAT sample (R365, R366, R369). -/
def batSample (v : Rat) (s : State) : State :=
  let d := s.dmpr
  let g := d.cfg
  let d := { d with
    bat := (v :: d.bat).take 16, batN := min 16 (d.batN + 1)
    runs := (inRow (decide (v < f32Q g.cut)) d.runs.1, inRow (decide (f32Q g.resume ≤ v)) d.runs.2.1,
      inRow (decide (f32Q g.dump < v)) d.runs.2.2.1, inRow (decide (v ≤ f32Q g.release)) d.runs.2.2.2) }
  let (st, ev) := supplyMove d
  let d := { d with supply := st, killCnt := if ev = 45 then stick 255 d.killCnt else d.killCnt }
  let s := dmprMove (fun _ => d) s
  match ev with
  | 43 => dmprFlag 1 (raise 43 (qF32 (batMean d)) s)
  | 44 => dmprFlag 2 (raise 44 (qF32 (batMean d)) s)
  | 45 => dmprFlag 3 (raise 45 (qF32 (batMean d)) s)
  | _ => s

/-! ### Lines -/

/-- A trip: LINEx_PWR_EN low, EV47, the permit cancelled, the chain told; with the tries used up the line latches off
(R378, R379). -/
def lineTrip (x : Fin 2) (s : State) : State :=
  let l := s.dmpr.line[x]
  let latch := decide (l.retryN ≤ l.tries)
  let s := dmprFlag (4 + x.val) (raise 47 (bit x.val) s)
  let s := modLine x (fun l => { l with
    st := if latch then 2 else 1, tries := min 3 (l.tries + 1), permit := false, ovr := 0 }) s
  let s := lineTripped x latch s
  if latch then hwFlag x 5 (raise (hwEvt x 35) (n2w 10 0 ||| bit 8) s) else s

/-- One LINEx_ISNS sample; the line trips at the second in a row above DMPR_ITRIP (R378). -/
def lineAmps (x : Fin 2) (code : BitVec 12) (s : State) : State :=
  let l := s.dmpr.line[x]
  let i := senseAmps code l.shunt
  let n := if f32Q l.itrip < i then l.ovr + 1 else 0
  let s := modLine x (fun l => { l with amps := i, ovr := min 2 n }) s
  if 2 ≤ n then lineTrip x s else s

/-- One LINEx_VSNS sample (R362, R380). -/
def lineSense (x : Fin 2) (code : BitVec 12) (s : State) : State :=
  let v := senseVolts code s.hw[x].ratio
  let s := modLine x (fun l => { l with volts := (v :: l.volts).take 8 }) s
  if s.hw[x].pwr ∧ (v < 9 ∨ 16 < v) then hwFlag x 6 s else s

/-- The configuration waiting for the round boundary is taken whole; a changed window or limit clears a channel's windows
(R375, "The 0x08xx commands"). -/
def takeConfig (d : Damper) : Damper :=
  { d with
    cfg := d.cfgNext.getD d.cfg, cfgNext := none
    line := vmap d.line (fun x l => match d.lineNext[x] with
      | some n => { l with itrip := n.itrip, shunt := n.shunt, elim := n.elim, retryT := n.retryT, retryN := n.retryN }
      | none => l)
    lineNext := .replicate 2 none
    ch := vmap d.ch (fun c y => match d.chNext[c] with
      | some n =>
        let new := decide (n.wE ≠ y.wE ∨ n.wD ≠ y.wD ∨ n.eLim ≠ y.eLim ∨ n.dcThr ≠ y.dcThr)
        { y with
          eLim := n.eLim, wE := n.wE, wD := n.wD, dcThr := n.dcThr, cool := n.cool, ruleE := n.ruleE, ruleD := n.ruleD
          eWin := if new then [] else y.eWin, dWin := if new then [] else y.dWin }
      | none => y)
    chNext := .replicate 32 none }

/-- The ADC input of a slot, for the count of R363: BAT, RAIL, A VSNS, B VSNS, A ISNS, B ISNS. -/
def slotInput : Nat → Nat
  | 0 => 0
  | 2 => 1
  | 4 => 2
  | 6 => 3
  | 1 => 4
  | 5 => 4
  | _ => 5

/-- An input at 0 or full scale in 16 samples in a row sets DMPR_EV_SENSE (R363). -/
def senseStuck (k : Nat) (code : BitVec 12) (s : State) : State :=
  let n := if code = 0 ∨ code = 0xFFF then min 16 (vgetD s.dmpr.stuck k 0 + 1) else 0
  let s := modDmpr (fun d => { d with stuck := vmodN d.stuck k (fun _ => n) }) s
  if 16 ≤ n then dmprFlag 6 s else s

/-- DAMPER_ADC_SAMPLE: one conversion slot of the round; the rail value crosses to a Bellows that is not held (R45, R57,
R215, R361 to R366, R378, R380). -/
def execDamperAdcSample (slot : Fin 8) (code : BitVec 12) (s : State) : Host.Outcome State Fault Refusal :=
  if !damperRuns s then .next s else
    let s := if slot = 0 then modDmpr takeConfig s else s
    let s := senseStuck (slotInput slot.val) code s
    match slot.val with
    | 0 => .next (batSample (senseVolts code s.dmpr.cfg.batRatio) s)
    | 2 =>
      let v := senseVolts code s.dmpr.cfg.railRatio
      let s := modDmpr (fun d => { d with rail := v }) s
      .next (if s.pow.seqBel then { s with bel := { s.bel with vrail := qF32 v } } else s)
    | 4 => .next (lineSense 0 code s)
    | 6 => .next (lineSense 1 code s)
    | 1 => .next (lineAmps 0 code s)
    | 5 => .next (lineAmps 0 code s)
    | _ => .next (lineAmps 1 code s)

/-! ### Energy and DC -/

/-- A sum in binary64, in order. -/
def sum64 (xs : List F64) : F64 := xs.foldl f64Add 0

/-- The energy of a block: the sum of v × i × Δt in binary64, a negative sum as 0 (R371). -/
def blockEnergy (fm : Bool) (y : DmprCh) (ps : List (Nat × Nat)) : F64 :=
  let dt := qF64 (mkRat 1 (16 * fmHz fm))
  let e := sum64 (ps.map (fun p => f64Mul (f64Mulz (fbValue p.1 y.vfb) (fbValue p.2 y.ifb)) dt))
  if f64Q e < 0 then 0 else e

/-- The mean of v over a block's pairs (R371). -/
def blockMean (y : DmprCh) (ps : List (Nat × Nat)) : F64 :=
  if ps.isEmpty then 0 else f64DivN (sum64 (ps.map (fun p => f32To64 (fbValue p.1 y.vfb)))) ps.length

/-- The mean of a channel's DC window; blocks not yet taken count as 0 (R373). -/
def dcMean (y : DmprCh) : F64 := f64DivN (sum64 y.dWin) y.wD

/-- The pairs of a block: every 16 FB_CLK cycles the decimators give one from the bits of both streams (R370, log
entry 11). -/
def blockPairs : List (BitVec 16 × BitVec 16) → DmprCh → List (Nat × Nat) × DmprCh
  | [], y => ([], y)
  | b :: bs, y =>
    let y := { y with vBits := bitsIn y.vBits b.1, iBits := bitsIn y.iBits b.2 }
    let (ps, z) := blockPairs bs y
    ((sincOut y.vBits, sincOut y.iBits) :: ps, z)

/-- What the end of a block does to a channel: the windows, an excess, a DC detection and its escalation (R371 to
R375). While the energy ceiling is 0 no further excess is judged (DEDUCED, log entry 72). -/
def blockEnd (fm : Bool) (ps : List (Nat × Nat)) (y : DmprCh) : DmprCh × Bool × Bool :=
  let m := blockMean y ps
  let y := { y with eWin := (blockEnergy fm y ps :: y.eWin).take y.wE, dWin := (m :: y.dWin).take y.wD }
  let excess := y.ruleE && !y.eZero && decide (f32Q y.eLim < f64Q (sum64 y.eWin))
  let dc := y.ruleD && decide (f32Q y.dcThr < absQ (f64Q (dcMean y)))
  let off := y.dcLast && decide (f32Q y.dcThr < absQ (f64Q m))
  let y := { y with drvOff := y.drvOff || off, dcLast := dc }
  let y := if excess then { y with eZero := true, evEnergy := true } else y
  let y := if excess then
      let st (k : Nat) : Nat := if y.st = 3 then 3 else k
      (if y.tries = 3 then { y with st := st 2 }
       else { y with st := st 1, tries := if dc then y.tries else y.tries + 1, cooling := true })
    else y
  let y := if dc then { y with st := 3, dcKill := true, evDc := true } else y
  (y, excess, dc)

/-- A block of a channel from the bits of its feedback streams (R370 to R375). -/
def channelBlock (fm : Bool) (bs : List (BitVec 16 × BitVec 16)) (y : DmprCh) : DmprCh × Bool × Bool :=
  let (ps, y) := blockPairs bs y
  blockEnd fm ps y

/-- SVC_DC_OFFSET takes the block means of a whole block: the first end after its acceptance ends a block already under
way. A named channel that is not switching in QUIET is aborted (R562, R566). -/
def routineBlock (bits : List (List (BitVec 16 × BitVec 16))) (s : State) : State :=
  match s.ianik.routine with
  | some r =>
    if r.op != 0x0C03 || r.eff == 2 then s else
      let means := (List.finRange 32).map (fun c => blockMean s.dmpr.ch[c] (blockPairs (bits.getD c.val []) s.dmpr.ch[c]).1)
      let off := (maskChans r.target).filterMap (fun c => if (belAt s c).st == .quiet then none else some c.val)
      let bs := if r.eff = 0 then r.blocks else r.blocks ++ [means]
      let last := r.abort || decide ((r.words.getD 0 0).toNat ≤ bs.length)
      let r := { r with blocks := bs, eff := if last then 2 else 1, counts := off.foldl (fun l c => insertN c l) r.counts }
      { s with ianik := { s.ianik with routine := some r } }
  | none => s

/-- ENERGY_BLOCK_END: the end of a block on every channel, with the FBV and FBI bits of its 768 periods of 16 FB_CLK
cycles; with FB_CLK low no block advances (R202, R370 to R375). -/
def execEnergyBlockEnd (bits : List (List (BitVec 16 × BitVec 16))) (s : State) : Host.Outcome State Fault Refusal :=
  if !(damperRuns s && belRuns s) then .next s else
    let s := routineBlock bits s
    let rs := (List.finRange 32).map (fun c => channelBlock s.hive.dom.fm (bits.getD c.val []) s.dmpr.ch[c])
    let mask (p : DmprCh × Bool × Bool → Bool) : Word :=
      maskOf ((List.finRange 32).filterMap (fun c => match rs[c.val]? with
        | some r => if p r then some c.val else none
        | none => none))
    let s := dmprMove (fun d => { d with ch := vmap d.ch (fun c y => match rs[c.val]? with
      | some r => r.1
      | none => y) }) s
    .next (raiseMask 42 (mask (fun r => r.2.2)) (raiseMask 46 (mask (fun r => r.2.1)) s))

/-- COOL_DOWN_END: the window is cleared and the energy ceiling is 1.0 again (R372). -/
def execCoolDownEnd (c : Fin 32) (s : State) : Host.Outcome State Fault Refusal :=
  let y := s.dmpr.ch[c]
  if damperRuns s && y.cooling then
    .next (dmprMove id (modDch c (fun y => { y with
      cooling := false, eWin := [], eZero := false, st := if y.st = 1 then 0 else y.st }) s))
  else .next s

/-- ENERGY_TRIES_RESET: 10 s after a cool-down without a further excess (R372). -/
def execEnergyTriesReset (c : Fin 32) (s : State) : Host.Outcome State Fault Refusal :=
  let y := s.dmpr.ch[c]
  if damperRuns s && !y.cooling && !y.eZero then .next (modDch c (fun y => { y with tries := 0 }) s) else .next s

/-! ### Line events -/

/-- LINE_RETRY: the retry time has passed, and Ianik runs a walk from hop 1 (R349, R379). -/
def execLineRetry (x : Fin 2) (s : State) : Host.Outcome State Fault Refusal :=
  if damperRuns s && s.dmpr.line[x].st == 1 then
    let s := modLine x (fun l => { l with st := 0 }) s
    .next (if hwRuns x s && s.hw[x].walk == .none && s.hw[x].st != 3 then startWalk x none s.stove.frame s else s)
  else .next s

/-- LINE_TRIES_RESET: 10 s powered without a trip (R379). -/
def execLineTriesReset (x : Fin 2) (s : State) : Host.Outcome State Fault Refusal :=
  if damperRuns s && s.hw[x].pwr && s.dmpr.line[x].st == 0 then .next (modLine x (fun l => { l with tries := 0 }) s)
  else .next s

/-- The largest of a list of readings; 0 for none. -/
def maxQ (xs : List Rat) : Rat := xs.foldl max 0

/-- The stored energy E = ½ C V² in joules, in binary64, for C in units of 0.1 µF (R381). -/
def storedEnergy (c : Nat) (v : Rat) : F64 := qF64 (mkRat c 20000000 * v * v)

/-- STORED_ENERGY_CHECK: the permit is granted, or refused and the walk stops (R381, R382). -/
def execStoredEnergyCheck (x : Fin 2) (s : State) : Host.Outcome State Fault Refusal :=
  match s.hw[x].check with
  | some (c, isBat) =>
    if damperRuns s then
      let v := maxQ (if isBat then s.dmpr.bat.take 8 else s.dmpr.line[x].volts.take 8)
      let ok := decide (f64Q (storedEnergy c v) ≤ f32Q s.dmpr.line[x].elim / 1000)
      let s := if ok then modLine x (fun l => { l with permit := true }) s else dmprFlag 0 s
      .next (checkAnswer x ok s)
    else .next s
  | none => .next s

/-- LINE_PERMIT_LAPSE: 1 ms after its grant the permit lapses (R382). -/
def execLinePermitLapse (x : Fin 2) (s : State) : Host.Outcome State Fault Refusal :=
  .next (modLine x (fun l => { l with permit := false }) s)

/-! ### Status words -/

/-- DMPR_SUPPLY (R384). -/
def supplyCode : Supply → Nat
  | .normal => 0
  | .warn => 1
  | .cut => 2
  | .loadDump => 3

/-- DMPR_STAT (R384). -/
def dmprStat (s : State) : Word :=
  let d := s.dmpr
  n2w (supplyCode d.supply) 29 ||| n2w d.line[0].st 27 ||| n2w d.line[1].st 25 ||| n2w d.line[0].tries 23 |||
  n2w d.line[1].tries 21 ||| b2w d.line[0].permit 20 ||| b2w d.line[1].permit 19 ||| n2w d.killCnt 8 ||| n2w d.ev.toNat 0

/-- DMPR_CH_STAT (R385). -/
def dchStat (d : Damper) (y : DmprCh) : Word :=
  n2w y.st 30 ||| n2w y.tries 28 ||| b2w (killLine d y) 27 ||| b2w y.drvOff 26 ||| b2w y.evDc 1 ||| b2w y.evEnergy 0

/-! ### The 0x08xx commands -/

/-- DMPR_INFO (R386, R388). -/
def dmprInfoDef : CmdDef :=
  { opcode := 0x0800, minVer := 1
    bad := fun r _ => badForm 0 r || badTarget r
    act := fun _ _ s =>
      let d := s.dmpr
      (s, stOk, [dmprStat s, qF32 (batMean d), qF32 d.rail, qF32 (lineVolts 0 s), qF32 (lineVolts 1 s),
        qF32 d.line[0].amps, qF32 d.line[1].amps]) }

/-- A threshold out of 3.0 to 60.0 V (R367). -/
def badVolt (x : F32) : Bool := !f32Rng 3 60 x

/-- DMPR_SUPPLY_CONFIG refused with BAD_ARG (R367, R387). -/
def supplyBad (r : Req) : Bool :=
  let v (i : Nat) : Rat := f32Q (arg r i)
  badForm 9 r || badTarget r || !f32Rng 1 40 (arg r 3) || !f32Rng 1 40 (arg r 4) || badVolt (arg r 5) ||
  !f32Rng (mkRat 1 20) 2 (arg r 6) || badVolt (arg r 7) || badVolt (arg r 8) || badVolt (arg r 9) || badVolt (arg r 10) ||
  rsvd (arg r 11) 1 ||
  !(decide (v 7 < v 8) && decide (v 8 ≤ v 5) && decide (v 5 + v 6 < v 10) && decide (v 10 < v 9) &&
    decide (v 9 < mkRat 18 10 * v 3))

/-- DMPR_SUPPLY_CONFIG (R362, R367, R369, R386, R387). -/
def dmprSupplyConfigDef : CmdDef :=
  { opcode := 0x0801, minVer := 1
    needs := fun _ _ s => lcFielded s
    bad := fun r _ => supplyBad r
    act := fun _ r s => (modDmpr (fun d => { d with cfgNext := some { (d.cfgNext.getD d.cfg) with
      batRatio := arg r 3, railRatio := arg r 4, warn := arg r 5, hyst := arg r 6, cut := arg r 7, resume := arg r 8
      dump := arg r 9, release := arg r 10, ldDrvOff := argB r 11 0 } }) s, stOk, []) }

/-- The points of DMPR_CRANK_CURVE. -/
def curveArgs (r : Req) : List (F32 × F32) := (List.range 8).map (fun k => (arg r (3 + 2 * k), arg r (4 + 2 * k)))

/-- Points that break the order of R368. -/
def badCurve : List (F32 × F32) → Bool
  | p :: q :: ps => decide (f32Q p.1 ≤ f32Q q.1) || decide (f32Q p.2 < f32Q q.2) || badCurve (q :: ps)
  | _ => false

/-- DMPR_CRANK_CURVE (R368, R386, R387). -/
def dmprCrankCurveDef : CmdDef :=
  { opcode := 0x0802, minVer := 2
    needs := fun _ _ s => lcFielded s
    bad := fun r _ => badForm 16 r || badTarget r || (curveArgs r).any (fun p => !f32Fin p.1 || !f32In 0 1 p.2) ||
      decide (f32Q (arg r 4) ≠ 1) || badCurve (curveArgs r)
    act := fun _ r s => (modDmpr (fun d => { d with cfgNext := some { (d.cfgNext.getD d.cfg) with
      curve := some (curveArgs r) } }) s, stOk, []) }

/-- DMPR_OUT_CONFIG (R372, R373, R386, R387). -/
def dmprOutConfigDef : CmdDef :=
  { opcode := 0x0803, minVer := 1
    needs := fun _ _ s => lcFielded s
    bad := fun r _ => badForm 5 r || !f32Rng (mkRat 1 10) 500 (arg r 3) || rsvd (arg r 4) 0x03FF03FF ||
      argF r 4 0 10 == 0 || decide (1000 < argF r 4 0 10) || argF r 4 16 10 == 0 || decide (1000 < argF r 4 16 10) ||
      !f32Rng (mkRat 1 2) 10 (arg r 5) || !f32Rng (mkRat 1 10) 60 (arg r 6) || rsvd (arg r 7) 3
    act := fun _ r s => (modDmpr (fun d => { d with chNext := vmap d.chNext (fun c n =>
      if r.target.getLsbD c.val then some { d.ch[c] with
        eLim := arg r 3, wE := argF r 4 0 10, wD := argF r 4 16 10, dcThr := arg r 5, cool := arg r 6
        ruleE := argB r 7 0, ruleD := argB r 7 1 }
      else n) }) s, stOk, []) }

/-- The chain a line command names. -/
def tgtLine (r : Req) : Fin 2 := if r.target.getLsbD 0 then 1 else 0

/-- DMPR_LINE_CONFIG (R378, R379, R381, R386, R387). -/
def dmprLineConfigDef : CmdDef :=
  { opcode := 0x0804, minVer := 2
    needs := fun _ _ s => lcFielded s
    bad := fun r _ => badForm 5 r || rsvd r.target 1 || !f32Rng (mkRat 2 10) 3 (arg r 3) || !f32Rng 5 500 (arg r 4) ||
      !f32Rng (mkRat 1 10) 100 (arg r 5) || !f32Rng (mkRat 1 10) 60 (arg r 6) || rsvd (arg r 7) 3
    act := fun _ r s => (modDmpr (fun d => { d with lineNext := vmod d.lineNext (tgtLine r) (fun _ =>
      some { d.line[tgtLine r] with
        itrip := arg r 3, shunt := arg r 4, elim := arg r 5, retryT := arg r 6, retryN := argF r 7 0 2 }) }) s, stOk, []) }

/-- DMPR_STATUS (R386, R388). -/
def dmprStatusDef : CmdDef :=
  { opcode := 0x0805, minVer := 1
    bad := fun r _ => badForm 0 r
    act := fun _ r s => (s, stOk, dmprStat s :: (maskChans r.target).flatMap (fun c =>
      [dchStat s.dmpr s.dmpr.ch[c], s.dmpr.ch[c].sent])) }

/-- A channel after DMPR_CLEAR: latches, W1C bits and tries cleared; kill, DRV_EN force and energy ceiling withdrawn
(R387). -/
def clearDch (y : DmprCh) : DmprCh :=
  { y with st := 0, tries := 0, dcKill := false, drvOff := false, evDc := false, evEnergy := false, eZero := false
           cooling := false, dcLast := false }

/-- DMPR_CLEAR on a line: its latch and tries (R379, R387). -/
def clearLine (x : Fin 2) (s : State) : State :=
  let was := s.dmpr.line[x].st
  let s := modLine x (fun l => { l with st := if l.st = 2 then 0 else l.st, tries := 0 }) s
  if was = 2 then modHw x (fun c => { c with st := if c.st = 3 then 0 else c.st }) s else s

/-- DMPR_CLEAR (R376, R386, R387). -/
def dmprClearDef : CmdDef :=
  { opcode := 0x0806, minVer := 1
    bad := fun r _ => badForm 1 r || rsvd (arg r 3) 0x1F
    act := fun _ r s =>
      let s := if argB r 3 0 then modDmpr (fun d => { d with ch := vmap d.ch (fun c y =>
        if r.target.getLsbD c.val then clearDch y else y) }) s else s
      let s := if argB r 3 1 then clearLine 0 s else s
      let s := if argB r 3 2 then clearLine 1 s else s
      (dmprMove (fun d => { d with
        ev := if argB r 3 3 then 0 else d.ev, killCnt := if argB r 3 4 then 0 else d.killCnt }) s, stOk, []) }

/-- DMPR_ENERGY_READ (R386, R388). -/
def dmprEnergyReadDef : CmdDef :=
  { opcode := 0x0807, minVer := 2
    bad := fun r _ => badForm 0 r
    act := fun _ r s => (s, stOk, (maskChans r.target).flatMap (fun c =>
      let y := s.dmpr.ch[c]
      [f64To32 (sum64 y.eWin), f64To32 (dcMean y)])) }

/-- DMPR_INFO. -/
def execDmprInfo (m : Fin 4) (r : Req) (s : State) : Host.Outcome State Fault Refusal :=
  .next (mbxCommand dmprInfoDef m r s)

/-- DMPR_SUPPLY_CONFIG. -/
def execDmprSupplyConfig (m : Fin 4) (r : Req) (s : State) : Host.Outcome State Fault Refusal :=
  .next (mbxCommand dmprSupplyConfigDef m r s)

/-- DMPR_CRANK_CURVE. -/
def execDmprCrankCurve (m : Fin 4) (r : Req) (s : State) : Host.Outcome State Fault Refusal :=
  .next (mbxCommand dmprCrankCurveDef m r s)

/-- DMPR_OUT_CONFIG. -/
def execDmprOutConfig (m : Fin 4) (r : Req) (s : State) : Host.Outcome State Fault Refusal :=
  .next (mbxCommand dmprOutConfigDef m r s)

/-- DMPR_LINE_CONFIG. -/
def execDmprLineConfig (m : Fin 4) (r : Req) (s : State) : Host.Outcome State Fault Refusal :=
  .next (mbxCommand dmprLineConfigDef m r s)

/-- DMPR_STATUS. -/
def execDmprStatus (m : Fin 4) (r : Req) (s : State) : Host.Outcome State Fault Refusal :=
  .next (mbxCommand dmprStatusDef m r s)

/-- DMPR_CLEAR. -/
def execDmprClear (m : Fin 4) (r : Req) (s : State) : Host.Outcome State Fault Refusal :=
  .next (mbxCommand dmprClearDef m r s)

/-- DMPR_ENERGY_READ. -/
def execDmprEnergyRead (m : Fin 4) (r : Req) (s : State) : Host.Outcome State Fault Refusal :=
  .next (mbxCommand dmprEnergyReadDef m r s)

end Sys2Proof.Machine
end

