-- ==== Sys2Proof/Machine/Images.lean ====
section
/-! DEFINITION. Images: the flash directory and slots, manifests and their verification, measurements, the
application of components and the load of a tuning or a cell image (R515 to R536). -/

namespace Sys2Proof.Machine

/-! ### Boot state -/

/-- Change the boot state. -/
def modBoot (f : Boot → Boot) (s : State) : State := { s with boot := f s.boot }

/-- Change PSP0 and the Forager. -/
def modP0 (f : Flash → Flash) (s : State) : State := { s with p0 := f s.p0 }

/-- Change the memory care state. -/
def modCare (f : MemCare → MemCare) (s : State) : State := { s with care := f s.care }

/-! ### Directory and slots -/

/-- The profile of a select code. -/
def profOf (sel : Nat) (s : State) : Profile := vgetD s.p0.prof sel {}

/-- A device answers on a select code (R429). -/
def present (sel : Nat) (s : State) : Bool := decide (sel < 15) && (profOf sel s).w4.getLsbD 9

/-- PSP_PAGE in bytes (R429). -/
def pageOf (p : Profile) : Nat := 16 * 2 ^ fld p.w5 8 4

/-- PSP_RD_CMD, PSP_PG_CMD, PSP_WE_CMD and PSP_ST_CMD (R461). -/
def rdCmd (p : Profile) : Byte := p.w3.extractLsb' 0 8
def pgCmd (p : Profile) : Byte := p.w3.extractLsb' 8 8
def weCmd (p : Profile) : Byte := p.w3.extractLsb' 16 8
def stCmd (p : Profile) : Byte := p.w3.extractLsb' 24 8

/-- Change the profile of a select code. -/
def modProf (sel : Nat) (f : Profile → Profile) (s : State) : State :=
  modP0 (fun p => { p with prof := vmodN p.prof sel f }) s

/-- The part of a write that its first transaction carries: up to the end of the page (R432). -/
def p0Page (q : P0Req) (s : State) : P0Req :=
  if q.write && !q.erase && !q.raw then
    let n := pageOf (profOf q.sel s)
    { q with len := min q.data.length (n - q.addr % n) }
  else q

/-- The write enable of a page or an erase goes before it, in a transaction of its own (R432). -/
def enables (q : P0Req) (s : State) : Bool := q.write && !q.raw && !q.enabled && weCmd (profOf q.sel s) != 0

/-- PSP_AW: the bits of an address that reach a device (R427, R429, R461). -/
def addrWidth (p : Profile) : Nat := 16 + 8 * min 2 (fld p.w4 0 2)

/-- Bytes of flash as select code 0 answers them (R429). -/
def flashBytes (a n : Nat) (s : State) : List Byte := rdFlashs s.p0.mem (a % 2 ^ addrWidth s.p0.prof[0]) n

/-- A byte of flash lies in the tagged range, read-only from the lock on (R437). -/
def inTagged (a : Nat) (s : State) : Bool :=
  s.p0.locked && decide (64 * s.p0.tagRange.1 ≤ a) && decide (a < 64 * (s.p0.tagRange.1 + s.p0.tagRange.2))

/-- Program bytes of select code 0 outside the tagged range (R437, log entry 5). -/
def flashPut (a : Nat) : List Byte → State → State
  | [], s => s
  | b :: bs, s => flashPut (a + 1) bs (if inTagged a s then s else modP0 (fun p => { p with mem := progFlash p.mem a b }) s)

/-- Program bytes of select code 0 at an address as it reaches the device (R429, R437). -/
def flashProg (a : Nat) (bs : List Byte) (s : State) : State := flashPut (a % 2 ^ addrWidth s.p0.prof[0]) bs s

/-- A write that a reset or a hold cuts leaves the bytes that the device had programmed by then, a free number of them
(R457, log entry 2). -/
def flashCut (a : Nat) (bs : List Byte) (s : State) : State :=
  let (w, s) := drawWord s
  flashProg a (bs.take (w.toNat % (bs.length + 1))) s

/-- A little-endian number of `n` bytes of flash. -/
def flashNat (a n : Nat) (s : State) : Nat := natLE (flashBytes a n s)

/-- A word of flash. -/
def flashWord (a : Nat) (s : State) : Word := BitVec.ofNat 32 (flashNat a 4 s)

/-- A device answers on select code 0 (R429). -/
def flashHere (s : State) : Bool := s.p0.prof[0].w4.getLsbD 9

/-- A directory's magic and CRC hold (R516). -/
def dirGood (ws : List Word) : Bool := ws.getD 0 0 == 0x4E4F4444 && ws.getD 63 0 == crc32 (wordsToBytes (ws.take 63))

/-- The directory: the primary copy, else the second; none where both fail (R516). -/
def directory (s : State) : Option (List Word) :=
  let a := bytesToWords (flashBytes 0 256 s)
  let b := bytesToWords (flashBytes 0x1000 256 s)
  if !flashHere s then none else if dirGood a then some a else if dirGood b then some b else none

/-- The base address of slot A or, with `b`, slot B (R515, R516). -/
def slotBase (b : Bool) (s : State) : Nat :=
  match directory s with
  | some ws => (ws.getD (if b then 7 else 6) 0).toNat
  | none => if b then 0x02100000 else 0x00100000

/-- The state words EMPTY, WRITTEN, VALID, TRIAL, ACTIVE (R528). -/
def slotWords : List Word := [0xFFFFFFFF, 0xFFFFFF00, 0xFFFF0000, 0xFF000000, 0x00000000]

/-- The state of a slot, 0 EMPTY to 4 ACTIVE: the last whose every 0 bit is 0 in the word (R528). -/
def slotState (b : Bool) (s : State) : Nat :=
  let w := flashWord (slotBase b s) s
  (List.range 5).foldl (fun k j => if w &&& ~~~ slotWords.getD j 0 = 0 then j else k) 0

/-- The slot is live (R528). -/
def slotLive (b : Bool) (s : State) : Bool := flashWord (slotBase b s + 4) s == 0xFFFFFFFF

/-- The sequence number of a slot (R517). -/
def slotSeq (b : Bool) (s : State) : Word := flashWord (slotBase b s + 8) s

/-- The slot is a candidate (R528). -/
def candidate (b : Bool) (s : State) : Bool := slotLive b s && decide (2 ≤ slotState b s) && slotSeq b s != 0xFFFFFFFF

/-- Program a word of flash (R437, R528, log entry 5). -/
def progWordAt (a : Nat) (w : Word) (s : State) : State := flashProg a (wordsToBytes [w]) s

/-- Program the state word of a slot. -/
def progState (b : Bool) (k : Nat) (s : State) : State := progWordAt (slotBase b s) (slotWords.getD k 0) s

/-- Retire a slot (R528). -/
def retireSlot (b : Bool) (s : State) : State := progWordAt (slotBase b s + 4) 0 s

/-- The booted slot; none where push or recovery booted (R532). -/
def bootedSlot (s : State) : Option Bool :=
  match s.boot.src with
  | .slotA => some false
  | .slotB => some true
  | _ => none

/-! ### Manifests -/

/-- A little-endian number of a byte list. -/
def leAt (bs : List Byte) (a n : Nat) : Nat := natLE ((bs.drop a).take n)

/-- The length a manifest's header gives it (R518). -/
def manLen (bs : List Byte) : Nat := 96 + 16 * leAt bs 14 2 + 32 * leAt bs 16 2 + 64

/-- Entry `i` of the component table (R519). -/
def compAt (bs : List Byte) (i : Nat) : Component :=
  let a := 96 + 16 * i
  { kind := leAt bs a 1, early := leAt bs (a + 1) 1 % 2 = 1, isSealed := leAt bs (a + 1) 1 / 2 % 2 = 1
    tuning := leAt bs (a + 2) 2, first := leAt bs (a + 4) 2, count := leAt bs (a + 6) 2, len := leAt bs (a + 8) 4 }

/-- The content of a manifest (R518). -/
def parseMan (bs : List Byte) : Manifest :=
  let c := leAt bs 14 2
  { kind := leAt bs 4 4, version := BitVec.ofNat 32 (leAt bs 8 4), tuning := leAt bs 12 2
    comps := (List.range c).map (compAt bs)
    digests := (List.range (leAt bs 16 2)).map (fun k => digestOf ((bs.drop (96 + 16 * c + 32 * k)).take 32))
    keyHash := digestOf (sha256 ((bs.drop 32).take 64)) }

/-- The key of a manifest is a programmed, unrevoked key-hash slot, the revoke bits as this power-up read them: a revocation
acts from the next boot (R521, R539). -/
def keyKnown (h : BitVec 256) (s : State) : Bool :=
  (List.finRange 4).any (fun i => s.boot.fuses.keys[i] == some h && !s.boot.revRead[i])

/-- Why a manifest does not verify, as BOOT_FAIL codes it; none: it verifies. `push`: it was pushed (R518 to R521,
R537, R540). -/
def manReason (rec push : Bool) (bs : List Byte) (s : State) : Option Nat :=
  let m := parseMan bs
  let n := manLen bs
  let body := bs.take (n - 64)
  if leAt bs 0 4 ≠ 0x4E4F4D46 ∨ m.kind ≠ (if rec then 1 else 0) ∨ bs.length < n ∨ 511 < m.digests.length ∨
      m.comps.any (fun c => decide (7 < c.kind)) ∨
      !ecdsaOk (sha256 body) ((bs.drop 32).take 64) ((bs.drop (n - 64)).take 64) then some 3
  else if s.pow.lc ≠ .blank ∧ !keyKnown m.keyHash s then some 4
  else if m.comps.any (fun c => decide (c.kind = 1) && decide (495 < c.first + c.count)) then some 10
  else if push && m.comps.any (fun c => decide (c.kind = 1) || decide (c.kind = 2)) then some 5
  else none

/-- The manifest bytes of a slot (R517). -/
def slotMan (b : Bool) (s : State) : List Byte :=
  let base := slotBase b s
  flashBytes (base + 0x1000) (min 61440 (flashNat (base + 12) 4 s)) s

/-- The bytes of a block of a slot (R517). -/
def slotBlock (b : Bool) (k : Nat) (s : State) : List Byte :=
  flashBytes (slotBase b s + (k + 1) * 0x10000) 0x10000 s

/-- The bytes of a pushed block (R537). -/
def pushedBlock (k : Nat) (s : State) : List Byte := rdBs s.boot.pushed ((k + 1) * 0x10000) 0x10000

/-- The bytes of a block of the image that is loading or running. -/
def imageBlock (k : Nat) (s : State) : List Byte :=
  match bootedSlot s with
  | some b => slotBlock b k s
  | none => pushedBlock k s

/-- The blocks of a component. -/
def compBlocks (c : Component) : List Nat := (List.range c.count).map (c.first + ·)

/-- A block's digest equals the manifest's (R522). -/
def blockGood (m : Manifest) (bs : List Byte) (k : Nat) : Bool :=
  decide (k < m.digests.length) && digestOf (sha256 bs) == m.digests.getD k 0

/-- A component's digest (R519). -/
def compDigest (m : Manifest) (c : Component) : BitVec 256 :=
  digestOf (sha256 ((compBlocks c).flatMap (fun k => digestBytes (m.digests.getD k 0))))

/-- A slot verifies whole; the reason where it does not (R521, R522, R532). -/
def slotReason (b : Bool) (s : State) : Option Nat :=
  let bs := slotMan b s
  match manReason false false bs s with
  | some r => some r
  | none =>
    let m := parseMan bs
    if (List.range m.digests.length).all (fun k => blockGood m (slotBlock b k s) k) then none else some 5

/-! ### Measurements -/

/-- The measurement register a component kind goes into: firmware MEAS1, its configuration MEAS2 (R463, R519). -/
def measOf (kind : Nat) : Nat := if kind ≤ 2 then 1 else kind - 1

/-- Extend MEASk with a digest (R523). -/
def measure (k : Nat) (d : BitVec 256) (s : State) : State :=
  modBoot (fun b => { b with meas := vmodN b.meas k (fun m => extendMeas m d) }) s

/-! ### Components of a tuning -/

/-- The digest of the first component of a kind that a tuning names, and whether it is sealed. -/
def tuneComp (m : Manifest) (kind tuning : Nat) : Option Component :=
  m.comps.find? (fun c => decide (c.kind = kind) && decide (c.tuning = tuning))

/-- The Vault serves: no wipe is under way, and no failed wipe has locked it (R417, R419). -/
def vaultServes (s : State) : Bool := !s.care.wiping && !s.care.locked

/-- A sealed component decrypts: the Vault serves and holds the derived key, and the key fits (R416 to R419, R522, R538,
log entry 21). -/
def opens (c : Component) (d : BitVec 256) (s : State) : Bool :=
  !c.isSealed || (vaultServes s && s.care.keysIn && Config.unseals d (rdWs s.care.vault 0 8) && s.pow.lc != .returned)

/-- Write words of the Vault, each with a fresh codeword (R407, R416). -/
def vaultWrite (k : Nat) (ws : List Word) (s : State) : State :=
  modCare (fun c => { c with vault := wrWs c.vault (4 * k) ws })
    (healWords (fun a => ⟨.vault, 0, 0, a⟩) ((List.range ws.length).map (k + ·)) s)

/-- The firmware derives the sealing keys into the key area, where the Vault serves (R416, log entry 21). -/
def deriveKeys (s : State) : State :=
  if vaultServes s then
    modCare (fun c => { c with keysIn := true }) (vaultWrite 0 (digestWords (Config.sealKey s.boot.meas[0])) s)
  else s

/-- Ianik reads the key: false where its words hold an uncorrectable error (R408, R409, R416). -/
def keyRead (s : State) : Bool × State :=
  (List.range 8).foldl (fun (p : Bool × State) k =>
    let (ok, s) := checkWord ⟨.vault, 0, 0, k⟩ p.2
    (p.1 && ok, s)) (true, s)

/-- Decrypted sealed content stands in the staging area before it goes to its bank (R93, R416). -/
def stageSealed (isSealed : Bool) (ws : List Word) (s : State) : State :=
  if isSealed then vaultWrite 1024 (ws.take 64512) s else s

/-- The program image of ID `i` that a cell program set holds: L and descriptors (log entry 20). -/
def progMetaOf (d : BitVec 256) (i : BitVec 16) (isSealed : Bool) : PMeta :=
  let ws := Config.imageMeta d i
  { image := i, len := fld (ws.getD 0 0) 0 18, isSealed := isSealed
    desc := Vector.ofFn (fun j : Fin 16 => ws.getD (2 + 2 * j) 0 ++ ws.getD (1 + 2 * j) 0) }

/-- Write a program bank whole; a bank that is not ON is not written (R63, R103, R405, log entry 20). -/
def loadProg (c : Fin 32) (b : Fin 2) (d : BitVec 256) (i : BitVec 16) (isSealed : Bool) (s : State) : State :=
  let ws := (Config.imageWords d i).take 16384
  let s := stageSealed isSealed ws s
  if !cellBlkOn c b s then offAccess s else
  modCell c (fun y => { y with mem := { y.mem with
    prog := y.mem.prog.set b (wrWs [] 0 ws), pmeta := y.mem.pmeta.set b (progMetaOf d i isSealed) } })
    (healWords (fun a => ⟨.program, c, b, a⟩) (List.range 16384) s)

/-- Write a coefficient bank whole; a bank that is not ON is not written (R63, R103, R405, log entry 20). -/
def loadCoef (c : Fin 32) (b : Fin 2) (d : BitVec 256) (i : BitVec 16) (isSealed : Bool) (s : State) : State :=
  let ws := (Config.imageWords d i).take 32768
  let w := Config.imageMeta d i
  let s := stageSealed isSealed ws s
  if !cellBlkOn c (2 + b) s then offAccess s else
  modCell c (fun y => { y with mem := { y.mem with
    coef := y.mem.coef.set b (wrWs [] 0 ws)
    cmeta := y.mem.cmeta.set b
      { image := i, isSealed := isSealed, winStart := fld (w.getD 0 0) 0 15, winLen := fld (w.getD 1 0) 0 16 } } })
    (healWords (fun a => ⟨.coef, c, b, a⟩) (List.range 32768) s)

/-- Clear a program bank and its metadata (R402, R418). -/
def clearProg (c : Fin 32) (b : Fin 2) (s : State) : State :=
  modCell c (fun y => { y with mem := { y.mem with prog := y.mem.prog.set b [], pmeta := y.mem.pmeta.set b {} } })
    (healWords (fun a => ⟨.program, c, b, a⟩) (List.range 16384) s)

/-- Clear a coefficient bank and its metadata (R402, R418). -/
def clearCoef (c : Fin 32) (b : Fin 2) (s : State) : State :=
  modCell c (fun y => { y with mem := { y.mem with coef := y.mem.coef.set b [], cmeta := y.mem.cmeta.set b {} } })
    (healWords (fun a => ⟨.coef, c, b, a⟩) (List.range 32768) s)

/-- The banks a load writes in a cell: the inactive ones, or P0 and C0 of a cell with no role (R533, log
entry 20). -/
def freeBanks (y : Cell) : Fin 2 × Fin 2 := if y.role.isSome then (y.actP + 1, y.actC + 1) else (0, 0)

/-- The cells a cell program set names. -/
def tuneCells (d4 : BitVec 256) : List (Fin 32) := maskChans (Config.tuneMask d4)

/-- The role a cell program set gives a cell. -/
def tuneRole (d4 : BitVec 256) (c : Fin 32) : Option Role :=
  let w := Config.tuneCell d4 c
  match fld w 0 2 with
  | 0 => some ⟨.M, 0⟩
  | 1 => some ⟨.F, fld w 2 3⟩
  | 2 => some ⟨.S, fld w 2 3⟩
  | _ => none

/-- The program image a cell program set gives a cell. -/
def tuneProgId (d4 : BitVec 256) (c : Fin 32) : BitVec 16 := (Config.tuneCell d4 c).extractLsb' 16 16

/-- A cell takes a swap in place of a role change: it keeps its domain and slot, and no role change of it pends (log
entry 20). -/
def tuneSwaps (d4 : BitVec 256) (c : Fin 32) (s : State) : Bool :=
  let y := cellAt s c
  y.role.isSome && y.role == tuneRole d4 c && y.pendRole.isNone

/-- The role changes and the swaps of a tuning at frame `e` (R533). -/
def tuneRoles (d4 : BitVec 256) (e : Nat) (s : State) : List (Fin 32 × RoleChange) :=
  (List.finRange 32).filterMap (fun c =>
    let y := cellAt s c
    let w := Config.tuneCell d4 c
    if (tuneCells d4).contains c then
      if tuneSwaps d4 c s then none
      else some (c, ⟨tuneRole d4 c, w.getLsbD 5, (freeBanks y).1, (freeBanks y).2, y.epoch + 1, e⟩)
    else if y.role.isSome || y.pendRole.isSome then some (c, ⟨none, false, y.actP, y.actC, y.epoch + 1, e⟩)
    else none)

/-- A program image has no length of R63, or a descriptor that breaks a limit (R63, R117, R118). -/
def imageBad (p : PMeta) : Bool := p.len == 0 || decide (190848 < p.len) || p.desc.toList.any badDesc

/-- A cell may not take the role, or the program image, that a cell program set gives it at frame `e` (R63, R65, R87, R94,
R107, R118, R404). The windows are those of the rates in force from then on (log entry 62). -/
def tuneBadRole (d4 : BitVec 256) (e : Nat) (c : Fin 32) (s : State) : Bool :=
  let y := cellAt s c
  let p := progMetaOf d4 (tuneProgId d4 c) false
  let after := { y with mem := { y.mem with pmeta := y.mem.pmeta.set (freeBanks y).1 p } }
  match tuneRole d4 c with
  | none => true
  | some x =>
    p.image == 0 || !Config.imageIn d4 p.image || imageBad p || winShort x.dom p.len e s ||
    y.clearing || (cellSealed y && !tuneSwaps d4 c s) ||
    banksOff after (some (freeBanks y).1) (some (freeBanks y).2) s

/-- The program or coefficient image of a cell breaks the rules of its bank at frame `e`, or the cell may not take its role
(R63, R87, R107). -/
def tuneBadCell (d4 d5 : BitVec 256) (e : Nat) (c : Fin 32) (s : State) : Bool :=
  Config.tuneCoef d5 c == 0 || !Config.imageIn d5 (Config.tuneCoef d5 c) || tuneBadRole d4 e c s

/-- Two named cells hold one domain slot of F or S (R71). -/
def tuneClash (d4 : BitVec 256) : Bool :=
  (tuneCells d4).any (fun c => (tuneCells d4).any (fun k => c != k &&
    match tuneRole d4 c with
    | some x => x.dom != .M && tuneRole d4 k == some x
    | none => false))

/-- A change of the tuning concerns the S domain, so its frame is a multiple of the S divider (R92, R102). -/
def tuneS (d4 : BitVec 256) (s : State) : Bool :=
  (tuneCells d4).any (fun c => (tuneRole d4 c).map (·.dom) == some .S) ||
  (List.finRange 32).any (fun c => cellDom (cellAt s c) == some .S)

/-- Stage every node of the three Combs; a gain that R156 refuses a command is staged as +0.0 (R533; DESIGN CHOICE, log
entry 20). -/
def tuneStage (d6 : BitVec 256) (s : State) : State :=
  [Dom.M, .F, .S].foldl (fun s d =>
    modComb d (fun c =>
      let c := { c with nodes := smap {} (fun _ n => { n with staged := 0 }) c.nodes }
      let gs := (Config.tuneGains d6 (domNo d)).take (cols d * cols d)
      let put := gs.foldl (fun (p : Nat × Sparse Node) g =>
        (p.1 + 1, sset {} p.2 p.1 { sget {} p.2 p.1 with staged := if badGain g then 0 else stGain g })) (0, c.nodes)
      { c with nodes := put.2, marks := List.range (cols d) }) s) s

/-- The maps of the three Combs, whole (R533). -/
def tuneMaps (d6 : BitVec 256) : List Change :=
  [Dom.M, .F, .S].flatMap (fun d => [false, true].map (fun o =>
    .combMap d o 0 (((Config.tuneMap d6 (domNo d) o) ++ List.replicate (extCols d) 0).take (extCols d))))

/-- Write the banks of a cell; a program image that breaks R63 or R118 is not written (log entry 64). -/
def tuneBank (c4 c5 : Component) (d4 d5 : BitVec 256) (s : State) (c : Fin 32) : State :=
  let b := freeBanks (cellAt s c)
  let s := if imageBad (progMetaOf d4 (tuneProgId d4 c) c4.isSealed) then s
    else loadProg c b.1 d4 (tuneProgId d4 c) c4.isSealed s
  loadCoef c b.2 d5 (Config.tuneCoef d5 c) c5.isSealed s

/-- Write the banks of every cell a tuning names (R533). -/
def tuneBanks (c4 c5 : Component) (d4 d5 : BitVec 256) (s : State) : State :=
  (tuneCells d4).foldl (tuneBank c4 c5 d4 d5) s

/-- A role change of a tuning takes effect in a cell: the epoch advances from where it stands, and the entries it flushes
end (R72, R73, R80, R602). -/
def roleNow (c : Fin 32) (rc : RoleChange) (s : State) : State :=
  let rc := { rc with epoch := (cellAt s c).epoch + 1 }
  let gone := flushed rc.epoch (cellAt s c)
  gone.foldl (fun s q => memReadEnds stStale q s) (modCell c (takeRole rc) s)

/-- The cells of a tuning change at the tick of its frame, with EV12 once where cells swap (R86, R109, R533). -/
def tuneNow (tuning : Nat) (roles : List (Fin 32 × RoleChange)) (swaps : List (Fin 32)) (s : State) : State :=
  let s := modBoot (fun b => { b with running := tuning }) s
  let s := roles.foldl (fun s x => roleNow x.1 x.2 s) s
  swaps.foldl (fun s c => modCell c (fun y =>
    let y := takeProg (y.actP + 1) y
    { y with actC := y.actC + 1 }) s) (raiseIf (!swaps.isEmpty) 12 8 s)

/-- A tuning is committed for frame `e`: every part is staged for that frame, as one change of the firmware's own (R42,
R533). A role change accepted before it keeps its own epoch. -/
def tuneCommit (tuning : Nat) (d4 d6 : BitVec 256) (e : Nat) (s : State) : State :=
  let rs := tuneRoles d4 e s
  let sw := (tuneCells d4).filter (fun c => tuneSwaps d4 c s)
  let s := rs.foldl (fun s x => modCell x.1 (fun y => { y with pendRole := y.pendRole.orElse (fun _ => some x.2) }) s) s
  let s := stageOwn e (.tune tuning rs sw) s
  let s := (tuneMaps d6).foldl (fun s c => stageOwn e c s) (tuneStage d6 s)
  [Dom.M, .F, .S].foldl (fun s d => stageOwn e (.combCommit d)
    (modComb d (fun c => { c with commits := c.commits ++ [(e, (Config.tuneRamp d6).toNat)] }) s)) s

/-- The early tuning takes effect in frame `n` under AUTO_RUN: roles, maps and gains together (R526). One that breaks a rule
for some cell sets no roles (R63, R65, R71, R94; DESIGN CHOICE, log entry 64). -/
def autoTuneSet (tuning : Nat) (d4 d6 : BitVec 256) (n : Nat) (s : State) : State :=
  let bad := tuneClash d4 || (tuneCells d4).any (fun c => tuneBadRole d4 n c s)
  let s := tuneNow tuning (if bad then [] else tuneRoles d4 n s) [] s
  let s := (tuneMaps d6).foldl (fun s c => match c with
    | .combMap d o f ids => applyMap d o f ids s
    | _ => s) (tuneStage d6 s)
  [Dom.M, .F, .S].foldl (fun s d =>
    modComb d (fun c => { c with commits := [(n, (Config.tuneRamp d6).toNat)] }) s) s

/-- The early tuning starts with the Hive's first frame `n`, or, where it has S roles, in the first frame after it that is a
multiple of the S divider (R73, R526; DESIGN CHOICE, log entry 64). -/
def autoTuneNow (tuning : Nat) (d4 d6 : BitVec 256) (n : Nat) (s : State) : State :=
  if tuneS d4 s && n % s.hive.dom.d != 0 then stageOwn (upTo s.hive.dom.d n) (.autoTune tuning d4 d6) s
  else autoTuneSet tuning d4 d6 n s

/-! ### Applying components at the boot -/

/-- The port and Hivewire configuration applies (R519, R533, log entry 20). -/
def applyPorts (d : BitVec 256) (s : State) : State :=
  let ws := Config.tunePorts d
  let w (i : Nat) : Word := ws.getD i 0
  { s with
    rx := vmap s.rx (fun p x => { x with w3 := w (4 * p), w4 := w (4 * p + 1) })
    tx := vmap s.tx (fun p x => { x with w3 := w (4 * p + 2), w4 := w (4 * p + 3) })
    hw := vmap s.hw (fun x c =>
      let a := 32 + 6 * x.val
      { c with
        maxVer := fld (w a) 0 2, auto := (w a).getLsbD 2, errThr := fld (w a) 16 16, ibudget := w (a + 1)
        vgood := w (a + 2), ratio := w (a + 3), bootTmo := fld (w (a + 4)) 0 16, retry := fld (w (a + 5)) 0 23 }) }

/-- The Damper configuration applies at the next round boundary (R519, R525, log entry 20). -/
def applyDamper (d : BitVec 256) (s : State) : State :=
  let ws := Config.fwDamper d
  let w (i : Nat) : Word := ws.getD i 0
  let g : DmprCfg := { s.dmpr.cfg with
    batRatio := w 0, railRatio := w 1, warn := w 2, hyst := w 3, cut := w 4, resume := w 5, dump := w 6, release := w 7
    ldDrvOff := (w 8).getLsbD 0
    curve := some ((List.range 8).map (fun k => (w (9 + 2 * k), w (10 + 2 * k)))) }
  modBoot (fun b => { b with dmprApplied := true }) { s with dmpr := { s.dmpr with cfgNext := some g } }

/-- At an M frame tick after that of frame 0, which lies at 48 kHz, before any release, the rates that the firmware
configuration names apply: fM by a relock, m and d at once (R179, log entry 8). -/
def bootRates (s : State) : State :=
  if !s.boot.ratesDue || !(s.stove.lock || s.stove.inEmber) || s.stove.frame == 0 then s else
    let w := Config.fwRates s.boot.meas[2]
    let fm := fld w 0 2 == 1
    let s := modBoot (fun b => { b with ratesDue := false }) s
    let s := modDom (fun x => { x with
      m := if fld w 4 2 = 0 then x.m else mOf (fld w 4 2)
      d := if fld w 8 2 = 0 then x.d else dOf (fld w 8 2) }) s
    if fm != s.hive.dom.fm then stoveRetarget (modDom (fun x => { x with fm := fm }) s) else s

/-- The bytes of a component. -/
def compBytes (c : Component) (s : State) : List Byte := ((compBlocks c).flatMap (fun k => imageBlock k s)).take c.len

/-- The tag table goes to its block of Ianik RAM and is locked (R437). -/
def lockTags (d : BitVec 256) (c : Component) (s : State) : State :=
  let n := min 16384 (c.len / 8)
  let k := 1 + Config.tagBlock d % 6
  let ws := bytesToWords ((compBytes c s).take (8 * n))
  let s := modCare (fun x => { x with ianikRam := wrWs x.ianikRam (0x20000 * k) ws })
    (healWords (fun a => ⟨.ianikRam, 0, 0, a⟩) ((List.range ws.length).map (0x8000 * k + ·)) s)
  modP0 (fun p => { p with locked := true, tagRange := (Config.tagBase d % 2 ^ 20, n), tagBlk := k }) s

/-- A component of the booting image is applied: measured, and in force (R519, R523 to R525). The cell banks, maps
and ramps of a tuning come with its set. -/
def applyComp (m : Manifest) (c : Component) (s : State) : State :=
  let d := compDigest m c
  let s := measure (measOf c.kind) d s
  let s := modBoot (fun b => { b with applied := b.applied ||| BitVec.ofNat 8 (2 ^ c.kind) }) s
  match c.kind with
  | 2 => lockTags d c s
  | 3 => modBoot (fun b => { b with ratesDue := true }) (applyDamper d s)
  | 7 => applyPorts d s
  | _ => s

/-- The banks of a tuning's set are written while the boot applies it (R524). -/
def applyBanks (m : Manifest) (tuning : Nat) (s : State) : State :=
  match tuneComp m 4 tuning, tuneComp m 5 tuning with
  | some c4, some c5 => tuneBanks c4 c5 (compDigest m c4) (compDigest m c5) s
  | _, _ => s

/-! ### Jobs -/

/-- The components a job loads (R103, R533). -/
def jobComps (j : TuneJob) (m : Manifest) : List Component :=
  let get (k : Nat) : List Component := (tuneComp m k j.tuning).toList
  match j.cell with
  | none => get 4 ++ get 5 ++ get 6
  | some (_, p, k) => (if p then get 4 else []) ++ (if k then get 5 else [])

/-- The opcode of a job. -/
def jobOp (j : TuneJob) : Nat := if j.cell.isSome then 0x010C else 0x0B05

/-- The work of a job needs the Vault: it loads sealed content and has not committed it (R418). -/
def needsVault (s : State) (j : TuneJob) : Bool :=
  match s.boot.man with
  | some m => j.commit.isNone && (jobComps j m).any (·.isSealed)
  | none => false

/-- A job's command completes with a status and no effect. -/
def jobFails (status : Nat) (j : TuneJob) (s : State) : State :=
  complete (jobOp j) j.mbx j.tag (BitVec.ofNat 8 status) (if j.cell.isSome then [0] else [0, 0, 0xFFFFFFFF]) s

/-- The load under way is over; the next one accepted begins. -/
def jobNext (s : State) : State := modBoot (fun b => { b with job := b.jobs.head?, jobs := b.jobs.drop 1 }) s

/-- A job ends with a status and no effect. -/
def jobEnds (status : Nat) (s : State) : State :=
  match s.boot.job with
  | some j => jobFails status j (jobNext s)
  | none => s

/-- Clear the inactive banks that a job was writing (R418). -/
def jobClear (s : State) : State :=
  match s.boot.job, s.boot.man with
  | some j, some m =>
    match j.cell with
    | some (c, p, k) =>
      let b := freeBanks (cellAt s c)
      let s := if p then clearProg c b.1 s else s
      if k then clearCoef c b.2 s else s
    | none =>
      match tuneComp m 4 j.tuning with
      | some c4 => (tuneCells (compDigest m c4)).foldl (fun s c =>
          let b := freeBanks (cellAt s c)
          clearCoef c b.2 (clearProg c b.1 s)) s
      | none => s
  | _, _ => s

/-- A wipe of the Vault begins: every load of sealed content ends with AUTH_FAIL, those that wait too, and the banks that
one was writing are cleared (R418). -/
def jobWiped (s : State) : State :=
  let gone := s.boot.jobs.filter (needsVault s)
  let head := s.boot.job.any (needsVault s) && !s.boot.img.any (fun x => x.op == 0x0B05)
  let s := modBoot (fun b => { b with jobs := b.jobs.filter (fun j => !gone.contains j) }) s
  let s := if head then jobEnds stAuth (jobClear s) else s
  gone.foldl (fun s j => jobFails stAuth j s) s

/-- The Vault is wiped: its reads and writes are refused from now on, its keys are lost, and the work that needs it ends
(R417, R418). The causes are numbered in the order of R417 (log entry 26). -/
def wipeVault (cause : Nat) (s : State) : State :=
  modCare (fun c => { c with
    wiping := true, repeated := false, keysIn := false, wipes := stick 255 c.wipes, cause := cause }) (jobWiped s)

/-- Components are opened: the key is read where one of them is sealed, and an uncorrectable error in it wipes the Vault
(R409, R417, R522). True where every one of them opens. -/
def openAll (cs : List (Component × BitVec 256)) (s : State) : Bool × State :=
  let all := cs.all (fun x => opens x.1 x.2 s)
  if cs.any (·.1.isSealed) && vaultServes s && s.care.keysIn then
    let (ok, s) := keyRead s
    if ok then (all, s) else (false, wipeVault 4 s)
  else (all, s)

/-- A job's sealed content does not open: it ends with AUTH_FAIL, its banks cleared, where a wipe has not ended it already
(R418). -/
def jobShut (j : TuneJob) (s : State) : State := if s.boot.job == some j then jobEnds stAuth (jobClear s) else s

/-- The program part of a CELL_IMAGE_LOAD is written and measured (R103, R523). -/
def progLoaded (j : TuneJob) (m : Manifest) (c : Fin 32) (b : Fin 2) (s : State) : State :=
  match tuneComp m 4 j.tuning with
  | some x => measure 3 (compDigest m x) (loadProg c b (compDigest m x) j.image x.isSealed s)
  | none => s

/-- The coefficient part of a CELL_IMAGE_LOAD is written and measured (R103, R523). -/
def coefLoaded (j : TuneJob) (m : Manifest) (c : Fin 32) (b : Fin 2) (s : State) : State :=
  match tuneComp m 5 j.tuning with
  | some x => measure 4 (compDigest m x) (loadCoef c b (compDigest m x) j.image x.isSealed s)
  | none => s

/-- The bank or banks of a CELL_IMAGE_LOAD are written and measured, and it completes with its program's length (R103,
R523). -/
def imageWritten (j : TuneJob) (m : Manifest) (c : Fin 32) (p k : Bool) (s : State) : State :=
  let b := freeBanks (cellAt s c)
  let s := if p then progLoaded j m c b.1 s else s
  let s := if k then coefLoaded j m c b.2 s else s
  let l := if p then (cellAt s c).mem.pmeta[b.1].len else 0
  complete 0x010C j.mbx j.tag (BitVec.ofNat 8 stOk) [n2w l 0] (jobNext s)

/-- A CELL_IMAGE_LOAD has its blocks: the bank or banks are written and measured, or it ends without (R63, R103, R106,
R404, R523). -/
def imageLoaded (j : TuneJob) (m : Manifest) (c : Fin 32) (p k : Bool) (s : State) : State :=
  let has (x : Option Component) : Bool := match x with
    | some x => Config.imageIn (compDigest m x) j.image
    | none => false
  let short (x : Option Component) : Bool := match x with
    | some x => imageBad (progMetaOf (compDigest m x) j.image x.isSealed)
    | none => true
  if (p && (!has (tuneComp m 4 j.tuning) || short (tuneComp m 4 j.tuning))) || (k && !has (tuneComp m 5 j.tuning)) then
    jobEnds stBadArg s
  else
    let o := openAll ((jobComps j m).map (fun x => (x, compDigest m x))) s
    if !o.1 then jobShut j o.2 else imageWritten j m c p k o.2

/-- An opened TUNE_LOAD writes its banks and commits for `e`, or ends (R533, R543, R544). -/
def tuneOpened (j : TuneJob) (c4 c5 c6 : Component) (d4 d5 d6 : BitVec 256) (e : Nat) (s : State) : State :=
  if (tuneCells d4).any (fun c => tuneBadCell d4 d5 e c s) || tuneClash d4 || (tuneS d4 s && e % s.hive.dom.d != 0) then
    jobEnds stBadArg s
  else if e < effFrame s ∨ hiveHeld s ∨ hiveBars e s then jobEnds stTimeout s
  else
    let s := stageSealed c6.isSealed ([0, 1, 2].flatMap (Config.tuneGains d6)) (tuneBanks c4 c5 d4 d5 s)
    let s := tuneCommit j.tuning d4 d6 e s
    modBoot (fun b => { b with job := some { j with blocks := [], commit := some e } }) s

/-- A TUNE_LOAD has its blocks: it commits for E, or ends (R533, R543, R544). -/
def tuneLoaded (j : TuneJob) (m : Manifest) (s : State) : State :=
  match tuneComp m 4 j.tuning, tuneComp m 5 j.tuning, tuneComp m 6 j.tuning with
  | some c4, some c5, some c6 =>
    let d4 := compDigest m c4
    let d5 := compDigest m c5
    let d6 := compDigest m c6
    let e := if j.eff = 0 then (if tuneS d4 s then upTo s.hive.dom.d (effFrame s) else effFrame s) else j.eff
    let o := openAll [(c4, d4), (c5, d5), (c6, d6)] s
    if !o.1 then jobShut j o.2 else tuneOpened j c4 c5 c6 d4 d5 d6 e o.2
  | _, _, _ => jobEnds stBadArg s

/-- The blocks of a job are all verified. -/
def jobLoaded (s : State) : State :=
  match s.boot.job, s.boot.man with
  | some j, some m =>
    if !j.blocks.isEmpty || j.commit.isSome then s else
      match j.cell with
      | some (c, p, k) => imageLoaded j m c p k s
      | none => tuneLoaded j m s
  | _, _ => s

/-- The read of a job's next block ends (R522): verified, repeated once, or the job ends with MEDIA. -/
def jobBlock (media : Bool) (j : TuneJob) (s : State) : State :=
  match j.blocks, s.boot.man with
  | k :: ks, some m =>
    if !media && blockGood m (imageBlock k s) k then
      jobLoaded (modBoot (fun b => { b with job := some { j with blocks := ks, retried := false } }) s)
    else if j.retried then jobEnds stMedia s
    else modBoot (fun b => { b with job := some { j with retried := true } }) s
  | _, _ => s

end Sys2Proof.Machine
end

