-- ==== Sys2Proof/Machine/Memories.lean ====
section
/-! DEFINITION. Memory care: block power, error counts, Patrol's scrub and region tests, the Vault, and the 0x09xx
commands (R389 to R424). -/

namespace Sys2Proof.Machine

/-! ### Block power -/

/-- The code of a block's state (R421). -/
def powCodeOf : BlkPow → Nat
  | .on => 0
  | .retention => 1
  | .off => 2

/-- The state of a code (R421). -/
def powOf : Nat → BlkPow
  | 0 => .on
  | 1 => .retention
  | _ => .off

/-- Two bits a block in one word, block 0 in bits 1:0 (R424). -/
def powWord (ps : List BlkPow) : Word :=
  (ps.foldl (fun (p : Nat × Word) b => (p.1 + 2, p.2 ||| n2w (powCodeOf b) p.1)) (0, (0 : Word))).2

/-- A block of a cell loses its contents: zero, unmarked metadata, and every fresh mark set (R402). -/
def cellBlockLost (c : Fin 32) (b : Nat) (s : State) : State :=
  if b < 2 then clearProg c (bankIx (b == 1)) s
  else if b < 4 then clearCoef c (bankIx (b == 3)) s
  else
    let q := b - 4
    forget (fun w => w.cls == .cellData && w.unit == c.val && w.addr / 16384 == q)
      (modCell c (fun y => { y with mem := { y.mem with
        data := zeroMem y.mem.data (65536 * q) 65536
        written := y.mem.written.filter (fun g => g / 2048 ≠ q) } }) s)

/-- A Store segment loses its contents, every fresh mark set (R402). -/
def segLost (k : Nat) (s : State) : State :=
  forget (fun w => w.cls == .store && w.addr / 131072 == k)
    { s with hive := { s.hive with
        store := zeroMem s.hive.store (524288 * k) 524288
        storeWritten := s.hive.storeWritten.filter (fun g => g / 16384 ≠ k) } }

/-- A block of a cell goes to a state at the tick of E and is out of reach during that frame (R402). -/
def cellBlockTo (c : Fin 32) (dst : BlkPow) (b : Nat) (s : State) : State :=
  if vgetD (cellAt s c).mem.pow b .on = dst then s else
    let s := if dst = .off then cellBlockLost c b s else s
    modCare (fun x => { x with moving := (some c, b) :: x.moving })
      (modCell c (fun y => { y with mem := { y.mem with pow := vmodN y.mem.pow b (fun _ => dst) } }) s)

/-- A Store segment goes to a state at the tick of E and is out of reach during that frame (R402). -/
def segTo (dst : BlkPow) (k : Nat) (s : State) : State :=
  if vgetD s.hive.storePow k .on = dst then s else
    let s := if dst = .off then segLost k s else s
    modCare (fun x => { x with moving := (none, k) :: x.moving })
      { s with hive := { s.hive with storePow := vmodN s.hive.storePow k (fun _ => dst) } }

/-- MEM_POWER_SET takes effect (R402). -/
def memPowerNow (cell : Option (Fin 32)) (blocks : Word) (dst : BlkPow) (s : State) : State :=
  match cell with
  | some c => (bitsOf 8 blocks).foldl (fun s b => cellBlockTo c dst b s) s
  | none => (bitsOf 16 blocks).foldl (fun s k => segTo dst k s) s

/-- The descriptor sets in use or coming into use in a cell, each with the coefficient bank beside it (R403,
R413). -/
def comingSets (c : Fin 32) (s : State) : List (Vector (BitVec 64) 16 × Fin 2) :=
  let y := cellAt s c
  let d (b : Fin 2) : Vector (BitVec 64) 16 := y.mem.pmeta[b].desc
  ((0, y.role, y.actP, y.actC) :: progViews c s).filterMap (fun v =>
    if v.2.1.isSome then some (d v.2.2.1, v.2.2.2) else none)

/-- Some cell's descriptor reaches `n` Store words from `a` (R403, R413). -/
def storeReached (a n : Nat) (s : State) : Bool :=
  (List.finRange 32).any (fun c => (comingSets c s).any (fun x => x.1.toList.any (fun d => dReach d 2 a n)))

/-- Words a frame of a ring takes: c for F32, ceil(c / 2) for S16 (R450). -/
def ringFw (r : Ring) : Nat := if r.s16 then (r.c + 1) / 2 else r.c

/-- An enabled Forager ring's buffer reaches `n` Store words from `a` (R403, R413). -/
def ringReaches (a n : Nat) (s : State) : Bool :=
  s.p0.rings.toList.any (fun r => (r.st == .armed || r.st == .running) && r.kind != .copy &&
    decide (r.base < a + n) && decide (a < r.base + r.k * ringFw r))

/-- A region test of the Store runs, or is about to, in these words (R403). -/
def testInside (a n : Nat) (s : State) : Bool :=
  (s.care.phase != 0 || s.care.nextPhase.isSome) && !s.care.nextIsRam &&
    decide (256 * s.care.nextRegion.1 < a + n) && decide (a < 256 * s.care.nextRegion.1 + 256)

/-- A block of a cell may not leave ON (R403). -/
def cellBlockHeld (c : Fin 32) (b : Nat) (s : State) : Bool :=
  let y := cellAt s c
  let sets := comingSets c s
  if b < 2 then y.role.isSome && y.actP.val == b
  else if b < 4 then
    (y.role.isSome && y.actC.val == b - 2) ||
    sets.any (fun x => x.2.val == b - 2 && x.1.toList.any (fun d => dReach d 1 0 32768))
  else sets.any (fun x => x.1.toList.any (fun d => dReach d 0 (16384 * (b - 4)) 16384))

/-- A Store segment may not leave ON (R403). -/
def segHeld (k : Nat) (s : State) : Bool :=
  storeReached (131072 * k) 131072 s || ringReaches (131072 * k) 131072 s || testInside (131072 * k) 131072 s

/-- MEM_POWER_SET refused with STATE (R403, R420). -/
def memPowerWrong (r : Req) (s : State) : Bool :=
  let cells := argB r 3 0
  let c := cellIx (argF r 3 8 5)
  hiveHeld s || rateBusy s || rateStuck s ||
  (argF r 5 0 2 != 0 &&
    (if cells then (bitsOf 8 (arg r 4)).any (fun b => cellBlk (cellAt s c) b && cellBlockHeld c b s)
     else (bitsOf 16 (arg r 4)).any (fun k => vgetD s.hive.storePow k .on == .on && segHeld k s)))

/-- MEM_POWER_SET (R402, R420, R421). -/
def memPowerSetDef : CmdDef :=
  { opcode := 0x0901, minVer := 2
    bad := fun r s => badForm 5 r || badTarget r ||
      rsvd (arg r 3) (if argB r 3 0 then 0x1F01 else 1) || rsvd (arg r 4) (if argB r 3 0 then 0xFF else 0xFFFF) ||
      rsvd (arg r 5) 3 || argF r 5 0 2 == 3 || badE (arg64 r 6) s
    wrong := fun _ r s => memPowerWrong r s
    act := fun m r s =>
      let e := useE (arg64 r 6) s
      let cell := if argB r 3 0 then some (cellIx (argF r 3 8 5)) else none
      (stage m r.tag e (.memPower cell (arg r 4) (powOf (argF r 5 0 2))) s, stOk, pair64 e) }

/-- MEM_INFO (R424). -/
def memInfoDef : CmdDef :=
  { opcode := 0x0900, minVer := 1
    bad := fun r _ => badForm 0 r || badTarget r
    act := fun _ _ s =>
      (s, stOk, powWord s.hive.storePow.toList :: s.hive.cells.toList.map (fun y => powWord y.mem.pow.toList)) }

/-! ### Error counts and log -/

/-- The counts of one class (R423). -/
def eccWord (p : Nat × Nat) : Word := n2w p.1 16 ||| n2w p.2 8

/-- An error record, or zeros (R410). -/
def errRecord : Option (Word × Word × Word) → List Word
  | some (a, b, c) => [a, b, c]
  | none => [0, 0, 0]

/-- MEM_ECC_STATUS (R423, R424). -/
def memEccStatusDef : CmdDef :=
  { opcode := 0x0902, minVer := 1
    bad := fun r _ => badForm 0 r || badTarget r
    act := fun _ _ s => (s, stOk, s.care.ecc.toList.map eccWord) }

/-- MEM_ERR_READ (R410, R424). -/
def memErrReadDef : CmdDef :=
  { opcode := 0x0903, minVer := 2
    bad := fun r _ => badForm 0 r || badTarget r
    act := fun _ _ s => (s, stOk, errRecord s.care.first ++ errRecord s.care.latest) }

/-- MEM_CLEAR (R410, R420, R421). -/
def memClearDef : CmdDef :=
  { opcode := 0x0908, minVer := 2
    bad := fun r _ => badForm 1 r || badTarget r || rsvd (arg r 3) 7
    act := fun _ r s =>
      (modCare (fun c => { c with
        ecc := if argB r 3 0 then .replicate 8 (0, 0) else c.ecc
        first := if argB r 3 1 then none else c.first
        latest := if argB r 3 1 then none else c.latest
        offAcc := c.offAcc && !argB r 3 2 }) s, stOk, []) }

/-! ### Patrol -/

/-- MEM_PATROL_SET (R411, R412, R420, R421). -/
def memPatrolSetDef : CmdDef :=
  { opcode := 0x0904, minVer := 2
    bad := fun r _ => badForm 2 r || badTarget r || rsvd (arg r 3) 0x0FFF0003 || rsvd (arg r 4) 0x7FFFFF ||
      argF r 3 16 12 == 0 || decide (3600 < argF r 3 16 12) || decide (argF r 4 0 23 < 480) ||
      decide (4800000 < argF r 4 0 23)
    act := fun _ r s =>
      (modCare (fun c => { c with
        scrub := argB r 3 0, region := argB r 3 1, period := argF r 3 16 12, interval := argF r 4 0 23 }) s, stOk, []) }

/-- MEM_PATROL_STAT (R422). -/
def patrolStat (s : State) : Word :=
  n2w s.hearth.pmPhase.toNat 30 ||| b2w s.care.scrub 29 ||| b2w s.care.region 28 ||| b2w s.care.recovered 27 |||
  b2w s.care.offAcc 26 ||| n2w s.care.passes 8

/-- MEM_PATROL_STATUS (R424). -/
def memPatrolStatusDef : CmdDef :=
  { opcode := 0x0905, minVer := 2
    bad := fun r _ => badForm 0 r || badTarget r
    act := fun _ _ s =>
      (s, stOk, patrolStat s :: pair64 (patrolMark s) ++ [n2w s.care.lastRegion.1 0, n2w s.care.lastRegion.2 0]) }

/-- The engine of Patrol runs (R411). -/
def patrolOn (s : State) : Bool := poweredUp s && !s.pow.ianikRst

/-- Patrol reads this word now: its block is ON, its group holds no fresh mark, the sequencer that serves its memory runs,
and a cell is past its window, in the Chimney and Outlet phases of its domain; a queue entry is applied within one step, so
none is being applied (R394, R411, log entry 73). -/
def scrubs (w : WordAt) (s : State) : Bool :=
  let c := cellIx w.unit
  let y := cellAt s c
  let past : Bool := match cellDom y with
    | some d => y.zeroFrame || decide (winLen d s.hive.dom.m s.hive.dom.d ≤ y.run.slot)
    | none => false
  let cellOn (b : Nat) : Bool := hiveRuns s && past && cellBlkOn c b s
  match w.cls with
  | .store => patrolOn s && hiveRuns s && segOn (w.addr / 131072) s && s.hive.storeWritten.contains (storeGroup w.addr)
  | .cellData => cellOn (4 + w.addr / 16384) && (cellAt s c).mem.written.contains (w.addr / 8)
  | .program => cellOn (w.bank % 2)
  | .coef => cellOn (2 + w.bank % 2)
  | .comb | .bridge => false
  | .ianikRam | .mailboxRam => patrolOn s
  | .vault => patrolOn s && vaultServes s

/-- What Patrol does about an uncorrectable error in a word outside the Store (R409). -/
def scrubBad (w : WordAt) (s : State) : State :=
  match w.cls with
  | .cellData => wrData (cellIx w.unit) w.addr 0 s
  | .vault => wipeVault 4 s
  | _ => s

/-- Patrol reads a word of a pass and treats what it finds; a Store word in a free turn of its bank (R390, R408, R409,
R411). -/
def scrubWord (w : WordAt) (s : State) : State :=
  if w.cls = .store then (rdStoreX .patrol w.addr s).2
  else
    let (ok, s) := patrolWord w s
    if ok then s else scrubBad w s

/-! The words of a pass of the engine are numbered through: the Store, the mailbox RAM, Ianik RAM, the Vault. The cell
scrubbers cover the cells' memories beside it (R411, log entry 24). -/

/-- The number of a word in a pass. -/
def passIx (w : WordAt) : Option Nat :=
  match w.cls with
  | .store => some w.addr
  | .mailboxRam => some (2097152 + w.addr)
  | .ianikRam => some (2113536 + w.addr)
  | .vault => some (2375680 + w.addr)
  | _ => none

/-- Word `a` joins the ranges of words read, which are rising and apart. -/
def cover (a : Nat) : List (Nat × Nat) → List (Nat × Nat)
  | [] => [(a, a + 1)]
  | (x, y) :: r =>
    if a + 1 < x then (a, a + 1) :: (x, y) :: r
    else if a + 1 = x then (a, y) :: r
    else if a < y then (x, y) :: r
    else if a = y then
      match r with
      | (x2, y2) :: r2 => if x2 = y + 1 then (x, y2) :: r2 else (x, y + 1) :: r
      | [] => [(x, y + 1)]
    else (x, y) :: cover a r

/-- What lies between the ranges, from `a` on: the words not read yet. -/
def gaps (a : Nat) : List (Nat × Nat) → List (Nat × Nat)
  | [] => [(a, 2441216)]
  | (x, y) :: r => (a, x) :: gaps y r

/-- Some word of a range is still to be read in this pass: one of an ON segment whose group holds no fresh mark, or one of
a memory that is always ON; the Vault not while it refuses (R394, R411, R417). -/
def passNeeds (s : State) (g : Nat × Nat) : Bool :=
  let stop := if vaultServes s then 2441216 else 2375680
  decide (max g.1 2097152 < min g.2 stop) ||
  (hiveRuns s && s.hive.storeWritten.any (fun k => (List.range 8).any (fun r =>
    let a := k / 64 * 512 + r * 64 + k % 64
    decide (g.1 ≤ a) && decide (a < g.2) && segOn (a / 131072) s)))

/-- A word of the pass has been read; the pass that has read all its words is counted, and the next begins (R411, R422). -/
def passRead (w : WordAt) (s : State) : State :=
  match passIx w with
  | none => s
  | some k =>
    let l := cover k s.care.scrubbed
    if (gaps 0 l).any (passNeeds s) then modCare (fun c => { c with scrubbed := l }) s
    else modCare (fun c => { c with scrubbed := [], passes := stick 0x3FFFF c.passes }) s

/-- PATROL_SCRUB_READ: one word of a pass is read and treated (R408, R409, R411). -/
def execPatrolScrubRead (w : WordAt) (ups : List Upset) (s : State) : Host.Outcome State Fault Refusal :=
  let s := strike ups s
  .next (if s.care.scrub && scrubs w s then passRead w (scrubWord w s) else s)

/-! ### Region tests -/

/-- The byte address of the save buffer, the last 1 KiB of IB7 (R412). -/
def saveBuf : Nat := 0xFFC00

/-- The words of the save buffer as the copy was made: what the CRC of the marker covers. -/
def savedWords (s : State) : List Word := rdWs s.care.ianikRam saveBuf 256

/-- Patrol reads `n` words of Ianik RAM from word `k`; one with an uncorrectable error reads 0 and stays (R408, R409). -/
def patrolRams (k : Nat) : Nat → State → List Word × State
  | 0, s => ([], s)
  | n + 1, s =>
    let (ok, s) := patrolWord ⟨.ianikRam, 0, 0, k⟩ s
    let (ws, s) := patrolRams (k + 1) n s
    ((if ok then rdW s.care.ianikRam (4 * k) else 0) :: ws, s)

/-- Write words of Ianik RAM. -/
def wrRam (a : Nat) (ws : List Word) (s : State) : State :=
  modCare (fun c => { c with ianikRam := wrWs c.ianikRam a ws })
    (healWords (fun k => ⟨.ianikRam, 0, 0, k⟩) ((List.range ws.length).map (a / 4 + ·)) s)

/-- The region under test: its memory and number. -/
def testRegion (s : State) : Bool × Nat :=
  (s.care.nextIsRam, if s.care.nextIsRam then s.care.nextRegion.2 else s.care.nextRegion.1)

/-- Read the region of 256 words (R412). -/
def regionRead (ram : Bool) (r : Nat) (s : State) : List Word × State :=
  if ram then patrolRams (256 * r) 256 s else rdStoresX .patrol (256 * r) 256 s

/-- Write the region of 256 words (R412). -/
def regionWrite (ram : Bool) (r : Nat) (ws : List Word) (s : State) : State :=
  if ram then wrRam (1024 * r) ws s else wrStoresX .patrol (256 * r) ws s

/-- Word `i` of a region as the error log names it. -/
def regionWord (ram : Bool) (r i : Nat) : WordAt := ⟨if ram then .ianikRam else .store, 0, 0, 256 * r + i⟩

/-- SAVE: the region is copied to the save buffer (R412). -/
def regionSave (s : State) : State :=
  let g := testRegion s
  let (ws, s) := regionRead g.1 g.2 s
  wrRam saveBuf ws s

/-- The region after the one just tested (R412, log entry 23). -/
def regionAdvance (s : State) : State :=
  let g := testRegion s
  let last := decide ((if g.1 then 895 else 8191) ≤ g.2)
  let n := if last then 0 else g.2 + 1
  let s := modCare (fun c => { c with
    lastRegion := if g.1 then (c.lastRegion.1, g.2) else (g.2, c.lastRegion.2)
    nextRegion := if g.1 then (c.nextRegion.1, n) else (n, c.nextRegion.2)
    nextIsRam := if last then !g.1 else g.1 }) s
  if last && g.1 then { s with hearth := { s.hearth with pmPass := (s.hearth.pmPass + 1) % 65536 } } else s

/-- The region could not be restored: it reads 0, and its first word is logged (R415, log entry 23). -/
def regionBroken (ram : Bool) (r : Nat) (s : State) : State :=
  countUnc (regionWord ram r 0) 0 true (regionWrite ram r (List.replicate 256 0) s)

/-- The marker and the engine go to idle (R412, R414). -/
def regionIdle (s : State) : State :=
  modCare (fun c => { c with phase := 0, nextPhase := none }) { s with hearth := { s.hearth with pmPhase := 0 } }

/-- A word failed the March test: logged with a free syndrome (R412, log entry 23). -/
def regionFailed (i : Nat) (s : State) : State :=
  let g := testRegion s
  let (w, s) := drawWord s
  if i < 256 then countUnc (regionWord g.1 g.2 i) (w.extractLsb' 0 7) true s else s

/-- REGION_INTERVAL_EXPIRY: the region interval is over and the next begins: a region test is due (R412). -/
def execRegionIntervalExpiry (s : State) : Host.Outcome State Fault Refusal :=
  .next (if s.care.region && patrolOn s && decide (s.care.intervalFrom + s.care.interval ≤ s.stove.frame) then
    modCare (fun c => { c with due := true, intervalFrom := s.stove.frame }) s else s)

/-- The region that is next may be tested now: one of the Store only after the doorbell strobe of this frame, while the Hive
serves it, and where nothing reaches it (R413, log entry 73). -/
def regionFree (s : State) : Bool :=
  let g := testRegion s
  g.1 || (s.care.strobeAt == some s.stove.frame && hiveRuns s && !storeReached (256 * g.2) 256 s && !ringReaches (256 * g.2) 256 s)

/-- REGION_TEST_START: after a doorbell strobe, the engine asks the Hearth for SAVE (R412 to R414). -/
def execRegionTestStart (s : State) : Host.Outcome State Fault Refusal :=
  if s.care.due ∧ s.care.region ∧ patrolOn s ∧ s.care.phase = 0 ∧ s.care.nextPhase = none ∧ regionFree s then
    .next (modCare (fun c => { c with due := false, nextPhase := some 1, startFrame := s.stove.frame }) s)
  else .next s

/-- PATROL_MARKER_ACK: the Hearth holds the marker, and the engine enters the phase it names (R414). -/
def execPatrolMarkerAck (s : State) : Host.Outcome State Fault Refusal :=
  match s.care.nextPhase with
  | none => .next s
  | some p =>
    let g := testRegion s
    .next { modCare (fun c => { c with phase := p, nextPhase := none }) s with hearth := { s.hearth with
      pmPhase := p, pmMem := g.1, pmRegion := g.2
      pmCrc := if p = 2 ∨ (p = 3 ∧ s.care.phase = 1) then crc32 (wordsToBytes (savedWords s)) else s.hearth.pmCrc } }

/-- Patrol reads the save buffer (R408, R412). -/
def savedRead (s : State) : List Word × State := patrolRams (saveBuf / 4) 256 s

/-- RESTORE ends: the region is rewritten from the save buffer, and reads back or not (R412, R414). -/
def regionRestore (readBackOk : Bool) (s : State) : State :=
  let g := testRegion s
  let p := savedRead s
  let s := regionWrite g.1 g.2 p.1 p.2
  regionAdvance (regionIdle (if readBackOk then s else regionBroken g.1 g.2 s))

/-- REGION_TEST_PHASE_END: the SAVE copy, the March test or the RESTORE read-back finishes (R412, R413). -/
def execRegionTestPhaseEnd (failed : List Nat) (readBackOk : Bool) (s : State) : Host.Outcome State Fault Refusal :=
  if s.care.nextPhase.isSome then .next s else
  let g := testRegion s
  match s.care.phase.toNat with
  | 1 => .next (modCare (fun c => { c with nextPhase := some 2 }) (regionSave s))
  | 2 =>
    let s := failed.foldl (fun s i => regionFailed i s) (regionWrite g.1 g.2 (List.replicate 256 0) s)
    .next (modCare (fun c => { c with nextPhase := some 3 }) s)
  | 3 => .next (regionRestore readBackOk s)
  | _ => .next s

/-- A Store region test that has not reached RESTORE by the tick of the next M frame enters it at once, and RESTORE has
ended by the tick after that (R413, log entry 23). -/
def regionForced (n : Nat) (s : State) : State :=
  if s.care.nextIsRam ∨ n ≤ s.care.startFrame then s
  else if s.care.phase = 0 then
    (if s.care.nextPhase.isSome then modCare (fun c => { c with nextPhase := none, due := true }) s else s)
  else if s.care.startFrame + 2 ≤ n then regionRestore true s
  else if s.care.phase = 3 ∨ s.care.nextPhase = some 3 then s
  else
    let s := if s.care.phase = 1 ∧ s.care.nextPhase = none then regionSave s else s
    modCare (fun c => { c with nextPhase := some 3 }) s

/-- A Hive hold abandons a Store region test, also one that an Ianik reset has interrupted and that its marker still names
(R415). -/
def regionHold (s : State) : State :=
  if ((s.care.phase ≠ 0 ∨ s.care.nextPhase.isSome) ∧ !s.care.nextIsRam) ∨
      (s.pow.ianikRst ∧ s.hearth.pmPhase ≠ 0 ∧ !s.hearth.pmMem) then
    modCare (fun c => { c with recovered := true, due := true }) (regionIdle s)
  else s

/-- The recovery after an Ianik reset that interrupted a region test (R415). -/
def regionRecover (s : State) : State :=
  let m := s.hearth.pmMem
  let r := s.hearth.pmRegion
  let p := s.hearth.pmPhase
  let s := modCare (fun c => { c with recovered := decide (p ≠ 0), due := c.due || decide (p = 1) }) s
  let s := if p = 2 ∨ p = 3 then
      let q := savedRead s
      if crc32 (wordsToBytes q.1) = q.2.hearth.pmCrc then regionWrite m r q.1 q.2 else regionBroken m r q.2
    else s
  regionIdle s

/-! ### The Vault -/

/-- The VAULT_WIPE commands that wait end with a status. -/
def vaultCmdsEnd (status : Nat) (s : State) : State :=
  s.care.cmds.foldl (fun s c => complete 0x0906 c.1 c.2 (BitVec.ofNat 8 status) [] s)
    (modCare (fun c => { c with cmds := [] }) s)

/-- VAULT_WIPE (R417, R420, R424). -/
def vaultWipeDef : CmdDef :=
  { opcode := 0x0906, minVer := 2, deferred := true
    needs := fun _ _ _ => true
    bad := fun r _ => badForm 0 r || badTarget r
    act := fun m r s =>
      let s := defer 0x0906 m r.tag none s
      if s.care.locked then (complete 0x0906 m r.tag (BitVec.ofNat 8 stState) [] s, stDeferred, [])
      else (modCare (fun c => { c with cmds := c.cmds ++ [(m, r.tag)] }) (wipeVault 3 s), stDeferred, []) }

/-- VAULT_STATUS (R424). -/
def vaultStatusDef : CmdDef :=
  { opcode := 0x0907, minVer := 2
    bad := fun r _ => badForm 0 r || badTarget r
    act := fun _ _ s =>
      (s, stOk, [b2w s.care.wiping 0 ||| b2w s.care.locked 1 ||| n2w s.care.wipes 8 ||| n2w s.care.cause 16]) }

/-- VAULT_WIPE_COMPLETE: the read-back finds every word zero, or repeats the wipe once and then locks the Vault
(R417, R419, R424). -/
def execVaultWipeComplete (clean : Bool) (s : State) : Host.Outcome State Fault Refusal :=
  if !s.care.wiping || !patrolOn s then .next s
  else if clean then
    let boots := s.boot.booted && decide (s.care.cause = 5)
    let s := vaultCmdsEnd stOk (forget (fun w => w.cls == .vault)
      (modCare (fun c => { c with wiping := false, repeated := false, vault := [] }) s))
    .next (if boots then deriveKeys s else s)
  else if !s.care.repeated then .next (modCare (fun c => { c with repeated := true }) s)
  else
    let s := modCare (fun c => { c with wiping := false, repeated := false, locked := true }) s
    let s := { s with flt := { s.flt with vault := true } }
    .next (vaultCmdsEnd stState (logFault 0x09 0 s))

/-! ### Meanings -/

/-- MEM_INFO (R424). -/
def execMemInfo (m : Fin 4) (r : Req) (s : State) : Host.Outcome State Fault Refusal :=
  .next (mbxCommand memInfoDef m r s)
/-- MEM_POWER_SET (R402). -/
def execMemPowerSet (m : Fin 4) (r : Req) (s : State) : Host.Outcome State Fault Refusal :=
  .next (mbxCommand memPowerSetDef m r s)
/-- MEM_ECC_STATUS (R423). -/
def execMemEccStatus (m : Fin 4) (r : Req) (s : State) : Host.Outcome State Fault Refusal :=
  .next (mbxCommand memEccStatusDef m r s)
/-- MEM_ERR_READ (R410). -/
def execMemErrRead (m : Fin 4) (r : Req) (s : State) : Host.Outcome State Fault Refusal :=
  .next (mbxCommand memErrReadDef m r s)
/-- MEM_PATROL_SET (R421). -/
def execMemPatrolSet (m : Fin 4) (r : Req) (s : State) : Host.Outcome State Fault Refusal :=
  .next (mbxCommand memPatrolSetDef m r s)
/-- MEM_PATROL_STATUS (R424). -/
def execMemPatrolStatus (m : Fin 4) (r : Req) (s : State) : Host.Outcome State Fault Refusal :=
  .next (mbxCommand memPatrolStatusDef m r s)
/-- VAULT_WIPE (R417). -/
def execVaultWipe (m : Fin 4) (r : Req) (s : State) : Host.Outcome State Fault Refusal :=
  .next (mbxCommand vaultWipeDef m r s)
/-- VAULT_STATUS (R424). -/
def execVaultStatus (m : Fin 4) (r : Req) (s : State) : Host.Outcome State Fault Refusal :=
  .next (mbxCommand vaultStatusDef m r s)
/-- MEM_CLEAR (R421). -/
def execMemClear (m : Fin 4) (r : Req) (s : State) : Host.Outcome State Fault Refusal :=
  .next (mbxCommand memClearDef m r s)

end Sys2Proof.Machine
end

