-- ==== Sys2Proof/Machine/Resets.lean ====
section
/-! DEFINITION. Resets, holds and releases of islands, Hearth-safe, and the ways between the power states (R25 to
R34, R55 to R57, R155, R394, R406, R415, R457, R483, R493, R508). -/

namespace Sys2Proof.Machine

/-! ### Crossings -/

/-- The events whose source is the Hive. -/
def hiveEvts : List Nat := [8, 9, 10, 12, 13, 14, 23, 48, 49]

/-- The events whose source is Ianik; EV0 to EV3 and EV11 have a second source (R492, R81). -/
def ianikEvts : List Nat := [0, 1, 2, 3, 4, 5, 11, 15, 53, 61]

/-- The events whose source is the Hearth, which a system reset leaves. -/
def hearthEvts : List Nat := [6, 7, 56, 57, 58, 59, 60, 62, 63]

/-- A change staged in the Hive (R42, R56). -/
def hiveChange : Change → Bool
  | .combMap _ _ _ _ | .combCommit _ | .bridgeMode _ _ | .testgen _ _ _ _ | .memPower _ _ _ | .ringStart _ | .ringStop _
  | .tune _ _ _ | .autoTune _ _ _ => true
  | _ => false

/-- A change staged in the Bellows. -/
def belChange : Change → Bool
  | .belConfig _ _ | .belLoop _ _ | .belEnable _ _ | .belMute _ _ | .belCarrier _ _ | .belFaultClear _ _
  | .belPolicy _ _ | .belMeasure _ _ => true
  | _ => false

/-- A command whose effect a Hive hold leaves unapplied (R57). -/
def holdCuts (op : Nat) : Bool :=
  [0x0101, 0x0102, 0x0103, 0x0104, 0x0105, 0x0106, 0x0107, 0x0109, 0x010A, 0x0201, 0x0205, 0x0302, 0x0304, 0x0901,
    0x0A05].contains op

/-- A command sampled and not answered yet completes with TIMEOUT, as its change stays unapplied (R42, R57, R165). -/
def holdMbx (m : Fin 4) (s : State) : State :=
  match s.mbx[m].resp with
  | some p =>
    if s.mbx[m].st == .busy && holdCuts p.opcode.toNat && p.status.toNat == stOk then
      let s := modMbx m (fun b => { b with resp := some { p with status := BitVec.ofNat 8 stTimeout, payload := [] } }) s
      if p.opcode.toNat = 0x0201 ∨ p.opcode.toNat = 0x0205 then ev15 p.opcode.toNat stTimeout ⟨0, 0, 0, 0, 0, []⟩ s else s
    else s
  | none => s

/-! ### Holds -/

/-- A cell in reset: its banks, their metadata and the power of its blocks stay (R72, R406). -/
def cellHeld (y : Cell) : Cell := { mem := y.mem, clearing := y.clearing }

/-- The slot buffers of the ports and the chains lose their tags (R57). -/
def slotsReset (s : State) : State :=
  { s with
    rx := s.rx.map (fun y => { y with buf := .replicate 4 none })
    tx := s.tx.map (fun y => { y with buf := .replicate 4 none })
    hw := s.hw.map (fun c => { c with
      inM := .replicate 4 none, inS := .replicate 4 none, inF := .replicate 4 none
      outM := .replicate 4 none, outS := .replicate 4 none, outF := .replicate 4 none }) }

/-- A rate change that the hold ends: its command completes with TIMEOUT (R57, R192). -/
def rateHeld (s : State) : State :=
  let t := modDom (fun y => { y with phase := .running, stuck := false, change := none }) s
  match s.hive.dom.change with
  | some x => complete 0x0301 x.mbx x.tag (BitVec.ofNat 8 stTimeout) (pair64 0) t
  | none => t

/-- The burst of a ring that PSP0 has under way finishes for nobody, as what `why` says: the ring has discarded its
descriptors (R457). -/
def orphan (p : Fin 16 → Bool) (why : P0For) (f : Flash) : Flash :=
  let cut (q : P0Req) : P0Req := match q.why with
    | .ring r => if p r then { q with why := why } else q
    | _ => q
  { f with cur := f.cur.map cut, polled := f.polled.map (fun x => (cut x.1, x.2)) }

/-- What ends when the Hive sequencer is held: the messages on their way, the commands and loads that wait for the Hive,
the rate change, the region test, the Hive's events and the rings (R57, R406, R415, R457, R602). -/
def hiveEnds (s : State) : State :=
  let lost := s.hive.transit ++ s.ianik.stalled ++ s.hive.cells.toList.flatMap (·.queue)
  let s := { s with ianik := { s.ianik with stalled := [] } }
  let s := lost.foldl (fun s q => entryLost q s) s
  let s := (List.finRange 4).foldl (fun s m => holdMbx m s) s
  let s := (s.boot.job.toList ++ s.boot.jobs).foldl (fun s _ => jobEnds stTimeout s) s
  let s := rateHeld (regionHold s)
  let s := unstage (fun x => hiveChange x.chg) s
  let s := dropEvts 0 hiveEvts (slotsReset s)
  let s := modP0 (fun p => { orphan (fun _ => true) .cut p with rings := .replicate 16 {} }) s
  modCare (fun c => { c with moving := [] }) s

/-- The Hive's registers at reset; its memories keep their words (R56, R415). -/
def hiveClear (s : State) : State :=
  { s with
    pow := { s.pow with seqHive := false }
    hive := { s.hive with
      cells := s.hive.cells.map cellHeld, combs := .replicate 3 {}, bridges := .replicate 4 {}
      gens := .replicate 24 {}, transit := [], firstFrame := none, monitors := .replicate 4 none
      playback := [], playNext := [], capture := [], free := [], cycle := 0, belM := .replicate 4 none, belF := .replicate 4 none, belLL := [] }
    bel := { s.bel with ch := s.bel.ch.map (fun y => { y with histLL := [] }) } }

/-- The Hive sequencer is held: the Hive and every crossing that ends in it are reset (R56, R57, R406, R415, R457,
R602). -/
def hiveHold (s : State) : State := hiveClear (hiveEnds s)

/-- The impedance measurements of every channel end with STATE (R236). -/
def measuresEnd (s : State) : State := (List.finRange 32).foldl (fun s c => endMeasure c stState s) s

/-- What ends when the Bellows sequencer is held: its measurements, staged changes and events. The Damper keeps what it
last sent, and the receivers in the Bellows take their reset values (R45, R55 to R57). -/
def bellowsEnds (s : State) : State :=
  let s := measuresEnd s
  dropEvts 2 [40, 41] (unstage (fun x => belChange x.chg) s)

/-- The Bellows's registers at reset, and the copies of its monitors and streams in the Hive (R56). -/
def bellowsClear (s : State) : State :=
  { s with
    pow := { s.pow with seqBel := false }, bel := {}
    hive := { s.hive with monitors := .replicate 4 none, belM := .replicate 4 none, belF := .replicate 4 none, belLL := [] } }

/-- The Bellows sequencer is held: the Bellows and its crossings are reset (R56, R57). -/
def bellowsHold (s : State) : State := bellowsClear (bellowsEnds s)

/-- Every control transaction of a chain ends with TIMEOUT, and a HW_WALK that waits for its frame with STATE, as the
chain is held (R356, R360). -/
def xactsEnd (x : Fin 2) (s : State) : State :=
  let c := s.hw[x]
  let s := (c.queue ++ (match c.out with
    | some o => [o.1]
    | none => [])).foldl (fun s q => if q.why = .walk then s else xactEnds x stTimeout q s) s
  let s := c.maps.foldl (fun s p => complete 0x0704 p.mbx p.tag (BitVec.ofNat 8 stTimeout) [] s) s
  c.cmdPend.foldl (fun s q => walkDone stState q.2.1 q.2.2 c s) s

/-- A chain's sequencer is held: the line and its crossings are reset (R56, R57). -/
def chainHold (x : Fin 2) (s : State) : State :=
  let s := xactsEnd x (endWalk x 10 s)
  let s := unstage (fun p => match p.chg with
    | .slotMap y _ _ _ _ _ => y == x
    | _ => false) s
  let s := dropEvts (24 + x.val) ((List.range 4).map (32 + 4 * x.val + ·)) s
  modHw x hwHold { s with pow := { s.pow with seqHw := s.pow.seqHw.set x false } }

/-! ### Releases -/

/-- The Hive sequencer is released so that `n` is its first frame: every gain is +0.0, every map entry 0, every epoch
0, and every fresh mark set (R27, R72, R155, R394, R498). -/
def releaseHive (n : Nat) (s : State) : State :=
  let s := modDom (fun y => { y with phase := .running }) s
  let s := forget (fun w => w.cls == .store || w.cls == .cellData || w.cls == .comb) s
  let s := { s with
    hive := { s.hive with
      firstFrame := some n, store := [], storeWritten := [], combs := .replicate 3 {}, bridges := .replicate 4 {}
      gens := .replicate 24 {}
      cells := s.hive.cells.map (fun y => { y with mem := { y.mem with data := [], written := [] } }) } }
  portsStart n s

/-- A chain's sequencer is released; an automatic chain starts its walk (R343, R348). -/
def releaseChain (n : Nat) (x : Fin 2) (s : State) : State :=
  modHw x (fun c => { c with retryFrom := if c.auto then some n else none }) s

/-- The sequencers that a release names and that are not released yet go at the tick of frame `n` (R498). -/
def releaseNow (n : Nat) (hive bel a b : Bool) (s : State) : State :=
  if s.pow.st ≠ .standby ∧ s.pow.st ≠ .run then s else
    let h := hive && !s.pow.seqHive
    let on := s.pow.seqHive || h
    let a := a && !s.pow.seqHw[0] && on
    let b := b && !s.pow.seqHw[1] && on
    let s := { s with pow := { s.pow with
      st := if h then .run else s.pow.st, seqHive := on, seqBel := s.pow.seqBel || (bel && on)
      seqHw := #v[s.pow.seqHw[0] || a, s.pow.seqHw[1] || b] } }
    let s := if h then releaseHive n s else s
    let s := if a then releaseChain n 0 s else s
    if b then releaseChain n 1 s else s

/-! ### To STANDBY and to HEARTH -/

/-- The RUN to STANDBY transition starts at the tick of frame `n`: every channel mutes and is disabled, the line
power goes off, and the ports tail out (R26, R305, R498). A transition without a command gives way to one that a
command has asked for (R554). -/
def toStandbyNow (cmd : Option (Nat × BitVec 16)) (n : Nat) (s : State) : State :=
  let asked := cmd.isNone && s.ianik.staged.any (fun x => match x.chg with
    | .toStandby (some _) => true
    | _ => false)
  if s.pow.st ≠ .run ∨ asked = true then s else
    let s := { s with
      pow := { s.pow with st := .runToStandby }, ianik := { s.ianik with standbyCmd := some cmd } }
    let s := measuresEnd s
    let s := if s.pow.seqBel then belEnableNow n 0xFFFFFFFF false s else s
    let s := if s.pow.seqHw[0] then hwPowerOff 0 s else s
    let s := if s.pow.seqHw[1] then hwPowerOff 1 s else s
    portsStop n s

/-- The device is in STANDBY, and the command that asked for it completes with the frame of the halt (R26, R498). -/
def standbyAnswer (n : Nat) (s : State) : State :=
  let cmd := s.ianik.standbyCmd
  let s := { s with pow := { s.pow with st := .standby }, ianik := { s.ianik with standbyCmd := none } }
  match cmd with
  | some (some c) => complete 0x0002 c.1 c.2 (BitVec.ofNat 8 stOk) (pair64 n) s
  | _ => s

/-- A system reset that waits for STANDBY is staged for the next frame (R499). -/
def standbyResets (n : Nat) (s : State) : State :=
  if s.pow.sysResetPends then
    stageOwn (addF n 1) .systemReset { s with pow := { s.pow with sysResetPends := false } }
  else s

/-- The ports stop with the device, with their balls low (R26, R305, R498). -/
def portsOff (s : State) : State :=
  { s with
    rx := s.rx.map (fun (y : PortSide) => { y with st := .off })
    tx := s.tx.map (fun (y : PortSide) => { y with st := .off, pin := [] }) }

/-- The transition is complete: every sequencer is held, and the command completes with the frame of the halt (R26,
R498, R499). -/
def standbyDone (s : State) : State :=
  standbyResets s.stove.frame (standbyAnswer s.stove.frame
    (portsOff (chainHold 1 (chainHold 0 (bellowsHold (hiveHold s))))))

/-- A commanded HEARTH entry starts (R26, R579). -/
def toHearthNow (s : State) : State :=
  if s.pow.st = .standby then { s with pow := { s.pow with st := .standbyToHearth } } else s

/-! ### The system reset -/

/-- What the system reset leaves of the memory care: the wipe of the Vault that it starts, and, where it interrupted a
region test, the region that is tested first (R415, R417, R422). -/
def careAfter (s : State) : MemCare :=
  let cut := s.hearth.pmPhase != 0
  let r : Nat × Nat := if s.hearth.pmMem then (0, s.hearth.pmRegion) else (s.hearth.pmRegion, 0)
  { wiping := true, wipes := 1, cause := 5, recovered := cut, nextIsRam := cut && s.hearth.pmMem
    nextRegion := if cut then r else (0, 0) }

/-- The profile of select code 0 as the fuses give it at a reset, its exit frame due where PSP_CONT is set (R429, R431). -/
def fuseProfile (s : State) : Profile :=
  { s.boot.fuses.prof0 with cont := false, exitDue := s.boot.fuses.prof0.w4.getLsbD 7 }

/-- A system reset: every island but the Hearth and every crossing is reset, and the device is in HEARTH (R9, R26,
R56, R57). The Hearth keeps its own state; the fuses and the flash keep theirs. -/
def systemReset (s : State) : State :=
  { pending := s.pending, fresh := s.fresh, scan := s.scan, keeper := s.keeper
    pow := { s.pow with
      st := .hearth, seqHive := false, seqBel := false, seqHw := .replicate 2 false, ianikRst := false, rstLast := 0
      sysResetPends := false, sawStandby := false }
    flt := { s.flt with vault := false }
    hearth := { s.hearth with wdWindow := 0, wdTotal := 0, wdRestarted := false, thermPends := false, pmPhase := 0 }
    evt := { s.evt with
      acc := vmap s.evt.acc (fun i a => if hearthEvts.contains i.val then a else sget 0 s.evt.parts (32 * i.val + 5))
      parts := s.evt.parts.filter (fun p => p.1 % 32 = 5)
      pend := 0, mask := 0x7000000000000000, recMask := 0xFFFFFFFFFFFFFFE0, ringSeq := 0, head := 0, tail := 0
      dropped := 0, waiting := [] }
    care := careAfter s
    p0 := { mem := s.p0.mem, prof := (Vector.replicate 15 ({} : Profile)).set 0 (fuseProfile s) }
    boot := { fuses := s.boot.fuses } }

/-- The device goes OFF: nothing but the fuses and the flash keeps a value, and the levels of balls and rails stand; what
comes back is the reset of the next rise of VDD_HEARTH, which ends an open presence window (R25, R26, R488). -/
def powerLost (s : State) : State :=
  { pending := s.pending, fresh := s.fresh
    pow := { st := .off, lc := s.pow.lc, rails := s.pow.rails, rstN := s.pow.rstN, wakePin := s.pow.wakePin
             bootSel := s.pow.bootSel }
    keeper := { isOpen := s.keeper.isOpen }
    p0 := { mem := s.p0.mem, prof := (Vector.replicate 15 ({} : Profile)).set 0 (fuseProfile s) }
    boot := { fuses := s.boot.fuses } }

/-! ### The Ianik reset -/

/-- The data of an abandoned write burst go back to its descriptor, which sends them again (R453, R457). -/
def giveBack (f : Flash) (q : P0Req) : Flash :=
  match q.why with
  | .ring r =>
    if q.write then { f with rings := vmod f.rings r (fun x => match x.descs with
        | d :: ds => { x with descs := { d with carry := bytesToWords q.data ++ d.carry } :: ds }
        | [] => x) }
    else f
  | _ => f

/-- The write under way as PSP0 is reset is cut (R457). -/
def writeCut (s : State) : State :=
  match s.p0.cur with
  | some q =>
    let q := p0Page q s
    if q.write && !q.erase && q.sel == 0 && !q.bare && !enables q s then flashCut q.addr (q.data.take q.len) s else s
  | none => s

/-- PSP0 is reset: a burst or fill under way is abandoned, the prefetch buffer is empty, its counts and flags take their
reset values, and every device that may be in continuous-read mode is to have its exit frame (R9, R431, R435, R457,
R458). The tag table stays locked until the next system reset (R437). -/
def psp0Reset (s : State) : State :=
  modP0 (fun p =>
    let p := (p.cur.toList ++ p.polled.map (·.1)).foldl giveBack p
    { p with
    prof := p.prof.map (fun y => { y with cont := false, exitDue := y.w4.getLsbD 7 })
    tagFail := 0, mediaCnt := 0, lastSel := 15, evTag := false, evMedia := false
    lines := [], stalled := none, queue := [], cur := none, filled := [], polled := [], frame := none }) (writeCut s)

/-- The host's control transactions of a chain are lost with Ianik; the chain's own walk goes on (R55, R56). -/
def chainCut (x : Fin 2) (s : State) : State :=
  let own (q : Xact) : Bool := q.why == .walk || q.why == .genUpdate
  let gone := s.hw[x].maps.filter (fun p => !p.acked)
  let s := unstage (fun p => match p.chg with
    | .slotMap y up slot _ _ _ => y == x && gone.any (fun g => g.up == up && g.slot == slot && decide (g.eff = p.frame))
    | _ => false) s
  modHw x (fun c => { c with
    queue := c.queue.filter own, maps := c.maps.filter (·.acked), walkCmd := none, cmdPend := []
    out := match c.out with
      | some o => if own o.1 then some o else none
      | none => none }) s

/-- The crossings that an Ianik reset cuts: messages to the Hive, held stagings, chain requests, PSP0 and the events
of the islands reset (R57, R492, R493). -/
def ianikCuts (s : State) : State :=
  let s := shakesIdle s
  let s := (s.hive.transit ++ s.ianik.stalled).foldl (fun s q => entryLost q s) s
  let s := { s with ianik := { s.ianik with stalled := [] } }
  let s := { s with hive := { s.hive with transit := [], combs := s.hive.combs.map (fun c => { c with held := [] }) } }
  chainCut 1 (chainCut 0 (psp0Reset (dropEvts 6 [50] (dropEvts 3 ianikEvts s))))

/-- Ianik's own state at its reset: routines, waiting completion records, unposted responses, Patrol's configuration
and the image work, but for an IMG_CONFIRM, also one that has ended and whose record waits (R491 to R493, R532, R535). -/
def ianikClear (s : State) : State :=
  { s with
    ianik := { s.ianik with
      routine := none, tunOverflow := false, standbyCmd := s.ianik.standbyCmd.map (fun _ => none) }
    evt := { s.evt with waiting := [] }
    mbx := s.mbx.map (fun b => if b.st = .busy then { b with resp := none, grant := none } else b)
    care := { s.care with
      scrub := true, region := true, period := 60, interval := 48000, due := false, nextPhase := none, phase := 0
      passes := 0, offAcc := false, cmds := [], scrubbed := [], intervalFrom := s.stove.frame, strobeAt := none }
    boot := { s.boot with
      session := none, regions := [], job := none, jobs := []
      img := s.boot.img.filter (fun j => j.op == 0x0B04) ++
        (s.evt.waiting.filter (fun c => c.opcode == 0x0B04 && c.status.toNat == stOk)).map
          (fun c => ⟨c.opcode, c.mbx, c.tag, [], [], false⟩) } }

/-- The Ianik reset: Ianik and PSP0 and every crossing that ends in them are reset; audio goes on (R56, R491 to R493,
R535, R580). Causes: 1 watchdog, 2 RESET_CTL, 3 SYS_RESET. -/
def ianikReset (cause : BitVec 4) (s : State) : State :=
  if s.pow.ianikRst then s
  else ianikClear (ianikCuts { s with pow := { s.pow with ianikRst := true, rstLast := cause } })

/-- An interrupted IMG_CONFIRM is completed as Ianik leaves reset (R532). -/
def confirmDone (j : ImgJob) (s : State) : State :=
  let s := j.ops.foldl (fun s o => match o with
    | .prog a bs => flashProg a bs s
    | _ => s) s
  complete 0x0B04 j.mbx j.tag (BitVec.ofNat 8 stOk) [] s

/-- Ianik leaves reset: Patrol recovers, the interrupted IMG_CONFIRM is completed, and every other deferred command
outstanding at the reset ends with TIMEOUT (R415, R493, R532). -/
def ianikBack (s : State) : State :=
  let s := regionRecover { s with pow := { s.pow with ianikRst := false } }
  let js := s.boot.img
  let s := js.foldl (fun s j => confirmDone j s) (modBoot (fun b => { b with img := [] }) s)
  s.ianik.deferred.foldl (fun s d =>
    complete d.opcode.toNat d.mbx d.tag (BitVec.ofNat 8 stTimeout) [] s) s

/-! ### Hearth-safe -/

/-- A mailbox that is BUSY when the device enters Hearth-safe is answered with TIMEOUT by the Hearth responder; one that
the Hearth was answering has raised its EV15 (R165, R483). -/
def safeAnswer (m : Fin 4) (s : State) : State :=
  let b := s.mbx[m]
  if b.st ≠ .busy then s
  else if b.fromHearth && b.resp.isSome then
    post m (modMbx m (fun b => { b with resp := b.resp.map (fun p => { p with status := BitVec.ofNat 8 stTimeout }) }) s)
  else post m (mbxFails m stTimeout s)

/-- The registers on the entry to Hearth-safe (R483, R494, R499). -/
def safeRegs (s : State) : State :=
  { s with
    pow := { s.pow with
      st := .hearthSafe, ianikRst := true, sysResetPends := false, seqHive := false, seqBel := false
      seqHw := .replicate 2 false }
    flt := { s.flt with safe := true }
    stove := { running := false }, dmpr := { s.dmpr with running := false }
    ianik := { s.ianik with staged := [] }
    boot := { s.boot with wait := false } }

/-- The device enters Hearth-safe: Ianik and every sequencer are held, the Stove and the Damper stop, the balls take
their states, and EV62 carries the cause (R25, R33, R365, R508, R550). -/
def enterSafe (cause : Nat) (s : State) : State :=
  let s := chainHold 1 (chainHold 0 (bellowsHold (hiveHold (ianikReset s.pow.rstLast s))))
  let s := raise 62 (n2w cause 0) (portsReset s.stove.frame (safeRegs s))
  (List.finRange 4).foldl (fun s m => safeAnswer m s) s

end Sys2Proof.Machine
end

