-- ==== Sys2Proof/Machine/Flash.lean ====
section
/-! DEFINITION. PSP0, direct execution from flash, the Forager's rings, and the 0x0Axx commands (R425 to R438, R448
to R462, R532). -/

namespace Sys2Proof.Machine

/-! ### Rings -/

/-- Some of `n` bytes from `a` lie in the tagged range (R437). -/
def meetsTagged (a n : Nat) (s : State) : Bool :=
  s.p0.locked && decide (64 * s.p0.tagRange.1 < a + n) && decide (a < 64 * (s.p0.tagRange.1 + s.p0.tagRange.2))

/-- Erase the 64 KiB area that holds `a`, where no byte of it is in the tagged range (R429, R437, log entry 5). -/
def flashErase (a : Nat) (s : State) : State :=
  let b := a % 2 ^ addrWidth s.p0.prof[0] / 0x10000 * 0x10000
  if meetsTagged b 0x10000 s then s else modP0 (fun p => { p with mem := eraseFlash p.mem b 0x10000 }) s

/-- Change a ring. -/
def modRing (r : Fin 16) (f : Ring → Ring) (s : State) : State :=
  modP0 (fun p => { p with rings := vmod p.rings r f }) s

/-- Change the head descriptor of a ring. -/
def modHead (r : Fin 16) (f : Desc → Desc) (s : State) : State :=
  modRing r (fun x => match x.descs with
    | d :: ds => { x with descs := f d :: ds }
    | [] => x) s

/-- A playback or capture ring. -/
def isStream (x : Ring) : Bool := x.kind == .playback || x.kind == .capture

/-- The frames a stream descriptor covers (R450). -/
def descFrames (x : Ring) (d : Desc) : Nat := if isStream x then d.len / (4 * ringFw x) else 0

/-- The first relative frames of the descriptors of a ring, the head's being `f` (R451, R453). -/
def descFirsts (x : Ring) : Nat → List Desc → List (Desc × Nat)
  | _, [] => []
  | f, d :: ds => (d, f) :: descFirsts x (f + descFrames x d) ds

/-- The relative frame at which the head descriptor of a stream ring begins: Φ for playback, the frames already taken
for capture. -/
def ringHead (x : Ring) : Nat := if x.kind == .playback then x.fill else x.reads

/-- The deadline D of a descriptor that begins at relative frame `f`; none: it has none (R454). -/
def descDeadline (x : Ring) (f : Nat) (d : Desc) : Option Nat :=
  match x.kind with
  | .playback => if x.st == .armed || x.st == .running then some (x.n0 + f - 1) else none
  | .capture => if x.st == .armed || x.st == .running then some (x.n0 + f + x.k + 1) else none
  | _ => if d.deadline = 0 then none else some d.deadline

/-- The deadline of the head descriptor, where the ring offers one to PSP0: started, with bytes left, and without a
burst under way (R455). -/
def ringOffer (r : Fin 16) (s : State) : Option (Option Nat) :=
  let x := s.p0.rings[r]
  match x.descs with
  | d :: _ =>
    if d.started && decide (d.done < d.len) && !d.stopped && !d.media &&
        !s.p0.polled.any (fun q => q.1.why == .ring r) && (s.p0.cur.map (·.why) != some (.ring r)) then
      some (descDeadline x (ringHead x) d)
    else none
  | [] => none

/-- The word address in the Store of word `w` of a stream descriptor that begins at relative frame `f` (R450). -/
def streamAddr (x : Ring) (f w : Nat) : Nat := x.base + (f + w / ringFw x) % x.k * ringFw x + w % ringFw x

/-- Write words of a descriptor to the Store from its word `w` on (R450, R451). -/
def descWrite (x : Ring) (d : Desc) (w : Nat) : List Word → State → State
  | [], s => s
  | v :: vs, s =>
    let a := if isStream x then streamAddr x d.first w else d.mem + w
    descWrite x d (w + 1) vs (wrStoreX .forager a v s)

/-- Read `n` words of a descriptor from the Store from its word `w` on, where a captured frame begins. A captured frame whose
place has been written again sends zeros, with EV48 (R453). -/
def descRead (r : Fin 16) (d : Desc) (zero : Bool) (w : Nat) : Nat → State → List Word × State
  | 0, s => ([], s)
  | n + 1, s =>
    let x := s.p0.rings[r]
    let begins := x.kind == .capture && w % ringFw x == 0
    let ovr := begins && decide (d.first + w / ringFw x + x.k < x.fill)
    let s := if ovr then raise 48 (bit r.val) (modRing r (fun x => { x with sub := stick 255 x.sub }) s) else s
    let z := if begins then ovr else zero && x.kind == .capture
    let a := if isStream x then streamAddr x d.first w else d.mem + w
    let (v, s) := if z then ((0 : Word), s) else rdStoreX .forager a s
    let (vs, s) := descRead r d z (w + 1) n s
    (v :: vs, s)

/-- The data of a write burst of `n` words: what is left of the frames read before, then words of the Store. A captured frame
is read whole, so the Hive side writes its place before it or after it (R453). -/
def burstData (r : Fin 16) (d : Desc) (n : Nat) (s : State) : List Word × State :=
  let x := s.p0.rings[r]
  let need := n - d.carry.length
  let k := if x.kind == .capture then (need + ringFw x - 1) / ringFw x * ringFw x else need
  let (ws, s) := descRead r d false (d.done / 4 + d.carry.length) k s
  let all := d.carry ++ ws
  (all.take n, modHead r (fun d => { d with carry := all.drop n }) s)

/-- The next burst of a ring's head descriptor: at most 512 bytes of reads, or one page of a write (R432, R434). The
data of a write is read from the Store as the burst begins. -/
def ringBurst (r : Fin 16) (s : State) : Option P0Req × State :=
  match s.p0.rings[r].descs with
  | [] => (none, s)
  | d :: _ =>
    let p := profOf d.sel s
    let a := d.flash + d.done
    let left := d.len - d.done
    if d.toFlash then
      let n := min left (pageOf p - a % pageOf p)
      let (ws, s) := burstData r d (n / 4) s
      (some ⟨.ring r, d.sel, a, n, true, false, false, pgCmd p, wordsToBytes ws, false, 0, false⟩, s)
    else (some ⟨.ring r, d.sel, a, min left 512, false, false, false, rdCmd p, [], false, 0, false⟩, s)

/-! ### The order of PSP0 -/

/-- The class of a waiting request: 1 demand fill, 2 transfers, 4 prefetch (R434, log entry 22). -/
def reqClass (q : P0Req) : Nat :=
  match q.why with
  | .fill _ true => 1
  | .xfer _ _ | .image | .gone | .cut => 2
  | .fill _ false => 4
  | .ring _ => 3

/-- No transaction to a device that is being polled starts (R432). -/
def notPolled (sel : Nat) (s : State) : Bool := !s.p0.polled.any (fun q => decide (q.1.sel = sel))

/-- The ring whose burst comes first, with its deadline: earliest first, without one last, ties to the lower ring
(R455). -/
def firstRing (s : State) : Option (Fin 16 × Option Nat) :=
  (List.finRange 16).foldl (fun (best : Option (Fin 16 × Option Nat)) r =>
    match s.p0.rings[r].descs, ringOffer r s with
    | d :: _, some dl =>
      if !notPolled d.sel s then best else
        match best, dl with
        | none, _ => some (r, dl)
        | some (_, none), some _ => some (r, dl)
        | some (_, some b), some a => if a < b then some (r, dl) else best
        | _, _ => best
    | _, _ => best) none

/-- The first waiting request of the lowest class below `k`. -/
def firstReq (p : Nat → Bool) (s : State) : Option P0Req :=
  s.p0.queue.foldl (fun (best : Option P0Req) q =>
    if !p (reqClass q) || !notPolled q.sel s then best else
      match best with
      | none => some q
      | some b => if reqClass q < reqClass b then some q else best) none

/-- PSP0 runs: the Control PLL is locked and Ianik is not in reset (R25, R56). -/
def p0On (s : State) : Bool := poweredUp s && !s.pow.ianikRst

/-- A transaction is a read in the sense of R431, in which continuous-read mode stays. -/
def plainRead (q : P0Req) : Bool := !q.write && !q.erase && !q.raw

/-- An exit frame goes before a transaction: one is due, or the transaction is no read and the device is in continuous-read
mode (R431). -/
def exitsFirst (q : P0Req) (p : Profile) : Bool := p.exitDue || (p.cont && !plainRead q)

/-- The phases of a transaction (R427, R429, R431, R432). A write enable is a command alone. A read in continuous-read mode
omits the command; with PSP_CONT every read sends PSP_MODE_ON. The data units are 32 bits wide (R436; DESIGN CHOICE, log
entry 22). -/
def frameOf (q : P0Req) (s : State) : P0Frame :=
  let p := profOf q.sel s
  let ex := exitsFirst q p
  let aw := if q.bare then 0 else addrWidth p
  if enables q s then ⟨ex, some (weCmd p), 0, 0, none, 0, 32, 0⟩
  else
    { exitFirst := ex
      cmd := if plainRead q && p.cont && !ex then none else some q.cmd
      addrBits := aw, addr := q.addr % 2 ^ aw
      mode := if plainRead q && p.w4.getLsbD 7 then some (p.w4.extractLsb' 16 8) else none
      dummy := if plainRead q then fld p.w4 2 5 else if q.write then 0 else q.dummy
      unit := 32, units := if q.erase then 0 else (p0Page q s).len / 4 }

/-- A transaction begins: another one than a read ends continuous-read mode by an exit frame first; a read of a device
with PSP_CONT leaves it in that mode (R431). -/
def p0Begin (q : P0Req) (s : State) : State :=
  let f := frameOf q s
  let s := modProf q.sel (fun p => { p with cont := plainRead q && p.w4.getLsbD 7, exitDue := false }) s
  modP0 (fun p => { p with cur := some q, frame := some f }) s

/-- A waiting request begins. -/
def p0Take (q : P0Req) (s : State) : State :=
  p0Begin q (modP0 (fun p => { p with queue := p.queue.erase q }) s)

/-- A ring's burst begins. -/
def p0Burst (r : Fin 16) (s : State) : State :=
  match ringBurst r s with
  | (some q, s) => p0Begin q s
  | (none, s) => s

/-- The port starts the first waiting request, where it is idle (R434). -/
def p0Kick (s : State) : State :=
  if s.p0.cur.isSome || !p0On s then s else
    let ring := firstRing s
    let soon := match ring with
      | some (_, some d) => decide (d ≤ s.stove.frame + 8)
      | _ => false
    match ring, firstReq (fun k => decide (k < 4)) s, firstReq (fun _ => true) s with
    | some (r, _), none, _ => p0Burst r s
    | some (r, _), some q, _ => if soon then p0Burst r s else p0Take q s
    | none, some q, _ => p0Take q s
    | none, none, some q => p0Take q s
    | none, none, none => s

/-- A request waits, and begins at once on an idle port. -/
def p0Ask (q : P0Req) (s : State) : State := p0Kick (modP0 (fun p => { p with queue := p.queue ++ [q] }) s)

/-! ### Image work -/

/-- Image work has a request waiting or under way. -/
def imgAsked (s : State) : Bool :=
  s.p0.queue.any (·.why == .image) || (s.p0.cur.map (·.why) == some .image) || s.p0.polled.any (·.1.why == .image)

/-- The request of a flash operation: an area's erase, a program, or the reads of a verification (R532, log entry
22). -/
def opReq (o : FlashOp) (s : State) : P0Req :=
  let p := profOf 0 s
  match o with
  | .erase a _ => ⟨.image, 0, a, 0, true, true, false, 0, [], false, 0, false⟩
  | .prog a bs => ⟨.image, 0, a, bs.length, true, false, false, pgCmd p, bs, false, 0, false⟩
  | .check b => ⟨.image, 0, slotBase b s, 0x10000, false, false, false, rdCmd p, [], false, 0, false⟩

/-- The oldest image command's next operation asks for PSP0. -/
def imgKick (s : State) : State :=
  if imgAsked s then s else
    match s.boot.img with
    | j :: _ =>
      match j.ops with
      | o :: _ => p0Ask (opReq o s) s
      | [] => s
    | [] => s

/-- The oldest image command ends (R532, R534, R544). -/
def imgEnds (status : Nat) (payload : List Word) (s : State) : State :=
  match s.boot.img with
  | j :: js =>
    let s := modBoot (fun b => { b with
      img := js
      session := if j.op == 0x0B01 && status == stOk then some (payload.getD 0 0 == 1) else b.session
      regions := if j.op == 0x0B01 then [] else b.regions }) s
    let s := if j.op = 0x0B05 then jobNext s else s
    imgKick (complete j.op.toNat j.mbx j.tag (BitVec.ofNat 8 status) payload s)
  | [] => s

/-- The payload of an image command that fails with a BOOT_FAIL code (R544). -/
def imgFailed (j : ImgJob) (code : Nat) : List Word :=
  if j.op = 0x0B03 then [j.payload.getD 0 0, n2w code 0]
  else if j.op = 0x0B05 then [j.payload.getD 0 0, j.payload.getD 1 0, 0xFFFFFFFF]
  else j.payload

/-- The image command at work ends with MEDIA (R433, R544). -/
def imgMedia (s : State) : State :=
  match s.boot.img with
  | j :: _ => imgEnds stMedia (imgFailed j 6) s
  | [] => s

/-- A media error meets the image command at work: the read of a verification is repeated once, anything else ends the command
(R433, R522, R532). -/
def imgError (s : State) : State :=
  match s.boot.img with
  | j :: js =>
    match j.ops with
    | .check _ :: _ =>
      if j.retried then imgMedia s else imgKick (modBoot (fun b => { b with img := { j with retried := true } :: js }) s)
    | _ => imgMedia s
  | [] => s

/-- The operation under way is done; with none left the command ends with OK (R532). -/
def imgNext (s : State) : State :=
  match s.boot.img with
  | j :: js =>
    let rest := match j.ops with
      | .erase a n :: os => if 0x10000 < n then .erase (a + 0x10000) (n - 0x10000) :: os else os
      | _ :: os => os
      | [] => []
    let s := modBoot (fun b => { b with img := { j with ops := rest, retried := false } :: js }) s
    if rest.isEmpty then imgEnds stOk j.payload s else imgKick s
  | [] => s

/-- An operation of the image command has reached its end: a program is read back, a verification judged (R532). -/
def imgStep (s : State) : State :=
  match s.boot.img with
  | j :: _ =>
    match j.ops with
    | .prog a bs :: _ => if flashBytes a bs.length s = bs then imgNext s else imgMedia s
    | .check b :: _ =>
      match slotReason b s with
      | none => imgNext s
      | some code => imgEnds stAuth (imgFailed j code) s
    | _ => imgNext s
  | [] => s

/-! ### The end of work -/

/-- A read transaction has its bytes. -/
def p0Read (q : P0Req) (bs : List Byte) (s : State) : State :=
  match q.why with
  | .ring r =>
    match s.p0.rings[r].descs with
    | d :: _ =>
      let s := descWrite s.p0.rings[r] d (d.done / 4) (bytesToWords bs) s
      modHead r (fun d => { d with done := d.done + q.len }) s
    | [] => s
  | .fill l dem => modP0 (fun p => { p with filled := p.filled ++ [(l, dem)] }) s
  | .xfer m tag => complete 0x0A02 m tag (BitVec.ofNat 8 stOk) (bytesToWords bs) s
  | .image => imgStep s
  | .gone | .cut => s

/-- What is left of a write goes on with its next page (R432). -/
def p0Rest (q : P0Req) (s : State) : State := modP0 (fun p => { p with queue := q :: p.queue }) s

/-- A page of a write, or an erase, is done, its polls idle; what is left of a write goes on (R432). -/
def p0Written (q : P0Req) (s : State) : State :=
  let rest := { q with addr := q.addr + q.len, data := q.data.drop q.len, enabled := false }
  let more := !q.erase && !q.raw && !rest.data.isEmpty
  let there := present q.sel s
  match q.why with
  | .ring r => modHead r (fun d => { d with done := d.done + q.len }) s
  | .fill _ _ | .gone | .cut => s
  | .xfer m tag =>
    if more && there then p0Rest rest s
    else complete 0x0A02 m tag (BitVec.ofNat 8 (if more then stMedia else stOk)) [] s
  | .image => if !more then imgStep s else if there then p0Rest rest s else imgMedia s

/-- A fetch that needed a line takes a fetch fault; in boot-critical code the device enters Hearth-safe (R438). -/
def fetchFault (line : Nat) (s : State) : State :=
  let s := modP0 (fun p => { p with stalled := none }) s
  if s.pow.bootCrit then
    enterSafe 2 (logFault 0x02 (BitVec.ofNat 16 line) { s with flt := { s.flt with fetch := true } })
  else s

/-- A media error (R431, R433). -/
def mediaError (sel : Nat) (s : State) : State :=
  raise 50 (n2w sel 0) (modP0 (fun p => { p with
    evMedia := true, lastSel := sel, mediaCnt := stick 255 p.mediaCnt
    prof := p.prof.map (fun y => { y with cont := false, exitDue := y.w4.getLsbD 7 }) }) s)

/-- The line is held. -/
def lineHeld (l : Nat) (s : State) : Bool := s.p0.lines.any (fun x => decide (x.1 = l))

/-- The line's fill waits, runs or is checked next. -/
def lineComes (l : Nat) (s : State) : Bool :=
  let isIt (q : P0Req) : Bool := match q.why with
    | .fill k _ => k == l
    | _ => false
  s.p0.queue.any isIt || (s.p0.cur.map isIt == some true) || s.p0.filled.any (fun x => decide (x.1 = l))

/-- The request of a fill (R436). -/
def fillReq (l : Nat) (dem : Bool) (s : State) : P0Req :=
  ⟨.fill l dem, 0, 64 * l, 64, false, false, false, rdCmd (profOf 0 s), [], false, 0, false⟩

/-- A demand fill, however it ends, is followed by the prefetch of the next line, unless that line is held or on its way
(R435). -/
def nextLine (l : Nat) (dem : Bool) (s : State) : State :=
  if dem && !lineHeld (l + 1) s && !lineComes (l + 1) s && decide (l + 1 < 0x100000) && present 0 s then
    p0Ask (fillReq (l + 1) false s) s
  else s

/-- The work that issued a transaction ends in MEDIA (R433, R438, R455). -/
def p0Failed (q : P0Req) (s : State) : State :=
  let s := mediaError q.sel s
  match q.why with
  | .ring r => modHead r (fun d => { d with media := true }) s
  | .fill l dem => if dem then fetchFault l (nextLine l dem s) else s
  | .xfer m tag => complete 0x0A02 m tag (BitVec.ofNat 8 stMedia) [] s
  | .image => imgError s
  | .gone | .cut => s

/-- A select code loses its device: what waits for it is refused, and a write that is polled ends (R429, log entry 22). -/
def deviceGone (sel : Nat) (s : State) : State :=
  let mine (q : P0Req) : Bool := decide (q.sel = sel)
  let waits := s.p0.queue.filter mine
  let polls := (s.p0.polled.map (·.1)).filter mine
  let s := modP0 (fun p => { p with queue := p.queue.filter (fun q => !mine q), polled := p.polled.filter (fun x => !mine x.1) }) s
  let s := waits.foldl (fun s q => match q.why with
    | .xfer m tag => complete 0x0A02 m tag (BitVec.ofNat 8 stState) [] s
    | .fill l dem => if dem then fetchFault l (raise 50 (n2w sel 0) s) else s
    | .image => imgMedia s
    | _ => s) s
  polls.foldl (fun s q => match q.why with
    | .xfer m tag => complete 0x0A02 m tag (BitVec.ofNat 8 stMedia) [] s
    | .image => imgMedia s
    | _ => s) s

/-- The bytes a read takes: of select code 0 what the flash holds, for the read command with an address and the profile's
dummy clocks; else what the device drives (log entry 5). -/
def p0Bytes (q : P0Req) (data : List Byte) (s : State) : List Byte :=
  let p := profOf 0 s
  if q.sel = 0 ∧ q.cmd = rdCmd p ∧ q.bare = false ∧ (q.raw = false ∨ q.dummy = fld p.w4 2 5) then flashBytes q.addr q.len s
  else (data ++ List.replicate q.len 0xFF).take q.len

/-- What a write does to the boot flash (R432, log entry 5). -/
def p0Program (q : P0Req) (s : State) : State :=
  if q.sel ≠ 0 ∨ q.bare = true then s
  else if q.erase then flashErase q.addr s
  else if q.raw && q.cmd != pgCmd (profOf 0 s) then s
  else flashProg q.addr (q.data.take q.len) s

/-- A write transaction ends: its polls follow, where the device has them; one that a Hive hold cut leaves what the device
had programmed (R432, R457). -/
def p0Wrote (q : P0Req) (s : State) : State :=
  if q.why = .cut then (if q.sel = 0 && !q.erase then flashCut q.addr (q.data.take q.len) s else s)
  else
    let s := p0Program q s
    if !q.raw && stCmd (profOf q.sel s) != 0 then modP0 (fun p => { p with polled := p.polled ++ [(q, 0)] }) s
    else p0Written q s

/-- PSP0_TRANSACTION_END: the transaction under way ends: after a write enable its page program or erase begins, else the
first waiting request (R427 to R434). -/
def execPsp0TransactionEnd (data : List Byte) (s : State) : Host.Outcome State Fault Refusal :=
  match s.p0.cur with
  | none => .next (p0Kick s)
  | some q0 =>
    let q := p0Page q0 s
    let s := modP0 (fun p => { p with cur := none }) s
    if enables q s && q.why != .cut then .next (p0Begin { q0 with enabled := true } s)
    else .next (p0Kick (if q.write then p0Wrote q s else p0Read q (p0Bytes q data s) s))

/-- The transaction has a data phase, in which alone PSP0_RDY is sampled (R427, R430). -/
def hasData (q : P0Req) (s : State) : Bool := !q.erase && !enables q s && decide ((p0Page q s).len ≠ 0)

/-- PSP0_RDY_TIMEOUT: the device holds PSP0_RDY low for PSP_RDY_TMO in the data phase of the transaction under way, or, on an
idle port, of the next status poll (R430, R432, R433). -/
def execPsp0RdyTimeout (s : State) : Host.Outcome State Fault Refusal :=
  match s.p0.cur, s.p0.polled with
  | some q, _ =>
    if (profOf q.sel s).w4.getLsbD 8 && hasData q s then
      .next (p0Kick (p0Failed q (modP0 (fun p => { p with cur := none }) s)))
    else .next s
  | none, (q, _) :: rest =>
    if (profOf q.sel s).w4.getLsbD 8 then
      .next (p0Kick (p0Failed q (modP0 (fun p => { p with polled := rest }) s)))
    else .next s
  | none, [] => .next s

/-- The phases of a status poll (R432). -/
def pollFrame (p : Profile) : P0Frame := ⟨false, some (stCmd p), 0, 0, none, 0, 8, 1⟩

/-- STATUS_POLL: the next poll of a programming device, a transaction of its own, which an idle port runs whole in this step
(R432, R433, log entry 22). -/
def execStatusPoll (status : Byte) (s : State) : Host.Outcome State Fault Refusal :=
  match s.p0.polled with
  | [] => .next s
  | (q, n) :: rest =>
    if s.p0.cur.isSome then .next s else
    let p := profOf q.sel s
    let s := modP0 (fun x => { x with frame := some (pollFrame p) }) s
    let s' := modP0 (fun x => { x with polled := rest }) s
    if status &&& p.w4.extractLsb' 24 8 = 0 then .next (p0Kick (p0Written q s'))
    else if fld p.w6 0 16 ≤ n + 1 then .next (p0Kick (p0Failed q s'))
    else .next (modP0 (fun x => { x with polled := rest ++ [(q, n + 1)] }) s)

/-! ### Direct execution -/

/-- The lines of the prefetch buffer after a line is put in, or touched, as the latest used: four a set (R435). -/
def lineTouch (l : Nat) (bs : List Byte) (ls : List (Nat × List Byte)) : List (Nat × List Byte) :=
  let same := (ls.filter (fun x => x.1 % 64 = l % 64 ∧ x.1 ≠ l)).take 3
  (l, bs) :: same ++ ls.filter (fun x => x.1 % 64 ≠ l % 64)

/-- A fill of a line becomes a demand fill. -/
def lineWanted (l : Nat) (s : State) : State :=
  let up (q : P0Req) : P0Req := if q.why = .fill l false then { q with why := .fill l true } else q
  modP0 (fun p => { p with
    queue := p.queue.map up, cur := p.cur.map up
    filled := p.filled.map (fun x => if x.1 = l then (l, true) else x) }) s

/-- FETCH_MISS: Ianik fetches an address of the window; a miss stalls it until its line is delivered (R435). Where no device
answers on select code 0 the transaction is refused and the fetch faults, with EV50 (R429, R438, log entry 22). -/
def execFetchMiss (addr : Nat) (s : State) : Host.Outcome State Fault Refusal :=
  let l := addr / 64
  if 0x4000000 ≤ addr ∨ !p0On s ∨ s.p0.stalled.isSome then .next s
  else match s.p0.lines.find? (fun x => decide (x.1 = l)) with
    | some x => .next (modP0 (fun p => { p with lines := lineTouch l x.2 p.lines }) s)
    | none =>
      if !present 0 s then .next (fetchFault l (raise 50 0 s)) else
      let s := modP0 (fun p => { p with stalled := some l }) s
      .next (if lineComes l s then lineWanted l s else p0Ask (fillReq l true s) s)

/-- The bytes of a line (R435). -/
def lineBytes (l : Nat) (s : State) : List Byte := flashBytes (64 * l) 64 s

/-- The tag of a line (R437). -/
def lineTag (l : Nat) (s : State) : BitVec 64 :=
  BitVec.ofNat 64 (natLE ((sha256 (wordsToBytes [n2w (64 * l) 0] ++ lineBytes l s)).take 8))

/-- The word of Ianik RAM in which the tag of a line begins (R437). -/
def tagAddr (l : Nat) (s : State) : Nat := 0x8000 * s.p0.tagBlk + 2 * (l - s.p0.tagRange.1)

/-- The tag that the table holds for a line (R437). -/
def tagHeld (l : Nat) (s : State) : BitVec 64 :=
  rdW s.care.ianikRam (4 * tagAddr l s + 4) ++ rdW s.care.ianikRam (4 * tagAddr l s)

/-- The line lies in the tagged range and carries its tag (R437, R438). -/
def lineGood (l : Nat) (s : State) : Bool := inTagged (64 * l) s && lineTag l s == tagHeld l s

/-- The two words of a line's tag are read: false where one is uncorrectable (R407 to R409, R437). -/
def tagRead (l : Nat) (s : State) : Bool × State :=
  if !inTagged (64 * l) s then (true, s) else
    let (a, s) := checkWord ⟨.ianikRam, 0, 0, tagAddr l s⟩ s
    let (b, s) := checkWord ⟨.ianikRam, 0, 0, tagAddr l s + 1⟩ s
    (a && b, s)

/-- The line's tag lies in the region of Ianik RAM under test: its check waits for the end of RESTORE (R413). -/
def tagTested (l : Nat) (s : State) : Bool :=
  s.care.phase != 0 && s.care.nextIsRam && decide (tagAddr l s / 256 = s.care.nextRegion.2)

/-- A line is installed, and delivered where Ianik waits for it; a demand fill is followed by the prefetch of the next
line (R435, R436). -/
def fillGood (l : Nat) (dem : Bool) (s : State) : State :=
  let s := modP0 (fun p => { p with
    lines := lineTouch l (lineBytes l s) p.lines, stalled := if p.stalled = some l then none else p.stalled }) s
  nextLine l dem s

/-- A line fails its check: it is not installed and not delivered (R438). -/
def fillBad (l : Nat) (dem : Bool) (s : State) : State :=
  let s := raise 50 0x100 (modP0 (fun p => { p with evTag := true, tagFail := stick 255 p.tagFail }) s)
  if dem then fetchFault l (nextLine l dem s) else s

/-- LINE_FILL_COMPLETE: the oldest fill whose line has arrived is checked; with `media` a fill that is under way ends in
a media error (R433, R436 to R438). -/
def execLineFillComplete (media : Bool) (s : State) : Host.Outcome State Fault Refusal :=
  if media then
    match s.p0.cur with
    | some q =>
      match q.why with
      | .fill _ _ => .next (p0Kick (p0Failed q (modP0 (fun p => { p with cur := none }) s)))
      | _ => .next s
    | none => .next s
  else match s.p0.filled with
    | [] => .next s
    | (l, dem) :: rest =>
      if tagTested l s then .next s else
      let (ok, s) := tagRead l (modP0 (fun p => { p with filled := rest }) s)
      .next (if ok && lineGood l s then fillGood l dem s else fillBad l dem s)

/-! ### Descriptors -/

/-- The head descriptor of a ring may start (R448, R451, R453). -/
def descReady (x : Ring) (d : Desc) : Bool :=
  let f := descFrames x d
  match x.kind with
  | .playback => x.st != .off && decide (x.fill + f ≤ x.reads + x.k)
  | .capture => x.st == .running && decide (x.reads + f ≤ x.fill)
  | .copy => x.st == .ready
  | .none => false

/-- DESCRIPTOR_START: a ring's head descriptor starts once its buffer condition holds (R451, R453). -/
def execDescriptorStart (ring : Fin 16) (s : State) : Host.Outcome State Fault Refusal :=
  let x := s.p0.rings[ring]
  match x.descs with
  | d :: _ =>
    if p0On s && !d.started && descReady x d then
      .next (p0Kick (modHead ring (fun d => { d with started := true, first := ringHead x }) s))
    else .next s
  | [] => .next s

/-- The status of a descriptor: OK 0, LATE 1, MEDIA 2, STOPPED 3 (R455). -/
def descStatus (d : Desc) : Nat := if d.stopped then 3 else if d.media then 2 else if d.late then 1 else 0

/-- The head descriptor of a ring completes (R451, R455). -/
def descDone (r : Fin 16) (d : Desc) (s : State) : State :=
  let x := s.p0.rings[r]
  let f := if d.stopped then 0 else descFrames x d
  let s := if d.media && !d.stopped && x.kind == .playback then
      descWrite x d 0 (List.replicate (d.len / 4) 0) s else s
  let s := modRing r (fun x => { x with
    descs := x.descs.drop 1, lastDone := (d.tag, descStatus d), evMedia := x.evMedia || (d.media && !d.stopped)
    fill := if x.kind == .playback then x.fill + f else x.fill
    reads := if x.kind == .capture then x.reads + f else x.reads }) s
  raiseIf d.irq 49 (bit r.val) s

/-- DESCRIPTOR_COMPLETE: the head descriptor of a ring has nothing left to move, and completes (R454, R455). -/
def execDescriptorComplete (ring : Fin 16) (s : State) : Host.Outcome State Fault Refusal :=
  match s.p0.rings[ring].descs with
  | d :: _ =>
    let busy := s.p0.polled.any (fun q => q.1.why == .ring ring) || s.p0.cur.map (·.why) == some (.ring ring)
    if d.started && !busy && (d.stopped || d.media || decide (d.len ≤ d.done)) then .next (descDone ring d s)
    else .next s
  | [] => .next s

/-- A descriptor misses its deadline at this tick: it has not moved its last word by then, the last poll of a write included,
nor ended in MEDIA (R454). -/
def missesNow (x : Ring) (n : Nat) (p : Desc × Nat) : Bool :=
  !p.1.late && !p.1.media && !p.1.stopped && decide (p.1.done < p.1.len) && descDeadline x p.2 p.1 == some n

/-- DEADLINE_MISS: at the tick of D, descriptors are not complete: each raises EV48 (R50, R454). -/
def execDeadlineMiss (ring : Fin 16) (s : State) : Host.Outcome State Fault Refusal :=
  let x := s.p0.rings[ring]
  let ps := descFirsts x (ringHead x) x.descs
  let k := (ps.filter (missesNow x s.stove.frame)).length
  if k = 0 then .next s
  else
    .next ((List.range k).foldl (fun s _ => raise 48 (bit ring.val) s) (modRing ring (fun x => { x with
      miss := min 255 (x.miss + k)
      descs := ps.map (fun p => { p.1 with late := p.1.late || missesNow x s.stove.frame p }) }) s))

/-! ### Streams at the M frame tick -/

/-- A start accepted for frame `e` takes effect (R448, R456). -/
def ringStartNow (r : Fin 16) (e : Nat) (s : State) : State :=
  modRing r (fun x => if x.st = .armed ∧ x.n0 = e then { x with st := .running } else x) s

/-- A stop takes effect: the stream's channels read +0.0, descriptors not started are discarded, and the one in
progress ends after its burst (R456). -/
def ringStopNow (r : Fin 16) (s : State) : State :=
  let x := s.p0.rings[r]
  if x.st ≠ .armed ∧ x.st ≠ .running then s else
    let s := modRing r (fun x => { x with
      st := .ready, fill := 0, reads := 0
      descs := (x.descs.filter (·.started)).map (fun d => { d with stopped := true }) }) s
    if x.kind = .playback then
      let cut (vs : List F32) : List F32 :=
        (List.range vs.length).map (fun i => if x.b ≤ i ∧ i < x.b + x.c then 0 else vs.getD i 0)
      { s with hive := { s.hive with playback := cut s.hive.playback, playNext := cut s.hive.playNext } }
    else s

/-- Channel `j` of a stream frame, from its words (R450). -/
def streamVal (x : Ring) (ws : List Word) (j : Nat) : F32 :=
  if x.s16 then
    let w := ws.getD (j / 2) 0
    codeVal 16 (if j % 2 = 0 then w else w >>> 16)
  else ws.getD j 0

/-- The words of a captured frame (R450). -/
def captureWords (x : Ring) (vs : List F32) : List Word :=
  let v (i : Nat) : F32 := if i < x.c then vs.getD (x.b + i) 0 else 0
  if x.s16 then
    (List.range (ringFw x)).map (fun i =>
      ((valCode 16 (v (2 * i))).1 &&& 0xFFFF) ||| ((valCode 16 (v (2 * i + 1))).1 <<< 16))
  else (List.range x.c).map v

/-- Put the values of a ring's channels among the 64. -/
def putChans (b : Nat) (vs old : List F32) : List F32 :=
  (List.range 64).map (fun i => if b ≤ i ∧ i < b + vs.length then vs.getD (i - b) 0 else old.getD i 0)

/-- A playback ring decides index `n + 1` at the tick of M frame `n`: it reads the Store, or substitutes +0.0 with EV48
(R452). -/
def playDecide (n : Nat) (r : Fin 16) (s : State) : State :=
  let x := s.p0.rings[r]
  if x.kind ≠ .playback ∨ !(x.st == .running || (x.st == .armed && decide (x.n0 = n + 1))) then s
  else
    let i := n + 1 - x.n0
    let s := modRing r (fun x => { x with reads := i }) s
    if i < x.fill then
      let (ws, s) := rdStoresX .forager (x.base + i % x.k * ringFw x) (ringFw x) s
      let vs := (List.range x.c).map (fun j => streamVal x ws j)
      { s with hive := { s.hive with playNext := putChans x.b vs s.hive.playNext } }
    else raise 48 (bit r.val) (modRing r (fun x => { x with sub := stick 255 x.sub }) s)

/-- A running capture ring writes the Outlet of M frame `n - 1` during M frame `n` (R453). -/
def captureWrite (n : Nat) (r : Fin 16) (s : State) : State :=
  let x := s.p0.rings[r]
  if x.kind ≠ .capture ∨ x.st ≠ .running ∨ n ≤ x.n0 then s
  else
    let i := n - 1 - x.n0
    let s := wrStoresX .forager (x.base + i % x.k * ringFw x) (captureWords x s.hive.capture) s
    modRing r (fun x => { x with fill := i + 1 }) s

/-- The streams at the tick of M frame `n` (R452, R453). -/
def streamsTick (n : Nat) (s : State) : State :=
  let s := { s with hive := { s.hive with playback := s.hive.playNext, playNext := List.replicate 64 0 } }
  let s := (List.finRange 16).foldl (fun s r => captureWrite n r s) s
  (List.finRange 16).foldl (fun s r => playDecide n r s) s

/-! ### The 0x0Axx commands -/

/-- The select code or the ring that word 2 names. -/
def tgtSel (r : Req) : Nat := fld r.target 0 4
def tgtRing (r : Req) : Fin 16 := ixN 16 (by decide) (fld r.target 0 4)

/-- PSP_INFO (R460, R462). -/
def pspInfoDef : CmdDef :=
  { opcode := 0x0A00, minVer := 1
    bad := fun r _ => badForm 0 r || badTarget r
    act := fun _ _ s => (s, stOk, s.p0.prof.toList.flatMap (fun p => [p.w3, p.w4, p.w5, p.w6])) }

/-- Words 3 to 6 of PSP_DEV_CONFIG break R429 or R461. -/
def badProfile (w4 w5 w6 : Word) : Bool :=
  rsvd w4 0xFFFF03FF || fld w4 0 2 == 3 || fld w4 16 8 == 0xFF || fld w4 24 8 == 0 || rsvd w5 0xFFFF0FFF ||
  decide (fld w5 0 8 < 3) || decide (8 < fld w5 8 4) || decide (fld w5 16 16 < 64) || fld w6 0 16 == 0 ||
  decide (fld w6 16 16 < 16)

/-- A descriptor held by some ring names the select code (R460). -/
def selHeld (sel : Nat) (s : State) : Bool :=
  s.p0.rings.toList.any (fun x => x.descs.any (fun d => decide (d.sel = sel)))

/-- PSP_DEV_CONFIG (R429, R431, R460, R461). -/
def pspDevConfigDef : CmdDef :=
  { opcode := 0x0A01, minVer := 1
    bad := fun r _ => badForm 4 r || rsvd r.target 0xF || tgtSel r == 15 || badProfile (arg r 4) (arg r 5) (arg r 6)
    wrong := fun _ r s => (tgtSel r == 0 && s.p0.locked) || selHeld (tgtSel r) s
    act := fun _ r s =>
      (modProf (tgtSel r) (fun p =>
        ⟨arg r 3, arg r 4, arg r 5, arg r 6, false, p.cont || p.exitDue⟩)
        (if argB r 4 9 then s else deviceGone (tgtSel r) s), stOk, []) }

/-- PSP_XFER: its byte count, and the request it makes (R461). -/
def xferLen (r : Req) : Nat := argF r 5 0 9
def xferReq (m : Nat) (r : Req) : P0Req :=
  let seq := argB r 3 18 && !argB r 3 17
  let data := (wordsToBytes (args r 6 (xferLen r / 4))).take (xferLen r)
  ⟨.xfer m r.tag, argF r 3 0 4, (arg r 4).toNat, xferLen r, !argB r 3 17, seq && xferLen r == 0, !seq,
    BitVec.ofNat 8 (argF r 3 8 8), if argB r 3 17 then [] else data, !argB r 3 16, argF r 3 19 5, false⟩

/-- A transfer that writes the tagged range after the lock (R437). -/
def xferTagged (q : P0Req) (s : State) : Bool :=
  q.write && q.sel == 0 &&
    (let a := q.addr % 2 ^ addrWidth s.p0.prof[0]
     if q.erase then meetsTagged (a / 0x10000 * 0x10000) 0x10000 s else meetsTagged a q.len s)

/-- PSP_XFER (R429, R434, R437, R460 to R462, R490). -/
def pspXferDef : CmdDef :=
  { opcode := 0x0A02, minVer := 2, deferred := true
    needs := fun _ r s => !argB r 3 17 && argF r 3 0 4 == 0 && lcFielded s
    bad := fun r _ => badForm 3 r || badTarget r || rsvd (arg r 3) 0x00FFFF0F || argF r 3 0 4 == 15 ||
      rsvd (arg r 5) 0x1FF || decide (448 < xferLen r) || xferLen r % 4 != 0 ||
      (!argB r 3 17 && badForm (3 + xferLen r / 4) r)
    act := fun m r s =>
      let q := xferReq m r
      let s := defer 0x0A02 m r.tag none s
      if !present q.sel s || xferTagged q s then (complete 0x0A02 m r.tag (BitVec.ofNat 8 stState) [] s, stDeferred, [])
      else (p0Ask q s, stDeferred, []) }

/-- The kind of a code (R461). -/
def ringKind : Nat → RingKind
  | 0 => .playback
  | 1 => .capture
  | 2 => .copy
  | _ => .none

/-- The ring that an FGR_RING_CONFIG describes, with the status counts of the old one (R450, R461). -/
def configRing (r : Req) (x : Ring) : Ring :=
  let kd := ringKind (argF r 3 0 2)
  { evMedia := x.evMedia, miss := x.miss, sub := x.sub, lastDone := x.lastDone, kind := kd
    st := if kd = .none then .off else .ready
    s16 := argB r 3 2
    grp := if argB r 3 3 && kd != .none then some (ixN 4 (by decide) (argF r 3 4 2)) else none
    b := argF r 3 8 6, c := argF r 3 16 6 + 1, base := argF r 4 0 21, k := argF r 5 0 21 }

/-- FGR_RING_CONFIG refused with BAD_ARG (R450, R461). A stream buffer of no frames is refused too, and the bound on the
buffer holds for a copy ring too (log entry 28). -/
def ringConfigBad (r : Req) (s : State) : Bool :=
  let x := configRing r {}
  badForm 3 r || rsvd r.target 0xF || rsvd (arg r 3) 0x003F3F3F || rsvd (arg r 4) 0x1FFFFF || rsvd (arg r 5) 0x1FFFFF ||
  (x.kind != .none && decide (2097152 < x.base + x.k * ringFw x)) ||
  (isStream x &&
    (decide (64 < x.b + x.c) || x.k == 0 ||
      (List.finRange 16).any (fun i =>
        let y := s.p0.rings[i]
        i != tgtRing r && y.st != .off && y.kind == x.kind && decide (y.b < x.b + x.c) && decide (x.b < y.b + y.c))))

/-- FGR_RING_CONFIG (R448, R450, R460, R461). -/
def fgrRingConfigDef : CmdDef :=
  { opcode := 0x0A03, minVer := 1
    bad := ringConfigBad
    wrong := fun _ r s =>
      let x := s.p0.rings[tgtRing r]
      x.st == .armed || x.st == .running
    act := fun _ r s =>
      (modRing (tgtRing r) (configRing r) (modP0 (orphan (fun i => i == tgtRing r) .gone) s), stOk, []) }

/-- The descriptor whose 8 words begin at command word `w` (R449). -/
def argDesc (r : Req) (w : Nat) : Desc :=
  { flash := (arg r w).toNat, sel := argF r (w + 1) 0 4, toFlash := argB r (w + 1) 4, ianikRam := argB r (w + 1) 5
    irq := argB r (w + 1) 6, mem := argF r (w + 2) 0 21, len := argF r (w + 3) 0 24, deadline := arg64 r (w + 4)
    tag := arg r (w + 6), started := false, done := 0, first := 0, late := false, media := false, carry := []
    stopped := false }

/-- A descriptor breaks R449 or R450, names an absent select or Ianik RAM, or does not suit its ring (R461). -/
def badRingDesc (r : Req) (w : Nat) (x : Ring) (s : State) : Bool :=
  let d := argDesc r w
  d.flash % 4 != 0 || rsvd (arg r (w + 1)) 0x7F || rsvd (arg r (w + 2)) 0x1FFFFF || rsvd (arg r (w + 3)) 0xFFFFFF ||
  d.len == 0 || d.len % 4 != 0 || arg r (w + 7) != 0 || !present d.sel s || d.ianikRam ||
  (x.st != .off && (match x.kind with
    | .playback | .capture =>
      (x.kind == .capture) != d.toFlash || d.mem != 0 || d.deadline != 0 || d.len % (4 * ringFw x) != 0 ||
      decide (x.k < d.len / (4 * ringFw x))
    | .copy => decide (2097152 < d.mem + d.len / 4)
    | .none => true))

/-- FGR_DESC_PUSH (R448 to R450, R460, R461). -/
def fgrDescPushDef : CmdDef :=
  { opcode := 0x0A04, minVer := 1
    bad := fun r s =>
      let n := argF r 3 0 4
      badForm (1 + 8 * n) r || rsvd r.target 0xF || rsvd (arg r 3) 0xF || n == 0 || decide (14 < n) ||
      (List.range n).any (fun i => badRingDesc r (4 + 8 * i) s.p0.rings[tgtRing r] s)
    wrong := fun _ r s => s.p0.rings[tgtRing r].st == .off
    busy := fun r s => decide (64 < s.p0.rings[tgtRing r].descs.length + argF r 3 0 4)
    act := fun _ r s =>
      let ds := (List.range (argF r 3 0 4)).map (fun i => argDesc r (4 + 8 * i))
      (modRing (tgtRing r) (fun x => { x with descs := x.descs ++ ds }) s, stOk, []) }

/-- FGR_RING_ENABLE (R102, R189, R456, R460, R461). -/
def fgrRingEnableDef : CmdDef :=
  { opcode := 0x0A05, minVer := 1
    bad := fun r s => badForm 3 r || rsvd r.target 0xF || rsvd (arg r 3) 1 || badE (arg64 r 4) s
    wrong := fun _ r s =>
      let x := s.p0.rings[tgtRing r]
      rateBars (useE (arg64 r 4) s) s || (argB r 3 0 && (x.st != .ready || !isStream x))
    act := fun m r s =>
      let e := useE (arg64 r 4) s
      (if argB r 3 0 then armRing m r.tag (tgtRing r) e s else stage m r.tag e (.ringStop (tgtRing r)) s, stOk, pair64 e) }

/-- The codes of FGR_ST and FGR_KIND (R448, R459). -/
def ringStCode : RingSt → Nat
  | .off => 0
  | .ready => 1
  | .armed => 2
  | .running => 3
def ringKindCode : RingKind → Nat
  | .playback => 0
  | .capture => 1
  | .copy => 2
  | .none => 3

/-- FGR_RING_STAT (R459). -/
def ringStat (x : Ring) : Word :=
  n2w (ringStCode x.st) 30 ||| n2w (ringKindCode x.kind) 28 ||| b2w x.grp.isSome 27 |||
  n2w (match x.grp with
    | some g => g.val
    | none => 0) 25 ||| b2w x.evMedia 24 ||| n2w x.descs.length 17 ||| n2w x.miss 8 ||| n2w x.sub 0

/-- FGR_STATUS (R459, R462). -/
def fgrStatusDef : CmdDef :=
  { opcode := 0x0A06, minVer := 1
    bad := fun r _ => badForm 0 r || rsvd r.target 0xF
    act := fun _ r s =>
      let x := s.p0.rings[tgtRing r]
      (s, stOk, [ringStat x, n2w x.fill 0] ++ pair64 x.n0 ++ [x.lastDone.1, n2w x.lastDone.2 0]) }

/-- FGR_CLEAR (R458, R459, R461). -/
def fgrClearDef : CmdDef :=
  { opcode := 0x0A07, minVer := 2
    bad := fun r _ => badForm 1 r || badTarget r || rsvd (arg r 3) 0x1FFFF
    act := fun _ r s =>
      (modP0 (fun p => { p with
        rings := vmap p.rings (fun i x => if argB r 3 i then { x with evMedia := false, miss := 0, sub := 0 } else x)
        evTag := p.evTag && !argB r 3 16, evMedia := p.evMedia && !argB r 3 16 }) s, stOk, []) }

/-- PSP_P0_STAT (R458). -/
def p0Stat (s : State) : Word :=
  n2w s.p0.tagFail 24 ||| n2w s.p0.mediaCnt 16 ||| b2w s.p0.locked 15 ||| b2w s.pow.bootCrit 14 ||| n2w s.p0.lastSel 8 |||
  b2w s.p0.evTag 1 ||| b2w s.p0.evMedia 0

/-- PSP_STATUS (R458, R462). -/
def pspStatusDef : CmdDef :=
  { opcode := 0x0A08, minVer := 2
    bad := fun r _ => badForm 0 r || badTarget r
    act := fun _ _ s => (s, stOk, [p0Stat s, n2w (64 * s.p0.tagRange.1) 0, n2w s.p0.tagRange.2 0]) }

/-! ### Meanings -/

/-- PSP_INFO (R462). -/
def execPspInfo (m : Fin 4) (r : Req) (s : State) : Host.Outcome State Fault Refusal :=
  .next (mbxCommand pspInfoDef m r s)
/-- PSP_DEV_CONFIG (R429). -/
def execPspDevConfig (m : Fin 4) (r : Req) (s : State) : Host.Outcome State Fault Refusal :=
  .next (mbxCommand pspDevConfigDef m r s)
/-- PSP_XFER (R461). -/
def execPspXfer (m : Fin 4) (r : Req) (s : State) : Host.Outcome State Fault Refusal :=
  .next (mbxCommand pspXferDef m r s)
/-- FGR_RING_CONFIG (R450). -/
def execFgrRingConfig (m : Fin 4) (r : Req) (s : State) : Host.Outcome State Fault Refusal :=
  .next (mbxCommand fgrRingConfigDef m r s)
/-- FGR_DESC_PUSH (R449). -/
def execFgrDescPush (m : Fin 4) (r : Req) (s : State) : Host.Outcome State Fault Refusal :=
  .next (mbxCommand fgrDescPushDef m r s)
/-- FGR_RING_ENABLE (R456). -/
def execFgrRingEnable (m : Fin 4) (r : Req) (s : State) : Host.Outcome State Fault Refusal :=
  .next (mbxCommand fgrRingEnableDef m r s)
/-- FGR_STATUS (R462). -/
def execFgrStatus (m : Fin 4) (r : Req) (s : State) : Host.Outcome State Fault Refusal :=
  .next (mbxCommand fgrStatusDef m r s)
/-- FGR_CLEAR (R461). -/
def execFgrClear (m : Fin 4) (r : Req) (s : State) : Host.Outcome State Fault Refusal :=
  .next (mbxCommand fgrClearDef m r s)
/-- PSP_STATUS (R462). -/
def execPspStatus (m : Fin 4) (r : Req) (s : State) : Host.Outcome State Fault Refusal :=
  .next (mbxCommand pspStatusDef m r s)

end Sys2Proof.Machine
end

