-- ==== Sys2Proof/Machine/Boot.lean ====
section
/-! DEFINITION. The power-up sequence, the boot sources and the boot chain, image updates, tunings and the life-cycle,
with the 0x0Bxx commands and CELL_IMAGE_LOAD (R505 to R544, R103). -/

namespace Sys2Proof.Machine

/-! ### The power-up sequence -/

/-- A conversion of the Damper ADC check lies within 18 mV of its reference (R364). -/
def refNear (mv : Nat) (code : BitVec 12) : Bool :=
  let v : Rat := mkRat (1800 * code.toNat : Nat) 4095
  decide (v - (mv : Rat) ≤ 18) && decide ((mv : Rat) - v ≤ 18)

/-- The Damper ADC check passes: 16 conversions of 0.450 V and 16 of 1.350 V (R364). -/
def refsGood (cs : List (BitVec 12)) : Bool :=
  decide (cs.length = 32) && (cs.take 16).all (refNear 450) && (cs.drop 16).all (refNear 1350)

/-- A power-up step passes (R364, R505). -/
def stepPasses (k : Nat) (x : StepResult) : Bool :=
  x.ok && (match k with
    | 5 => x.memFail.isNone
    | 7 => x.cells == 0
    | 8 => x.chans == 0
    | 9 => refsGood x.refs
    | _ => true)

/-- BOOT_ST_MEMFAIL of a word. -/
def memFailWord (w : WordAt) : Word := n2w (classNo w.cls) 29 ||| n2w (w.unit % 32) 24 ||| n2w (w.addr % 2 ^ 24) 0

/-- Power-up fails with a code: recorded, logged, EV60, and Hearth-safe with EV62 (R505, R506, R550, R555, R557). -/
def powerUpFails (code : Nat) (s : State) : State :=
  let s := modBoot (fun b => { b with fail := BitVec.ofNat 4 code }) s
  let s := { s with flt := { s.flt with step := BitVec.ofNat 4 code } }
  enterSafe 1 (raise 60 (bootResult s) (logFault 0x01 (BitVec.ofNat 16 code) s))

/-- The words of the fuses that MEAS0 measures (R523). -/
def fuseWords (s : State) : List Word :=
  let f := s.boot.fuses
  (n2w (lcCode s.pow.lc) 0 ||| b2w f.pushOff 2 ||| maskOf (((List.finRange 4).filter (fun i => f.revoked[i])).map (8 + ·.val))) ::
    f.keys.toList.flatMap (fun k => digestWords (k.getD 0)) ++ [f.prof0.w3, f.prof0.w4, f.prof0.w5, f.prof0.w6]

/-- The banks of a tuning are written; before the cells' memories have passed they wait in Ianik RAM (R507, R526). -/
def banksIn (m : Manifest) (t : Nat) (s : State) : State :=
  if s.boot.step < 6 then modBoot (fun b => { b with banksHeld := b.banksHeld ++ [t] }) s else applyBanks m t s

/-- The memories have passed: what waits for them is written (R507). -/
def banksPass (s : State) : State :=
  let ts := s.boot.banksHeld
  let s := modBoot (fun b => { b with banksHeld := [] }) s
  match s.boot.man with
  | some m => ts.foldl (fun s t => applyBanks m t s) s
  | none => s

/-- What the end of a step that passes brings (R245, R365, R505, R506, R523, R555). -/
def stepDone (k : Nat) (x : StepResult) (s : State) : State :=
  let s := modBoot (fun b => { b with pass := b.pass ||| BitVec.ofNat 9 (2 ^ (k - 1)), step := k + 1 }) s
  match k with
  | 5 => banksPass s
  | 2 => measure 0 (Config.fuseDigest (fuseWords s)) (modBoot (fun b => { b with revRead := b.fuses.revoked }) s)
  | 6 => lockReport (modStove (fun y => { y with running := true }) s)
  | 9 =>
    let s := modBoot (fun b => { b with done := true, hcyc := x.hcyc }) s
    let s := { s with flt := { s.flt with step := 0, safe := false }, dmpr := { s.dmpr with running := true } }
    raise 60 (bootResult s) s
  | _ => s

/-- POWER_UP_STEP: the step under way passes or fails (R505). -/
def execPowerUpStep (res : StepResult) (s : State) : Host.Outcome State Fault Refusal :=
  let k := s.boot.step
  if s.pow.st ≠ .powerUp ∨ s.boot.done ∨ k = 0 then .next s
  else if stepPasses k res then .next (stepDone k res s)
  else
    let s := modBoot (fun b => { b with
      memFail := match res.memFail with
        | some w => if k = 5 then memFailWord w else 0
        | none => 0
      cellFail := if k = 7 then res.cells else 0, belFail := if k = 8 then res.chans else 0 }) s
    .next (powerUpFails k s)

/-- POWER_UP_BUDGET_EXPIRY: 12 ms have passed before step 9 has (R506). -/
def execPowerUpBudgetExpiry (s : State) : Host.Outcome State Fault Refusal :=
  if s.pow.st ≠ .powerUp ∨ s.boot.done then .next s else .next (powerUpFails 10 s)

/-! ### Boot sources -/

/-- A source or a slot fails, is skipped or is retired at boot (R514). -/
def bootNote (reason blk : Nat) (s : State) : State :=
  raise 61 (n2w reason 0) (modBoot (fun b => { b with
    fallback := true, reason := BitVec.ofNat 4 reason, failBlock := BitVec.ofNat 8 blk }) s)

/-- Nothing of a manifest is read yet, and nothing of its image applied. -/
def bootFresh (s : State) : State :=
  modBoot (fun b => { b with
    man := none, verified := [], banksHeld := [], retried := false, earlyDone := false, fullDone := false, booted := false, applied := 0
    dmprApplied := false }) s

/-- A source is given up: the next one follows (R514). -/
def sourceOver (s : State) : State :=
  modBoot (fun b => { b with src := .none, wait := false, trial := false, cands := [] }) (bootFresh s)

/-- The next slot of the slots source: a VALID slot is marked TRIAL first; with none left the source has failed
(R514, R529). -/
def nextSlot (s : State) : State :=
  match s.boot.cands with
  | b :: rest =>
    let s := if slotState b s = 2 then progState b 3 s else s
    modBoot (fun x => { x with
      src := if b then .slotB else .slotA, cands := rest, trial := decide (slotState b s = 3) }) (bootFresh s)
  | [] => sourceOver (bootNote s.boot.reason.toNat s.boot.failBlock.toNat s)

/-- The slot under way does not verify: a trial is retired, an active slot skipped (R514, R529). -/
def slotFails (reason blk : Nat) (s : State) : State :=
  let s := bootNote reason blk s
  match bootedSlot s with
  | some b => nextSlot (if slotState b s = 3 then retireSlot b s else s)
  | none => s

/-- The source under way fails (R514, R522, R537): the recovery loader waits on. -/
def sourceFails (reason blk : Nat) (s : State) : State :=
  match s.boot.src with
  | .slotA | .slotB => slotFails reason blk s
  | .push => sourceOver (bootNote reason blk s)
  | .recovery =>
    modBoot (fun b => { b with pushed := [], pushedLen := 0, pushedN := [], pushEnd := false }) (bootFresh s)
  | .none => s

/-- The select 0 profile of the directory applies (R516). -/
def dirProfile (s : State) : State :=
  match directory s with
  | some ws => modProf 0 (fun p => { p with w3 := ws.getD 2 0, w4 := ws.getD 3 0, w5 := ws.getD 4 0, w6 := ws.getD 5 0 }) s
  | none => s

/-- Trials found at boot are retired (R516, R529). -/
def slotTrials (s : State) : State :=
  ([false, true].filter (fun b => candidate b s && decide (slotState b s = 3))).foldl
    (fun s b => bootNote 7 0 (retireSlot b s)) s

/-- The candidates are tried from the highest sequence number down (R516, R528). -/
def trySlots (s : State) : State :=
  let cs := [false, true].filter (fun b => candidate b s)
  let cs := if cs = [false, true] ∧ (slotSeq false s).toNat < (slotSeq true s).toNat then [true, false] else cs
  if cs.isEmpty then sourceOver (bootNote 2 0 s) else nextSlot (modBoot (fun b => { b with cands := cs }) s)

/-- The slots source starts: trials found at boot are retired, and the candidates are tried from the highest sequence
number down (R513, R516, R528, R529). -/
def startSlots (s : State) : State :=
  let n := min 3 (s.pow.attempts + 1)
  let s := modBoot (fun b => { b with attempts := n }) { s with pow := { s.pow with attempts := n } }
  if (directory s).isNone then sourceOver (bootNote 1 0 s) else trySlots (slotTrials (dirProfile s))

/-- The ROM waits for a host (R537). -/
def startWait (src : BootSrc) (s : State) : State :=
  modBoot (fun b => { b with
    src := src, wait := true, pushed := [], pushedLen := 0, pushedN := [], pushEnd := false }) (bootFresh s)

/-- BOOT_SOURCE_START: the ROM tries the next source (R510 to R514, R529, R537). -/
def execBootSourceStart (s : State) : Host.Outcome State Fault Refusal :=
  if s.pow.st ≠ .powerUp ∨ s.pow.ianikRst ∨ s.boot.src ≠ .none ∨ s.boot.step < 5 then .next s
  else match s.boot.order with
    | [] => .next s
    | k :: rest =>
      let s := modBoot (fun b => { b with order := rest }) s
      .next (match k with
        | 0 => startSlots s
        | 1 => startWait .push s
        | _ => startWait .recovery { s with pow := { s.pow with recovery := false } })

/-! ### Loading -/

/-- The ROM loads from a slot, from the host, or as the recovery loader. -/
def recovers (s : State) : Bool := s.boot.src == .recovery

/-- The manifest bytes of the source under way; none: the host has not sent them all (R517, R537). -/
def manBytes (s : State) : Option (List Byte) :=
  match bootedSlot s with
  | some b => some (slotMan b s)
  | none =>
    let bs := rdBs s.boot.pushed 0 (min 61440 s.boot.pushedLen)
    if s.boot.pushEnd || (decide (96 ≤ bs.length) && decide (manLen bs ≤ bs.length)) then some bs else none

/-- The tuning that the tuning selection log of a slot names: its last entry whose halves agree (R534). -/
def logTuning (b : Bool) (s : State) : Option Nat :=
  (List.range 960).foldl (fun (t : Option Nat) k =>
    let w := flashWord (slotBase b s + 0x100 + 4 * k) s
    if fld w 16 16 = 65535 - fld w 0 16 then some (fld w 0 16) else t) none

/-- Loaded before stage-1 runs: stage-1 firmware, and what is flagged EARLY; a firmware body is executed in place
(R524). -/
def isEarly (c : Component) : Bool := c.kind == 0 || (c.early && c.kind != 1)

/-- Loaded by the boot after that: what is of no tuning or of the boot tuning (R524). -/
def isLate (t : Nat) (c : Component) : Bool :=
  !isEarly c && c.kind != 1 && (decide (c.kind ≤ 3) || c.tuning == 0 || c.tuning == t)

/-- The early set, stage-1 leading, and the rest of the boot set, in blocks. -/
def earlyBlocks (m : Manifest) : List Nat :=
  ((m.comps.filter (fun c => c.kind == 0)) ++ m.comps.filter (fun c => isEarly c && c.kind != 0)).flatMap compBlocks
def lateBlocks (t : Nat) (m : Manifest) : List Nat := (m.comps.filter (isLate t)).flatMap compBlocks

/-- All of these blocks are verified. -/
def haveAll (ks : List Nat) (s : State) : Bool := ks.all (fun k => s.boot.verified.contains k)

/-- The components that `p` picks are measured and applied in table order (R523, R524). -/
def applyAll (p : Component → Bool) (m : Manifest) (s : State) : State :=
  (m.comps.filter p).foldl (fun s c => applyComp m c s) s

/-- The components that `p` picks are opened; true where every one opens (R522). -/
def openSet (p : Component → Bool) (m : Manifest) (s : State) : Bool × State :=
  openAll ((m.comps.filter p).map (fun c => (c, compDigest m c))) s

/-- The early tuning. -/
def earlyTuning (m : Manifest) (s : State) : Nat :=
  match m.comps.find? (fun c => isEarly c && c.kind == 4) with
  | some c => c.tuning
  | none => s.boot.bootTuning

/-- The flags of AUTO_RUN (R526). -/
def autoWord (m : Manifest) : Word :=
  match m.comps.find? (fun c => c.kind == 3) with
  | some c => Config.fwAuto (compDigest m c)
  | none => 0

/-- AUTO_RUN stamps the releases, the early tuning and its channels on frame `e` (R525, R526). -/
def autoStamp (e : Nat) (s : State) : State :=
  match s.boot.man with
  | none => s
  | some m =>
    let w := autoWord m
    if !w.getLsbD 0 || recovers s || !hiveOk s || s.pow.st == .run ||
        s.ianik.staged.any (fun x => match x.chg with
          | .release _ _ _ _ => true
          | _ => false) then s
    else
      let t := earlyTuning m s
      let chans := match m.comps.find? (fun c => c.kind == 3) with
        | some c => Config.fwChannels (compDigest m c)
        | none => 0
      let bel := w.getLsbD 4 && belOk s
      let s := modBoot (fun b => { b with autoRun := true })
        (stageOwn e (.release true bel (w.getLsbD 5 && hwOk s) (w.getLsbD 6 && hwOk s)) s)
      let s := match tuneComp m 4 t, tuneComp m 6 t with
        | some c4, some c6 => stageOwn e (.autoTune t (compDigest m c4) (compDigest m c6)) s
        | _, _ => s
      if bel then stageOwn e (.belMute chans false) (stageOwn e (.belEnable chans true) s) else s

/-- Stage-1 runs: the opened early set is applied, and AUTO_RUN stamps its frame (R507, R524, R526). -/
def earlyOpened (m : Manifest) (s : State) : State :=
  let t := earlyTuning m s
  let s := banksIn m t (applyAll isEarly m s)
  let s := modBoot (fun b => { b with earlyDone := !recovers s, booted := true, running := t }) s
  if s.boot.done && s.stove.valid then autoStamp (addF s.stove.frame 3) s else s

/-- The early set has verified: the sealing keys are derived, and stage-1 runs (R416, R522, R524). A pushed or recovery
image waits for the whole set, as the ROM serves the host until then (R537). -/
def earlyNow (m : Manifest) (s : State) : State :=
  let o := openSet isEarly m (deriveKeys s)
  if !o.1 then sourceFails 5 0 o.2 else earlyOpened m o.2

/-- The boot tuning is committed beside the early tuning that runs, for the earliest frame (R526, R533). One that breaks a
rule for some cell is not committed (R63, R65, R71, R94; DESIGN CHOICE, log entry 64). -/
def bootCommit (m : Manifest) (s : State) : State :=
  let t := s.boot.bootTuning
  match tuneComp m 4 t, tuneComp m 5 t, tuneComp m 6 t with
  | some c4, some c5, some c6 =>
    let d4 := compDigest m c4
    let e := if tuneS d4 s then upTo s.hive.dom.d (effFrame s) else effFrame s
    if tuneClash d4 || (tuneCells d4).any (fun c => tuneBadCell d4 (compDigest m c5) e c s) then s
    else if hiveBars e s then modBoot (fun b => { b with tuneDue := true }) s
    else tuneCommit t d4 (compDigest m c6) e (applyBanks m t s)
  | _, _, _ => s

/-- The whole boot tuning has verified: where it is another than the early one, it is committed if the Hive runs, waits for
the Hive's first frame under AUTO_RUN, and else has its banks written (R524, R526, R533). -/
def bootTune (m : Manifest) (s : State) : State :=
  let t := s.boot.bootTuning
  match tuneComp m 4 t with
  | some c4 =>
    if isEarly c4 then s
    else if hiveRuns s then bootCommit m s
    else if (autoWord m).getLsbD 0 && !recovers s then modBoot (fun b => { b with tuneDue := true }) s
    else modBoot (fun b => { b with running := t }) (banksIn m t s)
  | none => s

/-- The boot tuning that waited for the Hive's first frame is committed once the early tuning has taken effect (R526). -/
def bootTuneTick (s : State) : State :=
  let waits := s.ianik.staged.any (fun x => match x.chg with
    | .autoTune _ _ _ => true
    | _ => false)
  if s.boot.tuneDue && hiveRuns s && !waits && ianikRuns s then
    let s := modBoot (fun b => { b with tuneDue := false }) s
    match s.boot.man with
    | some m => bootCommit m s
    | none => s
  else s

/-- The opened rest of the boot set is applied, and the boot tuning with it (R523, R524, R526). -/
def fullOpened (p : Component → Bool) (m : Manifest) (s : State) : State :=
  let s := applyAll (fun c => p c || c.kind == 1) m s
  bootTune m (modBoot (fun b => { b with fullDone := !recovers s, wait := false }) s)

/-- The whole boot set has verified (R523 to R526, R540). -/
def fullNow (m : Manifest) (s : State) : State :=
  let p := isLate s.boot.bootTuning
  let o := openSet p m s
  if !o.1 then sourceFails 5 0 o.2 else fullOpened p m o.2

/-- What the boot does as soon as a set is complete. -/
def bootProgress (s : State) : State :=
  match s.boot.man with
  | none => s
  | some m =>
    let early := haveAll (earlyBlocks m) s
    let full := early && haveAll (lateBlocks s.boot.bootTuning m) s
    if (bootedSlot s).isSome then
      let s := if early && !s.boot.earlyDone then earlyNow m s else s
      if full && s.boot.earlyDone && !s.boot.fullDone then fullNow m s else s
    else
      let s := modBoot (fun b => { b with earlyDone := early && !recovers s }) s
      if full && !s.boot.booted then
        let s := earlyNow m s
        if s.boot.booted then fullNow m s else s
      else s

/-- A read of the boot or of a load from select code 0 waits while that device is polled (R432). -/
def bootWaits (s : State) : Bool := (bootedSlot s).isSome && !notPolled 0 s

/-- A load's block is read; a media error of the read is one of PSP0 (R433, R522). -/
def loadBlock (media : Bool) (j : TuneJob) (s : State) : State :=
  let bad := media && (bootedSlot s).isSome && !j.blocks.isEmpty
  jobBlock bad j (if bad then mediaError 0 s else s)

/-- MANIFEST_VERIFIED: the signature and key check of the manifest of the source under way ends (R518 to R522). -/
def execManifestVerified (media : Bool) (s : State) : Host.Outcome State Fault Refusal :=
  if s.pow.st ≠ .powerUp ∨ s.pow.ianikRst ∨ s.boot.src = .none ∨ s.boot.man.isSome ∨ bootWaits s = true then .next s
  else match manBytes s with
    | none => .next s
    | some bs =>
      if media && (bootedSlot s).isSome then
        let s := mediaError 0 s
        .next (if s.boot.retried then sourceFails 6 0 s else modBoot (fun b => { b with retried := true }) s)
      else match manReason (recovers s) (s.boot.src == .push) bs s with
        | some r => .next (sourceFails r 0 s)
        | none =>
          let m := parseMan bs
          let t := match bootedSlot s with
            | some b => (logTuning b s).getD m.tuning
            | none => m.tuning
          .next (bootProgress (modBoot (fun b => { b with man := some m, verified := [], retried := false, bootTuning := t }) s))

/-- The next block of the boot set. -/
def nextBlock (s : State) : Option Nat :=
  match s.boot.man with
  | some m => (earlyBlocks m ++ lateBlocks s.boot.bootTuning m).find? (fun k => !s.boot.verified.contains k)
  | none => none

/-- The block's bytes have come: from flash at once, from the host when it has sent them all, or ended (R537). -/
def blockHere (k : Nat) (s : State) : Bool :=
  (bootedSlot s).isSome || s.boot.pushEnd || decide (16384 ≤ sget 0 s.boot.pushedN k)

/-- A block of the boot set fails: the read is repeated once, then the source fails; once the firmware is in service
only the rest of the set is given up (R514, R522). -/
def blockFails (reason k : Nat) (s : State) : State :=
  if !s.boot.retried then modBoot (fun b => { b with retried := true }) s
  else if s.pow.st = .powerUp then sourceFails reason k s
  else modBoot (fun b => { b with loadFailed := true }) (bootNote reason k s)

/-- BLOCK_VERIFIED: a block of the boot set, or of a TUNE_LOAD or CELL_IMAGE_LOAD, is read and its digest is ready
(R522). -/
def execBlockVerified (media : Bool) (s : State) : Host.Outcome State Fault Refusal :=
  if s.pow.ianikRst ∨ !(s.pow.st == .powerUp || inService s) ∨ bootWaits s = true then .next s
  else match s.boot.man, nextBlock s with
    | some m, some k =>
      if s.boot.loadFailed then
        (match s.boot.job with
          | some j => .next (loadBlock media j s)
          | none => .next s)
      else if !blockHere k s then .next s
      else if media && (bootedSlot s).isSome then .next (blockFails 6 k (mediaError 0 s))
      else if blockGood m (imageBlock k s) k then
        .next (bootProgress (modBoot (fun b => { b with verified := insertN k b.verified, retried := false }) s))
      else .next (blockFails 5 k s)
    | _, _ =>
      match s.boot.job with
      | some j => .next (loadBlock media j s)
      | none => .next s

/-- PUSH_WAIT_TIMEOUT: 2.0 s have passed without a BOOT_PUSH (R537). -/
def execPushWaitTimeout (s : State) : Host.Outcome State Fault Refusal :=
  if s.boot.src = .push ∧ romServing s ∧ s.boot.pushedLen = 0 ∧ s.boot.pushedN = [] ∧ s.boot.pushEnd = false then
    .next (sourceFails 9 0 s)
  else .next s

/-- Housekeeping: of two live ACTIVE slots the one with the lower sequence number is retired, with EV61 (R530). -/
def housekeeping (s : State) : State :=
  if flashHere s && slotLive false s && slotLive true s && slotState false s == 4 && slotState true s == 4 then
    raise 61 (n2w s.boot.reason.toNat 0) (retireSlot (decide ((slotSeq true s).toNat < (slotSeq false s).toNat)) s)
  else s

/-- The rates of the firmware configuration are in force, or the image carries no configuration (R179). -/
def ratesSet (s : State) : Bool :=
  !s.boot.ratesDue && (s.boot.applied.getLsbD 3 || match s.boot.man with
    | some m => !m.comps.any (fun c => c.kind == 3)
    | none => true)

/-- STANDBY_REACHED: the boot chain is complete, the firmware runs and the Stove is locked at the configured rate (R26,
R179, R509, R513, R526, R530, R579). -/
def execStandbyReached (s : State) : Host.Outcome State Fault Refusal :=
  if s.pow.st = .powerUp ∧ s.boot.done ∧ s.boot.booted ∧ ratesSet s ∧ (s.stove.lock ∨ s.stove.inEmber) ∧
      s.pow.ianikRst = false then
    let s := { s with pow := { s.pow with st := .standby, bootCrit := false, attempts := 0, sawStandby := true } }
    let s := modBoot (fun b => { b with step := 11, attempts := 0, wait := false }) s
    .next (autoStamp (effFrame s) (housekeeping s))
  else .next s

/-! ### Tunings at the tick -/

/-- The tuning selection log's next erased entry (R534). -/
def logFree (b : Bool) (s : State) : Option Nat :=
  (List.range 960).find? (fun k => flashWord (slotBase b s + 0x100 + 4 * k) s == 0xFFFFFFFF)

/-- The components of a tuning that was applied are measured (R523). -/
def tuneMeasure (tuning : Nat) (s : State) : State :=
  match s.boot.man with
  | some m => [4, 5, 6].foldl (fun s k => match tuneComp m k tuning with
      | some c => measure (measOf k) (compDigest m c) s
      | none => s) s
  | none => s

/-- A TUNE_LOAD completes with the log word it wrote, all ones for none (R534, R544). -/
def tuneEnds (j : TuneJob) (e : Nat) (st : Nat) (i : Word) (s : State) : State :=
  complete 0x0B05 j.mbx j.tag (BitVec.ofNat 8 st) (pair64 e ++ [i]) (jobNext s)

/-- The commit of a TUNE_LOAD has applied: it is measured, persisted where asked, and complete (R523, R534, R544). -/
def tuneApplied (j : TuneJob) (e : Nat) (s : State) : State :=
  let s := tuneMeasure j.tuning s
  if !j.persist then tuneEnds j e stOk 0xFFFFFFFF s
  else match bootedSlot s with
    | none => tuneEnds j e stMedia 0xFFFFFFFF s
    | some b =>
      match logFree b s with
      | none => tuneEnds j e stMedia 0xFFFFFFFF s
      | some k =>
        let w := n2w (j.tuning % 65536) 0 ||| n2w (65535 - j.tuning % 65536) 16
        imgKick (modBoot (fun x => { x with
          job := some { j with commit := none, persist := false, blocks := [] }
          img := x.img ++ [⟨0x0B05, j.mbx, j.tag, [.prog (slotBase b s + 0x100 + 4 * k) (wordsToBytes [w])],
            pair64 e ++ [n2w k 0], false⟩] }) s)

/-- At the tick of M frame `n` a TUNE_LOAD's commit applies (R533). -/
def tuneTick (n : Nat) (s : State) : State :=
  match s.boot.job with
  | some j =>
    match j.commit with
    | some e => if e ≤ n then tuneApplied j e s else s
    | none => s
  | none => s

/-! ### The 0x0Bxx commands -/

/-- The four items of a slot in BOOT_INFO (R544). -/
def slotInfo (b : Bool) (s : State) : List Word :=
  [slotWords.getD (slotState b s) 0, b2w (slotLive b s) 0, slotSeq b s, BitVec.ofNat 32 (leAt (slotMan b s) 8 4)]

/-- Key-hash slots programmed and revoked (R544). -/
def keyWord (s : State) : Word :=
  maskOf (((List.finRange 4).filter (fun i => s.boot.fuses.keys[i].isSome)).map (·.val)) |||
  maskOf (((List.finRange 4).filter (fun i => s.boot.fuses.revoked[i])).map (4 + ·.val))

/-- BOOT_INFO (R540, R541, R544). -/
def bootInfoDef : CmdDef :=
  { opcode := 0x0B00, minVer := 1
    bad := fun r _ => badForm 0 r || badTarget r
    act := fun _ _ s =>
      (s, stOk, bootStatus s :: slotInfo false s ++ slotInfo true s ++
        [n2w s.boot.running 0, n2w s.boot.bootTuning 0, keyWord s, b2w s.boot.session.isSome 0]) }

/-- The booted slot is TRIAL (R532). -/
def bootedTrial (s : State) : Bool :=
  match bootedSlot s with
  | some b => slotState b s == 3
  | none => false

/-- An image command begins: its work waits for PSP0, or ends at once where no device answers on select code 0. -/
def imgBegin (op m : Nat) (tag : BitVec 16) (ops : List FlashOp) (payload : List Word) (s : State) : State :=
  let s := defer op m tag none s
  let j : ImgJob := ⟨BitVec.ofNat 16 op, m, tag, ops, payload, false⟩
  if flashHere s then imgKick (modBoot (fun b => { b with img := b.img ++ [j] }) s)
  else complete op m tag (BitVec.ofNat 8 stMedia) (imgFailed j 6) s

/-- IMG_UPDATE_BEGIN (R532, R541 to R544). -/
def imgUpdateBeginDef : CmdDef :=
  { opcode := 0x0B01, minVer := 2, deferred := true
    bad := fun r _ => badForm 1 r || badTarget r || rsvd (arg r 3) 1
    wrong := fun _ _ s => bootedTrial s || s.boot.session.isSome || s.boot.job.isSome ||
      s.boot.img.any (fun j => j.op == 0x0B01)
    act := fun m r s =>
      let b := match bootedSlot s with
        | some b => !b
        | none => argB r 3 0
      let a := slotBase b s
      (imgBegin 0x0B01 m r.tag [.erase (a + 0x10000) (511 * 0x10000), .erase a 0x10000] [b2w b 0] s, stDeferred, []) }

/-- The regions an IMG_UPDATE_WRITE covers (R532). -/
def writeRegions (r : Req) : List Nat := (List.range (argF r 4 16 14 / 1024)).map ((arg r 3).toNat / 4096 + ·)

/-- IMG_UPDATE_WRITE (R482, R532, R541 to R544). -/
def imgUpdateWriteDef : CmdDef :=
  { opcode := 0x0B02, minVer := 2, deferred := true
    bad := fun r s =>
      let n := argF r 4 16 14
      badForm 2 r || badTarget r || rsvd (arg r 4) 0x3FFFFFFF || (arg r 3).toNat % 4096 != 0 ||
      decide ((arg r 3).toNat < 0x1000) || decide (0x01FFF000 < (arg r 3).toNat) || n % 1024 != 0 ||
      decide (n < 1024) || decide (8192 < n) || decide (0x02000000 < (arg r 3).toNat + 4 * n) ||
      badBulk (argF r 4 0 16) n || bulkSpoiled (argF r 4 0 16) n s
    refused := fun st r s => bulkRefused (argF r 4 0 16) (argF r 4 16 14) st s
    wrong := fun _ r s => s.boot.session.isNone || (writeRegions r).any (fun k => s.boot.regions.contains k) ||
      bulkTaken (argF r 4 0 16) (argF r 4 16 14) s
    act := fun m r s =>
      let b := s.boot.session.getD false
      let bs := wordsToBytes (bulkWords (argF r 4 0 16) (argF r 4 16 14) s)
      let s := bulkErrs (argF r 4 0 16) (argF r 4 16 14) s
      let ops := (List.range (argF r 4 16 14 / 1024)).map (fun i =>
        FlashOp.prog (slotBase b s + (arg r 3).toNat + 4096 * i) ((bs.drop (4096 * i)).take 4096))
      let s := modBoot (fun x => { x with regions := (writeRegions r).foldl (fun l k => insertN k l) x.regions }) s
      let s := imgBegin 0x0B02 m r.tag ops [] s
      let s := { s with ianik := { s.ianik with deferred := s.ianik.deferred.map (fun d =>
        if isDeferred 0x0B02 m r.tag d then { d with bulk := some (argF r 4 0 16, argF r 4 16 14) } else d) } }
      (s, stDeferred, []) }

/-- The sequence number of a slot being finished: one above that of every live slot (R532). -/
def nextSeq (s : State) : Word :=
  let ns := ([false, true].filter (fun b => slotLive b s && slotSeq b s != 0xFFFFFFFF)).map (slotSeq · s)
  ns.foldl (fun m n => if m.toNat < n.toNat + 1 then n + 1 else m) 1

/-- IMG_UPDATE_END (R532, R541 to R544). -/
def imgUpdateEndDef : CmdDef :=
  { opcode := 0x0B03, minVer := 2, deferred := true
    bad := fun r _ => badForm 0 r || badTarget r
    wrong := fun _ _ s => s.boot.session.isNone
    act := fun m r s =>
      let b := s.boot.session.getD false
      let q := nextSeq s
      let a := slotBase b s
      let w (k : Nat) : List Byte := wordsToBytes [slotWords.getD k 0]
      let s := modBoot (fun x => { x with session := none, regions := [] }) s
      (imgBegin 0x0B03 m r.tag [.prog (a + 8) (wordsToBytes [q]), .prog a (w 1), .check b, .prog a (w 2)] [q, 0] s,
        stDeferred, []) }

/-- IMG_CONFIRM (R532, R541, R542, R544). -/
def imgConfirmDef : CmdDef :=
  { opcode := 0x0B04, minVer := 2, deferred := true
    bad := fun r _ => badForm 0 r || badTarget r
    wrong := fun _ _ s => recovers s || !bootedTrial s
    act := fun m r s =>
      let b := (bootedSlot s).getD false
      (imgBegin 0x0B04 m r.tag [.prog (slotBase b s) (wordsToBytes [0]), .prog (slotBase (!b) s + 4) (wordsToBytes [0])] [] s,
        stDeferred, []) }

/-- A load is accepted: it begins, or waits behind the one under way. -/
def jobBegin (j : TuneJob) (s : State) : State :=
  if s.boot.job.isSome then modBoot (fun b => { b with jobs := b.jobs ++ [j] }) s
  else jobLoaded (modBoot (fun b => { b with job := some j }) s)

/-- A role change, a Comb commit or a tuning commit is pending (R542). -/
def changesPend (s : State) : Bool :=
  s.hive.combs.toList.any (fun c => !c.commits.isEmpty) || s.hive.cells.toList.any (·.pendRole.isSome) ||
  s.ianik.staged.any (fun x => match x.chg with
    | .tune _ _ _ | .autoTune _ _ _ => true
    | _ => false)

/-- The blocks of a tuning's components of the kinds `p` picks. -/
def tuneBlocks (p : Nat → Bool) (t : Nat) (s : State) : List Nat :=
  match s.boot.man with
  | some m => (([4, 5, 6].filter p).filterMap (fun k => tuneComp m k t)).flatMap compBlocks
  | none => []

/-- TUNE_LOAD (R533, R536, R541 to R544). -/
def tuneLoadDef : CmdDef :=
  { opcode := 0x0B05, minVer := 2, deferred := true
    bad := fun r s => badForm 3 r || badTarget r || rsvd (arg r 3) 0x1FFFF || badE (arg64 r 4) s ||
      (match s.boot.man with
        | some m => (tuneComp m 4 (argF r 3 0 16)).isNone
        | none => true)
    wrong := fun _ _ s => recovers s || rateBusy s || rateStuck s || changesPend s || hiveHeld s
    act := fun m r s =>
      let t := argF r 3 0 16
      let j : TuneJob := ⟨t, 0, argB r 3 16, arg64 r 4, m, r.tag, none, tuneBlocks (fun _ => true) t s, false, none⟩
      (jobBegin j (defer 0x0B05 m r.tag none s), stDeferred, pair64 (arg64 r 4)) }

/-- A digest from 8 words, byte 0 in bits 7:0 of the first (R6, R543). -/
def wordsDigest (ws : List Word) : BitVec 256 := digestOf (wordsToBytes ws)

/-- IMG_MEAS_EXTEND: the host extends MEAS7 only (R463, R523, R541, R543, R544). -/
def imgMeasExtendDef : CmdDef :=
  { opcode := 0x0B06, minVer := 2
    bad := fun r _ => badForm 8 r || badTarget r
    act := fun _ r s =>
      let s := measure 7 (wordsDigest (args r 3 8)) s
      (s, stOk, digestWords s.boot.meas[7]) }

/-- The life-cycle of a code (R543). -/
def lcOf : Nat → LifeCycle
  | 1 => .develop
  | 2 => .production
  | 3 => .returned
  | _ => .blank

/-- The key hashes an LC_ADVANCE carries (R543). -/
def lcHashes (r : Req) : List (BitVec 256) := (List.range (argF r 3 8 3)).map (fun i => wordsDigest (args r (4 + 8 * i) 8))

/-- The further condition of an advance holds (R538). -/
def lcOk (r : Req) (s : State) : Bool :=
  match argF r 3 0 2 with
  | 1 => (List.finRange 4).all (fun i => match s.boot.fuses.keys[i], (lcHashes r)[i.val]? with
      | some k, some h => k == h
      | _, _ => true)
  | 2 => match s.boot.man with
    | some m => keyKnown m.keyHash s
    | none => false
  | _ => true

/-- The fuses of an advance are blown (R538). -/
def lcBlow (r : Req) (s : State) : State :=
  let s := { s with pow := { s.pow with lc := lcOf (argF r 3 0 2) } }
  modBoot (fun b => { b with
    lcReset := true
    fuses := { b.fuses with keys := vmap b.fuses.keys (fun i k => match k, (lcHashes r)[i.val]? with
      | none, some h => some h
      | _, _ => k) } }) s

/-- LC_ADVANCE (R417, R538, R541, R543, R544). -/
def lcAdvanceDef : CmdDef :=
  { opcode := 0x0B07, minVer := 3, deferred := true
    needs := fun _ _ _ => true
    bad := fun r _ =>
      let n := argF r 3 8 3
      badForm (1 + 8 * n) r || badTarget r || rsvd (arg r 3) 0x703 || argF r 3 0 2 == 0 ||
      (if argF r 3 0 2 = 1 then n == 0 || decide (4 < n) else n != 0)
    wrong := fun _ r s => recovers s || argF r 3 0 2 != lcCode s.pow.lc + 1
    act := fun m r s =>
      let s := defer 0x0B07 m r.tag none s
      if lcOk r s then (complete 0x0B07 m r.tag (BitVec.ofNat 8 stOk) [] (lcBlow r (wipeVault 2 s)), stDeferred, [])
      else (complete 0x0B07 m r.tag (BitVec.ofNat 8 stAuth) [] s, stDeferred, []) }

/-- The key-hash slots programmed and not revoked. -/
def keysLeft (s : State) : List (Fin 4) :=
  (List.finRange 4).filter (fun i => s.boot.fuses.keys[i].isSome && !s.boot.fuses.revoked[i])

/-- KEY_REVOKE (R539, R541, R543, R544). -/
def keyRevokeDef : CmdDef :=
  { opcode := 0x0B08, minVer := 3, deferred := true
    needs := fun _ _ _ => true
    bad := fun r _ => badForm 1 r || badTarget r || rsvd (arg r 3) 3
    wrong := fun _ r s =>
      let i : Fin 4 := ixN 4 (by decide) (argF r 3 0 2)
      recovers s || keysLeft s == [i] || (match s.boot.man with
        | some m => s.boot.fuses.keys[i] == some m.keyHash
        | none => false)
    act := fun m r s =>
      let i : Fin 4 := ixN 4 (by decide) (argF r 3 0 2)
      let s := modBoot (fun b => { b with fuses := { b.fuses with revoked := b.fuses.revoked.set i true } })
        (defer 0x0B08 m r.tag none s)
      (complete 0x0B08 m r.tag (BitVec.ofNat 8 stOk) [] s, stDeferred, []) }

/-- BOOT_RECOVERY_BEGIN (R189, R510, R541, R542). -/
def bootRecoveryBeginDef : CmdDef :=
  { opcode := 0x0B09, minVer := 1
    needs := fun _ _ s => lcFielded s
    bad := fun r _ => badForm 0 r || badTarget r
    wrong := fun _ _ s => recovers s || rateBars (effFrame s) s
    act := fun m r s => (askSystemReset m r.tag { s with pow := { s.pow with recovery := true } }, stOk, []) }

/-- BOOT_PUSH refused with BAD_ARG (R482, R518, R543): a manifest part past its greatest length, a block part past its
block (log entry 29). -/
def pushBad (r : Req) (s : State) : Bool :=
  let n := argF r 5 16 14
  let a := (arg r 4).toNat
  badForm 3 r || badTarget r || rsvd (arg r 3) 3 || argF r 3 0 2 == 3 || rsvd (arg r 5) 0x3FFFFFFF ||
  (argF r 3 0 2 != 2 &&
    (badBulk (argF r 5 0 16) n || decide (8192 < n) || bulkSpoiled (argF r 5 0 16) n s ||
      (if argF r 3 0 2 = 0 then decide (61440 < a + 4 * n)
       else decide (0x10000 < a % 0x10000 + 4 * n) || decide (510 < a / 0x10000))))

/-- BOOT_PUSH (R537, R541 to R543). -/
def bootPushDef : CmdDef :=
  { opcode := 0x0B0A, minVer := 1
    bad := pushBad
    refused := fun st r s => if argF r 3 0 2 = 2 then s else bulkRefused (argF r 5 0 16) (argF r 5 16 14) st s
    wrong := fun _ r s => !romServing s ||
      (argF r 3 0 2 != 2 && bulkTaken (argF r 5 0 16) (argF r 5 16 14) s)
    act := fun m r s =>
      let n := argF r 5 16 14
      let a := (arg r 4).toNat
      let bs := wordsToBytes (bulkWords (argF r 5 0 16) n s)
      let s := if argF r 3 0 2 = 2 then s else bulkErrs (argF r 5 0 16) n s
      let s := match argF r 3 0 2 with
        | 0 => ownBulk m (argF r 5 0 16) n (modBoot (fun b => { b with
            pushed := wrBs b.pushed a bs, pushedLen := max b.pushedLen (a + 4 * n) }) s)
        | 1 => ownBulk m (argF r 5 0 16) n (modBoot (fun b => { b with
            pushed := wrBs b.pushed (0x10000 + a) bs
            pushedN := sset 0 b.pushedN (a / 0x10000) (sget 0 b.pushedN (a / 0x10000) + n) }) s)
        | _ => modBoot (fun b => { b with pushEnd := true }) s
      (s, stOk, []) }

/-! ### CELL_IMAGE_LOAD -/

/-- CELL_IMAGE_LOAD refused with STATE (R94, R404, R536, R602). It is refused as a program write is where it carries the
pending epoch or loads a program bank that a pending change makes active (R84), and while the cell clears after a sealed
role (DESIGN CHOICE, log entry 61). -/
def cellImageWrong (r : Req) (s : State) : Bool :=
  let y := tgt r s
  let b := freeBanks y
  hiveHeld s || tuneBusy s || recovers s || y.clearing || tgtEpoch r != y.epoch ||
  (argB r 3 16 && (!cellBlk y b.1 || progBankComing (tgtCell r) b.1 s)) || (argB r 3 17 && !cellBlk y (2 + b.2))

/-- CELL_IMAGE_LOAD (R102, R103, R105, R106). -/
def cellImageLoadDef : CmdDef :=
  { opcode := 0x010C, minVer := 2, deferred := true
    bad := fun r _ => badForm 1 r || badCellTarget r || rsvd (arg r 3) 0x3FFFF
    stale := staleTarget, refused := staleRefused 0x010C
    wrong := fun _ r s => cellImageWrong r s
    act := fun m r s =>
      let t := s.boot.running
      let ks := tuneBlocks (fun k => (k == 4 && argB r 3 16) || (k == 5 && argB r 3 17)) t s
      let j : TuneJob := ⟨t, (arg r 3).extractLsb' 0 16, false, 0, m, r.tag,
        some (tgtCell r, argB r 3 16, argB r 3 17), ks, false, none⟩
      (jobBegin j (defer 0x010C m r.tag none s), stDeferred, []) }

/-! ### Meanings -/

/-- BOOT_INFO (R544). -/
def execBootInfo (m : Fin 4) (r : Req) (s : State) : Host.Outcome State Fault Refusal :=
  .next (mbxCommand bootInfoDef m r s)
/-- IMG_UPDATE_BEGIN (R532). -/
def execImgUpdateBegin (m : Fin 4) (r : Req) (s : State) : Host.Outcome State Fault Refusal :=
  .next (mbxCommand imgUpdateBeginDef m r s)
/-- IMG_UPDATE_WRITE (R532). -/
def execImgUpdateWrite (m : Fin 4) (r : Req) (s : State) : Host.Outcome State Fault Refusal :=
  .next (mbxCommand imgUpdateWriteDef m r s)
/-- IMG_UPDATE_END (R532). -/
def execImgUpdateEnd (m : Fin 4) (r : Req) (s : State) : Host.Outcome State Fault Refusal :=
  .next (mbxCommand imgUpdateEndDef m r s)
/-- IMG_CONFIRM (R532). -/
def execImgConfirm (m : Fin 4) (r : Req) (s : State) : Host.Outcome State Fault Refusal :=
  .next (mbxCommand imgConfirmDef m r s)
/-- TUNE_LOAD (R533). -/
def execTuneLoad (m : Fin 4) (r : Req) (s : State) : Host.Outcome State Fault Refusal :=
  .next (mbxCommand tuneLoadDef m r s)
/-- IMG_MEAS_EXTEND (R523). -/
def execImgMeasExtend (m : Fin 4) (r : Req) (s : State) : Host.Outcome State Fault Refusal :=
  .next (mbxCommand imgMeasExtendDef m r s)
/-- LC_ADVANCE (R538). -/
def execLcAdvance (m : Fin 4) (r : Req) (s : State) : Host.Outcome State Fault Refusal :=
  .next (mbxCommand lcAdvanceDef m r s)
/-- KEY_REVOKE (R539). -/
def execKeyRevoke (m : Fin 4) (r : Req) (s : State) : Host.Outcome State Fault Refusal :=
  .next (mbxCommand keyRevokeDef m r s)
/-- BOOT_RECOVERY_BEGIN (R189, R510). -/
def execBootRecoveryBegin (m : Fin 4) (r : Req) (s : State) : Host.Outcome State Fault Refusal :=
  .next (mbxCommand bootRecoveryBeginDef m r s)
/-- BOOT_PUSH (R537). -/
def execBootPush (m : Fin 4) (r : Req) (s : State) : Host.Outcome State Fault Refusal :=
  .next (mbxCommand bootPushDef m r s)
/-- CELL_IMAGE_LOAD (R103). -/
def execCellImageLoad (m : Fin 4) (r : Req) (s : State) : Host.Outcome State Fault Refusal :=
  .next (mbxCommand cellImageLoadDef m r s)

end Sys2Proof.Machine
end

