-- ==== Sys2Proof/Machine/Service.lean ====
section
/-! DEFINITION. The fault record as a service command shows it, the service routines, the end of an impedance
measurement, and the 0x0Cxx commands (R234, R235, R555 to R569). -/

namespace Sys2Proof.Machine

/-! ### Measurement figures -/

/-- The mean of a list of rationals. -/
def meanQ (xs : List Rat) : Rat := if xs.isEmpty then 0 else xs.foldl (· + ·) 0 / (xs.length : Rat)

/-- The RMS of a list of rationals (log entry 9). -/
def rmsQ (xs : List Rat) : Rat := sqrtQ (meanQ (xs.map (fun x => x * x)))

/-- The samples of the whole cycles of the test signal counted back from the last update, newest first: the most
updates whose phase advance does not pass the last whole cycle (R235, log entry 9). -/
def wholeCycles (m : Measure) : List (Word × F32 × F32) :=
  let i := m.inc.toNat
  if i = 0 then [] else m.samples.take (m.samples.length * i / 2 ^ 32 * 2 ^ 32 / i)

/-- The sum of a quantity times e^(−j2πφ) over samples: real and imaginary part, in exact arithmetic on sines to the
accuracy of SIN2PI (R145, R234, R235). -/
def phasorSum (val : F32 × F32 → F32) (xs : List (Word × F32 × F32)) : Rat × Rat :=
  xs.foldl (fun a x =>
    let q := f32Q (val x.2)
    (a.1 + q * f32Q (genSin (x.1 + 0x40000000)), a.2 - q * f32Q (genSin x.1))) (0, 0)

/-- V / I of an AC measurement: resistance and reactance; none where the rule has no whole cycle or I is 0 (R235). -/
def acRatio (m : Measure) : Option (F32 × F32) :=
  let xs := wholeCycles m
  let (a, b) := phasorSum (·.1) xs
  let (c, d) := phasorSum (·.2) xs
  let n := c * c + d * d
  if n = 0 then none else some (qF32 ((a * c + b * d) / n), qF32 ((b * c - a * d) / n))

/-- The figures of an impedance measurement: resistance, reactance, RMS of v and of i, and the flags OPEN and LIMITED
(R235). What the rule states no value for is a free value (log entry 9). -/
def measFigures (m : Measure) (s : State) : List F32 × Bool × Bool × State :=
  let vs := m.samples.map (fun x => f32Q x.2.1)
  let is := m.samples.map (fun x => f32Q x.2.2)
  let isOpen := decide (rmsQ is < mkRat 1 1000)
  let (free, s) := drawWord s
  let (free2, s) := drawWord s
  let ac := (acRatio m).getD (free, free2)
  let r : F32 := if isOpen then 0x7F800000
    else if m.dc then (if meanQ is = 0 then free else qF32 (meanQ vs / meanQ is))
    else ac.1
  let x : F32 := if m.dc then 0 else if isOpen then free else ac.2
  ([r, x, qF32 (rmsQ vs), qF32 (rmsQ is)], isOpen, m.limited, s)

/-- The magnitude of an impedance, squared; none where a part is not finite (R561). -/
def absSq (r x : F32) : Option Rat := if f32Fin r && f32Fin x then some (f32Q r * f32Q r + f32Q x * f32Q x) else none

/-- `a` is a magnitude above the limit `z`. -/
def zAbove (a : Option Rat) (z : F32) : Bool :=
  match a with
  | some q => decide (f32Q z * f32Q z < q)
  | none => true

/-- `a` is a magnitude below the limit `z`. -/
def zBelow (a : Option Rat) (z : F32) : Bool :=
  match a with
  | some q => decide (q < f32Q z * f32Q z)
  | none => false

/-- The class of a measurement that was not aborted, by the first row that applies (R561). The words are those of
SVC_SPK_TEST from word 3. -/
def zClass (ws : List Word) (fs : List F32) (isOpen limited : Bool) : Nat :=
  let a := absSq (fs.getD 0 0) (fs.getD 1 0)
  if isOpen || zAbove a (ws.getD 5 0) then 1
  else if zBelow a (ws.getD 4 0) then 2
  else if limited then 4
  else if zBelow a (ws.getD 6 0) || zAbove a (ws.getD 7 0) then 3
  else 0

/-! ### Routines -/

/-- Replace the routine under way. -/
def setRoutine (r : Option Routine) (s : State) : State := { s with ianik := { s.ianik with routine := r } }

/-- A routine ends: its deferred command completes (R560 to R566). -/
def routineEnds (r : Routine) (payload : List Word) (s : State) : State :=
  complete r.op.toNat r.mbx r.tag (BitVec.ofNat 8 (if r.abort then stState else stOk)) payload (setRoutine none s)

/-- K of a routine that measures: word 5 of SVC_SPK_TEST, word 6 of SVC_MIC_LOOP. -/
def routineK (r : Routine) : Nat := fld (r.words.getD (if r.op = 0x0C02 then 2 else 3) 0) 0 16

/-- The completion of SVC_SPK_TEST: the measurements run and a count for each class (R569). -/
def spkPayload (r : Routine) : List Word :=
  n2w r.results.length 0 :: (List.range 6).map (fun k =>
    n2w (r.results.filter (fun x => decide (fld (x.getD 0 0) 8 3 = k))).length 0)

/-- The frames that SVC_MIC_LOOP reads from the Store: channel j of stream indices E + 16 to E + K + 15 (R563). -/
def micWords (r : Routine) (s : State) : List Word × State :=
  let x := s.p0.rings[ixN 16 (by decide) (fld (r.words.getD 0 0) 0 4)]
  let j := fld (r.words.getD 0 0) 8 6 - x.b
  (List.range (routineK r)).foldl (fun (p : List Word × State) i =>
    let a := x.base + (r.eff + 16 + i - x.n0) % x.k * ringFw x
    let (ws, s) := rdStoresX .ianik a (ringFw x) (freeFlush 64 p.2)
    (p.1 ++ [streamVal x ws j], s)) ([], s)

/-- The least-squares fit of a sine and a cosine to samples at their phases: the coefficients of the two; none where the
samples determine none (R563, log entry 9). -/
def sineFit (xs : List (Word × Rat)) : Option (Rat × Rat) :=
  let sn (x : Word × Rat) : Rat := f32Q (genSin x.1)
  let cs (x : Word × Rat) : Rat := f32Q (genSin (x.1 + 0x40000000))
  let sum (g : Word × Rat → Rat) : Rat := xs.foldl (fun a x => a + g x) 0
  let ss := sum (fun x => sn x * sn x)
  let sc := sum (fun x => sn x * cs x)
  let cc := sum (fun x => cs x * cs x)
  let vs := sum (fun x => x.2 * sn x)
  let vc := sum (fun x => x.2 * cs x)
  let det := ss * cc - sc * sc
  if det = 0 then none else some ((vs * cc - vc * sc) / det, (vc * ss - vs * sc) / det)

/-- The figures of SVC_MIC_LOOP at signal frequency `f`: amplitude, phase relative to the signal, and the RMS of what the
fitted sine leaves. The signal's phase advances by 16 updates an M frame, and the first sample is that of M frame E + 16
(R234, R563, log entry 9). -/
def micFit (f : F32) (ws : List F32) (s : State) : Option (List F32) :=
  let step : Word := 16 * measInc f s
  let xs := ws.zipIdx.map (fun p => (step * BitVec.ofNat 32 (16 + p.2), f32Q p.1))
  (if ws.all f32Fin then sineFit xs else none).map (fun (a, b) =>
    let rest := xs.map (fun x => x.2 - a * f32Q (genSin x.1) - b * f32Q (genSin (x.1 + 0x40000000)))
    [qF32 (sqrtQ (a * a + b * b)), Config.fitPhase a b, qF32 (rmsQ rest)])

/-- The figures of SVC_MIC_LOOP; free values where the samples determine no sine (R563, log entry 9). -/
def micFigures (f : F32) (ws : List F32) (s : State) : List F32 × State :=
  match micFit f ws s with
  | some fs => (fs, s)
  | none =>
    let (w0, s) := drawWord s
    let (w1, s) := drawWord s
    let (w2, s) := drawWord s
    ([w0, w1, w2], s)

/-- SVC_MIC_LOOP ends with its three figures (R563, R569). -/
def micEnds (r : Routine) (s : State) : State :=
  let (ws, s) := micWords r s
  let (fs, s) := micFigures (r.words.getD 1 0) ws s
  routineEnds r fs s

/-- A measurement of the routine starts at the tick of its effect frame, on a channel in QUIET (R234, R560, R563). -/
def routineStart (n : Nat) (r : Routine) (s : State) : State :=
  match r.todo with
  | (c, f) :: _ =>
    let dc := r.op == 0x0C02 && (r.words.getD 0 0).getLsbD 0
    let amp := if r.op = 0x0C02 then r.words.getD 1 0 else r.words.getD 2 0
    let m : Measure := ⟨dc, amp, f, routineK r, n, 0, 0, measInc f s, [], false, r.mbx, r.tag, true⟩
    if (belAt s (cellIx c)).meas.isSome then s else belMeasureNow (cellIx c) m s
  | [] => s

/-- The measurement under way of the routine reaches its end at the tick of E + K + 32: SVC_SPK_TEST writes its result
and goes on with the next, or ends; SVC_MIC_LOOP ends (R560, R561, R563, R566). -/
def routineMeasured (r : Routine) (s : State) : State :=
  match r.todo with
  | (c, f) :: rest =>
    let m := (belAt s (cellIx c)).meas.filter (fun m => m.service)
    let s := modBel (cellIx c) (fun y => { y with meas := y.meas.filter (fun m => !m.service) }) s
    if r.op = 0x0C04 then micEnds { r with abort := r.abort || m.isNone } s else
      let (fs, cls, s) := match m with
        | some m =>
          let (fs, o, l, s) := measFigures m s
          (fs, zClass r.words fs o l, s)
        | none =>
          let (w0, s) := drawWord s
          let (w1, s) := drawWord s
          let (w2, s) := drawWord s
          let (w3, s) := drawWord s
          ([w0, w1, w2, w3], 5, s)
      let res := [n2w cls 8 ||| n2w c 0, f] ++ fs
      let s := ramWrites (bulkAddr (r.bulk.1 + 6 * r.results.length)) res s
      let r := { r with results := r.results ++ [res], todo := rest, eff := r.eff + routineK r + 34 }
      if rest.isEmpty || r.abort then routineEnds r (spkPayload r) s else setRoutine (some r) s
  | [] => setRoutine none s

/-- The figures of SVC_DC_OFFSET: means, then the flagged and the aborted channels; the mean of an aborted channel is a
free value (R562, R569). -/
def dcPayload (r : Routine) (s : State) : List Word × State :=
  let cs := maskChans r.target
  let good (c : Fin 32) : Bool := !r.counts.contains c.val && !r.blocks.isEmpty
  let mean (c : Fin 32) : F64 := f64DivN (sum64 (r.blocks.map (fun b => b.getD c.val 0))) r.blocks.length
  let (ms, s) := cs.foldl (fun (p : List Word × State) c =>
    let (w, s) := drawWord p.2
    (p.1 ++ [if good c then f64To32 (mean c) else w], s)) ([], s)
  let flagged := cs.filter (fun c => good c && decide (f32Q s.dmpr.ch[c].dcThr / 2 < absQ (f64Q (mean c))))
  (ms ++ [maskOf (flagged.map (·.val)), maskOf r.counts], s)

/-- What SVC_LINE_HEALTH keeps of a chain: the counts at its start, the frames seen, and the absences of 12 heartbeats;
the extremes and the sums are kept beside (R564). -/
def lineLook (r : Routine) (s : State) : Routine :=
  let x : Fin 2 := if r.target.getLsbD 0 then 1 else 0
  let c := s.hw[x]
  let v := s.dmpr.line[x].volts.headD 0
  let i := s.dmpr.line[x].amps
  let t : Rat := (c.trip : Nat)
  let gone (k : Nat) : Nat := match c.nodes[k]? with
    | some y => if y.missed = 0 then 0 else 1
    | none => 1
  match r.counts, r.mins with
  | e :: rt :: lo :: n :: hs, [v0, v1, isum, i1, t0, t1] =>
    { r with
      counts := e :: rt :: lo :: (n + 1) :: hs.zipIdx.map (fun p => min 65535 (p.1 + gone p.2))
      mins := [min v0 v, max v1 v, isum + i, max i1 i, min t0 t, max t1 t] }
  | _, _ =>
    { r with
      counts := [c.errCnt, c.retryCnt, c.lostCnt, 1] ++ (List.range 12).map gone, mins := [v, v, i, i, t, t] }

/-- The completion of SVC_LINE_HEALTH (R564, R569). -/
def linePayload (r : Routine) (s : State) : List Word :=
  let x : Fin 2 := if r.target.getLsbD 0 then 1 else 0
  let c := s.hw[x]
  let k (i : Nat) : Nat := r.counts.getD i 0
  let q (i : Nat) : Rat := r.mins.getD i 0
  [n2w (c.errCnt - k 0) 0, n2w (c.retryCnt - k 1) 0, n2w (c.lostCnt - k 2) 0, qF32 (q 0), qF32 (q 1),
    qF32 (if k 3 = 0 then 0 else q 2 / (k 3 : Rat)), qF32 (q 3), n2w (q 4).num.toNat 0, n2w (q 5).num.toNat 0] ++
    (List.range 6).map (fun i => n2w (k (5 + 2 * i)) 16 ||| n2w (k (4 + 2 * i)) 0)

/-- The routine at the tick of M frame `n` (R560, R562 to R564, R566). -/
def routineTick (n : Nat) (s : State) : State :=
  match s.ianik.routine with
  | none => s
  | some r =>
    if r.op = 0x0C03 then
      (if r.eff = 2 then
        let (ws, s) := dcPayload r s
        routineEnds r ws s
      else s)
    else if r.op = 0x0C05 then
      (if n ≤ r.eff then s else
        let r := lineLook r s
        if r.abort || decide (r.eff + (r.words.getD 0 0).toNat ≤ n) then routineEnds r (linePayload r s) s
        else setRoutine (some r) s)
    else if r.eff = n then
      (if r.abort then (if r.op = 0x0C04 then micEnds r s else routineEnds r (spkPayload r) s) else routineStart n r s)
    else s

/-- The routine's measurement has reached its end. -/
def routineDue (r : Routine) (s : State) : Bool :=
  (r.op == 0x0C02 || r.op == 0x0C04) && decide (r.eff + routineK r + 32 ≤ s.stove.frame)

/-- The impedance measurement of channel `c` completes at the tick of E + K + 32 (R234, R235, R241). -/
def measureEnds (c : Fin 32) (s : State) : State :=
  match (belAt s c).meas with
  | some m =>
    if s.stove.frame < m.frame + m.k + 32 then s else
      let s := modBel c (fun y => { y with meas := none }) s
      if m.service then s else
        let (fs, o, l, s) := measFigures m s
        complete 0x0409 m.mbx m.tag (BitVec.ofNat 8 stOk) (fs ++ [b2w o 0 ||| b2w l 1]) s
  | none => s

/-- MEASURE_Z_COMPLETE: the measurements whose time has passed complete; a service routine takes the result of its own
(R234, R235, R560, R561). -/
def execMeasureZComplete (s : State) : Host.Outcome State Fault Refusal :=
  let s := match s.ianik.routine with
    | some r => if routineDue r s then routineMeasured r s else s
    | none => s
  .next ((List.finRange 32).foldl (fun s c => measureEnds c s) s)

/-! ### The 0x0Cxx commands -/

/-- The words of a fault log entry (R557). -/
def logWords (e : LogEntry) : List Word :=
  [n2w e.cause.toNat 24 ||| n2w e.wakes.toNat 16 ||| n2w e.detail.toNat 0, e.frame] ++ words64 e.hcycles

/-- The payload of SVC_FAULT_READ (R569). -/
def faultWords (s : State) : List Word :=
  [hrthFault s, n2w s.flt.overwrites 8 ||| n2w s.flt.log.length 0] ++ s.flt.log.flatMap logWords

/-- SVC_FAULT_READ (R483, R567, R569). -/
def svcFaultReadDef : CmdDef :=
  { opcode := 0x0C00, minVer := 1
    bad := fun r _ => badForm 0 r || badTarget r
    act := fun _ _ s => (s, stOk, faultWords s) }

/-- SVC_FAULT_CLEAR (R555, R556, R567, R568). -/
def svcFaultClearDef : CmdDef :=
  { opcode := 0x0C01, minVer := 2
    needs := fun _ _ s => lcFielded s
    bad := fun r _ => badForm 1 r || badTarget r || rsvd (arg r 3) 3
    wrong := fun m _ _ => m != 1
    act := fun _ r s =>
      let f := if argB r 3 0 then { s.flt with log := [], overwrites := 0 } else s.flt
      ({ s with flt := if argB r 3 1 then clearFault 0xFFFFFFFF f else f }, stOk, []) }

/-- The planned power of a measurement (R559). -/
def planPower (dc : Bool) (a z : F32) : Rat :=
  if dc then f32Q a * f32Q a / f32Q z else f32Q a * f32Q a / (2 * f32Q z)

/-- A planned measurement on channel `c` that the checks of R559 refuse. -/
def planBad (dc : Bool) (a z : F32) (k : Nat) (c : Fin 32) (s : State) : Bool :=
  let y := s.dmpr.ch[c]
  let t := (min (k + 32) (48 * y.wE) : Rat) / (fmHz s.hive.dom.fm : Rat)
  decide (f32Q y.eLim / 2 < planPower dc a z * t) || (dc && decide (f32Q y.dcThr / 2 ≤ f32Q a))

/-- A and K outside their ranges, Z_min outside 0.5 to 32.0 (R234, R559, R568). -/
def planRange (dc : Bool) (a z : F32) (kw : Word) : Bool :=
  !f32Pos (if dc then 2 else 8) a || !f32In (mkRat 1 2) 32 z || rsvd kw 0xFFFF || decide (kw.toNat < 48) ||
  decide (48000 < kw.toNat)

/-- The frequencies of SVC_SPK_TEST; DC has one measurement a channel, reported with frequency 0 (R568). -/
def spkFreqs (r : Req) : List F32 := if argB r 3 0 then [0] else args r 11 (argF r 3 8 3 + 1)

/-- Impedance limits that are not in order (R568). -/
def spkLimits (r : Req) : Bool :=
  !(args r 7 4).all f32Fin || decide (f32Q (arg r 9) ≤ f32Q (arg r 7)) || decide (f32Q (arg r 10) ≤ f32Q (arg r 9)) ||
  decide (f32Q (arg r 8) ≤ f32Q (arg r 10))

/-- Frequencies out of range, or a word beyond the count that is not 0 (R568). -/
def spkFreqBad (r : Req) : Bool :=
  let n := if argB r 3 0 then 0 else argF r 3 8 3 + 1
  (args r 11 n).any (fun f => !f32Rng 10 20000 f) || (args r (11 + n) (8 - n)).any (fun f => f != 0)

/-- The refusals of a routine with STATE and BUSY (R558). -/
def routineWrong (m : Nat) (s : State) : Bool := m != 1 || s.pow.st != .run

/-- SVC_SPK_TEST (R558 to R561, R567, R568). -/
def svcSpkTestDef : CmdDef :=
  { opcode := 0x0C02, minVer := 2, deferred := true
    needs := fun _ _ s => lcFielded s
    bad := fun r s =>
      let dc := argB r 3 0
      badForm 17 r || r.target == 0 || rsvd (arg r 3) (if dc then 1 else 0x701) ||
      planRange dc (arg r 4) (arg r 6) (arg r 5) || spkLimits r || spkFreqBad r || rsvd (arg r 19) 0x3FFFFFFF ||
      (maskChans r.target).any (fun c => planBad dc (arg r 4) (arg r 6) (argF r 5 0 16) c s) ||
      badBulk (argF r 19 0 16) (argF r 19 16 14) ||
      decide (argF r 19 16 14 < 6 * (maskChans r.target).length * (spkFreqs r).length)
    wrong := fun m r s => routineWrong m s || bulkTaken (argF r 19 0 16) (argF r 19 16 14) s
    busy := fun _ s => s.ianik.routine.isSome
    act := fun m r s =>
      let e := effFrame s
      let b := (argF r 19 0 16, argF r 19 16 14)
      let todo := (maskChans r.target).flatMap (fun c => (spkFreqs r).map (fun f => (c.val, f)))
      let x : Routine := ⟨0x0C02, m, r.tag, false, args r 3 17, r.target, todo, e, [], b, [], [], []⟩
      (setRoutine (some x) (defer 0x0C02 m r.tag (some b) s), stDeferred, []) }

/-- SVC_DC_OFFSET (R558, R562, R567, R568). -/
def svcDcOffsetDef : CmdDef :=
  { opcode := 0x0C03, minVer := 2, deferred := true
    bad := fun r _ => badForm 1 r || r.target == 0 || rsvd (arg r 3) 0x3FF || arg r 3 == 0 ||
      decide (1000 < (arg r 3).toNat)
    wrong := fun m _ s => routineWrong m s
    busy := fun _ s => s.ianik.routine.isSome
    act := fun m r s =>
      let x : Routine := ⟨0x0C03, m, r.tag, false, args r 3 1, r.target, [], 0, [], (0, 0), [], [], []⟩
      (setRoutine (some x) (defer 0x0C03 m r.tag none s), stDeferred, []) }

/-- A capture ring that SVC_MIC_LOOP cannot use (R563). -/
def micRingBad (r : Req) (s : State) : Bool :=
  let x := s.p0.rings[ixN 16 (by decide) (argF r 3 0 4)]
  x.st != .running || x.kind != .capture || decide (argF r 3 8 6 < x.b) || decide (x.b + x.c ≤ argF r 3 8 6) ||
  decide (x.k < argF r 6 0 16 + 16)

/-- SVC_MIC_LOOP (R558, R559, R563, R567, R568). -/
def svcMicLoopDef : CmdDef :=
  { opcode := 0x0C04, minVer := 3, deferred := true
    needs := fun _ _ s => lcFielded s
    bad := fun r s =>
      badForm 5 r || (maskChans r.target).length != 1 || rsvd (arg r 3) 0x3F0F || !f32Rng 10 20000 (arg r 4) ||
      planRange false (arg r 5) (arg r 7) (arg r 6) ||
      (maskChans r.target).any (fun c => planBad false (arg r 5) (arg r 7) (argF r 6 0 16) c s) || micRingBad r s
    wrong := fun m _ s => routineWrong m s
    busy := fun _ s => s.ianik.routine.isSome
    act := fun m r s =>
      let e := effFrame s
      let todo := (maskChans r.target).map (fun c => (c.val, arg r 4))
      let x : Routine := ⟨0x0C04, m, r.tag, false, args r 3 5, r.target, todo, e, [], (0, 0), [], [], []⟩
      (setRoutine (some x) (defer 0x0C04 m r.tag none s), stDeferred, []) }

/-- SVC_LINE_HEALTH (R558, R564, R567, R568). -/
def svcLineHealthDef : CmdDef :=
  { opcode := 0x0C05, minVer := 2, deferred := true
    bad := fun r _ => badForm 1 r || rsvd r.target 1 || rsvd (arg r 3) 0xFFFF || decide ((arg r 3).toNat < 480) ||
      decide (48000 < (arg r 3).toNat)
    wrong := fun m _ s => routineWrong m s
    busy := fun _ s => s.ianik.routine.isSome
    act := fun m r s =>
      let x : Routine := ⟨0x0C05, m, r.tag, false, args r 3 1, r.target, [], effFrame s, [], (0, 0), [], [], []⟩
      (setRoutine (some x) (defer 0x0C05 m r.tag none s), stDeferred, []) }

/-- Frames that a capture ring does not hold: not written yet, or written over (R565). -/
def framesGone (x : Ring) (n k : Nat) : Bool :=
  x.kind != .capture || decide (n < x.n0) || decide (x.n0 + x.fill < n + k) || decide (n + x.k < x.n0 + x.fill)

/-- The words of frames `n` to `n + k - 1` of a capture ring, frame after frame (R450, R565). -/
def frameWords (x : Ring) (n : Nat) : Nat → State → List Word × State
  | 0, s => ([], s)
  | k + 1, s =>
    let (ws, s) := rdStoresX .ianik (x.base + (n - x.n0) % x.k * ringFw x) (ringFw x) (freeFlush 64 s)
    let (vs, s) := frameWords x (n + 1) k s
    (ws ++ vs, s)

/-- SVC_CAPTURE_READ: the frames are copied at the strobe, so none is written over meanwhile (R565, R567, R568). -/
def svcCaptureReadDef : CmdDef :=
  { opcode := 0x0C06, minVer := 2
    needs := fun _ _ s => lcFielded s
    bad := fun r s =>
      let x := s.p0.rings[tgtRing r]
      badForm 4 r || rsvd r.target 0xF || rsvd (arg r 5) 0xFFFF || arg r 5 == 0 || decide (4800 < (arg r 5).toNat) ||
      rsvd (arg r 6) 0x3FFFFFFF || badBulk (argF r 6 0 16) (argF r 6 16 14) || framesGone x (arg64 r 3) (argF r 5 0 16) ||
      decide (argF r 6 16 14 < argF r 5 0 16 * ringFw x)
    wrong := fun m r s => m != 1 || bulkTaken (argF r 6 0 16) (argF r 6 16 14) s
    act := fun m r s =>
      let (ws, s) := frameWords s.p0.rings[tgtRing r] (arg64 r 3) (argF r 5 0 16) s
      (ownBulk m (argF r 6 0 16) (argF r 6 16 14) (ramWrites (bulkAddr (argF r 6 0 16)) ws s), stOk,
        [n2w ws.length 0, 0]) }

/-- SVC_ABORT (R566 to R568). -/
def svcAbortDef : CmdDef :=
  { opcode := 0x0C07, minVer := 2
    bad := fun r _ => badForm 0 r || badTarget r
    wrong := fun m _ _ => m != 1
    act := fun _ _ s => (setRoutine (s.ianik.routine.map (fun r => { r with abort := true })) s, stOk, []) }

/-! ### Meanings -/

/-- SVC_FAULT_READ (R569). -/
def execSvcFaultRead (m : Fin 4) (r : Req) (s : State) : Host.Outcome State Fault Refusal :=
  .next (mbxCommand svcFaultReadDef m r s)
/-- SVC_FAULT_CLEAR (R567). -/
def execSvcFaultClear (m : Fin 4) (r : Req) (s : State) : Host.Outcome State Fault Refusal :=
  .next (mbxCommand svcFaultClearDef m r s)
/-- SVC_SPK_TEST (R560). -/
def execSvcSpkTest (m : Fin 4) (r : Req) (s : State) : Host.Outcome State Fault Refusal :=
  .next (mbxCommand svcSpkTestDef m r s)
/-- SVC_DC_OFFSET (R562). -/
def execSvcDcOffset (m : Fin 4) (r : Req) (s : State) : Host.Outcome State Fault Refusal :=
  .next (mbxCommand svcDcOffsetDef m r s)
/-- SVC_MIC_LOOP (R563). -/
def execSvcMicLoop (m : Fin 4) (r : Req) (s : State) : Host.Outcome State Fault Refusal :=
  .next (mbxCommand svcMicLoopDef m r s)
/-- SVC_LINE_HEALTH (R564). -/
def execSvcLineHealth (m : Fin 4) (r : Req) (s : State) : Host.Outcome State Fault Refusal :=
  .next (mbxCommand svcLineHealthDef m r s)
/-- SVC_CAPTURE_READ (R565). -/
def execSvcCaptureRead (m : Fin 4) (r : Req) (s : State) : Host.Outcome State Fault Refusal :=
  .next (mbxCommand svcCaptureReadDef m r s)
/-- SVC_ABORT (R566). -/
def execSvcAbort (m : Fin 4) (r : Req) (s : State) : Host.Outcome State Fault Refusal :=
  .next (mbxCommand svcAbortDef m r s)

end Sys2Proof.Machine
end

