-- ==== Sys2Proof/Machine/HostPort.lean ====
section
/-! DEFINITION. PSP1 and the host register window: register reads and writes by their access codes, the bit-set and
bit-clear aliases, the page window, transfers and their odd events (R395 to R400, R439 to R447, R465 to R468, R484,
R486, R570 to R582). -/

namespace Sys2Proof.Machine

/-! ### Protocol errors -/

/-- Change the PSP1 island. -/
def modHost (f : HostPort → HostPort) (s : State) : State := { s with host := f s.host }

/-- Set flag `i` of PSP1_STAT; every flag but PSP_BUZZED counts and raises EV51 (R446, R447). -/
def pspFlag (i : Nat) (s : State) : State :=
  let s := modHost (fun h => { h with flags := h.flags ||| BitVec.ofNat 8 (2 ^ i) }) s
  if i = 6 then s else raise 51 (bit i) (modHost (fun h => { h with errCnt := stick 255 h.errCnt }) s)

/-! ### Registers -/

/-- The Stove's registers are out of reset (R574). -/
def stoveOn (s : State) : Bool := s.stove.running

/-- STKR_SW_SEQ (R273). -/
def swSeq (s : State) : Word :=
  let w := s.stove.sw
  n2w (w.cmpSeq % 65536) 16 ||| n2w w.applied.toNat 8 ||| b2w w.clamped 2 ||| b2w w.noEdge 1 |||
  b2w (s.stove.sel == some 12) 0

/-- The value of the register at host address `a`, from the state that holds it; WO fields and reserved addresses read 0
(R571, R572, R574). -/
def regVal (a : Nat) (s : State) : Word :=
  if a = 0x0000 then devId
  else if a = 0x0004 then hrthStatus s
  else if a = 0x0008 then hrthFault s
  else if a = 0x000C then keeperStatus (keeperLeft s) s
  else if a = 0x0010 then resetCtl s
  else if a = 0x0014 then 0xB0
  else if a = 0x0024 then mbxStat s.mbx[0]
  else if a = 0x002C then mbxStat s.mbx[1]
  else if a = 0x0034 then mbxStat s.mbx[2]
  else if a = 0x003C then mbxStat s.mbx[3]
  else if a = 0x0040 then s.evt.pend.extractLsb' 0 32
  else if a = 0x0044 then s.evt.pend.extractLsb' 32 32
  else if a = 0x0048 then s.evt.mask.extractLsb' 0 32
  else if a = 0x004C then s.evt.mask.extractLsb' 32 32
  else if a = 0x0050 then s.evt.sat.extractLsb' 0 32
  else if a = 0x0054 then s.evt.sat.extractLsb' 32 32
  else if a = 0x0060 then s.host.fcLatch.extractLsb' 0 32
  else if a = 0x0064 then s.host.fcLatch.extractLsb' 32 32
  else if a = 0x0070 then b2w s.host.winPage 0
  else if a = 0x0080 then psp1Stat s
  else if 0x0100 ≤ a ∧ a < 0x0200 then n2w (vgetD s.evt.counts ((a - 0x100) / 4) 0) 0
  else if 0x0200 ≤ a ∧ a < 0x0300 then (vgetD s.boot.meas ((a - 0x200) / 32) 0).extractLsb' (32 * (a / 4 % 8)) 32
  else if a = 0x0300 then bootResult s
  else if a = 0x0304 then s.boot.hcyc
  else if a = 0x0308 then s.boot.memFail
  else if a = 0x030C then s.boot.cellFail
  else if a = 0x0310 then s.boot.belFail
  else if a = 0x0340 then bootStatus s
  else if a = 0x0380 then (if stoveOn s then swSeq s else 0)
  else if a = 0x0384 then (if stoveOn s then s.stove.sw.phLatch else 0)
  else if a = 0x0388 then (if stoveOn s then s.stove.sw.ofs else 0)
  else if a = 0x03A0 then dprStat s
  else 0

/-- A read of FRAME_COUNT_LO latches the counter copy (R552). -/
def latchFrame (s : State) : State := modHost (fun h => { h with fcLatch := BitVec.ofNat 64 (frameCopy s) }) s

/-- A read of STKR_SW_SEQ latches the phase of the comparison it reports; before the Stove runs it latches nothing
(R273, R574). -/
def latchPhase (s : State) : State :=
  if stoveOn s then
    { s with stove := { s.stove with sw := { s.stove.sw with phLatch := BitVec.ofInt 32 s.stove.sw.phaseNow } } }
  else s

/-- The MEAS latch (R575). -/
def latchMeas (s : State) : State := modHost (fun h => { h with measLatch := s.boot.meas }) s

/-- A direct read of a register: the latches first, then its value. A read of KEEPER_STATUS draws the seconds left anew
(log entry 2). -/
def regRead (a : Nat) (s : State) : Word × State :=
  let s := if a = 0x0060 then latchFrame s else if a = 0x0380 then latchPhase s else s
  (regVal a s, if a = 0x000C then { s with fresh := s.fresh + 1 } else s)

/-- The registers whose fields are RW: EVT_MASK0, EVT_MASK1, WIN_PAGE, STKR_SW_FREQ. -/
def isRw (a : Nat) : Bool := a == 0x0048 || a == 0x004C || a == 0x0070 || a == 0x0388

/-- Write the RW field of a register (R548, R578, R574). -/
def rwPut (a : Nat) (v : Word) (s : State) : State :=
  if a = 0x0048 then { s with evt := { s.evt with mask := s.evt.mask.extractLsb' 32 32 ++ v } }
  else if a = 0x004C then { s with evt := { s.evt with mask := v ++ s.evt.mask.extractLsb' 0 32 } }
  else if a = 0x0070 then modHost (fun h => { h with winPage := v.getLsbD 0 }) s
  else if a = 0x0388 then
    (if stoveOn s then { s with stove := { s.stove with sw := { s.stove.sw with ofs := v } } } else s)
  else s

/-- Clear the W1C bits of a register that `v` names (R7, R400, R447, R466, R555). -/
def w1cPut (a : Nat) (v : Word) (s : State) : State :=
  if a = 0x0008 then { s with flt := clearFault v s.flt }
  else if a = 0x0024 ∨ a = 0x002C ∨ a = 0x0034 ∨ a = 0x003C then
    (if v.getLsbD 29 then { s with mbx := vmodN s.mbx ((a - 0x24) / 8) (fun b => { b with ringLost := false }) } else s)
  else if a = 0x0040 then { s with evt := { s.evt with pend := s.evt.pend &&& ~~~ (v.zeroExtend 64) } }
  else if a = 0x0044 then { s with evt := { s.evt with pend := s.evt.pend &&& ~~~ (v ++ (0 : Word)) } }
  else if a = 0x0080 then modHost (fun h => { h with flags := h.flags &&& ~~~ (v.extractLsb' 0 8) }) s
  else if a = 0x03A0 then
    (if v.getLsbD 31 then modHost (fun h => { h with dprColl := false, dprCnt := 0 }) s else s)
  else s

/-- A host write to MBXn_DOORBELL (R467, R468, R484, R486). -/
def doorbell (n : Fin 4) (seq : Byte) (s : State) : State :=
  let barred := (n == 2 && (s.hw[0].partner != 0 || s.hw[1].partner != 0)) || (n == 3 && !s.pow.sawStandby)
  if barred || !mbxFree n s then ringLost n s else ringMbx n seq s

/-- A host write to RESET_CTL: with the key it applies the Ianik reset, in STANDBY, RUN and RUN to STANDBY only
(R580). -/
def rstWrite (v : Word) (s : State) : State :=
  if v.extractLsb' 8 8 = 0xA5 ∧ v.getLsbD 0 = true ∧ inService s = true then ianikReset 2 s else s

/-- A commit of the software loop crosses to the Stove (R274, R574). -/
def swCommit (v : Word) (s : State) : State :=
  if stoveOn s then
    { s with stove := { s.stove with sw := { s.stove.sw with pend := s.stove.sw.pend ++ [(v.extractLsb' 0 8, s.stove.sw.ofs)] } } }
  else s

/-- The action of the WO fields of a register (R447, R465, R274, R580). -/
def woPut (a : Nat) (v : Word) (s : State) : State :=
  if a = 0x0010 then rstWrite v s
  else if a = 0x0020 ∨ a = 0x0028 ∨ a = 0x0030 ∨ a = 0x0038 then
    doorbell (ixN 4 (by decide) ((a - 0x20) / 8)) (v.extractLsb' 0 8) s
  else if a = 0x0080 then (if v.getLsbD 23 then modHost (fun h => { h with errCnt := 0 }) s else s)
  else if a = 0x038C then swCommit v s
  else s

/-- A write of a register at its own address: every field by its access code (R7). -/
def regWrite (a : Nat) (v : Word) (s : State) : State := woPut a v (w1cPut a v (rwPut a v s))

/-- A write through the bit-set alias (R395, R396). -/
def setWrite (a : Nat) (v : Word) (s : State) : State := if isRw a then rwPut a (regVal a s ||| v) s else s

/-- A write through the bit-clear alias (R395, R396). -/
def clearWrite (a : Nat) (v : Word) (s : State) : State :=
  if isRw a then rwPut a (regVal a s &&& ~~~ v) s else w1cPut a v s

/-! ### The window -/

/-- A register address that is unmapped: in Hearth-safe all but 0x0000 to 0x00FF (R445, R572). -/
def regUnmapped (a : Nat) (s : State) : Bool := s.pow.st == .hearthSafe && decide (0x100 ≤ a % 0x1000)

/-- The area of a host address: registers 0, aliases 1 and 2, unmapped 3, page window 4 (R445, R570). -/
def areaOf (a : Nat) : Nat :=
  if a < 0x1000 then 0 else if a < 0x2000 then 1 else if a < 0x3000 then 2 else if a < 0x8000 then 3 else 4

/-- The first address past an area. -/
def areaEnd (k : Nat) : Nat := if k = 4 then 0x10000 else if k = 3 then 0x8000 else 0x1000 * (k + 1)

/-- The RAM address of a host address in the page window (R397). -/
def winAddr (page : Bool) (a : Nat) : Nat := (a - 0x8000) + if page then 0x8000 else 0

/-- A host read of a word of the mailbox RAM: 0 where its codeword is uncorrectable, and 0 at the reserved word 0xF00C
(R397, R408, R409, R464). -/
def ramRead (a : Nat) (s : State) : Word × State :=
  if a / 4 * 4 = 0xF00C then (0, s) else
    let (ok, s) := checkWord ⟨.mailboxRam, 0, 0, a / 4⟩ s
    (if ok then rdW s.ram a else 0, s)

/-- One unit of a read; `latched`: the transfer latched MEAS (R443, R445, R575). -/
def unitRead (latched page : Bool) (a : Nat) (s : State) : Word × State :=
  let a := a / 4 * 4
  match areaOf a with
  | 4 => ramRead (winAddr page a) s
  | 3 => (0, pspFlag 5 s)
  | 0 =>
    if regUnmapped a s then (0, pspFlag 5 s)
    else if latched && decide (0x200 ≤ a) && decide (a < 0x300) then
      ((vgetD s.host.measLatch ((a - 0x200) / 32) 0).extractLsb' (32 * (a / 4 % 8)) 32, s)
    else regRead a s
  | _ => if regUnmapped a s then (0, pspFlag 5 s) else (regVal (a % 0x1000) s, s)

/-- The open transfer after one more data unit: the address advances and the count falls (R440). -/
def Transfer.next (x : Transfer) : Transfer := { x with addr := x.addr + 4, count := x.count - 1 }

/-- Close one data unit of the open transfer. -/
def unitDone (s : State) : State := modHost (fun h => { h with xfer := h.xfer.map Transfer.next }) s

/-- The unit at which the address passes the end of its area sets PSP_AREA_END; the address never comes back into the
area, so it is set once a transfer (R446). -/
def areaPassed (x : Transfer) (s : State) : State := if x.addr = areaEnd x.area then pspFlag 0 s else s

/-- PSP1 reads the next data unit of an open read transfer, with 0x3C sent; past the area's end a unit reads 0
(R440, R443, R446). -/
def unitNext (s : State) : State :=
  match s.host.xfer with
  | none => s
  | some x =>
    if !x.read || x.dead || x.count == 0 then s else
      let (w, s) := if areaEnd x.area ≤ x.addr then ((0 : Word), areaPassed x s) else unitRead x.meas x.page x.addr s
      unitDone (modHost (fun h => { h with statusUnit := 0x3C, out := h.out ++ [w] }) s)

/-- The next `n` data units of a read. -/
def unitsNext : Nat → State → State
  | 0, s => s
  | n + 1, s => unitsNext n (unitNext s)

/-- The units of the open read transfer that are still to be read. -/
def unitsLeft (s : State) : Nat :=
  match s.host.xfer with
  | some x => if x.read && !x.dead then x.count else 0
  | none => 0

/-- A free number of the units left are read: within the bounds of R443 the instant of each read is not fixed. `first`:
the first unit has been read in any case. -/
def unitsSome (first : Bool) (s : State) : State :=
  if unitsLeft s = 0 then s else
    let k := if first && s.host.out.isEmpty then 1 else 0
    let (w, s) := drawWord s
    unitsNext (k + w.toNat % (unitsLeft s + 1 - k)) s

/-- A read transfer that an M tick finds open has read some of its units before the tick (R443). -/
def hostReads (s : State) : State := if mbxReach s then unitsSome false s else s

/-- One unit of a write at host address `a` (R395, R445, R446). A write of the page window goes to RAM by the page of its
transfer. -/
def hostWrite (page : Bool) (a : Nat) (v : Word) (s : State) : State :=
  let a := a / 4 * 4
  match areaOf a with
  | 4 => hostRam (winAddr page a) v s
  | 3 => pspFlag 5 s
  | 0 => if regUnmapped a s then pspFlag 5 s else regWrite a v s
  | 1 => if regUnmapped a s then pspFlag 5 s else setWrite (a % 0x1000) v s
  | _ => if regUnmapped a s then pspFlag 5 s else clearWrite (a % 0x1000) v s

/-- The page of a write unit: the one its transfer took at its address unit (R445, R578). -/
def pageNow (s : State) : Bool :=
  match s.host.xfer with
  | some x => x.page
  | none => s.host.winPage

/-- PSP1 takes a write unit at host address `a`: it serves the window, and the unit is the next one of an open write
transfer, or a transfer of one unit where none is open (R440, R573). -/
def unitTaken (a : Nat) (s : State) : Bool :=
  mbxReach s &&
    match s.host.xfer with
    | none => true
    | some x => !x.read && !x.dead && decide (0 < x.count) && x.addr % 0x10000 == a / 4 * 4

/-- The unit lies past the end of its transfer's area (R446). -/
def pastEnd (s : State) : Bool :=
  match s.host.xfer with
  | none => false
  | some x => decide (areaEnd x.area ≤ x.addr)

/-- A write unit past the area's end is discarded; one PSP1 does not take is no unit of the transfer (R440, R446). `put`
does what the unit does in its area. -/
def unitPut (a : Nat) (put : State → State) (s : State) : State :=
  if !unitTaken a s then s
  else if pastEnd s then unitDone (s.host.xfer.elim s (fun x => areaPassed x s))
  else unitDone (put s)

/-- A write unit at host address `a` (R440, R445, R446). -/
def hostUnit (a : Nat) (v : Word) (s : State) : State := unitPut a (hostWrite (pageNow s) a v) s

/-! ### Meanings: registers -/

/-- MBX_DOORBELL (R465, R467, R468, R484, R486). -/
def execMbxDoorbell (n : Fin 4) (seq : Byte) (s : State) : Host.Outcome State Fault Refusal :=
  .next (hostUnit (0x20 + 8 * n.val) (seq.zeroExtend 32) s)

/-- HRTH_RST_IANIK: a write to RESET_CTL (R580). -/
def execHrthRstIanik (v : Word) (s : State) : Host.Outcome State Fault Refusal := .next (hostUnit 0x10 v s)

/-- PSP_CNT_CLR: a write of bit 23 of PSP1_STAT (R447). -/
def execPspCntClr (s : State) : Host.Outcome State Fault Refusal := .next (hostUnit 0x80 0x00800000 s)

/-- WIN_PAGE_WRITE (R578, R581). -/
def execWinPageWrite (v : Word) (s : State) : Host.Outcome State Fault Refusal := .next (hostUnit 0x70 v s)

/-- A read of one register at its own address: the next unit of an open read transfer, or a transfer of one unit where
none is open; what it returns stands in the data units read (R440). -/
def hostRead (a : Nat) (s : State) : State :=
  if !mbxReach s then s else
    match s.host.xfer with
    | some x => if x.addr == a && x.area == areaOf a then unitNext s else s
    | none =>
      let (w, s) := unitRead false s.host.winPage a s
      modHost (fun h => { h with statusUnit := 0x3C, out := [w] }) s

/-- STKR_SW_SEQ_READ (R273, R574). -/
def execStkrSwSeqRead (s : State) : Host.Outcome State Fault Refusal := .next (hostRead 0x380 s)

/-- STKR_SW_COMMIT: a write to STKR_SW_COMMIT (R273, R274). -/
def execStkrSwCommit (v : Word) (s : State) : Host.Outcome State Fault Refusal := .next (hostUnit 0x38C v s)

/-- FRAME_COUNT_LO_READ (R552). -/
def execFrameCountLoRead (s : State) : Host.Outcome State Fault Refusal := .next (hostRead 0x60 s)

/-- MEAS_LATCH_READ: the address unit of a read transfer that starts in 0x0200 to 0x02FF (R575). -/
def execMeasLatchRead (s : State) : Host.Outcome State Fault Refusal :=
  if mbxReach s && s.pow.st != .hearthSafe then .next (latchMeas s) else .next s

/-- BIT_SET_ALIAS_WRITE: `addr` is the register's own address (R395, R396). -/
def execBitSetAliasWrite (addr : BitVec 16) (v : Word) (s : State) : Host.Outcome State Fault Refusal :=
  .next (hostUnit (0x1000 + addr.toNat % 0x1000) v s)

/-- BIT_CLEAR_ALIAS_WRITE: `addr` is the register's own address (R395, R396). -/
def execBitClearAliasWrite (addr : BitVec 16) (v : Word) (s : State) : Host.Outcome State Fault Refusal :=
  .next (hostUnit (0x2000 + addr.toNat % 0x1000) v s)

/-- REGISTER_WRITE: a write unit at any host address (R7, R445). -/
def execRegisterWrite (addr : BitVec 16) (v : Word) (s : State) : Host.Outcome State Fault Refusal :=
  .next (hostUnit addr.toNat v s)

/-- A write of RAM address `r` that collides with port A, which stores `w` (R398, R400). -/
def collide (r : Nat) (w : Word) (s : State) : State :=
  let s := modHost (fun h => { h with dprColl := true, dprCnt := stick 255 h.dprCnt, dprAddr := r / 4 }) (ramWrite r w s)
  raise 55 (dprStat s) s

/-- MAILBOX_RAM_WRITE: a write unit in the page window; `coll` is the word that port A writes less than 2 Ianik cycles
apart, which is then stored (R398, R400). -/
def execMailboxRamWrite (addr : BitVec 16) (v : Word) (coll : Option Word) (s : State) :
    Host.Outcome State Fault Refusal :=
  let a := 0x8000 + addr.toNat / 4 * 4 % 0x8000
  match coll with
  | none => .next (hostUnit a v s)
  | some w => .next (unitPut a (collide (winAddr (pageNow s) a) w) s)

/-! ### Meanings: transfers -/

/-- PSP1_COMMAND_UNIT: the command and address units open a transfer. A command with bit 6 set is ignored until the select
rises. A read that starts in MEAS latches it; its data units are read afterwards (R440 to R446, R575). -/
def execPsp1CommandUnit (cmd : Byte) (addr : BitVec 16) (s : State) : Host.Outcome State Fault Refusal :=
  if !mbxReach s then .next s else
    let a := addr.toNat / 4 * 4
    let bad := cmd.getLsbD 6
    let rd := cmd.getLsbD 7
    let meas := rd && !bad && decide (0x200 ≤ a) && decide (a < 0x300) && s.pow.st != .hearthSafe
    let x : Transfer := ⟨rd, fld cmd 0 6 + 1, a, areaOf a, s.host.winPage, bad, meas⟩
    let s := modHost (fun h => { h with xfer := some x, statusUnit := 0, out := [] }) s
    let s := if bad then pspFlag 4 s else s
    .next (if meas then latchMeas s else s)

/-- The rest of the open transfer is ignored (R442, R444, R446). -/
def xferDead (s : State) : State := modHost (fun h => { h with xfer := h.xfer.map (fun x => { x with dead := true }) }) s

/-- The rest of the transfer on PSP1 is ignored already. -/
def isDead (s : State) : Bool :=
  match s.host.xfer with
  | some x => x.dead
  | none => false

/-- The transfer on PSP1 is over. -/
def xferClosed (s : State) : State := modHost (fun h => { h with xfer := none }) s

/-- PSP1_SEL_RISE: the transfer ends. A read whose status unit was sent has read its units, all of them where it ends
complete (R443, R446). -/
def execPsp1SelRise (k : SelRise) (s : State) : Host.Outcome State Fault Refusal :=
  if !mbxReach s then .next s
  else if isDead s then .next (xferClosed s)
  else
    match k with
    | .insideUnit => .next (xferClosed (pspFlag 1 (unitsSome true s)))
    | .atBoundary => .next (xferClosed (pspFlag 2 (unitsSome true s)))
    | .afterExtraEdges => .next (xferClosed (pspFlag 3 (unitsNext (unitsLeft s) s)))
    | .beforeStatus => .next (xferClosed (modHost (fun h => { h with out := [] }) s))
    | .complete => .next (xferClosed (unitsNext (unitsLeft s) s))

/-- PSP_BUZZED: 64 wait edges have passed on a read whose first unit is not ready; no unit is read (R442, R446). -/
def execPspBuzzed (s : State) : Host.Outcome State Fault Refusal :=
  if mbxReach s && decide (0 < unitsLeft s) && s.host.out.isEmpty then
    .next (xferDead (modHost (fun h => { h with statusUnit := 0xAA }) (pspFlag 6 s)))
  else .next s

/-- PSP_BUSY_DROP: 64 wait edges have passed on a write unit outside the mailbox RAM; the rest of the transfer is ignored,
and the pending unit is still applied (R444, R446). -/
def execPspBusyDrop (addr : BitVec 16) (v : Word) (s : State) : Host.Outcome State Fault Refusal :=
  if !unitTaken addr.toNat s || areaOf addr.toNat == 4 then .next s else
    .next (xferDead (pspFlag 7 (hostUnit addr.toNat v s)))

end Sys2Proof.Machine
end

