-- ==== Sys2Proof/Machine/Power.lean ====
section
/-! DEFINITION. Supplies, wake and reset balls, tamper and glitch monitors, KEEPER and the presence window, the thermal
sensor, the watchdog, and the Hearth responder (R25 to R34, R417, R483, R487 to R494, R499, R508 to R513, R553 to R557,
R588 to R590, R596). -/

namespace Sys2Proof.Machine

/-! ### Wake -/

/-- BOOT_SEL[1:0] as applied: in PRODUCTION and RETURNED, 0b01 and 0b10 read as 0b00 where no presence window is open
(R512). -/
def selApplied (s : State) : BitVec 2 :=
  if lcFielded s && !s.keeper.isOpen && (s.pow.bootSel == 1 || s.pow.bootSel == 2) then 0 else s.pow.bootSel

/-- The order of sources that BOOT_SEL and PUSH_OFF give: 0 slots, 1 push, 2 recovery (R510 to R512). -/
def sourceOrder (s : State) : List Nat :=
  let order := match (selApplied s).toNat with
    | 0 => [0, 1, 2]
    | 1 => [1, 2]
    | 2 => [2]
    | _ => [0, 2]
  if s.pow.recovery then [2] else if s.boot.fuses.pushOff then order.filter (· != 1) else order

/-- Power-up starts with its step 1 (R26, R509, R511, R513, R579). -/
def wakeNow (s : State) : State :=
  let s := { s with pow := { s.pow with st := .powerUp, wakes := s.pow.wakes + 1, bootCrit := true, wakeHeld := false } }
  let order := sourceOrder s
  let skip := order.contains 0 && s.pow.attempts == 3
  let s := modBoot (fun b => { b with
    step := 1, sel := selApplied s, order := if skip then order.filter (· != 0) else order }) s
  if skip then bootNote 8 0 s else s

/-- Nothing but WAKE keeps the device in HEARTH: RST_N high, every rail good, and no boundary scan instruction that
holds the system reset (R26, R588, R599). -/
def wakeOpen (s : State) : Bool :=
  s.pow.st == .hearth && s.pow.rstN && s.pow.rails.toList.all id && !s.scan.inForce

/-- Power-up starts in HEARTH where WAKE is high, or where a request of the way there stands (R28, R34, log entry 67). -/
def tryWake (s : State) : State := if wakeOpen s && (s.pow.wakePin || s.pow.wakeHeld) then wakeNow s else s

/-- WAKE_REQUEST: WAKE has been high for 64 Hearth cycles and stays high, or falls, afterwards; `w.sel` is BOOT_SEL. A
request on the way to HEARTH stands until HEARTH is reached (R26, R28, R34, R511). -/
def execWakeRequest (w : WakeBalls) (s : State) : Host.Outcome State Fault Refusal :=
  let s := { s with pow := { s.pow with
    wakePin := w.stays, bootSel := w.sel, wakeHeld := s.pow.wakeHeld || s.pow.st == .standbyToHearth } }
  .next (if wakeOpen s then wakeNow s else s)

/-! ### RST_N and the rails -/

/-- The Hearth is powered. -/
def hearthOn (s : State) : Bool := s.pow.st != .off

/-- RST_N counts as low: a system reset, from every state but OFF (R26, R32, R596). -/
def rstLow (s : State) : State :=
  let s := { s with pow := { s.pow with rstN := false } }
  if hearthOn s then systemReset s else s

/-- RST_N_LOW (R26, R32, R596). -/
def execRstNLow (s : State) : Host.Outcome State Fault Refusal := .next (rstLow s)

/-- RST_N_RISE: a pending wake starts power-up (R26, R28, R29). -/
def execRstNRise (s : State) : Host.Outcome State Fault Refusal :=
  .next (tryWake { s with pow := { s.pow with rstN := true } })

/-- The number of a rail in the order of R589. -/
def railIx : Rail → Fin 6
  | .vddHearth => 0
  | .vddioA => 1
  | .vddCore => 2
  | .vddioB => 3
  | .vddLine => 4
  | .vddaStove => 5

/-- A rail reports good or bad (R589). -/
def setRail (r : Rail) (good : Bool) (s : State) : State :=
  { s with pow := { s.pow with rails := s.pow.rails.set (railIx r) good } }

/-- VDD_CORE has failed: from every state but OFF and a commanded HEARTH entry the device enters HEARTH, and the loss is
recorded (R26, R32, R555, R557). -/
def coreLoss (s : State) : State :=
  let s := setRail .vddCore false s
  match s.pow.st with
  | .hearth | .powerUp | .standby | .run | .runToStandby | .hearthSafe =>
    systemReset (logFault 0x05 (BitVec.ofNat 16 (powCode s.pow.st)) { s with flt := { s.flt with supply := true } })
  | .off | .standbyToHearth => s

/-- VDD_CORE_LOSS (R26, R589). -/
def execVddCoreLoss (s : State) : Host.Outcome State Fault Refusal := .next (coreLoss s)

/-- VDDIO_A_FAIL: the RST_N receiver reads low (R589). -/
def execVddioAFail (s : State) : Host.Outcome State Fault Refusal := .next (rstLow (setRail .vddioA false s))

/-- VDD_HEARTH_FALL: OFF (R26). -/
def execVddHearthFall (s : State) : Host.Outcome State Fault Refusal := .next (powerLost (setRail .vddHearth false s))

/-- VDD_HEARTH_RISE: the Hearth power-on reset, and HEARTH once the Hearth configuration check passes (R26, R56, R487,
R488, R571). -/
def execVddHearthRise (cfgOk keeperLow : Bool) (s : State) : Host.Outcome State Fault Refusal :=
  if hearthOn s then .next s else
    let s := setRail .vddHearth true s
    if !cfgOk then .next s else
      let was := s.keeper.isOpen
      let s := { s with pow := { s.pow with st := .hearth }, keeper := { pin := keeperLow } }
      .next (raiseIf was 7 3 s)

/-- RAIL_FAIL: VDDIO_B, VDD_LINE and VDDA_STOVE change no power state; the others act as their own events (R589,
R590). -/
def execRailFail (r : Rail) (s : State) : Host.Outcome State Fault Refusal :=
  match r with
  | .vddHearth => .next (powerLost (setRail .vddHearth false s))
  | .vddioA => .next (rstLow (setRail .vddioA false s))
  | .vddCore => .next (coreLoss s)
  | .vddioB | .vddLine | .vddaStove => .next (setRail r false s)

/-- RAIL_GOOD: a pending wake starts power-up when the last rail comes (R28, R588, R589). -/
def execRailGood (r : Rail) (s : State) : Host.Outcome State Fault Refusal := .next (tryWake (setRail r true s))

/-! ### Tamper and glitches -/

/-- Tamper or a glitch is declared: its fault bit, a log entry, EV59, the Vault wiped and the presence window closed
(R417, R488, R550, R555, R557). -/
def declared (cause : Nat) (s : State) : State :=
  let s := { s with flt := if cause = 0 then { s.flt with tamper := true } else { s.flt with glitch := true } }
  closePresence 2 (raise 59 (n2w cause 0) (wipeVault (if cause = 0 then 0 else 1) (logFault 0x08 (BitVec.ofNat 16 cause) s)))

/-- TAMPER_N_LOW (R417). -/
def execTamperNLow (s : State) : Host.Outcome State Fault Refusal := .next (if hearthOn s then declared 0 s else s)

/-- VOLTAGE_GLITCH (R417, R589). -/
def execVoltageGlitch (s : State) : Host.Outcome State Fault Refusal := .next (if hearthOn s then declared 1 s else s)

/-- CLOCK_GLITCH: the Ianik clock runs (R417, R589). -/
def execClockGlitch (s : State) : Host.Outcome State Fault Refusal := .next (if hearthOn s then declared 2 s else s)

/-! ### KEEPER -/

/-- KEEPER_RELEASE: 32 high samples reset the hold counter and arm it (R487). -/
def execKeeperRelease (s : State) : Host.Outcome State Fault Refusal :=
  .next (if hearthOn s then { s with keeper := { s.keeper with pin := false, armed := true } } else s)

/-- KEEPER_HOLD: an armed counter has reached 2.0 s: the window opens, or its count restarts (R487, R488, R550). -/
def execKeeperHold (s : State) : Host.Outcome State Fault Refusal :=
  if !hearthOn s then .next s
  else if s.keeper.armed then
    .next (raise 6 (n2w s.keeper.len 0) { s with keeper := { s.keeper with
      pin := true, armed := false, isOpen := true, openLen := s.keeper.len } })
  else .next { s with keeper := { s.keeper with pin := true } }

/-- PRESENCE_WINDOW_END (R488, R550). -/
def execPresenceWindowEnd (s : State) : Host.Outcome State Fault Refusal :=
  .next (if hearthOn s then closePresence 0 s else s)

/-! ### The thermal sensor -/

/-- The temperature is at or above `t` °C. -/
def tjAt (t : Nat) (tj : F32) : Bool := f32Fin tj && decide ((t : Rat) ≤ f32Q tj)

/-- The temperature is below `t` °C. -/
def tjUnder (t : Nat) (tj : F32) : Bool := f32Fin tj && decide (f32Q tj < (t : Rat))

/-- EV57 at the first conversion at or above 115 °C (R553). -/
def thermWarn (tj : F32) (s : State) : State :=
  let hit := tjAt 115 tj && !s.hearth.warnHeld
  raiseIf hit 57 tj { s with hearth := { s.hearth with warnHeld := hit || (s.hearth.warnHeld && !tjUnder 110 tj) } }

/-- EV58 at the first conversion at or above 130 °C, with its fault bit and log entry; in RUN Ianik is to start the RUN
to STANDBY transition (R553, R554, R555, R557). -/
def thermCrit (tj : F32) (s : State) : State :=
  let hit := tjAt 130 tj && !s.hearth.critHeld
  let s := { s with hearth := { s.hearth with critHeld := hit || (s.hearth.critHeld && !tjUnder 125 tj) } }
  if hit then
    let s := { s with
      flt := { s.flt with therm := true }
      hearth := { s.hearth with runBarred := true, thermPends := s.hearth.thermPends || s.pow.st == .run } }
    raise 58 tj (logFault 0x0C (BitVec.ofInt 16 (f32Q tj).floor) s)
  else s

/-- THERMAL_CONVERSION (R553, R554). -/
def execThermalConversion (tj : F32) (s : State) : Host.Outcome State Fault Refusal :=
  if !hearthOn s then .next s else
    let s := { s with hearth := { s.hearth with tj := tj, runBarred := s.hearth.runBarred && !tjUnder 110 tj } }
    .next (thermCrit tj (thermWarn tj s))

/-! ### The watchdog -/

/-- WATCHDOG_EXPIRY: recorded, with EV63; the Ianik reset, or Hearth-safe at the fourth expiry within 10 s. `earlier` is
the number of expiries within the 10 s before it (R491, R494, R555, R557). -/
def execWatchdogExpiry (earlier : Fin 4) (s : State) : Host.Outcome State Fault Refusal :=
  if !poweredUp s || s.pow.ianikRst then .next s else
    let n := min earlier.val s.hearth.wdTotal + 1
    let s := { s with
      flt := { s.flt with wdog := true }
      hearth := { s.hearth with wdWindow := n, wdTotal := stick 255 s.hearth.wdTotal, wdRestarted := false } }
    let s := raise 63 (n2w n 0) (logFault 0x03 (BitVec.ofNat 16 n) s)
    if n = 4 then
      .next (enterSafe 4 (logFault 0x04 4 { s with flt := { s.flt with wdog4 := true } }))
    else .next (ianikReset 1 s)

/-- Ianik writes the completion records of what its reset ended, before it samples a mailbox (R478, R493). -/
def ianikRecords (s : State) : State := if recordsOn s then completionsWrite s.evt.waiting.length s else s

/-- IANIK_RESET_EXIT (R493). -/
def execIanikResetExit (s : State) : Host.Outcome State Fault Refusal :=
  .next (if s.pow.ianikRst && s.pow.st != .hearthSafe then ianikRecords (ianikBack s) else s)

/-! ### Power state ends -/

/-- A channel is muted to the end: stopped, or low under a kill (R26, R33). -/
def belStopped (x : BelSt) : Bool := x == .disabled || x == .faulted || x == .killed

/-- The Bellows part of the RUN to STANDBY transition is over, at an M frame tick: no channel is left of the ramp, and
DRV_EN is deasserted but for groups that hold a killed channel (R26, R33, R225). -/
def bellowsMuted (s : State) : Bool :=
  !s.pow.seqBel || (s.bel.upd == 0 && s.bel.ch.toList.all (fun y => belStopped y.st) &&
    (List.finRange 8).all (fun g => !s.bel.grp[g].drvEn || (chansOf g).any (fun c => (belAt s c).st == .killed)))

/-- RUN_TO_STANDBY_COMPLETE: the muting is over, every port side has tailed out, and the Hive halts at an M frame tick
(R26, R33, R305, R498). -/
def execRunToStandbyComplete (s : State) : Host.Outcome State Fault Refusal :=
  .next (if s.pow.st == .runToStandby && bellowsMuted s && portsOver s then standbyDone s else s)

/-- HEARTH_ENTRY_RESET: at most 100 µs after the tick of a commanded HEARTH entry (R26, R579). -/
def execHearthEntryReset (s : State) : Host.Outcome State Fault Refusal :=
  .next (if s.pow.st == .standbyToHearth then tryWake (systemReset s) else s)

/-! ### The Hearth responder -/

/-- The response to SYS_INFO and SYS_RESET has words for a frame number; the Stove is held and they are free values (log
entry 2). -/
def drawFrame (s : State) : List Word × State :=
  let (x, s) := drawLong s
  (words64 x, s)

/-- What the Hearth responder serves on MBX1: SYS_INFO, SYS_RESET with a system reset, SVC_FAULT_READ and
BOOT_RECOVERY_BEGIN (R483, R499, R510). -/
def responderDef (op : Nat) (r : Req) : Option CmdDef :=
  match op with
  | 0x0000 => some { sysInfoDef with act := fun m r s =>
      let (s, st, ws) := sysInfoDef.act m r s
      let (f, s) := drawFrame s
      (s, st, ws.take 5 ++ f ++ ws.drop 7) }
  | 0x0005 => if argB r 3 0 then some { sysResetDef with act := fun _ _ s =>
      let (f, s) := drawFrame s
      ({ s with pow := { s.pow with sysResetPends := true } }, stOk, f) } else none
  | 0x0C00 => some svcFaultReadDef
  | 0x0B09 => some { bootRecoveryBeginDef with
      wrong := fun _ _ _ => false
      act := fun _ _ s => ({ s with pow := { s.pow with recovery := true, sysResetPends := true } }, stOk, []) }
  | _ => none

/-- The Hearth responder answers a rung mailbox: its version check takes 1 to 3 (R483). -/
def respond (m : Fin 4) (s : State) : State :=
  let (op, r) := readReq m s
  let spoiled := cmdSpoiled m r s
  let blind := m = 1 ∧ wordBad (cmdArea m) s = true
  let s := cmdErrs m r s
  if blind then post m (answer op m r stBadArg [] true s) else
  match if m = 1 then responderDef op r else none with
  | none => post m (mbxFails m stState s)
  | some d =>
    match cutRefusal d m r spoiled false (modMbx m (fun b => { b with ver := 3 }) s) with
    | some st => post m (answer op m r st [] true s)
    | none =>
      let (s, st, ws) := d.act m r s
      post m (answer op m r st ws true s)

/-- HEARTH_RESPONDER_SERVE: in Hearth-safe, MBX0, MBX1 and MBX3 (R483). -/
def execHearthResponderServe (n : Fin 4) (s : State) : Host.Outcome State Fault Refusal :=
  .next (if s.pow.st == .hearthSafe && n != 2 && s.mbx[n].st == .rung then respond n s else s)

/-- HEARTH_RESPONDER_RESET: 100 µs after its response (R499). -/
def execHearthResponderReset (s : State) : Host.Outcome State Fault Refusal :=
  .next (if s.pow.st == .hearthSafe && s.pow.sysResetPends then tryWake (systemReset s) else s)

end Sys2Proof.Machine
end

