-- ==== Sys2Proof/Machine/Phases.lean ====
section
/-! DEFINITION. The four phases of a domain frame: the Intake, the cell window, the Chimney with the fault actions and
the spark screen, and the Outlet (R17, R65 to R69, R74, R75, R97, R98, R150 to R152, R167 to R169, R180, R186). -/

namespace Sys2Proof.Machine

/-! ### Frames and slots -/

/-- The S frame under way began with the Hive running (R16, R26). -/
def domBegun (d : Dom) (s : State) : Bool :=
  match d, s.hive.firstFrame with
  | .S, some f => decide (f ≤ s.stove.frame / s.hive.dom.d * s.hive.dom.d)
  | _, _ => true

/-- The last M frame of the S frame: its Chimney and its Outlet fall in it (R65, R180). -/
def lastOfS (s : State) : Bool := s.stove.frame % s.hive.dom.d + 1 == s.hive.dom.d

/-- The Chimney and the Outlet of domain `d` fall in the present frame. -/
def phaseHere (d : Dom) (s : State) : Bool := domBegun d s && (d != .S || lastOfS s)

/-- The cells of domain `d`. -/
def cellsOf (d : Dom) (s : State) : List (Fin 32) :=
  (List.finRange 32).filter (fun c => cellDom (cellAt s c) == some d)

/-- The slot of cell `c` in the columns of its domain's Comb: its own number in M, its domain slot in F and S (R69,
R71, R148). -/
def combSlot (c : Fin 32) (s : State) : Nat :=
  match (cellAt s c).role with
  | some r => if r.dom = .M then c.val else r.slot
  | none => c.val

/-! ### Intake -/

/-- The value of an external source channel in frame `n` of domain frames (R150). -/
def channelIn (n : Nat) (i : ChanId) (s : State) : F32 :=
  let x := idIndex i
  let before := prevF n
  let hw (c : Chain) : F32 :=
    match (vgetD c.up (x / 4) {}).rate with
    | .m => entryVal c.inM before x
    | .s => entryVal c.inS before x
    | .quad => entryVal c.inF before x
    | .off => 0
  match idClass i with
  | 0x01 => (rxEntry (ixN 8 (by decide) (x / 32)) before s).getD (x % 32) 0
  | 0x03 => hw s.hw[0]
  | 0x05 => hw s.hw[1]
  | 0x08 => entryVal s.hive.monitors before x
  | 0x09 => entryVal s.hive.monitors before (32 + x)
  | 0x0A => s.hive.playback.getD x 0
  | 0x0C => bridgeOut 0 x n s
  | 0x0D => bridgeOut 1 x n s
  | 0x0E => bridgeOut 2 x n s
  | 0x0F => bridgeOut 3 x n s
  | 0x10 => (vgetD s.hive.gens x {}).value
  | _ => 0

/-- The value of a source column of a Comb in frame `n` of its domain (R150, R154). -/
def sourceVal (d : Dom) (n : Nat) (s : State) (col : Nat) : F32 :=
  let c := combAt s d
  if col < extCols d then
    (if c.inDead.contains col then 0 else channelIn n (sget 0 c.intake col) s)
  else sget 0 c.cellOut col

/-- The Intake of the present frame of a domain writes the inboxes of its cells (R67, R152, R185). -/
def intake (d : Dom) (s : State) : State :=
  let s := combErrors d (extCols d) (cols d) (bridgeErrors d s)
  let n := domFrame d s
  let nodes := (combAt s d).nodes
  (cellsOf d s).foldl (fun t c =>
    let base := extCols d + 8 * combSlot c s
    modCell c (fun y => { y with regs := { y.regs with
      inb := Vector.ofFn (fun j : Fin 8 => sinkSum d nodes (sourceVal d n s) (base + j.val)) } }) t) s

/-! ### Cell window -/

/-- The offset of the Waggle phase: 32 in the odd F frames at ×8 (R68). -/
def wagglePhi (d : Dom) (s : State) : Nat :=
  if d = .F ∧ s.hive.dom.m = 8 ∧ s.hive.dom.fIdx % 2 = 1 then 32 else 0

/-- The CLEAR of a role change falls in the zero-output frame (R75). -/
def clearNow (c : Fin 32) (s : State) : State :=
  if (cellAt s c).zeroFrame && (cellAt s c).clearReq then
    modCell c (fun y => { y with clearReq := false }) (clearData c s)
  else s

/-- One Hive cycle of the window of a domain: every cell whose window is not over takes it (R66, R111). -/
def windowCycle (d : Dom) (phi : Nat) (cs : List (Fin 32)) (s : State) : State :=
  let len := winLen d s.hive.dom.m s.hive.dom.d
  cs.foldl (fun s c => if (cellAt s c).run.slot < len then cellSlot c phi s else s) s

/-- The next `n` Hive cycles of the window; the other masters' accesses take the free turns of each (R390). -/
def windowCycles (d : Dom) (phi : Nat) (cs : List (Fin 32)) : Nat → State → State
  | 0, s => s
  | n + 1, s =>
    windowCycles d phi cs n (freeCycle (windowCycle d phi cs s)).2

/-- CELL_WINDOW: the next `n` Hive cycles of the cell window of a domain, in all its cells side by side; a cell in its
zero-output frame runs no program (R66, R68, R74, R75). -/
def execCellWindow (d : Dom) (n : Nat) (ups : List Upset) (s : State) : Host.Outcome State Fault Refusal :=
  let s := strike ups s
  if hivePhases s && domBegun d s then
    let cs := cellsOf d s
    let s := cs.foldl (fun s c => clearNow c s) s
    .next (windowCycles d (wagglePhi d s) (cs.filter (fun c => !(cellAt s c).zeroFrame)) n s)
  else .next s

/-! ### Chimney -/

/-- What the spark screen passes (R168). -/
def screened (x : F32) : F32 :=
  if !f32Fin x then 0 else if 8 < f32Q x then 0x41000000 else if f32Q x < -8 then 0xC1000000 else x

/-- The screen clamps a value (R168). -/
def clamps (x : F32) : Bool := f32Fin x && (decide (8 < f32Q x) || decide (f32Q x < -8))

/-- The fault action after a program fault of this frame, with the vector it fades from (R97, R98). A fault under REPORT
starts no action (log entry 30). -/
def actionNow (t : CellStat) : CellStat :=
  let starts := t.newFault && match t.act with
    | .live | .fadingIn _ => true
    | .fading _ | .muted => false
  if starts then
    match t.policy with
    | .report => t
    | .fade => { t with act := .fading 0, fadeBase := t.last }
    | .zero => { t with act := .muted, fadeBase := t.last }
  else t

/-- The outputs a fault action delivers of the outbox `o` (R97, R98). -/
def actionOut (o : Vector F32 8) (t : CellStat) : Vector F32 8 :=
  match t.act with
  | .live => o
  | .muted => .replicate 8 0
  | .fading k => if 15 ≤ k then .replicate 8 0 else t.fadeBase.map (fun y => f32Mul y (qF32 (mkRat (15 - k : Nat) 16)))
  | .fadingIn k => if 16 ≤ k then o else o.map (fun y => f32Mul y (qF32 (mkRat (k : Nat) 16)))

/-- The frame count of a fault action moves on (R97, R98). -/
def actionStep (a : OutAct) : OutAct :=
  match a with
  | .fading k => .fading (min 15 (k + 1))
  | .fadingIn k => .fadingIn (min 16 (k + 1))
  | a => a

/-- A cell's slot of the Chimney: its fault action, and the outputs before the screen (R74, R97, R98). -/
def chimneyCell (y : Cell) : Cell :=
  if y.zeroFrame then
    { y with zeroFrame := false, stat := { y.stat with last := .replicate 8 0, newFault := false } }
  else
    let t := actionNow y.stat
    { y with stat := { t with last := actionOut y.regs.outb t, act := actionStep t.act, newFault := false } }

/-- The spark screen notes what it did to a cell's outputs (R168, R169). -/
def sparkNote (t : CellStat) : CellStat :=
  let bits (p : F32 → Bool) : Byte := BitVec.ofNat 8 (maskOf ((List.range 8).filter (fun j => p (vgetD t.last j 0)))).toNat
  { t with
    spkNonfin := t.spkNonfin ||| bits (fun x => !f32Fin x)
    spkClamp := t.spkClamp ||| bits clamps
    spkCount := stick 255 t.spkCount }

/-- The spark screen acts on one of a cell's outputs (R168). -/
def sparks (y : Cell) : Bool := y.stat.last.toList.any (fun x => !f32Fin x || clamps x)

/-- The register writes that land in the first cycle of the Chimney, before it latches the outboxes (R67, R138). -/
def chimneyLand (c : Fin 32) (s : State) : State :=
  let len := winLen ((cellDom (cellAt s c)).getD .M) s.hive.dom.m s.hive.dom.d
  modCell c (fun y => if y.zeroFrame then y else landTo len y) s

/-- The Chimney takes the outputs of one cell (R67, R74, R97, R138, R168). -/
def chimneyOne (s : State) (c : Fin 32) : State :=
  let s := chimneyLand c (clearNow c s)
  let zero := (cellAt s c).zeroFrame
  let s := raiseIf zero 10 (bit c) (modCell c chimneyCell s)
  if sparks (cellAt s c) then
    raise 13 (bit c) (modCell c (fun y => { y with stat := sparkNote y.stat }) s)
  else s

/-- The cell-output columns of a Comb from the outputs of its cells; a slot without a cell reads +0.0 (R69, R152,
R167). -/
def chimneyCols (d : Dom) (s : State) : Sparse F32 :=
  ((List.range (extCols d)).map (fun k =>
    match (cellsOf d s).find? (fun c => combSlot c s == k / 8) with
    | some c => (extCols d + k, screened (vgetD (cellAt s c).stat.last (k % 8) 0))
    | none => (extCols d + k, 0))).filter (fun e => e.2 ≠ 0)

/-- A role change to none raises EV10 in the M Chimney (R74). -/
def noneDone (s : State) (c : Fin 32) : State :=
  if (cellAt s c).noneDone then raise 10 (bit c) (modCell c (fun y => { y with noneDone := false }) s) else s

/-- CHIMNEY_PHASE: the outputs of every cell of a domain pass the fault action and the spark screen into the
cell-output columns of its Comb (R74, R97, R98, R167, R168). -/
def execChimneyPhase (d : Dom) (s : State) : Host.Outcome State Fault Refusal :=
  if hivePhases s && phaseHere d s then
    let s := (cellsOf d s).foldl chimneyOne s
    let s := modComb d (fun c => { c with cellOut := chimneyCols d s }) s
    .next (if d = .M then (List.finRange 32).foldl noneDone s else s)
  else .next s

/-! ### Outlet -/

/-- The values of the mapped external sink columns of a Comb, by channel, with the factor of a rate change (R152, R154,
R186). -/
def sinkVals (d : Dom) (s : State) : List (ChanId × F32) :=
  let c := combAt s d
  let n := domFrame d s
  let f := outFactor s.stove.frame s
  (c.outlet.filter (fun e => !c.outDead.contains e.1)).map (fun e =>
    let y := sinkSum d c.nodes (sourceVal d n s) e.1
    (e.2, if f = 0x3F800000 then y else f32Mul y f))

/-- The channels of a class in order; one that no column names carries +0.0 (R152). -/
def sinkList (vs : List (ChanId × F32)) (cls n : Nat) (index : Nat → Nat) : List F32 :=
  (List.range n).map (fun k =>
    let i : ChanId := BitVec.ofNat 16 (cls * 2048 + index k)
    match vs.find? (fun e => e.1 = i) with
    | some e => e.2
    | none => 0)

/-- The outbound entry of frame `n` (R46, R49). -/
def putEntry (n : Nat) (vals : List F32) (b : SlotBuf) : SlotBuf :=
  vmodN b (n % 4) (fun _ => some ⟨true, BitVec.ofNat 16 n, vals⟩)

/-- The M Outlet of M frame `n`: ports, chains, Bellows M inputs and capture (R152). -/
def outletM (n : Nat) (vs : List (ChanId × F32)) (s : State) : State :=
  { s with
    tx := vmap s.tx (fun p y => { y with buf := putEntry n (sinkList vs 0x02 32 (fun k => 32 * p.val + k)) y.buf })
    hw := vmap s.hw (fun x c => { c with outM := putEntry n (sinkList vs (0x04 + 2 * x.val) 64 id) c.outM })
    hive := { s.hive with
      belM := putEntry n (sinkList vs 0x07 32 (fun k => 2 * k)) s.hive.belM
      capture := sinkList vs 0x0B 64 id } }

/-- The F Outlet of F frame `n` (R152, R208, R328). -/
def outletF (n : Nat) (vs : List (ChanId × F32)) (s : State) : State :=
  { s with
    hw := vmap s.hw (fun x c => { c with outF := putEntry n (sinkList vs (0x04 + 2 * x.val) 64 id) c.outF })
    hive := { s.hive with
      belF := putEntry n (sinkList vs 0x07 32 (fun k => 2 * k + 1)) s.hive.belF
      belLL := sinkList vs 0x07 32 (fun k => 2 * k + 1) } }

/-- The S Outlet of S frame `n` (R152). -/
def outletS (n : Nat) (vs : List (ChanId × F32)) (s : State) : State :=
  { s with hw := vmap s.hw (fun x c => { c with outS := putEntry n (sinkList vs (0x04 + 2 * x.val) 64 id) c.outS }) }

/-- The outbound entries of the present frame of a domain (R152). -/
def outletOut (d : Dom) (vs : List (ChanId × F32)) (s : State) : State :=
  match d with
  | .M => outletM (domFrame .M s) vs s
  | .F => outletF (domFrame .F s) vs s
  | .S => outletS (domFrame .S s) vs s

/-- The bridge inputs that the Outlet of a domain writes (R180). -/
def outletBridges (d : Dom) (vs : List (ChanId × F32)) (s : State) : State :=
  let n := domFrame d s
  match d with
  | .M => bridgeWrite 2 n (sinkList vs 0x0E 32 id) (bridgeWrite 0 n (sinkList vs 0x0C 32 id) s)
  | .F => bridgeWrite 1 n (sinkList vs 0x0D 32 id) s
  | .S => bridgeWrite 3 n (sinkList vs 0x0F 32 id) s

/-- OUTLET_PHASE: the Outlet of a domain; in the pause of a rate change the Hive writes +0.0 into every outbound entry
(R152, R180, R186). -/
def execOutletPhase (d : Dom) (ups : List Upset) (s : State) : Host.Outcome State Fault Refusal :=
  let s := strike ups s
  if !(hiveRuns s && phaseHere d s) then .next s
  else if hivePaused s then .next (outletOut d [] s)
  else
    let s := combErrors d 0 (extCols d) s
    let vs := sinkVals d s
    .next (outletBridges d vs (outletOut d vs s))

end Sys2Proof.Machine
end

