-- ==== Sys2Proof/Machine/Tick.lean ====
section
/-! DEFINITION. The M frame tick with the S tick and the first F tick in it, the other F ticks, and the changes stamped
for the frame (R13 to R17, R22, R42, R79, R160, R178, R186, R218, R244). -/

namespace Sys2Proof.Machine

/-! ### Staged changes -/

/-- A change takes effect at the tick of M frame `n`, in its target island (R42). -/
def applyChange (n : Nat) (c : Change) (s : State) : State :=
  match c with
  | .combCommit _ => s
  | .combMap d outlet first ids => raise 12 (combBit d) (applyMap d outlet first ids s)
  | .bridgeMode dir mode => setBridge dir mode s
  | .testgen i wave f level => setGen i wave f level s
  | .belConfig mask ws => belConfigNow mask ws s
  | .belLoop mask ks => belLoopNow mask ks s
  | .belEnable mask on => belEnableNow n mask on s
  | .belMute mask on => belMuteNow mask on s
  | .belCarrier mode depth => { s with bel := { s.bel with spread := mode, depth := depth } }
  | .belFaultClear mask bits => belFaultClearNow mask bits s
  | .belPolicy mask bits => belPolicyNow mask bits s
  | .belMeasure c m => belMeasureNow c m s
  | .stoveOut w => stoveOutNow w s
  | .portEnable p side on => portEnableNow p side on n s
  | .groupEnable g on => groupEnableNow g on n s
  | .groupPart _ _ => s
  | .slotMap x up slot rate paired owner => slotMapNow x up slot rate paired owner s
  | .memPower cell blocks dst => memPowerNow cell blocks dst s
  | .ringStart r => ringStartNow r n s
  | .ringStop r => ringStopNow r s
  | .release hive bel a b => releaseNow n hive bel a b s
  | .toStandby cmd => toStandbyNow cmd n s
  | .toHearth => toHearthNow s
  | .ianikReset => ianikReset 3 s
  | .systemReset => tryWake (systemReset s)
  | .tune tuning roles swaps => tuneNow tuning roles swaps s
  | .autoTune tuning d4 d6 => autoTuneNow tuning d4 d6 n s

/-- The changes of cells, which apply once the frame before has ended in the Hive (R73, R533). -/
def cellsChange : Change → Bool
  | .tune _ _ _ | .autoTune _ _ _ => true
  | _ => false

/-- The changes stamped `n` that `p` picks and that have arrived, in their order of arrival; older ones are discarded and
later ones wait (R42). -/
def applyPicked (p : Change → Bool) (n : Nat) (s : State) : State :=
  let due := s.ianik.staged.filter (fun c => c.frame = n ∧ c.shake ≠ .lost ∧ p c.chg)
  let s := unstage (fun c => decide (c.frame < n) && p c.chg) s
  unstage (fun c => decide (c.frame ≤ n) && p c.chg) (due.foldl (fun s c => applyChange n c.chg s) s)

/-- The staged changes at the tick of M frame `n`, but for those of cells (R42). -/
def applyStaged (n : Nat) (s : State) : State := applyPicked (fun c => !cellsChange c) n s

/-! ### Domain ticks in the Hive -/

/-- The cells of a domain whose frame ends perform what is still on its way, in the order of turns and landings (R137,
R139, R392). -/
def endFrame (d : Dom) (s : State) : State :=
  let cs := (cellsOf d s).filter (fun c => !(cellAt s c).zeroFrame)
  cs.foldl (fun s c => modCell c landAll s) (turnsBefore cs 400000 2048 s)

/-- The cells of a domain begin a frame (R111, R114, R119). -/
def startFrame (d : Dom) (s : State) : State :=
  (cellsOf d s).foldl (fun s c => modCell c cellFrameStart s) s

/-- The glide registers of a domain's cells step by a frame of M frame `n` (R89). -/
def glideFrame (d : Dom) (n : Nat) (s : State) : State :=
  (cellsOf d s).foldl (fun s c => modCell c (glideAll n) s) s

/-- The Comb of a domain at its tick in M frame `n`: its ramps go on (R161, R162). -/
def combFrame (d : Dom) (n : Nat) (s : State) : State :=
  if hivePhases s then modComb d (stepRamps d (restarted d n s)) s else s

/-- The commits due at the tick of M frame `n` apply in the three Combs (R160 to R163). -/
def combCommits (n : Nat) (s : State) : State := commitTick .S n (commitTick .F n (commitTick .M n s))

/-- The generators and the Intake of a domain at its tick. -/
def openFrame (d : Dom) (s : State) : State := if hivePhases s then intake d (stepGens d s) else s

/-- The domains whose ticks fall at the tick of M frame `n` (R15, R16). -/
def domsAt (n : Nat) (s : State) : List Dom := if n % s.hive.dom.d = 0 then [.M, .F, .S] else [.M, .F]

/-- What a rate change does at the tick of M frame `n`, in the Hive and outside it (R186, R190, R191, R210). -/
def ratesAt (n : Nat) (s : State) : State :=
  match s.hive.dom.change with
  | some x =>
    let s := rateTick n s
    if n = x.p then
      let s := belRatio x.m s
      if x.fmChange then stoveRetarget s else s
    else s
  | none => s

/-- The tick of M frame `n` in the Hive (R65, R79, R89, R119, R160, R186). -/
def hiveTick (n : Nat) (s : State) : State :=
  let s := if hivePhases s then (domsAt n s).foldl (fun s d => endFrame d s) s else s
  let s := ratesAt n s
  let ds := domsAt n s
  let s := if hivePhases s then ds.foldl (fun s d => startFrame d s) s else s
  let s := raiseEv12 n (applyPicked cellsChange n s)
  let s := (List.finRange 32).foldl (fun s c => cellTick c n s) s
  let s := if hivePhases s then ds.foldl (fun s d => glideFrame d n s) s else s
  let s := combCommits n (ds.foldl (fun s d => combFrame d n s) s)
  let s := streamsTick n s
  ds.foldl (fun s d => openFrame d s) s

/-! ### The M frame tick -/

/-- The Bellows at its local tick of M frame `n`, which is its tick of F frame n × m too (R203, R207, R232). -/
def bellowsTick (n : Nat) (s : State) : State :=
  let s := if belRuns s then belTickF (n * s.hive.dom.m) (belTickM n s) else s
  drvTick (heldRestart s)

/-- A life-cycle advance whose completion is written applies its system reset (R538). -/
def lcTick (s : State) : State :=
  if s.boot.lcReset && !s.ianik.deferred.any (fun d => d.opcode == 0x0B07) then tryWake (systemReset s) else s

/-- The number of the M frame that begins: 0 at the first tick after the first lock (R14, R604). -/
def nextFrame (s : State) : Nat := if s.stove.valid then addF s.stove.frame 1 else 0

/-- The counter advances, and block transitions of the frame before are complete (R14, R402). -/
def countFrame (s : State) : State :=
  let n := nextFrame s
  let s := modDom (fun x => { x with fIdx := 0 }) { s with care := { s.care with moving := [] } }
  { s with stove := { s.stove with frame := n, valid := true, clkLow := false }, hive := { s.hive with cycle := 0 } }

/-- The tick of M frame `n` in every island, after the changes stamped for it. -/
def islandTicks (n : Nat) (s : State) : State :=
  let s := if hiveRuns s then bootTuneTick (hiveTick n s)
    else unstage (fun c => decide (c.frame ≤ n) && cellsChange c.chg) (ratesAt n s)
  let s := bellowsTick n s
  let s := if portsRun s then portsTick n s else s
  let s := hwTick n 1 (hwTick n 0 s)
  lcTick (routineTick n (tuneTick n s))

/-- M_FRAME_TICK: the Stove issues a tick (R13, R14, R42, R413, R443). -/
def execMFrameTick (ups : List Upset) (s : State) : Host.Outcome State Fault Refusal :=
  let s := hostReads (strike ups s)
  if s.stove.running then
    let s := shakesDone (countFrame (hwLinesEnd s.stove.frame (freeFlush 64 s)))
    let n := s.stove.frame
    let s := bootRates (applyStaged n (regionForced n s))
    .next (if s.stove.running then islandTicks n s else s)
  else .next s

/-! ### The F frame tick -/

/-- F frame `k` of M frame `n` in the Hive (R15, R65). -/
def hiveTickF (n k : Nat) (s : State) : State :=
  let s := if hivePhases s then endFrame .F s else s
  let s := modDom (fun x => { x with fIdx := k }) s
  if hivePhases s then
    let s := glideFrame .F n (startFrame .F s)
    openFrame .F (modComb .F (stepRamps .F []) s)
  else s

/-- F_FRAME_TICK: an F tick inside the M frame, each after the one before it (R15, R207, R328). -/
def execFFrameTick (ups : List Upset) (s : State) : Host.Outcome State Fault Refusal :=
  let s := strike ups s
  let k := s.hive.dom.fIdx + 1
  let n := s.stove.frame
  if s.stove.running && s.stove.valid && decide (k < s.hive.dom.m) then
    let s := hwLines n k s
    let s := if hiveRuns s then hiveTickF n k s else modDom (fun x => { x with fIdx := k }) s
    let s := hwTickF n k 1 (hwTickF n k 0 s)
    .next (if belRuns s then belTickF (n * s.hive.dom.m + k) s else s)
  else .next s

end Sys2Proof.Machine
end

