-- ==== Sys2Proof/Machine/Strobe.lean ====
section
/-! DEFINITION. The doorbell strobe: the mailboxes are sampled and answered, what was answered a frame ago is posted, and
what could not be delivered is withdrawn (R42, R43, R467, R470, R492, R493, R554, R603); the crossing timeout (R40). -/

namespace Sys2Proof.Machine

/-! ### The commands by opcode -/

/-- The 0x00xx commands. -/
def sysTable : List CmdDef :=
  [sysInfoDef, sysHelloDef, sysPowerDef, sysLoopbackDef, sysPresenceDef, sysResetDef, sysWatchdogDef]

/-- The 0x01xx commands. -/
def cellTable : List CmdDef :=
  [cellInfoDef, cellRoleSetDef, cellProgWriteDef, cellProgMetaDef, cellCoefWriteDef, cellBankSwapDef,
    cellGlideSetDef, cellGroupCommitDef, cellStatusDef, cellFaultClearDef, cellFaultPolicyDef,
    cellMemReadDef, cellImageLoadDef]

/-- The 0x02xx commands. -/
def combTable : List CmdDef :=
  [combInfoDef, combMapSetDef, combMapGetDef, combStageDef, combStageBulkDef, combCommitDef,
    combStageDiscardDef, combGainReadDef, combStatusDef, chimneyStatusDef]

/-- The 0x03xx commands. -/
def domTable : List CmdDef :=
  [domainInfoDef, domainSetDef, bridgeModeSetDef, bridgeStatusDef, testgenSetDef]

/-- The 0x04xx commands. -/
def belTable : List CmdDef :=
  [belInfoDef, belConfigDef, belLoopSetDef, belEnableDef, belMuteDef, belCarrierSetDef, belStatusDef,
    belFaultClearDef, belFaultPolicyDef, belMeasureZDef]

/-- The 0x05xx commands. -/
def stkrTable : List CmdDef :=
  [stoveInfoDef, stkrRefConfigDef, stkrModeSetDef, stkrSelectDef, stkrStatusDef, stkrRefStatusDef,
    stoveOutSetDef, stkrSwConfigDef, stkrEmberReadDef]

/-- The 0x06xx commands. -/
def portTable : List CmdDef :=
  [portInfoDef, portConfigDef, portEnableDef, portGroupSetDef, portStatusDef, portClearDef]

/-- The 0x07xx commands. -/
def hwTable : List CmdDef :=
  [hwInfoDef, hwChainConfigDef, hwWalkDef, hwNodeInfoDef, hwSlotMapDef, hwNodeXactDef, hwStatusDef,
    hwClearDef, hwPartnerSetDef]

/-- The 0x08xx commands. -/
def dmprTable : List CmdDef :=
  [dmprInfoDef, dmprSupplyConfigDef, dmprCrankCurveDef, dmprOutConfigDef, dmprLineConfigDef, dmprStatusDef,
    dmprClearDef, dmprEnergyReadDef]

/-- The 0x09xx commands. -/
def memTable : List CmdDef :=
  [memInfoDef, memPowerSetDef, memEccStatusDef, memErrReadDef, memPatrolSetDef, memPatrolStatusDef,
    vaultWipeDef, vaultStatusDef, memClearDef]

/-- The 0x0Axx commands. -/
def pspTable : List CmdDef :=
  [pspInfoDef, pspDevConfigDef, pspXferDef, fgrRingConfigDef, fgrDescPushDef, fgrRingEnableDef,
    fgrStatusDef, fgrClearDef, pspStatusDef]

/-- The 0x0Bxx commands. -/
def bootTable : List CmdDef :=
  [bootInfoDef, imgUpdateBeginDef, imgUpdateWriteDef, imgUpdateEndDef, imgConfirmDef, tuneLoadDef,
    imgMeasExtendDef, lcAdvanceDef, keyRevokeDef, bootRecoveryBeginDef, bootPushDef]

/-- The 0x0Cxx commands. -/
def svcTable : List CmdDef :=
  [svcFaultReadDef, svcFaultClearDef, svcSpkTestDef, svcDcOffsetDef, svcMicLoopDef, svcLineHealthDef,
    svcCaptureReadDef, svcAbortDef]

/-- The 0x0Dxx commands. -/
def evtTable : List CmdDef :=
  [evtInfoDef, evtCountReadDef, evtCountClearDef, evtRingConfigDef, evtTraceMarkDef]

/-- Every defined opcode, by family (R471). -/
def allCmds : List CmdDef :=
  sysTable ++ cellTable ++ combTable ++ domTable ++ belTable ++ stkrTable ++ portTable ++
    hwTable ++ dmprTable ++ memTable ++ pspTable ++ bootTable ++ svcTable ++ evtTable

/-- The command of an opcode (R474). -/
def cmdOf (op : Nat) : Option CmdDef := allCmds.find? (fun d => decide (d.opcode = op))

/-! ### Sampling -/

/-- A command on MBX2 takes with it what ran past its area (R485). -/
def tunCleared (m : Fin 4) (s : State) : State :=
  if m = 2 then { s with ianik := { s.ianik with tunOverflow := false } } else s

/-- Ianik samples a rung mailbox: it reads the command and acts on it, or refuses it (R43, R467, R474); an opcode that is
not defined is refused first, and a word 0 with an uncorrectable error, which tells no opcode, with BAD_ARG (R409). -/
def sampleRung (m : Fin 4) (s : State) : State :=
  let (op, r) := readReq m s
  let spoiled := cmdSpoiled m r s
  let ovr := decide (m = 2) && s.ianik.tunOverflow
  let blind := wordBad (cmdArea m) s
  let s := cmdErrs m r s
  let s := tunCleared m s
  if blind then answer op m r stBadArg [] false s else
  match cmdOf op with
  | none => answer op m r stBadOpcode [] false s
  | some d =>
    match cutRefusal d m r spoiled ovr s with
    | some st => answer op m r st [] false (d.refused st r s)
    | none => sample d m r s

/-- A mailbox left BUSY by an Ianik reset (R492, R493). -/
def leftBusy (m : Fin 4) (s : State) : Bool := s.mbx[m].st == .busy && s.mbx[m].resp.isNone

/-- The mailboxes at a strobe during an Ianik reset: RUNG is answered BUSY, and BUSY is answered TIMEOUT (R492). -/
def strobeReset (s : State) : State :=
  (List.finRange 4).foldl (fun s m =>
    if s.mbx[m].st = .rung then mbxFails m stBusy s
    else if leftBusy m s then mbxFails m stTimeout s
    else s) s

/-- The mailboxes at a strobe that Ianik serves: those a reset left BUSY first, then every rung one in ascending order
(R467, R470, R493). -/
def strobeServed (s : State) : State :=
  let s := (List.finRange 4).foldl (fun s m => if leftBusy m s && mbxServed m s then mbxFails m stTimeout s else s) s
  (List.finRange 4).foldl (fun s m =>
    if s.mbx[m].st = .rung && mbxServed m s then sampleRung m s else s) s

/-! ### Withdrawal -/

/-- A command by its mailbox (4: the firmware's own) and the M frame in which it was sampled. -/
abbrev CmdKey := Nat × Nat

/-- A staged part of a Comb command (R165). -/
def combPart : Change → Bool
  | .combMap _ _ _ _ | .combCommit _ => true
  | _ => false

/-- A staged part that the strobe of frame `n` finds unacknowledged: its request was withdrawn, or it stands with its stamp
at n + 1, or it is that of a Comb record of a frame before (R40, R42, R165). -/
def partLost (n : Nat) (c : Stamped) : Bool :=
  c.shake == .lost || c.shake == .seen ||
    (c.shake != .acked && (decide (c.frame ≤ n + 1) || (combPart c.chg && c.cmd.2 != n)))

/-- A message that must have reached its cell by the strobe of frame `n` (R42, R83, R84). -/
def entryDue (n : Nat) (q : QEntry) : Bool :=
  match q.frame with
  | some f => decide (f ≤ n + 1) || (isJudged q && q.sampled != n)
  | none => q.sampled != n

/-- The commands of which a part is unacknowledged at the strobe that decides it (R42, R165). -/
def strobeLost (s : State) : List CmdKey :=
  let n := s.stove.frame
  ((s.hive.transit ++ s.ianik.stalled).filter (entryDue n)).map (fun q => (q.mbx, q.sampled)) ++
    (s.ianik.staged.filter (partLost n)).map (·.cmd)

/-- What else stands for a staged part goes with it (R42, R158, R448, R499, R533). -/
def undoPart (s : State) (c : Stamped) : State :=
  match c.chg with
  | .combCommit d => commitGone d c.frame s
  | .tune _ roles _ =>
    let s := roles.foldl (fun s r => modCell r.1 (fun y =>
      if y.pendRole = some r.2 then { y with pendRole := none } else y) s) s
    if s.boot.job.any (fun j => j.commit == some c.frame) then jobEnds stTimeout s else s
  | .slotMap x up slot _ _ _ =>
    (s.hw[x].maps.filter (fun p => p.eff = c.frame ∧ p.up = up ∧ p.slot = slot)).foldl (dropMap x) s
  | .ringStart r => modP0 (fun p => { p with rings := vmod p.rings r (fun x =>
      if x.st = .armed then { x with st := .ready } else x) }) s
  | .toStandby none =>
    if c.cmd.1 < 4 then { s with pow := { s.pow with sysResetPends := false } } else s
  | _ => s

/-- The command's response is not posted yet. -/
def answerPends (k : CmdKey) (m : Nat) (b : Mbx) : Bool := k.1 == m && b.st == .busy && b.sampled == k.2 && b.resp.isSome

/-- The status of an accepted command becomes TIMEOUT. -/
def toTimeout (p : Response) : Response :=
  if p.status.toNat = stOk ∨ p.status.toNat = stDeferred then
    { p with status := BitVec.ofNat 8 stTimeout, payload := [] } else p

/-- A response that is not posted yet reads TIMEOUT, and nothing of the command stays deferred; a Comb command raises EV15
(R42, R165). -/
def responseLost (k : CmdKey) (s : State) : State :=
  let pend (m : Fin 4) : Bool := answerPends k m s.mbx[m]
  let ps := (List.finRange 4).filterMap (fun m => if pend m then s.mbx[m].resp.map (fun p => (m.val, p)) else none)
  let s := ps.foldl (fun s p =>
    let cut (d : Deferred) : Bool := p.2.status.toNat == stDeferred && isDeferred p.2.opcode.toNat p.1 p.2.tag d
    raiseIf (p.2.opcode == 0x0201 || p.2.opcode == 0x0205) 15 (n2w p.2.opcode.toNat 16 ||| n2w stTimeout 8)
      { s with ianik := { s.ianik with deferred := s.ianik.deferred.filter (fun d => !cut d) } }) s
  { s with mbx := vmap s.mbx (fun m b => if answerPends k m b then { b with resp := b.resp.map toTimeout } else b) }

/-- The deferred command behind a part whose response has been posted completes with TIMEOUT (R42, R475). -/
def deferredLost (s : State) (c : Stamped) : State :=
  (s.ianik.deferred.filter (fun d => d.mbx = c.cmd.1 ∧ d.tag = c.tag)).foldl
    (fun s d => complete d.opcode.toNat d.mbx d.tag (BitVec.ofNat 8 stTimeout) [] s) s

/-- Commands are withdrawn: no part of them stays, and each completes with TIMEOUT (R42). -/
def withdraw (lost : List CmdKey) (s : State) : State :=
  let mine (q : QEntry) : Bool := lost.contains (q.mbx, q.sampled)
  let part (c : Stamped) : Bool := lost.contains c.cmd
  let gone := (s.hive.transit ++ s.ianik.stalled).filter mine ++ s.hive.cells.toList.flatMap (fun y => y.queue.filter mine)
  let parts := s.ianik.staged.filter part
  let s := unstage part { s with
    ianik := { s.ianik with stalled := s.ianik.stalled.filter (fun q => !mine q) }
    hive := { s.hive with
      transit := s.hive.transit.filter (fun q => !mine q)
      cells := s.hive.cells.map (fun y => { y with queue := y.queue.filter (fun q => !mine q) }) } }
  let s := lost.foldl (fun s k => responseLost k s) s
  let s := gone.foldl (fun s q => entryLost q s) (parts.foldl deferredLost s)
  let s := parts.foldl undoPart s
  refill s.ianik.stalled.length s

/-! ### Posting and the rest -/

/-- The responses sampled a frame ago are posted; one on MBX2 goes to the partner (R470, R485). -/
def strobePosts (s : State) : State :=
  (List.finRange 4).foldl (fun s m =>
    if postDue m s then (if m = 2 then tunnelPosted (post m s) else post m s) else s) s

/-- The thermal transition is stamped 2 M frames after the strobe that follows its event, unless a transition is already
asked for (R554). -/
def strobeThermal (s : State) : State :=
  if !s.hearth.thermPends then s else
    let s := { s with hearth := { s.hearth with thermPends := false } }
    if s.pow.st = .run && !s.ianik.staged.any (fun c => match c.chg with
      | .toStandby _ => true
      | _ => false)
    then stageOwn (effFrame s) (.toStandby none) s else s

/-- What Ianik does at a strobe: it serves the mailboxes, withdraws, and completes slot maps (R42, R357, R470). -/
def strobeIanik (s : State) : State :=
  let s := strobeServed (readTail s)
  let lost := strobeLost s
  let s := if lost.isEmpty then s else withdraw lost s
  let s := hwStrobe s.stove.frame 1 (hwStrobe s.stove.frame 0 s)
  strobeThermal s

/-- DOORBELL_STROBE: at Hive cycle 16,000 of every M frame, whenever the Stove issues ticks (R470, R492, R493, R603). -/
def execDoorbellStrobe (s : State) : Host.Outcome State Fault Refusal :=
  if s.stove.running then
    let s := modCare (fun c => { c with strobeAt := some s.stove.frame }) s
    .next (strobePosts (if s.pow.ianikRst then strobeReset s else strobeIanik s))
  else .next s

/-! ### Crossing timeout -/

/-- Detail word and record of a crossing by the islands' numbers (R550, R555). -/
def crossingWord (src dst : Fin 26) : Word := n2w src 5 ||| n2w dst 0

/-- The request raised to island `dst`, if any, is withdrawn without an acknowledgement, `seen` by the receiver or not
(R40, R41). -/
def loseRaised (dst : Nat) (seen : Bool) : List Stamped → List Stamped
  | [] => []
  | c :: r =>
    if c.shake = .raised ∧ chgIsland c.chg = some dst then { c with shake := if seen then .seen else .lost } :: r
    else c :: loseRaised dst seen r

/-- The crossing to island `dst` is idle: the request that waits longest for it is raised (R37). -/
def raiseWaiting (dst : Nat) : List Stamped → List Stamped
  | [] => []
  | c :: r =>
    if c.shake = .waits ∧ chgIsland c.chg = some dst then { c with shake := .raised } :: r else c :: raiseWaiting dst r

/-- The request raised to island `dst` times out; whether the island has seen it is a free value (R40, R41, log entry 2). -/
def shakeLost (dst : Nat) (s : State) : State :=
  let (w, s) := drawWord s
  { s with ianik := { s.ianik with staged := raiseWaiting dst (loseRaised dst (w.getLsbD 0) s.ianik.staged) } }

/-- The message of the Ianik to Hive queue that times out: one that stalls is not sent; else the oldest one under way,
which, where the cell saw it, has still acted once; what was seen is a free value (R41, R51, log entries 2, 65). -/
def messageLost (s : State) : State :=
  match s.ianik.stalled, s.hive.transit with
  | q :: _, _ => withdraw [(q.mbx, q.sampled)] s
  | [], q :: rest =>
    let (w, s) := drawWord s
    if w.getLsbD 0 && q.frame.isNone then
      withdraw [(q.mbx, q.sampled)] (queueArrive q { s with hive := { s.hive with transit := rest } })
    else withdraw [(q.mbx, q.sampled)] s
  | [], [] => s

/-- The control message of chain `x` that stalls behind a full queue is not sent (R51). -/
def xactLost (x : Fin 2) (s : State) : State :=
  match s.hw[x].queue[8]? with
  | some q => xactEnds x stTimeout q (modHw x (fun c => { c with queue := c.queue.eraseIdx 8 }) s)
  | none => s

/-- CROSSING_TIMEOUT: EV52, the fault record, and a log entry; the request of a staged change to that island is withdrawn,
or else the message that waits for it (R40, R41, R51, R555, R557, log entry 65). -/
def execCrossingTimeout (src dst : Fin 26) (s : State) : Host.Outcome State Fault Refusal :=
  if !hearthOn s then .next s else
  let s := raiseFrom src 52 (crossingWord src dst) { s with flt := { s.flt with
    xto := true, xsrc := BitVec.ofNat 5 src, xdst := BitVec.ofNat 5 dst } }
  let s := logFault 0x0A (BitVec.ofNat 16 (crossingWord src dst).toNat) s
  if src ≠ 3 then .next s
  else if s.ianik.staged.any (fun c => c.shake == .raised && chgIsland c.chg == some dst.val) then
    .next (shakeLost dst s)
  else if dst = 0 then .next (messageLost s)
  else if dst = 24 then .next (xactLost 0 s)
  else if dst = 25 then .next (xactLost 1 s)
  else .next s

end Sys2Proof.Machine
end

