-- ==== Sys2Proof/Machine/Scan.lean ====
section
/-! DEFINITION. Boundary scan: the test access port and the system reset the Hearth holds for it (R598, R599). -/

namespace Sys2Proof.Machine

/-- The identification register (R598). -/
def idCode : Word := 0x13232001

/-- The instruction of a code; every other code is BYPASS (R598). -/
def tapOf (code : BitVec 4) : TapInstr :=
  match code.toNat with
  | 0 => .extest
  | 1 => .idcode
  | 2 => .samplePreload
  | 4 => .clamp
  | 5 => .highz
  | _ => .bypass

/-- EXTEST, CLAMP and HIGHZ hold the system reset (R599). -/
def holdsReset (i : TapInstr) : Bool :=
  match i with
  | .extest | .clamp | .highz => true
  | .idcode | .samplePreload | .bypass => false

/-- The instruction as it acts: in PRODUCTION and RETURNED the three act as BYPASS without an open window (R599). -/
def actsAs (i : TapInstr) (s : State) : TapInstr :=
  if holdsReset i && lcFielded s && !s.keeper.isOpen then .bypass else i

/-- The Hearth holds the system reset, or lets go of it: the device is in HEARTH, and R28 decides on power-up (R599). -/
def scanHold (i : TapInstr) (s : State) : State :=
  if holdsReset i then systemReset { s with scan := { s.scan with inForce := true } }
  else if s.scan.inForce then tryWake { s with scan := { s.scan with inForce := false } }
  else s

/-- The instruction register is updated (R598, R599). -/
def tapUpdate (i : TapInstr) (s : State) : State :=
  if hearthOn s then
    let a := actsAs i s
    scanHold a { s with scan := { s.scan with ir := a } }
  else s

/-- The boundary register takes a pattern (R598). -/
def loadBoundary (bs : List Bool) (s : State) : State :=
  if hearthOn s then { s with scan := { s.scan with boundary := bs } } else s

/-- TRST_N_LOW (R598). -/
def execTrstNLow (s : State) : Host.Outcome State Fault Refusal := .next (tapUpdate .idcode s)

/-- TEST_LOGIC_RESET (R598, R599). -/
def execTestLogicReset (s : State) : Host.Outcome State Fault Refusal := .next (tapUpdate .idcode s)

/-- EXTEST: the balls follow the boundary register with the pattern `drive` (R599). -/
def execExtest (drive : List Bool) (s : State) : Host.Outcome State Fault Refusal :=
  let s := tapUpdate .extest s
  .next (if s.scan.ir = .extest then loadBoundary drive s else s)

/-- IDCODE (R598). -/
def execIdcode (s : State) : Host.Outcome State Fault Refusal := .next (tapUpdate .idcode s)

/-- SAMPLE_PRELOAD: the boundary register samples the balls, and is then loaded with `preload` (R598). -/
def execSamplePreload (sampled preload : List Bool) (s : State) : Host.Outcome State Fault Refusal :=
  .next (loadBoundary preload (loadBoundary sampled (tapUpdate .samplePreload s)))

/-- CLAMP (R599). -/
def execClamp (s : State) : Host.Outcome State Fault Refusal := .next (tapUpdate .clamp s)

/-- HIGHZ (R599). -/
def execHighz (s : State) : Host.Outcome State Fault Refusal := .next (tapUpdate .highz s)

/-- BYPASS: the instruction of the code that was shifted in; the code 0xF and any code of no other instruction act as
BYPASS (R598). -/
def execBypass (code : BitVec 4) (s : State) : Host.Outcome State Fault Refusal := .next (tapUpdate (tapOf code) s)

end Sys2Proof.Machine
end

