-- ==== Sys2Proof/Machine/Dispatch.lean ====
section
/-! DEFINITION. The meaning of every command, one arm a row of spec/opcode_table.json. -/

namespace Sys2Proof.Machine

/-- The effect of a command on everything but the queue. -/
def exec (i : Instr) (s : State) : Host.Outcome State Fault Refusal :=
  match i with
  | .sysInfo m r => Sys2Proof.Machine.execSysInfo m r s
  | .sysHello m r => Sys2Proof.Machine.execSysHello m r s
  | .sysPower m r => Sys2Proof.Machine.execSysPower m r s
  | .sysLoopback m r => Sys2Proof.Machine.execSysLoopback m r s
  | .sysPresence m r => Sys2Proof.Machine.execSysPresence m r s
  | .sysReset m r => Sys2Proof.Machine.execSysReset m r s
  | .sysWatchdog m r => Sys2Proof.Machine.execSysWatchdog m r s
  | .cellInfo m r => Sys2Proof.Machine.execCellInfo m r s
  | .cellRoleSet m r => Sys2Proof.Machine.execCellRoleSet m r s
  | .cellProgWrite m r => Sys2Proof.Machine.execCellProgWrite m r s
  | .cellProgMeta m r => Sys2Proof.Machine.execCellProgMeta m r s
  | .cellCoefWrite m r => Sys2Proof.Machine.execCellCoefWrite m r s
  | .cellBankSwap m r => Sys2Proof.Machine.execCellBankSwap m r s
  | .cellGlideSet m r => Sys2Proof.Machine.execCellGlideSet m r s
  | .cellGroupCommit m r => Sys2Proof.Machine.execCellGroupCommit m r s
  | .cellStatus m r => Sys2Proof.Machine.execCellStatus m r s
  | .cellFaultClear m r => Sys2Proof.Machine.execCellFaultClear m r s
  | .cellFaultPolicy m r => Sys2Proof.Machine.execCellFaultPolicy m r s
  | .cellMemRead m r => Sys2Proof.Machine.execCellMemRead m r s
  | .cellImageLoad m r => Sys2Proof.Machine.execCellImageLoad m r s
  | .combInfo m r => Sys2Proof.Machine.execCombInfo m r s
  | .combMapSet m r => Sys2Proof.Machine.execCombMapSet m r s
  | .combMapGet m r => Sys2Proof.Machine.execCombMapGet m r s
  | .combStage m r => Sys2Proof.Machine.execCombStage m r s
  | .combStageBulk m r => Sys2Proof.Machine.execCombStageBulk m r s
  | .combCommit m r => Sys2Proof.Machine.execCombCommit m r s
  | .combStageDiscard m r => Sys2Proof.Machine.execCombStageDiscard m r s
  | .combGainRead m r => Sys2Proof.Machine.execCombGainRead m r s
  | .combStatus m r => Sys2Proof.Machine.execCombStatus m r s
  | .chimneyStatus m r => Sys2Proof.Machine.execChimneyStatus m r s
  | .domainInfo m r => Sys2Proof.Machine.execDomainInfo m r s
  | .domainSet m r => Sys2Proof.Machine.execDomainSet m r s
  | .bridgeModeSet m r => Sys2Proof.Machine.execBridgeModeSet m r s
  | .bridgeStatus m r => Sys2Proof.Machine.execBridgeStatus m r s
  | .testgenSet m r => Sys2Proof.Machine.execTestgenSet m r s
  | .belInfo m r => Sys2Proof.Machine.execBelInfo m r s
  | .belConfig m r => Sys2Proof.Machine.execBelConfig m r s
  | .belLoopSet m r => Sys2Proof.Machine.execBelLoopSet m r s
  | .belEnable m r => Sys2Proof.Machine.execBelEnable m r s
  | .belMute m r => Sys2Proof.Machine.execBelMute m r s
  | .belCarrierSet m r => Sys2Proof.Machine.execBelCarrierSet m r s
  | .belStatus m r => Sys2Proof.Machine.execBelStatus m r s
  | .belFaultClear m r => Sys2Proof.Machine.execBelFaultClear m r s
  | .belFaultPolicy m r => Sys2Proof.Machine.execBelFaultPolicy m r s
  | .belMeasureZ m r => Sys2Proof.Machine.execBelMeasureZ m r s
  | .stoveInfo m r => Sys2Proof.Machine.execStoveInfo m r s
  | .stkrRefConfig m r => Sys2Proof.Machine.execStkrRefConfig m r s
  | .stkrModeSet m r => Sys2Proof.Machine.execStkrModeSet m r s
  | .stkrSelect m r => Sys2Proof.Machine.execStkrSelect m r s
  | .stkrStatus m r => Sys2Proof.Machine.execStkrStatus m r s
  | .stkrRefStatus m r => Sys2Proof.Machine.execStkrRefStatus m r s
  | .stoveOutSet m r => Sys2Proof.Machine.execStoveOutSet m r s
  | .stkrSwConfig m r => Sys2Proof.Machine.execStkrSwConfig m r s
  | .stkrEmberRead m r => Sys2Proof.Machine.execStkrEmberRead m r s
  | .portInfo m r => Sys2Proof.Machine.execPortInfo m r s
  | .portConfig m r => Sys2Proof.Machine.execPortConfig m r s
  | .portEnable m r => Sys2Proof.Machine.execPortEnable m r s
  | .portGroupSet m r => Sys2Proof.Machine.execPortGroupSet m r s
  | .portStatus m r => Sys2Proof.Machine.execPortStatus m r s
  | .portClear m r => Sys2Proof.Machine.execPortClear m r s
  | .hwInfo m r => Sys2Proof.Machine.execHwInfo m r s
  | .hwChainConfig m r => Sys2Proof.Machine.execHwChainConfig m r s
  | .hwWalk m r => Sys2Proof.Machine.execHwWalk m r s
  | .hwNodeInfo m r => Sys2Proof.Machine.execHwNodeInfo m r s
  | .hwSlotMap m r => Sys2Proof.Machine.execHwSlotMap m r s
  | .hwNodeXact m r => Sys2Proof.Machine.execHwNodeXact m r s
  | .hwStatus m r => Sys2Proof.Machine.execHwStatus m r s
  | .hwClear m r => Sys2Proof.Machine.execHwClear m r s
  | .hwPartnerSet m r => Sys2Proof.Machine.execHwPartnerSet m r s
  | .dmprInfo m r => Sys2Proof.Machine.execDmprInfo m r s
  | .dmprSupplyConfig m r => Sys2Proof.Machine.execDmprSupplyConfig m r s
  | .dmprCrankCurve m r => Sys2Proof.Machine.execDmprCrankCurve m r s
  | .dmprOutConfig m r => Sys2Proof.Machine.execDmprOutConfig m r s
  | .dmprLineConfig m r => Sys2Proof.Machine.execDmprLineConfig m r s
  | .dmprStatus m r => Sys2Proof.Machine.execDmprStatus m r s
  | .dmprClear m r => Sys2Proof.Machine.execDmprClear m r s
  | .dmprEnergyRead m r => Sys2Proof.Machine.execDmprEnergyRead m r s
  | .memInfo m r => Sys2Proof.Machine.execMemInfo m r s
  | .memPowerSet m r => Sys2Proof.Machine.execMemPowerSet m r s
  | .memEccStatus m r => Sys2Proof.Machine.execMemEccStatus m r s
  | .memErrRead m r => Sys2Proof.Machine.execMemErrRead m r s
  | .memPatrolSet m r => Sys2Proof.Machine.execMemPatrolSet m r s
  | .memPatrolStatus m r => Sys2Proof.Machine.execMemPatrolStatus m r s
  | .vaultWipe m r => Sys2Proof.Machine.execVaultWipe m r s
  | .vaultStatus m r => Sys2Proof.Machine.execVaultStatus m r s
  | .memClear m r => Sys2Proof.Machine.execMemClear m r s
  | .pspInfo m r => Sys2Proof.Machine.execPspInfo m r s
  | .pspDevConfig m r => Sys2Proof.Machine.execPspDevConfig m r s
  | .pspXfer m r => Sys2Proof.Machine.execPspXfer m r s
  | .fgrRingConfig m r => Sys2Proof.Machine.execFgrRingConfig m r s
  | .fgrDescPush m r => Sys2Proof.Machine.execFgrDescPush m r s
  | .fgrRingEnable m r => Sys2Proof.Machine.execFgrRingEnable m r s
  | .fgrStatus m r => Sys2Proof.Machine.execFgrStatus m r s
  | .fgrClear m r => Sys2Proof.Machine.execFgrClear m r s
  | .pspStatus m r => Sys2Proof.Machine.execPspStatus m r s
  | .bootInfo m r => Sys2Proof.Machine.execBootInfo m r s
  | .imgUpdateBegin m r => Sys2Proof.Machine.execImgUpdateBegin m r s
  | .imgUpdateWrite m r => Sys2Proof.Machine.execImgUpdateWrite m r s
  | .imgUpdateEnd m r => Sys2Proof.Machine.execImgUpdateEnd m r s
  | .imgConfirm m r => Sys2Proof.Machine.execImgConfirm m r s
  | .tuneLoad m r => Sys2Proof.Machine.execTuneLoad m r s
  | .imgMeasExtend m r => Sys2Proof.Machine.execImgMeasExtend m r s
  | .lcAdvance m r => Sys2Proof.Machine.execLcAdvance m r s
  | .keyRevoke m r => Sys2Proof.Machine.execKeyRevoke m r s
  | .bootRecoveryBegin m r => Sys2Proof.Machine.execBootRecoveryBegin m r s
  | .bootPush m r => Sys2Proof.Machine.execBootPush m r s
  | .svcFaultRead m r => Sys2Proof.Machine.execSvcFaultRead m r s
  | .svcFaultClear m r => Sys2Proof.Machine.execSvcFaultClear m r s
  | .svcSpkTest m r => Sys2Proof.Machine.execSvcSpkTest m r s
  | .svcDcOffset m r => Sys2Proof.Machine.execSvcDcOffset m r s
  | .svcMicLoop m r => Sys2Proof.Machine.execSvcMicLoop m r s
  | .svcLineHealth m r => Sys2Proof.Machine.execSvcLineHealth m r s
  | .svcCaptureRead m r => Sys2Proof.Machine.execSvcCaptureRead m r s
  | .svcAbort m r => Sys2Proof.Machine.execSvcAbort m r s
  | .evtInfo m r => Sys2Proof.Machine.execEvtInfo m r s
  | .evtCountRead m r => Sys2Proof.Machine.execEvtCountRead m r s
  | .evtCountClear m r => Sys2Proof.Machine.execEvtCountClear m r s
  | .evtRingConfig m r => Sys2Proof.Machine.execEvtRingConfig m r s
  | .evtTraceMark m r => Sys2Proof.Machine.execEvtTraceMark m r s
  | .mbxDoorbell n seq => Sys2Proof.Machine.execMbxDoorbell n seq s
  | .hrthRstIanik v => Sys2Proof.Machine.execHrthRstIanik v s
  | .pspCntClr => Sys2Proof.Machine.execPspCntClr s
  | .winPageWrite v => Sys2Proof.Machine.execWinPageWrite v s
  | .stkrSwSeqRead => Sys2Proof.Machine.execStkrSwSeqRead s
  | .stkrSwCommit v => Sys2Proof.Machine.execStkrSwCommit v s
  | .frameCountLoRead => Sys2Proof.Machine.execFrameCountLoRead s
  | .measLatchRead => Sys2Proof.Machine.execMeasLatchRead s
  | .bitSetAliasWrite addr v => Sys2Proof.Machine.execBitSetAliasWrite addr v s
  | .bitClearAliasWrite addr v => Sys2Proof.Machine.execBitClearAliasWrite addr v s
  | .registerWrite addr v => Sys2Proof.Machine.execRegisterWrite addr v s
  | .mailboxRamWrite addr v coll => Sys2Proof.Machine.execMailboxRamWrite addr v coll s
  | .psp1CommandUnit cmd addr => Sys2Proof.Machine.execPsp1CommandUnit cmd addr s
  | .psp1SelRise k => Sys2Proof.Machine.execPsp1SelRise k s
  | .pspBuzzed => Sys2Proof.Machine.execPspBuzzed s
  | .pspBusyDrop addr v => Sys2Proof.Machine.execPspBusyDrop addr v s
  | .vddHearthRise cfgOk keeperLow => Sys2Proof.Machine.execVddHearthRise cfgOk keeperLow s
  | .vddHearthFall => Sys2Proof.Machine.execVddHearthFall s
  | .wakeRequest w => Sys2Proof.Machine.execWakeRequest w s
  | .rstNLow => Sys2Proof.Machine.execRstNLow s
  | .rstNRise => Sys2Proof.Machine.execRstNRise s
  | .vddCoreLoss => Sys2Proof.Machine.execVddCoreLoss s
  | .vddioAFail => Sys2Proof.Machine.execVddioAFail s
  | .railFail r => Sys2Proof.Machine.execRailFail r s
  | .railGood r => Sys2Proof.Machine.execRailGood r s
  | .voltageGlitch => Sys2Proof.Machine.execVoltageGlitch s
  | .clockGlitch => Sys2Proof.Machine.execClockGlitch s
  | .tamperNLow => Sys2Proof.Machine.execTamperNLow s
  | .vaultWipeComplete clean => Sys2Proof.Machine.execVaultWipeComplete clean s
  | .keeperRelease => Sys2Proof.Machine.execKeeperRelease s
  | .keeperHold => Sys2Proof.Machine.execKeeperHold s
  | .presenceWindowEnd => Sys2Proof.Machine.execPresenceWindowEnd s
  | .thermalConversion tj => Sys2Proof.Machine.execThermalConversion tj s
  | .trstNLow => Sys2Proof.Machine.execTrstNLow s
  | .extest drive => Sys2Proof.Machine.execExtest drive s
  | .idcode => Sys2Proof.Machine.execIdcode s
  | .samplePreload sampled preload => Sys2Proof.Machine.execSamplePreload sampled preload s
  | .clamp => Sys2Proof.Machine.execClamp s
  | .highz => Sys2Proof.Machine.execHighz s
  | .bypass code => Sys2Proof.Machine.execBypass code s
  | .powerUpStep res => Sys2Proof.Machine.execPowerUpStep res s
  | .powerUpBudgetExpiry => Sys2Proof.Machine.execPowerUpBudgetExpiry s
  | .bootSourceStart => Sys2Proof.Machine.execBootSourceStart s
  | .manifestVerified media => Sys2Proof.Machine.execManifestVerified media s
  | .blockVerified media => Sys2Proof.Machine.execBlockVerified media s
  | .pushWaitTimeout => Sys2Proof.Machine.execPushWaitTimeout s
  | .standbyReached => Sys2Proof.Machine.execStandbyReached s
  | .mFrameTick ups => Sys2Proof.Machine.execMFrameTick ups s
  | .fFrameTick ups => Sys2Proof.Machine.execFFrameTick ups s
  | .doorbellStrobe => Sys2Proof.Machine.execDoorbellStrobe s
  | .runToStandbyComplete => Sys2Proof.Machine.execRunToStandbyComplete s
  | .hearthEntryReset => Sys2Proof.Machine.execHearthEntryReset s
  | .cellWindow d n ups => Sys2Proof.Machine.execCellWindow d n ups s
  | .storeTurn c ups => Sys2Proof.Machine.execStoreTurn c ups s
  | .chimneyPhase d => Sys2Proof.Machine.execChimneyPhase d s
  | .outletPhase d ups => Sys2Proof.Machine.execOutletPhase d ups s
  | .cellQueueEntryArrival => Sys2Proof.Machine.execCellQueueEntryArrival s
  | .sealedClearDone c => Sys2Proof.Machine.execSealedClearDone c s
  | .cellFaultFadeEnd c => Sys2Proof.Machine.execCellFaultFadeEnd c s
  | .rampEnd d col => Sys2Proof.Machine.execRampEnd d col s
  | .rateChangeLockTimeout => Sys2Proof.Machine.execRateChangeLockTimeout s
  | .stoveComparison x => Sys2Proof.Machine.execStoveComparison x s
  | .measurementGateEnd offs dco => Sys2Proof.Machine.execMeasurementGateEnd offs dco s
  | .waitToRestoreExpiry ref => Sys2Proof.Machine.execWaitToRestoreExpiry ref s
  | .qualifyEnd freq phase => Sys2Proof.Machine.execQualifyEnd freq phase s
  | .moveEnd => Sys2Proof.Machine.execMoveEnd s
  | .settleTimeout => Sys2Proof.Machine.execSettleTimeout s
  | .relockAcquire => Sys2Proof.Machine.execRelockAcquire s
  | .relockAttemptTimeout => Sys2Proof.Machine.execRelockAttemptTimeout s
  | .swRefWatchdog => Sys2Proof.Machine.execSwRefWatchdog s
  | .crystalStopped => Sys2Proof.Machine.execCrystalStopped s
  | .stoveTickMissing => Sys2Proof.Machine.execStoveTickMissing s
  | .bellowsUpdate fb => Sys2Proof.Machine.execBellowsUpdate fb s
  | .drvWakeEnd g => Sys2Proof.Machine.execDrvWakeEnd g s
  | .unmuteStart c => Sys2Proof.Machine.execUnmuteStart c s
  | .muteRampEnd c => Sys2Proof.Machine.execMuteRampEnd c s
  | .disableStop c => Sys2Proof.Machine.execDisableStop c s
  | .killEnter c => Sys2Proof.Machine.execKillEnter c s
  | .killReleaseRestart c => Sys2Proof.Machine.execKillReleaseRestart c s
  | .driverFault g => Sys2Proof.Machine.execDriverFault g s
  | .driverFaultRetry g => Sys2Proof.Machine.execDriverFaultRetry g s
  | .feedbackLoss c volt => Sys2Proof.Machine.execFeedbackLoss c volt s
  | .mismatchWindowEnd => Sys2Proof.Machine.execMismatchWindowEnd s
  | .bellowsMuteRequest => Sys2Proof.Machine.execBellowsMuteRequest s
  | .bellowsMuteAck => Sys2Proof.Machine.execBellowsMuteAck s
  | .measureZComplete => Sys2Proof.Machine.execMeasureZComplete s
  | .damperAdcSample slot code => Sys2Proof.Machine.execDamperAdcSample slot code s
  | .energyBlockEnd bits => Sys2Proof.Machine.execEnergyBlockEnd bits s
  | .coolDownEnd c => Sys2Proof.Machine.execCoolDownEnd c s
  | .energyTriesReset c => Sys2Proof.Machine.execEnergyTriesReset c s
  | .lineRetry x => Sys2Proof.Machine.execLineRetry x s
  | .lineTriesReset x => Sys2Proof.Machine.execLineTriesReset x s
  | .storedEnergyCheck x => Sys2Proof.Machine.execStoredEnergyCheck x s
  | .linePermitLapse x => Sys2Proof.Machine.execLinePermitLapse x s
  | .portFrameComplete f => Sys2Proof.Machine.execPortFrameComplete f s
  | .frameSyncGlitch p side => Sys2Proof.Machine.execFrameSyncGlitch p side s
  | .holdStageCheck p edgeSeen => Sys2Proof.Machine.execHoldStageCheck p edgeSeen s
  | .transmitPinFrameOpen p => Sys2Proof.Machine.execTransmitPinFrameOpen p s
  | .lossOfClock p side => Sys2Proof.Machine.execLossOfClock p side s
  | .portMeasureDone p side period pos => Sys2Proof.Machine.execPortMeasureDone p side period pos s
  | .groupAlignTimeout g => Sys2Proof.Machine.execGroupAlignTimeout g s
  | .lineFrameReceived x f => Sys2Proof.Machine.execLineFrameReceived x f s
  | .controlReplyReceived x => Sys2Proof.Machine.execControlReplyReceived x s
  | .controlRequestRetry x => Sys2Proof.Machine.execControlRequestRetry x s
  | .discoverRepeat x => Sys2Proof.Machine.execDiscoverRepeat x s
  | .discoverTimeout x => Sys2Proof.Machine.execDiscoverTimeout x s
  | .walkVsnsLow x => Sys2Proof.Machine.execWalkVsnsLow x s
  | .walkVgoodReached x => Sys2Proof.Machine.execWalkVgoodReached x s
  | .walkVgoodTimeout x => Sys2Proof.Machine.execWalkVgoodTimeout x s
  | .nodeLoss x node => Sys2Proof.Machine.execNodeLoss x node s
  | .slotTailOutEnd x => Sys2Proof.Machine.execSlotTailOutEnd x s
  | .autoWalkRetry x => Sys2Proof.Machine.execAutoWalkRetry x s
  | .psp0TransactionEnd data => Sys2Proof.Machine.execPsp0TransactionEnd data s
  | .psp0RdyTimeout => Sys2Proof.Machine.execPsp0RdyTimeout s
  | .statusPoll status => Sys2Proof.Machine.execStatusPoll status s
  | .fetchMiss addr => Sys2Proof.Machine.execFetchMiss addr s
  | .lineFillComplete media => Sys2Proof.Machine.execLineFillComplete media s
  | .descriptorStart ring => Sys2Proof.Machine.execDescriptorStart ring s
  | .descriptorComplete ring => Sys2Proof.Machine.execDescriptorComplete ring s
  | .deadlineMiss ring => Sys2Proof.Machine.execDeadlineMiss ring s
  | .patrolScrubRead w ups => Sys2Proof.Machine.execPatrolScrubRead w ups s
  | .regionIntervalExpiry => Sys2Proof.Machine.execRegionIntervalExpiry s
  | .regionTestStart => Sys2Proof.Machine.execRegionTestStart s
  | .patrolMarkerAck => Sys2Proof.Machine.execPatrolMarkerAck s
  | .eventDelivery n => Sys2Proof.Machine.execEventDelivery n s
  | .completionRecordWrite => Sys2Proof.Machine.execCompletionRecordWrite s
  | .crossingTimeout src dst => Sys2Proof.Machine.execCrossingTimeout src dst s
  | .watchdogExpiry earlier => Sys2Proof.Machine.execWatchdogExpiry earlier s
  | .ianikResetExit => Sys2Proof.Machine.execIanikResetExit s
  | .firmwareFault cls code => Sys2Proof.Machine.execFirmwareFault cls code s
  | .hearthResponderServe n => Sys2Proof.Machine.execHearthResponderServe n s
  | .hearthResponderReset => Sys2Proof.Machine.execHearthResponderReset s
  | .crystalResume => Sys2Proof.Machine.execCrystalResume s
  | .testLogicReset => Sys2Proof.Machine.execTestLogicReset s
  | .regionTestPhaseEnd failed readBackOk => Sys2Proof.Machine.execRegionTestPhaseEnd failed readBackOk s

end Sys2Proof.Machine
end

