-- ==== Sys2Proof/Machine/Balls.lean ====
section
/-! DEFINITION. What the output balls do in a state: the Bellows balls, line power, the Stove's clock outputs and the
port balls (R25, R53, R201, R202, R233, R247, R282 to R289, R305, R312, R590, R599). Commands change the state; these
functions read the balls off it. -/

namespace Sys2Proof.Machine

/-- What an output ball does through an M frame. -/
inductive Ball where
  /-- not driven: its rail or the device is off, it is an input, or a high-impedance slot stands on it -/
  | undriven
  /-- driven low -/
  | low
  /-- driven high -/
  | high
  /-- follows its bit of the boundary register (R599) -/
  | scanned
  /-- that many cycles an M frame, with a rising edge at the tick, or a falling one (R246, R247, R284) -/
  | clock (cycles : Nat) (falling : Bool)
  /-- follows the crystal (R247) -/
  | crystal
  /-- switches once a carrier period: rises and falls that many sub-steps after the local tick (R205) -/
  | switching (rise fall : Nat)
  deriving DecidableEq, Repr

/-- A ball under the test access port: it follows the boundary register, floats, or does what the device has it do; in
OFF it is undriven (R25, R599). -/
def outBall (b : Ball) (s : State) : Ball :=
  if s.pow.st = .off then .undriven else
    match s.scan.ir with
    | .extest | .clamp => .scanned
    | .highz => .undriven
    | .idcode | .samplePreload | .bypass => b

/-- A ball of the rail VDDIO_B, undriven where the rail is not there (R25, R590). -/
def bellowsBall (b : Ball) (s : State) : Ball := if s.pow.rails[3] then outBall b s else .undriven

/-- A switching channel whose kill line is not asserted drives its legs; the kill line holds them low whatever the
Bellows does (R53, R227, R233). -/
def legsSwitch (c : Fin 32) (s : State) : Bool :=
  belRuns s && belSwitches s.bel.ch[c].st && !killLine s.dmpr s.dmpr.ch[c]

/-- The ball PWMAc (R201, R205, R233). -/
def pwmA (c : Fin 32) (s : State) : Ball :=
  bellowsBall (if legsSwitch c s then .switching s.bel.ch[c].edges.1 s.bel.ch[c].edges.2.1 else .low) s

/-- The ball PWMBc (R201, R205, R233). -/
def pwmB (c : Fin 32) (s : State) : Ball :=
  bellowsBall (if legsSwitch c s then .switching s.bel.ch[c].edges.2.2.1 s.bel.ch[c].edges.2.2.2 else .low) s

/-- The ball DRV_ENg (R201, R233, R377). -/
def drvEnPin (g : Fin 8) (s : State) : Ball :=
  bellowsBall (if belRuns s && drvEnBall g s then .high else .low) s

/-- The ball FB_CLK (R202, R233, R246). -/
def fbClk (s : State) : Ball := bellowsBall (if belRuns s then .clock 256 false else .low) s

/-- The ball LINEx_PWR_EN (R25, R312). -/
def linePwrEn (x : Fin 2) (s : State) : Ball := outBall (if s.hw[x].pwr then .high else .low) s

/-- PSP0_SEL[3:0]: the select code of the transaction under way, 15 between transactions and at reset (R425, R426). -/
def psp0Sel (s : State) : Nat :=
  match s.p0.cur with
  | some q => q.sel
  | none => 15

/-- The Stove drives its divided outputs: it issues ticks, and the device is neither in HEARTH nor in Hearth-safe (R25,
R247, log entry 71). -/
def stoveDrives (s : State) : Bool :=
  s.stove.running &&
    (match s.pow.st with
     | .powerUp | .standby | .run | .runToStandby | .standbyToHearth => true
     | .off | .hearth | .hearthSafe => false)

/-- MCLK0, MCLK1 and the clocks of the master sides run: no change of fM holds them low (R190). -/
def clocksRun (s : State) : Bool := stoveDrives s && !s.stove.clocksHeld

/-- What an MCLK setting drives (R246, R279). -/
def mclkBall (code : BitVec 2) (s : State) : Ball :=
  outBall (if clocksRun s && code != 0 then .clock (64 * 2 ^ code.toNat) false else .low) s

/-- The balls MCLK0 and MCLK1 (R246, R247). -/
def mclk (i : Fin 2) (s : State) : Ball := mclkBall (if i = 0 then s.stove.mclk0 else s.stove.mclk1) s

/-- The ball CLKOUT, low while a change to or from the crystal holds it (R246, R247, R279). -/
def clkOut (s : State) : Ball :=
  outBall (if s.stove.clkLow then .low else
    match s.stove.clkout.toNat with
    | 1 => if stoveDrives s then .clock 1 false else .low
    | 2 => if stoveDrives s then .clock 256 false else .low
    | 3 => if stoveDrives s then .clock 512 false else .low
    | 4 => if stoveDrives s then .crystal else .low
    | _ => .low) s

/-- A side drives its balls: it runs, and nothing holds a master side's clocks (R190, R305). -/
def sideDrives (p : Fin 8) (d : Side) (s : State) : Bool :=
  portsRun s && (sideAt p d s).st != .off && (cfgMode (clockWord p d s) != 0 || clocksRun s)

/-- A side's clock balls are outputs: it is in master mode, and no synchronous receive side (R282, R290). -/
def clockOutputs (p : Fin 8) (d : Side) (s : State) : Bool :=
  let w := (sideAt p d s).w3
  cfgMode w == 0 && !(d == .rx && w.getLsbD 16)

/-- Data and frame sync change on the falling edge of the bit clock and are sampled on the rising one, or the other way
round with PORT_BCLK_INV (R284). -/
def samplesRising (w3 : Word) : Bool := !w3.getLsbD 13

/-- The balls TBCLKn and RBCLKn: B cycles an M frame from a running master side, low from a stopped one, with the
sampling edge of count 0 at the tick: the rising edge, or the falling one with PORT_BCLK_INV (R282, R284, R289, R305). -/
def bclk (p : Fin 8) (d : Side) (s : State) : Ball :=
  if clockOutputs p d s then
    outBall (if sideDrives p d s then .clock (cfgBits (sideAt p d s).w3) (!samplesRising (sideAt p d s).w3) else .low) s
  else .undriven

/-- The frame sync that a master side drives at sampling edge `i` of a frame: I2S low and left-justified high in the first
half, TDM active for one bit or for the first half, inverted by PORT_FS_INV (R284, R285). -/
def fsLevel (w3 : Word) (i : Nat) : Bool :=
  let first := decide (2 * i < cfgBits w3)
  let active := match fld w3 0 2 with
    | 0 => !first
    | 1 => first
    | _ => if w3.getLsbD 10 then first else decide (i = 0)
  active != w3.getLsbD 11

/-- The balls TFSn and RFSn at sampling edge `i` of a frame (R282, R284, R305). -/
def fsBall (p : Fin 8) (d : Side) (i : Nat) (s : State) : Ball :=
  if clockOutputs p d s then
    outBall (if sideDrives p d s && fsLevel (sideAt p d s).w3 i then .high else .low) s
  else .undriven

/-- The ball DOUTn at sampling edge `i` of a pin frame, from δ to δ + B - 1: the bits of its slots, most significant
first; a high-impedance slot is not driven (R284, R285, R287, R305). -/
def dout (p : Fin 8) (i : Nat) (s : State) : Ball :=
  let y := s.tx[p]
  let w := cfgWidth y.w3
  let k := i - cfgDelay y.w3
  outBall (if sideDrives p .tx s then
      match y.pin.getD (k / w) (some 0) with
      | none => .undriven
      | some c => if c.getLsbD (w - 1 - k % w) then .high else .low
    else .low) s

end Sys2Proof.Machine
end

