-- ==== Sys2Proof/Safety.lean ====
section
/-! DEFINITION. The terms that claims use: when a mailbox command is accepted and the state it acts on, what makes a
state well formed, and what every command keeps. -/

namespace Sys2Proof.Machine

/-! ### Accepted mailbox commands -/

/-- The state that a sampled command acts on: its words stand in the command area of mailbox `m`, the mailbox has
been rung with the number it shows, and Ianik has read the ring tail at the strobe (R467, R471, R477). -/
def asked (d : CmdDef) (m : Fin 4) (r : Req) (s : State) : State :=
  readTail (ringMbx m s.mbx[m].seqRung (hostRams (cmdArea m) (reqWords d.opcode r) s))

/-- Command `d` is sampled on mailbox `m`: PSP1 reaches the mailbox, it is IDLE or DONE, and its server runs (R467,
R486, R537, R573). -/
def Sampled (m : Fin 4) (s : State) : Prop := mbxReach s = true ∧ mbxFree m s = true ∧ mbxServed m s = true

/-- Command `d` is accepted on mailbox `m`: it is sampled, and none of the refusals of R474 applies to it. -/
def Accepts (d : CmdDef) (m : Fin 4) (r : Req) (s : State) : Prop :=
  mbxReach s = true ∧ mbxFree m s = true ∧ mbxServed m s = true ∧ refusal d m r (asked d m r s) = none

/-- Command `d` is refused on mailbox `m` with status `st`, the first of R474 that applies. -/
def Refuses (d : CmdDef) (m : Fin 4) (r : Req) (st : Nat) (s : State) : Prop :=
  mbxReach s = true ∧ mbxFree m s = true ∧ mbxServed m s = true ∧ refusal d m r (asked d m r s) = some st

/-! ### Well-formed states -/

/-- The protocol version in force on a mailbox, and one granted, is 1 to 3 (R479, R481). -/
def VersionOk (b : Mbx) : Prop := (1 ≤ b.ver ∧ b.ver ≤ 3) ∧ ∀ g, b.grant = some g → 1 ≤ g ∧ g ≤ 3

/-- In Hearth-safe Ianik is held in reset and every sequencer is held (R25, R33, R494). -/
def SafeHeld (p : PowerSt) : Prop :=
  p.st = .hearthSafe → p.ianikRst = true ∧ p.seqHive = false ∧ p.seqBel = false ∧ p.seqHw = .replicate 2 false

/-- The events that more than one island raises: the mailbox events (raised by the Hearth's server too), EV15, the
ports' EV24 to EV31, EV52 and EV54 (R50, R555). -/
def sharedEvt (n : Nat) : Bool := n < 4 || n == 11 || n == 15 || (24 ≤ n && n < 32) || n == 52 || n == 54

/-- The share of a further source is held only for an event that more than one island raises (R50, R57). -/
def PartsOk (e : Events) : Prop := ∀ p ∈ e.parts, sharedEvt (p.1 / 32) = true

/-- A well-formed state: the mailbox RAM, the Store and the boot flash are in canonical form, the fault log holds at
most 16 entries (R556), the mailbox versions are 1 to 3, the ring's head and tail name one of its words (R477),
Hearth-safe holds what it must, and only an event of several islands has shares of further sources. -/
structure WellFormed (s : State) : Prop where
  ram : Memory.wf 0 s.ram = true
  store : Memory.wf 0 s.hive.store = true
  flash : Memory.wf 0xFF s.p0.mem = true
  log : s.flt.log.length ≤ 16
  vers : ∀ m : Fin 4, VersionOk s.mbx[m]
  tail : s.evt.tail ≤ 1019
  head : s.evt.head ≤ 1019
  safe : SafeHeld s.pow
  parts : PartsOk s.evt

/-! ### What every command keeps -/

/-- What every command keeps, from `s0` to `s`: the commands that wait, the parts of a well-formed state, and what
is blown in fuses: the life-cycle never goes back (R538), a revoked key stays revoked and a key hash stays as it was
blown (R541). -/
structure Keeps (s0 s : State) : Prop where
  queue : s.pending = s0.pending
  life : lcCode s0.pow.lc ≤ lcCode s.pow.lc
  revoked : ∀ i : Fin 4, s0.boot.fuses.revoked[i] = true → s.boot.fuses.revoked[i] = true
  ram : Memory.wf 0 s0.ram = true → Memory.wf 0 s.ram = true
  store : Memory.wf 0 s0.hive.store = true → Memory.wf 0 s.hive.store = true
  flash : Memory.wf 0xFF s0.p0.mem = true → Memory.wf 0xFF s.p0.mem = true
  log : s0.flt.log.length ≤ 16 → s.flt.log.length ≤ 16
  vers : (∀ m : Fin 4, VersionOk s0.mbx[m]) → ∀ m : Fin 4, VersionOk s.mbx[m]
  tail : s0.evt.tail ≤ 1019 → s.evt.tail ≤ 1019
  head : s0.evt.head ≤ 1019 → s.evt.head ≤ 1019
  keys : ∀ (i : Fin 4) (h : BitVec 256), s0.boot.fuses.keys[i] = some h → s.boot.fuses.keys[i] = some h
  safe : SafeHeld s0.pow → SafeHeld s.pow
  parts : PartsOk s0.evt → PartsOk s.evt

/-- An outcome is a next state that keeps what `s0` has. -/
def Goes (s0 : State) (o : Host.Outcome State Fault Refusal) : Prop := ∃ t, o = .next t ∧ Keeps s0 t

/-- The act of a mailbox command that is not refused, and the little it does where it is, keep what every command
keeps. -/
structure CmdKeeps (d : CmdDef) : Prop where
  act : ∀ {s0 : State} (m : Fin 4) (r : Req) (s : State),
    refusal d m r s = none → Keeps s0 s → Keeps s0 (d.act m r s).1
  refused : ∀ {s0 : State} (st : Nat) (r : Req) (s : State), Keeps s0 s → Keeps s0 (d.refused st r s)

/-! ### The mailbox commands -/

/-- The definition, the mailbox and the words of a command that goes through a mailbox; none for any other. -/
def mailboxOf : Instr → Option (CmdDef × Fin 4 × Req)
  | .sysInfo m r => some (sysInfoDef, m, r)
  | .sysHello m r => some (sysHelloDef, m, r)
  | .sysPower m r => some (sysPowerDef, m, r)
  | .sysLoopback m r => some (sysLoopbackDef, m, r)
  | .sysPresence m r => some (sysPresenceDef, m, r)
  | .sysReset m r => some (sysResetDef, m, r)
  | .sysWatchdog m r => some (sysWatchdogDef, m, r)
  | .cellInfo m r => some (cellInfoDef, m, r)
  | .cellRoleSet m r => some (cellRoleSetDef, m, r)
  | .cellProgWrite m r => some (cellProgWriteDef, m, r)
  | .cellProgMeta m r => some (cellProgMetaDef, m, r)
  | .cellCoefWrite m r => some (cellCoefWriteDef, m, r)
  | .cellBankSwap m r => some (cellBankSwapDef, m, r)
  | .cellGlideSet m r => some (cellGlideSetDef, m, r)
  | .cellGroupCommit m r => some (cellGroupCommitDef, m, r)
  | .cellStatus m r => some (cellStatusDef, m, r)
  | .cellFaultClear m r => some (cellFaultClearDef, m, r)
  | .cellFaultPolicy m r => some (cellFaultPolicyDef, m, r)
  | .cellMemRead m r => some (cellMemReadDef, m, r)
  | .cellImageLoad m r => some (cellImageLoadDef, m, r)
  | .combInfo m r => some (combInfoDef, m, r)
  | .combMapSet m r => some (combMapSetDef, m, r)
  | .combMapGet m r => some (combMapGetDef, m, r)
  | .combStage m r => some (combStageDef, m, r)
  | .combStageBulk m r => some (combStageBulkDef, m, r)
  | .combCommit m r => some (combCommitDef, m, r)
  | .combStageDiscard m r => some (combStageDiscardDef, m, r)
  | .combGainRead m r => some (combGainReadDef, m, r)
  | .combStatus m r => some (combStatusDef, m, r)
  | .chimneyStatus m r => some (chimneyStatusDef, m, r)
  | .domainInfo m r => some (domainInfoDef, m, r)
  | .domainSet m r => some (domainSetDef, m, r)
  | .bridgeModeSet m r => some (bridgeModeSetDef, m, r)
  | .bridgeStatus m r => some (bridgeStatusDef, m, r)
  | .testgenSet m r => some (testgenSetDef, m, r)
  | .belInfo m r => some (belInfoDef, m, r)
  | .belConfig m r => some (belConfigDef, m, r)
  | .belLoopSet m r => some (belLoopSetDef, m, r)
  | .belEnable m r => some (belEnableDef, m, r)
  | .belMute m r => some (belMuteDef, m, r)
  | .belCarrierSet m r => some (belCarrierSetDef, m, r)
  | .belStatus m r => some (belStatusDef, m, r)
  | .belFaultClear m r => some (belFaultClearDef, m, r)
  | .belFaultPolicy m r => some (belFaultPolicyDef, m, r)
  | .belMeasureZ m r => some (belMeasureZDef, m, r)
  | .stoveInfo m r => some (stoveInfoDef, m, r)
  | .stkrRefConfig m r => some (stkrRefConfigDef, m, r)
  | .stkrModeSet m r => some (stkrModeSetDef, m, r)
  | .stkrSelect m r => some (stkrSelectDef, m, r)
  | .stkrStatus m r => some (stkrStatusDef, m, r)
  | .stkrRefStatus m r => some (stkrRefStatusDef, m, r)
  | .stoveOutSet m r => some (stoveOutSetDef, m, r)
  | .stkrSwConfig m r => some (stkrSwConfigDef, m, r)
  | .stkrEmberRead m r => some (stkrEmberReadDef, m, r)
  | .portInfo m r => some (portInfoDef, m, r)
  | .portConfig m r => some (portConfigDef, m, r)
  | .portEnable m r => some (portEnableDef, m, r)
  | .portGroupSet m r => some (portGroupSetDef, m, r)
  | .portStatus m r => some (portStatusDef, m, r)
  | .portClear m r => some (portClearDef, m, r)
  | .hwInfo m r => some (hwInfoDef, m, r)
  | .hwChainConfig m r => some (hwChainConfigDef, m, r)
  | .hwWalk m r => some (hwWalkDef, m, r)
  | .hwNodeInfo m r => some (hwNodeInfoDef, m, r)
  | .hwSlotMap m r => some (hwSlotMapDef, m, r)
  | .hwNodeXact m r => some (hwNodeXactDef, m, r)
  | .hwStatus m r => some (hwStatusDef, m, r)
  | .hwClear m r => some (hwClearDef, m, r)
  | .hwPartnerSet m r => some (hwPartnerSetDef, m, r)
  | .dmprInfo m r => some (dmprInfoDef, m, r)
  | .dmprSupplyConfig m r => some (dmprSupplyConfigDef, m, r)
  | .dmprCrankCurve m r => some (dmprCrankCurveDef, m, r)
  | .dmprOutConfig m r => some (dmprOutConfigDef, m, r)
  | .dmprLineConfig m r => some (dmprLineConfigDef, m, r)
  | .dmprStatus m r => some (dmprStatusDef, m, r)
  | .dmprClear m r => some (dmprClearDef, m, r)
  | .dmprEnergyRead m r => some (dmprEnergyReadDef, m, r)
  | .memInfo m r => some (memInfoDef, m, r)
  | .memPowerSet m r => some (memPowerSetDef, m, r)
  | .memEccStatus m r => some (memEccStatusDef, m, r)
  | .memErrRead m r => some (memErrReadDef, m, r)
  | .memPatrolSet m r => some (memPatrolSetDef, m, r)
  | .memPatrolStatus m r => some (memPatrolStatusDef, m, r)
  | .vaultWipe m r => some (vaultWipeDef, m, r)
  | .vaultStatus m r => some (vaultStatusDef, m, r)
  | .memClear m r => some (memClearDef, m, r)
  | .pspInfo m r => some (pspInfoDef, m, r)
  | .pspDevConfig m r => some (pspDevConfigDef, m, r)
  | .pspXfer m r => some (pspXferDef, m, r)
  | .fgrRingConfig m r => some (fgrRingConfigDef, m, r)
  | .fgrDescPush m r => some (fgrDescPushDef, m, r)
  | .fgrRingEnable m r => some (fgrRingEnableDef, m, r)
  | .fgrStatus m r => some (fgrStatusDef, m, r)
  | .fgrClear m r => some (fgrClearDef, m, r)
  | .pspStatus m r => some (pspStatusDef, m, r)
  | .bootInfo m r => some (bootInfoDef, m, r)
  | .imgUpdateBegin m r => some (imgUpdateBeginDef, m, r)
  | .imgUpdateWrite m r => some (imgUpdateWriteDef, m, r)
  | .imgUpdateEnd m r => some (imgUpdateEndDef, m, r)
  | .imgConfirm m r => some (imgConfirmDef, m, r)
  | .tuneLoad m r => some (tuneLoadDef, m, r)
  | .imgMeasExtend m r => some (imgMeasExtendDef, m, r)
  | .lcAdvance m r => some (lcAdvanceDef, m, r)
  | .keyRevoke m r => some (keyRevokeDef, m, r)
  | .bootRecoveryBegin m r => some (bootRecoveryBeginDef, m, r)
  | .bootPush m r => some (bootPushDef, m, r)
  | .svcFaultRead m r => some (svcFaultReadDef, m, r)
  | .svcFaultClear m r => some (svcFaultClearDef, m, r)
  | .svcSpkTest m r => some (svcSpkTestDef, m, r)
  | .svcDcOffset m r => some (svcDcOffsetDef, m, r)
  | .svcMicLoop m r => some (svcMicLoopDef, m, r)
  | .svcLineHealth m r => some (svcLineHealthDef, m, r)
  | .svcCaptureRead m r => some (svcCaptureReadDef, m, r)
  | .svcAbort m r => some (svcAbortDef, m, r)
  | .evtInfo m r => some (evtInfoDef, m, r)
  | .evtCountRead m r => some (evtCountReadDef, m, r)
  | .evtCountClear m r => some (evtCountClearDef, m, r)
  | .evtRingConfig m r => some (evtRingConfigDef, m, r)
  | .evtTraceMark m r => some (evtTraceMarkDef, m, r)
  | _ => none

/-! ### Frames -/

/-- All that command `c` changes, whatever next state it answers, is what `f` takes from that state: `f s t` is `s` with
the named fields of `t`. -/
def ChangesOnly (c : Instr) (f : State → State → State) : Prop := ∀ s t, exec c s = .next t → t = f s t

/-- What taking a mailbox command may change by itself: mailbox `m` and its command area, the ring tail as Ianik reads
it (R477), the counts, log and upsets of the mailbox RAM's words (R407 to R410) and the events of R550. -/
def mbxTaken (m : Fin 4) (s t : State) : State :=
  { s with
    mbx := s.mbx.set m t.mbx[m]
    ram := t.ram
    evt := { s.evt with acc := t.evt.acc, parts := t.evt.parts, detail := t.evt.detail, tail := t.evt.tail }
    care := { s.care with
      ecc := t.care.ecc, first := t.care.first, latest := t.care.latest, upsets := t.care.upsets } }

/-- All that a mailbox command changes beyond that is what `f` takes from the next state, and every byte of the mailbox
RAM outside the command area of mailbox `m` (R464) and the bytes `w` names is unchanged. -/
def MbxChangesOnly (c : Instr) (m : Fin 4) (w : Nat → Prop) (f : State → State → State) : Prop :=
  ∀ s t, exec c s = .next t → t = f (mbxTaken m s t) t ∧
    ∀ a, (a < cmdArea m ∨ cmdArea m + 512 ≤ a) → ¬ w a → rdB t.ram a = rdB s.ram a

end Sys2Proof.Machine
end

