-- ==== Sys2Proof/WellFormed.lean ====
section
/-! DEFINITION. Well-formed commands: the operands an outside agent can really send. -/

namespace Sys2Proof

/-- A mailbox command fits its command area of 512 bytes (R464, R471). -/
def Req.wf (r : Req) : Bool := decide (r.payload.length ≤ 125)

/-- A register address of the register area (R570). -/
def regAddrWf (base : Nat) (a : BitVec 16) : Bool :=
  decide (base ≤ a.toNat) && decide (a.toNat < base + 0x1000) && decide (a.toNat % 4 = 0)

/-- An address of the page window (R570). -/
def winAddrWf (a : BitVec 16) : Bool := decide (0x8000 ≤ a.toNat) && decide (a.toNat % 4 = 0)

/-- A port frame has at most 32 slots and a period (R282, R285). -/
def PortFrame.wf (f : PortFrame) : Bool := decide (f.data.length ≤ 1025) && decide (0 < f.period)

/-- What arrives of a line frame are the codes of its bytes 88 to 219 (R315). -/
def LineFrame.wf (f : LineFrame) : Bool := decide (f.codes.length = 132)

/-- A command is well formed: a mailbox command fits its area, and the operands an event carries have the form
its source gives them. Operands bounded by their type need no check. -/
def Instr.wf : Instr → Bool
  | .sysInfo _ r => r.wf
  | .sysHello _ r => r.wf
  | .sysPower _ r => r.wf
  | .sysLoopback _ r => r.wf
  | .sysPresence _ r => r.wf
  | .sysReset _ r => r.wf
  | .sysWatchdog _ r => r.wf
  | .cellInfo _ r => r.wf
  | .cellRoleSet _ r => r.wf
  | .cellProgWrite _ r => r.wf
  | .cellProgMeta _ r => r.wf
  | .cellCoefWrite _ r => r.wf
  | .cellBankSwap _ r => r.wf
  | .cellGlideSet _ r => r.wf
  | .cellGroupCommit _ r => r.wf
  | .cellStatus _ r => r.wf
  | .cellFaultClear _ r => r.wf
  | .cellFaultPolicy _ r => r.wf
  | .cellMemRead _ r => r.wf
  | .cellImageLoad _ r => r.wf
  | .combInfo _ r => r.wf
  | .combMapSet _ r => r.wf
  | .combMapGet _ r => r.wf
  | .combStage _ r => r.wf
  | .combStageBulk _ r => r.wf
  | .combCommit _ r => r.wf
  | .combStageDiscard _ r => r.wf
  | .combGainRead _ r => r.wf
  | .combStatus _ r => r.wf
  | .chimneyStatus _ r => r.wf
  | .domainInfo _ r => r.wf
  | .domainSet _ r => r.wf
  | .bridgeModeSet _ r => r.wf
  | .bridgeStatus _ r => r.wf
  | .testgenSet _ r => r.wf
  | .belInfo _ r => r.wf
  | .belConfig _ r => r.wf
  | .belLoopSet _ r => r.wf
  | .belEnable _ r => r.wf
  | .belMute _ r => r.wf
  | .belCarrierSet _ r => r.wf
  | .belStatus _ r => r.wf
  | .belFaultClear _ r => r.wf
  | .belFaultPolicy _ r => r.wf
  | .belMeasureZ _ r => r.wf
  | .stoveInfo _ r => r.wf
  | .stkrRefConfig _ r => r.wf
  | .stkrModeSet _ r => r.wf
  | .stkrSelect _ r => r.wf
  | .stkrStatus _ r => r.wf
  | .stkrRefStatus _ r => r.wf
  | .stoveOutSet _ r => r.wf
  | .stkrSwConfig _ r => r.wf
  | .stkrEmberRead _ r => r.wf
  | .portInfo _ r => r.wf
  | .portConfig _ r => r.wf
  | .portEnable _ r => r.wf
  | .portGroupSet _ r => r.wf
  | .portStatus _ r => r.wf
  | .portClear _ r => r.wf
  | .hwInfo _ r => r.wf
  | .hwChainConfig _ r => r.wf
  | .hwWalk _ r => r.wf
  | .hwNodeInfo _ r => r.wf
  | .hwSlotMap _ r => r.wf
  | .hwNodeXact _ r => r.wf
  | .hwStatus _ r => r.wf
  | .hwClear _ r => r.wf
  | .hwPartnerSet _ r => r.wf
  | .dmprInfo _ r => r.wf
  | .dmprSupplyConfig _ r => r.wf
  | .dmprCrankCurve _ r => r.wf
  | .dmprOutConfig _ r => r.wf
  | .dmprLineConfig _ r => r.wf
  | .dmprStatus _ r => r.wf
  | .dmprClear _ r => r.wf
  | .dmprEnergyRead _ r => r.wf
  | .memInfo _ r => r.wf
  | .memPowerSet _ r => r.wf
  | .memEccStatus _ r => r.wf
  | .memErrRead _ r => r.wf
  | .memPatrolSet _ r => r.wf
  | .memPatrolStatus _ r => r.wf
  | .vaultWipe _ r => r.wf
  | .vaultStatus _ r => r.wf
  | .memClear _ r => r.wf
  | .pspInfo _ r => r.wf
  | .pspDevConfig _ r => r.wf
  | .pspXfer _ r => r.wf
  | .fgrRingConfig _ r => r.wf
  | .fgrDescPush _ r => r.wf
  | .fgrRingEnable _ r => r.wf
  | .fgrStatus _ r => r.wf
  | .fgrClear _ r => r.wf
  | .pspStatus _ r => r.wf
  | .bootInfo _ r => r.wf
  | .imgUpdateBegin _ r => r.wf
  | .imgUpdateWrite _ r => r.wf
  | .imgUpdateEnd _ r => r.wf
  | .imgConfirm _ r => r.wf
  | .tuneLoad _ r => r.wf
  | .imgMeasExtend _ r => r.wf
  | .lcAdvance _ r => r.wf
  | .keyRevoke _ r => r.wf
  | .bootRecoveryBegin _ r => r.wf
  | .bootPush _ r => r.wf
  | .svcFaultRead _ r => r.wf
  | .svcFaultClear _ r => r.wf
  | .svcSpkTest _ r => r.wf
  | .svcDcOffset _ r => r.wf
  | .svcMicLoop _ r => r.wf
  | .svcLineHealth _ r => r.wf
  | .svcCaptureRead _ r => r.wf
  | .svcAbort _ r => r.wf
  | .evtInfo _ r => r.wf
  | .evtCountRead _ r => r.wf
  | .evtCountClear _ r => r.wf
  | .evtRingConfig _ r => r.wf
  | .evtTraceMark _ r => r.wf
  | .mbxDoorbell _ _ => true
  | .hrthRstIanik _ => true
  | .pspCntClr => true
  | .winPageWrite _ => true
  | .stkrSwSeqRead => true
  | .stkrSwCommit _ => true
  | .frameCountLoRead => true
  | .measLatchRead => true
  | .bitSetAliasWrite a _ => regAddrWf 0x1000 a
  | .bitClearAliasWrite a _ => regAddrWf 0x2000 a
  | .registerWrite a _ => regAddrWf 0 a
  | .mailboxRamWrite a _ _ => winAddrWf a
  | .psp1CommandUnit _ _ => true
  | .psp1SelRise _ => true
  | .pspBuzzed => true
  | .pspBusyDrop a _ => decide (a.toNat % 4 = 0)
  | .vddHearthRise _ _ => true
  | .vddHearthFall => true
  | .wakeRequest _ => true
  | .rstNLow => true
  | .rstNRise => true
  | .vddCoreLoss => true
  | .vddioAFail => true
  | .railFail _ => true
  | .railGood _ => true
  | .voltageGlitch => true
  | .clockGlitch => true
  | .tamperNLow => true
  | .vaultWipeComplete _ => true
  | .keeperRelease => true
  | .keeperHold => true
  | .presenceWindowEnd => true
  | .thermalConversion _ => true
  | .trstNLow => true
  | .extest _ => true
  | .idcode => true
  | .samplePreload _ _ => true
  | .clamp => true
  | .highz => true
  | .bypass _ => true
  | .powerUpStep res => decide (res.refs.length ≤ 32)
  | .powerUpBudgetExpiry => true
  | .bootSourceStart => true
  | .manifestVerified _ => true
  | .blockVerified _ => true
  | .pushWaitTimeout => true
  | .standbyReached => true
  | .mFrameTick _ => true
  | .fFrameTick _ => true
  | .doorbellStrobe => true
  | .runToStandbyComplete => true
  | .hearthEntryReset => true
  | .cellWindow _ _ _ => true
  | .storeTurn _ _ => true
  | .chimneyPhase _ => true
  | .outletPhase _ _ => true
  | .cellQueueEntryArrival => true
  | .sealedClearDone _ => true
  | .cellFaultFadeEnd _ => true
  | .rampEnd _ _ => true
  | .rateChangeLockTimeout => true
  | .stoveComparison _ => true
  | .measurementGateEnd offs _ => decide (offs.length = 13)
  | .waitToRestoreExpiry _ => true
  | .qualifyEnd _ _ => true
  | .moveEnd => true
  | .settleTimeout => true
  | .relockAcquire => true
  | .relockAttemptTimeout => true
  | .swRefWatchdog => true
  | .crystalStopped => true
  | .stoveTickMissing => true
  | .bellowsUpdate fb => decide (fb.length = 32)
  | .drvWakeEnd _ => true
  | .unmuteStart _ => true
  | .muteRampEnd _ => true
  | .disableStop _ => true
  | .killEnter _ => true
  | .killReleaseRestart _ => true
  | .driverFault _ => true
  | .driverFaultRetry _ => true
  | .feedbackLoss _ _ => true
  | .mismatchWindowEnd => true
  | .bellowsMuteRequest => true
  | .bellowsMuteAck => true
  | .measureZComplete => true
  | .damperAdcSample _ _ => true
  | .energyBlockEnd bits => decide (bits.length = 32) && bits.all (fun b => decide (b.length = 768))
  | .coolDownEnd _ => true
  | .energyTriesReset _ => true
  | .lineRetry _ => true
  | .lineTriesReset _ => true
  | .storedEnergyCheck _ => true
  | .linePermitLapse _ => true
  | .portFrameComplete f => f.wf
  | .frameSyncGlitch _ _ => true
  | .holdStageCheck _ _ => true
  | .transmitPinFrameOpen _ => true
  | .lossOfClock _ _ => true
  | .portMeasureDone _ _ _ _ => true
  | .groupAlignTimeout _ => true
  | .lineFrameReceived _ f => f.wf
  | .controlReplyReceived _ => true
  | .controlRequestRetry _ => true
  | .discoverRepeat _ => true
  | .discoverTimeout _ => true
  | .walkVsnsLow _ => true
  | .walkVgoodReached _ => true
  | .walkVgoodTimeout _ => true
  | .nodeLoss _ _ => true
  | .slotTailOutEnd _ => true
  | .autoWalkRetry _ => true
  | .psp0TransactionEnd _ => true
  | .psp0RdyTimeout => true
  | .statusPoll _ => true
  | .fetchMiss _ => true
  | .lineFillComplete _ => true
  | .descriptorStart _ => true
  | .descriptorComplete _ => true
  | .deadlineMiss _ => true
  | .patrolScrubRead _ _ => true
  | .regionIntervalExpiry => true
  | .regionTestStart => true
  | .patrolMarkerAck => true
  | .eventDelivery _ => true
  | .completionRecordWrite => true
  | .crossingTimeout a b => decide (a ≠ b)
  | .watchdogExpiry _ => true
  | .ianikResetExit => true
  | .firmwareFault _ _ => true
  | .hearthResponderServe _ => true
  | .hearthResponderReset => true
  | .crystalResume => true
  | .testLogicReset => true
  | .regionTestPhaseEnd _ _ => true

end Sys2Proof
end

