-- ==== Sys2Proof/Certificates/Slice0/Obligations.lean ====
section
/-! DEFINITION. The statements for the provers: the queue and every command, the completion of every command by
family, frames, and the rules of the spec that say what the device does. -/

open Sys2Proof Sys2Proof.Machine

/-- O1. A step takes the command at the front of the queue and executes it with the queue's rest. -/
def Obligations.StepRunsTheFrontCommand : Prop :=
  ∀ (c : Instr) (q : List Instr) (s : State),
    step { s with pending := c :: q } = exec c { s with pending := q }

/-- O2. On an empty queue the device idles: the model's choice (log entry 3). -/
def Obligations.StepIdlesOnEmptyQueue : Prop := ∀ s : State, s.pending = [] → step s = .next s

/-- O3. Every command answers a next state in every state, and leaves the queue as it was. -/
def Obligations.EveryCommandCompletes : Prop :=
  ∀ (c : Instr) (s : State), ∃ t, exec c s = .next t ∧ t.pending = s.pending

/-- O4. A step that finds a command consumes exactly that command. -/
def Obligations.StepConsumesOneCommand : Prop :=
  ∀ s : State, ∃ t, step s = .next t ∧ t.pending = s.pending.tail

/-- O5. A step keeps the state well formed: memories canonical, fault log within 16 entries (R556), mailbox versions 1 to
3 (R479, R481), ring head and tail in the ring (R477), and Hearth-safe holding every sequencer (R25, R33). -/
def Obligations.StepKeepsWellFormed : Prop :=
  ∀ s t : State, WellFormed s → step s = .next t → WellFormed t

/-- O6. The state after reset is well formed. -/
def Obligations.ResetIsWellFormed : Prop := WellFormed State.reset

/-- O7. No step takes a fuse back: the life-cycle never returns to an earlier state (R538), a revoked key stays revoked
(R539), and a key hash that is blown stays as it was blown. -/
def Obligations.FusesNeverRevert : Prop :=
  ∀ s t : State, step s = .next t →
    lcCode s.pow.lc ≤ lcCode t.pow.lc ∧
    (∀ i : Fin 4, s.boot.fuses.revoked[i] = true → t.boot.fuses.revoked[i] = true) ∧
    (∀ (i : Fin 4) (h : BitVec 256), s.boot.fuses.keys[i] = some h → t.boot.fuses.keys[i] = some h)

/-- O8. What a host writes of a command, Ianik reads: opcode, flags, version, tag, length, target and a payload of 120
words, of which the rest is the command area's (R471). Without errors in the mailbox RAM, which read 0 (R409). -/
def Obligations.CommandWordsReadBack : Prop :=
  ∀ (m : Fin 4) (op : Nat) (r : Req) (s : State),
    op < 65536 → r.payload.length = 120 → s.care.upsets = [] →
    ¬ (s.pow.st = .powerUp ∧ s.boot.step < 6) →
    readReq m (hostRams (cmdArea m) (reqWords op r) s) = (op, r)

/-- O9. The values that the spec gives the registers right after the Hearth power-on reset, read through the host window
(R400, R447, R465, R466, R489, R540, R552, R555, R579, R580, R581, R582). -/
def Obligations.ResetRegisterValues : Prop :=
  let s := State.reset
  s.pow.st = .hearth ∧ s.pow.lc = .blank ∧ s.keeper.len = 600 ∧ s.hearth.wdP = 100 ∧
  regVal 0x0000 s = 0x00003232 ∧ regVal 0x0004 s = 0 ∧ regVal 0x0008 s = 0 ∧ regVal 0x0010 s = 0 ∧
  (∀ m : Fin 4, s.mbx[m].st = .idle ∧ s.mbx[m].ver = 1 ∧ regVal (0x0024 + 8 * m.val) s = 0x01000000) ∧
  regVal 0x0040 s = 0 ∧ regVal 0x0044 s = 0 ∧ regVal 0x0048 s = 0 ∧ regVal 0x004C s = 0x70000000 ∧
  regVal 0x0050 s = 0 ∧ regVal 0x0054 s = 0 ∧ regVal 0x0060 s = 0xFFFFFFFF ∧ regVal 0x0064 s = 0xFFFFFFFF ∧
  regVal 0x0070 s = 0 ∧ regVal 0x0080 s = 0 ∧ (∀ n, n < 64 → regVal (0x0100 + 4 * n) s = 0) ∧
  (∀ n, n < 64 → regVal (0x0200 + 4 * n) s = 0) ∧ regVal 0x0340 s = 0 ∧ regVal 0x0380 s = 0 ∧
  regVal 0x0384 s = 0 ∧ regVal 0x0388 s = 0 ∧ regVal 0x03A0 s = 0

/-- O10. A doorbell write to a mailbox in RUNG or BUSY sets MBX_RING_LOST and changes nothing else but the count of the
transfer it is a unit of (log entry 59). -/
def Obligations.RingInRungOrBusyOnlySetsRingLost : Prop :=
  ∀ (n : Fin 4) (seq : Byte) (s : State), unitTaken (0x20 + 8 * n.val) s = true → pastEnd s = false →
    (s.mbx[n].st = .rung ∨ s.mbx[n].st = .busy) → exec (.mbxDoorbell n seq) s =
      .next (unitDone { s with mbx := s.mbx.set n { s.mbx[n] with ringLost := true } })

/-- O11. Every mailbox command: one that is accepted has 1 ≤ its version ≤ the mailbox's version and its minimum version
≤ its version; any other that is sampled is refused with VERSION; and on a mailbox whose version is still the 1 of
reset, only a command of minimum version 1 passes. -/
def Obligations.VersionGatesEveryMailboxCommand : Prop :=
  (∀ (i : Instr) (d : CmdDef) (m : Fin 4) (r : Req) (s : State), mailboxOf i = some (d, m, r) → Sampled m s →
    (Accepts d m r s → 1 ≤ r.ver.toNat ∧ r.ver.toNat ≤ s.mbx[m].ver ∧ d.minVer ≤ r.ver.toNat) ∧
    (¬ (1 ≤ r.ver.toNat ∧ r.ver.toNat ≤ s.mbx[m].ver ∧ d.minVer ≤ r.ver.toNat) →
      ∃ t, exec i s = .next t ∧ t.mbx[m].st = .busy ∧
        t.mbx[m].resp = some ⟨BitVec.ofNat 16 d.opcode, 0x06, r.ver, r.tag, r.target, []⟩) ∧
    (s.mbx[m].ver = 1 → Accepts d m r s → d.minVer ≤ 1)) ∧
  (∀ m : Fin 4, (State.reset).mbx[m].ver = 1)

/-- O12. SYS_POWER for STANDBY or HEARTH while a deferred command is outstanding answers STATE and changes nothing but
its mailbox; a tuning load and an image update are deferred commands. -/
def Obligations.SysPowerRefusedWhileDeferred : Prop :=
  (∀ (m : Fin 4) (r : Req) (s : State), Sampled m s → s.ianik.deferred ≠ [] →
    1 ≤ r.ver.toNat → r.ver.toNat ≤ s.mbx[m].ver → r.len.toNat ≤ 480 → sysPowerDef.bad r s = false →
    (argF r 3 0 2 = 1 ∨ argF r 3 0 2 = 2) →
    exec (.sysPower m r) s = .next (answer 0x0002 m r 0x07 [] false (asked sysPowerDef m r s)) ∧
    (asked sysPowerDef m r s).pow = s.pow ∧ (asked sysPowerDef m r s).ianik = s.ianik ∧
    (asked sysPowerDef m r s).hive = s.hive) ∧
  tuneLoadDef.deferred = true ∧ imgUpdateBeginDef.deferred = true ∧ imgUpdateWriteDef.deferred = true ∧
  imgUpdateEndDef.deferred = true

/-- O13. R494: the fourth expiry within 10 s of the first of four enters Hearth-safe in place of the Ianik reset, and
raises EV62; an earlier one is recorded with EV63 and applies the Ianik reset (R491). The premise on the events' shares
is the part of a well-formed state that O5 keeps. -/
def Obligations.FourthWatchdogExpiryEntersHearthSafe : Prop :=
  ∀ (earlier : Fin 4) (s : State), PartsOk s.evt → poweredUp s = true → s.pow.ianikRst = false →
    ∃ t, exec (.watchdogExpiry earlier) s = .next t ∧
      t.flt.wdog = true ∧ t.pow.ianikRst = true ∧
      (if min earlier.val s.hearth.wdTotal = 3 then
        t.pow.st = .hearthSafe ∧ t.flt.wdog4 = true ∧ t.flt.safe = true ∧ t.pow.rstLast = s.pow.rstLast ∧
        t.evt.acc[62] = stick 65535 s.evt.acc[62]
      else t.pow.st = s.pow.st ∧ t.pow.rstLast = 1 ∧ t.evt.acc[62] = s.evt.acc[62] ∧
        t.evt.acc[63] = stick 65535 s.evt.acc[63])

/-- O14. A CELL_COEF_WRITE that is accepted carries 1 to 112 words, all at or below word 32,767, and its message takes
ceil(count / 16) queue entries; one that runs past word 32,767 answers BAD_ARG. -/
def Obligations.CoefWriteCountsItsEntries : Prop :=
  ∀ (m : Fin 4) (r : Req) (s : State),
    (Accepts cellCoefWriteDef m r s →
      1 ≤ argF r 3 8 7 ∧ argF r 3 8 7 ≤ 112 ∧ argF r 3 16 15 + argF r 3 8 7 ≤ 32768 ∧
      ∃ t e, exec (.cellCoefWrite m r) s = .next t ∧
        t.hive.transit ++ t.ianik.stalled = s.hive.transit ++ s.ianik.stalled ++ [e] ∧ e.cell = tgtCell r ∧
        e.entries = (argF r 3 8 7 + 15) / 16) ∧
    (Sampled m s → 1 ≤ r.ver.toNat → r.ver.toNat ≤ s.mbx[m].ver → r.len.toNat ≤ 480 →
      32768 < argF r 3 16 15 + argF r 3 8 7 → ∃ t, exec (.cellCoefWrite m r) s = .next t ∧
        t.mbx[m].resp = some ⟨0x0104, 0x03, r.ver, r.tag, r.target, []⟩)

/-- O15. COMB_STAGE_DISCARD sets every staged gain in a marked column of its Comb back to the target and clears the
marks; no target or current gain changes, so audio is unaffected. -/
def Obligations.StageDiscardRestoresTargets : Prop :=
  ∀ (m : Fin 4) (r : Req) (s : State), Accepts combStageDiscardDef m r s →
    swf {} (combAt s (tgtComb r)).nodes = true →
    ∃ t, exec (.combStageDiscard m r) s = .next t ∧ (combAt t (tgtComb r)).marks = [] ∧
      ∀ k : Nat,
        let a : Node := sget {} (combAt s (tgtComb r)).nodes k
        let b : Node := sget {} (combAt t (tgtComb r)).nodes k
        b.target = a.target ∧ b.cur = a.cur ∧
        b.staged = (if (combAt s (tgtComb r)).marks.contains (k / cols (tgtComb r)) then a.target else a.staged)

/-- O16. A delivery adds its occurrences to EVT_COUNTn, which stays at 0xFFFF_FFFF where it would pass it and sets SAT
bit n; the delivery that sets it raises EV56, once, and none for EVT_COUNT56; EVT_COUNT_CLEAR clears the bit. Bit n
of EVT_PEND is set, and the accumulator at the source is emptied (R50, R545). -/
def Obligations.CountersSaturateOnce : Prop :=
  (∀ (n : Fin 64) (s : State), s.evt.acc[n] ≠ 0 → s.pow.st ≠ .off → s.evt.counts[n] < 2 ^ 32 →
    ∃ t, exec (.eventDelivery n) s = .next t ∧
      t.evt.counts = s.evt.counts.set n (min (2 ^ 32 - 1) (s.evt.counts[n] + s.evt.acc[n])) ∧
      t.evt.pend = s.evt.pend ||| BitVec.ofNat 64 (2 ^ n.val) ∧
      t.evt.sat = (if s.evt.counts[n] + s.evt.acc[n] < 2 ^ 32 then s.evt.sat
        else s.evt.sat ||| BitVec.ofNat 64 (2 ^ n.val)) ∧
      (n ≠ 56 → t.evt.acc[56] = (if 2 ^ 32 ≤ s.evt.counts[n] + s.evt.acc[n] ∧ s.evt.sat.getLsbD n = false
        then stick 65535 s.evt.acc[56] else s.evt.acc[56])) ∧
      (n = 56 → t.evt.acc[56] = 0) ∧ (n ≠ 56 → n ≠ 4 → t.evt.acc[n] = 0) ∧
      t.evt.mask = s.evt.mask ∧ t.pow = s.pow ∧ t.hive = s.hive) ∧
  (∀ (m : Fin 4) (r : Req) (s : State), Accepts evtCountClearDef m r s → ∃ t, exec (.evtCountClear m r) s = .next t ∧
    ∀ k : Fin 64, (arg64 r 3).testBit k = true → t.evt.sat.getLsbD k = false ∧ t.evt.counts[k] = 0)

/-- O17. R509, and the boot attempt count of R513: the boot-critical flag is set at a wake and cleared when the firmware
reports STANDBY; the count is incremented, up to 3, when the slots source starts, cleared with the flag and by the
loss of VDD_HEARTH; and a wake that reads 3 tries no slot. -/
def Obligations.BootCriticalFlagAndAttemptCount : Prop :=
  (∀ (sel : BitVec 2) (stays : Bool) (s : State), s.pow.st = .hearth → s.pow.rstN = true →
    (∀ i : Fin 6, s.pow.rails[i] = true) → s.scan.inForce = false → ∃ t, exec (.wakeRequest ⟨sel, stays⟩) s = .next t ∧
      t.pow.bootCrit = true ∧ (s.pow.attempts = 3 → 0 ∉ t.boot.order)) ∧
  (∀ s : State, s.pow.st = .powerUp → s.boot.done = true → s.boot.booted = true → ratesSet s = true →
    (s.stove.lock = true ∨ s.stove.inEmber = true) → s.pow.ianikRst = false →
    ∃ t, exec .standbyReached s = .next t ∧ t.pow.st = .standby ∧ t.pow.bootCrit = false ∧ t.pow.attempts = 0) ∧
  (∀ (ks : List Nat) (s : State), s.pow.st = .powerUp → s.pow.ianikRst = false → s.boot.src = .none →
    5 ≤ s.boot.step → s.boot.order = 0 :: ks → ∃ t, exec .bootSourceStart s = .next t ∧
      t.pow.attempts = min 3 (s.pow.attempts + 1) ∧ t.pow.bootCrit = s.pow.bootCrit) ∧
  (∀ s : State, ∃ t, exec .vddHearthFall s = .next t ∧ t.pow.attempts = 0)

/-- O18. A reserved address of the register area and its aliases ignore writes and read 0, without a flag or an event,
outside Hearth-safe; an unmapped address sets PSP_UNMAPPED and raises EV51, and in Hearth-safe so do all but the
first 64 registers; while the Stove does not run, the STKR_SW registers read 0 and keep nothing, and STKR_SW_SEQ
latches nothing. -/
def Obligations.ReservedUnmappedAndStoppedAddresses : Prop :=
  (∀ (a : BitVec 16) (v : Word) (s : State), mbxReach s = true → s.pow.st ≠ .hearthSafe → a.toNat < 0x3000 →
    (let o := a.toNat % 0x1000 / 4 * 4
    (0x18 ≤ o ∧ o < 0x20) ∨ o = 0x58 ∨ o = 0x5C ∨ (0x68 ≤ o ∧ o < 0x70) ∨ (0x74 ≤ o ∧ o < 0x80) ∨
      (0x84 ≤ o ∧ o < 0x100) ∨ (0x314 ≤ o ∧ o < 0x340) ∨ (0x344 ≤ o ∧ o < 0x380) ∨ (0x390 ≤ o ∧ o < 0x3A0) ∨
      0x3A4 ≤ o) →
    (unitTaken a.toNat s = true → pastEnd s = false → exec (.registerWrite a v) s = .next (unitDone s)) ∧
    ∃ u t, exec (.psp1CommandUnit 0x80 a) s = .next u ∧ exec (.psp1SelRise .complete) u = .next t ∧
      t.host.out = [0] ∧ t.host.flags = s.host.flags ∧ t.evt = s.evt) ∧
  (∀ (a : BitVec 16) (v : Word) (s : State), mbxReach s = true →
    ((0x3000 ≤ a.toNat ∧ a.toNat < 0x8000) ∨
      (s.pow.st = .hearthSafe ∧ a.toNat < 0x3000 ∧ 0x100 ≤ a.toNat % 0x1000)) →
    (unitTaken a.toNat s = true → pastEnd s = false → ∃ t, exec (.registerWrite a v) s = .next t ∧
      t.host.flags.getLsbD 5 = true ∧ t.evt.acc[51] = stick 65535 s.evt.acc[51]) ∧
    (∃ u t, exec (.psp1CommandUnit 0x80 a) s = .next u ∧ exec (.psp1SelRise .complete) u = .next t ∧
      t.host.out = [0] ∧ t.host.flags.getLsbD 5 = true ∧ t.evt.acc[51] = stick 65535 s.evt.acc[51])) ∧
  (∀ (v : Word) (s : State), mbxReach s = true → s.pow.st ≠ .hearthSafe → s.stove.running = false →
    (∀ a ∈ ([0x0384, 0x0388, 0x038C] : List (BitVec 16)), (unitTaken a.toNat s = true → pastEnd s = false →
        exec (.registerWrite a v) s = .next (unitDone s)) ∧
      ∃ u t, exec (.psp1CommandUnit 0x80 a) s = .next u ∧ exec (.psp1SelRise .complete) u = .next t ∧
        t.host.out = [0] ∧ t.host.flags = s.host.flags ∧ t.stove = s.stove) ∧
    (unitTaken 0x38C s = true → pastEnd s = false → exec (.stkrSwCommit v) s = .next (unitDone s)) ∧
    (s.host.xfer = none → ∃ t, exec .stkrSwSeqRead s = .next t ∧ t.host.out = [0] ∧ t.stove = s.stove ∧
      t.host.flags = s.host.flags))

/-- O19. A write of WIN_PAGE applies at once; a transfer whose address unit arrives later takes the new page, and one
under way keeps the page it took, also where it writes WIN_PAGE itself. -/
def Obligations.WindowPageAppliesToLaterTransfers : Prop :=
  (∀ (v : Word) (s : State), unitTaken 0x70 s = true → pastEnd s = false → ∃ t, exec (.winPageWrite v) s = .next t ∧
    t.host.winPage = v.getLsbD 0 ∧ t.host.xfer.map (·.page) = s.host.xfer.map (·.page)) ∧
  (∀ (cmd : Byte) (a : BitVec 16) (s : State), mbxReach s = true → cmd.getLsbD 6 = false →
    ∃ t x, exec (.psp1CommandUnit cmd a) s = .next t ∧ t.host.xfer = some x ∧ x.page = s.host.winPage) ∧
  (∀ (x : Transfer) (a : BitVec 16) (v : Word) (s : State), s.pow.st ≠ .powerUp → s.host.xfer = some x →
    unitTaken a.toNat s = true → pastEnd s = false → 0x8000 ≤ a.toNat → winAddr x.page (a.toNat / 4 * 4) ≠ 0xF00C →
    ∃ t y, exec (.mailboxRamWrite a v none) s = .next t ∧ t.host.xfer = some y ∧ y.page = x.page ∧
      t.ram = wrW s.ram (a.toNat / 4 * 4 - 0x8000 + if x.page then 0x8000 else 0) v)

/-- O20. Every command of 0x00xx that is accepted completes in one step, with the response words and the effect of its
rule (R481, R488, R491, R498 to R501). -/
def Obligations.SystemCommandsComplete : Prop :=
  (∀ m r s, Accepts sysInfoDef m r s → exec (.sysInfo m r) s = .next (
      let s := asked sysInfoDef m r s
      answer 0x0000 m r 0x00 ([devId, fwVersion s, n2w (lcCode s.pow.lc) 0, hrthStatus s, n2w s.mbx[3].ver 24 ||| n2w s.mbx[2].ver 16 ||| n2w s.mbx[1].ver 8 ||| n2w s.mbx[0].ver 0] ++ pair64 s.stove.frame ++ [n2w s.ianik.deferred.length 0]) false s)) ∧
  (∀ m r s, Accepts sysHelloDef m r s → exec (.sysHello m r) s = .next (
      let s := asked sysHelloDef m r s
      answer 0x0001 m r 0x00 [n2w (argF r 3 0 4) 0, devId, fwVersion s, n2w m 0, n2w (lcCode s.pow.lc) 0] false ({ s with mbx := vmodN s.mbx m (fun b => { b with grant := some (argF r 3 0 4) }) }))) ∧
  (∀ m r s, Accepts sysPowerDef m r s → exec (.sysPower m r) s = .next (
      let s := asked sysPowerDef m r s
      let e := effFrame s
      match argF r 3 0 2 with
      | 0 => answer 0x0002 m r 0x00 (pair64 e) false (stage m r.tag e (.release true (argB r 3 4) (argB r 3 5) (argB r 3 6)) s)
      | 1 =>
        if s.pow.st = .run then
          answer 0x0002 m r 0x0B (pair64 e) false (defer 0x0002 m r.tag none (stage m r.tag e (.toStandby (some (m, r.tag))) s))
        else answer 0x0002 m r 0x00 (pair64 e) false s
      | _ => answer 0x0002 m r 0x00 (pair64 e) false (stage m r.tag e .toHearth s))) ∧
  (∀ m r s, Accepts sysLoopbackDef m r s → exec (.sysLoopback m r) s = .next (
      let s := asked sysLoopbackDef m r s
      answer 0x0003 m r 0x00 (args r 3 (nWords r)) false s)) ∧
  (∀ m r s, Accepts sysPresenceDef m r s → exec (.sysPresence m r) s = .next (
      let s := asked sysPresenceDef m r s
      let s := match argF r 3 0 2 with
        | 1 => closePresence 1 s
        | 2 => { s with keeper := { s.keeper with len := argF r 4 0 12 } }
        | _ => s
      answer 0x0004 m r 0x00 [keeperStatus (keeperLeft s) s] false ({ s with fresh := s.fresh + 1 }))) ∧
  (∀ m r s, Accepts sysResetDef m r s → exec (.sysReset m r) s = .next (
      let s := asked sysResetDef m r s
      let e := effFrame s
      let s := if argB r 3 0 then askSystemReset m r.tag s else stage m r.tag e .ianikReset s
      answer 0x0005 m r 0x00 (pair64 e) false s)) ∧
  (∀ m r s, Accepts sysWatchdogDef m r s → exec (.sysWatchdog m r) s = .next (
      let s := asked sysWatchdogDef m r s
      let s := if arg r 3 = 0 then s else
        { s with hearth := { s.hearth with wdP := argF r 3 0 10, wdRestarted := true } }
      answer 0x0006 m r 0x00 [n2w s.hearth.wdP 0, n2w s.hearth.wdTotal 0] false s))

/-- O21. Every command of 0x01xx that is accepted completes in one step: the reports answer their words, the others send
their message to the cell, stage or defer (R73 to R113). -/
def Obligations.CellCommandsComplete : Prop :=
  (∀ m r s, Accepts cellInfoDef m r s → exec (.cellInfo m r) s = .next (
      let s := asked cellInfoDef m r s
      answer 0x0100 m r 0x00 (cellInfoWords (tgt r s)) false s)) ∧
  (∀ m r s, Accepts cellRoleSetDef m r s → exec (.cellRoleSet m r) s = .next (
      let s := asked cellRoleSetDef m r s
      let y := tgt r s
      let e := useES (roleSetS r s) (arg64 r 4) s
      let rc : RoleChange :=
        ⟨askedRole r, argB r 3 5, bankIx (argB r 3 6), bankIx (argB r 3 7), y.epoch + 1, e⟩
      answer 0x0101 m r 0x00 (n2w (y.epoch + 1).toNat 0 :: pair64 e) false
        (sendCell ⟨tgtCell r, y.epoch, some e, 1, m, s.stove.frame, .role rc⟩
          (modCell (tgtCell r) (fun z => { z with pendRole := some rc }) s)))) ∧
  (∀ m r s, Accepts cellProgWriteDef m r s → exec (.cellProgWrite m r) s = .next (
      let s := asked cellProgWriteDef m r s
      let n := argF r 3 8 8
      answer 0x0102 m r 0x00 [] false (sendCell ⟨tgtCell r, tgtEpoch r, none, (n + 3) / 4, m, s.stove.frame, .prog (bankIx (argB r 3 0)) (argF r 3 16 12) (args r 4 (4 * n))⟩ s))) ∧
  (∀ m r s, Accepts cellProgMetaDef m r s → exec (.cellProgMeta m r) s = .next (
      let s := asked cellProgMetaDef m r s
      answer 0x0103 m r 0x00 [] false (sendCell ⟨tgtCell r, tgtEpoch r, none, 3, m, s.stove.frame, .progMeta (bankIx (argB r 3 0)) (BitVec.ofNat 16 (argF r 4 0 16)) (argF r 5 0 18) (metaDescs r)⟩ s))) ∧
  (∀ m r s, Accepts cellCoefWriteDef m r s → exec (.cellCoefWrite m r) s = .next (
      let s := asked cellCoefWriteDef m r s
      let n := argF r 3 8 7
      let e := coefStamp r s
      answer 0x0104 m r 0x00 (pair64 (e.getD 0)) false (sendCell ⟨tgtCell r, tgtEpoch r, some (coefFrame r s), (n + 15) / 16, m, s.stove.frame, .coef (carriesPending (tgt r s) (tgtEpoch r)).isNone (bankIx (argB r 3 0)) (if argB r 3 1 then some (BitVec.ofNat 16 (argF r 5 0 16)) else none) (argF r 3 16 15) (args r 6 n)⟩ s))) ∧
  (∀ m r s, Accepts cellBankSwapDef m r s → exec (.cellBankSwap m r) s = .next (
      let s := asked cellBankSwapDef m r s
      let e := useES (touchesS (tgt r s)) (arg64 r 4) s
      answer 0x0105 m r 0x00 (pair64 e) false (sendCell ⟨tgtCell r, tgtEpoch r, some e, 1, m, s.stove.frame, .swap (argB r 3 0) (argB r 3 1) none⟩ s))) ∧
  (∀ m r s, Accepts cellGlideSetDef m r s → exec (.cellGlideSet m r) s = .next (
      let s := asked cellGlideSetDef m r s
      let e := useES (touchesS (tgt r s)) (arg64 r 5) s
      answer 0x0106 m r 0x00 (pair64 e) false (sendCell ⟨tgtCell r, tgtEpoch r, some e, 1, m, s.stove.frame, .glide (argF r 3 0 4) (argF r 3 16 16) (arg r 4)⟩ s))) ∧
  (∀ m r s, Accepts cellGroupCommitDef m r s → exec (.cellGroupCommit m r) s = .next (
      let s := asked cellGroupCommitDef m r s
      let e := useES (groupS r s) (arg64 r 4) s
      answer 0x0107 m r 0x00 (pair64 e) false ((groupEntries r).foldl (fun t g => sendCell ⟨geCell g, geEpoch g, some e, 1, m, s.stove.frame, groupMsg g⟩ t) s))) ∧
  (∀ m r s, Accepts cellStatusDef m r s → exec (.cellStatus m r) s = .next (
      let s := asked cellStatusDef m r s
      answer 0x0108 m r 0x00 [cellFaultWord (tgt r s), cellQstat (tgt r s), sparkWord (tgt r s)] false s)) ∧
  (∀ m r s, Accepts cellFaultClearDef m r s → exec (.cellFaultClear m r) s = .next (
      let s := asked cellFaultClearDef m r s
      let e := useES (touchesS (tgt r s)) (arg64 r 4) s
      answer 0x0109 m r 0x00 (pair64 e) false (sendCell ⟨tgtCell r, tgtEpoch r, some e, 1, m, s.stove.frame, .faultClear (arg r 3)⟩ s))) ∧
  (∀ m r s, Accepts cellFaultPolicyDef m r s → exec (.cellFaultPolicy m r) s = .next (
      let s := asked cellFaultPolicyDef m r s
      let e := useES (touchesS (tgt r s)) (arg64 r 4) s
      answer 0x010A m r 0x00 (pair64 e) false (sendCell ⟨tgtCell r, tgtEpoch r, some e, 1, m, s.stove.frame, .policy (policyOf (argF r 3 0 2))⟩ s))) ∧
  (∀ m r s, Accepts cellMemReadDef m r s → exec (.cellMemRead m r) s = .next (
      let s := asked cellMemReadDef m r s
      let e := useES (touchesS (tgt r s)) (arg64 r 5) s
      let s := sendCell ⟨tgtCell r, tgtEpoch r, some e, 1, m, s.stove.frame,
        .memRead (argF r 3 0 2) (bankIx (argB r 3 2)) (argF r 3 16 16) (argF r 4 0 7) m r.tag⟩ s
      answer 0x010B m r 0x0B (pair64 e) false (defer 0x010B m r.tag none s))) ∧
  (∀ m r s, Accepts cellImageLoadDef m r s → exec (.cellImageLoad m r) s = .next (
      let s := asked cellImageLoadDef m r s
      let t := s.boot.running
      let ks := tuneBlocks (fun k => (k == 4 && argB r 3 16) || (k == 5 && argB r 3 17)) t s
      let j : TuneJob := ⟨t, (arg r 3).extractLsb' 0 16, false, 0, m, r.tag,
        some (tgtCell r, argB r 3 16, argB r 3 17), ks, false, none⟩
      answer 0x010C m r 0x0B [] false (jobBegin j (defer 0x010C m r.tag none s))))

/-- O22. Every command of 0x02xx and 0x03xx that is accepted completes in one step, with the response words and the
staged, applied or deferred effect of its rule (R155 to R202). -/
def Obligations.CombAndDomainCommandsComplete : Prop :=
  (∀ m r s, Accepts combInfoDef m r s → exec (.combInfo m r) s = .next (
      let s := asked combInfoDef m r s
      let d := tgtComb r
      answer 0x0200 m r 0x00 [n2w (cols d) 0, n2w (cols d) 0, n2w (combRatio d s) 0, combStat (combAt s d)] false s)) ∧
  (∀ m r s, Accepts combMapSetDef m r s → exec (.combMapSet m r) s = .next (
      let s := asked combMapSetDef m r s
      let e := combE 5 r s
      answer 0x0201 m r 0x00 (pair64 e) false (stage m r.tag e (.combMap (tgtComb r) (argB r 3 0) (argF r 3 16 10) (mapIds r)) s))) ∧
  (∀ m r s, Accepts combMapGetDef m r s → exec (.combMapGet m r) s = .next (
      let s := asked combMapGetDef m r s
      let c := combAt s (tgtComb r)
      let mp := if argB r 3 0 then c.outlet else c.intake
      answer 0x0202 m r 0x00 (packIds ((List.range (argF r 4 0 8)).map (fun j => sget 0 mp (argF r 3 16 10 + j)))) false s)) ∧
  (∀ m r s, Accepts combStageDef m r s → exec (.combStage m r) s = .next (
      let s := asked combStageDef m r s
      let d := tgtComb r
      let a := argF r 3 0 10
      let b := argF r 3 16 10
      let gs := args r 5 (argF r 4 0 7)
      let c := combAt s d
      match c.commits.getLast? with
      | some p => answer 0x0203 m r 0x00 [] false (modComb d (fun c => { c with held := c.held ++ [⟨a, b, argB r 4 31, gs, p.1⟩] }) s)
      | none => answer 0x0203 m r 0x00 [] false (stageNow d (argB r 4 31) a b gs s))) ∧
  (∀ m r s, Accepts combStageBulkDef m r s → exec (.combStageBulk m r) s = .next (
      let s := asked combStageBulkDef m r s
      let d := tgtComb r
      let rs := (bulkRecs r s).getD []
      let s := bulkErrs (argF r 3 0 16) (argF r 4 0 14) s
      answer 0x0204 m r 0x00 [n2w (rs.map (fun x => x.gains.length)).sum 0] false (ownBulk m (argF r 3 0 16) (argF r 4 0 14) (rs.foldl (fun s x => stageNow d x.row x.a x.b x.gains s) s)))) ∧
  (∀ m r s, Accepts combCommitDef m r s → exec (.combCommit m r) s = .next (
      let s := asked combCommitDef m r s
      let e := combE 4 r s
      answer 0x0205 m r 0x00 (pair64 e) false (stage m r.tag e (.combCommit (tgtComb r)) (modComb (tgtComb r) (fun c => { c with commits := c.commits ++ [(e, argF r 3 0 16)] }) s)))) ∧
  (∀ m r s, Accepts combStageDiscardDef m r s → exec (.combStageDiscard m r) s = .next (
      let s := asked combStageDiscardDef m r s
      answer 0x0206 m r 0x00 [] false (modComb (tgtComb r) (discardStage (tgtComb r)) s))) ∧
  (∀ m r s, Accepts combGainReadDef m r s → exec (.combGainRead m r) s = .next (
      let s := asked combGainReadDef m r s
      let d := tgtComb r
      let a := argF r 3 0 10
      let b := argF r 3 16 10
      let form := argF r 4 8 2
      let ks := (List.range (argF r 4 0 7)).map (fun j => if argB r 4 31 then nodeKey d (a + j) b else nodeKey d a (b + j))
      let s := gainErrs d (ks.map (fun k => 3 * k + (2 - form))) s
      answer 0x0207 m r 0x00 (ks.map (fun k => gainOf form (sget {} (combAt s d).nodes k))) false s)) ∧
  (∀ m r s, Accepts combStatusDef m r s → exec (.combStatus m r) s = .next (
      let s := asked combStatusDef m r s
      let c := combAt s (tgtComb r)
      let l := c.lastCommit.getD (0, 0)
      answer 0x0208 m r 0x00 (combStat c :: (colWords c.marks ++ colWords (c.ramps.map (·.1)) ++ pair64 l.1 ++ [n2w l.2 0])) false s)) ∧
  (∀ m r s, Accepts chimneyStatusDef m r s → exec (.chimneyStatus m r) s = .next (
      let s := asked chimneyStatusDef m r s
      answer 0x0209 m r 0x00 (s.hive.cells.toList.map sparkWord) false (clearSparks (arg r 3) s))) ∧
  (∀ m r s, Accepts domainInfoDef m r s → exec (.domainInfo m r) s = .next (
      let s := asked domainInfoDef m r s
      let l := s.hive.dom.lastQPR
      answer 0x0300 m r 0x00 (domStat s :: (pair64 l.1 ++ pair64 l.2.1 ++ pair64 l.2.2)) false s)) ∧
  (∀ m r s, Accepts domainSetDef m r s → exec (.domainSet m r) s = .next (
      let s := asked domainSetDef m r s
      if setSame r s && !rateStuck s then answer 0x0301 m r 0x00 [0, 0, 0, 0, 0, 0] false s
      else
        let x : RateChange := ⟨setFm r, setM r, setD r, argB r 3 16, setQ r s, setP r s, setR r s, setLocks r s, m, r.tag, none⟩
        let t := modDom (fun y => { y with change := some x, lastQPR := (x.q, x.p, x.r) }) s
        let ws := pair64 x.q ++ pair64 x.p ++ pair64 x.r
        if x.fmChange then answer 0x0301 m r 0x0B ws false (defer 0x0301 m r.tag none t)
        else answer 0x0301 m r 0x00 ws false t)) ∧
  (∀ m r s, Accepts bridgeModeSetDef m r s → exec (.bridgeModeSet m r) s = .next (
      let s := asked bridgeModeSetDef m r s
      let e := useES (dirS r) (arg64 r 4) s
      answer 0x0302 m r 0x00 (pair64 e) false (stage m r.tag e (.bridgeMode (tgtDir r) (modeOf (argF r 3 0 2))) s))) ∧
  (∀ m r s, Accepts bridgeStatusDef m r s → exec (.bridgeStatus m r) s = .next (
      let s := asked bridgeStatusDef m r s
      let b := s.hive.bridges
      answer 0x0303 m r 0x00 (b.toList.map (fun x => n2w (modeCode x.mode) 0) ++ [n2w b[1].slips 16 ||| n2w b[0].slips 0, n2w b[3].slips 16 ||| n2w b[2].slips 0]) false s)) ∧
  (∀ m r s, Accepts testgenSetDef m r s → exec (.testgenSet m r) s = .next (
      let s := asked testgenSetDef m r s
      let e := useES (genS r) (arg64 r 6) s
      answer 0x0304 m r 0x00 (pair64 e) false (stage m r.tag e (.testgen (tgtGen r) (waveOf (argF r 3 0 3)) (arg r 4) (arg r 5)) s)))

/-- O23. Every command of 0x04xx that is accepted completes in one step: the reports answer their words and the others
stage their change for their effect frame (R233 to R241). -/
def Obligations.BellowsCommandsComplete : Prop :=
  (∀ m r s, Accepts belInfoDef m r s → exec (.belInfo m r) s = .next (
      let s := asked belInfoDef m r s
      answer 0x0400 m r 0x00 ((maskChans r.target).flatMap (fun c => [belStat c s, n2w (belPhase c (belAt s c)) 16, b2w (belAt s c).cfg.ll 0]) ++ [n2w s.bel.spread 0, n2w s.bel.depth 8, maskOf ((List.finRange 8).filterMap (fun g => if s.bel.grp[g].drvEn then some g.val else none))]) false s)) ∧
  (∀ m r s, Accepts belConfigDef m r s → exec (.belConfig m r) s = .next (
      let s := asked belConfigDef m r s
      let e := useE (arg64 r 11) s
      answer 0x0401 m r 0x00 (pair64 e) false (stage m r.tag e (.belConfig r.target (args r 3 8)) s))) ∧
  (∀ m r s, Accepts belLoopSetDef m r s → exec (.belLoopSet m r) s = .next (
      let s := asked belLoopSetDef m r s
      let e := useE (arg64 r 8) s
      answer 0x0402 m r 0x00 (pair64 e) false (stage m r.tag e (.belLoop r.target (args r 3 5)) s))) ∧
  (∀ m r s, Accepts belEnableDef m r s → exec (.belEnable m r) s = .next (
      let s := asked belEnableDef m r s
      let e := useE (arg64 r 4) s
      answer 0x0403 m r 0x00 (pair64 e) false (stage m r.tag e (.belEnable r.target (argB r 3 0)) s))) ∧
  (∀ m r s, Accepts belMuteDef m r s → exec (.belMute m r) s = .next (
      let s := asked belMuteDef m r s
      let e := useE (arg64 r 4) s
      answer 0x0404 m r 0x00 (pair64 e) false (stage m r.tag e (.belMute r.target (argB r 3 0)) s))) ∧
  (∀ m r s, Accepts belCarrierSetDef m r s → exec (.belCarrierSet m r) s = .next (
      let s := asked belCarrierSetDef m r s
      let e := useE (arg64 r 4) s
      answer 0x0405 m r 0x00 (pair64 e) false (stage m r.tag e (.belCarrier (argF r 3 0 2) (argF r 3 8 7)) s))) ∧
  (∀ m r s, Accepts belStatusDef m r s → exec (.belStatus m r) s = .next (
      let s := asked belStatusDef m r s
      answer 0x0406 m r 0x00 ((maskChans r.target).flatMap (fun c => [belStat c s, belCnt (belAt s c)])) false s)) ∧
  (∀ m r s, Accepts belFaultClearDef m r s → exec (.belFaultClear m r) s = .next (
      let s := asked belFaultClearDef m r s
      let e := useE (arg64 r 4) s
      answer 0x0407 m r 0x00 (pair64 e) false (stage m r.tag e (.belFaultClear r.target (arg r 3)) s))) ∧
  (∀ m r s, Accepts belFaultPolicyDef m r s → exec (.belFaultPolicy m r) s = .next (
      let s := asked belFaultPolicyDef m r s
      let e := useE (arg64 r 4) s
      answer 0x0408 m r 0x00 (pair64 e) false (stage m r.tag e (.belPolicy r.target (arg r 3)) s))) ∧
  (∀ m r s, Accepts belMeasureZDef m r s → exec (.belMeasureZ m r) s = .next (
      let s := asked belMeasureZDef m r s
      let e := useE (arg64 r 7) s
      let c := (maskChans r.target).headD 0
      let q : Measure := ⟨argB r 3 0, arg r 5, arg r 4, argF r 6 0 16, e, 0, 0, measInc (arg r 4) s, [], false, m, r.tag, false⟩
      answer 0x0409 m r 0x0B (pair64 e) false (defer 0x0409 m r.tag none (stage m r.tag e (.belMeasure c q) s))))

/-- O24. Every command of 0x05xx that is accepted completes in one step, with the response words and the change of the
Stoker its rule gives (R270 to R281). -/
def Obligations.StoveCommandsComplete : Prop :=
  (∀ m r s, Accepts stoveInfoDef m r s → exec (.stoveInfo m r) s = .next (
      let s := asked stoveInfoDef m r s
      answer 0x0500 m r 0x00 [b2w s.hive.dom.fm 0, qF32 (mkRat (s.stove.dco * 1000000) (2 ^ 40)), b2w s.stove.lock 0, outWord s] false s)) ∧
  (∀ m r s, Accepts stkrRefConfigDef m r s → exec (.stkrRefConfig m r) s = .next (
      let s := asked stkrRefConfigDef m r s
      answer 0x0501 m r 0x00 [] false (selectByList (modRef (tgtRef r) (configRef r s) s)))) ∧
  (∀ m r s, Accepts stkrModeSetDef m r s → exec (.stkrModeSet m r) s = .next (
      let s := asked stkrModeSetDef m r s
      answer 0x0502 m r 0x00 [] false (modStove (fun x => { x with compat := argB r 3 0, revert := argB r 3 1, bw := BitVec.ofNat 2 (argF r 3 4 2), pboThr := argF r 3 16 10, slew := arg r 4 }) s))) ∧
  (∀ m r s, Accepts stkrSelectDef m r s → exec (.stkrSelect m r) s = .next (
      let s := asked stkrSelectDef m r s
      if argB r 3 4 then answer 0x0503 m r 0x00 [] false (modStove (fun x => { x with manual := none }) s)
      else
        let i : Fin 13 := ixN 13 (by decide) (argF r 3 0 4)
        let s := modStove (fun x => { x with manual := some i, dropped := [] }) s
        if s.stove.st = .locked ∧ s.stove.sel ≠ some i ∧ refRanked i s = true then answer 0x0503 m r 0x00 [] false (pendSwitch s)
        else answer 0x0503 m r 0x00 [] false s)) ∧
  (∀ m r s, Accepts stkrStatusDef m r s → exec (.stkrStatus m r) s = .next (
      let s := asked stkrStatusDef m r s
      answer 0x0504 m r 0x00 ([stkrStat s, qF32 s.stove.err, qF32 s.stove.buildOut] ++ pair64 s.stove.gate ++ pair64 s.stove.emberGates.1 ++ pair64 s.stove.emberGates.2) false s)) ∧
  (∀ m r s, Accepts stkrRefStatusDef m r s → exec (.stkrRefStatus m r) s = .next (
      let s := asked stkrRefStatusDef m r s
      let x := s.stove.refs[tgtRef r]
      answer 0x0505 m r 0x00 [refStat (tgtRef r) s, ppm32 ((x.lastOfs : Int) : Rat), ppm32 x.lastSl, x.tol, x.slope] false s)) ∧
  (∀ m r s, Accepts stoveOutSetDef m r s → exec (.stoveOutSet m r) s = .next (
      let s := asked stoveOutSetDef m r s
      let e := useE (arg64 r 4) s
      answer 0x0506 m r 0x00 (pair64 e) false (stage m r.tag e (.stoveOut (arg r 3)) s))) ∧
  (∀ m r s, Accepts stkrSwConfigDef m r s → exec (.stkrSwConfig m r) s = .next (
      let s := asked stkrSwConfigDef m r s
      let s := modStove (fun x => { x with sw := { x.sw with
        enabled := argB r 3 0, meas := argF r 3 4 4, wdog := argF r 3 16 16, step := arg r 4 } }) s
      answer 0x0507 m r 0x00 [] false (if argB r 3 0 then s else modRef 12 (fun x => { x with qual := false, good := 0 }) s))) ∧
  (∀ m r s, Accepts stkrEmberReadDef m r s → exec (.stkrEmberRead m r) s = .next (
      let s := asked stkrEmberReadDef m r s
      let vs := (List.range (argF r 3 8 7)).map (fun k => s.stove.dcoGates.getD (argF r 3 0 8 + k) none)
      answer 0x0508 m r 0x00 (pair64 (s.stove.gate - 1) ++ maskWords vs ++ vs.map (fun v => ppm32 ((v.getD 0 : Int) : Rat)) ++ [ppm32 s.stove.ember.1, n2w s.stove.ember.2 0]) false s))

/-- O25. Every command of 0x06xx that is accepted completes in one step, with the response words and the change of the
port sides its rule gives (R304 to R309). -/
def Obligations.PortCommandsComplete : Prop :=
  (∀ m r s, Accepts portInfoDef m r s → exec (.portInfo m r) s = .next (
      let s := asked portInfoDef m r s
      answer 0x0600 m r 0x00 ((tgtSides r).flatMap (fun d => [(sideAt (tgtPort r) d s).w3, (sideAt (tgtPort r) d s).w4])) false s)) ∧
  (∀ m r s, Accepts portConfigDef m r s → exec (.portConfig m r) s = .next (
      let s := asked portConfigDef m r s
      answer 0x0601 m r 0x00 [] false ((tgtSides r).foldl (fun s d => modSide (tgtPort r) d (fun y => { w3 := arg r 3, w4 := arg r 4, enabled := y.enabled }) (sideCut (tgtPort r) d s)) s))) ∧
  (∀ m r s, Accepts portEnableDef m r s → exec (.portEnable m r) s = .next (
      let s := asked portEnableDef m r s
      let e := useE (arg64 r 4) s
      let on := argB r 3 0
      let s := if argB r 3 1 then
          let g : Fin 4 := ixN 4 (by decide) (argF r 3 4 2)
          let s := (membersOf g s).foldl (fun s x => stage m r.tag e (.groupPart x.1 x.2) s) s
          stage m r.tag e (.groupEnable g on) (if on then armGroup m r.tag g e s else s)
        else (tgtSides r).foldl (fun s d => stage m r.tag e (.portEnable (tgtPort r) d on) s) s
      answer 0x0602 m r 0x00 (pair64 e) false s)) ∧
  (∀ m r s, Accepts portGroupSetDef m r s → exec (.portGroupSet m r) s = .next (
      let s := asked portGroupSetDef m r s
      let g : Fin 4 := ixN 4 (by decide) (argF r 3 0 2)
      let s := (tgtSides r).foldl (fun s d => modSide (tgtPort r) d (joinGroup g (argB r 3 2)) s) s
      let s := { s with grps := vmod s.grps g (fun x => { x with late := argB r 3 3 }) }
      answer 0x0603 m r 0x00 [] false (emptyGroups s))) ∧
  (∀ m r s, Accepts portStatusDef m r s → exec (.portStatus m r) s = .next (
      let s := asked portStatusDef m r s
      answer 0x0604 m r 0x00 ((tgtSides r).flatMap (fun d => let y := sideAt (tgtPort r) d s; [portStat y, portCnt y, portRate y s, n2w y.pos 0, qF32 y.fill])) false s)) ∧
  (∀ m r s, Accepts portClearDef m r s → exec (.portClear m r) s = .next (
      let s := asked portClearDef m r s
      answer 0x0605 m r 0x00 [] false ((tgtSides r).foldl (fun s d => modSide (tgtPort r) d (clearSide (arg r 3)) s) s)))

/-- O26. Every command of 0x07xx that is accepted completes in one step: the reports answer their words, and the others
change the chain, or queue a request and defer (R353 to R360). -/
def Obligations.HivewireCommandsComplete : Prop :=
  (∀ m r s, Accepts hwInfoDef m r s → exec (.hwInfo m r) s = .next (
      let s := asked hwInfoDef m r s
      let c := s.hw[tgtChain r]
      answer 0x0700 m r 0x00 (chainStat c :: bytesToWords (c.up.toList.map slotByte ++ c.down.toList.map slotByte)) false s)) ∧
  (∀ m r s, Accepts hwChainConfigDef m r s → exec (.hwChainConfig m r) s = .next (
      let s := asked hwChainConfigDef m r s
      answer 0x0701 m r 0x00 [] false (modHw (tgtChain r) (fun c => { c with maxVer := argF r 3 0 2, auto := argB r 3 2, errThr := argF r 3 16 16, ibudget := arg r 4, vgood := arg r 5, ratio := arg r 6, bootTmo := (arg r 7).toNat, retry := (arg r 8).toNat, retryFrom := if argB r 3 2 then some s.stove.frame else c.retryFrom }) s))) ∧
  (∀ m r s, Accepts hwWalkDef m r s → exec (.hwWalk m r) s = .next (
      let s := asked hwWalkDef m r s
      answer 0x0702 m r 0x0B [] false (defer 0x0702 m r.tag none (modHw (tgtChain r) (fun c => { c with cmdPend := c.cmdPend ++ [(argF r 3 0 2, m.val, r.tag)] }) s)))) ∧
  (∀ m r s, Accepts hwNodeInfoDef m r s → exec (.hwNodeInfo m r) s = .next (
      let s := asked hwNodeInfoDef m r s
      match nodeAt (tgtChain r) (tgtNode r) s with
      | some y => answer 0x0703 m r 0x00 (padTo 9 (bytesToWords y.desc) ++ [n2w y.ver 0, n2w y.grant 0]) false s
      | none => answer 0x0703 m r 0x00 [] false s)) ∧
  (∀ m r s, Accepts hwSlotMapDef m r s → exec (.hwSlotMap m r) s = .next (
      let s := asked hwSlotMapDef m r s
      let x := tgtChain r
      let e := mapE r s
      let down := argB r 3 0
      let slot := argF r 3 1 6
      let rate := argF r 3 8 2
      let owner := argF r 3 12 4
      let s := stage m r.tag e (.slotMap x (!down) slot (rateOf rate) (argB r 3 10) owner) s
      let s := modHw x (fun c => { c with maps := c.maps ++ [⟨e, m, r.tag, !down, slot, down⟩] }) s
      let ch (i : Nat) : Byte := byteOf (argF r 4 (8 * i) 8)
      let s := if down then s else
        queueXact x (mkXact s.hw[x] owner 0x06
          [0, byteOf slot, byteOf (rate + if argB r 3 10 then 4 else 0), ch 0, ch 1, ch 2, ch 3] (.slotMap m r.tag e)) s
      answer 0x0704 m r 0x0B (pair64 e) false (defer 0x0704 m r.tag none s))) ∧
  (∀ m r s, Accepts hwNodeXactDef m r s → exec (.hwNodeXact m r) s = .next (
      let s := asked hwNodeXactDef m r s
      let x := tgtChain r
      let n := argF r 3 8 4
      let wr := argB r 3 0
      let data := if wr then (wordsToBytes [arg r 4, arg r 5]).take n else []
      let q := mkXact s.hw[x] (tgtNode r) (if wr then 0x08 else 0x07)
        ([byteOf (argF r 3 24 8), byteOf (argF r 3 16 8), byteOf n] ++ data) (.nodeXact m r.tag wr n)
      answer 0x0705 m r 0x0B [] false (defer 0x0705 m r.tag none (queueXact x q s)))) ∧
  (∀ m r s, Accepts hwStatusDef m r s → exec (.hwStatus m r) s = .next (
      let s := asked hwStatusDef m r s
      let c := s.hw[tgtChain r]
      answer 0x0706 m r 0x00 [chainStat c, chainCnt c, n2w c.trip 0, qF32 (lineVolts (tgtChain r) s)] false s)) ∧
  (∀ m r s, Accepts hwClearDef m r s → exec (.hwClear m r) s = .next (
      let s := asked hwClearDef m r s
      answer 0x0707 m r 0x00 [] false (modHw (tgtChain r) (fun c => let c := { c with ev := c.ev &&& ~~~ ((arg r 3).extractLsb' 0 7) }; if argB r 3 31 then { c with errCnt := 0, retryCnt := 0, lostCnt := 0 } else c) s))) ∧
  (∀ m r s, Accepts hwPartnerSetDef m r s → exec (.hwPartnerSet m r) s = .next (
      let s := asked hwPartnerSetDef m r s
      let x := tgtChain r
      let k := argF r 3 0 4
      let slot := argF r 3 8 6
      let c := s.hw[x]
      let s := defer 0x0708 m r.tag none s
      if k = 0 ∧ c.partner = 0 then answer 0x0708 m r 0x0B [] false (complete 0x0708 m r.tag (BitVec.ofNat 8 stOk) [] s)
      else
        let q := mkXact c (if k = 0 then c.partner else k) 0x0D [byteOf (if k = 0 then 0 else 1), byteOf slot]
          (.partner m r.tag k slot)
        answer 0x0708 m r 0x0B [] false (queueXact x q s)))

/-- O27. Every command of 0x08xx that is accepted completes in one step, with the response words or the setting its rule
gives (R383 to R393). -/
def Obligations.DamperCommandsComplete : Prop :=
  (∀ m r s, Accepts dmprInfoDef m r s → exec (.dmprInfo m r) s = .next (
      let s := asked dmprInfoDef m r s
      let d := s.dmpr
      answer 0x0800 m r 0x00 [dmprStat s, qF32 (batMean d), qF32 d.rail, qF32 (lineVolts 0 s), qF32 (lineVolts 1 s), qF32 d.line[0].amps, qF32 d.line[1].amps] false s)) ∧
  (∀ m r s, Accepts dmprSupplyConfigDef m r s → exec (.dmprSupplyConfig m r) s = .next (
      let s := asked dmprSupplyConfigDef m r s
      answer 0x0801 m r 0x00 [] false (modDmpr (fun d => { d with cfgNext := some { (d.cfgNext.getD d.cfg) with batRatio := arg r 3, railRatio := arg r 4, warn := arg r 5, hyst := arg r 6, cut := arg r 7, resume := arg r 8, dump := arg r 9, release := arg r 10, ldDrvOff := argB r 11 0 } }) s))) ∧
  (∀ m r s, Accepts dmprCrankCurveDef m r s → exec (.dmprCrankCurve m r) s = .next (
      let s := asked dmprCrankCurveDef m r s
      answer 0x0802 m r 0x00 [] false (modDmpr (fun d => { d with cfgNext := some { (d.cfgNext.getD d.cfg) with curve := some (curveArgs r) } }) s))) ∧
  (∀ m r s, Accepts dmprOutConfigDef m r s → exec (.dmprOutConfig m r) s = .next (
      let s := asked dmprOutConfigDef m r s
      answer 0x0803 m r 0x00 [] false (modDmpr (fun d => { d with chNext := vmap d.chNext (fun c n => if r.target.getLsbD c.val then some { d.ch[c] with eLim := arg r 3, wE := argF r 4 0 10, wD := argF r 4 16 10, dcThr := arg r 5, cool := arg r 6, ruleE := argB r 7 0, ruleD := argB r 7 1 } else n) }) s))) ∧
  (∀ m r s, Accepts dmprLineConfigDef m r s → exec (.dmprLineConfig m r) s = .next (
      let s := asked dmprLineConfigDef m r s
      answer 0x0804 m r 0x00 [] false (modDmpr (fun d => { d with lineNext := vmod d.lineNext (tgtLine r) (fun _ => some { d.line[tgtLine r] with itrip := arg r 3, shunt := arg r 4, elim := arg r 5, retryT := arg r 6, retryN := argF r 7 0 2 }) }) s))) ∧
  (∀ m r s, Accepts dmprStatusDef m r s → exec (.dmprStatus m r) s = .next (
      let s := asked dmprStatusDef m r s
      answer 0x0805 m r 0x00 (dmprStat s :: (maskChans r.target).flatMap (fun c => [dchStat s.dmpr s.dmpr.ch[c], s.dmpr.ch[c].sent])) false s)) ∧
  (∀ m r s, Accepts dmprClearDef m r s → exec (.dmprClear m r) s = .next (
      let s := asked dmprClearDef m r s
      let s := if argB r 3 0 then modDmpr (fun d => { d with ch := vmap d.ch (fun c y =>
        if r.target.getLsbD c.val then clearDch y else y) }) s else s
      let s := if argB r 3 1 then clearLine 0 s else s
      let s := if argB r 3 2 then clearLine 1 s else s
      answer 0x0806 m r 0x00 [] false (dmprMove (fun d => { d with ev := if argB r 3 3 then 0 else d.ev, killCnt := if argB r 3 4 then 0 else d.killCnt }) s))) ∧
  (∀ m r s, Accepts dmprEnergyReadDef m r s → exec (.dmprEnergyRead m r) s = .next (
      let s := asked dmprEnergyReadDef m r s
      answer 0x0807 m r 0x00 ((maskChans r.target).flatMap (fun c => let y := s.dmpr.ch[c]; [f64To32 (sum64 y.eWin), f64To32 (dcMean y)])) false s))

/-- O28. Every command of 0x09xx that is accepted completes in one step, with the response words or the change its rule
gives (R394 to R426). -/
def Obligations.MemoryCommandsComplete : Prop :=
  (∀ m r s, Accepts memInfoDef m r s → exec (.memInfo m r) s = .next (
      let s := asked memInfoDef m r s
      answer 0x0900 m r 0x00 (powWord s.hive.storePow.toList :: s.hive.cells.toList.map (fun y => powWord y.mem.pow.toList)) false s)) ∧
  (∀ m r s, Accepts memPowerSetDef m r s → exec (.memPowerSet m r) s = .next (
      let s := asked memPowerSetDef m r s
      let e := useE (arg64 r 6) s
      let cell := if argB r 3 0 then some (cellIx (argF r 3 8 5)) else none
      answer 0x0901 m r 0x00 (pair64 e) false (stage m r.tag e (.memPower cell (arg r 4) (powOf (argF r 5 0 2))) s))) ∧
  (∀ m r s, Accepts memEccStatusDef m r s → exec (.memEccStatus m r) s = .next (
      let s := asked memEccStatusDef m r s
      answer 0x0902 m r 0x00 (s.care.ecc.toList.map eccWord) false s)) ∧
  (∀ m r s, Accepts memErrReadDef m r s → exec (.memErrRead m r) s = .next (
      let s := asked memErrReadDef m r s
      answer 0x0903 m r 0x00 (errRecord s.care.first ++ errRecord s.care.latest) false s)) ∧
  (∀ m r s, Accepts memPatrolSetDef m r s → exec (.memPatrolSet m r) s = .next (
      let s := asked memPatrolSetDef m r s
      answer 0x0904 m r 0x00 [] false (modCare (fun c => { c with scrub := argB r 3 0, region := argB r 3 1, period := argF r 3 16 12, interval := argF r 4 0 23 }) s))) ∧
  (∀ m r s, Accepts memPatrolStatusDef m r s → exec (.memPatrolStatus m r) s = .next (
      let s := asked memPatrolStatusDef m r s
      answer 0x0905 m r 0x00 (patrolStat s :: pair64 (patrolMark s) ++ [n2w s.care.lastRegion.1 0, n2w s.care.lastRegion.2 0]) false s)) ∧
  (∀ m r s, Accepts vaultWipeDef m r s → exec (.vaultWipe m r) s = .next (
      let s := asked vaultWipeDef m r s
      let s := defer 0x0906 m r.tag none s
      if s.care.locked then answer 0x0906 m r 0x0B [] false (complete 0x0906 m r.tag (BitVec.ofNat 8 stState) [] s)
      else answer 0x0906 m r 0x0B [] false (modCare (fun c => { c with cmds := c.cmds ++ [(m.val, r.tag)] }) (wipeVault 3 s)))) ∧
  (∀ m r s, Accepts vaultStatusDef m r s → exec (.vaultStatus m r) s = .next (
      let s := asked vaultStatusDef m r s
      answer 0x0907 m r 0x00 [b2w s.care.wiping 0 ||| b2w s.care.locked 1 ||| n2w s.care.wipes 8 ||| n2w s.care.cause 16] false s)) ∧
  (∀ m r s, Accepts memClearDef m r s → exec (.memClear m r) s = .next (
      let s := asked memClearDef m r s
      answer 0x0908 m r 0x00 [] false (modCare (fun c => { c with ecc := if argB r 3 0 then .replicate 8 (0, 0) else c.ecc, first := if argB r 3 1 then none else c.first, latest := if argB r 3 1 then none else c.latest, offAcc := c.offAcc && !argB r 3 2 }) s)))

/-- O29. Every command of 0x0Axx that is accepted completes in one step, with the response words or the change its rule
gives (R456 to R463). -/
def Obligations.ForagerCommandsComplete : Prop :=
  (∀ m r s, Accepts pspInfoDef m r s → exec (.pspInfo m r) s = .next (
      let s := asked pspInfoDef m r s
      answer 0x0A00 m r 0x00 (s.p0.prof.toList.flatMap (fun p => [p.w3, p.w4, p.w5, p.w6])) false s)) ∧
  (∀ m r s, Accepts pspDevConfigDef m r s → exec (.pspDevConfig m r) s = .next (
      let s := asked pspDevConfigDef m r s
      answer 0x0A01 m r 0x00 [] false (modProf (tgtSel r) (fun p => ⟨arg r 3, arg r 4, arg r 5, arg r 6, false, p.cont || p.exitDue⟩)
        (if argB r 4 9 then s else deviceGone (tgtSel r) s)))) ∧
  (∀ m r s, Accepts pspXferDef m r s → exec (.pspXfer m r) s = .next (
      let s := asked pspXferDef m r s
      let q := xferReq m r
      let s := defer 0x0A02 m r.tag none s
      if !present q.sel s || xferTagged q s then answer 0x0A02 m r 0x0B [] false (complete 0x0A02 m r.tag (BitVec.ofNat 8 stState) [] s)
      else answer 0x0A02 m r 0x0B [] false (p0Ask q s))) ∧
  (∀ m r s, Accepts fgrRingConfigDef m r s → exec (.fgrRingConfig m r) s = .next (
      let s := asked fgrRingConfigDef m r s
      answer 0x0A03 m r 0x00 [] false (modRing (tgtRing r) (configRing r) (modP0 (orphan (fun i => i == tgtRing r) .gone) s)))) ∧
  (∀ m r s, Accepts fgrDescPushDef m r s → exec (.fgrDescPush m r) s = .next (
      let s := asked fgrDescPushDef m r s
      let ds := (List.range (argF r 3 0 4)).map (fun i => argDesc r (4 + 8 * i))
      answer 0x0A04 m r 0x00 [] false (modRing (tgtRing r) (fun x => { x with descs := x.descs ++ ds }) s))) ∧
  (∀ m r s, Accepts fgrRingEnableDef m r s → exec (.fgrRingEnable m r) s = .next (
      let s := asked fgrRingEnableDef m r s
      let e := useE (arg64 r 4) s
      answer 0x0A05 m r 0x00 (pair64 e) false (if argB r 3 0 then armRing m r.tag (tgtRing r) e s else stage m r.tag e (.ringStop (tgtRing r)) s))) ∧
  (∀ m r s, Accepts fgrStatusDef m r s → exec (.fgrStatus m r) s = .next (
      let s := asked fgrStatusDef m r s
      let x := s.p0.rings[tgtRing r]
      answer 0x0A06 m r 0x00 ([ringStat x, n2w x.fill 0] ++ pair64 x.n0 ++ [x.lastDone.1, n2w x.lastDone.2 0]) false s)) ∧
  (∀ m r s, Accepts fgrClearDef m r s → exec (.fgrClear m r) s = .next (
      let s := asked fgrClearDef m r s
      answer 0x0A07 m r 0x00 [] false (modP0 (fun p => { p with rings := vmap p.rings (fun i x => if argB r 3 i then { x with evMedia := false, miss := 0, sub := 0 } else x), evTag := p.evTag && !argB r 3 16, evMedia := p.evMedia && !argB r 3 16 }) s))) ∧
  (∀ m r s, Accepts pspStatusDef m r s → exec (.pspStatus m r) s = .next (
      let s := asked pspStatusDef m r s
      answer 0x0A08 m r 0x00 [p0Stat s, n2w (64 * s.p0.tagRange.1) 0, n2w s.p0.tagRange.2 0] false s))

/-- O30. Every command of 0x0Bxx that is accepted completes in one step, with the response words, or deferred with its
work begun (R523 to R544). -/
def Obligations.BootCommandsComplete : Prop :=
  (∀ m r s, Accepts bootInfoDef m r s → exec (.bootInfo m r) s = .next (
      let s := asked bootInfoDef m r s
      answer 0x0B00 m r 0x00 (bootStatus s :: slotInfo false s ++ slotInfo true s ++ [n2w s.boot.running 0, n2w s.boot.bootTuning 0, keyWord s, b2w s.boot.session.isSome 0]) false s)) ∧
  (∀ m r s, Accepts imgUpdateBeginDef m r s → exec (.imgUpdateBegin m r) s = .next (
      let s := asked imgUpdateBeginDef m r s
      let b := match bootedSlot s with
        | some b => !b
        | none => argB r 3 0
      let a := slotBase b s
      answer 0x0B01 m r 0x0B [] false (imgBegin 0x0B01 m r.tag [.erase (a + 0x10000) (511 * 0x10000), .erase a 0x10000] [b2w b 0] s))) ∧
  (∀ m r s, Accepts imgUpdateWriteDef m r s → exec (.imgUpdateWrite m r) s = .next (
      let s := asked imgUpdateWriteDef m r s
      let b := s.boot.session.getD false
      let bs := wordsToBytes (bulkWords (argF r 4 0 16) (argF r 4 16 14) s)
      let s := bulkErrs (argF r 4 0 16) (argF r 4 16 14) s
      let ops := (List.range (argF r 4 16 14 / 1024)).map (fun i =>
        FlashOp.prog (slotBase b s + (arg r 3).toNat + 4096 * i) ((bs.drop (4096 * i)).take 4096))
      let s := modBoot (fun x => { x with regions := (writeRegions r).foldl (fun l k => insertN k l) x.regions }) s
      let s := imgBegin 0x0B02 m r.tag ops [] s
      let s := { s with ianik := { s.ianik with deferred := s.ianik.deferred.map (fun d =>
        if isDeferred 0x0B02 m r.tag d then { d with bulk := some (argF r 4 0 16, argF r 4 16 14) } else d) } }
      answer 0x0B02 m r 0x0B [] false s)) ∧
  (∀ m r s, Accepts imgUpdateEndDef m r s → exec (.imgUpdateEnd m r) s = .next (
      let s := asked imgUpdateEndDef m r s
      let b := s.boot.session.getD false
      let q := nextSeq s
      let a := slotBase b s
      let w (k : Nat) : List Byte := wordsToBytes [slotWords.getD k 0]
      let s := modBoot (fun x => { x with session := none, regions := [] }) s
      answer 0x0B03 m r 0x0B [] false (imgBegin 0x0B03 m r.tag [.prog (a + 8) (wordsToBytes [q]), .prog a (w 1), .check b, .prog a (w 2)] [q, 0] s))) ∧
  (∀ m r s, Accepts imgConfirmDef m r s → exec (.imgConfirm m r) s = .next (
      let s := asked imgConfirmDef m r s
      let b := (bootedSlot s).getD false
      answer 0x0B04 m r 0x0B [] false (imgBegin 0x0B04 m r.tag [.prog (slotBase b s) (wordsToBytes [0]), .prog (slotBase (!b) s + 4) (wordsToBytes [0])] [] s))) ∧
  (∀ m r s, Accepts tuneLoadDef m r s → exec (.tuneLoad m r) s = .next (
      let s := asked tuneLoadDef m r s
      let t := argF r 3 0 16
      let j : TuneJob := ⟨t, 0, argB r 3 16, arg64 r 4, m, r.tag, none, tuneBlocks (fun _ => true) t s, false, none⟩
      answer 0x0B05 m r 0x0B (pair64 (arg64 r 4)) false (jobBegin j (defer 0x0B05 m r.tag none s)))) ∧
  (∀ m r s, Accepts imgMeasExtendDef m r s → exec (.imgMeasExtend m r) s = .next (
      let s := asked imgMeasExtendDef m r s
      let s := measure 7 (wordsDigest (args r 3 8)) s
      answer 0x0B06 m r 0x00 (digestWords s.boot.meas[7]) false s)) ∧
  (∀ m r s, Accepts lcAdvanceDef m r s → exec (.lcAdvance m r) s = .next (
      let s := asked lcAdvanceDef m r s
      let s := defer 0x0B07 m r.tag none s
      if lcOk r s then answer 0x0B07 m r 0x0B [] false (complete 0x0B07 m r.tag (BitVec.ofNat 8 stOk) [] (lcBlow r (wipeVault 2 s)))
      else answer 0x0B07 m r 0x0B [] false (complete 0x0B07 m r.tag (BitVec.ofNat 8 stAuth) [] s))) ∧
  (∀ m r s, Accepts keyRevokeDef m r s → exec (.keyRevoke m r) s = .next (
      let s := asked keyRevokeDef m r s
      let i : Fin 4 := ixN 4 (by decide) (argF r 3 0 2)
      let s := modBoot (fun b => { b with fuses := { b.fuses with revoked := b.fuses.revoked.set i true } })
        (defer 0x0B08 m r.tag none s)
      answer 0x0B08 m r 0x0B [] false (complete 0x0B08 m r.tag (BitVec.ofNat 8 stOk) [] s))) ∧
  (∀ m r s, Accepts bootRecoveryBeginDef m r s → exec (.bootRecoveryBegin m r) s = .next (
      let s := asked bootRecoveryBeginDef m r s
      answer 0x0B09 m r 0x00 [] false (askSystemReset m r.tag { s with pow := { s.pow with recovery := true } }))) ∧
  (∀ m r s, Accepts bootPushDef m r s → exec (.bootPush m r) s = .next (
      let s := asked bootPushDef m r s
      let n := argF r 5 16 14
      let a := (arg r 4).toNat
      let bs := wordsToBytes (bulkWords (argF r 5 0 16) n s)
      let s := if argF r 3 0 2 = 2 then s else bulkErrs (argF r 5 0 16) n s
      let s := match argF r 3 0 2 with
        | 0 => ownBulk m (argF r 5 0 16) n (modBoot (fun b => { b with
            pushed := wrBs b.pushed a bs, pushedLen := max b.pushedLen (a + 4 * n) }) s)
        | 1 => ownBulk m (argF r 5 0 16) n (modBoot (fun b => { b with
            pushed := wrBs b.pushed (0x10000 + a) bs
            pushedN := sset 0 b.pushedN (a / 0x10000) (sget 0 b.pushedN (a / 0x10000) + n) }) s)
        | _ => modBoot (fun b => { b with pushEnd := true }) s
      answer 0x0B0A m r 0x00 [] false s))

/-- O31. Every command of 0x0Cxx and 0x0Dxx that is accepted completes in one step, with the response words or the change
its rule gives (R502, R503, R559 to R571). -/
def Obligations.ServiceAndEventCommandsComplete : Prop :=
  (∀ m r s, Accepts svcFaultReadDef m r s → exec (.svcFaultRead m r) s = .next (
      let s := asked svcFaultReadDef m r s
      answer 0x0C00 m r 0x00 (faultWords s) false s)) ∧
  (∀ m r s, Accepts svcFaultClearDef m r s → exec (.svcFaultClear m r) s = .next (
      let s := asked svcFaultClearDef m r s
      let f := if argB r 3 0 then { s.flt with log := [], overwrites := 0 } else s.flt
      answer 0x0C01 m r 0x00 [] false ({ s with flt := if argB r 3 1 then clearFault 0xFFFFFFFF f else f }))) ∧
  (∀ m r s, Accepts svcSpkTestDef m r s → exec (.svcSpkTest m r) s = .next (
      let s := asked svcSpkTestDef m r s
      let e := effFrame s
      let b := (argF r 19 0 16, argF r 19 16 14)
      let todo := (maskChans r.target).flatMap (fun c => (spkFreqs r).map (fun f => (c.val, f)))
      let x : Routine := ⟨0x0C02, m, r.tag, false, args r 3 17, r.target, todo, e, [], b, [], [], []⟩
      answer 0x0C02 m r 0x0B [] false (setRoutine (some x) (defer 0x0C02 m r.tag (some b) s)))) ∧
  (∀ m r s, Accepts svcDcOffsetDef m r s → exec (.svcDcOffset m r) s = .next (
      let s := asked svcDcOffsetDef m r s
      let x : Routine := ⟨0x0C03, m, r.tag, false, args r 3 1, r.target, [], 0, [], (0, 0), [], [], []⟩
      answer 0x0C03 m r 0x0B [] false (setRoutine (some x) (defer 0x0C03 m r.tag none s)))) ∧
  (∀ m r s, Accepts svcMicLoopDef m r s → exec (.svcMicLoop m r) s = .next (
      let s := asked svcMicLoopDef m r s
      let e := effFrame s
      let todo := (maskChans r.target).map (fun c => (c.val, arg r 4))
      let x : Routine := ⟨0x0C04, m, r.tag, false, args r 3 5, r.target, todo, e, [], (0, 0), [], [], []⟩
      answer 0x0C04 m r 0x0B [] false (setRoutine (some x) (defer 0x0C04 m r.tag none s)))) ∧
  (∀ m r s, Accepts svcLineHealthDef m r s → exec (.svcLineHealth m r) s = .next (
      let s := asked svcLineHealthDef m r s
      let x : Routine := ⟨0x0C05, m, r.tag, false, args r 3 1, r.target, [], effFrame s, [], (0, 0), [], [], []⟩
      answer 0x0C05 m r 0x0B [] false (setRoutine (some x) (defer 0x0C05 m r.tag none s)))) ∧
  (∀ m r s, Accepts svcCaptureReadDef m r s → exec (.svcCaptureRead m r) s = .next (
      let s := asked svcCaptureReadDef m r s
      let (ws, s) := frameWords s.p0.rings[tgtRing r] (arg64 r 3) (argF r 5 0 16) s
      answer 0x0C06 m r 0x00 [n2w ws.length 0, 0] false (ownBulk m (argF r 6 0 16) (argF r 6 16 14) (ramWrites (bulkAddr (argF r 6 0 16)) ws s)))) ∧
  (∀ m r s, Accepts svcAbortDef m r s → exec (.svcAbort m r) s = .next (
      let s := asked svcAbortDef m r s
      answer 0x0C07 m r 0x00 [] false (setRoutine (s.ianik.routine.map (fun r => { r with abort := true })) s))) ∧
  (∀ m r s, Accepts evtInfoDef m r s → exec (.evtInfo m r) s = .next (
      let s := asked evtInfoDef m r s
      answer 0x0D00 m r 0x00 (words64 s.evt.pend ++ words64 s.evt.mask ++ [n2w s.evt.head 0, n2w s.evt.tail 0, n2w s.evt.dropped 0] ++ words64 s.evt.recMask) false s)) ∧
  (∀ m r s, Accepts evtCountReadDef m r s → exec (.evtCountRead m r) s = .next (
      let s := asked evtCountReadDef m r s
      answer 0x0D01 m r 0x00 ((List.range (argF r 3 8 7)).map (fun j => n2w (vgetD s.evt.counts (argF r 3 0 6 + j) 0) 0) ++ words64 s.evt.sat) false s)) ∧
  (∀ m r s, Accepts evtCountClearDef m r s → exec (.evtCountClear m r) s = .next (
      let s := asked evtCountClearDef m r s
      let mask := BitVec.ofNat 64 (arg64 r 3)
      answer 0x0D02 m r 0x00 [] false ({ s with evt := { s.evt with counts := vmap s.evt.counts (fun i c => if mask.getLsbD i then 0 else c), sat := s.evt.sat &&& ~~~ mask } }))) ∧
  (∀ m r s, Accepts evtRingConfigDef m r s → exec (.evtRingConfig m r) s = .next (
      let s := asked evtRingConfigDef m r s
      let s := { s with evt := { s.evt with recMask := BitVec.ofNat 64 (arg64 r 3) } }
      let s := if argB r 5 0 then { ramWrite 0xF008 0 s with evt := { s.evt with dropped := 0 } } else s
      let s := if argB r 5 1 then
          { ramWrites 0xF000 [0, 0] s with evt := { s.evt with head := 0, tail := 0 } } else s
      answer 0x0D03 m r 0x00 [] false s)) ∧
  (∀ m r s, Accepts evtTraceMarkDef m r s → exec (.evtTraceMark m r) s = .next (
      let s := asked evtTraceMarkDef m r s
      let n := argF r 3 16 4
      let s := completionsWrite s.evt.waiting.length s
      if ringFits (4 + n) s.evt then
        answer 0x0D04 m r 0x00 [n2w s.evt.ringSeq 0] false (ringPut 3 ([n2w (argF r 3 0 16) 16 ||| n2w n 0] ++ pair64 s.stove.frame ++ args r 4 n) s)
      else answer 0x0D04 m r 0x0C [] false (ringDrop s)))

/-- O32. A write unit that PSP1 takes and that lies in its transfer's area completes with the effect of its area, and
closes one unit of the transfer (`unitDone`, which changes nothing without an open transfer; log entry 59): the
doorbell, RESET_CTL, PSP_CNT_CLR, WIN_PAGE and STKR_SW_COMMIT with the register's effect and nothing else (R447, R465,
R467, R274, R580, R581); a register by its access codes, an alias, the page window by the page of its transfer;
EVT_MASK0 as an example of a whole RW register (R7, R395, R445, R548). Past the area's end a unit is discarded (R446).
The reads that latch complete with the latch and the word read, and change nothing else: FRAME_COUNT_LO (R552),
STKR_SW_SEQ (R273) and the MEAS registers (R575); a register read in an open transfer is that transfer's next unit. -/
def Obligations.HostAccessesComplete : Prop :=
  (∀ (m : Fin 4) (seq : Byte) (s : State), unitTaken (0x20 + 8 * m.val) s = true → pastEnd s = false →
    mbxFree m s = true → (m = 2 → s.hw[0].partner = 0 ∧ s.hw[1].partner = 0) → (m = 3 → s.pow.sawStandby = true) →
    exec (.mbxDoorbell m seq) s =
      .next (unitDone { s with mbx := s.mbx.set m { s.mbx[m] with st := .rung, seqRung := seq } })) ∧
  (∀ (v : Word) (s : State), unitTaken 0x10 s = true → pastEnd s = false → inService s = true →
    v.extractLsb' 8 8 = 0xA5 → v.getLsbD 0 = true → exec (.hrthRstIanik v) s = .next (unitDone (ianikReset 2 s))) ∧
  (∀ s : State, unitTaken 0x80 s = true → pastEnd s = false →
    exec .pspCntClr s = .next (unitDone { s with host := { s.host with errCnt := 0 } })) ∧
  (∀ (v : Word) (s : State), unitTaken 0x70 s = true → pastEnd s = false →
    exec (.winPageWrite v) s = .next (unitDone { s with host := { s.host with winPage := v.getLsbD 0 } })) ∧
  (∀ (v : Word) (s : State), unitTaken 0x38C s = true → pastEnd s = false → s.pow.st ≠ .hearthSafe →
    s.stove.running = true → exec (.stkrSwCommit v) s = .next (unitDone { s with stove := { s.stove with
      sw := { s.stove.sw with pend := s.stove.sw.pend ++ [(v.extractLsb' 0 8, s.stove.sw.ofs)] } } })) ∧
  (∀ (a : BitVec 16) (v : Word) (s : State), unitTaken a.toNat s = true → pastEnd s = true →
    ∃ t, exec (.registerWrite a v) s = .next t ∧ t = { s with host := t.host, evt := t.evt } ∧
      ∀ x, s.host.xfer = some x → x.addr = areaEnd x.area →
        t.host.flags = s.host.flags ||| 1 ∧ t.evt.acc[51] = stick 65535 s.evt.acc[51]) ∧
  (∀ s : State, mbxReach s = true → s.host.xfer = none → exec .frameCountLoRead s = .next { s with
    host := { s.host with
      fcLatch := BitVec.ofNat 64 (frameCopy s), statusUnit := 0x3C, out := [BitVec.ofNat 32 (frameCopy s)] } }) ∧
  (∀ s : State, mbxReach s = true → s.host.xfer = none → s.pow.st ≠ .hearthSafe → s.stove.running = true →
    exec .stkrSwSeqRead s = .next { s with
      stove := { s.stove with sw := { s.stove.sw with phLatch := BitVec.ofInt 32 s.stove.sw.phaseNow } }
      host := { s.host with statusUnit := 0x3C, out := [swSeq s] } }) ∧
  (∀ (x : Transfer) (s : State), mbxReach s = true → s.host.xfer = some x → x.area = 0 → x.read = true → x.dead = false →
    0 < x.count → (x.addr = 0x60 → exec .frameCountLoRead s = .next { s with host := { s.host with
        fcLatch := BitVec.ofNat 64 (frameCopy s), statusUnit := 0x3C
        out := s.host.out ++ [BitVec.ofNat 32 (frameCopy s)], xfer := some x.next } }) ∧
      (x.addr = 0x380 → exec .stkrSwSeqRead s = .next (unitNext s))) ∧
  (∀ s : State, mbxReach s = true → s.pow.st ≠ .hearthSafe →
    exec .measLatchRead s = .next { s with host := { s.host with measLatch := s.boot.meas } }) ∧
  (∀ (a : BitVec 16) (v : Word) (s : State), unitTaken a.toNat s = true → pastEnd s = false →
    exec (.registerWrite a v) s = .next (unitDone (hostWrite (pageNow s) a.toNat v s))) ∧
  (∀ (v : Word) (s : State), unitTaken 0x48 s = true → pastEnd s = false → exec (.registerWrite 0x0048 v) s =
    .next (unitDone { s with evt := { s.evt with mask := s.evt.mask.extractLsb' 32 32 ++ v } })) ∧
  (∀ (v : Word) (s : State), unitTaken 0x1048 s = true → pastEnd s = false → exec (.bitSetAliasWrite 0x1048 v) s =
    .next (unitDone { s with evt := { s.evt with
      mask := s.evt.mask.extractLsb' 32 32 ++ (s.evt.mask.extractLsb' 0 32 ||| v) } })) ∧
  (∀ (v : Word) (s : State), unitTaken 0x2048 s = true → pastEnd s = false → exec (.bitClearAliasWrite 0x2048 v) s =
    .next (unitDone { s with evt := { s.evt with
      mask := s.evt.mask.extractLsb' 32 32 ++ (s.evt.mask.extractLsb' 0 32 &&& ~~~ v) } })) ∧
  (∀ (v : Word) (s : State), unitTaken 0x2040 s = true → pastEnd s = false → exec (.bitClearAliasWrite 0x2040 v) s =
    .next (unitDone { s with evt := { s.evt with pend := s.evt.pend &&& ~~~ (v.zeroExtend 64) } }))

/-- O33. A host write unit in the page window that PSP1 takes stores its word and nothing else: the word at the RAM address
of the page reads as written, every other byte as before (R397), and the reserved word 0xF00C keeps nothing (R464); in a
collision the other port's word stands, the collision is shown and EV55 raised (R398, R400). -/
def Obligations.MailboxRamWriteStoresOneWord : Prop :=
  ∀ (a : BitVec 16) (v : Word) (s : State), winAddrWf a = true → unitTaken a.toNat s = true → pastEnd s = false →
    ¬ (s.pow.st = .powerUp ∧ s.boot.step < 6) →
    (∃ t, exec (.mailboxRamWrite a v none) s = .next t ∧
      t = unitDone { s with ram := t.ram, care := t.care } ∧
      (winAddr (pageNow s) a.toNat = 0xF00C → t.ram = s.ram ∧ t.care = s.care) ∧
      (winAddr (pageNow s) a.toNat ≠ 0xF00C → rdW t.ram (winAddr (pageNow s) a.toNat) = v) ∧
      ∀ b, (b < winAddr (pageNow s) a.toNat ∨ winAddr (pageNow s) a.toNat + 4 ≤ b) → rdB t.ram b = rdB s.ram b) ∧
    ∀ w : Word, ∃ t, exec (.mailboxRamWrite a v (some w)) s = .next t ∧
      t = { s with ram := t.ram, care := t.care, host := t.host, evt := t.evt } ∧
      rdW t.ram (winAddr (pageNow s) a.toNat) = w ∧
      (∀ b, (b < winAddr (pageNow s) a.toNat ∨ winAddr (pageNow s) a.toNat + 4 ≤ b) → rdB t.ram b = rdB s.ram b) ∧
      t.host.dprColl = true ∧ t.host.dprCnt = stick 255 s.host.dprCnt ∧
      t.host.dprAddr = winAddr (pageNow s) a.toNat / 4 ∧ t.evt.acc[55] = stick 65535 s.evt.acc[55]

/-- O34. PSP1's transfers: a command unit opens a transfer of its direction, count and address that takes the page in
force, or one that is ignored, with flag 4, where bit 6 is set (R440, R445, R446); a select that rises complete, or
after extra edges, has read every unit of a read; one that rises before the status unit leaves no data, and the other
ends of a transfer set the flag of their case and have read some of its units, the first among them (R443, R446); the
rest of a transfer that is ignored ends without a flag; a buzz drives 0xAA with no unit read (R442); a busy drop
applies the pending unit and ignores the rest (R444). -/
def Obligations.TransfersComplete : Prop :=
  (∀ (cmd : Byte) (addr : BitVec 16) (s : State), mbxReach s = true → ∃ t, exec (.psp1CommandUnit cmd addr) s = .next t ∧
    (∃ x, t.host.xfer = some x ∧ x.read = cmd.getLsbD 7 ∧ x.count = fld cmd 0 6 + 1 ∧ x.addr = addr.toNat / 4 * 4 ∧
      x.area = areaOf (addr.toNat / 4 * 4) ∧ x.page = s.host.winPage ∧ x.dead = cmd.getLsbD 6) ∧
    t.host.out = [] ∧ t.host.statusUnit = 0 ∧ t = { s with host := t.host, evt := t.evt } ∧
    t.host.flags = (if cmd.getLsbD 6 then s.host.flags ||| 0x10 else s.host.flags) ∧
    (cmd.getLsbD 6 = false → t.evt = s.evt) ∧
    t.host.measLatch = (if cmd.getLsbD 7 && !cmd.getLsbD 6 && decide (0x200 ≤ addr.toNat) && decide (addr.toNat < 0x300) &&
      s.pow.st != .hearthSafe then s.boot.meas else s.host.measLatch)) ∧
  (∀ (x : Transfer) (s : State), mbxReach s = true → s.host.xfer = some x → x.read = true → x.dead = false →
    ∀ k ∈ ([.complete, .afterExtraEdges] : List SelRise), ∃ t, exec (.psp1SelRise k) s = .next t ∧
      t.host.xfer = none ∧ t.host.out.length = s.host.out.length + x.count ∧
      (k = .afterExtraEdges → t.host.flags.getLsbD 3 = true) ∧ t.ram = s.ram ∧ t.pow = s.pow ∧
      (0 < x.count → t.host.statusUnit = 0x3C)) ∧
  (∀ (x : Transfer) (s : State), mbxReach s = true → s.host.xfer = some x → x.read = true → x.dead = false →
    0 < x.count → ∀ k ∈ ([.insideUnit, .atBoundary] : List SelRise), ∃ t, exec (.psp1SelRise k) s = .next t ∧
      t.host.xfer = none ∧ 1 ≤ t.host.out.length ∧ t.host.out.length ≤ s.host.out.length + x.count ∧
      t.host.flags.getLsbD (if k = .insideUnit then 1 else 2) = true ∧ t.ram = s.ram ∧ t.pow = s.pow) ∧
  (∀ s : State, mbxReach s = true → isDead s = false → ∃ t, exec (.psp1SelRise .beforeStatus) s = .next t ∧
    t = { s with host := { s.host with xfer := none, out := [] } }) ∧
  (∀ (k : SelRise) (s : State), mbxReach s = true → unitsLeft s = 0 → ∃ t, exec (.psp1SelRise k) s = .next t ∧
    t.host.xfer = none ∧ t = { s with host := t.host, evt := t.evt } ∧
    t.host.flags = s.host.flags ||| (if isDead s then 0 else match k with
      | .insideUnit => 2
      | .atBoundary => 4
      | .afterExtraEdges => 8
      | _ => 0)) ∧
  (∀ (x : Transfer) (s : State), mbxReach s = true → s.host.xfer = some x → x.read = true → x.dead = false →
    0 < x.count → s.host.out = [] → exec .pspBuzzed s = .next { s with host := { s.host with
      flags := s.host.flags ||| 0x40, statusUnit := 0xAA, xfer := some { x with dead := true } } }) ∧
  (∀ (a : BitVec 16) (v : Word) (s : State), unitTaken a.toNat s = true → areaOf a.toNat ≠ 4 →
    ∃ t, exec (.pspBusyDrop a v) s = .next t ∧
      t = (let u := hostUnit a.toNat v s
        { u with
          host := { u.host with
            flags := u.host.flags ||| 0x80, errCnt := stick 255 u.host.errCnt
            xfer := u.host.xfer.map (fun x => { x with dead := true }) }
          evt := raiseEvt 51 0x80 u.evt }) ∧
      (pastEnd s = false → hostUnit a.toNat v s = unitDone (hostWrite (pageNow s) a.toNat v s)))

/-- O35. The power events complete with the transition of R26, the wake of R28 and the rails of R589: HEARTH at a rise of
VDD_HEARTH, power-up at a wake with RST_N high and every rail good, HEARTH from any powered state at RST_N low or a
loss of VDD_CORE, which is recorded (R555), and OFF at a fall of VDD_HEARTH. -/
def Obligations.PowerEventsComplete : Prop :=
  (∀ (low : Bool) (s : State), s.pow.st = .off → ∃ t, exec (.vddHearthRise true low) s = .next t ∧
    t.pow = { s.pow with st := .hearth, rails := s.pow.rails.set 0 true } ∧ t.keeper = { pin := low }) ∧
  (∀ s : State, ∃ t, exec .vddHearthFall s = .next t ∧
    t = { State.reset with
      pending := s.pending, fresh := s.fresh, p0 := t.p0
      pow := { (State.reset).pow with
        st := .off, lc := s.pow.lc, rails := s.pow.rails.set 0 false, rstN := s.pow.rstN, wakePin := s.pow.wakePin
        bootSel := s.pow.bootSel }
      keeper := { isOpen := s.keeper.isOpen }
      boot := { (State.reset).boot with fuses := s.boot.fuses } } ∧
    t.p0.mem = s.p0.mem) ∧
  (∀ (sel : BitVec 2) (stays : Bool) (s : State), s.pow.st = .hearth → s.pow.rstN = true →
    (∀ i : Fin 6, s.pow.rails[i] = true) → s.scan.inForce = false → ∃ t, exec (.wakeRequest ⟨sel, stays⟩) s = .next t ∧
    t.pow = { s.pow with
      st := .powerUp, wakes := s.pow.wakes + 1, bootCrit := true, wakePin := stays, wakeHeld := false, bootSel := sel } ∧
    t.boot.step = 1) ∧
  (∀ s : State, s.pow.st = .hearth → s.pow.wakePin = true → (∀ i : Fin 6, s.pow.rails[i] = true) →
    s.scan.inForce = false → ∃ t, exec .rstNRise s = .next t ∧ t.pow.st = .powerUp ∧ t.boot.step = 1) ∧
  (∀ (r : Rail) (s : State), s.pow.st = .hearth → s.pow.wakePin = true → s.pow.rstN = true →
    s.scan.inForce = false → (∀ i : Fin 6, i = railIx r ∨ s.pow.rails[i] = true) →
    ∃ t, exec (.railGood r) s = .next t ∧ t.pow.st = .powerUp ∧ t.boot.step = 1) ∧
  (∀ s : State, s.pow.st ≠ .off →
    exec .rstNLow s = .next (systemReset { s with pow := { s.pow with rstN := false } }) ∧
    exec .vddioAFail s = .next (systemReset { s with pow := { s.pow with
      rstN := false, rails := s.pow.rails.set 1 false } })) ∧
  (∀ s : State, s.pow.st ≠ .off → s.pow.st ≠ .standbyToHearth →
    ∃ t, exec .vddCoreLoss s = .next t ∧ t.pow.st = .hearth ∧ t.pow.rails = s.pow.rails.set 2 false ∧
      t.flt.supply = true ∧ t.flt.log = (⟨0x05, s.pow.wakes, BitVec.ofNat 16 (powCode s.pow.st), logFrame s,
        Config.freeLong s.fresh⟩ :: s.flt.log).take 16) ∧
  (∀ s : State,
    exec (.railFail .vddioB) s = .next { s with pow := { s.pow with rails := s.pow.rails.set 3 false } } ∧
    exec (.railFail .vddLine) s = .next { s with pow := { s.pow with rails := s.pow.rails.set 4 false } } ∧
    exec (.railFail .vddaStove) s = .next { s with pow := { s.pow with rails := s.pow.rails.set 5 false } } ∧
    exec (.railFail .vddCore) s = exec .vddCoreLoss s ∧ exec (.railFail .vddioA) s = exec .vddioAFail s ∧
    exec (.railFail .vddHearth) s = exec .vddHearthFall s)

/-- O36. Tamper and glitches: the fault bit, a log entry of cause 0x08 with the EV59 cause, EV59, a wipe of the Vault and
the end of an open presence window (R417, R488, R550, R555, R557). KEEPER and the presence window: a release arms the
counter, an armed hold opens the window with the length in force and EV6, and its end closes it with EV7 (R487, R488,
R550). -/
def Obligations.TamperAndPresenceEventsComplete : Prop :=
  (∀ s : State, s.pow.st ≠ .off → ∀ k : Fin 3,
    let c : Instr := match k with
      | 0 => .tamperNLow
      | 1 => .voltageGlitch
      | 2 => .clockGlitch
    ∃ t, exec c s = .next t ∧
      (if k = 0 then t.flt.tamper = true else t.flt.glitch = true) ∧
      t.flt.log = (⟨0x08, s.pow.wakes, BitVec.ofNat 16 k.val, logFrame s, Config.freeLong s.fresh⟩ :: s.flt.log).take 16 ∧
      t.evt.acc[59] = stick 65535 s.evt.acc[59] ∧ (s.care.locked = false → t.care.wiping = true) ∧
      t.keeper.isOpen = false ∧
      t.evt.acc[7] = (if s.keeper.isOpen then stick 65535 s.evt.acc[7] else s.evt.acc[7])) ∧
  (∀ s : State, s.pow.st ≠ .off →
    exec .keeperRelease s = .next { s with keeper := { s.keeper with pin := false, armed := true } } ∧
    (s.keeper.armed = true → exec .keeperHold s = .next { s with
      keeper := { s.keeper with pin := true, armed := false, isOpen := true, openLen := s.keeper.len }
      evt := raiseEvt 6 (n2w s.keeper.len 0) s.evt }) ∧
    (s.keeper.armed = false → exec .keeperHold s = .next { s with keeper := { s.keeper with pin := true } }) ∧
    (s.keeper.isOpen = true → exec .presenceWindowEnd s = .next { s with
      keeper := { s.keeper with isOpen := false }, evt := raiseEvt 7 0 s.evt }))

/-- O37. The thermal sensor: EV57 at the first conversion at or above 115 °C, again only after one below 110 °C; EV58 at
130 and 125 °C, with its fault bit; and the bar on RUN ends below 110 °C (R553, R554, R555). The ends of the power
state's transitions and of resets: RUN to STANDBY ends with every sequencer held, a commanded HEARTH entry with the
system reset, and a wake where one was asked for, and an Ianik reset with Ianik back (R26, R34, R493, R498, R499). -/
def Obligations.ThermalAndTransitionEndsComplete : Prop :=
  (∀ (tj : F32) (s : State), s.pow.st ≠ .off →
    let warn := tjAt 115 tj && !s.hearth.warnHeld
    let crit := tjAt 130 tj && !s.hearth.critHeld
    ∃ t, exec (.thermalConversion tj) s = .next t ∧
      t = { s with hearth := t.hearth, evt := t.evt, flt := t.flt, fresh := t.fresh } ∧
      t.hearth.tj = tj ∧
      t.hearth.warnHeld = (warn || (s.hearth.warnHeld && !tjUnder 110 tj)) ∧
      t.hearth.critHeld = (crit || (s.hearth.critHeld && !tjUnder 125 tj)) ∧
      t.hearth.runBarred = (crit || (s.hearth.runBarred && !tjUnder 110 tj)) ∧
      t.evt.acc[57] = (if warn then stick 65535 s.evt.acc[57] else s.evt.acc[57]) ∧
      t.evt.acc[58] = (if crit then stick 65535 s.evt.acc[58] else s.evt.acc[58]) ∧
      t.flt.therm = (s.flt.therm || crit)) ∧
  (∀ s : State, s.pow.st = .runToStandby → bellowsMuted s = false ∨ portsOver s = false →
    exec .runToStandbyComplete s = .next s) ∧
  (∀ s : State, s.pow.st = .runToStandby → bellowsMuted s = true → portsOver s = true →
    ∃ t, exec .runToStandbyComplete s = .next t ∧ t.pow.st = .standby ∧
    t.pow.seqHive = false ∧ t.pow.seqBel = false ∧ t.pow.seqHw = .replicate 2 false ∧
    (∀ p : Fin 8, t.rx[p].st = .off ∧ t.tx[p].st = .off)) ∧
  (∀ s : State, s.pow.st = .standbyToHearth → exec .hearthEntryReset s = .next (tryWake (systemReset s)) ∧
    (s.pow.wakePin = false → s.pow.wakeHeld = false → exec .hearthEntryReset s = .next (systemReset s)) ∧
    (s.pow.wakePin = true ∨ s.pow.wakeHeld = true → s.pow.rstN = true → s.scan.inForce = false →
      (∀ i : Fin 6, s.pow.rails[i] = true) → ∃ t, exec .hearthEntryReset s = .next t ∧ t.pow.st = .powerUp)) ∧
  (∀ s : State, s.pow.ianikRst = true → s.pow.st ≠ .hearthSafe → ∃ t, exec .ianikResetExit s = .next t ∧
    t.pow = { s.pow with ianikRst := false } ∧ t.boot.img = []) ∧
  (∀ s : State, s.pow.st = .hearthSafe → s.pow.sysResetPends = true →
    exec .hearthResponderReset s = .next (tryWake (systemReset s))) ∧
  (∀ (m : Fin 4) (s : State), s.pow.st = .hearthSafe → m ≠ 2 → s.mbx[m].st = .rung →
    ∃ t, exec (.hearthResponderServe m) s = .next t ∧ t.mbx[m].st = .done ∧ t.mbx[m].hearth = true ∧
      t.mbx[m].seqDone = s.mbx[m].seqRung ∧ t.mbx[m].ver = s.mbx[m].grant.getD s.mbx[m].ver)

/-- O38. Boundary scan: the instructions of R598, the system reset that EXTEST, CLAMP and HIGHZ hold, and their acting as
BYPASS in PRODUCTION and RETURNED without an open window (R599). -/
def Obligations.BoundaryScanCompletes : Prop :=
  (∀ s : State, s.pow.st ≠ .off → s.scan.inForce = false →
    exec .idcode s = .next { s with scan := { s.scan with ir := .idcode } } ∧
    exec .trstNLow s = .next { s with scan := { s.scan with ir := .idcode } } ∧
    exec .testLogicReset s = .next { s with scan := { s.scan with ir := .idcode } } ∧
    (∀ bs ps : List Bool, exec (.samplePreload bs ps) s =
      .next { s with scan := { s.scan with ir := .samplePreload, boundary := ps } })) ∧
  (∀ (code : BitVec 4) (s : State), s.pow.st ≠ .off → s.scan.inForce = false → code ≠ 0 → code ≠ 1 → code ≠ 2 →
    code ≠ 4 → code ≠ 5 → exec (.bypass code) s = .next { s with scan := { s.scan with ir := .bypass } }) ∧
  (∀ s : State, s.pow.st ≠ .off → (s.pow.lc = .blank ∨ s.pow.lc = .develop ∨ s.keeper.isOpen = true) →
    exec .clamp s = .next (systemReset { s with scan := { s.scan with ir := .clamp, inForce := true } }) ∧
    exec .highz s = .next (systemReset { s with scan := { s.scan with ir := .highz, inForce := true } }) ∧
    ∀ bs : List Bool, exec (.extest bs) s =
      .next (systemReset { s with scan := ⟨.extest, true, bs⟩ })) ∧
  (∀ s : State, s.pow.st ≠ .off → s.pow.lc = .production ∨ s.pow.lc = .returned → s.keeper.isOpen = false →
    s.scan.inForce = false → ∀ bs : List Bool,
    exec .clamp s = .next { s with scan := { s.scan with ir := .bypass } } ∧
    exec .highz s = .next { s with scan := { s.scan with ir := .bypass } } ∧
    exec (.extest bs) s = .next { s with scan := { s.scan with ir := .bypass } })

/-- O39. At a strobe with ticks, a response of the frame before is posted: its mailbox is DONE with its status and the
number rung, unless QUIET EV0 + n is raised, and the state is what Ianik, or its reset, leaves (R467, R470, R472,
R492); a mailbox rung since then is BUSY with the response it will get: BUSY while Ianik is in reset (R492), BAD_OPCODE for
an opcode that no command has (R474). A crossing timeout is recorded with the identity of the crossing and raises EV52 (R40, R555, R557). The oldest
waiting completion record is written where it fits, its command ends and EV4 is raised (R475, R478); a firmware fault
that is survived is recorded and logged and raises EV5 (R495, R557). -/
def Obligations.StrobeAndRecordEventsComplete : Prop :=
  (∀ s : State, s.stove.running = true →
    let u : State := { s with care := { s.care with strobeAt := some s.stove.frame } }
    (s.pow.ianikRst = false → exec .doorbellStrobe s = .next (strobePosts (strobeIanik u))) ∧
    (s.pow.ianikRst = true → exec .doorbellStrobe s = .next (strobePosts (strobeReset u)))) ∧
  (∀ (m : Fin 4) (p : Response) (s : State), s.stove.running = true → s.stove.valid = true →
    s.mbx[m].st = .busy → s.mbx[m].resp = some p → s.mbx[m].sampled ≠ s.stove.frame →
    (s.pow.ianikRst = true ∨ (s.ianik.staged = [] ∧ s.ianik.stalled = [] ∧ s.hive.transit = [] ∧
      ∀ k : Fin 4, s.mbx[k].st ≠ .rung ∧ leftBusy k s = false)) →
    ∃ t, exec .doorbellStrobe s = .next t ∧ t.mbx[m] = { s.mbx[m] with
        st := .done, status := p.status, seqDone := s.mbx[m].seqRung, hearth := s.mbx[m].fromHearth
        ver := s.mbx[m].grant.getD s.mbx[m].ver, grant := none, bulk := none, resp := none } ∧
      t.evt.acc[m.val] = (if s.mbx[m].quiet then s.evt.acc[m.val] else stick 65535 s.evt.acc[m.val])) ∧
  (∀ (m : Fin 4) (s : State), s.stove.running = true → s.stove.valid = true → s.pow.ianikRst = true →
    s.mbx[m].st = .rung → ∃ t, exec .doorbellStrobe s = .next t ∧ t.mbx[m].st = .busy ∧
      t.mbx[m].sampled = s.stove.frame ∧ t.mbx[m].fromHearth = true ∧
      t.mbx[m].resp = some ⟨BitVec.ofNat 16 (readReq m s).1, 0x01, (readReq m s).2.ver, (readReq m s).2.tag,
        (readReq m s).2.target, []⟩) ∧
  (∀ (m : Fin 4) (s : State), s.stove.running = true → s.stove.valid = true → mbxServed m s = true →
    s.mbx[m].st = .rung → (∀ k : Fin 4, (s.mbx[k].st = .rung ↔ k = m) ∧ leftBusy k s = false) →
    s.ianik.staged = [] → s.ianik.stalled = [] → s.hive.transit = [] → s.care.upsets = [] →
    cmdOf (readReq m s).1 = none → ∃ t, exec .doorbellStrobe s = .next t ∧ t.mbx[m].st = .busy ∧
      t.mbx[m].sampled = s.stove.frame ∧ t.mbx[m].fromHearth = false ∧
      t.mbx[m].resp = some ⟨BitVec.ofNat 16 (readReq m s).1, 0x02, (readReq m s).2.ver, (readReq m s).2.tag,
        (readReq m s).2.target, []⟩) ∧
  (∀ (m : Fin 4) (p : Response) (s : State), s.mbx[m].resp = some p →
    (post m s).mbx[m] = { s.mbx[m] with
      st := .done, status := p.status, seqDone := s.mbx[m].seqRung, hearth := s.mbx[m].fromHearth
      ver := s.mbx[m].grant.getD s.mbx[m].ver, grant := none, bulk := none, resp := none } ∧
    (post m s).evt.acc = (if s.mbx[m].quiet then s.evt.acc else s.evt.acc.set m.val (stick 65535 s.evt.acc[m.val]))) ∧
  (∀ (a b : Fin 26) (s : State), s.pow.st ≠ .off → ∃ t, exec (.crossingTimeout a b) s = .next t ∧
    t.flt.xto = true ∧ t.flt.xsrc = BitVec.ofNat 5 a ∧ t.flt.xdst = BitVec.ofNat 5 b ∧
    t.evt.acc[52] = stick 65535 s.evt.acc[52] ∧
    t.flt.log = (⟨0x0A, s.pow.wakes, BitVec.ofNat 16 (32 * a.val + b.val), logFrame s, Config.freeLong s.fresh⟩ ::
      s.flt.log).take 16) ∧
  (∀ (c : Completion) (cs : List Completion) (s : State), recordsOn s = true → s.evt.waiting = c :: cs →
    ringFits (4 + c.payload.length) s.evt = true → ∃ t, exec .completionRecordWrite s = .next t ∧
      t.evt.waiting = cs ∧ t.evt.acc[4] = stick 65535 s.evt.acc[4] ∧
      t.ianik.deferred = dropFirst (fun d => d.opcode == c.opcode && d.mbx == c.mbx && d.tag == c.tag) s.ianik.deferred ∧
      t.evt.ringSeq = (s.evt.ringSeq + 1) % 65536) ∧
  (∀ (cls : Byte) (code : BitVec 24) (s : State), recordsOn s = true →
    ∃ t, exec (.firmwareFault cls code) s = .next t ∧
      t.ianik.fwFaults = (cls, code) :: s.ianik.fwFaults ∧
      t.flt.log = (⟨0x0B, s.pow.wakes, code.extractLsb' 0 16, logFrame s, Config.freeLong s.fresh⟩ :: s.flt.log).take 16 ∧
      t.evt.acc[5] = stick 65535 s.evt.acc[5])

/-- O40. The frame ticks: an M tick ends the line frames of the frame before, advances the frame counter by one, applies the
changes stamped for the frame and ticks every island; with nothing staged the counter, the first F tick and the
Bellows' M paths are as it leaves them, with the entry of the frame before (R13, R14, R42, R49, R203, R207). An F
tick inside the frame begins the next F frame in the Hive, the chains and the Bellows, whose F paths take the entry of
the F frame before and whose low-latency paths take the value that crosses (R15, R207, R208, R328). -/
def Obligations.FrameTicksComplete : Prop :=
  (∀ (ups : List Upset) (s : State), s.stove.running = true →
    exec (.mFrameTick ups) s = .next (
      let w := freeFlush 64 (hostReads (strike ups s))
      let u := shakesDone (countFrame (hwLinesEnd w.stove.frame w))
      let v := bootRates (applyStaged u.stove.frame (regionForced u.stove.frame u))
      if v.stove.running then islandTicks u.stove.frame v else v)) ∧
  (∀ (ups : List Upset) (s : State), s.stove.running = true → s.ianik.staged = [] → s.boot.lcReset = false →
    ∃ t, exec (.mFrameTick ups) s = .next t ∧ t.pow = s.pow ∧
      t.stove.frame = (if s.stove.valid then addF s.stove.frame 1 else 0) ∧ t.stove.valid = true ∧
      t.hive.dom.fIdx = 0 ∧
      (belRuns s = true → t.bel.upd = 0 ∧ ∀ c : Fin 32, (belAt t c).histM =
        (entryVal s.hive.belM (prevF t.stove.frame) c.val :: (belAt s c).histM).take 25)) ∧
  (∀ (ups : List Upset) (s : State), s.stove.running = true → s.stove.valid = true →
    s.hive.dom.fIdx + 1 < s.hive.dom.m → ∃ t, exec (.fFrameTick ups) s = .next t ∧ t.pow = s.pow ∧
      t.stove = s.stove ∧ t.hive.dom = { s.hive.dom with fIdx := s.hive.dom.fIdx + 1 } ∧
      (belRuns s = true → ∀ c : Fin 32,
        (belAt t c).histF = (entryVal s.hive.belF
          (prevF (s.stove.frame * s.hive.dom.m + (s.hive.dom.fIdx + 1))) c.val :: (belAt s c).histF).take 17 ∧
        (belAt t c).histLL = (s.hive.belLL.getD c.val 0 :: (belAt s c).histLL).take 2))

/-- O41. The power-up sequence: a step that passes is noted and followed by the next; one that fails, or a budget that
ends, is recorded with its code and takes the device to Hearth-safe with EV60 and EV62 (R505, R506, R550, R555,
R557). The boot sources and the boot chain: the slots source counts an attempt, push and recovery wait for a host, a
manifest that verifies is taken, a block that verifies is noted, a push that does not come gives the source up, and
STANDBY is reached with the boot chain complete and the Stove locked (R509 to R514, R518 to R522, R526, R537). -/
def Obligations.PowerUpAndBootEventsComplete : Prop :=
  (∀ (res : StepResult) (s : State), s.pow.st = .powerUp → s.boot.done = false → s.boot.step ≠ 0 →
    stepPasses s.boot.step res = true → ∃ t, exec (.powerUpStep res) s = .next t ∧
      t.boot.step = s.boot.step + 1 ∧ t.boot.pass = s.boot.pass ||| BitVec.ofNat 9 (2 ^ (s.boot.step - 1)) ∧
      t.boot.done = decide (s.boot.step = 9) ∧ t.pow = s.pow) ∧
  (∀ (res : StepResult) (s : State), PartsOk s.evt → s.pow.st = .powerUp → s.boot.done = false → s.boot.step ≠ 0 →
    stepPasses s.boot.step res = false → ∃ t, exec (.powerUpStep res) s = .next t ∧
      t.pow.st = .hearthSafe ∧ t.boot.fail = BitVec.ofNat 4 s.boot.step ∧ t.flt.step = BitVec.ofNat 4 s.boot.step ∧
      t.flt.safe = true ∧ t.evt.acc[60] = stick 65535 s.evt.acc[60] ∧ t.evt.acc[62] = stick 65535 s.evt.acc[62]) ∧
  (∀ s : State, PartsOk s.evt → s.pow.st = .powerUp → s.boot.done = false → ∃ t, exec .powerUpBudgetExpiry s = .next t ∧
    t.pow.st = .hearthSafe ∧ t.boot.fail = 10 ∧ t.flt.step = 10 ∧ t.flt.safe = true ∧
    t.evt.acc[60] = stick 65535 s.evt.acc[60] ∧ t.evt.acc[62] = stick 65535 s.evt.acc[62]) ∧
  (∀ (k : Nat) (rest : List Nat) (s : State), s.pow.st = .powerUp → s.pow.ianikRst = false → s.boot.src = .none →
    5 ≤ s.boot.step → s.boot.order = k :: rest → ∃ t, exec .bootSourceStart s = .next t ∧ t.boot.order = rest ∧
      (k = 0 → t.pow.attempts = min 3 (s.pow.attempts + 1) ∧ t.boot.attempts = min 3 (s.pow.attempts + 1)) ∧
      (k = 1 → t.boot.src = .push ∧ t.boot.wait = true) ∧
      (2 ≤ k → t.boot.src = .recovery ∧ t.boot.wait = true ∧ t.pow.recovery = false)) ∧
  (∀ (bs : List Byte) (s : State), s.pow.st = .powerUp → s.pow.ianikRst = false → s.boot.src ≠ .none →
    s.boot.man = none → bootWaits s = false → manBytes s = some bs → manReason (recovers s) (s.boot.src == .push) bs s = none →
    exec (.manifestVerified false) s = .next (bootProgress { s with boot := { s.boot with
      man := some (parseMan bs), verified := [], retried := false
      bootTuning := match bootedSlot s with
        | some b => (logTuning b s).getD (parseMan bs).tuning
        | none => (parseMan bs).tuning } })) ∧
  (∀ (m : Manifest) (k : Nat) (s : State), s.pow.st = .powerUp → s.pow.ianikRst = false → s.boot.man = some m →
    nextBlock s = some k → bootWaits s = false → s.boot.loadFailed = false → blockHere k s = true → blockGood m (imageBlock k s) k = true →
    exec (.blockVerified false) s = .next (bootProgress { s with boot := { s.boot with
      verified := insertN k s.boot.verified, retried := false } })) ∧
  (∀ s : State, s.boot.src = .push → romServing s = true → s.boot.pushedLen = 0 → s.boot.pushedN = [] →
    s.boot.pushEnd = false → exec .pushWaitTimeout s = .next (sourceOver (bootNote 9 0 s))) ∧
  (∀ s : State, s.pow.st = .powerUp → s.boot.done = true → s.boot.booted = true → ratesSet s = true → s.stove.lock = true →
    s.pow.ianikRst = false → ∃ t, exec .standbyReached s = .next t ∧
      t.pow = { s.pow with st := .standby, bootCrit := false, attempts := 0, sawStandby := true } ∧
      t.boot.step = 11 ∧ t.boot.attempts = 0)

/-- O42. The phases of a domain frame. The cell window gives every cell of the domain its next cycles, up to the length
of its window; a cell in its zero-output frame takes none and is cleared where that was asked. The Chimney delivers
zeros for a cell in its zero-output frame, which it ends, and for a muted one, and a live cell's outbox with the
writes that land in its first cycle; each cell-output column carries its slot's screened value, or +0.0 without a
cell. The Outlet completes the outbound entry of its frame: each channel carries the sum of the column that names it,
and +0.0 in the pause of a rate change (R66, R67, R74, R75, R97, R98, R138, R152, R167, R168, R180, R186). -/
def Obligations.HivePhasesComplete : Prop :=
  (∀ (d : Dom) (n : Nat) (ups : List Upset) (s : State), hivePhases (strike ups s) = true →
    domBegun d (strike ups s) = true → exec (.cellWindow d n ups) s = .next (
      let s := strike ups s
      let cs := cellsOf d s
      let s := cs.foldl (fun s c => clearNow c s) s
      windowCycles d (wagglePhi d s) (cs.filter (fun c => !(cellAt s c).zeroFrame)) n s)) ∧
  (∀ (d : Dom) (n : Nat) (ups : List Upset) (c : Fin 32) (s : State), hivePhases s = true → domBegun d s = true →
    cellDom (cellAt s c) = some d → ∃ t, exec (.cellWindow d n ups) s = .next t ∧
      (0 < n → t.hive.cycle = (s.hive.cycle + n) % 64) ∧
      ((cellAt s c).zeroFrame = false → (cellAt t c).run.slot =
        max (cellAt s c).run.slot (min (winLen d s.hive.dom.m s.hive.dom.d) ((cellAt s c).run.slot + n))) ∧
      ((cellAt s c).zeroFrame = true → (cellAt t c).run = (cellAt s c).run ∧ (cellAt t c).clearReq = false ∧
        ((cellAt s c).clearReq = true → (cellAt t c).mem = (clearDataRam (cellAt s c)).mem))) ∧
  (∀ (d : Dom) (s : State), hivePhases s = true → phaseHere d s = true → exec (.chimneyPhase d) s = .next (
      let s := (cellsOf d s).foldl chimneyOne s
      let s := modComb d (fun c => { c with cellOut := chimneyCols d s }) s
      if d = .M then (List.finRange 32).foldl noneDone s else s)) ∧
  (∀ (d : Dom) (c : Fin 32) (s : State), hivePhases s = true → phaseHere d s = true →
    cellDom (cellAt s c) = some d → ∃ t, exec (.chimneyPhase d) s = .next t ∧
      ((cellAt s c).zeroFrame = true →
        (cellAt t c).zeroFrame = false ∧ (cellAt t c).stat.last = .replicate 8 0) ∧
      ((cellAt s c).zeroFrame = false → (cellAt s c).stat.act = .muted → (cellAt t c).stat.last = .replicate 8 0) ∧
      ((cellAt s c).zeroFrame = false → (cellAt s c).stat.act = .live → (cellAt s c).stat.newFault = false →
        (cellAt t c).stat.last = (landTo (winLen d s.hive.dom.m s.hive.dom.d) (cellAt s c)).regs.outb) ∧
      ∀ k : Nat, k < extCols d → sget 0 (combAt t d).cellOut (extCols d + k) =
        (match (cellsOf d t).find? (fun c => combSlot c t == k / 8) with
          | some c => screened (vgetD (cellAt t c).stat.last (k % 8) 0)
          | none => 0)) ∧
  (∀ (d : Dom) (ups : List Upset) (s : State), hiveRuns (strike ups s) = true → phaseHere d (strike ups s) = true →
    hivePaused (strike ups s) = false → exec (.outletPhase d ups) s = .next (
      let s := combErrors d 0 (extCols d) (strike ups s)
      let vs := sinkVals d s
      outletBridges d vs (outletOut d vs s))) ∧
  (∀ (p : Fin 8) (s : State), hiveRuns s = true → phaseHere .M s = true → hivePaused s = false →
    s.care.upsets = [] → outFactor s.stove.frame s = 0x3F800000 →
    ∃ t e, exec (.outletPhase .M []) s = .next t ∧ vgetD t.tx[p].buf (s.stove.frame % 4) none = some e ∧
      e.complete = true ∧ e.tag = BitVec.ofNat 16 s.stove.frame ∧ e.vals.length = 32 ∧
      ∀ (k col : Nat), k < 32 → (((combAt s .M).outlet.filter (fun x => !(combAt s .M).outDead.contains x.1)).find?
          (fun x => x.2 = BitVec.ofNat 16 (0x02 * 2048 + (32 * p.val + k)))).map (·.1) = some col →
        e.vals.getD k 0 = sinkSum .M (combAt s .M).nodes (sourceVal .M s.stove.frame s) col) ∧
  (∀ (d : Dom) (ups : List Upset) (p : Fin 8) (x : Fin 2) (s : State), hiveRuns s = true → phaseHere d s = true →
    hivePaused s = true → ∃ t, exec (.outletPhase d ups) s = .next t ∧
      match d with
      | .M => vgetD t.tx[p].buf (s.stove.frame % 4) none =
          some ⟨true, BitVec.ofNat 16 s.stove.frame, List.replicate 32 0⟩ ∧ t.hive.capture = List.replicate 64 0
      | .F => vgetD t.hw[x].outF (domFrame .F s % 4) none =
          some ⟨true, BitVec.ofNat 16 (domFrame .F s), List.replicate 64 0⟩ ∧ t.hive.belLL = List.replicate 32 0
      | .S => vgetD t.hw[x].outS (domFrame .S s % 4) none =
          some ⟨true, BitVec.ofNat 16 (domFrame .S s), List.replicate 64 0⟩)

/-- O43. Cell events: a Store access whose turn comes leaves the waiting ones; a store writes its word where the
segment is on and nothing where it is off, a load of a written word sends it to its register lanes 64 slots after the
issue. The oldest message reaches its cell: stamped for a frame to come, it waits at the end of the cell's queue;
unstamped and of an older epoch, it is counted stale and dropped with EV11. A sealed clear ends with EV10 and leaves
the cell's banks empty, and the end of a fade mutes or frees the outputs (R51, R77, R81, R94, R97, R98, R139, R394). A
column whose ramp is over stops ramping, with EV14 where it was the last of its Comb (R161, R164); a change of fM that
does not lock in time ends with TIMEOUT and the phase lock timed out (R192). -/
def Obligations.CellAndRampEventsComplete : Prop :=
  (∀ (c : Fin 32) (w : StoreWait) (ups : List Upset) (s : State),
    firstWait (cellAt (strike ups s) c).run.waits = some w → w.turn < (cellAt (strike ups s) c).run.slot →
    exec (.storeTurn c ups) s = .next (storePerform c w (strike ups s))) ∧
  (∀ (c : Fin 32) (w : StoreWait) (s : State), s.care.upsets = [] →
    firstWait (cellAt s c).run.waits = some w → w.turn < (cellAt s c).run.slot → swf 0 s.hive.store = true →
    ∃ t, exec (.storeTurn c []) s = .next t ∧
      (cellAt t c).run.waits = (cellAt s c).run.waits.erase w ∧
      (w.load = false → segOn (w.addr / 131072) s = true →
        rdW t.hive.store (4 * w.addr) = w.val ∧ storeGroup w.addr ∈ t.hive.storeWritten) ∧
      (w.load = false → segOn (w.addr / 131072) s = false → t.hive.store = s.hive.store) ∧
      (w.load = true → segOn (w.addr / 131072) s = true → storeGroup w.addr ∈ s.hive.storeWritten →
        (cellAt t c).run.writes = (issueWrites w.issue 64 false
          (w.lanes.map (fun l => .vec w.reg l (rdW s.hive.store (4 * w.addr)))) (cellAt s c)).run.writes)) ∧
  (∀ (q : QEntry) (rest : List QEntry) (s : State), s.hive.transit = q :: rest →
    exec .cellQueueEntryArrival s = .next (refill s.ianik.stalled.length
      (queueArrive q { s with hive := { s.hive with transit := rest } }))) ∧
  (∀ (q : QEntry) (f : Nat) (rest : List QEntry) (s : State), s.hive.transit = q :: rest → q.frame = some f →
    isJudged q = false → s.stove.frame < f → ∃ t, exec .cellQueueEntryArrival s = .next t ∧
      (cellAt t q.cell).queue = (cellAt s q.cell).queue ++ [q]) ∧
  (∀ (q : QEntry) (rest : List QEntry) (s : State), s.hive.transit = q :: rest → q.frame = none →
    q.epoch ≠ (cellAt s q.cell).epoch → ∃ t, exec .cellQueueEntryArrival s = .next t ∧
      (cellAt t q.cell).stat.stale = min 255 ((cellAt s q.cell).stat.stale + q.entries) ∧
      (cellAt t q.cell).queue = (cellAt s q.cell).queue ∧ t.evt.acc[11] = stick 65535 s.evt.acc[11]) ∧
  (∀ (c : Fin 32) (s : State), (cellAt s c).clearing = true → ∃ t, exec (.sealedClearDone c) s = .next t ∧
    t = { s with hive := t.hive, evt := t.evt } ∧ cellAt t c = { wipeCell (cellAt s c) with clearing := false } ∧
    t.evt.acc[10] = stick 65535 s.evt.acc[10]) ∧
  (∀ (c : Fin 32) (k : Nat) (s : State), (cellAt s c).stat.act = .fading k → 15 ≤ k →
    ∃ t, exec (.cellFaultFadeEnd c) s = .next t ∧ t = { s with hive := t.hive } ∧ (cellAt t c).stat.act = .muted) ∧
  (∀ (c : Fin 32) (k : Nat) (s : State), (cellAt s c).stat.act = .fadingIn k → 16 ≤ k →
    ∃ t, exec (.cellFaultFadeEnd c) s = .next t ∧ t = { s with hive := t.hive } ∧ (cellAt t c).stat.act = .live) ∧
  (∀ (d : Dom) (col : Nat) (x : Ramp) (s : State),
    (combAt s d).ramps.find? (fun e => e.1 = col) = some (col, x) → x.n ≤ x.k →
    ∃ t, exec (.rampEnd d col) s = .next t ∧ t = { s with hive := t.hive, evt := t.evt } ∧
      (combAt t d).ramps = skeep (· ≠ col) (combAt s d).ramps ∧
      (ramping (combAt t d) = 0 → t.evt.acc[14] = stick 65535 s.evt.acc[14]) ∧
      (ramping (combAt t d) ≠ 0 → t.evt = s.evt)) ∧
  (∀ (x : RateChange) (s : State), s.hive.dom.change = some x → s.hive.dom.phase = .waitLock → s.stove.lock = false →
    ∃ t, exec .rateChangeLockTimeout s = .next t ∧ t.hive.dom.stuck = true ∧ t.hive.dom.change = none ∧
      (s.pow.ianikRst = false → outstanding 0x0301 x.mbx x.tag s = true →
        t.evt.waiting = s.evt.waiting ++ [⟨0x0301, 0x08, x.mbx, x.tag, [0, 0]⟩]))

/-- O44. The Stoker's timed events. A comparison of a running Stove: in Ember the frequency word and the build-out stand;
the loop of a locked Stove takes its error and its word from an edge of the selected reference; a listed reference
without an edge for the second time in a row is lost with EV19 (R242, R244, R252, R266). A gate's end counts the gate
and keeps its offsets (R251, R267). The endings of wait-to-restore, qualify, move, settle and the software watchdog
(R258 to R263, R275). A relock acquires the highest-ranked reference, or the crystal, once the Bellows is muted, and
the next-ranked after 32 comparisons without lock (R269). The crystal and the tick: a stop is recorded and logged, a
resumption requalifies a listed crystal with EV20, and a missing tick is recorded, logged and a lock loss of cause 2
(R244, R253, R254, R555, R557). The loop filter's word is an operand: the spec gives no coefficients (log entry 69). -/
def Obligations.StokerEventsComplete : Prop :=
  (∀ (x : Comparison) (s : State), s.stove.running = true → s.stove.st = .ember → s.stove.switchPends = false →
    ∃ t, exec (.stoveComparison x) s = .next t ∧ t.stove.dco = s.stove.dco ∧ t.stove.buildOut = s.stove.buildOut ∧
      t.pow = s.pow ∧ ∀ i : Fin 13, i ≠ 0 → i ≠ 12 → s.stove.refs[i].listed = true → x.due.getLsbD i.val = true →
        x.edges.getLsbD i.val = false → s.stove.refs[i].missed = 1 →
        t.stove.refs[i].qual = false ∧ stick 65535 s.evt.acc[19] ≤ t.evt.acc[19]) ∧
  (∀ (x : Comparison) (i : Fin 13) (s : State), s.stove.running = true → s.stove.st = .locked →
    s.stove.switchPends = false → s.stove.holding = false → s.stove.inEmber = false → s.stove.sel = some i → i ≠ 12 →
    x.due.getLsbD i.val = true → (heardEdges x s).edges.getLsbD i.val = true → x.rangeEnd = false → s.stove.hitFrom = none →
    ∃ t, exec (.stoveComparison x) s = .next t ∧ t.stove.dco = x.dcoOfs ∧
      t.stove.err = phaseNs x.phase s - s.stove.buildOut ∧
      (s.stove.outWin < 3 ∨ absQ (phaseNs x.phase s - s.stove.buildOut) ≤ 500 → t.stove.lock = s.stove.lock)) ∧
  (∀ (offs : List (Option Int)) (dco : Int) (s : State), s.stove.running = true →
    ∃ t, exec (.measurementGateEnd offs dco) s = .next t ∧ t.stove.gate = addF s.stove.gate 1 ∧ t.pow = s.pow ∧
      t.stove.dcoGates = ((if s.stove.gateLocked && !s.hearth.xtalStopped then some dco else none) ::
        s.stove.dcoGates).take 160 ∧
      ∀ (i : Fin 13) (f : Int), i ≠ 12 → s.stove.refs[i].listed = true → s.hearth.xtalStopped = false →
        s.stove.refs[i].gateWhole = true → offs.getD i.val none = some f → t.stove.refs[i].lastOfs = f) ∧
  (∀ (k r : Fin 13) (s : State), s.stove.running = true → s.stove.refs[r].wtr = true → s.stove.refs[r].wtrLeft = 0 →
    s.stove.revert = true → s.stove.st = .locked → s.stove.switchPends = false → s.stove.sel = some k →
    outranks r k s = true → ∃ t, exec (.waitToRestoreExpiry r) s = .next t ∧ t.stove.switchPends = true ∧
      t.stove.tgt = switchTarget s ∧ t.stove.sel = some k ∧ t = { s with stove := t.stove }) ∧
  (∀ (f p : Int) (t : Fin 13) (s : State), s.stove.st = .qualify → 16 ≤ s.stove.cmps → s.stove.tgt = some t →
    s.stove.qMiss = false → ((max f (-f) : Int) : Rat) ≤ f32Q s.stove.refs[t].tol * 1000 →
    exec (.qualifyEnd (some f) p) s = .next { s with stove := { s.stove with
      st := .move, cmps := 0, moveFrom := s.stove.buildOut, buildOut := phaseNs p s
      dco := if t = 12 then s.stove.dco else retune s.stove.dco f, hitFrom := none } }) ∧
  (∀ (freq : Option Int) (p : Int) (t : Fin 13) (s : State), s.stove.st = .qualify → 16 ≤ s.stove.cmps →
    s.stove.tgt = some t → s.stove.qMiss = true → ∃ u, exec (.qualifyEnd freq p) s = .next u ∧
      u.stove.st ≠ .qualify ∧ u.stove.buildOut = s.stove.buildOut ∧ u.stove.tgt ≠ some t) ∧
  (∀ (t : Fin 13) (s : State), s.stove.st = .move → 1 ≤ s.stove.cmps → s.stove.tgt = some t → refQual t s = true →
    ∃ u, exec .moveEnd s = .next u ∧ u.stove.st = .settle ∧ u.stove.sel = some t ∧ u.stove.inEmber = false ∧
      u.stove.switches = stick 255 s.stove.switches ∧ u.evt.acc[16] = stick 65535 s.evt.acc[16]) ∧
  (∀ s : State, s.stove.st = .settle → 8000 ≤ s.stove.cmps → s.stove.relock = false →
    ∃ t, exec .settleTimeout s = .next t ∧ t.stove.lock = false ∧ t.stove.relock = true ∧ t.stove.st = .acquire ∧
      t.stove.acq = none ∧ t.stove.dco = s.stove.dco ∧ t.bel.muteAck = false ∧
      t.evt.acc[21] = stick 65535 s.evt.acc[21]) ∧
  (∀ s : State, s.stove.running = true → s.stove.sw.enabled = true → s.stove.sw.wdog ≤ s.stove.sw.since →
    s.stove.refs[12].qual = true → ∃ t, exec .swRefWatchdog s = .next t ∧ t.stove.refs[12].qual = false ∧
      t.evt.acc[19] = stick 65535 s.evt.acc[19]) ∧
  (∀ s : State, s.stove.relock = true → s.bel.muteAck = true → s.stove.acq = none →
    ∃ t, exec .relockAcquire s = .next t ∧ t.stove.acq = some ((bestRef (fun _ => true) s).getD 0) ∧
      t.stove.buildOut = 0 ∧ t.stove.cmps = 0 ∧ t = { s with stove := t.stove }) ∧
  (∀ (k : Fin 13) (s : State), s.stove.acq = some k → s.stove.relock = true → s.stove.st = .acquire →
    32 ≤ s.stove.cmps →
    let u : State := { s with stove := { s.stove with dropped := k.val :: s.stove.dropped } }
    ∃ t, exec .relockAttemptTimeout s = .next t ∧ t.stove.buildOut = 0 ∧ t.stove.cmps = 0 ∧
      t = { s with stove := t.stove } ∧
      (∀ i : Fin 13, bestRef (fun i => !u.stove.dropped.contains i.val) u = some i → t.stove.acq = some i) ∧
      (bestRef (fun i => !u.stove.dropped.contains i.val) u = none → u.stove.dropped.contains 0 = false →
        t.stove.acq = some 0)) ∧
  (∀ s : State, s.hearth.xtalStopped = false → s.pow.st ≠ .off → ∃ t, exec .crystalStopped s = .next t ∧
    t.hearth.xtalStopped = true ∧ t.flt.xtal = true ∧
    t.flt.log = (⟨0x06, s.pow.wakes, 0, logFrame s, Config.freeLong s.fresh⟩ :: s.flt.log).take 16 ∧
    (s.stove.running = true → s.stove.refs[0].listed = true ∨ s.stove.sel = some 0 →
      t.evt.acc[19] = stick 65535 s.evt.acc[19])) ∧
  (∀ s : State, s.hearth.xtalStopped = true → ∃ t, exec .crystalResume s = .next t ∧
    t.hearth.xtalStopped = false ∧
    (s.stove.running = true → s.stove.refs[0].listed = true → t.evt.acc[20] = stick 65535 s.evt.acc[20])) ∧
  (∀ s : State, s.stove.running = true → ∃ t, exec .stoveTickMissing s = .next t ∧ t.flt.tick = true ∧
    t.stove.lock = (s.stove.lock && s.stove.relock) ∧
    (s.stove.relock = false → t.evt.acc[21] = stick 65535 s.evt.acc[21]) ∧
    t.flt.log = (⟨0x07, s.pow.wakes, 0, logFrame s, Config.freeLong s.fresh⟩ :: s.flt.log).take 16)

/-- O45. The Bellows' events. An update takes every channel's bits and moves its ceiling; WAKING ends in QUIET, in KILLED
under a kill, or in HELD during a relock; a mute ramp starts and ends; a disable stops; a kill enters and is released
(R201, R211, R223 to R228, R232). A driver fault takes its four channels to FAULTED with EV40, and its retry wakes
them; a feedback loss and a mismatch raise EV41 (R212, R217, R229, R230). The mute that a relock asks for and its
acknowledgement (R231). An impedance measurement completes with OK (R234, R241). -/
def Obligations.BellowsEventsComplete : Prop :=
  (∀ (fb : List (BitVec 16 × BitVec 16)) (s : State), belRuns s = true → s.bel.upd < 16 →
    ∃ t, exec (.bellowsUpdate fb) s = .next t ∧ t.bel.upd = s.bel.upd + 1 ∧ t.pow = s.pow ∧ t.dmpr = s.dmpr ∧
      ∀ c : Fin 32, (belAt t c).fbv = bitsIn (belAt s c).fbv (fb.getD c.val (0, 0)).1 ∧
        (belAt t c).fbi = bitsIn (belAt s c).fbi (fb.getD c.val (0, 0)).2 ∧
        (belAt t c).ceil = ceilStep (belAt s c).ceilIn (belAt s c).ceil) ∧
  (∀ (g : Fin 8) (c : Fin 32) (s : State), c.val / 4 = g.val → (belAt s c).st = .waking →
    (belAt s c).wakeAt ≤ s.stove.frame → ∃ t, exec (.drvWakeEnd g) s = .next t ∧
      t = { s with bel := { s.bel with ch := t.bel.ch } } ∧
      ((belAt s c).killIn = true → (belAt t c).st = .killed ∧ (belAt t c).flt = (belAt s c).flt ||| 1 ∧
        (belAt t c).restore = ((belAt s c).up || (belAt s c).unmutePends || ((belAt s c).holding && (belAt s c).restore))) ∧
      ((belAt s c).killIn = false → s.stove.lock = false → (belAt t c).st = .held ∧
        (belAt t c).restore = (belAt s c).unmutePends) ∧
      ((belAt s c).killIn = false → s.stove.lock = true →
        belAt t c = { toQuiet (belAt s c) with unmutePends := (belAt s c).unmutePends })) ∧
  (∀ (c : Fin 32) (s : State), (belAt s c).st = .quiet → (belAt s c).unmutePends = true → s.bel.upd = 0 →
    32 ≤ (belAt s c).quietUpd → (belAt s c).stopping = false → (belAt s c).holding = false → s.stove.lock = true →
    ∃ t, exec (.unmuteStart c) s = .next t ∧ (belAt t c).st = .ramping ∧ (belAt t c).up = true ∧
      (belAt t c).unmutePends = false ∧ (belAt t c).meas = none) ∧
  (∀ (c : Fin 32) (s : State), (belAt s c).st = .ramping → (belAt s c).up = true →
    (belAt s c).cfg.muteLen ≤ (belAt s c).mute →
    exec (.muteRampEnd c) s = .next (modBel c (fun y => { y with st := .playing }) s)) ∧
  (∀ (c : Fin 32) (s : State), (belAt s c).st = .ramping → (belAt s c).up = false → (belAt s c).mute = 0 →
    exec (.muteRampEnd c) s = .next (modBel c (fun y => { y with st := .quiet, quietUpd := 0 }) s)) ∧
  (∀ (c : Fin 32) (s : State), belSwitches (belAt s c).st = true → (belAt s c).stopping = true →
    (belAt s c).mute = 0 → ∃ t, exec (.disableStop c) s = .next t ∧ (belAt t c).st = .disabled ∧
      (belAt t c).s1 = 0 ∧ (belAt t c).s2 = 0 ∧ (belAt t c).s3 = 0 ∧ (belAt t c).meas = none) ∧
  (∀ (c : Fin 32) (s : State), belRuns s = true → (belAt s c).killIn = true →
    (belSwitches (belAt s c).st = true ∨ (belAt s c).st = .held ∨ (belAt s c).st = .waking) →
    ∃ t, exec (.killEnter c) s = .next t ∧
      (belAt t c).st = .killed ∧ (belAt t c).flt = (belAt s c).flt ||| 1 ∧ (belAt t c).mute = 0 ∧
      (belAt t c).s1 = 0 ∧ (belAt t c).s2 = 0 ∧ (belAt t c).s3 = 0 ∧
      (belAt t c).restore = towardPlaying (belAt s c)) ∧
  (∀ (c : Fin 32) (s : State), (belAt s c).st = .killed → (belAt s c).killIn = false →
    (belAt s c).faultPends = false → (belAt s c).stopping = false → s.stove.lock = true →
    (belAt s c).wakeAt ≤ s.stove.frame → exec (.killReleaseRestart c) s =
      .next (modBel c (fun y => { toQuiet y with unmutePends := y.restore }) s)) ∧
  (∀ (c : Fin 32) (s : State), (belAt s c).st = .killed → (belAt s c).killIn = false →
    ∃ t, exec (.killReleaseRestart c) s = .next t ∧
      ((belAt s c).faultPends = true → (belAt t c).st = .faulted) ∧
      ((belAt s c).faultPends = false → (belAt s c).stopping = true → (belAt t c).st = .disabled) ∧
      ((belAt s c).faultPends = false → (belAt s c).stopping = false → s.stove.lock = false → (belAt t c).st = .held) ∧
      ((belAt s c).faultPends = false → (belAt s c).stopping = false → s.stove.lock = true →
        s.stove.frame < (belAt s c).wakeAt → (belAt t c).st = .waking ∧ (belAt t c).unmutePends = (belAt s c).restore)) ∧
  (∀ (g : Fin 8) (s : State), belRuns s = true → s.bel.grp[g].drvEn = true →
    (∀ c : Fin 32, c.val / 4 = g.val → (belAt s c).st ≠ .waking) → ∃ t, exec (.driverFault g) s = .next t ∧
      t.bel.grp[g].drvEn = false ∧
      (s.bel.grp[g].retries ≠ 3 → t.bel.grp[g].faultAt = some s.stove.frame) ∧
      (∀ c : Fin 32, c.val / 4 = g.val → (belAt s c).st ≠ .killed → (belAt t c).st = .faulted) ∧
      t.evt.acc[40] = stick 65535 s.evt.acc[40]) ∧
  (∀ (g : Fin 8) (f : Nat) (c : Fin 32) (s : State), belRuns s = true → s.bel.grp[g].faultAt = some f →
    f + 48000 ≤ s.stove.frame → s.bel.grp[g].latched = false → c.val / 4 = g.val →
    c.val ∈ s.bel.grp[g].wasOn → (belAt s c).cfg.retry = true → (belAt s c).st = .faulted →
    ∃ t, exec (.driverFaultRetry g) s = .next t ∧ t.bel.grp[g].drvEn = true ∧
      t.bel.grp[g].retryAt = some s.stove.frame ∧ (belAt t c).st = .waking ∧
      (belAt t c).wakeAt = addF s.stove.frame s.bel.grp[g].drvWake) ∧
  (∀ (c : Fin 32) (v : Bool) (s : State), belRuns s = true → belSwitches (belAt s c).st = true →
    ∃ t, exec (.feedbackLoss c v) s = .next t ∧ t.evt.acc[41] = stick 65535 s.evt.acc[41] ∧
      (belAt t c).flt = (belAt s c).flt ||| (if v then 8 else 16) ∧
      (if (belAt s c).cfg.lossOpen then (belAt t c).openLoop = true ∧ (belAt t c).st = (belAt s c).st
        else (belAt t c).st = .faulted)) ∧
  (∀ s : State, belRuns s = true → s.bel.upd = 16 → s.stove.frame % 4 = 3 →
    ∃ t, exec .mismatchWindowEnd s = .next t ∧
      ∀ c : Fin 32, (belAt t c).errN = 0 ∧ (belAt t c).errVoid = false ∧
        ((belAt s c).errN = 64 → (belAt s c).errVoid = false →
          f32Q (belAt s c).cfg.mismatch < (belAt s c).errSum / 64 → (belAt t c).flt.getLsbD 2 = true)) ∧
  (∀ s : State, s.stove.relock = true → s.stove.acq = none → s.bel.muteReq = false → belRuns s = true →
    ∃ t, exec .bellowsMuteRequest s = .next t ∧ t.bel.muteReq = true ∧ t.bel.muteAck = false ∧
      ∀ c : Fin 32, (belAt s c).st = .playing → (belAt t c).st = .ramping ∧ (belAt t c).up = false ∧
        (belAt t c).holding = true) ∧
  (∀ s : State, s.stove.relock = true → s.bel.muteReq = true →
    (∀ c : Fin 32, belSwitches (belAt s c).st = false) →
    exec .bellowsMuteAck s = .next { s with bel := { s.bel with muteAck := true } }) ∧
  (∀ (c : Fin 32) (q : Measure) (s : State), s.ianik.routine = none → (belAt s c).meas = some q →
    (∀ k : Fin 32, k ≠ c → (belAt s k).meas = none) → q.service = false → q.frame + q.k + 32 ≤ s.stove.frame →
    ∃ t, exec .measureZComplete s = .next t ∧ (belAt t c).meas = none ∧ (belAt t c).st = (belAt s c).st ∧
      (s.pow.ianikRst = false → outstanding 0x0409 q.mbx q.tag s = true → ∃ ws : List Word, ws.length = 5 ∧
        t.evt.waiting = s.evt.waiting ++ [⟨0x0409, 0x00, q.mbx, q.tag, ws⟩]))

/-- O46. The Damper's events. A sample of each slot reaches its input: the battery's with the configuration taken at the
round's start, CUT at the eighth below the threshold, the rail, and each line's voltage and current (R361 to R366,
R375, R378, R380). The end of a block moves every channel's windows, with EV46 and EV42 for excesses and DC
detections (R371 to R375). The end of a cool-down and of the tries; a line's retry, the end of its tries, its permit
and its lapse (R349, R372, R379, R381, R382). -/
def Obligations.DamperEventsComplete : Prop :=
  (∀ (code : BitVec 12) (s : State), damperRuns s = true →
    let v := senseVolts code (s.dmpr.cfgNext.getD s.dmpr.cfg).batRatio
    ∃ t, exec (.damperAdcSample 0 code) s = .next t ∧ t.dmpr.bat = (v :: s.dmpr.bat).take 16 ∧
      t.dmpr.batN = min 16 (s.dmpr.batN + 1) ∧ t.dmpr.cfg = s.dmpr.cfgNext.getD s.dmpr.cfg ∧
      t.dmpr.cfgNext = none ∧
      (s.dmpr.supply = .normal → 7 ≤ s.dmpr.runs.1 → v < f32Q t.dmpr.cfg.cut → v ≤ f32Q t.dmpr.cfg.dump →
        t.dmpr.supply = .cut ∧ t.evt.acc[44] = stick 65535 s.evt.acc[44])) ∧
  (∀ (code : BitVec 12) (s : State), damperRuns s = true →
    ∃ t, exec (.damperAdcSample 2 code) s = .next t ∧ t.dmpr.rail = senseVolts code s.dmpr.cfg.railRatio ∧
      t.bel.vrail = (if s.pow.seqBel then qF32 (senseVolts code s.dmpr.cfg.railRatio) else s.bel.vrail)) ∧
  (∀ (slot : Fin 8) (x : Fin 2) (code : BitVec 12) (s : State), damperRuns s = true →
    ((slot.val = 1 ∨ slot.val = 5) ∧ x = 0 ∨ (slot.val = 3 ∨ slot.val = 7) ∧ x = 1 →
      ∃ t, exec (.damperAdcSample slot code) s = .next t ∧
        t.dmpr.line[x].amps = senseAmps code s.dmpr.line[x].shunt) ∧
    (slot.val = 4 ∧ x = 0 ∨ slot.val = 6 ∧ x = 1 → ∃ t, exec (.damperAdcSample slot code) s = .next t ∧
        t.dmpr.line[x].volts = (senseVolts code s.hw[x].ratio :: s.dmpr.line[x].volts).take 8)) ∧
  (∀ (bits : List (List (BitVec 16 × BitVec 16))) (s : State), damperRuns s = true → belRuns s = true →
    let r (c : Fin 32) := channelBlock s.hive.dom.fm (bits.getD c.val []) s.dmpr.ch[c]
    let raised (n k : Nat) : Nat := (List.range k).foldl (fun n _ => stick 65535 n) n
    ∃ t, exec (.energyBlockEnd bits) s = .next t ∧
      (∀ c : Fin 32, t.dmpr.ch[c].eWin = (r c).1.eWin ∧ t.dmpr.ch[c].dWin = (r c).1.dWin ∧
        t.dmpr.ch[c].st = (r c).1.st) ∧
      t.evt.acc[46] = raised s.evt.acc[46] ((List.finRange 32).countP (fun c => (r c).2.1)) ∧
      t.evt.acc[42] = raised s.evt.acc[42] ((List.finRange 32).countP (fun c => (r c).2.2))) ∧
  (∀ (c : Fin 32) (s : State), damperRuns s = true → s.dmpr.ch[c].cooling = true →
    ∃ t, exec (.coolDownEnd c) s = .next t ∧
      t = { s with dmpr := t.dmpr, bel := { s.bel with ch := t.bel.ch } } ∧ t.dmpr.ch[c].cooling = false ∧
      t.dmpr.ch[c].eWin = [] ∧ t.dmpr.ch[c].eZero = false) ∧
  (∀ (c : Fin 32) (s : State), damperRuns s = true → s.dmpr.ch[c].cooling = false → s.dmpr.ch[c].eZero = false →
    ∃ t, exec (.energyTriesReset c) s = .next t ∧
      t = { s with dmpr := { s.dmpr with ch := s.dmpr.ch.set c { s.dmpr.ch[c] with tries := 0 } } }) ∧
  (∀ (x : Fin 2) (s : State), damperRuns s = true → s.dmpr.line[x].st = 1 → hwRuns x s = true →
    s.hw[x].walk = .none → s.hw[x].st ≠ 3 → ∃ t, exec (.lineRetry x) s = .next t ∧ t.dmpr.line[x].st = 0 ∧
      t.hw[x].st = 1 ∧ t.hw[x].walk = .vsnsLow ∧ t.hw[x].walkFrom = s.stove.frame ∧ t.hw[x].pwr = false) ∧
  (∀ (x : Fin 2) (s : State), damperRuns s = true → s.hw[x].pwr = true → s.dmpr.line[x].st = 0 →
    ∃ t, exec (.lineTriesReset x) s = .next t ∧
      t = { s with dmpr := { s.dmpr with line := s.dmpr.line.set x { s.dmpr.line[x] with tries := 0 } } }) ∧
  (∀ (x : Fin 2) (c : Nat) (s : State), damperRuns s = true → s.hw[x].check = some (c, true) → s.hw[x].walk = .check1 →
    let ok := decide (f64Q (storedEnergy c (maxQ (s.dmpr.bat.take 8))) ≤ f32Q s.dmpr.line[x].elim / 1000)
    ∃ t, exec (.storedEnergyCheck x) s = .next t ∧ t.hw[x].check = none ∧
      (ok = true → t.hw[x].pwr = true ∧ t.hw[x].walk = .vgood ∧ t.hw[x].walkFrom = s.stove.frame) ∧
      (ok = false → t.hw[x].walk = .none ∧ t.hw[x].stop = 7 ∧ t.dmpr.ev.getLsbD 0 = true)) ∧
  (∀ (x : Fin 2) (s : State), ∃ t, exec (.linePermitLapse x) s = .next t ∧
    t = { s with dmpr := { s.dmpr with line := s.dmpr.line.set x { s.dmpr.line[x] with permit := false } } })

/-- O47. The port events: a good frame sync ends WAIT, a running receive side delivers its frame, a glitch is counted and
flagged, a clock loss restarts a side, a measurement that does not fit is INCOMPAT, a pin frame opens with the entry
its number names, the hold stage fills a missing entry, and a group that has waited 256 frames aligns those that are
ready (R285, R294 to R298, R301 to R303). -/
def Obligations.PortEventsComplete : Prop :=
  (∀ (f : PortFrame) (s : State), portsRun s = true → sideStopped (sideAt f.port f.side s) = false →
    (sideAt f.port f.side s).mode ≠ .master → (sideAt f.port f.side s).st = .wait →
    fsOpens (clockWord f.port f.side s) f.sync.1 f.sync.2 = true → exec (.portFrameComplete f) s =
      .next (modSide f.port f.side (fun y =>
        let z := if f.side = .rx ∧ y.mode = .foreign then
          ercPush (rxVals (clockWord f.port f.side s) y.w4 (frameCodes (clockWord f.port f.side s) f.data)) y else y
        { z with period := f.period, fill := f.fill, st := .measure, measured := 1 }) s)) ∧
  (∀ (f : PortFrame) (s : State), portsRun s = true → f.side = .rx → s.rx[f.port].st = .run →
    s.rx[f.port].mode = .master → s.stove.clocksHeld = false → s.rx[f.port].numbered = true →
    s.stove.frame ≤ s.rx[f.port].next → s.rx[f.port].checked ≠ some s.rx[f.port].next →
    ∃ t, exec (.portFrameComplete f) s = .next t ∧
      rxEntry f.port s.rx[f.port].next t = rxVals (clockWord f.port .rx s) s.rx[f.port].w4 (frameCodes (clockWord f.port .rx s) f.data) ∧
      t.rx[f.port].next = addF s.rx[f.port].next 1) ∧
  (∀ (f : PortFrame) (s : State), portsRun s = true → (sideAt f.port f.side s).st ≠ .off →
    (sideAt f.port f.side s).mode ≠ .master → fsOpens (clockWord f.port f.side s) f.sync.1 f.sync.2 = false →
    exec (.portFrameComplete f) s = exec (.frameSyncGlitch f.port f.side) s) ∧
  (∀ (p : Fin 8) (d : Side) (s : State), portsRun s = true → (sideAt p d s).st ≠ .off →
    (sideAt p d s).mode ≠ .master → ∃ t, exec (.frameSyncGlitch p d) s = .next t ∧
      ((sideAt p d s).st = .measure ∨ (sideAt p d s).st = .incompat → (sideAt p d t).measured = 0) ∧
      (sideAt p d t).glitchCnt = stick 255 (sideAt p d s).glitchCnt ∧
      (sideAt p d t).ev.getLsbD 6 = true) ∧
  (∀ (p : Fin 8) (s : State), portsRun s = true → (s.rx[p].st = .fadeIn ∨ s.rx[p].st = .run) →
    s.rx[p].mode ≠ .foreign → (s.rx[p].numbered = false ∨ s.stove.frame < s.rx[p].first ∨
      entryReady s.rx[p].buf s.stove.frame = true) → ∀ e : Bool, exec (.holdStageCheck p e) s =
      .next { s with rx := s.rx.set p { s.rx[p] with checked := some s.stove.frame } }) ∧
  (∀ (p : Fin 8) (s : State), portsRun s = true → s.rx[p].st = .run → s.rx[p].mode ≠ .foreign →
    s.rx[p].numbered = true → s.rx[p].first ≤ s.stove.frame → entryReady s.rx[p].buf s.stove.frame = false →
    (∃ t, exec (.holdStageCheck p false) s = .next t ∧
      rxEntry p s.stove.frame t = rxEntry p (prevF s.stove.frame) s) ∧
    ∃ t, exec (.holdStageCheck p true) s = .next t ∧ rxEntry p s.stove.frame t = [] ∧
      t.rx[p].lateCnt = stick 255 s.rx[p].lateCnt) ∧
  (∀ (p : Fin 8) (s : State), portsRun s = true → s.tx[p].st = .wait → s.tx[p].numbered = false →
    s.tx[p].mode ≠ .master → ∃ t, exec (.transmitPinFrameOpen p) s = .next t ∧
      t.tx[p].pin = pinCodes s.tx[p].w3 s.tx[p].w4 [] ∧ t.tx[p].next = s.tx[p].next) ∧
  (∀ (p : Fin 8) (e : Entry) (s : State), portsRun s = true → s.tx[p].st = .run → s.tx[p].numbered = true →
    s.tx[p].mode = .locked → s.tx[p].tailD = none → vgetD s.tx[p].buf (prevF s.tx[p].next % 4) none = some e →
    entryReady s.tx[p].buf (prevF s.tx[p].next) = true → ∃ t, exec (.transmitPinFrameOpen p) s = .next t ∧
      t.tx[p].pin = pinCodes s.tx[p].w3 s.tx[p].w4 e.vals ∧ t.tx[p].next = addF s.tx[p].next 1 ∧
      t.tx[p].lateCnt = s.tx[p].lateCnt) ∧
  (∀ (p : Fin 8) (d : Side) (s : State), portsRun s = true → (sideAt p d s).st = .run →
    (sideAt p d s).mode ≠ .master ∨ s.stove.clocksHeld = true → ∃ t, exec (.lossOfClock p d) s = .next t ∧
      (sideAt p d t).lossCnt = stick 255 (sideAt p d s).lossCnt ∧ (sideAt p d t).ev.getLsbD 7 = true ∧
      (sideAt p d t).st ≠ .run) ∧
  (∀ (p : Fin 8) (d : Side) (period pos : Nat) (s : State), portsRun s = true → (sideAt p d s).st = .measure →
    (sideAt p d s).mode ≠ .master → 64 ≤ (sideAt p d s).measured →
    rateFits ((sideAt p d s).mode == .foreign) (cfgBits (clockWord p d s)) period s.hive.dom.fm = false →
    ∃ t, exec (.portMeasureDone p d period pos) s = .next t ∧ (sideAt p d t).st = .incompat ∧
      (sideAt p d t).measured = 0 ∧ (sideAt p d t).ev.getLsbD 4 = true) ∧
  (∀ (p : Fin 8) (d : Side) (period pos : Nat) (s : State), portsRun s = true → (sideAt p d s).st = .measure →
    (sideAt p d s).mode = .locked → (sideAt p d s).grp = none → 64 ≤ (sideAt p d s).measured →
    rateFits false (cfgBits (clockWord p d s)) period s.hive.dom.fm = true →
    ∃ t, exec (.portMeasureDone p d period pos) s = .next t ∧ (sideAt p d t).st = .fadeIn ∧
      (sideAt p d t).pos = pos ∧ (sideAt p d t).g = inBand d (cfgBits (clockWord p d s)) pos) ∧
  (∀ (g : Fin 4) (e : Nat) (s : State), s.grps[g].enabledAt = some e → e + 256 ≤ s.stove.frame →
    (membersOf g s).any (fun x => (sideAt x.1 x.2 s).ready) = true →
    ∃ t, exec (.groupAlignTimeout g) s = .next t ∧ t.grps[g].enabledAt = none ∧
      ∀ (p : Fin 8) (d : Side), (sideAt p d s).grp = some g →
        sideAt p d t = (if (sideAt p d s).ready then { sideAt p d s with
          st := .fadeIn, g := (t.grps[g].g).getD false, fadeK := 0, numbered := false, offRate := 0, ready := false
          refused := false } else sideAt p d s))

/-- O48. What a line frame brings: the latched trip position, its quarter of the reply, the error count of a bad frame,
the heartbeats at q = 0, attention at q = 1 and the attach bits at q = 2 (R317, R331, R334, R346, R353). A good reply
ends its request: a HW_NODE_XACT answers OK with the reply's status and payload, an event read keeps the event of its
node; a request without one goes out again and is counted, at most three times, and then ends with TIMEOUT; a SLOT_MAP whose
delta would be below 2 goes out no more (R334 to R338, R353, R354, R360). -/
def Obligations.LineEventsComplete : Prop :=
  (∀ (x : Fin 2) (f : LineFrame) (s : State), hwRuns x s = true →
    let cs := upChars f
    let bad : Bool := upBad cs
    ∃ t, exec (.lineFrameReceived x f) s = .next t ∧ t.hw[x].trip = f.trip ∧
      t.hw[x].frags[f.q] = (if bad = true then none else some (((upBytes cs).drop 120).take 5)) ∧
      t.hw[x].errCnt = (if bad = true then stick 65535 s.hw[x].errCnt else s.hw[x].errCnt) ∧
      (f.q = 0 → t.hw[x].nodes = (heartbeat bad (service cs) s.hw[x]).nodes) ∧
      (f.q = 1 → bad = false → t.hw[x].attention = (service cs).extractLsb' 0 12) ∧
      (f.q = 2 → bad = false → t.hw[x].attach = (service cs).extractLsb' 0 12)) ∧
  (∀ (x : Fin 2) (q : Xact) (t g : Nat) (bs : List Byte) (s : State), hwRuns x s = true → s.hw[x].out = some (q, t) →
    t < s.stove.frame → replyMsg s.hw[x] = some (q.dest, g, bs) → replyFits s.hw[x] q q.dest g bs = true →
    (∀ (m : Fin 4) (tag : BitVec 16) (wr : Bool) (n : Nat), q.why = .nodeXact m.val tag wr n →
      exec (.controlReplyReceived x) s = .next (complete 0x0705 m.val tag 0x00
        (n2w (fld (bs.getD 1 0) 0 4) 0 :: if wr then [] else bytesToWords (((bs.drop 2).take 12).take n))
        (modHw x (fun c => { c with frags := .replicate 4 none, out := none }) s))) ∧
    (∀ k : Nat, q.why = .event (k + 1) → ∃ u, exec (.controlReplyReceived x) s = .next u ∧
      u.hw[x].out = none ∧ (∀ y, s.hw[x].nodes[k]? = some y →
        u.hw[x].nodes[k]? = some { y with event := (bs.drop 2).take 12 }))) ∧
  (∀ (x : Fin 2) (q : Xact) (t : Nat) (s : State), hwRuns x s = true → s.hw[x].out = some (q, t) →
    t + 2 ≤ s.stove.frame → q.dest ≠ 0 → q.op ≠ 0x01 →
    (tooLate s.stove.frame q = true → exec (.controlRequestRetry x) s = .next (modHw x (fun c => { c with out := none }) s)) ∧
    (tooLate s.stove.frame q = false → q.tries < 3 → closes q = false ∨ s.dmpr.line[x].permit = true → ∃ u, exec (.controlRequestRetry x) s = .next u ∧
      u.hw[x].out = some (stampDelta s.stove.frame { q with tries := q.tries + 1 }, s.stove.frame) ∧
      u.hw[x].retryCnt = stick 255 s.hw[x].retryCnt ∧ u.hw[x].ev.getLsbD 1 = true) ∧
    (3 ≤ q.tries → ∀ (m : Fin 4) (tag : BitVec 16) (wr : Bool) (n : Nat), q.why = .nodeXact m.val tag wr n →
      exec (.controlRequestRetry x) s = .next (complete 0x0705 m.val tag 0x08 []
        (modHw x (fun c => { c with out := none }) s))))

/-- O49. The walk's timed events: the check of hop 1 below 1.0 V, DISCOVER at HW_VGOOD and again every two frames, and
the endings of a walk whose line does not fall, does not rise or does not answer, with the reasons of R345 and the
event of R343 (R343 to R345, R350, R353). A lost node: it and every node after it are removed, counted and named by
EV33 or EV37, and the generation advances; at D + 16 × d its slots take the rate off; with HW_AUTO a walk starts, or
resumes after the last node, HW_RETRY frames later (R339, R340, R346 to R348, R354). -/
def Obligations.WalkAndLossEventsComplete : Prop :=
  (∀ (x : Fin 2) (s : State), hwRuns x s = true → s.hw[x].walk = .vsnsLow → s.hw[x].walkFrom ≤ s.stove.frame →
    lineVolts x s < 1 → exec (.walkVsnsLow x) s =
      .next (modHw x (fun c => { c with walk := .check1, check := some (100, true) }) s)) ∧
  (∀ (x : Fin 2) (s : State), hwRuns x s = true → s.hw[x].walk = .vgood → f32Q s.hw[x].vgood ≤ lineVolts x s →
    s.hw[x].queue = [] → ∃ t, exec (.walkVgoodReached x) s = .next t ∧ t.hw[x].walk = .discover ∧
      t.hw[x].walkFrom = s.stove.frame ∧ (s.hw[x].out = none → s.hw[x].genLeft.1 = 0 → s.hw[x].nextAt ≤ s.stove.frame →
        ∃ q, t.hw[x].out = some (q, s.stove.frame) ∧ q.dest = 15 ∧ q.op = 0x01 ∧ q.gen = s.hw[x].gen ∧
          q.tag = s.hw[x].tag + 1)) ∧
  (∀ (x : Fin 2) (q : Xact) (t : Nat) (s : State), hwRuns x s = true → s.hw[x].walk = .discover →
    s.hw[x].walkReq = none → s.hw[x].out = some (q, t) → q.op = 0x01 → t + 2 ≤ s.stove.frame →
    s.hw[x].queue = [] → s.hw[x].genLeft.1 = 0 → s.hw[x].nextAt ≤ s.stove.frame → ∃ u, exec (.discoverRepeat x) s = .next u ∧
      ∃ r, u.hw[x].out = some (r, s.stove.frame) ∧ r.dest = 15 ∧ r.op = 0x01 ∧ r.tag = s.hw[x].tag + 1) ∧
  (∀ (x : Fin 2) (s : State), hwRuns x s = true → s.hw[x].walk = .discover →
    s.hw[x].walkFrom + s.hw[x].bootTmo ≤ s.stove.frame → ∃ t, exec (.discoverTimeout x) s = .next t ∧
      t.hw[x].walk = .none ∧ t.hw[x].stop = (if s.hw[x].walkAttach then 2 else 1)) ∧
  (∀ (x : Fin 2) (s : State), hwRuns x s = true →
    ((s.hw[x].walk = .vsnsLow ∧ 4800 ≤ s.stove.frame - s.hw[x].walkFrom) ∨
      (s.hw[x].walk = .vgood ∧ 480 < s.stove.frame - s.hw[x].walkFrom)) →
    ∃ t, exec (.walkVgoodTimeout x) s = .next t ∧ t.hw[x].walk = .none ∧ t.hw[x].stop = 9 ∧ t.hw[x].pwr = false ∧
      t.hw[x].ev.getLsbD 5 = true) ∧
  (∀ (x : Fin 2) (k : Nat) (y : HwNode) (s : State), hwRuns x s = true → s.hw[x].nodes[k]? = some y → 16 ≤ y.missed →
    ∃ t, exec (.nodeLoss x (k + 1)) s = .next t ∧ t.hw[x].nodes = s.hw[x].nodes.take k ∧
      t.hw[x].lostCnt = min 255 (s.hw[x].lostCnt + (s.hw[x].nodes.length - k)) ∧
      t.hw[x].gen = (s.hw[x].gen + 1) % 16 ∧ t.hw[x].retryFrom = some s.stove.frame ∧
      t.hw[x].ev.getLsbD 3 = true) ∧
  (∀ (x : Fin 2) (s : State), ∃ t, exec (.slotTailOutEnd x) s = .next t ∧ ∀ k : Fin 40,
    t.hw[x].up[k] = (if (s.hw[x].up[k].tail.any (fun e => decide (e.1 + 16 * s.hive.dom.d ≤ s.stove.frame))) = true
      then {} else s.hw[x].up[k])) ∧
  (∀ (x : Fin 2) (f : Nat) (s : State), hwRuns x s = true → s.hw[x].auto = true → s.hw[x].walk = .none →
    s.hw[x].st ≠ 3 → s.hw[x].retryFrom = some f → f + s.hw[x].retry ≤ s.stove.frame →
    (s.hw[x].nodes = [] → ∃ t, exec (.autoWalkRetry x) s = .next t ∧ t.hw[x].walk = .vsnsLow ∧ t.hw[x].st = 1 ∧
      t.hw[x].pwr = false ∧ t.hw[x].walkFrom = s.stove.frame) ∧
    (lastAttach s.hw[x] = true → ∃ t, exec (.autoWalkRetry x) s = .next t ∧ t.hw[x].walk = .genUpdate ∧
      t.hw[x].st = 1 ∧ t.hw[x].nodes = s.hw[x].nodes ∧ t.hw[x].retryFrom = none))

/-- O50. PSP0 transactions of a PSP_XFER: a read answers OK with its bytes, a page program at select 0 programs one
page's bytes, a ready timeout and a poll that runs out end with MEDIA, a device that is done with a poll ends the
write with OK, and a busy one is polled again (R427, R430, R432 to R434, R462). The fetch window: a hit is served
from its line, a miss stalls Ianik and asks for its line unless it is coming, and a delivered line that matches its
tag ends the stall, while one that does not counts, flags and raises EV50 (R435 to R438). -/
def Obligations.Psp0AndFetchEventsComplete : Prop :=
  (∀ (q : P0Req) (m : Nat) (tag : BitVec 16) (data : List Byte) (s : State), s.p0.cur = some q →
    q.why = .xfer m tag → q.write = false → exec (.psp0TransactionEnd data) s =
      .next (p0Kick (complete 0x0A02 m tag 0x00 (bytesToWords (p0Bytes q data s))
        (modP0 (fun p => { p with cur := none }) s)))) ∧
  (∀ (q : P0Req) (m : Nat) (tag : BitVec 16) (data : List Byte) (s : State), s.p0.cur = some q →
    q.why = .xfer m tag → q.write = true → q.erase = false → q.raw = false → q.sel = 0 → q.bare = false →
    enables q s = false →
    ∃ t, exec (.psp0TransactionEnd data) s = .next t ∧ t.p0.mem = (flashProg q.addr (q.data.take (min q.data.length
      (pageOf (profOf 0 s) - q.addr % pageOf (profOf 0 s)))) s).p0.mem) ∧
  (∀ (q : P0Req) (m : Nat) (tag : BitVec 16) (s : State), s.p0.cur = some q → q.why = .xfer m tag →
    (profOf q.sel s).w4.getLsbD 8 = true → hasData q s = true → exec .psp0RdyTimeout s =
      .next (p0Kick (complete 0x0A02 m tag 0x09 [] (mediaError q.sel (modP0 (fun p => { p with cur := none }) s))))) ∧
  (∀ (q : P0Req) (n m : Nat) (tag : BitVec 16) (st : Byte) (rest : List (P0Req × Nat)) (s : State),
    s.p0.cur = none → s.p0.polled = (q, n) :: rest → q.why = .xfer m tag → q.erase = true →
    let f : Option P0Frame := some (pollFrame (profOf q.sel s))
    (st &&& (profOf q.sel s).w4.extractLsb' 24 8 = 0 → exec (.statusPoll st) s =
      .next (p0Kick (complete 0x0A02 m tag 0x00 [] (modP0 (fun p => { p with frame := f, polled := rest }) s)))) ∧
    (st &&& (profOf q.sel s).w4.extractLsb' 24 8 ≠ 0 → fld (profOf q.sel s).w6 0 16 ≤ n + 1 →
      exec (.statusPoll st) s = .next (p0Kick (complete 0x0A02 m tag 0x09 []
        (mediaError q.sel (modP0 (fun p => { p with frame := f, polled := rest }) s))))) ∧
    (st &&& (profOf q.sel s).w4.extractLsb' 24 8 ≠ 0 → n + 1 < fld (profOf q.sel s).w6 0 16 →
      exec (.statusPoll st) s = .next { s with p0 := { s.p0 with frame := f, polled := rest ++ [(q, n + 1)] } })) ∧
  (∀ (addr : Nat) (bs : List Byte) (s : State), addr < 0x4000000 → p0On s = true → s.p0.stalled = none →
    s.p0.lines.find? (fun x => decide (x.1 = addr / 64)) = some (addr / 64, bs) → exec (.fetchMiss addr) s =
      .next { s with p0 := { s.p0 with lines := lineTouch (addr / 64) bs s.p0.lines } }) ∧
  (∀ (addr : Nat) (s : State), addr < 0x4000000 → p0On s = true → s.p0.stalled = none →
    lineHeld (addr / 64) s = false →
    (present 0 s = true → ∃ t, exec (.fetchMiss addr) s = .next t ∧ t.p0.stalled = some (addr / 64) ∧
      lineComes (addr / 64) t = true) ∧
    (present 0 s = false → exec (.fetchMiss addr) s = .next (fetchFault (addr / 64) (raise 50 0 s)))) ∧
  (∀ (l : Nat) (dem : Bool) (rest : List (Nat × Bool)) (s : State), s.p0.filled = (l, dem) :: rest →
    tagTested l s = false →
    ((tagRead l s).1 = true → lineGood l s = true → ∃ t, exec (.lineFillComplete false) s = .next t ∧ lineHeld l t = true ∧
      (s.p0.stalled = some l → t.p0.stalled = none)) ∧
    (((tagRead l s).1 && lineGood l s) = false → (dem = false ∨ s.pow.bootCrit = false) →
      ∃ t, exec (.lineFillComplete false) s = .next t ∧
      t.p0.tagFail = stick 255 s.p0.tagFail ∧ t.p0.evTag = true ∧ lineHeld l t = lineHeld l s ∧
      (dem = true → t.p0.stalled = none)))

/-- O51. The Forager's descriptors: the head one starts once its buffer condition holds, completes when nothing is left
to move, with its tag and status and EV49 where it asks, and counts a miss with EV48 at its deadline (R451 to R455). -/
def Obligations.DescriptorEventsComplete : Prop :=
  (∀ (r : Fin 16) (d : Desc) (ds : List Desc) (s : State), p0On s = true → s.p0.rings[r].descs = d :: ds →
    d.started = false → descReady s.p0.rings[r] d = true → ∃ t, exec (.descriptorStart r) s = .next t ∧
      ∃ e es, t.p0.rings[r].descs = e :: es ∧ e.started = true ∧ e.first = ringHead s.p0.rings[r]) ∧
  (∀ (r : Fin 16) (d : Desc) (ds : List Desc) (s : State), s.p0.rings[r].descs = d :: ds → d.started = true →
    d.stopped = false → d.media = false → d.len ≤ d.done → s.p0.polled = [] → s.p0.cur = none →
    ∃ t, exec (.descriptorComplete r) s = .next t ∧ t.p0.rings[r].descs = ds ∧
      t.p0.rings[r].lastDone = (d.tag, if d.late then 1 else 0) ∧
      (s.p0.rings[r].kind = .playback → t.p0.rings[r].fill = s.p0.rings[r].fill + descFrames s.p0.rings[r] d) ∧
      (s.p0.rings[r].kind = .capture → t.p0.rings[r].reads = s.p0.rings[r].reads + descFrames s.p0.rings[r] d) ∧
      (d.irq = true → t.evt.acc[49] = stick 65535 s.evt.acc[49])) ∧
  (∀ (r : Fin 16) (d : Desc) (s : State), s.p0.rings[r].descs = [d] → d.late = false → d.media = false →
    d.stopped = false → d.done < d.len → descDeadline s.p0.rings[r] (ringHead s.p0.rings[r]) d = some s.stove.frame →
    ∃ t, exec (.deadlineMiss r) s = .next t ∧ t.p0.rings[r].miss = min 255 (s.p0.rings[r].miss + 1) ∧
      t.p0.rings[r].descs = [{ d with late := true }] ∧ t.evt.acc[48] = stick 65535 s.evt.acc[48])

/-- O52. The Vault and the Patrol: a clean wipe ends with a Vault of zeros, or with new keys in it where it is the wipe
after a boot's reset, the second unclean one locks it with a log entry of cause 0x09; a scrub read corrects and counts an
upset word with EV53, one of the Vault without rewriting it, and the read of the last word a pass needs counts the pass; a
region test comes due, starts, and walks through the phases of the marker (R408, R409, R411 to R414, R417, R419). -/
def Obligations.VaultAndPatrolEventsComplete : Prop :=
  (∀ s : State, s.care.wiping = true → patrolOn s = true →
    (∃ t, exec (.vaultWipeComplete true) s = .next t ∧ t.care.wiping = false ∧ t.care.locked = s.care.locked ∧
      (s.boot.booted = false ∨ s.care.cause ≠ 5 → t.care.vault = []) ∧
      (s.boot.booted = true → s.care.cause = 5 → s.care.locked = false → t.care.keysIn = true)) ∧
    (s.care.repeated = false → exec (.vaultWipeComplete false) s =
      .next { s with care := { s.care with repeated := true } }) ∧
    (s.care.repeated = true → ∃ t, exec (.vaultWipeComplete false) s = .next t ∧ t.care.wiping = false ∧
      t.care.locked = true ∧ t.flt.vault = true ∧
      t.flt.log = (⟨0x09, s.pow.wakes, 0, logFrame s, Config.freeLong s.fresh⟩ :: s.flt.log).take 16)) ∧
  (∀ (w : WordAt) (u : Upset) (s : State), s.care.scrub = true → scrubs w s = true → upsetOf w s = some u →
    u.double = false → (w.cls = .store → s.hive.free = []) → ∃ t, exec (.patrolScrubRead w []) s = .next t ∧
      upsetOf w t = (if w.cls = .vault then some u else none) ∧ t.evt.acc[53] = stick 65535 s.evt.acc[53]) ∧
  (∀ (w : WordAt) (s : State), s.care.scrub = true → scrubs w s = true → upsetOf w s = none → w.cls = .vault →
    let l := cover (2375680 + w.addr) s.care.scrubbed
    ((gaps 0 l).any (passNeeds s) = true → exec (.patrolScrubRead w []) s =
      .next { s with care := { s.care with scrubbed := l } }) ∧
    ((gaps 0 l).any (passNeeds s) = false → exec (.patrolScrubRead w []) s =
      .next { s with care := { s.care with scrubbed := [], passes := stick 0x3FFFF s.care.passes } })) ∧
  (∀ s : State, s.care.region = true → patrolOn s = true →
    (s.care.intervalFrom + s.care.interval ≤ s.stove.frame → exec .regionIntervalExpiry s =
      .next { s with care := { s.care with due := true, intervalFrom := s.stove.frame } }) ∧
    (s.care.due = true → s.care.phase = 0 → s.care.nextPhase = none → regionFree s = true →
      exec .regionTestStart s = .next { s with care := { s.care with
        due := false, nextPhase := some 1, startFrame := s.stove.frame } })) ∧
  (∀ (p : BitVec 2) (s : State), s.care.nextPhase = some p → ∃ t, exec .patrolMarkerAck s = .next t ∧
    t.care.phase = p ∧ t.care.nextPhase = none ∧ t.hearth.pmPhase = p) ∧
  (∀ (b : Bool) (s : State), s.care.nextPhase = none →
    (s.care.phase = 1 → ∃ t, exec (.regionTestPhaseEnd [] b) s = .next t ∧ t.care.nextPhase = some 2) ∧
    (s.care.phase = 2 → ∃ t, exec (.regionTestPhaseEnd [] b) s = .next t ∧ t.care.nextPhase = some 3) ∧
    (s.care.phase = 3 → ∃ t, exec (.regionTestPhaseEnd [] true) s = .next t ∧ t.care.phase = 0 ∧
      t.hearth.pmPhase = 0))

/-- O53. Commands that only report change nothing but their own mailbox, its command area and what taking a command
counts (R467, R470, R474, R477). -/
def Obligations.QueriesChangeOnlyTheirMailbox : Prop :=
  ∀ (m : Fin 4) (r : Req),
    (∀ c ∈ ([.sysInfo m r, .sysHello m r, .sysLoopback m r, .cellInfo m r, .cellStatus m r, .combInfo m r,
      .combMapGet m r, .combStatus m r, .domainInfo m r, .bridgeStatus m r, .belInfo m r,
      .belStatus m r, .stoveInfo m r, .stkrStatus m r, .stkrRefStatus m r, .stkrEmberRead m r, .portInfo m r,
      .portStatus m r, .hwInfo m r, .hwNodeInfo m r, .hwStatus m r, .dmprInfo m r, .dmprStatus m r,
      .dmprEnergyRead m r, .memInfo m r, .memEccStatus m r, .memErrRead m r, .memPatrolStatus m r, .vaultStatus m r,
      .pspInfo m r, .fgrStatus m r, .pspStatus m r, .bootInfo m r, .svcFaultRead m r, .evtInfo m r,
      .evtCountRead m r] : List Instr), MbxChangesOnly c m (fun _ => False) (fun u _ => u)) ∧
    MbxChangesOnly (.combGainRead m r) m (fun _ => False) (fun u t => { u with
      hive := { u.hive with combs := t.hive.combs } })

/-- O54. What each command of the system, service and event groups changes beyond taking it; everything else is
unchanged. What each command of the memories, PSP0, the Forager, the boot flow and the service routines changes
beyond taking it; everything else is unchanged. -/
def Obligations.SystemAndBootCommandFrames : Prop :=
  (∀ (m : Fin 4) (r : Req),
    MbxChangesOnly (.sysPower m r) m (fun _ => False) (fun u t => { u with
      ianik := { u.ianik with deferred := t.ianik.deferred, staged := t.ianik.staged } }) ∧
    MbxChangesOnly (.sysPresence m r) m (fun _ => False) (fun u t => { u with
      fresh := t.fresh
      keeper := { u.keeper with isOpen := t.keeper.isOpen, len := t.keeper.len } }) ∧
    MbxChangesOnly (.sysReset m r) m (fun _ => False) (fun u t => { u with
      pow := { u.pow with sysResetPends := t.pow.sysResetPends }
      ianik := { u.ianik with staged := t.ianik.staged } }) ∧
    MbxChangesOnly (.sysWatchdog m r) m (fun _ => False) (fun u t => { u with
      hearth := { u.hearth with wdP := t.hearth.wdP, wdRestarted := t.hearth.wdRestarted } }) ∧
    MbxChangesOnly (.svcFaultClear m r) m (fun _ => False) (fun u t => { u with
      flt := t.flt }) ∧
    (∀ c ∈ ([.svcSpkTest m r, .svcDcOffset m r, .svcMicLoop m r, .svcLineHealth m r] : List Instr), MbxChangesOnly c
      m (fun _ => False) (fun u t => { u with
      ianik := { u.ianik with deferred := t.ianik.deferred, routine := t.ianik.routine } })) ∧
    MbxChangesOnly (.svcCaptureRead m r) m (fun a => bulkAddr (argF r 6 0 16) ≤ a ∧ a < bulkAddr (argF r 6 0 16) + 4
      * argF r 6 16 14) (fun u t => { u with
      hive := { u.hive with
        store := t.hive.store, storeWritten := t.hive.storeWritten, free := t.hive.free, cycle := t.hive.cycle }
      care := { u.care with offAcc := t.care.offAcc } }) ∧
    MbxChangesOnly (.svcAbort m r) m (fun _ => False) (fun u t => { u with
      ianik := { u.ianik with routine := t.ianik.routine } }) ∧
    MbxChangesOnly (.evtCountClear m r) m (fun _ => False) (fun u t => { u with
      evt := { u.evt with sat := t.evt.sat, counts := t.evt.counts } }) ∧
    MbxChangesOnly (.evtRingConfig m r) m (fun a => 0xF000 ≤ a ∧ a < 0xF00C) (fun u t => { u with
      evt := { u.evt with recMask := t.evt.recMask, head := t.evt.head, dropped := t.evt.dropped } }) ∧
    MbxChangesOnly (.evtTraceMark m r) m (fun a => 0xF000 ≤ a) (fun u t => { u with
      evt := { u.evt with
        ringSeq := t.evt.ringSeq, head := t.evt.head, dropped := t.evt.dropped, waiting := t.evt.waiting }
      ianik := { u.ianik with deferred := t.ianik.deferred } })) ∧
  (∀ (m : Fin 4) (r : Req),
    MbxChangesOnly (.memPowerSet m r) m (fun _ => False) (fun u t => { u with
      ianik := { u.ianik with staged := t.ianik.staged } }) ∧
    MbxChangesOnly (.memPatrolSet m r) m (fun _ => False) (fun u t => { u with
      care := { u.care with
        scrub := t.care.scrub, region := t.care.region, period := t.care.period, interval := t.care.interval } }) ∧
    MbxChangesOnly (.vaultWipe m r) m (fun _ => False) (fun u t => { u with
      evt := { u.evt with waiting := t.evt.waiting }
      ianik := { u.ianik with deferred := t.ianik.deferred }
      hive := { u.hive with cells := t.hive.cells }
      care := { u.care with
        keysIn := t.care.keysIn, wiping := t.care.wiping, repeated := t.care.repeated, wipes := t.care.wipes,
        cause := t.care.cause, cmds := t.care.cmds }
      boot := { u.boot with job := t.boot.job, jobs := t.boot.jobs } }) ∧
    MbxChangesOnly (.memClear m r) m (fun _ => False) (fun u t => { u with
      care := { u.care with offAcc := t.care.offAcc } }) ∧
    (∀ s t : State, s.pow.bootCrit = false → exec (.pspDevConfig m r) s = .next t →
      t = { mbxTaken m s t with
        evt := { s.evt with
          acc := t.evt.acc, parts := t.evt.parts, detail := t.evt.detail, tail := t.evt.tail, waiting := t.evt.waiting }
        hive := { s.hive with
          store := t.hive.store, storeWritten := t.hive.storeWritten, free := t.hive.free, cycle := t.hive.cycle }
        care := { s.care with
          ecc := t.care.ecc, first := t.care.first, latest := t.care.latest, upsets := t.care.upsets
          offAcc := t.care.offAcc }
        p0 := { s.p0 with
          prof := t.p0.prof, stalled := t.p0.stalled, queue := t.p0.queue, cur := t.p0.cur, frame := t.p0.frame
          polled := t.p0.polled, rings := t.p0.rings }
        boot := { s.boot with
          session := t.boot.session, regions := t.boot.regions, job := t.boot.job, jobs := t.boot.jobs
          img := t.boot.img } } ∧
      ∀ a, (a < cmdArea m ∨ cmdArea m + 512 ≤ a) → rdB t.ram a = rdB s.ram a) ∧
    MbxChangesOnly (.pspXfer m r) m (fun _ => False) (fun u t => { u with
      evt := { u.evt with waiting := t.evt.waiting }
      ianik := { u.ianik with deferred := t.ianik.deferred }
      hive := { u.hive with
        store := t.hive.store, storeWritten := t.hive.storeWritten, free := t.hive.free, cycle := t.hive.cycle }
      care := { u.care with offAcc := t.care.offAcc }
      p0 := { u.p0 with
        prof := t.p0.prof, queue := t.p0.queue, cur := t.p0.cur, frame := t.p0.frame, rings := t.p0.rings } }) ∧
    MbxChangesOnly (.fgrRingConfig m r) m (fun _ => False) (fun u t => { u with
      p0 := { u.p0 with cur := t.p0.cur, polled := t.p0.polled, rings := t.p0.rings } }) ∧
    MbxChangesOnly (.fgrDescPush m r) m (fun _ => False) (fun u t => { u with
      p0 := { u.p0 with rings := t.p0.rings } }) ∧
    MbxChangesOnly (.fgrRingEnable m r) m (fun _ => False) (fun u t => { u with
      ianik := { u.ianik with staged := t.ianik.staged }
      p0 := { u.p0 with rings := t.p0.rings } }) ∧
    MbxChangesOnly (.fgrClear m r) m (fun _ => False) (fun u t => { u with
      p0 := { u.p0 with evTag := t.p0.evTag, evMedia := t.p0.evMedia, rings := t.p0.rings } }) ∧
    (∀ c ∈ ([.imgUpdateBegin m r, .imgConfirm m r] : List Instr), MbxChangesOnly c m (fun _ => False)
      (fun u t => { u with
      evt := { u.evt with waiting := t.evt.waiting }
      ianik := { u.ianik with deferred := t.ianik.deferred }
      hive := { u.hive with
        store := t.hive.store, storeWritten := t.hive.storeWritten, free := t.hive.free, cycle := t.hive.cycle }
      care := { u.care with offAcc := t.care.offAcc }
      p0 := { u.p0 with
        prof := t.p0.prof, queue := t.p0.queue, cur := t.p0.cur, frame := t.p0.frame, rings := t.p0.rings }
      boot := { u.boot with img := t.boot.img } })) ∧
    MbxChangesOnly (.imgUpdateWrite m r) m (fun _ => False) (fun u t => { u with
      evt := { u.evt with waiting := t.evt.waiting }
      ianik := { u.ianik with deferred := t.ianik.deferred }
      hive := { u.hive with
        store := t.hive.store, storeWritten := t.hive.storeWritten, free := t.hive.free, cycle := t.hive.cycle }
      care := { u.care with offAcc := t.care.offAcc }
      p0 := { u.p0 with
        prof := t.p0.prof, queue := t.p0.queue, cur := t.p0.cur, frame := t.p0.frame, rings := t.p0.rings }
      boot := { u.boot with regions := t.boot.regions, img := t.boot.img } }) ∧
    MbxChangesOnly (.imgUpdateEnd m r) m (fun _ => False) (fun u t => { u with
      evt := { u.evt with waiting := t.evt.waiting }
      ianik := { u.ianik with deferred := t.ianik.deferred }
      hive := { u.hive with
        store := t.hive.store, storeWritten := t.hive.storeWritten, free := t.hive.free, cycle := t.hive.cycle }
      care := { u.care with offAcc := t.care.offAcc }
      p0 := { u.p0 with
        prof := t.p0.prof, queue := t.p0.queue, cur := t.p0.cur, frame := t.p0.frame, rings := t.p0.rings }
      boot := { u.boot with session := t.boot.session, regions := t.boot.regions, img := t.boot.img } }) ∧
    MbxChangesOnly (.tuneLoad m r) m (fun _ => False) (fun u t => { u with
      evt := { u.evt with waiting := t.evt.waiting }
      ianik := { u.ianik with deferred := t.ianik.deferred, staged := t.ianik.staged }
      hive := { u.hive with cells := t.hive.cells, combs := t.hive.combs }
      care := { u.care with
        offAcc := t.care.offAcc, vault := t.care.vault, keysIn := t.care.keysIn, wiping := t.care.wiping,
        repeated := t.care.repeated, wipes := t.care.wipes, cause := t.care.cause }
      boot := { u.boot with meas := t.boot.meas, job := t.boot.job, jobs := t.boot.jobs } }) ∧
    MbxChangesOnly (.imgMeasExtend m r) m (fun _ => False) (fun u t => { u with
      boot := { u.boot with meas := t.boot.meas } }) ∧
    MbxChangesOnly (.lcAdvance m r) m (fun _ => False) (fun u t => { u with
      pow := { u.pow with lc := t.pow.lc }
      evt := { u.evt with waiting := t.evt.waiting }
      ianik := { u.ianik with deferred := t.ianik.deferred }
      hive := { u.hive with cells := t.hive.cells }
      care := { u.care with
        keysIn := t.care.keysIn, wiping := t.care.wiping, repeated := t.care.repeated, wipes := t.care.wipes,
        cause := t.care.cause }
      boot := { u.boot with
        fuses := t.boot.fuses, job := t.boot.job, jobs := t.boot.jobs, lcReset := t.boot.lcReset } }) ∧
    MbxChangesOnly (.keyRevoke m r) m (fun _ => False) (fun u t => { u with
      evt := { u.evt with waiting := t.evt.waiting }
      ianik := { u.ianik with deferred := t.ianik.deferred }
      boot := { u.boot with fuses := t.boot.fuses } }) ∧
    MbxChangesOnly (.bootRecoveryBegin m r) m (fun _ => False) (fun u t => { u with
      pow := { u.pow with recovery := t.pow.recovery, sysResetPends := t.pow.sysResetPends }
      ianik := { u.ianik with staged := t.ianik.staged } }) ∧
    MbxChangesOnly (.bootPush m r) m (fun _ => False) (fun u t => { u with
      boot := { u.boot with
        pushed := t.boot.pushed, pushedLen := t.boot.pushedLen, pushedN := t.boot.pushedN, pushEnd := t.boot.pushEnd } }))

/-- O55. What each command of the Hive changes beyond taking it: a Cell command its queue in transit, a Comb command the
Combs, and a command that takes effect at a frame the staged changes; everything else is unchanged. -/
def Obligations.HiveCommandFrames : Prop :=
  ∀ (m : Fin 4) (r : Req),
    MbxChangesOnly (.cellRoleSet m r) m (fun _ => False) (fun u t => { u with
      ianik := { u.ianik with stalled := t.ianik.stalled }
      hive := { u.hive with cells := t.hive.cells, transit := t.hive.transit } }) ∧
    (∀ c ∈ ([.cellProgWrite m r, .cellProgMeta m r, .cellCoefWrite m r, .cellBankSwap m r, .cellGlideSet m r,
      .cellGroupCommit m r, .cellFaultClear m r, .cellFaultPolicy m r] : List Instr), MbxChangesOnly c m
      (fun _ => False) (fun u t => { u with
      ianik := { u.ianik with stalled := t.ianik.stalled }
      hive := { u.hive with transit := t.hive.transit } })) ∧
    MbxChangesOnly (.cellMemRead m r) m (fun _ => False) (fun u t => { u with
      ianik := { u.ianik with deferred := t.ianik.deferred, stalled := t.ianik.stalled }
      hive := { u.hive with transit := t.hive.transit } }) ∧
    MbxChangesOnly (.cellImageLoad m r) m (fun _ => False) (fun u t => { u with
      evt := { u.evt with waiting := t.evt.waiting }
      ianik := { u.ianik with deferred := t.ianik.deferred, staged := t.ianik.staged }
      hive := { u.hive with cells := t.hive.cells, combs := t.hive.combs }
      care := { u.care with
        offAcc := t.care.offAcc, vault := t.care.vault, keysIn := t.care.keysIn, wiping := t.care.wiping,
        repeated := t.care.repeated, wipes := t.care.wipes, cause := t.care.cause }
      boot := { u.boot with meas := t.boot.meas, job := t.boot.job, jobs := t.boot.jobs } }) ∧
    (∀ c ∈ ([.combMapSet m r, .combCommit m r] : List Instr), MbxChangesOnly c m (fun _ => False) (fun u t => { u with
      ianik := { u.ianik with staged := t.ianik.staged }
      hive := { u.hive with combs := t.hive.combs } })) ∧
    (∀ c ∈ ([.combStage m r, .combStageBulk m r, .combStageDiscard m r] : List Instr), MbxChangesOnly c m
      (fun _ => False) (fun u t => { u with
      hive := { u.hive with combs := t.hive.combs } })) ∧
    MbxChangesOnly (.chimneyStatus m r) m (fun _ => False) (fun u t => { u with
      hive := { u.hive with cells := t.hive.cells } }) ∧
    MbxChangesOnly (.domainSet m r) m (fun _ => False) (fun u t => { u with
      ianik := { u.ianik with deferred := t.ianik.deferred }
      hive := { u.hive with dom := t.hive.dom } }) ∧
    (∀ c ∈ ([.bridgeModeSet m r, .testgenSet m r] : List Instr), MbxChangesOnly c m (fun _ => False)
      (fun u t => { u with
      ianik := { u.ianik with staged := t.ianik.staged } }))

/-- O56. What each command of the Bellows, the Stove, the ports, the Hivewire and the Damper changes beyond taking it;
everything else is unchanged. -/
def Obligations.UnitCommandFrames : Prop :=
  ∀ (m : Fin 4) (r : Req),
    (∀ c ∈ ([.belConfig m r, .belLoopSet m r, .belEnable m r, .belMute m r, .belCarrierSet m r, .belFaultClear m r,
      .belFaultPolicy m r, .stoveOutSet m r] : List Instr), MbxChangesOnly c m (fun _ => False) (fun u t => { u with
      ianik := { u.ianik with staged := t.ianik.staged } })) ∧
    MbxChangesOnly (.belMeasureZ m r) m (fun _ => False) (fun u t => { u with
      ianik := { u.ianik with deferred := t.ianik.deferred, staged := t.ianik.staged } }) ∧
    MbxChangesOnly (.stkrRefConfig m r) m (fun _ => False) (fun u t => { u with
      stove := { u.stove with
        st := t.stove.st, sel := t.stove.sel, tgt := t.stove.tgt, inEmber := t.stove.inEmber,
        holding := t.stove.holding, refs := t.stove.refs, switchPends := t.stove.switchPends }
      rx := t.rx
      tx := t.tx
      grps := t.grps }) ∧
    MbxChangesOnly (.stkrModeSet m r) m (fun _ => False) (fun u t => { u with
      stove := { u.stove with
        compat := t.stove.compat, revert := t.stove.revert, bw := t.stove.bw, pboThr := t.stove.pboThr,
        slew := t.stove.slew } }) ∧
    MbxChangesOnly (.stkrSelect m r) m (fun _ => False) (fun u t => { u with
      stove := { u.stove with
        tgt := t.stove.tgt, manual := t.stove.manual, dropped := t.stove.dropped, switchPends := t.stove.switchPends } }) ∧
    MbxChangesOnly (.stkrSwConfig m r) m (fun _ => False) (fun u t => { u with
      stove := { u.stove with refs := t.stove.refs, sw := t.stove.sw } }) ∧
    MbxChangesOnly (.portConfig m r) m (fun _ => False) (fun u t => { u with
      ianik := { u.ianik with staged := t.ianik.staged }
      rx := t.rx
      tx := t.tx }) ∧
    MbxChangesOnly (.portEnable m r) m (fun _ => False) (fun u t => { u with
      ianik := { u.ianik with staged := t.ianik.staged }
      p0 := { u.p0 with rings := t.p0.rings } }) ∧
    MbxChangesOnly (.portGroupSet m r) m (fun _ => False) (fun u t => { u with
      rx := t.rx
      tx := t.tx
      grps := t.grps }) ∧
    MbxChangesOnly (.portClear m r) m (fun _ => False) (fun u t => { u with
      rx := t.rx
      tx := t.tx }) ∧
    (∀ c ∈ ([.hwChainConfig m r, .hwClear m r] : List Instr), MbxChangesOnly c m (fun _ => False) (fun u t => { u with
      hw := t.hw })) ∧
    (∀ c ∈ ([.hwWalk m r, .hwNodeXact m r] : List Instr), MbxChangesOnly c m (fun _ => False) (fun u t => { u with
      ianik := { u.ianik with deferred := t.ianik.deferred }
      hw := t.hw })) ∧
    MbxChangesOnly (.hwSlotMap m r) m (fun _ => False) (fun u t => { u with
      ianik := { u.ianik with deferred := t.ianik.deferred, staged := t.ianik.staged }
      hw := t.hw }) ∧
    MbxChangesOnly (.hwPartnerSet m r) m (fun _ => False) (fun u t => { u with
      evt := { u.evt with waiting := t.evt.waiting }
      ianik := { u.ianik with deferred := t.ianik.deferred }
      hw := t.hw }) ∧
    (∀ c ∈ ([.dmprSupplyConfig m r, .dmprCrankCurve m r] : List Instr), MbxChangesOnly c m (fun _ => False)
      (fun u t => { u with
      dmpr := { u.dmpr with cfgNext := t.dmpr.cfgNext } })) ∧
    MbxChangesOnly (.dmprOutConfig m r) m (fun _ => False) (fun u t => { u with
      dmpr := { u.dmpr with chNext := t.dmpr.chNext } }) ∧
    MbxChangesOnly (.dmprLineConfig m r) m (fun _ => False) (fun u t => { u with
      dmpr := { u.dmpr with lineNext := t.dmpr.lineNext } }) ∧
    MbxChangesOnly (.dmprClear m r) m (fun _ => False) (fun u t => { u with
      bel := { u.bel with ch := t.bel.ch }
      hw := t.hw
      dmpr := { u.dmpr with
        ch := t.dmpr.ch, line := t.dmpr.line, killCnt := t.dmpr.killCnt, ev := t.dmpr.ev, issued := t.dmpr.issued } })

/-- O57. What each host access and each event of power, boot, faults and memories changes; everything else is unchanged.
The resets, which reach every unit, have statements of their own. -/
def Obligations.ControlEventFrames : Prop :=
  (∀ z ∈ ([.stkrSwSeqRead, .frameCountLoRead] : List Instr), ChangesOnly z (fun s t => { s with
      fresh := t.fresh
      evt := { s.evt with acc := t.evt.acc, parts := t.evt.parts, detail := t.evt.detail }
      host := { s.host with
        flags := t.host.flags, errCnt := t.host.errCnt, fcLatch := t.host.fcLatch, xfer := t.host.xfer,
        statusUnit := t.host.statusUnit, out := t.host.out }
      stove := { s.stove with sw := t.stove.sw }
      care := { s.care with ecc := t.care.ecc, first := t.care.first, latest := t.care.latest } })) ∧
  (ChangesOnly .measLatchRead (fun s t => { s with
      host := { s.host with measLatch := t.host.measLatch } })) ∧
  (∀ (cmd : Byte) (addr : BitVec 16), ChangesOnly (.psp1CommandUnit cmd addr) (fun s t => { s with
      evt := { s.evt with acc := t.evt.acc, detail := t.evt.detail }
      host := { s.host with
        flags := t.host.flags, errCnt := t.host.errCnt, measLatch := t.host.measLatch, xfer := t.host.xfer,
        statusUnit := t.host.statusUnit, out := t.host.out } })) ∧
  (∀ (k : SelRise), ChangesOnly (.psp1SelRise k) (fun s t => { s with
      fresh := t.fresh
      evt := { s.evt with acc := t.evt.acc, parts := t.evt.parts, detail := t.evt.detail }
      host := { s.host with
        flags := t.host.flags, errCnt := t.host.errCnt, fcLatch := t.host.fcLatch, xfer := t.host.xfer,
        statusUnit := t.host.statusUnit, out := t.host.out }
      stove := { s.stove with sw := t.stove.sw }
      care := { s.care with ecc := t.care.ecc, first := t.care.first, latest := t.care.latest } })) ∧
  (ChangesOnly .pspBuzzed (fun s t => { s with
      evt := { s.evt with acc := t.evt.acc, detail := t.evt.detail }
      host := { s.host with
        flags := t.host.flags, errCnt := t.host.errCnt, xfer := t.host.xfer, statusUnit := t.host.statusUnit } })) ∧
  (∀ (cfgOk : Bool) (keeperLow : Bool), ChangesOnly (.vddHearthRise cfgOk keeperLow) (fun s t => { s with
      pow := { s.pow with st := t.pow.st, rails := t.pow.rails }
      keeper := t.keeper
      evt := { s.evt with acc := t.evt.acc, detail := t.evt.detail } })) ∧
  (∀ (sel : BitVec 2) (stays : Bool), ChangesOnly (.wakeRequest ⟨sel, stays⟩) (fun s t => { s with
      pow := { s.pow with
        st := t.pow.st, bootCrit := t.pow.bootCrit, wakePin := t.pow.wakePin, wakeHeld := t.pow.wakeHeld,
        bootSel := t.pow.bootSel, wakes := t.pow.wakes }
      evt := { s.evt with acc := t.evt.acc, detail := t.evt.detail }
      boot := { s.boot with
        step := t.boot.step, fallback := t.boot.fallback, sel := t.boot.sel, reason := t.boot.reason,
        failBlock := t.boot.failBlock, order := t.boot.order } })) ∧
  (ChangesOnly .rstNRise (fun s t => { s with
      pow := { s.pow with
        st := t.pow.st, bootCrit := t.pow.bootCrit, wakeHeld := t.pow.wakeHeld, rstN := t.pow.rstN,
        wakes := t.pow.wakes }
      evt := { s.evt with acc := t.evt.acc, detail := t.evt.detail }
      boot := { s.boot with
        step := t.boot.step, fallback := t.boot.fallback, sel := t.boot.sel, reason := t.boot.reason,
        failBlock := t.boot.failBlock, order := t.boot.order } })) ∧
  (∀ (r : Rail), ChangesOnly (.railGood r) (fun s t => { s with
      pow := { s.pow with
        st := t.pow.st, bootCrit := t.pow.bootCrit, wakeHeld := t.pow.wakeHeld, rails := t.pow.rails,
        wakes := t.pow.wakes }
      evt := { s.evt with acc := t.evt.acc, detail := t.evt.detail }
      boot := { s.boot with
        step := t.boot.step, fallback := t.boot.fallback, sel := t.boot.sel, reason := t.boot.reason,
        failBlock := t.boot.failBlock, order := t.boot.order } })) ∧
  (∀ z ∈ ([.voltageGlitch, .clockGlitch, .tamperNLow] : List Instr), ChangesOnly z (fun s t => { s with
      fresh := t.fresh
      flt := { s.flt with
        tamper := t.flt.tamper, glitch := t.flt.glitch, log := t.flt.log, overwrites := t.flt.overwrites }
      keeper := { s.keeper with isOpen := t.keeper.isOpen }
      evt := { s.evt with acc := t.evt.acc, detail := t.evt.detail, waiting := t.evt.waiting }
      hive := { s.hive with cells := t.hive.cells }
      care := { s.care with
        upsets := t.care.upsets, keysIn := t.care.keysIn, wiping := t.care.wiping, repeated := t.care.repeated,
        wipes := t.care.wipes, cause := t.care.cause }
      boot := { s.boot with job := t.boot.job, jobs := t.boot.jobs } })) ∧
  (∀ (clean : Bool), ChangesOnly (.vaultWipeComplete clean) (fun s t => { s with
      fresh := t.fresh
      flt := { s.flt with vault := t.flt.vault, log := t.flt.log, overwrites := t.flt.overwrites }
      evt := { s.evt with waiting := t.evt.waiting }
      care := { s.care with
        upsets := t.care.upsets, vault := t.care.vault, keysIn := t.care.keysIn, wiping := t.care.wiping,
        locked := t.care.locked, repeated := t.care.repeated, cmds := t.care.cmds } })) ∧
  (ChangesOnly .keeperRelease (fun s t => { s with
      keeper := { s.keeper with pin := t.keeper.pin, armed := t.keeper.armed } })) ∧
  (ChangesOnly .keeperHold (fun s t => { s with
      keeper := { s.keeper with
        isOpen := t.keeper.isOpen, pin := t.keeper.pin, armed := t.keeper.armed, openLen := t.keeper.openLen }
      evt := { s.evt with acc := t.evt.acc, detail := t.evt.detail } })) ∧
  (ChangesOnly .presenceWindowEnd (fun s t => { s with
      keeper := { s.keeper with isOpen := t.keeper.isOpen }
      evt := { s.evt with acc := t.evt.acc, detail := t.evt.detail } })) ∧
  (∀ (tj : F32), ChangesOnly (.thermalConversion tj) (fun s t => { s with
      fresh := t.fresh
      flt := { s.flt with therm := t.flt.therm, log := t.flt.log, overwrites := t.flt.overwrites }
      hearth := { s.hearth with
        tj := t.hearth.tj, warnHeld := t.hearth.warnHeld, critHeld := t.hearth.critHeld,
        runBarred := t.hearth.runBarred, thermPends := t.hearth.thermPends }
      evt := { s.evt with acc := t.evt.acc, detail := t.evt.detail } })) ∧
  (ChangesOnly .bootSourceStart (fun s t => { s with
      pow := { s.pow with recovery := t.pow.recovery, attempts := t.pow.attempts }
      evt := { s.evt with acc := t.evt.acc, detail := t.evt.detail }
      p0 := { s.p0 with prof := t.p0.prof, mem := t.p0.mem }
      boot := t.boot })) ∧
  (∀ (media : Bool), ChangesOnly (.manifestVerified media) (fun s t => { s with
      evt := { s.evt with
        acc := t.evt.acc, parts := t.evt.parts, detail := t.evt.detail, waiting := t.evt.waiting }
      ianik := { s.ianik with staged := t.ianik.staged }
      hive := { s.hive with cells := t.hive.cells, combs := t.hive.combs }
      rx := t.rx
      tx := t.tx
      hw := t.hw
      dmpr := { s.dmpr with cfgNext := t.dmpr.cfgNext }
      care := { s.care with
        ecc := t.care.ecc, first := t.care.first, latest := t.care.latest, offAcc := t.care.offAcc,
        upsets := t.care.upsets, ianikRam := t.care.ianikRam, vault := t.care.vault, keysIn := t.care.keysIn,
        wiping := t.care.wiping, repeated := t.care.repeated, wipes := t.care.wipes, cause := t.care.cause }
      p0 := { s.p0 with
        prof := t.p0.prof, mediaCnt := t.p0.mediaCnt, locked := t.p0.locked, lastSel := t.p0.lastSel,
        evMedia := t.p0.evMedia, tagRange := t.p0.tagRange, tagBlk := t.p0.tagBlk, mem := t.p0.mem }
      boot := t.boot })) ∧
  (∀ (media : Bool), ChangesOnly (.blockVerified media) (fun s t => { s with
      evt := { s.evt with
        acc := t.evt.acc, parts := t.evt.parts, detail := t.evt.detail, waiting := t.evt.waiting }
      ianik := { s.ianik with staged := t.ianik.staged }
      hive := { s.hive with cells := t.hive.cells, combs := t.hive.combs }
      rx := t.rx
      tx := t.tx
      hw := t.hw
      dmpr := { s.dmpr with cfgNext := t.dmpr.cfgNext }
      care := { s.care with
        ecc := t.care.ecc, first := t.care.first, latest := t.care.latest, offAcc := t.care.offAcc,
        upsets := t.care.upsets, ianikRam := t.care.ianikRam, vault := t.care.vault, keysIn := t.care.keysIn,
        wiping := t.care.wiping, repeated := t.care.repeated, wipes := t.care.wipes, cause := t.care.cause }
      p0 := { s.p0 with
        prof := t.p0.prof, mediaCnt := t.p0.mediaCnt, locked := t.p0.locked, lastSel := t.p0.lastSel,
        evMedia := t.p0.evMedia, tagRange := t.p0.tagRange, tagBlk := t.p0.tagBlk, mem := t.p0.mem }
      boot := t.boot })) ∧
  (ChangesOnly .pushWaitTimeout (fun s t => { s with
      evt := { s.evt with acc := t.evt.acc, detail := t.evt.detail }
      p0 := { s.p0 with mem := t.p0.mem }
      boot := t.boot })) ∧
  (ChangesOnly .standbyReached (fun s t => { s with
      pow := { s.pow with
        st := t.pow.st, bootCrit := t.pow.bootCrit, attempts := t.pow.attempts, sawStandby := t.pow.sawStandby }
      evt := { s.evt with acc := t.evt.acc, detail := t.evt.detail }
      ianik := { s.ianik with staged := t.ianik.staged }
      p0 := { s.p0 with mem := t.p0.mem }
      boot := { s.boot with
        step := t.boot.step, wait := t.boot.wait, attempts := t.boot.attempts, autoRun := t.boot.autoRun } })) ∧
  (ChangesOnly .crystalStopped (fun s t => { s with
      fresh := t.fresh
      flt := { s.flt with xtal := t.flt.xtal, log := t.flt.log, overwrites := t.flt.overwrites }
      hearth := { s.hearth with xtalStopped := t.hearth.xtalStopped }
      evt := { s.evt with acc := t.evt.acc, parts := t.evt.parts, detail := t.evt.detail }
      stove := t.stove
      rx := t.rx
      tx := t.tx
      grps := t.grps })) ∧
  (ChangesOnly .stoveTickMissing (fun s t => { s with
      fresh := t.fresh
      flt := { s.flt with tick := t.flt.tick, log := t.flt.log, overwrites := t.flt.overwrites }
      evt := { s.evt with acc := t.evt.acc, detail := t.evt.detail }
      bel := { s.bel with muteAck := t.bel.muteAck }
      stove := t.stove })) ∧
  (∀ (data : List Byte), ChangesOnly (.psp0TransactionEnd data) (fun s t => { s with
      fresh := t.fresh
      evt := { s.evt with
        acc := t.evt.acc, parts := t.evt.parts, detail := t.evt.detail, waiting := t.evt.waiting }
      hive := { s.hive with
        store := t.hive.store, storeWritten := t.hive.storeWritten, free := t.hive.free, cycle := t.hive.cycle }
      care := { s.care with
        ecc := t.care.ecc, first := t.care.first, latest := t.care.latest, offAcc := t.care.offAcc,
        upsets := t.care.upsets }
      p0 := { s.p0 with
        prof := t.p0.prof, queue := t.p0.queue, cur := t.p0.cur, frame := t.p0.frame, filled := t.p0.filled,
        polled := t.p0.polled, rings := t.p0.rings, mem := t.p0.mem }
      boot := { s.boot with
        session := t.boot.session, regions := t.boot.regions, job := t.boot.job, jobs := t.boot.jobs,
        img := t.boot.img } })) ∧
  (∀ (addr : Nat) (s t : State), present 0 s = true ∨ s.pow.bootCrit = false → exec (.fetchMiss addr) s = .next t →
    t = { s with
      evt := { s.evt with acc := t.evt.acc, parts := t.evt.parts, detail := t.evt.detail }
      hive := { s.hive with
        store := t.hive.store, storeWritten := t.hive.storeWritten, free := t.hive.free, cycle := t.hive.cycle }
      care := { s.care with
        ecc := t.care.ecc, first := t.care.first, latest := t.care.latest, offAcc := t.care.offAcc,
        upsets := t.care.upsets }
      p0 := { s.p0 with
        prof := t.p0.prof, lines := t.p0.lines, stalled := t.p0.stalled, queue := t.p0.queue, cur := t.p0.cur,
        frame := t.p0.frame, filled := t.p0.filled, rings := t.p0.rings } }) ∧
  (∀ (ring : Fin 16), ChangesOnly (.descriptorStart ring) (fun s t => { s with
      evt := { s.evt with acc := t.evt.acc, parts := t.evt.parts, detail := t.evt.detail }
      hive := { s.hive with
        store := t.hive.store, storeWritten := t.hive.storeWritten, free := t.hive.free, cycle := t.hive.cycle }
      care := { s.care with
        ecc := t.care.ecc, first := t.care.first, latest := t.care.latest, offAcc := t.care.offAcc,
        upsets := t.care.upsets }
      p0 := { s.p0 with
        prof := t.p0.prof, queue := t.p0.queue, cur := t.p0.cur, frame := t.p0.frame, rings := t.p0.rings } })) ∧
  (∀ (ring : Fin 16), ChangesOnly (.descriptorComplete ring) (fun s t => { s with
      evt := { s.evt with acc := t.evt.acc, parts := t.evt.parts, detail := t.evt.detail }
      hive := { s.hive with
        store := t.hive.store, storeWritten := t.hive.storeWritten, free := t.hive.free, cycle := t.hive.cycle }
      care := { s.care with
        ecc := t.care.ecc, first := t.care.first, latest := t.care.latest, offAcc := t.care.offAcc,
        upsets := t.care.upsets }
      p0 := { s.p0 with rings := t.p0.rings } })) ∧
  (∀ (ring : Fin 16), ChangesOnly (.deadlineMiss ring) (fun s t => { s with
      evt := { s.evt with acc := t.evt.acc, detail := t.evt.detail }
      p0 := { s.p0 with rings := t.p0.rings } })) ∧
  (∀ (w : WordAt) (ups : List Upset), ChangesOnly (.patrolScrubRead w ups) (fun s t => { s with
      evt := { s.evt with
        acc := t.evt.acc, parts := t.evt.parts, detail := t.evt.detail, waiting := t.evt.waiting }
      hive := { s.hive with
        cells := t.hive.cells, store := t.hive.store, storeWritten := t.hive.storeWritten, free := t.hive.free,
        cycle := t.hive.cycle }
      care := t.care
      boot := { s.boot with job := t.boot.job, jobs := t.boot.jobs } })) ∧
  (ChangesOnly .regionIntervalExpiry (fun s t => { s with
      care := { s.care with intervalFrom := t.care.intervalFrom, due := t.care.due } })) ∧
  (ChangesOnly .regionTestStart (fun s t => { s with
      care := { s.care with due := t.care.due, nextPhase := t.care.nextPhase, startFrame := t.care.startFrame } })) ∧
  (ChangesOnly .patrolMarkerAck (fun s t => { s with
      hearth := { s.hearth with
        pmPhase := t.hearth.pmPhase, pmMem := t.hearth.pmMem, pmRegion := t.hearth.pmRegion, pmCrc := t.hearth.pmCrc }
      care := { s.care with nextPhase := t.care.nextPhase, phase := t.care.phase } })) ∧
  (∀ (n : Fin 64), ChangesOnly (.eventDelivery n) (fun s t => { s with
      evt := t.evt
      ram := t.ram
      ianik := { s.ianik with deferred := t.ianik.deferred }
      care := { s.care with upsets := t.care.upsets } })) ∧
  (ChangesOnly .completionRecordWrite (fun s t => { s with
      evt := { s.evt with
        acc := t.evt.acc, detail := t.evt.detail, ringSeq := t.evt.ringSeq, head := t.evt.head,
        waiting := t.evt.waiting }
      ram := t.ram
      ianik := { s.ianik with deferred := t.ianik.deferred }
      care := { s.care with upsets := t.care.upsets } })) ∧
  (∀ (src : Fin 26) (dst : Fin 26), ChangesOnly (.crossingTimeout src dst) (fun s t => { s with
      fresh := t.fresh
      pow := { s.pow with sysResetPends := t.pow.sysResetPends }
      flt := { s.flt with
        xto := t.flt.xto, xsrc := t.flt.xsrc, xdst := t.flt.xdst, log := t.flt.log, overwrites := t.flt.overwrites }
      evt := { s.evt with
        acc := t.evt.acc, parts := t.evt.parts, detail := t.evt.detail, waiting := t.evt.waiting }
      mbx := t.mbx
      ianik := { s.ianik with
        deferred := t.ianik.deferred, staged := t.ianik.staged, stalled := t.ianik.stalled }
      hive := { s.hive with cells := t.hive.cells, combs := t.hive.combs, transit := t.hive.transit }
      hw := t.hw
      care := { s.care with
        ecc := t.care.ecc, first := t.care.first, latest := t.care.latest, offAcc := t.care.offAcc,
        upsets := t.care.upsets }
      p0 := { s.p0 with rings := t.p0.rings }
      boot := { s.boot with job := t.boot.job, jobs := t.boot.jobs } })) ∧
  (ChangesOnly .ianikResetExit (fun s t => { s with
      pow := { s.pow with ianikRst := t.pow.ianikRst }
      hearth := { s.hearth with pmPhase := t.hearth.pmPhase }
      evt := { s.evt with
        acc := t.evt.acc, parts := t.evt.parts, detail := t.evt.detail, ringSeq := t.evt.ringSeq, head := t.evt.head,
        waiting := t.evt.waiting }
      ram := t.ram
      ianik := { s.ianik with deferred := t.ianik.deferred }
      hive := { s.hive with
        store := t.hive.store, storeWritten := t.hive.storeWritten, free := t.hive.free, cycle := t.hive.cycle }
      care := t.care
      p0 := { s.p0 with mem := t.p0.mem }
      boot := { s.boot with img := t.boot.img } })) ∧
  (∀ (cls : Byte) (code : BitVec 24), ChangesOnly (.firmwareFault cls code) (fun s t => { s with
      fresh := t.fresh
      flt := { s.flt with log := t.flt.log, overwrites := t.flt.overwrites }
      evt := { s.evt with acc := t.evt.acc, detail := t.evt.detail }
      ianik := { s.ianik with fwFaults := t.ianik.fwFaults } })) ∧
  (∀ (n : Fin 4), ChangesOnly (.hearthResponderServe n) (fun s t => { s with
      fresh := t.fresh
      pow := { s.pow with recovery := t.pow.recovery, sysResetPends := t.pow.sysResetPends }
      evt := { s.evt with acc := t.evt.acc, parts := t.evt.parts, detail := t.evt.detail }
      mbx := t.mbx
      ram := t.ram
      ianik := { s.ianik with staged := t.ianik.staged }
      care := { s.care with
        ecc := t.care.ecc, first := t.care.first, latest := t.care.latest, upsets := t.care.upsets } })) ∧
  (ChangesOnly .crystalResume (fun s t => { s with
      hearth := { s.hearth with xtalStopped := t.hearth.xtalStopped }
      evt := { s.evt with acc := t.evt.acc, parts := t.evt.parts, detail := t.evt.detail }
      stove := { s.stove with
        st := t.stove.st, sel := t.stove.sel, tgt := t.stove.tgt, inEmber := t.stove.inEmber,
        holding := t.stove.holding, switchPends := t.stove.switchPends,
        refs := t.stove.refs, dco := t.stove.dco }
      rx := t.rx
      tx := t.tx
      grps := t.grps })) ∧
  (∀ (failed : List Nat) (readBackOk : Bool), ChangesOnly (.regionTestPhaseEnd failed readBackOk) (fun s t => { s with
      fresh := t.fresh
      hearth := { s.hearth with pmPhase := t.hearth.pmPhase, pmPass := t.hearth.pmPass }
      evt := { s.evt with acc := t.evt.acc, parts := t.evt.parts, detail := t.evt.detail }
      hive := { s.hive with
        store := t.hive.store, storeWritten := t.hive.storeWritten, free := t.hive.free, cycle := t.hive.cycle }
      care := t.care }))

/-- O58. What each event of the Hive, the Stove, the Bellows, the Damper, the ports and the Hivewire changes; everything
else is unchanged. -/
def Obligations.UnitEventFrames : Prop :=
  (∀ (ups : List Upset), ChangesOnly (.fFrameTick ups) (fun s t => { s with
      evt := { s.evt with acc := t.evt.acc, parts := t.evt.parts, detail := t.evt.detail }
      hive := { s.hive with
        cells := t.hive.cells, combs := t.hive.combs, store := t.hive.store, storeWritten := t.hive.storeWritten,
        bridges := t.hive.bridges, gens := t.hive.gens, dom := t.hive.dom }
      bel := { s.bel with ch := t.bel.ch }
      hw := t.hw
      care := { s.care with
        ecc := t.care.ecc, first := t.care.first, latest := t.care.latest, upsets := t.care.upsets } })) ∧
  (∀ (d : Dom) (n : Nat) (ups : List Upset), ChangesOnly (.cellWindow d n ups) (fun s t => { s with
      evt := { s.evt with acc := t.evt.acc, parts := t.evt.parts, detail := t.evt.detail }
      hive := { s.hive with
        cells := t.hive.cells, store := t.hive.store, storeWritten := t.hive.storeWritten, free := t.hive.free,
        cycle := t.hive.cycle }
      care := { s.care with
        ecc := t.care.ecc, first := t.care.first, latest := t.care.latest, offAcc := t.care.offAcc,
        upsets := t.care.upsets } })) ∧
  (∀ (c : Fin 32) (ups : List Upset), ChangesOnly (.storeTurn c ups) (fun s t => { s with
      evt := { s.evt with acc := t.evt.acc, parts := t.evt.parts, detail := t.evt.detail }
      hive := { s.hive with cells := t.hive.cells, store := t.hive.store, storeWritten := t.hive.storeWritten }
      care := { s.care with
        ecc := t.care.ecc, first := t.care.first, latest := t.care.latest, upsets := t.care.upsets } })) ∧
  (∀ (d : Dom), ChangesOnly (.chimneyPhase d) (fun s t => { s with
      evt := { s.evt with acc := t.evt.acc, detail := t.evt.detail }
      hive := { s.hive with cells := t.hive.cells, combs := t.hive.combs }
      care := { s.care with upsets := t.care.upsets } })) ∧
  (∀ (d : Dom) (ups : List Upset), ChangesOnly (.outletPhase d ups) (fun s t => { s with
      evt := { s.evt with acc := t.evt.acc, parts := t.evt.parts, detail := t.evt.detail }
      hive := { s.hive with
        combs := t.hive.combs, bridges := t.hive.bridges, capture := t.hive.capture, belM := t.hive.belM,
        belF := t.hive.belF, belLL := t.hive.belLL }
      tx := t.tx
      hw := t.hw
      care := { s.care with
        ecc := t.care.ecc, first := t.care.first, latest := t.care.latest, upsets := t.care.upsets } })) ∧
  (ChangesOnly .cellQueueEntryArrival (fun s t => { s with
      evt := { s.evt with
        acc := t.evt.acc, parts := t.evt.parts, detail := t.evt.detail, waiting := t.evt.waiting }
      mbx := t.mbx
      ianik := { s.ianik with stalled := t.ianik.stalled }
      hive := { s.hive with cells := t.hive.cells, transit := t.hive.transit }
      care := { s.care with
        ecc := t.care.ecc, first := t.care.first, latest := t.care.latest, offAcc := t.care.offAcc,
        upsets := t.care.upsets } })) ∧
  (∀ (c : Fin 32), ChangesOnly (.sealedClearDone c) (fun s t => { s with
      evt := { s.evt with acc := t.evt.acc, detail := t.evt.detail }
      hive := { s.hive with cells := t.hive.cells }
      care := { s.care with upsets := t.care.upsets } })) ∧
  (∀ (c : Fin 32), ChangesOnly (.cellFaultFadeEnd c) (fun s t => { s with
      hive := { s.hive with cells := t.hive.cells } })) ∧
  (∀ (d : Dom) (col : Nat), ChangesOnly (.rampEnd d col) (fun s t => { s with
      evt := { s.evt with acc := t.evt.acc, detail := t.evt.detail }
      hive := { s.hive with combs := t.hive.combs } })) ∧
  (ChangesOnly .rateChangeLockTimeout (fun s t => { s with
      evt := { s.evt with waiting := t.evt.waiting }
      hive := { s.hive with dom := t.hive.dom } })) ∧
  (∀ (x : Comparison), ChangesOnly (.stoveComparison x) (fun s t => { s with
      evt := { s.evt with
        acc := t.evt.acc, parts := t.evt.parts, detail := t.evt.detail, waiting := t.evt.waiting }
      ianik := { s.ianik with staged := t.ianik.staged }
      hive := { s.hive with dom := t.hive.dom }
      bel := { s.bel with muteAck := t.bel.muteAck }
      stove := t.stove
      rx := t.rx
      tx := t.tx
      grps := t.grps })) ∧
  (∀ (offs : List (Option Int)) (dco : Int) (freq : Option Int) (phase : Int), ∀ z ∈ ([.measurementGateEnd offs dco,
      .qualifyEnd freq phase, .moveEnd, .swRefWatchdog] : List Instr), ChangesOnly z (fun s t => { s with
      evt := { s.evt with acc := t.evt.acc, parts := t.evt.parts, detail := t.evt.detail }
      stove := t.stove
      rx := t.rx
      tx := t.tx
      grps := t.grps })) ∧
  (∀ (ref : Fin 13), ChangesOnly (.waitToRestoreExpiry ref) (fun s t => { s with
      stove := { s.stove with tgt := t.stove.tgt, switchPends := t.stove.switchPends } })) ∧
  (ChangesOnly .settleTimeout (fun s t => { s with
      evt := { s.evt with acc := t.evt.acc, detail := t.evt.detail }
      bel := { s.bel with muteAck := t.bel.muteAck }
      stove := t.stove })) ∧
  (ChangesOnly .relockAcquire (fun s t => { s with
      stove := { s.stove with
        holding := t.stove.holding, buildOut := t.stove.buildOut, hitFrom := t.stove.hitFrom, inWin := t.stove.inWin,
        outWin := t.stove.outWin, cmps := t.stove.cmps, acq := t.stove.acq } })) ∧
  (ChangesOnly .relockAttemptTimeout (fun s t => { s with
      stove := { s.stove with
        holding := t.stove.holding, buildOut := t.stove.buildOut, hitFrom := t.stove.hitFrom, inWin := t.stove.inWin,
        outWin := t.stove.outWin, cmps := t.stove.cmps, dropped := t.stove.dropped, acq := t.stove.acq } })) ∧
  (∀ (fb : List (BitVec 16 × BitVec 16)), ChangesOnly (.bellowsUpdate fb) (fun s t => { s with
      fresh := t.fresh
      evt := { s.evt with waiting := t.evt.waiting }
      hive := { s.hive with monitors := t.hive.monitors }
      bel := { s.bel with ch := t.bel.ch, upd := t.bel.upd } })) ∧
  (∀ (g : Fin 8) (c : Fin 32), ∀ z ∈ ([.drvWakeEnd g, .muteRampEnd c, .killReleaseRestart c] : List Instr),
      ChangesOnly z (fun s t => { s with
      bel := { s.bel with ch := t.bel.ch } })) ∧
  (∀ (c : Fin 32), ∀ z ∈ ([.unmuteStart c, .disableStop c, .killEnter c] : List Instr), ChangesOnly z
      (fun s t => { s with
      fresh := t.fresh
      evt := { s.evt with waiting := t.evt.waiting }
      bel := { s.bel with ch := t.bel.ch } })) ∧
  (∀ (g : Fin 8), ChangesOnly (.driverFault g) (fun s t => { s with
      fresh := t.fresh
      evt := { s.evt with acc := t.evt.acc, detail := t.evt.detail, waiting := t.evt.waiting }
      bel := { s.bel with ch := t.bel.ch, grp := t.bel.grp } })) ∧
  (∀ (g : Fin 8), ChangesOnly (.driverFaultRetry g) (fun s t => { s with
      bel := { s.bel with ch := t.bel.ch, grp := t.bel.grp } })) ∧
  (∀ (c : Fin 32) (volt : Bool), ∀ z ∈ ([.feedbackLoss c volt, .mismatchWindowEnd] : List Instr), ChangesOnly z
      (fun s t => { s with
      fresh := t.fresh
      evt := { s.evt with acc := t.evt.acc, detail := t.evt.detail, waiting := t.evt.waiting }
      bel := { s.bel with ch := t.bel.ch } })) ∧
  (ChangesOnly .bellowsMuteRequest (fun s t => { s with
      bel := { s.bel with ch := t.bel.ch, muteReq := t.bel.muteReq, muteAck := t.bel.muteAck } })) ∧
  (ChangesOnly .bellowsMuteAck (fun s t => { s with
      bel := { s.bel with muteAck := t.bel.muteAck } })) ∧
  (ChangesOnly .measureZComplete (fun s t => { s with
      fresh := t.fresh
      evt := { s.evt with
        acc := t.evt.acc, parts := t.evt.parts, detail := t.evt.detail, waiting := t.evt.waiting }
      ram := t.ram
      ianik := { s.ianik with routine := t.ianik.routine }
      hive := { s.hive with
        store := t.hive.store, storeWritten := t.hive.storeWritten, free := t.hive.free, cycle := t.hive.cycle }
      bel := { s.bel with ch := t.bel.ch }
      care := { s.care with
        ecc := t.care.ecc, first := t.care.first, latest := t.care.latest, offAcc := t.care.offAcc,
        upsets := t.care.upsets } })) ∧
  (∀ (slot : Fin 8) (code : BitVec 12), ChangesOnly (.damperAdcSample slot code) (fun s t => { s with
      evt := { s.evt with acc := t.evt.acc, detail := t.evt.detail, waiting := t.evt.waiting }
      ianik := { s.ianik with staged := t.ianik.staged }
      bel := { s.bel with ch := t.bel.ch, vrail := t.bel.vrail }
      hw := t.hw
      dmpr := t.dmpr })) ∧
  (∀ (bits : List (List (BitVec 16 × BitVec 16))), ChangesOnly (.energyBlockEnd bits) (fun s t => { s with
      evt := { s.evt with acc := t.evt.acc, detail := t.evt.detail }
      ianik := { s.ianik with routine := t.ianik.routine }
      bel := { s.bel with ch := t.bel.ch }
      dmpr := { s.dmpr with ch := t.dmpr.ch, issued := t.dmpr.issued } })) ∧
  (∀ (c : Fin 32), ChangesOnly (.coolDownEnd c) (fun s t => { s with
      bel := { s.bel with ch := t.bel.ch }
      dmpr := { s.dmpr with ch := t.dmpr.ch, issued := t.dmpr.issued } })) ∧
  (∀ (c : Fin 32), ChangesOnly (.energyTriesReset c) (fun s t => { s with
      dmpr := { s.dmpr with ch := t.dmpr.ch } })) ∧
  (∀ (x : Fin 2), ChangesOnly (.lineRetry x) (fun s t => { s with
      hw := t.hw
      dmpr := { s.dmpr with line := t.dmpr.line } })) ∧
  (∀ (x : Fin 2), ∀ z ∈ ([.lineTriesReset x, .linePermitLapse x] : List Instr), ChangesOnly z (fun s t => { s with
      dmpr := { s.dmpr with line := t.dmpr.line } })) ∧
  (∀ (x : Fin 2), ChangesOnly (.storedEnergyCheck x) (fun s t => { s with
      evt := { s.evt with acc := t.evt.acc, detail := t.evt.detail, waiting := t.evt.waiting }
      ianik := { s.ianik with staged := t.ianik.staged }
      hw := t.hw
      dmpr := { s.dmpr with line := t.dmpr.line, ev := t.dmpr.ev } })) ∧
  (∀ (f : PortFrame) (p : Fin 8) (edgeSeen : Bool) (side : Side) (period : Nat) (pos : Nat), ∀ z ∈
      ([.portFrameComplete f, .holdStageCheck p edgeSeen, .lossOfClock p side, .portMeasureDone p side period pos] :
      List Instr), ChangesOnly z (fun s t => { s with
      evt := { s.evt with acc := t.evt.acc, parts := t.evt.parts, detail := t.evt.detail }
      rx := t.rx
      tx := t.tx
      grps := t.grps })) ∧
  (∀ (p : Fin 8) (side : Side), ∀ z ∈ ([.frameSyncGlitch p side, .transmitPinFrameOpen p] : List Instr), ChangesOnly
      z (fun s t => { s with
      evt := { s.evt with acc := t.evt.acc, parts := t.evt.parts, detail := t.evt.detail }
      rx := t.rx
      tx := t.tx })) ∧
  (∀ (g : Fin 4), ChangesOnly (.groupAlignTimeout g) (fun s t => { s with
      rx := t.rx
      tx := t.tx
      grps := t.grps })) ∧
  (∀ (x : Fin 2) (f : LineFrame), ChangesOnly (.lineFrameReceived x f) (fun s t => { s with
      evt := { s.evt with acc := t.evt.acc, detail := t.evt.detail }
      stove := { s.stove with refs := t.stove.refs }
      hw := t.hw })) ∧
  (∀ (x : Fin 2), ChangesOnly (.controlReplyReceived x) (fun s t => { s with
      evt := { s.evt with acc := t.evt.acc, detail := t.evt.detail, waiting := t.evt.waiting }
      mbx := t.mbx
      ram := t.ram
      ianik := { s.ianik with
        staged := t.ianik.staged, ringCount := t.ianik.ringCount, tunOverflow := t.ianik.tunOverflow }
      hw := t.hw
      care := { s.care with upsets := t.care.upsets } })) ∧
  (∀ (x : Fin 2), ChangesOnly (.controlRequestRetry x) (fun s t => { s with
      evt := { s.evt with acc := t.evt.acc, detail := t.evt.detail, waiting := t.evt.waiting }
      ianik := { s.ianik with staged := t.ianik.staged }
      hw := t.hw
      dmpr := { s.dmpr with line := t.dmpr.line } })) ∧
  (∀ (x : Fin 2) (node : Nat), ChangesOnly (.nodeLoss x node) (fun s t => { s with
      evt := { s.evt with acc := t.evt.acc, detail := t.evt.detail, waiting := t.evt.waiting }
      ianik := { s.ianik with staged := t.ianik.staged }
      hw := t.hw })) ∧
  (∀ (x : Fin 2), ∀ z ∈ ([.discoverRepeat x, .walkVgoodReached x] : List Instr), ChangesOnly z (fun s t => { s with
      evt := { s.evt with acc := t.evt.acc, detail := t.evt.detail, waiting := t.evt.waiting }
      ianik := { s.ianik with staged := t.ianik.staged }
      hw := t.hw
      dmpr := { s.dmpr with line := t.dmpr.line } })) ∧
  (∀ (x : Fin 2), ∀ z ∈ ([.discoverTimeout x, .walkVgoodTimeout x] : List Instr), ChangesOnly z (fun s t => { s with
      evt := { s.evt with acc := t.evt.acc, detail := t.evt.detail, waiting := t.evt.waiting }
      hw := t.hw })) ∧
  (∀ (x : Fin 2), ∀ z ∈ ([.walkVsnsLow x, .autoWalkRetry x] : List Instr), ChangesOnly z (fun s t => { s with
      hw := t.hw })) ∧
  (∀ (x : Fin 2), ChangesOnly (.slotTailOutEnd x) (fun s t => { s with
      hive := { s.hive with combs := t.hive.combs }
      hw := t.hw }))

/-- O59. A command that names one port, chain, Comb, Cell, reference or ring leaves the others as they were, and so does
an event of one chain, or of one side of a port. -/
def Obligations.OtherUnitsStayAsTheyWere : Prop :=
  (∀ (m : Fin 4) (r : Req) (s t : State), ∀ c ∈ ([.portConfig m r, .portClear m r] : List Instr), exec c s = .next t →
    ∀ (p : Fin 8) (d : Side), p ≠ tgtPort r ∨ d ∉ tgtSides r → sideAt p d t = sideAt p d s) ∧
  (∀ (m : Fin 4) (r : Req) (s t : State), ∀ c ∈ ([.hwChainConfig m r, .hwWalk m r, .hwSlotMap m r, .hwNodeXact m r,
    .hwClear m r, .hwPartnerSet m r] : List Instr), exec c s = .next t →
    ∀ x : Fin 2, x ≠ tgtChain r → t.hw[x] = s.hw[x]) ∧
  (∀ (m : Fin 4) (r : Req) (s t : State), ∀ c ∈ ([.combStage m r, .combStageBulk m r, .combCommit m r,
    .combStageDiscard m r] : List Instr), exec c s = .next t → ∀ d : Dom, d ≠ tgtComb r → combAt t d = combAt s d) ∧
  (∀ (m : Fin 4) (r : Req) (s t : State), exec (.cellRoleSet m r) s = .next t →
    ∀ k : Fin 32, k ≠ tgtCell r → cellAt t k = cellAt s k) ∧
  (∀ (m : Fin 4) (r : Req) (s t : State), exec (.stkrRefConfig m r) s = .next t →
    ∀ k : Fin 13, k ≠ tgtRef r → t.stove.refs[k] = s.stove.refs[k]) ∧
  (∀ (m : Fin 4) (r : Req) (s t : State), exec (.stkrSwConfig m r) s = .next t →
    ∀ k : Fin 13, k ≠ 12 → t.stove.refs[k] = s.stove.refs[k]) ∧
  (∀ (m : Fin 4) (r : Req) (s t : State), ∀ c ∈ ([.fgrRingConfig m r, .fgrDescPush m r] : List Instr),
    exec c s = .next t → ∀ k : Fin 16, k ≠ tgtRing r → t.p0.rings[k] = s.p0.rings[k]) ∧
  (∀ (x : Fin 2) (f : LineFrame) (n : Nat) (s t : State), ∀ c ∈ ([.lineFrameReceived x f, .controlReplyReceived x,
    .controlRequestRetry x, .discoverRepeat x, .discoverTimeout x, .walkVsnsLow x, .walkVgoodReached x,
    .walkVgoodTimeout x, .nodeLoss x n, .slotTailOutEnd x, .autoWalkRetry x] : List Instr), exec c s = .next t →
    ∀ y : Fin 2, y ≠ x → t.hw[y] = s.hw[y]) ∧
  (∀ (p q : Fin 8) (d e : Side) (s t : State), exec (.frameSyncGlitch p d) s = .next t → q ≠ p ∨ e ≠ d →
    sideAt q e t = sideAt q e s) ∧
  (∀ (p q : Fin 8) (b : Bool) (s t : State), exec (.holdStageCheck p b) s = .next t → q ≠ p → t.rx[q] = s.rx[q]) ∧
  (∀ (p q : Fin 8) (s t : State), exec (.transmitPinFrameOpen p) s = .next t → q ≠ p → t.tx[q] = s.tx[q])

/-- O60. The output balls. A kill line holds PWMA and PWMB low at once, whatever the Bellows does: after the battery sample
that enters LOAD_DUMP on every channel, after a block that shows DC on its channel (R53, R366, R369, R373, R376). The
Bellows balls and FB_CLK are low in STANDBY (R202, R233). At the loss of VDD_HEARTH no ball is driven (R25). EXTEST and
CLAMP put every ball under the boundary register, and HIGHZ floats it (R599). In Hearth-safe the Bellows balls, FB_CLK and
the divided clocks are low (R25, log entry 71). -/
def Obligations.BallsFollowTheState : Prop :=
  (∀ (code : BitVec 12) (s : State), damperRuns s = true → s.dmpr.supply ≠ .loadDump → 3 ≤ s.dmpr.runs.2.2.1 →
    (let g := s.dmpr.cfgNext.getD s.dmpr.cfg; f32Q g.dump < senseVolts code g.batRatio) →
    s.pow.st ≠ .off → s.scan.ir = .bypass → s.pow.rails[3] = true →
    ∃ t, exec (.damperAdcSample 0 code) s = .next t ∧ t.dmpr.supply = .loadDump ∧
      t.evt.acc[45] = stick 65535 s.evt.acc[45] ∧ ∀ c : Fin 32, pwmA c t = .low ∧ pwmB c t = .low) ∧
  (∀ (bits : List (List (BitVec 16 × BitVec 16))) (c : Fin 32) (s : State), damperRuns s = true → belRuns s = true →
    (channelBlock s.hive.dom.fm (bits.getD c.val []) s.dmpr.ch[c]).2.2 = true → s.scan.ir = .bypass →
    s.pow.rails[3] = true → ∃ t, exec (.energyBlockEnd bits) s = .next t ∧ pwmA c t = .low ∧ pwmB c t = .low) ∧
  (∀ s : State, s.pow.st = .runToStandby → bellowsMuted s = true → portsOver s = true → s.scan.ir = .bypass →
    s.pow.rails[3] = true →
    ∃ t, exec .runToStandbyComplete s = .next t ∧ fbClk t = .low ∧ ∀ c : Fin 32, pwmA c t = .low ∧ pwmB c t = .low) ∧
  (∀ s : State, ∃ t, exec .vddHearthFall s = .next t ∧ fbClk t = .undriven ∧ clkOut t = .undriven ∧
    (∀ c : Fin 32, pwmA c t = .undriven ∧ pwmB c t = .undriven) ∧ (∀ g : Fin 8, drvEnPin g t = .undriven) ∧
    (∀ i x : Fin 2, mclk i t = .undriven ∧ linePwrEn x t = .undriven) ∧
    ∀ (p : Fin 8) (d : Side) (i : Nat), bclk p d t = .undriven ∧ fsBall p d i t = .undriven ∧ dout p i t = .undriven) ∧
  (∀ s : State, s.pow.st ≠ .off → s.pow.lc = .develop → s.pow.rails[3] = true →
    (∀ (bs : List Bool), ∃ t, exec (.extest bs) s = .next t ∧ ∀ c : Fin 32, pwmA c t = .scanned ∧ pwmB c t = .scanned) ∧
    (∃ t, exec .clamp s = .next t ∧ ∀ i : Fin 2, mclk i t = .scanned ∧ linePwrEn i t = .scanned) ∧
    ∃ t, exec .highz s = .next t ∧ ∀ (c : Fin 32) (p : Fin 8) (i : Nat), pwmA c t = .undriven ∧ dout p i t = .undriven) ∧
  (∀ s : State, s.pow.st = .powerUp → s.boot.done = false → s.scan.ir = .bypass → s.pow.rails[3] = true →
    ∃ t, exec .powerUpBudgetExpiry s = .next t ∧ fbClk t = .low ∧
      (∀ c : Fin 32, pwmA c t = .low ∧ pwmB c t = .low) ∧ ∀ i : Fin 2, mclk i t = .low)
end

