-- ==== Sys2Proof/Laws/Memory.lean ====
section
/-! SUPPORT. Sparse memories: reading after writing, and that every operation keeps the canonical form. -/

namespace Sys2Proof.Machine

/-! ### Reading after writing -/

theorem sget_all_gt {α : Type} (d : α) (m : List (Nat × α)) (k : Nat)
    (h : m.all (fun p => decide (k < p.1)) = true) : sget d m k = d := by
  induction m with
  | nil => rfl
  | cons e r ih =>
    simp only [List.all_cons, Bool.and_eq_true, decide_eq_true_eq] at h
    unfold sget
    rw [if_neg (by omega)]
    exact ih h.2

/-- The key written reads as what was written. -/
theorem sget_sset_same {α : Type} [DecidableEq α] (d : α) (m : List (Nat × α)) (k : Nat) (v : α)
    (h : swf d m = true) : sget d (sset d m k v) k = v := by
  induction m with
  | nil => by_cases hv : v = d <;> simp [sset, sget, hv]
  | cons e r ih =>
    obtain ⟨k', v'⟩ := e
    simp only [swf, Bool.and_eq_true] at h
    obtain ⟨⟨_, h2⟩, h3⟩ := h
    unfold sset
    split
    · rename_i hk
      split
      · rename_i hv
        subst hv
        simp only [sget, if_neg (Nat.ne_of_lt hk)]
        refine sget_all_gt _ _ _ ?_
        simp only [List.all_eq_true, decide_eq_true_eq] at *
        exact fun p hp => Nat.lt_trans hk (h2 p hp)
      · simp [sget]
    · split
      · rename_i he
        subst he
        split
        · rename_i hv
          subst hv
          exact sget_all_gt _ _ _ h2
        · simp [sget]
      · rename_i he
        simp only [sget, if_neg he]
        exact ih h3

/-- Every other key reads as before. -/
theorem sget_sset_other {α : Type} [DecidableEq α] (d : α) (m : List (Nat × α)) (k : Nat) (v : α) (j : Nat)
    (hj : j ≠ k) (h : swf d m = true) : sget d (sset d m k v) j = sget d m j := by
  induction m with
  | nil => by_cases hv : v = d <;> simp [sset, sget, hv, hj]
  | cons e r ih =>
    obtain ⟨k', v'⟩ := e
    simp only [swf, Bool.and_eq_true] at h
    unfold sset
    split
    · split
      · rfl
      · simp only [sget, if_neg hj]
    · split
      · rename_i he
        subst he
        split
        · simp only [sget, if_neg hj]
        · simp only [sget, if_neg hj]
      · simp only [sget]
        split
        · rfl
        · exact ih h.2

/-! ### The canonical form -/

theorem all_lt_trans {α : Type} {a b : Nat} (h : a < b) (l : List (Nat × α))
    (hl : l.all (fun p => decide (b < p.1)) = true) : l.all (fun p => decide (a < p.1)) = true := by
  simp only [List.all_eq_true, decide_eq_true_eq] at *
  exact fun p hp => Nat.lt_trans h (hl p hp)

theorem mem_sset {α : Type} [DecidableEq α] (d : α) (m : List (Nat × α)) (k : Nat) (v : α) (p : Nat × α)
    (h : p ∈ sset d m k v) : p = (k, v) ∨ p ∈ m := by
  induction m with
  | nil => unfold sset at h; split at h <;> simp_all
  | cons e r ih =>
    unfold sset at h
    split at h
    · split at h
      · exact .inr h
      · simpa using h
    · split at h
      · split at h
        · exact .inr (List.mem_cons_of_mem _ h)
        · rcases List.mem_cons.1 h with h | h
          · exact .inl h
          · exact .inr (List.mem_cons_of_mem _ h)
      · rcases List.mem_cons.1 h with h | h
        · exact .inr (h ▸ List.mem_cons_self)
        · exact (ih h).imp id (List.mem_cons_of_mem _)

theorem sset_all {α : Type} [DecidableEq α] (d : α) (m : List (Nat × α)) (k : Nat) (v : α) (a : Nat) (ha : a < k)
    (h : m.all (fun p => decide (a < p.1)) = true) : (sset d m k v).all (fun p => decide (a < p.1)) = true := by
  simp only [List.all_eq_true, decide_eq_true_eq] at *
  intro p hp
  rcases mem_sset d m k v p hp with rfl | hp
  · exact ha
  · exact h p hp

theorem sset_wf {α : Type} [DecidableEq α] (d : α) (m : List (Nat × α)) (k : Nat) (v : α) (h : swf d m = true) :
    swf d (sset d m k v) = true := by
  induction m with
  | nil => by_cases hv : v = d <;> simp [sset, swf, hv]
  | cons e r ih =>
    obtain ⟨k', v'⟩ := e
    simp only [swf, Bool.and_eq_true] at h
    obtain ⟨⟨h1, h2⟩, h3⟩ := h
    unfold sset
    split
    · rename_i hk
      split
      · simp [swf, h1, h2, h3]
      · rename_i hv
        simp only [swf, Bool.and_eq_true, h1, h2, h3, and_true, bne_iff_ne, ne_eq, hv, not_false_eq_true, true_and, List.all_cons, decide_eq_true_eq, hk]
        exact all_lt_trans hk r h2
    · rename_i hk
      split
      · rename_i he
        split
        · exact h3
        · rename_i hv; subst he
          simp [swf, hv, h2, h3]
      · rename_i he
        simp only [swf, Bool.and_eq_true, h1, true_and]
        exact ⟨sset_all d r k v k' (by omega) h2, ih h3⟩

theorem skeep_all {α : Type} (p : Nat → Bool) (m : List (Nat × α)) (a : Nat)
    (h : m.all (fun e => decide (a < e.1)) = true) : (skeep p m).all (fun e => decide (a < e.1)) = true := by
  simp only [skeep, List.all_eq_true, List.mem_filter] at *
  exact fun x hx => h x hx.1

theorem skeep_wf {α : Type} [DecidableEq α] (d : α) (p : Nat → Bool) (m : List (Nat × α)) (h : swf d m = true) :
    swf d (skeep p m) = true := by
  induction m with
  | nil => rfl
  | cons e r ih =>
    obtain ⟨k, v⟩ := e
    simp only [swf, Bool.and_eq_true] at h
    obtain ⟨⟨h1, h2⟩, h3⟩ := h
    by_cases hp : p k = true
    · have : skeep p ((k, v) :: r) = (k, v) :: skeep p r := by simp [skeep, hp]
      rw [this]; simp only [swf, Bool.and_eq_true]
      exact ⟨⟨h1, skeep_all p r k h2⟩, ih h3⟩
    · have : skeep p ((k, v) :: r) = skeep p r := by simp [skeep, hp]
      rw [this]; exact ih h3

theorem wrB_wf (m : Mem) (a : Nat) (b : Byte) (h : Memory.wf 0 m = true) : Memory.wf 0 (wrB m a b) = true := sset_wf 0 m a b h

theorem wrW_wf (m : Mem) (a : Nat) (w : Word) (h : Memory.wf 0 m = true) : Memory.wf 0 (wrW m a w) = true :=
  wrB_wf _ _ _ (wrB_wf _ _ _ (wrB_wf _ _ _ (wrB_wf _ _ _ h)))

theorem zeroMem_wf (m : Mem) (a n : Nat) (h : Memory.wf 0 m = true) : Memory.wf 0 (zeroMem m a n) = true := skeep_wf 0 _ m h

theorem zeroWords_wf (m : Mem) (l : List Nat) (h : Memory.wf 0 m = true) : Memory.wf 0 (zeroWords m l) = true := by
  induction l generalizing m with
  | nil => exact h
  | cons a l ih => exact ih _ (wrW_wf _ _ _ h)

theorem progFlash_wf (m : Mem) (a : Nat) (b : Byte) (h : Memory.wf 0xFF m = true) : Memory.wf 0xFF (progFlash m a b) = true :=
  sset_wf _ m a _ h

theorem progFlashs_wf (m : Mem) (a : Nat) (l : List Byte) (h : Memory.wf 0xFF m = true) :
    Memory.wf 0xFF (progFlashs m a l) = true := by
  induction l generalizing m a with
  | nil => exact h
  | cons b l ih => exact ih _ _ (progFlash_wf _ _ _ h)

theorem eraseFlash_wf (m : Mem) (a n : Nat) (h : Memory.wf 0xFF m = true) : Memory.wf 0xFF (eraseFlash m a n) = true :=
  skeep_wf _ _ m h

end Sys2Proof.Machine
end

