-- ==== Sys2Proof/Laws/Keep.lean ====
section
/-! SUPPORT. What every command keeps (Keeps): that it is reflexive, how folds and record updates keep it, and the
small facts about vectors, refusals and power states that its proofs use. The files Laws/Keep<part>.lean have one lemma
for each operation of Machine/<part>.lean: f_keeps for an operation on states, x_goes for the meaning of a command. -/

namespace Sys2Proof.Machine

theorem Keeps.refl (s : State) : Keeps s s := ⟨rfl, Nat.le_refl _, fun _ h => h, id, id, id, id, id, id, id, fun _ _ h => h, id, id⟩

theorem goes_next {s0 t : State} (h : Keeps s0 t) : Goes s0 (.next t) := ⟨t, rfl, h⟩

theorem keeps_foldl {s0 : State} {α : Type} (g : State → α → State) (l : List α) (s : State)
    (hg : ∀ s a, Keeps s0 s → Keeps s0 (g s a)) (h : Keeps s0 s) : Keeps s0 (l.foldl g s) := by
  induction l generalizing s with
  | nil => exact h
  | cons a l ih => exact ih _ (hg _ _ h)

theorem keeps_foldl2 {s0 : State} {α β : Type} (g : β × State → α → β × State) (l : List α) (p : β × State)
    (hg : ∀ p a, Keeps s0 p.2 → Keeps s0 (g p a).2) (h : Keeps s0 p.2) : Keeps s0 (l.foldl g p).2 := by
  induction l generalizing p with
  | nil => exact h
  | cons a l ih => exact ih _ (hg _ _ h)

theorem partsOk_sset {e : Events} {n src : Nat} (v : Nat) (hs : src < 32) (hn : sharedEvt n = true) (h : PartsOk e)
    (acc : Vector Nat 64) (det : Vector Word 64) :
    PartsOk { e with acc := acc, detail := det, parts := sset 0 e.parts (32 * n + src) v } := by
  intro p hp
  rcases mem_sset _ _ _ _ _ hp with hp | hp
  · rw [hp, Nat.mul_add_div (by decide), Nat.div_eq_of_lt hs]
    exact hn
  · exact h p hp

/-- The state with its events replaced, where the ring's head and tail stay and no share comes that was not there. -/
theorem keeps_evt {s0 s : State} (e : Events) (ht : e.tail = s.evt.tail) (hd : e.head = s.evt.head)
    (hp : PartsOk s.evt → PartsOk e) (h : Keeps s0 s) : Keeps s0 { s with evt := e } :=
  ⟨h.queue, h.life, h.revoked, h.ram, h.store, h.flash, h.log, h.vers, fun hs => ht ▸ h.tail hs, fun hs => hd ▸ h.head hs,
    h.keys, h.safe, fun hs => hp (h.parts hs)⟩

theorem keeps_pow {s0 t : State}
    {fresh pow flt keeper hearth scan evt host mbx ram ianik hive bel stove rx tx grps hw dmpr care p0 boot}
    (hl : pow.lc = t.pow.lc) (hp : SafeHeld t.pow → SafeHeld pow)
    (e : (ram, mbx, hive.store, p0.mem, flt.log, evt.tail, evt.head, evt.parts, boot.fuses.revoked, boot.fuses.keys) =
      (t.ram, t.mbx, t.hive.store, t.p0.mem, t.flt.log, t.evt.tail, t.evt.head, t.evt.parts, t.boot.fuses.revoked,
        t.boot.fuses.keys))
    (h : Keeps s0 t) :
    Keeps s0 (State.mk t.pending fresh pow flt keeper hearth scan evt host mbx ram ianik hive bel stove rx tx grps hw
      dmpr care p0 boot) := by
  simp only [Prod.mk.injEq] at e
  obtain ⟨e1, e2, e3, e4, e5, e6, e7, ep, e8, e9⟩ := e
  constructor <;> simp only [hl, e1, e2, e3, e4, e5, e6, e7, e8, e9, PartsOk, ep]
  · exact h.queue
  · exact h.life
  · exact h.revoked
  · exact h.ram
  · exact h.store
  · exact h.flash
  · exact h.log
  · exact h.vers
  · exact h.tail
  · exact h.head
  · exact h.keys
  · exact fun hs => hp (h.safe hs)
  · exact h.parts

theorem keeps_mk {s0 t : State}
    {fresh flt keeper hearth scan evt host mbx ram ianik hive bel stove rx tx grps hw dmpr care p0 boot}
    (e : (ram, mbx, hive.store, p0.mem, flt.log, evt.tail, evt.head, evt.parts, boot.fuses.revoked, boot.fuses.keys) =
      (t.ram, t.mbx, t.hive.store, t.p0.mem, t.flt.log, t.evt.tail, t.evt.head, t.evt.parts, t.boot.fuses.revoked,
        t.boot.fuses.keys))
    (h : Keeps s0 t) :
    Keeps s0 (State.mk t.pending fresh t.pow flt keeper hearth scan evt host mbx ram ianik hive bel stove rx tx grps hw
      dmpr care p0 boot) :=
  keeps_pow rfl id e h

theorem vmod_get {α : Type} {n : Nat} (P : α → Prop) (v : Vector α n) (i : Fin n) (f : α → α) (hf : ∀ x, P x → P (f x))
    (h : ∀ j : Fin n, P v[j]) (j : Fin n) : P (vmod v i f)[j] := by
  simp only [vmod, Fin.getElem_fin, Vector.getElem_set]
  split
  · exact hf _ (h i)
  · exact h j

theorem vmodN_get {α : Type} {n : Nat} (P : α → Prop) (v : Vector α n) (i : Nat) (f : α → α) (hf : ∀ x, P x → P (f x))
    (h : ∀ j : Fin n, P v[j]) (j : Fin n) : P (vmodN v i f)[j] := by
  unfold vmodN
  split
  · rename_i hi
    simp only [Fin.getElem_fin, Vector.getElem_set]
    split
    · exact hf _ (h ⟨i, hi⟩)
    · exact h j
  · exact h j

theorem vmap_get {α : Type} {n : Nat} (P : α → Prop) (v : Vector α n) (f : Fin n → α → α) (hf : ∀ i x, P x → P (f i x))
    (h : ∀ j : Fin n, P v[j]) (j : Fin n) : P (vmap v f)[j] := by
  simp only [vmap, Fin.getElem_fin, Vector.getElem_ofFn]
  exact hf _ _ (h j)

theorem map_get {α : Type} {n : Nat} (P : α → Prop) (v : Vector α n) (f : α → α) (hf : ∀ x, P x → P (f x))
    (h : ∀ j : Fin n, P v[j]) (j : Fin n) : P (v.map f)[j] := by
  simp only [Fin.getElem_fin, Vector.getElem_map]
  exact hf _ (h j)

theorem keeps_mbx {s0 : State} (s : State) (f : Fin 4 → Mbx → Mbx) (hf : ∀ i b, VersionOk b → VersionOk (f i b))
    (h : Keeps s0 s) : Keeps s0 { s with mbx := vmap s.mbx f } :=
  ⟨h.queue, h.life, h.revoked, h.ram, h.store, h.flash, h.log, fun hv => vmap_get VersionOk _ _ hf (h.vers hv), h.tail,
    h.head, h.keys, h.safe, h.parts⟩

theorem refusal_none {d : CmdDef} {m : Fin 4} {r : Req} {s : State} (h : refusal d m r s = none) :
    d.bad r s = false ∧ d.wrong m r s = false := by
  unfold refusal at h
  repeat (split at h; · cases h)
  simp_all

theorem safeHeld_rst (p : PowerSt) (c : BitVec 4) (h : SafeHeld p) : SafeHeld { p with ianikRst := true, rstLast := c } :=
  fun hs => ⟨rfl, (h hs).2⟩

theorem safeHeld_hive (p : PowerSt) (h : SafeHeld p) : SafeHeld { p with seqHive := false } :=
  fun hs => ⟨(h hs).1, rfl, (h hs).2.2⟩

theorem safeHeld_bel (p : PowerSt) (h : SafeHeld p) : SafeHeld { p with seqBel := false } :=
  fun hs => ⟨(h hs).1, (h hs).2.1, rfl, (h hs).2.2.2⟩

theorem safeHeld_hw (p : PowerSt) (x : Fin 2) (h : SafeHeld p) : SafeHeld { p with seqHw := p.seqHw.set x false } :=
  fun hs => ⟨(h hs).1, (h hs).2.1, (h hs).2.2.1, by
    have := (h hs).2.2.2
    match x with
    | 0 => simp [this]
    | 1 => simp [this]⟩

theorem vers_reset (m : Fin 4) : VersionOk (Vector.replicate 4 ({} : Mbx))[m] := by simp [VersionOk]

end Sys2Proof.Machine
end

