-- ==== Sys2Proof/Laws/KeepOps.lean ====
section
/-! SUPPORT. What every operation of Machine/Ops.lean keeps. -/

namespace Sys2Proof.Machine

theorem drawLong_keeps {s0 : State} (s : State) (h : Keeps s0 s) :
    Keeps s0 (drawLong s).2 := by
  exact keeps_mk rfl h

theorem drawWord_keeps {s0 : State} (s : State) (h : Keeps s0 s) :
    Keeps s0 (drawWord s).2 := by
  exact keeps_mk rfl h

theorem raise_keeps {s0 : State} (n : Nat) (d : Word) (s : State) (h : Keeps s0 s) :
    Keeps s0 (raise n d s) := by
  exact keeps_mk rfl h

theorem raiseFrom_keeps {s0 : State} (src n : Nat) (d : Word) (s : State) (hs : src < 32) (hn : sharedEvt n = true)
    (h : Keeps s0 s) : Keeps s0 (raiseFrom src n d s) :=
  keeps_evt (s := s) _ rfl rfl (fun hp => partsOk_sset _ hs hn hp _ _) h

theorem raiseIf_keeps {s0 : State} (c : Bool) (n : Nat) (d : Word) (s : State) (h : Keeps s0 s) :
    Keeps s0 (raiseIf c n d s) := by
  unfold raiseIf
  repeat (first
      | with_reducible assumption | (with_reducible refine raise_keeps (h := ?_) ..) | split | dsimp only)

theorem raiseMask_keeps {s0 : State} (n : Nat) (d : Word) (s : State) (h : Keeps s0 s) :
    Keeps s0 (raiseMask n d s) := by
  refine keeps_foldl _ _ _ (fun s k h => ?_) h
  repeat (first
      | with_reducible assumption | (with_reducible refine raise_keeps (h := ?_) ..) | split | dsimp only | (intro _ _ _))

theorem dropEvts_keeps {s0 : State} (src : Nat) (own : List Nat) (s : State) (h : Keeps s0 s) :
    Keeps s0 (dropEvts src own s) :=
  keeps_evt _ rfl rfl (fun hp p hm => hp p (List.mem_filter.1 hm).1) h

theorem logFault_keeps {s0 : State} (x1 : Nat) (x2 : BitVec 16) (x3 : State) (h : Keeps s0 x3) : Keeps s0 (logFault x1 x2 x3) :=
  ⟨h.queue, h.life, h.revoked, h.ram, h.store, h.flash, fun _ => List.length_take_le _ _, h.vers, h.tail, h.head, h.keys, h.safe, h.parts⟩

theorem stage_keeps {s0 : State} (m : Nat) (t : BitVec 16) (e : Nat) (c : Change) (s : State) (h : Keeps s0 s) :
    Keeps s0 (stage m t e c s) := by
  exact keeps_mk rfl h

theorem stageOwn_keeps {s0 : State} (e : Nat) (c : Change) (s : State) (h : Keeps s0 s) :
    Keeps s0 (stageOwn e c s) := by
  unfold stageOwn
  repeat (first
      | with_reducible assumption | (with_reducible refine stage_keeps (h := ?_) ..) | split | dsimp only)

theorem shakesDone_keeps {s0 : State} (s : State) (h : Keeps s0 s) :
    Keeps s0 (shakesDone s) := by
  exact keeps_mk rfl h

theorem shakesIdle_keeps {s0 : State} (s : State) (h : Keeps s0 s) : Keeps s0 (shakesIdle s) := by
  have hd := drawLong_keeps s h
  unfold shakesIdle
  generalize drawLong s = p at hd
  exact keeps_mk rfl hd

theorem unstage_keeps {s0 : State} (p : Stamped → Bool) (s : State) (h : Keeps s0 s) :
    Keeps s0 (unstage p s) := by
  exact keeps_mk rfl h

theorem defer_keeps {s0 : State} (op : Nat) (m : Nat) (tag : BitVec 16) (bulk : Option (Nat × Nat)) (s : State) (h : Keeps s0 s) :
    Keeps s0 (defer op m tag bulk s) := by
  exact keeps_mk rfl h

theorem complete_keeps {s0 : State} (op : Nat) (m : Nat) (tag : BitVec 16) (status : Byte) (payload : List Word) (s : State) (h : Keeps s0 s) :
    Keeps s0 (complete op m tag status payload s) := by
  unfold complete
  repeat (first
      | with_reducible assumption | split | dsimp only | ((with_reducible refine keeps_mk ?_ ?_); rfl))

theorem idleNext_goes {s0 : State} (s : State) (h : Keeps s0 s) :
    Goes s0 (idleNext s) := by
  unfold idleNext
  repeat (first
      | with_reducible assumption | (with_reducible refine goes_next ?_) | split | dsimp only)

end Sys2Proof.Machine
end

