-- ==== Sys2Proof/Laws/KeepEcc.lean ====
section
/-! SUPPORT. What every operation of Machine/Ecc.lean keeps. -/

namespace Sys2Proof.Machine

theorem healWord_keeps {s0 : State} (w : WordAt) (s : State) (h : Keeps s0 s) :
    Keeps s0 (healWord w s) := by
  exact keeps_mk rfl h

theorem countCorr_keeps {s0 : State} (c : MemClass) (s : State) (h : Keeps s0 s) :
    Keeps s0 (countCorr c s) := by
  exact keeps_mk rfl h

theorem countUnc_keeps {s0 : State} (w : WordAt) (syndrome : BitVec 7) (patrol : Bool) (s : State) (h : Keeps s0 s) :
    Keeps s0 (countUnc w syndrome patrol s) :=
  raiseFrom_keeps _ _ _ _ (by cases w.cls <;> decide) rfl (keeps_mk rfl h)

theorem checkWord_keeps {s0 : State} (w : WordAt) (s : State) (h : Keeps s0 s) :
    Keeps s0 (checkWord w s).2 := by
  unfold checkWord
  repeat (first
      | with_reducible assumption | (with_reducible refine countUnc_keeps (h := ?_) ..)
      | (with_reducible refine countCorr_keeps (h := ?_) ..) | split | dsimp only)

theorem patrolWord_keeps {s0 : State} (w : WordAt) (s : State) (h : Keeps s0 s) :
    Keeps s0 (patrolWord w s).2 := by
  unfold patrolWord
  repeat (first
      | with_reducible assumption | (with_reducible refine countCorr_keeps (h := ?_) ..)
      | (with_reducible refine countUnc_keeps (h := ?_) ..) | (with_reducible refine healWord_keeps (h := ?_) ..)
      | (with_reducible refine raise_keeps (h := ?_) ..) | split | dsimp only
      | ((with_reducible refine keeps_mk ?_ ?_); rfl))

theorem strike_keeps {s0 : State} (ups : List Upset) (s : State) (h : Keeps s0 s) :
    Keeps s0 (strike ups s) := by
  unfold strike
  repeat (first
      | with_reducible assumption | (with_reducible refine healWord_keeps (h := ?_) ..)
      | (with_reducible refine keeps_foldl _ _ _ ?_ ?_) | split | dsimp only | (intro _ _ _)
      | ((with_reducible refine keeps_mk ?_ ?_); rfl))

theorem modCell_keeps {s0 : State} (c : Fin 32) (f : Cell → Cell) (s : State) (h : Keeps s0 s) :
    Keeps s0 (modCell c f s) := by
  exact keeps_mk rfl h

theorem forget_keeps {s0 : State} (p : WordAt → Bool) (s : State) (h : Keeps s0 s) :
    Keeps s0 (forget p s) := by
  exact keeps_mk rfl h

theorem clearData_keeps {s0 : State} (c : Fin 32) (s : State) (h : Keeps s0 s) :
    Keeps s0 (clearData c s) := by
  unfold clearData
  repeat (first
      | with_reducible assumption | (with_reducible refine forget_keeps (h := ?_) ..)
      | (with_reducible refine modCell_keeps (h := ?_) ..) | split | dsimp only)

theorem cellFault_keeps {s0 : State} (c : Fin 32) (b : Nat) (pc : Nat) (s : State) (h : Keeps s0 s) :
    Keeps s0 (cellFault c b pc s) := by
  unfold cellFault
  repeat (first
      | with_reducible assumption | (with_reducible refine raise_keeps (h := ?_) ..)
      | (with_reducible refine modCell_keeps (h := ?_) ..) | split | dsimp only)

theorem cellWaggle_keeps {s0 : State} (c : Fin 32) (s : State) (h : Keeps s0 s) :
    Keeps s0 (cellWaggle c s) := by
  unfold cellWaggle
  repeat (first
      | with_reducible assumption | (with_reducible refine raise_keeps (h := ?_) ..)
      | (with_reducible refine modCell_keeps (h := ?_) ..) | split | dsimp only)

theorem rdData_keeps {s0 : State} (c : Fin 32) (pc : Nat) (a : Nat) (s : State) (h : Keeps s0 s) :
    Keeps s0 (rdData c pc a s).2 := by
  simp only [rdData]
  repeat (first
      | with_reducible assumption | (with_reducible refine checkWord_keeps (h := ?_) ..)
      | (with_reducible refine cellFault_keeps (h := ?_) ..) | split | dsimp only)

theorem healWords_keeps {s0 : State} (mk : Nat → WordAt) (x2 : List Nat) (x3 : State) (h : Keeps s0 x3) :
    Keeps s0 (healWords mk x2 x3) := by
  induction x2 generalizing mk x3 with
    | nil => (unfold healWords; repeat (first
      | with_reducible assumption | (with_reducible refine healWord_keeps (h := ?_) ..)
      | (with_reducible refine keeps_foldl _ _ _ ?_ ?_) | split | dsimp only | (intro _ _ _)
      | ((with_reducible refine keeps_mk ?_ ?_); rfl)))
    | cons y ys ih => (unfold healWords; repeat (first
      | with_reducible assumption | (with_reducible refine ih (h := ?_) ..)
      | (with_reducible refine healWord_keeps (h := ?_) ..) | (with_reducible refine keeps_foldl _ _ _ ?_ ?_)
      | split | dsimp only | (intro _ _ _) | ((with_reducible refine keeps_mk ?_ ?_); rfl)))

theorem wrData_keeps {s0 : State} (c : Fin 32) (a : Nat) (x3 : F32) (s : State) (h : Keeps s0 s) :
    Keeps s0 (wrData c a x3 s) := by
  unfold wrData
  repeat (first
      | with_reducible assumption | (with_reducible refine healWords_keeps (h := ?_) ..)
      | (with_reducible refine healWord_keeps (h := ?_) ..) | (with_reducible refine modCell_keeps (h := ?_) ..)
      | split | dsimp only)

theorem rdCoef_keeps {s0 : State} (c : Fin 32) (pc : Nat) (a : Nat) (s : State) (h : Keeps s0 s) :
    Keeps s0 (rdCoef c pc a s).2 := by
  unfold rdCoef
  repeat (first
      | with_reducible assumption | (with_reducible refine checkWord_keeps (h := ?_) ..)
      | (with_reducible refine cellFault_keeps (h := ?_) ..) | split | dsimp only)

theorem wrCoef_keeps {s0 : State} (c : Fin 32) (b : Fin 2) (a : Nat) (x4 : Word) (s : State) (h : Keeps s0 s) :
    Keeps s0 (wrCoef c b a x4 s) := by
  unfold wrCoef
  repeat (first
      | with_reducible assumption | (with_reducible refine modCell_keeps (h := ?_) ..)
      | (with_reducible refine healWord_keeps (h := ?_) ..) | split | dsimp only)

theorem wrCoefs_keeps {s0 : State} (c : Fin 32) (b : Fin 2) (a : Nat) (x4 : List Word) (x5 : State) (h : Keeps s0 x5) :
    Keeps s0 (wrCoefs c b a x4 x5) := by
  induction x4 generalizing c b a x5 with
    | nil => (unfold wrCoefs; repeat (first
      | with_reducible assumption | (with_reducible refine wrCoef_keeps (h := ?_) ..)
      | (with_reducible refine keeps_foldl _ _ _ ?_ ?_) | split | dsimp only | (intro _ _ _)
      | ((with_reducible refine keeps_mk ?_ ?_); rfl)))
    | cons y ys ih => (unfold wrCoefs; repeat (first
      | with_reducible assumption | (with_reducible refine ih (h := ?_) ..)
      | (with_reducible refine wrCoef_keeps (h := ?_) ..) | (with_reducible refine keeps_foldl _ _ _ ?_ ?_) | split
      | dsimp only | (intro _ _ _) | ((with_reducible refine keeps_mk ?_ ?_); rfl)))

theorem wrProgs_keeps {s0 : State} (c : Fin 32) (b : Fin 2) (a : Nat) (x4 : List Word) (x5 : State) (h : Keeps s0 x5) :
    Keeps s0 (wrProgs c b a x4 x5) := by
  induction x4 generalizing c b a x5 with
    | nil => (unfold wrProgs; repeat (first
      | with_reducible assumption | (with_reducible refine modCell_keeps (h := ?_) ..)
      | (with_reducible refine healWord_keeps (h := ?_) ..) | (with_reducible refine keeps_foldl _ _ _ ?_ ?_)
      | split | dsimp only | (intro _ _ _) | ((with_reducible refine keeps_mk ?_ ?_); rfl)))
    | cons y ys ih => (unfold wrProgs; repeat (first
      | with_reducible assumption | (with_reducible refine ih (h := ?_) ..)
      | (with_reducible refine modCell_keeps (h := ?_) ..) | (with_reducible refine healWord_keeps (h := ?_) ..)
      | (with_reducible refine keeps_foldl _ _ _ ?_ ?_) | split | dsimp only | (intro _ _ _)
      | ((with_reducible refine keeps_mk ?_ ?_); rfl)))

theorem rdStore_keeps {s0 : State} (a : Nat) (s : State) (h : Keeps s0 s) :
    Keeps s0 (rdStore a s).2.2 := by
  simp only [rdStore]
  repeat (first
      | with_reducible assumption | (with_reducible refine checkWord_keeps (h := ?_) ..) | split | dsimp only)

theorem wrStore_keeps {s0 : State} (x1 : Nat) (x2 : Word) (x3 : State) (h : Keeps s0 x3) : Keeps s0 (wrStore x1 x2 x3) := by
  have hm (s : State) (m : Mem) (w : List Nat) (hw : Memory.wf 0 s.hive.store = true → Memory.wf 0 m = true) (hs : Keeps s0 s) :
      Keeps s0 { s with hive := { s.hive with store := m, storeWritten := w } } :=
    ⟨hs.queue, hs.life, hs.revoked, hs.ram, fun ht => hw (hs.store ht), hs.flash, hs.log, hs.vers, hs.tail, hs.head, hs.keys, hs.safe, hs.parts⟩
  unfold wrStore
  refine hm _ _ _ (fun ht => wrW_wf _ _ _ ?_) ?_
  · split
    · rename_i hc; rw [if_pos hc] at ht; exact zeroWords_wf _ _ ht
    · rename_i hc; rw [if_neg hc] at ht; exact ht
  · split
    · exact healWords_keeps _ _ _ h
    · exact healWord_keeps _ _ h

theorem offAccess_keeps {s0 : State} (s : State) (h : Keeps s0 s) :
    Keeps s0 (offAccess s) := by
  exact keeps_mk rfl h

theorem patrolStore_keeps {s0 : State} (a : Nat) (s : State) (h : Keeps s0 s) :
    Keeps s0 (patrolStore a s).2 := by
  simp only [patrolStore]
  repeat (first
      | with_reducible assumption | (with_reducible refine patrolWord_keeps (h := ?_) ..)
      | (with_reducible refine wrStore_keeps (h := ?_) ..) | split | dsimp only)

theorem freePerform_keeps {s0 : State} (w : FreeAcc) (s : State) (h : Keeps s0 s) :
    Keeps s0 (freePerform w s).2 := by
  unfold freePerform
  repeat (first
      | with_reducible assumption | (with_reducible refine patrolStore_keeps (h := ?_) ..) | (with_reducible refine offAccess_keeps (h := ?_) ..)
      | (with_reducible refine wrStore_keeps (h := ?_) ..) | (with_reducible refine rdStore_keeps (h := ?_) ..)
      | split | dsimp only | ((with_reducible refine keeps_mk ?_ ?_); rfl))

theorem freeCycle_keeps {s0 : State} (s : State) (h : Keeps s0 s) : Keeps s0 (freeCycle s).2 := by
  have hf (l : List FreeAcc) : Keeps s0 (l.foldl (fun (p : List (FreeAcc × Word) × State) w =>
      let (x, s) := freePerform w p.2
      (p.1 ++ [(w, x)], s)) ([], s)).2 :=
    keeps_foldl2 _ _ _ (fun p a hp => freePerform_keeps a p.2 hp) h
  exact keeps_mk rfl (hf _)

theorem freeRun_keeps {s0 : State} (w : FreeAcc) (n : Nat) (s : State) (h : Keeps s0 s) : Keeps s0 (freeRun w n s).2 := by
  induction n generalizing s with
  | zero => exact h
  | succ n ih =>
    unfold freeRun
    dsimp only
    split
    · exact freeCycle_keeps s h
    · exact ih _ (freeCycle_keeps s h)

theorem freeStall_keeps {s0 : State} (m : Master) (b : Nat) (x1 : Nat) (x2 : State) (h : Keeps s0 x2) :
    Keeps s0 (freeStall m b x1 x2) := by
  induction x1 generalizing m b x2 with
  | zero =>
    unfold freeStall
    repeat (first
      | with_reducible assumption | (with_reducible refine freeCycle_keeps (h := ?_) ..) | split | dsimp only)
  | succ k ih =>
    unfold freeStall
    repeat (first
      | with_reducible assumption | (with_reducible refine ih (h := ?_) ..)
      | (with_reducible refine freeCycle_keeps (h := ?_) ..) | split | dsimp only)

theorem freeJoin_keeps {s0 : State} (w : FreeAcc) (s : State) (h : Keeps s0 s) :
    Keeps s0 (freeJoin w s) := by
  unfold freeJoin
  repeat (first
      | with_reducible assumption | (with_reducible refine freeStall_keeps (h := ?_) ..) | split | dsimp only
      | ((with_reducible refine keeps_mk ?_ ?_); rfl))

theorem freeFlush_keeps {s0 : State}  (x1 : Nat) (x2 : State) (h : Keeps s0 x2) :
    Keeps s0 (freeFlush x1 x2) := by
  induction x1 generalizing x2 with
  | zero =>
    unfold freeFlush
    repeat (first
      | with_reducible assumption | (with_reducible refine freeCycle_keeps (h := ?_) ..) | split | dsimp only)
  | succ k ih =>
    unfold freeFlush
    repeat (first
      | with_reducible assumption | (with_reducible refine ih (h := ?_) ..)
      | (with_reducible refine freeCycle_keeps (h := ?_) ..) | split | dsimp only)

theorem rdStoreX_keeps {s0 : State} (m : Master) (a : Nat) (s : State) (h : Keeps s0 s) :
    Keeps s0 (rdStoreX m a s).2 := by
  unfold rdStoreX
  repeat (first
      | with_reducible assumption | (with_reducible refine freeJoin_keeps (h := ?_) ..) | (with_reducible refine freeRun_keeps (h := ?_) ..) | split | dsimp only)

theorem wrStoreX_keeps {s0 : State} (m : Master) (a : Nat) (x3 : Word) (s : State) (h : Keeps s0 s) :
    Keeps s0 (wrStoreX m a x3 s) := by
  unfold wrStoreX
  repeat (first
      | with_reducible assumption | (with_reducible refine freeJoin_keeps (h := ?_) ..) | split | dsimp only)

theorem wrStoresX_keeps {s0 : State} (m : Master) (a : Nat) (x3 : List Word) (x4 : State) (h : Keeps s0 x4) :
    Keeps s0 (wrStoresX m a x3 x4) := by
  induction x3 generalizing m a x4 with
    | nil => (unfold wrStoresX; repeat (first
      | with_reducible assumption | (with_reducible refine wrStoreX_keeps (h := ?_) ..)
      | (with_reducible refine keeps_foldl _ _ _ ?_ ?_) | split | dsimp only | (intro _ _ _)
      | ((with_reducible refine keeps_mk ?_ ?_); rfl)))
    | cons y ys ih => (unfold wrStoresX; repeat (first
      | with_reducible assumption | (with_reducible refine ih (h := ?_) ..)
      | (with_reducible refine wrStoreX_keeps (h := ?_) ..) | (with_reducible refine keeps_foldl _ _ _ ?_ ?_)
      | split | dsimp only | (intro _ _ _) | ((with_reducible refine keeps_mk ?_ ?_); rfl)))

theorem rdStoresX_keeps {s0 : State} (m : Master) (a : Nat) (x3 : Nat) (x4 : State) (h : Keeps s0 x4) :
    Keeps s0 (rdStoresX m a x3 x4).2 := by
  induction x3 generalizing m a x4 with
    | zero => (unfold rdStoresX; repeat (first
      | with_reducible assumption | (with_reducible refine rdStoreX_keeps (h := ?_) ..)
      | (with_reducible refine keeps_foldl _ _ _ ?_ ?_) | split | dsimp only | (intro _ _ _)
      | ((with_reducible refine keeps_mk ?_ ?_); rfl)))
    | succ k ih => (unfold rdStoresX; repeat (first
      | with_reducible assumption | (with_reducible refine ih (h := ?_) ..)
      | (with_reducible refine rdStoreX_keeps (h := ?_) ..) | (with_reducible refine keeps_foldl _ _ _ ?_ ?_)
      | split | dsimp only | (intro _ _ _) | ((with_reducible refine keeps_mk ?_ ?_); rfl)))

end Sys2Proof.Machine
end

