-- ==== Sys2Proof/Laws/KeepCellExec.lean ====
section
/-! SUPPORT. What every operation of Machine/CellExec.lean keeps. -/

namespace Sys2Proof.Machine

theorem rdSpace_keeps {s0 : State} (c : Fin 32) (pc : Nat) (space : Nat) (a : Nat) (s : State) (h : Keeps s0 s) :
    Keeps s0 (rdSpace c pc space a s).2 := by
  unfold rdSpace
  repeat (first
      | with_reducible assumption | (with_reducible refine rdData_keeps (h := ?_) ..)
      | (with_reducible refine rdCoef_keeps (h := ?_) ..) | split | dsimp only)

theorem rdLanes_keeps {s0 : State} (c : Fin 32) (pc : Nat) (space : Nat) (addr : Nat → Nat) (x5 : List Nat) (x6 : State) (h : Keeps s0 x6) :
    Keeps s0 (rdLanes c pc space addr x5 x6).2 := by
  induction x5 generalizing c pc space addr x6 with
    | nil => (unfold rdLanes; repeat (first
      | with_reducible assumption | (with_reducible refine rdSpace_keeps (h := ?_) ..)
      | (with_reducible refine keeps_foldl _ _ _ ?_ ?_) | split | dsimp only | (intro _ _ _)
      | ((with_reducible refine keeps_mk ?_ ?_); rfl)))
    | cons y ys ih => (unfold rdLanes; repeat (first
      | with_reducible assumption | (with_reducible refine ih (h := ?_) ..)
      | (with_reducible refine rdSpace_keeps (h := ?_) ..) | (with_reducible refine keeps_foldl _ _ _ ?_ ?_) | split
      | dsimp only | (intro _ _ _) | ((with_reducible refine keeps_mk ?_ ?_); rfl)))

theorem storeIssue_keeps {s0 : State} (c : Fin 32) (phi : Nat) (i : Nat) (pc : Nat) (load : Bool) (reg : Nat) (lanes : List Nat) (a : Nat) (x9 : F32) (s : State) (h : Keeps s0 s) :
    Keeps s0 (storeIssue c phi i pc load reg lanes a x9 s) := by
  unfold storeIssue
  repeat (first
      | with_reducible assumption | (with_reducible refine cellWaggle_keeps (h := ?_) ..)
      | (with_reducible refine modCell_keeps (h := ?_) ..) | split | dsimp only)

theorem storePerform_keeps {s0 : State} (c : Fin 32) (w : StoreWait) (s : State) (h : Keeps s0 s) :
    Keeps s0 (storePerform c w s) := by
  unfold storePerform
  repeat (first
      | with_reducible assumption | (with_reducible refine modCell_keeps (h := ?_) ..)
      | (with_reducible refine rdStore_keeps (h := ?_) ..) | (with_reducible refine cellFault_keeps (h := ?_) ..)
      | (with_reducible refine wrStore_keeps (h := ?_) ..) | split | dsimp only)

theorem performTurn_keeps {s0 : State} (c : Fin 32) (i : Nat) (s : State) (h : Keeps s0 s) :
    Keeps s0 (performTurn c i s) := by
  unfold performTurn
  repeat (first
      | with_reducible assumption | (with_reducible refine storePerform_keeps (h := ?_) ..)
      | (with_reducible refine keeps_foldl _ _ _ ?_ ?_) | split | dsimp only | (intro _ _ _))

theorem storeLanes_keeps {s0 : State} (c : Fin 32) (phi : Nat) (i : Nat) (pc : Nat) (space : Nat) (x6 : List (Nat × F32)) (x7 : State) (h : Keeps s0 x7) :
    Keeps s0 (storeLanes c phi i pc space x6 x7) := by
  induction x6 generalizing c phi i pc space x7 with
    | nil => (unfold storeLanes; repeat (first
      | with_reducible assumption | (with_reducible refine wrData_keeps (h := ?_) ..)
      | (with_reducible refine storeIssue_keeps (h := ?_) ..) | (with_reducible refine keeps_foldl _ _ _ ?_ ?_)
      | split | dsimp only | (intro _ _ _) | ((with_reducible refine keeps_mk ?_ ?_); rfl)))
    | cons y ys ih => (unfold storeLanes; repeat (first
      | with_reducible assumption | (with_reducible refine ih (h := ?_) ..)
      | (with_reducible refine wrData_keeps (h := ?_) ..) | (with_reducible refine storeIssue_keeps (h := ?_) ..)
      | (with_reducible refine keeps_foldl _ _ _ ?_ ?_) | split | dsimp only | (intro _ _ _)
      | ((with_reducible refine keeps_mk ?_ ?_); rfl)))

theorem tliLane_keeps {s0 : State} (c : Fin 32) (pc : Nat) (space : Nat) (j : Nat) (x5 : Nat) (u : F32) (s : State) (h : Keeps s0 s) :
    Keeps s0 (tliLane c pc space j x5 u s).2 := by
  unfold tliLane
  repeat (first
      | with_reducible assumption | (with_reducible refine rdSpace_keeps (h := ?_) ..) | split | dsimp only)

theorem tliLanes_keeps {s0 : State} (c : Fin 32) (pc : Nat) (space : Nat) (j : Nat) (x5 : Nat) (u : Vector F32 8) (x7 : List Nat) (x8 : State) (h : Keeps s0 x8) :
    Keeps s0 (tliLanes c pc space j x5 u x7 x8).2 := by
  induction x7 generalizing c pc space j x5 u x8 with
    | nil => (unfold tliLanes; repeat (first
      | with_reducible assumption | (with_reducible refine tliLane_keeps (h := ?_) ..)
      | (with_reducible refine keeps_foldl _ _ _ ?_ ?_) | split | dsimp only | (intro _ _ _)
      | ((with_reducible refine keeps_mk ?_ ?_); rfl)))
    | cons y ys ih => (unfold tliLanes; repeat (first
      | with_reducible assumption | (with_reducible refine ih (h := ?_) ..)
      | (with_reducible refine tliLane_keeps (h := ?_) ..) | (with_reducible refine keeps_foldl _ _ _ ?_ ?_) | split
      | dsimp only | (intro _ _ _) | ((with_reducible refine keeps_mk ?_ ?_); rfl)))

theorem mLoad_keeps {s0 : State} (c : Fin 32) (phi : Nat) (i : Nat) (pc : Nat) (m : MOp) (lanes : List Nat) (s : State) (h : Keeps s0 s) :
    Keeps s0 (mLoad c phi i pc m lanes s) := by
  unfold mLoad
  repeat (first
      | with_reducible assumption | (with_reducible refine storeIssue_keeps (h := ?_) ..)
      | (with_reducible refine rdLanes_keeps (h := ?_) ..) | (with_reducible refine modCell_keeps (h := ?_) ..)
      | (with_reducible refine rdSpace_keeps (h := ?_) ..) | (with_reducible refine keeps_foldl _ _ _ ?_ ?_) | split
      | dsimp only | (intro _ _ _))

theorem mStore_keeps {s0 : State} (c : Fin 32) (phi : Nat) (i : Nat) (pc : Nat) (m : MOp) (mask : Byte) (s : State) (h : Keeps s0 s) :
    Keeps s0 (mStore c phi i pc m mask s) := by
  unfold mStore
  repeat (first
      | with_reducible assumption | (with_reducible refine storeLanes_keeps (h := ?_) ..) | split | dsimp only)

theorem mPair_keeps {s0 : State} (c : Fin 32) (i : Nat) (pc : Nat) (m : MOp) (lanes : List Nat) (s : State) (h : Keeps s0 s) :
    Keeps s0 (mPair c i pc m lanes s) := by
  unfold mPair
  repeat (first
      | with_reducible assumption | (with_reducible refine rdLanes_keeps (h := ?_) ..)
      | (with_reducible refine modCell_keeps (h := ?_) ..) | split | dsimp only)

theorem mTable_keeps {s0 : State} (c : Fin 32) (i : Nat) (pc : Nat) (m : MOp) (lanes : List Nat) (s : State) (h : Keeps s0 s) :
    Keeps s0 (mTable c i pc m lanes s) := by
  unfold mTable
  repeat (first
      | with_reducible assumption | (with_reducible refine tliLanes_keeps (h := ?_) ..)
      | (with_reducible refine modCell_keeps (h := ?_) ..) | split | dsimp only)

theorem mExec_keeps {s0 : State} (c : Fin 32) (phi : Nat) (i : Nat) (pc : Nat) (m : MOp) (s : State) (h : Keeps s0 s) :
    Keeps s0 (mExec c phi i pc m s) := by
  unfold mExec
  repeat (first
      | with_reducible assumption | (with_reducible refine cellFault_keeps (h := ?_) ..)
      | (with_reducible refine modCell_keeps (h := ?_) ..) | (with_reducible refine mLoad_keeps (h := ?_) ..)
      | (with_reducible refine mStore_keeps (h := ?_) ..) | (with_reducible refine mPair_keeps (h := ?_) ..)
      | (with_reducible refine mTable_keeps (h := ?_) ..) | split | dsimp only)

theorem checkProg_keeps {s0 : State} (c : Fin 32) (w : Nat) (x3 : List Nat) (x4 : State) (h : Keeps s0 x4) :
    Keeps s0 (checkProg c w x3 x4).2 := by
  induction x3 generalizing c w x4 with
    | nil => (unfold checkProg; repeat (first
      | with_reducible assumption | (with_reducible refine checkWord_keeps (h := ?_) ..)
      | (with_reducible refine keeps_foldl _ _ _ ?_ ?_) | split | dsimp only | (intro _ _ _)
      | ((with_reducible refine keeps_mk ?_ ?_); rfl)))
    | cons y ys ih => (unfold checkProg; repeat (first
      | with_reducible assumption | (with_reducible refine ih (h := ?_) ..)
      | (with_reducible refine checkWord_keeps (h := ?_) ..) | (with_reducible refine keeps_foldl _ _ _ ?_ ?_)
      | split | dsimp only | (intro _ _ _) | ((with_reducible refine keeps_mk ?_ ?_); rfl)))

theorem fetchWord_keeps {s0 : State} (c : Fin 32) (s : State) (h : Keeps s0 s) :
    Keeps s0 (fetchWord c s).2 := by
  unfold fetchWord
  repeat (first
      | with_reducible assumption | (with_reducible refine checkProg_keeps (h := ?_) ..)
      | (with_reducible refine cellFault_keeps (h := ?_) ..) | split | dsimp only)

theorem issueA_keeps {s0 : State} (c : Fin 32) (i : Nat) (pc : Nat) (w : Nat) (x5 : Cell) (s : State) (h : Keeps s0 s) :
    Keeps s0 (issueA c i pc w x5 s) := by
  unfold issueA
  repeat (first
      | with_reducible assumption | (with_reducible refine cellFault_keeps (h := ?_) ..)
      | (with_reducible refine modCell_keeps (h := ?_) ..) | split | dsimp only)

theorem issueC_keeps {s0 : State} (c : Fin 32) (i : Nat) (pc : Nat) (w : Nat) (x5 : Cell) (s : State) (h : Keeps s0 s) :
    Keeps s0 (issueC c i pc w x5 s) := by
  unfold issueC
  repeat (first
      | with_reducible assumption | (with_reducible refine modCell_keeps (h := ?_) ..)
      | (with_reducible refine cellFault_keeps (h := ?_) ..) | split | dsimp only)

theorem issueSlot_keeps {s0 : State} (c : Fin 32) (phi : Nat) (s : State) (h : Keeps s0 s) :
    Keeps s0 (issueSlot c phi s) := by
  unfold issueSlot
  repeat (first
      | with_reducible assumption | (with_reducible refine modCell_keeps (h := ?_) ..)
      | (with_reducible refine fetchWord_keeps (h := ?_) ..) | (with_reducible refine issueA_keeps (h := ?_) ..)
      | (with_reducible refine mExec_keeps (h := ?_) ..) | (with_reducible refine issueC_keeps (h := ?_) ..) | split
      | dsimp only)

theorem cellSlot_keeps {s0 : State} (c : Fin 32) (phi : Nat) (s : State) (h : Keeps s0 s) :
    Keeps s0 (cellSlot c phi s) := by
  unfold cellSlot
  repeat (first
      | with_reducible assumption | (with_reducible refine issueSlot_keeps (h := ?_) ..)
      | (with_reducible refine modCell_keeps (h := ?_) ..) | (with_reducible refine performTurn_keeps (h := ?_) ..)
      | split | dsimp only)

theorem turnsBefore_keeps {s0 : State} (cs : List (Fin 32)) (t : Nat) (x1 : Nat) (x2 : State) (h : Keeps s0 x2) :
    Keeps s0 (turnsBefore cs t x1 x2) := by
  induction x1 generalizing cs t x2 with
  | zero =>
    unfold turnsBefore
    repeat (first
      | with_reducible assumption | (with_reducible refine storePerform_keeps (h := ?_) ..) | split | dsimp only
      | ((with_reducible refine keeps_mk ?_ ?_); rfl))
  | succ k ih =>
    unfold turnsBefore
    repeat (first
      | with_reducible assumption | (with_reducible refine ih (h := ?_) ..)
      | (with_reducible refine storePerform_keeps (h := ?_) ..) | split | dsimp only
      | ((with_reducible refine keeps_mk ?_ ?_); rfl))

end Sys2Proof.Machine
end

