-- ==== Sys2Proof/Laws/KeepOperands.lean ====
section
/-! SUPPORT. What every operation of Machine/Operands.lean keeps. -/

namespace Sys2Proof.Machine

theorem ownBulk_keeps {s0 : State} (x1 : Fin 4) (x2 x3 : Nat) (x4 : State) (h : Keeps s0 x4) : Keeps s0 (ownBulk x1 x2 x3 x4) :=
  ⟨h.queue, h.life, h.revoked, h.ram, h.store, h.flash, h.log, fun hv => vmodN_get VersionOk _ _ _ (fun _ hb => hb) (h.vers hv), h.tail, h.head, h.keys, h.safe, h.parts⟩

end Sys2Proof.Machine
end

