-- ==== Sys2Proof/Laws/KeepMailbox.lean ====
section
/-! SUPPORT. What every operation of Machine/Mailbox.lean keeps. -/

namespace Sys2Proof.Machine

theorem modMbx_keeps {s0 : State} (x1 : Fin 4) (x2 : Mbx → Mbx) (x3 : State) (hf : ∀ b, (x2 b).ver = b.ver ∧ (x2 b).grant = b.grant)
    (h : Keeps s0 x3) : Keeps s0 (modMbx x1 x2 x3) :=
  ⟨h.queue, h.life, h.revoked, h.ram, h.store, h.flash, h.log,
    fun hv => vmod_get VersionOk _ _ _ (fun b hb => by unfold VersionOk; rw [(hf b).1, (hf b).2]; exact hb) (h.vers hv), h.tail, h.head, h.keys, h.safe, h.parts⟩

theorem answer_keeps {s0 : State} (x1 : Nat) (x2 : Fin 4) (x3 : Req) (x4 : Nat) (x5 : List Word) (x6 : Bool) (x7 : State)
    (h : Keeps s0 x7) : Keeps s0 (answer x1 x2 x3 x4 x5 x6 x7) :=
  modMbx_keeps _ _ _ (fun _ => ⟨rfl, rfl⟩) h

theorem readTail_keeps {s0 : State} (x1 : State) (h : Keeps s0 x1) : Keeps s0 (readTail x1) := by
  have hc := checkWord_keeps ⟨.mailboxRam, 0, 0, 0xF004 / 4⟩ x1 h
  have hm (s : State) (t : Nat) (hs : Keeps s0 s) : Keeps s0 (if t ≤ 1019 then { s with evt := { s.evt with tail := t } } else s) := by
    split
    · rename_i ht
      exact ⟨hs.queue, hs.life, hs.revoked, hs.ram, hs.store, hs.flash, hs.log, hs.vers, fun _ => ht, hs.head, hs.keys, hs.safe, hs.parts⟩
    · exact hs
  exact hm _ _ hc

theorem sample_keeps {s0 : State} (d : CmdDef) (hd : CmdKeeps d) (m : Fin 4) (r : Req) (s : State) (h : Keeps s0 s) :
    Keeps s0 (sample d m r s) := by
  unfold sample
  split
  · exact answer_keeps _ _ _ _ _ _ _ (hd.refused _ _ _ h)
  · rename_i hn
    exact answer_keeps _ _ _ _ _ _ _ (hd.act _ _ _ hn h)

theorem ramWrite_keeps {s0 : State} (x1 : Nat) (x2 : Word) (x3 : State) (h : Keeps s0 x3) : Keeps s0 (ramWrite x1 x2 x3) :=
  ⟨h.queue, h.life, h.revoked, fun hr => wrW_wf _ _ _ (h.ram hr), h.store, h.flash, h.log, h.vers, h.tail, h.head, h.keys, h.safe, h.parts⟩

theorem ramWrites_keeps {s0 : State} (a : Nat) (x2 : List Word) (x3 : State) (h : Keeps s0 x3) :
    Keeps s0 (ramWrites a x2 x3) := by
  induction x2 generalizing a x3 with
    | nil => (unfold ramWrites; repeat (first
      | with_reducible assumption | (with_reducible refine ramWrite_keeps (h := ?_) ..)
      | (with_reducible refine keeps_foldl _ _ _ ?_ ?_) | split | dsimp only | (intro _ _ _)
      | ((with_reducible refine keeps_mk ?_ ?_); rfl)))
    | cons y ys ih => (unfold ramWrites; repeat (first
      | with_reducible assumption | (with_reducible refine ih (h := ?_) ..)
      | (with_reducible refine ramWrite_keeps (h := ?_) ..) | (with_reducible refine keeps_foldl _ _ _ ?_ ?_)
      | split | dsimp only | (intro _ _ _) | ((with_reducible refine keeps_mk ?_ ?_); rfl)))

theorem hostRam_keeps {s0 : State} (a : Nat) (w : Word) (s : State) (h : Keeps s0 s) :
    Keeps s0 (hostRam a w s) := by
  unfold hostRam
  repeat (first
      | with_reducible assumption | (with_reducible refine ramWrite_keeps (h := ?_) ..) | split | dsimp only)

theorem hostRams_keeps {s0 : State} (a : Nat) (x2 : List Word) (x3 : State) (h : Keeps s0 x3) :
    Keeps s0 (hostRams a x2 x3) := by
  induction x2 generalizing a x3 with
    | nil => (unfold hostRams; repeat (first
      | with_reducible assumption | (with_reducible refine hostRam_keeps (h := ?_) ..)
      | (with_reducible refine keeps_foldl _ _ _ ?_ ?_) | split | dsimp only | (intro _ _ _)
      | ((with_reducible refine keeps_mk ?_ ?_); rfl)))
    | cons y ys ih => (unfold hostRams; repeat (first
      | with_reducible assumption | (with_reducible refine ih (h := ?_) ..)
      | (with_reducible refine hostRam_keeps (h := ?_) ..) | (with_reducible refine keeps_foldl _ _ _ ?_ ?_) | split
      | dsimp only | (intro _ _ _) | ((with_reducible refine keeps_mk ?_ ?_); rfl)))

theorem ringLost_keeps {s0 : State} (m : Fin 4) (s : State) (h : Keeps s0 s) :
    Keeps s0 (ringLost m s) := by
  unfold ringLost
  repeat (first
      | with_reducible assumption | ((with_reducible refine modMbx_keeps _ _ _ ?_ ?_); (exact fun _ => ⟨rfl, rfl⟩))
      | split | dsimp only)

theorem ringMbx_keeps {s0 : State} (m : Fin 4) (seq : Byte) (s : State) (h : Keeps s0 s) :
    Keeps s0 (ringMbx m seq s) := by
  unfold ringMbx
  repeat (first
      | with_reducible assumption | ((with_reducible refine modMbx_keeps _ _ _ ?_ ?_); (exact fun _ => ⟨rfl, rfl⟩))
      | split | dsimp only)

theorem mbxCommand_keeps {s0 : State} (d : CmdDef) (hd : CmdKeeps d) (m : Fin 4) (r : Req) (s : State) (h : Keeps s0 s) :
    Keeps s0 (mbxCommand d m r s) := by
  unfold mbxCommand
  split
  · exact h
  · split
    · exact ringLost_keeps _ _ h
    · have ha := ringMbx_keeps m s.mbx[m].seqRung _ (hostRams_keeps (cmdArea m) (reqWords d.opcode r) s h)
      dsimp only
      split
      · exact sample_keeps d hd m r _ (readTail_keeps _ ha)
      · exact ha

theorem cmdErrs_keeps {s0 : State} (m : Nat) (r : Req) (s : State) (h : Keeps s0 s) :
    Keeps s0 (cmdErrs m r s) := by
  unfold cmdErrs
  repeat (first
      | with_reducible assumption | (with_reducible refine checkWord_keeps (h := ?_) ..)
      | (with_reducible refine keeps_foldl _ _ _ ?_ ?_) | split | dsimp only | (intro _ _ _))

theorem bulkErrs_keeps {s0 : State} (first : Nat) (n : Nat) (s : State) (h : Keeps s0 s) :
    Keeps s0 (bulkErrs first n s) := by
  unfold bulkErrs
  repeat (first
      | with_reducible assumption | (with_reducible refine checkWord_keeps (h := ?_) ..)
      | (with_reducible refine keeps_foldl _ _ _ ?_ ?_) | split | dsimp only | (intro _ _ _))

theorem bulkRefused_keeps {s0 : State} (first : Nat) (n : Nat) (st : Nat) (s : State) (h : Keeps s0 s) :
    Keeps s0 (bulkRefused first n st s) := by
  unfold bulkRefused
  repeat (first
      | with_reducible assumption | (with_reducible refine bulkErrs_keeps (h := ?_) ..) | split | dsimp only)

theorem mbxFails_keeps {s0 : State} (m : Fin 4) (st : Nat) (s : State) (h : Keeps s0 s) :
    Keeps s0 (mbxFails m st s) := by
  unfold mbxFails
  repeat (first
      | with_reducible assumption | (with_reducible refine raiseFrom_keeps (hs := by decide) (hn := rfl) (h := ?_) ..)
      | (with_reducible refine answer_keeps (h := ?_) ..) | split | dsimp only)

theorem post_keeps {s0 : State} (x1 : Fin 4) (x2 : State) (h : Keeps s0 x2) : Keeps s0 (post x1 x2) := by
  have hp (p : Response) : Keeps s0 (modMbx x1 (fun b => { b with
      st := .done, status := p.status, seqDone := b.seqRung, hearth := b.fromHearth
      ver := b.grant.getD b.ver, grant := none, bulk := none, resp := none }) (ramWrites (rspArea x1) (rspWords p) x2)) := by
    have hw := ramWrites_keeps (rspArea x1) (rspWords p) x2 h
    refine ⟨hw.queue, hw.life, hw.revoked, hw.ram, hw.store, hw.flash, hw.log, fun hv => ?_, hw.tail, hw.head, hw.keys, hw.safe, hw.parts⟩
    refine vmod_get VersionOk _ _ _ (fun b hb => ?_) (hw.vers hv)
    refine ⟨?_, fun g hg => nomatch hg⟩
    show 1 ≤ b.grant.getD b.ver ∧ b.grant.getD b.ver ≤ 3
    cases hg : b.grant with
    | none => exact hb.1
    | some g => exact hb.2 g hg
  unfold post
  split
  · exact h
  · dsimp only
    split
    · exact hp _
    · split
      · refine raiseFrom_keeps _ _ _ _ (by decide) ?_ (hp _)
        simp [sharedEvt, x1.isLt]
      · exact raise_keeps _ _ _ (hp _)

end Sys2Proof.Machine
end

