-- ==== Sys2Proof/Laws/KeepCells.lean ====
section
/-! SUPPORT. What every operation of Machine/Cells.lean keeps. -/

namespace Sys2Proof.Machine

theorem staleRefused_keeps {s0 : State} (op : Nat) (st : Nat) (r : Req) (s : State) (h : Keeps s0 s) :
    Keeps s0 (staleRefused op st r s) := by
  unfold staleRefused
  repeat (first
      | with_reducible assumption | (with_reducible refine raiseIf_keeps (h := ?_) ..) | split | dsimp only)

theorem sendCell_keeps {s0 : State} (e : QEntry) (s : State) (h : Keeps s0 s) : Keeps s0 (sendCell e s) := by
  unfold sendCell
  split
  · exact keeps_mk rfl h
  · exact keeps_mk rfl h

theorem refill_keeps {s0 : State} (n : Nat) (s : State) (h : Keeps s0 s) : Keeps s0 (refill n s) := by
  induction n generalizing s with
  | zero => exact h
  | succ n ih =>
    unfold refill
    split
    · exact h
    · split
      · exact ih _ (keeps_mk rfl h)
      · exact h

theorem cellInfoDef_keeps : CmdKeeps cellInfoDef := by
  (refine ⟨fun m r s hn h => ?_, fun st r s h => ?_⟩ <;> unfold cellInfoDef <;> dsimp only <;> (repeat (first
      | with_reducible assumption | (with_reducible refine staleRefused_keeps (h := ?_) ..) | split | dsimp only)))

theorem cellStatusDef_keeps : CmdKeeps cellStatusDef := by
  (refine ⟨fun m r s hn h => ?_, fun st r s h => ?_⟩ <;> unfold cellStatusDef <;> dsimp only <;> (repeat (first
      | with_reducible assumption | (with_reducible refine staleRefused_keeps (h := ?_) ..) | split | dsimp only)))

theorem roleSetAct_keeps {s0 : State} (m : Nat) (r : Req) (s : State) (h : Keeps s0 s) :
    Keeps s0 (roleSetAct m r s).1 := by
  unfold roleSetAct
  repeat (first
      | with_reducible assumption | (with_reducible refine modCell_keeps (h := ?_) ..)
      | (with_reducible refine sendCell_keeps (h := ?_) ..) | split | dsimp only)

theorem cellRoleSetDef_keeps : CmdKeeps cellRoleSetDef := by
  (refine ⟨fun m r s hn h => ?_, fun st r s h => ?_⟩ <;> unfold cellRoleSetDef <;> dsimp only <;> (repeat (first
      | with_reducible assumption | (with_reducible refine staleRefused_keeps (h := ?_) ..)
      | (with_reducible refine roleSetAct_keeps (h := ?_) ..) | split | dsimp only)))

theorem cellProgWriteDef_keeps : CmdKeeps cellProgWriteDef := by
  (refine ⟨fun m r s hn h => ?_, fun st r s h => ?_⟩ <;> unfold cellProgWriteDef <;> dsimp only <;> (repeat (first
      | with_reducible assumption | (with_reducible refine staleRefused_keeps (h := ?_) ..)
      | (with_reducible refine sendCell_keeps (h := ?_) ..) | split | dsimp only)))

theorem cellProgMetaDef_keeps : CmdKeeps cellProgMetaDef := by
  (refine ⟨fun m r s hn h => ?_, fun st r s h => ?_⟩ <;> unfold cellProgMetaDef <;> dsimp only <;> (repeat (first
      | with_reducible assumption | (with_reducible refine staleRefused_keeps (h := ?_) ..)
      | (with_reducible refine sendCell_keeps (h := ?_) ..) | split | dsimp only)))

theorem cellCoefWriteDef_keeps : CmdKeeps cellCoefWriteDef := by
  (refine ⟨fun m r s hn h => ?_, fun st r s h => ?_⟩ <;> unfold cellCoefWriteDef <;> dsimp only <;> (repeat (first
      | with_reducible assumption | (with_reducible refine staleRefused_keeps (h := ?_) ..)
      | (with_reducible refine sendCell_keeps (h := ?_) ..) | split | dsimp only)))

theorem cellBankSwapDef_keeps : CmdKeeps cellBankSwapDef := by
  (refine ⟨fun m r s hn h => ?_, fun st r s h => ?_⟩ <;> unfold cellBankSwapDef <;> dsimp only <;> (repeat (first
      | with_reducible assumption | (with_reducible refine staleRefused_keeps (h := ?_) ..)
      | (with_reducible refine sendCell_keeps (h := ?_) ..) | split | dsimp only)))

theorem cellGlideSetDef_keeps : CmdKeeps cellGlideSetDef := by
  (refine ⟨fun m r s hn h => ?_, fun st r s h => ?_⟩ <;> unfold cellGlideSetDef <;> dsimp only <;> (repeat (first
      | with_reducible assumption | (with_reducible refine staleRefused_keeps (h := ?_) ..)
      | (with_reducible refine sendCell_keeps (h := ?_) ..) | split | dsimp only)))

theorem cellGroupCommitDef_keeps : CmdKeeps cellGroupCommitDef := by
  (refine ⟨fun m r s hn h => ?_, fun st r s h => ?_⟩ <;> unfold cellGroupCommitDef <;> dsimp only <;> (repeat (first
      | with_reducible assumption | (with_reducible refine raiseIf_keeps (h := ?_) ..)
      | (with_reducible refine sendCell_keeps (h := ?_) ..) | (with_reducible refine keeps_foldl _ _ _ ?_ ?_)
      | split | dsimp only | (intro _ _ _))))

theorem cellFaultClearDef_keeps : CmdKeeps cellFaultClearDef := by
  (refine ⟨fun m r s hn h => ?_, fun st r s h => ?_⟩ <;> unfold cellFaultClearDef <;> dsimp only <;> (repeat (first
      | with_reducible assumption | (with_reducible refine staleRefused_keeps (h := ?_) ..)
      | (with_reducible refine sendCell_keeps (h := ?_) ..) | split | dsimp only)))

theorem cellFaultPolicyDef_keeps : CmdKeeps cellFaultPolicyDef := by
  (refine ⟨fun m r s hn h => ?_, fun st r s h => ?_⟩ <;> unfold cellFaultPolicyDef <;> dsimp only <;> (repeat (first
      | with_reducible assumption | (with_reducible refine staleRefused_keeps (h := ?_) ..)
      | (with_reducible refine sendCell_keeps (h := ?_) ..) | split | dsimp only)))

theorem cellMemReadDef_keeps : CmdKeeps cellMemReadDef := by
  (refine ⟨fun m r s hn h => ?_, fun st r s h => ?_⟩ <;> unfold cellMemReadDef <;> dsimp only <;> (repeat (first
      | with_reducible assumption | (with_reducible refine staleRefused_keeps (h := ?_) ..)
      | (with_reducible refine sendCell_keeps (h := ?_) ..) | (with_reducible refine defer_keeps (h := ?_) ..)
      | split | dsimp only)))

theorem snapWords_keeps {s0 : State} (mk : Nat → WordAt) (rd : Nat → Word) (x3 : List Nat) (x4 : State) (h : Keeps s0 x4) :
    Keeps s0 (snapWords mk rd x3 x4).2 := by
  induction x3 generalizing mk rd x4 with
    | nil => (unfold snapWords; repeat (first
      | with_reducible assumption | (with_reducible refine checkWord_keeps (h := ?_) ..)
      | (with_reducible refine keeps_foldl _ _ _ ?_ ?_) | split | dsimp only | (intro _ _ _)
      | ((with_reducible refine keeps_mk ?_ ?_); rfl)))
    | cons y ys ih => (unfold snapWords; repeat (first
      | with_reducible assumption | (with_reducible refine ih (h := ?_) ..)
      | (with_reducible refine checkWord_keeps (h := ?_) ..) | (with_reducible refine keeps_foldl _ _ _ ?_ ?_)
      | split | dsimp only | (intro _ _ _) | ((with_reducible refine keeps_mk ?_ ?_); rfl)))

theorem memMasked_keeps {s0 : State} (c : Fin 32) (pre : Cell) (k : Nat) (bank : Fin 2) (first : Nat) (ws : List Word) (s : State) (h : Keeps s0 s) :
    Keeps s0 (memMasked c pre k bank first ws s).2 := by
  unfold memMasked
  repeat (first
      | with_reducible assumption | (with_reducible refine offAccess_keeps (h := ?_) ..) | split | dsimp only)

theorem memSnapshot_keeps {s0 : State} (c : Fin 32) (pre : Cell) (x3 : Nat) (bank : Fin 2) (first : Nat) (n : Nat) (s : State) (h : Keeps s0 s) :
    Keeps s0 (memSnapshot c pre x3 bank first n s).2 := by
  unfold memSnapshot
  repeat (first
      | with_reducible assumption | (with_reducible refine snapWords_keeps (h := ?_) ..) | split | dsimp only)

theorem memReadEnds_keeps {s0 : State} (status : Nat) (e : QEntry) (s : State) (h : Keeps s0 s) :
    Keeps s0 (memReadEnds status e s) := by
  unfold memReadEnds
  repeat (first
      | with_reducible assumption | (with_reducible refine complete_keeps (h := ?_) ..) | split | dsimp only)

theorem entryLost_keeps {s0 : State} (q : QEntry) (s : State) (h : Keeps s0 s) :
    Keeps s0 (entryLost q s) := by
  unfold entryLost
  repeat (first
      | with_reducible assumption | (with_reducible refine modCell_keeps (h := ?_) ..)
      | (with_reducible refine memReadEnds_keeps (h := ?_) ..) | split | dsimp only)

theorem dropStale_keeps {s0 : State} (e : QEntry) (s : State) (h : Keeps s0 s) :
    Keeps s0 (dropStale e s) := by
  unfold dropStale
  repeat (first
      | with_reducible assumption | (with_reducible refine raiseFrom_keeps (hs := by decide) (hn := rfl) (h := ?_) ..) | (with_reducible refine modCell_keeps (h := ?_) ..)
      | (with_reducible refine memReadEnds_keeps (h := ?_) ..) | (with_reducible refine raise_keeps (h := ?_) ..)
      | split | dsimp only | ((with_reducible refine keeps_mk ?_ ?_); rfl))

theorem setCoefId_keeps {s0 : State} (c : Fin 32) (b : Fin 2) (image : Option (BitVec 16)) (s : State) (h : Keeps s0 s) :
    Keeps s0 (setCoefId c b image s) := by
  unfold setCoefId
  repeat (first
      | with_reducible assumption | (with_reducible refine modCell_keeps (h := ?_) ..) | split | dsimp only
      | ((with_reducible refine keeps_mk ?_ ?_); rfl))

theorem applyMsg_keeps {s0 : State} (pre : Cell) (e : Nat) (q : QEntry) (s : State) (h : Keeps s0 s) :
    Keeps s0 (applyMsg pre e q s) := by
  unfold applyMsg
  repeat (first
      | with_reducible assumption | (with_reducible refine offAccess_keeps (h := ?_) ..) | (with_reducible refine setCoefId_keeps (h := ?_) ..) | (with_reducible refine memMasked_keeps (h := ?_) ..) | (with_reducible refine wrProgs_keeps (h := ?_) ..)
      | (with_reducible refine modCell_keeps (h := ?_) ..) | (with_reducible refine wrCoefs_keeps (h := ?_) ..)
      | (with_reducible refine memSnapshot_keeps (h := ?_) ..) | (with_reducible refine complete_keeps (h := ?_) ..)
      | split | dsimp only | ((with_reducible refine keeps_mk ?_ ?_); rfl))

theorem applyDue_keeps {s0 : State} (pre : Cell) (e : Nat) (x3 : List QEntry) (x4 : State) (h : Keeps s0 x4) :
    Keeps s0 (applyDue pre e x3 x4) := by
  induction x3 generalizing pre e x4 with
    | nil => (unfold applyDue; repeat (first
      | with_reducible assumption | (with_reducible refine applyMsg_keeps (h := ?_) ..)
      | (with_reducible refine dropStale_keeps (h := ?_) ..) | (with_reducible refine keeps_foldl _ _ _ ?_ ?_)
      | split | dsimp only | (intro _ _ _) | ((with_reducible refine keeps_mk ?_ ?_); rfl)))
    | cons y ys ih => (unfold applyDue; repeat (first
      | with_reducible assumption | (with_reducible refine ih (h := ?_) ..)
      | (with_reducible refine applyMsg_keeps (h := ?_) ..) | (with_reducible refine dropStale_keeps (h := ?_) ..)
      | (with_reducible refine keeps_foldl _ _ _ ?_ ?_) | split | dsimp only | (intro _ _ _)
      | ((with_reducible refine keeps_mk ?_ ?_); rfl)))

theorem raiseEv12_keeps {s0 : State} (e : Nat) (s : State) (h : Keeps s0 s) :
    Keeps s0 (raiseEv12 e s) := by
  unfold raiseEv12
  repeat (first
      | with_reducible assumption | (with_reducible refine raise_keeps (h := ?_) ..)
      | (with_reducible refine keeps_foldl _ _ _ ?_ ?_) | split | dsimp only | (intro _ _ _))

theorem cellTick_keeps {s0 : State} (c : Fin 32) (e : Nat) (s : State) (h : Keeps s0 s) :
    Keeps s0 (cellTick c e s) := by
  unfold cellTick
  repeat (first
      | with_reducible assumption | (with_reducible refine memReadEnds_keeps (h := ?_) ..)
      | (with_reducible refine modCell_keeps (h := ?_) ..) | (with_reducible refine applyDue_keeps (h := ?_) ..)
      | (with_reducible refine entryLost_keeps (h := ?_) ..) | (with_reducible refine keeps_foldl _ _ _ ?_ ?_)
      | split | dsimp only | (intro _ _ _))

theorem reAnswer_keeps {s0 : State} (q : QEntry) (ws : List Word) (s : State) (h : Keeps s0 s) : Keeps s0 (reAnswer q ws s) := by
  unfold reAnswer
  refine keeps_mbx _ _ (fun i b hb => ?_) h
  split
  · exact hb
  · exact hb

theorem arriveNow_keeps {s0 : State} (q : QEntry) (s : State) (h : Keeps s0 s) :
    Keeps s0 (arriveNow q s) := by
  unfold arriveNow
  repeat (first
      | with_reducible assumption | (with_reducible refine applyMsg_keeps (h := ?_) ..)
      | (with_reducible refine dropStale_keeps (h := ?_) ..) | split | dsimp only)

theorem arriveLater_keeps {s0 : State} (f : Nat) (q : QEntry) (s : State) (h : Keeps s0 s) :
    Keeps s0 (arriveLater f q s) := by
  unfold arriveLater
  repeat (first
      | with_reducible assumption | (with_reducible refine entryLost_keeps (h := ?_) ..)
      | (with_reducible refine modCell_keeps (h := ?_) ..) | split | dsimp only)

theorem queueArrive_keeps {s0 : State} (q : QEntry) (s : State) (h : Keeps s0 s) :
    Keeps s0 (queueArrive q s) := by
  unfold queueArrive
  repeat (first
      | with_reducible assumption | (with_reducible refine arriveNow_keeps (h := ?_) ..)
      | (with_reducible refine arriveLater_keeps (h := ?_) ..) | (with_reducible refine reAnswer_keeps (h := ?_) ..)
      | split | dsimp only)

theorem execCellInfo_goes {s0 : State} (m : Fin 4) (r : Req) (s : State) (h : Keeps s0 s) :
    Goes s0 (execCellInfo m r s) := by
  exact goes_next (mbxCommand_keeps _ cellInfoDef_keeps _ _ _ h)

theorem execCellRoleSet_goes {s0 : State} (m : Fin 4) (r : Req) (s : State) (h : Keeps s0 s) :
    Goes s0 (execCellRoleSet m r s) := by
  exact goes_next (mbxCommand_keeps _ cellRoleSetDef_keeps _ _ _ h)

theorem execCellProgWrite_goes {s0 : State} (m : Fin 4) (r : Req) (s : State) (h : Keeps s0 s) :
    Goes s0 (execCellProgWrite m r s) := by
  exact goes_next (mbxCommand_keeps _ cellProgWriteDef_keeps _ _ _ h)

theorem execCellProgMeta_goes {s0 : State} (m : Fin 4) (r : Req) (s : State) (h : Keeps s0 s) :
    Goes s0 (execCellProgMeta m r s) := by
  exact goes_next (mbxCommand_keeps _ cellProgMetaDef_keeps _ _ _ h)

theorem execCellCoefWrite_goes {s0 : State} (m : Fin 4) (r : Req) (s : State) (h : Keeps s0 s) :
    Goes s0 (execCellCoefWrite m r s) := by
  exact goes_next (mbxCommand_keeps _ cellCoefWriteDef_keeps _ _ _ h)

theorem execCellBankSwap_goes {s0 : State} (m : Fin 4) (r : Req) (s : State) (h : Keeps s0 s) :
    Goes s0 (execCellBankSwap m r s) := by
  exact goes_next (mbxCommand_keeps _ cellBankSwapDef_keeps _ _ _ h)

theorem execCellGlideSet_goes {s0 : State} (m : Fin 4) (r : Req) (s : State) (h : Keeps s0 s) :
    Goes s0 (execCellGlideSet m r s) := by
  exact goes_next (mbxCommand_keeps _ cellGlideSetDef_keeps _ _ _ h)

theorem execCellGroupCommit_goes {s0 : State} (m : Fin 4) (r : Req) (s : State) (h : Keeps s0 s) :
    Goes s0 (execCellGroupCommit m r s) := by
  exact goes_next (mbxCommand_keeps _ cellGroupCommitDef_keeps _ _ _ h)

theorem execCellStatus_goes {s0 : State} (m : Fin 4) (r : Req) (s : State) (h : Keeps s0 s) :
    Goes s0 (execCellStatus m r s) := by
  exact goes_next (mbxCommand_keeps _ cellStatusDef_keeps _ _ _ h)

theorem execCellFaultClear_goes {s0 : State} (m : Fin 4) (r : Req) (s : State) (h : Keeps s0 s) :
    Goes s0 (execCellFaultClear m r s) := by
  exact goes_next (mbxCommand_keeps _ cellFaultClearDef_keeps _ _ _ h)

theorem execCellFaultPolicy_goes {s0 : State} (m : Fin 4) (r : Req) (s : State) (h : Keeps s0 s) :
    Goes s0 (execCellFaultPolicy m r s) := by
  exact goes_next (mbxCommand_keeps _ cellFaultPolicyDef_keeps _ _ _ h)

theorem execCellMemRead_goes {s0 : State} (m : Fin 4) (r : Req) (s : State) (h : Keeps s0 s) :
    Goes s0 (execCellMemRead m r s) := by
  exact goes_next (mbxCommand_keeps _ cellMemReadDef_keeps _ _ _ h)

theorem execCellQueueEntryArrival_goes {s0 : State} (s : State) (h : Keeps s0 s) :
    Goes s0 (execCellQueueEntryArrival s) := by
  unfold execCellQueueEntryArrival
  repeat (first
      | with_reducible assumption | (with_reducible refine goes_next ?_)
      | (with_reducible refine refill_keeps (h := ?_) ..) | (with_reducible refine queueArrive_keeps (h := ?_) ..)
      | split | dsimp only | ((with_reducible refine keeps_mk ?_ ?_); rfl))

theorem healCell_keeps {s0 : State} (c : Fin 32) (s : State) (h : Keeps s0 s) :
    Keeps s0 (healCell c s) := by
  exact keeps_mk rfl h

theorem execSealedClearDone_goes {s0 : State} (c : Fin 32) (s : State) (h : Keeps s0 s) :
    Goes s0 (execSealedClearDone c s) := by
  unfold execSealedClearDone
  repeat (first
      | with_reducible assumption | (with_reducible refine goes_next ?_)
      | (with_reducible refine raise_keeps (h := ?_) ..) | (with_reducible refine modCell_keeps (h := ?_) ..)
      | (with_reducible refine healCell_keeps (h := ?_) ..) | split | dsimp only)

theorem execCellFaultFadeEnd_goes {s0 : State} (c : Fin 32) (s : State) (h : Keeps s0 s) :
    Goes s0 (execCellFaultFadeEnd c s) := by
  unfold execCellFaultFadeEnd
  repeat (first
      | with_reducible assumption | (with_reducible refine goes_next ?_)
      | (with_reducible refine modCell_keeps (h := ?_) ..) | split | dsimp only)

theorem execStoreTurn_goes {s0 : State} (c : Fin 32) (ups : List Upset) (s : State) (h : Keeps s0 s) :
    Goes s0 (execStoreTurn c ups s) := by
  unfold execStoreTurn
  repeat (first
      | with_reducible assumption | (with_reducible refine turnsBefore_keeps (h := ?_) ..) | (with_reducible refine goes_next ?_)
      | (with_reducible refine strike_keeps (h := ?_) ..) | (with_reducible refine storePerform_keeps (h := ?_) ..)
      | split | dsimp only | ((with_reducible refine keeps_mk ?_ ?_); rfl))

end Sys2Proof.Machine
end

