-- ==== Sys2Proof/Laws/KeepComb.lean ====
section
/-! SUPPORT. What every operation of Machine/Comb.lean keeps. -/

namespace Sys2Proof.Machine

theorem modComb_keeps {s0 : State} (d : Dom) (f : Comb → Comb) (s : State) (h : Keeps s0 s) :
    Keeps s0 (modComb d f s) := by
  exact keeps_mk rfl h

theorem applyMap_keeps {s0 : State} (d : Dom) (outlet : Bool) (first : Nat) (ids : List ChanId) (s : State) (h : Keeps s0 s) :
    Keeps s0 (applyMap d outlet first ids s) := by
  unfold applyMap
  repeat (first
      | with_reducible assumption | (with_reducible refine modComb_keeps (h := ?_) ..) | split | dsimp only)

theorem outletsAt_keeps {s0 : State} (f : Nat) (l : List OutStep) (s : State) (h : Keeps s0 s) :
    Keeps s0 (outletsAt f l s) := by
  unfold outletsAt
  repeat (first
      | with_reducible assumption | (with_reducible refine applyMap_keeps (h := ?_) ..)
      | (with_reducible refine keeps_foldl _ _ _ ?_ ?_) | split | dsimp only | (intro _ _ _))

theorem silenceSlot_keeps {s0 : State} (cls : Nat) (slot : Nat) (s : State) (h : Keeps s0 s) :
    Keeps s0 (silenceSlot cls slot s) := by
  exact keeps_mk rfl h

theorem stageNow_keeps {s0 : State} (d : Dom) (row : Bool) (a : Nat) (b : Nat) (gs : List F32) (s : State) (h : Keeps s0 s) :
    Keeps s0 (stageNow d row a b gs s) := by
  unfold stageNow
  repeat (first
      | with_reducible assumption | (with_reducible refine modComb_keeps (h := ?_) ..)
      | (with_reducible refine healWords_keeps (h := ?_) ..) | split | dsimp only)

theorem releaseHeld_keeps {s0 : State} (d : Dom) (e : Nat) (s : State) (h : Keeps s0 s) :
    Keeps s0 (releaseHeld d e s) := by
  unfold releaseHeld
  repeat (first
      | with_reducible assumption | (with_reducible refine modComb_keeps (h := ?_) ..)
      | (with_reducible refine stageNow_keeps (h := ?_) ..) | (with_reducible refine keeps_foldl _ _ _ ?_ ?_)
      | split | dsimp only | (intro _ _ _))

theorem commitGone_keeps {s0 : State} (d : Dom) (e : Nat) (s : State) (h : Keeps s0 s) :
    Keeps s0 (commitGone d e s) := by
  unfold commitGone
  repeat (first
      | with_reducible assumption | (with_reducible refine releaseHeld_keeps (h := ?_) ..)
      | (with_reducible refine modComb_keeps (h := ?_) ..) | split | dsimp only
      | ((with_reducible refine keeps_mk ?_ ?_); rfl))

theorem commitTick_keeps {s0 : State} (d : Dom) (e : Nat) (s : State) (h : Keeps s0 s) :
    Keeps s0 (commitTick d e s) := by
  unfold commitTick
  repeat (first
      | with_reducible assumption | (with_reducible refine raise_keeps (h := ?_) ..)
      | (with_reducible refine modComb_keeps (h := ?_) ..) | (with_reducible refine releaseHeld_keeps (h := ?_) ..)
      | (with_reducible refine raiseIf_keeps (h := ?_) ..) | split | dsimp only)

theorem nodeBad_keeps {s0 : State} (d : Dom) (u : Upset) (s : State) (h : Keeps s0 s) :
    Keeps s0 (nodeBad d u s) := by
  unfold nodeBad
  repeat (first
      | with_reducible assumption | (with_reducible refine healWords_keeps (h := ?_) ..)
      | (with_reducible refine countUnc_keeps (h := ?_) ..) | (with_reducible refine modComb_keeps (h := ?_) ..)
      | split | dsimp only | ((with_reducible refine keeps_mk ?_ ?_); rfl))

theorem nodeError_keeps {s0 : State} (d : Dom) (u : Upset) (s : State) (h : Keeps s0 s) :
    Keeps s0 (nodeError d u s) := by
  unfold nodeError
  repeat (first
      | with_reducible assumption | (with_reducible refine nodeBad_keeps (h := ?_) ..) | (with_reducible refine modComb_keeps (h := ?_) ..)
      | (with_reducible refine countCorr_keeps (h := ?_) ..) | (with_reducible refine healWord_keeps (h := ?_) ..)
      | (with_reducible refine countUnc_keeps (h := ?_) ..) | (with_reducible refine healWords_keeps (h := ?_) ..)
      | split | dsimp only | ((with_reducible refine keeps_mk ?_ ?_); rfl))

theorem combErrors_keeps {s0 : State} (d : Dom) (lo : Nat) (hi : Nat) (s : State) (h : Keeps s0 s) :
    Keeps s0 (combErrors d lo hi s) := by
  unfold combErrors
  repeat (first
      | with_reducible assumption | (with_reducible refine nodeError_keeps (h := ?_) ..)
      | (with_reducible refine keeps_foldl _ _ _ ?_ ?_) | split | dsimp only | (intro _ _ _))

theorem combInfoDef_keeps : CmdKeeps combInfoDef := by
  exact ⟨fun _ _ _ _ h => h, fun _ _ _ h => h⟩

theorem ev15_keeps {s0 : State} (op : Nat) (st : Nat) (x3 : Req) (s : State) (h : Keeps s0 s) :
    Keeps s0 (ev15 op st x3 s) := by
  unfold ev15
  repeat (first
      | with_reducible assumption | (with_reducible refine raise_keeps (h := ?_) ..) | split | dsimp only)

theorem combMapSetDef_keeps : CmdKeeps combMapSetDef := by
  (refine ⟨fun m r s hn h => ?_, fun st r s h => ?_⟩ <;> unfold combMapSetDef <;> dsimp only <;> (repeat (first
      | with_reducible assumption | (with_reducible refine ev15_keeps (h := ?_) ..)
      | (with_reducible refine stage_keeps (h := ?_) ..) | split | dsimp only)))

theorem combMapGetDef_keeps : CmdKeeps combMapGetDef := by
  exact ⟨fun _ _ _ _ h => h, fun _ _ _ h => h⟩

theorem combStageDef_keeps : CmdKeeps combStageDef := by
  (refine ⟨fun m r s hn h => ?_, fun st r s h => ?_⟩ <;> unfold combStageDef <;> dsimp only <;> (repeat (first
      | with_reducible assumption | (with_reducible refine modComb_keeps (h := ?_) ..)
      | (with_reducible refine stageNow_keeps (h := ?_) ..) | split | dsimp only)))

theorem combStageBulkDef_keeps : CmdKeeps combStageBulkDef := by
  (refine ⟨fun m r s hn h => ?_, fun st r s h => ?_⟩ <;> unfold combStageBulkDef <;> dsimp only <;> (repeat (first
      | with_reducible assumption | (with_reducible refine bulkRefused_keeps (h := ?_) ..)
      | (with_reducible refine bulkErrs_keeps (h := ?_) ..) | (with_reducible refine ownBulk_keeps (h := ?_) ..)
      | (with_reducible refine stageNow_keeps (h := ?_) ..) | (with_reducible refine keeps_foldl _ _ _ ?_ ?_)
      | split | dsimp only | (intro _ _ _))))

theorem combCommitDef_keeps : CmdKeeps combCommitDef := by
  (refine ⟨fun m r s hn h => ?_, fun st r s h => ?_⟩ <;> unfold combCommitDef <;> dsimp only <;> (repeat (first
      | with_reducible assumption | (with_reducible refine ev15_keeps (h := ?_) ..)
      | (with_reducible refine stage_keeps (h := ?_) ..) | (with_reducible refine modComb_keeps (h := ?_) ..)
      | split | dsimp only)))

theorem combStageDiscardDef_keeps : CmdKeeps combStageDiscardDef := by
  (refine ⟨fun m r s hn h => ?_, fun st r s h => ?_⟩ <;> unfold combStageDiscardDef <;> dsimp only <;> (repeat (first
      | with_reducible assumption | (with_reducible refine modComb_keeps (h := ?_) ..) | split | dsimp only)))

theorem gainErrs_keeps {s0 : State} (d : Dom) (ws : List Nat) (s : State) (h : Keeps s0 s) :
    Keeps s0 (gainErrs d ws s) := by
  unfold gainErrs
  repeat (first
      | with_reducible assumption | (with_reducible refine countCorr_keeps (h := ?_) ..)
      | (with_reducible refine nodeBad_keeps (h := ?_) ..) | (with_reducible refine keeps_foldl _ _ _ ?_ ?_)
      | (with_reducible refine keeps_foldl2 _ _ _ ?_ ?_) | split | dsimp only | (intro _ _ _))

theorem combGainReadDef_keeps : CmdKeeps combGainReadDef := by
  exact ⟨fun _ _ _ _ h => gainErrs_keeps _ _ _ h, fun _ _ _ h => h⟩

theorem combStatusDef_keeps : CmdKeeps combStatusDef := by
  exact ⟨fun _ _ _ _ h => h, fun _ _ _ h => h⟩

theorem clearSparks_keeps {s0 : State} (mask : Word) (s : State) (h : Keeps s0 s) :
    Keeps s0 (clearSparks mask s) := by
  exact keeps_mk rfl h

theorem chimneyStatusDef_keeps : CmdKeeps chimneyStatusDef := by
  (refine ⟨fun m r s hn h => ?_, fun st r s h => ?_⟩ <;> unfold chimneyStatusDef <;> dsimp only <;> (repeat (first
      | with_reducible assumption | (with_reducible refine clearSparks_keeps (h := ?_) ..) | split | dsimp only)))

theorem execCombInfo_goes {s0 : State} (m : Fin 4) (r : Req) (s : State) (h : Keeps s0 s) :
    Goes s0 (execCombInfo m r s) := by
  exact goes_next (mbxCommand_keeps _ combInfoDef_keeps _ _ _ h)

theorem execCombMapSet_goes {s0 : State} (m : Fin 4) (r : Req) (s : State) (h : Keeps s0 s) :
    Goes s0 (execCombMapSet m r s) := by
  exact goes_next (mbxCommand_keeps _ combMapSetDef_keeps _ _ _ h)

theorem execCombMapGet_goes {s0 : State} (m : Fin 4) (r : Req) (s : State) (h : Keeps s0 s) :
    Goes s0 (execCombMapGet m r s) := by
  exact goes_next (mbxCommand_keeps _ combMapGetDef_keeps _ _ _ h)

theorem execCombStage_goes {s0 : State} (m : Fin 4) (r : Req) (s : State) (h : Keeps s0 s) :
    Goes s0 (execCombStage m r s) := by
  exact goes_next (mbxCommand_keeps _ combStageDef_keeps _ _ _ h)

theorem execCombStageBulk_goes {s0 : State} (m : Fin 4) (r : Req) (s : State) (h : Keeps s0 s) :
    Goes s0 (execCombStageBulk m r s) := by
  exact goes_next (mbxCommand_keeps _ combStageBulkDef_keeps _ _ _ h)

theorem execCombCommit_goes {s0 : State} (m : Fin 4) (r : Req) (s : State) (h : Keeps s0 s) :
    Goes s0 (execCombCommit m r s) := by
  exact goes_next (mbxCommand_keeps _ combCommitDef_keeps _ _ _ h)

theorem execCombStageDiscard_goes {s0 : State} (m : Fin 4) (r : Req) (s : State) (h : Keeps s0 s) :
    Goes s0 (execCombStageDiscard m r s) := by
  exact goes_next (mbxCommand_keeps _ combStageDiscardDef_keeps _ _ _ h)

theorem execCombGainRead_goes {s0 : State} (m : Fin 4) (r : Req) (s : State) (h : Keeps s0 s) :
    Goes s0 (execCombGainRead m r s) := by
  exact goes_next (mbxCommand_keeps _ combGainReadDef_keeps _ _ _ h)

theorem execCombStatus_goes {s0 : State} (m : Fin 4) (r : Req) (s : State) (h : Keeps s0 s) :
    Goes s0 (execCombStatus m r s) := by
  exact goes_next (mbxCommand_keeps _ combStatusDef_keeps _ _ _ h)

theorem execChimneyStatus_goes {s0 : State} (m : Fin 4) (r : Req) (s : State) (h : Keeps s0 s) :
    Goes s0 (execChimneyStatus m r s) := by
  exact goes_next (mbxCommand_keeps _ chimneyStatusDef_keeps _ _ _ h)

theorem execRampEnd_goes {s0 : State} (d : Dom) (col : Nat) (s : State) (h : Keeps s0 s) :
    Goes s0 (execRampEnd d col s) := by
  unfold execRampEnd
  repeat (first
      | with_reducible assumption | (with_reducible refine goes_next ?_)
      | (with_reducible refine modComb_keeps (h := ?_) ..) | (with_reducible refine raiseIf_keeps (h := ?_) ..)
      | split | dsimp only)

end Sys2Proof.Machine
end

