-- ==== Sys2Proof/Laws/KeepDomains.lean ====
section
/-! SUPPORT. What every operation of Machine/Domains.lean keeps. -/

namespace Sys2Proof.Machine

theorem modDom_keeps {s0 : State} (f : Domains → Domains) (s : State) (h : Keeps s0 s) :
    Keeps s0 (modDom f s) := by
  exact keeps_mk rfl h

theorem stepGens_keeps {s0 : State} (d : Dom) (s : State) (h : Keeps s0 s) :
    Keeps s0 (stepGens d s) := by
  exact keeps_mk rfl h

theorem setGen_keeps {s0 : State} (i : Fin 24) (w : Wave) (f : F32) (level : F32) (s : State) (h : Keeps s0 s) :
    Keeps s0 (setGen i w f level s) := by
  exact keeps_mk rfl h

theorem retimeGens_keeps {s0 : State} (s : State) (h : Keeps s0 s) :
    Keeps s0 (retimeGens s) := by
  exact keeps_mk rfl h

theorem modBridge_keeps {s0 : State} (i : Nat) (f : Bridge → Bridge) (s : State) (h : Keeps s0 s) :
    Keeps s0 (modBridge i f s) := by
  exact keeps_mk rfl h

theorem slips_keeps {s0 : State} (mask : Word) (s : State) (h : Keeps s0 s) :
    Keeps s0 (slips mask s) := by
  unfold slips
  repeat (first
      | with_reducible assumption | (with_reducible refine raise_keeps (h := ?_) ..)
      | (with_reducible refine forget_keeps (h := ?_) ..) | split | dsimp only
      | ((with_reducible refine keeps_mk ?_ ?_); rfl))

theorem bridgeErrors_keeps {s0 : State} (d : Dom) (s : State) (h : Keeps s0 s) :
    Keeps s0 (bridgeErrors d s) := by
  unfold bridgeErrors
  repeat (first
      | with_reducible assumption | (with_reducible refine slips_keeps (h := ?_) ..) | split | dsimp only)

theorem bridgeWrite_keeps {s0 : State} (i : Nat) (j : Nat) (vals : List F32) (s : State) (h : Keeps s0 s) :
    Keeps s0 (bridgeWrite i j vals s) := by
  unfold bridgeWrite
  repeat (first
      | with_reducible assumption | (with_reducible refine modBridge_keeps (h := ?_) ..) | split | dsimp only)

theorem clearFS_keeps {s0 : State} (s : State) (h : Keeps s0 s) :
    Keeps s0 (clearFS s) := by
  unfold clearFS
  repeat (first
      | with_reducible assumption | (with_reducible refine clearData_keeps (h := ?_) ..)
      | (with_reducible refine keeps_foldl _ _ _ ?_ ?_) | split | dsimp only | (intro _ _ _))

theorem rateDone_keeps {s0 : State} (s : State) (h : Keeps s0 s) :
    Keeps s0 (rateDone s) := by
  unfold rateDone
  repeat (first
      | with_reducible assumption | (with_reducible refine modDom_keeps (h := ?_) ..) | split | dsimp only)

theorem rateAtP_keeps {s0 : State} (x1 : RateChange) (s : State) (h : Keeps s0 s) :
    Keeps s0 (rateAtP x1 s) := by
  unfold rateAtP
  repeat (first
      | with_reducible assumption | (with_reducible refine modDom_keeps (h := ?_) ..)
      | (with_reducible refine retimeGens_keeps (h := ?_) ..) | (with_reducible refine clearFS_keeps (h := ?_) ..)
      | split | dsimp only | ((with_reducible refine keeps_mk ?_ ?_); rfl))

theorem rateTick_keeps {s0 : State} (n : Nat) (s : State) (h : Keeps s0 s) :
    Keeps s0 (rateTick n s) := by
  unfold rateTick
  repeat (first
      | with_reducible assumption | (with_reducible refine modDom_keeps (h := ?_) ..)
      | (with_reducible refine rateAtP_keeps (h := ?_) ..) | (with_reducible refine rateDone_keeps (h := ?_) ..)
      | (with_reducible refine slips_keeps (h := ?_) ..) | split | dsimp only)

theorem rateLock_keeps {s0 : State} (n : Nat) (s : State) (h : Keeps s0 s) :
    Keeps s0 (rateLock n s) := by
  unfold rateLock
  repeat (first
      | with_reducible assumption | (with_reducible refine complete_keeps (h := ?_) ..)
      | (with_reducible refine rateDone_keeps (h := ?_) ..) | (with_reducible refine modDom_keeps (h := ?_) ..)
      | split | dsimp only)

theorem domainSetAct_keeps {s0 : State} (m : Nat) (r : Req) (s : State) (h : Keeps s0 s) :
    Keeps s0 (domainSetAct m r s).1 := by
  unfold domainSetAct
  repeat (first
      | with_reducible assumption | (with_reducible refine modDom_keeps (h := ?_) ..)
      | (with_reducible refine defer_keeps (h := ?_) ..) | split | dsimp only)

theorem domainSetDef_keeps : CmdKeeps domainSetDef := by
  (refine ⟨fun m r s hn h => ?_, fun st r s h => ?_⟩ <;> unfold domainSetDef <;> dsimp only <;> (repeat (first
      | with_reducible assumption | (with_reducible refine domainSetAct_keeps (h := ?_) ..) | split | dsimp only)))

theorem domainInfoDef_keeps : CmdKeeps domainInfoDef := by
  exact ⟨fun _ _ _ _ h => h, fun _ _ _ h => h⟩

theorem bridgeModeSetDef_keeps : CmdKeeps bridgeModeSetDef := by
  (refine ⟨fun m r s hn h => ?_, fun st r s h => ?_⟩ <;> unfold bridgeModeSetDef <;> dsimp only <;> (repeat (first
      | with_reducible assumption | (with_reducible refine stage_keeps (h := ?_) ..) | split | dsimp only)))

theorem setBridge_keeps {s0 : State} (i : Fin 4) (md : BridgeMode) (s : State) (h : Keeps s0 s) :
    Keeps s0 (setBridge i md s) := by
  unfold setBridge
  repeat (first
      | with_reducible assumption | (with_reducible refine slips_keeps (h := ?_) ..)
      | (with_reducible refine modBridge_keeps (h := ?_) ..) | split | dsimp only)

theorem bridgeStatusDef_keeps : CmdKeeps bridgeStatusDef := by
  exact ⟨fun _ _ _ _ h => h, fun _ _ _ h => h⟩

theorem testgenSetDef_keeps : CmdKeeps testgenSetDef := by
  (refine ⟨fun m r s hn h => ?_, fun st r s h => ?_⟩ <;> unfold testgenSetDef <;> dsimp only <;> (repeat (first
      | with_reducible assumption | (with_reducible refine stage_keeps (h := ?_) ..) | split | dsimp only)))

theorem execDomainInfo_goes {s0 : State} (m : Fin 4) (r : Req) (s : State) (h : Keeps s0 s) :
    Goes s0 (execDomainInfo m r s) := by
  exact goes_next (mbxCommand_keeps _ domainInfoDef_keeps _ _ _ h)

theorem execDomainSet_goes {s0 : State} (m : Fin 4) (r : Req) (s : State) (h : Keeps s0 s) :
    Goes s0 (execDomainSet m r s) := by
  exact goes_next (mbxCommand_keeps _ domainSetDef_keeps _ _ _ h)

theorem execBridgeModeSet_goes {s0 : State} (m : Fin 4) (r : Req) (s : State) (h : Keeps s0 s) :
    Goes s0 (execBridgeModeSet m r s) := by
  exact goes_next (mbxCommand_keeps _ bridgeModeSetDef_keeps _ _ _ h)

theorem execBridgeStatus_goes {s0 : State} (m : Fin 4) (r : Req) (s : State) (h : Keeps s0 s) :
    Goes s0 (execBridgeStatus m r s) := by
  exact goes_next (mbxCommand_keeps _ bridgeStatusDef_keeps _ _ _ h)

theorem execTestgenSet_goes {s0 : State} (m : Fin 4) (r : Req) (s : State) (h : Keeps s0 s) :
    Goes s0 (execTestgenSet m r s) := by
  exact goes_next (mbxCommand_keeps _ testgenSetDef_keeps _ _ _ h)

theorem execRateChangeLockTimeout_goes {s0 : State} (s : State) (h : Keeps s0 s) :
    Goes s0 (execRateChangeLockTimeout s) := by
  unfold execRateChangeLockTimeout
  repeat (first
      | with_reducible assumption | (with_reducible refine goes_next ?_)
      | (with_reducible refine complete_keeps (h := ?_) ..) | (with_reducible refine modDom_keeps (h := ?_) ..)
      | split | dsimp only)

end Sys2Proof.Machine
end

