-- ==== Sys2Proof/Laws/KeepSystem.lean ====
section
/-! SUPPORT. What every operation of Machine/System.lean keeps. -/

namespace Sys2Proof.Machine

theorem ringPut_keeps {s0 : State} (x1 : Nat) (x2 : List Word) (x3 : State) (h : Keeps s0 x3) : Keeps s0 (ringPut x1 x2 x3) := by
  have hm (s : State) (n k : Nat) (hs : Keeps s0 s) : Keeps s0 { s with evt := { s.evt with head := n % 1020, ringSeq := k } } :=
    ⟨hs.queue, hs.life, hs.revoked, hs.ram, hs.store, hs.flash, hs.log, hs.vers, hs.tail,
      fun _ => Nat.le_of_lt_succ (Nat.mod_lt _ (by decide)), hs.keys, hs.safe, hs.parts⟩
  unfold ringPut
  refine hm _ _ _ (ramWrite_keeps _ _ _ (ramWrites_keeps _ _ _ ?_))
  split
  · exact h
  · exact ramWrite_keeps _ _ _ h

theorem ringDrop_keeps {s0 : State} (s : State) (h : Keeps s0 s) :
    Keeps s0 (ringDrop s) := by
  unfold ringDrop
  repeat (first
      | with_reducible assumption | (with_reducible refine ramWrite_keeps (h := ?_) ..) | split | dsimp only
      | ((with_reducible refine keeps_mk ?_ ?_); rfl))

theorem completionWrite_keeps {s0 : State} (s : State) (h : Keeps s0 s) :
    Keeps s0 (completionWrite s) := by
  unfold completionWrite
  repeat (first
      | with_reducible assumption | (with_reducible refine ringPut_keeps (h := ?_) ..)
      | (with_reducible refine raise_keeps (h := ?_) ..) | split | dsimp only
      | ((with_reducible refine keeps_mk ?_ ?_); rfl))

theorem completionsWrite_keeps {s0 : State} (x1 : Nat) (x2 : State) (h : Keeps s0 x2) :
    Keeps s0 (completionsWrite x1 x2) := by
  induction x1 generalizing x2 with
    | zero => (unfold completionsWrite; repeat (first
      | with_reducible assumption | (with_reducible refine completionWrite_keeps (h := ?_) ..)
      | (with_reducible refine keeps_foldl _ _ _ ?_ ?_) | split | dsimp only | (intro _ _ _)
      | ((with_reducible refine keeps_mk ?_ ?_); rfl)))
    | succ k ih => (unfold completionsWrite; repeat (first
      | with_reducible assumption | (with_reducible refine ih (h := ?_) ..)
      | (with_reducible refine completionWrite_keeps (h := ?_) ..) | (with_reducible refine keeps_foldl _ _ _ ?_ ?_)
      | split | dsimp only | (intro _ _ _) | ((with_reducible refine keeps_mk ?_ ?_); rfl)))

theorem eventRecord_keeps {s0 : State} (n : Nat) (occ : Nat) (d : Word) (s : State) (h : Keeps s0 s) :
    Keeps s0 (eventRecord n occ d s) := by
  unfold eventRecord
  repeat (first
      | with_reducible assumption | (with_reducible refine completionsWrite_keeps (h := ?_) ..)
      | (with_reducible refine ringPut_keeps (h := ?_) ..) | (with_reducible refine ringDrop_keeps (h := ?_) ..)
      | split | dsimp only)

theorem countEvent_keeps {s0 : State} (n : Nat) (occ : Nat) (s : State) (h : Keeps s0 s) :
    Keeps s0 (countEvent n occ s) := by
  unfold countEvent
  repeat (first
      | with_reducible assumption | (with_reducible refine raiseIf_keeps (h := ?_) ..) | split | dsimp only
      | ((with_reducible refine keeps_mk ?_ ?_); rfl))

theorem execEventDelivery_goes {s0 : State} (n : Fin 64) (s : State) (h : Keeps s0 s) :
    Goes s0 (execEventDelivery n s) := by
  unfold execEventDelivery
  dsimp only
  split
  · exact goes_next h
  · refine goes_next (eventRecord_keeps _ _ _ _ (countEvent_keeps _ _ _ ?_))
    exact keeps_evt _ rfl rfl (fun hp p hm => hp p (List.mem_filter.1 hm).1) h

theorem execCompletionRecordWrite_goes {s0 : State} (s : State) (h : Keeps s0 s) :
    Goes s0 (execCompletionRecordWrite s) := by
  unfold execCompletionRecordWrite
  repeat (first
      | with_reducible assumption | (with_reducible refine goes_next ?_)
      | (with_reducible refine completionWrite_keeps (h := ?_) ..) | split | dsimp only)

theorem execFirmwareFault_goes {s0 : State} (cls : Byte) (code : BitVec 24) (s : State) (h : Keeps s0 s) :
    Goes s0 (execFirmwareFault cls code s) := by
  unfold execFirmwareFault
  repeat (first
      | with_reducible assumption | (with_reducible refine goes_next ?_)
      | (with_reducible refine raise_keeps (h := ?_) ..) | (with_reducible refine logFault_keeps (h := ?_) ..)
      | split | dsimp only | ((with_reducible refine keeps_mk ?_ ?_); rfl))

theorem sysInfoDef_keeps : CmdKeeps sysInfoDef := by
  exact ⟨fun _ _ _ _ h => h, fun _ _ _ h => h⟩

theorem sysHelloDef_keeps : CmdKeeps sysHelloDef := by
  refine ⟨fun m r s hn h => ?_, fun st r s h => h⟩
  have hb := (refusal_none hn).1
  refine ⟨h.queue, h.life, h.revoked, h.ram, h.store, h.flash, h.log, fun hv => ?_, h.tail, h.head, h.keys, h.safe, h.parts⟩
  refine vmodN_get VersionOk _ _ _ (fun b hb' => ⟨hb'.1, fun g hg => ?_⟩) (h.vers hv)
  cases hg
  simp only [sysHelloDef, Bool.or_eq_false_iff, decide_eq_false_iff_not, beq_eq_false_iff_ne] at hb
  omega

theorem sysPowerAct_keeps {s0 : State} (m : Nat) (r : Req) (s : State) (h : Keeps s0 s) :
    Keeps s0 (sysPowerAct m r s).1 := by
  unfold sysPowerAct
  repeat (first
      | with_reducible assumption | (with_reducible refine stage_keeps (h := ?_) ..)
      | (with_reducible refine defer_keeps (h := ?_) ..) | split | dsimp only)

theorem sysPowerDef_keeps : CmdKeeps sysPowerDef := by
  (refine ⟨fun m r s hn h => ?_, fun st r s h => ?_⟩ <;> unfold sysPowerDef <;> dsimp only <;> (repeat (first
      | with_reducible assumption | (with_reducible refine sysPowerAct_keeps (h := ?_) ..) | split | dsimp only)))

theorem sysLoopbackDef_keeps : CmdKeeps sysLoopbackDef := by
  exact ⟨fun _ _ _ _ h => h, fun _ _ _ h => h⟩

theorem closePresence_keeps {s0 : State} (cause : Nat) (s : State) (h : Keeps s0 s) :
    Keeps s0 (closePresence cause s) := by
  unfold closePresence
  repeat (first
      | with_reducible assumption | (with_reducible refine raise_keeps (h := ?_) ..) | split | dsimp only
      | ((with_reducible refine keeps_mk ?_ ?_); rfl))

theorem sysPresenceDef_keeps : CmdKeeps sysPresenceDef := by
  (refine ⟨fun m r s hn h => ?_, fun st r s h => ?_⟩ <;> unfold sysPresenceDef <;> dsimp only <;> (repeat (first
      | with_reducible assumption | (with_reducible refine closePresence_keeps (h := ?_) ..) | split | dsimp only
      | ((with_reducible refine keeps_mk ?_ ?_); rfl))))

theorem askSystemReset_keeps {s0 : State} (m : Nat) (t : BitVec 16) (s : State) (h : Keeps s0 s) :
    Keeps s0 (askSystemReset m t s) := by
  unfold askSystemReset
  repeat (first
      | with_reducible assumption | (with_reducible refine stage_keeps (h := ?_) ..)
      | (with_reducible refine keeps_foldl _ _ _ ?_ ?_) | split | dsimp only | (intro _ _ _)
      | ((with_reducible refine keeps_mk ?_ ?_); rfl)
      | ((with_reducible refine keeps_pow ?_ ?_ ?_ ?_); rfl; (first | exact id | exact safeHeld_rst _ _ | exact safeHeld_hive _ | exact safeHeld_hw _ _ | exact safeHeld_bel _ | exact fun _ h => nomatch h); rfl))

theorem sysResetDef_keeps : CmdKeeps sysResetDef := by
  (refine ⟨fun m r s hn h => ?_, fun st r s h => ?_⟩ <;> unfold sysResetDef <;> dsimp only <;> (repeat (first
      | with_reducible assumption | (with_reducible refine askSystemReset_keeps (h := ?_) ..)
      | (with_reducible refine stage_keeps (h := ?_) ..) | split | dsimp only)))

theorem sysWatchdogDef_keeps : CmdKeeps sysWatchdogDef := by
  (refine ⟨fun m r s hn h => ?_, fun st r s h => ?_⟩ <;> unfold sysWatchdogDef <;> dsimp only <;> (repeat (first
      | with_reducible assumption | split | dsimp only | ((with_reducible refine keeps_mk ?_ ?_); rfl))))

theorem evtInfoDef_keeps : CmdKeeps evtInfoDef := by
  exact ⟨fun _ _ _ _ h => h, fun _ _ _ h => h⟩

theorem evtCountReadDef_keeps : CmdKeeps evtCountReadDef := by
  exact ⟨fun _ _ _ _ h => h, fun _ _ _ h => h⟩

theorem evtCountClearDef_keeps : CmdKeeps evtCountClearDef := by
  (refine ⟨fun m r s hn h => ?_, fun st r s h => ?_⟩ <;> unfold evtCountClearDef <;> dsimp only <;> (repeat (first
      | with_reducible assumption | split | dsimp only | ((with_reducible refine keeps_mk ?_ ?_); rfl))))

theorem evtRingConfigDef_keeps : CmdKeeps evtRingConfigDef := by
  have hm {s0 : State} (c : Bool) (f : State → State) (s : State) (hf : ∀ s, Keeps s0 s → Keeps s0 (f s)) (hs : Keeps s0 s) :
      Keeps s0 (if c = true then f s else s) := by
    split
    · exact hf _ hs
    · exact hs
  refine ⟨fun m r s hn h => ?_, fun st r s h => h⟩
  refine hm _ (fun s => { ramWrites 0xF000 [0, 0] s with evt := { s.evt with head := 0, tail := 0 } }) _ (fun t ht => ?_)
    (hm _ (fun s => { ramWrite 0xF008 0 s with evt := { s.evt with dropped := 0 } }) _ (fun t ht => ?_)
      (keeps_mk rfl h))
  · have hw := ramWrites_keeps 0xF000 [0, 0] t ht
    exact ⟨hw.queue, hw.life, hw.revoked, hw.ram, hw.store, hw.flash, hw.log, hw.vers, fun _ => Nat.zero_le _, fun _ => Nat.zero_le _, hw.keys, hw.safe, hw.parts⟩
  · have hw := ramWrite_keeps 0xF008 0 t ht
    exact ⟨hw.queue, hw.life, hw.revoked, hw.ram, hw.store, hw.flash, hw.log, hw.vers, ht.tail, ht.head, hw.keys, hw.safe, hw.parts⟩

theorem evtTraceMarkDef_keeps : CmdKeeps evtTraceMarkDef := by
  (refine ⟨fun m r s hn h => ?_, fun st r s h => ?_⟩ <;> unfold evtTraceMarkDef <;> dsimp only <;> (repeat (first
      | with_reducible assumption | (with_reducible refine completionsWrite_keeps (h := ?_) ..)
      | (with_reducible refine ringPut_keeps (h := ?_) ..) | (with_reducible refine ringDrop_keeps (h := ?_) ..)
      | split | dsimp only)))

theorem execSysInfo_goes {s0 : State} (m : Fin 4) (r : Req) (s : State) (h : Keeps s0 s) :
    Goes s0 (execSysInfo m r s) := by
  exact goes_next (mbxCommand_keeps _ sysInfoDef_keeps _ _ _ h)

theorem execSysHello_goes {s0 : State} (m : Fin 4) (r : Req) (s : State) (h : Keeps s0 s) :
    Goes s0 (execSysHello m r s) := by
  exact goes_next (mbxCommand_keeps _ sysHelloDef_keeps _ _ _ h)

theorem execSysPower_goes {s0 : State} (m : Fin 4) (r : Req) (s : State) (h : Keeps s0 s) :
    Goes s0 (execSysPower m r s) := by
  exact goes_next (mbxCommand_keeps _ sysPowerDef_keeps _ _ _ h)

theorem execSysLoopback_goes {s0 : State} (m : Fin 4) (r : Req) (s : State) (h : Keeps s0 s) :
    Goes s0 (execSysLoopback m r s) := by
  exact goes_next (mbxCommand_keeps _ sysLoopbackDef_keeps _ _ _ h)

theorem execSysPresence_goes {s0 : State} (m : Fin 4) (r : Req) (s : State) (h : Keeps s0 s) :
    Goes s0 (execSysPresence m r s) := by
  exact goes_next (mbxCommand_keeps _ sysPresenceDef_keeps _ _ _ h)

theorem execSysReset_goes {s0 : State} (m : Fin 4) (r : Req) (s : State) (h : Keeps s0 s) :
    Goes s0 (execSysReset m r s) := by
  exact goes_next (mbxCommand_keeps _ sysResetDef_keeps _ _ _ h)

theorem execSysWatchdog_goes {s0 : State} (m : Fin 4) (r : Req) (s : State) (h : Keeps s0 s) :
    Goes s0 (execSysWatchdog m r s) := by
  exact goes_next (mbxCommand_keeps _ sysWatchdogDef_keeps _ _ _ h)

theorem execEvtInfo_goes {s0 : State} (m : Fin 4) (r : Req) (s : State) (h : Keeps s0 s) :
    Goes s0 (execEvtInfo m r s) := by
  exact goes_next (mbxCommand_keeps _ evtInfoDef_keeps _ _ _ h)

theorem execEvtCountRead_goes {s0 : State} (m : Fin 4) (r : Req) (s : State) (h : Keeps s0 s) :
    Goes s0 (execEvtCountRead m r s) := by
  exact goes_next (mbxCommand_keeps _ evtCountReadDef_keeps _ _ _ h)

theorem execEvtCountClear_goes {s0 : State} (m : Fin 4) (r : Req) (s : State) (h : Keeps s0 s) :
    Goes s0 (execEvtCountClear m r s) := by
  exact goes_next (mbxCommand_keeps _ evtCountClearDef_keeps _ _ _ h)

theorem execEvtRingConfig_goes {s0 : State} (m : Fin 4) (r : Req) (s : State) (h : Keeps s0 s) :
    Goes s0 (execEvtRingConfig m r s) := by
  exact goes_next (mbxCommand_keeps _ evtRingConfigDef_keeps _ _ _ h)

theorem execEvtTraceMark_goes {s0 : State} (m : Fin 4) (r : Req) (s : State) (h : Keeps s0 s) :
    Goes s0 (execEvtTraceMark m r s) := by
  exact goes_next (mbxCommand_keeps _ evtTraceMarkDef_keeps _ _ _ h)

end Sys2Proof.Machine
end

