-- ==== Sys2Proof/Laws/KeepBellows.lean ====
section
/-! SUPPORT. What every operation of Machine/Bellows.lean keeps. -/

namespace Sys2Proof.Machine

theorem modBel_keeps {s0 : State} (c : Fin 32) (f : BelCh → BelCh) (s : State) (h : Keeps s0 s) :
    Keeps s0 (modBel c f s) := by
  exact keeps_mk rfl h

theorem modGrp_keeps {s0 : State} (g : Fin 8) (f : BelGrp → BelGrp) (s : State) (h : Keeps s0 s) :
    Keeps s0 (modGrp g f s) := by
  exact keeps_mk rfl h

theorem drawFigures_keeps {s0 : State} (s : State) (h : Keeps s0 s) :
    Keeps s0 (drawFigures s).2 := by
  unfold drawFigures
  repeat (first
      | with_reducible assumption | (with_reducible refine drawWord_keeps (h := ?_) ..) | split | dsimp only)

theorem endMeasure_keeps {s0 : State} (c : Fin 32) (status : Nat) (s : State) (h : Keeps s0 s) :
    Keeps s0 (endMeasure c status s) := by
  unfold endMeasure
  repeat (first
      | with_reducible assumption | (with_reducible refine modBel_keeps (h := ?_) ..)
      | (with_reducible refine drawFigures_keeps (h := ?_) ..) | (with_reducible refine complete_keeps (h := ?_) ..)
      | split | dsimp only)

theorem belFault_keeps {s0 : State} (c : Fin 32) (s : State) (h : Keeps s0 s) :
    Keeps s0 (belFault c s) := by
  unfold belFault
  repeat (first
      | with_reducible assumption | (with_reducible refine endMeasure_keeps (h := ?_) ..)
      | (with_reducible refine modBel_keeps (h := ?_) ..) | split | dsimp only)

theorem drvTick_keeps {s0 : State} (s : State) (h : Keeps s0 s) :
    Keeps s0 (drvTick s) := by
  exact keeps_mk rfl h

theorem belEnableNow_keeps {s0 : State} (e : Nat) (mask : Word) (on : Bool) (s : State) (h : Keeps s0 s) :
    Keeps s0 (belEnableNow e mask on s) := by
  unfold belEnableNow
  repeat (first
      | with_reducible assumption | (with_reducible refine modGrp_keeps (h := ?_) ..)
      | (with_reducible refine modBel_keeps (h := ?_) ..) | (with_reducible refine keeps_foldl _ _ _ ?_ ?_) | split
      | dsimp only | ((with_reducible refine keeps_mk ?_ ?_); rfl) | (intro _ _ _))

theorem belMuteNow_keeps {s0 : State} (mask : Word) (on : Bool) (s : State) (h : Keeps s0 s) :
    Keeps s0 (belMuteNow mask on s) := by
  unfold belMuteNow
  repeat (first
      | with_reducible assumption | (with_reducible refine modBel_keeps (h := ?_) ..)
      | (with_reducible refine keeps_foldl _ _ _ ?_ ?_) | split | dsimp only | (intro _ _ _))

theorem belFaultClearNow_keeps {s0 : State} (mask : Word) (bits : Word) (s : State) (h : Keeps s0 s) :
    Keeps s0 (belFaultClearNow mask bits s) := by
  unfold belFaultClearNow
  repeat (first
      | with_reducible assumption | (with_reducible refine modGrp_keeps (h := ?_) ..)
      | (with_reducible refine modBel_keeps (h := ?_) ..) | (with_reducible refine keeps_foldl _ _ _ ?_ ?_) | split
      | dsimp only | (intro _ _ _))

theorem belConfigNow_keeps {s0 : State} (mask : Word) (ws : List Word) (s : State) (h : Keeps s0 s) :
    Keeps s0 (belConfigNow mask ws s) := by
  unfold belConfigNow
  repeat (first
      | with_reducible assumption | (with_reducible refine modGrp_keeps (h := ?_) ..)
      | (with_reducible refine modBel_keeps (h := ?_) ..) | (with_reducible refine keeps_foldl _ _ _ ?_ ?_) | split
      | dsimp only | (intro _ _ _) | ((with_reducible refine keeps_mk ?_ ?_); rfl))

theorem belLoopNow_keeps {s0 : State} (mask : Word) (ks : List F32) (s : State) (h : Keeps s0 s) :
    Keeps s0 (belLoopNow mask ks s) := by
  unfold belLoopNow
  repeat (first
      | with_reducible assumption | (with_reducible refine modBel_keeps (h := ?_) ..)
      | (with_reducible refine keeps_foldl _ _ _ ?_ ?_) | split | dsimp only | (intro _ _ _))

theorem belPolicyNow_keeps {s0 : State} (mask : Word) (bits : Word) (s : State) (h : Keeps s0 s) :
    Keeps s0 (belPolicyNow mask bits s) := by
  unfold belPolicyNow
  repeat (first
      | with_reducible assumption | (with_reducible refine modBel_keeps (h := ?_) ..)
      | (with_reducible refine keeps_foldl _ _ _ ?_ ?_) | split | dsimp only | (intro _ _ _))

theorem belMeasureNow_keeps {s0 : State} (c : Fin 32) (m : Measure) (s : State) (h : Keeps s0 s) :
    Keeps s0 (belMeasureNow c m s) := by
  unfold belMeasureNow
  repeat (first
      | with_reducible assumption | (with_reducible refine modBel_keeps (h := ?_) ..)
      | (with_reducible refine endMeasure_keeps (h := ?_) ..) | split | dsimp only)

theorem belRatio_keeps {s0 : State} (m : Nat) (s : State) (h : Keeps s0 s) :
    Keeps s0 (belRatio m s) := by
  exact keeps_mk rfl h

theorem belTickM_keeps {s0 : State} (n : Nat) (s : State) (h : Keeps s0 s) :
    Keeps s0 (belTickM n s) := by
  exact keeps_mk rfl h

theorem belTickF_keeps {s0 : State} (j : Nat) (s : State) (h : Keeps s0 s) :
    Keeps s0 (belTickF j s) := by
  exact keeps_mk rfl h

theorem writeMonitors_keeps {s0 : State} (n : Nat) (s : State) (h : Keeps s0 s) :
    Keeps s0 (writeMonitors n s) := by
  exact keeps_mk rfl h

theorem execBellowsUpdate_goes {s0 : State} (fb : List (BitVec 16 × BitVec 16)) (s : State) (h : Keeps s0 s) :
    Goes s0 (execBellowsUpdate fb s) := by
  unfold execBellowsUpdate
  repeat (first
      | with_reducible assumption | (with_reducible refine goes_next ?_)
      | (with_reducible refine endMeasure_keeps (h := ?_) ..)
      | (with_reducible refine writeMonitors_keeps (h := ?_) ..) | (with_reducible refine keeps_foldl _ _ _ ?_ ?_)
      | split | dsimp only | (intro _ _ _) | ((with_reducible refine keeps_mk ?_ ?_); rfl))

theorem execDrvWakeEnd_goes {s0 : State} (g : Fin 8) (s : State) (h : Keeps s0 s) :
    Goes s0 (execDrvWakeEnd g s) := by
  unfold execDrvWakeEnd
  repeat (first
      | with_reducible assumption | (with_reducible refine goes_next ?_)
      | (with_reducible refine modBel_keeps (h := ?_) ..) | (with_reducible refine keeps_foldl _ _ _ ?_ ?_) | split
      | dsimp only | (intro _ _ _))

theorem execUnmuteStart_goes {s0 : State} (c : Fin 32) (s : State) (h : Keeps s0 s) :
    Goes s0 (execUnmuteStart c s) := by
  unfold execUnmuteStart
  repeat (first
      | with_reducible assumption | (with_reducible refine goes_next ?_)
      | (with_reducible refine endMeasure_keeps (h := ?_) ..) | (with_reducible refine modBel_keeps (h := ?_) ..)
      | split | dsimp only)

theorem execMuteRampEnd_goes {s0 : State} (c : Fin 32) (s : State) (h : Keeps s0 s) :
    Goes s0 (execMuteRampEnd c s) := by
  unfold execMuteRampEnd
  repeat (first
      | with_reducible assumption | (with_reducible refine goes_next ?_)
      | (with_reducible refine modBel_keeps (h := ?_) ..) | split | dsimp only)

theorem execDisableStop_goes {s0 : State} (c : Fin 32) (s : State) (h : Keeps s0 s) :
    Goes s0 (execDisableStop c s) := by
  unfold execDisableStop
  repeat (first
      | with_reducible assumption | (with_reducible refine goes_next ?_)
      | (with_reducible refine modBel_keeps (h := ?_) ..) | (with_reducible refine endMeasure_keeps (h := ?_) ..)
      | split | dsimp only)

theorem execKillEnter_goes {s0 : State} (c : Fin 32) (s : State) (h : Keeps s0 s) :
    Goes s0 (execKillEnter c s) := by
  unfold execKillEnter
  repeat (first
      | with_reducible assumption | (with_reducible refine goes_next ?_)
      | (with_reducible refine modBel_keeps (h := ?_) ..) | (with_reducible refine endMeasure_keeps (h := ?_) ..)
      | split | dsimp only)

theorem execKillReleaseRestart_goes {s0 : State} (c : Fin 32) (s : State) (h : Keeps s0 s) :
    Goes s0 (execKillReleaseRestart c s) := by
  unfold execKillReleaseRestart
  repeat (first
      | with_reducible assumption | (with_reducible refine goes_next ?_)
      | (with_reducible refine modBel_keeps (h := ?_) ..) | split | dsimp only | ((with_reducible refine keeps_mk ?_ ?_); rfl))

theorem execDriverFault_goes {s0 : State} (g : Fin 8) (s : State) (h : Keeps s0 s) :
    Goes s0 (execDriverFault g s) := by
  unfold execDriverFault
  repeat (first
      | with_reducible assumption | (with_reducible refine goes_next ?_)
      | (with_reducible refine modGrp_keeps (h := ?_) ..) | (with_reducible refine belFault_keeps (h := ?_) ..)
      | (with_reducible refine modBel_keeps (h := ?_) ..) | (with_reducible refine raise_keeps (h := ?_) ..)
      | (with_reducible refine keeps_foldl _ _ _ ?_ ?_) | split | dsimp only | (intro _ _ _))

theorem execDriverFaultRetry_goes {s0 : State} (g : Fin 8) (s : State) (h : Keeps s0 s) :
    Goes s0 (execDriverFaultRetry g s) := by
  unfold execDriverFaultRetry
  repeat (first
      | with_reducible assumption | (with_reducible refine goes_next ?_)
      | (with_reducible refine modGrp_keeps (h := ?_) ..) | (with_reducible refine modBel_keeps (h := ?_) ..)
      | (with_reducible refine keeps_foldl _ _ _ ?_ ?_) | split | dsimp only | (intro _ _ _))

theorem execFeedbackLoss_goes {s0 : State} (c : Fin 32) (volt : Bool) (s : State) (h : Keeps s0 s) :
    Goes s0 (execFeedbackLoss c volt s) := by
  unfold execFeedbackLoss
  repeat (first
      | with_reducible assumption | (with_reducible refine goes_next ?_)
      | (with_reducible refine raise_keeps (h := ?_) ..) | (with_reducible refine modBel_keeps (h := ?_) ..)
      | (with_reducible refine belFault_keeps (h := ?_) ..) | split | dsimp only)

theorem execMismatchWindowEnd_goes {s0 : State} (s : State) (h : Keeps s0 s) :
    Goes s0 (execMismatchWindowEnd s) := by
  unfold execMismatchWindowEnd
  repeat (first
      | with_reducible assumption | (with_reducible refine goes_next ?_)
      | (with_reducible refine raise_keeps (h := ?_) ..) | (with_reducible refine modBel_keeps (h := ?_) ..)
      | (with_reducible refine belFault_keeps (h := ?_) ..) | (with_reducible refine keeps_foldl _ _ _ ?_ ?_)
      | split | dsimp only | (intro _ _ _) | ((with_reducible refine keeps_mk ?_ ?_); rfl))

theorem muteRequest_keeps {s0 : State} (s : State) (h : Keeps s0 s) :
    Keeps s0 (muteRequest s) := by
  exact keeps_mk rfl h

theorem execBellowsMuteRequest_goes {s0 : State} (s : State) (h : Keeps s0 s) :
    Goes s0 (execBellowsMuteRequest s) := by
  unfold execBellowsMuteRequest
  repeat (first
      | with_reducible assumption | (with_reducible refine goes_next ?_)
      | (with_reducible refine muteRequest_keeps (h := ?_) ..) | split | dsimp only)

theorem execBellowsMuteAck_goes {s0 : State} (s : State) (h : Keeps s0 s) :
    Goes s0 (execBellowsMuteAck s) := by
  unfold execBellowsMuteAck
  repeat (first
      | with_reducible assumption | (with_reducible refine goes_next ?_) | split | dsimp only
      | ((with_reducible refine keeps_mk ?_ ?_); rfl))

theorem heldRestart_keeps {s0 : State} (s : State) (h : Keeps s0 s) :
    Keeps s0 (heldRestart s) := by
  unfold heldRestart
  repeat (first
      | with_reducible assumption | split | dsimp only | ((with_reducible refine keeps_mk ?_ ?_); rfl))

theorem belStage_keeps {s0 : State} (m : Nat) (w : Nat) (chg : Req → Change) (r : Req) (s : State) (h : Keeps s0 s) :
    Keeps s0 (belStage m w chg r s).1 := by
  unfold belStage
  repeat (first
      | with_reducible assumption | (with_reducible refine stage_keeps (h := ?_) ..) | split | dsimp only)

theorem belInfoDef_keeps : CmdKeeps belInfoDef := by
  exact ⟨fun _ _ _ _ h => h, fun _ _ _ h => h⟩

theorem belConfigDef_keeps : CmdKeeps belConfigDef := by
  (refine ⟨fun m r s hn h => ?_, fun st r s h => ?_⟩ <;> unfold belConfigDef <;> dsimp only <;> (repeat (first
      | with_reducible assumption | (with_reducible refine belStage_keeps (h := ?_) ..) | split | dsimp only)))

theorem belLoopSetDef_keeps : CmdKeeps belLoopSetDef := by
  (refine ⟨fun m r s hn h => ?_, fun st r s h => ?_⟩ <;> unfold belLoopSetDef <;> dsimp only <;> (repeat (first
      | with_reducible assumption | (with_reducible refine belStage_keeps (h := ?_) ..) | split | dsimp only)))

theorem belEnableDef_keeps : CmdKeeps belEnableDef := by
  (refine ⟨fun m r s hn h => ?_, fun st r s h => ?_⟩ <;> unfold belEnableDef <;> dsimp only <;> (repeat (first
      | with_reducible assumption | (with_reducible refine belStage_keeps (h := ?_) ..) | split | dsimp only)))

theorem belMuteDef_keeps : CmdKeeps belMuteDef := by
  (refine ⟨fun m r s hn h => ?_, fun st r s h => ?_⟩ <;> unfold belMuteDef <;> dsimp only <;> (repeat (first
      | with_reducible assumption | (with_reducible refine belStage_keeps (h := ?_) ..) | split | dsimp only)))

theorem belCarrierSetDef_keeps : CmdKeeps belCarrierSetDef := by
  (refine ⟨fun m r s hn h => ?_, fun st r s h => ?_⟩ <;> unfold belCarrierSetDef <;> dsimp only <;> (repeat (first
      | with_reducible assumption | (with_reducible refine belStage_keeps (h := ?_) ..) | split | dsimp only)))

theorem belStatusDef_keeps : CmdKeeps belStatusDef := by
  exact ⟨fun _ _ _ _ h => h, fun _ _ _ h => h⟩

theorem belFaultClearDef_keeps : CmdKeeps belFaultClearDef := by
  (refine ⟨fun m r s hn h => ?_, fun st r s h => ?_⟩ <;> unfold belFaultClearDef <;> dsimp only <;> (repeat (first
      | with_reducible assumption | (with_reducible refine belStage_keeps (h := ?_) ..) | split | dsimp only)))

theorem belFaultPolicyDef_keeps : CmdKeeps belFaultPolicyDef := by
  (refine ⟨fun m r s hn h => ?_, fun st r s h => ?_⟩ <;> unfold belFaultPolicyDef <;> dsimp only <;> (repeat (first
      | with_reducible assumption | (with_reducible refine belStage_keeps (h := ?_) ..) | split | dsimp only)))

theorem belMeasureZDef_keeps : CmdKeeps belMeasureZDef := by
  (refine ⟨fun m r s hn h => ?_, fun st r s h => ?_⟩ <;> unfold belMeasureZDef <;> dsimp only <;> (repeat (first
      | with_reducible assumption | (with_reducible refine defer_keeps (h := ?_) ..)
      | (with_reducible refine stage_keeps (h := ?_) ..) | split | dsimp only)))

theorem execBelInfo_goes {s0 : State} (m : Fin 4) (r : Req) (s : State) (h : Keeps s0 s) :
    Goes s0 (execBelInfo m r s) := by
  exact goes_next (mbxCommand_keeps _ belInfoDef_keeps _ _ _ h)

theorem execBelConfig_goes {s0 : State} (m : Fin 4) (r : Req) (s : State) (h : Keeps s0 s) :
    Goes s0 (execBelConfig m r s) := by
  exact goes_next (mbxCommand_keeps _ belConfigDef_keeps _ _ _ h)

theorem execBelLoopSet_goes {s0 : State} (m : Fin 4) (r : Req) (s : State) (h : Keeps s0 s) :
    Goes s0 (execBelLoopSet m r s) := by
  exact goes_next (mbxCommand_keeps _ belLoopSetDef_keeps _ _ _ h)

theorem execBelEnable_goes {s0 : State} (m : Fin 4) (r : Req) (s : State) (h : Keeps s0 s) :
    Goes s0 (execBelEnable m r s) := by
  exact goes_next (mbxCommand_keeps _ belEnableDef_keeps _ _ _ h)

theorem execBelMute_goes {s0 : State} (m : Fin 4) (r : Req) (s : State) (h : Keeps s0 s) :
    Goes s0 (execBelMute m r s) := by
  exact goes_next (mbxCommand_keeps _ belMuteDef_keeps _ _ _ h)

theorem execBelCarrierSet_goes {s0 : State} (m : Fin 4) (r : Req) (s : State) (h : Keeps s0 s) :
    Goes s0 (execBelCarrierSet m r s) := by
  exact goes_next (mbxCommand_keeps _ belCarrierSetDef_keeps _ _ _ h)

theorem execBelStatus_goes {s0 : State} (m : Fin 4) (r : Req) (s : State) (h : Keeps s0 s) :
    Goes s0 (execBelStatus m r s) := by
  exact goes_next (mbxCommand_keeps _ belStatusDef_keeps _ _ _ h)

theorem execBelFaultClear_goes {s0 : State} (m : Fin 4) (r : Req) (s : State) (h : Keeps s0 s) :
    Goes s0 (execBelFaultClear m r s) := by
  exact goes_next (mbxCommand_keeps _ belFaultClearDef_keeps _ _ _ h)

theorem execBelFaultPolicy_goes {s0 : State} (m : Fin 4) (r : Req) (s : State) (h : Keeps s0 s) :
    Goes s0 (execBelFaultPolicy m r s) := by
  exact goes_next (mbxCommand_keeps _ belFaultPolicyDef_keeps _ _ _ h)

theorem execBelMeasureZ_goes {s0 : State} (m : Fin 4) (r : Req) (s : State) (h : Keeps s0 s) :
    Goes s0 (execBelMeasureZ m r s) := by
  exact goes_next (mbxCommand_keeps _ belMeasureZDef_keeps _ _ _ h)

end Sys2Proof.Machine
end

