-- ==== Sys2Proof/Laws/KeepPorts.lean ====
section
/-! SUPPORT. What every operation of Machine/Ports.lean keeps. -/

namespace Sys2Proof.Machine

theorem modSide_keeps {s0 : State} (p : Fin 8) (d : Side) (f : PortSide → PortSide) (s : State) (h : Keeps s0 s) :
    Keeps s0 (modSide p d f s) := by
  unfold modSide
  repeat (first
      | with_reducible assumption | split | dsimp only | ((with_reducible refine keeps_mk ?_ ?_); rfl))

theorem portFlag_keeps {s0 : State} (p : Fin 8) (d : Side) (b : Nat) (s : State) (h : Keeps s0 s) :
    Keeps s0 (portFlag p d b s) := by
  have hm := modSide_keeps p d (fun y => { y with ev := y.ev ||| BitVec.ofNat 9 (2 ^ b) }) s h
  unfold portFlag
  dsimp only
  split
  · exact hm
  · refine raiseFrom_keeps _ _ _ _ ?_ ?_ hm
    · cases d <;> simp only [sideSrc] <;> omega
    · have : 24 + p.val < 32 := by omega
      simp [sharedEvt, this]

theorem sideCut_keeps {s0 : State} (p : Fin 8) (d : Side) (s : State) (h : Keeps s0 s) :
    Keeps s0 (sideCut p d s) := by
  unfold sideCut
  repeat (first
      | with_reducible assumption | (with_reducible refine dropEvts_keeps (h := ?_) ..)
      | (with_reducible refine unstage_keeps (h := ?_) ..) | split | dsimp only | ((with_reducible refine keeps_mk ?_ ?_); rfl))

theorem portLate_keeps {s0 : State} (p : Fin 8) (d : Side) (b : Nat) (s : State) (h : Keeps s0 s) :
    Keeps s0 (portLate p d b s) := by
  unfold portLate
  repeat (first
      | with_reducible assumption | (with_reducible refine portFlag_keeps (h := ?_) ..)
      | (with_reducible refine modSide_keeps (h := ?_) ..) | split | dsimp only)

theorem rxWrite_keeps {s0 : State} (p : Fin 8) (n : Nat) (vals : List F32) (s : State) (h : Keeps s0 s) :
    Keeps s0 (rxWrite p n vals s) := by
  unfold rxWrite
  repeat (first
      | with_reducible assumption | (with_reducible refine modSide_keeps (h := ?_) ..) | split | dsimp only)

theorem writeTail_keeps {s0 : State} (p : Fin 8) (n : Nat) (s : State) (h : Keeps s0 s) :
    Keeps s0 (writeTail p n s) := by
  unfold writeTail
  repeat (first
      | with_reducible assumption | (with_reducible refine rxWrite_keeps (h := ?_) ..) | split | dsimp only)

theorem startTail_keeps {s0 : State} (p : Fin 8) (d : Side) (n : Nat) (s : State) (h : Keeps s0 s) :
    Keeps s0 (startTail p d n s) := by
  unfold startTail
  repeat (first
      | with_reducible assumption | (with_reducible refine modSide_keeps (h := ?_) ..)
      | (with_reducible refine writeTail_keeps (h := ?_) ..) | split | dsimp only | ((with_reducible refine keeps_mk ?_ ?_); rfl))

theorem alignSide_keeps {s0 : State} (p : Fin 8) (d : Side) (g : Bool) (s : State) (h : Keeps s0 s) :
    Keeps s0 (alignSide p d g s) := by
  unfold alignSide
  repeat (first
      | with_reducible assumption | (with_reducible refine modSide_keeps (h := ?_) ..) | split | dsimp only)

theorem alignAlone_keeps {s0 : State} (p : Fin 8) (d : Side) (s : State) (h : Keeps s0 s) :
    Keeps s0 (alignAlone p d s) := by
  unfold alignAlone
  repeat (first
      | with_reducible assumption | (with_reducible refine alignSide_keeps (h := ?_) ..) | split | dsimp only
      | ((with_reducible refine keeps_mk ?_ ?_); rfl))

theorem rejoin_keeps {s0 : State} (p : Fin 8) (d : Side) (s : State) (h : Keeps s0 s) :
    Keeps s0 (rejoin p d s) := by
  unfold rejoin
  repeat (first
      | with_reducible assumption | (with_reducible refine modSide_keeps (h := ?_) ..)
      | (with_reducible refine portFlag_keeps (h := ?_) ..) | (with_reducible refine alignAlone_keeps (h := ?_) ..)
      | split | dsimp only)

theorem restartSide_keeps {s0 : State} (p : Fin 8) (d : Side) (tail : Bool) (n : Nat) (s : State) (h : Keeps s0 s) :
    Keeps s0 (restartSide p d tail n s) := by
  unfold restartSide
  repeat (first
      | with_reducible assumption | (with_reducible refine measure_keeps (h := ?_) ..) | (with_reducible refine startTail_keeps (h := ?_) ..)
      | (with_reducible refine modSide_keeps (h := ?_) ..) | (with_reducible refine rejoin_keeps (h := ?_) ..)
      | split | dsimp only | ((with_reducible refine keeps_mk ?_ ?_); rfl))

theorem stopSide_keeps {s0 : State} (p : Fin 8) (d : Side) (n : Nat) (s : State) (h : Keeps s0 s) :
    Keeps s0 (stopSide p d n s) := by
  unfold stopSide
  repeat (first
      | with_reducible assumption | (with_reducible refine modSide_keeps (h := ?_) ..)
      | (with_reducible refine startTail_keeps (h := ?_) ..) | split | dsimp only)

theorem portEnableNow_keeps {s0 : State} (p : Fin 8) (d : Side) (on : Bool) (n : Nat) (s : State) (h : Keeps s0 s) :
    Keeps s0 (portEnableNow p d on n s) := by
  unfold portEnableNow
  repeat (first
      | with_reducible assumption | (with_reducible refine modSide_keeps (h := ?_) ..)
      | (with_reducible refine restartSide_keeps (h := ?_) ..) | (with_reducible refine stopSide_keeps (h := ?_) ..)
      | split | dsimp only)

theorem groupEnableNow_keeps {s0 : State} (g : Fin 4) (on : Bool) (n : Nat) (s : State) (h : Keeps s0 s) :
    Keeps s0 (groupEnableNow g on n s) := by
  unfold groupEnableNow
  repeat (first
      | with_reducible assumption | (with_reducible refine portEnableNow_keeps (h := ?_) ..)
      | (with_reducible refine keeps_foldl _ _ _ ?_ ?_) | split | dsimp only | (intro _ _ _)
      | ((with_reducible refine keeps_mk ?_ ?_); rfl))

theorem portsStart_keeps {s0 : State} (n : Nat) (s : State) (h : Keeps s0 s) :
    Keeps s0 (portsStart n s) := by
  unfold portsStart
  repeat (first
      | with_reducible assumption | (with_reducible refine restartSide_keeps (h := ?_) ..)
      | (with_reducible refine keeps_foldl _ _ _ ?_ ?_) | split | dsimp only | (intro _ _ _)
      | ((with_reducible refine keeps_mk ?_ ?_); rfl))

theorem portsStop_keeps {s0 : State} (n : Nat) (s : State) (h : Keeps s0 s) :
    Keeps s0 (portsStop n s) := by
  unfold portsStop
  repeat (first
      | with_reducible assumption | (with_reducible refine stopSide_keeps (h := ?_) ..)
      | (with_reducible refine keeps_foldl _ _ _ ?_ ?_) | split | dsimp only | (intro _ _ _))

theorem emptyGroups_keeps {s0 : State} (s : State) (h : Keeps s0 s) :
    Keeps s0 (emptyGroups s) := by
  exact keeps_mk rfl h

theorem portsReset_keeps {s0 : State} (n : Nat) (s : State) (h : Keeps s0 s) :
    Keeps s0 (portsReset n s) := by
  unfold portsReset
  repeat (first
      | with_reducible assumption | (with_reducible refine emptyGroups_keeps (h := ?_) ..) | (with_reducible refine modSide_keeps (h := ?_) ..)
      | (with_reducible refine sideCut_keeps (h := ?_) ..) | (with_reducible refine restartSide_keeps (h := ?_) ..)
      | (with_reducible refine keeps_foldl _ _ _ ?_ ?_) | split | dsimp only | (intro _ _ _))

theorem portsNotify_keeps {s0 : State} (s : State) (h : Keeps s0 s) :
    Keeps s0 (portsNotify s) := by
  unfold portsNotify
  repeat (first
      | with_reducible assumption | (with_reducible refine restartSide_keeps (h := ?_) ..)
      | (with_reducible refine keeps_foldl _ _ _ ?_ ?_) | split | dsimp only | (intro _ _ _))

theorem alignGroup_keeps {s0 : State} (g : Fin 4) (s : State) (h : Keeps s0 s) :
    Keeps s0 (alignGroup g s) := by
  unfold alignGroup
  repeat (first
      | with_reducible assumption | (with_reducible refine alignSide_keeps (h := ?_) ..)
      | (with_reducible refine keeps_foldl _ _ _ ?_ ?_) | split | dsimp only | (intro _ _ _)
      | ((with_reducible refine keeps_mk ?_ ?_); rfl))

theorem groupTick_keeps {s0 : State} (n : Nat) (g : Fin 4) (s : State) (h : Keeps s0 s) :
    Keeps s0 (groupTick n g s) := by
  unfold groupTick
  repeat (first
      | with_reducible assumption | (with_reducible refine alignGroup_keeps (h := ?_) ..) | split | dsimp only)

theorem ercTick_keeps {s0 : State} (n : Nat) (s : State) (h : Keeps s0 s) :
    Keeps s0 (ercTick n s) := by
  exact keeps_mk rfl h

theorem portsTick_keeps {s0 : State} (n : Nat) (s : State) (h : Keeps s0 s) :
    Keeps s0 (portsTick n s) := by
  unfold portsTick
  repeat (first
      | with_reducible assumption | (with_reducible refine ercTick_keeps (h := ?_) ..)
      | (with_reducible refine groupTick_keeps (h := ?_) ..) | (with_reducible refine modSide_keeps (h := ?_) ..)
      | (with_reducible refine writeTail_keeps (h := ?_) ..) | (with_reducible refine keeps_foldl _ _ _ ?_ ?_)
      | split | dsimp only | (intro _ _ _))

theorem fadeStep_keeps {s0 : State} (p : Fin 8) (d : Side) (s : State) (h : Keeps s0 s) :
    Keeps s0 (fadeStep p d s).2 := by
  unfold fadeStep
  repeat (first
      | with_reducible assumption | (with_reducible refine portFlag_keeps (h := ?_) ..)
      | (with_reducible refine modSide_keeps (h := ?_) ..) | split | dsimp only)

theorem numberSide_keeps {s0 : State} (p : Fin 8) (d : Side) (n : Nat) (s : State) (h : Keeps s0 s) :
    Keeps s0 (numberSide p d n s) := by
  unfold numberSide
  repeat (first
      | with_reducible assumption | (with_reducible refine modSide_keeps (h := ?_) ..) | split | dsimp only)

theorem countSide_keeps {s0 : State} (p : Fin 8) (d : Side) (s : State) (h : Keeps s0 s) :
    Keeps s0 (countSide p d s) := by
  unfold countSide
  repeat (first
      | with_reducible assumption | (with_reducible refine modSide_keeps (h := ?_) ..) | split | dsimp only)

theorem deliverRx_keeps {s0 : State} (p : Fin 8) (vs : List F32) (s : State) (h : Keeps s0 s) :
    Keeps s0 (deliverRx p vs s) := by
  unfold deliverRx
  repeat (first
      | with_reducible assumption | (with_reducible refine numberSide_keeps (h := ?_) ..)
      | (with_reducible refine fadeStep_keeps (h := ?_) ..) | (with_reducible refine countSide_keeps (h := ?_) ..)
      | (with_reducible refine portLate_keeps (h := ?_) ..) | (with_reducible refine rxWrite_keeps (h := ?_) ..)
      | split | dsimp only)

theorem rateChanged_keeps {s0 : State} (p : Fin 8) (d : Side) (s : State) (h : Keeps s0 s) :
    Keeps s0 (rateChanged p d s) := by
  unfold rateChanged
  repeat (first
      | with_reducible assumption | (with_reducible refine restartSide_keeps (h := ?_) ..)
      | (with_reducible refine portFlag_keeps (h := ?_) ..) | split | dsimp only)

theorem syncGlitch_keeps {s0 : State} (p : Fin 8) (side : Side) (s : State) (h : Keeps s0 s) :
    Keeps s0 (syncGlitch p side s) := by
  unfold syncGlitch
  repeat (first
      | with_reducible assumption | (with_reducible refine measure_keeps (h := ?_) ..) | (with_reducible refine portFlag_keeps (h := ?_) ..)
      | (with_reducible refine modSide_keeps (h := ?_) ..) | (with_reducible refine fadeStep_keeps (h := ?_) ..)
      | (with_reducible refine countSide_keeps (h := ?_) ..) | (with_reducible refine portLate_keeps (h := ?_) ..)
      | (with_reducible refine rxWrite_keeps (h := ?_) ..) | split | dsimp only | ((with_reducible refine keeps_mk ?_ ?_); rfl))

theorem execFrameSyncGlitch_goes {s0 : State} (p : Fin 8) (side : Side) (s : State) (h : Keeps s0 s) :
    Goes s0 (execFrameSyncGlitch p side s) := by
  unfold execFrameSyncGlitch
  repeat (first
      | with_reducible assumption | (with_reducible refine goes_next ?_)
      | (with_reducible refine syncGlitch_keeps (h := ?_) ..) | split | dsimp only)

theorem execPortFrameComplete_goes {s0 : State} (f : PortFrame) (s : State) (h : Keeps s0 s) :
    Goes s0 (execPortFrameComplete f s) := by
  unfold execPortFrameComplete
  repeat (first
      | with_reducible assumption | (with_reducible refine measure_keeps (h := ?_) ..) | (with_reducible refine goes_next ?_)
      | (with_reducible refine syncGlitch_keeps (h := ?_) ..) | (with_reducible refine modSide_keeps (h := ?_) ..)
      | (with_reducible refine rateChanged_keeps (h := ?_) ..)
      | (with_reducible refine restartSide_keeps (h := ?_) ..) | (with_reducible refine portFlag_keeps (h := ?_) ..)
      | (with_reducible refine deliverRx_keeps (h := ?_) ..) | split | dsimp only | ((with_reducible refine keeps_mk ?_ ?_); rfl))

theorem holdForeign_keeps {s0 : State} (p : Fin 8) (fill : Rat) (s : State) (h : Keeps s0 s) :
    Keeps s0 (holdForeign p fill s) := by
  unfold holdForeign
  repeat (first
      | with_reducible assumption | (with_reducible refine numberSide_keeps (h := ?_) ..)
      | (with_reducible refine fadeStep_keeps (h := ?_) ..) | (with_reducible refine modSide_keeps (h := ?_) ..)
      | (with_reducible refine rxWrite_keeps (h := ?_) ..) | split | dsimp only
      | ((with_reducible refine keeps_mk ?_ ?_); rfl))

theorem execHoldStageCheck_goes {s0 : State} (p : Fin 8) (edgeSeen : Bool) (s : State) (h : Keeps s0 s) :
    Goes s0 (execHoldStageCheck p edgeSeen s) := by
  unfold execHoldStageCheck
  repeat (first
      | with_reducible assumption | (with_reducible refine goes_next ?_)
      | (with_reducible refine modSide_keeps (h := ?_) ..) | (with_reducible refine rateChanged_keeps (h := ?_) ..)
      | (with_reducible refine holdForeign_keeps (h := ?_) ..) | (with_reducible refine rxWrite_keeps (h := ?_) ..)
      | (with_reducible refine portLate_keeps (h := ?_) ..) | split | dsimp only)

theorem sendPin_keeps {s0 : State} (p : Fin 8) (vs : List F32) (s : State) (h : Keeps s0 s) :
    Keeps s0 (sendPin p vs s) := by
  unfold sendPin
  repeat (first
      | with_reducible assumption | (with_reducible refine modSide_keeps (h := ?_) ..)
      | (with_reducible refine portFlag_keeps (h := ?_) ..) | split | dsimp only)

theorem pinBody_keeps {s0 : State} (p : Fin 8) (f : F32) (x3 : Nat) (s : State) (h : Keeps s0 s) :
    Keeps s0 (pinBody p f x3 s) := by
  unfold pinBody
  split
  · exact sendPin_keeps _ _ _ h
  · exact sendPin_keeps _ _ _ (portLate_keeps _ _ _ _ h)

theorem execTransmitPinFrameOpen_goes {s0 : State} (p : Fin 8) (s : State) (h : Keeps s0 s) :
    Goes s0 (execTransmitPinFrameOpen p s) := by
  unfold execTransmitPinFrameOpen
  repeat (first
      | with_reducible assumption | (with_reducible refine goes_next ?_)
      | (with_reducible refine sendPin_keeps (h := ?_) ..) | (with_reducible refine numberSide_keeps (h := ?_) ..)
      | (with_reducible refine fadeStep_keeps (h := ?_) ..) | (with_reducible refine pinBody_keeps (h := ?_) ..)
      | (with_reducible refine countSide_keeps (h := ?_) ..) | split | dsimp only)

theorem execLossOfClock_goes {s0 : State} (p : Fin 8) (side : Side) (s : State) (h : Keeps s0 s) :
    Goes s0 (execLossOfClock p side s) := by
  unfold execLossOfClock
  repeat (first
      | with_reducible assumption | (with_reducible refine goes_next ?_)
      | (with_reducible refine portFlag_keeps (h := ?_) ..) | (with_reducible refine modSide_keeps (h := ?_) ..)
      | (with_reducible refine restartSide_keeps (h := ?_) ..) | split | dsimp only | ((with_reducible refine keeps_mk ?_ ?_); rfl))

theorem execPortMeasureDone_goes {s0 : State} (p : Fin 8) (side : Side) (period : Nat) (pos : Nat) (s : State) (h : Keeps s0 s) :
    Goes s0 (execPortMeasureDone p side period pos s) := by
  unfold execPortMeasureDone
  repeat (first
      | with_reducible assumption | (with_reducible refine goes_next ?_)
      | (with_reducible refine portFlag_keeps (h := ?_) ..) | (with_reducible refine modSide_keeps (h := ?_) ..)
      | (with_reducible refine rejoin_keeps (h := ?_) ..) | split | dsimp only)

theorem execGroupAlignTimeout_goes {s0 : State} (g : Fin 4) (s : State) (h : Keeps s0 s) :
    Goes s0 (execGroupAlignTimeout g s) := by
  unfold execGroupAlignTimeout
  repeat (first
      | with_reducible assumption | (with_reducible refine goes_next ?_)
      | (with_reducible refine alignGroup_keeps (h := ?_) ..) | split | dsimp only
      | ((with_reducible refine keeps_mk ?_ ?_); rfl))

theorem portInfoDef_keeps : CmdKeeps portInfoDef := by
  exact ⟨fun _ _ _ _ h => h, fun _ _ _ h => h⟩

theorem portConfigDef_keeps : CmdKeeps portConfigDef := by
  (refine ⟨fun m r s hn h => ?_, fun st r s h => ?_⟩ <;> unfold portConfigDef <;> dsimp only <;> (repeat (first
      | with_reducible assumption | (with_reducible refine modSide_keeps (h := ?_) ..)
      | (with_reducible refine sideCut_keeps (h := ?_) ..) | (with_reducible refine keeps_foldl _ _ _ ?_ ?_) | split
      | dsimp only | (intro _ _ _))))

theorem armRing_keeps {s0 : State} (m : Nat) (t : BitVec 16) (r : Fin 16) (e : Nat) (s : State) (h : Keeps s0 s) :
    Keeps s0 (armRing m t r e s) := by
  unfold armRing
  repeat (first
      | with_reducible assumption | (with_reducible refine stage_keeps (h := ?_) ..) | split | dsimp only
      | ((with_reducible refine keeps_mk ?_ ?_); rfl))

theorem armGroup_keeps {s0 : State} (m : Nat) (t : BitVec 16) (g : Fin 4) (e : Nat) (s : State) (h : Keeps s0 s) :
    Keeps s0 (armGroup m t g e s) := by
  unfold armGroup
  repeat (first
      | with_reducible assumption | (with_reducible refine armRing_keeps (h := ?_) ..)
      | (with_reducible refine keeps_foldl _ _ _ ?_ ?_) | split | dsimp only | (intro _ _ _))

theorem portEnableDef_keeps : CmdKeeps portEnableDef := by
  (refine ⟨fun m r s hn h => ?_, fun st r s h => ?_⟩ <;> unfold portEnableDef <;> dsimp only <;> (repeat (first
      | with_reducible assumption | (with_reducible refine stage_keeps (h := ?_) ..)
      | (with_reducible refine armGroup_keeps (h := ?_) ..) | (with_reducible refine keeps_foldl _ _ _ ?_ ?_)
      | split | dsimp only | ((with_reducible refine keeps_mk ?_ ?_); rfl) | (intro _ _ _))))

theorem portGroupSetDef_keeps : CmdKeeps portGroupSetDef := by
  (refine ⟨fun m r s hn h => ?_, fun st r s h => ?_⟩ <;> unfold portGroupSetDef <;> dsimp only <;> (repeat (first
      | with_reducible assumption | (with_reducible refine modSide_keeps (h := ?_) ..)
      | (with_reducible refine emptyGroups_keeps (h := ?_) ..) | (with_reducible refine keeps_foldl _ _ _ ?_ ?_)
      | split | dsimp only | (intro _ _ _) | ((with_reducible refine keeps_mk ?_ ?_); rfl))))

theorem portStatusDef_keeps : CmdKeeps portStatusDef := by
  exact ⟨fun _ _ _ _ h => h, fun _ _ _ h => h⟩

theorem portClearDef_keeps : CmdKeeps portClearDef := by
  (refine ⟨fun m r s hn h => ?_, fun st r s h => ?_⟩ <;> unfold portClearDef <;> dsimp only <;> (repeat (first
      | with_reducible assumption | (with_reducible refine modSide_keeps (h := ?_) ..)
      | (with_reducible refine keeps_foldl _ _ _ ?_ ?_) | split | dsimp only | (intro _ _ _))))

theorem execPortInfo_goes {s0 : State} (m : Fin 4) (r : Req) (s : State) (h : Keeps s0 s) :
    Goes s0 (execPortInfo m r s) := by
  exact goes_next (mbxCommand_keeps _ portInfoDef_keeps _ _ _ h)

theorem execPortConfig_goes {s0 : State} (m : Fin 4) (r : Req) (s : State) (h : Keeps s0 s) :
    Goes s0 (execPortConfig m r s) := by
  exact goes_next (mbxCommand_keeps _ portConfigDef_keeps _ _ _ h)

theorem execPortEnable_goes {s0 : State} (m : Fin 4) (r : Req) (s : State) (h : Keeps s0 s) :
    Goes s0 (execPortEnable m r s) := by
  exact goes_next (mbxCommand_keeps _ portEnableDef_keeps _ _ _ h)

theorem execPortGroupSet_goes {s0 : State} (m : Fin 4) (r : Req) (s : State) (h : Keeps s0 s) :
    Goes s0 (execPortGroupSet m r s) := by
  exact goes_next (mbxCommand_keeps _ portGroupSetDef_keeps _ _ _ h)

theorem execPortStatus_goes {s0 : State} (m : Fin 4) (r : Req) (s : State) (h : Keeps s0 s) :
    Goes s0 (execPortStatus m r s) := by
  exact goes_next (mbxCommand_keeps _ portStatusDef_keeps _ _ _ h)

theorem execPortClear_goes {s0 : State} (m : Fin 4) (r : Req) (s : State) (h : Keeps s0 s) :
    Goes s0 (execPortClear m r s) := by
  exact goes_next (mbxCommand_keeps _ portClearDef_keeps _ _ _ h)

end Sys2Proof.Machine
end

