-- ==== Sys2Proof/Laws/KeepStove.lean ====
section
/-! SUPPORT. What every operation of Machine/Stove.lean keeps. -/

namespace Sys2Proof.Machine

theorem modStove_keeps {s0 : State} (f : Stove → Stove) (s : State) (h : Keeps s0 s) :
    Keeps s0 (modStove f s) := by
  exact keeps_mk rfl h

theorem modRef_keeps {s0 : State} (i : Fin 13) (f : Ref → Ref) (s : State) (h : Keeps s0 s) :
    Keeps s0 (modRef i f s) := by
  unfold modRef
  repeat (first
      | with_reducible assumption | (with_reducible refine modStove_keeps (h := ?_) ..) | split | dsimp only)

theorem buildOutEvt_keeps {s0 : State} (d : Rat) (s : State) (h : Keeps s0 s) :
    Keeps s0 (buildOutEvt d s) := by
  unfold buildOutEvt
  repeat (first
      | with_reducible assumption | (with_reducible refine raise_keeps (h := ?_) ..) | split | dsimp only)

theorem enterEmber_keeps {s0 : State} (s : State) (h : Keeps s0 s) :
    Keeps s0 (enterEmber s) := by
  unfold enterEmber
  repeat (first
      | with_reducible assumption | (with_reducible refine raise_keeps (h := ?_) ..)
      | (with_reducible refine portsNotify_keeps (h := ?_) ..) | (with_reducible refine modStove_keeps (h := ?_) ..)
      | split | dsimp only)

theorem pendSwitch_keeps {s0 : State} (s : State) (h : Keeps s0 s) :
    Keeps s0 (pendSwitch s) := by
  unfold pendSwitch
  repeat (first
      | with_reducible assumption | (with_reducible refine modStove_keeps (h := ?_) ..) | split | dsimp only)

theorem noTarget_keeps {s0 : State} (s : State) (h : Keeps s0 s) :
    Keeps s0 (noTarget s) := by
  unfold noTarget
  repeat (first
      | with_reducible assumption | (with_reducible refine modStove_keeps (h := ?_) ..)
      | (with_reducible refine enterEmber_keeps (h := ?_) ..) | split | dsimp only)

theorem selGone_keeps {s0 : State} (gate : Nat) (s : State) (h : Keeps s0 s) :
    Keeps s0 (selGone gate s) := by
  unfold selGone
  repeat (first
      | with_reducible assumption | (with_reducible refine modStove_keeps (h := ?_) ..)
      | (with_reducible refine pendSwitch_keeps (h := ?_) ..)
      | (with_reducible refine enterEmber_keeps (h := ?_) ..) | split | dsimp only)

theorem tgtGone_keeps {s0 : State} (s : State) (h : Keeps s0 s) :
    Keeps s0 (tgtGone s) := by
  unfold tgtGone
  repeat (first
      | with_reducible assumption | (with_reducible refine pendSwitch_keeps (h := ?_) ..)
      | (with_reducible refine modStove_keeps (h := ?_) ..) | (with_reducible refine noTarget_keeps (h := ?_) ..)
      | split | dsimp only)

theorem refsGone_keeps {s0 : State} (is : List (Fin 13 × Nat)) (s : State) (h : Keeps s0 s) :
    Keeps s0 (refsGone is s) := by
  unfold refsGone
  repeat (first
      | with_reducible assumption | (with_reducible refine selGone_keeps (h := ?_) ..)
      | (with_reducible refine tgtGone_keeps (h := ?_) ..) | (with_reducible refine keeps_foldl _ _ _ ?_ ?_) | split
      | dsimp only | (intro _ _ _))

theorem startSwitch_keeps {s0 : State} (x1 : Comparison) (s : State) (h : Keeps s0 s) :
    Keeps s0 (startSwitch x1 s) := by
  unfold startSwitch
  repeat (first
      | with_reducible assumption | (with_reducible refine modStove_keeps (h := ?_) ..)
      | (with_reducible refine noTarget_keeps (h := ?_) ..) | split | dsimp only)

theorem countTarget_keeps {s0 : State} (x1 : Comparison) (s : State) (h : Keeps s0 s) :
    Keeps s0 (countTarget x1 s) := by
  unfold countTarget
  repeat (first
      | with_reducible assumption | (with_reducible refine modStove_keeps (h := ?_) ..) | split | dsimp only)

theorem toFreeRun_keeps {s0 : State} (s : State) (h : Keeps s0 s) :
    Keeps s0 (toFreeRun s) := by
  unfold toFreeRun
  repeat (first
      | with_reducible assumption | (with_reducible refine portsNotify_keeps (h := ?_) ..)
      | (with_reducible refine modStove_keeps (h := ?_) ..) | split | dsimp only)

theorem wtrStop_keeps {s0 : State} (s : State) (h : Keeps s0 s) :
    Keeps s0 (wtrStop s) := by
  unfold wtrStop
  repeat (first
      | with_reducible assumption | (with_reducible refine modStove_keeps (h := ?_) ..) | split | dsimp only
      | ((with_reducible refine keeps_mk ?_ ?_); rfl))

theorem selectByList_keeps {s0 : State} (s : State) (h : Keeps s0 s) :
    Keeps s0 (selectByList s) := by
  unfold selectByList
  repeat (first
      | with_reducible assumption | (with_reducible refine wtrStop_keeps (h := ?_) ..) | (with_reducible refine freeRun_keeps (h := ?_) ..) | (with_reducible refine modStove_keeps (h := ?_) ..)
      | (with_reducible refine toFreeRun_keeps (h := ?_) ..) | (with_reducible refine pendSwitch_keeps (h := ?_) ..)
      | split | dsimp only | ((with_reducible refine keeps_mk ?_ ?_); rfl))

theorem lockLoss_keeps {s0 : State} (cause : Nat) (s : State) (h : Keeps s0 s) :
    Keeps s0 (lockLoss cause s) := by
  unfold lockLoss
  repeat (first
      | with_reducible assumption | (with_reducible refine raise_keeps (h := ?_) ..)
      | (with_reducible refine modStove_keeps (h := ?_) ..) | split | dsimp only
      | ((with_reducible refine keeps_mk ?_ ?_); rfl))

theorem lockReport_keeps {s0 : State} (s : State) (h : Keeps s0 s) :
    Keeps s0 (lockReport s) := by
  unfold lockReport
  repeat (first
      | with_reducible assumption | (with_reducible refine modStove_keeps (h := ?_) ..)
      | (with_reducible refine portsReset_keeps (h := ?_) ..)
      | (with_reducible refine portsNotify_keeps (h := ?_) ..) | (with_reducible refine rateLock_keeps (h := ?_) ..)
      | split | dsimp only)

theorem stoveRetarget_keeps {s0 : State} (s : State) (h : Keeps s0 s) :
    Keeps s0 (stoveRetarget s) := by
  unfold stoveRetarget
  repeat (first
      | with_reducible assumption | (with_reducible refine modStove_keeps (h := ?_) ..) | split | dsimp only)

theorem loopCompare_keeps {s0 : State} (x1 : Comparison) (s : State) (h : Keeps s0 s) :
    Keeps s0 (loopCompare x1 s) := by
  unfold loopCompare
  repeat (first
      | with_reducible assumption | (with_reducible refine lockLoss_keeps (h := ?_) ..)
      | (with_reducible refine modStove_keeps (h := ?_) ..) | (with_reducible refine lockReport_keeps (h := ?_) ..)
      | (with_reducible refine buildOutEvt_keeps (h := ?_) ..) | split | dsimp only
      | ((with_reducible refine keeps_mk ?_ ?_); rfl))

theorem loopStepNow_keeps {s0 : State} (i : Fin 13) (x2 : Comparison) (s : State) (h : Keeps s0 s) :
    Keeps s0 (loopStepNow i x2 s) := by
  unfold loopStepNow
  repeat (first
      | with_reducible assumption | (with_reducible refine lockLoss_keeps (h := ?_) ..) | (with_reducible refine modStove_keeps (h := ?_) ..)
      | (with_reducible refine loopCompare_keeps (h := ?_) ..) | split | dsimp only | ((with_reducible refine keeps_mk ?_ ?_); rfl))

theorem execStoveComparison_goes {s0 : State} (x1 : Comparison) (s : State) (h : Keeps s0 s) :
    Goes s0 (execStoveComparison x1 s) := by
  unfold execStoveComparison
  repeat (first
      | with_reducible assumption | (with_reducible refine goes_next ?_)
      | (with_reducible refine startSwitch_keeps (h := ?_) ..)
      | (with_reducible refine countTarget_keeps (h := ?_) ..)
      | (with_reducible refine raiseMask_keeps (h := ?_) ..) | (with_reducible refine modStove_keeps (h := ?_) ..)
      | (with_reducible refine loopStepNow_keeps (h := ?_) ..) | (with_reducible refine refsGone_keeps (h := ?_) ..)
      | (with_reducible refine selectByList_keeps (h := ?_) ..) | split | dsimp only)

theorem wtrStep_keeps {s0 : State} (s : State) (h : Keeps s0 s) :
    Keeps s0 (wtrStep s) := by
  unfold wtrStep
  repeat (first
      | with_reducible assumption | (with_reducible refine modStove_keeps (h := ?_) ..) | split | dsimp only | ((with_reducible refine keeps_mk ?_ ?_); rfl))

theorem betterTarget_keeps {s0 : State} (new : List (Fin 13)) (s : State) (h : Keeps s0 s) :
    Keeps s0 (betterTarget new s) := by
  unfold betterTarget
  repeat (first
      | with_reducible assumption | (with_reducible refine pendSwitch_keeps (h := ?_) ..)
      | (with_reducible refine modStove_keeps (h := ?_) ..) | split | dsimp only)

theorem execMeasurementGateEnd_goes {s0 : State} (offs : List (Option Int)) (dco : Int) (s : State) (h : Keeps s0 s) :
    Goes s0 (execMeasurementGateEnd offs dco s) := by
  unfold execMeasurementGateEnd
  repeat (first
      | with_reducible assumption | (with_reducible refine goes_next ?_)
      | (with_reducible refine modStove_keeps (h := ?_) ..) | (with_reducible refine raiseMask_keeps (h := ?_) ..)
      | (with_reducible refine wtrStep_keeps (h := ?_) ..) | (with_reducible refine refsGone_keeps (h := ?_) ..)
      | (with_reducible refine selectByList_keeps (h := ?_) ..)
      | (with_reducible refine betterTarget_keeps (h := ?_) ..) | split | dsimp only)

theorem execWaitToRestoreExpiry_goes {s0 : State} (ref : Fin 13) (s : State) (h : Keeps s0 s) :
    Goes s0 (execWaitToRestoreExpiry ref s) := by
  unfold execWaitToRestoreExpiry
  repeat (first
      | with_reducible assumption | (with_reducible refine goes_next ?_)
      | (with_reducible refine pendSwitch_keeps (h := ?_) ..) | split | dsimp only)

theorem execQualifyEnd_goes {s0 : State} (freq : Option Int) (phase : Int) (s : State) (h : Keeps s0 s) :
    Goes s0 (execQualifyEnd freq phase s) := by
  unfold execQualifyEnd
  repeat (first
      | with_reducible assumption | (with_reducible refine goes_next ?_)
      | (with_reducible refine modStove_keeps (h := ?_) ..) | (with_reducible refine pendSwitch_keeps (h := ?_) ..)
      | (with_reducible refine noTarget_keeps (h := ?_) ..) | split | dsimp only)

theorem execMoveEnd_goes {s0 : State} (s : State) (h : Keeps s0 s) :
    Goes s0 (execMoveEnd s) := by
  unfold execMoveEnd
  repeat (first
      | with_reducible assumption | (with_reducible refine goes_next ?_)
      | (with_reducible refine raise_keeps (h := ?_) ..) | (with_reducible refine buildOutEvt_keeps (h := ?_) ..)
      | (with_reducible refine raiseIf_keeps (h := ?_) ..) | (with_reducible refine modStove_keeps (h := ?_) ..)
      | (with_reducible refine portsNotify_keeps (h := ?_) ..) | (with_reducible refine selGone_keeps (h := ?_) ..)
      | split | dsimp only | ((with_reducible refine keeps_mk ?_ ?_); rfl))

theorem execSettleTimeout_goes {s0 : State} (s : State) (h : Keeps s0 s) :
    Goes s0 (execSettleTimeout s) := by
  unfold execSettleTimeout
  repeat (first
      | with_reducible assumption | (with_reducible refine goes_next ?_)
      | (with_reducible refine lockLoss_keeps (h := ?_) ..) | split | dsimp only)

theorem acquireRef_keeps {s0 : State} (i : Fin 13) (s : State) (h : Keeps s0 s) :
    Keeps s0 (acquireRef i s) := by
  unfold acquireRef
  repeat (first
      | with_reducible assumption | (with_reducible refine modStove_keeps (h := ?_) ..) | split | dsimp only)

theorem execRelockAcquire_goes {s0 : State} (s : State) (h : Keeps s0 s) :
    Goes s0 (execRelockAcquire s) := by
  unfold execRelockAcquire
  repeat (first
      | with_reducible assumption | (with_reducible refine goes_next ?_)
      | (with_reducible refine acquireRef_keeps (h := ?_) ..) | split | dsimp only)

theorem execRelockAttemptTimeout_goes {s0 : State} (s : State) (h : Keeps s0 s) :
    Goes s0 (execRelockAttemptTimeout s) := by
  unfold execRelockAttemptTimeout
  repeat (first
      | with_reducible assumption | (with_reducible refine goes_next ?_)
      | (with_reducible refine modStove_keeps (h := ?_) ..) | (with_reducible refine acquireRef_keeps (h := ?_) ..)
      | split | dsimp only)

theorem execSwRefWatchdog_goes {s0 : State} (s : State) (h : Keeps s0 s) :
    Goes s0 (execSwRefWatchdog s) := by
  unfold execSwRefWatchdog
  repeat (first
      | with_reducible assumption | (with_reducible refine goes_next ?_)
      | (with_reducible refine modRef_keeps (h := ?_) ..) | (with_reducible refine modStove_keeps (h := ?_) ..)
      | (with_reducible refine selectByList_keeps (h := ?_) ..)
      | (with_reducible refine refsGone_keeps (h := ?_) ..) | (with_reducible refine raise_keeps (h := ?_) ..)
      | split | dsimp only)

theorem execCrystalStopped_goes {s0 : State} (s : State) (h : Keeps s0 s) :
    Goes s0 (execCrystalStopped s) := by
  unfold execCrystalStopped
  repeat (first
      | with_reducible assumption | (with_reducible refine goes_next ?_)
      | (with_reducible refine logFault_keeps (h := ?_) ..) | (with_reducible refine refsGone_keeps (h := ?_) ..)
      | (with_reducible refine raise_keeps (h := ?_) ..) | split | dsimp only
      | ((with_reducible refine keeps_mk ?_ ?_); rfl))

theorem emberWord_keeps {s0 : State} (s : State) (h : Keeps s0 s) :
    Keeps s0 (emberWord s) := by
  unfold emberWord
  repeat (first
      | with_reducible assumption | (with_reducible refine modStove_keeps (h := ?_) ..) | split | dsimp only
      | ((with_reducible refine keeps_mk ?_ ?_); rfl))

theorem execCrystalResume_goes {s0 : State} (s : State) (h : Keeps s0 s) :
    Goes s0 (execCrystalResume s) := by
  unfold execCrystalResume
  repeat (first
      | with_reducible assumption | (with_reducible refine emberWord_keeps (h := ?_) ..) | (with_reducible refine goes_next ?_)
      | (with_reducible refine selectByList_keeps (h := ?_) ..)
      | (with_reducible refine betterTarget_keeps (h := ?_) ..) | (with_reducible refine raise_keeps (h := ?_) ..)
      | split | dsimp only | ((with_reducible refine keeps_mk ?_ ?_); rfl))

theorem execStoveTickMissing_goes {s0 : State} (s : State) (h : Keeps s0 s) :
    Goes s0 (execStoveTickMissing s) := by
  unfold execStoveTickMissing
  repeat (first
      | with_reducible assumption | (with_reducible refine goes_next ?_)
      | (with_reducible refine lockLoss_keeps (h := ?_) ..) | (with_reducible refine logFault_keeps (h := ?_) ..)
      | split | dsimp only | ((with_reducible refine keeps_mk ?_ ?_); rfl))

theorem stoveOutNow_keeps {s0 : State} (w : Word) (s : State) (h : Keeps s0 s) :
    Keeps s0 (stoveOutNow w s) := by
  unfold stoveOutNow
  repeat (first
      | with_reducible assumption | (with_reducible refine modStove_keeps (h := ?_) ..) | split | dsimp only | ((with_reducible refine keeps_mk ?_ ?_); rfl))

theorem stoveInfoDef_keeps : CmdKeeps stoveInfoDef := by
  exact ⟨fun _ _ _ _ h => h, fun _ _ _ h => h⟩

theorem stkrRefConfigDef_keeps : CmdKeeps stkrRefConfigDef := by
  (refine ⟨fun m r s hn h => ?_, fun st r s h => ?_⟩ <;> unfold stkrRefConfigDef <;> dsimp only <;> (repeat (first
      | with_reducible assumption | (with_reducible refine selectByList_keeps (h := ?_) ..)
      | (with_reducible refine modRef_keeps (h := ?_) ..) | split | dsimp only)))

theorem stkrModeSetDef_keeps : CmdKeeps stkrModeSetDef := by
  (refine ⟨fun m r s hn h => ?_, fun st r s h => ?_⟩ <;> unfold stkrModeSetDef <;> dsimp only <;> (repeat (first
      | with_reducible assumption | (with_reducible refine modStove_keeps (h := ?_) ..) | split | dsimp only)))

theorem stkrSelectDef_keeps : CmdKeeps stkrSelectDef := by
  (refine ⟨fun m r s hn h => ?_, fun st r s h => ?_⟩ <;> unfold stkrSelectDef <;> dsimp only <;> (repeat (first
      | with_reducible assumption | (with_reducible refine modStove_keeps (h := ?_) ..)
      | (with_reducible refine pendSwitch_keeps (h := ?_) ..) | split | dsimp only)))

theorem stkrStatusDef_keeps : CmdKeeps stkrStatusDef := by
  exact ⟨fun _ _ _ _ h => h, fun _ _ _ h => h⟩

theorem stkrRefStatusDef_keeps : CmdKeeps stkrRefStatusDef := by
  exact ⟨fun _ _ _ _ h => h, fun _ _ _ h => h⟩

theorem stoveOutSetDef_keeps : CmdKeeps stoveOutSetDef := by
  (refine ⟨fun m r s hn h => ?_, fun st r s h => ?_⟩ <;> unfold stoveOutSetDef <;> dsimp only <;> (repeat (first
      | with_reducible assumption | (with_reducible refine stage_keeps (h := ?_) ..) | split | dsimp only)))

theorem stkrSwConfigDef_keeps : CmdKeeps stkrSwConfigDef := by
  (refine ⟨fun m r s hn h => ?_, fun st r s h => ?_⟩ <;> unfold stkrSwConfigDef <;> dsimp only <;> (repeat (first
      | with_reducible assumption | (with_reducible refine modStove_keeps (h := ?_) ..)
      | (with_reducible refine modRef_keeps (h := ?_) ..) | split | dsimp only)))

theorem stkrEmberReadDef_keeps : CmdKeeps stkrEmberReadDef := by
  exact ⟨fun _ _ _ _ h => h, fun _ _ _ h => h⟩

theorem execStoveInfo_goes {s0 : State} (m : Fin 4) (r : Req) (s : State) (h : Keeps s0 s) :
    Goes s0 (execStoveInfo m r s) := by
  exact goes_next (mbxCommand_keeps _ stoveInfoDef_keeps _ _ _ h)

theorem execStkrRefConfig_goes {s0 : State} (m : Fin 4) (r : Req) (s : State) (h : Keeps s0 s) :
    Goes s0 (execStkrRefConfig m r s) := by
  exact goes_next (mbxCommand_keeps _ stkrRefConfigDef_keeps _ _ _ h)

theorem execStkrModeSet_goes {s0 : State} (m : Fin 4) (r : Req) (s : State) (h : Keeps s0 s) :
    Goes s0 (execStkrModeSet m r s) := by
  exact goes_next (mbxCommand_keeps _ stkrModeSetDef_keeps _ _ _ h)

theorem execStkrSelect_goes {s0 : State} (m : Fin 4) (r : Req) (s : State) (h : Keeps s0 s) :
    Goes s0 (execStkrSelect m r s) := by
  exact goes_next (mbxCommand_keeps _ stkrSelectDef_keeps _ _ _ h)

theorem execStkrStatus_goes {s0 : State} (m : Fin 4) (r : Req) (s : State) (h : Keeps s0 s) :
    Goes s0 (execStkrStatus m r s) := by
  exact goes_next (mbxCommand_keeps _ stkrStatusDef_keeps _ _ _ h)

theorem execStkrRefStatus_goes {s0 : State} (m : Fin 4) (r : Req) (s : State) (h : Keeps s0 s) :
    Goes s0 (execStkrRefStatus m r s) := by
  exact goes_next (mbxCommand_keeps _ stkrRefStatusDef_keeps _ _ _ h)

theorem execStoveOutSet_goes {s0 : State} (m : Fin 4) (r : Req) (s : State) (h : Keeps s0 s) :
    Goes s0 (execStoveOutSet m r s) := by
  exact goes_next (mbxCommand_keeps _ stoveOutSetDef_keeps _ _ _ h)

theorem execStkrSwConfig_goes {s0 : State} (m : Fin 4) (r : Req) (s : State) (h : Keeps s0 s) :
    Goes s0 (execStkrSwConfig m r s) := by
  exact goes_next (mbxCommand_keeps _ stkrSwConfigDef_keeps _ _ _ h)

theorem execStkrEmberRead_goes {s0 : State} (m : Fin 4) (r : Req) (s : State) (h : Keeps s0 s) :
    Goes s0 (execStkrEmberRead m r s) := by
  exact goes_next (mbxCommand_keeps _ stkrEmberReadDef_keeps _ _ _ h)

end Sys2Proof.Machine
end

