-- ==== Sys2Proof/Laws/KeepHivewire.lean ====
section
/-! SUPPORT. What every operation of Machine/Hivewire.lean keeps. -/

namespace Sys2Proof.Machine

theorem modHw_keeps {s0 : State} (x1 : Fin 2) (f : Chain → Chain) (s : State) (h : Keeps s0 s) :
    Keeps s0 (modHw x1 f s) := by
  exact keeps_mk rfl h

theorem hwFlag_keeps {s0 : State} (x1 : Fin 2) (b : Nat) (s : State) (h : Keeps s0 s) :
    Keeps s0 (hwFlag x1 b s) := by
  unfold hwFlag
  repeat (first
      | with_reducible assumption | (with_reducible refine modHw_keeps (h := ?_) ..) | split | dsimp only)

theorem queueXact_keeps {s0 : State} (x1 : Fin 2) (q : Xact) (s : State) (h : Keeps s0 s) :
    Keeps s0 (queueXact x1 q s) := by
  unfold queueXact
  repeat (first
      | with_reducible assumption | (with_reducible refine modHw_keeps (h := ?_) ..) | split | dsimp only)

theorem walkDone_keeps {s0 : State} (status : Nat) (m : Nat) (tag : BitVec 16) (c : Chain) (s : State) (h : Keeps s0 s) :
    Keeps s0 (walkDone status m tag c s) := by
  unfold walkDone
  repeat (first
      | with_reducible assumption | (with_reducible refine complete_keeps (h := ?_) ..) | split | dsimp only)

theorem endWalk_keeps {s0 : State} (x1 : Fin 2) (reason : Nat) (s : State) (h : Keeps s0 s) :
    Keeps s0 (endWalk x1 reason s) := by
  unfold endWalk
  repeat (first
      | with_reducible assumption | (with_reducible refine modHw_keeps (h := ?_) ..)
      | (with_reducible refine hwFlag_keeps (h := ?_) ..) | (with_reducible refine raise_keeps (h := ?_) ..)
      | (with_reducible refine walkDone_keeps (h := ?_) ..) | split | dsimp only)

theorem xactEnds_keeps {s0 : State} (x1 : Fin 2) (status : Nat) (q : Xact) (s : State) (h : Keeps s0 s) :
    Keeps s0 (xactEnds x1 status q s) := by
  unfold xactEnds
  repeat (first
      | with_reducible assumption | (with_reducible refine complete_keeps (h := ?_) ..)
      | (with_reducible refine unstage_keeps (h := ?_) ..) | (with_reducible refine modHw_keeps (h := ?_) ..)
      | (with_reducible refine endWalk_keeps (h := ?_) ..) | split | dsimp only)

theorem advanceGen_keeps {s0 : State} (x1 : Fin 2) (s : State) (h : Keeps s0 s) :
    Keeps s0 (advanceGen x1 s) := by
  unfold advanceGen
  repeat (first
      | with_reducible assumption | (with_reducible refine modHw_keeps (h := ?_) ..)
      | (with_reducible refine xactEnds_keeps (h := ?_) ..) | (with_reducible refine keeps_foldl _ _ _ ?_ ?_)
      | split | dsimp only | (intro _ _ _))

theorem startGenUpdate_keeps {s0 : State} (x1 : Fin 2) (old : Nat) (s : State) (h : Keeps s0 s) :
    Keeps s0 (startGenUpdate x1 old s) := by
  unfold startGenUpdate
  repeat (first
      | with_reducible assumption | (with_reducible refine modHw_keeps (h := ?_) ..) | split | dsimp only)

theorem slotMapNow_keeps {s0 : State} (x1 : Fin 2) (up : Bool) (slot : Nat) (rate : HwRate) (paired : Bool) (owner : Nat) (s : State) (h : Keeps s0 s) :
    Keeps s0 (slotMapNow x1 up slot rate paired owner s) := by
  unfold slotMapNow
  repeat (first
      | with_reducible assumption | (with_reducible refine modHw_keeps (h := ?_) ..)
      | (with_reducible refine silenceSlot_keeps (h := ?_) ..) | split | dsimp only)

theorem freeSlots_keeps {s0 : State} (x1 : Fin 2) (p : HwSlot → Bool) (s : State) (h : Keeps s0 s) :
    Keeps s0 (freeSlots x1 p s) := by
  unfold freeSlots
  repeat (first
      | with_reducible assumption | (with_reducible refine silenceSlot_keeps (h := ?_) ..)
      | (with_reducible refine modHw_keeps (h := ?_) ..) | (with_reducible refine keeps_foldl _ _ _ ?_ ?_) | split
      | dsimp only | (intro _ _ _))

theorem dropPartner_keeps {s0 : State} (x1 : Fin 2) (s : State) (h : Keeps s0 s) :
    Keeps s0 (dropPartner x1 s) := by
  unfold dropPartner
  repeat (first
      | with_reducible assumption | (with_reducible refine modHw_keeps (h := ?_) ..) | split | dsimp only | ((with_reducible refine keeps_mk ?_ ?_); rfl))

theorem loseFrom_keeps {s0 : State} (x : Fin 2) (n : Nat) (s : State) (h : Keeps s0 s) : Keeps s0 (loseFrom x n s) := by
  have he (l : List Nat) : Keeps s0 (l.foldl (fun s i => raise (hwEvt x 33) (bit i) s) s) :=
    keeps_foldl _ _ _ (fun s a hs => raise_keeps _ _ _ hs) h
  have hw (s : State) (c : WalkSt) (hs : Keeps s0 s) : Keeps s0 (if c = .none then s else endWalk x 10 s) := by
    split
    · exact hs
    · exact endWalk_keeps _ _ _ hs
  have hq (s : State) (a b : Nat) (hs : Keeps s0 s) : Keeps s0 (if a ≤ b then dropPartner x s else s) := by
    split
    · exact dropPartner_keeps _ _ hs
    · exact hs
  have hg (s : State) (c : Bool) (g : Nat) (hs : Keeps s0 s) : Keeps s0 (if c = true then s else startGenUpdate x g s) := by
    split
    · exact hs
    · exact startGenUpdate_keeps _ _ _ hs
  unfold loseFrom
  dsimp only
  split
  · exact h
  · refine hg _ _ _ (advanceGen_keeps x _ ?_)
    refine hw _ _ (hq _ _ _ ?_)
    exact modHw_keeps x _ _ (hwFlag_keeps x 3 _ (he _))

theorem hwPowerOff_keeps {s0 : State} (x1 : Fin 2) (s : State) (h : Keeps s0 s) :
    Keeps s0 (hwPowerOff x1 s) := by
  unfold hwPowerOff
  repeat (first
      | with_reducible assumption | (with_reducible refine endWalk_keeps (h := ?_) ..)
      | (with_reducible refine dropPartner_keeps (h := ?_) ..)
      | (with_reducible refine freeSlots_keeps (h := ?_) ..) | (with_reducible refine modHw_keeps (h := ?_) ..)
      | (with_reducible refine advanceGen_keeps (h := ?_) ..) | split | dsimp only)

theorem lineTripped_keeps {s0 : State} (x1 : Fin 2) (latched : Bool) (s : State) (h : Keeps s0 s) :
    Keeps s0 (lineTripped x1 latched s) := by
  unfold lineTripped
  repeat (first
      | with_reducible assumption | (with_reducible refine endWalk_keeps (h := ?_) ..)
      | (with_reducible refine loseFrom_keeps (h := ?_) ..) | (with_reducible refine modHw_keeps (h := ?_) ..)
      | split | dsimp only)

theorem startWalk_keeps {s0 : State} (x1 : Fin 2) (cmd : Option (Nat × BitVec 16)) (n : Nat) (s : State) (h : Keeps s0 s) :
    Keeps s0 (startWalk x1 cmd n s) := by
  unfold startWalk
  repeat (first
      | with_reducible assumption | (with_reducible refine modHw_keeps (h := ?_) ..) | split | dsimp only)

theorem resumeWalk_keeps {s0 : State} (x1 : Fin 2) (cmd : Option (Nat × BitVec 16)) (n : Nat) (s : State) (h : Keeps s0 s) :
    Keeps s0 (resumeWalk x1 cmd n s) := by
  unfold resumeWalk
  repeat (first
      | with_reducible assumption | (with_reducible refine modHw_keeps (h := ?_) ..) | split | dsimp only)

theorem walkOn_keeps {s0 : State} (x1 : Fin 2) (s : State) (h : Keeps s0 s) :
    Keeps s0 (walkOn x1 s) := by
  unfold walkOn
  repeat (first
      | with_reducible assumption | (with_reducible refine modHw_keeps (h := ?_) ..)
      | (with_reducible refine endWalk_keeps (h := ?_) ..) | split | dsimp only)

theorem walkSend_keeps {s0 : State} (x1 : Fin 2) (w : WalkSt) (dest : Nat) (op : Nat) (payload : List Byte) (s : State) (h : Keeps s0 s) :
    Keeps s0 (walkSend x1 w dest op payload s) := by
  unfold walkSend
  repeat (first
      | with_reducible assumption | (with_reducible refine modHw_keeps (h := ?_) ..) | split | dsimp only)

theorem walkDiscover_keeps {s0 : State} (x1 : Fin 2) (n : Nat) (s : State) (h : Keeps s0 s) :
    Keeps s0 (walkDiscover x1 n s) := by
  unfold walkDiscover
  repeat (first
      | with_reducible assumption | (with_reducible refine walkSend_keeps (h := ?_) ..)
      | (with_reducible refine modHw_keeps (h := ?_) ..) | split | dsimp only)

theorem walkAssign_keeps {s0 : State} (x1 : Fin 2) (s : State) (h : Keeps s0 s) :
    Keeps s0 (walkAssign x1 s) := by
  unfold walkAssign
  repeat (first
      | with_reducible assumption | (with_reducible refine endWalk_keeps (h := ?_) ..)
      | (with_reducible refine walkSend_keeps (h := ?_) ..) | split | dsimp only)

theorem walkAdded_keeps {s0 : State} (x1 : Fin 2) (q : Xact) (s : State) (h : Keeps s0 s) :
    Keeps s0 (walkAdded x1 q s) := by
  unfold walkAdded
  repeat (first
      | with_reducible assumption | (with_reducible refine hwFlag_keeps (h := ?_) ..)
      | (with_reducible refine raise_keeps (h := ?_) ..) | (with_reducible refine advanceGen_keeps (h := ?_) ..)
      | (with_reducible refine startGenUpdate_keeps (h := ?_) ..) | (with_reducible refine modHw_keeps (h := ?_) ..)
      | split | dsimp only)

theorem walkReply_keeps {s0 : State} (x1 : Fin 2) (q : Xact) (payload : List Byte) (s : State) (h : Keeps s0 s) :
    Keeps s0 (walkReply x1 q payload s) := by
  unfold walkReply
  repeat (first
      | with_reducible assumption | (with_reducible refine walkSend_keeps (h := ?_) ..)
      | (with_reducible refine modHw_keeps (h := ?_) ..) | (with_reducible refine walkAssign_keeps (h := ?_) ..)
      | (with_reducible refine walkAdded_keeps (h := ?_) ..)
      | (with_reducible refine walkDiscover_keeps (h := ?_) ..) | split | dsimp only)

theorem transmit_keeps {s0 : State} (x : Fin 2) (n : Nat) (q : Xact) (s : State) (h : Keeps s0 s) :
    Keeps s0 (transmit x n q s) := by
  unfold transmit
  repeat (first
      | with_reducible assumption | (with_reducible refine xactEnds_keeps (h := ?_) ..)
      | (with_reducible refine modHw_keeps (h := ?_) ..) | split | dsimp only
      | ((with_reducible refine keeps_mk ?_ ?_); rfl))

theorem hwSend_keeps {s0 : State} (x1 : Fin 2) (n : Nat) (s : State) (h : Keeps s0 s) :
    Keeps s0 (hwSend x1 n s) := by
  unfold hwSend
  repeat (first
      | with_reducible assumption | (with_reducible refine transmit_keeps (h := ?_) ..) | (with_reducible refine modHw_keeps (h := ?_) ..)
      | (with_reducible refine xactEnds_keeps (h := ?_) ..) | split | dsimp only
      | ((with_reducible refine keeps_mk ?_ ?_); rfl))

theorem hwTickF_keeps {s0 : State} (n : Nat) (x2 : Nat) (x3 : Fin 2) (s : State) (h : Keeps s0 s) :
    Keeps s0 (hwTickF n x2 x3 s) := by
  unfold hwTickF
  repeat (first
      | with_reducible assumption | (with_reducible refine modHw_keeps (h := ?_) ..) | split | dsimp only)

theorem hwCommandOne_keeps {s0 : State} (x : Fin 2) (n : Nat) (s : State) (p : Nat × Nat × BitVec 16) (h : Keeps s0 s) :
    Keeps s0 (hwCommandOne x n s p) := by
  unfold hwCommandOne
  repeat (first
      | with_reducible assumption | (with_reducible refine resumeWalk_keeps (h := ?_) ..)
      | (with_reducible refine hwPowerOff_keeps (h := ?_) ..) | (with_reducible refine startWalk_keeps (h := ?_) ..)
      | (with_reducible refine walkDone_keeps (h := ?_) ..) | split | dsimp only
      | ((with_reducible refine keeps_mk ?_ ?_); rfl))

theorem hwCommand_keeps {s0 : State} (x1 : Fin 2) (n : Nat) (s : State) (h : Keeps s0 s) :
    Keeps s0 (hwCommand x1 n s) := by
  unfold hwCommand
  repeat (first
      | with_reducible assumption | (with_reducible refine hwCommandOne_keeps (h := ?_) ..) | (with_reducible refine keeps_foldl _ _ _ ?_ ?_) | (with_reducible refine modHw_keeps (h := ?_) ..)
      | (with_reducible refine startWalk_keeps (h := ?_) ..) | (with_reducible refine walkDone_keeps (h := ?_) ..)
      | (with_reducible refine resumeWalk_keeps (h := ?_) ..)
      | (with_reducible refine hwPowerOff_keeps (h := ?_) ..) | split | dsimp only | (intro _ _ _) | ((with_reducible refine keeps_mk ?_ ?_); rfl))

theorem hwTunnel_keeps {s0 : State} (x1 : Fin 2) (s : State) (h : Keeps s0 s) :
    Keeps s0 (hwTunnel x1 s) := by
  unfold hwTunnel
  repeat (first
      | with_reducible assumption | (with_reducible refine queueXact_keeps (h := ?_) ..) | split | dsimp only | ((with_reducible refine keeps_mk ?_ ?_); rfl))

theorem hwTick_keeps {s0 : State} (n : Nat) (x2 : Fin 2) (s : State) (h : Keeps s0 s) :
    Keeps s0 (hwTick n x2 s) := by
  unfold hwTick
  repeat (first
      | with_reducible assumption | (with_reducible refine modHw_keeps (h := ?_) ..)
      | (with_reducible refine hwCommand_keeps (h := ?_) ..) | (with_reducible refine walkOn_keeps (h := ?_) ..)
      | (with_reducible refine hwSend_keeps (h := ?_) ..) | (with_reducible refine hwTunnel_keeps (h := ?_) ..)
      | (with_reducible refine hwTickF_keeps (h := ?_) ..) | split | dsimp only | ((with_reducible refine keeps_mk ?_ ?_); rfl))

theorem hwLines_keeps {s0 : State} (n : Nat) (x2 : Nat) (s : State) (h : Keeps s0 s) :
    Keeps s0 (hwLines n x2 s) := by
  exact keeps_mk rfl h

theorem hwLinesEnd_keeps {s0 : State} (n : Nat) (s : State) (h : Keeps s0 s) :
    Keeps s0 (hwLinesEnd n s) := by
  exact keeps_mk rfl h

theorem lineError_keeps {s0 : State} (x1 : Fin 2) (s : State) (h : Keeps s0 s) :
    Keeps s0 (lineError x1 s) := by
  unfold lineError
  repeat (first
      | with_reducible assumption | (with_reducible refine modHw_keeps (h := ?_) ..)
      | (with_reducible refine hwFlag_keeps (h := ?_) ..) | (with_reducible refine raise_keeps (h := ?_) ..) | split
      | dsimp only)

theorem attention_keeps {s0 : State} (x1 : Fin 2) (w : BitVec 16) (s : State) (h : Keeps s0 s) :
    Keeps s0 (attention x1 w s) := by
  unfold attention
  repeat (first
      | with_reducible assumption | (with_reducible refine modHw_keeps (h := ?_) ..)
      | (with_reducible refine queueXact_keeps (h := ?_) ..) | (with_reducible refine keeps_foldl _ _ _ ?_ ?_)
      | split | dsimp only | ((with_reducible refine keeps_mk ?_ ?_); rfl) | (intro _ _ _))

theorem attachBits_keeps {s0 : State} (x1 : Fin 2) (w : BitVec 16) (s : State) (h : Keeps s0 s) :
    Keeps s0 (attachBits x1 w s) := by
  unfold attachBits
  repeat (first
      | with_reducible assumption | (with_reducible refine modHw_keeps (h := ?_) ..)
      | (with_reducible refine resumeWalk_keeps (h := ?_) ..) | split | dsimp only)

theorem partnerReport_keeps {s0 : State} (x1 : Fin 2) (bad : Bool) (cs : List (Option (Bool × Byte))) (s : State) (h : Keeps s0 s) :
    Keeps s0 (partnerReport x1 bad cs s) := by
  unfold partnerReport
  repeat (first
      | with_reducible assumption | (with_reducible refine modHw_keeps (h := ?_) ..)
      | (with_reducible refine modRef_keeps (h := ?_) ..) | split | dsimp only | ((with_reducible refine keeps_mk ?_ ?_); rfl))

theorem execLineFrameReceived_goes {s0 : State} (x1 : Fin 2) (f : LineFrame) (s : State) (h : Keeps s0 s) :
    Goes s0 (execLineFrameReceived x1 f s) := by
  unfold execLineFrameReceived
  repeat (first
      | with_reducible assumption | (with_reducible refine goes_next ?_)
      | (with_reducible refine lineError_keeps (h := ?_) ..) | (with_reducible refine modHw_keeps (h := ?_) ..)
      | (with_reducible refine hwFlag_keeps (h := ?_) ..) | (with_reducible refine partnerReport_keeps (h := ?_) ..)
      | (with_reducible refine attention_keeps (h := ?_) ..) | (with_reducible refine attachBits_keeps (h := ?_) ..)
      | split | dsimp only)

theorem tunnelWrite_keeps {s0 : State} (x1 : Fin 2) (x2 : List Byte) (x3 : State) (h : Keeps s0 x3) :
    Keeps s0 (tunnelWrite x1 x2 x3) := by
  induction x2 generalizing x1 x3 with
    | nil => (unfold tunnelWrite; repeat (first
      | with_reducible assumption | (with_reducible refine ramWrite_keeps (h := ?_) ..)
      | (with_reducible refine modHw_keeps (h := ?_) ..) | (with_reducible refine keeps_foldl _ _ _ ?_ ?_) | split
      | dsimp only | (intro _ _ _) | ((with_reducible refine keeps_mk ?_ ?_); rfl)))
    | cons y ys ih => (unfold tunnelWrite; repeat (first
      | with_reducible assumption | (with_reducible refine ih (h := ?_) ..)
      | (with_reducible refine ramWrite_keeps (h := ?_) ..) | (with_reducible refine modHw_keeps (h := ?_) ..)
      | (with_reducible refine keeps_foldl _ _ _ ?_ ?_) | split | dsimp only | (intro _ _ _)
      | ((with_reducible refine keeps_mk ?_ ?_); rfl)))

theorem partnerRing_keeps {s0 : State} (x1 : Fin 2) (s : State) (h : Keeps s0 s) :
    Keeps s0 (partnerRing x1 s) := by
  unfold partnerRing
  repeat (first
      | with_reducible assumption | (with_reducible refine modHw_keeps (h := ?_) ..)
      | (with_reducible refine ringMbx_keeps (h := ?_) ..) | (with_reducible refine ringLost_keeps (h := ?_) ..)
      | split | dsimp only | ((with_reducible refine keeps_mk ?_ ?_); rfl))

theorem tunnelReply_keeps {s0 : State} (x1 : Fin 2) (sent : Nat) (bs : List Byte) (s : State) (h : Keeps s0 s) :
    Keeps s0 (tunnelReply x1 sent bs s) := by
  unfold tunnelReply
  repeat (first
      | with_reducible assumption | (with_reducible refine modHw_keeps (h := ?_) ..)
      | (with_reducible refine tunnelWrite_keeps (h := ?_) ..)
      | (with_reducible refine partnerRing_keeps (h := ?_) ..) | split | dsimp only)

theorem tunnelPosted_keeps {s0 : State} (s : State) (h : Keeps s0 s) :
    Keeps s0 (tunnelPosted s) := by
  exact keeps_mk rfl h

theorem replyActs_keeps {s0 : State} (x1 : Fin 2) (q : Xact) (bs : List Byte) (s : State) (h : Keeps s0 s) :
    Keeps s0 (replyActs x1 q bs s) := by
  unfold replyActs
  repeat (first
      | with_reducible assumption | (with_reducible refine walkReply_keeps (h := ?_) ..)
      | (with_reducible refine xactEnds_keeps (h := ?_) ..) | (with_reducible refine modHw_keeps (h := ?_) ..)
      | (with_reducible refine complete_keeps (h := ?_) ..) | (with_reducible refine dropPartner_keeps (h := ?_) ..)
      | (with_reducible refine tunnelReply_keeps (h := ?_) ..) | split | dsimp only | ((with_reducible refine keeps_mk ?_ ?_); rfl))

theorem execControlReplyReceived_goes {s0 : State} (x1 : Fin 2) (s : State) (h : Keeps s0 s) :
    Goes s0 (execControlReplyReceived x1 s) := by
  unfold execControlReplyReceived
  repeat (first
      | with_reducible assumption | (with_reducible refine goes_next ?_)
      | (with_reducible refine modHw_keeps (h := ?_) ..) | (with_reducible refine replyActs_keeps (h := ?_) ..)
      | split | dsimp only)

theorem execControlRequestRetry_goes {s0 : State} (x1 : Fin 2) (s : State) (h : Keeps s0 s) :
    Goes s0 (execControlRequestRetry x1 s) := by
  unfold execControlRequestRetry
  repeat (first
      | with_reducible assumption | (with_reducible refine transmit_keeps (h := ?_) ..) | (with_reducible refine goes_next ?_)
      | (with_reducible refine modHw_keeps (h := ?_) ..) | (with_reducible refine hwFlag_keeps (h := ?_) ..)
      | (with_reducible refine xactEnds_keeps (h := ?_) ..) | split | dsimp only | ((with_reducible refine keeps_mk ?_ ?_); rfl))

theorem execDiscoverRepeat_goes {s0 : State} (x1 : Fin 2) (s : State) (h : Keeps s0 s) :
    Goes s0 (execDiscoverRepeat x1 s) := by
  unfold execDiscoverRepeat
  repeat (first
      | with_reducible assumption | (with_reducible refine goes_next ?_)
      | (with_reducible refine hwSend_keeps (h := ?_) ..) | (with_reducible refine walkSend_keeps (h := ?_) ..)
      | (with_reducible refine modHw_keeps (h := ?_) ..) | split | dsimp only)

theorem execDiscoverTimeout_goes {s0 : State} (x1 : Fin 2) (s : State) (h : Keeps s0 s) :
    Goes s0 (execDiscoverTimeout x1 s) := by
  unfold execDiscoverTimeout
  repeat (first
      | with_reducible assumption | (with_reducible refine goes_next ?_)
      | (with_reducible refine endWalk_keeps (h := ?_) ..) | split | dsimp only)

theorem execWalkVsnsLow_goes {s0 : State} (x1 : Fin 2) (s : State) (h : Keeps s0 s) :
    Goes s0 (execWalkVsnsLow x1 s) := by
  unfold execWalkVsnsLow
  repeat (first
      | with_reducible assumption | (with_reducible refine goes_next ?_)
      | (with_reducible refine modHw_keeps (h := ?_) ..) | split | dsimp only)

theorem execWalkVgoodReached_goes {s0 : State} (x1 : Fin 2) (s : State) (h : Keeps s0 s) :
    Goes s0 (execWalkVgoodReached x1 s) := by
  unfold execWalkVgoodReached
  repeat (first
      | with_reducible assumption | (with_reducible refine goes_next ?_)
      | (with_reducible refine hwSend_keeps (h := ?_) ..) | (with_reducible refine walkDiscover_keeps (h := ?_) ..)
      | split | dsimp only)

theorem execWalkVgoodTimeout_goes {s0 : State} (x1 : Fin 2) (s : State) (h : Keeps s0 s) :
    Goes s0 (execWalkVgoodTimeout x1 s) := by
  unfold execWalkVgoodTimeout
  repeat (first
      | with_reducible assumption | (with_reducible refine goes_next ?_)
      | (with_reducible refine endWalk_keeps (h := ?_) ..) | split | dsimp only)

theorem checkAnswer_keeps {s0 : State} (x1 : Fin 2) (granted : Bool) (s : State) (h : Keeps s0 s) :
    Keeps s0 (checkAnswer x1 granted s) := by
  unfold checkAnswer
  repeat (first
      | with_reducible assumption | (with_reducible refine modHw_keeps (h := ?_) ..)
      | (with_reducible refine endWalk_keeps (h := ?_) ..) | (with_reducible refine hwSend_keeps (h := ?_) ..)
      | (with_reducible refine walkSend_keeps (h := ?_) ..) | split | dsimp only
      | ((with_reducible refine keeps_mk ?_ ?_); rfl))

theorem execNodeLoss_goes {s0 : State} (x1 : Fin 2) (node : Nat) (s : State) (h : Keeps s0 s) :
    Goes s0 (execNodeLoss x1 node s) := by
  unfold execNodeLoss
  repeat (first
      | with_reducible assumption | (with_reducible refine goes_next ?_)
      | (with_reducible refine loseFrom_keeps (h := ?_) ..) | split | dsimp only)

theorem execSlotTailOutEnd_goes {s0 : State} (x1 : Fin 2) (s : State) (h : Keeps s0 s) :
    Goes s0 (execSlotTailOutEnd x1 s) := by
  unfold execSlotTailOutEnd
  repeat (first
      | with_reducible assumption | (with_reducible refine goes_next ?_)
      | (with_reducible refine freeSlots_keeps (h := ?_) ..) | split | dsimp only)

theorem execAutoWalkRetry_goes {s0 : State} (x1 : Fin 2) (s : State) (h : Keeps s0 s) :
    Goes s0 (execAutoWalkRetry x1 s) := by
  unfold execAutoWalkRetry
  repeat (first
      | with_reducible assumption | (with_reducible refine goes_next ?_)
      | (with_reducible refine startWalk_keeps (h := ?_) ..) | (with_reducible refine resumeWalk_keeps (h := ?_) ..)
      | (with_reducible refine modHw_keeps (h := ?_) ..) | split | dsimp only)

theorem dropMap_keeps {s0 : State} (x1 : Fin 2) (s : State) (p : PendMap) (h : Keeps s0 s) :
    Keeps s0 (dropMap x1 s p) := by
  unfold dropMap
  repeat (first
      | with_reducible assumption | (with_reducible refine unstage_keeps (h := ?_) ..)
      | (with_reducible refine modHw_keeps (h := ?_) ..) | (with_reducible refine complete_keeps (h := ?_) ..)
      | split | dsimp only)

theorem hwStrobe_keeps {s0 : State} (n : Nat) (x2 : Fin 2) (s : State) (h : Keeps s0 s) :
    Keeps s0 (hwStrobe n x2 s) := by
  unfold hwStrobe
  repeat (first
      | with_reducible assumption | (with_reducible refine modHw_keeps (h := ?_) ..)
      | (with_reducible refine complete_keeps (h := ?_) ..) | (with_reducible refine dropMap_keeps (h := ?_) ..)
      | (with_reducible refine keeps_foldl _ _ _ ?_ ?_) | split | dsimp only | (intro _ _ _))

theorem hwInfoDef_keeps : CmdKeeps hwInfoDef := by
  exact ⟨fun _ _ _ _ h => h, fun _ _ _ h => h⟩

theorem hwChainConfigDef_keeps : CmdKeeps hwChainConfigDef := by
  (refine ⟨fun m r s hn h => ?_, fun st r s h => ?_⟩ <;> unfold hwChainConfigDef <;> dsimp only <;> (repeat (first
      | with_reducible assumption | (with_reducible refine modHw_keeps (h := ?_) ..) | split | dsimp only)))

theorem hwWalkDef_keeps : CmdKeeps hwWalkDef := by
  (refine ⟨fun m r s hn h => ?_, fun st r s h => ?_⟩ <;> unfold hwWalkDef <;> dsimp only <;> (repeat (first
      | with_reducible assumption | (with_reducible refine defer_keeps (h := ?_) ..)
      | (with_reducible refine modHw_keeps (h := ?_) ..) | split | dsimp only | ((with_reducible refine keeps_mk ?_ ?_); rfl))))

theorem hwNodeInfoDef_keeps : CmdKeeps hwNodeInfoDef := by
  (refine ⟨fun m r s hn h => ?_, fun st r s h => ?_⟩ <;> unfold hwNodeInfoDef <;> dsimp only <;> (repeat (first
      | with_reducible assumption | split | dsimp only)))

theorem hwSlotMapDef_keeps : CmdKeeps hwSlotMapDef := by
  (refine ⟨fun m r s hn h => ?_, fun st r s h => ?_⟩ <;> unfold hwSlotMapDef <;> dsimp only <;> (repeat (first
      | with_reducible assumption | (with_reducible refine stage_keeps (h := ?_) ..)
      | (with_reducible refine modHw_keeps (h := ?_) ..) | (with_reducible refine queueXact_keeps (h := ?_) ..)
      | (with_reducible refine defer_keeps (h := ?_) ..) | split | dsimp only)))

theorem hwNodeXactDef_keeps : CmdKeeps hwNodeXactDef := by
  (refine ⟨fun m r s hn h => ?_, fun st r s h => ?_⟩ <;> unfold hwNodeXactDef <;> dsimp only <;> (repeat (first
      | with_reducible assumption | (with_reducible refine defer_keeps (h := ?_) ..)
      | (with_reducible refine queueXact_keeps (h := ?_) ..) | split | dsimp only)))

theorem hwStatusDef_keeps : CmdKeeps hwStatusDef := by
  exact ⟨fun _ _ _ _ h => h, fun _ _ _ h => h⟩

theorem hwClearDef_keeps : CmdKeeps hwClearDef := by
  (refine ⟨fun m r s hn h => ?_, fun st r s h => ?_⟩ <;> unfold hwClearDef <;> dsimp only <;> (repeat (first
      | with_reducible assumption | (with_reducible refine modHw_keeps (h := ?_) ..) | split | dsimp only)))

theorem hwPartnerSetDef_keeps : CmdKeeps hwPartnerSetDef := by
  (refine ⟨fun m r s hn h => ?_, fun st r s h => ?_⟩ <;> unfold hwPartnerSetDef <;> dsimp only <;> (repeat (first
      | with_reducible assumption | (with_reducible refine defer_keeps (h := ?_) ..)
      | (with_reducible refine complete_keeps (h := ?_) ..) | (with_reducible refine queueXact_keeps (h := ?_) ..)
      | split | dsimp only)))

theorem execHwInfo_goes {s0 : State} (m : Fin 4) (r : Req) (s : State) (h : Keeps s0 s) :
    Goes s0 (execHwInfo m r s) := by
  exact goes_next (mbxCommand_keeps _ hwInfoDef_keeps _ _ _ h)

theorem execHwChainConfig_goes {s0 : State} (m : Fin 4) (r : Req) (s : State) (h : Keeps s0 s) :
    Goes s0 (execHwChainConfig m r s) := by
  exact goes_next (mbxCommand_keeps _ hwChainConfigDef_keeps _ _ _ h)

theorem execHwWalk_goes {s0 : State} (m : Fin 4) (r : Req) (s : State) (h : Keeps s0 s) :
    Goes s0 (execHwWalk m r s) := by
  exact goes_next (mbxCommand_keeps _ hwWalkDef_keeps _ _ _ h)

theorem execHwNodeInfo_goes {s0 : State} (m : Fin 4) (r : Req) (s : State) (h : Keeps s0 s) :
    Goes s0 (execHwNodeInfo m r s) := by
  exact goes_next (mbxCommand_keeps _ hwNodeInfoDef_keeps _ _ _ h)

theorem execHwSlotMap_goes {s0 : State} (m : Fin 4) (r : Req) (s : State) (h : Keeps s0 s) :
    Goes s0 (execHwSlotMap m r s) := by
  exact goes_next (mbxCommand_keeps _ hwSlotMapDef_keeps _ _ _ h)

theorem execHwNodeXact_goes {s0 : State} (m : Fin 4) (r : Req) (s : State) (h : Keeps s0 s) :
    Goes s0 (execHwNodeXact m r s) := by
  exact goes_next (mbxCommand_keeps _ hwNodeXactDef_keeps _ _ _ h)

theorem execHwStatus_goes {s0 : State} (m : Fin 4) (r : Req) (s : State) (h : Keeps s0 s) :
    Goes s0 (execHwStatus m r s) := by
  exact goes_next (mbxCommand_keeps _ hwStatusDef_keeps _ _ _ h)

theorem execHwClear_goes {s0 : State} (m : Fin 4) (r : Req) (s : State) (h : Keeps s0 s) :
    Goes s0 (execHwClear m r s) := by
  exact goes_next (mbxCommand_keeps _ hwClearDef_keeps _ _ _ h)

theorem execHwPartnerSet_goes {s0 : State} (m : Fin 4) (r : Req) (s : State) (h : Keeps s0 s) :
    Goes s0 (execHwPartnerSet m r s) := by
  exact goes_next (mbxCommand_keeps _ hwPartnerSetDef_keeps _ _ _ h)

end Sys2Proof.Machine
end

