-- ==== Sys2Proof/Laws/KeepDamper.lean ====
section
/-! SUPPORT. What every operation of Machine/Damper.lean keeps. -/

namespace Sys2Proof.Machine

theorem modDmpr_keeps {s0 : State} (f : Damper → Damper) (s : State) (h : Keeps s0 s) :
    Keeps s0 (modDmpr f s) := by
  exact keeps_mk rfl h

theorem modDch_keeps {s0 : State} (c : Fin 32) (f : DmprCh → DmprCh) (s : State) (h : Keeps s0 s) :
    Keeps s0 (modDch c f s) := by
  unfold modDch
  repeat (first
      | with_reducible assumption | (with_reducible refine modDmpr_keeps (h := ?_) ..) | split | dsimp only)

theorem modLine_keeps {s0 : State} (x1 : Fin 2) (f : DmprLine → DmprLine) (s : State) (h : Keeps s0 s) :
    Keeps s0 (modLine x1 f s) := by
  unfold modLine
  repeat (first
      | with_reducible assumption | (with_reducible refine modDmpr_keeps (h := ?_) ..) | split | dsimp only)

theorem dmprFlag_keeps {s0 : State} (b : Nat) (s : State) (h : Keeps s0 s) :
    Keeps s0 (dmprFlag b s) := by
  unfold dmprFlag
  repeat (first
      | with_reducible assumption | (with_reducible refine modDmpr_keeps (h := ?_) ..) | split | dsimp only)

theorem dmprCopies_keeps {s0 : State} (s : State) (h : Keeps s0 s) :
    Keeps s0 (dmprCopies s) := by
  unfold dmprCopies
  repeat (first
      | with_reducible assumption | split | dsimp only | ((with_reducible refine keeps_mk ?_ ?_); rfl))

theorem dmprMove_keeps {s0 : State} (f : Damper → Damper) (s : State) (h : Keeps s0 s) :
    Keeps s0 (dmprMove f s) := by
  unfold dmprMove
  repeat (first
      | with_reducible assumption | (with_reducible refine dmprCopies_keeps (h := ?_) ..)
      | (with_reducible refine modDmpr_keeps (h := ?_) ..) | split | dsimp only)

theorem batSample_keeps {s0 : State} (v : Rat) (s : State) (h : Keeps s0 s) :
    Keeps s0 (batSample v s) := by
  unfold batSample
  repeat (first
      | with_reducible assumption | (with_reducible refine dmprMove_keeps (h := ?_) ..)
      | (with_reducible refine dmprFlag_keeps (h := ?_) ..) | (with_reducible refine raise_keeps (h := ?_) ..)
      | split | dsimp only | ((with_reducible refine keeps_mk ?_ ?_); rfl))

theorem lineTrip_keeps {s0 : State} (x1 : Fin 2) (s : State) (h : Keeps s0 s) :
    Keeps s0 (lineTrip x1 s) := by
  unfold lineTrip
  repeat (first
      | with_reducible assumption | (with_reducible refine dmprFlag_keeps (h := ?_) ..)
      | (with_reducible refine raise_keeps (h := ?_) ..) | (with_reducible refine modLine_keeps (h := ?_) ..)
      | (with_reducible refine lineTripped_keeps (h := ?_) ..) | (with_reducible refine hwFlag_keeps (h := ?_) ..)
      | split | dsimp only)

theorem lineAmps_keeps {s0 : State} (x1 : Fin 2) (code : BitVec 12) (s : State) (h : Keeps s0 s) :
    Keeps s0 (lineAmps x1 code s) := by
  unfold lineAmps
  repeat (first
      | with_reducible assumption | (with_reducible refine modLine_keeps (h := ?_) ..)
      | (with_reducible refine lineTrip_keeps (h := ?_) ..) | split | dsimp only | ((with_reducible refine keeps_mk ?_ ?_); rfl))

theorem lineSense_keeps {s0 : State} (x1 : Fin 2) (code : BitVec 12) (s : State) (h : Keeps s0 s) :
    Keeps s0 (lineSense x1 code s) := by
  unfold lineSense
  repeat (first
      | with_reducible assumption | (with_reducible refine modLine_keeps (h := ?_) ..)
      | (with_reducible refine hwFlag_keeps (h := ?_) ..) | split | dsimp only)

theorem senseStuck_keeps {s0 : State} (x1 : Nat) (code : BitVec 12) (s : State) (h : Keeps s0 s) :
    Keeps s0 (senseStuck x1 code s) := by
  unfold senseStuck
  repeat (first
      | with_reducible assumption | (with_reducible refine modDmpr_keeps (h := ?_) ..)
      | (with_reducible refine dmprFlag_keeps (h := ?_) ..) | split | dsimp only)

theorem execDamperAdcSample_goes {s0 : State} (slot : Fin 8) (code : BitVec 12) (s : State) (h : Keeps s0 s) :
    Goes s0 (execDamperAdcSample slot code s) := by
  unfold execDamperAdcSample
  repeat (first
      | with_reducible assumption | (with_reducible refine goes_next ?_)
      | (with_reducible refine modDmpr_keeps (h := ?_) ..) | (with_reducible refine senseStuck_keeps (h := ?_) ..)
      | (with_reducible refine batSample_keeps (h := ?_) ..) | (with_reducible refine lineSense_keeps (h := ?_) ..)
      | (with_reducible refine lineAmps_keeps (h := ?_) ..) | split | dsimp only
      | ((with_reducible refine keeps_mk ?_ ?_); rfl))

theorem routineBlock_keeps {s0 : State} (bits : List (List (BitVec 16 × BitVec 16))) (s : State) (h : Keeps s0 s) :
    Keeps s0 (routineBlock bits s) := by
  unfold routineBlock
  repeat (first
      | with_reducible assumption | split | dsimp only | ((with_reducible refine keeps_mk ?_ ?_); rfl))

theorem execEnergyBlockEnd_goes {s0 : State} (bits : List (List (BitVec 16 × BitVec 16))) (s : State) (h : Keeps s0 s) :
    Goes s0 (execEnergyBlockEnd bits s) := by
  unfold execEnergyBlockEnd
  repeat (first
      | with_reducible assumption | (with_reducible refine goes_next ?_)
      | (with_reducible refine routineBlock_keeps (h := ?_) ..)
      | (with_reducible refine dmprMove_keeps (h := ?_) ..) | (with_reducible refine raiseMask_keeps (h := ?_) ..)
      | split | dsimp only)

theorem execCoolDownEnd_goes {s0 : State} (c : Fin 32) (s : State) (h : Keeps s0 s) :
    Goes s0 (execCoolDownEnd c s) := by
  unfold execCoolDownEnd
  repeat (first
      | with_reducible assumption | (with_reducible refine goes_next ?_)
      | (with_reducible refine dmprMove_keeps (h := ?_) ..) | (with_reducible refine modDch_keeps (h := ?_) ..)
      | split | dsimp only)

theorem execEnergyTriesReset_goes {s0 : State} (c : Fin 32) (s : State) (h : Keeps s0 s) :
    Goes s0 (execEnergyTriesReset c s) := by
  unfold execEnergyTriesReset
  repeat (first
      | with_reducible assumption | (with_reducible refine goes_next ?_)
      | (with_reducible refine modDch_keeps (h := ?_) ..) | split | dsimp only)

theorem execLineRetry_goes {s0 : State} (x1 : Fin 2) (s : State) (h : Keeps s0 s) :
    Goes s0 (execLineRetry x1 s) := by
  unfold execLineRetry
  repeat (first
      | with_reducible assumption | (with_reducible refine goes_next ?_)
      | (with_reducible refine modLine_keeps (h := ?_) ..) | (with_reducible refine startWalk_keeps (h := ?_) ..)
      | split | dsimp only)

theorem execLineTriesReset_goes {s0 : State} (x1 : Fin 2) (s : State) (h : Keeps s0 s) :
    Goes s0 (execLineTriesReset x1 s) := by
  unfold execLineTriesReset
  repeat (first
      | with_reducible assumption | (with_reducible refine goes_next ?_)
      | (with_reducible refine modLine_keeps (h := ?_) ..) | split | dsimp only)

theorem execStoredEnergyCheck_goes {s0 : State} (x1 : Fin 2) (s : State) (h : Keeps s0 s) :
    Goes s0 (execStoredEnergyCheck x1 s) := by
  unfold execStoredEnergyCheck
  repeat (first
      | with_reducible assumption | (with_reducible refine goes_next ?_)
      | (with_reducible refine modLine_keeps (h := ?_) ..) | (with_reducible refine dmprFlag_keeps (h := ?_) ..)
      | (with_reducible refine checkAnswer_keeps (h := ?_) ..) | split | dsimp only)

theorem execLinePermitLapse_goes {s0 : State} (x1 : Fin 2) (s : State) (h : Keeps s0 s) :
    Goes s0 (execLinePermitLapse x1 s) := by
  unfold execLinePermitLapse
  repeat (first
      | with_reducible assumption | (with_reducible refine goes_next ?_)
      | (with_reducible refine modLine_keeps (h := ?_) ..) | split | dsimp only)

theorem dmprInfoDef_keeps : CmdKeeps dmprInfoDef := by
  exact ⟨fun _ _ _ _ h => h, fun _ _ _ h => h⟩

theorem dmprSupplyConfigDef_keeps : CmdKeeps dmprSupplyConfigDef := by
  (refine ⟨fun m r s hn h => ?_, fun st r s h => ?_⟩ <;> unfold dmprSupplyConfigDef <;> dsimp only <;> (repeat (first
      | with_reducible assumption | (with_reducible refine modDmpr_keeps (h := ?_) ..) | split | dsimp only)))

theorem dmprCrankCurveDef_keeps : CmdKeeps dmprCrankCurveDef := by
  (refine ⟨fun m r s hn h => ?_, fun st r s h => ?_⟩ <;> unfold dmprCrankCurveDef <;> dsimp only <;> (repeat (first
      | with_reducible assumption | (with_reducible refine modDmpr_keeps (h := ?_) ..) | split | dsimp only)))

theorem dmprOutConfigDef_keeps : CmdKeeps dmprOutConfigDef := by
  (refine ⟨fun m r s hn h => ?_, fun st r s h => ?_⟩ <;> unfold dmprOutConfigDef <;> dsimp only <;> (repeat (first
      | with_reducible assumption | (with_reducible refine modDmpr_keeps (h := ?_) ..) | split | dsimp only)))

theorem dmprLineConfigDef_keeps : CmdKeeps dmprLineConfigDef := by
  (refine ⟨fun m r s hn h => ?_, fun st r s h => ?_⟩ <;> unfold dmprLineConfigDef <;> dsimp only <;> (repeat (first
      | with_reducible assumption | (with_reducible refine modDmpr_keeps (h := ?_) ..) | split | dsimp only)))

theorem dmprStatusDef_keeps : CmdKeeps dmprStatusDef := by
  exact ⟨fun _ _ _ _ h => h, fun _ _ _ h => h⟩

theorem clearLine_keeps {s0 : State} (x1 : Fin 2) (s : State) (h : Keeps s0 s) :
    Keeps s0 (clearLine x1 s) := by
  unfold clearLine
  repeat (first
      | with_reducible assumption | (with_reducible refine modLine_keeps (h := ?_) ..)
      | (with_reducible refine modHw_keeps (h := ?_) ..) | split | dsimp only)

theorem dmprClearDef_keeps : CmdKeeps dmprClearDef := by
  (refine ⟨fun m r s hn h => ?_, fun st r s h => ?_⟩ <;> unfold dmprClearDef <;> dsimp only <;> (repeat (first
      | with_reducible assumption | (with_reducible refine modDmpr_keeps (h := ?_) ..)
      | (with_reducible refine clearLine_keeps (h := ?_) ..) | (with_reducible refine dmprMove_keeps (h := ?_) ..)
      | split | dsimp only)))

theorem dmprEnergyReadDef_keeps : CmdKeeps dmprEnergyReadDef := by
  exact ⟨fun _ _ _ _ h => h, fun _ _ _ h => h⟩

theorem execDmprInfo_goes {s0 : State} (m : Fin 4) (r : Req) (s : State) (h : Keeps s0 s) :
    Goes s0 (execDmprInfo m r s) := by
  exact goes_next (mbxCommand_keeps _ dmprInfoDef_keeps _ _ _ h)

theorem execDmprSupplyConfig_goes {s0 : State} (m : Fin 4) (r : Req) (s : State) (h : Keeps s0 s) :
    Goes s0 (execDmprSupplyConfig m r s) := by
  exact goes_next (mbxCommand_keeps _ dmprSupplyConfigDef_keeps _ _ _ h)

theorem execDmprCrankCurve_goes {s0 : State} (m : Fin 4) (r : Req) (s : State) (h : Keeps s0 s) :
    Goes s0 (execDmprCrankCurve m r s) := by
  exact goes_next (mbxCommand_keeps _ dmprCrankCurveDef_keeps _ _ _ h)

theorem execDmprOutConfig_goes {s0 : State} (m : Fin 4) (r : Req) (s : State) (h : Keeps s0 s) :
    Goes s0 (execDmprOutConfig m r s) := by
  exact goes_next (mbxCommand_keeps _ dmprOutConfigDef_keeps _ _ _ h)

theorem execDmprLineConfig_goes {s0 : State} (m : Fin 4) (r : Req) (s : State) (h : Keeps s0 s) :
    Goes s0 (execDmprLineConfig m r s) := by
  exact goes_next (mbxCommand_keeps _ dmprLineConfigDef_keeps _ _ _ h)

theorem execDmprStatus_goes {s0 : State} (m : Fin 4) (r : Req) (s : State) (h : Keeps s0 s) :
    Goes s0 (execDmprStatus m r s) := by
  exact goes_next (mbxCommand_keeps _ dmprStatusDef_keeps _ _ _ h)

theorem execDmprClear_goes {s0 : State} (m : Fin 4) (r : Req) (s : State) (h : Keeps s0 s) :
    Goes s0 (execDmprClear m r s) := by
  exact goes_next (mbxCommand_keeps _ dmprClearDef_keeps _ _ _ h)

theorem execDmprEnergyRead_goes {s0 : State} (m : Fin 4) (r : Req) (s : State) (h : Keeps s0 s) :
    Goes s0 (execDmprEnergyRead m r s) := by
  exact goes_next (mbxCommand_keeps _ dmprEnergyReadDef_keeps _ _ _ h)

end Sys2Proof.Machine
end

