-- ==== Sys2Proof/Laws/KeepImages.lean ====
section
/-! SUPPORT. What every operation of Machine/Images.lean keeps. -/

namespace Sys2Proof.Machine

theorem modBoot_keeps {s0 : State} (x1 : Boot → Boot) (x2 : State) (hf : (x1 x2.boot).fuses.revoked = x2.boot.fuses.revoked)
    (hk : (x1 x2.boot).fuses.keys = x2.boot.fuses.keys)
    (h : Keeps s0 x2) : Keeps s0 (modBoot x1 x2) :=
  ⟨h.queue, h.life, fun i hi => by
    show (x1 x2.boot).fuses.revoked[i] = true
    rw [hf]; exact h.revoked i hi, h.ram, h.store, h.flash, h.log, h.vers, h.tail, h.head, fun i k hi => by
    show (x1 x2.boot).fuses.keys[i] = some k
    rw [hk]; exact h.keys i k hi, h.safe, h.parts⟩

theorem modP0_keeps {s0 : State} (x1 : Flash → Flash) (x2 : State)
    (hf : Memory.wf 0xFF x2.p0.mem = true → Memory.wf 0xFF (x1 x2.p0).mem = true)
    (h : Keeps s0 x2) : Keeps s0 (modP0 x1 x2) :=
  ⟨h.queue, h.life, h.revoked, h.ram, h.store, fun hm => hf (h.flash hm), h.log, h.vers, h.tail, h.head, h.keys, h.safe, h.parts⟩

theorem modCare_keeps {s0 : State} (f : MemCare → MemCare) (s : State) (h : Keeps s0 s) :
    Keeps s0 (modCare f s) := by
  exact keeps_mk rfl h

theorem modProf_keeps {s0 : State} (sel : Nat) (f : Profile → Profile) (s : State) (h : Keeps s0 s) :
    Keeps s0 (modProf sel f s) := by
  unfold modProf
  repeat (first
      | with_reducible assumption | ((with_reducible refine modP0_keeps _ _ ?_ ?_); (first | exact id | exact progFlash_wf _ _ _ | exact eraseFlash_wf _ _ _ | exact progFlashs_wf _ _ _)) | split | dsimp only
      | ((with_reducible refine keeps_mk ?_ ?_); rfl))

theorem flashPut_keeps {s0 : State} (a : Nat) (x1 : List Byte) (x2 : State) (h : Keeps s0 x2) :
    Keeps s0 (flashPut a x1 x2) := by
  induction x1 generalizing a x2 with
  | nil =>
    unfold flashPut
    repeat (first
      | with_reducible assumption | ((with_reducible refine modP0_keeps _ _ ?_ ?_); (first | exact id | exact progFlash_wf _ _ _ | exact eraseFlash_wf _ _ _ | exact progFlashs_wf _ _ _)) | split | dsimp only
      | ((with_reducible refine keeps_mk ?_ ?_); rfl))
  | cons y ys ih =>
    unfold flashPut
    repeat (first
      | with_reducible assumption | (with_reducible refine ih (h := ?_) ..)
      | ((with_reducible refine modP0_keeps _ _ ?_ ?_); (first | exact id | exact progFlash_wf _ _ _ | exact eraseFlash_wf _ _ _ | exact progFlashs_wf _ _ _)) | split | dsimp only
      | ((with_reducible refine keeps_mk ?_ ?_); rfl))

theorem flashProg_keeps {s0 : State} (a : Nat) (bs : List Byte) (s : State) (h : Keeps s0 s) :
    Keeps s0 (flashProg a bs s) := by
  unfold flashProg
  repeat (first
      | with_reducible assumption | (with_reducible refine flashPut_keeps (h := ?_) ..) | split | dsimp only)

theorem flashCut_keeps {s0 : State} (a : Nat) (bs : List Byte) (s : State) (h : Keeps s0 s) :
    Keeps s0 (flashCut a bs s) :=
  flashProg_keeps _ _ _ (drawWord_keeps s h)

theorem progWordAt_keeps {s0 : State} (a : Nat) (w : Word) (s : State) (h : Keeps s0 s) :
    Keeps s0 (progWordAt a w s) := by
  unfold progWordAt
  repeat (first
      | with_reducible assumption | (with_reducible refine flashProg_keeps (h := ?_) ..)
      | ((with_reducible refine modP0_keeps _ _ ?_ ?_); (first | exact id | exact progFlash_wf _ _ _ | exact eraseFlash_wf _ _ _ | exact progFlashs_wf _ _ _))
      | split | dsimp only)

theorem progState_keeps {s0 : State} (b : Bool) (x2 : Nat) (s : State) (h : Keeps s0 s) :
    Keeps s0 (progState b x2 s) := by
  unfold progState
  repeat (first
      | with_reducible assumption | (with_reducible refine progWordAt_keeps (h := ?_) ..) | split | dsimp only)

theorem retireSlot_keeps {s0 : State} (b : Bool) (s : State) (h : Keeps s0 s) :
    Keeps s0 (retireSlot b s) := by
  unfold retireSlot
  repeat (first
      | with_reducible assumption | (with_reducible refine progWordAt_keeps (h := ?_) ..) | split | dsimp only)

theorem measure_keeps {s0 : State} (x1 : Nat) (d : BitVec 256) (s : State) (h : Keeps s0 s) :
    Keeps s0 (measure x1 d s) := by
  unfold measure
  repeat (first
      | with_reducible assumption | ((with_reducible refine modBoot_keeps _ _ ?_ ?_ ?_); rfl; rfl) | split
      | dsimp only)

theorem vaultWrite_keeps {s0 : State} (k : Nat) (ws : List Word) (s : State) (h : Keeps s0 s) :
    Keeps s0 (vaultWrite k ws s) := by
  unfold vaultWrite
  repeat (first
      | with_reducible assumption | (with_reducible refine healWords_keeps (h := ?_) ..)
      | (with_reducible refine modCare_keeps (h := ?_) ..) | split | dsimp only
      | ((with_reducible refine keeps_mk ?_ ?_); rfl))

theorem deriveKeys_keeps {s0 : State} (s : State) (h : Keeps s0 s) :
    Keeps s0 (deriveKeys s) := by
  unfold deriveKeys
  repeat (first
      | with_reducible assumption | (with_reducible refine vaultWrite_keeps (h := ?_) ..)
      | (with_reducible refine modCare_keeps (h := ?_) ..) | split | dsimp only
      | ((with_reducible refine keeps_mk ?_ ?_); rfl))

theorem keyRead_keeps {s0 : State} (s : State) (h : Keeps s0 s) : Keeps s0 (keyRead s).2 :=
  keeps_foldl2 _ _ _ (fun _ _ hp => checkWord_keeps _ _ hp) h

theorem stageSealed_keeps {s0 : State} (isSealed : Bool) (ws : List Word) (s : State) (h : Keeps s0 s) :
    Keeps s0 (stageSealed isSealed ws s) := by
  unfold stageSealed
  repeat (first
      | with_reducible assumption | (with_reducible refine vaultWrite_keeps (h := ?_) ..) | split | dsimp only)

theorem loadProg_keeps {s0 : State} (c : Fin 32) (b : Fin 2) (d : BitVec 256) (i : BitVec 16) (isSealed : Bool) (s : State) (h : Keeps s0 s) :
    Keeps s0 (loadProg c b d i isSealed s) := by
  unfold loadProg
  repeat (first
      | with_reducible assumption | (with_reducible refine stageSealed_keeps (h := ?_) ..) | (with_reducible refine offAccess_keeps (h := ?_) ..) | (with_reducible refine modCell_keeps (h := ?_) ..)
      | (with_reducible refine healWords_keeps (h := ?_) ..) | split | dsimp only | ((with_reducible refine keeps_mk ?_ ?_); rfl))

theorem loadCoef_keeps {s0 : State} (c : Fin 32) (b : Fin 2) (d : BitVec 256) (i : BitVec 16) (isSealed : Bool) (s : State) (h : Keeps s0 s) :
    Keeps s0 (loadCoef c b d i isSealed s) := by
  unfold loadCoef
  repeat (first
      | with_reducible assumption | (with_reducible refine stageSealed_keeps (h := ?_) ..) | (with_reducible refine offAccess_keeps (h := ?_) ..) | (with_reducible refine modCell_keeps (h := ?_) ..)
      | (with_reducible refine healWords_keeps (h := ?_) ..) | split | dsimp only | ((with_reducible refine keeps_mk ?_ ?_); rfl))

theorem clearProg_keeps {s0 : State} (c : Fin 32) (b : Fin 2) (s : State) (h : Keeps s0 s) :
    Keeps s0 (clearProg c b s) := by
  unfold clearProg
  repeat (first
      | with_reducible assumption | (with_reducible refine modCell_keeps (h := ?_) ..)
      | (with_reducible refine healWords_keeps (h := ?_) ..) | split | dsimp only)

theorem clearCoef_keeps {s0 : State} (c : Fin 32) (b : Fin 2) (s : State) (h : Keeps s0 s) :
    Keeps s0 (clearCoef c b s) := by
  unfold clearCoef
  repeat (first
      | with_reducible assumption | (with_reducible refine modCell_keeps (h := ?_) ..)
      | (with_reducible refine healWords_keeps (h := ?_) ..) | split | dsimp only)

theorem tuneStage_keeps {s0 : State} (d6 : BitVec 256) (s : State) (h : Keeps s0 s) :
    Keeps s0 (tuneStage d6 s) := by
  unfold tuneStage
  repeat (first
      | with_reducible assumption | (with_reducible refine modComb_keeps (h := ?_) ..)
      | (with_reducible refine keeps_foldl _ _ _ ?_ ?_) | split | dsimp only | (intro _ _ _))

theorem tuneBank_keeps {s0 : State} (c4 c5 : Component) (d4 d5 : BitVec 256) (s : State) (c : Fin 32) (h : Keeps s0 s) :
    Keeps s0 (tuneBank c4 c5 d4 d5 s c) := by
  unfold tuneBank
  repeat (first
      | with_reducible assumption | (with_reducible refine loadProg_keeps (h := ?_) ..)
      | (with_reducible refine loadCoef_keeps (h := ?_) ..) | split | dsimp only)

theorem tuneBanks_keeps {s0 : State} (c4 : Component) (c5 : Component) (d4 : BitVec 256) (d5 : BitVec 256) (s : State) (h : Keeps s0 s) :
    Keeps s0 (tuneBanks c4 c5 d4 d5 s) := by
  unfold tuneBanks
  repeat (first
      | with_reducible assumption | (with_reducible refine tuneBank_keeps (h := ?_) ..) | (with_reducible refine loadCoef_keeps (h := ?_) ..)
      | (with_reducible refine loadProg_keeps (h := ?_) ..) | (with_reducible refine keeps_foldl _ _ _ ?_ ?_)
      | split | dsimp only | (intro _ _ _))

theorem roleNow_keeps {s0 : State} (c : Fin 32) (rc : RoleChange) (s : State) (h : Keeps s0 s) :
    Keeps s0 (roleNow c rc s) := by
  unfold roleNow
  repeat (first
      | with_reducible assumption | (with_reducible refine memReadEnds_keeps (h := ?_) ..)
      | (with_reducible refine modCell_keeps (h := ?_) ..) | (with_reducible refine keeps_foldl _ _ _ ?_ ?_) | split
      | dsimp only | (intro _ _ _))

theorem tuneNow_keeps {s0 : State} (tuning : Nat) (roles : List (Fin 32 × RoleChange)) (swaps : List (Fin 32)) (s : State) (h : Keeps s0 s) :
    Keeps s0 (tuneNow tuning roles swaps s) := by
  unfold tuneNow
  repeat (first
      | with_reducible assumption | ((with_reducible refine modBoot_keeps _ _ ?_ ?_ ?_); rfl; rfl)
      | (with_reducible refine roleNow_keeps (h := ?_) ..) | (with_reducible refine modCell_keeps (h := ?_) ..)
      | (with_reducible refine raiseIf_keeps (h := ?_) ..) | (with_reducible refine keeps_foldl _ _ _ ?_ ?_) | split
      | dsimp only | (intro _ _ _))

theorem tuneCommit_keeps {s0 : State} (tuning : Nat) (d4 : BitVec 256) (d6 : BitVec 256) (e : Nat) (s : State) (h : Keeps s0 s) :
    Keeps s0 (tuneCommit tuning d4 d6 e s) := by
  unfold tuneCommit
  repeat (first
      | with_reducible assumption | (with_reducible refine modCell_keeps (h := ?_) ..)
      | (with_reducible refine stageOwn_keeps (h := ?_) ..) | (with_reducible refine tuneStage_keeps (h := ?_) ..)
      | (with_reducible refine modComb_keeps (h := ?_) ..) | (with_reducible refine keeps_foldl _ _ _ ?_ ?_) | split
      | dsimp only | (intro _ _ _))

theorem autoTuneSet_keeps {s0 : State} (tuning : Nat) (d4 d6 : BitVec 256) (n : Nat) (s : State) (h : Keeps s0 s) :
    Keeps s0 (autoTuneSet tuning d4 d6 n s) := by
  unfold autoTuneSet
  repeat (first
      | with_reducible assumption | (with_reducible refine tuneStage_keeps (h := ?_) ..)
      | (with_reducible refine applyMap_keeps (h := ?_) ..) | (with_reducible refine tuneNow_keeps (h := ?_) ..)
      | (with_reducible refine modComb_keeps (h := ?_) ..) | (with_reducible refine keeps_foldl _ _ _ ?_ ?_)
      | (with_reducible refine keeps_foldl2 _ _ _ ?_ ?_) | split | dsimp only | (intro _ _ _)
      | ((with_reducible refine keeps_mk ?_ ?_); rfl))

theorem autoTuneNow_keeps {s0 : State} (tuning : Nat) (d4 : BitVec 256) (d6 : BitVec 256) (n : Nat) (s : State) (h : Keeps s0 s) :
    Keeps s0 (autoTuneNow tuning d4 d6 n s) := by
  unfold autoTuneNow
  repeat (first
      | with_reducible assumption | (with_reducible refine autoTuneSet_keeps (h := ?_) ..) | (with_reducible refine stageOwn_keeps (h := ?_) ..) | (with_reducible refine tuneNow_keeps (h := ?_) ..)
      | (with_reducible refine applyMap_keeps (h := ?_) ..) | (with_reducible refine tuneStage_keeps (h := ?_) ..)
      | (with_reducible refine modComb_keeps (h := ?_) ..) | (with_reducible refine keeps_foldl _ _ _ ?_ ?_) | split
      | dsimp only | (intro _ _ _))

theorem applyPorts_keeps {s0 : State} (d : BitVec 256) (s : State) (h : Keeps s0 s) :
    Keeps s0 (applyPorts d s) := by
  exact keeps_mk rfl h

theorem applyDamper_keeps {s0 : State} (d : BitVec 256) (s : State) (h : Keeps s0 s) :
    Keeps s0 (applyDamper d s) := by
  unfold applyDamper
  repeat (first
      | with_reducible assumption | ((with_reducible refine modBoot_keeps _ _ ?_ ?_ ?_); rfl; rfl) | split
      | dsimp only | ((with_reducible refine keeps_mk ?_ ?_); rfl))

theorem bootRates_keeps {s0 : State} (s : State) (h : Keeps s0 s) :
    Keeps s0 (bootRates s) := by
  unfold bootRates
  repeat (first
      | with_reducible assumption | ((with_reducible refine modBoot_keeps _ _ ?_ ?_ ?_); rfl; rfl)
      | (with_reducible refine modDom_keeps (h := ?_) ..) | (with_reducible refine stoveRetarget_keeps (h := ?_) ..)
      | split | dsimp only | ((with_reducible refine keeps_mk ?_ ?_); rfl))

theorem lockTags_keeps {s0 : State} (d : BitVec 256) (c : Component) (s : State) (h : Keeps s0 s) :
    Keeps s0 (lockTags d c s) := by
  unfold lockTags
  repeat (first
      | with_reducible assumption | (with_reducible refine healWords_keeps (h := ?_) ..) | (with_reducible refine modCare_keeps (h := ?_) ..)
      | ((with_reducible refine modP0_keeps _ _ ?_ ?_); (first | exact id | exact progFlash_wf _ _ _ | exact eraseFlash_wf _ _ _ | exact progFlashs_wf _ _ _))
      | split | dsimp only | ((with_reducible refine keeps_mk ?_ ?_); rfl))

theorem applyComp_keeps {s0 : State} (m : Manifest) (c : Component) (s : State) (h : Keeps s0 s) :
    Keeps s0 (applyComp m c s) := by
  unfold applyComp
  repeat (first
      | with_reducible assumption | (with_reducible refine measure_keeps (h := ?_) ..)
      | ((with_reducible refine modBoot_keeps _ _ ?_ ?_ ?_); rfl; rfl)
      | (with_reducible refine lockTags_keeps (h := ?_) ..) | (with_reducible refine applyDamper_keeps (h := ?_) ..)
      | (with_reducible refine applyPorts_keeps (h := ?_) ..) | split | dsimp only)

theorem applyBanks_keeps {s0 : State} (m : Manifest) (tuning : Nat) (s : State) (h : Keeps s0 s) :
    Keeps s0 (applyBanks m tuning s) := by
  unfold applyBanks
  repeat (first
      | with_reducible assumption | (with_reducible refine tuneBanks_keeps (h := ?_) ..) | split | dsimp only)

theorem jobFails_keeps {s0 : State} (status : Nat) (j : TuneJob) (s : State) (h : Keeps s0 s) :
    Keeps s0 (jobFails status j s) := by
  unfold jobFails
  repeat (first
      | with_reducible assumption | (with_reducible refine complete_keeps (h := ?_) ..) | split | dsimp only)

theorem jobNext_keeps {s0 : State} (s : State) (h : Keeps s0 s) :
    Keeps s0 (jobNext s) := by
  unfold jobNext
  repeat (first
      | with_reducible assumption | ((with_reducible refine modBoot_keeps _ _ ?_ ?_ ?_); rfl; rfl) | split
      | dsimp only)

theorem jobEnds_keeps {s0 : State} (status : Nat) (s : State) (h : Keeps s0 s) :
    Keeps s0 (jobEnds status s) := by
  unfold jobEnds
  repeat (first
      | with_reducible assumption | (with_reducible refine jobFails_keeps (h := ?_) ..) | (with_reducible refine complete_keeps (h := ?_) ..)
      | (with_reducible refine jobNext_keeps (h := ?_) ..) | split | dsimp only | ((with_reducible refine keeps_mk ?_ ?_); rfl))

theorem jobClear_keeps {s0 : State} (s : State) (h : Keeps s0 s) :
    Keeps s0 (jobClear s) := by
  unfold jobClear
  repeat (first
      | with_reducible assumption | (with_reducible refine clearProg_keeps (h := ?_) ..)
      | (with_reducible refine clearCoef_keeps (h := ?_) ..) | (with_reducible refine keeps_foldl _ _ _ ?_ ?_)
      | split | dsimp only | (intro _ _ _))

theorem jobWiped_keeps {s0 : State} (s : State) (h : Keeps s0 s) : Keeps s0 (jobWiped s) := by
  have hm (f : Boot → List TuneJob) : Keeps s0 (modBoot (fun b => { b with jobs := f b }) s) := modBoot_keeps _ _ rfl rfl h
  unfold jobWiped
  refine keeps_foldl _ _ _ (fun s j h => jobFails_keeps _ _ _ h) ?_
  split
  · exact jobEnds_keeps _ _ (jobClear_keeps _ (hm _))
  · exact hm _

theorem wipeVault_keeps {s0 : State} (cause : Nat) (s : State) (h : Keeps s0 s) :
    Keeps s0 (wipeVault cause s) := by
  unfold wipeVault
  repeat (first
      | with_reducible assumption | (with_reducible refine jobWiped_keeps (h := ?_) ..)
      | (with_reducible refine modCare_keeps (h := ?_) ..) | split | dsimp only
      | ((with_reducible refine keeps_mk ?_ ?_); rfl))

theorem openAll_keeps {s0 : State} (cs : List (Component × BitVec 256)) (s : State) (h : Keeps s0 s) :
    Keeps s0 (openAll cs s).2 := by
  have hk := keyRead_keeps s h
  unfold openAll
  generalize keyRead s = p at hk
  obtain ⟨ok, t⟩ := p
  generalize cs.all (fun x => opens x.1 x.2 s) = all
  generalize (cs.any (·.1.isSealed) && vaultServes s && s.care.keysIn) = c
  cases c
  · exact h
  · cases ok
    · exact wipeVault_keeps _ _ hk
    · exact hk

theorem jobShut_keeps {s0 : State} (j : TuneJob) (s : State) (h : Keeps s0 s) :
    Keeps s0 (jobShut j s) := by
  unfold jobShut
  repeat (first
      | with_reducible assumption | (with_reducible refine jobClear_keeps (h := ?_) ..)
      | (with_reducible refine jobEnds_keeps (h := ?_) ..) | split | dsimp only)

theorem progLoaded_keeps {s0 : State} (j : TuneJob) (m : Manifest) (c : Fin 32) (b : Fin 2) (s : State) (h : Keeps s0 s) :
    Keeps s0 (progLoaded j m c b s) := by
  unfold progLoaded
  repeat (first
      | with_reducible assumption | (with_reducible refine measure_keeps (h := ?_) ..)
      | (with_reducible refine loadProg_keeps (h := ?_) ..) | split | dsimp only)

theorem coefLoaded_keeps {s0 : State} (j : TuneJob) (m : Manifest) (c : Fin 32) (b : Fin 2) (s : State) (h : Keeps s0 s) :
    Keeps s0 (coefLoaded j m c b s) := by
  unfold coefLoaded
  repeat (first
      | with_reducible assumption | (with_reducible refine measure_keeps (h := ?_) ..)
      | (with_reducible refine loadCoef_keeps (h := ?_) ..) | split | dsimp only)

theorem imageWritten_keeps {s0 : State} (j : TuneJob) (m : Manifest) (c : Fin 32) (p k : Bool) (s : State) (h : Keeps s0 s) :
    Keeps s0 (imageWritten j m c p k s) := by
  unfold imageWritten
  repeat (first
      | with_reducible assumption | (with_reducible refine progLoaded_keeps (h := ?_) ..)
      | (with_reducible refine coefLoaded_keeps (h := ?_) ..) | (with_reducible refine complete_keeps (h := ?_) ..)
      | (with_reducible refine jobNext_keeps (h := ?_) ..) | split | dsimp only)

theorem imageLoaded_keeps {s0 : State} (j : TuneJob) (m : Manifest) (c : Fin 32) (p : Bool) (x5 : Bool) (s : State) (h : Keeps s0 s) :
    Keeps s0 (imageLoaded j m c p x5 s) := by
  unfold imageLoaded
  repeat (first
      | with_reducible assumption | (with_reducible refine imageWritten_keeps (h := ?_) ..) | (with_reducible refine openAll_keeps (h := ?_) ..) | (with_reducible refine jobShut_keeps (h := ?_) ..) | (with_reducible refine jobEnds_keeps (h := ?_) ..)
      | (with_reducible refine jobClear_keeps (h := ?_) ..) | (with_reducible refine progLoaded_keeps (h := ?_) ..)
      | (with_reducible refine coefLoaded_keeps (h := ?_) ..) | (with_reducible refine complete_keeps (h := ?_) ..)
      | (with_reducible refine jobNext_keeps (h := ?_) ..) | split | dsimp only)

theorem tuneOpened_keeps {s0 : State} (j : TuneJob) (c4 c5 c6 : Component) (d4 d5 d6 : BitVec 256) (e : Nat) (s : State) (h : Keeps s0 s) :
    Keeps s0 (tuneOpened j c4 c5 c6 d4 d5 d6 e s) := by
  unfold tuneOpened
  repeat (first
      | with_reducible assumption | (with_reducible refine stageSealed_keeps (h := ?_) ..)
      | (with_reducible refine tuneCommit_keeps (h := ?_) ..) | (with_reducible refine tuneBanks_keeps (h := ?_) ..)
      | (with_reducible refine jobEnds_keeps (h := ?_) ..)
      | ((with_reducible refine modBoot_keeps _ _ ?_ ?_ ?_); rfl; rfl) | split | dsimp only
      | ((with_reducible refine keeps_mk ?_ ?_); rfl))

theorem tuneLoaded_keeps {s0 : State} (j : TuneJob) (m : Manifest) (s : State) (h : Keeps s0 s) :
    Keeps s0 (tuneLoaded j m s) := by
  unfold tuneLoaded
  repeat (first
      | with_reducible assumption | (with_reducible refine tuneOpened_keeps (h := ?_) ..) | (with_reducible refine stageSealed_keeps (h := ?_) ..) | (with_reducible refine openAll_keeps (h := ?_) ..) | (with_reducible refine jobShut_keeps (h := ?_) ..) | (with_reducible refine jobEnds_keeps (h := ?_) ..)
      | (with_reducible refine jobClear_keeps (h := ?_) ..) | (with_reducible refine tuneCommit_keeps (h := ?_) ..)
      | (with_reducible refine tuneBanks_keeps (h := ?_) ..)
      | ((with_reducible refine modBoot_keeps _ _ ?_ ?_ ?_); rfl; rfl) | split | dsimp only)

theorem jobLoaded_keeps {s0 : State} (s : State) (h : Keeps s0 s) :
    Keeps s0 (jobLoaded s) := by
  unfold jobLoaded
  repeat (first
      | with_reducible assumption | (with_reducible refine imageLoaded_keeps (h := ?_) ..)
      | (with_reducible refine tuneLoaded_keeps (h := ?_) ..) | split | dsimp only)

theorem jobBlock_keeps {s0 : State} (media : Bool) (j : TuneJob) (s : State) (h : Keeps s0 s) :
    Keeps s0 (jobBlock media j s) := by
  unfold jobBlock
  repeat (first
      | with_reducible assumption | (with_reducible refine jobLoaded_keeps (h := ?_) ..)
      | ((with_reducible refine modBoot_keeps _ _ ?_ ?_ ?_); rfl; rfl)
      | (with_reducible refine jobEnds_keeps (h := ?_) ..) | split | dsimp only)

end Sys2Proof.Machine
end

