-- ==== Sys2Proof/Laws/KeepMemories.lean ====
section
/-! SUPPORT. What every operation of Machine/Memories.lean keeps. -/

namespace Sys2Proof.Machine

theorem cellBlockLost_keeps {s0 : State} (c : Fin 32) (b : Nat) (s : State) (h : Keeps s0 s) :
    Keeps s0 (cellBlockLost c b s) := by
  unfold cellBlockLost
  repeat (first
      | with_reducible assumption | (with_reducible refine clearProg_keeps (h := ?_) ..)
      | (with_reducible refine clearCoef_keeps (h := ?_) ..) | (with_reducible refine forget_keeps (h := ?_) ..)
      | (with_reducible refine modCell_keeps (h := ?_) ..) | split | dsimp only)

theorem segLost_keeps {s0 : State} (x1 : Nat) (x2 : State) (h : Keeps s0 x2) : Keeps s0 (segLost x1 x2) :=
  ⟨h.queue, h.life, h.revoked, h.ram, fun hs => zeroMem_wf _ _ _ (h.store hs), h.flash, h.log, h.vers, h.tail, h.head, h.keys, h.safe, h.parts⟩

theorem cellBlockTo_keeps {s0 : State} (c : Fin 32) (dst : BlkPow) (b : Nat) (s : State) (h : Keeps s0 s) :
    Keeps s0 (cellBlockTo c dst b s) := by
  unfold cellBlockTo
  repeat (first
      | with_reducible assumption | (with_reducible refine cellBlockLost_keeps (h := ?_) ..)
      | (with_reducible refine modCare_keeps (h := ?_) ..) | (with_reducible refine modCell_keeps (h := ?_) ..)
      | split | dsimp only)

theorem segTo_keeps {s0 : State} (dst : BlkPow) (x2 : Nat) (s : State) (h : Keeps s0 s) :
    Keeps s0 (segTo dst x2 s) := by
  unfold segTo
  repeat (first
      | with_reducible assumption | (with_reducible refine segLost_keeps (h := ?_) ..)
      | (with_reducible refine modCare_keeps (h := ?_) ..) | split | dsimp only
      | ((with_reducible refine keeps_mk ?_ ?_); rfl))

theorem memPowerNow_keeps {s0 : State} (cell : Option (Fin 32)) (blocks : Word) (dst : BlkPow) (s : State) (h : Keeps s0 s) :
    Keeps s0 (memPowerNow cell blocks dst s) := by
  unfold memPowerNow
  repeat (first
      | with_reducible assumption | (with_reducible refine cellBlockTo_keeps (h := ?_) ..)
      | (with_reducible refine segTo_keeps (h := ?_) ..) | (with_reducible refine keeps_foldl _ _ _ ?_ ?_) | split
      | dsimp only | (intro _ _ _))

theorem memPowerSetDef_keeps : CmdKeeps memPowerSetDef := by
  (refine ⟨fun m r s hn h => ?_, fun st r s h => ?_⟩ <;> unfold memPowerSetDef <;> dsimp only <;> (repeat (first
      | with_reducible assumption | (with_reducible refine stage_keeps (h := ?_) ..) | split | dsimp only)))

theorem memInfoDef_keeps : CmdKeeps memInfoDef := by
  exact ⟨fun _ _ _ _ h => h, fun _ _ _ h => h⟩

theorem memEccStatusDef_keeps : CmdKeeps memEccStatusDef := by
  exact ⟨fun _ _ _ _ h => h, fun _ _ _ h => h⟩

theorem memErrReadDef_keeps : CmdKeeps memErrReadDef := by
  exact ⟨fun _ _ _ _ h => h, fun _ _ _ h => h⟩

theorem memClearDef_keeps : CmdKeeps memClearDef := by
  (refine ⟨fun m r s hn h => ?_, fun st r s h => ?_⟩ <;> unfold memClearDef <;> dsimp only <;> (repeat (first
      | with_reducible assumption | (with_reducible refine modCare_keeps (h := ?_) ..) | split | dsimp only)))

theorem memPatrolSetDef_keeps : CmdKeeps memPatrolSetDef := by
  (refine ⟨fun m r s hn h => ?_, fun st r s h => ?_⟩ <;> unfold memPatrolSetDef <;> dsimp only <;> (repeat (first
      | with_reducible assumption | (with_reducible refine modCare_keeps (h := ?_) ..) | split | dsimp only)))

theorem memPatrolStatusDef_keeps : CmdKeeps memPatrolStatusDef := by
  exact ⟨fun _ _ _ _ h => h, fun _ _ _ h => h⟩

theorem scrubBad_keeps {s0 : State} (w : WordAt) (s : State) (h : Keeps s0 s) :
    Keeps s0 (scrubBad w s) := by
  unfold scrubBad
  repeat (first
      | with_reducible assumption | (with_reducible refine wipeVault_keeps (h := ?_) ..)
      | (with_reducible refine wrData_keeps (h := ?_) ..) | split | dsimp only
      | ((with_reducible refine keeps_mk ?_ ?_); rfl))

theorem scrubWord_keeps {s0 : State} (w : WordAt) (s : State) (h : Keeps s0 s) :
    Keeps s0 (scrubWord w s) := by
  simp only [scrubWord]
  repeat (first
      | with_reducible assumption | (with_reducible refine patrolWord_keeps (h := ?_) ..)
      | (with_reducible refine rdStoreX_keeps (h := ?_) ..) | (with_reducible refine scrubBad_keeps (h := ?_) ..)
      | split | dsimp only)

theorem passRead_keeps {s0 : State} (w : WordAt) (s : State) (h : Keeps s0 s) :
    Keeps s0 (passRead w s) := by
  unfold passRead
  repeat (first
      | with_reducible assumption | (with_reducible refine modCare_keeps (h := ?_) ..) | split | dsimp only
      | ((with_reducible refine keeps_mk ?_ ?_); rfl))

theorem execPatrolScrubRead_goes {s0 : State} (w : WordAt) (ups : List Upset) (s : State) (h : Keeps s0 s) :
    Goes s0 (execPatrolScrubRead w ups s) := by
  unfold execPatrolScrubRead
  repeat (first
      | with_reducible assumption | (with_reducible refine scrubWord_keeps (h := ?_) ..) | (with_reducible refine passRead_keeps (h := ?_) ..) | (with_reducible refine goes_next ?_)
      | (with_reducible refine strike_keeps (h := ?_) ..)
      | (with_reducible refine modCare_keeps (h := ?_) ..) | split | dsimp only)

theorem patrolRams_keeps {s0 : State} (k : Nat) (x1 : Nat) (x2 : State) (h : Keeps s0 x2) :
    Keeps s0 (patrolRams k x1 x2).2 := by
  induction x1 generalizing k x2 with
  | zero =>
    unfold patrolRams
    repeat (first
      | with_reducible assumption | (with_reducible refine patrolWord_keeps (h := ?_) ..) | split | dsimp only)
  | succ k ih =>
    unfold patrolRams
    repeat (first
      | with_reducible assumption | (with_reducible refine ih (h := ?_) ..)
      | (with_reducible refine patrolWord_keeps (h := ?_) ..) | split | dsimp only)

theorem wrRam_keeps {s0 : State} (a : Nat) (ws : List Word) (s : State) (h : Keeps s0 s) :
    Keeps s0 (wrRam a ws s) := by
  unfold wrRam
  repeat (first
      | with_reducible assumption | (with_reducible refine modCare_keeps (h := ?_) ..)
      | (with_reducible refine healWords_keeps (h := ?_) ..) | split | dsimp only)

theorem regionRead_keeps {s0 : State} (ram : Bool) (r : Nat) (s : State) (h : Keeps s0 s) :
    Keeps s0 (regionRead ram r s).2 := by
  unfold regionRead
  repeat (first
      | with_reducible assumption | (with_reducible refine patrolRams_keeps (h := ?_) ..) | (with_reducible refine rdStoresX_keeps (h := ?_) ..) | split | dsimp only)

theorem regionWrite_keeps {s0 : State} (ram : Bool) (r : Nat) (ws : List Word) (s : State) (h : Keeps s0 s) :
    Keeps s0 (regionWrite ram r ws s) := by
  unfold regionWrite
  repeat (first
      | with_reducible assumption | (with_reducible refine wrRam_keeps (h := ?_) ..)
      | (with_reducible refine wrStoresX_keeps (h := ?_) ..) | split | dsimp only)

theorem regionSave_keeps {s0 : State} (s : State) (h : Keeps s0 s) :
    Keeps s0 (regionSave s) := by
  unfold regionSave
  repeat (first
      | with_reducible assumption | (with_reducible refine regionRead_keeps (h := ?_) ..)
      | (with_reducible refine wrRam_keeps (h := ?_) ..) | split | dsimp only)

theorem regionAdvance_keeps {s0 : State} (s : State) (h : Keeps s0 s) :
    Keeps s0 (regionAdvance s) := by
  unfold regionAdvance
  repeat (first
      | with_reducible assumption | (with_reducible refine modCare_keeps (h := ?_) ..) | split | dsimp only
      | ((with_reducible refine keeps_mk ?_ ?_); rfl))

theorem regionBroken_keeps {s0 : State} (ram : Bool) (r : Nat) (s : State) (h : Keeps s0 s) :
    Keeps s0 (regionBroken ram r s) := by
  unfold regionBroken
  repeat (first
      | with_reducible assumption | (with_reducible refine countUnc_keeps (h := ?_) ..)
      | (with_reducible refine regionWrite_keeps (h := ?_) ..) | split | dsimp only)

theorem regionIdle_keeps {s0 : State} (s : State) (h : Keeps s0 s) :
    Keeps s0 (regionIdle s) := by
  unfold regionIdle
  repeat (first
      | with_reducible assumption | (with_reducible refine modCare_keeps (h := ?_) ..) | split | dsimp only
      | ((with_reducible refine keeps_mk ?_ ?_); rfl))

theorem regionFailed_keeps {s0 : State} (i : Nat) (s : State) (h : Keeps s0 s) :
    Keeps s0 (regionFailed i s) := by
  simp only [regionFailed]
  repeat (first
      | with_reducible assumption | (with_reducible refine drawWord_keeps (h := ?_) ..)
      | (with_reducible refine countUnc_keeps (h := ?_) ..) | split | dsimp only)

theorem execRegionIntervalExpiry_goes {s0 : State} (s : State) (h : Keeps s0 s) :
    Goes s0 (execRegionIntervalExpiry s) := by
  unfold execRegionIntervalExpiry
  repeat (first
      | with_reducible assumption | (with_reducible refine goes_next ?_)
      | (with_reducible refine modCare_keeps (h := ?_) ..) | split | dsimp only | ((with_reducible refine keeps_mk ?_ ?_); rfl))

theorem execRegionTestStart_goes {s0 : State} (s : State) (h : Keeps s0 s) :
    Goes s0 (execRegionTestStart s) := by
  unfold execRegionTestStart
  repeat (first
      | with_reducible assumption | (with_reducible refine goes_next ?_)
      | (with_reducible refine modCare_keeps (h := ?_) ..) | split | dsimp only)

theorem execPatrolMarkerAck_goes {s0 : State} (s : State) (h : Keeps s0 s) :
    Goes s0 (execPatrolMarkerAck s) := by
  unfold execPatrolMarkerAck
  repeat (first
      | with_reducible assumption | (with_reducible refine goes_next ?_)
      | (with_reducible refine modCare_keeps (h := ?_) ..) | split | dsimp only
      | ((with_reducible refine keeps_mk ?_ ?_); rfl))

theorem savedRead_keeps {s0 : State} (s : State) (h : Keeps s0 s) : Keeps s0 (savedRead s).2 :=
  patrolRams_keeps _ _ _ h

theorem regionRestore_keeps {s0 : State} (readBackOk : Bool) (s : State) (h : Keeps s0 s) :
    Keeps s0 (regionRestore readBackOk s) := by
  have hw : Keeps s0 (regionWrite (testRegion s).1 (testRegion s).2 (savedRead s).1 (savedRead s).2) :=
    regionWrite_keeps _ _ _ _ (savedRead_keeps _ h)
  unfold regionRestore
  refine regionAdvance_keeps _ (regionIdle_keeps _ ?_)
  split
  · exact hw
  · exact regionBroken_keeps _ _ _ hw

theorem execRegionTestPhaseEnd_goes {s0 : State} (failed : List Nat) (readBackOk : Bool) (s : State) (h : Keeps s0 s) :
    Goes s0 (execRegionTestPhaseEnd failed readBackOk s) := by
  unfold execRegionTestPhaseEnd
  repeat (first
      | with_reducible assumption | (with_reducible refine regionRestore_keeps (h := ?_) ..) | (with_reducible refine goes_next ?_)
      | (with_reducible refine modCare_keeps (h := ?_) ..) | (with_reducible refine regionSave_keeps (h := ?_) ..)
      | (with_reducible refine regionFailed_keeps (h := ?_) ..)
      | (with_reducible refine regionWrite_keeps (h := ?_) ..)
      | (with_reducible refine regionBroken_keeps (h := ?_) ..)
      | (with_reducible refine regionAdvance_keeps (h := ?_) ..)
      | (with_reducible refine regionIdle_keeps (h := ?_) ..) | (with_reducible refine keeps_foldl _ _ _ ?_ ?_)
      | split | dsimp only | ((with_reducible refine keeps_mk ?_ ?_); rfl) | (intro _ _ _))

theorem regionForced_keeps {s0 : State} (n : Nat) (s : State) (h : Keeps s0 s) :
    Keeps s0 (regionForced n s) := by
  unfold regionForced
  repeat (first
      | with_reducible assumption | (with_reducible refine regionRestore_keeps (h := ?_) ..) | (with_reducible refine startFrame_keeps (h := ?_) ..) | (with_reducible refine modCare_keeps (h := ?_) ..)
      | (with_reducible refine regionSave_keeps (h := ?_) ..) | split | dsimp only | ((with_reducible refine keeps_mk ?_ ?_); rfl))

theorem regionHold_keeps {s0 : State} (s : State) (h : Keeps s0 s) :
    Keeps s0 (regionHold s) := by
  unfold regionHold
  repeat (first
      | with_reducible assumption | (with_reducible refine modCare_keeps (h := ?_) ..)
      | (with_reducible refine regionIdle_keeps (h := ?_) ..) | split | dsimp only | ((with_reducible refine keeps_mk ?_ ?_); rfl))

theorem regionRecover_keeps {s0 : State} (s : State) (h : Keeps s0 s) : Keeps s0 (regionRecover s) := by
  have hm (f : MemCare → MemCare) : Keeps s0 (modCare f s) := modCare_keeps _ _ h
  unfold regionRecover
  refine regionIdle_keeps _ ?_
  split
  · dsimp only
    split
    · exact regionWrite_keeps _ _ _ _ (savedRead_keeps _ (hm _))
    · exact regionBroken_keeps _ _ _ (savedRead_keeps _ (hm _))
  · exact hm _

theorem vaultCmdsEnd_keeps {s0 : State} (status : Nat) (s : State) (h : Keeps s0 s) :
    Keeps s0 (vaultCmdsEnd status s) := by
  unfold vaultCmdsEnd
  repeat (first
      | with_reducible assumption | (with_reducible refine complete_keeps (h := ?_) ..)
      | (with_reducible refine modCare_keeps (h := ?_) ..) | (with_reducible refine keeps_foldl _ _ _ ?_ ?_) | split
      | dsimp only | (intro _ _ _))

theorem vaultWipeDef_keeps : CmdKeeps vaultWipeDef := by
  (refine ⟨fun m r s hn h => ?_, fun st r s h => ?_⟩ <;> unfold vaultWipeDef <;> dsimp only <;> (repeat (first
      | with_reducible assumption | (with_reducible refine defer_keeps (h := ?_) ..)
      | (with_reducible refine complete_keeps (h := ?_) ..) | (with_reducible refine modCare_keeps (h := ?_) ..)
      | (with_reducible refine wipeVault_keeps (h := ?_) ..) | split | dsimp only)))

theorem vaultStatusDef_keeps : CmdKeeps vaultStatusDef := by
  exact ⟨fun _ _ _ _ h => h, fun _ _ _ h => h⟩

theorem execVaultWipeComplete_goes {s0 : State} (clean : Bool) (s : State) (h : Keeps s0 s) :
    Goes s0 (execVaultWipeComplete clean s) := by
  unfold execVaultWipeComplete
  repeat (first
      | with_reducible assumption | (with_reducible refine deriveKeys_keeps (h := ?_) ..) | (with_reducible refine goes_next ?_)
      | (with_reducible refine vaultCmdsEnd_keeps (h := ?_) ..) | (with_reducible refine forget_keeps (h := ?_) ..)
      | (with_reducible refine modCare_keeps (h := ?_) ..) | (with_reducible refine logFault_keeps (h := ?_) ..)
      | split | dsimp only | ((with_reducible refine keeps_mk ?_ ?_); rfl))

theorem execMemInfo_goes {s0 : State} (m : Fin 4) (r : Req) (s : State) (h : Keeps s0 s) :
    Goes s0 (execMemInfo m r s) := by
  exact goes_next (mbxCommand_keeps _ memInfoDef_keeps _ _ _ h)

theorem execMemPowerSet_goes {s0 : State} (m : Fin 4) (r : Req) (s : State) (h : Keeps s0 s) :
    Goes s0 (execMemPowerSet m r s) := by
  exact goes_next (mbxCommand_keeps _ memPowerSetDef_keeps _ _ _ h)

theorem execMemEccStatus_goes {s0 : State} (m : Fin 4) (r : Req) (s : State) (h : Keeps s0 s) :
    Goes s0 (execMemEccStatus m r s) := by
  exact goes_next (mbxCommand_keeps _ memEccStatusDef_keeps _ _ _ h)

theorem execMemErrRead_goes {s0 : State} (m : Fin 4) (r : Req) (s : State) (h : Keeps s0 s) :
    Goes s0 (execMemErrRead m r s) := by
  exact goes_next (mbxCommand_keeps _ memErrReadDef_keeps _ _ _ h)

theorem execMemPatrolSet_goes {s0 : State} (m : Fin 4) (r : Req) (s : State) (h : Keeps s0 s) :
    Goes s0 (execMemPatrolSet m r s) := by
  exact goes_next (mbxCommand_keeps _ memPatrolSetDef_keeps _ _ _ h)

theorem execMemPatrolStatus_goes {s0 : State} (m : Fin 4) (r : Req) (s : State) (h : Keeps s0 s) :
    Goes s0 (execMemPatrolStatus m r s) := by
  exact goes_next (mbxCommand_keeps _ memPatrolStatusDef_keeps _ _ _ h)

theorem execVaultWipe_goes {s0 : State} (m : Fin 4) (r : Req) (s : State) (h : Keeps s0 s) :
    Goes s0 (execVaultWipe m r s) := by
  exact goes_next (mbxCommand_keeps _ vaultWipeDef_keeps _ _ _ h)

theorem execVaultStatus_goes {s0 : State} (m : Fin 4) (r : Req) (s : State) (h : Keeps s0 s) :
    Goes s0 (execVaultStatus m r s) := by
  exact goes_next (mbxCommand_keeps _ vaultStatusDef_keeps _ _ _ h)

theorem execMemClear_goes {s0 : State} (m : Fin 4) (r : Req) (s : State) (h : Keeps s0 s) :
    Goes s0 (execMemClear m r s) := by
  exact goes_next (mbxCommand_keeps _ memClearDef_keeps _ _ _ h)

end Sys2Proof.Machine
end

