-- ==== Sys2Proof/Laws/KeepResets.lean ====
section
/-! SUPPORT. What every operation of Machine/Resets.lean keeps. -/

namespace Sys2Proof.Machine

theorem holdMbx_keeps {s0 : State} (m : Fin 4) (s : State) (h : Keeps s0 s) :
    Keeps s0 (holdMbx m s) := by
  unfold holdMbx
  repeat (first
      | with_reducible assumption | ((with_reducible refine modMbx_keeps _ _ _ ?_ ?_); (exact fun _ => ⟨rfl, rfl⟩))
      | (with_reducible refine ev15_keeps (h := ?_) ..) | split | dsimp only)

theorem slotsReset_keeps {s0 : State} (s : State) (h : Keeps s0 s) :
    Keeps s0 (slotsReset s) := by
  exact keeps_mk rfl h

theorem rateHeld_keeps {s0 : State} (s : State) (h : Keeps s0 s) :
    Keeps s0 (rateHeld s) := by
  unfold rateHeld
  repeat (first
      | with_reducible assumption | (with_reducible refine modDom_keeps (h := ?_) ..)
      | (with_reducible refine complete_keeps (h := ?_) ..) | split | dsimp only)

theorem hiveEnds_keeps {s0 : State} (x1 : State) (h : Keeps s0 x1) : Keeps s0 (hiveEnds x1) := by
  unfold hiveEnds
  refine modCare_keeps _ _ ?_
  have hg (f : Flash) (hf : Memory.wf 0xFF f.mem = true) :
      Memory.wf 0xFF ({ orphan (fun _ => true) .cut f with rings := .replicate 16 {} } : Flash).mem = true := hf
  refine modP0_keeps _ _ (hg _) ?_
  refine dropEvts_keeps _ _ _ ?_
  refine slotsReset_keeps _ ?_
  refine unstage_keeps _ _ ?_
  refine rateHeld_keeps _ ?_
  refine regionHold_keeps _ ?_
  refine keeps_foldl _ _ _ (fun _ _ hs => jobEnds_keeps _ _ hs) ?_
  refine keeps_foldl _ _ _ (fun _ _ hs => holdMbx_keeps _ _ hs) ?_
  exact keeps_foldl _ _ _ (fun _ _ hs => entryLost_keeps _ _ hs) (keeps_mk rfl h)

theorem hiveClear_keeps {s0 : State} (x1 : State) (h : Keeps s0 x1) : Keeps s0 (hiveClear x1) :=
  keeps_pow rfl (safeHeld_hive _) rfl h

theorem hiveHold_keeps {s0 : State} (s : State) (h : Keeps s0 s) :
    Keeps s0 (hiveHold s) := by
  unfold hiveHold
  repeat (first
      | with_reducible assumption | (with_reducible refine hiveClear_keeps (h := ?_) ..)
      | (with_reducible refine hiveEnds_keeps (h := ?_) ..) | split | dsimp only)

theorem measuresEnd_keeps {s0 : State} (s : State) (h : Keeps s0 s) :
    Keeps s0 (measuresEnd s) := by
  unfold measuresEnd
  repeat (first
      | with_reducible assumption | (with_reducible refine endMeasure_keeps (h := ?_) ..)
      | (with_reducible refine keeps_foldl _ _ _ ?_ ?_) | split | dsimp only | (intro _ _ _))

theorem bellowsEnds_keeps {s0 : State} (s : State) (h : Keeps s0 s) :
    Keeps s0 (bellowsEnds s) := by
  unfold bellowsEnds
  repeat (first
      | with_reducible assumption | (with_reducible refine measuresEnd_keeps (h := ?_) ..)
      | (with_reducible refine dropEvts_keeps (h := ?_) ..) | (with_reducible refine unstage_keeps (h := ?_) ..)
      | (with_reducible refine keeps_foldl _ _ _ ?_ ?_) | split | dsimp only | (intro _ _ _))

theorem bellowsClear_keeps {s0 : State} (s : State) (h : Keeps s0 s) :
    Keeps s0 (bellowsClear s) := by
  unfold bellowsClear
  repeat (first
      | with_reducible assumption | (with_reducible refine keeps_foldl _ _ _ ?_ ?_) | split | dsimp only
      | (intro _ _ _) | ((with_reducible refine keeps_mk ?_ ?_); rfl)
      | ((with_reducible refine keeps_pow ?_ ?_ ?_ ?_); rfl; (first | exact id | exact safeHeld_rst _ _ | exact safeHeld_hive _ | exact safeHeld_hw _ _ | exact safeHeld_bel _ | exact fun _ h => nomatch h); rfl))

theorem bellowsHold_keeps {s0 : State} (s : State) (h : Keeps s0 s) :
    Keeps s0 (bellowsHold s) := by
  unfold bellowsHold
  repeat (first
      | with_reducible assumption | (with_reducible refine bellowsClear_keeps (h := ?_) ..)
      | (with_reducible refine bellowsEnds_keeps (h := ?_) ..) | split | dsimp only)

theorem xactsEnd_keeps {s0 : State} (x1 : Fin 2) (s : State) (h : Keeps s0 s) :
    Keeps s0 (xactsEnd x1 s) := by
  unfold xactsEnd
  repeat (first
      | with_reducible assumption | (with_reducible refine xactEnds_keeps (h := ?_) ..)
      | (with_reducible refine complete_keeps (h := ?_) ..) | (with_reducible refine walkDone_keeps (h := ?_) ..)
      | (with_reducible refine keeps_foldl _ _ _ ?_ ?_) | split | dsimp only | ((with_reducible refine keeps_mk ?_ ?_); rfl) | (intro _ _ _))

theorem chainHold_keeps {s0 : State} (x1 : Fin 2) (s : State) (h : Keeps s0 s) :
    Keeps s0 (chainHold x1 s) := by
  unfold chainHold
  repeat (first
      | with_reducible assumption | (with_reducible refine xactsEnd_keeps (h := ?_) ..)
      | (with_reducible refine endWalk_keeps (h := ?_) ..) | (with_reducible refine unstage_keeps (h := ?_) ..)
      | (with_reducible refine dropEvts_keeps (h := ?_) ..) | (with_reducible refine modHw_keeps (h := ?_) ..)
      | (with_reducible refine keeps_foldl _ _ _ ?_ ?_) | split | dsimp only | (intro _ _ _)
      | ((with_reducible refine keeps_mk ?_ ?_); rfl)
      | ((with_reducible refine keeps_pow ?_ ?_ ?_ ?_); rfl; (first | exact id | exact safeHeld_rst _ _ | exact safeHeld_hive _ | exact safeHeld_hw _ _ | exact safeHeld_bel _ | exact fun _ h => nomatch h); rfl))

theorem releaseHive_keeps {s0 : State} (x1 : Nat) (x2 : State) (h : Keeps s0 x2) : Keeps s0 (releaseHive x1 x2) := by
  have hm (s : State) (v : Hive) (hv : v.store = []) (hs : Keeps s0 s) : Keeps s0 { s with hive := v } :=
    ⟨hs.queue, hs.life, hs.revoked, hs.ram, fun _ => by show Memory.wf 0 v.store = true; rw [hv]; rfl, hs.flash, hs.log,
      hs.vers, hs.tail, hs.head, hs.keys, hs.safe, hs.parts⟩
  unfold releaseHive
  exact portsStart_keeps _ _ (hm _ _ rfl (forget_keeps _ _ (modDom_keeps _ _ h)))

theorem releaseChain_keeps {s0 : State} (n : Nat) (x2 : Fin 2) (s : State) (h : Keeps s0 s) :
    Keeps s0 (releaseChain n x2 s) := by
  unfold releaseChain
  repeat (first
      | with_reducible assumption | (with_reducible refine modHw_keeps (h := ?_) ..) | split | dsimp only)

theorem releaseNow_keeps {s0 : State} (x1 : Nat) (x2 x3 x4 x5 : Bool) (x6 : State) (h : Keeps s0 x6) :
    Keeps s0 (releaseNow x1 x2 x3 x4 x5 x6) := by
  have hi (c : Bool) (f : State → State) (s : State) (hf : Keeps s0 s → Keeps s0 (f s)) (hs : Keeps s0 s) :
      Keeps s0 (if c = true then f s else s) := by
    split
    · exact hf hs
    · exact hs
  have hp (p : PowerSt) (hl : p.lc = x6.pow.lc) (hst : p.st ≠ .hearthSafe) : Keeps s0 { x6 with pow := p } :=
    keeps_pow hl (fun _ hs => absurd hs hst) rfl h
  unfold releaseNow
  split
  · exact h
  · rename_i hg
    refine hi _ _ _ (releaseChain_keeps _ _ _) (hi _ _ _ (releaseChain_keeps _ _ _) (hi _ _ _ (releaseHive_keeps _ _)
      (hp _ rfl ?_)))
    dsimp only
    split
    · decide
    · intro hs
      exact hg ⟨by rw [hs]; decide, by rw [hs]; decide⟩

theorem toStandbyNow_keeps {s0 : State} (cmd : Option (Nat × BitVec 16)) (n : Nat) (s : State) (h : Keeps s0 s) :
    Keeps s0 (toStandbyNow cmd n s) := by
  unfold toStandbyNow
  repeat (first
      | with_reducible assumption | (with_reducible refine measuresEnd_keeps (h := ?_) ..)
      | (with_reducible refine belEnableNow_keeps (h := ?_) ..)
      | (with_reducible refine hwPowerOff_keeps (h := ?_) ..) | (with_reducible refine portsStop_keeps (h := ?_) ..)
      | (with_reducible refine keeps_foldl _ _ _ ?_ ?_) | split | dsimp only | (intro _ _ _)
      | ((with_reducible refine keeps_mk ?_ ?_); rfl)
      | ((with_reducible refine keeps_pow ?_ ?_ ?_ ?_); rfl; (first | exact id | exact safeHeld_rst _ _ | exact safeHeld_hive _ | exact safeHeld_hw _ _ | exact safeHeld_bel _ | exact fun _ h => nomatch h); rfl))

theorem standbyAnswer_keeps {s0 : State} (n : Nat) (s : State) (h : Keeps s0 s) :
    Keeps s0 (standbyAnswer n s) := by
  unfold standbyAnswer
  repeat (first
      | with_reducible assumption | (with_reducible refine complete_keeps (h := ?_) ..)
      | (with_reducible refine keeps_foldl _ _ _ ?_ ?_) | split | dsimp only | (intro _ _ _)
      | ((with_reducible refine keeps_mk ?_ ?_); rfl)
      | ((with_reducible refine keeps_pow ?_ ?_ ?_ ?_); rfl; (first | exact id | exact safeHeld_rst _ _ | exact safeHeld_hive _ | exact safeHeld_hw _ _ | exact safeHeld_bel _ | exact fun _ h => nomatch h); rfl))

theorem standbyResets_keeps {s0 : State} (n : Nat) (s : State) (h : Keeps s0 s) :
    Keeps s0 (standbyResets n s) := by
  unfold standbyResets
  repeat (first
      | with_reducible assumption | (with_reducible refine stageOwn_keeps (h := ?_) ..)
      | (with_reducible refine keeps_foldl _ _ _ ?_ ?_) | split | dsimp only | (intro _ _ _)
      | ((with_reducible refine keeps_mk ?_ ?_); rfl)
      | ((with_reducible refine keeps_pow ?_ ?_ ?_ ?_); rfl; (first | exact id | exact safeHeld_rst _ _ | exact safeHeld_hive _ | exact safeHeld_hw _ _ | exact safeHeld_bel _ | exact fun _ h => nomatch h); rfl))

theorem portsOff_keeps {s0 : State} (s : State) (h : Keeps s0 s) :
    Keeps s0 (portsOff s) := by
  exact keeps_mk rfl h

theorem standbyDone_keeps {s0 : State} (s : State) (h : Keeps s0 s) :
    Keeps s0 (standbyDone s) := by
  unfold standbyDone
  repeat (first
      | with_reducible assumption | (with_reducible refine standbyResets_keeps (h := ?_) ..)
      | (with_reducible refine standbyAnswer_keeps (h := ?_) ..)
      | (with_reducible refine portsOff_keeps (h := ?_) ..) | (with_reducible refine chainHold_keeps (h := ?_) ..)
      | (with_reducible refine bellowsHold_keeps (h := ?_) ..) | (with_reducible refine hiveHold_keeps (h := ?_) ..)
      | split | dsimp only)

theorem toHearthNow_keeps {s0 : State} (s : State) (h : Keeps s0 s) :
    Keeps s0 (toHearthNow s) := by
  unfold toHearthNow
  repeat (first
      | with_reducible assumption | (with_reducible refine keeps_foldl _ _ _ ?_ ?_) | split | dsimp only
      | (intro _ _ _) | ((with_reducible refine keeps_mk ?_ ?_); rfl)
      | ((with_reducible refine keeps_pow ?_ ?_ ?_ ?_); rfl; (first | exact id | exact safeHeld_rst _ _ | exact safeHeld_hive _ | exact safeHeld_hw _ _ | exact safeHeld_bel _ | exact fun _ h => nomatch h); rfl))

theorem systemReset_keeps {s0 : State} (x1 : State) (h : Keeps s0 x1) : Keeps s0 (systemReset x1) :=
  ⟨h.queue, h.life, h.revoked, fun _ => rfl, fun _ => rfl, h.flash, h.log, fun _ => vers_reset, fun _ => Nat.zero_le _, fun _ => Nat.zero_le _, h.keys, (fun _ hs => nomatch hs), fun hs p hp => h.parts hs p (List.mem_filter.1 hp).1⟩

theorem powerLost_keeps {s0 : State} (x1 : State) (h : Keeps s0 x1) : Keeps s0 (powerLost x1) :=
  ⟨h.queue, h.life, h.revoked, fun _ => rfl, fun _ => rfl, h.flash, fun _ => Nat.zero_le _, fun _ => vers_reset, fun _ => Nat.zero_le _, fun _ => Nat.zero_le _, h.keys, (fun _ hs => nomatch hs), (fun _ _ hp => nomatch hp)⟩

theorem writeCut_keeps {s0 : State} (s : State) (h : Keeps s0 s) :
    Keeps s0 (writeCut s) := by
  unfold writeCut
  repeat (first
      | with_reducible assumption | (with_reducible refine flashCut_keeps (h := ?_) ..) | split | dsimp only
      | ((with_reducible refine keeps_mk ?_ ?_); rfl))

theorem giveBack_mem (f : Flash) (q : P0Req) : (giveBack f q).mem = f.mem := by
  unfold giveBack
  split
  · split <;> rfl
  · rfl

theorem giveBacks_mem (qs : List P0Req) (f : Flash) : (qs.foldl giveBack f).mem = f.mem := by
  induction qs generalizing f with
  | nil => rfl
  | cons q qs ih => exact (ih _).trans (giveBack_mem f q)

theorem psp0Reset_keeps {s0 : State} (s : State) (h : Keeps s0 s) : Keeps s0 (psp0Reset s) :=
  modP0_keeps _ _ (fun hm => (giveBacks_mem _ _).symm ▸ hm) (writeCut_keeps s h)

theorem chainCut_keeps {s0 : State} (x1 : Fin 2) (s : State) (h : Keeps s0 s) :
    Keeps s0 (chainCut x1 s) := by
  unfold chainCut
  repeat (first
      | with_reducible assumption | (with_reducible refine unstage_keeps (h := ?_) ..)
      | (with_reducible refine modHw_keeps (h := ?_) ..) | split | dsimp only | ((with_reducible refine keeps_mk ?_ ?_); rfl))

theorem ianikCuts_keeps {s0 : State} (s : State) (h : Keeps s0 s) :
    Keeps s0 (ianikCuts s) := by
  unfold ianikCuts
  repeat (first
      | with_reducible assumption | (with_reducible refine shakesIdle_keeps (h := ?_) ..) | (with_reducible refine entryLost_keeps (h := ?_) ..)
      | (with_reducible refine chainCut_keeps (h := ?_) ..) | (with_reducible refine psp0Reset_keeps (h := ?_) ..)
      | (with_reducible refine dropEvts_keeps (h := ?_) ..) | (with_reducible refine keeps_foldl _ _ _ ?_ ?_)
      | split | dsimp only | (intro _ _ _) | ((with_reducible refine keeps_mk ?_ ?_); rfl))

theorem ianikClear_keeps {s0 : State} (x1 : State) (h : Keeps s0 x1) : Keeps s0 (ianikClear x1) :=
  ⟨h.queue, h.life, h.revoked, h.ram, h.store, h.flash, h.log, fun hv => map_get VersionOk _ _ (fun b hb => by
    split
    · exact ⟨hb.1, fun g hg => nomatch hg⟩
    · exact hb) (h.vers hv), h.tail, h.head, h.keys, h.safe, h.parts⟩

theorem ianikReset_keeps {s0 : State} (cause : BitVec 4) (s : State) (h : Keeps s0 s) :
    Keeps s0 (ianikReset cause s) := by
  unfold ianikReset
  repeat (first
      | with_reducible assumption | (with_reducible refine ianikClear_keeps (h := ?_) ..)
      | (with_reducible refine ianikCuts_keeps (h := ?_) ..) | (with_reducible refine keeps_foldl _ _ _ ?_ ?_)
      | split | dsimp only | (intro _ _ _) | ((with_reducible refine keeps_mk ?_ ?_); rfl)
      | ((with_reducible refine keeps_pow ?_ ?_ ?_ ?_); rfl; (first | exact id | exact safeHeld_rst _ _ | exact safeHeld_hive _ | exact safeHeld_hw _ _ | exact safeHeld_bel _ | exact fun _ h => nomatch h); rfl))

theorem confirmDone_keeps {s0 : State} (j : ImgJob) (s : State) (h : Keeps s0 s) :
    Keeps s0 (confirmDone j s) := by
  unfold confirmDone
  repeat (first
      | with_reducible assumption | (with_reducible refine flashProg_keeps (h := ?_) ..)
      | ((with_reducible refine modP0_keeps _ _ ?_ ?_); (first | exact id | exact progFlash_wf _ _ _ | exact eraseFlash_wf _ _ _ | exact progFlashs_wf _ _ _))
      | (with_reducible refine complete_keeps (h := ?_) ..) | (with_reducible refine keeps_foldl _ _ _ ?_ ?_)
      | split | dsimp only | ((with_reducible refine keeps_mk ?_ ?_); rfl) | (intro _ _ _))

theorem ianikBack_keeps {s0 : State} (x1 : State) (hst : x1.pow.st ≠ .hearthSafe) (h : Keeps s0 x1) : Keeps s0 (ianikBack x1) := by
  have hp : Keeps s0 { x1 with pow := { x1.pow with ianikRst := false } } :=
    keeps_pow rfl (fun _ hs => absurd hs hst) rfl h
  unfold ianikBack
  exact keeps_foldl _ _ _ (fun s d hs => complete_keeps _ _ _ _ _ _ hs) (keeps_foldl _ _ _ (fun s j hs => confirmDone_keeps _ _ hs)
    (modBoot_keeps _ _ rfl rfl (regionRecover_keeps _ hp)))

theorem safeAnswer_keeps {s0 : State} (m : Fin 4) (s : State) (h : Keeps s0 s) :
    Keeps s0 (safeAnswer m s) := by
  have hm (f : Mbx → Mbx) (hf : ∀ b, (f b).ver = b.ver ∧ (f b).grant = b.grant) : Keeps s0 (modMbx m f s) :=
    modMbx_keeps _ _ _ hf h
  unfold safeAnswer
  dsimp only
  split
  · exact h
  · split
    · exact post_keeps _ _ (hm _ (fun _ => ⟨rfl, rfl⟩))
    · exact post_keeps _ _ (mbxFails_keeps _ _ _ h)

theorem safeRegs_keeps {s0 : State} (x1 : State) (h : Keeps s0 x1) : Keeps s0 (safeRegs x1) :=
  keeps_pow rfl (fun _ _ => ⟨rfl, rfl, rfl, rfl⟩) rfl h

theorem enterSafe_keeps {s0 : State} (cause : Nat) (s : State) (h : Keeps s0 s) :
    Keeps s0 (enterSafe cause s) := by
  unfold enterSafe
  repeat (first
      | with_reducible assumption | (with_reducible refine chainHold_keeps (h := ?_) ..)
      | (with_reducible refine bellowsHold_keeps (h := ?_) ..) | (with_reducible refine hiveHold_keeps (h := ?_) ..)
      | (with_reducible refine ianikReset_keeps (h := ?_) ..) | (with_reducible refine raise_keeps (h := ?_) ..)
      | (with_reducible refine portsReset_keeps (h := ?_) ..) | (with_reducible refine safeRegs_keeps (h := ?_) ..)
      | (with_reducible refine safeAnswer_keeps (h := ?_) ..) | (with_reducible refine keeps_foldl _ _ _ ?_ ?_)
      | split | dsimp only | (intro _ _ _))

end Sys2Proof.Machine
end

