-- ==== Sys2Proof/Laws/KeepFlash.lean ====
section
/-! SUPPORT. What every operation of Machine/Flash.lean keeps. -/

namespace Sys2Proof.Machine

theorem flashErase_keeps {s0 : State} (a : Nat) (s : State) (h : Keeps s0 s) :
    Keeps s0 (flashErase a s) := by
  unfold flashErase
  repeat (first
      | with_reducible assumption
      | ((with_reducible refine modP0_keeps _ _ ?_ ?_); (first | exact id | exact progFlash_wf _ _ _ | exact eraseFlash_wf _ _ _ | exact progFlashs_wf _ _ _))
      | split | dsimp only | ((with_reducible refine keeps_mk ?_ ?_); rfl))

theorem modRing_keeps {s0 : State} (r : Fin 16) (f : Ring → Ring) (s : State) (h : Keeps s0 s) :
    Keeps s0 (modRing r f s) := by
  unfold modRing
  repeat (first
      | with_reducible assumption
      | ((with_reducible refine modP0_keeps _ _ ?_ ?_); (first | exact id | exact progFlash_wf _ _ _ | exact eraseFlash_wf _ _ _ | exact progFlashs_wf _ _ _))
      | split | dsimp only)

theorem modHead_keeps {s0 : State} (r : Fin 16) (f : Desc → Desc) (s : State) (h : Keeps s0 s) :
    Keeps s0 (modHead r f s) := by
  unfold modHead
  repeat (first
      | with_reducible assumption | (with_reducible refine modRing_keeps (h := ?_) ..) | split | dsimp only)

theorem descWrite_keeps {s0 : State} (x1 : Ring) (d : Desc) (w : Nat) (x4 : List Word) (x5 : State) (h : Keeps s0 x5) :
    Keeps s0 (descWrite x1 d w x4 x5) := by
  induction x4 generalizing x1 d w x5 with
    | nil => (unfold descWrite; repeat (first
      | with_reducible assumption | (with_reducible refine wrStoreX_keeps (h := ?_) ..)
      | (with_reducible refine keeps_foldl _ _ _ ?_ ?_) | split | dsimp only | (intro _ _ _)
      | ((with_reducible refine keeps_mk ?_ ?_); rfl)))
    | cons y ys ih => (unfold descWrite; repeat (first
      | with_reducible assumption | (with_reducible refine ih (h := ?_) ..)
      | (with_reducible refine wrStoreX_keeps (h := ?_) ..) | (with_reducible refine keeps_foldl _ _ _ ?_ ?_)
      | split | dsimp only | (intro _ _ _) | ((with_reducible refine keeps_mk ?_ ?_); rfl)))

theorem descRead_keeps {s0 : State} (r : Fin 16) (d : Desc) (zero : Bool) (w : Nat) (x5 : Nat) (x6 : State) (h : Keeps s0 x6) :
    Keeps s0 (descRead r d zero w x5 x6).2 := by
  induction x5 generalizing r d zero w x6 with
    | zero => (unfold descRead; repeat (first
      | with_reducible assumption | (with_reducible refine raise_keeps (h := ?_) ..)
      | (with_reducible refine modRing_keeps (h := ?_) ..) | (with_reducible refine rdStoreX_keeps (h := ?_) ..)
      | (with_reducible refine keeps_foldl _ _ _ ?_ ?_) | split | dsimp only | (intro _ _ _)
      | ((with_reducible refine keeps_mk ?_ ?_); rfl)))
    | succ k ih => (unfold descRead; repeat (first
      | with_reducible assumption | (with_reducible refine ih (h := ?_) ..)
      | (with_reducible refine raise_keeps (h := ?_) ..) | (with_reducible refine modRing_keeps (h := ?_) ..)
      | (with_reducible refine rdStoreX_keeps (h := ?_) ..) | (with_reducible refine keeps_foldl _ _ _ ?_ ?_)
      | split | dsimp only | (intro _ _ _) | ((with_reducible refine keeps_mk ?_ ?_); rfl)))

theorem burstData_keeps {s0 : State} (r : Fin 16) (d : Desc) (n : Nat) (s : State) (h : Keeps s0 s) :
    Keeps s0 (burstData r d n s).2 :=
  modHead_keeps _ _ _ (descRead_keeps _ _ _ _ _ _ h)

theorem ringBurst_keeps {s0 : State} (r : Fin 16) (s : State) (h : Keeps s0 s) :
    Keeps s0 (ringBurst r s).2 := by
  unfold ringBurst
  repeat (first
      | with_reducible assumption | (with_reducible refine burstData_keeps (h := ?_) ..) | (with_reducible refine descRead_keeps (h := ?_) ..)
      | (with_reducible refine modHead_keeps (h := ?_) ..) | split | dsimp only | ((with_reducible refine keeps_mk ?_ ?_); rfl))

theorem p0Begin_keeps {s0 : State} (q : P0Req) (s : State) (h : Keeps s0 s) :
    Keeps s0 (p0Begin q s) := by
  unfold p0Begin
  repeat (first
      | with_reducible assumption | (with_reducible refine modProf_keeps (h := ?_) ..)
      | ((with_reducible refine modP0_keeps _ _ ?_ ?_); (first | exact id | exact progFlash_wf _ _ _ | exact eraseFlash_wf _ _ _ | exact progFlashs_wf _ _ _))
      | split | dsimp only | ((with_reducible refine keeps_mk ?_ ?_); rfl))

theorem p0Take_keeps {s0 : State} (q : P0Req) (s : State) (h : Keeps s0 s) :
    Keeps s0 (p0Take q s) := by
  unfold p0Take
  repeat (first
      | with_reducible assumption | (with_reducible refine p0Begin_keeps (h := ?_) ..)
      | ((with_reducible refine modP0_keeps _ _ ?_ ?_); (first | exact id | exact progFlash_wf _ _ _ | exact eraseFlash_wf _ _ _ | exact progFlashs_wf _ _ _))
      | split | dsimp only)

theorem p0Burst_keeps {s0 : State} (x1 : Fin 16) (x2 : State) (h : Keeps s0 x2) : Keeps s0 (p0Burst x1 x2) := by
  have hr := ringBurst_keeps x1 x2 h
  unfold p0Burst
  split <;> (rename_i hs; rw [hs] at hr)
  · exact p0Begin_keeps _ _ hr
  · exact hr

theorem p0Kick_keeps {s0 : State} (s : State) (h : Keeps s0 s) :
    Keeps s0 (p0Kick s) := by
  unfold p0Kick
  repeat (first
      | with_reducible assumption | (with_reducible refine p0Burst_keeps (h := ?_) ..)
      | (with_reducible refine p0Take_keeps (h := ?_) ..) | split | dsimp only)

theorem p0Ask_keeps {s0 : State} (q : P0Req) (s : State) (h : Keeps s0 s) :
    Keeps s0 (p0Ask q s) := by
  unfold p0Ask
  repeat (first
      | with_reducible assumption | (with_reducible refine p0Kick_keeps (h := ?_) ..)
      | ((with_reducible refine modP0_keeps _ _ ?_ ?_); (first | exact id | exact progFlash_wf _ _ _ | exact eraseFlash_wf _ _ _ | exact progFlashs_wf _ _ _))
      | split | dsimp only)

theorem imgKick_keeps {s0 : State} (s : State) (h : Keeps s0 s) :
    Keeps s0 (imgKick s) := by
  unfold imgKick
  repeat (first
      | with_reducible assumption | (with_reducible refine p0Ask_keeps (h := ?_) ..) | split | dsimp only)

theorem imgEnds_keeps {s0 : State} (status : Nat) (payload : List Word) (s : State) (h : Keeps s0 s) :
    Keeps s0 (imgEnds status payload s) := by
  unfold imgEnds
  repeat (first
      | with_reducible assumption | ((with_reducible refine modBoot_keeps _ _ ?_ ?_ ?_); rfl; rfl)
      | (with_reducible refine jobNext_keeps (h := ?_) ..) | (with_reducible refine imgKick_keeps (h := ?_) ..)
      | (with_reducible refine complete_keeps (h := ?_) ..) | split | dsimp only)

theorem imgMedia_keeps {s0 : State} (s : State) (h : Keeps s0 s) :
    Keeps s0 (imgMedia s) := by
  unfold imgMedia
  repeat (first
      | with_reducible assumption | (with_reducible refine imgEnds_keeps (h := ?_) ..) | split | dsimp only)

theorem imgError_keeps {s0 : State} (s : State) (h : Keeps s0 s) :
    Keeps s0 (imgError s) := by
  unfold imgError
  repeat (first
      | with_reducible assumption | (with_reducible refine imgMedia_keeps (h := ?_) ..)
      | (with_reducible refine imgKick_keeps (h := ?_) ..) | ((with_reducible refine modBoot_keeps _ _ ?_ ?_ ?_); rfl; rfl)
      | split | dsimp only | ((with_reducible refine keeps_mk ?_ ?_); rfl))

theorem imgNext_keeps {s0 : State} (s : State) (h : Keeps s0 s) :
    Keeps s0 (imgNext s) := by
  unfold imgNext
  repeat (first
      | with_reducible assumption | ((with_reducible refine modBoot_keeps _ _ ?_ ?_ ?_); rfl; rfl)
      | (with_reducible refine imgEnds_keeps (h := ?_) ..) | (with_reducible refine imgKick_keeps (h := ?_) ..)
      | split | dsimp only | ((with_reducible refine keeps_mk ?_ ?_); rfl))

theorem imgStep_keeps {s0 : State} (s : State) (h : Keeps s0 s) :
    Keeps s0 (imgStep s) := by
  unfold imgStep
  repeat (first
      | with_reducible assumption | (with_reducible refine imgNext_keeps (h := ?_) ..)
      | (with_reducible refine imgMedia_keeps (h := ?_) ..) | (with_reducible refine imgEnds_keeps (h := ?_) ..)
      | split | dsimp only | ((with_reducible refine keeps_mk ?_ ?_); rfl))

theorem p0Read_keeps {s0 : State} (q : P0Req) (bs : List Byte) (s : State) (h : Keeps s0 s) :
    Keeps s0 (p0Read q bs s) := by
  unfold p0Read
  repeat (first
      | with_reducible assumption | (with_reducible refine descWrite_keeps (h := ?_) ..)
      | (with_reducible refine modHead_keeps (h := ?_) ..)
      | ((with_reducible refine modP0_keeps _ _ ?_ ?_); (first | exact id | exact progFlash_wf _ _ _ | exact eraseFlash_wf _ _ _ | exact progFlashs_wf _ _ _))
      | (with_reducible refine complete_keeps (h := ?_) ..) | (with_reducible refine imgStep_keeps (h := ?_) ..)
      | split | dsimp only | ((with_reducible refine keeps_mk ?_ ?_); rfl))

theorem p0Rest_keeps {s0 : State} (q : P0Req) (s : State) (h : Keeps s0 s) :
    Keeps s0 (p0Rest q s) := by
  unfold p0Rest
  repeat (first
      | with_reducible assumption | ((with_reducible refine modP0_keeps _ _ ?_ ?_); (first | exact id | exact progFlash_wf _ _ _ | exact eraseFlash_wf _ _ _ | exact progFlashs_wf _ _ _)) | split | dsimp only
      | ((with_reducible refine keeps_mk ?_ ?_); rfl))

theorem p0Written_keeps {s0 : State} (q : P0Req) (s : State) (h : Keeps s0 s) :
    Keeps s0 (p0Written q s) := by
  unfold p0Written
  repeat (first
      | with_reducible assumption | (with_reducible refine imgMedia_keeps (h := ?_) ..) | (with_reducible refine p0Rest_keeps (h := ?_) ..) | (with_reducible refine modHead_keeps (h := ?_) ..)
      | ((with_reducible refine modP0_keeps _ _ ?_ ?_); (first | exact id | exact progFlash_wf _ _ _ | exact eraseFlash_wf _ _ _ | exact progFlashs_wf _ _ _))
      | (with_reducible refine complete_keeps (h := ?_) ..) | (with_reducible refine imgStep_keeps (h := ?_) ..)
      | split | dsimp only | ((with_reducible refine keeps_mk ?_ ?_); rfl))

theorem fetchFault_keeps {s0 : State} (line : Nat) (s : State) (h : Keeps s0 s) :
    Keeps s0 (fetchFault line s) := by
  unfold fetchFault
  repeat (first
      | with_reducible assumption
      | ((with_reducible refine modP0_keeps _ _ ?_ ?_); (first | exact id | exact progFlash_wf _ _ _ | exact eraseFlash_wf _ _ _ | exact progFlashs_wf _ _ _))
      | (with_reducible refine enterSafe_keeps (h := ?_) ..) | (with_reducible refine logFault_keeps (h := ?_) ..)
      | split | dsimp only | ((with_reducible refine keeps_mk ?_ ?_); rfl))

theorem mediaError_keeps {s0 : State} (sel : Nat) (s : State) (h : Keeps s0 s) :
    Keeps s0 (mediaError sel s) := by
  unfold mediaError
  repeat (first
      | with_reducible assumption | (with_reducible refine raise_keeps (h := ?_) ..)
      | ((with_reducible refine modP0_keeps _ _ ?_ ?_); (first | exact id | exact progFlash_wf _ _ _ | exact eraseFlash_wf _ _ _ | exact progFlashs_wf _ _ _))
      | split | dsimp only)

theorem nextLine_keeps {s0 : State} (l : Nat) (dem : Bool) (s : State) (h : Keeps s0 s) :
    Keeps s0 (nextLine l dem s) := by
  unfold nextLine
  repeat (first
      | with_reducible assumption | (with_reducible refine p0Ask_keeps (h := ?_) ..) | split | dsimp only)

theorem p0Failed_keeps {s0 : State} (q : P0Req) (s : State) (h : Keeps s0 s) :
    Keeps s0 (p0Failed q s) := by
  unfold p0Failed
  repeat (first
      | with_reducible assumption | (with_reducible refine nextLine_keeps (h := ?_) ..) | (with_reducible refine imgError_keeps (h := ?_) ..) | (with_reducible refine mediaError_keeps (h := ?_) ..)
      | (with_reducible refine modHead_keeps (h := ?_) ..) | (with_reducible refine fetchFault_keeps (h := ?_) ..)
      | (with_reducible refine complete_keeps (h := ?_) ..) | (with_reducible refine imgMedia_keeps (h := ?_) ..)
      | split | dsimp only | ((with_reducible refine keeps_mk ?_ ?_); rfl))

theorem deviceGone_keeps {s0 : State} (sel : Nat) (s : State) (h : Keeps s0 s) :
    Keeps s0 (deviceGone sel s) := by
  unfold deviceGone
  repeat (first
      | with_reducible assumption | (with_reducible refine fetchFault_keeps (h := ?_) ..)
      | (with_reducible refine complete_keeps (h := ?_) ..) | (with_reducible refine imgMedia_keeps (h := ?_) ..)
      | ((with_reducible refine modP0_keeps _ _ ?_ ?_); (first | exact id | exact progFlash_wf _ _ _ | exact eraseFlash_wf _ _ _ | exact progFlashs_wf _ _ _)) | (with_reducible refine raise_keeps (h := ?_) ..)
      | (with_reducible refine keeps_foldl _ _ _ ?_ ?_) | (with_reducible refine keeps_foldl2 _ _ _ ?_ ?_) | split
      | dsimp only | (intro _ _ _) | ((with_reducible refine keeps_mk ?_ ?_); rfl))

theorem p0Program_keeps {s0 : State} (q : P0Req) (s : State) (h : Keeps s0 s) :
    Keeps s0 (p0Program q s) := by
  unfold p0Program
  repeat (first
      | with_reducible assumption | (with_reducible refine flashErase_keeps (h := ?_) ..)
      | (with_reducible refine flashProg_keeps (h := ?_) ..) | split | dsimp only)

theorem p0Wrote_keeps {s0 : State} (q : P0Req) (s : State) (h : Keeps s0 s) :
    Keeps s0 (p0Wrote q s) := by
  unfold p0Wrote
  repeat (first
      | with_reducible assumption | (with_reducible refine p0Program_keeps (h := ?_) ..)
      | (with_reducible refine p0Written_keeps (h := ?_) ..) | (with_reducible refine flashCut_keeps (h := ?_) ..)
      | ((with_reducible refine modP0_keeps _ _ ?_ ?_); (first | exact id | exact progFlash_wf _ _ _ | exact eraseFlash_wf _ _ _ | exact progFlashs_wf _ _ _)) | split | dsimp only
      | ((with_reducible refine keeps_mk ?_ ?_); rfl))

theorem execPsp0TransactionEnd_goes {s0 : State} (data : List Byte) (s : State) (h : Keeps s0 s) :
    Goes s0 (execPsp0TransactionEnd data s) := by
  unfold execPsp0TransactionEnd
  repeat (first
      | with_reducible assumption | (with_reducible refine p0Begin_keeps (h := ?_) ..) | (with_reducible refine p0Wrote_keeps (h := ?_) ..) | (with_reducible refine goes_next ?_)
      | (with_reducible refine p0Kick_keeps (h := ?_) ..)
      | ((with_reducible refine modP0_keeps _ _ ?_ ?_); (first | exact id | exact progFlash_wf _ _ _ | exact eraseFlash_wf _ _ _ | exact progFlashs_wf _ _ _))
      | (with_reducible refine p0Program_keeps (h := ?_) ..) | (with_reducible refine p0Written_keeps (h := ?_) ..)
      | (with_reducible refine p0Read_keeps (h := ?_) ..) | split | dsimp only | ((with_reducible refine keeps_mk ?_ ?_); rfl))

theorem execPsp0RdyTimeout_goes {s0 : State} (s : State) (h : Keeps s0 s) :
    Goes s0 (execPsp0RdyTimeout s) := by
  unfold execPsp0RdyTimeout
  repeat (first
      | with_reducible assumption | (with_reducible refine goes_next ?_)
      | (with_reducible refine p0Kick_keeps (h := ?_) ..) | (with_reducible refine p0Failed_keeps (h := ?_) ..)
      | ((with_reducible refine modP0_keeps _ _ ?_ ?_); (first | exact id | exact progFlash_wf _ _ _ | exact eraseFlash_wf _ _ _ | exact progFlashs_wf _ _ _))
      | split | dsimp only | ((with_reducible refine keeps_mk ?_ ?_); rfl))

theorem execStatusPoll_goes {s0 : State} (status : Byte) (s : State) (h : Keeps s0 s) :
    Goes s0 (execStatusPoll status s) := by
  unfold execStatusPoll
  repeat (first
      | with_reducible assumption | (with_reducible refine goes_next ?_)
      | ((with_reducible refine modP0_keeps _ _ ?_ ?_); (first | exact id | exact progFlash_wf _ _ _ | exact eraseFlash_wf _ _ _ | exact progFlashs_wf _ _ _))
      | (with_reducible refine p0Kick_keeps (h := ?_) ..) | (with_reducible refine p0Written_keeps (h := ?_) ..)
      | (with_reducible refine p0Failed_keeps (h := ?_) ..) | split | dsimp only | ((with_reducible refine keeps_mk ?_ ?_); rfl))

theorem lineWanted_keeps {s0 : State} (l : Nat) (s : State) (h : Keeps s0 s) :
    Keeps s0 (lineWanted l s) := by
  unfold lineWanted
  repeat (first
      | with_reducible assumption
      | ((with_reducible refine modP0_keeps _ _ ?_ ?_); (first | exact id | exact progFlash_wf _ _ _ | exact eraseFlash_wf _ _ _ | exact progFlashs_wf _ _ _))
      | split | dsimp only)

theorem execFetchMiss_goes {s0 : State} (addr : Nat) (s : State) (h : Keeps s0 s) :
    Goes s0 (execFetchMiss addr s) := by
  unfold execFetchMiss
  repeat (first
      | with_reducible assumption | (with_reducible refine fetchFault_keeps (h := ?_) ..) | (with_reducible refine raise_keeps (h := ?_) ..) | (with_reducible refine goes_next ?_)
      | ((with_reducible refine modP0_keeps _ _ ?_ ?_); (first | exact id | exact progFlash_wf _ _ _ | exact eraseFlash_wf _ _ _ | exact progFlashs_wf _ _ _))
      | (with_reducible refine lineWanted_keeps (h := ?_) ..) | (with_reducible refine p0Ask_keeps (h := ?_) ..)
      | split | dsimp only | ((with_reducible refine keeps_mk ?_ ?_); rfl))

theorem tagRead_keeps {s0 : State} (l : Nat) (s : State) (h : Keeps s0 s) :
    Keeps s0 (tagRead l s).2 := by
  simp only [tagRead]
  repeat (first
      | with_reducible assumption | (with_reducible refine checkWord_keeps (h := ?_) ..) | split | dsimp only)

theorem fillGood_keeps {s0 : State} (l : Nat) (dem : Bool) (s : State) (h : Keeps s0 s) :
    Keeps s0 (fillGood l dem s) := by
  unfold fillGood
  repeat (first
      | with_reducible assumption | (with_reducible refine nextLine_keeps (h := ?_) ..)
      | ((with_reducible refine modP0_keeps _ _ ?_ ?_); (first | exact id | exact progFlash_wf _ _ _ | exact eraseFlash_wf _ _ _ | exact progFlashs_wf _ _ _))
      | (with_reducible refine p0Ask_keeps (h := ?_) ..) | split | dsimp only | ((with_reducible refine keeps_mk ?_ ?_); rfl))

theorem fillBad_keeps {s0 : State} (l : Nat) (dem : Bool) (s : State) (h : Keeps s0 s) :
    Keeps s0 (fillBad l dem s) := by
  unfold fillBad
  repeat (first
      | with_reducible assumption | (with_reducible refine nextLine_keeps (h := ?_) ..) | (with_reducible refine raise_keeps (h := ?_) ..)
      | ((with_reducible refine modP0_keeps _ _ ?_ ?_); (first | exact id | exact progFlash_wf _ _ _ | exact eraseFlash_wf _ _ _ | exact progFlashs_wf _ _ _))
      | (with_reducible refine fetchFault_keeps (h := ?_) ..) | split | dsimp only | ((with_reducible refine keeps_mk ?_ ?_); rfl))

theorem execLineFillComplete_goes {s0 : State} (media : Bool) (s : State) (h : Keeps s0 s) :
    Goes s0 (execLineFillComplete media s) := by
  unfold execLineFillComplete
  repeat (first
      | with_reducible assumption | (with_reducible refine tagRead_keeps (h := ?_) ..) | (with_reducible refine goes_next ?_)
      | (with_reducible refine p0Kick_keeps (h := ?_) ..) | (with_reducible refine p0Failed_keeps (h := ?_) ..)
      | ((with_reducible refine modP0_keeps _ _ ?_ ?_); (first | exact id | exact progFlash_wf _ _ _ | exact eraseFlash_wf _ _ _ | exact progFlashs_wf _ _ _))
      | (with_reducible refine fillGood_keeps (h := ?_) ..) | (with_reducible refine fillBad_keeps (h := ?_) ..)
      | split | dsimp only | ((with_reducible refine keeps_mk ?_ ?_); rfl))

theorem execDescriptorStart_goes {s0 : State} (ring : Fin 16) (s : State) (h : Keeps s0 s) :
    Goes s0 (execDescriptorStart ring s) := by
  unfold execDescriptorStart
  repeat (first
      | with_reducible assumption | (with_reducible refine goes_next ?_)
      | (with_reducible refine p0Kick_keeps (h := ?_) ..) | (with_reducible refine modHead_keeps (h := ?_) ..)
      | split | dsimp only)

theorem descDone_keeps {s0 : State} (r : Fin 16) (d : Desc) (s : State) (h : Keeps s0 s) :
    Keeps s0 (descDone r d s) := by
  unfold descDone
  repeat (first
      | with_reducible assumption | (with_reducible refine descWrite_keeps (h := ?_) ..)
      | (with_reducible refine modRing_keeps (h := ?_) ..) | (with_reducible refine raiseIf_keeps (h := ?_) ..)
      | split | dsimp only)

theorem execDescriptorComplete_goes {s0 : State} (ring : Fin 16) (s : State) (h : Keeps s0 s) :
    Goes s0 (execDescriptorComplete ring s) := by
  unfold execDescriptorComplete
  repeat (first
      | with_reducible assumption | (with_reducible refine goes_next ?_)
      | (with_reducible refine descDone_keeps (h := ?_) ..) | split | dsimp only)

theorem execDeadlineMiss_goes {s0 : State} (ring : Fin 16) (s : State) (h : Keeps s0 s) :
    Goes s0 (execDeadlineMiss ring s) := by
  unfold execDeadlineMiss
  repeat (first
      | with_reducible assumption | (with_reducible refine keeps_foldl _ _ _ ?_ ?_) | (with_reducible refine goes_next ?_)
      | (with_reducible refine raise_keeps (h := ?_) ..) | (with_reducible refine modRing_keeps (h := ?_) ..)
      | split | dsimp only | (intro _ _ _) | ((with_reducible refine keeps_mk ?_ ?_); rfl))

theorem ringStartNow_keeps {s0 : State} (r : Fin 16) (e : Nat) (s : State) (h : Keeps s0 s) :
    Keeps s0 (ringStartNow r e s) := by
  unfold ringStartNow
  repeat (first
      | with_reducible assumption | (with_reducible refine modRing_keeps (h := ?_) ..) | split | dsimp only)

theorem ringStopNow_keeps {s0 : State} (r : Fin 16) (s : State) (h : Keeps s0 s) :
    Keeps s0 (ringStopNow r s) := by
  unfold ringStopNow
  repeat (first
      | with_reducible assumption | (with_reducible refine modRing_keeps (h := ?_) ..) | split | dsimp only
      | ((with_reducible refine keeps_mk ?_ ?_); rfl))

theorem playDecide_keeps {s0 : State} (n : Nat) (r : Fin 16) (s : State) (h : Keeps s0 s) :
    Keeps s0 (playDecide n r s) := by
  unfold playDecide
  repeat (first
      | with_reducible assumption | (with_reducible refine modRing_keeps (h := ?_) ..)
      | (with_reducible refine rdStoresX_keeps (h := ?_) ..) | (with_reducible refine raise_keeps (h := ?_) ..)
      | split | dsimp only | ((with_reducible refine keeps_mk ?_ ?_); rfl))

theorem captureWrite_keeps {s0 : State} (n : Nat) (r : Fin 16) (s : State) (h : Keeps s0 s) :
    Keeps s0 (captureWrite n r s) := by
  unfold captureWrite
  repeat (first
      | with_reducible assumption | (with_reducible refine wrStoresX_keeps (h := ?_) ..)
      | (with_reducible refine modRing_keeps (h := ?_) ..) | split | dsimp only)

theorem streamsTick_keeps {s0 : State} (n : Nat) (s : State) (h : Keeps s0 s) :
    Keeps s0 (streamsTick n s) := by
  unfold streamsTick
  repeat (first
      | with_reducible assumption | (with_reducible refine captureWrite_keeps (h := ?_) ..)
      | (with_reducible refine playDecide_keeps (h := ?_) ..) | (with_reducible refine keeps_foldl _ _ _ ?_ ?_)
      | split | dsimp only | (intro _ _ _) | ((with_reducible refine keeps_mk ?_ ?_); rfl))

theorem pspInfoDef_keeps : CmdKeeps pspInfoDef := by
  exact ⟨fun _ _ _ _ h => h, fun _ _ _ h => h⟩

theorem pspDevConfigDef_keeps : CmdKeeps pspDevConfigDef := by
  (refine ⟨fun m r s hn h => ?_, fun st r s h => ?_⟩ <;> unfold pspDevConfigDef <;> dsimp only <;> (repeat (first
      | with_reducible assumption | (with_reducible refine deviceGone_keeps (h := ?_) ..) | (with_reducible refine modProf_keeps (h := ?_) ..) | split | dsimp only)))

theorem pspXferDef_keeps : CmdKeeps pspXferDef := by
  (refine ⟨fun m r s hn h => ?_, fun st r s h => ?_⟩ <;> unfold pspXferDef <;> dsimp only <;> (repeat (first
      | with_reducible assumption | (with_reducible refine defer_keeps (h := ?_) ..)
      | (with_reducible refine complete_keeps (h := ?_) ..) | (with_reducible refine p0Ask_keeps (h := ?_) ..)
      | split | dsimp only)))

theorem fgrRingConfigDef_keeps : CmdKeeps fgrRingConfigDef := by
  (refine ⟨fun m r s hn h => ?_, fun st r s h => ?_⟩ <;> unfold fgrRingConfigDef <;> dsimp only <;> (repeat (first
      | with_reducible assumption | (with_reducible refine modRing_keeps (h := ?_) ..)
      | ((with_reducible refine modP0_keeps _ _ ?_ ?_); (first | exact id | exact progFlash_wf _ _ _ | exact eraseFlash_wf _ _ _ | exact progFlashs_wf _ _ _))
      | split | dsimp only)))

theorem fgrDescPushDef_keeps : CmdKeeps fgrDescPushDef := by
  (refine ⟨fun m r s hn h => ?_, fun st r s h => ?_⟩ <;> unfold fgrDescPushDef <;> dsimp only <;> (repeat (first
      | with_reducible assumption | (with_reducible refine modRing_keeps (h := ?_) ..) | split | dsimp only)))

theorem fgrRingEnableDef_keeps : CmdKeeps fgrRingEnableDef := by
  (refine ⟨fun m r s hn h => ?_, fun st r s h => ?_⟩ <;> unfold fgrRingEnableDef <;> dsimp only <;> (repeat (first
      | with_reducible assumption | (with_reducible refine armRing_keeps (h := ?_) ..)
      | (with_reducible refine stage_keeps (h := ?_) ..) | split | dsimp only)))

theorem fgrStatusDef_keeps : CmdKeeps fgrStatusDef := by
  exact ⟨fun _ _ _ _ h => h, fun _ _ _ h => h⟩

theorem fgrClearDef_keeps : CmdKeeps fgrClearDef := by
  (refine ⟨fun m r s hn h => ?_, fun st r s h => ?_⟩ <;> unfold fgrClearDef <;> dsimp only <;> (repeat (first
      | with_reducible assumption
      | ((with_reducible refine modP0_keeps _ _ ?_ ?_); (first | exact id | exact progFlash_wf _ _ _ | exact eraseFlash_wf _ _ _ | exact progFlashs_wf _ _ _))
      | split | dsimp only)))

theorem pspStatusDef_keeps : CmdKeeps pspStatusDef := by
  exact ⟨fun _ _ _ _ h => h, fun _ _ _ h => h⟩

theorem execPspInfo_goes {s0 : State} (m : Fin 4) (r : Req) (s : State) (h : Keeps s0 s) :
    Goes s0 (execPspInfo m r s) := by
  exact goes_next (mbxCommand_keeps _ pspInfoDef_keeps _ _ _ h)

theorem execPspDevConfig_goes {s0 : State} (m : Fin 4) (r : Req) (s : State) (h : Keeps s0 s) :
    Goes s0 (execPspDevConfig m r s) := by
  exact goes_next (mbxCommand_keeps _ pspDevConfigDef_keeps _ _ _ h)

theorem execPspXfer_goes {s0 : State} (m : Fin 4) (r : Req) (s : State) (h : Keeps s0 s) :
    Goes s0 (execPspXfer m r s) := by
  exact goes_next (mbxCommand_keeps _ pspXferDef_keeps _ _ _ h)

theorem execFgrRingConfig_goes {s0 : State} (m : Fin 4) (r : Req) (s : State) (h : Keeps s0 s) :
    Goes s0 (execFgrRingConfig m r s) := by
  exact goes_next (mbxCommand_keeps _ fgrRingConfigDef_keeps _ _ _ h)

theorem execFgrDescPush_goes {s0 : State} (m : Fin 4) (r : Req) (s : State) (h : Keeps s0 s) :
    Goes s0 (execFgrDescPush m r s) := by
  exact goes_next (mbxCommand_keeps _ fgrDescPushDef_keeps _ _ _ h)

theorem execFgrRingEnable_goes {s0 : State} (m : Fin 4) (r : Req) (s : State) (h : Keeps s0 s) :
    Goes s0 (execFgrRingEnable m r s) := by
  exact goes_next (mbxCommand_keeps _ fgrRingEnableDef_keeps _ _ _ h)

theorem execFgrStatus_goes {s0 : State} (m : Fin 4) (r : Req) (s : State) (h : Keeps s0 s) :
    Goes s0 (execFgrStatus m r s) := by
  exact goes_next (mbxCommand_keeps _ fgrStatusDef_keeps _ _ _ h)

theorem execFgrClear_goes {s0 : State} (m : Fin 4) (r : Req) (s : State) (h : Keeps s0 s) :
    Goes s0 (execFgrClear m r s) := by
  exact goes_next (mbxCommand_keeps _ fgrClearDef_keeps _ _ _ h)

theorem execPspStatus_goes {s0 : State} (m : Fin 4) (r : Req) (s : State) (h : Keeps s0 s) :
    Goes s0 (execPspStatus m r s) := by
  exact goes_next (mbxCommand_keeps _ pspStatusDef_keeps _ _ _ h)

end Sys2Proof.Machine
end

