-- ==== Sys2Proof/Laws/KeepBoot.lean ====
section
/-! SUPPORT. What every operation of Machine/Boot.lean keeps. -/

namespace Sys2Proof.Machine

theorem powerUpFails_keeps {s0 : State} (code : Nat) (s : State) (h : Keeps s0 s) :
    Keeps s0 (powerUpFails code s) := by
  unfold powerUpFails
  repeat (first
      | with_reducible assumption | ((with_reducible refine modBoot_keeps _ _ ?_ ?_ ?_); rfl; rfl)
      | (with_reducible refine enterSafe_keeps (h := ?_) ..) | (with_reducible refine raise_keeps (h := ?_) ..)
      | (with_reducible refine logFault_keeps (h := ?_) ..) | split | dsimp only
      | ((with_reducible refine keeps_mk ?_ ?_); rfl))

theorem banksIn_keeps {s0 : State} (m : Manifest) (t : Nat) (s : State) (h : Keeps s0 s) :
    Keeps s0 (banksIn m t s) := by
  unfold banksIn
  repeat (first
      | with_reducible assumption | (with_reducible refine applyBanks_keeps (h := ?_) ..)
      | ((with_reducible refine modBoot_keeps _ _ ?_ ?_ ?_); rfl; rfl) | split | dsimp only
      | ((with_reducible refine keeps_mk ?_ ?_); rfl))

theorem banksPass_keeps {s0 : State} (s : State) (h : Keeps s0 s) :
    Keeps s0 (banksPass s) := by
  unfold banksPass
  repeat (first
      | with_reducible assumption | (with_reducible refine applyBanks_keeps (h := ?_) ..)
      | ((with_reducible refine modBoot_keeps _ _ ?_ ?_ ?_); rfl; rfl) | (with_reducible refine keeps_foldl _ _ _ ?_ ?_)
      | (with_reducible refine keeps_foldl2 _ _ _ ?_ ?_) | split | dsimp only | (intro _ _ _)
      | ((with_reducible refine keeps_mk ?_ ?_); rfl))

theorem stepDone_keeps {s0 : State} (x1 : Nat) (x2 : StepResult) (s : State) (h : Keeps s0 s) :
    Keeps s0 (stepDone x1 x2 s) := by
  unfold stepDone
  repeat (first
      | with_reducible assumption | (with_reducible refine banksPass_keeps (h := ?_) ..) | ((with_reducible refine modBoot_keeps _ _ ?_ ?_ ?_); rfl; rfl)
      | (with_reducible refine measure_keeps (h := ?_) ..) | (with_reducible refine lockReport_keeps (h := ?_) ..)
      | (with_reducible refine modStove_keeps (h := ?_) ..) | (with_reducible refine raise_keeps (h := ?_) ..)
      | split | dsimp only | ((with_reducible refine keeps_mk ?_ ?_); rfl))

theorem execPowerUpStep_goes {s0 : State} (res : StepResult) (s : State) (h : Keeps s0 s) :
    Goes s0 (execPowerUpStep res s) := by
  unfold execPowerUpStep
  repeat (first
      | with_reducible assumption | (with_reducible refine goes_next ?_)
      | (with_reducible refine stepDone_keeps (h := ?_) ..)
      | ((with_reducible refine modBoot_keeps _ _ ?_ ?_ ?_); rfl; rfl)
      | (with_reducible refine powerUpFails_keeps (h := ?_) ..) | split | dsimp only)

theorem execPowerUpBudgetExpiry_goes {s0 : State} (s : State) (h : Keeps s0 s) :
    Goes s0 (execPowerUpBudgetExpiry s) := by
  unfold execPowerUpBudgetExpiry
  repeat (first
      | with_reducible assumption | (with_reducible refine goes_next ?_)
      | (with_reducible refine powerUpFails_keeps (h := ?_) ..) | split | dsimp only)

theorem bootNote_keeps {s0 : State} (reason : Nat) (blk : Nat) (s : State) (h : Keeps s0 s) :
    Keeps s0 (bootNote reason blk s) := by
  unfold bootNote
  repeat (first
      | with_reducible assumption | (with_reducible refine raise_keeps (h := ?_) ..)
      | ((with_reducible refine modBoot_keeps _ _ ?_ ?_ ?_); rfl; rfl) | split | dsimp only)

theorem bootFresh_keeps {s0 : State} (s : State) (h : Keeps s0 s) :
    Keeps s0 (bootFresh s) := by
  unfold bootFresh
  repeat (first
      | with_reducible assumption | ((with_reducible refine modBoot_keeps _ _ ?_ ?_ ?_); rfl; rfl) | split
      | dsimp only | ((with_reducible refine keeps_mk ?_ ?_); rfl))

theorem sourceOver_keeps {s0 : State} (s : State) (h : Keeps s0 s) :
    Keeps s0 (sourceOver s) := by
  unfold sourceOver
  repeat (first
      | with_reducible assumption | ((with_reducible refine modBoot_keeps _ _ ?_ ?_ ?_); rfl; rfl)
      | (with_reducible refine bootFresh_keeps (h := ?_) ..) | split | dsimp only)

theorem nextSlot_keeps {s0 : State} (s : State) (h : Keeps s0 s) :
    Keeps s0 (nextSlot s) := by
  unfold nextSlot
  repeat (first
      | with_reducible assumption | (with_reducible refine progState_keeps (h := ?_) ..)
      | ((with_reducible refine modBoot_keeps _ _ ?_ ?_ ?_); rfl; rfl)
      | (with_reducible refine bootFresh_keeps (h := ?_) ..) | (with_reducible refine sourceOver_keeps (h := ?_) ..)
      | (with_reducible refine bootNote_keeps (h := ?_) ..) | split | dsimp only)

theorem slotFails_keeps {s0 : State} (reason : Nat) (blk : Nat) (s : State) (h : Keeps s0 s) :
    Keeps s0 (slotFails reason blk s) := by
  unfold slotFails
  repeat (first
      | with_reducible assumption | (with_reducible refine bootNote_keeps (h := ?_) ..)
      | (with_reducible refine nextSlot_keeps (h := ?_) ..) | (with_reducible refine retireSlot_keeps (h := ?_) ..)
      | split | dsimp only)

theorem sourceFails_keeps {s0 : State} (reason : Nat) (blk : Nat) (s : State) (h : Keeps s0 s) :
    Keeps s0 (sourceFails reason blk s) := by
  unfold sourceFails
  repeat (first
      | with_reducible assumption | (with_reducible refine slotFails_keeps (h := ?_) ..)
      | (with_reducible refine sourceOver_keeps (h := ?_) ..) | (with_reducible refine bootNote_keeps (h := ?_) ..)
      | ((with_reducible refine modBoot_keeps _ _ ?_ ?_ ?_); rfl; rfl)
      | (with_reducible refine bootFresh_keeps (h := ?_) ..) | split | dsimp only)

theorem dirProfile_keeps {s0 : State} (s : State) (h : Keeps s0 s) :
    Keeps s0 (dirProfile s) := by
  unfold dirProfile
  repeat (first
      | with_reducible assumption | (with_reducible refine modProf_keeps (h := ?_) ..) | split | dsimp only)

theorem slotTrials_keeps {s0 : State} (s : State) (h : Keeps s0 s) :
    Keeps s0 (slotTrials s) := by
  unfold slotTrials
  repeat (first
      | with_reducible assumption | (with_reducible refine bootNote_keeps (h := ?_) ..)
      | (with_reducible refine retireSlot_keeps (h := ?_) ..) | (with_reducible refine keeps_foldl _ _ _ ?_ ?_)
      | split | dsimp only | (intro _ _ _))

theorem trySlots_keeps {s0 : State} (s : State) (h : Keeps s0 s) :
    Keeps s0 (trySlots s) := by
  unfold trySlots
  repeat (first
      | with_reducible assumption | (with_reducible refine sourceOver_keeps (h := ?_) ..)
      | (with_reducible refine bootNote_keeps (h := ?_) ..) | (with_reducible refine nextSlot_keeps (h := ?_) ..)
      | ((with_reducible refine modBoot_keeps _ _ ?_ ?_ ?_); rfl; rfl) | split | dsimp only)

theorem startSlots_keeps {s0 : State} (s : State) (h : Keeps s0 s) :
    Keeps s0 (startSlots s) := by
  unfold startSlots
  repeat (first
      | with_reducible assumption | ((with_reducible refine modBoot_keeps _ _ ?_ ?_ ?_); rfl; rfl)
      | (with_reducible refine sourceOver_keeps (h := ?_) ..) | (with_reducible refine bootNote_keeps (h := ?_) ..)
      | (with_reducible refine trySlots_keeps (h := ?_) ..) | (with_reducible refine slotTrials_keeps (h := ?_) ..)
      | (with_reducible refine dirProfile_keeps (h := ?_) ..) | (with_reducible refine keeps_foldl _ _ _ ?_ ?_)
      | split | dsimp only | (intro _ _ _) | ((with_reducible refine keeps_mk ?_ ?_); rfl)
      | ((with_reducible refine keeps_pow ?_ ?_ ?_ ?_); rfl; (first | exact id | exact safeHeld_rst _ _ | exact safeHeld_hive _ | exact safeHeld_hw _ _ | exact safeHeld_bel _ | exact fun _ h => nomatch h); rfl))

theorem startWait_keeps {s0 : State} (src : BootSrc) (s : State) (h : Keeps s0 s) :
    Keeps s0 (startWait src s) := by
  unfold startWait
  repeat (first
      | with_reducible assumption | ((with_reducible refine modBoot_keeps _ _ ?_ ?_ ?_); rfl; rfl)
      | (with_reducible refine bootFresh_keeps (h := ?_) ..) | split | dsimp only)

theorem execBootSourceStart_goes {s0 : State} (s : State) (h : Keeps s0 s) :
    Goes s0 (execBootSourceStart s) := by
  unfold execBootSourceStart
  repeat (first
      | with_reducible assumption | (with_reducible refine goes_next ?_)
      | ((with_reducible refine modBoot_keeps _ _ ?_ ?_ ?_); rfl; rfl)
      | (with_reducible refine startSlots_keeps (h := ?_) ..) | (with_reducible refine startWait_keeps (h := ?_) ..)
      | (with_reducible refine keeps_foldl _ _ _ ?_ ?_) | split | dsimp only | (intro _ _ _)
      | ((with_reducible refine keeps_mk ?_ ?_); rfl)
      | ((with_reducible refine keeps_pow ?_ ?_ ?_ ?_); rfl; (first | exact id | exact safeHeld_rst _ _ | exact safeHeld_hive _ | exact safeHeld_hw _ _ | exact safeHeld_bel _ | exact fun _ h => nomatch h); rfl))

theorem applyAll_keeps {s0 : State} (p : Component → Bool) (m : Manifest) (s : State) (h : Keeps s0 s) :
    Keeps s0 (applyAll p m s) := by
  unfold applyAll
  repeat (first
      | with_reducible assumption | (with_reducible refine applyComp_keeps (h := ?_) ..)
      | (with_reducible refine keeps_foldl _ _ _ ?_ ?_) | split | dsimp only | (intro _ _ _))

theorem openSet_keeps {s0 : State} (p : Component → Bool) (m : Manifest) (s : State) (h : Keeps s0 s) :
    Keeps s0 (openSet p m s).2 := by
  unfold openSet
  repeat (first
      | with_reducible assumption | (with_reducible refine openAll_keeps (h := ?_) ..) | split | dsimp only)

theorem autoStamp_keeps {s0 : State} (e : Nat) (s : State) (h : Keeps s0 s) :
    Keeps s0 (autoStamp e s) := by
  unfold autoStamp
  repeat (first
      | with_reducible assumption | ((with_reducible refine modBoot_keeps _ _ ?_ ?_ ?_); rfl; rfl)
      | (with_reducible refine stageOwn_keeps (h := ?_) ..) | split | dsimp only)

theorem earlyOpened_keeps {s0 : State} (m : Manifest) (s : State) (h : Keeps s0 s) :
    Keeps s0 (earlyOpened m s) := by
  unfold earlyOpened
  repeat (first
      | with_reducible assumption | (with_reducible refine autoStamp_keeps (h := ?_) ..)
      | (with_reducible refine applyAll_keeps (h := ?_) ..) | (with_reducible refine banksIn_keeps (h := ?_) ..)
      | ((with_reducible refine modBoot_keeps _ _ ?_ ?_ ?_); rfl; rfl) | split | dsimp only
      | ((with_reducible refine keeps_mk ?_ ?_); rfl))

theorem earlyNow_keeps {s0 : State} (m : Manifest) (s : State) (h : Keeps s0 s) :
    Keeps s0 (earlyNow m s) := by
  unfold earlyNow
  repeat (first
      | with_reducible assumption | (with_reducible refine earlyOpened_keeps (h := ?_) ..) | (with_reducible refine deriveKeys_keeps (h := ?_) ..) | (with_reducible refine openSet_keeps (h := ?_) ..) | (with_reducible refine banksIn_keeps (h := ?_) ..) | (with_reducible refine sourceFails_keeps (h := ?_) ..)
      | (with_reducible refine applyBanks_keeps (h := ?_) ..) | (with_reducible refine applyAll_keeps (h := ?_) ..)
      | ((with_reducible refine modBoot_keeps _ _ ?_ ?_ ?_); rfl; rfl)
      | (with_reducible refine autoStamp_keeps (h := ?_) ..) | split | dsimp only)

theorem bootCommit_keeps {s0 : State} (m : Manifest) (s : State) (h : Keeps s0 s) :
    Keeps s0 (bootCommit m s) := by
  unfold bootCommit
  repeat (first
      | with_reducible assumption | (with_reducible refine tuneCommit_keeps (h := ?_) ..)
      | (with_reducible refine applyBanks_keeps (h := ?_) ..) | ((with_reducible refine modBoot_keeps _ _ ?_ ?_ ?_); rfl; rfl)
      | split | dsimp only | ((with_reducible refine keeps_mk ?_ ?_); rfl))

theorem bootTune_keeps {s0 : State} (m : Manifest) (s : State) (h : Keeps s0 s) :
    Keeps s0 (bootTune m s) := by
  unfold bootTune
  repeat (first
      | with_reducible assumption | (with_reducible refine bootCommit_keeps (h := ?_) ..) | (with_reducible refine banksIn_keeps (h := ?_) ..) | ((with_reducible refine modBoot_keeps _ _ ?_ ?_ ?_); rfl; rfl)
      | (with_reducible refine tuneCommit_keeps (h := ?_) ..)
      | (with_reducible refine applyBanks_keeps (h := ?_) ..) | split | dsimp only | ((with_reducible refine keeps_mk ?_ ?_); rfl))

theorem bootTuneTick_keeps {s0 : State} (s : State) (h : Keeps s0 s) :
    Keeps s0 (bootTuneTick s) := by
  unfold bootTuneTick
  repeat (first
      | with_reducible assumption | (with_reducible refine bootCommit_keeps (h := ?_) ..)
      | ((with_reducible refine modBoot_keeps _ _ ?_ ?_ ?_); rfl; rfl) | split | dsimp only
      | ((with_reducible refine keeps_mk ?_ ?_); rfl))

theorem fullOpened_keeps {s0 : State} (p : Component → Bool) (m : Manifest) (s : State) (h : Keeps s0 s) :
    Keeps s0 (fullOpened p m s) := by
  unfold fullOpened
  repeat (first
      | with_reducible assumption | (with_reducible refine applyAll_keeps (h := ?_) ..)
      | (with_reducible refine bootTune_keeps (h := ?_) ..)
      | ((with_reducible refine modBoot_keeps _ _ ?_ ?_ ?_); rfl; rfl) | split | dsimp only
      | ((with_reducible refine keeps_mk ?_ ?_); rfl))

theorem fullNow_keeps {s0 : State} (m : Manifest) (s : State) (h : Keeps s0 s) :
    Keeps s0 (fullNow m s) := by
  unfold fullNow
  repeat (first
      | with_reducible assumption | (with_reducible refine fullOpened_keeps (h := ?_) ..) | (with_reducible refine openSet_keeps (h := ?_) ..) | (with_reducible refine sourceFails_keeps (h := ?_) ..)
      | (with_reducible refine applyAll_keeps (h := ?_) ..) | (with_reducible refine bootTune_keeps (h := ?_) ..)
      | ((with_reducible refine modBoot_keeps _ _ ?_ ?_ ?_); rfl; rfl) | split | dsimp only)

theorem bootProgress_keeps {s0 : State} (s : State) (h : Keeps s0 s) :
    Keeps s0 (bootProgress s) := by
  unfold bootProgress
  repeat (first
      | with_reducible assumption | (with_reducible refine earlyNow_keeps (h := ?_) ..)
      | (with_reducible refine fullNow_keeps (h := ?_) ..)
      | ((with_reducible refine modBoot_keeps _ _ ?_ ?_ ?_); rfl; rfl) | split | dsimp only)

theorem loadBlock_keeps {s0 : State} (media : Bool) (j : TuneJob) (s : State) (h : Keeps s0 s) :
    Keeps s0 (loadBlock media j s) := by
  unfold loadBlock
  repeat (first
      | with_reducible assumption | (with_reducible refine mediaError_keeps (h := ?_) ..)
      | (with_reducible refine jobBlock_keeps (h := ?_) ..) | split | dsimp only)

theorem execManifestVerified_goes {s0 : State} (media : Bool) (s : State) (h : Keeps s0 s) :
    Goes s0 (execManifestVerified media s) := by
  unfold execManifestVerified
  repeat (first
      | with_reducible assumption | (with_reducible refine mediaError_keeps (h := ?_) ..) | (with_reducible refine goes_next ?_)
      | (with_reducible refine sourceFails_keeps (h := ?_) ..)
      | ((with_reducible refine modBoot_keeps _ _ ?_ ?_ ?_); rfl; rfl)
      | (with_reducible refine bootProgress_keeps (h := ?_) ..) | split | dsimp only | ((with_reducible refine keeps_mk ?_ ?_); rfl))

theorem blockFails_keeps {s0 : State} (reason : Nat) (x2 : Nat) (s : State) (h : Keeps s0 s) :
    Keeps s0 (blockFails reason x2 s) := by
  unfold blockFails
  repeat (first
      | with_reducible assumption | ((with_reducible refine modBoot_keeps _ _ ?_ ?_ ?_); rfl; rfl)
      | (with_reducible refine sourceFails_keeps (h := ?_) ..) | (with_reducible refine bootNote_keeps (h := ?_) ..)
      | split | dsimp only)

theorem execBlockVerified_goes {s0 : State} (media : Bool) (s : State) (h : Keeps s0 s) :
    Goes s0 (execBlockVerified media s) := by
  unfold execBlockVerified
  repeat (first
      | with_reducible assumption | (with_reducible refine mediaError_keeps (h := ?_) ..) | (with_reducible refine loadBlock_keeps (h := ?_) ..) | (with_reducible refine goes_next ?_)
      | (with_reducible refine jobBlock_keeps (h := ?_) ..) | (with_reducible refine blockFails_keeps (h := ?_) ..)
      | (with_reducible refine bootProgress_keeps (h := ?_) ..)
      | ((with_reducible refine modBoot_keeps _ _ ?_ ?_ ?_); rfl; rfl) | split | dsimp only | ((with_reducible refine keeps_mk ?_ ?_); rfl))

theorem execPushWaitTimeout_goes {s0 : State} (s : State) (h : Keeps s0 s) :
    Goes s0 (execPushWaitTimeout s) := by
  unfold execPushWaitTimeout
  repeat (first
      | with_reducible assumption | (with_reducible refine goes_next ?_)
      | (with_reducible refine sourceFails_keeps (h := ?_) ..) | split | dsimp only)

theorem housekeeping_keeps {s0 : State} (s : State) (h : Keeps s0 s) :
    Keeps s0 (housekeeping s) := by
  unfold housekeeping
  repeat (first
      | with_reducible assumption | (with_reducible refine raise_keeps (h := ?_) ..)
      | (with_reducible refine retireSlot_keeps (h := ?_) ..) | split | dsimp only)

theorem execStandbyReached_goes {s0 : State} (s : State) (h : Keeps s0 s) :
    Goes s0 (execStandbyReached s) := by
  unfold execStandbyReached
  repeat (first
      | with_reducible assumption | (with_reducible refine goes_next ?_)
      | ((with_reducible refine modBoot_keeps _ _ ?_ ?_ ?_); rfl; rfl)
      | (with_reducible refine autoStamp_keeps (h := ?_) ..)
      | (with_reducible refine housekeeping_keeps (h := ?_) ..) | (with_reducible refine keeps_foldl _ _ _ ?_ ?_)
      | split | dsimp only | (intro _ _ _) | ((with_reducible refine keeps_mk ?_ ?_); rfl)
      | ((with_reducible refine keeps_pow ?_ ?_ ?_ ?_); rfl; (first | exact id | exact safeHeld_rst _ _ | exact safeHeld_hive _ | exact safeHeld_hw _ _ | exact safeHeld_bel _ | exact fun _ h => nomatch h); rfl))

theorem tuneMeasure_keeps {s0 : State} (tuning : Nat) (s : State) (h : Keeps s0 s) :
    Keeps s0 (tuneMeasure tuning s) := by
  unfold tuneMeasure
  repeat (first
      | with_reducible assumption | (with_reducible refine measure_keeps (h := ?_) ..)
      | (with_reducible refine keeps_foldl _ _ _ ?_ ?_) | split | dsimp only | (intro _ _ _))

theorem tuneEnds_keeps {s0 : State} (j : TuneJob) (e : Nat) (st : Nat) (i : Word) (s : State) (h : Keeps s0 s) :
    Keeps s0 (tuneEnds j e st i s) := by
  unfold tuneEnds
  repeat (first
      | with_reducible assumption | (with_reducible refine complete_keeps (h := ?_) ..)
      | (with_reducible refine jobNext_keeps (h := ?_) ..) | split | dsimp only)

theorem tuneApplied_keeps {s0 : State} (j : TuneJob) (e : Nat) (s : State) (h : Keeps s0 s) :
    Keeps s0 (tuneApplied j e s) := by
  unfold tuneApplied
  repeat (first
      | with_reducible assumption | (with_reducible refine tuneMeasure_keeps (h := ?_) ..)
      | (with_reducible refine tuneEnds_keeps (h := ?_) ..) | (with_reducible refine imgKick_keeps (h := ?_) ..)
      | ((with_reducible refine modBoot_keeps _ _ ?_ ?_ ?_); rfl; rfl) | split | dsimp only | ((with_reducible refine keeps_mk ?_ ?_); rfl))

theorem tuneTick_keeps {s0 : State} (n : Nat) (s : State) (h : Keeps s0 s) :
    Keeps s0 (tuneTick n s) := by
  unfold tuneTick
  repeat (first
      | with_reducible assumption | (with_reducible refine tuneApplied_keeps (h := ?_) ..) | split | dsimp only)

theorem bootInfoDef_keeps : CmdKeeps bootInfoDef := by
  exact ⟨fun _ _ _ _ h => h, fun _ _ _ h => h⟩

theorem imgBegin_keeps {s0 : State} (op : Nat) (m : Nat) (tag : BitVec 16) (ops : List FlashOp) (payload : List Word) (s : State) (h : Keeps s0 s) :
    Keeps s0 (imgBegin op m tag ops payload s) := by
  unfold imgBegin
  repeat (first
      | with_reducible assumption | (with_reducible refine defer_keeps (h := ?_) ..)
      | (with_reducible refine imgKick_keeps (h := ?_) ..)
      | ((with_reducible refine modBoot_keeps _ _ ?_ ?_ ?_); rfl; rfl)
      | (with_reducible refine complete_keeps (h := ?_) ..) | split | dsimp only | ((with_reducible refine keeps_mk ?_ ?_); rfl))

theorem imgUpdateBeginDef_keeps : CmdKeeps imgUpdateBeginDef := by
  (refine ⟨fun m r s hn h => ?_, fun st r s h => ?_⟩ <;> unfold imgUpdateBeginDef <;> dsimp only <;> (repeat (first
      | with_reducible assumption | (with_reducible refine imgBegin_keeps (h := ?_) ..) | split | dsimp only)))

theorem imgUpdateWriteDef_keeps : CmdKeeps imgUpdateWriteDef := by
  (refine ⟨fun m r s hn h => ?_, fun st r s h => ?_⟩ <;> unfold imgUpdateWriteDef <;> dsimp only <;> (repeat (first
      | with_reducible assumption | (with_reducible refine bulkRefused_keeps (h := ?_) ..)
      | (with_reducible refine bulkErrs_keeps (h := ?_) ..)
      | ((with_reducible refine modBoot_keeps _ _ ?_ ?_ ?_); rfl; rfl)
      | (with_reducible refine imgBegin_keeps (h := ?_) ..) | split | dsimp only
      | ((with_reducible refine keeps_mk ?_ ?_); rfl))))

theorem imgUpdateEndDef_keeps : CmdKeeps imgUpdateEndDef := by
  (refine ⟨fun m r s hn h => ?_, fun st r s h => ?_⟩ <;> unfold imgUpdateEndDef <;> dsimp only <;> (repeat (first
      | with_reducible assumption | ((with_reducible refine modBoot_keeps _ _ ?_ ?_ ?_); rfl; rfl)
      | (with_reducible refine imgBegin_keeps (h := ?_) ..) | split | dsimp only)))

theorem imgConfirmDef_keeps : CmdKeeps imgConfirmDef := by
  (refine ⟨fun m r s hn h => ?_, fun st r s h => ?_⟩ <;> unfold imgConfirmDef <;> dsimp only <;> (repeat (first
      | with_reducible assumption | (with_reducible refine imgBegin_keeps (h := ?_) ..) | split | dsimp only)))

theorem jobBegin_keeps {s0 : State} (j : TuneJob) (s : State) (h : Keeps s0 s) :
    Keeps s0 (jobBegin j s) := by
  unfold jobBegin
  repeat (first
      | with_reducible assumption | ((with_reducible refine modBoot_keeps _ _ ?_ ?_ ?_); rfl; rfl)
      | (with_reducible refine jobLoaded_keeps (h := ?_) ..) | split | dsimp only)

theorem tuneLoadDef_keeps : CmdKeeps tuneLoadDef := by
  (refine ⟨fun m r s hn h => ?_, fun st r s h => ?_⟩ <;> unfold tuneLoadDef <;> dsimp only <;> (repeat (first
      | with_reducible assumption | (with_reducible refine jobBegin_keeps (h := ?_) ..)
      | (with_reducible refine defer_keeps (h := ?_) ..) | split | dsimp only)))

theorem imgMeasExtendDef_keeps : CmdKeeps imgMeasExtendDef := by
  (refine ⟨fun m r s hn h => ?_, fun st r s h => ?_⟩ <;> unfold imgMeasExtendDef <;> dsimp only <;> (repeat (first
      | with_reducible assumption | (with_reducible refine measure_keeps (h := ?_) ..) | split | dsimp only)))

theorem lcBlow_keeps {s0 : State} (x1 : Req) (x2 : State) (hl : lcCode s0.pow.lc ≤ lcCode (lcOf (argF x1 3 0 2)))
    (h : Keeps s0 x2) : Keeps s0 (lcBlow x1 x2) :=
  ⟨h.queue, hl, h.revoked, h.ram, h.store, h.flash, h.log, h.vers, h.tail, h.head, fun i k hi => by
    have hk := h.keys i k hi
    show (vmap x2.boot.fuses.keys _)[i] = some k
    simp only [Fin.getElem_fin] at hk
    simp only [vmap, Fin.getElem_fin, Vector.getElem_ofFn, hk], h.safe, h.parts⟩

theorem lcAdvanceDef_keeps : CmdKeeps lcAdvanceDef := by
  refine ⟨fun m r s hn h => ?_, fun st r s h => h⟩
  have hw := (refusal_none hn).2
  have hl : lcCode s.pow.lc ≤ lcCode (lcOf (argF r 3 0 2)) := by
    simp only [lcAdvanceDef, Bool.or_eq_false_iff, bne_eq_false_iff_eq] at hw
    have hlt : argF r 3 0 2 < 4 := Nat.mod_lt _ (by decide)
    rw [hw.2] at hlt ⊢
    cases hs : s.pow.lc <;> first | decide | (rw [hs] at hlt; exact absurd hlt (by decide))
  have hd := defer_keeps 0x0B07 m r.tag none s h
  unfold lcAdvanceDef
  dsimp only
  split
  · exact complete_keeps _ _ _ _ _ _ (lcBlow_keeps _ _ (Nat.le_trans h.life hl) (wipeVault_keeps _ _ hd))
  · exact complete_keeps _ _ _ _ _ _ hd

theorem keyRevokeDef_keeps : CmdKeeps keyRevokeDef := by
  refine ⟨fun {s0} m r s hn h => ?_, fun st r s h => h⟩
  have hd := defer_keeps 0x0B08 m r.tag none s h
  have hm (s : State) (k : Fin 4) (hs : Keeps s0 s) : Keeps s0 (modBoot (fun b => { b with
      fuses := { b.fuses with revoked := b.fuses.revoked.set k true } }) s) := by
    refine ⟨hs.queue, hs.life, fun i hi => ?_, hs.ram, hs.store, hs.flash, hs.log, hs.vers, hs.tail, hs.head, hs.keys, hs.safe, hs.parts⟩
    have hr := hs.revoked i hi
    show (Vector.set s.boot.fuses.revoked k true k.isLt)[i] = true
    simp only [Fin.getElem_fin, Vector.getElem_set] at hr ⊢
    split
    · rfl
    · exact hr
  exact complete_keeps _ _ _ _ _ _ (hm _ _ hd)

theorem bootRecoveryBeginDef_keeps : CmdKeeps bootRecoveryBeginDef := by
  (refine ⟨fun m r s hn h => ?_, fun st r s h => ?_⟩ <;> unfold bootRecoveryBeginDef <;> dsimp only <;> (repeat (first
      | with_reducible assumption | (with_reducible refine askSystemReset_keeps (h := ?_) ..)
      | (with_reducible refine keeps_foldl _ _ _ ?_ ?_) | split | dsimp only | (intro _ _ _)
      | ((with_reducible refine keeps_mk ?_ ?_); rfl)
      | ((with_reducible refine keeps_pow ?_ ?_ ?_ ?_); rfl; (first | exact id | exact safeHeld_rst _ _ | exact safeHeld_hive _ | exact safeHeld_hw _ _ | exact safeHeld_bel _ | exact fun _ h => nomatch h); rfl))))

theorem bootPushDef_keeps : CmdKeeps bootPushDef := by
  (refine ⟨fun m r s hn h => ?_, fun st r s h => ?_⟩ <;> unfold bootPushDef <;> dsimp only <;> (repeat (first
      | with_reducible assumption | (with_reducible refine bulkRefused_keeps (h := ?_) ..)
      | (with_reducible refine bulkErrs_keeps (h := ?_) ..) | (with_reducible refine ownBulk_keeps (h := ?_) ..)
      | ((with_reducible refine modBoot_keeps _ _ ?_ ?_ ?_); rfl; rfl) | split | dsimp only)))

theorem cellImageLoadDef_keeps : CmdKeeps cellImageLoadDef := by
  (refine ⟨fun m r s hn h => ?_, fun st r s h => ?_⟩ <;> unfold cellImageLoadDef <;> dsimp only <;> (repeat (first
      | with_reducible assumption | (with_reducible refine staleRefused_keeps (h := ?_) ..)
      | (with_reducible refine jobBegin_keeps (h := ?_) ..) | (with_reducible refine defer_keeps (h := ?_) ..)
      | split | dsimp only)))

theorem execBootInfo_goes {s0 : State} (m : Fin 4) (r : Req) (s : State) (h : Keeps s0 s) :
    Goes s0 (execBootInfo m r s) := by
  exact goes_next (mbxCommand_keeps _ bootInfoDef_keeps _ _ _ h)

theorem execImgUpdateBegin_goes {s0 : State} (m : Fin 4) (r : Req) (s : State) (h : Keeps s0 s) :
    Goes s0 (execImgUpdateBegin m r s) := by
  exact goes_next (mbxCommand_keeps _ imgUpdateBeginDef_keeps _ _ _ h)

theorem execImgUpdateWrite_goes {s0 : State} (m : Fin 4) (r : Req) (s : State) (h : Keeps s0 s) :
    Goes s0 (execImgUpdateWrite m r s) := by
  exact goes_next (mbxCommand_keeps _ imgUpdateWriteDef_keeps _ _ _ h)

theorem execImgUpdateEnd_goes {s0 : State} (m : Fin 4) (r : Req) (s : State) (h : Keeps s0 s) :
    Goes s0 (execImgUpdateEnd m r s) := by
  exact goes_next (mbxCommand_keeps _ imgUpdateEndDef_keeps _ _ _ h)

theorem execImgConfirm_goes {s0 : State} (m : Fin 4) (r : Req) (s : State) (h : Keeps s0 s) :
    Goes s0 (execImgConfirm m r s) := by
  exact goes_next (mbxCommand_keeps _ imgConfirmDef_keeps _ _ _ h)

theorem execTuneLoad_goes {s0 : State} (m : Fin 4) (r : Req) (s : State) (h : Keeps s0 s) :
    Goes s0 (execTuneLoad m r s) := by
  exact goes_next (mbxCommand_keeps _ tuneLoadDef_keeps _ _ _ h)

theorem execImgMeasExtend_goes {s0 : State} (m : Fin 4) (r : Req) (s : State) (h : Keeps s0 s) :
    Goes s0 (execImgMeasExtend m r s) := by
  exact goes_next (mbxCommand_keeps _ imgMeasExtendDef_keeps _ _ _ h)

theorem execLcAdvance_goes {s0 : State} (m : Fin 4) (r : Req) (s : State) (h : Keeps s0 s) :
    Goes s0 (execLcAdvance m r s) := by
  exact goes_next (mbxCommand_keeps _ lcAdvanceDef_keeps _ _ _ h)

theorem execKeyRevoke_goes {s0 : State} (m : Fin 4) (r : Req) (s : State) (h : Keeps s0 s) :
    Goes s0 (execKeyRevoke m r s) := by
  exact goes_next (mbxCommand_keeps _ keyRevokeDef_keeps _ _ _ h)

theorem execBootRecoveryBegin_goes {s0 : State} (m : Fin 4) (r : Req) (s : State) (h : Keeps s0 s) :
    Goes s0 (execBootRecoveryBegin m r s) := by
  exact goes_next (mbxCommand_keeps _ bootRecoveryBeginDef_keeps _ _ _ h)

theorem execBootPush_goes {s0 : State} (m : Fin 4) (r : Req) (s : State) (h : Keeps s0 s) :
    Goes s0 (execBootPush m r s) := by
  exact goes_next (mbxCommand_keeps _ bootPushDef_keeps _ _ _ h)

theorem execCellImageLoad_goes {s0 : State} (m : Fin 4) (r : Req) (s : State) (h : Keeps s0 s) :
    Goes s0 (execCellImageLoad m r s) := by
  exact goes_next (mbxCommand_keeps _ cellImageLoadDef_keeps _ _ _ h)

end Sys2Proof.Machine
end

