-- ==== Sys2Proof/Laws/KeepService.lean ====
section
/-! SUPPORT. What every operation of Machine/Service.lean keeps. -/

namespace Sys2Proof.Machine

theorem measFigures_keeps {s0 : State} (m : Measure) (s : State) (h : Keeps s0 s) :
    Keeps s0 (measFigures m s).2.2.2 := by
  unfold measFigures
  repeat (first
      | with_reducible assumption | (with_reducible refine drawWord_keeps (h := ?_) ..) | split | dsimp only)

theorem setRoutine_keeps {s0 : State} (r : Option Routine) (s : State) (h : Keeps s0 s) :
    Keeps s0 (setRoutine r s) := by
  exact keeps_mk rfl h

theorem routineEnds_keeps {s0 : State} (r : Routine) (payload : List Word) (s : State) (h : Keeps s0 s) :
    Keeps s0 (routineEnds r payload s) := by
  unfold routineEnds
  repeat (first
      | with_reducible assumption | (with_reducible refine complete_keeps (h := ?_) ..)
      | (with_reducible refine setRoutine_keeps (h := ?_) ..) | split | dsimp only)

theorem micWords_keeps {s0 : State} (x1 : Routine) (x2 : State) (h : Keeps s0 x2) : Keeps s0 (micWords x1 x2).2 := by
  unfold micWords
  refine keeps_foldl2 _ _ _ (fun p a hp => ?_) h
  exact rdStoresX_keeps _ _ _ _ (freeFlush_keeps _ _ hp)

theorem micFigures_keeps {s0 : State} (f : F32) (ws : List F32) (s : State) (h : Keeps s0 s) :
    Keeps s0 (micFigures f ws s).2 := by
  unfold micFigures
  split
  · exact h
  · exact drawWord_keeps _ (drawWord_keeps _ (drawWord_keeps _ h))

theorem micEnds_keeps {s0 : State} (r : Routine) (s : State) (h : Keeps s0 s) :
    Keeps s0 (micEnds r s) := by
  unfold micEnds
  repeat (first
      | with_reducible assumption | (with_reducible refine micWords_keeps (h := ?_) ..)
      | (with_reducible refine micFigures_keeps (h := ?_) ..)
      | (with_reducible refine routineEnds_keeps (h := ?_) ..) | split | dsimp only)

theorem routineStart_keeps {s0 : State} (n : Nat) (r : Routine) (s : State) (h : Keeps s0 s) :
    Keeps s0 (routineStart n r s) := by
  unfold routineStart
  repeat (first
      | with_reducible assumption | (with_reducible refine belMeasureNow_keeps (h := ?_) ..) | split | dsimp only)

theorem routineMeasured_keeps {s0 : State} (r : Routine) (s : State) (h : Keeps s0 s) :
    Keeps s0 (routineMeasured r s) := by
  unfold routineMeasured
  repeat (first
      | with_reducible assumption | (with_reducible refine modBel_keeps (h := ?_) ..)
      | (with_reducible refine micEnds_keeps (h := ?_) ..) | (with_reducible refine measFigures_keeps (h := ?_) ..)
      | (with_reducible refine drawWord_keeps (h := ?_) ..) | (with_reducible refine ramWrites_keeps (h := ?_) ..)
      | (with_reducible refine routineEnds_keeps (h := ?_) ..)
      | (with_reducible refine setRoutine_keeps (h := ?_) ..) | split | dsimp only)

theorem dcPayload_keeps {s0 : State} (x1 : Routine) (x2 : State) (h : Keeps s0 x2) : Keeps s0 (dcPayload x1 x2).2 := by
  unfold dcPayload
  refine keeps_foldl2 _ _ _ (fun p a hp => ?_) h
  exact drawWord_keeps _ hp

theorem routineTick_keeps {s0 : State} (n : Nat) (s : State) (h : Keeps s0 s) :
    Keeps s0 (routineTick n s) := by
  unfold routineTick
  repeat (first
      | with_reducible assumption | (with_reducible refine dcPayload_keeps (h := ?_) ..)
      | (with_reducible refine routineEnds_keeps (h := ?_) ..)
      | (with_reducible refine setRoutine_keeps (h := ?_) ..) | (with_reducible refine micEnds_keeps (h := ?_) ..)
      | (with_reducible refine routineStart_keeps (h := ?_) ..) | split | dsimp only)

theorem measureEnds_keeps {s0 : State} (c : Fin 32) (s : State) (h : Keeps s0 s) :
    Keeps s0 (measureEnds c s) := by
  unfold measureEnds
  repeat (first
      | with_reducible assumption | (with_reducible refine modBel_keeps (h := ?_) ..)
      | (with_reducible refine measFigures_keeps (h := ?_) ..) | (with_reducible refine complete_keeps (h := ?_) ..)
      | split | dsimp only)

theorem execMeasureZComplete_goes {s0 : State} (s : State) (h : Keeps s0 s) :
    Goes s0 (execMeasureZComplete s) := by
  unfold execMeasureZComplete
  repeat (first
      | with_reducible assumption | (with_reducible refine goes_next ?_)
      | (with_reducible refine routineMeasured_keeps (h := ?_) ..)
      | (with_reducible refine measureEnds_keeps (h := ?_) ..) | (with_reducible refine keeps_foldl _ _ _ ?_ ?_)
      | split | dsimp only | (intro _ _ _))

theorem svcFaultReadDef_keeps : CmdKeeps svcFaultReadDef := by
  exact ⟨fun _ _ _ _ h => h, fun _ _ _ h => h⟩

theorem svcFaultClearDef_keeps : CmdKeeps svcFaultClearDef := by
  refine ⟨fun m r s hn h => ?_, fun st r s h => h⟩
  refine ⟨h.queue, h.life, h.revoked, h.ram, h.store, h.flash, fun hl => ?_, h.vers, h.tail, h.head, h.keys, h.safe, h.parts⟩
  have := h.log hl
  unfold svcFaultClearDef clearFault
  dsimp only
  repeat (first | assumption | exact Nat.zero_le _ | split)

theorem svcSpkTestDef_keeps : CmdKeeps svcSpkTestDef := by
  (refine ⟨fun m r s hn h => ?_, fun st r s h => ?_⟩ <;> unfold svcSpkTestDef <;> dsimp only <;> (repeat (first
      | with_reducible assumption | (with_reducible refine setRoutine_keeps (h := ?_) ..)
      | (with_reducible refine defer_keeps (h := ?_) ..) | split | dsimp only)))

theorem svcDcOffsetDef_keeps : CmdKeeps svcDcOffsetDef := by
  (refine ⟨fun m r s hn h => ?_, fun st r s h => ?_⟩ <;> unfold svcDcOffsetDef <;> dsimp only <;> (repeat (first
      | with_reducible assumption | (with_reducible refine setRoutine_keeps (h := ?_) ..)
      | (with_reducible refine defer_keeps (h := ?_) ..) | split | dsimp only)))

theorem svcMicLoopDef_keeps : CmdKeeps svcMicLoopDef := by
  (refine ⟨fun m r s hn h => ?_, fun st r s h => ?_⟩ <;> unfold svcMicLoopDef <;> dsimp only <;> (repeat (first
      | with_reducible assumption | (with_reducible refine setRoutine_keeps (h := ?_) ..)
      | (with_reducible refine defer_keeps (h := ?_) ..) | split | dsimp only)))

theorem svcLineHealthDef_keeps : CmdKeeps svcLineHealthDef := by
  (refine ⟨fun m r s hn h => ?_, fun st r s h => ?_⟩ <;> unfold svcLineHealthDef <;> dsimp only <;> (repeat (first
      | with_reducible assumption | (with_reducible refine setRoutine_keeps (h := ?_) ..)
      | (with_reducible refine defer_keeps (h := ?_) ..) | split | dsimp only)))

theorem frameWords_keeps {s0 : State} (x1 : Ring) (n : Nat) (x3 : Nat) (x4 : State) (h : Keeps s0 x4) :
    Keeps s0 (frameWords x1 n x3 x4).2 := by
  induction x3 generalizing x1 n x4 with
    | zero => (unfold frameWords; repeat (first
      | with_reducible assumption | (with_reducible refine freeFlush_keeps (h := ?_) ..) | (with_reducible refine rdStoresX_keeps (h := ?_) ..)
      | (with_reducible refine keeps_foldl _ _ _ ?_ ?_) | split | dsimp only | (intro _ _ _)
      | ((with_reducible refine keeps_mk ?_ ?_); rfl)))
    | succ k ih => (unfold frameWords; repeat (first
      | with_reducible assumption | (with_reducible refine freeFlush_keeps (h := ?_) ..) | (with_reducible refine ih (h := ?_) ..)
      | (with_reducible refine rdStoresX_keeps (h := ?_) ..) | (with_reducible refine keeps_foldl _ _ _ ?_ ?_)
      | split | dsimp only | (intro _ _ _) | ((with_reducible refine keeps_mk ?_ ?_); rfl)))

theorem svcCaptureReadDef_keeps : CmdKeeps svcCaptureReadDef := by
  (refine ⟨fun m r s hn h => ?_, fun st r s h => ?_⟩ <;> unfold svcCaptureReadDef <;> dsimp only <;> (repeat (first
      | with_reducible assumption | (with_reducible refine frameWords_keeps (h := ?_) ..)
      | (with_reducible refine ownBulk_keeps (h := ?_) ..) | (with_reducible refine ramWrites_keeps (h := ?_) ..)
      | split | dsimp only)))

theorem svcAbortDef_keeps : CmdKeeps svcAbortDef := by
  (refine ⟨fun m r s hn h => ?_, fun st r s h => ?_⟩ <;> unfold svcAbortDef <;> dsimp only <;> (repeat (first
      | with_reducible assumption | (with_reducible refine setRoutine_keeps (h := ?_) ..) | split | dsimp only)))

theorem execSvcFaultRead_goes {s0 : State} (m : Fin 4) (r : Req) (s : State) (h : Keeps s0 s) :
    Goes s0 (execSvcFaultRead m r s) := by
  exact goes_next (mbxCommand_keeps _ svcFaultReadDef_keeps _ _ _ h)

theorem execSvcFaultClear_goes {s0 : State} (m : Fin 4) (r : Req) (s : State) (h : Keeps s0 s) :
    Goes s0 (execSvcFaultClear m r s) := by
  exact goes_next (mbxCommand_keeps _ svcFaultClearDef_keeps _ _ _ h)

theorem execSvcSpkTest_goes {s0 : State} (m : Fin 4) (r : Req) (s : State) (h : Keeps s0 s) :
    Goes s0 (execSvcSpkTest m r s) := by
  exact goes_next (mbxCommand_keeps _ svcSpkTestDef_keeps _ _ _ h)

theorem execSvcDcOffset_goes {s0 : State} (m : Fin 4) (r : Req) (s : State) (h : Keeps s0 s) :
    Goes s0 (execSvcDcOffset m r s) := by
  exact goes_next (mbxCommand_keeps _ svcDcOffsetDef_keeps _ _ _ h)

theorem execSvcMicLoop_goes {s0 : State} (m : Fin 4) (r : Req) (s : State) (h : Keeps s0 s) :
    Goes s0 (execSvcMicLoop m r s) := by
  exact goes_next (mbxCommand_keeps _ svcMicLoopDef_keeps _ _ _ h)

theorem execSvcLineHealth_goes {s0 : State} (m : Fin 4) (r : Req) (s : State) (h : Keeps s0 s) :
    Goes s0 (execSvcLineHealth m r s) := by
  exact goes_next (mbxCommand_keeps _ svcLineHealthDef_keeps _ _ _ h)

theorem execSvcCaptureRead_goes {s0 : State} (m : Fin 4) (r : Req) (s : State) (h : Keeps s0 s) :
    Goes s0 (execSvcCaptureRead m r s) := by
  exact goes_next (mbxCommand_keeps _ svcCaptureReadDef_keeps _ _ _ h)

theorem execSvcAbort_goes {s0 : State} (m : Fin 4) (r : Req) (s : State) (h : Keeps s0 s) :
    Goes s0 (execSvcAbort m r s) := by
  exact goes_next (mbxCommand_keeps _ svcAbortDef_keeps _ _ _ h)

end Sys2Proof.Machine
end

