-- ==== Sys2Proof/Laws/KeepHostPort.lean ====
section
/-! SUPPORT. What every operation of Machine/HostPort.lean keeps. -/

namespace Sys2Proof.Machine

theorem modHost_keeps {s0 : State} (f : HostPort → HostPort) (s : State) (h : Keeps s0 s) :
    Keeps s0 (modHost f s) := by
  exact keeps_mk rfl h

theorem pspFlag_keeps {s0 : State} (i : Nat) (s : State) (h : Keeps s0 s) :
    Keeps s0 (pspFlag i s) := by
  unfold pspFlag
  repeat (first
      | with_reducible assumption | (with_reducible refine modHost_keeps (h := ?_) ..)
      | (with_reducible refine raise_keeps (h := ?_) ..) | split | dsimp only)

theorem latchFrame_keeps {s0 : State} (s : State) (h : Keeps s0 s) :
    Keeps s0 (latchFrame s) := by
  unfold latchFrame
  repeat (first
      | with_reducible assumption | (with_reducible refine modHost_keeps (h := ?_) ..) | split | dsimp only)

theorem latchPhase_keeps {s0 : State} (s : State) (h : Keeps s0 s) :
    Keeps s0 (latchPhase s) := by
  unfold latchPhase
  repeat (first
      | with_reducible assumption | split | dsimp only | ((with_reducible refine keeps_mk ?_ ?_); rfl))

theorem latchMeas_keeps {s0 : State} (s : State) (h : Keeps s0 s) :
    Keeps s0 (latchMeas s) := by
  unfold latchMeas
  repeat (first
      | with_reducible assumption | (with_reducible refine modHost_keeps (h := ?_) ..) | split | dsimp only)

theorem regRead_keeps {s0 : State} (a : Nat) (s : State) (h : Keeps s0 s) :
    Keeps s0 (regRead a s).2 := by
  unfold regRead
  repeat (first
      | with_reducible assumption | (with_reducible refine latchFrame_keeps (h := ?_) ..)
      | (with_reducible refine latchPhase_keeps (h := ?_) ..) | split | dsimp only
      | ((with_reducible refine keeps_mk ?_ ?_); rfl))

theorem rwPut_keeps {s0 : State} (a : Nat) (v : Word) (s : State) (h : Keeps s0 s) :
    Keeps s0 (rwPut a v s) := by
  unfold rwPut
  repeat (first
      | with_reducible assumption | (with_reducible refine modHost_keeps (h := ?_) ..) | split | dsimp only
      | ((with_reducible refine keeps_mk ?_ ?_); rfl))

theorem w1cPut_keeps {s0 : State} (x1 : Nat) (x2 : Word) (x3 : State) (h : Keeps s0 x3) : Keeps s0 (w1cPut x1 x2 x3) := by
  have hm (s : State) (i : Nat) (hs : Keeps s0 s) :
      Keeps s0 { s with mbx := vmodN s.mbx i (fun b => { b with ringLost := false }) } :=
    ⟨hs.queue, hs.life, hs.revoked, hs.ram, hs.store, hs.flash, hs.log,
      fun hv => vmodN_get VersionOk _ _ _ (fun _ hb => hb) (hs.vers hv), hs.tail, hs.head, hs.keys, hs.safe, hs.parts⟩
  have hk (s : State) (f : FaultRec) (hf : f.log = s.flt.log) (hs : Keeps s0 s) : Keeps s0 { s with flt := f } :=
    keeps_mk (by rw [← hf]) hs
  unfold w1cPut
  repeat (first | exact hm _ _ h | exact hk _ _ rfl h | split | with_reducible assumption | exact modHost_keeps _ _ h | exact keeps_mk rfl h)

theorem doorbell_keeps {s0 : State} (n : Fin 4) (seq : Byte) (s : State) (h : Keeps s0 s) :
    Keeps s0 (doorbell n seq s) := by
  unfold doorbell
  repeat (first
      | with_reducible assumption | (with_reducible refine ringLost_keeps (h := ?_) ..)
      | (with_reducible refine ringMbx_keeps (h := ?_) ..) | split | dsimp only)

theorem rstWrite_keeps {s0 : State} (v : Word) (s : State) (h : Keeps s0 s) :
    Keeps s0 (rstWrite v s) := by
  unfold rstWrite
  repeat (first
      | with_reducible assumption | (with_reducible refine ianikReset_keeps (h := ?_) ..) | split | dsimp only)

theorem swCommit_keeps {s0 : State} (v : Word) (s : State) (h : Keeps s0 s) :
    Keeps s0 (swCommit v s) := by
  unfold swCommit
  repeat (first
      | with_reducible assumption | split | dsimp only | ((with_reducible refine keeps_mk ?_ ?_); rfl))

theorem woPut_keeps {s0 : State} (a : Nat) (v : Word) (s : State) (h : Keeps s0 s) :
    Keeps s0 (woPut a v s) := by
  unfold woPut
  repeat (first
      | with_reducible assumption | (with_reducible refine rstWrite_keeps (h := ?_) ..)
      | (with_reducible refine doorbell_keeps (h := ?_) ..) | (with_reducible refine modHost_keeps (h := ?_) ..)
      | (with_reducible refine swCommit_keeps (h := ?_) ..) | split | dsimp only)

theorem regWrite_keeps {s0 : State} (a : Nat) (v : Word) (s : State) (h : Keeps s0 s) :
    Keeps s0 (regWrite a v s) := by
  unfold regWrite
  repeat (first
      | with_reducible assumption | (with_reducible refine woPut_keeps (h := ?_) ..)
      | (with_reducible refine w1cPut_keeps (h := ?_) ..) | (with_reducible refine rwPut_keeps (h := ?_) ..) | split
      | dsimp only)

theorem setWrite_keeps {s0 : State} (a : Nat) (v : Word) (s : State) (h : Keeps s0 s) :
    Keeps s0 (setWrite a v s) := by
  unfold setWrite
  repeat (first
      | with_reducible assumption | (with_reducible refine rwPut_keeps (h := ?_) ..) | split | dsimp only)

theorem clearWrite_keeps {s0 : State} (a : Nat) (v : Word) (s : State) (h : Keeps s0 s) :
    Keeps s0 (clearWrite a v s) := by
  unfold clearWrite
  repeat (first
      | with_reducible assumption | (with_reducible refine rwPut_keeps (h := ?_) ..)
      | (with_reducible refine w1cPut_keeps (h := ?_) ..) | split | dsimp only)

theorem ramRead_keeps {s0 : State} (a : Nat) (s : State) (h : Keeps s0 s) :
    Keeps s0 (ramRead a s).2 := by
  unfold ramRead
  repeat (first
      | with_reducible assumption | (with_reducible refine checkWord_keeps (h := ?_) ..) | split | dsimp only)

theorem unitRead_keeps {s0 : State} (latched : Bool) (page : Bool) (a : Nat) (s : State) (h : Keeps s0 s) :
    Keeps s0 (unitRead latched page a s).2 := by
  unfold unitRead
  repeat (first
      | with_reducible assumption | (with_reducible refine ramRead_keeps (h := ?_) ..)
      | (with_reducible refine pspFlag_keeps (h := ?_) ..) | (with_reducible refine regRead_keeps (h := ?_) ..)
      | split | dsimp only)

theorem unitDone_keeps {s0 : State} (s : State) (h : Keeps s0 s) :
    Keeps s0 (unitDone s) := by
  unfold unitDone
  repeat (first
      | with_reducible assumption | (with_reducible refine modHost_keeps (h := ?_) ..) | split | dsimp only
      | ((with_reducible refine keeps_mk ?_ ?_); rfl))

theorem areaPassed_keeps {s0 : State} (x : Transfer) (s : State) (h : Keeps s0 s) :
    Keeps s0 (areaPassed x s) := by
  unfold areaPassed
  repeat (first
      | with_reducible assumption | (with_reducible refine pspFlag_keeps (h := ?_) ..) | split | dsimp only)

theorem unitNext_keeps {s0 : State} (s : State) (h : Keeps s0 s) :
    Keeps s0 (unitNext s) := by
  simp only [unitNext]
  repeat (first
      | with_reducible assumption | (with_reducible refine areaPassed_keeps (h := ?_) ..)
      | (with_reducible refine unitRead_keeps (h := ?_) ..) | (with_reducible refine unitDone_keeps (h := ?_) ..)
      | (with_reducible refine modHost_keeps (h := ?_) ..) | split | dsimp only
      | ((with_reducible refine keeps_mk ?_ ?_); rfl))

theorem unitsNext_keeps {s0 : State}  (x1 : Nat) (x2 : State) (h : Keeps s0 x2) :
    Keeps s0 (unitsNext x1 x2) := by
  induction x1 generalizing x2 with
  | zero =>
    unfold unitsNext
    repeat (first
      | with_reducible assumption | (with_reducible refine unitNext_keeps (h := ?_) ..) | split | dsimp only)
  | succ k ih =>
    unfold unitsNext
    repeat (first
      | with_reducible assumption | (with_reducible refine ih (h := ?_) ..)
      | (with_reducible refine unitNext_keeps (h := ?_) ..) | split | dsimp only)

theorem unitsSome_keeps {s0 : State} (first : Bool) (s : State) (h : Keeps s0 s) :
    Keeps s0 (unitsSome first s) := by
  simp only [unitsSome]
  repeat (first
      | with_reducible assumption | (with_reducible refine unitsNext_keeps (h := ?_) ..)
      | (with_reducible refine drawWord_keeps (h := ?_) ..) | split | dsimp only)

theorem hostReads_keeps {s0 : State} (s : State) (h : Keeps s0 s) :
    Keeps s0 (hostReads s) := by
  unfold hostReads
  repeat (first
      | with_reducible assumption | (with_reducible refine unitsSome_keeps (h := ?_) ..) | split | dsimp only)

theorem hostWrite_keeps {s0 : State} (page : Bool) (a : Nat) (v : Word) (s : State) (h : Keeps s0 s) :
    Keeps s0 (hostWrite page a v s) := by
  unfold hostWrite
  repeat (first
      | with_reducible assumption | (with_reducible refine hostRam_keeps (h := ?_) ..)
      | (with_reducible refine pspFlag_keeps (h := ?_) ..) | (with_reducible refine regWrite_keeps (h := ?_) ..)
      | (with_reducible refine setWrite_keeps (h := ?_) ..) | (with_reducible refine clearWrite_keeps (h := ?_) ..)
      | split | dsimp only)

theorem unitPut_keeps {s0 : State} (a : Nat) (put : State → State) (s : State) (hp : Keeps s0 (put s)) (h : Keeps s0 s) :
    Keeps s0 (unitPut a put s) := by
  unfold unitPut
  split
  · exact h
  · split
    · refine unitDone_keeps _ ?_
      cases s.host.xfer with
      | none => exact h
      | some x => exact areaPassed_keeps _ _ h
    · exact unitDone_keeps _ hp

theorem hostUnit_keeps {s0 : State} (a : Nat) (v : Word) (s : State) (h : Keeps s0 s) :
    Keeps s0 (hostUnit a v s) :=
  unitPut_keeps _ _ _ (hostWrite_keeps _ _ _ _ h) h

theorem execMbxDoorbell_goes {s0 : State} (n : Fin 4) (seq : Byte) (s : State) (h : Keeps s0 s) :
    Goes s0 (execMbxDoorbell n seq s) := by
  unfold execMbxDoorbell
  repeat (first
      | with_reducible assumption | (with_reducible refine goes_next ?_)
      | (with_reducible refine hostUnit_keeps (h := ?_) ..) | split | dsimp only)

theorem execHrthRstIanik_goes {s0 : State} (v : Word) (s : State) (h : Keeps s0 s) :
    Goes s0 (execHrthRstIanik v s) := by
  unfold execHrthRstIanik
  repeat (first
      | with_reducible assumption | (with_reducible refine goes_next ?_)
      | (with_reducible refine hostUnit_keeps (h := ?_) ..) | split | dsimp only)

theorem execPspCntClr_goes {s0 : State} (s : State) (h : Keeps s0 s) :
    Goes s0 (execPspCntClr s) := by
  unfold execPspCntClr
  repeat (first
      | with_reducible assumption | (with_reducible refine goes_next ?_)
      | (with_reducible refine hostUnit_keeps (h := ?_) ..) | split | dsimp only)

theorem execWinPageWrite_goes {s0 : State} (v : Word) (s : State) (h : Keeps s0 s) :
    Goes s0 (execWinPageWrite v s) := by
  unfold execWinPageWrite
  repeat (first
      | with_reducible assumption | (with_reducible refine goes_next ?_)
      | (with_reducible refine hostUnit_keeps (h := ?_) ..) | split | dsimp only)

theorem hostRead_keeps {s0 : State} (a : Nat) (s : State) (h : Keeps s0 s) :
    Keeps s0 (hostRead a s) := by
  unfold hostRead
  repeat (first
      | with_reducible assumption | (with_reducible refine unitNext_keeps (h := ?_) ..) | (with_reducible refine unitRead_keeps (h := ?_) ..)
      | (with_reducible refine modHost_keeps (h := ?_) ..) | split | dsimp only | ((with_reducible refine keeps_mk ?_ ?_); rfl))

theorem execStkrSwSeqRead_goes {s0 : State} (s : State) (h : Keeps s0 s) :
    Goes s0 (execStkrSwSeqRead s) := by
  unfold execStkrSwSeqRead
  repeat (first
      | with_reducible assumption | (with_reducible refine goes_next ?_)
      | (with_reducible refine hostRead_keeps (h := ?_) ..) | split | dsimp only)

theorem execStkrSwCommit_goes {s0 : State} (v : Word) (s : State) (h : Keeps s0 s) :
    Goes s0 (execStkrSwCommit v s) := by
  unfold execStkrSwCommit
  repeat (first
      | with_reducible assumption | (with_reducible refine goes_next ?_)
      | (with_reducible refine hostUnit_keeps (h := ?_) ..) | split | dsimp only)

theorem execFrameCountLoRead_goes {s0 : State} (s : State) (h : Keeps s0 s) :
    Goes s0 (execFrameCountLoRead s) := by
  unfold execFrameCountLoRead
  repeat (first
      | with_reducible assumption | (with_reducible refine goes_next ?_)
      | (with_reducible refine hostRead_keeps (h := ?_) ..) | split | dsimp only)

theorem execMeasLatchRead_goes {s0 : State} (s : State) (h : Keeps s0 s) :
    Goes s0 (execMeasLatchRead s) := by
  unfold execMeasLatchRead
  repeat (first
      | with_reducible assumption | (with_reducible refine goes_next ?_)
      | (with_reducible refine latchMeas_keeps (h := ?_) ..) | split | dsimp only)

theorem execBitSetAliasWrite_goes {s0 : State} (addr : BitVec 16) (v : Word) (s : State) (h : Keeps s0 s) :
    Goes s0 (execBitSetAliasWrite addr v s) := by
  unfold execBitSetAliasWrite
  repeat (first
      | with_reducible assumption | (with_reducible refine goes_next ?_)
      | (with_reducible refine hostUnit_keeps (h := ?_) ..) | split | dsimp only)

theorem execBitClearAliasWrite_goes {s0 : State} (addr : BitVec 16) (v : Word) (s : State) (h : Keeps s0 s) :
    Goes s0 (execBitClearAliasWrite addr v s) := by
  unfold execBitClearAliasWrite
  repeat (first
      | with_reducible assumption | (with_reducible refine goes_next ?_)
      | (with_reducible refine hostUnit_keeps (h := ?_) ..) | split | dsimp only)

theorem execRegisterWrite_goes {s0 : State} (addr : BitVec 16) (v : Word) (s : State) (h : Keeps s0 s) :
    Goes s0 (execRegisterWrite addr v s) := by
  unfold execRegisterWrite
  repeat (first
      | with_reducible assumption | (with_reducible refine goes_next ?_)
      | (with_reducible refine hostUnit_keeps (h := ?_) ..) | split | dsimp only)

theorem collide_keeps {s0 : State} (r : Nat) (w : Word) (s : State) (h : Keeps s0 s) :
    Keeps s0 (collide r w s) := by
  unfold collide
  repeat (first
      | with_reducible assumption | (with_reducible refine ramWrite_keeps (h := ?_) ..)
      | (with_reducible refine modHost_keeps (h := ?_) ..) | (with_reducible refine raise_keeps (h := ?_) ..) | split
      | dsimp only | ((with_reducible refine keeps_mk ?_ ?_); rfl))

theorem execMailboxRamWrite_goes {s0 : State} (addr : BitVec 16) (v : Word) (coll : Option Word) (s : State)
    (h : Keeps s0 s) : Goes s0 (execMailboxRamWrite addr v coll s) := by
  unfold execMailboxRamWrite
  cases coll with
  | none => exact goes_next (hostUnit_keeps _ _ _ h)
  | some w => exact goes_next (unitPut_keeps _ _ _ (collide_keeps _ _ _ h) h)

theorem execPsp1CommandUnit_goes {s0 : State} (cmd : Byte) (addr : BitVec 16) (s : State) (h : Keeps s0 s) :
    Goes s0 (execPsp1CommandUnit cmd addr s) := by
  unfold execPsp1CommandUnit
  repeat (first
      | with_reducible assumption | (with_reducible refine goes_next ?_)
      | (with_reducible refine modHost_keeps (h := ?_) ..) | (with_reducible refine pspFlag_keeps (h := ?_) ..)
      | (with_reducible refine latchMeas_keeps (h := ?_) ..)
      | split | dsimp only | ((with_reducible refine keeps_mk ?_ ?_); rfl))

theorem xferDead_keeps {s0 : State} (s : State) (h : Keeps s0 s) :
    Keeps s0 (xferDead s) := by
  unfold xferDead
  repeat (first
      | with_reducible assumption | (with_reducible refine modHost_keeps (h := ?_) ..) | split | dsimp only
      | ((with_reducible refine keeps_mk ?_ ?_); rfl))

theorem xferClosed_keeps {s0 : State} (s : State) (h : Keeps s0 s) :
    Keeps s0 (xferClosed s) := by
  unfold xferClosed
  repeat (first
      | with_reducible assumption | (with_reducible refine modHost_keeps (h := ?_) ..) | split | dsimp only
      | ((with_reducible refine keeps_mk ?_ ?_); rfl))

theorem execPsp1SelRise_goes {s0 : State} (x1 : SelRise) (s : State) (h : Keeps s0 s) :
    Goes s0 (execPsp1SelRise x1 s) := by
  unfold execPsp1SelRise
  repeat (first
      | with_reducible assumption | (with_reducible refine xferClosed_keeps (h := ?_) ..) | (with_reducible refine unitsSome_keeps (h := ?_) ..) | (with_reducible refine unitsNext_keeps (h := ?_) ..) | (with_reducible refine complete_keeps (h := ?_) ..) | (with_reducible refine goes_next ?_)
      | (with_reducible refine modHost_keeps (h := ?_) ..) | (with_reducible refine pspFlag_keeps (h := ?_) ..)
      | split | dsimp only | ((with_reducible refine keeps_mk ?_ ?_); rfl))

theorem execPspBuzzed_goes {s0 : State} (s : State) (h : Keeps s0 s) :
    Goes s0 (execPspBuzzed s) := by
  unfold execPspBuzzed
  repeat (first
      | with_reducible assumption | (with_reducible refine xferDead_keeps (h := ?_) ..) | (with_reducible refine goes_next ?_)
      | (with_reducible refine modHost_keeps (h := ?_) ..) | (with_reducible refine pspFlag_keeps (h := ?_) ..)
      | split | dsimp only | ((with_reducible refine keeps_mk ?_ ?_); rfl))

theorem execPspBusyDrop_goes {s0 : State} (addr : BitVec 16) (v : Word) (s : State) (h : Keeps s0 s) :
    Goes s0 (execPspBusyDrop addr v s) := by
  unfold execPspBusyDrop
  repeat (first
      | with_reducible assumption | (with_reducible refine xferDead_keeps (h := ?_) ..) | (with_reducible refine goes_next ?_)
      | (with_reducible refine modHost_keeps (h := ?_) ..) | (with_reducible refine pspFlag_keeps (h := ?_) ..)
      | (with_reducible refine hostUnit_keeps (h := ?_) ..) | split | dsimp only)

end Sys2Proof.Machine
end

