-- ==== Sys2Proof/Laws/KeepPower.lean ====
section
/-! SUPPORT. What every operation of Machine/Power.lean keeps. -/

namespace Sys2Proof.Machine

theorem wakeNow_keeps {s0 : State} (s : State) (h : Keeps s0 s) :
    Keeps s0 (wakeNow s) := by
  unfold wakeNow
  repeat (first
      | with_reducible assumption | ((with_reducible refine modBoot_keeps _ _ ?_ ?_ ?_); rfl; rfl)
      | (with_reducible refine bootNote_keeps (h := ?_) ..) | (with_reducible refine keeps_foldl _ _ _ ?_ ?_)
      | split | dsimp only | (intro _ _ _) | ((with_reducible refine keeps_mk ?_ ?_); rfl)
      | ((with_reducible refine keeps_pow ?_ ?_ ?_ ?_); rfl; (first | exact id | exact safeHeld_rst _ _ | exact safeHeld_hive _ | exact safeHeld_hw _ _ | exact safeHeld_bel _ | exact fun _ h => nomatch h); rfl))

theorem tryWake_keeps {s0 : State} (s : State) (h : Keeps s0 s) : Keeps s0 (tryWake s) := by
  unfold tryWake
  split
  · exact wakeNow_keeps s h
  · exact h

theorem execWakeRequest_goes {s0 : State} (w : WakeBalls) (s : State) (h : Keeps s0 s) :
    Goes s0 (execWakeRequest w s) := by
  unfold execWakeRequest
  repeat (first
      | with_reducible assumption | (with_reducible refine wakeNow_keeps (h := ?_) ..) | (with_reducible refine goes_next ?_)
      | (with_reducible refine tryWake_keeps (h := ?_) ..) | (with_reducible refine keeps_foldl _ _ _ ?_ ?_) | split
      | dsimp only | (intro _ _ _) | ((with_reducible refine keeps_mk ?_ ?_); rfl)
      | ((with_reducible refine keeps_pow ?_ ?_ ?_ ?_); rfl; (first | exact id | exact safeHeld_rst _ _ | exact safeHeld_hive _ | exact safeHeld_hw _ _ | exact safeHeld_bel _ | exact fun _ h => nomatch h); rfl))

theorem rstLow_keeps {s0 : State} (s : State) (h : Keeps s0 s) :
    Keeps s0 (rstLow s) := by
  unfold rstLow
  repeat (first
      | with_reducible assumption | (with_reducible refine systemReset_keeps (h := ?_) ..)
      | (with_reducible refine keeps_foldl _ _ _ ?_ ?_) | split | dsimp only | (intro _ _ _)
      | ((with_reducible refine keeps_mk ?_ ?_); rfl)
      | ((with_reducible refine keeps_pow ?_ ?_ ?_ ?_); rfl; (first | exact id | exact safeHeld_rst _ _ | exact safeHeld_hive _ | exact safeHeld_hw _ _ | exact safeHeld_bel _ | exact fun _ h => nomatch h); rfl))

theorem execRstNLow_goes {s0 : State} (s : State) (h : Keeps s0 s) :
    Goes s0 (execRstNLow s) := by
  unfold execRstNLow
  repeat (first
      | with_reducible assumption | (with_reducible refine goes_next ?_)
      | (with_reducible refine rstLow_keeps (h := ?_) ..) | split | dsimp only)

theorem execRstNRise_goes {s0 : State} (s : State) (h : Keeps s0 s) :
    Goes s0 (execRstNRise s) := by
  unfold execRstNRise
  repeat (first
      | with_reducible assumption | (with_reducible refine goes_next ?_)
      | (with_reducible refine tryWake_keeps (h := ?_) ..) | (with_reducible refine keeps_foldl _ _ _ ?_ ?_) | split
      | dsimp only | (intro _ _ _) | ((with_reducible refine keeps_mk ?_ ?_); rfl)
      | ((with_reducible refine keeps_pow ?_ ?_ ?_ ?_); rfl; (first | exact id | exact safeHeld_rst _ _ | exact safeHeld_hive _ | exact safeHeld_hw _ _ | exact safeHeld_bel _ | exact fun _ h => nomatch h); rfl))

theorem setRail_keeps {s0 : State} (r : Rail) (good : Bool) (s : State) (h : Keeps s0 s) :
    Keeps s0 (setRail r good s) := by
  unfold setRail
  repeat (first
      | with_reducible assumption | (with_reducible refine keeps_foldl _ _ _ ?_ ?_) | split | dsimp only
      | (intro _ _ _) | ((with_reducible refine keeps_mk ?_ ?_); rfl)
      | ((with_reducible refine keeps_pow ?_ ?_ ?_ ?_); rfl; (first | exact id | exact safeHeld_rst _ _ | exact safeHeld_hive _ | exact safeHeld_hw _ _ | exact safeHeld_bel _ | exact fun _ h => nomatch h); rfl))

theorem coreLoss_keeps {s0 : State} (s : State) (h : Keeps s0 s) :
    Keeps s0 (coreLoss s) := by
  unfold coreLoss
  repeat (first
      | with_reducible assumption | (with_reducible refine setRail_keeps (h := ?_) ..)
      | (with_reducible refine systemReset_keeps (h := ?_) ..) | (with_reducible refine logFault_keeps (h := ?_) ..)
      | split | dsimp only | ((with_reducible refine keeps_mk ?_ ?_); rfl))

theorem execVddCoreLoss_goes {s0 : State} (s : State) (h : Keeps s0 s) :
    Goes s0 (execVddCoreLoss s) := by
  unfold execVddCoreLoss
  repeat (first
      | with_reducible assumption | (with_reducible refine goes_next ?_)
      | (with_reducible refine coreLoss_keeps (h := ?_) ..) | split | dsimp only)

theorem execVddioAFail_goes {s0 : State} (s : State) (h : Keeps s0 s) :
    Goes s0 (execVddioAFail s) := by
  unfold execVddioAFail
  repeat (first
      | with_reducible assumption | (with_reducible refine goes_next ?_)
      | (with_reducible refine rstLow_keeps (h := ?_) ..) | (with_reducible refine setRail_keeps (h := ?_) ..)
      | split | dsimp only)

theorem execVddHearthFall_goes {s0 : State} (s : State) (h : Keeps s0 s) :
    Goes s0 (execVddHearthFall s) := by
  unfold execVddHearthFall
  repeat (first
      | with_reducible assumption | (with_reducible refine goes_next ?_)
      | (with_reducible refine powerLost_keeps (h := ?_) ..) | (with_reducible refine setRail_keeps (h := ?_) ..)
      | split | dsimp only)

theorem execVddHearthRise_goes {s0 : State} (cfgOk : Bool) (keeperLow : Bool) (s : State) (h : Keeps s0 s) :
    Goes s0 (execVddHearthRise cfgOk keeperLow s) := by
  unfold execVddHearthRise
  repeat (first
      | with_reducible assumption | (with_reducible refine goes_next ?_)
      | (with_reducible refine setRail_keeps (h := ?_) ..) | (with_reducible refine raiseIf_keeps (h := ?_) ..)
      | (with_reducible refine keeps_foldl _ _ _ ?_ ?_) | split | dsimp only | (intro _ _ _)
      | ((with_reducible refine keeps_mk ?_ ?_); rfl)
      | ((with_reducible refine keeps_pow ?_ ?_ ?_ ?_); rfl; (first | exact id | exact safeHeld_rst _ _ | exact safeHeld_hive _ | exact safeHeld_hw _ _ | exact safeHeld_bel _ | exact fun _ h => nomatch h); rfl))

theorem execRailFail_goes {s0 : State} (r : Rail) (s : State) (h : Keeps s0 s) :
    Goes s0 (execRailFail r s) := by
  unfold execRailFail
  repeat (first
      | with_reducible assumption | (with_reducible refine goes_next ?_)
      | (with_reducible refine powerLost_keeps (h := ?_) ..) | (with_reducible refine setRail_keeps (h := ?_) ..)
      | (with_reducible refine rstLow_keeps (h := ?_) ..) | (with_reducible refine coreLoss_keeps (h := ?_) ..)
      | split | dsimp only)

theorem execRailGood_goes {s0 : State} (r : Rail) (s : State) (h : Keeps s0 s) :
    Goes s0 (execRailGood r s) := by
  unfold execRailGood
  repeat (first
      | with_reducible assumption | (with_reducible refine goes_next ?_)
      | (with_reducible refine tryWake_keeps (h := ?_) ..) | (with_reducible refine setRail_keeps (h := ?_) ..)
      | split | dsimp only)

theorem declared_keeps {s0 : State} (cause : Nat) (s : State) (h : Keeps s0 s) :
    Keeps s0 (declared cause s) := by
  unfold declared
  repeat (first
      | with_reducible assumption | (with_reducible refine closePresence_keeps (h := ?_) ..)
      | (with_reducible refine raise_keeps (h := ?_) ..) | (with_reducible refine wipeVault_keeps (h := ?_) ..)
      | (with_reducible refine logFault_keeps (h := ?_) ..) | split | dsimp only
      | ((with_reducible refine keeps_mk ?_ ?_); rfl))

theorem execTamperNLow_goes {s0 : State} (s : State) (h : Keeps s0 s) :
    Goes s0 (execTamperNLow s) := by
  unfold execTamperNLow
  repeat (first
      | with_reducible assumption | (with_reducible refine goes_next ?_)
      | (with_reducible refine declared_keeps (h := ?_) ..) | split | dsimp only)

theorem execVoltageGlitch_goes {s0 : State} (s : State) (h : Keeps s0 s) :
    Goes s0 (execVoltageGlitch s) := by
  unfold execVoltageGlitch
  repeat (first
      | with_reducible assumption | (with_reducible refine goes_next ?_)
      | (with_reducible refine declared_keeps (h := ?_) ..) | split | dsimp only)

theorem execClockGlitch_goes {s0 : State} (s : State) (h : Keeps s0 s) :
    Goes s0 (execClockGlitch s) := by
  unfold execClockGlitch
  repeat (first
      | with_reducible assumption | (with_reducible refine goes_next ?_)
      | (with_reducible refine declared_keeps (h := ?_) ..) | split | dsimp only)

theorem execKeeperRelease_goes {s0 : State} (s : State) (h : Keeps s0 s) :
    Goes s0 (execKeeperRelease s) := by
  unfold execKeeperRelease
  repeat (first
      | with_reducible assumption | (with_reducible refine goes_next ?_) | split | dsimp only
      | ((with_reducible refine keeps_mk ?_ ?_); rfl))

theorem execKeeperHold_goes {s0 : State} (s : State) (h : Keeps s0 s) :
    Goes s0 (execKeeperHold s) := by
  unfold execKeeperHold
  repeat (first
      | with_reducible assumption | (with_reducible refine goes_next ?_)
      | (with_reducible refine raise_keeps (h := ?_) ..) | split | dsimp only
      | ((with_reducible refine keeps_mk ?_ ?_); rfl))

theorem execPresenceWindowEnd_goes {s0 : State} (s : State) (h : Keeps s0 s) :
    Goes s0 (execPresenceWindowEnd s) := by
  unfold execPresenceWindowEnd
  repeat (first
      | with_reducible assumption | (with_reducible refine goes_next ?_)
      | (with_reducible refine closePresence_keeps (h := ?_) ..) | split | dsimp only)

theorem thermWarn_keeps {s0 : State} (tj : F32) (s : State) (h : Keeps s0 s) :
    Keeps s0 (thermWarn tj s) := by
  unfold thermWarn
  repeat (first
      | with_reducible assumption | (with_reducible refine raiseIf_keeps (h := ?_) ..) | split | dsimp only
      | ((with_reducible refine keeps_mk ?_ ?_); rfl))

theorem thermCrit_keeps {s0 : State} (tj : F32) (s : State) (h : Keeps s0 s) :
    Keeps s0 (thermCrit tj s) := by
  unfold thermCrit
  repeat (first
      | with_reducible assumption | (with_reducible refine raise_keeps (h := ?_) ..)
      | (with_reducible refine logFault_keeps (h := ?_) ..) | split | dsimp only
      | ((with_reducible refine keeps_mk ?_ ?_); rfl))

theorem execThermalConversion_goes {s0 : State} (tj : F32) (s : State) (h : Keeps s0 s) :
    Goes s0 (execThermalConversion tj s) := by
  unfold execThermalConversion
  repeat (first
      | with_reducible assumption | (with_reducible refine goes_next ?_)
      | (with_reducible refine thermCrit_keeps (h := ?_) ..) | (with_reducible refine thermWarn_keeps (h := ?_) ..)
      | split | dsimp only | ((with_reducible refine keeps_mk ?_ ?_); rfl))

theorem execWatchdogExpiry_goes {s0 : State} (earlier : Fin 4) (s : State) (h : Keeps s0 s) :
    Goes s0 (execWatchdogExpiry earlier s) := by
  unfold execWatchdogExpiry
  repeat (first
      | with_reducible assumption | (with_reducible refine goes_next ?_)
      | (with_reducible refine raise_keeps (h := ?_) ..) | (with_reducible refine logFault_keeps (h := ?_) ..)
      | (with_reducible refine enterSafe_keeps (h := ?_) ..) | (with_reducible refine ianikReset_keeps (h := ?_) ..)
      | split | dsimp only | ((with_reducible refine keeps_mk ?_ ?_); rfl))

theorem ianikRecords_keeps {s0 : State} (s : State) (h : Keeps s0 s) :
    Keeps s0 (ianikRecords s) := by
  unfold ianikRecords
  repeat (first
      | with_reducible assumption | (with_reducible refine completionsWrite_keeps (h := ?_) ..) | split | dsimp only)

theorem execIanikResetExit_goes {s0 : State} (x1 : State) (h : Keeps s0 x1) : Goes s0 (execIanikResetExit x1) := by
  unfold execIanikResetExit
  split
  · rename_i hc
    simp only [Bool.and_eq_true, bne_iff_ne] at hc
    exact goes_next (ianikRecords_keeps _ (ianikBack_keeps _ hc.2 h))
  · exact goes_next h

theorem execRunToStandbyComplete_goes {s0 : State} (s : State) (h : Keeps s0 s) :
    Goes s0 (execRunToStandbyComplete s) := by
  unfold execRunToStandbyComplete
  repeat (first
      | with_reducible assumption | (with_reducible refine goes_next ?_)
      | (with_reducible refine standbyDone_keeps (h := ?_) ..) | split | dsimp only)

theorem execHearthEntryReset_goes {s0 : State} (s : State) (h : Keeps s0 s) :
    Goes s0 (execHearthEntryReset s) := by
  unfold execHearthEntryReset
  repeat (first
      | with_reducible assumption | (with_reducible refine goes_next ?_)
      | (with_reducible refine tryWake_keeps (h := ?_) ..) | (with_reducible refine systemReset_keeps (h := ?_) ..)
      | split | dsimp only)

theorem drawFrame_keeps {s0 : State} (s : State) (h : Keeps s0 s) :
    Keeps s0 (drawFrame s).2 := by
  unfold drawFrame
  repeat (first
      | with_reducible assumption | (with_reducible refine drawLong_keeps (h := ?_) ..) | split | dsimp only)

theorem respondDef_keeps {s0 : State} {op : Nat} {r : Req} {d : CmdDef} (hd : responderDef op r = some d) (m : Fin 4) (r' : Req)
    (s : State) (h : Keeps s0 s) : Keeps s0 (d.act m r' s).1 := by
  unfold responderDef at hd
  split at hd
  · cases hd; exact drawLong_keeps _ h
  · split at hd
    · cases hd; exact keeps_pow rfl id rfl (drawLong_keeps _ h)
    · cases hd
  · cases hd; exact h
  · cases hd; exact keeps_pow rfl id rfl h
  · cases hd
theorem respond_keeps {s0 : State} (x1 : Fin 4) (x2 : State) (h : Keeps s0 x2) : Keeps s0 (respond x1 x2) := by
  have hc := cmdErrs_keeps x1 (readReq x1 x2).2 x2 h
  unfold respond
  dsimp only
  split
  · exact post_keeps _ _ (answer_keeps _ _ _ _ _ _ _ hc)
  · split
    · exact post_keeps _ _ (mbxFails_keeps _ _ _ hc)
    · rename_i d hd
      split
      · exact post_keeps _ _ (answer_keeps _ _ _ _ _ _ _ hc)
      · refine post_keeps _ _ (answer_keeps _ _ _ _ _ _ _ ?_)
        split at hd
        · exact respondDef_keeps hd _ _ _ hc
        · cases hd

theorem execHearthResponderServe_goes {s0 : State} (n : Fin 4) (s : State) (h : Keeps s0 s) :
    Goes s0 (execHearthResponderServe n s) := by
  unfold execHearthResponderServe
  repeat (first
      | with_reducible assumption | (with_reducible refine goes_next ?_)
      | (with_reducible refine respond_keeps (h := ?_) ..) | split | dsimp only)

theorem execHearthResponderReset_goes {s0 : State} (s : State) (h : Keeps s0 s) :
    Goes s0 (execHearthResponderReset s) := by
  unfold execHearthResponderReset
  repeat (first
      | with_reducible assumption | (with_reducible refine goes_next ?_)
      | (with_reducible refine tryWake_keeps (h := ?_) ..) | (with_reducible refine systemReset_keeps (h := ?_) ..)
      | split | dsimp only)

end Sys2Proof.Machine
end

