-- ==== Sys2Proof/Laws/KeepPhases.lean ====
section
/-! SUPPORT. What every operation of Machine/Phases.lean keeps. -/

namespace Sys2Proof.Machine

theorem intake_keeps {s0 : State} (d : Dom) (s : State) (h : Keeps s0 s) :
    Keeps s0 (intake d s) := by
  unfold intake
  repeat (first
      | with_reducible assumption | (with_reducible refine combErrors_keeps (h := ?_) ..)
      | (with_reducible refine bridgeErrors_keeps (h := ?_) ..) | (with_reducible refine modCell_keeps (h := ?_) ..)
      | (with_reducible refine keeps_foldl _ _ _ ?_ ?_) | split | dsimp only | (intro _ _ _))

theorem clearNow_keeps {s0 : State} (c : Fin 32) (s : State) (h : Keeps s0 s) :
    Keeps s0 (clearNow c s) := by
  unfold clearNow
  repeat (first
      | with_reducible assumption | (with_reducible refine modCell_keeps (h := ?_) ..)
      | (with_reducible refine clearData_keeps (h := ?_) ..) | split | dsimp only)

theorem windowCycle_keeps {s0 : State} (d : Dom) (phi : Nat) (cs : List (Fin 32)) (s : State) (h : Keeps s0 s) :
    Keeps s0 (windowCycle d phi cs s) := by
  unfold windowCycle
  repeat (first
      | with_reducible assumption | (with_reducible refine cellSlot_keeps (h := ?_) ..)
      | (with_reducible refine keeps_foldl _ _ _ ?_ ?_) | split | dsimp only | (intro _ _ _))

theorem windowCycles_keeps {s0 : State} (d : Dom) (phi : Nat) (cs : List (Fin 32)) (x4 : Nat) (x5 : State) (h : Keeps s0 x5) :
    Keeps s0 (windowCycles d phi cs x4 x5) := by
  induction x4 generalizing d phi cs x5 with
    | zero => (unfold windowCycles; repeat (first
      | with_reducible assumption | (with_reducible refine freeCycle_keeps (h := ?_) ..) | (with_reducible refine windowCycle_keeps (h := ?_) ..)
      | (with_reducible refine keeps_foldl _ _ _ ?_ ?_) | split | dsimp only | (intro _ _ _)
      | ((with_reducible refine keeps_mk ?_ ?_); rfl)))
    | succ k ih => (unfold windowCycles; repeat (first
      | with_reducible assumption | (with_reducible refine freeCycle_keeps (h := ?_) ..) | (with_reducible refine ih (h := ?_) ..)
      | (with_reducible refine windowCycle_keeps (h := ?_) ..) | (with_reducible refine keeps_foldl _ _ _ ?_ ?_)
      | split | dsimp only | (intro _ _ _) | ((with_reducible refine keeps_mk ?_ ?_); rfl)))

theorem execCellWindow_goes {s0 : State} (d : Dom) (n : Nat) (ups : List Upset) (s : State) (h : Keeps s0 s) :
    Goes s0 (execCellWindow d n ups s) := by
  unfold execCellWindow
  repeat (first
      | with_reducible assumption | (with_reducible refine goes_next ?_)
      | (with_reducible refine strike_keeps (h := ?_) ..) | (with_reducible refine clearNow_keeps (h := ?_) ..)
      | (with_reducible refine windowCycles_keeps (h := ?_) ..) | (with_reducible refine keeps_foldl _ _ _ ?_ ?_)
      | split | dsimp only | (intro _ _ _))

theorem chimneyLand_keeps {s0 : State} (c : Fin 32) (s : State) (h : Keeps s0 s) :
    Keeps s0 (chimneyLand c s) := by
  unfold chimneyLand
  repeat (first
      | with_reducible assumption | (with_reducible refine modCell_keeps (h := ?_) ..) | split | dsimp only)

theorem chimneyOne_keeps {s0 : State} (s : State) (c : Fin 32) (h : Keeps s0 s) :
    Keeps s0 (chimneyOne s c) := by
  unfold chimneyOne
  repeat (first
      | with_reducible assumption | (with_reducible refine chimneyLand_keeps (h := ?_) ..)
      | (with_reducible refine clearNow_keeps (h := ?_) ..) | (with_reducible refine raiseIf_keeps (h := ?_) ..)
      | (with_reducible refine modCell_keeps (h := ?_) ..) | (with_reducible refine raise_keeps (h := ?_) ..)
      | split | dsimp only)

theorem noneDone_keeps {s0 : State} (s : State) (c : Fin 32) (h : Keeps s0 s) :
    Keeps s0 (noneDone s c) := by
  unfold noneDone
  repeat (first
      | with_reducible assumption | (with_reducible refine raise_keeps (h := ?_) ..)
      | (with_reducible refine modCell_keeps (h := ?_) ..) | split | dsimp only)

theorem execChimneyPhase_goes {s0 : State} (d : Dom) (s : State) (h : Keeps s0 s) :
    Goes s0 (execChimneyPhase d s) := by
  unfold execChimneyPhase
  repeat (first
      | with_reducible assumption | (with_reducible refine goes_next ?_)
      | (with_reducible refine chimneyOne_keeps (h := ?_) ..) | (with_reducible refine modComb_keeps (h := ?_) ..)
      | (with_reducible refine noneDone_keeps (h := ?_) ..) | (with_reducible refine keeps_foldl _ _ _ ?_ ?_)
      | split | dsimp only | (intro _ _ _))

theorem outletM_keeps {s0 : State} (n : Nat) (vs : List (ChanId × F32)) (s : State) (h : Keeps s0 s) :
    Keeps s0 (outletM n vs s) := by
  exact keeps_mk rfl h

theorem outletF_keeps {s0 : State} (n : Nat) (vs : List (ChanId × F32)) (s : State) (h : Keeps s0 s) :
    Keeps s0 (outletF n vs s) := by
  exact keeps_mk rfl h

theorem outletS_keeps {s0 : State} (n : Nat) (vs : List (ChanId × F32)) (s : State) (h : Keeps s0 s) :
    Keeps s0 (outletS n vs s) := by
  exact keeps_mk rfl h

theorem outletOut_keeps {s0 : State} (d : Dom) (vs : List (ChanId × F32)) (s : State) (h : Keeps s0 s) :
    Keeps s0 (outletOut d vs s) := by
  unfold outletOut
  repeat (first
      | with_reducible assumption | (with_reducible refine outletM_keeps (h := ?_) ..)
      | (with_reducible refine outletF_keeps (h := ?_) ..) | (with_reducible refine outletS_keeps (h := ?_) ..)
      | split | dsimp only)

theorem outletBridges_keeps {s0 : State} (d : Dom) (vs : List (ChanId × F32)) (s : State) (h : Keeps s0 s) :
    Keeps s0 (outletBridges d vs s) := by
  unfold outletBridges
  repeat (first
      | with_reducible assumption | (with_reducible refine bridgeWrite_keeps (h := ?_) ..) | split | dsimp only)

theorem execOutletPhase_goes {s0 : State} (d : Dom) (ups : List Upset) (s : State) (h : Keeps s0 s) :
    Goes s0 (execOutletPhase d ups s) := by
  unfold execOutletPhase
  repeat (first
      | with_reducible assumption | (with_reducible refine goes_next ?_)
      | (with_reducible refine strike_keeps (h := ?_) ..) | (with_reducible refine outletOut_keeps (h := ?_) ..)
      | (with_reducible refine combErrors_keeps (h := ?_) ..)
      | (with_reducible refine outletBridges_keeps (h := ?_) ..) | split | dsimp only)

end Sys2Proof.Machine
end

