-- ==== Sys2Proof/Laws/KeepTick.lean ====
section
/-! SUPPORT. What every operation of Machine/Tick.lean keeps. -/

namespace Sys2Proof.Machine

theorem applyChange_keeps {s0 : State} (n : Nat) (c : Change) (s : State) (h : Keeps s0 s) :
    Keeps s0 (applyChange n c s) := by
  unfold applyChange
  repeat (first
      | with_reducible assumption | (with_reducible refine raise_keeps (h := ?_) ..)
      | (with_reducible refine applyMap_keeps (h := ?_) ..) | (with_reducible refine setBridge_keeps (h := ?_) ..)
      | (with_reducible refine setGen_keeps (h := ?_) ..) | (with_reducible refine belConfigNow_keeps (h := ?_) ..)
      | (with_reducible refine belLoopNow_keeps (h := ?_) ..)
      | (with_reducible refine belEnableNow_keeps (h := ?_) ..)
      | (with_reducible refine belMuteNow_keeps (h := ?_) ..)
      | (with_reducible refine belFaultClearNow_keeps (h := ?_) ..)
      | (with_reducible refine belPolicyNow_keeps (h := ?_) ..)
      | (with_reducible refine belMeasureNow_keeps (h := ?_) ..)
      | (with_reducible refine stoveOutNow_keeps (h := ?_) ..)
      | (with_reducible refine portEnableNow_keeps (h := ?_) ..)
      | (with_reducible refine groupEnableNow_keeps (h := ?_) ..)
      | (with_reducible refine slotMapNow_keeps (h := ?_) ..)
      | (with_reducible refine memPowerNow_keeps (h := ?_) ..)
      | (with_reducible refine ringStartNow_keeps (h := ?_) ..)
      | (with_reducible refine ringStopNow_keeps (h := ?_) ..)
      | (with_reducible refine releaseNow_keeps (h := ?_) ..)
      | (with_reducible refine toStandbyNow_keeps (h := ?_) ..)
      | (with_reducible refine toHearthNow_keeps (h := ?_) ..)
      | (with_reducible refine ianikReset_keeps (h := ?_) ..) | (with_reducible refine tryWake_keeps (h := ?_) ..)
      | (with_reducible refine systemReset_keeps (h := ?_) ..) | (with_reducible refine tuneNow_keeps (h := ?_) ..)
      | (with_reducible refine autoTuneNow_keeps (h := ?_) ..) | split | dsimp only
      | ((with_reducible refine keeps_mk ?_ ?_); rfl))

theorem applyPicked_keeps {s0 : State} (p : Change → Bool) (n : Nat) (s : State) (h : Keeps s0 s) :
    Keeps s0 (applyPicked p n s) := by
  unfold applyPicked
  repeat (first
      | with_reducible assumption | (with_reducible refine unstage_keeps (h := ?_) ..)
      | (with_reducible refine applyChange_keeps (h := ?_) ..) | (with_reducible refine keeps_foldl _ _ _ ?_ ?_)
      | split | dsimp only | (intro _ _ _))

theorem applyStaged_keeps {s0 : State} (n : Nat) (s : State) (h : Keeps s0 s) :
    Keeps s0 (applyStaged n s) := by
  unfold applyStaged
  repeat (first
      | with_reducible assumption | (with_reducible refine applyPicked_keeps (h := ?_) ..)
      | (with_reducible refine keeps_foldl _ _ _ ?_ ?_) | split | dsimp only | (intro _ _ _))

theorem endFrame_keeps {s0 : State} (d : Dom) (s : State) (h : Keeps s0 s) :
    Keeps s0 (endFrame d s) := by
  unfold endFrame
  repeat (first
      | with_reducible assumption | (with_reducible refine turnsBefore_keeps (h := ?_) ..) | (with_reducible refine modCell_keeps (h := ?_) ..)
      | (with_reducible refine keeps_foldl _ _ _ ?_ ?_) | split | dsimp only | (intro _ _ _))

theorem startFrame_keeps {s0 : State} (d : Dom) (s : State) (h : Keeps s0 s) :
    Keeps s0 (startFrame d s) := by
  unfold startFrame
  repeat (first
      | with_reducible assumption | (with_reducible refine modCell_keeps (h := ?_) ..)
      | (with_reducible refine keeps_foldl _ _ _ ?_ ?_) | split | dsimp only | (intro _ _ _))

theorem glideFrame_keeps {s0 : State} (d : Dom) (n : Nat) (s : State) (h : Keeps s0 s) :
    Keeps s0 (glideFrame d n s) := by
  unfold glideFrame
  repeat (first
      | with_reducible assumption | (with_reducible refine modCell_keeps (h := ?_) ..)
      | (with_reducible refine keeps_foldl _ _ _ ?_ ?_) | split | dsimp only | (intro _ _ _))

theorem combFrame_keeps {s0 : State} (d : Dom) (n : Nat) (s : State) (h : Keeps s0 s) :
    Keeps s0 (combFrame d n s) := by
  unfold combFrame
  repeat (first
      | with_reducible assumption | (with_reducible refine modComb_keeps (h := ?_) ..) | split | dsimp only)

theorem combCommits_keeps {s0 : State} (n : Nat) (s : State) (h : Keeps s0 s) :
    Keeps s0 (combCommits n s) := by
  unfold combCommits
  repeat (first
      | with_reducible assumption | (with_reducible refine commitTick_keeps (h := ?_) ..) | split | dsimp only)

theorem openFrame_keeps {s0 : State} (d : Dom) (s : State) (h : Keeps s0 s) :
    Keeps s0 (openFrame d s) := by
  unfold openFrame
  repeat (first
      | with_reducible assumption | (with_reducible refine intake_keeps (h := ?_) ..)
      | (with_reducible refine stepGens_keeps (h := ?_) ..) | split | dsimp only)

theorem ratesAt_keeps {s0 : State} (n : Nat) (s : State) (h : Keeps s0 s) :
    Keeps s0 (ratesAt n s) := by
  unfold ratesAt
  repeat (first
      | with_reducible assumption | (with_reducible refine rateTick_keeps (h := ?_) ..)
      | (with_reducible refine belRatio_keeps (h := ?_) ..)
      | (with_reducible refine stoveRetarget_keeps (h := ?_) ..) | split | dsimp only)

theorem hiveTick_keeps {s0 : State} (n : Nat) (s : State) (h : Keeps s0 s) :
    Keeps s0 (hiveTick n s) := by
  unfold hiveTick
  repeat (first
      | with_reducible assumption | (with_reducible refine endFrame_keeps (h := ?_) ..)
      | (with_reducible refine ratesAt_keeps (h := ?_) ..) | (with_reducible refine startFrame_keeps (h := ?_) ..)
      | (with_reducible refine raiseEv12_keeps (h := ?_) ..)
      | (with_reducible refine applyPicked_keeps (h := ?_) ..) | (with_reducible refine cellTick_keeps (h := ?_) ..)
      | (with_reducible refine glideFrame_keeps (h := ?_) ..)
      | (with_reducible refine combCommits_keeps (h := ?_) ..)
      | (with_reducible refine combFrame_keeps (h := ?_) ..)
      | (with_reducible refine streamsTick_keeps (h := ?_) ..)
      | (with_reducible refine openFrame_keeps (h := ?_) ..) | (with_reducible refine keeps_foldl _ _ _ ?_ ?_)
      | split | dsimp only | (intro _ _ _))

theorem bellowsTick_keeps {s0 : State} (n : Nat) (s : State) (h : Keeps s0 s) :
    Keeps s0 (bellowsTick n s) := by
  unfold bellowsTick
  repeat (first
      | with_reducible assumption | (with_reducible refine belTickF_keeps (h := ?_) ..)
      | (with_reducible refine belTickM_keeps (h := ?_) ..) | (with_reducible refine drvTick_keeps (h := ?_) ..)
      | (with_reducible refine heldRestart_keeps (h := ?_) ..) | split | dsimp only)

theorem lcTick_keeps {s0 : State} (s : State) (h : Keeps s0 s) :
    Keeps s0 (lcTick s) := by
  unfold lcTick
  repeat (first
      | with_reducible assumption | (with_reducible refine tryWake_keeps (h := ?_) ..)
      | (with_reducible refine systemReset_keeps (h := ?_) ..) | split | dsimp only)

theorem countFrame_keeps {s0 : State} (s : State) (h : Keeps s0 s) :
    Keeps s0 (countFrame s) := by
  unfold countFrame
  repeat (first
      | with_reducible assumption | (with_reducible refine modDom_keeps (h := ?_) ..) | split | dsimp only
      | ((with_reducible refine keeps_mk ?_ ?_); rfl))

theorem islandTicks_keeps {s0 : State} (n : Nat) (s : State) (h : Keeps s0 s) :
    Keeps s0 (islandTicks n s) := by
  unfold islandTicks
  repeat (first
      | with_reducible assumption | (with_reducible refine bootTuneTick_keeps (h := ?_) ..) | (with_reducible refine unstage_keeps (h := ?_) ..) | (with_reducible refine hiveTick_keeps (h := ?_) ..)
      | (with_reducible refine applyPicked_keeps (h := ?_) ..) | (with_reducible refine ratesAt_keeps (h := ?_) ..)
      | (with_reducible refine bellowsTick_keeps (h := ?_) ..)
      | (with_reducible refine portsTick_keeps (h := ?_) ..) | (with_reducible refine hwTick_keeps (h := ?_) ..)
      | (with_reducible refine lcTick_keeps (h := ?_) ..) | (with_reducible refine routineTick_keeps (h := ?_) ..)
      | (with_reducible refine tuneTick_keeps (h := ?_) ..) | split | dsimp only)

theorem execMFrameTick_goes {s0 : State} (ups : List Upset) (s : State) (h : Keeps s0 s) :
    Goes s0 (execMFrameTick ups s) := by
  unfold execMFrameTick
  repeat (first
      | with_reducible assumption | (with_reducible refine hostReads_keeps (h := ?_) ..) | (with_reducible refine freeFlush_keeps (h := ?_) ..) | (with_reducible refine goes_next ?_)
      | (with_reducible refine strike_keeps (h := ?_) ..) | (with_reducible refine shakesDone_keeps (h := ?_) ..)
      | (with_reducible refine countFrame_keeps (h := ?_) ..)
      | (with_reducible refine hwLinesEnd_keeps (h := ?_) ..) | (with_reducible refine bootRates_keeps (h := ?_) ..)
      | (with_reducible refine applyStaged_keeps (h := ?_) ..)
      | (with_reducible refine regionForced_keeps (h := ?_) ..)
      | (with_reducible refine islandTicks_keeps (h := ?_) ..) | split | dsimp only)

theorem hiveTickF_keeps {s0 : State} (n : Nat) (x2 : Nat) (s : State) (h : Keeps s0 s) :
    Keeps s0 (hiveTickF n x2 s) := by
  unfold hiveTickF
  repeat (first
      | with_reducible assumption | (with_reducible refine endFrame_keeps (h := ?_) ..)
      | (with_reducible refine modDom_keeps (h := ?_) ..) | (with_reducible refine glideFrame_keeps (h := ?_) ..)
      | (with_reducible refine startFrame_keeps (h := ?_) ..) | (with_reducible refine openFrame_keeps (h := ?_) ..)
      | (with_reducible refine modComb_keeps (h := ?_) ..) | split | dsimp only)

theorem execFFrameTick_goes {s0 : State} (ups : List Upset) (s : State) (h : Keeps s0 s) :
    Goes s0 (execFFrameTick ups s) := by
  unfold execFFrameTick
  repeat (first
      | with_reducible assumption | (with_reducible refine goes_next ?_)
      | (with_reducible refine strike_keeps (h := ?_) ..) | (with_reducible refine hwLines_keeps (h := ?_) ..)
      | (with_reducible refine hiveTickF_keeps (h := ?_) ..) | (with_reducible refine modDom_keeps (h := ?_) ..)
      | (with_reducible refine hwTickF_keeps (h := ?_) ..) | (with_reducible refine belTickF_keeps (h := ?_) ..)
      | split | dsimp only)

end Sys2Proof.Machine
end

