-- ==== Sys2Proof/Laws/KeepStrobe.lean ====
section
/-! SUPPORT. What every operation of Machine/Strobe.lean keeps. -/

namespace Sys2Proof.Machine

theorem allKeep_append {a b : List CmdDef} (ha : ∀ d ∈ a, CmdKeeps d) (hb : ∀ d ∈ b, CmdKeeps d) :
    ∀ d ∈ a ++ b, CmdKeeps d := fun d hd => (List.mem_append.1 hd).elim (ha d) (hb d)
theorem sysTable_keeps : ∀ d ∈ sysTable, CmdKeeps d := by
  simp only [sysTable, List.forall_mem_cons, List.not_mem_nil, false_implies, implies_true, and_true]
  exact ⟨sysInfoDef_keeps, sysHelloDef_keeps, sysPowerDef_keeps, sysLoopbackDef_keeps, sysPresenceDef_keeps, sysResetDef_keeps, sysWatchdogDef_keeps⟩
theorem cellTable_keeps : ∀ d ∈ cellTable, CmdKeeps d := by
  simp only [cellTable, List.forall_mem_cons, List.not_mem_nil, false_implies, implies_true, and_true]
  exact ⟨cellInfoDef_keeps, cellRoleSetDef_keeps, cellProgWriteDef_keeps, cellProgMetaDef_keeps, cellCoefWriteDef_keeps, cellBankSwapDef_keeps, cellGlideSetDef_keeps, cellGroupCommitDef_keeps, cellStatusDef_keeps, cellFaultClearDef_keeps, cellFaultPolicyDef_keeps, cellMemReadDef_keeps, cellImageLoadDef_keeps⟩
theorem combTable_keeps : ∀ d ∈ combTable, CmdKeeps d := by
  simp only [combTable, List.forall_mem_cons, List.not_mem_nil, false_implies, implies_true, and_true]
  exact ⟨combInfoDef_keeps, combMapSetDef_keeps, combMapGetDef_keeps, combStageDef_keeps, combStageBulkDef_keeps, combCommitDef_keeps, combStageDiscardDef_keeps, combGainReadDef_keeps, combStatusDef_keeps, chimneyStatusDef_keeps⟩
theorem domTable_keeps : ∀ d ∈ domTable, CmdKeeps d := by
  simp only [domTable, List.forall_mem_cons, List.not_mem_nil, false_implies, implies_true, and_true]
  exact ⟨domainInfoDef_keeps, domainSetDef_keeps, bridgeModeSetDef_keeps, bridgeStatusDef_keeps, testgenSetDef_keeps⟩
theorem belTable_keeps : ∀ d ∈ belTable, CmdKeeps d := by
  simp only [belTable, List.forall_mem_cons, List.not_mem_nil, false_implies, implies_true, and_true]
  exact ⟨belInfoDef_keeps, belConfigDef_keeps, belLoopSetDef_keeps, belEnableDef_keeps, belMuteDef_keeps, belCarrierSetDef_keeps, belStatusDef_keeps, belFaultClearDef_keeps, belFaultPolicyDef_keeps, belMeasureZDef_keeps⟩
theorem stkrTable_keeps : ∀ d ∈ stkrTable, CmdKeeps d := by
  simp only [stkrTable, List.forall_mem_cons, List.not_mem_nil, false_implies, implies_true, and_true]
  exact ⟨stoveInfoDef_keeps, stkrRefConfigDef_keeps, stkrModeSetDef_keeps, stkrSelectDef_keeps, stkrStatusDef_keeps, stkrRefStatusDef_keeps, stoveOutSetDef_keeps, stkrSwConfigDef_keeps, stkrEmberReadDef_keeps⟩
theorem portTable_keeps : ∀ d ∈ portTable, CmdKeeps d := by
  simp only [portTable, List.forall_mem_cons, List.not_mem_nil, false_implies, implies_true, and_true]
  exact ⟨portInfoDef_keeps, portConfigDef_keeps, portEnableDef_keeps, portGroupSetDef_keeps, portStatusDef_keeps, portClearDef_keeps⟩
theorem hwTable_keeps : ∀ d ∈ hwTable, CmdKeeps d := by
  simp only [hwTable, List.forall_mem_cons, List.not_mem_nil, false_implies, implies_true, and_true]
  exact ⟨hwInfoDef_keeps, hwChainConfigDef_keeps, hwWalkDef_keeps, hwNodeInfoDef_keeps, hwSlotMapDef_keeps, hwNodeXactDef_keeps, hwStatusDef_keeps, hwClearDef_keeps, hwPartnerSetDef_keeps⟩
theorem dmprTable_keeps : ∀ d ∈ dmprTable, CmdKeeps d := by
  simp only [dmprTable, List.forall_mem_cons, List.not_mem_nil, false_implies, implies_true, and_true]
  exact ⟨dmprInfoDef_keeps, dmprSupplyConfigDef_keeps, dmprCrankCurveDef_keeps, dmprOutConfigDef_keeps, dmprLineConfigDef_keeps, dmprStatusDef_keeps, dmprClearDef_keeps, dmprEnergyReadDef_keeps⟩
theorem memTable_keeps : ∀ d ∈ memTable, CmdKeeps d := by
  simp only [memTable, List.forall_mem_cons, List.not_mem_nil, false_implies, implies_true, and_true]
  exact ⟨memInfoDef_keeps, memPowerSetDef_keeps, memEccStatusDef_keeps, memErrReadDef_keeps, memPatrolSetDef_keeps, memPatrolStatusDef_keeps, vaultWipeDef_keeps, vaultStatusDef_keeps, memClearDef_keeps⟩
theorem pspTable_keeps : ∀ d ∈ pspTable, CmdKeeps d := by
  simp only [pspTable, List.forall_mem_cons, List.not_mem_nil, false_implies, implies_true, and_true]
  exact ⟨pspInfoDef_keeps, pspDevConfigDef_keeps, pspXferDef_keeps, fgrRingConfigDef_keeps, fgrDescPushDef_keeps, fgrRingEnableDef_keeps, fgrStatusDef_keeps, fgrClearDef_keeps, pspStatusDef_keeps⟩
theorem bootTable_keeps : ∀ d ∈ bootTable, CmdKeeps d := by
  simp only [bootTable, List.forall_mem_cons, List.not_mem_nil, false_implies, implies_true, and_true]
  exact ⟨bootInfoDef_keeps, imgUpdateBeginDef_keeps, imgUpdateWriteDef_keeps, imgUpdateEndDef_keeps, imgConfirmDef_keeps, tuneLoadDef_keeps, imgMeasExtendDef_keeps, lcAdvanceDef_keeps, keyRevokeDef_keeps, bootRecoveryBeginDef_keeps, bootPushDef_keeps⟩
theorem svcTable_keeps : ∀ d ∈ svcTable, CmdKeeps d := by
  simp only [svcTable, List.forall_mem_cons, List.not_mem_nil, false_implies, implies_true, and_true]
  exact ⟨svcFaultReadDef_keeps, svcFaultClearDef_keeps, svcSpkTestDef_keeps, svcDcOffsetDef_keeps, svcMicLoopDef_keeps, svcLineHealthDef_keeps, svcCaptureReadDef_keeps, svcAbortDef_keeps⟩
theorem evtTable_keeps : ∀ d ∈ evtTable, CmdKeeps d := by
  simp only [evtTable, List.forall_mem_cons, List.not_mem_nil, false_implies, implies_true, and_true]
  exact ⟨evtInfoDef_keeps, evtCountReadDef_keeps, evtCountClearDef_keeps, evtRingConfigDef_keeps, evtTraceMarkDef_keeps⟩
theorem cmdOf_keeps {op : Nat} {d : CmdDef} (h : cmdOf op = some d) : CmdKeeps d :=
  (allKeep_append (allKeep_append (allKeep_append (allKeep_append (allKeep_append (allKeep_append (allKeep_append (allKeep_append (allKeep_append (allKeep_append (allKeep_append (allKeep_append (allKeep_append sysTable_keeps cellTable_keeps) combTable_keeps) domTable_keeps) belTable_keeps) stkrTable_keeps) portTable_keeps) hwTable_keeps) dmprTable_keeps) memTable_keeps) pspTable_keeps) bootTable_keeps) svcTable_keeps) evtTable_keeps) d (List.mem_of_find?_eq_some h)
theorem tunCleared_keeps {s0 : State} (m : Fin 4) (s : State) (h : Keeps s0 s) : Keeps s0 (tunCleared m s) := by
  unfold tunCleared
  split
  · exact keeps_mk rfl h
  · exact h

theorem sampleRung_keeps {s0 : State} (x1 : Fin 4) (x2 : State) (h : Keeps s0 x2) : Keeps s0 (sampleRung x1 x2) := by
  have hc := tunCleared_keeps x1 _ (cmdErrs_keeps x1 (readReq x1 x2).2 x2 h)
  unfold sampleRung
  dsimp only
  split
  · exact answer_keeps _ _ _ _ _ _ _ hc
  · split
    · exact answer_keeps _ _ _ _ _ _ _ hc
    · rename_i d hd
      have hk := cmdOf_keeps hd
      split
      · exact answer_keeps _ _ _ _ _ _ _ (hk.refused _ _ _ hc)
      · exact sample_keeps _ hk _ _ _ hc

theorem strobeReset_keeps {s0 : State} (s : State) (h : Keeps s0 s) :
    Keeps s0 (strobeReset s) := by
  unfold strobeReset
  repeat (first
      | with_reducible assumption | (with_reducible refine mbxFails_keeps (h := ?_) ..)
      | (with_reducible refine keeps_foldl _ _ _ ?_ ?_) | split | dsimp only | (intro _ _ _))

theorem strobeServed_keeps {s0 : State} (s : State) (h : Keeps s0 s) :
    Keeps s0 (strobeServed s) := by
  unfold strobeServed
  repeat (first
      | with_reducible assumption | (with_reducible refine mbxFails_keeps (h := ?_) ..)
      | (with_reducible refine sampleRung_keeps (h := ?_) ..) | (with_reducible refine keeps_foldl _ _ _ ?_ ?_)
      | split | dsimp only | (intro _ _ _))

theorem undoPart_keeps {s0 : State} (s : State) (c : Stamped) (h : Keeps s0 s) :
    Keeps s0 (undoPart s c) := by
  unfold undoPart
  repeat (first
      | with_reducible assumption | (with_reducible refine commitGone_keeps (h := ?_) ..) | (with_reducible refine releaseHeld_keeps (h := ?_) ..)
      | (with_reducible refine modComb_keeps (h := ?_) ..) | (with_reducible refine modCell_keeps (h := ?_) ..)
      | (with_reducible refine jobEnds_keeps (h := ?_) ..) | (with_reducible refine dropMap_keeps (h := ?_) ..)
      | ((with_reducible refine modP0_keeps _ _ ?_ ?_); (first | exact id | exact progFlash_wf _ _ _ | exact eraseFlash_wf _ _ _ | exact progFlashs_wf _ _ _))
      | (with_reducible refine keeps_foldl _ _ _ ?_ ?_) | split | dsimp only | (intro _ _ _)
      | ((with_reducible refine keeps_mk ?_ ?_); rfl)
      | ((with_reducible refine keeps_pow ?_ ?_ ?_ ?_); rfl; (first | exact id | exact safeHeld_rst _ _ | exact safeHeld_hive _ | exact safeHeld_hw _ _ | exact safeHeld_bel _ | exact fun _ h => nomatch h); rfl))

theorem responseLost_keeps {s0 : State} (k : CmdKey) (s : State) (h : Keeps s0 s) : Keeps s0 (responseLost k s) := by
  unfold responseLost
  refine keeps_mbx _ _ (fun i b hb => ?_) (keeps_foldl _ _ _ (fun s p hs => raiseIf_keeps _ _ _ _ (keeps_mk rfl hs)) h)
  split
  · exact hb
  · exact hb

theorem deferredLost_keeps {s0 : State} (s : State) (c : Stamped) (h : Keeps s0 s) :
    Keeps s0 (deferredLost s c) := by
  unfold deferredLost
  repeat (first
      | with_reducible assumption | (with_reducible refine complete_keeps (h := ?_) ..)
      | (with_reducible refine keeps_foldl _ _ _ ?_ ?_) | split | dsimp only | (intro _ _ _))

theorem withdraw_keeps {s0 : State} (lost : List CmdKey) (s : State) (h : Keeps s0 s) : Keeps s0 (withdraw lost s) := by
  unfold withdraw
  refine refill_keeps _ _ ?_
  refine keeps_foldl _ _ _ (fun s a hs => undoPart_keeps _ _ hs) ?_
  refine keeps_foldl _ _ _ (fun s a hs => entryLost_keeps _ _ hs) ?_
  refine keeps_foldl _ _ _ (fun s a hs => deferredLost_keeps _ _ hs) ?_
  refine keeps_foldl _ _ _ (fun s a hs => responseLost_keeps _ _ hs) ?_
  exact unstage_keeps _ _ (keeps_mk rfl h)

theorem strobePosts_keeps {s0 : State} (s : State) (h : Keeps s0 s) :
    Keeps s0 (strobePosts s) := by
  unfold strobePosts
  repeat (first
      | with_reducible assumption | (with_reducible refine tunnelPosted_keeps (h := ?_) ..)
      | (with_reducible refine post_keeps (h := ?_) ..) | (with_reducible refine keeps_foldl _ _ _ ?_ ?_) | split
      | dsimp only | (intro _ _ _))

theorem strobeThermal_keeps {s0 : State} (s : State) (h : Keeps s0 s) :
    Keeps s0 (strobeThermal s) := by
  unfold strobeThermal
  repeat (first
      | with_reducible assumption | (with_reducible refine stageOwn_keeps (h := ?_) ..) | split | dsimp only
      | ((with_reducible refine keeps_mk ?_ ?_); rfl))

theorem strobeIanik_keeps {s0 : State} (s : State) (h : Keeps s0 s) : Keeps s0 (strobeIanik s) := by
  have hs := strobeServed_keeps _ (readTail_keeps s h)
  unfold strobeIanik
  dsimp only
  split
  · exact strobeThermal_keeps _ (hwStrobe_keeps _ _ _ (hwStrobe_keeps _ _ _ hs))
  · exact strobeThermal_keeps _ (hwStrobe_keeps _ _ _ (hwStrobe_keeps _ _ _ (withdraw_keeps _ _ hs)))

theorem execDoorbellStrobe_goes {s0 : State} (s : State) (h : Keeps s0 s) :
    Goes s0 (execDoorbellStrobe s) := by
  unfold execDoorbellStrobe
  repeat (first
      | with_reducible assumption | (with_reducible refine modCare_keeps (h := ?_) ..) | (with_reducible refine goes_next ?_)
      | (with_reducible refine strobePosts_keeps (h := ?_) ..)
      | (with_reducible refine strobeReset_keeps (h := ?_) ..)
      | (with_reducible refine strobeIanik_keeps (h := ?_) ..) | split | dsimp only | ((with_reducible refine keeps_mk ?_ ?_); rfl))

theorem shakeLost_keeps {s0 : State} (dst : Nat) (s : State) (h : Keeps s0 s) : Keeps s0 (shakeLost dst s) :=
  keeps_mk rfl (drawWord_keeps s h)

theorem messageLost_keeps {s0 : State} (s : State) (h : Keeps s0 s) : Keeps s0 (messageLost s) := by
  unfold messageLost
  split
  · exact withdraw_keeps _ _ h
  · dsimp only
    split
    · exact withdraw_keeps _ _ (queueArrive_keeps _ _ (keeps_mk rfl (drawWord_keeps s h)))
    · exact withdraw_keeps _ _ (drawWord_keeps s h)
  · exact h

theorem xactLost_keeps {s0 : State} (x1 : Fin 2) (s : State) (h : Keeps s0 s) :
    Keeps s0 (xactLost x1 s) := by
  unfold xactLost
  repeat (first
      | with_reducible assumption | (with_reducible refine xactEnds_keeps (h := ?_) ..)
      | (with_reducible refine modHw_keeps (h := ?_) ..) | split | dsimp only)

theorem execCrossingTimeout_goes {s0 : State} (src dst : Fin 26) (s : State) (h : Keeps s0 s) :
    Goes s0 (execCrossingTimeout src dst s) := by
  have hr (f : FaultRec) (hf : f.log = s.flt.log) (d : BitVec 16) :
      Keeps s0 (logFault 0x0A d (raiseFrom src 52 (crossingWord src dst) { s with flt := f })) :=
    logFault_keeps _ _ _ (raiseFrom_keeps _ _ _ _ (by omega) rfl (keeps_mk (by rw [hf]) h))
  unfold execCrossingTimeout
  split
  · exact goes_next h
  · have hk := hr { s.flt with xto := true, xsrc := BitVec.ofNat 5 src, xdst := BitVec.ofNat 5 dst } rfl
      (BitVec.ofNat 16 (crossingWord src dst).toNat)
    dsimp only
    repeat (first
      | exact goes_next hk | exact goes_next (messageLost_keeps _ hk) | exact goes_next (xactLost_keeps _ _ hk)
      | exact goes_next (shakeLost_keeps _ _ hk) | split)

end Sys2Proof.Machine
end

