-- ==== Sys2Proof/Laws/KeepScan.lean ====
section
/-! SUPPORT. What every operation of Machine/Scan.lean keeps. -/

namespace Sys2Proof.Machine

theorem scanHold_keeps {s0 : State} (i : TapInstr) (s : State) (h : Keeps s0 s) :
    Keeps s0 (scanHold i s) := by
  unfold scanHold
  repeat (first
      | with_reducible assumption | (with_reducible refine systemReset_keeps (h := ?_) ..)
      | (with_reducible refine tryWake_keeps (h := ?_) ..) | split | dsimp only
      | ((with_reducible refine keeps_mk ?_ ?_); rfl))

theorem tapUpdate_keeps {s0 : State} (i : TapInstr) (s : State) (h : Keeps s0 s) :
    Keeps s0 (tapUpdate i s) := by
  unfold tapUpdate
  repeat (first
      | with_reducible assumption | (with_reducible refine scanHold_keeps (h := ?_) ..) | split | dsimp only
      | ((with_reducible refine keeps_mk ?_ ?_); rfl))

theorem loadBoundary_keeps {s0 : State} (bs : List Bool) (s : State) (h : Keeps s0 s) :
    Keeps s0 (loadBoundary bs s) := by
  unfold loadBoundary
  repeat (first
      | with_reducible assumption | split | dsimp only | ((with_reducible refine keeps_mk ?_ ?_); rfl))

theorem execTrstNLow_goes {s0 : State} (s : State) (h : Keeps s0 s) :
    Goes s0 (execTrstNLow s) := by
  unfold execTrstNLow
  repeat (first
      | with_reducible assumption | (with_reducible refine goes_next ?_)
      | (with_reducible refine tapUpdate_keeps (h := ?_) ..) | split | dsimp only)

theorem execTestLogicReset_goes {s0 : State} (s : State) (h : Keeps s0 s) :
    Goes s0 (execTestLogicReset s) := by
  unfold execTestLogicReset
  repeat (first
      | with_reducible assumption | (with_reducible refine goes_next ?_)
      | (with_reducible refine tapUpdate_keeps (h := ?_) ..) | split | dsimp only)

theorem execExtest_goes {s0 : State} (drive : List Bool) (s : State) (h : Keeps s0 s) :
    Goes s0 (execExtest drive s) := by
  unfold execExtest
  repeat (first
      | with_reducible assumption | (with_reducible refine goes_next ?_)
      | (with_reducible refine tapUpdate_keeps (h := ?_) ..)
      | (with_reducible refine loadBoundary_keeps (h := ?_) ..) | split | dsimp only)

theorem execIdcode_goes {s0 : State} (s : State) (h : Keeps s0 s) :
    Goes s0 (execIdcode s) := by
  unfold execIdcode
  repeat (first
      | with_reducible assumption | (with_reducible refine goes_next ?_)
      | (with_reducible refine tapUpdate_keeps (h := ?_) ..) | split | dsimp only)

theorem execSamplePreload_goes {s0 : State} (sampled : List Bool) (preload : List Bool) (s : State) (h : Keeps s0 s) :
    Goes s0 (execSamplePreload sampled preload s) := by
  unfold execSamplePreload
  repeat (first
      | with_reducible assumption | (with_reducible refine goes_next ?_)
      | (with_reducible refine loadBoundary_keeps (h := ?_) ..)
      | (with_reducible refine tapUpdate_keeps (h := ?_) ..) | split | dsimp only)

theorem execClamp_goes {s0 : State} (s : State) (h : Keeps s0 s) :
    Goes s0 (execClamp s) := by
  unfold execClamp
  repeat (first
      | with_reducible assumption | (with_reducible refine goes_next ?_)
      | (with_reducible refine tapUpdate_keeps (h := ?_) ..) | split | dsimp only)

theorem execHighz_goes {s0 : State} (s : State) (h : Keeps s0 s) :
    Goes s0 (execHighz s) := by
  unfold execHighz
  repeat (first
      | with_reducible assumption | (with_reducible refine goes_next ?_)
      | (with_reducible refine tapUpdate_keeps (h := ?_) ..) | split | dsimp only)

theorem execBypass_goes {s0 : State} (code : BitVec 4) (s : State) (h : Keeps s0 s) :
    Goes s0 (execBypass code s) := by
  unfold execBypass
  repeat (first
      | with_reducible assumption | (with_reducible refine goes_next ?_)
      | (with_reducible refine tapUpdate_keeps (h := ?_) ..) | split | dsimp only)

end Sys2Proof.Machine
end

