-- ==== Sys2Proof/Laws/State.lean ====
section
/-! SUPPORT. The fields of the state after each update of one part of it: the part is changed as the update says, and
every other field is as before. -/

namespace Sys2Proof.Machine

/-! ### raise -/

@[simp] theorem raise_evt (n : Nat) (d : Word) (s : State) :
    (raise n d s).evt = raiseEvt n d s.evt := rfl
@[simp] theorem raise_pending (n : Nat) (d : Word) (s : State) : (raise n d s).pending = s.pending := rfl
@[simp] theorem raise_fresh (n : Nat) (d : Word) (s : State) : (raise n d s).fresh = s.fresh := rfl
@[simp] theorem raise_pow (n : Nat) (d : Word) (s : State) : (raise n d s).pow = s.pow := rfl
@[simp] theorem raise_flt (n : Nat) (d : Word) (s : State) : (raise n d s).flt = s.flt := rfl
@[simp] theorem raise_keeper (n : Nat) (d : Word) (s : State) : (raise n d s).keeper = s.keeper := rfl
@[simp] theorem raise_hearth (n : Nat) (d : Word) (s : State) : (raise n d s).hearth = s.hearth := rfl
@[simp] theorem raise_scan (n : Nat) (d : Word) (s : State) : (raise n d s).scan = s.scan := rfl
@[simp] theorem raise_host (n : Nat) (d : Word) (s : State) : (raise n d s).host = s.host := rfl
@[simp] theorem raise_mbx (n : Nat) (d : Word) (s : State) : (raise n d s).mbx = s.mbx := rfl
@[simp] theorem raise_ram (n : Nat) (d : Word) (s : State) : (raise n d s).ram = s.ram := rfl
@[simp] theorem raise_ianik (n : Nat) (d : Word) (s : State) : (raise n d s).ianik = s.ianik := rfl
@[simp] theorem raise_hive (n : Nat) (d : Word) (s : State) : (raise n d s).hive = s.hive := rfl
@[simp] theorem raise_bel (n : Nat) (d : Word) (s : State) : (raise n d s).bel = s.bel := rfl
@[simp] theorem raise_stove (n : Nat) (d : Word) (s : State) : (raise n d s).stove = s.stove := rfl
@[simp] theorem raise_rx (n : Nat) (d : Word) (s : State) : (raise n d s).rx = s.rx := rfl
@[simp] theorem raise_tx (n : Nat) (d : Word) (s : State) : (raise n d s).tx = s.tx := rfl
@[simp] theorem raise_grps (n : Nat) (d : Word) (s : State) : (raise n d s).grps = s.grps := rfl
@[simp] theorem raise_hw (n : Nat) (d : Word) (s : State) : (raise n d s).hw = s.hw := rfl
@[simp] theorem raise_dmpr (n : Nat) (d : Word) (s : State) : (raise n d s).dmpr = s.dmpr := rfl
@[simp] theorem raise_care (n : Nat) (d : Word) (s : State) : (raise n d s).care = s.care := rfl
@[simp] theorem raise_p0 (n : Nat) (d : Word) (s : State) : (raise n d s).p0 = s.p0 := rfl
@[simp] theorem raise_boot (n : Nat) (d : Word) (s : State) : (raise n d s).boot = s.boot := rfl

/-! ### stage -/

@[simp] theorem stage_ianik (m : Nat) (t : BitVec 16) (e : Nat) (c : Change) (s : State) :
    (stage m t e c s).ianik = { s.ianik with staged := s.ianik.staged ++ [{ frame := e, chg := c, cmd := (m, s.stove.frame), tag := t, shake := if crossingTaken c s then .waits else .raised }] } := rfl
@[simp] theorem stage_pending (m : Nat) (t : BitVec 16) (e : Nat) (c : Change) (s : State) : (stage m t e c s).pending = s.pending := rfl
@[simp] theorem stage_fresh (m : Nat) (t : BitVec 16) (e : Nat) (c : Change) (s : State) : (stage m t e c s).fresh = s.fresh := rfl
@[simp] theorem stage_pow (m : Nat) (t : BitVec 16) (e : Nat) (c : Change) (s : State) : (stage m t e c s).pow = s.pow := rfl
@[simp] theorem stage_flt (m : Nat) (t : BitVec 16) (e : Nat) (c : Change) (s : State) : (stage m t e c s).flt = s.flt := rfl
@[simp] theorem stage_keeper (m : Nat) (t : BitVec 16) (e : Nat) (c : Change) (s : State) : (stage m t e c s).keeper = s.keeper := rfl
@[simp] theorem stage_hearth (m : Nat) (t : BitVec 16) (e : Nat) (c : Change) (s : State) : (stage m t e c s).hearth = s.hearth := rfl
@[simp] theorem stage_scan (m : Nat) (t : BitVec 16) (e : Nat) (c : Change) (s : State) : (stage m t e c s).scan = s.scan := rfl
@[simp] theorem stage_evt (m : Nat) (t : BitVec 16) (e : Nat) (c : Change) (s : State) : (stage m t e c s).evt = s.evt := rfl
@[simp] theorem stage_host (m : Nat) (t : BitVec 16) (e : Nat) (c : Change) (s : State) : (stage m t e c s).host = s.host := rfl
@[simp] theorem stage_mbx (m : Nat) (t : BitVec 16) (e : Nat) (c : Change) (s : State) : (stage m t e c s).mbx = s.mbx := rfl
@[simp] theorem stage_ram (m : Nat) (t : BitVec 16) (e : Nat) (c : Change) (s : State) : (stage m t e c s).ram = s.ram := rfl
@[simp] theorem stage_hive (m : Nat) (t : BitVec 16) (e : Nat) (c : Change) (s : State) : (stage m t e c s).hive = s.hive := rfl
@[simp] theorem stage_bel (m : Nat) (t : BitVec 16) (e : Nat) (c : Change) (s : State) : (stage m t e c s).bel = s.bel := rfl
@[simp] theorem stage_stove (m : Nat) (t : BitVec 16) (e : Nat) (c : Change) (s : State) : (stage m t e c s).stove = s.stove := rfl
@[simp] theorem stage_rx (m : Nat) (t : BitVec 16) (e : Nat) (c : Change) (s : State) : (stage m t e c s).rx = s.rx := rfl
@[simp] theorem stage_tx (m : Nat) (t : BitVec 16) (e : Nat) (c : Change) (s : State) : (stage m t e c s).tx = s.tx := rfl
@[simp] theorem stage_grps (m : Nat) (t : BitVec 16) (e : Nat) (c : Change) (s : State) : (stage m t e c s).grps = s.grps := rfl
@[simp] theorem stage_hw (m : Nat) (t : BitVec 16) (e : Nat) (c : Change) (s : State) : (stage m t e c s).hw = s.hw := rfl
@[simp] theorem stage_dmpr (m : Nat) (t : BitVec 16) (e : Nat) (c : Change) (s : State) : (stage m t e c s).dmpr = s.dmpr := rfl
@[simp] theorem stage_care (m : Nat) (t : BitVec 16) (e : Nat) (c : Change) (s : State) : (stage m t e c s).care = s.care := rfl
@[simp] theorem stage_p0 (m : Nat) (t : BitVec 16) (e : Nat) (c : Change) (s : State) : (stage m t e c s).p0 = s.p0 := rfl
@[simp] theorem stage_boot (m : Nat) (t : BitVec 16) (e : Nat) (c : Change) (s : State) : (stage m t e c s).boot = s.boot := rfl

/-! ### unstage -/

@[simp] theorem unstage_ianik (p : Stamped → Bool) (s : State) :
    (unstage p s).ianik = { s.ianik with staged := s.ianik.staged.filter (fun c => !p c) } := rfl
@[simp] theorem unstage_pending (p : Stamped → Bool) (s : State) : (unstage p s).pending = s.pending := rfl
@[simp] theorem unstage_fresh (p : Stamped → Bool) (s : State) : (unstage p s).fresh = s.fresh := rfl
@[simp] theorem unstage_pow (p : Stamped → Bool) (s : State) : (unstage p s).pow = s.pow := rfl
@[simp] theorem unstage_flt (p : Stamped → Bool) (s : State) : (unstage p s).flt = s.flt := rfl
@[simp] theorem unstage_keeper (p : Stamped → Bool) (s : State) : (unstage p s).keeper = s.keeper := rfl
@[simp] theorem unstage_hearth (p : Stamped → Bool) (s : State) : (unstage p s).hearth = s.hearth := rfl
@[simp] theorem unstage_scan (p : Stamped → Bool) (s : State) : (unstage p s).scan = s.scan := rfl
@[simp] theorem unstage_evt (p : Stamped → Bool) (s : State) : (unstage p s).evt = s.evt := rfl
@[simp] theorem unstage_host (p : Stamped → Bool) (s : State) : (unstage p s).host = s.host := rfl
@[simp] theorem unstage_mbx (p : Stamped → Bool) (s : State) : (unstage p s).mbx = s.mbx := rfl
@[simp] theorem unstage_ram (p : Stamped → Bool) (s : State) : (unstage p s).ram = s.ram := rfl
@[simp] theorem unstage_hive (p : Stamped → Bool) (s : State) : (unstage p s).hive = s.hive := rfl
@[simp] theorem unstage_bel (p : Stamped → Bool) (s : State) : (unstage p s).bel = s.bel := rfl
@[simp] theorem unstage_stove (p : Stamped → Bool) (s : State) : (unstage p s).stove = s.stove := rfl
@[simp] theorem unstage_rx (p : Stamped → Bool) (s : State) : (unstage p s).rx = s.rx := rfl
@[simp] theorem unstage_tx (p : Stamped → Bool) (s : State) : (unstage p s).tx = s.tx := rfl
@[simp] theorem unstage_grps (p : Stamped → Bool) (s : State) : (unstage p s).grps = s.grps := rfl
@[simp] theorem unstage_hw (p : Stamped → Bool) (s : State) : (unstage p s).hw = s.hw := rfl
@[simp] theorem unstage_dmpr (p : Stamped → Bool) (s : State) : (unstage p s).dmpr = s.dmpr := rfl
@[simp] theorem unstage_care (p : Stamped → Bool) (s : State) : (unstage p s).care = s.care := rfl
@[simp] theorem unstage_p0 (p : Stamped → Bool) (s : State) : (unstage p s).p0 = s.p0 := rfl
@[simp] theorem unstage_boot (p : Stamped → Bool) (s : State) : (unstage p s).boot = s.boot := rfl

/-! ### defer -/

@[simp] theorem defer_ianik (op m : Nat) (t : BitVec 16) (b : Option (Nat × Nat)) (s : State) :
    (defer op m t b s).ianik = { s.ianik with deferred := s.ianik.deferred ++ [⟨BitVec.ofNat 16 op, m, t, b⟩] } := rfl
@[simp] theorem defer_pending (op m : Nat) (t : BitVec 16) (b : Option (Nat × Nat)) (s : State) : (defer op m t b s).pending = s.pending := rfl
@[simp] theorem defer_fresh (op m : Nat) (t : BitVec 16) (b : Option (Nat × Nat)) (s : State) : (defer op m t b s).fresh = s.fresh := rfl
@[simp] theorem defer_pow (op m : Nat) (t : BitVec 16) (b : Option (Nat × Nat)) (s : State) : (defer op m t b s).pow = s.pow := rfl
@[simp] theorem defer_flt (op m : Nat) (t : BitVec 16) (b : Option (Nat × Nat)) (s : State) : (defer op m t b s).flt = s.flt := rfl
@[simp] theorem defer_keeper (op m : Nat) (t : BitVec 16) (b : Option (Nat × Nat)) (s : State) : (defer op m t b s).keeper = s.keeper := rfl
@[simp] theorem defer_hearth (op m : Nat) (t : BitVec 16) (b : Option (Nat × Nat)) (s : State) : (defer op m t b s).hearth = s.hearth := rfl
@[simp] theorem defer_scan (op m : Nat) (t : BitVec 16) (b : Option (Nat × Nat)) (s : State) : (defer op m t b s).scan = s.scan := rfl
@[simp] theorem defer_evt (op m : Nat) (t : BitVec 16) (b : Option (Nat × Nat)) (s : State) : (defer op m t b s).evt = s.evt := rfl
@[simp] theorem defer_host (op m : Nat) (t : BitVec 16) (b : Option (Nat × Nat)) (s : State) : (defer op m t b s).host = s.host := rfl
@[simp] theorem defer_mbx (op m : Nat) (t : BitVec 16) (b : Option (Nat × Nat)) (s : State) : (defer op m t b s).mbx = s.mbx := rfl
@[simp] theorem defer_ram (op m : Nat) (t : BitVec 16) (b : Option (Nat × Nat)) (s : State) : (defer op m t b s).ram = s.ram := rfl
@[simp] theorem defer_hive (op m : Nat) (t : BitVec 16) (b : Option (Nat × Nat)) (s : State) : (defer op m t b s).hive = s.hive := rfl
@[simp] theorem defer_bel (op m : Nat) (t : BitVec 16) (b : Option (Nat × Nat)) (s : State) : (defer op m t b s).bel = s.bel := rfl
@[simp] theorem defer_stove (op m : Nat) (t : BitVec 16) (b : Option (Nat × Nat)) (s : State) : (defer op m t b s).stove = s.stove := rfl
@[simp] theorem defer_rx (op m : Nat) (t : BitVec 16) (b : Option (Nat × Nat)) (s : State) : (defer op m t b s).rx = s.rx := rfl
@[simp] theorem defer_tx (op m : Nat) (t : BitVec 16) (b : Option (Nat × Nat)) (s : State) : (defer op m t b s).tx = s.tx := rfl
@[simp] theorem defer_grps (op m : Nat) (t : BitVec 16) (b : Option (Nat × Nat)) (s : State) : (defer op m t b s).grps = s.grps := rfl
@[simp] theorem defer_hw (op m : Nat) (t : BitVec 16) (b : Option (Nat × Nat)) (s : State) : (defer op m t b s).hw = s.hw := rfl
@[simp] theorem defer_dmpr (op m : Nat) (t : BitVec 16) (b : Option (Nat × Nat)) (s : State) : (defer op m t b s).dmpr = s.dmpr := rfl
@[simp] theorem defer_care (op m : Nat) (t : BitVec 16) (b : Option (Nat × Nat)) (s : State) : (defer op m t b s).care = s.care := rfl
@[simp] theorem defer_p0 (op m : Nat) (t : BitVec 16) (b : Option (Nat × Nat)) (s : State) : (defer op m t b s).p0 = s.p0 := rfl
@[simp] theorem defer_boot (op m : Nat) (t : BitVec 16) (b : Option (Nat × Nat)) (s : State) : (defer op m t b s).boot = s.boot := rfl

/-! ### healWord -/

@[simp] theorem healWord_care (w : WordAt) (s : State) :
    (healWord w s).care = { s.care with upsets := s.care.upsets.filter (fun u => decide (u.word ≠ w)) } := rfl
@[simp] theorem healWord_pending (w : WordAt) (s : State) : (healWord w s).pending = s.pending := rfl
@[simp] theorem healWord_fresh (w : WordAt) (s : State) : (healWord w s).fresh = s.fresh := rfl
@[simp] theorem healWord_pow (w : WordAt) (s : State) : (healWord w s).pow = s.pow := rfl
@[simp] theorem healWord_flt (w : WordAt) (s : State) : (healWord w s).flt = s.flt := rfl
@[simp] theorem healWord_keeper (w : WordAt) (s : State) : (healWord w s).keeper = s.keeper := rfl
@[simp] theorem healWord_hearth (w : WordAt) (s : State) : (healWord w s).hearth = s.hearth := rfl
@[simp] theorem healWord_scan (w : WordAt) (s : State) : (healWord w s).scan = s.scan := rfl
@[simp] theorem healWord_evt (w : WordAt) (s : State) : (healWord w s).evt = s.evt := rfl
@[simp] theorem healWord_host (w : WordAt) (s : State) : (healWord w s).host = s.host := rfl
@[simp] theorem healWord_mbx (w : WordAt) (s : State) : (healWord w s).mbx = s.mbx := rfl
@[simp] theorem healWord_ram (w : WordAt) (s : State) : (healWord w s).ram = s.ram := rfl
@[simp] theorem healWord_ianik (w : WordAt) (s : State) : (healWord w s).ianik = s.ianik := rfl
@[simp] theorem healWord_hive (w : WordAt) (s : State) : (healWord w s).hive = s.hive := rfl
@[simp] theorem healWord_bel (w : WordAt) (s : State) : (healWord w s).bel = s.bel := rfl
@[simp] theorem healWord_stove (w : WordAt) (s : State) : (healWord w s).stove = s.stove := rfl
@[simp] theorem healWord_rx (w : WordAt) (s : State) : (healWord w s).rx = s.rx := rfl
@[simp] theorem healWord_tx (w : WordAt) (s : State) : (healWord w s).tx = s.tx := rfl
@[simp] theorem healWord_grps (w : WordAt) (s : State) : (healWord w s).grps = s.grps := rfl
@[simp] theorem healWord_hw (w : WordAt) (s : State) : (healWord w s).hw = s.hw := rfl
@[simp] theorem healWord_dmpr (w : WordAt) (s : State) : (healWord w s).dmpr = s.dmpr := rfl
@[simp] theorem healWord_p0 (w : WordAt) (s : State) : (healWord w s).p0 = s.p0 := rfl
@[simp] theorem healWord_boot (w : WordAt) (s : State) : (healWord w s).boot = s.boot := rfl

/-! ### forget -/

@[simp] theorem forget_care (p : WordAt → Bool) (s : State) :
    (forget p s).care = { s.care with upsets := s.care.upsets.filter (fun u => !p u.word) } := rfl
@[simp] theorem forget_pending (p : WordAt → Bool) (s : State) : (forget p s).pending = s.pending := rfl
@[simp] theorem forget_fresh (p : WordAt → Bool) (s : State) : (forget p s).fresh = s.fresh := rfl
@[simp] theorem forget_pow (p : WordAt → Bool) (s : State) : (forget p s).pow = s.pow := rfl
@[simp] theorem forget_flt (p : WordAt → Bool) (s : State) : (forget p s).flt = s.flt := rfl
@[simp] theorem forget_keeper (p : WordAt → Bool) (s : State) : (forget p s).keeper = s.keeper := rfl
@[simp] theorem forget_hearth (p : WordAt → Bool) (s : State) : (forget p s).hearth = s.hearth := rfl
@[simp] theorem forget_scan (p : WordAt → Bool) (s : State) : (forget p s).scan = s.scan := rfl
@[simp] theorem forget_evt (p : WordAt → Bool) (s : State) : (forget p s).evt = s.evt := rfl
@[simp] theorem forget_host (p : WordAt → Bool) (s : State) : (forget p s).host = s.host := rfl
@[simp] theorem forget_mbx (p : WordAt → Bool) (s : State) : (forget p s).mbx = s.mbx := rfl
@[simp] theorem forget_ram (p : WordAt → Bool) (s : State) : (forget p s).ram = s.ram := rfl
@[simp] theorem forget_ianik (p : WordAt → Bool) (s : State) : (forget p s).ianik = s.ianik := rfl
@[simp] theorem forget_hive (p : WordAt → Bool) (s : State) : (forget p s).hive = s.hive := rfl
@[simp] theorem forget_bel (p : WordAt → Bool) (s : State) : (forget p s).bel = s.bel := rfl
@[simp] theorem forget_stove (p : WordAt → Bool) (s : State) : (forget p s).stove = s.stove := rfl
@[simp] theorem forget_rx (p : WordAt → Bool) (s : State) : (forget p s).rx = s.rx := rfl
@[simp] theorem forget_tx (p : WordAt → Bool) (s : State) : (forget p s).tx = s.tx := rfl
@[simp] theorem forget_grps (p : WordAt → Bool) (s : State) : (forget p s).grps = s.grps := rfl
@[simp] theorem forget_hw (p : WordAt → Bool) (s : State) : (forget p s).hw = s.hw := rfl
@[simp] theorem forget_dmpr (p : WordAt → Bool) (s : State) : (forget p s).dmpr = s.dmpr := rfl
@[simp] theorem forget_p0 (p : WordAt → Bool) (s : State) : (forget p s).p0 = s.p0 := rfl
@[simp] theorem forget_boot (p : WordAt → Bool) (s : State) : (forget p s).boot = s.boot := rfl

/-! ### modCell -/

@[simp] theorem modCell_hive (c : Fin 32) (f : Cell → Cell) (s : State) :
    (modCell c f s).hive = { s.hive with cells := vmod s.hive.cells c f } := rfl
@[simp] theorem modCell_pending (c : Fin 32) (f : Cell → Cell) (s : State) : (modCell c f s).pending = s.pending := rfl
@[simp] theorem modCell_fresh (c : Fin 32) (f : Cell → Cell) (s : State) : (modCell c f s).fresh = s.fresh := rfl
@[simp] theorem modCell_pow (c : Fin 32) (f : Cell → Cell) (s : State) : (modCell c f s).pow = s.pow := rfl
@[simp] theorem modCell_flt (c : Fin 32) (f : Cell → Cell) (s : State) : (modCell c f s).flt = s.flt := rfl
@[simp] theorem modCell_keeper (c : Fin 32) (f : Cell → Cell) (s : State) : (modCell c f s).keeper = s.keeper := rfl
@[simp] theorem modCell_hearth (c : Fin 32) (f : Cell → Cell) (s : State) : (modCell c f s).hearth = s.hearth := rfl
@[simp] theorem modCell_scan (c : Fin 32) (f : Cell → Cell) (s : State) : (modCell c f s).scan = s.scan := rfl
@[simp] theorem modCell_evt (c : Fin 32) (f : Cell → Cell) (s : State) : (modCell c f s).evt = s.evt := rfl
@[simp] theorem modCell_host (c : Fin 32) (f : Cell → Cell) (s : State) : (modCell c f s).host = s.host := rfl
@[simp] theorem modCell_mbx (c : Fin 32) (f : Cell → Cell) (s : State) : (modCell c f s).mbx = s.mbx := rfl
@[simp] theorem modCell_ram (c : Fin 32) (f : Cell → Cell) (s : State) : (modCell c f s).ram = s.ram := rfl
@[simp] theorem modCell_ianik (c : Fin 32) (f : Cell → Cell) (s : State) : (modCell c f s).ianik = s.ianik := rfl
@[simp] theorem modCell_bel (c : Fin 32) (f : Cell → Cell) (s : State) : (modCell c f s).bel = s.bel := rfl
@[simp] theorem modCell_stove (c : Fin 32) (f : Cell → Cell) (s : State) : (modCell c f s).stove = s.stove := rfl
@[simp] theorem modCell_rx (c : Fin 32) (f : Cell → Cell) (s : State) : (modCell c f s).rx = s.rx := rfl
@[simp] theorem modCell_tx (c : Fin 32) (f : Cell → Cell) (s : State) : (modCell c f s).tx = s.tx := rfl
@[simp] theorem modCell_grps (c : Fin 32) (f : Cell → Cell) (s : State) : (modCell c f s).grps = s.grps := rfl
@[simp] theorem modCell_hw (c : Fin 32) (f : Cell → Cell) (s : State) : (modCell c f s).hw = s.hw := rfl
@[simp] theorem modCell_dmpr (c : Fin 32) (f : Cell → Cell) (s : State) : (modCell c f s).dmpr = s.dmpr := rfl
@[simp] theorem modCell_care (c : Fin 32) (f : Cell → Cell) (s : State) : (modCell c f s).care = s.care := rfl
@[simp] theorem modCell_p0 (c : Fin 32) (f : Cell → Cell) (s : State) : (modCell c f s).p0 = s.p0 := rfl
@[simp] theorem modCell_boot (c : Fin 32) (f : Cell → Cell) (s : State) : (modCell c f s).boot = s.boot := rfl

/-! ### modMbx -/

@[simp] theorem modMbx_mbx (m : Fin 4) (f : Mbx → Mbx) (s : State) :
    (modMbx m f s).mbx = vmod s.mbx m f := rfl
@[simp] theorem modMbx_pending (m : Fin 4) (f : Mbx → Mbx) (s : State) : (modMbx m f s).pending = s.pending := rfl
@[simp] theorem modMbx_fresh (m : Fin 4) (f : Mbx → Mbx) (s : State) : (modMbx m f s).fresh = s.fresh := rfl
@[simp] theorem modMbx_pow (m : Fin 4) (f : Mbx → Mbx) (s : State) : (modMbx m f s).pow = s.pow := rfl
@[simp] theorem modMbx_flt (m : Fin 4) (f : Mbx → Mbx) (s : State) : (modMbx m f s).flt = s.flt := rfl
@[simp] theorem modMbx_keeper (m : Fin 4) (f : Mbx → Mbx) (s : State) : (modMbx m f s).keeper = s.keeper := rfl
@[simp] theorem modMbx_hearth (m : Fin 4) (f : Mbx → Mbx) (s : State) : (modMbx m f s).hearth = s.hearth := rfl
@[simp] theorem modMbx_scan (m : Fin 4) (f : Mbx → Mbx) (s : State) : (modMbx m f s).scan = s.scan := rfl
@[simp] theorem modMbx_evt (m : Fin 4) (f : Mbx → Mbx) (s : State) : (modMbx m f s).evt = s.evt := rfl
@[simp] theorem modMbx_host (m : Fin 4) (f : Mbx → Mbx) (s : State) : (modMbx m f s).host = s.host := rfl
@[simp] theorem modMbx_ram (m : Fin 4) (f : Mbx → Mbx) (s : State) : (modMbx m f s).ram = s.ram := rfl
@[simp] theorem modMbx_ianik (m : Fin 4) (f : Mbx → Mbx) (s : State) : (modMbx m f s).ianik = s.ianik := rfl
@[simp] theorem modMbx_hive (m : Fin 4) (f : Mbx → Mbx) (s : State) : (modMbx m f s).hive = s.hive := rfl
@[simp] theorem modMbx_bel (m : Fin 4) (f : Mbx → Mbx) (s : State) : (modMbx m f s).bel = s.bel := rfl
@[simp] theorem modMbx_stove (m : Fin 4) (f : Mbx → Mbx) (s : State) : (modMbx m f s).stove = s.stove := rfl
@[simp] theorem modMbx_rx (m : Fin 4) (f : Mbx → Mbx) (s : State) : (modMbx m f s).rx = s.rx := rfl
@[simp] theorem modMbx_tx (m : Fin 4) (f : Mbx → Mbx) (s : State) : (modMbx m f s).tx = s.tx := rfl
@[simp] theorem modMbx_grps (m : Fin 4) (f : Mbx → Mbx) (s : State) : (modMbx m f s).grps = s.grps := rfl
@[simp] theorem modMbx_hw (m : Fin 4) (f : Mbx → Mbx) (s : State) : (modMbx m f s).hw = s.hw := rfl
@[simp] theorem modMbx_dmpr (m : Fin 4) (f : Mbx → Mbx) (s : State) : (modMbx m f s).dmpr = s.dmpr := rfl
@[simp] theorem modMbx_care (m : Fin 4) (f : Mbx → Mbx) (s : State) : (modMbx m f s).care = s.care := rfl
@[simp] theorem modMbx_p0 (m : Fin 4) (f : Mbx → Mbx) (s : State) : (modMbx m f s).p0 = s.p0 := rfl
@[simp] theorem modMbx_boot (m : Fin 4) (f : Mbx → Mbx) (s : State) : (modMbx m f s).boot = s.boot := rfl

/-! ### modComb -/

@[simp] theorem modComb_hive (d : Dom) (f : Comb → Comb) (s : State) :
    (modComb d f s).hive = { s.hive with combs := vmod s.hive.combs (domIx d) f } := rfl
@[simp] theorem modComb_pending (d : Dom) (f : Comb → Comb) (s : State) : (modComb d f s).pending = s.pending := rfl
@[simp] theorem modComb_fresh (d : Dom) (f : Comb → Comb) (s : State) : (modComb d f s).fresh = s.fresh := rfl
@[simp] theorem modComb_pow (d : Dom) (f : Comb → Comb) (s : State) : (modComb d f s).pow = s.pow := rfl
@[simp] theorem modComb_flt (d : Dom) (f : Comb → Comb) (s : State) : (modComb d f s).flt = s.flt := rfl
@[simp] theorem modComb_keeper (d : Dom) (f : Comb → Comb) (s : State) : (modComb d f s).keeper = s.keeper := rfl
@[simp] theorem modComb_hearth (d : Dom) (f : Comb → Comb) (s : State) : (modComb d f s).hearth = s.hearth := rfl
@[simp] theorem modComb_scan (d : Dom) (f : Comb → Comb) (s : State) : (modComb d f s).scan = s.scan := rfl
@[simp] theorem modComb_evt (d : Dom) (f : Comb → Comb) (s : State) : (modComb d f s).evt = s.evt := rfl
@[simp] theorem modComb_host (d : Dom) (f : Comb → Comb) (s : State) : (modComb d f s).host = s.host := rfl
@[simp] theorem modComb_mbx (d : Dom) (f : Comb → Comb) (s : State) : (modComb d f s).mbx = s.mbx := rfl
@[simp] theorem modComb_ram (d : Dom) (f : Comb → Comb) (s : State) : (modComb d f s).ram = s.ram := rfl
@[simp] theorem modComb_ianik (d : Dom) (f : Comb → Comb) (s : State) : (modComb d f s).ianik = s.ianik := rfl
@[simp] theorem modComb_bel (d : Dom) (f : Comb → Comb) (s : State) : (modComb d f s).bel = s.bel := rfl
@[simp] theorem modComb_stove (d : Dom) (f : Comb → Comb) (s : State) : (modComb d f s).stove = s.stove := rfl
@[simp] theorem modComb_rx (d : Dom) (f : Comb → Comb) (s : State) : (modComb d f s).rx = s.rx := rfl
@[simp] theorem modComb_tx (d : Dom) (f : Comb → Comb) (s : State) : (modComb d f s).tx = s.tx := rfl
@[simp] theorem modComb_grps (d : Dom) (f : Comb → Comb) (s : State) : (modComb d f s).grps = s.grps := rfl
@[simp] theorem modComb_hw (d : Dom) (f : Comb → Comb) (s : State) : (modComb d f s).hw = s.hw := rfl
@[simp] theorem modComb_dmpr (d : Dom) (f : Comb → Comb) (s : State) : (modComb d f s).dmpr = s.dmpr := rfl
@[simp] theorem modComb_care (d : Dom) (f : Comb → Comb) (s : State) : (modComb d f s).care = s.care := rfl
@[simp] theorem modComb_p0 (d : Dom) (f : Comb → Comb) (s : State) : (modComb d f s).p0 = s.p0 := rfl
@[simp] theorem modComb_boot (d : Dom) (f : Comb → Comb) (s : State) : (modComb d f s).boot = s.boot := rfl

/-! ### modDom -/

@[simp] theorem modDom_hive (f : Domains → Domains) (s : State) :
    (modDom f s).hive = { s.hive with dom := f s.hive.dom } := rfl
@[simp] theorem modDom_pending (f : Domains → Domains) (s : State) : (modDom f s).pending = s.pending := rfl
@[simp] theorem modDom_fresh (f : Domains → Domains) (s : State) : (modDom f s).fresh = s.fresh := rfl
@[simp] theorem modDom_pow (f : Domains → Domains) (s : State) : (modDom f s).pow = s.pow := rfl
@[simp] theorem modDom_flt (f : Domains → Domains) (s : State) : (modDom f s).flt = s.flt := rfl
@[simp] theorem modDom_keeper (f : Domains → Domains) (s : State) : (modDom f s).keeper = s.keeper := rfl
@[simp] theorem modDom_hearth (f : Domains → Domains) (s : State) : (modDom f s).hearth = s.hearth := rfl
@[simp] theorem modDom_scan (f : Domains → Domains) (s : State) : (modDom f s).scan = s.scan := rfl
@[simp] theorem modDom_evt (f : Domains → Domains) (s : State) : (modDom f s).evt = s.evt := rfl
@[simp] theorem modDom_host (f : Domains → Domains) (s : State) : (modDom f s).host = s.host := rfl
@[simp] theorem modDom_mbx (f : Domains → Domains) (s : State) : (modDom f s).mbx = s.mbx := rfl
@[simp] theorem modDom_ram (f : Domains → Domains) (s : State) : (modDom f s).ram = s.ram := rfl
@[simp] theorem modDom_ianik (f : Domains → Domains) (s : State) : (modDom f s).ianik = s.ianik := rfl
@[simp] theorem modDom_bel (f : Domains → Domains) (s : State) : (modDom f s).bel = s.bel := rfl
@[simp] theorem modDom_stove (f : Domains → Domains) (s : State) : (modDom f s).stove = s.stove := rfl
@[simp] theorem modDom_rx (f : Domains → Domains) (s : State) : (modDom f s).rx = s.rx := rfl
@[simp] theorem modDom_tx (f : Domains → Domains) (s : State) : (modDom f s).tx = s.tx := rfl
@[simp] theorem modDom_grps (f : Domains → Domains) (s : State) : (modDom f s).grps = s.grps := rfl
@[simp] theorem modDom_hw (f : Domains → Domains) (s : State) : (modDom f s).hw = s.hw := rfl
@[simp] theorem modDom_dmpr (f : Domains → Domains) (s : State) : (modDom f s).dmpr = s.dmpr := rfl
@[simp] theorem modDom_care (f : Domains → Domains) (s : State) : (modDom f s).care = s.care := rfl
@[simp] theorem modDom_p0 (f : Domains → Domains) (s : State) : (modDom f s).p0 = s.p0 := rfl
@[simp] theorem modDom_boot (f : Domains → Domains) (s : State) : (modDom f s).boot = s.boot := rfl

/-! ### modBridge -/

@[simp] theorem modBridge_hive (i : Nat) (f : Bridge → Bridge) (s : State) :
    (modBridge i f s).hive = { s.hive with bridges := vmodN s.hive.bridges i f } := rfl
@[simp] theorem modBridge_pending (i : Nat) (f : Bridge → Bridge) (s : State) : (modBridge i f s).pending = s.pending := rfl
@[simp] theorem modBridge_fresh (i : Nat) (f : Bridge → Bridge) (s : State) : (modBridge i f s).fresh = s.fresh := rfl
@[simp] theorem modBridge_pow (i : Nat) (f : Bridge → Bridge) (s : State) : (modBridge i f s).pow = s.pow := rfl
@[simp] theorem modBridge_flt (i : Nat) (f : Bridge → Bridge) (s : State) : (modBridge i f s).flt = s.flt := rfl
@[simp] theorem modBridge_keeper (i : Nat) (f : Bridge → Bridge) (s : State) : (modBridge i f s).keeper = s.keeper := rfl
@[simp] theorem modBridge_hearth (i : Nat) (f : Bridge → Bridge) (s : State) : (modBridge i f s).hearth = s.hearth := rfl
@[simp] theorem modBridge_scan (i : Nat) (f : Bridge → Bridge) (s : State) : (modBridge i f s).scan = s.scan := rfl
@[simp] theorem modBridge_evt (i : Nat) (f : Bridge → Bridge) (s : State) : (modBridge i f s).evt = s.evt := rfl
@[simp] theorem modBridge_host (i : Nat) (f : Bridge → Bridge) (s : State) : (modBridge i f s).host = s.host := rfl
@[simp] theorem modBridge_mbx (i : Nat) (f : Bridge → Bridge) (s : State) : (modBridge i f s).mbx = s.mbx := rfl
@[simp] theorem modBridge_ram (i : Nat) (f : Bridge → Bridge) (s : State) : (modBridge i f s).ram = s.ram := rfl
@[simp] theorem modBridge_ianik (i : Nat) (f : Bridge → Bridge) (s : State) : (modBridge i f s).ianik = s.ianik := rfl
@[simp] theorem modBridge_bel (i : Nat) (f : Bridge → Bridge) (s : State) : (modBridge i f s).bel = s.bel := rfl
@[simp] theorem modBridge_stove (i : Nat) (f : Bridge → Bridge) (s : State) : (modBridge i f s).stove = s.stove := rfl
@[simp] theorem modBridge_rx (i : Nat) (f : Bridge → Bridge) (s : State) : (modBridge i f s).rx = s.rx := rfl
@[simp] theorem modBridge_tx (i : Nat) (f : Bridge → Bridge) (s : State) : (modBridge i f s).tx = s.tx := rfl
@[simp] theorem modBridge_grps (i : Nat) (f : Bridge → Bridge) (s : State) : (modBridge i f s).grps = s.grps := rfl
@[simp] theorem modBridge_hw (i : Nat) (f : Bridge → Bridge) (s : State) : (modBridge i f s).hw = s.hw := rfl
@[simp] theorem modBridge_dmpr (i : Nat) (f : Bridge → Bridge) (s : State) : (modBridge i f s).dmpr = s.dmpr := rfl
@[simp] theorem modBridge_care (i : Nat) (f : Bridge → Bridge) (s : State) : (modBridge i f s).care = s.care := rfl
@[simp] theorem modBridge_p0 (i : Nat) (f : Bridge → Bridge) (s : State) : (modBridge i f s).p0 = s.p0 := rfl
@[simp] theorem modBridge_boot (i : Nat) (f : Bridge → Bridge) (s : State) : (modBridge i f s).boot = s.boot := rfl

/-! ### modBel -/

@[simp] theorem modBel_bel (c : Fin 32) (f : BelCh → BelCh) (s : State) :
    (modBel c f s).bel = { s.bel with ch := vmod s.bel.ch c f } := rfl
@[simp] theorem modBel_pending (c : Fin 32) (f : BelCh → BelCh) (s : State) : (modBel c f s).pending = s.pending := rfl
@[simp] theorem modBel_fresh (c : Fin 32) (f : BelCh → BelCh) (s : State) : (modBel c f s).fresh = s.fresh := rfl
@[simp] theorem modBel_pow (c : Fin 32) (f : BelCh → BelCh) (s : State) : (modBel c f s).pow = s.pow := rfl
@[simp] theorem modBel_flt (c : Fin 32) (f : BelCh → BelCh) (s : State) : (modBel c f s).flt = s.flt := rfl
@[simp] theorem modBel_keeper (c : Fin 32) (f : BelCh → BelCh) (s : State) : (modBel c f s).keeper = s.keeper := rfl
@[simp] theorem modBel_hearth (c : Fin 32) (f : BelCh → BelCh) (s : State) : (modBel c f s).hearth = s.hearth := rfl
@[simp] theorem modBel_scan (c : Fin 32) (f : BelCh → BelCh) (s : State) : (modBel c f s).scan = s.scan := rfl
@[simp] theorem modBel_evt (c : Fin 32) (f : BelCh → BelCh) (s : State) : (modBel c f s).evt = s.evt := rfl
@[simp] theorem modBel_host (c : Fin 32) (f : BelCh → BelCh) (s : State) : (modBel c f s).host = s.host := rfl
@[simp] theorem modBel_mbx (c : Fin 32) (f : BelCh → BelCh) (s : State) : (modBel c f s).mbx = s.mbx := rfl
@[simp] theorem modBel_ram (c : Fin 32) (f : BelCh → BelCh) (s : State) : (modBel c f s).ram = s.ram := rfl
@[simp] theorem modBel_ianik (c : Fin 32) (f : BelCh → BelCh) (s : State) : (modBel c f s).ianik = s.ianik := rfl
@[simp] theorem modBel_hive (c : Fin 32) (f : BelCh → BelCh) (s : State) : (modBel c f s).hive = s.hive := rfl
@[simp] theorem modBel_stove (c : Fin 32) (f : BelCh → BelCh) (s : State) : (modBel c f s).stove = s.stove := rfl
@[simp] theorem modBel_rx (c : Fin 32) (f : BelCh → BelCh) (s : State) : (modBel c f s).rx = s.rx := rfl
@[simp] theorem modBel_tx (c : Fin 32) (f : BelCh → BelCh) (s : State) : (modBel c f s).tx = s.tx := rfl
@[simp] theorem modBel_grps (c : Fin 32) (f : BelCh → BelCh) (s : State) : (modBel c f s).grps = s.grps := rfl
@[simp] theorem modBel_hw (c : Fin 32) (f : BelCh → BelCh) (s : State) : (modBel c f s).hw = s.hw := rfl
@[simp] theorem modBel_dmpr (c : Fin 32) (f : BelCh → BelCh) (s : State) : (modBel c f s).dmpr = s.dmpr := rfl
@[simp] theorem modBel_care (c : Fin 32) (f : BelCh → BelCh) (s : State) : (modBel c f s).care = s.care := rfl
@[simp] theorem modBel_p0 (c : Fin 32) (f : BelCh → BelCh) (s : State) : (modBel c f s).p0 = s.p0 := rfl
@[simp] theorem modBel_boot (c : Fin 32) (f : BelCh → BelCh) (s : State) : (modBel c f s).boot = s.boot := rfl

/-! ### modGrp -/

@[simp] theorem modGrp_bel (g : Fin 8) (f : BelGrp → BelGrp) (s : State) :
    (modGrp g f s).bel = { s.bel with grp := vmod s.bel.grp g f } := rfl
@[simp] theorem modGrp_pending (g : Fin 8) (f : BelGrp → BelGrp) (s : State) : (modGrp g f s).pending = s.pending := rfl
@[simp] theorem modGrp_fresh (g : Fin 8) (f : BelGrp → BelGrp) (s : State) : (modGrp g f s).fresh = s.fresh := rfl
@[simp] theorem modGrp_pow (g : Fin 8) (f : BelGrp → BelGrp) (s : State) : (modGrp g f s).pow = s.pow := rfl
@[simp] theorem modGrp_flt (g : Fin 8) (f : BelGrp → BelGrp) (s : State) : (modGrp g f s).flt = s.flt := rfl
@[simp] theorem modGrp_keeper (g : Fin 8) (f : BelGrp → BelGrp) (s : State) : (modGrp g f s).keeper = s.keeper := rfl
@[simp] theorem modGrp_hearth (g : Fin 8) (f : BelGrp → BelGrp) (s : State) : (modGrp g f s).hearth = s.hearth := rfl
@[simp] theorem modGrp_scan (g : Fin 8) (f : BelGrp → BelGrp) (s : State) : (modGrp g f s).scan = s.scan := rfl
@[simp] theorem modGrp_evt (g : Fin 8) (f : BelGrp → BelGrp) (s : State) : (modGrp g f s).evt = s.evt := rfl
@[simp] theorem modGrp_host (g : Fin 8) (f : BelGrp → BelGrp) (s : State) : (modGrp g f s).host = s.host := rfl
@[simp] theorem modGrp_mbx (g : Fin 8) (f : BelGrp → BelGrp) (s : State) : (modGrp g f s).mbx = s.mbx := rfl
@[simp] theorem modGrp_ram (g : Fin 8) (f : BelGrp → BelGrp) (s : State) : (modGrp g f s).ram = s.ram := rfl
@[simp] theorem modGrp_ianik (g : Fin 8) (f : BelGrp → BelGrp) (s : State) : (modGrp g f s).ianik = s.ianik := rfl
@[simp] theorem modGrp_hive (g : Fin 8) (f : BelGrp → BelGrp) (s : State) : (modGrp g f s).hive = s.hive := rfl
@[simp] theorem modGrp_stove (g : Fin 8) (f : BelGrp → BelGrp) (s : State) : (modGrp g f s).stove = s.stove := rfl
@[simp] theorem modGrp_rx (g : Fin 8) (f : BelGrp → BelGrp) (s : State) : (modGrp g f s).rx = s.rx := rfl
@[simp] theorem modGrp_tx (g : Fin 8) (f : BelGrp → BelGrp) (s : State) : (modGrp g f s).tx = s.tx := rfl
@[simp] theorem modGrp_grps (g : Fin 8) (f : BelGrp → BelGrp) (s : State) : (modGrp g f s).grps = s.grps := rfl
@[simp] theorem modGrp_hw (g : Fin 8) (f : BelGrp → BelGrp) (s : State) : (modGrp g f s).hw = s.hw := rfl
@[simp] theorem modGrp_dmpr (g : Fin 8) (f : BelGrp → BelGrp) (s : State) : (modGrp g f s).dmpr = s.dmpr := rfl
@[simp] theorem modGrp_care (g : Fin 8) (f : BelGrp → BelGrp) (s : State) : (modGrp g f s).care = s.care := rfl
@[simp] theorem modGrp_p0 (g : Fin 8) (f : BelGrp → BelGrp) (s : State) : (modGrp g f s).p0 = s.p0 := rfl
@[simp] theorem modGrp_boot (g : Fin 8) (f : BelGrp → BelGrp) (s : State) : (modGrp g f s).boot = s.boot := rfl

/-! ### modStove -/

@[simp] theorem modStove_stove (f : Stove → Stove) (s : State) :
    (modStove f s).stove = f s.stove := rfl
@[simp] theorem modStove_pending (f : Stove → Stove) (s : State) : (modStove f s).pending = s.pending := rfl
@[simp] theorem modStove_fresh (f : Stove → Stove) (s : State) : (modStove f s).fresh = s.fresh := rfl
@[simp] theorem modStove_pow (f : Stove → Stove) (s : State) : (modStove f s).pow = s.pow := rfl
@[simp] theorem modStove_flt (f : Stove → Stove) (s : State) : (modStove f s).flt = s.flt := rfl
@[simp] theorem modStove_keeper (f : Stove → Stove) (s : State) : (modStove f s).keeper = s.keeper := rfl
@[simp] theorem modStove_hearth (f : Stove → Stove) (s : State) : (modStove f s).hearth = s.hearth := rfl
@[simp] theorem modStove_scan (f : Stove → Stove) (s : State) : (modStove f s).scan = s.scan := rfl
@[simp] theorem modStove_evt (f : Stove → Stove) (s : State) : (modStove f s).evt = s.evt := rfl
@[simp] theorem modStove_host (f : Stove → Stove) (s : State) : (modStove f s).host = s.host := rfl
@[simp] theorem modStove_mbx (f : Stove → Stove) (s : State) : (modStove f s).mbx = s.mbx := rfl
@[simp] theorem modStove_ram (f : Stove → Stove) (s : State) : (modStove f s).ram = s.ram := rfl
@[simp] theorem modStove_ianik (f : Stove → Stove) (s : State) : (modStove f s).ianik = s.ianik := rfl
@[simp] theorem modStove_hive (f : Stove → Stove) (s : State) : (modStove f s).hive = s.hive := rfl
@[simp] theorem modStove_bel (f : Stove → Stove) (s : State) : (modStove f s).bel = s.bel := rfl
@[simp] theorem modStove_rx (f : Stove → Stove) (s : State) : (modStove f s).rx = s.rx := rfl
@[simp] theorem modStove_tx (f : Stove → Stove) (s : State) : (modStove f s).tx = s.tx := rfl
@[simp] theorem modStove_grps (f : Stove → Stove) (s : State) : (modStove f s).grps = s.grps := rfl
@[simp] theorem modStove_hw (f : Stove → Stove) (s : State) : (modStove f s).hw = s.hw := rfl
@[simp] theorem modStove_dmpr (f : Stove → Stove) (s : State) : (modStove f s).dmpr = s.dmpr := rfl
@[simp] theorem modStove_care (f : Stove → Stove) (s : State) : (modStove f s).care = s.care := rfl
@[simp] theorem modStove_p0 (f : Stove → Stove) (s : State) : (modStove f s).p0 = s.p0 := rfl
@[simp] theorem modStove_boot (f : Stove → Stove) (s : State) : (modStove f s).boot = s.boot := rfl

/-! ### modRef -/

@[simp] theorem modRef_stove (i : Fin 13) (f : Ref → Ref) (s : State) :
    (modRef i f s).stove = { s.stove with refs := vmod s.stove.refs i f } := rfl
@[simp] theorem modRef_pending (i : Fin 13) (f : Ref → Ref) (s : State) : (modRef i f s).pending = s.pending := rfl
@[simp] theorem modRef_fresh (i : Fin 13) (f : Ref → Ref) (s : State) : (modRef i f s).fresh = s.fresh := rfl
@[simp] theorem modRef_pow (i : Fin 13) (f : Ref → Ref) (s : State) : (modRef i f s).pow = s.pow := rfl
@[simp] theorem modRef_flt (i : Fin 13) (f : Ref → Ref) (s : State) : (modRef i f s).flt = s.flt := rfl
@[simp] theorem modRef_keeper (i : Fin 13) (f : Ref → Ref) (s : State) : (modRef i f s).keeper = s.keeper := rfl
@[simp] theorem modRef_hearth (i : Fin 13) (f : Ref → Ref) (s : State) : (modRef i f s).hearth = s.hearth := rfl
@[simp] theorem modRef_scan (i : Fin 13) (f : Ref → Ref) (s : State) : (modRef i f s).scan = s.scan := rfl
@[simp] theorem modRef_evt (i : Fin 13) (f : Ref → Ref) (s : State) : (modRef i f s).evt = s.evt := rfl
@[simp] theorem modRef_host (i : Fin 13) (f : Ref → Ref) (s : State) : (modRef i f s).host = s.host := rfl
@[simp] theorem modRef_mbx (i : Fin 13) (f : Ref → Ref) (s : State) : (modRef i f s).mbx = s.mbx := rfl
@[simp] theorem modRef_ram (i : Fin 13) (f : Ref → Ref) (s : State) : (modRef i f s).ram = s.ram := rfl
@[simp] theorem modRef_ianik (i : Fin 13) (f : Ref → Ref) (s : State) : (modRef i f s).ianik = s.ianik := rfl
@[simp] theorem modRef_hive (i : Fin 13) (f : Ref → Ref) (s : State) : (modRef i f s).hive = s.hive := rfl
@[simp] theorem modRef_bel (i : Fin 13) (f : Ref → Ref) (s : State) : (modRef i f s).bel = s.bel := rfl
@[simp] theorem modRef_rx (i : Fin 13) (f : Ref → Ref) (s : State) : (modRef i f s).rx = s.rx := rfl
@[simp] theorem modRef_tx (i : Fin 13) (f : Ref → Ref) (s : State) : (modRef i f s).tx = s.tx := rfl
@[simp] theorem modRef_grps (i : Fin 13) (f : Ref → Ref) (s : State) : (modRef i f s).grps = s.grps := rfl
@[simp] theorem modRef_hw (i : Fin 13) (f : Ref → Ref) (s : State) : (modRef i f s).hw = s.hw := rfl
@[simp] theorem modRef_dmpr (i : Fin 13) (f : Ref → Ref) (s : State) : (modRef i f s).dmpr = s.dmpr := rfl
@[simp] theorem modRef_care (i : Fin 13) (f : Ref → Ref) (s : State) : (modRef i f s).care = s.care := rfl
@[simp] theorem modRef_p0 (i : Fin 13) (f : Ref → Ref) (s : State) : (modRef i f s).p0 = s.p0 := rfl
@[simp] theorem modRef_boot (i : Fin 13) (f : Ref → Ref) (s : State) : (modRef i f s).boot = s.boot := rfl

/-! ### modHw -/

@[simp] theorem modHw_hw (x : Fin 2) (f : Chain → Chain) (s : State) :
    (modHw x f s).hw = vmod s.hw x f := rfl
@[simp] theorem modHw_pending (x : Fin 2) (f : Chain → Chain) (s : State) : (modHw x f s).pending = s.pending := rfl
@[simp] theorem modHw_fresh (x : Fin 2) (f : Chain → Chain) (s : State) : (modHw x f s).fresh = s.fresh := rfl
@[simp] theorem modHw_pow (x : Fin 2) (f : Chain → Chain) (s : State) : (modHw x f s).pow = s.pow := rfl
@[simp] theorem modHw_flt (x : Fin 2) (f : Chain → Chain) (s : State) : (modHw x f s).flt = s.flt := rfl
@[simp] theorem modHw_keeper (x : Fin 2) (f : Chain → Chain) (s : State) : (modHw x f s).keeper = s.keeper := rfl
@[simp] theorem modHw_hearth (x : Fin 2) (f : Chain → Chain) (s : State) : (modHw x f s).hearth = s.hearth := rfl
@[simp] theorem modHw_scan (x : Fin 2) (f : Chain → Chain) (s : State) : (modHw x f s).scan = s.scan := rfl
@[simp] theorem modHw_evt (x : Fin 2) (f : Chain → Chain) (s : State) : (modHw x f s).evt = s.evt := rfl
@[simp] theorem modHw_host (x : Fin 2) (f : Chain → Chain) (s : State) : (modHw x f s).host = s.host := rfl
@[simp] theorem modHw_mbx (x : Fin 2) (f : Chain → Chain) (s : State) : (modHw x f s).mbx = s.mbx := rfl
@[simp] theorem modHw_ram (x : Fin 2) (f : Chain → Chain) (s : State) : (modHw x f s).ram = s.ram := rfl
@[simp] theorem modHw_ianik (x : Fin 2) (f : Chain → Chain) (s : State) : (modHw x f s).ianik = s.ianik := rfl
@[simp] theorem modHw_hive (x : Fin 2) (f : Chain → Chain) (s : State) : (modHw x f s).hive = s.hive := rfl
@[simp] theorem modHw_bel (x : Fin 2) (f : Chain → Chain) (s : State) : (modHw x f s).bel = s.bel := rfl
@[simp] theorem modHw_stove (x : Fin 2) (f : Chain → Chain) (s : State) : (modHw x f s).stove = s.stove := rfl
@[simp] theorem modHw_rx (x : Fin 2) (f : Chain → Chain) (s : State) : (modHw x f s).rx = s.rx := rfl
@[simp] theorem modHw_tx (x : Fin 2) (f : Chain → Chain) (s : State) : (modHw x f s).tx = s.tx := rfl
@[simp] theorem modHw_grps (x : Fin 2) (f : Chain → Chain) (s : State) : (modHw x f s).grps = s.grps := rfl
@[simp] theorem modHw_dmpr (x : Fin 2) (f : Chain → Chain) (s : State) : (modHw x f s).dmpr = s.dmpr := rfl
@[simp] theorem modHw_care (x : Fin 2) (f : Chain → Chain) (s : State) : (modHw x f s).care = s.care := rfl
@[simp] theorem modHw_p0 (x : Fin 2) (f : Chain → Chain) (s : State) : (modHw x f s).p0 = s.p0 := rfl
@[simp] theorem modHw_boot (x : Fin 2) (f : Chain → Chain) (s : State) : (modHw x f s).boot = s.boot := rfl

/-! ### modDmpr -/

@[simp] theorem modDmpr_dmpr (f : Damper → Damper) (s : State) :
    (modDmpr f s).dmpr = f s.dmpr := rfl
@[simp] theorem modDmpr_pending (f : Damper → Damper) (s : State) : (modDmpr f s).pending = s.pending := rfl
@[simp] theorem modDmpr_fresh (f : Damper → Damper) (s : State) : (modDmpr f s).fresh = s.fresh := rfl
@[simp] theorem modDmpr_pow (f : Damper → Damper) (s : State) : (modDmpr f s).pow = s.pow := rfl
@[simp] theorem modDmpr_flt (f : Damper → Damper) (s : State) : (modDmpr f s).flt = s.flt := rfl
@[simp] theorem modDmpr_keeper (f : Damper → Damper) (s : State) : (modDmpr f s).keeper = s.keeper := rfl
@[simp] theorem modDmpr_hearth (f : Damper → Damper) (s : State) : (modDmpr f s).hearth = s.hearth := rfl
@[simp] theorem modDmpr_scan (f : Damper → Damper) (s : State) : (modDmpr f s).scan = s.scan := rfl
@[simp] theorem modDmpr_evt (f : Damper → Damper) (s : State) : (modDmpr f s).evt = s.evt := rfl
@[simp] theorem modDmpr_host (f : Damper → Damper) (s : State) : (modDmpr f s).host = s.host := rfl
@[simp] theorem modDmpr_mbx (f : Damper → Damper) (s : State) : (modDmpr f s).mbx = s.mbx := rfl
@[simp] theorem modDmpr_ram (f : Damper → Damper) (s : State) : (modDmpr f s).ram = s.ram := rfl
@[simp] theorem modDmpr_ianik (f : Damper → Damper) (s : State) : (modDmpr f s).ianik = s.ianik := rfl
@[simp] theorem modDmpr_hive (f : Damper → Damper) (s : State) : (modDmpr f s).hive = s.hive := rfl
@[simp] theorem modDmpr_bel (f : Damper → Damper) (s : State) : (modDmpr f s).bel = s.bel := rfl
@[simp] theorem modDmpr_stove (f : Damper → Damper) (s : State) : (modDmpr f s).stove = s.stove := rfl
@[simp] theorem modDmpr_rx (f : Damper → Damper) (s : State) : (modDmpr f s).rx = s.rx := rfl
@[simp] theorem modDmpr_tx (f : Damper → Damper) (s : State) : (modDmpr f s).tx = s.tx := rfl
@[simp] theorem modDmpr_grps (f : Damper → Damper) (s : State) : (modDmpr f s).grps = s.grps := rfl
@[simp] theorem modDmpr_hw (f : Damper → Damper) (s : State) : (modDmpr f s).hw = s.hw := rfl
@[simp] theorem modDmpr_care (f : Damper → Damper) (s : State) : (modDmpr f s).care = s.care := rfl
@[simp] theorem modDmpr_p0 (f : Damper → Damper) (s : State) : (modDmpr f s).p0 = s.p0 := rfl
@[simp] theorem modDmpr_boot (f : Damper → Damper) (s : State) : (modDmpr f s).boot = s.boot := rfl

/-! ### modDch -/

@[simp] theorem modDch_dmpr (c : Fin 32) (f : DmprCh → DmprCh) (s : State) :
    (modDch c f s).dmpr = { s.dmpr with ch := vmod s.dmpr.ch c f } := rfl
@[simp] theorem modDch_pending (c : Fin 32) (f : DmprCh → DmprCh) (s : State) : (modDch c f s).pending = s.pending := rfl
@[simp] theorem modDch_fresh (c : Fin 32) (f : DmprCh → DmprCh) (s : State) : (modDch c f s).fresh = s.fresh := rfl
@[simp] theorem modDch_pow (c : Fin 32) (f : DmprCh → DmprCh) (s : State) : (modDch c f s).pow = s.pow := rfl
@[simp] theorem modDch_flt (c : Fin 32) (f : DmprCh → DmprCh) (s : State) : (modDch c f s).flt = s.flt := rfl
@[simp] theorem modDch_keeper (c : Fin 32) (f : DmprCh → DmprCh) (s : State) : (modDch c f s).keeper = s.keeper := rfl
@[simp] theorem modDch_hearth (c : Fin 32) (f : DmprCh → DmprCh) (s : State) : (modDch c f s).hearth = s.hearth := rfl
@[simp] theorem modDch_scan (c : Fin 32) (f : DmprCh → DmprCh) (s : State) : (modDch c f s).scan = s.scan := rfl
@[simp] theorem modDch_evt (c : Fin 32) (f : DmprCh → DmprCh) (s : State) : (modDch c f s).evt = s.evt := rfl
@[simp] theorem modDch_host (c : Fin 32) (f : DmprCh → DmprCh) (s : State) : (modDch c f s).host = s.host := rfl
@[simp] theorem modDch_mbx (c : Fin 32) (f : DmprCh → DmprCh) (s : State) : (modDch c f s).mbx = s.mbx := rfl
@[simp] theorem modDch_ram (c : Fin 32) (f : DmprCh → DmprCh) (s : State) : (modDch c f s).ram = s.ram := rfl
@[simp] theorem modDch_ianik (c : Fin 32) (f : DmprCh → DmprCh) (s : State) : (modDch c f s).ianik = s.ianik := rfl
@[simp] theorem modDch_hive (c : Fin 32) (f : DmprCh → DmprCh) (s : State) : (modDch c f s).hive = s.hive := rfl
@[simp] theorem modDch_bel (c : Fin 32) (f : DmprCh → DmprCh) (s : State) : (modDch c f s).bel = s.bel := rfl
@[simp] theorem modDch_stove (c : Fin 32) (f : DmprCh → DmprCh) (s : State) : (modDch c f s).stove = s.stove := rfl
@[simp] theorem modDch_rx (c : Fin 32) (f : DmprCh → DmprCh) (s : State) : (modDch c f s).rx = s.rx := rfl
@[simp] theorem modDch_tx (c : Fin 32) (f : DmprCh → DmprCh) (s : State) : (modDch c f s).tx = s.tx := rfl
@[simp] theorem modDch_grps (c : Fin 32) (f : DmprCh → DmprCh) (s : State) : (modDch c f s).grps = s.grps := rfl
@[simp] theorem modDch_hw (c : Fin 32) (f : DmprCh → DmprCh) (s : State) : (modDch c f s).hw = s.hw := rfl
@[simp] theorem modDch_care (c : Fin 32) (f : DmprCh → DmprCh) (s : State) : (modDch c f s).care = s.care := rfl
@[simp] theorem modDch_p0 (c : Fin 32) (f : DmprCh → DmprCh) (s : State) : (modDch c f s).p0 = s.p0 := rfl
@[simp] theorem modDch_boot (c : Fin 32) (f : DmprCh → DmprCh) (s : State) : (modDch c f s).boot = s.boot := rfl

/-! ### modLine -/

@[simp] theorem modLine_dmpr (x : Fin 2) (f : DmprLine → DmprLine) (s : State) :
    (modLine x f s).dmpr = { s.dmpr with line := vmod s.dmpr.line x f } := rfl
@[simp] theorem modLine_pending (x : Fin 2) (f : DmprLine → DmprLine) (s : State) : (modLine x f s).pending = s.pending := rfl
@[simp] theorem modLine_fresh (x : Fin 2) (f : DmprLine → DmprLine) (s : State) : (modLine x f s).fresh = s.fresh := rfl
@[simp] theorem modLine_pow (x : Fin 2) (f : DmprLine → DmprLine) (s : State) : (modLine x f s).pow = s.pow := rfl
@[simp] theorem modLine_flt (x : Fin 2) (f : DmprLine → DmprLine) (s : State) : (modLine x f s).flt = s.flt := rfl
@[simp] theorem modLine_keeper (x : Fin 2) (f : DmprLine → DmprLine) (s : State) : (modLine x f s).keeper = s.keeper := rfl
@[simp] theorem modLine_hearth (x : Fin 2) (f : DmprLine → DmprLine) (s : State) : (modLine x f s).hearth = s.hearth := rfl
@[simp] theorem modLine_scan (x : Fin 2) (f : DmprLine → DmprLine) (s : State) : (modLine x f s).scan = s.scan := rfl
@[simp] theorem modLine_evt (x : Fin 2) (f : DmprLine → DmprLine) (s : State) : (modLine x f s).evt = s.evt := rfl
@[simp] theorem modLine_host (x : Fin 2) (f : DmprLine → DmprLine) (s : State) : (modLine x f s).host = s.host := rfl
@[simp] theorem modLine_mbx (x : Fin 2) (f : DmprLine → DmprLine) (s : State) : (modLine x f s).mbx = s.mbx := rfl
@[simp] theorem modLine_ram (x : Fin 2) (f : DmprLine → DmprLine) (s : State) : (modLine x f s).ram = s.ram := rfl
@[simp] theorem modLine_ianik (x : Fin 2) (f : DmprLine → DmprLine) (s : State) : (modLine x f s).ianik = s.ianik := rfl
@[simp] theorem modLine_hive (x : Fin 2) (f : DmprLine → DmprLine) (s : State) : (modLine x f s).hive = s.hive := rfl
@[simp] theorem modLine_bel (x : Fin 2) (f : DmprLine → DmprLine) (s : State) : (modLine x f s).bel = s.bel := rfl
@[simp] theorem modLine_stove (x : Fin 2) (f : DmprLine → DmprLine) (s : State) : (modLine x f s).stove = s.stove := rfl
@[simp] theorem modLine_rx (x : Fin 2) (f : DmprLine → DmprLine) (s : State) : (modLine x f s).rx = s.rx := rfl
@[simp] theorem modLine_tx (x : Fin 2) (f : DmprLine → DmprLine) (s : State) : (modLine x f s).tx = s.tx := rfl
@[simp] theorem modLine_grps (x : Fin 2) (f : DmprLine → DmprLine) (s : State) : (modLine x f s).grps = s.grps := rfl
@[simp] theorem modLine_hw (x : Fin 2) (f : DmprLine → DmprLine) (s : State) : (modLine x f s).hw = s.hw := rfl
@[simp] theorem modLine_care (x : Fin 2) (f : DmprLine → DmprLine) (s : State) : (modLine x f s).care = s.care := rfl
@[simp] theorem modLine_p0 (x : Fin 2) (f : DmprLine → DmprLine) (s : State) : (modLine x f s).p0 = s.p0 := rfl
@[simp] theorem modLine_boot (x : Fin 2) (f : DmprLine → DmprLine) (s : State) : (modLine x f s).boot = s.boot := rfl

/-! ### modBoot -/

@[simp] theorem modBoot_boot (f : Boot → Boot) (s : State) :
    (modBoot f s).boot = f s.boot := rfl
@[simp] theorem modBoot_pending (f : Boot → Boot) (s : State) : (modBoot f s).pending = s.pending := rfl
@[simp] theorem modBoot_fresh (f : Boot → Boot) (s : State) : (modBoot f s).fresh = s.fresh := rfl
@[simp] theorem modBoot_pow (f : Boot → Boot) (s : State) : (modBoot f s).pow = s.pow := rfl
@[simp] theorem modBoot_flt (f : Boot → Boot) (s : State) : (modBoot f s).flt = s.flt := rfl
@[simp] theorem modBoot_keeper (f : Boot → Boot) (s : State) : (modBoot f s).keeper = s.keeper := rfl
@[simp] theorem modBoot_hearth (f : Boot → Boot) (s : State) : (modBoot f s).hearth = s.hearth := rfl
@[simp] theorem modBoot_scan (f : Boot → Boot) (s : State) : (modBoot f s).scan = s.scan := rfl
@[simp] theorem modBoot_evt (f : Boot → Boot) (s : State) : (modBoot f s).evt = s.evt := rfl
@[simp] theorem modBoot_host (f : Boot → Boot) (s : State) : (modBoot f s).host = s.host := rfl
@[simp] theorem modBoot_mbx (f : Boot → Boot) (s : State) : (modBoot f s).mbx = s.mbx := rfl
@[simp] theorem modBoot_ram (f : Boot → Boot) (s : State) : (modBoot f s).ram = s.ram := rfl
@[simp] theorem modBoot_ianik (f : Boot → Boot) (s : State) : (modBoot f s).ianik = s.ianik := rfl
@[simp] theorem modBoot_hive (f : Boot → Boot) (s : State) : (modBoot f s).hive = s.hive := rfl
@[simp] theorem modBoot_bel (f : Boot → Boot) (s : State) : (modBoot f s).bel = s.bel := rfl
@[simp] theorem modBoot_stove (f : Boot → Boot) (s : State) : (modBoot f s).stove = s.stove := rfl
@[simp] theorem modBoot_rx (f : Boot → Boot) (s : State) : (modBoot f s).rx = s.rx := rfl
@[simp] theorem modBoot_tx (f : Boot → Boot) (s : State) : (modBoot f s).tx = s.tx := rfl
@[simp] theorem modBoot_grps (f : Boot → Boot) (s : State) : (modBoot f s).grps = s.grps := rfl
@[simp] theorem modBoot_hw (f : Boot → Boot) (s : State) : (modBoot f s).hw = s.hw := rfl
@[simp] theorem modBoot_dmpr (f : Boot → Boot) (s : State) : (modBoot f s).dmpr = s.dmpr := rfl
@[simp] theorem modBoot_care (f : Boot → Boot) (s : State) : (modBoot f s).care = s.care := rfl
@[simp] theorem modBoot_p0 (f : Boot → Boot) (s : State) : (modBoot f s).p0 = s.p0 := rfl

/-! ### modP0 -/

@[simp] theorem modP0_p0 (f : Flash → Flash) (s : State) :
    (modP0 f s).p0 = f s.p0 := rfl
@[simp] theorem modP0_pending (f : Flash → Flash) (s : State) : (modP0 f s).pending = s.pending := rfl
@[simp] theorem modP0_fresh (f : Flash → Flash) (s : State) : (modP0 f s).fresh = s.fresh := rfl
@[simp] theorem modP0_pow (f : Flash → Flash) (s : State) : (modP0 f s).pow = s.pow := rfl
@[simp] theorem modP0_flt (f : Flash → Flash) (s : State) : (modP0 f s).flt = s.flt := rfl
@[simp] theorem modP0_keeper (f : Flash → Flash) (s : State) : (modP0 f s).keeper = s.keeper := rfl
@[simp] theorem modP0_hearth (f : Flash → Flash) (s : State) : (modP0 f s).hearth = s.hearth := rfl
@[simp] theorem modP0_scan (f : Flash → Flash) (s : State) : (modP0 f s).scan = s.scan := rfl
@[simp] theorem modP0_evt (f : Flash → Flash) (s : State) : (modP0 f s).evt = s.evt := rfl
@[simp] theorem modP0_host (f : Flash → Flash) (s : State) : (modP0 f s).host = s.host := rfl
@[simp] theorem modP0_mbx (f : Flash → Flash) (s : State) : (modP0 f s).mbx = s.mbx := rfl
@[simp] theorem modP0_ram (f : Flash → Flash) (s : State) : (modP0 f s).ram = s.ram := rfl
@[simp] theorem modP0_ianik (f : Flash → Flash) (s : State) : (modP0 f s).ianik = s.ianik := rfl
@[simp] theorem modP0_hive (f : Flash → Flash) (s : State) : (modP0 f s).hive = s.hive := rfl
@[simp] theorem modP0_bel (f : Flash → Flash) (s : State) : (modP0 f s).bel = s.bel := rfl
@[simp] theorem modP0_stove (f : Flash → Flash) (s : State) : (modP0 f s).stove = s.stove := rfl
@[simp] theorem modP0_rx (f : Flash → Flash) (s : State) : (modP0 f s).rx = s.rx := rfl
@[simp] theorem modP0_tx (f : Flash → Flash) (s : State) : (modP0 f s).tx = s.tx := rfl
@[simp] theorem modP0_grps (f : Flash → Flash) (s : State) : (modP0 f s).grps = s.grps := rfl
@[simp] theorem modP0_hw (f : Flash → Flash) (s : State) : (modP0 f s).hw = s.hw := rfl
@[simp] theorem modP0_dmpr (f : Flash → Flash) (s : State) : (modP0 f s).dmpr = s.dmpr := rfl
@[simp] theorem modP0_care (f : Flash → Flash) (s : State) : (modP0 f s).care = s.care := rfl
@[simp] theorem modP0_boot (f : Flash → Flash) (s : State) : (modP0 f s).boot = s.boot := rfl

/-! ### modCare -/

@[simp] theorem modCare_care (f : MemCare → MemCare) (s : State) :
    (modCare f s).care = f s.care := rfl
@[simp] theorem modCare_pending (f : MemCare → MemCare) (s : State) : (modCare f s).pending = s.pending := rfl
@[simp] theorem modCare_fresh (f : MemCare → MemCare) (s : State) : (modCare f s).fresh = s.fresh := rfl
@[simp] theorem modCare_pow (f : MemCare → MemCare) (s : State) : (modCare f s).pow = s.pow := rfl
@[simp] theorem modCare_flt (f : MemCare → MemCare) (s : State) : (modCare f s).flt = s.flt := rfl
@[simp] theorem modCare_keeper (f : MemCare → MemCare) (s : State) : (modCare f s).keeper = s.keeper := rfl
@[simp] theorem modCare_hearth (f : MemCare → MemCare) (s : State) : (modCare f s).hearth = s.hearth := rfl
@[simp] theorem modCare_scan (f : MemCare → MemCare) (s : State) : (modCare f s).scan = s.scan := rfl
@[simp] theorem modCare_evt (f : MemCare → MemCare) (s : State) : (modCare f s).evt = s.evt := rfl
@[simp] theorem modCare_host (f : MemCare → MemCare) (s : State) : (modCare f s).host = s.host := rfl
@[simp] theorem modCare_mbx (f : MemCare → MemCare) (s : State) : (modCare f s).mbx = s.mbx := rfl
@[simp] theorem modCare_ram (f : MemCare → MemCare) (s : State) : (modCare f s).ram = s.ram := rfl
@[simp] theorem modCare_ianik (f : MemCare → MemCare) (s : State) : (modCare f s).ianik = s.ianik := rfl
@[simp] theorem modCare_hive (f : MemCare → MemCare) (s : State) : (modCare f s).hive = s.hive := rfl
@[simp] theorem modCare_bel (f : MemCare → MemCare) (s : State) : (modCare f s).bel = s.bel := rfl
@[simp] theorem modCare_stove (f : MemCare → MemCare) (s : State) : (modCare f s).stove = s.stove := rfl
@[simp] theorem modCare_rx (f : MemCare → MemCare) (s : State) : (modCare f s).rx = s.rx := rfl
@[simp] theorem modCare_tx (f : MemCare → MemCare) (s : State) : (modCare f s).tx = s.tx := rfl
@[simp] theorem modCare_grps (f : MemCare → MemCare) (s : State) : (modCare f s).grps = s.grps := rfl
@[simp] theorem modCare_hw (f : MemCare → MemCare) (s : State) : (modCare f s).hw = s.hw := rfl
@[simp] theorem modCare_dmpr (f : MemCare → MemCare) (s : State) : (modCare f s).dmpr = s.dmpr := rfl
@[simp] theorem modCare_p0 (f : MemCare → MemCare) (s : State) : (modCare f s).p0 = s.p0 := rfl
@[simp] theorem modCare_boot (f : MemCare → MemCare) (s : State) : (modCare f s).boot = s.boot := rfl

/-! ### modRing -/

@[simp] theorem modRing_p0 (r : Fin 16) (f : Ring → Ring) (s : State) :
    (modRing r f s).p0 = { s.p0 with rings := vmod s.p0.rings r f } := rfl
@[simp] theorem modRing_pending (r : Fin 16) (f : Ring → Ring) (s : State) : (modRing r f s).pending = s.pending := rfl
@[simp] theorem modRing_fresh (r : Fin 16) (f : Ring → Ring) (s : State) : (modRing r f s).fresh = s.fresh := rfl
@[simp] theorem modRing_pow (r : Fin 16) (f : Ring → Ring) (s : State) : (modRing r f s).pow = s.pow := rfl
@[simp] theorem modRing_flt (r : Fin 16) (f : Ring → Ring) (s : State) : (modRing r f s).flt = s.flt := rfl
@[simp] theorem modRing_keeper (r : Fin 16) (f : Ring → Ring) (s : State) : (modRing r f s).keeper = s.keeper := rfl
@[simp] theorem modRing_hearth (r : Fin 16) (f : Ring → Ring) (s : State) : (modRing r f s).hearth = s.hearth := rfl
@[simp] theorem modRing_scan (r : Fin 16) (f : Ring → Ring) (s : State) : (modRing r f s).scan = s.scan := rfl
@[simp] theorem modRing_evt (r : Fin 16) (f : Ring → Ring) (s : State) : (modRing r f s).evt = s.evt := rfl
@[simp] theorem modRing_host (r : Fin 16) (f : Ring → Ring) (s : State) : (modRing r f s).host = s.host := rfl
@[simp] theorem modRing_mbx (r : Fin 16) (f : Ring → Ring) (s : State) : (modRing r f s).mbx = s.mbx := rfl
@[simp] theorem modRing_ram (r : Fin 16) (f : Ring → Ring) (s : State) : (modRing r f s).ram = s.ram := rfl
@[simp] theorem modRing_ianik (r : Fin 16) (f : Ring → Ring) (s : State) : (modRing r f s).ianik = s.ianik := rfl
@[simp] theorem modRing_hive (r : Fin 16) (f : Ring → Ring) (s : State) : (modRing r f s).hive = s.hive := rfl
@[simp] theorem modRing_bel (r : Fin 16) (f : Ring → Ring) (s : State) : (modRing r f s).bel = s.bel := rfl
@[simp] theorem modRing_stove (r : Fin 16) (f : Ring → Ring) (s : State) : (modRing r f s).stove = s.stove := rfl
@[simp] theorem modRing_rx (r : Fin 16) (f : Ring → Ring) (s : State) : (modRing r f s).rx = s.rx := rfl
@[simp] theorem modRing_tx (r : Fin 16) (f : Ring → Ring) (s : State) : (modRing r f s).tx = s.tx := rfl
@[simp] theorem modRing_grps (r : Fin 16) (f : Ring → Ring) (s : State) : (modRing r f s).grps = s.grps := rfl
@[simp] theorem modRing_hw (r : Fin 16) (f : Ring → Ring) (s : State) : (modRing r f s).hw = s.hw := rfl
@[simp] theorem modRing_dmpr (r : Fin 16) (f : Ring → Ring) (s : State) : (modRing r f s).dmpr = s.dmpr := rfl
@[simp] theorem modRing_care (r : Fin 16) (f : Ring → Ring) (s : State) : (modRing r f s).care = s.care := rfl
@[simp] theorem modRing_boot (r : Fin 16) (f : Ring → Ring) (s : State) : (modRing r f s).boot = s.boot := rfl

/-! ### modProf -/

@[simp] theorem modProf_p0 (k : Nat) (f : Profile → Profile) (s : State) :
    (modProf k f s).p0 = { s.p0 with prof := vmodN s.p0.prof k f } := rfl
@[simp] theorem modProf_pending (k : Nat) (f : Profile → Profile) (s : State) : (modProf k f s).pending = s.pending := rfl
@[simp] theorem modProf_fresh (k : Nat) (f : Profile → Profile) (s : State) : (modProf k f s).fresh = s.fresh := rfl
@[simp] theorem modProf_pow (k : Nat) (f : Profile → Profile) (s : State) : (modProf k f s).pow = s.pow := rfl
@[simp] theorem modProf_flt (k : Nat) (f : Profile → Profile) (s : State) : (modProf k f s).flt = s.flt := rfl
@[simp] theorem modProf_keeper (k : Nat) (f : Profile → Profile) (s : State) : (modProf k f s).keeper = s.keeper := rfl
@[simp] theorem modProf_hearth (k : Nat) (f : Profile → Profile) (s : State) : (modProf k f s).hearth = s.hearth := rfl
@[simp] theorem modProf_scan (k : Nat) (f : Profile → Profile) (s : State) : (modProf k f s).scan = s.scan := rfl
@[simp] theorem modProf_evt (k : Nat) (f : Profile → Profile) (s : State) : (modProf k f s).evt = s.evt := rfl
@[simp] theorem modProf_host (k : Nat) (f : Profile → Profile) (s : State) : (modProf k f s).host = s.host := rfl
@[simp] theorem modProf_mbx (k : Nat) (f : Profile → Profile) (s : State) : (modProf k f s).mbx = s.mbx := rfl
@[simp] theorem modProf_ram (k : Nat) (f : Profile → Profile) (s : State) : (modProf k f s).ram = s.ram := rfl
@[simp] theorem modProf_ianik (k : Nat) (f : Profile → Profile) (s : State) : (modProf k f s).ianik = s.ianik := rfl
@[simp] theorem modProf_hive (k : Nat) (f : Profile → Profile) (s : State) : (modProf k f s).hive = s.hive := rfl
@[simp] theorem modProf_bel (k : Nat) (f : Profile → Profile) (s : State) : (modProf k f s).bel = s.bel := rfl
@[simp] theorem modProf_stove (k : Nat) (f : Profile → Profile) (s : State) : (modProf k f s).stove = s.stove := rfl
@[simp] theorem modProf_rx (k : Nat) (f : Profile → Profile) (s : State) : (modProf k f s).rx = s.rx := rfl
@[simp] theorem modProf_tx (k : Nat) (f : Profile → Profile) (s : State) : (modProf k f s).tx = s.tx := rfl
@[simp] theorem modProf_grps (k : Nat) (f : Profile → Profile) (s : State) : (modProf k f s).grps = s.grps := rfl
@[simp] theorem modProf_hw (k : Nat) (f : Profile → Profile) (s : State) : (modProf k f s).hw = s.hw := rfl
@[simp] theorem modProf_dmpr (k : Nat) (f : Profile → Profile) (s : State) : (modProf k f s).dmpr = s.dmpr := rfl
@[simp] theorem modProf_care (k : Nat) (f : Profile → Profile) (s : State) : (modProf k f s).care = s.care := rfl
@[simp] theorem modProf_boot (k : Nat) (f : Profile → Profile) (s : State) : (modProf k f s).boot = s.boot := rfl

/-! ### modHost -/

@[simp] theorem modHost_host (f : HostPort → HostPort) (s : State) :
    (modHost f s).host = f s.host := rfl
@[simp] theorem modHost_pending (f : HostPort → HostPort) (s : State) : (modHost f s).pending = s.pending := rfl
@[simp] theorem modHost_fresh (f : HostPort → HostPort) (s : State) : (modHost f s).fresh = s.fresh := rfl
@[simp] theorem modHost_pow (f : HostPort → HostPort) (s : State) : (modHost f s).pow = s.pow := rfl
@[simp] theorem modHost_flt (f : HostPort → HostPort) (s : State) : (modHost f s).flt = s.flt := rfl
@[simp] theorem modHost_keeper (f : HostPort → HostPort) (s : State) : (modHost f s).keeper = s.keeper := rfl
@[simp] theorem modHost_hearth (f : HostPort → HostPort) (s : State) : (modHost f s).hearth = s.hearth := rfl
@[simp] theorem modHost_scan (f : HostPort → HostPort) (s : State) : (modHost f s).scan = s.scan := rfl
@[simp] theorem modHost_evt (f : HostPort → HostPort) (s : State) : (modHost f s).evt = s.evt := rfl
@[simp] theorem modHost_mbx (f : HostPort → HostPort) (s : State) : (modHost f s).mbx = s.mbx := rfl
@[simp] theorem modHost_ram (f : HostPort → HostPort) (s : State) : (modHost f s).ram = s.ram := rfl
@[simp] theorem modHost_ianik (f : HostPort → HostPort) (s : State) : (modHost f s).ianik = s.ianik := rfl
@[simp] theorem modHost_hive (f : HostPort → HostPort) (s : State) : (modHost f s).hive = s.hive := rfl
@[simp] theorem modHost_bel (f : HostPort → HostPort) (s : State) : (modHost f s).bel = s.bel := rfl
@[simp] theorem modHost_stove (f : HostPort → HostPort) (s : State) : (modHost f s).stove = s.stove := rfl
@[simp] theorem modHost_rx (f : HostPort → HostPort) (s : State) : (modHost f s).rx = s.rx := rfl
@[simp] theorem modHost_tx (f : HostPort → HostPort) (s : State) : (modHost f s).tx = s.tx := rfl
@[simp] theorem modHost_grps (f : HostPort → HostPort) (s : State) : (modHost f s).grps = s.grps := rfl
@[simp] theorem modHost_hw (f : HostPort → HostPort) (s : State) : (modHost f s).hw = s.hw := rfl
@[simp] theorem modHost_dmpr (f : HostPort → HostPort) (s : State) : (modHost f s).dmpr = s.dmpr := rfl
@[simp] theorem modHost_care (f : HostPort → HostPort) (s : State) : (modHost f s).care = s.care := rfl
@[simp] theorem modHost_p0 (f : HostPort → HostPort) (s : State) : (modHost f s).p0 = s.p0 := rfl
@[simp] theorem modHost_boot (f : HostPort → HostPort) (s : State) : (modHost f s).boot = s.boot := rfl

/-! ### setRoutine -/

@[simp] theorem setRoutine_ianik (r : Option Routine) (s : State) :
    (setRoutine r s).ianik = { s.ianik with routine := r } := rfl
@[simp] theorem setRoutine_pending (r : Option Routine) (s : State) : (setRoutine r s).pending = s.pending := rfl
@[simp] theorem setRoutine_fresh (r : Option Routine) (s : State) : (setRoutine r s).fresh = s.fresh := rfl
@[simp] theorem setRoutine_pow (r : Option Routine) (s : State) : (setRoutine r s).pow = s.pow := rfl
@[simp] theorem setRoutine_flt (r : Option Routine) (s : State) : (setRoutine r s).flt = s.flt := rfl
@[simp] theorem setRoutine_keeper (r : Option Routine) (s : State) : (setRoutine r s).keeper = s.keeper := rfl
@[simp] theorem setRoutine_hearth (r : Option Routine) (s : State) : (setRoutine r s).hearth = s.hearth := rfl
@[simp] theorem setRoutine_scan (r : Option Routine) (s : State) : (setRoutine r s).scan = s.scan := rfl
@[simp] theorem setRoutine_evt (r : Option Routine) (s : State) : (setRoutine r s).evt = s.evt := rfl
@[simp] theorem setRoutine_host (r : Option Routine) (s : State) : (setRoutine r s).host = s.host := rfl
@[simp] theorem setRoutine_mbx (r : Option Routine) (s : State) : (setRoutine r s).mbx = s.mbx := rfl
@[simp] theorem setRoutine_ram (r : Option Routine) (s : State) : (setRoutine r s).ram = s.ram := rfl
@[simp] theorem setRoutine_hive (r : Option Routine) (s : State) : (setRoutine r s).hive = s.hive := rfl
@[simp] theorem setRoutine_bel (r : Option Routine) (s : State) : (setRoutine r s).bel = s.bel := rfl
@[simp] theorem setRoutine_stove (r : Option Routine) (s : State) : (setRoutine r s).stove = s.stove := rfl
@[simp] theorem setRoutine_rx (r : Option Routine) (s : State) : (setRoutine r s).rx = s.rx := rfl
@[simp] theorem setRoutine_tx (r : Option Routine) (s : State) : (setRoutine r s).tx = s.tx := rfl
@[simp] theorem setRoutine_grps (r : Option Routine) (s : State) : (setRoutine r s).grps = s.grps := rfl
@[simp] theorem setRoutine_hw (r : Option Routine) (s : State) : (setRoutine r s).hw = s.hw := rfl
@[simp] theorem setRoutine_dmpr (r : Option Routine) (s : State) : (setRoutine r s).dmpr = s.dmpr := rfl
@[simp] theorem setRoutine_care (r : Option Routine) (s : State) : (setRoutine r s).care = s.care := rfl
@[simp] theorem setRoutine_p0 (r : Option Routine) (s : State) : (setRoutine r s).p0 = s.p0 := rfl
@[simp] theorem setRoutine_boot (r : Option Routine) (s : State) : (setRoutine r s).boot = s.boot := rfl

/-! ### setRail -/

@[simp] theorem setRail_pow (r : Rail) (g : Bool) (s : State) :
    (setRail r g s).pow = { s.pow with rails := s.pow.rails.set (railIx r) g } := rfl
@[simp] theorem setRail_pending (r : Rail) (g : Bool) (s : State) : (setRail r g s).pending = s.pending := rfl
@[simp] theorem setRail_fresh (r : Rail) (g : Bool) (s : State) : (setRail r g s).fresh = s.fresh := rfl
@[simp] theorem setRail_flt (r : Rail) (g : Bool) (s : State) : (setRail r g s).flt = s.flt := rfl
@[simp] theorem setRail_keeper (r : Rail) (g : Bool) (s : State) : (setRail r g s).keeper = s.keeper := rfl
@[simp] theorem setRail_hearth (r : Rail) (g : Bool) (s : State) : (setRail r g s).hearth = s.hearth := rfl
@[simp] theorem setRail_scan (r : Rail) (g : Bool) (s : State) : (setRail r g s).scan = s.scan := rfl
@[simp] theorem setRail_evt (r : Rail) (g : Bool) (s : State) : (setRail r g s).evt = s.evt := rfl
@[simp] theorem setRail_host (r : Rail) (g : Bool) (s : State) : (setRail r g s).host = s.host := rfl
@[simp] theorem setRail_mbx (r : Rail) (g : Bool) (s : State) : (setRail r g s).mbx = s.mbx := rfl
@[simp] theorem setRail_ram (r : Rail) (g : Bool) (s : State) : (setRail r g s).ram = s.ram := rfl
@[simp] theorem setRail_ianik (r : Rail) (g : Bool) (s : State) : (setRail r g s).ianik = s.ianik := rfl
@[simp] theorem setRail_hive (r : Rail) (g : Bool) (s : State) : (setRail r g s).hive = s.hive := rfl
@[simp] theorem setRail_bel (r : Rail) (g : Bool) (s : State) : (setRail r g s).bel = s.bel := rfl
@[simp] theorem setRail_stove (r : Rail) (g : Bool) (s : State) : (setRail r g s).stove = s.stove := rfl
@[simp] theorem setRail_rx (r : Rail) (g : Bool) (s : State) : (setRail r g s).rx = s.rx := rfl
@[simp] theorem setRail_tx (r : Rail) (g : Bool) (s : State) : (setRail r g s).tx = s.tx := rfl
@[simp] theorem setRail_grps (r : Rail) (g : Bool) (s : State) : (setRail r g s).grps = s.grps := rfl
@[simp] theorem setRail_hw (r : Rail) (g : Bool) (s : State) : (setRail r g s).hw = s.hw := rfl
@[simp] theorem setRail_dmpr (r : Rail) (g : Bool) (s : State) : (setRail r g s).dmpr = s.dmpr := rfl
@[simp] theorem setRail_care (r : Rail) (g : Bool) (s : State) : (setRail r g s).care = s.care := rfl
@[simp] theorem setRail_p0 (r : Rail) (g : Bool) (s : State) : (setRail r g s).p0 = s.p0 := rfl
@[simp] theorem setRail_boot (r : Rail) (g : Bool) (s : State) : (setRail r g s).boot = s.boot := rfl

/-! ### raiseFrom -/

@[simp] theorem raiseFrom_pending (src n : Nat) (d : Word) (s : State) : (raiseFrom src n d s).pending = s.pending := rfl
@[simp] theorem raiseFrom_fresh (src n : Nat) (d : Word) (s : State) : (raiseFrom src n d s).fresh = s.fresh := rfl
@[simp] theorem raiseFrom_pow (src n : Nat) (d : Word) (s : State) : (raiseFrom src n d s).pow = s.pow := rfl
@[simp] theorem raiseFrom_flt (src n : Nat) (d : Word) (s : State) : (raiseFrom src n d s).flt = s.flt := rfl
@[simp] theorem raiseFrom_keeper (src n : Nat) (d : Word) (s : State) : (raiseFrom src n d s).keeper = s.keeper := rfl
@[simp] theorem raiseFrom_hearth (src n : Nat) (d : Word) (s : State) : (raiseFrom src n d s).hearth = s.hearth := rfl
@[simp] theorem raiseFrom_scan (src n : Nat) (d : Word) (s : State) : (raiseFrom src n d s).scan = s.scan := rfl
@[simp] theorem raiseFrom_host (src n : Nat) (d : Word) (s : State) : (raiseFrom src n d s).host = s.host := rfl
@[simp] theorem raiseFrom_mbx (src n : Nat) (d : Word) (s : State) : (raiseFrom src n d s).mbx = s.mbx := rfl
@[simp] theorem raiseFrom_ram (src n : Nat) (d : Word) (s : State) : (raiseFrom src n d s).ram = s.ram := rfl
@[simp] theorem raiseFrom_ianik (src n : Nat) (d : Word) (s : State) : (raiseFrom src n d s).ianik = s.ianik := rfl
@[simp] theorem raiseFrom_hive (src n : Nat) (d : Word) (s : State) : (raiseFrom src n d s).hive = s.hive := rfl
@[simp] theorem raiseFrom_bel (src n : Nat) (d : Word) (s : State) : (raiseFrom src n d s).bel = s.bel := rfl
@[simp] theorem raiseFrom_stove (src n : Nat) (d : Word) (s : State) : (raiseFrom src n d s).stove = s.stove := rfl
@[simp] theorem raiseFrom_rx (src n : Nat) (d : Word) (s : State) : (raiseFrom src n d s).rx = s.rx := rfl
@[simp] theorem raiseFrom_tx (src n : Nat) (d : Word) (s : State) : (raiseFrom src n d s).tx = s.tx := rfl
@[simp] theorem raiseFrom_grps (src n : Nat) (d : Word) (s : State) : (raiseFrom src n d s).grps = s.grps := rfl
@[simp] theorem raiseFrom_hw (src n : Nat) (d : Word) (s : State) : (raiseFrom src n d s).hw = s.hw := rfl
@[simp] theorem raiseFrom_dmpr (src n : Nat) (d : Word) (s : State) : (raiseFrom src n d s).dmpr = s.dmpr := rfl
@[simp] theorem raiseFrom_care (src n : Nat) (d : Word) (s : State) : (raiseFrom src n d s).care = s.care := rfl
@[simp] theorem raiseFrom_p0 (src n : Nat) (d : Word) (s : State) : (raiseFrom src n d s).p0 = s.p0 := rfl
@[simp] theorem raiseFrom_boot (src n : Nat) (d : Word) (s : State) : (raiseFrom src n d s).boot = s.boot := rfl

/-! ### dropEvts -/

@[simp] theorem dropEvts_pending (src : Nat) (own : List Nat) (s : State) : (dropEvts src own s).pending = s.pending := by simp only [dropEvts]
@[simp] theorem dropEvts_fresh (src : Nat) (own : List Nat) (s : State) : (dropEvts src own s).fresh = s.fresh := by simp only [dropEvts]
@[simp] theorem dropEvts_pow (src : Nat) (own : List Nat) (s : State) : (dropEvts src own s).pow = s.pow := by simp only [dropEvts]
@[simp] theorem dropEvts_flt (src : Nat) (own : List Nat) (s : State) : (dropEvts src own s).flt = s.flt := by simp only [dropEvts]
@[simp] theorem dropEvts_keeper (src : Nat) (own : List Nat) (s : State) : (dropEvts src own s).keeper = s.keeper := by simp only [dropEvts]
@[simp] theorem dropEvts_hearth (src : Nat) (own : List Nat) (s : State) : (dropEvts src own s).hearth = s.hearth := by simp only [dropEvts]
@[simp] theorem dropEvts_scan (src : Nat) (own : List Nat) (s : State) : (dropEvts src own s).scan = s.scan := by simp only [dropEvts]
@[simp] theorem dropEvts_host (src : Nat) (own : List Nat) (s : State) : (dropEvts src own s).host = s.host := by simp only [dropEvts]
@[simp] theorem dropEvts_mbx (src : Nat) (own : List Nat) (s : State) : (dropEvts src own s).mbx = s.mbx := by simp only [dropEvts]
@[simp] theorem dropEvts_ram (src : Nat) (own : List Nat) (s : State) : (dropEvts src own s).ram = s.ram := by simp only [dropEvts]
@[simp] theorem dropEvts_ianik (src : Nat) (own : List Nat) (s : State) : (dropEvts src own s).ianik = s.ianik := by simp only [dropEvts]
@[simp] theorem dropEvts_hive (src : Nat) (own : List Nat) (s : State) : (dropEvts src own s).hive = s.hive := by simp only [dropEvts]
@[simp] theorem dropEvts_bel (src : Nat) (own : List Nat) (s : State) : (dropEvts src own s).bel = s.bel := by simp only [dropEvts]
@[simp] theorem dropEvts_stove (src : Nat) (own : List Nat) (s : State) : (dropEvts src own s).stove = s.stove := by simp only [dropEvts]
@[simp] theorem dropEvts_rx (src : Nat) (own : List Nat) (s : State) : (dropEvts src own s).rx = s.rx := by simp only [dropEvts]
@[simp] theorem dropEvts_tx (src : Nat) (own : List Nat) (s : State) : (dropEvts src own s).tx = s.tx := by simp only [dropEvts]
@[simp] theorem dropEvts_grps (src : Nat) (own : List Nat) (s : State) : (dropEvts src own s).grps = s.grps := by simp only [dropEvts]
@[simp] theorem dropEvts_hw (src : Nat) (own : List Nat) (s : State) : (dropEvts src own s).hw = s.hw := by simp only [dropEvts]
@[simp] theorem dropEvts_dmpr (src : Nat) (own : List Nat) (s : State) : (dropEvts src own s).dmpr = s.dmpr := by simp only [dropEvts]
@[simp] theorem dropEvts_care (src : Nat) (own : List Nat) (s : State) : (dropEvts src own s).care = s.care := by simp only [dropEvts]
@[simp] theorem dropEvts_p0 (src : Nat) (own : List Nat) (s : State) : (dropEvts src own s).p0 = s.p0 := by simp only [dropEvts]
@[simp] theorem dropEvts_boot (src : Nat) (own : List Nat) (s : State) : (dropEvts src own s).boot = s.boot := by simp only [dropEvts]

/-! ### stageOwn -/

@[simp] theorem stageOwn_pending (e : Nat) (c : Change) (s : State) : (stageOwn e c s).pending = s.pending := rfl
@[simp] theorem stageOwn_fresh (e : Nat) (c : Change) (s : State) : (stageOwn e c s).fresh = s.fresh := rfl
@[simp] theorem stageOwn_pow (e : Nat) (c : Change) (s : State) : (stageOwn e c s).pow = s.pow := rfl
@[simp] theorem stageOwn_flt (e : Nat) (c : Change) (s : State) : (stageOwn e c s).flt = s.flt := rfl
@[simp] theorem stageOwn_keeper (e : Nat) (c : Change) (s : State) : (stageOwn e c s).keeper = s.keeper := rfl
@[simp] theorem stageOwn_hearth (e : Nat) (c : Change) (s : State) : (stageOwn e c s).hearth = s.hearth := rfl
@[simp] theorem stageOwn_scan (e : Nat) (c : Change) (s : State) : (stageOwn e c s).scan = s.scan := rfl
@[simp] theorem stageOwn_evt (e : Nat) (c : Change) (s : State) : (stageOwn e c s).evt = s.evt := rfl
@[simp] theorem stageOwn_host (e : Nat) (c : Change) (s : State) : (stageOwn e c s).host = s.host := rfl
@[simp] theorem stageOwn_mbx (e : Nat) (c : Change) (s : State) : (stageOwn e c s).mbx = s.mbx := rfl
@[simp] theorem stageOwn_ram (e : Nat) (c : Change) (s : State) : (stageOwn e c s).ram = s.ram := rfl
@[simp] theorem stageOwn_hive (e : Nat) (c : Change) (s : State) : (stageOwn e c s).hive = s.hive := rfl
@[simp] theorem stageOwn_bel (e : Nat) (c : Change) (s : State) : (stageOwn e c s).bel = s.bel := rfl
@[simp] theorem stageOwn_stove (e : Nat) (c : Change) (s : State) : (stageOwn e c s).stove = s.stove := rfl
@[simp] theorem stageOwn_rx (e : Nat) (c : Change) (s : State) : (stageOwn e c s).rx = s.rx := rfl
@[simp] theorem stageOwn_tx (e : Nat) (c : Change) (s : State) : (stageOwn e c s).tx = s.tx := rfl
@[simp] theorem stageOwn_grps (e : Nat) (c : Change) (s : State) : (stageOwn e c s).grps = s.grps := rfl
@[simp] theorem stageOwn_hw (e : Nat) (c : Change) (s : State) : (stageOwn e c s).hw = s.hw := rfl
@[simp] theorem stageOwn_dmpr (e : Nat) (c : Change) (s : State) : (stageOwn e c s).dmpr = s.dmpr := rfl
@[simp] theorem stageOwn_care (e : Nat) (c : Change) (s : State) : (stageOwn e c s).care = s.care := rfl
@[simp] theorem stageOwn_p0 (e : Nat) (c : Change) (s : State) : (stageOwn e c s).p0 = s.p0 := rfl
@[simp] theorem stageOwn_boot (e : Nat) (c : Change) (s : State) : (stageOwn e c s).boot = s.boot := rfl

/-! ### shakesDone -/

@[simp] theorem shakesDone_pending (s : State) : (shakesDone s).pending = s.pending := rfl
@[simp] theorem shakesDone_fresh (s : State) : (shakesDone s).fresh = s.fresh := rfl
@[simp] theorem shakesDone_pow (s : State) : (shakesDone s).pow = s.pow := rfl
@[simp] theorem shakesDone_flt (s : State) : (shakesDone s).flt = s.flt := rfl
@[simp] theorem shakesDone_keeper (s : State) : (shakesDone s).keeper = s.keeper := rfl
@[simp] theorem shakesDone_hearth (s : State) : (shakesDone s).hearth = s.hearth := rfl
@[simp] theorem shakesDone_scan (s : State) : (shakesDone s).scan = s.scan := rfl
@[simp] theorem shakesDone_evt (s : State) : (shakesDone s).evt = s.evt := rfl
@[simp] theorem shakesDone_host (s : State) : (shakesDone s).host = s.host := rfl
@[simp] theorem shakesDone_mbx (s : State) : (shakesDone s).mbx = s.mbx := rfl
@[simp] theorem shakesDone_ram (s : State) : (shakesDone s).ram = s.ram := rfl
@[simp] theorem shakesDone_hive (s : State) : (shakesDone s).hive = s.hive := rfl
@[simp] theorem shakesDone_bel (s : State) : (shakesDone s).bel = s.bel := rfl
@[simp] theorem shakesDone_stove (s : State) : (shakesDone s).stove = s.stove := rfl
@[simp] theorem shakesDone_rx (s : State) : (shakesDone s).rx = s.rx := rfl
@[simp] theorem shakesDone_tx (s : State) : (shakesDone s).tx = s.tx := rfl
@[simp] theorem shakesDone_grps (s : State) : (shakesDone s).grps = s.grps := rfl
@[simp] theorem shakesDone_hw (s : State) : (shakesDone s).hw = s.hw := rfl
@[simp] theorem shakesDone_dmpr (s : State) : (shakesDone s).dmpr = s.dmpr := rfl
@[simp] theorem shakesDone_care (s : State) : (shakesDone s).care = s.care := rfl
@[simp] theorem shakesDone_p0 (s : State) : (shakesDone s).p0 = s.p0 := rfl
@[simp] theorem shakesDone_boot (s : State) : (shakesDone s).boot = s.boot := rfl

/-! ### sendCell -/

@[simp] theorem sendCell_pending (e : QEntry) (s : State) : (sendCell e s).pending = s.pending := by unfold sendCell; split <;> rfl
@[simp] theorem sendCell_fresh (e : QEntry) (s : State) : (sendCell e s).fresh = s.fresh := by unfold sendCell; split <;> rfl
@[simp] theorem sendCell_pow (e : QEntry) (s : State) : (sendCell e s).pow = s.pow := by unfold sendCell; split <;> rfl
@[simp] theorem sendCell_flt (e : QEntry) (s : State) : (sendCell e s).flt = s.flt := by unfold sendCell; split <;> rfl
@[simp] theorem sendCell_keeper (e : QEntry) (s : State) : (sendCell e s).keeper = s.keeper := by unfold sendCell; split <;> rfl
@[simp] theorem sendCell_hearth (e : QEntry) (s : State) : (sendCell e s).hearth = s.hearth := by unfold sendCell; split <;> rfl
@[simp] theorem sendCell_scan (e : QEntry) (s : State) : (sendCell e s).scan = s.scan := by unfold sendCell; split <;> rfl
@[simp] theorem sendCell_evt (e : QEntry) (s : State) : (sendCell e s).evt = s.evt := by unfold sendCell; split <;> rfl
@[simp] theorem sendCell_host (e : QEntry) (s : State) : (sendCell e s).host = s.host := by unfold sendCell; split <;> rfl
@[simp] theorem sendCell_mbx (e : QEntry) (s : State) : (sendCell e s).mbx = s.mbx := by unfold sendCell; split <;> rfl
@[simp] theorem sendCell_ram (e : QEntry) (s : State) : (sendCell e s).ram = s.ram := by unfold sendCell; split <;> rfl
@[simp] theorem sendCell_bel (e : QEntry) (s : State) : (sendCell e s).bel = s.bel := by unfold sendCell; split <;> rfl
@[simp] theorem sendCell_stove (e : QEntry) (s : State) : (sendCell e s).stove = s.stove := by unfold sendCell; split <;> rfl
@[simp] theorem sendCell_rx (e : QEntry) (s : State) : (sendCell e s).rx = s.rx := by unfold sendCell; split <;> rfl
@[simp] theorem sendCell_tx (e : QEntry) (s : State) : (sendCell e s).tx = s.tx := by unfold sendCell; split <;> rfl
@[simp] theorem sendCell_grps (e : QEntry) (s : State) : (sendCell e s).grps = s.grps := by unfold sendCell; split <;> rfl
@[simp] theorem sendCell_hw (e : QEntry) (s : State) : (sendCell e s).hw = s.hw := by unfold sendCell; split <;> rfl
@[simp] theorem sendCell_dmpr (e : QEntry) (s : State) : (sendCell e s).dmpr = s.dmpr := by unfold sendCell; split <;> rfl
@[simp] theorem sendCell_care (e : QEntry) (s : State) : (sendCell e s).care = s.care := by unfold sendCell; split <;> rfl
@[simp] theorem sendCell_p0 (e : QEntry) (s : State) : (sendCell e s).p0 = s.p0 := by unfold sendCell; split <;> rfl
@[simp] theorem sendCell_boot (e : QEntry) (s : State) : (sendCell e s).boot = s.boot := by unfold sendCell; split <;> rfl

end Sys2Proof.Machine
end

