-- ==== Sys2Proof/Laws/Mailbox.lean ====
section
/-! SUPPORT. The mailbox protocol: what a command does where it is accepted, refused, lost or unserved, and that the
words of a command read back as the command. -/

namespace Sys2Proof.Machine

@[simp] theorem hostRams_pow (a : Nat) (ws : List Word) (s : State) : (hostRams a ws s).pow = s.pow := by
  induction ws generalizing a s with
  | nil => rfl
  | cons w ws ih => refine (ih _ _).trans ?_; unfold hostRam; split <;> rfl

@[simp] theorem hostRams_boot (a : Nat) (ws : List Word) (s : State) : (hostRams a ws s).boot = s.boot := by
  induction ws generalizing a s with
  | nil => rfl
  | cons w ws ih => refine (ih _ _).trans ?_; unfold hostRam; split <;> rfl

@[simp] theorem hostRams_p0 (a : Nat) (ws : List Word) (s : State) : (hostRams a ws s).p0 = s.p0 := by
  induction ws generalizing a s with
  | nil => rfl
  | cons w ws ih => refine (ih _ _).trans ?_; unfold hostRam; split <;> rfl

/-- Writing the command and ringing do not change who serves the mailbox. -/
theorem mbxServed_rung (d : CmdDef) (m : Fin 4) (r : Req) (s : State) :
    mbxServed m (ringMbx m s.mbx[m].seqRung (hostRams (cmdArea m) (reqWords d.opcode r) s)) = mbxServed m s := by
  simp [mbxServed, ringMbx, ianikRuns, inService]

/-- An accepted command acts on the state it is asked in, and its response waits for the next strobe. -/
theorem mbxCommand_accepted {d : CmdDef} {m : Fin 4} {r : Req} {s : State} (h : Accepts d m r s) :
    mbxCommand d m r s = answer d.opcode m r (d.act m r (asked d m r s)).2.1 (d.act m r (asked d m r s)).2.2 false
      (d.act m r (asked d m r s)).1 := by
  obtain ⟨h1, h2, h3, h4⟩ := h
  rw [← mbxServed_rung d m r s] at h3
  unfold mbxCommand
  simp only [h1, h2, Bool.not_true, Bool.false_eq_true, if_false, h3, if_true]
  unfold sample
  unfold asked at h4 ⊢
  rw [h4]

/-- A refused command answers with its status, and what `refused` says of it is done. -/
theorem mbxCommand_refused {d : CmdDef} {m : Fin 4} {r : Req} {st : Nat} {s : State} (h : Refuses d m r st s) :
    mbxCommand d m r s = answer d.opcode m r st [] false (d.refused st r (asked d m r s)) := by
  obtain ⟨h1, h2, h3, h4⟩ := h
  rw [← mbxServed_rung d m r s] at h3
  unfold mbxCommand
  simp only [h1, h2, Bool.not_true, Bool.false_eq_true, if_false, h3, if_true]
  unfold sample
  unfold asked at h4 ⊢
  rw [h4]

/-- A ring on a mailbox that is RUNG or BUSY is lost. -/
theorem mbxCommand_lost {d : CmdDef} {m : Fin 4} {r : Req} {s : State} (h1 : mbxReach s = true)
    (h2 : mbxFree m s = false) : mbxCommand d m r s = ringLost m s := by
  unfold mbxCommand
  simp [h1, h2]

/-- A mailbox that PSP1 does not reach changes nothing. -/
theorem mbxCommand_unreached {d : CmdDef} {m : Fin 4} {r : Req} {s : State} (h1 : mbxReach s = false) :
    mbxCommand d m r s = s := by
  unfold mbxCommand
  simp [h1]

/-- Every mailbox command is its definition's command on its mailbox. -/
theorem exec_mailbox {i : Instr} {d : CmdDef} {m : Fin 4} {r : Req} (h : mailboxOf i = some (d, m, r)) (s : State) :
    exec i s = .next (mbxCommand d m r s) := by
  cases i <;> first | (cases h; done) | (cases h; rfl)

end Sys2Proof.Machine
end

