-- ==== Sys2Proof/Laws/Own.lean ====
section
/-! SUPPORT. What a cell's own work leaves alone (Own): no operation of one cell changes another cell, the domains or the
Hive cycle (R66, R111). -/

namespace Sys2Proof.Machine

/-- From `s0` to `s` nothing of the Hive changed but cell `c` and the memories: the other cells, the domains and the Hive
cycle stand as they did. -/
structure Own (c : Fin 32) (s0 s : State) : Prop where
  others : ∀ k : Fin 32, k ≠ c → cellAt s k = cellAt s0 k
  dom : s.hive.dom = s0.hive.dom
  cycle : s.hive.cycle = s0.hive.cycle

theorem Own.refl (c : Fin 32) (s : State) : Own c s s := ⟨fun _ _ => rfl, rfl, rfl⟩

theorem own_foldl {c : Fin 32} {s0 : State} {α : Type} (g : State → α → State) (l : List α) (s : State)
    (hg : ∀ s a, Own c s0 s → Own c s0 (g s a)) (h : Own c s0 s) : Own c s0 (l.foldl g s) := by
  induction l generalizing s with
  | nil => exact h
  | cons a l ih => exact ih _ (hg _ _ h)

theorem own_mk {c : Fin 32} {s0 t : State}
    {fresh flt keeper hearth scan evt host mbx ram ianik hive bel stove rx tx grps hw dmpr care p0 boot}
    (e : (hive.cells, hive.dom, hive.cycle) = (t.hive.cells, t.hive.dom, t.hive.cycle)) (h : Own c s0 t) :
    Own c s0 (State.mk t.pending fresh t.pow flt keeper hearth scan evt host mbx ram ianik hive bel stove rx tx grps hw
      dmpr care p0 boot) := by
  simp only [Prod.mk.injEq] at e
  obtain ⟨e1, e2, e3⟩ := e
  exact ⟨fun k hk => by simp only [cellAt, e1]; exact h.others k hk, e2.trans h.dom, e3.trans h.cycle⟩

theorem modCell_own {s0 : State} (c : Fin 32) (f : Cell → Cell) (s : State) (h : Own c s0 s) :
    Own c s0 (modCell c f s) :=
  ⟨fun k hk => by
    have e : cellAt (modCell c f s) k = cellAt s k := by
      simp only [cellAt, modCell, vmod, Fin.getElem_fin, Vector.getElem_set]
      rw [if_neg (fun hc => hk (Fin.ext hc.symm))]
    rw [e]; exact h.others k hk, h.dom, h.cycle⟩

theorem raise_own {c : Fin 32} {s0 : State} (n : Nat) (d : Word) (s : State) (h : Own c s0 s) :
    Own c s0 (raise n d s) := by
  exact own_mk rfl h

theorem raiseFrom_own {c : Fin 32} {s0 : State} (src n : Nat) (d : Word) (s : State) (h : Own c s0 s) : Own c s0 (raiseFrom src n d s) :=
  own_mk (t := s) rfl h

theorem healWord_own {c : Fin 32} {s0 : State} (w : WordAt) (s : State) (h : Own c s0 s) :
    Own c s0 (healWord w s) := by
  exact own_mk rfl h

theorem countCorr_own {c : Fin 32} {s0 : State} (k : MemClass) (s : State) (h : Own c s0 s) :
    Own c s0 (countCorr k s) := by
  exact own_mk rfl h

theorem countUnc_own {c : Fin 32} {s0 : State} (w : WordAt) (syndrome : BitVec 7) (patrol : Bool) (s : State) (h : Own c s0 s) :
    Own c s0 (countUnc w syndrome patrol s) :=
  raiseFrom_own _ _ _ _ (own_mk rfl h)

theorem checkWord_own {c : Fin 32} {s0 : State} (w : WordAt) (s : State) (h : Own c s0 s) :
    Own c s0 (checkWord w s).2 := by
  unfold checkWord
  repeat (first
      | with_reducible assumption | (with_reducible refine countUnc_own (h := ?_) ..)
      | (with_reducible refine countCorr_own (h := ?_) ..) | split | dsimp only)

theorem cellFault_own {s0 : State} (c : Fin 32) (b : Nat) (pc : Nat) (s : State) (h : Own c s0 s) :
    Own c s0 (cellFault c b pc s) := by
  unfold cellFault
  repeat (first
      | with_reducible assumption | (with_reducible refine raise_own (h := ?_) ..)
      | (with_reducible refine modCell_own (h := ?_) ..) | split | dsimp only)

theorem cellWaggle_own {s0 : State} (c : Fin 32) (s : State) (h : Own c s0 s) :
    Own c s0 (cellWaggle c s) := by
  unfold cellWaggle
  repeat (first
      | with_reducible assumption | (with_reducible refine raise_own (h := ?_) ..)
      | (with_reducible refine modCell_own (h := ?_) ..) | split | dsimp only)

theorem rdData_own {s0 : State} (c : Fin 32) (pc : Nat) (a : Nat) (s : State) (h : Own c s0 s) :
    Own c s0 (rdData c pc a s).2 := by
  simp only [rdData]
  repeat (first
      | with_reducible assumption | (with_reducible refine checkWord_own (h := ?_) ..)
      | (with_reducible refine cellFault_own (h := ?_) ..) | split | dsimp only)

theorem healWords_own {c : Fin 32} {s0 : State} (mk : Nat → WordAt) (x2 : List Nat) (x3 : State) (h : Own c s0 x3) :
    Own c s0 (healWords mk x2 x3) := by
  induction x2 generalizing mk x3 with
    | nil => (unfold healWords; repeat (first
      | with_reducible assumption | (with_reducible refine healWord_own (h := ?_) ..)
      | (with_reducible refine own_foldl _ _ _ ?_ ?_) | split | dsimp only | (intro _ _ _)
      | ((with_reducible refine own_mk ?_ ?_); rfl)))
    | cons y ys ih => (unfold healWords; repeat (first
      | with_reducible assumption | (with_reducible refine ih (h := ?_) ..)
      | (with_reducible refine healWord_own (h := ?_) ..) | (with_reducible refine own_foldl _ _ _ ?_ ?_)
      | split | dsimp only | (intro _ _ _) | ((with_reducible refine own_mk ?_ ?_); rfl)))

theorem wrData_own {s0 : State} (c : Fin 32) (a : Nat) (x3 : F32) (s : State) (h : Own c s0 s) :
    Own c s0 (wrData c a x3 s) := by
  unfold wrData
  repeat (first
      | with_reducible assumption | (with_reducible refine healWords_own (h := ?_) ..)
      | (with_reducible refine healWord_own (h := ?_) ..) | (with_reducible refine modCell_own (h := ?_) ..)
      | split | dsimp only)

theorem rdCoef_own {s0 : State} (c : Fin 32) (pc : Nat) (a : Nat) (s : State) (h : Own c s0 s) :
    Own c s0 (rdCoef c pc a s).2 := by
  unfold rdCoef
  repeat (first
      | with_reducible assumption | (with_reducible refine checkWord_own (h := ?_) ..)
      | (with_reducible refine cellFault_own (h := ?_) ..) | split | dsimp only)

theorem rdStore_own {c : Fin 32} {s0 : State} (a : Nat) (s : State) (h : Own c s0 s) :
    Own c s0 (rdStore a s).2.2 := by
  simp only [rdStore]
  repeat (first
      | with_reducible assumption | (with_reducible refine checkWord_own (h := ?_) ..) | split | dsimp only)

theorem wrStore_own {c : Fin 32} {s0 : State} (a : Nat) (x : Word) (s : State) (h : Own c s0 s) :
    Own c s0 (wrStore a x s) := by
  have hw := healWords_own (c := c) (s0 := s0) (fun a => ⟨.store, 0, 0, a⟩) (storeGroupWords a) s h
  have hh := healWord_own (c := c) (s0 := s0) ⟨.store, 0, 0, a⟩ s h
  unfold wrStore
  dsimp only
  split
  · exact own_mk rfl hw
  · exact own_mk rfl hh

theorem rdSpace_own {s0 : State} (c : Fin 32) (pc : Nat) (space : Nat) (a : Nat) (s : State) (h : Own c s0 s) :
    Own c s0 (rdSpace c pc space a s).2 := by
  unfold rdSpace
  repeat (first
      | with_reducible assumption | (with_reducible refine rdData_own (h := ?_) ..)
      | (with_reducible refine rdCoef_own (h := ?_) ..) | split | dsimp only)

theorem rdLanes_own {s0 : State} (c : Fin 32) (pc : Nat) (space : Nat) (addr : Nat → Nat) (x5 : List Nat) (x6 : State) (h : Own c s0 x6) :
    Own c s0 (rdLanes c pc space addr x5 x6).2 := by
  induction x5 generalizing pc space addr x6 with
    | nil => (unfold rdLanes; repeat (first
      | with_reducible assumption | (with_reducible refine rdSpace_own (h := ?_) ..)
      | (with_reducible refine own_foldl _ _ _ ?_ ?_) | split | dsimp only | (intro _ _ _)
      | ((with_reducible refine own_mk ?_ ?_); rfl)))
    | cons y ys ih => (unfold rdLanes; repeat (first
      | with_reducible assumption | (with_reducible refine ih (h := ?_) ..)
      | (with_reducible refine rdSpace_own (h := ?_) ..) | (with_reducible refine own_foldl _ _ _ ?_ ?_) | split
      | dsimp only | (intro _ _ _) | ((with_reducible refine own_mk ?_ ?_); rfl)))

theorem storeIssue_own {s0 : State} (c : Fin 32) (phi : Nat) (i : Nat) (pc : Nat) (load : Bool) (reg : Nat) (lanes : List Nat) (a : Nat) (x9 : F32) (s : State) (h : Own c s0 s) :
    Own c s0 (storeIssue c phi i pc load reg lanes a x9 s) := by
  unfold storeIssue
  repeat (first
      | with_reducible assumption | (with_reducible refine cellWaggle_own (h := ?_) ..)
      | (with_reducible refine modCell_own (h := ?_) ..) | split | dsimp only)

theorem storePerform_own {s0 : State} (c : Fin 32) (w : StoreWait) (s : State) (h : Own c s0 s) :
    Own c s0 (storePerform c w s) := by
  unfold storePerform
  repeat (first
      | with_reducible assumption | (with_reducible refine modCell_own (h := ?_) ..)
      | (with_reducible refine rdStore_own (h := ?_) ..) | (with_reducible refine cellFault_own (h := ?_) ..)
      | (with_reducible refine wrStore_own (h := ?_) ..) | split | dsimp only)

theorem performTurn_own {s0 : State} (c : Fin 32) (i : Nat) (s : State) (h : Own c s0 s) :
    Own c s0 (performTurn c i s) := by
  unfold performTurn
  repeat (first
      | with_reducible assumption | (with_reducible refine storePerform_own (h := ?_) ..)
      | (with_reducible refine own_foldl _ _ _ ?_ ?_) | split | dsimp only | (intro _ _ _))

theorem storeLanes_own {s0 : State} (c : Fin 32) (phi : Nat) (i : Nat) (pc : Nat) (space : Nat) (x6 : List (Nat × F32)) (x7 : State) (h : Own c s0 x7) :
    Own c s0 (storeLanes c phi i pc space x6 x7) := by
  induction x6 generalizing phi i pc space x7 with
    | nil => (unfold storeLanes; repeat (first
      | with_reducible assumption | (with_reducible refine wrData_own (h := ?_) ..)
      | (with_reducible refine storeIssue_own (h := ?_) ..) | (with_reducible refine own_foldl _ _ _ ?_ ?_)
      | split | dsimp only | (intro _ _ _) | ((with_reducible refine own_mk ?_ ?_); rfl)))
    | cons y ys ih => (unfold storeLanes; repeat (first
      | with_reducible assumption | (with_reducible refine ih (h := ?_) ..)
      | (with_reducible refine wrData_own (h := ?_) ..) | (with_reducible refine storeIssue_own (h := ?_) ..)
      | (with_reducible refine own_foldl _ _ _ ?_ ?_) | split | dsimp only | (intro _ _ _)
      | ((with_reducible refine own_mk ?_ ?_); rfl)))

theorem tliLane_own {s0 : State} (c : Fin 32) (pc : Nat) (space : Nat) (j : Nat) (x5 : Nat) (u : F32) (s : State) (h : Own c s0 s) :
    Own c s0 (tliLane c pc space j x5 u s).2 := by
  unfold tliLane
  repeat (first
      | with_reducible assumption | (with_reducible refine rdSpace_own (h := ?_) ..) | split | dsimp only)

theorem tliLanes_own {s0 : State} (c : Fin 32) (pc : Nat) (space : Nat) (j : Nat) (x5 : Nat) (u : Vector F32 8) (x7 : List Nat) (x8 : State) (h : Own c s0 x8) :
    Own c s0 (tliLanes c pc space j x5 u x7 x8).2 := by
  induction x7 generalizing pc space j x5 u x8 with
    | nil => (unfold tliLanes; repeat (first
      | with_reducible assumption | (with_reducible refine tliLane_own (h := ?_) ..)
      | (with_reducible refine own_foldl _ _ _ ?_ ?_) | split | dsimp only | (intro _ _ _)
      | ((with_reducible refine own_mk ?_ ?_); rfl)))
    | cons y ys ih => (unfold tliLanes; repeat (first
      | with_reducible assumption | (with_reducible refine ih (h := ?_) ..)
      | (with_reducible refine tliLane_own (h := ?_) ..) | (with_reducible refine own_foldl _ _ _ ?_ ?_) | split
      | dsimp only | (intro _ _ _) | ((with_reducible refine own_mk ?_ ?_); rfl)))

theorem mLoad_own {s0 : State} (c : Fin 32) (phi : Nat) (i : Nat) (pc : Nat) (m : MOp) (lanes : List Nat) (s : State) (h : Own c s0 s) :
    Own c s0 (mLoad c phi i pc m lanes s) := by
  unfold mLoad
  repeat (first
      | with_reducible assumption | (with_reducible refine storeIssue_own (h := ?_) ..)
      | (with_reducible refine rdLanes_own (h := ?_) ..) | (with_reducible refine modCell_own (h := ?_) ..)
      | (with_reducible refine rdSpace_own (h := ?_) ..) | (with_reducible refine own_foldl _ _ _ ?_ ?_) | split
      | dsimp only | (intro _ _ _))

theorem mStore_own {s0 : State} (c : Fin 32) (phi : Nat) (i : Nat) (pc : Nat) (m : MOp) (mask : Byte) (s : State) (h : Own c s0 s) :
    Own c s0 (mStore c phi i pc m mask s) := by
  unfold mStore
  repeat (first
      | with_reducible assumption | (with_reducible refine storeLanes_own (h := ?_) ..) | split | dsimp only)

theorem mPair_own {s0 : State} (c : Fin 32) (i : Nat) (pc : Nat) (m : MOp) (lanes : List Nat) (s : State) (h : Own c s0 s) :
    Own c s0 (mPair c i pc m lanes s) := by
  unfold mPair
  repeat (first
      | with_reducible assumption | (with_reducible refine rdLanes_own (h := ?_) ..)
      | (with_reducible refine modCell_own (h := ?_) ..) | split | dsimp only)

theorem mTable_own {s0 : State} (c : Fin 32) (i : Nat) (pc : Nat) (m : MOp) (lanes : List Nat) (s : State) (h : Own c s0 s) :
    Own c s0 (mTable c i pc m lanes s) := by
  unfold mTable
  repeat (first
      | with_reducible assumption | (with_reducible refine tliLanes_own (h := ?_) ..)
      | (with_reducible refine modCell_own (h := ?_) ..) | split | dsimp only)

theorem mExec_own {s0 : State} (c : Fin 32) (phi : Nat) (i : Nat) (pc : Nat) (m : MOp) (s : State) (h : Own c s0 s) :
    Own c s0 (mExec c phi i pc m s) := by
  unfold mExec
  repeat (first
      | with_reducible assumption | (with_reducible refine cellFault_own (h := ?_) ..)
      | (with_reducible refine modCell_own (h := ?_) ..) | (with_reducible refine mLoad_own (h := ?_) ..)
      | (with_reducible refine mStore_own (h := ?_) ..) | (with_reducible refine mPair_own (h := ?_) ..)
      | (with_reducible refine mTable_own (h := ?_) ..) | split | dsimp only)

theorem checkProg_own {s0 : State} (c : Fin 32) (w : Nat) (x3 : List Nat) (x4 : State) (h : Own c s0 x4) :
    Own c s0 (checkProg c w x3 x4).2 := by
  induction x3 generalizing w x4 with
    | nil => (unfold checkProg; repeat (first
      | with_reducible assumption | (with_reducible refine checkWord_own (h := ?_) ..)
      | (with_reducible refine own_foldl _ _ _ ?_ ?_) | split | dsimp only | (intro _ _ _)
      | ((with_reducible refine own_mk ?_ ?_); rfl)))
    | cons y ys ih => (unfold checkProg; repeat (first
      | with_reducible assumption | (with_reducible refine ih (h := ?_) ..)
      | (with_reducible refine checkWord_own (h := ?_) ..) | (with_reducible refine own_foldl _ _ _ ?_ ?_)
      | split | dsimp only | (intro _ _ _) | ((with_reducible refine own_mk ?_ ?_); rfl)))

theorem fetchWord_own {s0 : State} (c : Fin 32) (s : State) (h : Own c s0 s) :
    Own c s0 (fetchWord c s).2 := by
  unfold fetchWord
  repeat (first
      | with_reducible assumption | (with_reducible refine checkProg_own (h := ?_) ..)
      | (with_reducible refine cellFault_own (h := ?_) ..) | split | dsimp only)

theorem issueA_own {s0 : State} (c : Fin 32) (i : Nat) (pc : Nat) (w : Nat) (x5 : Cell) (s : State) (h : Own c s0 s) :
    Own c s0 (issueA c i pc w x5 s) := by
  unfold issueA
  repeat (first
      | with_reducible assumption | (with_reducible refine cellFault_own (h := ?_) ..)
      | (with_reducible refine modCell_own (h := ?_) ..) | split | dsimp only)

theorem issueC_own {s0 : State} (c : Fin 32) (i : Nat) (pc : Nat) (w : Nat) (x5 : Cell) (s : State) (h : Own c s0 s) :
    Own c s0 (issueC c i pc w x5 s) := by
  unfold issueC
  repeat (first
      | with_reducible assumption | (with_reducible refine modCell_own (h := ?_) ..)
      | (with_reducible refine cellFault_own (h := ?_) ..) | split | dsimp only)

theorem issueSlot_own {s0 : State} (c : Fin 32) (phi : Nat) (s : State) (h : Own c s0 s) :
    Own c s0 (issueSlot c phi s) := by
  unfold issueSlot
  repeat (first
      | with_reducible assumption | (with_reducible refine modCell_own (h := ?_) ..)
      | (with_reducible refine fetchWord_own (h := ?_) ..) | (with_reducible refine issueA_own (h := ?_) ..)
      | (with_reducible refine mExec_own (h := ?_) ..) | (with_reducible refine issueC_own (h := ?_) ..) | split
      | dsimp only)

theorem cellSlot_own {s0 : State} (c : Fin 32) (phi : Nat) (s : State) (h : Own c s0 s) :
    Own c s0 (cellSlot c phi s) := by
  unfold cellSlot
  repeat (first
      | with_reducible assumption | (with_reducible refine issueSlot_own (h := ?_) ..)
      | (with_reducible refine modCell_own (h := ?_) ..) | (with_reducible refine performTurn_own (h := ?_) ..)
      | split | dsimp only)

end Sys2Proof.Machine
end

