-- ==== Sys2Proof/Tests/Slice0.lean ====
section
/-! SUPPORT. The tests: ill-formed commands are refused, the hypotheses of every statement are met by a state, and
small checks of one step against the spec's numbers. -/

namespace Sys2Proof.Tests

open Sys2Proof Sys2Proof.Machine

/-! Each of these proofs asks the kernel to compute, and a proof that waits for the kernel keeps a thread: they are
elaborated one after another. -/

set_option Elab.async false

/-! ### A state that runs, and requests -/

/-- RUN with every sequencer released, presence held, and protocol version 3 on every mailbox. -/
def s0 : State :=
  { pow := { st := .run, seqHive := true, seqBel := true, seqHw := .replicate 2 true }
    keeper := { isOpen := true }, mbx := .replicate 4 { ver := 3 } }

/-- A version 3 request with a target word and payload words. -/
def rq (t : Word) (ws : List Word) : Req := ⟨3, 0, 7, BitVec.ofNat 16 (4 * ws.length), t, ws⟩

/-- STANDBY with every sequencer held. -/
def sHiveoff : State :=
  { s0 with
    pow := { s0.pow with st := .standby, seqHive := false, seqBel := false, seqHw := .replicate 2 false } }

/-- Every Bellows channel in QUIET. -/
def sQuiet : State :=
  { s0 with
    bel := { s0.bel with ch := s0.bel.ch.map (fun c => { c with st := .quiet }) } }

/-- A node on each chain. -/
def sNode : State :=
  { s0 with
    hw := .replicate 2 { nodes := [⟨[], 1, 0, 0, []⟩] } }

/-- Rings ready for playback, and devices present. -/
def sRing : State :=
  { s0 with
    p0 := {
      prof := .replicate 15 { w4 := 0x202 }
      rings := .replicate 16 { st := .ready, kind := .playback, k := 8, c := 1 } } }

/-- An image update session on slot A. -/
def sSession : State :=
  { s0 with
    boot := { s0.boot with session := some false } }

/-- Slot A booted and on trial. -/
def sTrial : State :=
  { s0 with
    boot := { s0.boot with src := .slotA }
    p0 := {
      prof := .replicate 15 { w4 := 0x202 }, mem := [(0x100000, 0), (0x100001, 0), (0x100002, 0)] } }

/-- A manifest with tuning 0. -/
def sMan : State :=
  { s0 with
    boot := { s0.boot with man := some ⟨0, 1, 0, [⟨4, false, false, 0, 0, 1, 4⟩], [], 0⟩ } }

/-- A gain record in the bulk area. -/
def sBulk : State :=
  { s0 with
    ram := wrW [] 0x1004 1 }

/-- Cells with images in every bank. -/
def sSwap : State :=
  { s0 with
    hive := {
      cells := .replicate 32 {
        role := some ⟨.M, 0⟩
        mem := { pmeta := .replicate 2 { image := 1 }, cmeta := .replicate 2 { image := 1 } } } } }

/-- The ROM waiting for a push. -/
def sRom : State :=
  { s0 with
    pow := { s0.pow with st := .powerUp }, boot := { s0.boot with step := 9, wait := true, src := .push } }

/-- Capture rings that run. -/
def sMic : State :=
  { s0 with
    p0 := { s0.p0 with rings := .replicate 16 { st := .running, kind := .capture, k := 1000, c := 1 } } }

/-- Capture rings with four frames. -/
def sCap : State :=
  { s0 with
    p0 := { s0.p0 with rings := .replicate 16 { st := .running, kind := .capture, k := 10, c := 1, fill := 4 } } }

/-! ### Every mailbox command is accepted somewhere -/

theorem test_accepts_system_1 :
    Accepts sysInfoDef 1 (rq 0x0 []) s0 ∧
    Accepts sysHelloDef 1 (rq 0x0 [2]) s0 ∧
    Accepts sysPowerDef 1 (rq 0x0 [0]) s0 ∧
    Accepts sysLoopbackDef 1 (rq 0x0 []) s0 ∧
    Accepts sysPresenceDef 1 (rq 0x0 [0]) s0 := by
  unfold Accepts; decide +kernel

theorem test_accepts_system_2 :
    Accepts sysResetDef 1 (rq 0x0 [0]) s0 ∧
    Accepts sysWatchdogDef 1 (rq 0x0 [0]) s0 := by
  unfold Accepts; decide +kernel

theorem test_accepts_cell_1 :
    Accepts cellInfoDef 1 (rq 0x0 []) s0 ∧
    Accepts cellRoleSetDef 1 (rq 0x0 [3, 0, 0]) s0 ∧
    Accepts cellProgWriteDef 1 (rq 0x0 [0x100, 0, 0, 0, 0]) s0 ∧
    Accepts cellProgMetaDef 1 (rq 0x0 [0, 5, 0x40, 0xe00000, 0, 0xe00000, 0, 0xe00000, 0, 0xe00000, 0, 0xe00000, 0,
      0xe00000, 0, 0xe00000, 0, 0xe00000, 0, 0xe00000, 0, 0xe00000, 0, 0xe00000, 0, 0xe00000, 0, 0xe00000, 0,
      0xe00000, 0, 0xe00000, 0, 0xe00000, 0]) s0 ∧
    Accepts cellCoefWriteDef 1 (rq 0x0 [0x100, 0, 0, 0x3f800000]) s0 := by
  unfold Accepts; decide +kernel

theorem test_accepts_cell_2 :
    Accepts cellBankSwapDef 1 (rq 0x0 [1, 0, 0]) sSwap ∧
    Accepts cellGlideSetDef 1 (rq 0x0 [0, 0, 0, 0]) s0 ∧
    Accepts cellGroupCommitDef 1 (rq 0x0 [1, 0, 0, 0, 4, 0]) s0 ∧
    Accepts cellStatusDef 1 (rq 0x0 []) s0 ∧
    Accepts cellFaultClearDef 1 (rq 0x0 [0, 0, 0]) s0 := by
  unfold Accepts; decide +kernel

theorem test_accepts_cell_3 :
    Accepts cellFaultPolicyDef 1 (rq 0x0 [0, 0, 0]) s0 ∧
    Accepts cellMemReadDef 1 (rq 0x0 [0, 1, 0, 0]) s0 ∧
    Accepts cellImageLoadDef 1 (rq 0x0 [0]) s0 := by
  unfold Accepts; decide +kernel

theorem test_accepts_comb_1 :
    Accepts combInfoDef 1 (rq 0x0 []) s0 ∧
    Accepts combMapSetDef 1 (rq 0x0 [0, 1, 0, 0, 0]) s0 ∧
    Accepts combMapGetDef 1 (rq 0x0 [0, 1]) s0 ∧
    Accepts combStageDef 1 (rq 0x0 [0, 1, 0x3f000000]) s0 ∧
    Accepts combStageBulkDef 1 (rq 0x0 [0, 3]) sBulk := by
  unfold Accepts; decide +kernel

theorem test_accepts_comb_2 :
    Accepts combCommitDef 1 (rq 0x0 [0, 0, 0]) s0 ∧
    Accepts combStageDiscardDef 1 (rq 0x0 []) s0 ∧
    Accepts combGainReadDef 1 (rq 0x0 [0, 1]) s0 ∧
    Accepts combStatusDef 1 (rq 0x0 []) s0 ∧
    Accepts chimneyStatusDef 1 (rq 0x0 [0]) s0 := by
  unfold Accepts; decide +kernel

theorem test_accepts_domain :
    Accepts domainInfoDef 1 (rq 0x0 []) s0 ∧
    Accepts domainSetDef 1 (rq 0x0 [0x110, 0, 0]) sHiveoff ∧
    Accepts bridgeModeSetDef 1 (rq 0x0 [0, 0, 0]) s0 ∧
    Accepts bridgeStatusDef 1 (rq 0x0 []) s0 ∧
    Accepts testgenSetDef 1 (rq 0x0 [0, 0, 0, 0, 0, 0]) s0 := by
  unfold Accepts; decide +kernel

theorem test_accepts_bellows_1 :
    Accepts belInfoDef 1 (rq 0x1 []) s0 ∧
    Accepts belConfigDef 1 (rq 0x1 [0, 0x41200000, 0x42480000, 0x41200000, 0x3d4ccccd, 0xa0064, 0x3f800000,
      0x40a00000, 0, 0]) s0 ∧
    Accepts belLoopSetDef 1 (rq 0x1 [0x3f800000, 0x3f000000, 0x3f000000, 0x3f000000, 0x3f800000, 0, 0]) s0 ∧
    Accepts belEnableDef 1 (rq 0x1 [1, 0, 0]) s0 ∧
    Accepts belMuteDef 1 (rq 0x1 [1, 0, 0]) sQuiet := by
  unfold Accepts; decide +kernel

theorem test_accepts_bellows_2 :
    Accepts belCarrierSetDef 1 (rq 0xffffffff [0, 0, 0]) s0 ∧
    Accepts belStatusDef 1 (rq 0x1 []) s0 ∧
    Accepts belFaultClearDef 1 (rq 0x1 [1, 0, 0]) s0 ∧
    Accepts belFaultPolicyDef 1 (rq 0x1 [1, 0, 0]) s0 ∧
    Accepts belMeasureZDef 1 (rq 0x1 [0, 0x447a0000, 0x3f800000, 0x1e0, 0, 0]) sQuiet := by
  unfold Accepts; decide +kernel

theorem test_accepts_stove_1 :
    Accepts stoveInfoDef 1 (rq 0x0 []) s0 ∧
    Accepts stkrRefConfigDef 1 (rq 0x0 [0x10, 0x41200000, 0x3f800000]) s0 ∧
    Accepts stkrModeSetDef 1 (rq 0x0 [0x640000, 0]) s0 ∧
    Accepts stkrSelectDef 1 (rq 0x0 [0x10]) s0 ∧
    Accepts stkrStatusDef 1 (rq 0x0 []) s0 := by
  unfold Accepts; decide +kernel

theorem test_accepts_stove_2 :
    Accepts stkrRefStatusDef 1 (rq 0x0 []) s0 ∧
    Accepts stoveOutSetDef 1 (rq 0x0 [0, 0, 0]) s0 ∧
    Accepts stkrSwConfigDef 1 (rq 0x0 [0x640001, 0x3f800000]) s0 ∧
    Accepts stkrEmberReadDef 1 (rq 0x0 [0x100]) s0 := by
  unfold Accepts; decide +kernel

theorem test_accepts_port_1 :
    Accepts portInfoDef 1 (rq 0x100 []) s0 ∧
    Accepts portConfigDef 1 (rq 0x100 [4, 3]) s0 ∧
    Accepts portEnableDef 1 (rq 0x100 [1, 0, 0]) s0 ∧
    Accepts portGroupSetDef 1 (rq 0x100 [0]) s0 ∧
    Accepts portStatusDef 1 (rq 0x100 []) s0 := by
  unfold Accepts; decide +kernel

theorem test_accepts_port_2 :
    Accepts portClearDef 1 (rq 0x100 [0x1ff]) s0 := by
  unfold Accepts; decide +kernel

theorem test_accepts_hivewire_1 :
    Accepts hwInfoDef 1 (rq 0x0 []) s0 ∧
    Accepts hwChainConfigDef 1 (rq 0x0 [0x100003, 0x40000000, 0x41000000, 0x41200000, 0x960, 0xbb80]) s0 ∧
    Accepts hwWalkDef 1 (rq 0x0 [0]) s0 ∧
    Accepts hwNodeInfoDef 1 (rq 0x100 []) sNode ∧
    Accepts hwSlotMapDef 1 (rq 0x0 [0x201, 0, 0, 0]) s0 := by
  unfold Accepts; decide +kernel

theorem test_accepts_hivewire_2 :
    Accepts hwNodeXactDef 1 (rq 0x100 [0x100]) sNode ∧
    Accepts hwStatusDef 1 (rq 0x0 []) s0 ∧
    Accepts hwClearDef 1 (rq 0x0 [0]) s0 ∧
    Accepts hwPartnerSetDef 1 (rq 0x0 [0]) s0 := by
  unfold Accepts; decide +kernel

theorem test_accepts_damper_1 :
    Accepts dmprInfoDef 1 (rq 0x0 []) s0 ∧
    Accepts dmprSupplyConfigDef 1 (rq 0x0 [0x41300000, 0x41a00000, 0x41200000, 0x3f000000, 0x40c00000, 0x41000000,
      0x41900000, 0x41800000, 0]) s0 ∧
    Accepts dmprCrankCurveDef 1 (rq 0x0 [0x41400000, 0x3f800000, 0x41300000, 0x3f700000, 0x41200000, 0x3f600000,
      0x41100000, 0x3f500000, 0x41000000, 0x3f400000, 0x40e00000, 0x3f300000, 0x40c00000, 0x3f200000, 0x40a00000,
      0x3f100000]) s0 ∧
    Accepts dmprOutConfigDef 1 (rq 0x1 [0x42480000, 0x640064, 0x40000000, 0x3f800000, 3]) s0 ∧
    Accepts dmprLineConfigDef 1 (rq 0x0 [0x40000000, 0x42480000, 0x41200000, 0x3f800000, 1]) s0 := by
  unfold Accepts; decide +kernel

theorem test_accepts_damper_2 :
    Accepts dmprStatusDef 1 (rq 0x0 []) s0 ∧
    Accepts dmprClearDef 1 (rq 0x0 [0]) s0 ∧
    Accepts dmprEnergyReadDef 1 (rq 0x0 []) s0 := by
  unfold Accepts; decide +kernel

theorem test_accepts_memory_1 :
    Accepts memInfoDef 1 (rq 0x0 []) s0 ∧
    Accepts memPowerSetDef 1 (rq 0x0 [0, 0, 0, 0, 0, 0]) s0 ∧
    Accepts memEccStatusDef 1 (rq 0x0 []) s0 ∧
    Accepts memErrReadDef 1 (rq 0x0 []) s0 ∧
    Accepts memPatrolSetDef 1 (rq 0x0 [0x3c0001, 0x12c0]) s0 := by
  unfold Accepts; decide +kernel

theorem test_accepts_memory_2 :
    Accepts memPatrolStatusDef 1 (rq 0x0 []) s0 ∧
    Accepts vaultWipeDef 1 (rq 0x0 []) s0 ∧
    Accepts vaultStatusDef 1 (rq 0x0 []) s0 ∧
    Accepts memClearDef 1 (rq 0x0 [0]) s0 := by
  unfold Accepts; decide +kernel

theorem test_accepts_forager_1 :
    Accepts pspInfoDef 1 (rq 0x0 []) s0 ∧
    Accepts pspDevConfigDef 1 (rq 0x1 [0x3020101, 0x1000201, 0x400003, 0x100064]) s0 ∧
    Accepts pspXferDef 1 (rq 0x0 [0, 0, 0]) s0 ∧
    Accepts fgrRingConfigDef 1 (rq 0x0 [0, 0, 8]) s0 ∧
    Accepts fgrDescPushDef 1 (rq 0x0 [1, 0, 0, 0, 0x20, 0, 0, 9, 0]) sRing := by
  unfold Accepts; decide +kernel

theorem test_accepts_forager_2 :
    Accepts fgrRingEnableDef 1 (rq 0x0 [0, 0, 0]) s0 ∧
    Accepts fgrStatusDef 1 (rq 0x0 []) s0 ∧
    Accepts fgrClearDef 1 (rq 0x0 [0]) s0 ∧
    Accepts pspStatusDef 1 (rq 0x0 []) s0 := by
  unfold Accepts; decide +kernel

theorem test_accepts_boot_1 :
    Accepts bootInfoDef 1 (rq 0x0 []) s0 ∧
    Accepts imgUpdateBeginDef 1 (rq 0x0 [0]) s0 ∧
    Accepts imgUpdateWriteDef 1 (rq 0x0 [0x1000, 0x4000000]) sSession ∧
    Accepts imgUpdateEndDef 1 (rq 0x0 []) sSession ∧
    Accepts imgConfirmDef 1 (rq 0x0 []) sTrial := by
  unfold Accepts; decide +kernel

theorem test_accepts_boot_2 :
    Accepts tuneLoadDef 1 (rq 0x0 [0, 0, 0]) sMan ∧
    Accepts imgMeasExtendDef 1 (rq 0x0 [0, 0, 0, 0, 0, 0, 0, 0]) s0 ∧
    Accepts lcAdvanceDef 1 (rq 0x0 [0x101, 0, 0, 0, 0, 0, 0, 0, 0]) s0 ∧
    Accepts keyRevokeDef 1 (rq 0x0 [0]) s0 ∧
    Accepts bootRecoveryBeginDef 1 (rq 0x0 []) s0 := by
  unfold Accepts; decide +kernel

theorem test_accepts_boot_3 :
    Accepts bootPushDef 0 (rq 0x0 [2, 0, 0]) sRom := by
  unfold Accepts; decide +kernel

theorem test_accepts_service_1 :
    Accepts svcFaultReadDef 1 (rq 0x0 []) s0 ∧
    Accepts svcFaultClearDef 1 (rq 0x0 [0]) s0 ∧
    Accepts svcSpkTestDef 1 (rq 0x1 [0, 0x3f800000, 0x1e0, 0x40800000, 0x40000000, 0x41a00000, 0x40400000, 0x41200000,
      0x447a0000, 0, 0, 0, 0, 0, 0, 0, 0x60000]) s0 ∧
    Accepts svcDcOffsetDef 1 (rq 0x1 [0xa]) s0 ∧
    Accepts svcMicLoopDef 1 (rq 0x1 [0, 0x447a0000, 0x3f800000, 0x1e0, 0x40800000]) sMic := by
  unfold Accepts; decide +kernel

theorem test_accepts_service_2 :
    Accepts svcLineHealthDef 1 (rq 0x0 [0x12c0]) s0 ∧
    Accepts svcCaptureReadDef 1 (rq 0x0 [0, 0, 1, 0x80000]) sCap ∧
    Accepts svcAbortDef 1 (rq 0x0 []) s0 := by
  unfold Accepts; decide +kernel

theorem test_accepts_event :
    Accepts evtInfoDef 1 (rq 0x0 []) s0 ∧
    Accepts evtCountReadDef 1 (rq 0x0 [0x100]) s0 ∧
    Accepts evtCountClearDef 1 (rq 0x0 [0, 0]) s0 ∧
    Accepts evtRingConfigDef 1 (rq 0x0 [0, 0, 0]) s0 ∧
    Accepts evtTraceMarkDef 1 (rq 0x0 [0x10000, 0]) s0 := by
  unfold Accepts; decide +kernel

/-! ### The hypotheses of the statements are met -/

/-- RUN with the Stove locked at frame 5, the Hive and the ports running and the Damper on. -/
def sRun : State :=
  { s0 with
    hive := { firstFrame := some 0 }
    stove := { running := true, valid := true, lock := true, frame := 5 }
    dmpr := { running := true }, bel := { upd := 0 } }

/-- The boot ROM in the slots source, past power-up step 9. -/
def sBoot : State :=
  { pow := { st := .powerUp, rails := .replicate 6 true, wakePin := true }
    boot := { step := 10, done := true, src := .slotA } }

/-- HEARTH with every rail good. -/
def sWake : State := { pow := { rails := .replicate 6 true, wakePin := true } }

/-- Channel `c` of the Bellows as given, the rest as in `sRun`. -/
def sBel (y : BelCh) : State := { sRun with bel := { sRun.bel with ch := .replicate 32 y } }

/-- Both sides of every port as given. -/
def sPort (y : PortSide) : State := { sRun with rx := .replicate 8 y, tx := .replicate 8 y }

/-- Both chains as given. -/
def sHw (c : Chain) : State := { sRun with hw := .replicate 2 c }

/-- Every ring as given. -/
def sRings (x : Ring) : State := { sRun with p0 := { rings := .replicate 16 x } }

/-- Every cell as given. -/
def sCell (c : Cell) : State := { sRun with hive := { sRun.hive with cells := .replicate 32 c } }

/-- A transfer of `n` units from `a` on, in area `k`. -/
def aXfer (rd : Bool) (n a k : Nat) (page : Bool) : Transfer := ⟨rd, n, a, k, page, false, false⟩

theorem test_meets_RegisterCommandsComplete :
    (unitTaken 0x30 s0 = true ∧ pastEnd s0 = false ∧ mbxFree 2 s0 = true ∧ s0.hw[0].partner = 0 ∧
      s0.hw[1].partner = 0) ∧
    (let s : State := { s0 with
       pow := { s0.pow with sawStandby := true }, host := { xfer := some (aXfer false 1 0x38 0 false) } }
     unitTaken 0x38 s = true ∧ pastEnd s = false ∧ mbxFree 3 s = true ∧ s.pow.sawStandby = true) ∧
    (unitTaken 0x10 s0 = true ∧ inService s0 = true ∧ (0xA501 : Word).extractLsb' 8 8 = 0xA5 ∧
      (0xA501 : Word).getLsbD 0 = true) ∧
    (unitTaken 0x80 s0 = true ∧ unitTaken 0x70 s0 = true ∧ unitTaken 0x48 s0 = true ∧ unitTaken 0x1048 s0 = true ∧
      unitTaken 0x2048 s0 = true ∧ unitTaken 0x2040 s0 = true) ∧
    (unitTaken 0x38C sRun = true ∧ pastEnd sRun = false ∧ sRun.pow.st ≠ .hearthSafe ∧ sRun.stove.running = true ∧
      mbxReach sRun = true ∧ sRun.host.xfer = none) ∧
    (let x := aXfer false 1 0x1000 0 false
     let s : State := { s0 with host := { xfer := some x } }
     unitTaken (0x1000 : BitVec 16).toNat s = true ∧ pastEnd s = true ∧ s.host.xfer = some x ∧
     x.addr = areaEnd x.area) ∧
    (∀ a ∈ [0x60, 0x380],
      let x := aXfer true 1 a 0 false
      let s : State := { s0 with host := { xfer := some x } }
      mbxReach s = true ∧ s.host.xfer = some x ∧ x.area = 0 ∧ x.read = true ∧ x.dead = false ∧ 0 < x.count ∧
      x.addr = a) := by decide +kernel

theorem test_meets_MailboxRamWriteStoresOneWord :
    (winAddrWf 0x8000 = true ∧ winAddrWf 0xFFFC = true) ∧ unitTaken 0x8000 s0 = true ∧ pastEnd s0 = false ∧
    ¬ (s0.pow.st = .powerUp ∧ s0.boot.step < 6) ∧ winAddr (pageNow s0) 0x8000 ≠ 0xF00C ∧
    (let s : State := { s0 with host := { xfer := some (aXfer false 2 0xF00C 4 true) } }
     unitTaken 0xF00C s = true ∧ pastEnd s = false ∧ winAddr (pageNow s) 0xF00C = 0xF00C) := by decide +kernel

theorem test_meets_TransfersComplete :
    (mbxReach s0 = true ∧ (0x7F : Byte).getLsbD 6 = true ∧ (0xBF : Byte).getLsbD 6 = false ∧
      (0xBF : Byte).getLsbD 7 = true) ∧
    (∀ n ∈ [1, 64],
      let s : State := { s0 with host := { xfer := some (aXfer true n 0 0 false) } }
      mbxReach s = true ∧ s.host.xfer = some (aXfer true n 0 0 false) ∧ (aXfer true n 0 0 false).read = true ∧
      (aXfer true n 0 0 false).dead = false ∧ 0 < (aXfer true n 0 0 false).count ∧ s.host.out = [] ∧
      isDead s = false) ∧
    (∀ b : Bool,
      let s : State := { s0 with host := { xfer := some { aXfer true 1 0 0 false with dead := b, count := 0 } } }
      unitsLeft s = 0 ∧ isDead s = b) ∧
    (let s : State := { s0 with host := { xfer := some (aXfer false 1 0x0FFC 0 false) } }
     unitTaken (0x0FFC : BitVec 16).toNat s = true ∧ pastEnd s = false ∧ areaOf (0x0FFC : BitVec 16).toNat ≠ 4) ∧
    (let s : State := { s0 with host := { xfer := some (aXfer false 1 0x1000 0 false) } }
     unitTaken (0x1000 : BitVec 16).toNat s = true ∧ pastEnd s = true ∧ areaOf (0x1000 : BitVec 16).toNat ≠ 4) := by
  decide +kernel

theorem test_meets_PowerEventsComplete :
    (({ pow := { st := .off } } : State).pow.st = .off) ∧
    (sWake.pow.st = .hearth ∧ sWake.pow.rstN = true ∧ (∀ i : Fin 6, sWake.pow.rails[i] = true) ∧
      sWake.pow.wakePin = true ∧ sWake.scan.inForce = false) ∧
    (let s : State := { sWake with pow := { sWake.pow with rails := #v[true, true, true, true, true, false] } }
     ∀ i : Fin 6, i = railIx .vddaStove ∨ s.pow.rails[i] = true) ∧
    (s0.pow.st ≠ .off ∧ s0.pow.st ≠ .standbyToHearth) ∧ (sWake.pow.st ≠ .off ∧ sWake.pow.st ≠ .standbyToHearth) := by
  decide +kernel

theorem test_meets_TamperAndPresenceEventsComplete :
    s0.pow.st ≠ .off ∧ s0.keeper.isOpen = true ∧ s0.keeper.armed = false ∧
    ({ keeper := { armed := true } } : State).keeper.armed = true ∧ State.reset.pow.st ≠ .off := by decide +kernel

theorem test_meets_TransitionEnds :
    (let s : State := { sQuiet with pow := { sQuiet.pow with st := .runToStandby } }
     s.pow.st = .runToStandby ∧ bellowsMuted s = false) ∧
    (let s : State := { sRun with pow := { sRun.pow with st := .runToStandby } }
     s.pow.st = .runToStandby ∧ bellowsMuted s = true ∧ portsOver s = true) ∧
    (let s : State := { sPort { st := .tail } with pow := { sRun.pow with st := .runToStandby } }
     s.pow.st = .runToStandby ∧ portsOver s = false) ∧
    (∀ w h : Bool, let s : State := { pow := { sWake.pow with st := .standbyToHearth, wakePin := w, wakeHeld := h } }
     s.pow.st = .standbyToHearth ∧ s.pow.wakePin = w ∧ s.pow.wakeHeld = h ∧ s.pow.rstN = true ∧
     s.scan.inForce = false ∧ ∀ i : Fin 6, s.pow.rails[i] = true) ∧
    (let s : State := { s0 with pow := { s0.pow with ianikRst := true } }
     s.pow.ianikRst = true ∧ s.pow.st ≠ .hearthSafe) ∧
    (let s : State := { pow := { st := .hearthSafe, sysResetPends := true }, mbx := .replicate 4 { st := .rung } }
     s.pow.st = .hearthSafe ∧ s.pow.sysResetPends = true ∧ (3 : Fin 4) ≠ 2 ∧ s.mbx[3].st = .rung) := by
  decide +kernel

theorem test_meets_WatchdogExpiry :
    PartsOk s0.evt ∧ poweredUp s0 = true ∧ s0.pow.ianikRst = false ∧ (0 : Fin 4).val ≤ s0.hearth.wdTotal ∧
    (let s : State := { s0 with hearth := { wdTotal := 3 } }
     PartsOk s.evt ∧ poweredUp s = true ∧ s.pow.ianikRst = false ∧ (3 : Fin 4).val ≤ s.hearth.wdTotal) := by
  unfold PartsOk; decide +kernel

theorem test_meets_BoundaryScanCompletes :
    (s0.pow.st ≠ .off ∧ s0.scan.inForce = false ∧ s0.pow.lc = .blank) ∧
    ((3 : BitVec 4) ≠ 0 ∧ (3 : BitVec 4) ≠ 1 ∧ (3 : BitVec 4) ≠ 2 ∧ (3 : BitVec 4) ≠ 4 ∧ (3 : BitVec 4) ≠ 5) ∧
    (let s : State := { pow := { lc := .returned } }
     s.pow.st ≠ .off ∧ s.pow.lc = .returned ∧ s.keeper.isOpen = false ∧ s.scan.inForce = false) ∧
    ({ pow := { lc := .production } } : State).pow.lc = .production ∧
    (let s : State := { pow := { lc := .production }, keeper := { isOpen := true } }
     s.pow.st ≠ .off ∧ s.keeper.isOpen = true) := by decide +kernel

theorem test_meets_CountersSaturateOnce :
    (let s : State := { evt := { acc := .replicate 64 1, counts := .replicate 64 (2 ^ 32 - 1) } }
     s.evt.acc[56] ≠ 0 ∧ s.pow.st ≠ .off ∧ s.evt.counts[56] < 2 ^ 32 ∧
     2 ^ 32 ≤ s.evt.counts[57] + s.evt.acc[57] ∧ s.evt.sat.getLsbD 57 = false) ∧
    (let s : State := { evt := { acc := .replicate 64 1 } }
     s.evt.acc[0] ≠ 0 ∧ s.evt.counts[0] < 2 ^ 32 ∧ s.evt.counts[0] + s.evt.acc[0] < 2 ^ 32) ∧
    Accepts evtCountClearDef 0 (rq 0 [1, 0]) s0 ∧ (arg64 (rq 0 [1, 0]) 3).testBit 0 = true := by
  unfold Accepts; decide +kernel

theorem test_meets_StrobeAndRecordEventsComplete :
    (sRun.stove.running = true ∧ sRun.pow.ianikRst = false) ∧
    (∀ b : Bool, let p : Response := ⟨0, 0, 1, 0, 0, []⟩
     let s : State := { sRun with
       mbx := s0.mbx.set 3 { st := .busy, resp := some p, sampled := 4 }, pow := { sRun.pow with ianikRst := b } }
     s.stove.running = true ∧ s.stove.valid = true ∧ s.pow.ianikRst = b ∧ s.mbx[3].st = .busy ∧
     s.mbx[3].resp = some p ∧ s.mbx[3].sampled ≠ s.stove.frame ∧ s.ianik.staged = [] ∧ s.ianik.stalled = [] ∧
     s.hive.transit = [] ∧ ∀ k : Fin 4, s.mbx[k].st ≠ .rung ∧ leftBusy k s = false) ∧
    (let s : State := { sRun with mbx := s0.mbx.set 3 { st := .rung }, pow := { sRun.pow with ianikRst := true } }
     s.stove.running = true ∧ s.stove.valid = true ∧ s.pow.ianikRst = true ∧ s.mbx[3].st = .rung) ∧
    (let s : State := { sRun with mbx := s0.mbx.set 1 { st := .rung }, ram := wrW [] (cmdArea 1) 0xFFFF0001 }
     s.stove.running = true ∧ s.stove.valid = true ∧ mbxServed 1 s = true ∧ s.mbx[1].st = .rung ∧
     (∀ k : Fin 4, (s.mbx[k].st = .rung ↔ k = 1) ∧ leftBusy k s = false) ∧ s.ianik.staged = [] ∧
     s.ianik.stalled = [] ∧ s.hive.transit = [] ∧ s.care.upsets = [] ∧ (cmdOf (readReq 1 s).1).isNone = true) ∧
    (let c : Completion := ⟨0x0703, 0, 1, 0, [0]⟩
     let s : State := { s0 with evt := { waiting := [c] } }
     recordsOn s = true ∧ s.evt.waiting = [c] ∧ ringFits (4 + c.payload.length) s.evt = true) ∧
    s0.pow.st ≠ .off := by decide +kernel

theorem test_meets_FrameTicksComplete :
    sRun.stove.running = true ∧ sRun.stove.valid = true ∧ sRun.hive.dom.fIdx + 1 < sRun.hive.dom.m ∧
    (let s : State := { sRun with hive := { sRun.hive with dom := { fIdx := 2 } } }
     s.hive.dom.fIdx + 1 < s.hive.dom.m) := by decide +kernel

theorem test_meets_PowerUpSteps :
    let r (ok : Bool) : StepResult := ⟨ok, 0, 0, none, [], 0⟩
    let s : State := { pow := { st := .powerUp }, boot := { step := 1 } }
    PartsOk s.evt ∧ s.pow.st = .powerUp ∧ s.boot.done = false ∧ s.boot.step ≠ 0 ∧
    stepPasses s.boot.step (r true) = true ∧ stepPasses s.boot.step (r false) = false ∧
    stepPasses 7 ⟨true, 1, 0, none, [], 0⟩ = false := by unfold PartsOk; decide +kernel

theorem test_meets_BootEvents :
    (∀ k : Fin 3,
      let s : State := { sBoot with boot := { sBoot.boot with src := .none, step := 5, order := [k.val] } }
      s.pow.st = .powerUp ∧ s.pow.ianikRst = false ∧ s.boot.src = .none ∧ 5 ≤ s.boot.step ∧
      s.boot.order = k.val :: []) ∧
    (let s : State := { sBoot with boot := { sBoot.boot with src := .push, wait := true } }
     s.boot.src = .push ∧ romServing s = true ∧ s.boot.pushedLen = 0 ∧ s.boot.pushedN = [] ∧
     s.boot.pushEnd = false) ∧
    (let s : State := { sBoot with boot := { sBoot.boot with booted := true }, stove := { lock := true } }
     s.pow.st = .powerUp ∧ s.boot.done = true ∧ s.boot.booted = true ∧ ratesSet s = true ∧ s.stove.lock = true ∧
     s.pow.ianikRst = false) := by decide +kernel

theorem test_meets_BootCriticalFlagAndAttemptCount :
    (let s : State := { sWake with pow := { sWake.pow with attempts := 3 } }
     s.pow.st = .hearth ∧ s.pow.rstN = true ∧ (∀ i : Fin 6, s.pow.rails[i] = true) ∧ s.scan.inForce = false ∧
     s.pow.attempts = 3) ∧
    (let s : State := { sBoot with boot := { sBoot.boot with booted := true }, stove := { inEmber := true } }
     s.boot.done = true ∧ s.boot.booted = true ∧ ratesSet s = true ∧ s.stove.inEmber = true ∧
     s.pow.ianikRst = false) := by decide +kernel

/-- The Hive at M frame 5, a cell of domain `d` as `f` makes it. -/
def sDom (d : Dom) (f : Cell → Cell) : State := sCell (f { role := some ⟨d, 0⟩ })

theorem test_meets_HivePhasesComplete :
    (∀ d ∈ [Dom.M, .F, .S], ∀ z : Bool,
      let s := sDom d (fun c => { c with zeroFrame := z, clearReq := true })
      hivePhases s = true ∧ domBegun d s = true ∧ phaseHere d s = true ∧ cellDom (cellAt s 31) = some d ∧
      (cellAt s 31).zeroFrame = z ∧ (cellAt s 31).clearReq = true) ∧
    (∀ d ∈ [Dom.M, .F, .S], ∀ a ∈ [OutAct.live, .muted],
      let s := sDom d (fun c => { c with stat := { act := a } })
      hivePhases s = true ∧ phaseHere d s = true ∧ cellDom (cellAt s 0) = some d ∧ (cellAt s 0).zeroFrame = false ∧
      (cellAt s 0).stat.act = a ∧ (cellAt s 0).stat.newFault = false) ∧
    (hiveRuns sRun = true ∧ phaseHere .M sRun = true ∧ hivePaused sRun = false ∧ strike [] sRun = sRun ∧
      sRun.care.upsets = [] ∧ outFactor sRun.stove.frame sRun = 0x3F800000) ∧
    (let s : State := { sRun with hive := { sRun.hive with
        combs := .replicate 3 { outlet := [(7, 0x02 * 2048 + 255)] } } }
     outFactor s.stove.frame s = 0x3F800000 ∧
     ((((combAt s .M).outlet.filter (fun x => !(combAt s .M).outDead.contains x.1)).find?
       (fun x => x.2 = BitVec.ofNat 16 (0x02 * 2048 + (32 * (7 : Fin 8).val + 31)))).map (·.1) = some 7)) ∧
    (let s : State := { sRun with hive := { sRun.hive with dom := { phase := .paused } } }
     hiveRuns s = true ∧ (∀ d ∈ [Dom.M, .F, .S], phaseHere d s = true) ∧ hivePaused s = true) := by decide +kernel

theorem test_meets_CellAndRampEventsComplete :
    (∀ ld on : Bool, let w : StoreWait := ⟨0, 64, 0, 4, 0, ld, 0, [0], 9⟩
     let s : State := { sCell { run := { slot := 5, waits := [w] } } with
       hive := { sRun.hive with
         cells := .replicate 32 { run := { slot := 5, waits := [w] } }
         storePow := .replicate 16 (if on then BlkPow.on else .off), storeWritten := [storeGroup 64] } }
     s.care.upsets = [] ∧ firstWait (cellAt s 31).run.waits = some w ∧ w.turn < (cellAt s 31).run.slot ∧
     swf 0 s.hive.store = true ∧ w.load = ld ∧ segOn (w.addr / 131072) s = on ∧
     storeGroup w.addr ∈ s.hive.storeWritten ∧
     firstWait (cellAt (strike [] s) 31).run.waits = some w ∧ w.turn < (cellAt (strike [] s) 31).run.slot) ∧
    (let q : QEntry := ⟨31, 0, some 6, 1, 0, 0, .faultClear 0⟩
     let s : State := { sRun with hive := { sRun.hive with transit := [q] } }
     s.hive.transit = q :: [] ∧ q.frame = some 6 ∧ isJudged q = false ∧ s.stove.frame < 6) ∧
    (let q : QEntry := ⟨0, 1, none, 1, 0, 0, .faultClear 0⟩
     let s : State := { sRun with hive := { sRun.hive with transit := [q] } }
     s.hive.transit = q :: [] ∧ q.frame = none ∧ q.epoch ≠ (cellAt s q.cell).epoch) ∧
    ((cellAt (sCell { clearing := true }) 0).clearing = true) ∧
    ((cellAt (sCell { stat := { act := .fading 15 } }) 0).stat.act = .fading 15) ∧
    ((cellAt (sCell { stat := { act := .fadingIn 16 } }) 0).stat.act = .fadingIn 16) ∧
    (let x : Ramp := ⟨0, 0⟩
     (combAt ({ hive := { combs := .replicate 3 { ramps := [(3, x)] } } } : State) .S).ramps.find?
       (fun e => e.1 = 3) = some (3, x)) ∧
    (let x : RateChange := ⟨true, 4, 3, false, 0, 0, 0, true, 1, 0, none⟩
     let s : State := { sRun with
       hive := { dom := { change := some x, phase := .waitLock } }, stove := {}
       ianik := { deferred := [⟨0x0301, 1, 0, none⟩] } }
     s.hive.dom.change = some x ∧ s.hive.dom.phase = .waitLock ∧ s.stove.lock = false ∧ s.pow.ianikRst = false ∧
     outstanding 0x0301 x.mbx x.tag s = true) := by decide +kernel

/-- The Stove of `sRun` as `f` makes it. -/
def sStove (f : Stove → Stove) : State := { sRun with stove := f sRun.stove }

/-- A reference that ranks with priority `p`. -/
def aRef (p : Nat) : Ref := { listed := true, prio := p, qcode := 2, qual := true, wtr := true }

theorem test_meets_StokerEventsComplete :
    (let x : Comparison := ⟨0x1FFF, 0, 0, false, 0, false, 0, 0⟩
     let s := sStove (fun v => { v with st := .ember, refs := .replicate 13 { aRef 5 with missed := 1 } })
     s.stove.running = true ∧ s.stove.st = .ember ∧ s.stove.switchPends = false ∧
     s.stove.refs[11].listed = true ∧ x.due.getLsbD 11 = true ∧ x.edges.getLsbD 11 = false ∧
     s.stove.refs[11].missed = 1) ∧
    (∀ n ∈ [0, 3],
      let x : Comparison := ⟨0x1FFF, 0x1FFF, 0, false, 0, false, 7, 0⟩
      let s := sStove (fun v => { v with st := .locked, sel := some 1, outWin := n, refs := .replicate 13 (aRef 5) })
      s.stove.running = true ∧ s.stove.st = .locked ∧ s.stove.switchPends = false ∧ s.stove.holding = false ∧
      s.stove.inEmber = false ∧ s.stove.sel = some 1 ∧ x.due.getLsbD 1 = true ∧ (heardEdges x s).edges.getLsbD 1 = true ∧
      x.rangeEnd = false ∧ s.stove.hitFrom = none ∧
      (s.stove.outWin < 3 ∨ absQ (phaseNs x.phase s - s.stove.buildOut) ≤ 500)) ∧
    (let s := sStove (fun v => { v with refs := .replicate 13 { aRef 5 with gateWhole := true } })
     s.stove.running = true ∧ s.stove.refs[11].listed = true ∧ s.hearth.xtalStopped = false ∧
     s.stove.refs[11].gateWhole = true ∧ (List.replicate 13 (some (-4 : Int))).getD 11 none = some (-4)) ∧
    (let s := sStove (fun v => { v with
        st := .locked, sel := some 1, refs := (Vector.replicate 13 (aRef 5)).set 2 (aRef 9) })
     s.stove.running = true ∧ s.stove.refs[2].wtr = true ∧ s.stove.refs[2].wtrLeft = 0 ∧ s.stove.revert = true ∧
     s.stove.st = .locked ∧ s.stove.switchPends = false ∧ s.stove.sel = some 1 ∧ outranks 1 2 s = true) ∧
    (∀ b : Bool, let s := sStove (fun v => { v with st := .qualify, cmps := 16, tgt := some 3, qMiss := b })
     s.stove.st = .qualify ∧ 16 ≤ s.stove.cmps ∧ s.stove.tgt = some 3 ∧ s.stove.qMiss = b ∧
     ((max (-50000) (50000) : Int) : Rat) ≤ f32Q s.stove.refs[3].tol * 1000) ∧
    (let s := sStove (fun v => { v with st := .move, cmps := 1, tgt := some 2, refs := .replicate 13 (aRef 5) })
     s.stove.st = .move ∧ 1 ≤ s.stove.cmps ∧ s.stove.tgt = some 2 ∧ refQual 2 s = true) ∧
    (let s := sStove (fun v => { v with st := .settle, cmps := 8000 })
     s.stove.st = .settle ∧ 8000 ≤ s.stove.cmps ∧ s.stove.relock = false) ∧
    (let s := sStove (fun v => { v with sw := { enabled := true, since := 8000 }, refs := .replicate 13 (aRef 5) })
     s.stove.running = true ∧ s.stove.sw.enabled = true ∧ s.stove.sw.wdog ≤ s.stove.sw.since ∧
     s.stove.refs[12].qual = true) := by decide +kernel

theorem test_meets_RelockAndCrystalEvents :
    (let s := { sStove (fun v => { v with relock := true }) with bel := { muteAck := true } }
     s.stove.relock = true ∧ s.bel.muteAck = true ∧ s.stove.acq = none) ∧
    (let s := sStove (fun v => { v with
        relock := true, acq := some 1, st := .acquire, cmps := 32, refs := .replicate 13 (aRef 5) })
     let u : State := { s with stove := { s.stove with dropped := (1 : Fin 13).val :: s.stove.dropped } }
     s.stove.acq = some 1 ∧ s.stove.relock = true ∧ s.stove.st = .acquire ∧ 32 ≤ s.stove.cmps ∧
     bestRef (fun i => !u.stove.dropped.contains i.val) u = some 0) ∧
    (let s := sStove (fun v => { v with relock := true, acq := some 1, st := .acquire, cmps := 32 })
     let u : State := { s with stove := { s.stove with dropped := (1 : Fin 13).val :: s.stove.dropped } }
     s.stove.acq = some 1 ∧ bestRef (fun i => !u.stove.dropped.contains i.val) u = none ∧
     u.stove.dropped.contains 0 = false) ∧
    (sRun.hearth.xtalStopped = false ∧ sRun.pow.st ≠ .off ∧ sRun.stove.running = true ∧ sRun.stove.relock = false) ∧
    (let s := sStove (fun v => { v with sel := some 0 })
     s.hearth.xtalStopped = false ∧ s.pow.st ≠ .off ∧ s.stove.running = true ∧ s.stove.sel = some 0) ∧
    (let s := { sStove (fun v => { v with refs := .replicate 13 (aRef 5) }) with hearth := { xtalStopped := true } }
     s.hearth.xtalStopped = true ∧ s.stove.running = true ∧ s.stove.refs[0].listed = true) := by decide +kernel

theorem test_meets_BellowsStateEvents :
    (belRuns sRun = true ∧ sRun.bel.upd < 16) ∧
    (∀ k l : Bool,
      let s : State := { sRun with
        stove := { sRun.stove with lock := l }
        bel := { ch := .replicate 32 { st := .waking, wakeAt := 5, killIn := k } } }
      (31 : Fin 32).val / 4 = (7 : Fin 8).val ∧ (belAt s 31).st = .waking ∧ (belAt s 31).wakeAt ≤ s.stove.frame ∧
      (belAt s 31).killIn = k ∧ s.stove.lock = l) ∧
    (let s := sBel { st := .quiet, unmutePends := true, quietUpd := 32 }
     (belAt s 0).st = .quiet ∧ (belAt s 0).unmutePends = true ∧ s.bel.upd = 0 ∧ 32 ≤ (belAt s 0).quietUpd ∧
     (belAt s 0).stopping = false ∧ (belAt s 0).holding = false ∧ s.stove.lock = true) ∧
    (let s := sBel { st := .ramping, up := true, mute := 256 }
     (belAt s 0).st = .ramping ∧ (belAt s 0).up = true ∧ (belAt s 0).cfg.muteLen ≤ (belAt s 0).mute) ∧
    (let s := sBel { st := .ramping, up := false, mute := 0 }
     (belAt s 0).st = .ramping ∧ (belAt s 0).up = false ∧ (belAt s 0).mute = 0) ∧
    (let s := sBel { st := .quiet, stopping := true }
     belSwitches (belAt s 0).st = true ∧ (belAt s 0).stopping = true ∧ (belAt s 0).mute = 0) ∧
    (∀ x ∈ [BelSt.held, .playing, .waking], let s := sBel { st := x }
     belRuns s = true ∧ (belAt s 9).killIn = true ∧
     (belSwitches (belAt s 9).st = true ∨ (belAt s 9).st = .held ∨ (belAt s 9).st = .waking)) ∧
    (∀ f d l : Bool, ∀ w ∈ [5, 6],
      let s : State := { sBel { st := .killed, killIn := false, faultPends := f, stopping := d, wakeAt := w } with
        stove := { sRun.stove with lock := l } }
      (belAt s 0).st = .killed ∧ (belAt s 0).killIn = false ∧ (belAt s 0).faultPends = f ∧ (belAt s 0).stopping = d ∧
      s.stove.lock = l ∧ (if w = 5 then (belAt s 0).wakeAt ≤ s.stove.frame else s.stove.frame < (belAt s 0).wakeAt)) :=
  by decide +kernel

theorem test_meets_BellowsFaultEvents :
    (let s : State := { sRun with bel := { grp := .replicate 8 { drvEn := true } } }
     belRuns s = true ∧ s.bel.grp[7].drvEn = true ∧ s.bel.grp[7].retries ≠ 3 ∧
     (∀ c : Fin 32, c.val / 4 = (7 : Fin 8).val → (belAt s c).st ≠ .waking) ∧ (31 : Fin 32).val / 4 = (7 : Fin 8).val ∧
     (belAt s 31).st ≠ .killed) ∧
    (let s : State := { sRun with
        stove := { frame := 48000 }
        bel := { grp := .replicate 8 { faultAt := some 0, wasOn := [0] }
                 ch := .replicate 32 { st := .faulted, cfg := { retry := true } } } }
     belRuns s = true ∧ s.bel.grp[0].faultAt = some 0 ∧ 0 + 48000 ≤ s.stove.frame ∧ s.bel.grp[0].latched = false ∧
     (0 : Fin 32).val ∈ s.bel.grp[0].wasOn ∧ (belAt s 0).cfg.retry = true ∧ (belAt s 0).st = .faulted) ∧
    (∀ b : Bool, let s := sBel { st := .playing, cfg := { lossOpen := b } }
     belRuns s = true ∧ belSwitches (belAt s 0).st = true ∧ (belAt s 0).cfg.lossOpen = b) ∧
    (let s : State := { sRun with
        bel := { upd := 16, ch := .replicate 32 { errN := 64, errSum := 6400 } }, stove := { frame := 3 } }
     belRuns s = true ∧ s.bel.upd = 16 ∧ s.stove.frame % 4 = 3 ∧ (belAt s 0).errN = 64 ∧ (belAt s 0).errVoid = false ∧
     f32Q (belAt s 0).cfg.mismatch < (belAt s 0).errSum / 64) ∧
    (let s : State := { sBel { st := .playing } with stove := { sRun.stove with relock := true } }
     s.stove.relock = true ∧ s.stove.acq = none ∧ s.bel.muteReq = false ∧ belRuns s = true ∧
     (belAt s 0).st = .playing) ∧
    (let s := { sStove (fun v => { v with relock := true }) with bel := { muteReq := true } }
     s.stove.relock = true ∧ s.bel.muteReq = true ∧ ∀ c : Fin 32, belSwitches (belAt s c).st = false) ∧
    (let q : Measure := ⟨true, 0, 0, 1, 0, 0, 0, 0, [], false, 1, 7, false⟩
     let s : State := { sRun with
       stove := { frame := 33 }, ianik := { deferred := [⟨0x0409, 1, 7, none⟩] }
       bel := { ch := (Vector.replicate 32 {}).set 3 { meas := some q } } }
     s.ianik.routine = none ∧ (belAt s 3).meas = some q ∧ (∀ k : Fin 32, k ≠ 3 → (belAt s k).meas = none) ∧
     q.service = false ∧ q.frame + q.k + 32 ≤ s.stove.frame ∧ s.pow.ianikRst = false ∧
     outstanding 0x0409 q.mbx q.tag s = true) := by decide +kernel

/-- A channel whose next block end is an excess and a DC detection. -/
def sBlockEnd : State :=
  { sRun with dmpr := { running := true, ch := .replicate 32 {
      eWin := .replicate 99 0x4059000000000000, dWin := .replicate 99 0x4059000000000000 } } }

theorem test_meets_DamperEventsComplete :
    (let s : State := { sRun with dmpr := { running := true, runs := (0, 7, 0, 0) } }
     damperRuns s = true ∧ s.dmpr.supply = .normal ∧ 7 ≤ s.dmpr.runs.1 + 7 ∧
     senseVolts 0 (s.dmpr.cfgNext.getD s.dmpr.cfg).batRatio < f32Q s.dmpr.cfg.cut ∧
     senseVolts 0 (s.dmpr.cfgNext.getD s.dmpr.cfg).batRatio ≤ f32Q s.dmpr.cfg.dump) ∧
    (let s : State := { sRun with dmpr := { running := true, runs := (7, 0, 0, 0) } }
     damperRuns s = true ∧ s.dmpr.supply = .normal ∧ 7 ≤ s.dmpr.runs.1 ∧ s.pow.seqBel = true) ∧
    (damperRuns sBlockEnd = true ∧ belRuns sBlockEnd = true ∧
      (channelBlock sBlockEnd.hive.dom.fm (([] : List (List (BitVec 16 × BitVec 16))).getD 31 []) sBlockEnd.dmpr.ch[31]).2 =
        (true, true)) ∧
    (let s : State := { sRun with dmpr := { running := true, ch := .replicate 32 { cooling := true } } }
     damperRuns s = true ∧ s.dmpr.ch[0].cooling = true) ∧
    (sRun.dmpr.ch[0].cooling = false ∧ sRun.dmpr.ch[0].eZero = false) ∧
    (let s : State := { sRun with dmpr := { running := true, line := .replicate 2 { st := 1 } } }
     damperRuns s = true ∧ s.dmpr.line[1].st = 1 ∧ hwRuns 1 s = true ∧ s.hw[1].walk = .none ∧ s.hw[1].st ≠ 3) ∧
    (let s := sHw { pwr := true }
     damperRuns s = true ∧ s.hw[0].pwr = true ∧ s.dmpr.line[0].st = 0) ∧
    (let s := sHw { check := some (100, true), walk := .check1 }
     damperRuns s = true ∧ s.hw[0].check = some (100, true) ∧ s.hw[0].walk = .check1) := by decide +kernel

/-- A port frame with the frame sync at `a` and at the next edge at `b`. -/
def aFrame (d : Side) (a b : Bool) : PortFrame := ⟨0, d, 0, 32000, .replicate 65 true, (a, b), 0⟩

theorem test_meets_PortEventsComplete :
    (∀ d ∈ [Side.rx, .tx],
      let s := sPort { mode := .locked, st := .wait }
      portsRun s = true ∧ sideStopped (sideAt 0 d s) = false ∧ (sideAt 0 d s).mode ≠ .master ∧
      (sideAt 0 d s).st = .wait ∧ fsOpens (clockWord 0 d s) (aFrame d true false).sync.1 false = true ∧
      fsOpens (clockWord 0 d s) (aFrame d true true).sync.1 true = false) ∧
    (let s := sPort { st := .run, numbered := true, next := 5 }
     portsRun s = true ∧ (aFrame .rx true false).side = .rx ∧ s.rx[0].st = .run ∧ s.rx[0].mode = .master ∧
     s.stove.clocksHeld = false ∧ s.rx[0].numbered = true ∧ s.stove.frame ≤ s.rx[0].next ∧
     s.rx[0].checked ≠ some s.rx[0].next) ∧
    (∀ x ∈ [PortSt.measure, .incompat, .tail],
      let s := sPort { mode := .foreign, st := x }
      portsRun s = true ∧ (sideAt 0 .rx s).st ≠ .off ∧ (sideAt 0 .rx s).mode ≠ .master ∧ (sideAt 0 .rx s).st = x) ∧
    (∀ x ∈ [PortSt.fadeIn, .run],
      let s := sPort { mode := .locked, st := x }
      portsRun s = true ∧ s.rx[0].st = x ∧ s.rx[0].mode ≠ .foreign ∧ s.rx[0].numbered = false) ∧
    (let s := sPort { st := .run, numbered := true, first := 6 }
     s.stove.frame < s.rx[0].first) ∧
    (let s := sPort { st := .run, numbered := true, buf := .replicate 4 (some ⟨true, 5, []⟩) }
     ¬ s.stove.frame < s.rx[0].first ∧ entryReady s.rx[0].buf s.stove.frame = true) ∧
    (let s := sPort { st := .run, numbered := true, first := 5 }
     portsRun s = true ∧ s.rx[0].st = .run ∧ s.rx[0].mode ≠ .foreign ∧ s.rx[0].numbered = true ∧
     s.rx[0].first ≤ s.stove.frame ∧ entryReady s.rx[0].buf s.stove.frame = false) := by decide +kernel

theorem test_meets_PinAndMeasureEvents :
    (let s := sPort { mode := .locked, st := .wait }
     portsRun s = true ∧ s.tx[0].st = .wait ∧ s.tx[0].numbered = false ∧ s.tx[0].mode ≠ .master) ∧
    (let s := sPort { mode := .locked, st := .run, numbered := true, next := 6, buf := .replicate 4 (some ⟨true, 5,
      []⟩) }
     portsRun s = true ∧ s.tx[0].st = .run ∧ s.tx[0].numbered = true ∧ s.tx[0].mode = .locked ∧
     s.tx[0].tailD = none ∧ vgetD s.tx[0].buf (prevF s.tx[0].next % 4) none = some ⟨true, 5, []⟩ ∧
     entryReady s.tx[0].buf (prevF s.tx[0].next) = true) ∧
    (∀ d ∈ [Side.rx, .tx],
      let s := sPort { mode := .foreign, st := .run }
      portsRun s = true ∧ (sideAt 7 d s).st = .run ∧ (sideAt 7 d s).mode ≠ .master) ∧
    (let s : State := { sPort { st := .run } with stove := { sRun.stove with clocksHeld := true } }
     portsRun s = true ∧ (sideAt 7 .tx s).st = .run ∧ s.stove.clocksHeld = true) ∧
    (let s := sPort { mode := .locked, st := .measure, measured := 64 }
     portsRun s = true ∧ (sideAt 0 .tx s).st = .measure ∧ (sideAt 0 .tx s).mode ≠ .master ∧
     64 ≤ (sideAt 0 .tx s).measured ∧
     rateFits ((sideAt 0 .tx s).mode == .foreign) (cfgBits (clockWord 0 .tx s)) 1 s.hive.dom.fm = false ∧
     (sideAt 0 .tx s).mode = .locked ∧ (sideAt 0 .tx s).grp = none ∧
     rateFits false (cfgBits (clockWord 0 .tx s)) 2048000 s.hive.dom.fm = true) ∧
    (let s : State := { sPort { ready := true, grp := some 3 } with
        grps := .replicate 4 { enabledAt := some 0 }, stove := { frame := 256 } }
     s.grps[3].enabledAt = some 0 ∧ 0 + 256 ≤ s.stove.frame ∧
     (membersOf 3 s).any (fun x => (sideAt x.1 x.2 s).ready) = true) := by decide +kernel

/-- A HW_NODE_XACT for node 1 with tag 1. -/
def aXact (tries : Nat) : Xact := ⟨1, 0, 0x04, [], 1, tries, .nodeXact 1 7 false 4⟩

/-- The 16 bytes of a reply with operation `op` and tag 1. -/
def aBytes (op : Byte) : List Byte :=
  let b : List Byte := [op, 0x10, 0, 0, 0, 0, 0, 0, 0, 0, 0, 0, 0, 0]
  b ++ [BitVec.ofNat 8 (crc16 b), BitVec.ofNat 8 (crc16 b / 256)]

/-- The four fragments of that reply of node 1. -/
def aReply (op : Byte) : Vector (Option (List Byte)) 4 :=
  .ofFn fun k => some (0x10 :: ((aBytes op).drop (4 * k.val)).take 4)

/-- An upstream region of zeros, with its CRC-8 spoiled or not. -/
def aRegion (q : Fin 4) (bad : Bool) : LineFrame :=
  let z : List Byte := .replicate 127 0
  ⟨q, (lineEncodes false ((true, 0xBC) :: .replicate 3 (false, 0) ++ z.map (false, ·) ++
    [(false, BitVec.ofNat 8 (crc8 z + bad.toNat))])).1, 100⟩

theorem test_meets_LineEventsComplete :
    hwRuns 0 sRun = true ∧ hwRuns 1 sRun = true ∧
    (∀ q ∈ ([1, 2] : List (Fin 4)), (aRegion q false).q = q ∧ upBad (upChars (aRegion q false)) = false) ∧
    upBad (upChars (aRegion 0 true)) = true ∧
    (let q := aXact 1
     let s := sHw { out := some (q, 4), frags := aReply 0x84 }
     s.hw[0].out = some (q, 4) ∧ 4 < s.stove.frame ∧
     replyMsg s.hw[0] = some (q.dest, 0, aBytes 0x84) ∧ replyFits s.hw[0] q q.dest 0 (aBytes 0x84) = true) ∧
    (let q : Xact := ⟨1, 0, 0x06, [], 1, 1, .event 1⟩
     let s := sHw { out := some (q, 4), frags := aReply 0x86, nodes := [⟨[], 1, 0, 0, []⟩] }
     replyMsg s.hw[0] = some (q.dest, 0, aBytes 0x86) ∧ replyFits s.hw[0] q q.dest 0 (aBytes 0x86) = true ∧
       s.hw[0].nodes[0]? = some ⟨[], 1, 0, 0, []⟩) := by decide +kernel

theorem test_meets_RequestRetries :
    (∀ n : Fin 2,
      let q := aXact (if n = 0 then 2 else 3)
      let s := sHw { out := some (q, 3) }
      s.hw[0].out = some (q, 3) ∧ 3 + 2 ≤ s.stove.frame ∧ q.dest ≠ 0 ∧ q.op ≠ 0x01 ∧
      tooLate s.stove.frame q = false ∧ closes q = false ∧ (if n = 0 then q.tries < 3 else 3 ≤ q.tries)) ∧
    (let q : Xact := ⟨1, 0, 0x05, [1], 1, 1, .nodeXact 1 7 true 4⟩
     let s : State := { sHw { out := some (q, 3) } with dmpr := { line := .replicate 2 { permit := true } } }
     s.hw[0].out = some (q, 3) ∧ s.dmpr.line[0].permit = true ∧ q.tries < 3) ∧
    (let q : Xact := ⟨1, 0, 0x03, [], 1, 1, .slotMap 1 7 6⟩
     let s := sHw { out := some (q, 3) }
     s.hw[0].out = some (q, 3) ∧ 3 + 2 ≤ s.stove.frame ∧ q.dest ≠ 0 ∧ q.op ≠ 0x01 ∧
     tooLate s.stove.frame q = true) := by decide +kernel

theorem test_meets_WalkEvents :
    (let s := sHw { walk := .vsnsLow }
     s.hw[0].walk = .vsnsLow ∧ s.hw[0].walkFrom ≤ s.stove.frame ∧ lineVolts 0 s < 1) ∧
    (let s : State := { sHw { walk := .vgood } with dmpr := { line := .replicate 2 { volts := [8] } } }
     s.hw[0].walk = .vgood ∧ f32Q s.hw[0].vgood ≤ lineVolts 0 s ∧ s.hw[0].queue = [] ∧ s.hw[0].out = none ∧
     s.hw[0].genLeft.1 = 0 ∧ s.hw[0].nextAt ≤ s.stove.frame) ∧
    (let q : Xact := ⟨15, 0, 0x01, [], 1, 1, .walk⟩
     let s := sHw { walk := .discover, out := some (q, 3), nextAt := 5 }
     s.hw[0].walk = .discover ∧ s.hw[0].walkReq = none ∧ s.hw[0].out = some (q, 3) ∧ q.op = 0x01 ∧
     3 + 2 ≤ s.stove.frame ∧ s.hw[0].queue = [] ∧ s.hw[0].genLeft.1 = 0 ∧ s.hw[0].nextAt ≤ s.stove.frame) ∧
    (let s : State := { sHw { walk := .discover } with stove := { frame := 2400 } }
     s.hw[0].walk = .discover ∧ s.hw[0].walkFrom + s.hw[0].bootTmo ≤ s.stove.frame) ∧
    (let s : State := { sHw { walk := .vsnsLow } with stove := { frame := 4800 } }
     s.hw[0].walk = .vsnsLow ∧ 4800 ≤ s.stove.frame - s.hw[0].walkFrom) ∧
    (let s : State := { sHw { walk := .vgood } with stove := { frame := 481 } }
     s.hw[0].walk = .vgood ∧ 480 < s.stove.frame - s.hw[0].walkFrom) := by decide +kernel

theorem test_meets_NodeLossEvents :
    (let y : HwNode := ⟨[], 1, 0, 16, []⟩
     (sHw { nodes := [y] }).hw[0].nodes[0]? = some y ∧ 16 ≤ y.missed) ∧
    (let c : Chain := { auto := true, retryFrom := some 0, retry := 5 }
     let s := sHw c
     hwRuns 0 s = true ∧ s.hw[0].auto = true ∧ s.hw[0].walk = .none ∧ s.hw[0].st ≠ 3 ∧
     s.hw[0].retryFrom = some 0 ∧ 0 + s.hw[0].retry ≤ s.stove.frame ∧ s.hw[0].nodes = [] ∧
     lastAttach (sHw { c with nodes := [⟨[], 1, 0, 0, []⟩], attach := 1 }).hw[0] = true) := by decide +kernel

/-- A number of 32 bytes, least significant byte first (R6). -/
def le32 (x : Nat) : List Byte := (List.range 32).map fun i => BitVec.ofNat 8 (x / 256 ^ i)

/-- A NORMAL manifest of version 0x0102_0003 without components, signed by a P-256 key (R518). -/
def aMan : List Byte :=
  [0x46, 0x4D, 0x4F, 0x4E, 0, 0, 0, 0, 3, 0, 2, 1] ++ List.replicate 20 0 ++
  le32 0x471c3e758c4904285bba7e53118ed0f524adeb0757d25bd2f8e7b0d76dfa714c ++
  le32 0xdd520f7aca8a8b917acc37f51de8f0c9bbe3ad858382e702dc25a12d09f7a858 ++
  le32 0x77eefe4778578dcef1cc0e092bf951eb4a27a05ab75e482c5e943c83764460d4 ++
  le32 0x7f00521b5303a99bc92ed3ec305efafb16e9069f4c974e9e13dbca542ed4d81

/-- The ROM with that manifest pushed. -/
def sPush : State :=
  { sBoot with boot := { sBoot.boot with
      src := .push, wait := true, pushEnd := true, pushedLen := 160
      pushed := ((List.range 160).zip aMan).filter (fun e => e.2 ≠ 0) } }

theorem test_meets_ManifestVerified :
    sPush.boot.src ≠ .none ∧ sPush.boot.man = none ∧ bootWaits sPush = false ∧ manBytes sPush = some aMan ∧
    manReason (recovers sPush) (sPush.boot.src == .push) aMan sPush = none := by decide +kernel

/-- The one block of an image that has been pushed without a byte. -/
def aBlock : List Byte := imageBlock 0 { boot := { src := .push } }

/-- A manifest whose one component has that block. -/
def aManifest : Manifest := ⟨0, 0, 0, [⟨0, true, false, 0, 0, 1, 16⟩], [digestOf (sha256 aBlock)], 0⟩

/-- Slot of the ROM in which that block is next. -/
def sBlock : State :=
  { sBoot with boot := { sBoot.boot with src := .push, wait := true, pushEnd := true, man := some aManifest } }

theorem pushed_block_eq (s t : State) (hs : s.boot.src = .push) (ht : t.boot.src = .push)
    (h : s.boot.pushed = t.boot.pushed) : imageBlock 0 s = imageBlock 0 t := by
  simp only [imageBlock, bootedSlot, pushedBlock, hs, ht, h]

theorem test_meets_BlockVerified :
    sBlock.pow.st = .powerUp ∧ sBlock.pow.ianikRst = false ∧ sBlock.boot.man = some aManifest ∧
    nextBlock sBlock = some 0 ∧ bootWaits sBlock = false ∧ sBlock.boot.loadFailed = false ∧
    blockHere 0 sBlock = true ∧ blockGood aManifest (imageBlock 0 sBlock) 0 = true := by
  refine ⟨by decide +kernel, by decide +kernel, rfl, by decide +kernel, by decide +kernel, by decide +kernel,
    by decide +kernel, ?_⟩
  rw [show imageBlock 0 sBlock = aBlock from pushed_block_eq _ _ rfl rfl rfl]
  simp only [blockGood, aManifest, List.getD_cons_zero, BEq.rfl, Bool.and_true]
  decide +kernel

/-- A transaction of a PSP_XFER. -/
def aReq (write erase : Bool) : P0Req := ⟨.xfer 1 7, 0, 0x1000, 8, write, erase, false, 0, [], false, 0, false⟩

theorem test_meets_Psp0Events :
    (∀ w : Bool, let s : State := { sRun with p0 := { cur := some (aReq w false) } }
     s.p0.cur = some (aReq w false) ∧ (aReq w false).why = .xfer 1 7 ∧ (aReq w false).write = w ∧
     (aReq w false).raw = false ∧ (aReq w false).bare = false ∧ enables (aReq w false) s = false) ∧
    (let s : State := { sRun with p0 := { cur := some (aReq false false), prof := .replicate 15 { w4 := 0x100 } } }
     s.p0.cur = some (aReq false false) ∧ (profOf 0 s).w4.getLsbD 8 = true ∧ hasData (aReq false false) s = true) ∧
    (∀ k : Fin 3,
      let s : State := { sRun with p0 := {
        polled := [(aReq true true, 4)], prof := .replicate 15 { w4 := 0x01000000, w6 := if k = 1 then 5 else 6 } } }
      let st : Byte := if k = 0 then 0 else 1
      s.p0.cur = none ∧ s.p0.polled = (aReq true true, 4) :: [] ∧ (aReq true true).erase = true ∧
      (k = 0 → st &&& (profOf 0 s).w4.extractLsb' 24 8 = 0) ∧
      (k = 1 → st &&& (profOf 0 s).w4.extractLsb' 24 8 ≠ 0 ∧ fld (profOf 0 s).w6 0 16 ≤ 4 + 1) ∧
      (k = 2 → st &&& (profOf 0 s).w4.extractLsb' 24 8 ≠ 0 ∧ 4 + 1 < fld (profOf 0 s).w6 0 16)) := by decide +kernel

/-- Line 0 arrived, with the tag that its bytes have where `good`. -/
def sLine (good dem : Bool) : State :=
  let s : State := { sRun with p0 := { locked := true, tagRange := (0, 1), filled := [(0, dem)], stalled := some 0 } }
  if good then { s with care := { s.care with
    ianikRam := wrWs [] 0x20000 [(lineTag 0 s).extractLsb' 0 32, (lineTag 0 s).extractLsb' 32 32] } } else s

theorem test_meets_FetchWindow :
    (let s : State := { sRun with p0 := { lines := [(0xFFFFF, [])] } }
     (0x3FFFFFF : Nat) < 0x4000000 ∧ p0On s = true ∧ s.p0.stalled = none ∧
     s.p0.lines.find? (fun x => decide (x.1 = 0x3FFFFFF / 64)) = some (0x3FFFFFF / 64, [])) ∧
    (∀ b : Bool, let s : State := { sRun with p0 := { prof := .replicate 15 { w4 := if b then 0x202 else 0 } } }
     p0On s = true ∧ s.p0.stalled = none ∧ lineHeld (0 / 64) s = false ∧ present 0 s = b) ∧
    ((sLine true true).p0.filled = (0, true) :: [] ∧ tagTested 0 (sLine true true) = false ∧
      (tagRead 0 (sLine true true)).1 = true ∧ lineGood 0 (sLine true true) = true) ∧
    (((tagRead 0 (sLine false true)).1 && lineGood 0 (sLine false true)) = false ∧
      tagTested 0 (sLine false true) = false ∧ (sLine false true).pow.bootCrit = false ∧
      (sLine false true).p0.stalled = some 0) := by decide +kernel

/-- A descriptor of 32 bytes for a ring of 8 one-channel frames. -/
def aDesc : Desc := ⟨0x2000, 0, false, false, true, 0, 32, 9, 7, false, 0, 0, false, false, [], false⟩

theorem test_meets_DescriptorEventsComplete :
    (let s := sRings { st := .ready, kind := .playback, k := 8, c := 1, descs := [aDesc] }
     p0On s = true ∧ s.p0.rings[15].descs = aDesc :: [] ∧ aDesc.started = false ∧
     descReady s.p0.rings[15] aDesc = true) ∧
    (∀ k ∈ [RingKind.playback, .capture],
      let d : Desc := { aDesc with started := true, done := 32 }
      let s := sRings { st := .running, kind := k, k := 8, c := 1, descs := [d] }
      s.p0.rings[0].descs = d :: [] ∧ d.started = true ∧ d.stopped = false ∧ d.media = false ∧ d.len ≤ d.done ∧
      s.p0.polled = [] ∧ s.p0.cur = none ∧ s.p0.rings[0].kind = k ∧ d.irq = true) ∧
    (let s := sRings { st := .running, kind := .playback, k := 8, c := 1, n0 := 6, descs := [aDesc] }
     s.p0.rings[0].descs = [aDesc] ∧ aDesc.late = false ∧ aDesc.media = false ∧ aDesc.stopped = false ∧
     aDesc.done < aDesc.len ∧
     descDeadline s.p0.rings[0] (ringHead s.p0.rings[0]) aDesc = some s.stove.frame) := by decide +kernel

theorem test_meets_VaultAndPatrolEventsComplete :
    (∀ b : Bool,
      let s : State := { sRun with care := { wiping := true, repeated := b } }
      s.care.wiping = true ∧ patrolOn s = true ∧ s.care.repeated = b ∧ (s.boot.booted = false ∨ s.care.cause ≠ 5)) ∧
    (let s : State := { sRun with care := { wiping := true, cause := 5 }, boot := { booted := true } }
     s.care.wiping = true ∧ patrolOn s = true ∧ s.boot.booted = true ∧ s.care.cause = 5 ∧ s.care.locked = false) ∧
    (let w : WordAt := ⟨.mailboxRam, 0, 0, 16383⟩
     let u : Upset := ⟨w, false, 3⟩
     let s : State := { sRun with care := { upsets := [u] } }
     s.care.scrub = true ∧ scrubs w s = true ∧ upsetOf w s = some u ∧ u.double = false ∧
     (w.cls = .store → s.hive.free = [])) ∧
    (∀ b : Bool, let w : WordAt := ⟨.vault, 0, 0, 65535⟩
     let s : State := { sRun with care := { scrubbed := if b then [(0, 2441215)] else [] } }
     s.care.scrub = true ∧ scrubs w s = true ∧ upsetOf w s = none ∧ w.cls = .vault ∧
     (gaps 0 (cover (2375680 + w.addr) s.care.scrubbed)).any (passNeeds s) = !b) ∧
    (let s : State := { sRun with care := { due := true, strobeAt := some 5, interval := 5 } }
     s.care.region = true ∧ patrolOn s = true ∧ s.care.due = true ∧ s.care.phase = 0 ∧ s.care.nextPhase = none ∧
     regionFree s = true ∧ s.care.intervalFrom + s.care.interval ≤ s.stove.frame) ∧
    (∀ p : BitVec 2, ({ sRun with care := { nextPhase := some p } } : State).care.nextPhase = some p) ∧
    (∀ p ∈ ([1, 2, 3] : List (BitVec 2)),
      let s : State := { sRun with care := { phase := p } }
      s.care.nextPhase = none ∧ s.care.phase = p) := by decide +kernel

/-- A mailbox whose version is still 1 refuses the version 3 request. -/
theorem test_meets_mailbox_rules :
    (∀ x ∈ [MbxSt.rung, .busy],
      let s : State := { s0 with mbx := .replicate 4 { st := x } }
      unitTaken (0x20 + 8 * (3 : Fin 4).val) s = true ∧ pastEnd s = false ∧ s.mbx[3].st = x) ∧
    (mbxReach s0 = true ∧ mbxFree 1 s0 = true ∧ mbxServed 1 s0 = true) ∧
    (let s : State := { s0 with mbx := .replicate 4 {} }
     s.mbx[1].ver = 1 ∧ refusal cellInfoDef 1 (rq 0 []) (asked cellInfoDef 1 (rq 0 []) s) = some 6 ∧
     refusal sysInfoDef 1 { rq 0 [] with ver := 1 } (asked sysInfoDef 1 { rq 0 [] with ver := 1 } s) = none) ∧
    (∃ d m r, mailboxOf (.cellInfo 1 (rq 0 [])) = some (d, m, r)) :=
  ⟨by decide +kernel, by decide +kernel, by decide +kernel, _, _, _, rfl⟩

/-- A SYS_POWER request for STANDBY meets a deferred tuning load. -/
def sDeferred : State := { s0 with ianik := { deferred := [⟨0x0B06, 1, 3, none⟩] } }

theorem test_meets_SysPowerRefusedWhileDeferred :
    (mbxReach sDeferred = true ∧ mbxFree 1 sDeferred = true ∧ mbxServed 1 sDeferred = true ∧
      sDeferred.ianik.deferred ≠ []) ∧
    (1 ≤ (rq 0 [1]).ver.toNat ∧ (rq 0 [1]).ver.toNat ≤ sDeferred.mbx[1].ver ∧ (rq 0 [1]).len.toNat ≤ 480) ∧
    sysPowerDef.bad (rq 0 [1]) sDeferred = false ∧ argF (rq 0 [1]) 3 0 2 = 1 ∧
    sysPowerDef.bad (rq 0 [2]) sDeferred = false ∧ argF (rq 0 [2]) 3 0 2 = 2 := by decide +kernel

theorem test_meets_CoefWriteCountsItsEntries :
    (∀ n ∈ [1, 112], Accepts cellCoefWriteDef 1
      (rq 0 ([n2w n 8 ||| n2w (32768 - n) 16, 0, 0] ++ List.replicate n 0)) s0) ∧
    (let r := rq 0 ([n2w 2 8 ||| n2w 32767 16, 0, 0] ++ List.replicate 2 0)
     32768 < argF r 3 16 15 + argF r 3 8 7 ∧ 1 ≤ r.ver.toNat ∧ r.ver.toNat ≤ s0.mbx[1].ver ∧ r.len.toNat ≤ 480) := by
  unfold Accepts; decide +kernel

theorem test_meets_StageDiscardRestoresTargets :
    let s : State := { s0 with hive := { combs := .replicate 3 { nodes := [(512, ⟨1, 2, 3⟩)], marks := [1] } } }
    Accepts combStageDiscardDef 1 (rq 0 []) s ∧ swf {} (combAt s (tgtComb (rq 0 []))).nodes = true := by
  unfold Accepts; decide +kernel

/-- The reserved offsets of the register area as R572's statement lists them. -/
theorem test_meets_ReservedUnmappedAndStoppedAddresses :
    ((0x0018 : BitVec 16).toNat % 0x1000 / 4 * 4 = 0x18 ∧ (0x1058 : BitVec 16).toNat % 0x1000 / 4 * 4 = 0x58 ∧
      (0x205C : BitVec 16).toNat % 0x1000 / 4 * 4 = 0x5C ∧ 0x3A4 ≤ (0x2FFF : BitVec 16).toNat % 0x1000 / 4 * 4 ∧
      (0x2FFF : BitVec 16).toNat < 0x3000) ∧
    (mbxReach s0 = true ∧ s0.pow.st ≠ .hearthSafe ∧ s0.stove.running = false ∧ s0.host.xfer = none ∧
      pastEnd s0 = false ∧ unitTaken 0x38C s0 = true ∧ unitTaken (0x2FFF : BitVec 16).toNat s0 = true ∧
      unitTaken (0x7FFF : BitVec 16).toNat s0 = true) ∧
    (0x3000 ≤ (0x3000 : BitVec 16).toNat ∧ (0x7FFF : BitVec 16).toNat < 0x8000) ∧
    (mbxReach { pow := { st := .hearthSafe } } = true ∧ (0x2100 : BitVec 16).toNat < 0x3000 ∧
      0x100 ≤ (0x2100 : BitVec 16).toNat % 0x1000) := by decide +kernel

theorem test_meets_WindowPageAppliesToLaterTransfers :
    ∀ p : Bool,
      let s : State := { s0 with host := { xfer := some (aXfer false 4 0x8000 4 p) } }
      unitTaken (0x8000 : BitVec 16).toNat s = true ∧ pastEnd s = false ∧ s.pow.st ≠ .powerUp ∧
      s.host.xfer = some (aXfer false 4 0x8000 4 p) ∧ 0x8000 ≤ (0x8000 : BitVec 16).toNat ∧
      winAddr p ((0x8000 : BitVec 16).toNat / 4 * 4) ≠ 0xF00C := by decide +kernel

theorem test_meets_step_statements :
    State.reset.pending = [] ∧
    (∃ t, step { State.reset with pending := [.wakeRequest ⟨0, true⟩] } = .next t) ∧
    (8 : Nat) < 65536 ∧ (rq 0 (List.replicate 120 0)).payload.length = 120 ∧ s0.care.upsets = [] ∧
    ¬ (s0.pow.st = .powerUp ∧ s0.boot.step < 6) ∧
    (let f : Fuses := { revoked := .replicate 4 true, keys := .replicate 4 (some 5) }
     f.revoked[3] = true ∧ f.keys[3] = some 5) ∧
    cmdArea 1 ≠ 0 ∧ (0 : Nat) < cmdArea 1 ∧ ∃ t, exec (.cellInfo 1 (rq 0 [])) s0 = .next t :=
  ⟨rfl, ⟨_, rfl⟩, by decide +kernel, by decide +kernel, rfl, by decide +kernel, by decide +kernel,
    by decide +kernel, by decide +kernel, _, rfl⟩

theorem test_meets_BallsFollowTheState :
    (let s : State := { sRun with
        pow := { sRun.pow with rails := .replicate 6 true }, scan := { ir := .bypass }
        dmpr := { running := true, runs := (0, 0, 3, 0) } }
     damperRuns s = true ∧ s.dmpr.supply ≠ .loadDump ∧ 3 ≤ s.dmpr.runs.2.2.1 ∧
     f32Q (s.dmpr.cfgNext.getD s.dmpr.cfg).dump < senseVolts 0xFFF (s.dmpr.cfgNext.getD s.dmpr.cfg).batRatio ∧
     s.pow.st ≠ .off ∧ s.scan.ir = .bypass ∧ s.pow.rails[3] = true) ∧
    (let s : State := { sBlockEnd with
        pow := { sRun.pow with rails := .replicate 6 true }, scan := { ir := .bypass } }
     damperRuns s = true ∧ belRuns s = true ∧
     (channelBlock s.hive.dom.fm (([] : List (List (BitVec 16 × BitVec 16))).getD 31 []) s.dmpr.ch[31]).2.2 = true ∧
     s.scan.ir = .bypass ∧ s.pow.rails[3] = true) ∧
    (let s : State := { sRun with
        pow := { sRun.pow with st := .runToStandby, rails := .replicate 6 true }, scan := { ir := .bypass } }
     s.pow.st = .runToStandby ∧ bellowsMuted s = true ∧ portsOver s = true ∧ s.scan.ir = .bypass ∧
     s.pow.rails[3] = true) ∧
    (let s : State := { sRun with pow := { sRun.pow with lc := .develop, rails := .replicate 6 true } }
     s.pow.st ≠ .off ∧ s.pow.lc = .develop ∧ s.pow.rails[3] = true) ∧
    (let s : State := { pow := { st := .powerUp, rails := .replicate 6 true }, scan := { ir := .bypass } }
     s.pow.st = .powerUp ∧ s.boot.done = false ∧ s.scan.ir = .bypass ∧ s.pow.rails[3] = true) := by decide +kernel

/-! ### Ill-formed commands -/

/-- Each check of `Instr.wf` refuses a command, and admits its neighbour. -/
theorem test_wf_refuses :
    Instr.wf (.sysLoopback 0 (rq 0 (List.replicate 126 0))) = false ∧
    Instr.wf (.sysLoopback 0 (rq 0 (List.replicate 125 0))) = true ∧
    Instr.wf (.registerWrite 0x1000 0) = false ∧ Instr.wf (.registerWrite 0x0FFC 0) = true ∧
    Instr.wf (.registerWrite 0x0042 0) = false ∧ Instr.wf (.bitSetAliasWrite 0x0FFC 0) = false ∧
    Instr.wf (.bitClearAliasWrite 0x1FFC 0) = false ∧ Instr.wf (.bitClearAliasWrite 0x2FFC 0) = true ∧
    Instr.wf (.mailboxRamWrite 0x7FFC 0 none) = false ∧ Instr.wf (.mailboxRamWrite 0x8001 0 none) = false ∧
    Instr.wf (.mailboxRamWrite 0x8000 0 none) = true ∧ Instr.wf (.pspBusyDrop 0x8002 0) = false ∧
    Instr.wf (.powerUpStep ⟨true, 0, 0, none, .replicate 33 0, 0⟩) = false ∧
    Instr.wf (.measurementGateEnd (.replicate 12 none) 0) = false ∧
    Instr.wf (.bellowsUpdate (.replicate 31 (0, 0))) = false ∧
    Instr.wf (.energyBlockEnd (.replicate 31 [])) = false ∧
    Instr.wf (.portFrameComplete ⟨0, .rx, 0, 32000, .replicate 1026 false, (true, false), 0⟩) = false ∧
    Instr.wf (.portFrameComplete ⟨0, .rx, 0, 0, .replicate 65 false, (true, false), 0⟩) = false ∧
    Instr.wf (.portFrameComplete ⟨0, .rx, 0, 32000, .replicate 65 false, (true, false), 0⟩) = true ∧
    Instr.wf (.lineFrameReceived 0 ⟨0, .replicate 131 0, 0⟩) = false ∧
    Instr.wf (.lineFrameReceived 0 ⟨0, .replicate 132 0, 0⟩) = true ∧
    Instr.wf (.crossingTimeout 4 4) = false ∧ Instr.wf (.crossingTimeout 4 5) = true := by decide +kernel

/-! ### Single steps against the spec's numbers -/

/-- A step takes the front command alone; the table gives no word bits to decode. -/
theorem test_step_takes_the_front :
    step { s0 with pending := [.pspCntClr, .keeperRelease] } =
      .next { s0 with host := { errCnt := 0 }, pending := [.keeperRelease] } ∧
    decodeTableWord 32 5 = none := ⟨rfl, rfl⟩

/-- The worked word of "Encoding one word" (chapter 04): FMA v2 = v12 × v0 + v6, LD v17 through d0 at 72, NOP. -/
theorem test_cell_word_decodes :
    let w : Nat := 0x14083000180000888000120000000000
    (decodeA w).aop = 5 ∧ (decodeA w).msk = 0 ∧ (decodeA w).dst = 2 ∧ (decodeA w).sa = 12 ∧ (decodeA w).sb = 0 ∧
    (decodeA w).sc = 6 ∧ (decodeM w).mop = 1 ∧ (decodeM w).reg = 0x11 ∧ (decodeM w).dsc = 0 ∧
    (decodeM w).off = 72 ∧ decodeC w = 0 := by decide +kernel

/-- The carrier period of the worked example under R205: indexes 0.30 and 0.31 at P = 1,000. -/
theorem test_carrier_edges : edgesOf 1000 0x3E99999A 0x3E9EB852 = (11200, 52960, 20800, 43040) := by decide +kernel

/-- The spread lengths of R220's check at D = 64. -/
theorem test_spread_lengths :
    (List.range 8).map (carrierLen { spread := 1, depth := 64 }) =
      [936, 954, 973, 991, 1009, 1027, 1046, 1064] := by decide +kernel

/-- MBX0_STAT at M frame 203 of chapter 14's worked example. -/
theorem test_mbx_stat : mbxStat { st := .done, ver := 3, seqDone := 2, seqRung := 2 } = 0xC3000202 := by decide

/-- The stored energies of chapter 10's worked example: 10 µF and 32 µF at 13.5 V hold 0.911 mJ and 2.916 mJ. -/
theorem test_stored_energy :
    storedEnergy 100 (27 / 2) = qF64 (mkRat 911250 1000000000) ∧
    storedEnergy 320 (27 / 2) = qF64 (mkRat 2916000 1000000000) := by decide +kernel

/-- 8b/10b: K28.5 and D16.2 with a negative disparity are 0011111010 and 0110110101, and every data byte decodes
from its code in either disparity. -/
theorem test_line_code :
    lineEncode false true 0xBC = 0b0011111010 ∧ lineEncode false false 0x50 = 0b0110110101 ∧
    ∀ (rd : Bool) (b : Byte), lineDecode rd (lineEncode rd false b) = some (false, b) := by decide +kernel

/-- SHA-256 of "abc", the example of FIPS 180-4. -/
theorem test_sha256_abc :
    natBE (sha256 [0x61, 0x62, 0x63]) = 0xba7816bf8f01cfea414140de5dae2223b00361a396177a9cb410ff61f20015ad := by
  decide +kernel

end Sys2Proof.Tests
end

section
/-! What a sampled mailbox command finds (R467, R471, R477), and the refusal of SYS_POWER while a deferred command is
outstanding (R30). -/

namespace Sys2Proof.Machine

/-! ### The state a sampled command acts on -/

/-- Host writes of mailbox words reach the mailbox RAM and its codewords only (R397, R407). -/
theorem hostRams_frame (a : Nat) (ws : List Word) (s : State) :
    hostRams a ws s = { s with ram := (hostRams a ws s).ram, care := (hostRams a ws s).care } := by
  induction ws generalizing a s with
  | nil => rfl
  | cons w ws ih =>
    refine (ih (a + 4) (hostRam a w s)).trans ?_
    rw [hostRams]
    unfold hostRam
    split <;> rfl

/-- Meeting a codeword touches the counts and logs of errors and the events only (R408 to R410). -/
theorem checkWord_frame (w : WordAt) (s : State) :
    (checkWord w s).2 = { s with evt := (checkWord w s).2.evt, care := (checkWord w s).2.care } := by
  unfold checkWord
  split
  · rfl
  · split <;> rfl

/-- Reading the ring tail touches the ring, the counts and logs of errors and the events only (R409, R477). -/
theorem readTail_frame (s : State) :
    readTail s = { s with evt := (readTail s).evt, care := (readTail s).care } := by
  have h := checkWord_frame ⟨.mailboxRam, 0, 0, 0xF004 / 4⟩ s
  unfold readTail
  generalize checkWord ⟨.mailboxRam, 0, 0, 0xF004 / 4⟩ s = c at h ⊢
  obtain ⟨ok, t⟩ := c
  dsimp only at h ⊢
  rw [h]
  cases ok with
  | false => rfl
  | true => simp only [if_true]; split <;> rfl

/-- Before its effect a sampled command has changed its mailbox, the mailbox RAM, the error counts and the events
only (R467, R471, R477). -/
theorem asked_frame (d : CmdDef) (m : Fin 4) (r : Req) (s : State) :
    asked d m r s = { s with
      mbx := (ringMbx m s.mbx[m].seqRung s).mbx, ram := (asked d m r s).ram
      care := (asked d m r s).care, evt := (asked d m r s).evt } := by
  unfold asked
  rw [readTail_frame, hostRams_frame]
  rfl

@[simp] theorem asked_pow (d : CmdDef) (m : Fin 4) (r : Req) (s : State) : (asked d m r s).pow = s.pow := by
  rw [asked_frame]

@[simp] theorem asked_ianik (d : CmdDef) (m : Fin 4) (r : Req) (s : State) : (asked d m r s).ianik = s.ianik := by
  rw [asked_frame]

@[simp] theorem asked_hive (d : CmdDef) (m : Fin 4) (r : Req) (s : State) : (asked d m r s).hive = s.hive := by
  rw [asked_frame]

@[simp] theorem asked_mbx (d : CmdDef) (m : Fin 4) (r : Req) (s : State) :
    (asked d m r s).mbx = (ringMbx m s.mbx[m].seqRung s).mbx := by
  rw [asked_frame]

/-- A ring leaves the version in force on its mailbox (R479). -/
@[simp] theorem mbxVer_asked (d : CmdDef) (m : Fin 4) (r : Req) (s : State) :
    mbxVer m (asked d m r s) = s.mbx[m].ver := by
  simp [mbxVer, ringMbx, vmod]

/-! ### The refusal with STATE -/

/-- A command that passes the tests of R474 before STATE and is wrong in its state is refused with STATE. -/
theorem refusal_stState {d : CmdDef} {m : Fin 4} {r : Req} {s : State}
    (hpos : 1 ≤ r.ver.toNat) (hver : r.ver.toNat ≤ mbxVer m s) (hmin : d.minVer ≤ r.ver.toNat)
    (hlen : r.len.toNat ≤ 480) (hneeds : d.needs m r s = false) (hauth : d.auth m r s = false)
    (hbad : d.bad r s = false) (hstale : d.stale r s = false) (hwrong : d.wrong m r s = true) :
    refusal d m r s = some stState := by
  simp [refusal, hneeds, hauth, hbad, hstale, hwrong, Nat.not_lt.mpr hver, Nat.not_lt.mpr hmin, Nat.not_lt.mpr hlen,
    Nat.pos_iff_ne_zero.mp hpos]

/-- A deferred command bars STANDBY and HEARTH (R30). -/
theorem sysPowerWrong_of_deferred {r : Req} {s : State} (hd : s.ianik.deferred ≠ [])
    (ht : argF r 3 0 2 = 1 ∨ argF r 3 0 2 = 2) : sysPowerWrong r s = true := by
  have hne : s.ianik.deferred.isEmpty = false := List.isEmpty_eq_false_iff.mpr hd
  unfold sysPowerWrong
  obtain ht | ht := ht <;> simp [ht, hne]

/-- SYS_POWER for STANDBY or HEARTH is refused with STATE while a deferred command is outstanding (R30). -/
theorem sysPower_refuses_of_deferred {m : Fin 4} {r : Req} {s : State} (hs : Sampled m s) (hd : s.ianik.deferred ≠ [])
    (hpos : 1 ≤ r.ver.toNat) (hver : r.ver.toNat ≤ s.mbx[m].ver) (hlen : r.len.toNat ≤ 480)
    (hbad : sysPowerDef.bad r s = false) (ht : argF r 3 0 2 = 1 ∨ argF r 3 0 2 = 2) :
    Refuses sysPowerDef m r stState s := by
  obtain ⟨hreach, hfree, hserved⟩ := hs
  have hwrong : sysPowerDef.wrong m r (asked sysPowerDef m r s) = true :=
    sysPowerWrong_of_deferred (by simpa using hd) ht
  exact ⟨hreach, hfree, hserved,
    refusal_stState hpos (by simpa using hver) hpos hlen rfl rfl hbad rfl hwrong⟩

/-- Settles O12: STATE is the first refusal of R474 that applies, a refused SYS_POWER has no effect, and what was done
before it, the command's words and the ring tail, touches neither the power state nor Ianik nor the Hive. -/
theorem sysPowerRefusedWhileDeferred : Obligations.SysPowerRefusedWhileDeferred := by
  refine ⟨fun m r s hs hd hpos hver hlen hbad ht => ⟨?_, asked_pow .., asked_ianik .., asked_hive ..⟩,
    rfl, rfl, rfl, rfl⟩
  have h := sysPower_refuses_of_deferred hs hd hpos hver hlen hbad ht
  exact (exec_mailbox rfl s).trans (congrArg _ (mbxCommand_refused h))

end Sys2Proof.Machine
end

section
/-! The words and the queue entries of CELL_COEF_WRITE (R85), with what a message sent to a cell adds to the messages
under way (R51, R77) and the refusal of a bad argument in the order of R474. -/

namespace Sys2Proof.Machine

/-! ### Response and refusal -/

/-- The response that waits on the mailbox is the command's own (R470, R473). -/
@[simp] theorem answer_resp (op : Nat) (m : Fin 4) (r : Req) (st : Nat) (ws : List Word) (b : Bool) (s : State) :
    (answer op m r st ws b s).mbx[m].resp =
      some ⟨BitVec.ofNat 16 op, BitVec.ofNat 8 st, r.ver, r.tag, r.target, ws⟩ := by
  simp [answer, modMbx, vmod]

@[simp] theorem answer_hive (op : Nat) (m : Fin 4) (r : Req) (st : Nat) (ws : List Word) (b : Bool) (s : State) :
    (answer op m r st ws b s).hive = s.hive := rfl

@[simp] theorem answer_ianik (op : Nat) (m : Fin 4) (r : Req) (st : Nat) (ws : List Word) (b : Bool) (s : State) :
    (answer op m r st ws b s).ianik = s.ianik := rfl

/-- A command that passes the tests of R474 before BAD_ARG and has a bad argument is refused with BAD_ARG. -/
theorem refusal_stBadArg {d : CmdDef} {m : Fin 4} {r : Req} {s : State}
    (hpos : 1 ≤ r.ver.toNat) (hver : r.ver.toNat ≤ mbxVer m s) (hmin : d.minVer ≤ r.ver.toNat)
    (hlen : r.len.toNat ≤ 480) (hneeds : d.needs m r s = false) (hauth : d.auth m r s = false)
    (hbad : d.bad r s = true) : refusal d m r s = some stBadArg := by
  simp [refusal, hneeds, hauth, hbad, Nat.not_lt.mpr hver, Nat.not_lt.mpr hmin, Nat.not_lt.mpr hlen,
    Nat.pos_iff_ne_zero.mp hpos]

/-- An accepted command has no bad argument in the state it acts on (R474). -/
theorem Accepts.bad_eq_false {d : CmdDef} {m : Fin 4} {r : Req} {s : State} (h : Accepts d m r s) :
    d.bad r (asked d m r s) = false := by
  obtain ⟨-, -, -, hnone⟩ := h
  refine Bool.eq_false_iff.mpr fun hbad => ?_
  simp only [refusal, hbad, if_true] at hnone
  repeat' split at hnone
  all_goals cases hnone

/-! ### Messages to cells -/

/-- A message sent to a cell joins the messages under way as the youngest, on its way or stalled at Ianik (R51, R77). -/
theorem sendCell_underWay (e : QEntry) (s : State) :
    (sendCell e s).hive.transit ++ (sendCell e s).ianik.stalled = s.hive.transit ++ s.ianik.stalled ++ [e] := by
  unfold sendCell
  split
  case isTrue hfree =>
    obtain ⟨hempty, -⟩ : s.ianik.stalled = [] ∧ _ := by simpa using hfree
    simp [hempty]
  case isFalse => simp

/-! ### CELL_COEF_WRITE -/

/-- A count and an address that CELL_COEF_WRITE takes: 1 to 112 words, none past word 32,767 (R85). -/
theorem coefWords_of_coefBad_eq_false {r : Req} {s : State} (h : coefBad r s = false) :
    1 ≤ argF r 3 8 7 ∧ argF r 3 8 7 ≤ 112 ∧ argF r 3 16 15 + argF r 3 8 7 ≤ 32768 := by
  simp only [coefBad, Bool.or_eq_false_iff, beq_eq_false_iff_ne, decide_eq_false_iff_not] at h
  omega

/-- A write that runs past word 32,767 is a bad argument (R85). -/
theorem coefBad_of_past_end {r : Req} (s : State) (h : 32768 < argF r 3 16 15 + argF r 3 8 7) :
    coefBad r s = true := by
  refine Bool.of_not_eq_false fun hgood => ?_
  have hwords := coefWords_of_coefBad_eq_false hgood
  omega

/-- An accepted CELL_COEF_WRITE sends its cell one message, of an entry for each 16 words begun (R85). -/
theorem cellCoefWrite_sends (m : Fin 4) (r : Req) (s : State) :
    ∃ e : QEntry, (cellCoefWriteDef.act m r s).1 = sendCell e s ∧ e.cell = tgtCell r ∧
      e.entries = (argF r 3 8 7 + 15) / 16 :=
  ⟨_, rfl, rfl, rfl⟩

/-- A sampled CELL_COEF_WRITE that runs past word 32,767 and passes the tests before BAD_ARG is refused with BAD_ARG
(R85, R474). -/
theorem cellCoefWrite_refuses_of_past_end {m : Fin 4} {r : Req} {s : State} (hs : Sampled m s)
    (hpos : 1 ≤ r.ver.toNat) (hver : r.ver.toNat ≤ s.mbx[m].ver) (hlen : r.len.toNat ≤ 480)
    (hpast : 32768 < argF r 3 16 15 + argF r 3 8 7) : Refuses cellCoefWriteDef m r stBadArg s := by
  obtain ⟨hreach, hfree, hserved⟩ := hs
  exact ⟨hreach, hfree, hserved,
    refusal_stBadArg hpos (by simpa using hver) hpos hlen rfl rfl (coefBad_of_past_end _ hpast)⟩

/-- Settles O14: an accepted command has passed the argument test, which bounds its words, and its one message joins
those under way; a write past the end fails that test, and no test before it. -/
theorem coefWriteCountsItsEntries : Obligations.CoefWriteCountsItsEntries := by
  refine fun m r s => ⟨fun hacc => ?_, fun hs hpos hver hlen hpast => ?_⟩
  · obtain ⟨hmin, hmax, hend⟩ := coefWords_of_coefBad_eq_false hacc.bad_eq_false
    obtain ⟨e, hsend, hcell, hentries⟩ := cellCoefWrite_sends m r (asked cellCoefWriteDef m r s)
    refine ⟨hmin, hmax, hend, _, e, exec_mailbox rfl s, ?_, hcell, hentries⟩
    simp only [mbxCommand_accepted hacc, answer_hive, answer_ianik, hsend, sendCell_underWay, asked_hive, asked_ianik]
  · refine ⟨_, exec_mailbox rfl s, ?_⟩
    rw [mbxCommand_refused (cellCoefWrite_refuses_of_past_end hs hpos hver hlen hpast)]
    exact answer_resp ..

end Sys2Proof.Machine
end

section
/-! COMB_STAGE_DISCARD (R175): what a change of every listed value reads back as, and what discarding the staging does
to a node. -/

namespace Sys2Proof.Machine

/-! ### A change of every listed value -/

/-- A changed entry is listed unless it has become the unlisted value. -/
theorem smap_cons {α : Type} [DecidableEq α] (d : α) (f : Nat → α → α) (k : Nat) (v : α) (m : List (Nat × α)) :
    smap d f ((k, v) :: m) = if f k v = d then smap d f m else (k, f k v) :: smap d f m := by
  by_cases hv : f k v = d <;> simp [smap, hv]

/-- Every key reads as its value changed, the unlisted keys among them where the change leaves the unlisted value. -/
theorem sget_smap {α : Type} [DecidableEq α] {d : α} {f : Nat → α → α} (hf : ∀ k, f k d = d) {m : List (Nat × α)}
    (hm : swf d m = true) (k : Nat) : sget d (smap d f m) k = f k (sget d m k) := by
  induction m with
  | nil => exact (hf k).symm
  | cons e r ih =>
    obtain ⟨k', v⟩ := e
    simp only [swf, Bool.and_eq_true] at hm
    obtain ⟨⟨-, hgt⟩, hr⟩ := hm
    have hread := ih hr
    rw [smap_cons]
    by_cases hk : k = k'
    · subst hk
      -- an entry that drops out reads as the unlisted value, which no later entry of its key replaces
      rw [sget_all_gt d r k hgt, hf] at hread
      split
      case isTrue hv => simp [sget, hread, hv]
      case isFalse => simp [sget]
    · split <;> simp [sget, hk, hread]

/-! ### The Comb of a domain -/

/-- A change of a Comb is read back from it. -/
@[simp] theorem combAt_modComb_same (d : Dom) (f : Comb → Comb) (s : State) :
    combAt (modComb d f s) d = f (combAt s d) := by
  simp [combAt, modComb, vmod]

/-- A command that leaves the Hive alone leaves its Combs. -/
theorem combAt_congr {s t : State} (h : t.hive = s.hive) (d : Dom) : combAt t d = combAt s d := by
  rw [combAt, h, combAt]

/-! ### COMB_STAGE_DISCARD -/

@[simp] theorem discardStage_marks (d : Dom) (c : Comb) : (discardStage d c).marks = [] := rfl

/-- A node in a marked column has its staged gain back at the target; every other node is as it was (R175). -/
theorem sget_discardStage_nodes (d : Dom) {c : Comb} (h : swf {} c.nodes = true) (k : Nat) :
    sget {} (discardStage d c).nodes k =
      if c.marks.contains (k / cols d) then { sget {} c.nodes k with staged := (sget {} c.nodes k).target }
      else sget {} c.nodes k := by
  rw [discardStage, sget_smap (fun _ => ?_) h]
  exact ite_self _

/-- An accepted COMB_STAGE_DISCARD discards the staging of its Comb (R175). -/
theorem combStageDiscard_combAt {m : Fin 4} {r : Req} {s : State} (h : Accepts combStageDiscardDef m r s) :
    combAt (mbxCommand combStageDiscardDef m r s) (tgtComb r) = discardStage (tgtComb r) (combAt s (tgtComb r)) := by
  rw [mbxCommand_accepted h, combAt_congr (answer_hive ..)]
  refine (combAt_modComb_same ..).trans ?_
  rw [combAt_congr (asked_hive ..)]

/-- Settles O15: the Comb after the command is the Comb before it with its staging discarded, and each of its nodes,
marked or not, keeps its target and current gain. -/
theorem stageDiscardRestoresTargets : Obligations.StageDiscardRestoresTargets := by
  intro m r s hacc hwf
  refine ⟨_, exec_mailbox rfl s, ?_, fun k => ?_⟩ <;> rw [combStageDiscard_combAt hacc]
  · exact discardStage_marks ..
  · dsimp only
    rw [sget_discardStage_nodes _ hwf]
    split <;> exact ⟨rfl, rfl, rfl⟩

end Sys2Proof.Machine
end

section
/-! What a doorbell write to a mailbox that is not free does (R465, R468). -/

namespace Sys2Proof.Machine

/-! ### A write unit -/

/-- A unit that PSP1 takes inside the transfer's area does its write, and is one unit of the transfer (R440, R446). -/
theorem unitPut_taken {a : Nat} {s : State} (put : State → State) (htaken : unitTaken a s = true)
    (hin : pastEnd s = false) : unitPut a put s = unitDone (put s) := by
  simp [unitPut, htaken, hin]

/-- MBXn_DOORBELL has no RW field (R465). -/
theorem rwPut_doorbell (n : Fin 4) (v : Word) (s : State) : rwPut (0x20 + 8 * n.val) v s = s := by
  have hlt := n.isLt
  unfold rwPut
  rw [if_neg (by omega), if_neg (by omega), if_neg (by omega), if_neg (by omega)]

/-- MBXn_DOORBELL has no W1C bit (R465). -/
theorem w1cPut_doorbell (n : Fin 4) (v : Word) (s : State) : w1cPut (0x20 + 8 * n.val) v s = s := by
  have hlt := n.isLt
  unfold w1cPut
  rw [if_neg (by omega), if_neg (by omega), if_neg (by omega), if_neg (by omega), if_neg (by omega),
    if_neg (by omega)]

/-- The action of MBXn_DOORBELL is the ring with the number in its low byte (R465). -/
theorem woPut_doorbell (n : Fin 4) (v : Word) (s : State) :
    woPut (0x20 + 8 * n.val) v s = doorbell n (v.extractLsb' 0 8) s := by
  have hlt := n.isLt
  have hix : ixN 4 (by decide) ((0x20 + 8 * n.val - 0x20) / 8) = n := Fin.ext (by simp only [ixN]; omega)
  unfold woPut
  rw [if_neg (by omega), if_pos (by omega), hix]

/-- The number written stands in the low byte of the unit. -/
theorem extractLsb'_zeroExtend_seq (seq : Byte) : (seq.zeroExtend 32).extractLsb' 0 8 = seq := by
  ext i hi
  have hwide : i < 32 := by omega
  simp [hi, hwide]

/-- A write at MBXn_DOORBELL reaches its write-only field MBX_RING_SEQ and nothing else, in Hearth-safe too (R465,
R572). -/
theorem hostWrite_doorbell (page : Bool) (n : Fin 4) (seq : Byte) (s : State) :
    hostWrite page (0x20 + 8 * n.val) (seq.zeroExtend 32) s = doorbell n seq s := by
  have hlt := n.isLt
  have hword : (0x20 + 8 * n.val) / 4 * 4 = 0x20 + 8 * n.val := by omega
  have harea : areaOf (0x20 + 8 * n.val) = 0 := if_pos (by omega)
  have hlow : ¬ 0x100 ≤ (0x20 + 8 * n.val) % 0x1000 := by omega
  have hmapped : regUnmapped (0x20 + 8 * n.val) s = false := by
    unfold regUnmapped
    rw [decide_eq_false hlow, Bool.and_false]
  have hreg : regWrite (0x20 + 8 * n.val) (seq.zeroExtend 32) s = doorbell n seq s := by
    rw [regWrite, rwPut_doorbell, w1cPut_doorbell, woPut_doorbell, extractLsb'_zeroExtend_seq]
  unfold hostWrite
  simp only [hword, harea, hmapped, Bool.false_eq_true, if_false, hreg]

/-! ### A ring that is lost -/

theorem mbxFree_eq_false_of_rung_or_busy {n : Fin 4} {s : State} (h : s.mbx[n].st = .rung ∨ s.mbx[n].st = .busy) :
    mbxFree n s = false := by
  obtain h | h := h <;> simp only [mbxFree, h] <;> rfl

/-- A doorbell write to a mailbox that is not free is ignored (R468). -/
theorem doorbell_of_not_free {n : Fin 4} {s : State} (seq : Byte) (h : mbxFree n s = false) :
    doorbell n seq s = ringLost n s := by
  simp [doorbell, h]

/-- Settles O10: the write unit is taken and lies in its area, so it reaches the doorbell, where a mailbox in RUNG or
BUSY is not free. -/
theorem ringInRungOrBusyOnlySetsRingLost : Obligations.RingInRungOrBusyOnlySetsRingLost := by
  intro n seq s htaken hin hst
  refine congrArg Host.Outcome.next ?_
  calc hostUnit (0x20 + 8 * n.val) (seq.zeroExtend 32) s
      = unitDone (hostWrite (pageNow s) (0x20 + 8 * n.val) (seq.zeroExtend 32) s) := unitPut_taken _ htaken hin
    _ = unitDone (ringLost n s) := by
      rw [hostWrite_doorbell, doorbell_of_not_free seq (mbxFree_eq_false_of_rung_or_busy hst)]

end Sys2Proof.Machine
end

section
/-! The version check of every mailbox command (R480), the first of the refusals of R474. -/

namespace Sys2Proof.Machine

/-- A command that fails the version check is refused with VERSION, whatever else is wrong with it (R474, R480). -/
theorem refusal_stVersion {d : CmdDef} {m : Fin 4} {r : Req} {s : State}
    (h : ¬ (1 ≤ r.ver.toNat ∧ r.ver.toNat ≤ mbxVer m s ∧ d.minVer ≤ r.ver.toNat)) :
    refusal d m r s = some stVersion := by
  have hfails : r.ver.toNat < 1 ∨ mbxVer m s < r.ver.toNat ∨ r.ver.toNat < d.minVer := by omega
  unfold refusal
  rw [if_pos (by simpa [or_assoc] using hfails)]

/-- A sampled command that fails the version check is refused with VERSION (R480). -/
theorem Sampled.refuses_stVersion {d : CmdDef} {m : Fin 4} {r : Req} {s : State} (hs : Sampled m s)
    (h : ¬ (1 ≤ r.ver.toNat ∧ r.ver.toNat ≤ s.mbx[m].ver ∧ d.minVer ≤ r.ver.toNat)) :
    Refuses d m r stVersion s := by
  obtain ⟨hreach, hfree, hserved⟩ := hs
  exact ⟨hreach, hfree, hserved, refusal_stVersion (by rwa [mbxVer_asked])⟩

/-- An accepted command has passed the version check (R480). -/
theorem Accepts.version {d : CmdDef} {m : Fin 4} {r : Req} {s : State} (h : Accepts d m r s) :
    1 ≤ r.ver.toNat ∧ r.ver.toNat ≤ s.mbx[m].ver ∧ d.minVer ≤ r.ver.toNat := by
  obtain ⟨-, -, -, hnone⟩ := h
  refine Decidable.byContradiction fun hver => ?_
  rw [refusal_stVersion (by rwa [mbxVer_asked])] at hnone
  cases hnone

/-- A mailbox whose command has been answered is BUSY until the response is posted (R467). -/
@[simp] theorem answer_st (op : Nat) (m : Fin 4) (r : Req) (st : Nat) (ws : List Word) (b : Bool) (s : State) :
    (answer op m r st ws b s).mbx[m].st = .busy := by
  simp [answer, modMbx, vmod]

/-- Settles O11: the version check is the first refusal of R474, so a command that fails it is refused with VERSION and
one that is accepted has passed it; at version 1 the two bounds leave a minimum version of at most 1. -/
theorem versionGatesEveryMailboxCommand : Obligations.VersionGatesEveryMailboxCommand := by
  refine ⟨fun i d m r s hi hs => ⟨Accepts.version, fun hver => ⟨_, exec_mailbox hi s, ?_⟩, fun hone hacc => ?_⟩,
    fun m => ?_⟩
  · rw [mbxCommand_refused (hs.refuses_stVersion hver)]
    exact ⟨answer_st .., answer_resp ..⟩
  · obtain ⟨-, hle, hmin⟩ := hacc.version
    omega
  · simp [State.reset]

end Sys2Proof.Machine
end

section
/-! The Hearth's record of the device: what an Ianik reset and the holds of the islands leave alone of it (R56, R57,
R491), and what the entry to Hearth-safe makes of it (R494). -/

namespace Sys2Proof.Machine

/-! ### The Hearth's record -/

/-- What the Hearth records of the device, with the occurrences of all events not yet delivered: its power state, the
cause of the last Ianik reset, whether Ianik is held, HRTH_FAULT and the fault log, and the counts at the sources. -/
def hearthPart (s : State) : Power × BitVec 4 × Bool × FaultRec × Vector Nat 64 × Sparse Nat :=
  (s.pow.st, s.pow.rstLast, s.pow.ianikRst, s.flt, s.evt.acc, s.evt.parts)

/-- From `s0` to `s` the Hearth's record stands, and every event of the Hearth has occurred as often; only an event of
several islands has shares of further sources (R50, R57). -/
structure HearthKept (s0 s : State) : Prop where
  st : s.pow.st = s0.pow.st
  cause : s.pow.rstLast = s0.pow.rstLast
  held : s.pow.ianikRst = s0.pow.ianikRst
  flt : s.flt = s0.flt
  acc : ∀ n : Fin 64, n.val ∈ hearthEvts → s.evt.acc[n] = s0.evt.acc[n]
  parts : PartsOk s.evt

variable {s0 s t : State}

theorem HearthKept.refl (h : PartsOk s.evt) : HearthKept s s := ⟨rfl, rfl, rfl, rfl, fun _ _ => rfl, h⟩

theorem HearthKept.congr (h : HearthKept s0 s) (ht : hearthPart t = hearthPart s) : HearthKept s0 t := by
  simp only [hearthPart, Prod.mk.injEq] at ht
  obtain ⟨hst, hcause, hheld, hflt, hacc, hparts⟩ := ht
  exact ⟨hst.trans h.st, hcause.trans h.cause, hheld.trans h.held, hflt.trans h.flt,
    fun n hn => (congrArg (·[n]) hacc).trans (h.acc n hn), fun p hp => h.parts p (hparts ▸ hp)⟩

theorem HearthKept.foldl {α : Type} {g : State → α → State} (hg : ∀ s a, HearthKept s0 s → HearthKept s0 (g s a))
    (l : List α) (h : HearthKept s0 s) : HearthKept s0 (l.foldl g s) := by
  induction l generalizing s with
  | nil => exact h
  | cons a l ih => exact ih (hg s a h)

/-! ### Events -/

theorem not_sharedEvt_of_mem_hearthEvts {n : Nat} (h : n ∈ hearthEvts) : sharedEvt n = false := by
  revert n
  decide

/-- An occurrence of one event leaves the counts of the others. -/
theorem acc_raise_of_ne {n : Nat} (d : Word) (s : State) {k : Fin 64} (h : n ≠ k.val) :
    (raise n d s).evt.acc[k] = s.evt.acc[k] := by
  simp only [raise_evt, raiseEvt, vmodN]
  split
  · exact Vector.getElem_set_ne _ _ h
  · rfl

/-- An occurrence of an event counts at its source (R50). -/
theorem acc_raise_same (n : Fin 64) (d : Word) (s : State) :
    (raise n.val d s).evt.acc[n] = stick 65535 s.evt.acc[n] := by
  simp [raiseEvt, vmodN]

/-- An event that is not the Hearth's leaves its record. -/
theorem raise_hearthKept {n : Nat} (hn : n ∉ hearthEvts) (d : Word) (h : HearthKept s0 s) :
    HearthKept s0 (raise n d s) :=
  { h with acc := fun k hk => (acc_raise_of_ne d s (fun hnk => hn (by rwa [hnk]))).trans (h.acc k hk) }

/-- An event raised on both sides keeps the record equal. -/
theorem HearthKept.raise_both (n : Fin 64) (d : Word) (h : HearthKept s0 s) :
    HearthKept (raise n.val d s0) (raise n.val d s) := by
  refine { h with acc := fun k hk => ?_ }
  by_cases hkn : n = k
  · subst hkn
    rw [acc_raise_same, acc_raise_same, h.acc n hk]
  · have hne : n.val ≠ k.val := fun hv => hkn (Fin.ext hv)
    rw [acc_raise_of_ne d s hne, acc_raise_of_ne d s0 hne, h.acc k hk]

/-- An event of several islands is none of the Hearth's. -/
theorem raiseFrom_hearthKept {src n : Nat} (hsrc : src < 32) (hn : sharedEvt n = true) (d : Word)
    (h : HearthKept s0 s) : HearthKept s0 (raiseFrom src n d s) := by
  have hraised : HearthKept s0 (raise n d s) :=
    raise_hearthKept (fun hmem => by simp [not_sharedEvt_of_mem_hearthEvts hmem] at hn) d h
  exact { hraised with parts := partsOk_sset _ hsrc hn h.parts _ _ }

/-- No source has a share of an event that is not shared. -/
theorem sget_parts_of_not_shared {e : Events} (h : PartsOk e) {src n : Nat} (hsrc : src < 32)
    (hn : sharedEvt n = false) : sget 0 e.parts (32 * n + src) = 0 := by
  unfold PartsOk at h
  generalize e.parts = l at h
  induction l with
  | nil => rfl
  | cons p r ih =>
    have hne : 32 * n + src ≠ p.1 := by
      intro hp
      have hshared := h p List.mem_cons_self
      rw [← hp, Nat.mul_add_div (by decide), Nat.div_eq_of_lt hsrc, Nat.add_zero, hn] at hshared
      cases hshared
    simp only [sget, hne, if_false]
    exact ih fun q hq => h q (List.mem_cons_of_mem _ hq)

/-- An island's reset discards no event of the Hearth (R57). -/
theorem dropEvts_hearthKept {src : Nat} {own : List Nat} (hsrc : src < 32) (hown : ∀ n ∈ own, n ∉ hearthEvts)
    (h : HearthKept s0 s) : HearthKept s0 (dropEvts src own s) := by
  refine ⟨by rw [dropEvts_pow, h.st], by rw [dropEvts_pow, h.cause], by rw [dropEvts_pow, h.held],
    by rw [dropEvts_flt, h.flt], fun n hn => ?_, fun p hp => h.parts p (List.mem_filter.1 hp).1⟩
  have hnot : n.val ∉ own := fun hmem => hown _ hmem hn
  have hpart := sget_parts_of_not_shared h.parts hsrc (not_sharedEvt_of_mem_hearthEvts hn)
  rw [← h.acc n hn]
  simp [dropEvts, vmap, leftOf, hnot, hpart, vgetD]

/-! ### Operations that leave the whole record -/

@[simp] theorem hearthPart_unstage (p : Stamped → Bool) (s : State) : hearthPart (unstage p s) = hearthPart s := rfl

@[simp] theorem hearthPart_modMbx (m : Fin 4) (f : Mbx → Mbx) (s : State) :
    hearthPart (modMbx m f s) = hearthPart s := rfl

@[simp] theorem hearthPart_modHw (x : Fin 2) (f : Chain → Chain) (s : State) :
    hearthPart (modHw x f s) = hearthPart s := rfl

@[simp] theorem hearthPart_modP0 (f : Flash → Flash) (s : State) : hearthPart (modP0 f s) = hearthPart s := rfl

@[simp] theorem hearthPart_modCare (f : MemCare → MemCare) (s : State) : hearthPart (modCare f s) = hearthPart s := rfl

@[simp] theorem hearthPart_shakesIdle (s : State) : hearthPart (shakesIdle s) = hearthPart s := rfl

@[simp] theorem hearthPart_slotsReset (s : State) : hearthPart (slotsReset s) = hearthPart s := rfl

@[simp] theorem hearthPart_hiveClear (s : State) : hearthPart (hiveClear s) = hearthPart s := rfl

@[simp] theorem hearthPart_bellowsClear (s : State) : hearthPart (bellowsClear s) = hearthPart s := rfl

@[simp] theorem hearthPart_ianikClear (s : State) : hearthPart (ianikClear s) = hearthPart s := rfl

@[simp] theorem hearthPart_emptyGroups (s : State) : hearthPart (emptyGroups s) = hearthPart s := rfl

@[simp] theorem hearthPart_chainCut (x : Fin 2) (s : State) : hearthPart (chainCut x s) = hearthPart s := rfl

@[simp] theorem hearthPart_complete (op m : Nat) (tag : BitVec 16) (status : Byte) (ws : List Word) (s : State) :
    hearthPart (complete op m tag status ws s) = hearthPart s := by
  unfold complete
  split <;> rfl

@[simp] theorem hearthPart_modSide (p : Fin 8) (d : Side) (f : PortSide → PortSide) (s : State) :
    hearthPart (modSide p d f s) = hearthPart s := by
  cases d <;> rfl

@[simp] theorem hearthPart_entryLost (q : QEntry) (s : State) : hearthPart (entryLost q s) = hearthPart s := by
  unfold entryLost memReadEnds
  split
  · rfl
  · split
    · exact hearthPart_complete ..
    · rfl

@[simp] theorem hearthPart_endMeasure (c : Fin 32) (status : Nat) (s : State) :
    hearthPart (endMeasure c status s) = hearthPart s := by
  unfold endMeasure
  split
  · rfl
  · dsimp only
    split
    · rfl
    · exact hearthPart_complete ..

@[simp] theorem hearthPart_alignAlone (p : Fin 8) (d : Side) (s : State) :
    hearthPart (alignAlone p d s) = hearthPart s := by
  unfold alignAlone alignSide
  dsimp only
  split <;> exact hearthPart_modSide ..

@[simp] theorem hearthPart_jobEnds (status : Nat) (s : State) : hearthPart (jobEnds status s) = hearthPart s := by
  unfold jobEnds
  split
  · exact hearthPart_complete ..
  · rfl

@[simp] theorem hearthPart_regionHold (s : State) : hearthPart (regionHold s) = hearthPart s := by
  unfold regionHold
  split <;> rfl

@[simp] theorem hearthPart_rateHeld (s : State) : hearthPart (rateHeld s) = hearthPart s := by
  unfold rateHeld
  dsimp only
  split
  · exact hearthPart_complete ..
  · rfl

@[simp] theorem hearthPart_flashPut (a : Nat) (bs : List Byte) (s : State) :
    hearthPart (flashPut a bs s) = hearthPart s := by
  induction bs generalizing a s with
  | nil => rfl
  | cons b bs ih =>
    refine (ih _ _).trans ?_
    split <;> rfl

@[simp] theorem hearthPart_writeCut (s : State) : hearthPart (writeCut s) = hearthPart s := by
  unfold writeCut
  split
  · dsimp only
    split
    · exact hearthPart_flashPut ..
    · rfl
  · rfl

@[simp] theorem hearthPart_psp0Reset (s : State) : hearthPart (psp0Reset s) = hearthPart s :=
  (hearthPart_modP0 ..).trans (hearthPart_writeCut s)

@[simp] theorem hearthPart_ramWrites (a : Nat) (ws : List Word) (s : State) :
    hearthPart (ramWrites a ws s) = hearthPart s := by
  induction ws generalizing a s with
  | nil => rfl
  | cons w ws ih => exact ih ..

/-! ### The Ianik reset -/

theorem ianikCuts_hearthKept (h : HearthKept s0 s) : HearthKept s0 (ianikCuts s) := by
  unfold ianikCuts
  refine .congr ?_ ((hearthPart_chainCut ..).trans ((hearthPart_chainCut ..).trans (hearthPart_psp0Reset _)))
  refine dropEvts_hearthKept (by decide) (by decide) (dropEvts_hearthKept (by decide) (by decide) ?_)
  have hidle : HearthKept s0 (shakesIdle s) := h.congr (hearthPart_shakesIdle s)
  generalize shakesIdle s = u at hidle
  have hlost := HearthKept.foldl (fun _ q h => h.congr (hearthPart_entryLost q _))
    (u.hive.transit ++ u.ianik.stalled) hidle
  exact hlost.congr rfl

/-- The Ianik reset holds Ianik with its cause, and nothing else of the Hearth's record changes (R491, R580). -/
theorem ianikReset_hearthKept (cause : BitVec 4) (h : PartsOk s.evt) (hr : s.pow.ianikRst = false) :
    HearthKept { s with pow := { s.pow with ianikRst := true, rstLast := cause } } (ianikReset cause s) := by
  unfold ianikReset
  rw [if_neg (by simp [hr])]
  refine .congr (ianikCuts_hearthKept ?_) (hearthPart_ianikClear _)
  exact .refl h

/-! ### The holds of the islands -/

theorem holdMbx_hearthKept (m : Fin 4) (h : HearthKept s0 s) : HearthKept s0 (holdMbx m s) := by
  unfold holdMbx
  split
  next =>
    split
    · dsimp only
      split
      · exact raise_hearthKept (by decide) _ (h.congr rfl)
      · exact h.congr rfl
    · exact h
  next => exact h

theorem hiveHold_hearthKept (h : HearthKept s0 s) : HearthKept s0 (hiveHold s) := by
  unfold hiveHold hiveEnds
  refine .congr ?_ ((hearthPart_hiveClear _).trans ((hearthPart_modCare ..).trans (hearthPart_modP0 ..)))
  refine dropEvts_hearthKept (by decide) (by decide) (.congr ?_ ((hearthPart_slotsReset _).trans
    ((hearthPart_unstage ..).trans ((hearthPart_rateHeld _).trans (hearthPart_regionHold _)))))
  refine .foldl (fun _ _ h => h.congr (hearthPart_jobEnds ..)) _ ?_
  refine .foldl (fun _ m h => holdMbx_hearthKept m h) _ ?_
  exact .foldl (fun _ q h => h.congr (hearthPart_entryLost q _)) _ (h.congr rfl)

theorem bellowsHold_hearthKept (h : HearthKept s0 s) : HearthKept s0 (bellowsHold s) := by
  have hmeas : HearthKept s0 (measuresEnd s) := .foldl (fun _ c h => h.congr (hearthPart_endMeasure c ..)) _ h
  exact (dropEvts_hearthKept (src := 2) (own := [40, 41]) (by decide) (by decide)
    (hmeas.congr (hearthPart_unstage ..))).congr (hearthPart_bellowsClear _)

theorem endWalk_hearthKept (x : Fin 2) (reason : Nat) (h : HearthKept s0 s) : HearthKept s0 (endWalk x reason s) := by
  have hevt : hwEvt x 35 ∉ hearthEvts := by revert x; decide
  unfold endWalk
  dsimp only
  split
  case isTrue => exact h
  case isFalse =>
    split
    · split
      · exact (raise_hearthKept hevt _ (h.congr rfl)).congr (hearthPart_complete ..)
      · exact h.congr (hearthPart_complete ..)
    · split
      · exact (raise_hearthKept hevt _ (h.congr rfl)).congr rfl
      · exact h.congr rfl

theorem xactEnds_hearthKept (x : Fin 2) (status : Nat) (q : Xact) (h : HearthKept s0 s) :
    HearthKept s0 (xactEnds x status q s) := by
  unfold xactEnds
  split
  · exact h.congr (hearthPart_complete ..)
  · exact h.congr (hearthPart_complete ..)
  · split
    · exact h.congr (hearthPart_complete ..)
    · exact h
  · dsimp only
    split <;> exact endWalk_hearthKept _ _ h
  · exact h

theorem xactsEnd_hearthKept (x : Fin 2) (h : HearthKept s0 s) : HearthKept s0 (xactsEnd x s) := by
  refine .foldl (fun _ _ h => h.congr (hearthPart_complete ..)) _ ?_
  refine .foldl (fun _ _ h => h.congr (hearthPart_complete ..)) _ ?_
  refine .foldl (fun _ q h => ?_) _ h
  split
  · exact h
  · exact xactEnds_hearthKept x _ q h

/-- The sequencer of a chain is held, with its line (R56). -/
theorem hearthPart_chainHeld (x : Fin 2) (s : State) :
    hearthPart (modHw x hwHold { s with pow := { s.pow with seqHw := s.pow.seqHw.set x false } }) = hearthPart s := rfl

theorem chainHold_hearthKept (x : Fin 2) (h : HearthKept s0 s) : HearthKept s0 (chainHold x s) := by
  have hown : ∀ y : Fin 2, ∀ n ∈ (List.range 4).map (32 + 4 * y.val + ·), n ∉ hearthEvts := by decide
  have hends := xactsEnd_hearthKept x (endWalk_hearthKept x 10 h)
  unfold chainHold
  exact (dropEvts_hearthKept (src := 24 + x.val) (by omega) (hown x) (hends.congr (hearthPart_unstage ..))).congr
    (hearthPart_chainHeld x _)

theorem portFlag_hearthKept (p : Fin 8) (d : Side) (b : Nat) (h : HearthKept s0 s) :
    HearthKept s0 (portFlag p d b s) := by
  have hside (f : PortSide → PortSide) : HearthKept s0 (modSide p d f s) := h.congr (hearthPart_modSide ..)
  have hsrc : sideSrc p d < 32 := by cases d <;> simp only [sideSrc] <;> omega
  have hevt : ∀ q : Fin 8, sharedEvt (24 + q.val) = true := by decide
  unfold portFlag
  dsimp only
  split
  · exact hside _
  · exact raiseFrom_hearthKept hsrc (hevt p) _ (hside _)

theorem rejoin_hearthKept (p : Fin 8) (d : Side) (h : HearthKept s0 s) : HearthKept s0 (rejoin p d s) := by
  have halone : HearthKept s0 (alignAlone p d s) := h.congr (hearthPart_alignAlone ..)
  unfold rejoin
  dsimp only
  split
  · split
    · split
      · exact h
      · exact (portFlag_hearthKept p d 3 h).congr (hearthPart_modSide ..)
    · exact halone
  · exact halone

/-- A side that starts again without a tail-out raises no event of the Hearth. -/
theorem restartSide_hearthKept (p : Fin 8) (d : Side) (n : Nat) (h : HearthKept s0 s) :
    HearthKept s0 (restartSide p d false n s) := by
  unfold restartSide
  simp only [Bool.false_eq_true, if_false]
  split
  · split
    · exact h.congr (by simp)
    · exact rejoin_hearthKept p d (h.congr (by simp))
  · exact h.congr (by simp)

theorem portsReset_hearthKept (n : Nat) (h : HearthKept s0 s) : HearthKept s0 (portsReset n s) := by
  unfold portsReset
  refine .congr (.foldl (fun s x h => ?_) allSides h) (hearthPart_emptyGroups _)
  have hsrc : sideSrc x.1 x.2 < 32 := by cases x.2 <;> simp only [sideSrc] <;> omega
  have hcut : HearthKept s0 (sideCut x.1 x.2 s) :=
    dropEvts_hearthKept hsrc (by simp) (h.congr (hearthPart_unstage ..))
  dsimp only
  split
  · exact restartSide_hearthKept _ _ _ (hcut.congr (hearthPart_modSide ..))
  · exact hcut.congr (hearthPart_modSide ..)

/-! ### The answers of the Hearth responder -/

theorem sharedEvt_mbx : ∀ m : Fin 4, sharedEvt m.val = true := by decide

theorem not_mem_hearthEvts_mbx : ∀ m : Fin 4, m.val ∉ hearthEvts := by decide

theorem post_hearthKept (m : Fin 4) (h : HearthKept s0 s) : HearthKept s0 (post m s) := by
  unfold post
  split
  next => exact h
  next p _ =>
    have hposted (f : Mbx → Mbx) : HearthKept s0 (modMbx m f (ramWrites (rspArea m) (rspWords p) s)) :=
      h.congr (by simp)
    dsimp only
    split
    · exact hposted _
    · split
      · exact raiseFrom_hearthKept (by decide) (sharedEvt_mbx m) _ (hposted _)
      · exact raise_hearthKept (not_mem_hearthEvts_mbx m) _ (hposted _)

theorem mbxFails_hearthKept (m : Fin 4) (st : Nat) (h : HearthKept s0 s) : HearthKept s0 (mbxFails m st s) := by
  unfold mbxFails answer
  dsimp only
  split
  · exact (raiseFrom_hearthKept (by decide) (by decide) _ h).congr (hearthPart_modMbx ..)
  · exact h.congr (hearthPart_modMbx ..)

theorem safeAnswer_hearthKept (m : Fin 4) (h : HearthKept s0 s) : HearthKept s0 (safeAnswer m s) := by
  unfold safeAnswer
  dsimp only
  split
  · exact h
  · split
    · exact post_hearthKept m (h.congr (hearthPart_modMbx ..))
    · exact post_hearthKept m (mbxFails_hearthKept m _ h)

/-! ### Hearth-safe -/

theorem HearthKept.safeRegs_both (h : HearthKept s0 s) : HearthKept (safeRegs s0) (safeRegs s) :=
  ⟨rfl, h.cause, rfl, congrArg (fun f : FaultRec => { f with safe := true }) h.flt, h.acc, h.parts⟩

/-- The entry to Hearth-safe changes of the Hearth's record what its registers and EV62 change (R494, R550). -/
theorem enterSafe_hearthKept (cause : Nat) (h : PartsOk s.evt) (hr : s.pow.ianikRst = false) :
    HearthKept (raise 62 (n2w cause 0) (safeRegs s)) (enterSafe cause s) := by
  have hheld := chainHold_hearthKept 1 (chainHold_hearthKept 0 (bellowsHold_hearthKept (hiveHold_hearthKept
    (ianikReset_hearthKept s.pow.rstLast h hr))))
  unfold enterSafe
  refine .foldl (fun _ m h => safeAnswer_hearthKept m h) _ ?_
  exact (portsReset_hearthKept _ hheld.safeRegs_both).raise_both 62 _

end Sys2Proof.Machine
end

section
/-! The watchdog (R491, R494): what an expiry records, and what it then does. -/

namespace Sys2Proof.Machine

/-- The state in which an expiry, number `n` of those within 10 s, is recorded with EV63 and its log entry (R491, R494,
R555, R557). -/
def watchdogRecorded (n : Nat) (s : State) : State :=
  raise 63 (n2w n 0) (logFault 0x03 (BitVec.ofNat 16 n) { s with
    flt := { s.flt with wdog := true }
    hearth := { s.hearth with wdWindow := n, wdTotal := stick 255 s.hearth.wdTotal, wdRestarted := false } })

/-- The state in which the fourth expiry within 10 s is recorded, with HRTH_F_WDOG4 and a log entry of its own (R494,
R555, R557). -/
def fourthRecorded (s : State) : State :=
  logFault 0x04 4 { watchdogRecorded 4 s with flt := { (watchdogRecorded 4 s).flt with wdog4 := true } }

/-- The fourth expiry within 10 s enters Hearth-safe. -/
theorem execWatchdogExpiry_fourth {earlier : Fin 4} {s : State} (hup : poweredUp s = true)
    (hr : s.pow.ianikRst = false) (hn : min earlier.val s.hearth.wdTotal = 3) :
    execWatchdogExpiry earlier s = .next (enterSafe 4 (fourthRecorded s)) := by
  unfold execWatchdogExpiry
  rw [if_neg (by simp [hup, hr]), hn]
  rfl

/-- An expiry before the fourth resets Ianik. -/
theorem execWatchdogExpiry_earlier {earlier : Fin 4} {s : State} (hup : poweredUp s = true)
    (hr : s.pow.ianikRst = false) (hn : min earlier.val s.hearth.wdTotal ≠ 3) :
    execWatchdogExpiry earlier s =
      .next (ianikReset 1 (watchdogRecorded (min earlier.val s.hearth.wdTotal + 1) s)) := by
  unfold execWatchdogExpiry
  rw [if_neg (by simp [hup, hr])]
  exact if_neg (by omega)

/-- An expiry that is recorded counts in EV63 (R50). -/
theorem watchdogRecorded_acc_63 (n : Nat) (s : State) :
    (watchdogRecorded n s).evt.acc[63] = stick 65535 s.evt.acc[63] := acc_raise_same 63 ..

/-- An expiry that is recorded leaves the count of EV62. -/
theorem watchdogRecorded_acc_62 (n : Nat) (s : State) :
    (watchdogRecorded n s).evt.acc[62] = s.evt.acc[62] := acc_raise_of_ne _ _ (k := 62) (by decide)

/-- Settles O13: of the Hearth's record, the entry to Hearth-safe changes what its registers and EV62 change, and the
Ianik reset of an earlier expiry only its cause; both keep what the expiry recorded. -/
theorem fourthWatchdogExpiryEntersHearthSafe : Obligations.FourthWatchdogExpiryEntersHearthSafe := by
  intro earlier s hparts hup hr
  by_cases hn : min earlier.val s.hearth.wdTotal = 3
  · refine ⟨_, execWatchdogExpiry_fourth hup hr hn, ?_⟩
    have hkept := enterSafe_hearthKept 4 (s := fourthRecorded s) hparts hr
    have hev62 : (enterSafe 4 (fourthRecorded s)).evt.acc[62] = stick 65535 s.evt.acc[62] :=
      calc (enterSafe 4 (fourthRecorded s)).evt.acc[62]
          = (raise 62 (n2w 4 0) (safeRegs (fourthRecorded s))).evt.acc[62] := hkept.acc 62 (by decide)
        _ = stick 65535 (watchdogRecorded 4 s).evt.acc[62] := acc_raise_same 62 ..
        _ = stick 65535 s.evt.acc[62] := by rw [watchdogRecorded_acc_62]
    rw [if_pos hn, hkept.flt]
    exact ⟨rfl, hkept.held, hkept.st, rfl, rfl, hkept.cause, hev62⟩
  · refine ⟨_, execWatchdogExpiry_earlier hup hr hn, ?_⟩
    have hkept := ianikReset_hearthKept 1 (s := watchdogRecorded (min earlier.val s.hearth.wdTotal + 1) s) hparts hr
    rw [if_neg hn, hkept.flt]
    exact ⟨rfl, hkept.held, hkept.st, hkept.cause, (hkept.acc 62 (by decide)).trans (watchdogRecorded_acc_62 ..),
      (hkept.acc 63 (by decide)).trans (watchdogRecorded_acc_63 ..)⟩

end Sys2Proof.Machine
end

section
/-! The boot-critical flag and the boot attempt count (R509, R513): what a wake, the slots source and STANDBY make of
them. The other work on flash and on the slots leaves the Hearth's power record alone. -/

namespace Sys2Proof.Machine

/-! ### The flash -/

@[simp] theorem flashPut_pow (a : Nat) (bs : List Byte) (s : State) : (flashPut a bs s).pow = s.pow := by
  induction bs generalizing a s with
  | nil => rfl
  | cons b bs ih =>
    rw [flashPut, ih]
    split <;> rfl

@[simp] theorem progState_pow (b : Bool) (k : Nat) (s : State) : (progState b k s).pow = s.pow :=
  flashPut_pow ..

@[simp] theorem retireSlot_pow (b : Bool) (s : State) : (retireSlot b s).pow = s.pow :=
  flashPut_pow ..

/-! ### The slots source -/

@[simp] theorem bootNote_pow (reason blk : Nat) (s : State) : (bootNote reason blk s).pow = s.pow := rfl

@[simp] theorem sourceOver_pow (s : State) : (sourceOver s).pow = s.pow := rfl

@[simp] theorem bootFresh_pow (s : State) : (bootFresh s).pow = s.pow := rfl

@[simp] theorem nextSlot_pow (s : State) : (nextSlot s).pow = s.pow := by
  unfold nextSlot
  split
  next b _ _ =>
    dsimp only
    rw [modBoot_pow, bootFresh_pow]
    split
    · exact progState_pow b 3 s
    · rfl
  next => rfl

@[simp] theorem dirProfile_pow (s : State) : (dirProfile s).pow = s.pow := by
  unfold dirProfile
  split <;> rfl

@[simp] theorem slotTrials_pow (s : State) : (slotTrials s).pow = s.pow :=
  List.foldlRecOn (motive := fun t : State => t.pow = s.pow) _ _ rfl fun _ ht b _ => (retireSlot_pow b _).trans ht

@[simp] theorem trySlots_pow (s : State) : (trySlots s).pow = s.pow := by
  unfold trySlots
  extract_lets cs order
  split
  · rfl
  · exact nextSlot_pow _

/-- The slots source counts its start, and changes nothing else of the Hearth's power record (R513). -/
theorem startSlots_pow (s : State) :
    (startSlots s).pow = { s.pow with attempts := min 3 (s.pow.attempts + 1) } := by
  unfold startSlots
  dsimp only
  split
  · rfl
  · rw [trySlots_pow, slotTrials_pow, dirProfile_pow, modBoot_pow]

/-- With the slots source next in the order, BOOT_SOURCE_START starts it (R510, R513). -/
theorem execBootSourceStart_slots {ks : List Nat} {s : State} (hst : s.pow.st = .powerUp)
    (hrst : s.pow.ianikRst = false) (hsrc : s.boot.src = .none) (hstep : 5 ≤ s.boot.step)
    (horder : s.boot.order = 0 :: ks) :
    execBootSourceStart s = .next (startSlots (modBoot (fun b => { b with order := ks }) s)) := by
  unfold execBootSourceStart
  rw [if_neg (by simp [hst, hrst, hsrc, hstep]), horder]
  rfl

/-! ### STANDBY -/

@[simp] theorem housekeeping_pow (s : State) : (housekeeping s).pow = s.pow := by
  unfold housekeeping
  split
  · exact retireSlot_pow _ s
  · rfl

@[simp] theorem autoStamp_pow (e : Nat) (s : State) : (autoStamp e s).pow = s.pow := by
  unfold autoStamp
  dsimp only
  split
  · rfl
  · split
    · rfl
    · simp only [apply_ite State.pow, stageOwn_pow, ite_self]
      split <;> rfl

/-- The Hearth's power record as the firmware first reports STANDBY (R26, R509, R513). -/
def standbyPower (p : PowerSt) : PowerSt := { p with st := .standby, bootCrit := false, attempts := 0, sawStandby := true }

/-- STANDBY is reached once the boot chain is complete and the Stove runs (R26, R179, R509, R513). -/
theorem execStandbyReached_pow {s : State} (hst : s.pow.st = .powerUp) (hdone : s.boot.done = true)
    (hbooted : s.boot.booted = true) (hrates : ratesSet s = true)
    (hstove : s.stove.lock = true ∨ s.stove.inEmber = true) (hrst : s.pow.ianikRst = false) :
    ∃ t, execStandbyReached s = .next t ∧ t.pow = standbyPower s.pow := by
  refine ⟨_, if_pos ⟨hst, hdone, hbooted, hrates, hstove, hrst⟩, ?_⟩
  rw [autoStamp_pow, housekeeping_pow]
  rfl

/-! ### The wake -/

theorem wakeOpen_of_hearth {s : State} (hst : s.pow.st = .hearth) (hrstN : s.pow.rstN = true)
    (hrails : ∀ i : Fin 6, s.pow.rails[i] = true) (hscan : s.scan.inForce = false) : wakeOpen s = true := by
  have hall : s.pow.rails.toList.all id = true := by
    rw [List.all_eq_true]
    intro b hb
    obtain ⟨i, hi, rfl⟩ := Vector.mem_iff_getElem.mp (Vector.mem_toList_iff.mp hb)
    exact hrails ⟨i, hi⟩
  simp [wakeOpen, hst, hrstN, hall, hscan]

/-- A wake sets the boot-critical flag (R509). -/
theorem wakeNow_pow (s : State) :
    (wakeNow s).pow = { s.pow with st := .powerUp, wakes := s.pow.wakes + 1, bootCrit := true, wakeHeld := false } := by
  unfold wakeNow
  dsimp only
  split <;> rfl

/-- A wake that reads an attempt count of 3 leaves the slots source out of its order (R513). -/
theorem zero_notMem_wakeNow_order {s : State} (h : s.pow.attempts = 3) : 0 ∉ (wakeNow s).boot.order := by
  unfold wakeNow
  dsimp only
  split
  case isTrue => simp [bootNote, modBoot]
  case isFalse hskip => simpa [modBoot, h] using hskip

/-- WAKE_REQUEST notes the balls; the request stands where the device is on its way to HEARTH (R28, R34, R511). -/
def wakeNoted (w : WakeBalls) (s : State) : State :=
  { s with pow := { s.pow with
    wakePin := w.stays, bootSel := w.sel, wakeHeld := s.pow.wakeHeld || s.pow.st == .standbyToHearth } }

/-- Where nothing but WAKE keeps the device in HEARTH, WAKE_REQUEST starts power-up (R26). -/
theorem execWakeRequest_hearth (w : WakeBalls) {s : State} (hst : s.pow.st = .hearth) (hrstN : s.pow.rstN = true)
    (hrails : ∀ i : Fin 6, s.pow.rails[i] = true) (hscan : s.scan.inForce = false) :
    execWakeRequest w s = .next (wakeNow (wakeNoted w s)) :=
  congrArg _ (if_pos (wakeOpen_of_hearth (s := wakeNoted w s) hst hrstN hrails hscan))

/-- Settles O17: a wake and the report of STANDBY write the Hearth's power record once, the slots source counts its start
there, and what follows these leaves the record; the loss of VDD_HEARTH gives the count its reset value. -/
theorem bootCriticalFlagAndAttemptCount : Obligations.BootCriticalFlagAndAttemptCount := by
  refine ⟨fun sel stays s hst hrstN hrails hscan => ?_, fun s hst hdone hbooted hrates hstove hrst => ?_,
    fun ks s hst hrst hsrc hstep horder => ?_, fun s => ⟨_, rfl, rfl⟩⟩
  case refine_1 =>
    refine ⟨_, execWakeRequest_hearth ⟨sel, stays⟩ hst hrstN hrails hscan, ?_, fun hthree => ?_⟩
    · rw [wakeNow_pow]
    · exact zero_notMem_wakeNow_order hthree
  case refine_2 =>
    obtain ⟨t, hnext, hpow⟩ := execStandbyReached_pow hst hdone hbooted hrates hstove hrst
    refine ⟨t, hnext, ?_⟩
    rw [hpow]
    exact ⟨rfl, rfl, rfl⟩
  case refine_3 =>
    refine ⟨_, execBootSourceStart_slots hst hrst hsrc hstep horder, ?_⟩
    rw [startSlots_pow]
    exact ⟨rfl, rfl⟩

end Sys2Proof.Machine
end

section
/-! The event counters (R50, R545, R551): what a delivery hands to its counter, when a counter saturates, and what the
records of the ring leave of the event block. -/

namespace Sys2Proof.Machine

/-! ### Entries of a vector by a number of its range -/

@[simp] theorem vgetD_val {α : Type} {n : Nat} (v : Vector α n) (i : Fin n) (d : α) : vgetD v i.val d = v[i] :=
  dif_pos i.isLt

@[simp] theorem vmodN_val {α : Type} {n : Nat} (v : Vector α n) (i : Fin n) (f : α → α) :
    vmodN v i.val f = v.set i (f v[i]) := dif_pos i.isLt

/-! ### The ring -/

/-- What the records of the ring leave alone: the counters, the pending and SAT bits and the mask, the power state, the
Hive, and the counts at the sources but for EV4, which a completion record raises (R475). -/
structure CountsKept (s0 s : State) : Prop where
  counts : s.evt.counts = s0.evt.counts
  sat : s.evt.sat = s0.evt.sat
  pend : s.evt.pend = s0.evt.pend
  mask : s.evt.mask = s0.evt.mask
  acc : ∀ k : Fin 64, k ≠ 4 → s.evt.acc[k] = s0.evt.acc[k]
  pow : s.pow = s0.pow
  hive : s.hive = s0.hive

theorem CountsKept.refl (s : State) : CountsKept s s := ⟨rfl, rfl, rfl, rfl, fun _ _ => rfl, rfl, rfl⟩

theorem CountsKept.trans {s t u : State} (h : CountsKept s t) (h' : CountsKept t u) : CountsKept s u :=
  ⟨h'.counts.trans h.counts, h'.sat.trans h.sat, h'.pend.trans h.pend, h'.mask.trans h.mask,
    fun k hk => (h'.acc k hk).trans (h.acc k hk), h'.pow.trans h.pow, h'.hive.trans h.hive⟩

theorem ramWrite_countsKept (a : Nat) (w : Word) (s : State) : CountsKept s (ramWrite a w s) :=
  ⟨rfl, rfl, rfl, rfl, fun _ _ => rfl, rfl, rfl⟩

theorem ramWrites_countsKept (a : Nat) (ws : List Word) (s : State) : CountsKept s (ramWrites a ws s) := by
  induction ws generalizing a s with
  | nil => exact .refl s
  | cons w ws ih => exact (ramWrite_countsKept a w s).trans (ih (a + 4) _)

/-- The head, the sequence number, the dropped count and the records that wait are no part of what is kept. -/
theorem CountsKept.ring {s0 s : State} (h : CountsKept s0 s) (hd seq dr : Nat) (cs : List Completion) :
    CountsKept s0 { s with evt := { s.evt with head := hd, ringSeq := seq, dropped := dr, waiting := cs } } :=
  ⟨h.counts, h.sat, h.pend, h.mask, h.acc, h.pow, h.hive⟩

/-- The commands outstanding are no part of what is kept. -/
theorem CountsKept.ianik {s0 s : State} (h : CountsKept s0 s) (i : Ianik) : CountsKept s0 { s with ianik := i } :=
  ⟨h.counts, h.sat, h.pend, h.mask, h.acc, h.pow, h.hive⟩

theorem ringPut_countsKept (kind : Nat) (ws : List Word) (s : State) : CountsKept s (ringPut kind ws s) := by
  unfold ringPut
  extract_lets n h padded start written next counted
  have hpadded : CountsKept s padded := by
    unfold padded
    split
    · exact .refl s
    · exact ramWrite_countsKept ..
  exact ((hpadded.trans (ramWrites_countsKept ..)).trans (ramWrite_countsKept ..)).ring ..

theorem ringDrop_countsKept (s : State) : CountsKept s (ringDrop s) :=
  (ramWrite_countsKept ..).ring ..

theorem raise_ev4_countsKept (d : Word) (s : State) : CountsKept s (raise 4 d s) :=
  ⟨rfl, rfl, rfl, rfl, fun _ hk => acc_raise_of_ne d s fun hv => hk (Fin.ext hv.symm), rfl, rfl⟩

theorem completionWrite_countsKept (s : State) : CountsKept s (completionWrite s) := by
  unfold completionWrite
  split
  next => exact .refl s
  next c cs _ =>
    extract_lets ws
    split
    next put _ ended _ =>
      have hput : CountsKept s put := ((CountsKept.refl s).ring ..).trans (ringPut_countsKept ..)
      exact (hput.ianik _).trans (raise_ev4_countsKept _ ended)
    next => exact .refl s

theorem completionsWrite_countsKept (n : Nat) (s : State) : CountsKept s (completionsWrite n s) := by
  induction n generalizing s with
  | zero => exact .refl s
  | succ n ih => exact (completionWrite_countsKept s).trans (ih _)

/-- The record of a delivery, written, dropped or not wanted, changes no counter (R478, R545). -/
theorem eventRecord_countsKept (n occ : Nat) (d : Word) (s : State) : CountsKept s (eventRecord n occ d s) := by
  unfold eventRecord
  split
  · exact .refl s
  split
  · have hwaiting := completionsWrite_countsKept s.evt.waiting.length s
    dsimp only
    split
    · exact hwaiting.trans (ringPut_countsKept ..)
    · exact hwaiting.trans (ringDrop_countsKept _)
  split
  · exact ringDrop_countsKept s
  · exact .refl s

/-! ### A counter -/

/-- An addition that does not pass 0xFFFF_FFFF is counted in full (R551). -/
theorem countEvent_of_lt {n : Fin 64} {occ : Nat} {s : State} (h : s.evt.counts[n] + occ < 2 ^ 32) :
    countEvent n occ s = { s with evt := { s.evt with counts := s.evt.counts.set n (s.evt.counts[n] + occ) } } := by
  simp only [countEvent, vgetD_val, vmodN_val, if_pos h]

/-- The state in which counter `n` has stuck at 0xFFFF_FFFF and its SAT bit is set (R551). -/
def counterStuck (n : Fin 64) (s : State) : State :=
  { s with evt := { s.evt with
      counts := s.evt.counts.set n (2 ^ 32 - 1), sat := s.evt.sat ||| BitVec.ofNat 64 (2 ^ n.val) } }

/-- An addition that would pass 0xFFFF_FFFF leaves the counter there; EV56 is raised where the SAT bit was clear, and
never for EVT_COUNT56 (R551). -/
theorem countEvent_of_ge {n : Fin 64} {occ : Nat} {s : State} (h : 2 ^ 32 ≤ s.evt.counts[n] + occ) :
    countEvent n occ s = raiseIf (!s.evt.sat.getLsbD n && n.val != 56) 56 (n2w n 0) (counterStuck n s) := by
  simp only [countEvent, counterStuck, vgetD_val, vmodN_val, if_neg (Nat.not_lt.mpr h)]

/-- A conditional event leaves the counts of the other events at their sources. -/
theorem acc_raiseIf_of_ne {c : Bool} {n : Nat} (d : Word) (s : State) {k : Fin 64} (h : n ≠ k.val) :
    (raiseIf c n d s).evt.acc[k] = s.evt.acc[k] := by
  unfold raiseIf
  split
  · exact acc_raise_of_ne d s h
  · rfl

/-- A conditional event counts at its source where its condition holds. -/
theorem acc_raiseIf_same (c : Bool) (n : Fin 64) (d : Word) (s : State) :
    (raiseIf c n.val d s).evt.acc[n] = if c then stick 65535 s.evt.acc[n] else s.evt.acc[n] := by
  unfold raiseIf
  split
  · exact acc_raise_same n d s
  · rfl

/-- Of the state, an event changes the counts at the sources and the detail words only. -/
theorem raiseIf_frame (c : Bool) (n : Nat) (d : Word) (s : State) :
    raiseIf c n d s = { s with evt := { s.evt with
      acc := (raiseIf c n d s).evt.acc, detail := (raiseIf c n d s).evt.detail } } := by
  unfold raiseIf
  split <;> rfl

/-- What counting `occ` occurrences of event `n` makes of the state `s0`: the counter grows and sticks, the SAT bit
and EV56 follow R551, and nothing else of the event block that a delivery shows changes. -/
structure Counted (n : Fin 64) (occ : Nat) (s0 s : State) : Prop where
  counts : s.evt.counts = s0.evt.counts.set n (min (2 ^ 32 - 1) (s0.evt.counts[n] + occ))
  sat : s.evt.sat = if s0.evt.counts[n] + occ < 2 ^ 32 then s0.evt.sat
    else s0.evt.sat ||| BitVec.ofNat 64 (2 ^ n.val)
  acc : ∀ k : Fin 64, k ≠ 56 → s.evt.acc[k] = s0.evt.acc[k]
  ev56 : s.evt.acc[56] = if 2 ^ 32 ≤ s0.evt.counts[n] + occ ∧ s0.evt.sat.getLsbD n = false ∧ n ≠ 56
    then stick 65535 s0.evt.acc[56] else s0.evt.acc[56]
  pend : s.evt.pend = s0.evt.pend
  mask : s.evt.mask = s0.evt.mask
  pow : s.pow = s0.pow
  hive : s.hive = s0.hive

/-- A counter grows by the occurrences of a delivery and sticks at its top (R551). -/
theorem countEvent_counted (n : Fin 64) (occ : Nat) (s : State) : Counted n occ s (countEvent n occ s) := by
  obtain hlt | hge := Nat.lt_or_ge (s.evt.counts[n] + occ) (2 ^ 32)
  · rw [countEvent_of_lt hlt]
    refine ⟨?_, (if_pos hlt).symm, fun _ _ => rfl, (if_neg fun h => Nat.not_le.mpr hlt h.1).symm, rfl, rfl, rfl, rfl⟩
    rw [Nat.min_eq_right (Nat.le_sub_one_of_lt hlt)]
  · rw [countEvent_of_ge hge]
    have hev56 := acc_raiseIf_same (!s.evt.sat.getLsbD n && n.val != 56) 56 (n2w n 0) (counterStuck n s)
    refine ⟨?_, ?_, fun k hk => acc_raiseIf_of_ne _ (counterStuck n s) fun hv => hk (Fin.ext hv.symm),
      hev56.trans (ite_congr ?_ (fun _ => rfl) fun _ => rfl), ?_, ?_, ?_, ?_⟩
    case refine_3 =>
      simp only [Bool.and_eq_true, Bool.not_eq_true', bne_iff_ne, ne_eq, hge, true_and, Fin.ext_iff]
      rfl
    all_goals rw [raiseIf_frame]
    case refine_1 => rw [Nat.min_eq_left (Nat.sub_le_of_le_add (Nat.le_succ_of_le hge))]; rfl
    case refine_2 => rw [if_neg (Nat.not_lt.mpr hge)]; rfl
    all_goals rfl

/-! ### Delivery -/

/-- The state in which the occurrences of event `n` have left their source: its accumulator, its shares and its detail
word are empty, and its bit of EVT_PEND is set (R50, R545). -/
def handedOver (n : Fin 64) (s : State) : State :=
  { s with evt := { s.evt with
      acc := vmod s.evt.acc n (fun _ => 0)
      parts := s.evt.parts.filter (fun p => p.1 / 32 ≠ n.val)
      detail := vmod s.evt.detail n (fun _ => 0)
      pend := s.evt.pend ||| BitVec.ofNat 64 (2 ^ n.val) } }

/-- A delivery hands over what waits at the source, counts it and then records it (R50, R545). -/
theorem execEventDelivery_of_waiting {n : Fin 64} {s : State} (hacc : s.evt.acc[n] ≠ 0) (hon : s.pow.st ≠ .off) :
    execEventDelivery n s = .next (eventRecord n s.evt.acc[n] s.evt.detail[n]
      (countEvent n s.evt.acc[n] (handedOver n s))) :=
  if_neg (not_or.mpr ⟨hacc, hon⟩)

/-- The accumulator of the delivered event is empty (R50). -/
@[simp] theorem acc_handedOver_same (n : Fin 64) (s : State) : (handedOver n s).evt.acc[n] = 0 :=
  Vector.getElem_set_self n.isLt

/-- A delivery leaves the accumulators of the other events. -/
theorem acc_handedOver_of_ne {n k : Fin 64} (s : State) (h : n ≠ k) : (handedOver n s).evt.acc[k] = s.evt.acc[k] :=
  Vector.getElem_set_ne n.isLt k.isLt fun hv => h (Fin.ext hv)

/-! ### EVT_COUNT_CLEAR -/

/-- EVT_COUNT_CLEAR clears every counter that its mask names, and the SAT bit of it (R502). -/
theorem evtCountClear_clears (m : Fin 4) (r : Req) (s : State) {k : Fin 64} (h : (arg64 r 3).testBit k = true) :
    (evtCountClearDef.act m r s).1.evt.sat.getLsbD k = false ∧ (evtCountClearDef.act m r s).1.evt.counts[k] = 0 := by
  have hbit : (BitVec.ofNat 64 (arg64 r 3)).getLsbD k = true := by
    rw [BitVec.getLsbD_ofNat, h, decide_eq_true k.isLt, Bool.and_self]
  constructor
  · simp only [evtCountClearDef, BitVec.getLsbD_and, BitVec.getLsbD_not, hbit, Bool.not_true, Bool.and_false]
  · simp only [evtCountClearDef, vmap, Fin.getElem_fin, Vector.getElem_ofFn, hbit, if_true]

/-- Settles O16: a delivery hands over the occurrences, the counter takes them and saturates at most once, and the
record that follows changes no counter; EVT_COUNT_CLEAR clears both the counter and its SAT bit. -/
theorem countersSaturateOnce : Obligations.CountersSaturateOnce := by
  refine ⟨fun n s hacc hon _ => ⟨_, execEventDelivery_of_waiting hacc hon, ?_⟩,
    fun m r s haccept => ⟨_, exec_mailbox rfl s, fun k hk => ?_⟩⟩
  case refine_1 =>
    have hcounted := countEvent_counted n s.evt.acc[n] (handedOver n s)
    have hkept := eventRecord_countsKept n s.evt.acc[n] s.evt.detail[n] (countEvent n s.evt.acc[n] (handedOver n s))
    have hev56 := (hkept.acc 56 (by decide)).trans hcounted.ev56
    refine ⟨hkept.counts.trans hcounted.counts, hkept.pend.trans hcounted.pend, hkept.sat.trans hcounted.sat,
      fun hn => ?_, fun hn => ?_, fun hn hn4 => ?_, hkept.mask.trans hcounted.mask, hkept.pow.trans hcounted.pow,
      hkept.hive.trans hcounted.hive⟩
    · refine hev56.trans (ite_congr ?_ (fun _ => ?_) fun _ => ?_)
      · rw [eq_true hn, and_true]
        rfl
      · exact congrArg _ (acc_handedOver_of_ne s hn)
      · exact acc_handedOver_of_ne s hn
    · subst hn
      exact (hev56.trans (if_neg fun h => h.2.2 rfl)).trans (acc_handedOver_same 56 s)
    · rw [hkept.acc n hn4, hcounted.acc n hn, acc_handedOver_same]
  case refine_2 =>
    rw [mbxCommand_accepted haccept]
    exact evtCountClear_clears m r _ hk

end Sys2Proof.Machine
end

section
/-! A write of WIN_PAGE and the page of a transfer (R445, R578), with what a write unit does that PSP1 takes (R440) and
where a unit of the page window goes (R397). -/

namespace Sys2Proof.Machine

/-! ### Units of a transfer -/

/-- A write unit that PSP1 takes inside the transfer's area writes by the page of its transfer (R440, R446). -/
theorem hostUnit_taken {a : Nat} {s : State} (v : Word) (htaken : unitTaken a s = true) (hin : pastEnd s = false) :
    hostUnit a v s = unitDone (hostWrite (pageNow s) a v s) :=
  unitPut_taken _ htaken hin

/-- Closing a unit keeps the page of the transfer (R578). -/
@[simp] theorem unitDone_xfer_page (s : State) : (unitDone s).host.xfer.map (·.page) = s.host.xfer.map (·.page) := by
  simp [unitDone, Function.comp_def, Transfer.next]

/-! ### The page -/

/-- A write at WIN_PAGE sets the page and nothing else, in Hearth-safe too (R572, R578, R581). -/
theorem hostWrite_winPage (page : Bool) (v : Word) (s : State) :
    hostWrite page 0x70 v s = modHost (fun h => { h with winPage := v.getLsbD 0 }) s := by
  have hmapped : regUnmapped 0x70 s = false := Bool.and_false _
  change (if regUnmapped 0x70 s then pspFlag 5 s else regWrite 0x70 v s) = _
  rw [hmapped]
  rfl

/-- A command unit that PSP1 does not ignore opens a transfer with the page of that moment (R445, R578). -/
theorem execPsp1CommandUnit_takes_page {cmd : Byte} (a : BitVec 16) {s : State} (hreach : mbxReach s = true)
    (hgood : cmd.getLsbD 6 = false) :
    ∃ t x, execPsp1CommandUnit cmd a s = .next t ∧ t.host.xfer = some x ∧ x.page = s.host.winPage := by
  simp only [execPsp1CommandUnit, hreach, hgood, Bool.not_true, Bool.false_eq_true, if_false]
  split <;> exact ⟨_, _, rfl, rfl, rfl⟩

/-! ### The page window -/

/-- A word of the page window lies in area 4 (R570). -/
theorem areaOf_window {a : Nat} (h : 0x8000 ≤ a) : areaOf a = 4 := by
  unfold areaOf
  rw [if_neg (by omega), if_neg (by omega), if_neg (by omega), if_neg (by omega)]

/-- A write unit of the page window stores its word in RAM by the page of its transfer, past power-up and outside the
reserved word 0xF00C (R397, R464, R507). -/
theorem hostWrite_window {page : Bool} {a : Nat} (v : Word) {s : State} (hwin : 0x8000 ≤ a) (hst : s.pow.st ≠ .powerUp)
    (hfree : winAddr page (a / 4 * 4) ≠ 0xF00C) :
    hostWrite page a v s = ramWrite (winAddr page (a / 4 * 4)) v s := by
  have haligned : winAddr page (a / 4 * 4) / 4 * 4 = winAddr page (a / 4 * 4) := by
    unfold winAddr
    split <;> omega
  have hkept : ¬ ((s.pow.st = .powerUp ∧ s.boot.step < 6) ∨ winAddr page (a / 4 * 4) / 4 * 4 = 0xF00C) := by
    rw [haligned]
    exact not_or.mpr ⟨fun h => hst h.1, hfree⟩
  simp only [hostWrite, areaOf_window (show 0x8000 ≤ a / 4 * 4 by omega), hostRam, if_neg hkept]

/-- MAILBOX_RAM_WRITE without a collision is the write unit at its address (R397). -/
theorem execMailboxRamWrite_none {a : BitVec 16} (v : Word) (s : State) (hwin : 0x8000 ≤ a.toNat) :
    execMailboxRamWrite a v none s = .next (hostUnit (a.toNat / 4 * 4) v s) := by
  have haddr : 0x8000 + a.toNat / 4 * 4 % 0x8000 = a.toNat / 4 * 4 := by
    have hlt := a.isLt
    omega
  simp only [execMailboxRamWrite, haddr]

/-- PSP1 takes a unit by the word it lies in (R440). -/
theorem unitTaken_word (a : Nat) (s : State) : unitTaken (a / 4 * 4) s = unitTaken a s := by
  simp only [unitTaken, Nat.mul_div_cancel _ (show 0 < 4 by decide)]

/-- A write unit of a transfer in the page window stores its word by the page of that transfer, whatever WIN_PAGE is
(R397, R578). -/
theorem mailboxRamWrite_of_transfer {x : Transfer} {a : BitVec 16} (v : Word) {s : State} (hst : s.pow.st ≠ .powerUp)
    (hxfer : s.host.xfer = some x) (htaken : unitTaken a.toNat s = true) (hin : pastEnd s = false)
    (hwin : 0x8000 ≤ a.toNat) (hfree : winAddr x.page (a.toNat / 4 * 4) ≠ 0xF00C) :
    execMailboxRamWrite a v none s = .next (unitDone (ramWrite (winAddr x.page (a.toNat / 4 * 4)) v s)) := by
  have hpage : pageNow s = x.page := by simp only [pageNow, hxfer]
  have hword : a.toNat / 4 * 4 / 4 * 4 = a.toNat / 4 * 4 := by omega
  have hput := hostWrite_window v (show 0x8000 ≤ a.toNat / 4 * 4 by omega) hst (hword.symm ▸ hfree)
  rw [execMailboxRamWrite_none v s hwin, hostUnit_taken v ((unitTaken_word _ s).trans htaken) hin, hpage, hput, hword]

/-- Settles O19: the write sets the page at once and keeps the open transfer, a command unit copies the page into its
transfer, and a write unit reaches RAM by the copy. -/
theorem windowPageAppliesToLaterTransfers : Obligations.WindowPageAppliesToLaterTransfers := by
  refine ⟨fun v s htaken hin => ⟨_, congrArg Host.Outcome.next (hostUnit_taken v htaken hin), ?_, ?_⟩,
    fun cmd a s hreach hgood => execPsp1CommandUnit_takes_page a hreach hgood,
    fun x a v s hst hxfer htaken hin hwin hfree =>
      ⟨_, x.next, mailboxRamWrite_of_transfer v hst hxfer htaken hin hwin hfree, ?_, rfl, rfl⟩⟩
  · rw [hostWrite_winPage]
    rfl
  · rw [hostWrite_winPage, unitDone_xfer_page]
    rfl
  · exact congrArg (Option.map Transfer.next) hxfer

end Sys2Proof.Machine
end

section
/-! Addresses of the window that hold no register, and registers that do not run (R445, R572, R574): what a write unit
does there, and what a read transfer of one unit returns (R440). -/

namespace Sys2Proof.Machine

/-! ### A read transfer of one unit -/

/-- A read transfer of one unit at host address `a`, as its address unit opens it (R440, R445). -/
def oneRead (a : Nat) (page : Bool) : Transfer :=
  { read := true, count := 1, addr := a / 4 * 4, area := areaOf (a / 4 * 4), page := page }

/-- PSP1 has opened a read transfer of one unit at host address `a` (R440). -/
def readOpened (a : Nat) (s : State) : State :=
  modHost (fun h => { h with xfer := some (oneRead a h.winPage), statusUnit := 0, out := [] }) s

/-- A read transfer has returned its one unit `w` and is over (R441, R443). -/
def readEnded (w : Word) (s : State) : State :=
  modHost (fun h => { h with xfer := none, statusUnit := 0x3C, out := h.out ++ [w] }) s

/-- The command 0x80 opens a read transfer of one unit; the MEAS latch is taken at the MEAS registers only, outside
Hearth-safe (R440, R575). -/
theorem execPsp1CommandUnit_read {a : BitVec 16} {s : State} (hreach : mbxReach s = true)
    (hmeas : s.pow.st = .hearthSafe ∨ ¬ (0x200 ≤ a.toNat / 4 * 4 ∧ a.toNat / 4 * 4 < 0x300)) :
    execPsp1CommandUnit 0x80 a s = .next (readOpened a.toNat s) := by
  have hlatch : ((0x80 : Byte).getLsbD 7 && !(0x80 : Byte).getLsbD 6 && decide (0x200 ≤ a.toNat / 4 * 4) &&
      decide (a.toNat / 4 * 4 < 0x300) && s.pow.st != .hearthSafe) = false := by
    obtain hsafe | hout := hmeas
    · simp [hsafe]
    · have hside : ¬ 0x200 ≤ a.toNat / 4 * 4 ∨ ¬ a.toNat / 4 * 4 < 0x300 := by omega
      obtain hlow | hhigh := hside
      · simp only [decide_eq_false hlow, Bool.and_false, Bool.false_and]
      · simp only [decide_eq_false hhigh, Bool.and_false, Bool.false_and]
  simp only [execPsp1CommandUnit, hreach, hlatch]
  rfl

/-- An address lies before the end of its area (R446, R570). -/
theorem lt_areaEnd_areaOf {a : Nat} (h : a < 0x10000) : a < areaEnd (areaOf a) := by
  unfold areaOf
  repeat' split
  all_goals assumption

/-- An open read transfer takes its next unit inside its area (R440, R443, R446). -/
theorem unitNext_read {x : Transfer} {w : Word} {s t : State} (hxfer : s.host.xfer = some x) (hdir : x.read = true)
    (halive : x.dead = false) (hleft : x.count ≠ 0) (hin : x.addr < areaEnd x.area)
    (hread : unitRead x.meas x.page x.addr s = (w, t)) :
    unitNext s = unitDone (modHost (fun h => { h with statusUnit := 0x3C, out := h.out ++ [w] }) t) := by
  simp [unitNext, hxfer, hdir, halive, hleft, Nat.not_le.mpr hin, hread]

/-- Where the read transfer of one unit ends complete, the unit has been read (R443). -/
theorem execPsp1SelRise_read {a : Nat} {w : Word} {s t : State} (hreach : mbxReach s = true) (ha : a < 0x10000)
    (hread : unitRead false s.host.winPage (a / 4 * 4) (readOpened a s) = (w, t)) :
    execPsp1SelRise .complete (readOpened a s) = .next (readEnded w t) := by
  have hreach' : mbxReach (readOpened a s) = true := hreach
  have hin : a / 4 * 4 < areaEnd (areaOf (a / 4 * 4)) := lt_areaEnd_areaOf (by omega)
  calc execPsp1SelRise .complete (readOpened a s)
      = .next (xferClosed (unitNext (readOpened a s))) := by
        simp only [execPsp1SelRise, hreach']
        rfl
    _ = .next (readEnded w t) := by
        rw [unitNext_read (x := oneRead a s.host.winPage) rfl rfl rfl Nat.one_ne_zero hin hread]
        rfl

/-- A read transfer of one unit at host address `a` returns what the unit reads (R440, R443). -/
theorem exec_read {a : BitVec 16} {w : Word} {s t : State} (hreach : mbxReach s = true)
    (hmeas : s.pow.st = .hearthSafe ∨ ¬ (0x200 ≤ a.toNat / 4 * 4 ∧ a.toNat / 4 * 4 < 0x300))
    (hread : unitRead false s.host.winPage (a.toNat / 4 * 4) (readOpened a.toNat s) = (w, t)) :
    ∃ u, exec (.psp1CommandUnit 0x80 a) s = .next u ∧ exec (.psp1SelRise .complete) u = .next (readEnded w t) :=
  ⟨_, execPsp1CommandUnit_read hreach hmeas, execPsp1SelRise_read hreach a.isLt hread⟩

/-! ### Registers that answer nothing -/

/-- The register at `o` ignores every write and reads 0 (R572, R574). -/
structure Silent (o : Nat) (s : State) : Prop where
  rwPut_eq : ∀ v, rwPut o v s = s
  w1cPut_eq : ∀ v, w1cPut o v s = s
  woPut_eq : ∀ v, woPut o v s = s
  regVal_eq : regVal o s = 0
  regRead_eq : regRead o s = (0, s)

/-- A reserved offset of the register area (R571). -/
def ReservedAt (o : Nat) : Prop :=
  (0x18 ≤ o ∧ o < 0x20) ∨ o = 0x58 ∨ o = 0x5C ∨ (0x68 ≤ o ∧ o < 0x70) ∨ (0x74 ≤ o ∧ o < 0x80) ∨
    (0x84 ≤ o ∧ o < 0x100) ∨ (0x314 ≤ o ∧ o < 0x340) ∨ (0x344 ≤ o ∧ o < 0x380) ∨ (0x390 ≤ o ∧ o < 0x3A0) ∨ 0x3A4 ≤ o

theorem regVal_reserved {o : Nat} (h : ReservedAt o) (s : State) : regVal o s = 0 := by
  unfold ReservedAt at h
  unfold regVal
  repeat refine (if_neg (by omega)).trans ?_
  rfl

/-- A reserved offset holds no register (R572). -/
theorem ReservedAt.silent {o : Nat} (h : ReservedAt o) (s : State) : Silent o s where
  rwPut_eq v := by
    unfold ReservedAt at h
    unfold rwPut
    repeat rw [if_neg (by omega)]
  w1cPut_eq v := by
    unfold ReservedAt at h
    unfold w1cPut
    repeat rw [if_neg (by omega)]
  woPut_eq v := by
    unfold ReservedAt at h
    unfold woPut
    repeat rw [if_neg (by omega)]
  regVal_eq := regVal_reserved h s
  regRead_eq := by
    have hval := regVal_reserved h s
    unfold ReservedAt at h
    simp only [regRead, if_neg (show ¬ o = 0x0060 by omega), if_neg (show ¬ o = 0x0380 by omega),
      if_neg (show ¬ o = 0x000C by omega), hval]

/-- The STKR_SW registers of a Stove that does not run keep nothing, latch nothing and read 0 (R574). -/
theorem silent_of_stove_stopped {o : Nat} {s : State} (ho : o ∈ [0x380, 0x384, 0x388, 0x38C])
    (hstop : s.stove.running = false) : Silent o s := by
  have hoff : stoveOn s = false := hstop
  simp only [List.mem_cons, List.not_mem_nil, or_false] at ho
  obtain rfl | rfl | rfl | rfl := ho <;> exact {
    rwPut_eq := fun v => by simp [rwPut, hoff]
    w1cPut_eq := fun v => rfl
    woPut_eq := fun v => by simp [woPut, swCommit, hoff]
    regVal_eq := by simp [regVal, hoff]
    regRead_eq := by simp [regRead, latchPhase, regVal, hoff] }

/-! ### Units at such registers -/

/-- The three parts of the register area: the registers and their two aliases (R570). -/
theorem areaOf_registers {a : Nat} (h : a < 0x3000) : areaOf a = a / 0x1000 := by
  unfold areaOf
  repeat' split
  all_goals omega

/-- A word of the register area is the register at its offset, or lies in one of its two aliases (R395, R570). -/
theorem register_word {a : Nat} (h : a < 0x3000) :
    (areaOf (a / 4 * 4) = 0 ∧ a / 4 * 4 = a % 0x1000 / 4 * 4) ∨
      ((areaOf (a / 4 * 4) = 1 ∨ areaOf (a / 4 * 4) = 2) ∧ a / 4 * 4 % 0x1000 = a % 0x1000 / 4 * 4) := by
  rw [areaOf_registers (by omega)]
  omega

/-- Outside Hearth-safe every address of the register area is mapped (R445, R572). -/
theorem regUnmapped_of_not_safe (a : Nat) {s : State} (h : s.pow.st ≠ .hearthSafe) : regUnmapped a s = false := by
  simp [regUnmapped, h]

/-- A write unit at such a register or at one of its aliases changes nothing (R395, R572, R574). -/
theorem hostWrite_silent {a : Nat} (page : Bool) (v : Word) {s : State} (ha : a < 0x3000) (hst : s.pow.st ≠ .hearthSafe)
    (h : Silent (a % 0x1000 / 4 * 4) s) : hostWrite page a v s = s := by
  have hmapped := regUnmapped_of_not_safe (a / 4 * 4) hst
  obtain ⟨harea, hoff⟩ | ⟨harea | harea, hoff⟩ := register_word ha <;>
    simp only [hostWrite, harea, hmapped, Bool.false_eq_true, if_false]
  · rw [hoff, regWrite, h.rwPut_eq, h.w1cPut_eq, h.woPut_eq]
  · rw [hoff, setWrite, h.rwPut_eq, ite_self]
  · rw [hoff, clearWrite, h.rwPut_eq, h.w1cPut_eq, ite_self]

/-- A read unit at such a register or at one of its aliases reads 0 and latches nothing (R395, R572, R574). -/
theorem unitRead_silent {a : Nat} (page : Bool) {s : State} (ha : a < 0x3000) (hst : s.pow.st ≠ .hearthSafe)
    (h : Silent (a % 0x1000 / 4 * 4) s) : unitRead false page a s = (0, s) := by
  have hmapped := regUnmapped_of_not_safe (a / 4 * 4) hst
  obtain ⟨harea, hoff⟩ | ⟨harea | harea, hoff⟩ := register_word ha <;>
    simp only [unitRead, harea, hmapped, Bool.false_and, Bool.false_eq_true, if_false]
  · rw [hoff, h.regRead_eq]
  · rw [hoff, h.regVal_eq]
  · rw [hoff, h.regVal_eq]

/-- A register write that PSP1 takes there only closes its unit of the transfer (R440). -/
theorem registerWrite_silent {a : BitVec 16} (v : Word) {s : State} (ha : a.toNat < 0x3000)
    (hst : s.pow.st ≠ .hearthSafe) (h : Silent (a.toNat % 0x1000 / 4 * 4) s) (htaken : unitTaken a.toNat s = true)
    (hin : pastEnd s = false) : exec (.registerWrite a v) s = .next (unitDone s) := by
  refine congrArg Host.Outcome.next ?_
  rw [hostUnit_taken v htaken hin, hostWrite_silent _ v ha hst h]

/-- A read transfer of one unit there returns 0, and nothing but the transfer changes (R440, R572, R574). -/
theorem read_silent {a : BitVec 16} {s : State} (hreach : mbxReach s = true) (ha : a.toNat < 0x3000)
    (hst : s.pow.st ≠ .hearthSafe) (hmeas : ¬ (0x200 ≤ a.toNat / 4 * 4 ∧ a.toNat / 4 * 4 < 0x300))
    (h : ∀ t : State, t.stove = s.stove → Silent (a.toNat % 0x1000 / 4 * 4) t) :
    ∃ u, exec (.psp1CommandUnit 0x80 a) s = .next u ∧
      exec (.psp1SelRise .complete) u = .next (readEnded 0 (readOpened a.toNat s)) := by
  have hword : a.toNat / 4 * 4 % 0x1000 / 4 * 4 = a.toNat % 0x1000 / 4 * 4 := by omega
  exact exec_read hreach (.inr hmeas) (unitRead_silent _ (by omega) hst (hword.symm ▸ h _ rfl))

/-! ### Unmapped addresses -/

/-- An address of the window that is unmapped now (R445, R572). -/
def UnmappedAt (a : Nat) (s : State) : Prop :=
  (0x3000 ≤ a ∧ a < 0x8000) ∨ (s.pow.st = .hearthSafe ∧ a < 0x3000 ∧ 0x100 ≤ a % 0x1000)

/-- An address past the register area and before the page window lies in area 3 (R570). -/
theorem areaOf_unmapped {a : Nat} (hlo : 0x3000 ≤ a) (hhi : a < 0x8000) : areaOf a = 3 := by
  unfold areaOf
  rw [if_neg (by omega), if_neg (by omega), if_neg (by omega), if_pos hhi]

/-- The word of an unmapped address lies in the unmapped area, or in the part of the register area that Hearth-safe does
not serve (R445, R570). -/
theorem UnmappedAt.cases {a : Nat} {s : State} (h : UnmappedAt a s) :
    areaOf (a / 4 * 4) = 3 ∨
      ((areaOf (a / 4 * 4) = 0 ∨ areaOf (a / 4 * 4) = 1 ∨ areaOf (a / 4 * 4) = 2) ∧
        regUnmapped (a / 4 * 4) s = true) := by
  obtain ⟨hlo, hhi⟩ | ⟨hsafe, hlt, hpage⟩ := h
  · exact .inl (areaOf_unmapped (by omega) (by omega))
  · right
    rw [areaOf_registers (by omega)]
    have hhigh : 0x100 ≤ a / 4 * 4 % 0x1000 := by omega
    exact ⟨by omega, by simp [regUnmapped, hsafe, hhigh]⟩

/-- A write unit at an unmapped address is a protocol error (R445). -/
theorem hostWrite_unmapped {a : Nat} (page : Bool) (v : Word) {s : State} (h : UnmappedAt a s) :
    hostWrite page a v s = pspFlag 5 s := by
  obtain harea | ⟨harea | harea | harea, hun⟩ := h.cases <;> simp only [hostWrite, harea]
  all_goals rw [if_pos hun]

/-- A read unit at an unmapped address is a protocol error and reads 0 (R445). -/
theorem unitRead_unmapped {a : Nat} (latched page : Bool) {s : State} (h : UnmappedAt a s) :
    unitRead latched page a s = (0, pspFlag 5 s) := by
  obtain harea | ⟨harea | harea | harea, hun⟩ := h.cases <;> simp only [unitRead, harea]
  all_goals rw [if_pos hun]

/-- The protocol error of an unmapped address sets PSP_UNMAPPED (R447). -/
theorem pspFlag_unmapped_flags (s : State) : (pspFlag 5 s).host.flags.getLsbD 5 = true := by
  change (s.host.flags ||| BitVec.ofNat 8 (2 ^ 5)).getLsbD 5 = true
  rw [BitVec.getLsbD_or]
  exact Bool.or_true _

/-- The protocol error of an unmapped address raises EV51 (R446). -/
theorem pspFlag_unmapped_acc (s : State) : (pspFlag 5 s).evt.acc[51] = stick 65535 s.evt.acc[51] :=
  acc_raise_same 51 _ _

/-- A register write that PSP1 takes at an unmapped address sets PSP_UNMAPPED and raises EV51 (R445). -/
theorem registerWrite_unmapped {a : BitVec 16} (v : Word) {s : State} (h : UnmappedAt a.toNat s)
    (htaken : unitTaken a.toNat s = true) (hin : pastEnd s = false) :
    exec (.registerWrite a v) s = .next (unitDone (pspFlag 5 s)) := by
  refine congrArg Host.Outcome.next ?_
  rw [hostUnit_taken v htaken hin, hostWrite_unmapped _ v h]

/-- A read transfer of one unit at an unmapped address returns 0, sets PSP_UNMAPPED and raises EV51 (R445). -/
theorem read_unmapped {a : BitVec 16} {s : State} (hreach : mbxReach s = true) (h : UnmappedAt a.toNat s) :
    ∃ u, exec (.psp1CommandUnit 0x80 a) s = .next u ∧
      exec (.psp1SelRise .complete) u = .next (readEnded 0 (pspFlag 5 (readOpened a.toNat s))) := by
  refine exec_read hreach ?_ (unitRead_unmapped _ _ ?_)
  · exact h.elim (fun h => .inr (by omega)) fun h => .inl h.1
  · exact h.elim (fun h => .inl (by omega)) fun h => .inr ⟨h.1, by omega⟩

/-! ### STKR_SW_SEQ_READ -/

/-- Where no transfer is open, a read of a silent register is a transfer of one unit that returns 0 (R440, R574). -/
theorem hostRead_silent {o : Nat} {s : State} (hreach : mbxReach s = true) (hnone : s.host.xfer = none)
    (ho : o < 0x3000) (hst : s.pow.st ≠ .hearthSafe) (h : Silent (o % 0x1000 / 4 * 4) s) :
    hostRead o s = modHost (fun h => { h with statusUnit := 0x3C, out := [0] }) s := by
  simp only [hostRead, hreach, hnone, unitRead_silent _ ho hst h, Bool.not_true, Bool.false_eq_true, if_false]

/-- Settles O18: reserved offsets and the registers of a stopped Stove are silent, so units there change and return
nothing; the units of an unmapped address are protocol errors. -/
theorem reservedUnmappedAndStoppedAddresses : Obligations.ReservedUnmappedAndStoppedAddresses := by
  refine ⟨fun a v s hreach hst ha hres => ?_, fun a v s hreach hun => ?_, fun v s hreach hst hstop => ?_⟩
  case refine_1 =>
    have hat : ReservedAt (a.toNat % 0x1000 / 4 * 4) := hres
    have hmeas : ¬ (0x200 ≤ a.toNat / 4 * 4 ∧ a.toNat / 4 * 4 < 0x300) := by
      unfold ReservedAt at hat
      omega
    obtain ⟨u, hopen, hend⟩ := read_silent hreach ha hst hmeas fun t _ => hat.silent t
    exact ⟨registerWrite_silent v ha hst (hat.silent s), u, _, hopen, hend, rfl, rfl, rfl⟩
  case refine_2 =>
    have hat : UnmappedAt a.toNat s := hun
    obtain ⟨u, hopen, hend⟩ := read_unmapped hreach hat
    exact ⟨fun htaken hin => ⟨_, registerWrite_unmapped v hat htaken hin, pspFlag_unmapped_flags s,
      pspFlag_unmapped_acc s⟩, u, _, hopen, hend, rfl, pspFlag_unmapped_flags _, pspFlag_unmapped_acc _⟩
  case refine_3 =>
    refine ⟨fun a ha => ?_, registerWrite_silent (a := 0x38C) v (by decide) hst
      (silent_of_stove_stopped (by decide) hstop), fun hnone => ?_⟩
    · have hat : a.toNat < 0x3000 ∧ ¬ (0x200 ≤ a.toNat / 4 * 4 ∧ a.toNat / 4 * 4 < 0x300) ∧
          a.toNat % 0x1000 / 4 * 4 ∈ [0x380, 0x384, 0x388, 0x38C] := by
        simp only [List.mem_cons, List.not_mem_nil, or_false] at ha
        obtain rfl | rfl | rfl := ha <;> decide
      obtain ⟨hlt, hmeas, hreg⟩ := hat
      have hsilent (t : State) (ht : t.stove = s.stove) :=
        silent_of_stove_stopped hreg (ht ▸ hstop : t.stove.running = false)
      obtain ⟨u, hopen, hend⟩ := read_silent hreach hlt hst hmeas hsilent
      exact ⟨registerWrite_silent v hlt hst (hsilent s rfl), u, _, hopen, hend, rfl, rfl, rfl⟩
    · exact ⟨_, congrArg Host.Outcome.next (hostRead_silent hreach hnone (by decide) hst
        (silent_of_stove_stopped (by decide) hstop)), rfl, rfl, rfl⟩

end Sys2Proof.Machine
end

section
/-! The step: every command answers a next state that keeps what every command keeps (`Keeps`), and what follows of the
queue, of well-formed states and of the fuses. -/

namespace Sys2Proof.Machine

/-- Every command answers a next state, and keeps what every command keeps. -/
theorem exec_goes {s0 : State} (i : Instr) (s : State) (h : Keeps s0 s) : Goes s0 (exec i s) :=
  match i with
  | .sysInfo m r => execSysInfo_goes m r s h
  | .sysHello m r => execSysHello_goes m r s h
  | .sysPower m r => execSysPower_goes m r s h
  | .sysLoopback m r => execSysLoopback_goes m r s h
  | .sysPresence m r => execSysPresence_goes m r s h
  | .sysReset m r => execSysReset_goes m r s h
  | .sysWatchdog m r => execSysWatchdog_goes m r s h
  | .cellInfo m r => execCellInfo_goes m r s h
  | .cellRoleSet m r => execCellRoleSet_goes m r s h
  | .cellProgWrite m r => execCellProgWrite_goes m r s h
  | .cellProgMeta m r => execCellProgMeta_goes m r s h
  | .cellCoefWrite m r => execCellCoefWrite_goes m r s h
  | .cellBankSwap m r => execCellBankSwap_goes m r s h
  | .cellGlideSet m r => execCellGlideSet_goes m r s h
  | .cellGroupCommit m r => execCellGroupCommit_goes m r s h
  | .cellStatus m r => execCellStatus_goes m r s h
  | .cellFaultClear m r => execCellFaultClear_goes m r s h
  | .cellFaultPolicy m r => execCellFaultPolicy_goes m r s h
  | .cellMemRead m r => execCellMemRead_goes m r s h
  | .cellImageLoad m r => execCellImageLoad_goes m r s h
  | .combInfo m r => execCombInfo_goes m r s h
  | .combMapSet m r => execCombMapSet_goes m r s h
  | .combMapGet m r => execCombMapGet_goes m r s h
  | .combStage m r => execCombStage_goes m r s h
  | .combStageBulk m r => execCombStageBulk_goes m r s h
  | .combCommit m r => execCombCommit_goes m r s h
  | .combStageDiscard m r => execCombStageDiscard_goes m r s h
  | .combGainRead m r => execCombGainRead_goes m r s h
  | .combStatus m r => execCombStatus_goes m r s h
  | .chimneyStatus m r => execChimneyStatus_goes m r s h
  | .domainInfo m r => execDomainInfo_goes m r s h
  | .domainSet m r => execDomainSet_goes m r s h
  | .bridgeModeSet m r => execBridgeModeSet_goes m r s h
  | .bridgeStatus m r => execBridgeStatus_goes m r s h
  | .testgenSet m r => execTestgenSet_goes m r s h
  | .belInfo m r => execBelInfo_goes m r s h
  | .belConfig m r => execBelConfig_goes m r s h
  | .belLoopSet m r => execBelLoopSet_goes m r s h
  | .belEnable m r => execBelEnable_goes m r s h
  | .belMute m r => execBelMute_goes m r s h
  | .belCarrierSet m r => execBelCarrierSet_goes m r s h
  | .belStatus m r => execBelStatus_goes m r s h
  | .belFaultClear m r => execBelFaultClear_goes m r s h
  | .belFaultPolicy m r => execBelFaultPolicy_goes m r s h
  | .belMeasureZ m r => execBelMeasureZ_goes m r s h
  | .stoveInfo m r => execStoveInfo_goes m r s h
  | .stkrRefConfig m r => execStkrRefConfig_goes m r s h
  | .stkrModeSet m r => execStkrModeSet_goes m r s h
  | .stkrSelect m r => execStkrSelect_goes m r s h
  | .stkrStatus m r => execStkrStatus_goes m r s h
  | .stkrRefStatus m r => execStkrRefStatus_goes m r s h
  | .stoveOutSet m r => execStoveOutSet_goes m r s h
  | .stkrSwConfig m r => execStkrSwConfig_goes m r s h
  | .stkrEmberRead m r => execStkrEmberRead_goes m r s h
  | .portInfo m r => execPortInfo_goes m r s h
  | .portConfig m r => execPortConfig_goes m r s h
  | .portEnable m r => execPortEnable_goes m r s h
  | .portGroupSet m r => execPortGroupSet_goes m r s h
  | .portStatus m r => execPortStatus_goes m r s h
  | .portClear m r => execPortClear_goes m r s h
  | .hwInfo m r => execHwInfo_goes m r s h
  | .hwChainConfig m r => execHwChainConfig_goes m r s h
  | .hwWalk m r => execHwWalk_goes m r s h
  | .hwNodeInfo m r => execHwNodeInfo_goes m r s h
  | .hwSlotMap m r => execHwSlotMap_goes m r s h
  | .hwNodeXact m r => execHwNodeXact_goes m r s h
  | .hwStatus m r => execHwStatus_goes m r s h
  | .hwClear m r => execHwClear_goes m r s h
  | .hwPartnerSet m r => execHwPartnerSet_goes m r s h
  | .dmprInfo m r => execDmprInfo_goes m r s h
  | .dmprSupplyConfig m r => execDmprSupplyConfig_goes m r s h
  | .dmprCrankCurve m r => execDmprCrankCurve_goes m r s h
  | .dmprOutConfig m r => execDmprOutConfig_goes m r s h
  | .dmprLineConfig m r => execDmprLineConfig_goes m r s h
  | .dmprStatus m r => execDmprStatus_goes m r s h
  | .dmprClear m r => execDmprClear_goes m r s h
  | .dmprEnergyRead m r => execDmprEnergyRead_goes m r s h
  | .memInfo m r => execMemInfo_goes m r s h
  | .memPowerSet m r => execMemPowerSet_goes m r s h
  | .memEccStatus m r => execMemEccStatus_goes m r s h
  | .memErrRead m r => execMemErrRead_goes m r s h
  | .memPatrolSet m r => execMemPatrolSet_goes m r s h
  | .memPatrolStatus m r => execMemPatrolStatus_goes m r s h
  | .vaultWipe m r => execVaultWipe_goes m r s h
  | .vaultStatus m r => execVaultStatus_goes m r s h
  | .memClear m r => execMemClear_goes m r s h
  | .pspInfo m r => execPspInfo_goes m r s h
  | .pspDevConfig m r => execPspDevConfig_goes m r s h
  | .pspXfer m r => execPspXfer_goes m r s h
  | .fgrRingConfig m r => execFgrRingConfig_goes m r s h
  | .fgrDescPush m r => execFgrDescPush_goes m r s h
  | .fgrRingEnable m r => execFgrRingEnable_goes m r s h
  | .fgrStatus m r => execFgrStatus_goes m r s h
  | .fgrClear m r => execFgrClear_goes m r s h
  | .pspStatus m r => execPspStatus_goes m r s h
  | .bootInfo m r => execBootInfo_goes m r s h
  | .imgUpdateBegin m r => execImgUpdateBegin_goes m r s h
  | .imgUpdateWrite m r => execImgUpdateWrite_goes m r s h
  | .imgUpdateEnd m r => execImgUpdateEnd_goes m r s h
  | .imgConfirm m r => execImgConfirm_goes m r s h
  | .tuneLoad m r => execTuneLoad_goes m r s h
  | .imgMeasExtend m r => execImgMeasExtend_goes m r s h
  | .lcAdvance m r => execLcAdvance_goes m r s h
  | .keyRevoke m r => execKeyRevoke_goes m r s h
  | .bootRecoveryBegin m r => execBootRecoveryBegin_goes m r s h
  | .bootPush m r => execBootPush_goes m r s h
  | .svcFaultRead m r => execSvcFaultRead_goes m r s h
  | .svcFaultClear m r => execSvcFaultClear_goes m r s h
  | .svcSpkTest m r => execSvcSpkTest_goes m r s h
  | .svcDcOffset m r => execSvcDcOffset_goes m r s h
  | .svcMicLoop m r => execSvcMicLoop_goes m r s h
  | .svcLineHealth m r => execSvcLineHealth_goes m r s h
  | .svcCaptureRead m r => execSvcCaptureRead_goes m r s h
  | .svcAbort m r => execSvcAbort_goes m r s h
  | .evtInfo m r => execEvtInfo_goes m r s h
  | .evtCountRead m r => execEvtCountRead_goes m r s h
  | .evtCountClear m r => execEvtCountClear_goes m r s h
  | .evtRingConfig m r => execEvtRingConfig_goes m r s h
  | .evtTraceMark m r => execEvtTraceMark_goes m r s h
  | .mbxDoorbell n seq => execMbxDoorbell_goes n seq s h
  | .hrthRstIanik v => execHrthRstIanik_goes v s h
  | .pspCntClr => execPspCntClr_goes s h
  | .winPageWrite v => execWinPageWrite_goes v s h
  | .stkrSwSeqRead => execStkrSwSeqRead_goes s h
  | .stkrSwCommit v => execStkrSwCommit_goes v s h
  | .frameCountLoRead => execFrameCountLoRead_goes s h
  | .measLatchRead => execMeasLatchRead_goes s h
  | .bitSetAliasWrite addr v => execBitSetAliasWrite_goes addr v s h
  | .bitClearAliasWrite addr v => execBitClearAliasWrite_goes addr v s h
  | .registerWrite addr v => execRegisterWrite_goes addr v s h
  | .mailboxRamWrite addr v coll => execMailboxRamWrite_goes addr v coll s h
  | .psp1CommandUnit cmd addr => execPsp1CommandUnit_goes cmd addr s h
  | .psp1SelRise k => execPsp1SelRise_goes k s h
  | .pspBuzzed => execPspBuzzed_goes s h
  | .pspBusyDrop addr v => execPspBusyDrop_goes addr v s h
  | .vddHearthRise cfgOk keeperLow => execVddHearthRise_goes cfgOk keeperLow s h
  | .vddHearthFall => execVddHearthFall_goes s h
  | .wakeRequest w => execWakeRequest_goes w s h
  | .rstNLow => execRstNLow_goes s h
  | .rstNRise => execRstNRise_goes s h
  | .vddCoreLoss => execVddCoreLoss_goes s h
  | .vddioAFail => execVddioAFail_goes s h
  | .railFail r => execRailFail_goes r s h
  | .railGood r => execRailGood_goes r s h
  | .voltageGlitch => execVoltageGlitch_goes s h
  | .clockGlitch => execClockGlitch_goes s h
  | .tamperNLow => execTamperNLow_goes s h
  | .vaultWipeComplete clean => execVaultWipeComplete_goes clean s h
  | .keeperRelease => execKeeperRelease_goes s h
  | .keeperHold => execKeeperHold_goes s h
  | .presenceWindowEnd => execPresenceWindowEnd_goes s h
  | .thermalConversion tj => execThermalConversion_goes tj s h
  | .trstNLow => execTrstNLow_goes s h
  | .extest drive => execExtest_goes drive s h
  | .idcode => execIdcode_goes s h
  | .samplePreload sampled preload => execSamplePreload_goes sampled preload s h
  | .clamp => execClamp_goes s h
  | .highz => execHighz_goes s h
  | .bypass code => execBypass_goes code s h
  | .powerUpStep res => execPowerUpStep_goes res s h
  | .powerUpBudgetExpiry => execPowerUpBudgetExpiry_goes s h
  | .bootSourceStart => execBootSourceStart_goes s h
  | .manifestVerified media => execManifestVerified_goes media s h
  | .blockVerified media => execBlockVerified_goes media s h
  | .pushWaitTimeout => execPushWaitTimeout_goes s h
  | .standbyReached => execStandbyReached_goes s h
  | .mFrameTick ups => execMFrameTick_goes ups s h
  | .fFrameTick ups => execFFrameTick_goes ups s h
  | .doorbellStrobe => execDoorbellStrobe_goes s h
  | .runToStandbyComplete => execRunToStandbyComplete_goes s h
  | .hearthEntryReset => execHearthEntryReset_goes s h
  | .cellWindow d n ups => execCellWindow_goes d n ups s h
  | .storeTurn c ups => execStoreTurn_goes c ups s h
  | .chimneyPhase d => execChimneyPhase_goes d s h
  | .outletPhase d ups => execOutletPhase_goes d ups s h
  | .cellQueueEntryArrival => execCellQueueEntryArrival_goes s h
  | .sealedClearDone c => execSealedClearDone_goes c s h
  | .cellFaultFadeEnd c => execCellFaultFadeEnd_goes c s h
  | .rampEnd d col => execRampEnd_goes d col s h
  | .rateChangeLockTimeout => execRateChangeLockTimeout_goes s h
  | .stoveComparison x => execStoveComparison_goes x s h
  | .measurementGateEnd offs dco => execMeasurementGateEnd_goes offs dco s h
  | .waitToRestoreExpiry ref => execWaitToRestoreExpiry_goes ref s h
  | .qualifyEnd freq phase => execQualifyEnd_goes freq phase s h
  | .moveEnd => execMoveEnd_goes s h
  | .settleTimeout => execSettleTimeout_goes s h
  | .relockAcquire => execRelockAcquire_goes s h
  | .relockAttemptTimeout => execRelockAttemptTimeout_goes s h
  | .swRefWatchdog => execSwRefWatchdog_goes s h
  | .crystalStopped => execCrystalStopped_goes s h
  | .stoveTickMissing => execStoveTickMissing_goes s h
  | .bellowsUpdate fb => execBellowsUpdate_goes fb s h
  | .drvWakeEnd g => execDrvWakeEnd_goes g s h
  | .unmuteStart c => execUnmuteStart_goes c s h
  | .muteRampEnd c => execMuteRampEnd_goes c s h
  | .disableStop c => execDisableStop_goes c s h
  | .killEnter c => execKillEnter_goes c s h
  | .killReleaseRestart c => execKillReleaseRestart_goes c s h
  | .driverFault g => execDriverFault_goes g s h
  | .driverFaultRetry g => execDriverFaultRetry_goes g s h
  | .feedbackLoss c volt => execFeedbackLoss_goes c volt s h
  | .mismatchWindowEnd => execMismatchWindowEnd_goes s h
  | .bellowsMuteRequest => execBellowsMuteRequest_goes s h
  | .bellowsMuteAck => execBellowsMuteAck_goes s h
  | .measureZComplete => execMeasureZComplete_goes s h
  | .damperAdcSample slot code => execDamperAdcSample_goes slot code s h
  | .energyBlockEnd bits => execEnergyBlockEnd_goes bits s h
  | .coolDownEnd c => execCoolDownEnd_goes c s h
  | .energyTriesReset c => execEnergyTriesReset_goes c s h
  | .lineRetry x => execLineRetry_goes x s h
  | .lineTriesReset x => execLineTriesReset_goes x s h
  | .storedEnergyCheck x => execStoredEnergyCheck_goes x s h
  | .linePermitLapse x => execLinePermitLapse_goes x s h
  | .portFrameComplete f => execPortFrameComplete_goes f s h
  | .frameSyncGlitch p side => execFrameSyncGlitch_goes p side s h
  | .holdStageCheck p edgeSeen => execHoldStageCheck_goes p edgeSeen s h
  | .transmitPinFrameOpen p => execTransmitPinFrameOpen_goes p s h
  | .lossOfClock p side => execLossOfClock_goes p side s h
  | .portMeasureDone p side period pos => execPortMeasureDone_goes p side period pos s h
  | .groupAlignTimeout g => execGroupAlignTimeout_goes g s h
  | .lineFrameReceived x f => execLineFrameReceived_goes x f s h
  | .controlReplyReceived x => execControlReplyReceived_goes x s h
  | .controlRequestRetry x => execControlRequestRetry_goes x s h
  | .discoverRepeat x => execDiscoverRepeat_goes x s h
  | .discoverTimeout x => execDiscoverTimeout_goes x s h
  | .walkVsnsLow x => execWalkVsnsLow_goes x s h
  | .walkVgoodReached x => execWalkVgoodReached_goes x s h
  | .walkVgoodTimeout x => execWalkVgoodTimeout_goes x s h
  | .nodeLoss x node => execNodeLoss_goes x node s h
  | .slotTailOutEnd x => execSlotTailOutEnd_goes x s h
  | .autoWalkRetry x => execAutoWalkRetry_goes x s h
  | .psp0TransactionEnd data => execPsp0TransactionEnd_goes data s h
  | .psp0RdyTimeout => execPsp0RdyTimeout_goes s h
  | .statusPoll status => execStatusPoll_goes status s h
  | .fetchMiss addr => execFetchMiss_goes addr s h
  | .lineFillComplete media => execLineFillComplete_goes media s h
  | .descriptorStart ring => execDescriptorStart_goes ring s h
  | .descriptorComplete ring => execDescriptorComplete_goes ring s h
  | .deadlineMiss ring => execDeadlineMiss_goes ring s h
  | .patrolScrubRead w ups => execPatrolScrubRead_goes w ups s h
  | .regionIntervalExpiry => execRegionIntervalExpiry_goes s h
  | .regionTestStart => execRegionTestStart_goes s h
  | .patrolMarkerAck => execPatrolMarkerAck_goes s h
  | .eventDelivery n => execEventDelivery_goes n s h
  | .completionRecordWrite => execCompletionRecordWrite_goes s h
  | .crossingTimeout src dst => execCrossingTimeout_goes src dst s h
  | .watchdogExpiry earlier => execWatchdogExpiry_goes earlier s h
  | .ianikResetExit => execIanikResetExit_goes s h
  | .firmwareFault cls code => execFirmwareFault_goes cls code s h
  | .hearthResponderServe n => execHearthResponderServe_goes n s h
  | .hearthResponderReset => execHearthResponderReset_goes s h
  | .crystalResume => execCrystalResume_goes s h
  | .testLogicReset => execTestLogicReset_goes s h
  | .regionTestPhaseEnd failed readBackOk => execRegionTestPhaseEnd_goes failed readBackOk s h

/-- A step answers a next state that keeps what every command keeps of the state with its front command taken. -/
theorem step_goes (s : State) : Goes { s with pending := s.pending.tail } (step s) := by
  unfold step
  split
  case h_1 hnil => exact ⟨s, rfl, by rw [hnil, List.tail_nil, ← hnil]; exact Keeps.refl s⟩
  case h_2 c rest hcons => exact exec_goes c _ (by rw [hcons]; exact Keeps.refl _)

/-- The next state of a step keeps what every command keeps. -/
theorem keeps_of_step {s t : State} (h : step s = .next t) : Keeps { s with pending := s.pending.tail } t := by
  obtain ⟨u, hu, hkeeps⟩ := step_goes s
  obtain rfl : u = t := Host.Outcome.next.inj (hu.symm.trans h)
  exact hkeeps

/-- What every command keeps holds a state well formed. -/
theorem Keeps.wellFormed {s0 s : State} (h : Keeps s0 s) (hw : WellFormed s0) : WellFormed s where
  ram := h.ram hw.ram
  store := h.store hw.store
  flash := h.flash hw.flash
  log := h.log hw.log
  vers := h.vers hw.vers
  tail := h.tail hw.tail
  head := h.head hw.head
  safe := h.safe hw.safe
  parts := h.parts hw.parts

/-- The commands that wait are no part of a well-formed state. -/
theorem WellFormed.with_pending {s : State} (h : WellFormed s) (q : List Instr) : WellFormed { s with pending := q } where
  ram := h.ram
  store := h.store
  flash := h.flash
  log := h.log
  vers := h.vers
  tail := h.tail
  head := h.head
  safe := h.safe
  parts := h.parts

/-- Settles O1, by the definition of a step. -/
theorem stepRunsTheFrontCommand : Obligations.StepRunsTheFrontCommand :=
  fun _ _ _ => rfl

/-- Settles O2, by the definition of a step. -/
theorem stepIdlesOnEmptyQueue : Obligations.StepIdlesOnEmptyQueue := by
  intro s hnil
  unfold step
  rw [hnil]

/-- Settles O3: every command keeps the queue of the state it acts on. -/
theorem everyCommandCompletes : Obligations.EveryCommandCompletes := by
  intro c s
  obtain ⟨t, ht, hkeeps⟩ := exec_goes c s (Keeps.refl s)
  exact ⟨t, ht, hkeeps.queue⟩

/-- Settles O4: the command keeps the queue's rest, which is what a step leaves it. -/
theorem stepConsumesOneCommand : Obligations.StepConsumesOneCommand := by
  intro s
  obtain ⟨t, ht, hkeeps⟩ := step_goes s
  exact ⟨t, ht, hkeeps.queue⟩

/-- Settles O5: taking the command leaves the state well formed, and so does what every command keeps. -/
theorem stepKeepsWellFormed : Obligations.StepKeepsWellFormed :=
  fun _ _ hw hstep => (keeps_of_step hstep).wellFormed (hw.with_pending _)

/-- Settles O6: the memories, the fault log and the shares of the reset state are empty, its mailboxes have version 1,
and it is not in Hearth-safe. -/
theorem resetIsWellFormed : Obligations.ResetIsWellFormed where
  ram := rfl
  store := rfl
  flash := rfl
  log := Nat.zero_le _
  vers := vers_reset
  tail := Nat.zero_le _
  head := Nat.zero_le _
  safe := fun h => nomatch h
  parts := fun _ h => nomatch h

/-- Settles O7: the life-cycle, the revocations and the key hashes are among what every command keeps. -/
theorem fusesNeverRevert : Obligations.FusesNeverRevert := by
  intro s t hstep
  have h := keeps_of_step hstep
  exact ⟨h.life, h.revoked, h.keys⟩

/-- Settles O9: the registers are read in the reset state. -/
theorem resetRegisterValues : Obligations.ResetRegisterValues := by
  unfold Obligations.ResetRegisterValues
  decide

end Sys2Proof.Machine
end

section
/-! Words of a mailbox RAM whose bytes are not listed in their order: neither the statement of a command's words (R471) nor
that of a write in the page window (R397) asks for the canonical form that a well-formed state has. -/

namespace Sys2Proof.Machine

/-- STANDBY with a mailbox RAM that lists byte 9 before byte 8. A zero written at byte 8 finds a later key there and
removes no entry, so byte 8 still reads 7. -/
def unsortedRam : State :=
  { State.reset with pow := { State.reset.pow with st := .standby }, ram := [(9, 1), (8, 7)] }

/-- A command of zeros, with the 120 payload words that Ianik reads. -/
def zeroReq : Req := ⟨0, 0, 0, 0, 0, List.replicate 120 0⟩

/-- A target of 0 written over byte 8 of that RAM reads as 7. -/
theorem readReq_target_unsortedRam :
    (readReq 0 (hostRams (cmdArea 0) (reqWords 0 zeroReq) unsortedRam)).2.target = 7 := by
  decide +kernel

/-- Refutes O8: a command of zeros written to `unsortedRam` is read with the target 7. -/
theorem not_commandWordsReadBack : ¬ Obligations.CommandWordsReadBack := by
  intro h
  have hread : readReq 0 (hostRams (cmdArea 0) (reqWords 0 zeroReq) unsortedRam) = (0, zeroReq) :=
    h 0 0 zeroReq unsortedRam (by decide) (by decide) rfl (by decide)
  exact absurd (readReq_target_unsortedRam.symm.trans (congrArg (fun p => p.2.target) hread)) (by decide)

/-- A zero written at host address 0x8008, the word at byte 8 of that RAM, reads as 7. -/
theorem rdW_hostUnit_unsortedRam : rdW (hostUnit 0x8008 0 unsortedRam).ram (winAddr (pageNow unsortedRam) 0x8008) = 7 := by
  decide +kernel

/-- Refutes O33: the zero that a host writes at 0x8008 of `unsortedRam` does not read as written. -/
theorem not_mailboxRamWriteStoresOneWord : ¬ Obligations.MailboxRamWriteStoresOneWord := by
  intro h
  obtain ⟨⟨t, ht, -, -, hword, -⟩, -⟩ := h 0x8008 0 unsortedRam (by decide) (by decide) (by decide) (by decide)
  obtain rfl := Host.Outcome.next.inj ((execMailboxRamWrite_none 0 unsortedRam (by decide)).symm.trans ht)
  exact absurd (rdW_hostUnit_unsortedRam.symm.trans (hword (by decide))) (by decide)

end Sys2Proof.Machine
end

section
/-! Mailbox commands that are accepted: each completes in one step with the state, the status and the words of its act
(R467, R470, R474). -/

namespace Sys2Proof.Machine

/-- A command that is accepted answers what its act gives. -/
theorem exec_of_accepts {i : Instr} {d : CmdDef} {m : Fin 4} {r : Req} {s : State}
    (hi : mailboxOf i = some (d, m, r)) (h : Accepts d m r s) :
    exec i s = .next (answer d.opcode m r (d.act m r (asked d m r s)).2.1 (d.act m r (asked d m r s)).2.2 false
      (d.act m r (asked d m r s)).1) := by
  rw [exec_mailbox hi, mbxCommand_accepted h]

/-- A command that is accepted and whose act has one form answers with that form. -/
theorem exec_of_act {i : Instr} {d : CmdDef} {m : Fin 4} {r : Req} {s t : State} {st : Nat} {ws : List Word}
    (hi : mailboxOf i = some (d, m, r)) (h : Accepts d m r s) (hact : d.act m r (asked d m r s) = (t, st, ws)) :
    exec i s = .next (answer d.opcode m r st ws false t) := by
  rw [exec_of_accepts hi h, hact]

/-- Settles O20: of SYS_POWER the act is taken apart by the target state, of the others as it stands. -/
theorem systemCommandsComplete : Obligations.SystemCommandsComplete := by
  refine ⟨fun m r s h => exec_of_act rfl h rfl, fun m r s h => exec_of_act rfl h rfl, ?_,
    fun m r s h => exec_of_act rfl h rfl, fun m r s h => exec_of_act rfl h rfl, fun m r s h => exec_of_act rfl h rfl,
    fun m r s h => exec_of_act rfl h rfl⟩
  · intro m r s h
    refine (exec_of_accepts rfl h).trans (congrArg Host.Outcome.next ?_)
    generalize asked sysPowerDef m r s = u
    simp only [sysPowerDef, sysPowerAct]
    generalize argF r 3 0 2 = target
    match target with
    | 0 => rfl
    | 1 => by_cases hrun : u.pow.st = .run <;> simp only [hrun, if_true, if_false] <;> rfl
    | _ + 2 => rfl

/-- Settles O21: the act of each command is as it stands. -/
theorem cellCommandsComplete : Obligations.CellCommandsComplete := by
  refine ⟨fun m r s h => exec_of_act rfl h rfl, fun m r s h => exec_of_act rfl h rfl,
    fun m r s h => exec_of_act rfl h rfl, fun m r s h => exec_of_act rfl h rfl, fun m r s h => exec_of_act rfl h rfl,
    fun m r s h => exec_of_act rfl h rfl, fun m r s h => exec_of_act rfl h rfl, fun m r s h => exec_of_act rfl h rfl,
    fun m r s h => exec_of_act rfl h rfl, fun m r s h => exec_of_act rfl h rfl, fun m r s h => exec_of_act rfl h rfl,
    fun m r s h => exec_of_act rfl h rfl, fun m r s h => exec_of_act rfl h rfl⟩

/-- Settles O22: COMB_STAGE is taken apart by the commit that pends, DOMAIN_SET by the change it asks for. -/
theorem combAndDomainCommandsComplete : Obligations.CombAndDomainCommandsComplete := by
  refine ⟨fun m r s h => exec_of_act rfl h rfl, fun m r s h => exec_of_act rfl h rfl,
    fun m r s h => exec_of_act rfl h rfl, ?_, fun m r s h => exec_of_act rfl h rfl,
    fun m r s h => exec_of_act rfl h rfl, fun m r s h => exec_of_act rfl h rfl, fun m r s h => exec_of_act rfl h rfl,
    fun m r s h => exec_of_act rfl h rfl, fun m r s h => exec_of_act rfl h rfl, fun m r s h => exec_of_act rfl h rfl,
    ?_, fun m r s h => exec_of_act rfl h rfl, fun m r s h => exec_of_act rfl h rfl,
    fun m r s h => exec_of_act rfl h rfl⟩
  · intro m r s h
    refine (exec_of_accepts rfl h).trans (congrArg Host.Outcome.next ?_)
    generalize asked combStageDef m r s = u
    simp only [combStageDef]
    cases (combAt u (tgtComb r)).commits.getLast? <;> rfl
  · intro m r s h
    refine (exec_of_accepts rfl h).trans (congrArg Host.Outcome.next ?_)
    generalize asked domainSetDef m r s = u
    simp only [domainSetDef, domainSetAct]
    split
    · rfl
    · split <;> rfl

/-- Settles O23: the act of each command is as it stands. -/
theorem bellowsCommandsComplete : Obligations.BellowsCommandsComplete := by
  refine ⟨fun m r s h => exec_of_act rfl h rfl, fun m r s h => exec_of_act rfl h rfl,
    fun m r s h => exec_of_act rfl h rfl, fun m r s h => exec_of_act rfl h rfl, fun m r s h => exec_of_act rfl h rfl,
    fun m r s h => exec_of_act rfl h rfl, fun m r s h => exec_of_act rfl h rfl, fun m r s h => exec_of_act rfl h rfl,
    fun m r s h => exec_of_act rfl h rfl, fun m r s h => exec_of_act rfl h rfl⟩

/-- Settles O24: STKR_SELECT is taken apart by what it selects and whether that starts a switch. -/
theorem stoveCommandsComplete : Obligations.StoveCommandsComplete := by
  refine ⟨fun m r s h => exec_of_act rfl h rfl, fun m r s h => exec_of_act rfl h rfl,
    fun m r s h => exec_of_act rfl h rfl, ?_, fun m r s h => exec_of_act rfl h rfl,
    fun m r s h => exec_of_act rfl h rfl, fun m r s h => exec_of_act rfl h rfl, fun m r s h => exec_of_act rfl h rfl,
    fun m r s h => exec_of_act rfl h rfl⟩
  · intro m r s h
    refine (exec_of_accepts rfl h).trans (congrArg Host.Outcome.next ?_)
    generalize asked stkrSelectDef m r s = u
    simp only [stkrSelectDef]
    split
    · rfl
    · split <;> rfl

/-- Settles O25: the act of each command is as it stands. -/
theorem portCommandsComplete : Obligations.PortCommandsComplete := by
  refine ⟨fun m r s h => exec_of_act rfl h rfl, fun m r s h => exec_of_act rfl h rfl,
    fun m r s h => exec_of_act rfl h rfl, fun m r s h => exec_of_act rfl h rfl, fun m r s h => exec_of_act rfl h rfl,
    fun m r s h => exec_of_act rfl h rfl⟩

/-- Settles O26: HW_NODE_INFO is taken apart by its node, HW_PARTNER_SET by the partner it ends or sets. -/
theorem hivewireCommandsComplete : Obligations.HivewireCommandsComplete := by
  refine ⟨fun m r s h => exec_of_act rfl h rfl, fun m r s h => exec_of_act rfl h rfl,
    fun m r s h => exec_of_act rfl h rfl, ?_, fun m r s h => exec_of_act rfl h rfl,
    fun m r s h => exec_of_act rfl h rfl, fun m r s h => exec_of_act rfl h rfl, fun m r s h => exec_of_act rfl h rfl,
    ?_⟩
  · intro m r s h
    refine (exec_of_accepts rfl h).trans (congrArg Host.Outcome.next ?_)
    generalize asked hwNodeInfoDef m r s = u
    simp only [hwNodeInfoDef]
    cases nodeAt (tgtChain r) (tgtNode r) u <;> rfl
  · intro m r s h
    refine (exec_of_accepts rfl h).trans (congrArg Host.Outcome.next ?_)
    generalize asked hwPartnerSetDef m r s = u
    simp only [hwPartnerSetDef]
    split <;> rfl

/-- Settles O27: the act of each command is as it stands. -/
theorem damperCommandsComplete : Obligations.DamperCommandsComplete := by
  refine ⟨fun m r s h => exec_of_act rfl h rfl, fun m r s h => exec_of_act rfl h rfl,
    fun m r s h => exec_of_act rfl h rfl, fun m r s h => exec_of_act rfl h rfl, fun m r s h => exec_of_act rfl h rfl,
    fun m r s h => exec_of_act rfl h rfl, fun m r s h => exec_of_act rfl h rfl, fun m r s h => exec_of_act rfl h rfl⟩

/-- Settles O28: VAULT_WIPE is taken apart by the lock of the Vault. -/
theorem memoryCommandsComplete : Obligations.MemoryCommandsComplete := by
  refine ⟨fun m r s h => exec_of_act rfl h rfl, fun m r s h => exec_of_act rfl h rfl,
    fun m r s h => exec_of_act rfl h rfl, fun m r s h => exec_of_act rfl h rfl, fun m r s h => exec_of_act rfl h rfl,
    fun m r s h => exec_of_act rfl h rfl, ?_, fun m r s h => exec_of_act rfl h rfl,
    fun m r s h => exec_of_act rfl h rfl⟩
  · intro m r s h
    refine (exec_of_accepts rfl h).trans (congrArg Host.Outcome.next ?_)
    generalize asked vaultWipeDef m r s = u
    simp only [vaultWipeDef]
    split <;> rfl

/-- Settles O29: PSP_XFER is taken apart by what bars its transaction. -/
theorem foragerCommandsComplete : Obligations.ForagerCommandsComplete := by
  refine ⟨fun m r s h => exec_of_act rfl h rfl, fun m r s h => exec_of_act rfl h rfl, ?_,
    fun m r s h => exec_of_act rfl h rfl, fun m r s h => exec_of_act rfl h rfl, fun m r s h => exec_of_act rfl h rfl,
    fun m r s h => exec_of_act rfl h rfl, fun m r s h => exec_of_act rfl h rfl, fun m r s h => exec_of_act rfl h rfl⟩
  · intro m r s h
    refine (exec_of_accepts rfl h).trans (congrArg Host.Outcome.next ?_)
    generalize asked pspXferDef m r s = u
    simp only [pspXferDef]
    split <;> rfl

/-- Settles O30: LC_ADVANCE is taken apart by the keys it is given. -/
theorem bootCommandsComplete : Obligations.BootCommandsComplete := by
  refine ⟨fun m r s h => exec_of_act rfl h rfl, fun m r s h => exec_of_act rfl h rfl,
    fun m r s h => exec_of_act rfl h rfl, fun m r s h => exec_of_act rfl h rfl, fun m r s h => exec_of_act rfl h rfl,
    fun m r s h => exec_of_act rfl h rfl, fun m r s h => exec_of_act rfl h rfl, ?_,
    fun m r s h => exec_of_act rfl h rfl, fun m r s h => exec_of_act rfl h rfl, fun m r s h => exec_of_act rfl h rfl⟩
  · intro m r s h
    refine (exec_of_accepts rfl h).trans (congrArg Host.Outcome.next ?_)
    generalize asked lcAdvanceDef m r s = u
    simp only [lcAdvanceDef]
    split <;> rfl

/-- Settles O31: EVT_TRACE_MARK is taken apart by the room in the ring. -/
theorem serviceAndEventCommandsComplete : Obligations.ServiceAndEventCommandsComplete := by
  refine ⟨fun m r s h => exec_of_act rfl h rfl, fun m r s h => exec_of_act rfl h rfl,
    fun m r s h => exec_of_act rfl h rfl, fun m r s h => exec_of_act rfl h rfl, fun m r s h => exec_of_act rfl h rfl,
    fun m r s h => exec_of_act rfl h rfl, fun m r s h => exec_of_act rfl h rfl, fun m r s h => exec_of_act rfl h rfl,
    fun m r s h => exec_of_act rfl h rfl, fun m r s h => exec_of_act rfl h rfl, fun m r s h => exec_of_act rfl h rfl,
    fun m r s h => exec_of_act rfl h rfl, ?_⟩
  · intro m r s h
    refine (exec_of_accepts rfl h).trans (congrArg Host.Outcome.next ?_)
    generalize asked evtTraceMarkDef m r s = u
    simp only [evtTraceMarkDef]
    split <;> rfl

end Sys2Proof.Machine
end

section
/-! What a mailbox command leaves as it was (R464, R467, R470, R477): the state that it acts on differs from the one before
it in its mailbox, the mailbox RAM, the error counts and the events alone, and a change of a command goes beyond that
where its act does. -/

namespace Sys2Proof.Machine

/-! ### Bytes that a write does not reach -/

/-- A key that is not written reads as before, whatever the order of the entries. -/
theorem sget_sset_ne {α : Type} [DecidableEq α] (d : α) (m : List (Nat × α)) {k j : Nat} (v : α) (hj : j ≠ k) :
    sget d (sset d m k v) j = sget d m j := by
  induction m with
  | nil => by_cases hv : v = d <;> simp [sset, sget, hv, hj]
  | cons e r ih =>
    obtain ⟨k', v'⟩ := e
    unfold sset
    split
    · split <;> simp only [sget, if_neg hj]
    · split
      case isTrue he =>
        subst he
        split <;> simp only [sget, if_neg hj]
      case isFalse => simp only [sget, ih]

/-- Bytes outside the word written stay. -/
theorem rdB_wrW_of_outside {m : Mem} {a b : Nat} (w : Word) (h : b < a ∨ a + 4 ≤ b) : rdB (wrW m a w) b = rdB m b := by
  simp only [rdB, wrW, wrB]
  rw [sget_sset_ne _ _ _ (by omega), sget_sset_ne _ _ _ (by omega), sget_sset_ne _ _ _ (by omega),
    sget_sset_ne _ _ _ (by omega)]

/-- Bytes outside the words that a host writes stay. -/
theorem rdB_hostRams_of_outside {a b : Nat} {ws : List Word} (s : State) (h : b < a ∨ a + 4 * ws.length ≤ b) :
    rdB (hostRams a ws s).ram b = rdB s.ram b := by
  induction ws generalizing a s with
  | nil => rfl
  | cons w ws ih =>
    rw [List.length_cons] at h
    refine (ih (hostRam a w s) (by omega)).trans ?_
    unfold hostRam
    split
    · rfl
    · exact rdB_wrW_of_outside w (by omega)

/-- The words of a command fit its command area (R464). -/
theorem length_reqWords_le (op : Nat) (r : Req) : (reqWords op r).length ≤ 128 := by
  simp only [reqWords, List.length_append, List.length_cons, List.length_nil, List.length_take]
  omega

/-! ### All but what taking a command may change -/

/-- The state without what taking a command on mailbox `m` may change. -/
def mbxRest (m : Fin 4) (s : State) : State :=
  { s with
    mbx := s.mbx.set m {}
    ram := []
    evt := { s.evt with acc := .replicate 64 0, parts := [], detail := .replicate 64 0, tail := 0 }
    care := { s.care with ecc := .replicate 8 (0, 0), first := none, latest := none, upsets := [] } }

/-- What a command takes of a state depends on no more than the rest of the state before it. -/
theorem mbxTaken_mbxRest (m : Fin 4) (s t : State) : mbxTaken m (mbxRest m s) t = mbxTaken m s t := by
  simp only [mbxTaken, mbxRest, Vector.set_set]

theorem mbxTaken_congr {m : Fin 4} {s u : State} (h : mbxRest m u = mbxRest m s) (t : State) :
    mbxTaken m s t = mbxTaken m u t := by
  rw [← mbxTaken_mbxRest m s, ← h, mbxTaken_mbxRest]

@[simp] theorem mbxTaken_self (m : Fin 4) (s : State) : mbxTaken m s s = s := by
  simp only [mbxTaken, Fin.getElem_fin, Vector.set_getElem_self]

/-- A state that keeps the rest is the one before it with what taking a command may change. -/
theorem mbxTaken_of_mbxRest {m : Fin 4} {s t : State} (h : mbxRest m t = mbxRest m s) : mbxTaken m s t = t := by
  rw [mbxTaken_congr h, mbxTaken_self]

/-! ### What keeps the rest -/

/-- What each part of a fold keeps, the fold keeps. -/
theorem foldl_keeps_eq {σ α β : Type} (f : σ → β) {g : σ → α → σ} (hg : ∀ s a, f (g s a) = f s) (l : List α) (s : σ) :
    f (l.foldl g s) = f s := by
  induction l generalizing s with
  | nil => rfl
  | cons a l ih => exact (ih (g s a)).trans (hg s a)

@[simp] theorem mbxRest_raise (m : Fin 4) (n : Nat) (d : Word) (s : State) : mbxRest m (raise n d s) = mbxRest m s := rfl

@[simp] theorem mbxRest_raiseIf (m : Fin 4) (c : Bool) (n : Nat) (d : Word) (s : State) :
    mbxRest m (raiseIf c n d s) = mbxRest m s := by
  cases c <;> rfl

@[simp] theorem mbxRest_raiseFrom (m : Fin 4) (src n : Nat) (d : Word) (s : State) :
    mbxRest m (raiseFrom src n d s) = mbxRest m s := rfl

@[simp] theorem mbxRest_modMbx (m : Fin 4) (f : Mbx → Mbx) (s : State) : mbxRest m (modMbx m f s) = mbxRest m s := by
  simp only [mbxRest, modMbx, vmod, Vector.set_set]

@[simp] theorem mbxRest_ringMbx (m : Fin 4) (seq : Byte) (s : State) : mbxRest m (ringMbx m seq s) = mbxRest m s :=
  mbxRest_modMbx ..

@[simp] theorem mbxRest_answer (op : Nat) (m : Fin 4) (r : Req) (st : Nat) (ws : List Word) (b : Bool) (s : State) :
    mbxRest m (answer op m r st ws b s) = mbxRest m s :=
  mbxRest_modMbx ..

@[simp] theorem mbxRest_healWord (m : Fin 4) (w : WordAt) (s : State) : mbxRest m (healWord w s) = mbxRest m s := rfl

@[simp] theorem mbxRest_ramWrite (m : Fin 4) (a : Nat) (w : Word) (s : State) :
    mbxRest m (ramWrite a w s) = mbxRest m s := rfl

@[simp] theorem mbxRest_hostRams (m : Fin 4) (a : Nat) (ws : List Word) (s : State) :
    mbxRest m (hostRams a ws s) = mbxRest m s := by
  induction ws generalizing a s with
  | nil => rfl
  | cons w ws ih =>
    refine (ih (a + 4) (hostRam a w s)).trans ?_
    unfold hostRam
    split <;> rfl

@[simp] theorem mbxRest_countCorr (m : Fin 4) (c : MemClass) (s : State) :
    mbxRest m (countCorr c s) = mbxRest m s := rfl

@[simp] theorem mbxRest_countUnc (m : Fin 4) (w : WordAt) (x : BitVec 7) (b : Bool) (s : State) :
    mbxRest m (countUnc w x b s) = mbxRest m s := rfl

@[simp] theorem mbxRest_checkWord (m : Fin 4) (w : WordAt) (s : State) :
    mbxRest m (checkWord w s).2 = mbxRest m s := by
  unfold checkWord
  split
  · rfl
  · split <;> rfl

@[simp] theorem mbxRest_readTail (m : Fin 4) (s : State) : mbxRest m (readTail s) = mbxRest m s := by
  refine Eq.trans ?_ (mbxRest_checkWord m ⟨.mailboxRam, 0, 0, 0xF004 / 4⟩ s)
  simp only [readTail]
  split <;> split <;> rfl

@[simp] theorem mbxRest_bulkErrs (m : Fin 4) (a n : Nat) (s : State) : mbxRest m (bulkErrs a n s) = mbxRest m s :=
  foldl_keeps_eq _ (fun _ _ => mbxRest_checkWord ..) _ s

@[simp] theorem mbxRest_bulkRefused (m : Fin 4) (a n st : Nat) (s : State) :
    mbxRest m (bulkRefused a n st s) = mbxRest m s := by
  unfold bulkRefused
  split <;> simp

@[simp] theorem mbxRest_asked (d : CmdDef) (m : Fin 4) (r : Req) (s : State) : mbxRest m (asked d m r s) = mbxRest m s := by
  simp only [asked, mbxRest_readTail, mbxRest_ringMbx, mbxRest_hostRams]

/-! ### The mailbox RAM -/

@[simp] theorem readTail_ram (s : State) : (readTail s).ram = s.ram := by rw [readTail_frame]

@[simp] theorem checkWord_ram (w : WordAt) (s : State) : (checkWord w s).2.ram = s.ram := by rw [checkWord_frame]

@[simp] theorem bulkErrs_ram (a n : Nat) (s : State) : (bulkErrs a n s).ram = s.ram :=
  foldl_keeps_eq State.ram (fun _ _ => checkWord_ram ..) _ s

/-- Writing a command and sampling it leaves every byte outside its command area (R464). -/
theorem rdB_asked_of_outside {d : CmdDef} {m : Fin 4} {r : Req} {s : State} {a : Nat}
    (h : a < cmdArea m ∨ cmdArea m + 512 ≤ a) : rdB (asked d m r s).ram a = rdB s.ram a := by
  have hlen := length_reqWords_le d.opcode r
  rw [asked, readTail_ram]
  exact rdB_hostRams_of_outside s (by omega)

end Sys2Proof.Machine
end

section
/-! The frames of mailbox commands (R464, R467, R470, R474, R477): what a command changes beyond taking it is what its act
changes. -/

namespace Sys2Proof.Machine

/-! ### From the act to the command -/

theorem mbxTaken_modMbx (m : Fin 4) (g : Mbx → Mbx) (s t : State) :
    mbxTaken m s (modMbx m g t) = modMbx m g (mbxTaken m s t) := by
  simp only [mbxTaken, modMbx, vmod, Fin.getElem_fin, Vector.set_set, Vector.getElem_set_self]

/-- A change of states that leaves the mailboxes to its first argument. -/
structure LeavesMbx (f : State → State → State) : Prop where
  self : ∀ t, f t t = t
  modMbx : ∀ m g s t, f (modMbx m g s) (modMbx m g t) = modMbx m g (f s t)

/-- What a refusal of the command does beyond its answer (R474): it counts and raises events alone. -/
structure RefusesOnly (d : CmdDef) (m : Fin 4) (r : Req) : Prop where
  rest : ∀ st u, mbxRest m (d.refused st r u) = mbxRest m u
  ram : ∀ st u, (d.refused st r u).ram = u.ram

/-- The act of the command goes beyond taking it by `f`, and leaves every byte of the mailbox RAM but its own and those
of `w`. -/
structure ActChangesOnly (d : CmdDef) (m : Fin 4) (r : Req) (w : Nat → Prop) (f : State → State → State) : Prop where
  beyond : ∀ u, refusal d m r u = none →
    f (mbxTaken m u (d.act m r u).1) (d.act m r u).1 = (d.act m r u).1
  ram : ∀ u, refusal d m r u = none → ∀ a, ¬ w a → rdB (d.act m r u).1.ram a = rdB u.ram a

/-- A state that keeps the rest and the bytes outside the command area is within every frame. -/
theorem changesOnly_of_mbxRest {m : Fin 4} {w : Nat → Prop} {f : State → State → State} (hf : LeavesMbx f)
    {s t : State} (hrest : mbxRest m t = mbxRest m s)
    (hram : ∀ a, (a < cmdArea m ∨ cmdArea m + 512 ≤ a) → rdB t.ram a = rdB s.ram a) :
    t = f (mbxTaken m s t) t ∧
      ∀ a, (a < cmdArea m ∨ cmdArea m + 512 ≤ a) → ¬ w a → rdB t.ram a = rdB s.ram a :=
  ⟨by rw [mbxTaken_of_mbxRest hrest, hf.self], fun a ha _ => hram a ha⟩

/-- What a mailbox command does in every case: nothing, a ring that is lost, a ring that waits, a refusal, or its act
(R467, R468, R474, R573). -/
theorem mbxCommand_cases (d : CmdDef) (m : Fin 4) (r : Req) (s : State) :
    mbxCommand d m r s = s ∨ mbxCommand d m r s = ringLost m s ∨
    mbxCommand d m r s = ringMbx m s.mbx[m].seqRung (hostRams (cmdArea m) (reqWords d.opcode r) s) ∨
    (∃ st, Refuses d m r st s) ∨ Accepts d m r s := by
  cases hreach : mbxReach s with
  | false => exact .inl (mbxCommand_unreached hreach)
  | true =>
    cases hfree : mbxFree m s with
    | false => exact .inr (.inl (mbxCommand_lost hreach hfree))
    | true =>
      cases hserved : mbxServed m s with
      | false =>
        refine .inr (.inr (.inl ?_))
        have hrung := (mbxServed_rung d m r s).trans hserved
        simp only [mbxCommand, hreach, hfree, hrung, Bool.not_true, Bool.false_eq_true, if_false]
      | true =>
        refine .inr (.inr (.inr ?_))
        cases hrefusal : refusal d m r (asked d m r s) with
        | some st => exact .inl ⟨st, hreach, hfree, hserved, hrefusal⟩
        | none => exact .inr ⟨hreach, hfree, hserved, hrefusal⟩

/-- A command changes beyond taking it what its act does. -/
theorem mbxChangesOnly_of_act {c : Instr} {d : CmdDef} {m : Fin 4} {r : Req} {w : Nat → Prop}
    {f : State → State → State} (hi : mailboxOf c = some (d, m, r)) (hf : LeavesMbx f) (hr : RefusesOnly d m r)
    (ha : ActChangesOnly d m r w f) : MbxChangesOnly c m w f := by
  intro s t ht
  obtain rfl := Host.Outcome.next.inj ((exec_mailbox hi s).symm.trans ht)
  obtain h | h | h | ⟨st, h⟩ | h := mbxCommand_cases d m r s
  · rw [h]
    exact changesOnly_of_mbxRest hf rfl fun _ _ => rfl
  · rw [h]
    exact changesOnly_of_mbxRest hf (mbxRest_modMbx ..) fun _ _ => rfl
  · rw [h]
    refine changesOnly_of_mbxRest hf (by simp) fun a ha => ?_
    have hlen := length_reqWords_le d.opcode r
    exact rdB_hostRams_of_outside s (by omega)
  · rw [mbxCommand_refused h]
    refine changesOnly_of_mbxRest hf (by simp [hr.rest]) fun a ha => ?_
    exact (congrArg (rdB · a) (hr.ram st _)).trans (rdB_asked_of_outside ha)
  · rw [mbxCommand_accepted h]
    obtain ⟨-, -, -, hnone⟩ := h
    refine ⟨?_, fun a harea hw => (ha.ram _ hnone a hw).trans (rdB_asked_of_outside harea)⟩
    rw [mbxTaken_congr (mbxRest_asked d m r s), answer, mbxTaken_modMbx, hf.modMbx, ha.beyond _ hnone]

/-- A command without an effect of its own when it is refused. -/
theorem RefusesOnly.of_id {d : CmdDef} {m : Fin 4} {r : Req} (h : d.refused = fun _ _ s => s) : RefusesOnly d m r :=
  ⟨fun _ _ => by rw [h], fun _ _ => by rw [h]⟩

/-- A refused command for a cell whose epoch is stale raises EV11 (R82). -/
theorem RefusesOnly.of_stale {d : CmdDef} {m : Fin 4} {r : Req} {op : Nat} (h : d.refused = staleRefused op) :
    RefusesOnly d m r :=
  ⟨fun st u => by rw [h]; exact mbxRest_raiseIf .., fun st u => by rw [h, staleRefused, raiseIf]; split <;> rfl⟩

/-- An act that leaves what taking the command may change, and changes the rest by `f`. -/
theorem ActChangesOnly.of_untaken {d : CmdDef} {m : Fin 4} {r : Req} {w : Nat → Prop} {f : State → State → State}
    (htaken : ∀ u, refusal d m r u = none → mbxTaken m u (d.act m r u).1 = mbxTaken m u u)
    (hf : ∀ u, refusal d m r u = none → f u (d.act m r u).1 = (d.act m r u).1) : ActChangesOnly d m r w f where
  beyond u hnone := by rw [htaken u hnone, mbxTaken_self, hf u hnone]
  ram u hnone a _ := by
    have hram := congrArg State.ram (htaken u hnone)
    exact congrArg (rdB · a) hram

/-- An act that keeps what taking the command does not change, but for fields that `erase` makes alike and `f` takes from
the next state. -/
theorem ActChangesOnly.of_erase {d : CmdDef} {m : Fin 4} {r : Req} {w : Nat → Prop} {f : State → State → State}
    (erase : State → State) (hf : LeavesMbx f)
    (herase : ∀ s t, f (mbxTaken m (erase s) t) t = f (mbxTaken m s t) t)
    (hrest : ∀ u, refusal d m r u = none → erase (mbxRest m (d.act m r u).1) = erase (mbxRest m u))
    (hram : ∀ u, refusal d m r u = none → ∀ a, ¬ w a → rdB (d.act m r u).1.ram a = rdB u.ram a) :
    ActChangesOnly d m r w f where
  beyond u hnone := by
    rw [← mbxTaken_mbxRest, ← herase, ← hrest u hnone, herase, mbxTaken_mbxRest, mbxTaken_self, hf.self]
  ram := hram

/-- A command whose act keeps what taking it does not change, changes nothing beyond taking it. -/
theorem mbxChangesOnly_of_mbxRest {c : Instr} {d : CmdDef} {m : Fin 4} {r : Req} (hi : mailboxOf c = some (d, m, r))
    (hr : RefusesOnly d m r) (hrest : ∀ u, mbxRest m (d.act m r u).1 = mbxRest m u)
    (hram : ∀ u, (d.act m r u).1.ram = u.ram) : MbxChangesOnly c m (fun _ => False) (fun u _ => u) :=
  have hf : LeavesMbx (fun u _ => u) := ⟨fun _ => rfl, fun _ _ _ _ => rfl⟩
  mbxChangesOnly_of_act hi hf hr
    (.of_erase id hf (fun _ _ => rfl) (fun u _ => hrest u) fun u _ a _ => congrArg (rdB · a) (hram u))

/-- A command that only reports changes nothing beyond taking it. -/
theorem mbxChangesOnly_of_report {c : Instr} {d : CmdDef} {m : Fin 4} {r : Req} (hi : mailboxOf c = some (d, m, r))
    (hr : RefusesOnly d m r) (hact : ∀ u, (d.act m r u).1 = u) : MbxChangesOnly c m (fun _ => False) (fun u _ => u) :=
  mbxChangesOnly_of_mbxRest hi hr (fun u => congrArg (mbxRest m) (hact u)) fun u => congrArg State.ram (hact u)

/-! ### Reports -/

/-- SYS_HELLO grants a version on its own mailbox (R481). -/
theorem mbxRest_sysHello (m : Fin 4) (r : Req) (u : State) : mbxRest m (sysHelloDef.act m r u).1 = mbxRest m u := by
  simp only [sysHelloDef, mbxRest, vmodN, m.isLt, dite_true, Vector.set_set]

/-- HW_NODE_INFO reports its node where there is one (R356). -/
theorem hwNodeInfo_state (m : Fin 4) (r : Req) (u : State) : (hwNodeInfoDef.act m r u).1 = u := by
  simp only [hwNodeInfoDef]
  cases nodeAt (tgtChain r) (tgtNode r) u <;> rfl

/-! ### COMB_GAIN_READ -/

/-- The state without the Combs. -/
def noCombs (s : State) : State := { s with hive := { s.hive with combs := .replicate 3 {} } }

@[simp] theorem noCombs_mbxRest_modComb (m : Fin 4) (d : Dom) (f : Comb → Comb) (s : State) :
    noCombs (mbxRest m (modComb d f s)) = noCombs (mbxRest m s) := rfl

@[simp] theorem mbxRest_healWords (m : Fin 4) (mk : Nat → WordAt) (l : List Nat) (s : State) :
    mbxRest m (healWords mk l s) = mbxRest m s := by
  induction l generalizing s with
  | nil => rfl
  | cons a l ih => exact (ih _).trans (mbxRest_healWord ..)

@[simp] theorem healWords_ram (mk : Nat → WordAt) (l : List Nat) (s : State) : (healWords mk l s).ram = s.ram := by
  induction l generalizing s with
  | nil => rfl
  | cons a l ih => exact ih _

/-- The errors that a read of gains meets change the Combs, the error counts and the events (R166, R408, R409). -/
theorem noCombs_mbxRest_gainErrs (m : Fin 4) (d : Dom) (ws : List Nat) (s : State) :
    noCombs (mbxRest m (gainErrs d ws s)) = noCombs (mbxRest m s) := by
  refine foldl_keeps_eq (fun s => noCombs (mbxRest m s)) (fun s u => ?_) _ s
  split
  · simp only [nodeBad, noCombs_mbxRest_modComb, mbxRest_healWords, mbxRest_countUnc]
  · rfl

theorem gainErrs_ram (d : Dom) (ws : List Nat) (s : State) : (gainErrs d ws s).ram = s.ram := by
  refine foldl_keeps_eq State.ram (fun s u => ?_) _ s
  split
  · exact healWords_ram ..
  · rfl

/-- Settles O53: the reports act on nothing but their mailbox, and COMB_GAIN_READ beyond it on the Combs. -/
theorem queriesChangeOnlyTheirMailbox : Obligations.QueriesChangeOnlyTheirMailbox := by
  intro m r
  have plain {c : Instr} {d : CmdDef} (hi : mailboxOf c = some (d, m, r)) (hr : d.refused = fun _ _ s => s)
      (hact : ∀ u, (d.act m r u).1 = u) : MbxChangesOnly c m (fun _ => False) (fun u _ => u) :=
    mbxChangesOnly_of_report hi (.of_id hr) hact
  refine ⟨?_, ?_⟩
  · simp only [List.forall_mem_cons, List.not_mem_nil, false_imp_iff, implies_true, and_true]
    exact ⟨plain rfl rfl fun _ => rfl, mbxChangesOnly_of_mbxRest rfl (.of_id rfl) (mbxRest_sysHello m r) fun _ => rfl,
      plain rfl rfl fun _ => rfl, mbxChangesOnly_of_report rfl (.of_stale rfl) fun _ => rfl,
      mbxChangesOnly_of_report rfl (.of_stale rfl) fun _ => rfl, plain rfl rfl fun _ => rfl,
      plain rfl rfl fun _ => rfl, plain rfl rfl fun _ => rfl, plain rfl rfl fun _ => rfl, plain rfl rfl fun _ => rfl,
      plain rfl rfl fun _ => rfl, plain rfl rfl fun _ => rfl, plain rfl rfl fun _ => rfl, plain rfl rfl fun _ => rfl,
      plain rfl rfl fun _ => rfl, plain rfl rfl fun _ => rfl, plain rfl rfl fun _ => rfl, plain rfl rfl fun _ => rfl,
      plain rfl rfl fun _ => rfl, mbxChangesOnly_of_report rfl (.of_id rfl) (hwNodeInfo_state m r),
      plain rfl rfl fun _ => rfl, plain rfl rfl fun _ => rfl, plain rfl rfl fun _ => rfl, plain rfl rfl fun _ => rfl,
      plain rfl rfl fun _ => rfl, plain rfl rfl fun _ => rfl, plain rfl rfl fun _ => rfl, plain rfl rfl fun _ => rfl,
      plain rfl rfl fun _ => rfl, plain rfl rfl fun _ => rfl, plain rfl rfl fun _ => rfl, plain rfl rfl fun _ => rfl,
      plain rfl rfl fun _ => rfl, plain rfl rfl fun _ => rfl, plain rfl rfl fun _ => rfl, plain rfl rfl fun _ => rfl⟩
  · have hf : LeavesMbx (fun u t => { u with hive := { u.hive with combs := t.hive.combs } }) :=
      ⟨fun _ => rfl, fun _ _ _ _ => rfl⟩
    exact mbxChangesOnly_of_act rfl hf (.of_id rfl) (.of_erase noCombs hf (fun _ _ => rfl)
      (fun u _ => noCombs_mbxRest_gainErrs ..) fun u _ a _ => congrArg (rdB · a) (gainErrs_ram ..))

end Sys2Proof.Machine
end

section
/-! The frames of the Hive's commands (chapters 03, 05 and 06): the messages of the Cell commands, the Combs, the staged
changes, and what the load of a cell image reaches. -/

namespace Sys2Proof.Machine

/-- A command whose act leaves what taking it may change, and changes the rest by `f`. -/
theorem mbxChangesOnly_of_update {c : Instr} {d : CmdDef} {m : Fin 4} {r : Req} {f : State → State → State}
    (hi : mailboxOf c = some (d, m, r)) (hr : RefusesOnly d m r) (hf : LeavesMbx f)
    (htaken : ∀ u, mbxTaken m u (d.act m r u).1 = mbxTaken m u u) (hact : ∀ u, f u (d.act m r u).1 = (d.act m r u).1) :
    MbxChangesOnly c m (fun _ => False) f :=
  mbxChangesOnly_of_act hi hf hr (.of_untaken (fun u _ => htaken u) fun u _ => hact u)

/-- A command whose act keeps the mailbox RAM and, but for fields that `erase` makes alike, what taking the command does
not change. -/
theorem mbxChangesOnly_of_erase {c : Instr} {d : CmdDef} {m : Fin 4} {r : Req} {f : State → State → State}
    (erase : State → State) (hi : mailboxOf c = some (d, m, r)) (hr : RefusesOnly d m r) (hf : LeavesMbx f)
    (herase : ∀ s t, f (mbxTaken m (erase s) t) t = f (mbxTaken m s t) t)
    (hact : ∀ u, (erase (mbxRest m (d.act m r u).1), (d.act m r u).1.ram) = (erase (mbxRest m u), u.ram)) :
    MbxChangesOnly c m (fun _ => False) f :=
  mbxChangesOnly_of_act hi hf hr (.of_erase erase hf herase (fun u _ => congrArg Prod.fst (hact u))
    fun u _ a _ => congrArg (rdB · a) (congrArg Prod.snd (hact u)))

/-! ### Messages to cells -/

/-- The state without the messages to the cells. -/
def noMessages (s : State) : State :=
  { s with ianik := { s.ianik with stalled := [] }, hive := { s.hive with transit := [] } }

/-- A message to a cell changes the messages under way alone (R51). -/
theorem noMessages_sendCell (m : Fin 4) (e : QEntry) (s : State) :
    (noMessages (mbxRest m (sendCell e s)), (sendCell e s).ram) = (noMessages (mbxRest m s), s.ram) := by
  unfold sendCell
  split <;> rfl

/-- A command that sends messages to cells changes the messages under way (R51, R77). -/
theorem mbxChangesOnly_of_messages {c : Instr} {d : CmdDef} {m : Fin 4} {r : Req}
    (hi : mailboxOf c = some (d, m, r)) (hr : RefusesOnly d m r)
    (hact : ∀ u, (noMessages (mbxRest m (d.act m r u).1), (d.act m r u).1.ram) = (noMessages (mbxRest m u), u.ram)) :
    MbxChangesOnly c m (fun _ => False) (fun u t => { u with
      ianik := { u.ianik with stalled := t.ianik.stalled }
      hive := { u.hive with transit := t.hive.transit } }) :=
  mbxChangesOnly_of_erase noMessages hi hr ⟨fun _ => rfl, fun _ _ _ _ => rfl⟩ (fun _ _ => rfl) hact

/-- A refused CELL_GROUP_COMMIT raises EV11 for its first stale entry (R82, R91). -/
theorem refusesOnly_cellGroupCommit (m : Fin 4) (r : Req) : RefusesOnly cellGroupCommitDef m r :=
  ⟨fun _ _ => mbxRest_raiseIf .., fun st _ => by cases h : st == stStale <;> simp only [cellGroupCommitDef, raiseIf, h] <;> rfl⟩

/-! ### The Combs, cells and domains -/

/-- The state without the cells. -/
def noCells (s : State) : State := { s with hive := { s.hive with cells := .replicate 32 {} } }

/-- The state without the domains' rates. -/
def noRates (s : State) : State := { s with hive := { s.hive with dom := {} } }

/-- The state without the deferred commands. -/
def noDeferred (s : State) : State := { s with ianik := { s.ianik with deferred := [] } }

theorem mbxTaken_clearSparks (m : Fin 4) (mask : Word) (s : State) :
    mbxTaken m s (clearSparks mask s) = mbxTaken m s s := by
  unfold clearSparks mbxTaken
  rfl

/-- Staging gains changes a Comb and heals its words (R157, R407). -/
theorem noCombs_stageNow (m : Fin 4) (d : Dom) (row : Bool) (a b : Nat) (gs : List F32) (s : State) :
    (noCombs (mbxRest m (stageNow d row a b gs s)), (stageNow d row a b gs s).ram) = (noCombs (mbxRest m s), s.ram) := by
  simp only [stageNow, noCombs_mbxRest_modComb, mbxRest_healWords]
  exact congrArg (Prod.mk _) (healWords_ram ..)

@[simp] theorem mbxRest_ownBulk (m : Fin 4) (first len : Nat) (s : State) :
    mbxRest m (ownBulk m first len s) = mbxRest m s := by
  simp only [ownBulk, mbxRest, vmodN, m.isLt, dite_true, Vector.set_set]

theorem noCombs_combStage (m : Fin 4) (r : Req) (u : State) :
    (noCombs (mbxRest m (combStageDef.act m r u).1), (combStageDef.act m r u).1.ram) = (noCombs (mbxRest m u), u.ram) := by
  simp only [combStageDef]
  split
  · rfl
  · exact noCombs_stageNow ..

theorem noCombs_combStageBulk (m : Fin 4) (r : Req) (u : State) :
    (noCombs (mbxRest m (combStageBulkDef.act m r u).1), (combStageBulkDef.act m r u).1.ram) =
      (noCombs (mbxRest m u), u.ram) := by
  simp only [combStageBulkDef, mbxRest_ownBulk]
  refine (foldl_keeps_eq (fun s => (noCombs (mbxRest m s), s.ram)) (fun _ _ => noCombs_stageNow ..) _ _).trans ?_
  simp only [mbxRest_bulkErrs, bulkErrs_ram]

theorem bulkRefused_ram (a n st : Nat) (s : State) : (bulkRefused a n st s).ram = s.ram := by
  unfold bulkRefused
  split
  · exact bulkErrs_ram ..
  · rfl

/-- DOMAIN_SET changes the rates and, where fM changes, defers (R186, R192). -/
theorem domainSet_rest (m : Fin 4) (r : Req) (u : State) :
    (noRates (noDeferred (mbxRest m (domainSetDef.act m r u).1)), (domainSetDef.act m r u).1.ram) =
      (noRates (noDeferred (mbxRest m u)), u.ram) := by
  simp only [domainSetDef, domainSetAct]
  split
  · rfl
  · split <;> rfl

/-! ### The load of a cell image -/

/-- The state without what the load of a cell image reaches: its completion and staging, the banks and Combs, the Vault
and the measurements (R103, R418, R523). -/
def noLoad (s : State) : State :=
  { s with
    evt := { s.evt with waiting := [] }
    ianik := { s.ianik with deferred := [], staged := [] }
    hive := { s.hive with cells := .replicate 32 {}, combs := .replicate 3 {} }
    care := { s.care with
      offAcc := false, vault := [], keysIn := false, wiping := false, repeated := false, wipes := 0, cause := 0 }
    boot := { s.boot with meas := .replicate 8 0, job := none, jobs := [] } }

/-- What neither taking a command nor the load of a cell image reaches, with the mailbox RAM. -/
def loadRest (m : Fin 4) (s : State) : State × Mem := (noLoad (mbxRest m s), s.ram)

theorem loadRest_of_mbxRest {m : Fin 4} {s t : State} (hrest : mbxRest m t = mbxRest m s) (hram : t.ram = s.ram) :
    loadRest m t = loadRest m s := by
  rw [loadRest, hrest, hram, loadRest]

section
variable (m : Fin 4) (s : State)

@[simp] theorem loadRest_healWords (mk : Nat → WordAt) (l : List Nat) : loadRest m (healWords mk l s) = loadRest m s :=
  loadRest_of_mbxRest (mbxRest_healWords ..) (healWords_ram ..)

@[simp] theorem loadRest_checkWord (w : WordAt) : loadRest m (checkWord w s).2 = loadRest m s :=
  loadRest_of_mbxRest (mbxRest_checkWord ..) (checkWord_ram ..)

@[simp] theorem loadRest_modCell (c : Fin 32) (f : Cell → Cell) : loadRest m (modCell c f s) = loadRest m s := rfl

@[simp] theorem loadRest_offAccess : loadRest m (offAccess s) = loadRest m s := rfl

@[simp] theorem loadRest_measure (k : Nat) (d : BitVec 256) : loadRest m (measure k d s) = loadRest m s := rfl

@[simp] theorem loadRest_jobNext : loadRest m (jobNext s) = loadRest m s := rfl

@[simp] theorem loadRest_complete (op mb : Nat) (tag : BitVec 16) (st : Byte) (ws : List Word) :
    loadRest m (complete op mb tag st ws s) = loadRest m s := by
  unfold complete
  split <;> rfl

@[simp] theorem loadRest_vaultWrite (k : Nat) (ws : List Word) : loadRest m (vaultWrite k ws s) = loadRest m s :=
  loadRest_healWords ..

@[simp] theorem loadRest_stageSealed (b : Bool) (ws : List Word) : loadRest m (stageSealed b ws s) = loadRest m s := by
  cases b
  · rfl
  · exact loadRest_vaultWrite ..

@[simp] theorem loadRest_loadProg (c : Fin 32) (b : Fin 2) (d : BitVec 256) (i : BitVec 16) (x : Bool) :
    loadRest m (loadProg c b d i x s) = loadRest m s := by
  rw [loadProg, apply_ite (loadRest m), loadRest_modCell, loadRest_healWords, loadRest_offAccess, ite_self,
    loadRest_stageSealed]

@[simp] theorem loadRest_loadCoef (c : Fin 32) (b : Fin 2) (d : BitVec 256) (i : BitVec 16) (x : Bool) :
    loadRest m (loadCoef c b d i x s) = loadRest m s := by
  rw [loadCoef, apply_ite (loadRest m), loadRest_modCell, loadRest_healWords, loadRest_offAccess, ite_self,
    loadRest_stageSealed]

@[simp] theorem loadRest_clearProg (c : Fin 32) (b : Fin 2) : loadRest m (clearProg c b s) = loadRest m s := by
  rw [clearProg, loadRest_modCell, loadRest_healWords]

@[simp] theorem loadRest_clearCoef (c : Fin 32) (b : Fin 2) : loadRest m (clearCoef c b s) = loadRest m s := by
  rw [clearCoef, loadRest_modCell, loadRest_healWords]

@[simp] theorem loadRest_jobFails (st : Nat) (j : TuneJob) : loadRest m (jobFails st j s) = loadRest m s :=
  loadRest_complete ..

@[simp] theorem loadRest_jobEnds (st : Nat) : loadRest m (jobEnds st s) = loadRest m s := by
  unfold jobEnds
  split <;> simp

@[simp] theorem loadRest_jobClear : loadRest m (jobClear s) = loadRest m s := by
  unfold jobClear
  split
  · split
    · dsimp only
      split <;> split <;> simp
    · split
      · exact foldl_keeps_eq (loadRest m) (fun _ _ => by simp) _ s
      · rfl
  · rfl

@[simp] theorem loadRest_jobWiped : loadRest m (jobWiped s) = loadRest m s := by
  unfold jobWiped
  refine (foldl_keeps_eq (loadRest m) (fun _ _ => loadRest_jobFails ..) _ _).trans ?_
  split
  · simp only [loadRest_jobEnds, loadRest_jobClear]
    rfl
  · rfl

@[simp] theorem loadRest_wipeVault (k : Nat) : loadRest m (wipeVault k s) = loadRest m s :=
  loadRest_jobWiped ..

@[simp] theorem loadRest_keyRead : loadRest m (keyRead s).2 = loadRest m s := by
  unfold keyRead
  generalize List.range 8 = l
  refine foldl_keeps_eq (fun p : Bool × State => loadRest m p.2) (fun p k => ?_) l (true, s)
  exact loadRest_checkWord ..

@[simp] theorem loadRest_openAll (cs : List (Component × BitVec 256)) : loadRest m (openAll cs s).2 = loadRest m s := by
  simp only [openAll]
  split
  · split <;> simp
  · rfl

@[simp] theorem loadRest_jobShut (j : TuneJob) : loadRest m (jobShut j s) = loadRest m s := by
  unfold jobShut
  split <;> simp

@[simp] theorem loadRest_progLoaded (j : TuneJob) (x : Manifest) (c : Fin 32) (b : Fin 2) :
    loadRest m (progLoaded j x c b s) = loadRest m s := by
  unfold progLoaded
  split <;> simp

@[simp] theorem loadRest_coefLoaded (j : TuneJob) (x : Manifest) (c : Fin 32) (b : Fin 2) :
    loadRest m (coefLoaded j x c b s) = loadRest m s := by
  unfold coefLoaded
  split <;> simp

@[simp] theorem loadRest_imageWritten (j : TuneJob) (x : Manifest) (c : Fin 32) (p k : Bool) :
    loadRest m (imageWritten j x c p k s) = loadRest m s := by
  cases p <;> cases k <;> simp [imageWritten]

@[simp] theorem loadRest_imageLoaded (j : TuneJob) (x : Manifest) (c : Fin 32) (p k : Bool) :
    loadRest m (imageLoaded j x c p k s) = loadRest m s := by
  simp only [imageLoaded, apply_ite (loadRest m), loadRest_jobEnds, loadRest_jobShut, loadRest_imageWritten,
    loadRest_openAll, ite_self]

/-- A load of a cell image that is accepted begins, or waits behind the one under way (R103, R533). -/
theorem loadRest_jobBegin_of_cell {j : TuneJob} (h : j.cell.isSome = true) :
    loadRest m (jobBegin j s) = loadRest m s := by
  obtain ⟨x, hx⟩ := Option.isSome_iff_exists.mp h
  unfold jobBegin
  split
  · rfl
  · unfold jobLoaded
    split
    · rename_i hjob _
      obtain rfl : j = _ := Option.some.inj hjob
      split
      · rfl
      · simp only [hx, loadRest_imageLoaded]
        rfl
    · rfl

end

/-! ### The frames -/

/-- Settles O55: each act is taken for what it sends, stages or loads. -/
theorem hiveCommandFrames : Obligations.HiveCommandFrames := by
  intro m r
  refine ⟨?_, ?_, ?_, ?_, ?_, ?_, ?_, ?_, ?_⟩
  · exact mbxChangesOnly_of_erase (fun s => noCells (noMessages s)) rfl (.of_stale rfl) ⟨fun _ => rfl, fun _ _ _ _ => rfl⟩
      (fun _ _ => rfl) fun _ => congrArg (Prod.map noCells id) (noMessages_sendCell ..)
  · simp only [List.forall_mem_cons, List.not_mem_nil, false_imp_iff, implies_true, and_true]
    refine ⟨?_, ?_, ?_, ?_, ?_, ?_, ?_, ?_⟩
    · exact mbxChangesOnly_of_messages rfl (.of_stale rfl) fun _ => noMessages_sendCell ..
    · exact mbxChangesOnly_of_messages rfl (.of_stale rfl) fun _ => noMessages_sendCell ..
    · exact mbxChangesOnly_of_messages rfl (.of_stale rfl) fun _ => noMessages_sendCell ..
    · exact mbxChangesOnly_of_messages rfl (.of_stale rfl) fun _ => noMessages_sendCell ..
    · exact mbxChangesOnly_of_messages rfl (.of_stale rfl) fun _ => noMessages_sendCell ..
    · exact mbxChangesOnly_of_messages rfl (refusesOnly_cellGroupCommit m r) fun u =>
        foldl_keeps_eq (fun s => (noMessages (mbxRest m s), s.ram)) (fun _ _ => noMessages_sendCell ..) _ u
    · exact mbxChangesOnly_of_messages rfl (.of_stale rfl) fun _ => noMessages_sendCell ..
    · exact mbxChangesOnly_of_messages rfl (.of_stale rfl) fun _ => noMessages_sendCell ..
  · exact mbxChangesOnly_of_erase (fun s => noDeferred (noMessages s)) rfl (.of_stale rfl)
      ⟨fun _ => rfl, fun _ _ _ _ => rfl⟩ (fun _ _ => rfl)
      fun _ => congrArg (Prod.map noDeferred id) (noMessages_sendCell ..)
  · exact mbxChangesOnly_of_erase noLoad rfl (.of_stale rfl) ⟨fun _ => rfl, fun _ _ _ _ => rfl⟩ (fun _ _ => rfl)
      fun _ => loadRest_jobBegin_of_cell m _ rfl
  · simp only [List.forall_mem_cons, List.not_mem_nil, false_imp_iff, implies_true, and_true]
    have ev15 {d : CmdDef} {op : Nat} (h : d.refused = ev15 op) : RefusesOnly d m r :=
      ⟨fun _ _ => by rw [h]; rfl, fun _ _ => by rw [h]; rfl⟩
    exact ⟨mbxChangesOnly_of_update rfl (ev15 rfl) ⟨fun _ => rfl, fun _ _ _ _ => rfl⟩ (fun _ => rfl) fun _ => rfl,
      mbxChangesOnly_of_update rfl (ev15 rfl) ⟨fun _ => rfl, fun _ _ _ _ => rfl⟩ (fun _ => rfl) fun _ => rfl⟩
  · simp only [List.forall_mem_cons, List.not_mem_nil, false_imp_iff, implies_true, and_true]
    refine ⟨?_, ?_, ?_⟩
    · exact mbxChangesOnly_of_erase noCombs rfl (.of_id rfl) ⟨fun _ => rfl, fun _ _ _ _ => rfl⟩ (fun _ _ => rfl)
        (noCombs_combStage m r)
    · exact mbxChangesOnly_of_erase noCombs rfl ⟨fun _ _ => mbxRest_bulkRefused .., fun _ _ => bulkRefused_ram ..⟩
        ⟨fun _ => rfl, fun _ _ _ _ => rfl⟩ (fun _ _ => rfl) (noCombs_combStageBulk m r)
    · exact mbxChangesOnly_of_update rfl (.of_id rfl) ⟨fun _ => rfl, fun _ _ _ _ => rfl⟩ (fun _ => rfl) fun _ => rfl
  · exact mbxChangesOnly_of_update rfl (.of_id rfl) ⟨fun _ => rfl, fun _ _ _ _ => rfl⟩
      (fun _ => mbxTaken_clearSparks ..) fun _ => rfl
  · exact mbxChangesOnly_of_erase (fun s => noRates (noDeferred s)) rfl (.of_id rfl)
      ⟨fun _ => rfl, fun _ _ _ _ => rfl⟩ (fun _ _ => rfl) (domainSet_rest m r)
  · simp only [List.forall_mem_cons, List.not_mem_nil, false_imp_iff, implies_true, and_true]
    exact ⟨mbxChangesOnly_of_update rfl (.of_id rfl) ⟨fun _ => rfl, fun _ _ _ _ => rfl⟩ (fun _ => rfl) fun _ => rfl,
     mbxChangesOnly_of_update rfl (.of_id rfl) ⟨fun _ => rfl, fun _ _ _ _ => rfl⟩ (fun _ => rfl) fun _ => rfl⟩

end Sys2Proof.Machine
end

section
/-! The frames of the commands of the Bellows, the Stove, the ports, the Hivewire and the Damper (chapters 07 to 11). -/

namespace Sys2Proof.Machine

/-! ### Fields that a frame leaves open -/

/-- The state without the port sides. -/
def noPorts (s : State) : State := { s with rx := .replicate 8 {}, tx := .replicate 8 {} }

/-- The state without the staged changes. -/
def noStaged (s : State) : State := { s with ianik := { s.ianik with staged := [] } }

/-- The state without the alignment groups. -/
def noGroups (s : State) : State := { s with grps := .replicate 4 {} }

/-- The state without the Forager's rings. -/
def noRings (s : State) : State := { s with p0 := { s.p0 with rings := .replicate 16 {} } }

/-- The state without the chains. -/
def noChains (s : State) : State := { s with hw := .replicate 2 {} }

/-- The state without the completions that wait. -/
def noWaiting (s : State) : State := { s with evt := { s.evt with waiting := [] } }

/-- The state without the selection of the Stoker: its state, its references and its target (R250, R258, R259). -/
def noSelection (s : State) : State :=
  { s with stove := { s.stove with
      st := .freeRun, sel := none, tgt := none, inEmber := false, holding := false, refs := .replicate 13 {},
      switchPends := false } }

/-- The state without what a DMPR_CLEAR changes (R387). -/
def noLatches (s : State) : State :=
  { s with
    bel := { s.bel with ch := .replicate 32 {} }
    hw := .replicate 2 {}
    dmpr := { s.dmpr with ch := .replicate 32 {}, line := .replicate 2 {}, killCnt := 0, ev := 0, issued := false } }

/-! ### Ports -/

theorem noPorts_modSide (m : Fin 4) (p : Fin 8) (d : Side) (f : PortSide → PortSide) (s : State) :
    (noPorts (mbxRest m (modSide p d f s)), (modSide p d f s).ram) = (noPorts (mbxRest m s), s.ram) := by
  cases d <;> rfl

/-- The cut of a side withdraws staged changes and drops events (R56, R57). -/
theorem noStaged_sideCut (m : Fin 4) (p : Fin 8) (d : Side) (s : State) :
    (noStaged (mbxRest m (sideCut p d s)), (sideCut p d s).ram) = (noStaged (mbxRest m s), s.ram) := by
  unfold sideCut dropEvts unstage mbxRest noStaged
  rfl

theorem portConfig_rest (m : Fin 4) (r : Req) (u : State) :
    (noStaged (noPorts (mbxRest m (portConfigDef.act m r u).1)), (portConfigDef.act m r u).1.ram) =
      (noStaged (noPorts (mbxRest m u)), u.ram) :=
  foldl_keeps_eq (fun s => (noStaged (noPorts (mbxRest m s)), s.ram))
    (fun s d => (congrArg (Prod.map noStaged id) (noPorts_modSide ..)).trans
      (congrArg (Prod.map noPorts id) (noStaged_sideCut m (tgtPort r) d s))) _ u

theorem noStaged_stage (m : Fin 4) (k : Nat) (t : BitVec 16) (e : Nat) (c : Change) (s : State) :
    (noStaged (noRings (mbxRest m (stage k t e c s))), (stage k t e c s).ram) = (noStaged (noRings (mbxRest m s)), s.ram) :=
  rfl

/-- The rings of a group are armed and their starts staged (R456). -/
theorem noStaged_armGroup (m : Fin 4) (k : Nat) (t : BitVec 16) (g : Fin 4) (e : Nat) (s : State) :
    (noStaged (noRings (mbxRest m (armGroup k t g e s))), (armGroup k t g e s).ram) =
      (noStaged (noRings (mbxRest m s)), s.ram) := by
  refine foldl_keeps_eq (fun s => (noStaged (noRings (mbxRest m s)), s.ram)) (fun s x => ?_) _ s
  dsimp only
  split <;> rfl

theorem noStaged_stages {α : Type} (m : Fin 4) (k : Nat) (t : BitVec 16) (e : Nat) (c : α → Change) (l : List α)
    (s : State) :
    (noStaged (noRings (mbxRest m (l.foldl (fun s x => stage k t e (c x) s) s))),
      (l.foldl (fun s x => stage k t e (c x) s) s).ram) = (noStaged (noRings (mbxRest m s)), s.ram) :=
  foldl_keeps_eq (fun s => (noStaged (noRings (mbxRest m s)), s.ram)) (fun _ _ => noStaged_stage ..) l s

theorem portEnable_rest (m : Fin 4) (r : Req) (u : State) :
    (noStaged (noRings (mbxRest m (portEnableDef.act m r u).1)), (portEnableDef.act m r u).1.ram) =
      (noStaged (noRings (mbxRest m u)), u.ram) := by
  simp only [portEnableDef]
  split
  · have hstages := noStaged_stages m m r.tag (useE (arg64 r 4) u) (fun x => .groupPart x.1 x.2)
      (membersOf (ixN 4 (by decide) (argF r 3 4 2)) u) u
    refine (noStaged_stage ..).trans ?_
    split
    · exact (noStaged_armGroup ..).trans hstages
    · exact hstages
  · exact noStaged_stages ..

theorem portGroupSet_rest (m : Fin 4) (r : Req) (u : State) :
    (noGroups (noPorts (mbxRest m (portGroupSetDef.act m r u).1)), (portGroupSetDef.act m r u).1.ram) =
      (noGroups (noPorts (mbxRest m u)), u.ram) :=
  congrArg (Prod.map noGroups id)
    (foldl_keeps_eq (fun s => (noPorts (mbxRest m s), s.ram)) (fun _ _ => noPorts_modSide ..) (tgtSides r) u)

theorem portClear_rest (m : Fin 4) (r : Req) (u : State) :
    (noPorts (mbxRest m (portClearDef.act m r u).1), (portClearDef.act m r u).1.ram) = (noPorts (mbxRest m u), u.ram) :=
  foldl_keeps_eq (fun s => (noPorts (mbxRest m s), s.ram)) (fun _ _ => noPorts_modSide ..) _ u

/-! ### The selection of the Stoker -/

/-- What neither taking a command nor a change of the selected reference reaches, with the mailbox RAM. -/
def selRest (m : Fin 4) (s : State) : State × Mem := (noSelection (noGroups (noPorts (mbxRest m s))), s.ram)

section
variable (m : Fin 4) (p : Fin 8) (d : Side) (s : State)

@[simp] theorem selRest_modSide (f : PortSide → PortSide) : selRest m (modSide p d f s) = selRest m s :=
  congrArg (Prod.map (fun s => noSelection (noGroups s)) id) (noPorts_modSide m p d f s)

@[simp] theorem selRest_portFlag (b : Nat) : selRest m (portFlag p d b s) = selRest m s := by
  unfold portFlag
  dsimp only
  split
  · exact selRest_modSide ..
  · exact selRest_modSide ..

@[simp] theorem selRest_writeTail (n : Nat) : selRest m (writeTail p n s) = selRest m s := by
  unfold writeTail
  split
  · split
    · exact selRest_modSide ..
    · rfl
  · rfl

@[simp] theorem selRest_startTail (n : Nat) : selRest m (startTail p d n s) = selRest m s := by
  unfold startTail
  split
  · rfl
  · cases d
    · exact (selRest_writeTail ..).trans (selRest_modSide ..)
    · exact selRest_modSide ..

@[simp] theorem selRest_alignAlone : selRest m (alignAlone p d s) = selRest m s := by
  unfold alignAlone
  dsimp only
  split
  · exact selRest_modSide ..
  · exact selRest_modSide ..

@[simp] theorem selRest_rejoin : selRest m (rejoin p d s) = selRest m s := by
  unfold rejoin
  dsimp only
  split
  · simp only [apply_ite (selRest m), selRest_modSide, selRest_portFlag, selRest_alignAlone, ite_self]
  · exact selRest_alignAlone ..

@[simp] theorem selRest_restartSide (b : Bool) (n : Nat) : selRest m (restartSide p d b n s) = selRest m s := by
  simp only [restartSide, apply_ite (selRest m), selRest_modSide, selRest_rejoin, selRest_startTail, ite_self]

@[simp] theorem selRest_portsNotify : selRest m (portsNotify s) = selRest m s := by
  unfold portsNotify
  refine foldl_keeps_eq (selRest m) (fun s x => ?_) _ s
  simp only [apply_ite (selRest m), selRest_restartSide, ite_self]

@[simp] theorem selRest_toFreeRun : selRest m (toFreeRun s) = selRest m s := selRest_portsNotify ..

/-- The listing and the ranks change the selection alone (R250, R258, R259, R268). -/
theorem selRest_selectByList : selRest m (selectByList s) = selRest m s := by
  have hpend (s : State) : selRest m (pendSwitch s) = selRest m s := rfl
  unfold selectByList
  refine Eq.trans ?_ (show selRest m (wtrStop s) = selRest m s from rfl)
  dsimp only
  split
  · split <;> rfl
  · split
    · exact selRest_toFreeRun ..
    · split
      · simp only [apply_ite (selRest m), hpend, ite_self]
      · rfl
  · simp only [apply_ite (selRest m), selRest_toFreeRun, hpend, ite_self]
  · rfl

end

/-! ### Deferred work on the chains -/

theorem hwSlotMap_rest (m : Fin 4) (r : Req) (u : State) :
    (noStaged (noDeferred (noChains (mbxRest m (hwSlotMapDef.act m r u).1))), (hwSlotMapDef.act m r u).1.ram) =
      (noStaged (noDeferred (noChains (mbxRest m u))), u.ram) := by
  simp only [hwSlotMapDef]
  unfold noStaged noDeferred noChains mbxRest
  split <;> rfl

theorem noWaiting_complete (m : Fin 4) (op k : Nat) (tag : BitVec 16) (st : Byte) (ws : List Word) (s : State) :
    (noWaiting (mbxRest m (complete op k tag st ws s)), (complete op k tag st ws s).ram) =
      (noWaiting (mbxRest m s), s.ram) := by
  unfold complete
  split <;> rfl

theorem hwPartnerSet_rest (m : Fin 4) (r : Req) (u : State) :
    (noDeferred (noChains (noWaiting (mbxRest m (hwPartnerSetDef.act m r u).1))), (hwPartnerSetDef.act m r u).1.ram) =
      (noDeferred (noChains (noWaiting (mbxRest m u))), u.ram) := by
  simp only [hwPartnerSetDef]
  split
  · exact congrArg (Prod.map (fun s => noDeferred (noChains s)) id) (noWaiting_complete ..)
  · rfl

/-! ### The Damper -/

/-- What the Damper sends reaches the Bellows' channels (R376). -/
theorem noLatches_dmprCopies (m : Fin 4) (s : State) :
    (noLatches (mbxRest m (dmprCopies s)), (dmprCopies s).ram) = (noLatches (mbxRest m s), s.ram) := by
  unfold dmprCopies noLatches mbxRest
  split <;> rfl

theorem noLatches_dmprMove (m : Fin 4) (f : Damper → Damper)
    (hf : ∀ s, (noLatches (mbxRest m (modDmpr (fun d => dmprSend (f d)) s)),
      (modDmpr (fun d => dmprSend (f d)) s).ram) = (noLatches (mbxRest m s), s.ram)) (s : State) :
    (noLatches (mbxRest m (dmprMove f s)), (dmprMove f s).ram) = (noLatches (mbxRest m s), s.ram) :=
  (noLatches_dmprCopies ..).trans (hf s)

theorem noLatches_clearLine (m : Fin 4) (x : Fin 2) (s : State) :
    (noLatches (mbxRest m (clearLine x s)), (clearLine x s).ram) = (noLatches (mbxRest m s), s.ram) := by
  unfold clearLine
  dsimp only
  split <;> rfl

theorem dmprClear_rest (m : Fin 4) (r : Req) (u : State) :
    (noLatches (mbxRest m (dmprClearDef.act m r u).1), (dmprClearDef.act m r u).1.ram) =
      (noLatches (mbxRest m u), u.ram) := by
  have hline (b : Bool) (x : Fin 2) (s : State) :
      (noLatches (mbxRest m (if b then clearLine x s else s)), (if b then clearLine x s else s).ram) =
        (noLatches (mbxRest m s), s.ram) := by
    cases b
    · rfl
    · exact noLatches_clearLine ..
  simp only [dmprClearDef]
  refine (noLatches_dmprMove m _ (fun s => ?_) _).trans ((hline ..).trans ((hline ..).trans ?_))
  · unfold modDmpr dmprSend noLatches mbxRest
    dsimp only
    split <;> rfl
  · unfold modDmpr noLatches mbxRest
    split <;> rfl

theorem mbxTaken_modDmpr (m : Fin 4) (f : Damper → Damper) (s : State) : mbxTaken m s (modDmpr f s) = mbxTaken m s s := rfl

/-! ### The frames -/

/-- A command that only stages its change. -/
theorem mbxChangesOnly_of_staged {c : Instr} {d : CmdDef} {m : Fin 4} {r : Req} (hi : mailboxOf c = some (d, m, r))
    (hr : RefusesOnly d m r) (htaken : ∀ u, mbxTaken m u (d.act m r u).1 = mbxTaken m u u)
    (hact : ∀ u, { u with ianik := { u.ianik with staged := (d.act m r u).1.ianik.staged } } = (d.act m r u).1) :
    MbxChangesOnly c m (fun _ => False) (fun u t => { u with ianik := { u.ianik with staged := t.ianik.staged } }) :=
  mbxChangesOnly_of_update hi hr ⟨fun _ => rfl, fun _ _ _ _ => rfl⟩ htaken hact

/-- Settles O56: each act is taken for the fields it writes. -/
theorem unitCommandFrames : Obligations.UnitCommandFrames := by
  intro m r
  refine ⟨?_, ?_, ?_, ?_, ?_, ?_, ?_, ?_, ?_, ?_, ?_, ?_, ?_, ?_, ?_, ?_, ?_, ?_⟩
  · simp only [List.forall_mem_cons, List.not_mem_nil, false_imp_iff, implies_true, and_true]
    refine ⟨?_, ?_, ?_, ?_, ?_, ?_, ?_, ?_⟩
    · exact mbxChangesOnly_of_staged rfl (.of_id rfl) (fun _ => rfl) fun _ => rfl
    · exact mbxChangesOnly_of_staged rfl (.of_id rfl) (fun _ => rfl) fun _ => rfl
    · exact mbxChangesOnly_of_staged rfl (.of_id rfl) (fun _ => rfl) fun _ => rfl
    · exact mbxChangesOnly_of_staged rfl (.of_id rfl) (fun _ => rfl) fun _ => rfl
    · exact mbxChangesOnly_of_staged rfl (.of_id rfl) (fun _ => rfl) fun _ => rfl
    · exact mbxChangesOnly_of_staged rfl (.of_id rfl) (fun _ => rfl) fun _ => rfl
    · exact mbxChangesOnly_of_staged rfl (.of_id rfl) (fun _ => rfl) fun _ => rfl
    · exact mbxChangesOnly_of_staged rfl (.of_id rfl) (fun _ => rfl) fun _ => rfl
  · exact mbxChangesOnly_of_update rfl (.of_id rfl) ⟨fun _ => rfl, fun _ _ _ _ => rfl⟩ (fun _ => rfl) fun _ => rfl
  · exact mbxChangesOnly_of_erase (fun s => noSelection (noGroups (noPorts s))) rfl (.of_id rfl)
      ⟨fun _ => rfl, fun _ _ _ _ => rfl⟩ (fun _ _ => rfl) fun _ => (selRest_selectByList ..).trans rfl
  · exact mbxChangesOnly_of_update rfl (.of_id rfl) ⟨fun _ => rfl, fun _ _ _ _ => rfl⟩ (fun _ => rfl) fun _ => rfl
  · refine mbxChangesOnly_of_update rfl (.of_id rfl) ⟨fun _ => rfl, fun _ _ _ _ => rfl⟩ (fun u => ?_) fun u => ?_
    · simp only [stkrSelectDef]
      split
      · rfl
      · split <;> rfl
    · simp only [stkrSelectDef]
      split
      · rfl
      · split <;> rfl
  · refine mbxChangesOnly_of_update rfl (.of_id rfl) ⟨fun _ => rfl, fun _ _ _ _ => rfl⟩ (fun u => ?_) fun u => ?_
    · simp only [stkrSwConfigDef]
      split <;> rfl
    · simp only [stkrSwConfigDef]
      split <;> rfl
  · exact mbxChangesOnly_of_erase (fun s => noStaged (noPorts s)) rfl (.of_id rfl) ⟨fun _ => rfl, fun _ _ _ _ => rfl⟩
      (fun _ _ => rfl) (portConfig_rest m r)
  · exact mbxChangesOnly_of_erase (fun s => noStaged (noRings s)) rfl (.of_id rfl) ⟨fun _ => rfl, fun _ _ _ _ => rfl⟩
      (fun _ _ => rfl) (portEnable_rest m r)
  · exact mbxChangesOnly_of_erase (fun s => noGroups (noPorts s)) rfl (.of_id rfl) ⟨fun _ => rfl, fun _ _ _ _ => rfl⟩
      (fun _ _ => rfl) (portGroupSet_rest m r)
  · exact mbxChangesOnly_of_erase noPorts rfl (.of_id rfl) ⟨fun _ => rfl, fun _ _ _ _ => rfl⟩ (fun _ _ => rfl)
      (portClear_rest m r)
  · simp only [List.forall_mem_cons, List.not_mem_nil, false_imp_iff, implies_true, and_true]
    exact ⟨mbxChangesOnly_of_update rfl (.of_id rfl) ⟨fun _ => rfl, fun _ _ _ _ => rfl⟩ (fun _ => rfl) fun _ => rfl,
      mbxChangesOnly_of_update rfl (.of_id rfl) ⟨fun _ => rfl, fun _ _ _ _ => rfl⟩ (fun _ => rfl) fun _ => rfl⟩
  · simp only [List.forall_mem_cons, List.not_mem_nil, false_imp_iff, implies_true, and_true]
    exact ⟨mbxChangesOnly_of_update rfl (.of_id rfl) ⟨fun _ => rfl, fun _ _ _ _ => rfl⟩ (fun _ => rfl) fun _ => rfl,
      mbxChangesOnly_of_update rfl (.of_id rfl) ⟨fun _ => rfl, fun _ _ _ _ => rfl⟩ (fun _ => rfl) fun _ => rfl⟩
  · exact mbxChangesOnly_of_erase (fun s => noStaged (noDeferred (noChains s))) rfl (.of_id rfl)
      ⟨fun _ => rfl, fun _ _ _ _ => rfl⟩ (fun _ _ => rfl) (hwSlotMap_rest m r)
  · exact mbxChangesOnly_of_erase (fun s => noDeferred (noChains (noWaiting s))) rfl (.of_id rfl)
      ⟨fun _ => rfl, fun _ _ _ _ => rfl⟩ (fun _ _ => rfl) (hwPartnerSet_rest m r)
  · simp only [List.forall_mem_cons, List.not_mem_nil, false_imp_iff, implies_true, and_true]
    exact ⟨mbxChangesOnly_of_update rfl (.of_id rfl) ⟨fun _ => rfl, fun _ _ _ _ => rfl⟩ (fun _ => rfl) fun _ => rfl,
      mbxChangesOnly_of_update rfl (.of_id rfl) ⟨fun _ => rfl, fun _ _ _ _ => rfl⟩ (fun _ => rfl) fun _ => rfl⟩
  · exact mbxChangesOnly_of_update rfl (.of_id rfl) ⟨fun _ => rfl, fun _ _ _ _ => rfl⟩ (fun _ => mbxTaken_modDmpr ..)
      fun _ => by unfold dmprOutConfigDef modDmpr; rfl
  · exact mbxChangesOnly_of_update rfl (.of_id rfl) ⟨fun _ => rfl, fun _ _ _ _ => rfl⟩ (fun _ => mbxTaken_modDmpr ..)
      fun _ => by unfold dmprLineConfigDef modDmpr; rfl
  · exact mbxChangesOnly_of_erase noLatches rfl (.of_id rfl) ⟨fun _ => rfl, fun _ _ _ _ => rfl⟩ (fun _ _ => rfl)
      (dmprClear_rest m r)

end Sys2Proof.Machine
end

section
/-! A reply that reaches the other chain: MBX2 serves one partner (R484), so a partner set on chain A withdraws the TUNNEL
requests that wait on chain B. -/

namespace Sys2Proof.Machine

/-- A good reply ends its request, and acts (R335). -/
theorem execControlReplyReceived_good {x : Fin 2} {s : State} {q : Xact} {t src gen : Nat} {bs : List Byte}
    (hruns : hwRuns x s = true) (hout : s.hw[x].out = some (q, t)) (hmsg : replyMsg s.hw[x] = some (src, gen, bs))
    (hlate : t < s.stove.frame) (hfits : replyFits s.hw[x] q src gen bs = true) :
    execControlReplyReceived x s = .next (replyActs x q bs
      (modHw x (fun c => { c with out := none }) (modHw x (fun c => { c with frags := .replicate 4 none }) s))) := by
  simp only [execControlReplyReceived, hruns, hout, hmsg, hfits, Bool.not_true, Bool.false_eq_true, if_false, and_true]
  exact if_pos hlate

/-- The PHASE_REPORT request that makes node 1 of chain A the partner, outstanding since M frame 0 (R351, R360). -/
def partnerXact : Xact := ⟨1, 0, 0x0D, [1, 0], 1, 0, .partner 0 0 1 0⟩

/-- The bytes of its good reply before their CRC-16 (R334, R335). -/
def partnerReplyBytes : List Byte := [0x8D, 0x10] ++ List.replicate 12 0

/-- A quarter of that reply, behind the byte of its source and generation (R317). -/
def partnerReplyQuarter (q : Nat) : Option (List Byte) :=
  let crc := crc16 partnerReplyBytes
  some (0x10 :: ((partnerReplyBytes ++ [byteOf crc, byteOf (crc / 256)]).drop (4 * q)).take 4)

/-- STANDBY with the reply received on chain A while a TUNNEL request to the partner of chain B waits. -/
def partnerReplied : State :=
  { State.reset with
    pow := { State.reset.pow with st := .standby, seqHw := .replicate 2 true }
    stove := { State.reset.stove with frame := 1 }
    hw := #v[
      { st := 2, out := some (partnerXact, 0),
        frags := #v[partnerReplyQuarter 0, partnerReplyQuarter 1, partnerReplyQuarter 2, partnerReplyQuarter 3] },
      { st := 2, partner := 1, queue := [⟨1, 0, 0x0A, [], 0, 0, .tunnel⟩] }] }

/-- The reply takes the request that waits on chain B out of its queue. -/
theorem exec_partnerReplied :
    ∃ t, exec (.controlReplyReceived 0) partnerReplied = .next t ∧ t.hw[(1 : Fin 2)].queue = [] := by
  have hmsg : replyMsg partnerReplied.hw[(0 : Fin 2)] =
      some (1, 0, partnerReplyBytes ++ [byteOf (crc16 partnerReplyBytes), byteOf (crc16 partnerReplyBytes / 256)]) := by
    decide +kernel
  have hexec := execControlReplyReceived_good (x := 0) (s := partnerReplied) (q := partnerXact) (t := 0) (by decide +kernel)
    (by decide +kernel) hmsg (by decide +kernel) (by decide +kernel)
  exact ⟨_, hexec, by decide +kernel⟩

/-- Refutes O59: the reply to a HW_PARTNER_SET on chain A changes the queue of chain B. -/
theorem not_otherUnitsStayAsTheyWere : ¬ Obligations.OtherUnitsStayAsTheyWere := by
  intro h
  obtain ⟨-, -, -, -, -, -, -, hchain, -⟩ := h
  obtain ⟨t, ht, hqueue⟩ := exec_partnerReplied
  have hkept := hchain 0 ⟨0, [], 0⟩ 0 partnerReplied t (.controlReplyReceived 0) (by simp) ht 1 (by decide)
  exact absurd (hqueue.symm.trans (congrArg Chain.queue hkept)) (by decide)

end Sys2Proof.Machine
end

section
/-! Power, wake and boundary scan (R25 to R28, R589, R598, R599). -/

namespace Sys2Proof.Machine

/-! ### Boundary scan -/

theorem hearthOn_of_ne_off {s : State} (h : s.pow.st ≠ .off) : hearthOn s = true := by
  simp [hearthOn, h]

theorem tapUpdate_on {s : State} (i : TapInstr) (h : s.pow.st ≠ .off) :
    tapUpdate i s = scanHold (actsAs i s) { s with scan := { s.scan with ir := actsAs i s } } := by
  simp only [tapUpdate, hearthOn_of_ne_off h, if_true]

/-- An instruction that holds no reset, with none in force, takes the instruction register alone (R598). -/
theorem tapUpdate_plain {s : State} {i : TapInstr} (h : s.pow.st ≠ .off) (hin : s.scan.inForce = false)
    (hi : holdsReset (actsAs i s) = false) : tapUpdate i s = { s with scan := { s.scan with ir := actsAs i s } } := by
  rw [tapUpdate_on i h, scanHold, hi]
  simp [hin]

theorem lcFielded_eq_false {s : State} (h : s.pow.lc = .blank ∨ s.pow.lc = .develop) : lcFielded s = false := by
  obtain h | h := h <;> simp [lcFielded, h]

theorem lcFielded_eq_true {s : State} (h : s.pow.lc = .production ∨ s.pow.lc = .returned) : lcFielded s = true := by
  obtain h | h := h <;> simp [lcFielded, h]

/-- In BLANK and DEVELOP, and in an open presence window, an instruction acts as itself (R599). -/
theorem actsAs_of_open (i : TapInstr) {s : State}
    (h : s.pow.lc = .blank ∨ s.pow.lc = .develop ∨ s.keeper.isOpen = true) : actsAs i s = i := by
  have hacts : (holdsReset i && lcFielded s && !s.keeper.isOpen) = false := by
    obtain h | h | h := h
    · simp [lcFielded_eq_false (.inl h)]
    · simp [lcFielded_eq_false (.inr h)]
    · simp [h]
  simp [actsAs, hacts]

/-- In PRODUCTION and RETURNED without an open window, one that holds the reset acts as BYPASS (R599). -/
theorem actsAs_of_fielded {i : TapInstr} {s : State} (hlc : s.pow.lc = .production ∨ s.pow.lc = .returned)
    (hopen : s.keeper.isOpen = false) (hi : holdsReset i = true) : actsAs i s = .bypass := by
  simp [actsAs, hi, lcFielded_eq_true hlc, hopen]

/-- An instruction that holds the reset resets the system (R599). -/
theorem tapUpdate_holds {s : State} {i : TapInstr} (h : s.pow.st ≠ .off) (hacts : actsAs i s = i)
    (hi : holdsReset i = true) :
    tapUpdate i s = systemReset { s with scan := { s.scan with ir := i, inForce := true } } := by
  rw [tapUpdate_on i h, hacts, scanHold, hi]
  rfl

/-- A code of no other instruction is BYPASS (R598). -/
theorem tapOf_eq_bypass {code : BitVec 4} (h0 : code ≠ 0) (h1 : code ≠ 1) (h2 : code ≠ 2) (h4 : code ≠ 4)
    (h5 : code ≠ 5) : tapOf code = .bypass := by
  revert code
  decide

/-- Settles O38: the instruction register takes the instruction as it acts, and what it holds follows. -/
theorem boundaryScanCompletes : Obligations.BoundaryScanCompletes := by
  refine ⟨fun s hon hin => ?_, fun code s hon hin h0 h1 h2 h4 h5 => ?_, fun s hon hopen => ?_,
    fun s hon hlc hopen hin bs => ?_⟩
  · have hidcode : tapUpdate .idcode s = { s with scan := { s.scan with ir := .idcode } } :=
      tapUpdate_plain hon hin rfl
    refine ⟨congrArg _ hidcode, congrArg _ hidcode, congrArg _ hidcode, fun bs ps => congrArg Host.Outcome.next ?_⟩
    rw [show tapUpdate .samplePreload s = { s with scan := { s.scan with ir := .samplePreload } } from
      tapUpdate_plain hon hin rfl]
    simp only [loadBoundary, hearthOn, bne_iff_ne, ne_eq, hon, not_false_eq_true, if_true]
  · refine congrArg Host.Outcome.next ?_
    rw [tapOf_eq_bypass h0 h1 h2 h4 h5]
    exact tapUpdate_plain hon hin rfl
  · refine ⟨congrArg _ (tapUpdate_holds hon (actsAs_of_open _ hopen) rfl),
      congrArg _ (tapUpdate_holds hon (actsAs_of_open _ hopen) rfl), fun bs => ?_⟩
    change execExtest bs s = _
    simp only [execExtest, tapUpdate_holds (i := .extest) hon (actsAs_of_open _ hopen) rfl]
    rfl
  · have hbypass {i : TapInstr} (hi : holdsReset i = true) :
        tapUpdate i s = { s with scan := { s.scan with ir := .bypass } } := by
      have hacts := actsAs_of_fielded hlc hopen hi
      rw [tapUpdate_plain hon hin (by rw [hacts]; rfl), hacts]
    refine ⟨congrArg _ (hbypass rfl), congrArg _ (hbypass rfl), ?_⟩
    change execExtest bs s = _
    simp only [execExtest, hbypass (i := .extest) rfl]
    rfl

/-! ### Supplies, reset and wake -/

theorem wakeNow_step (s : State) : (wakeNow s).boot.step = 1 := by
  unfold wakeNow
  dsimp only
  split <;> rfl

/-- Where nothing but WAKE keeps the device in HEARTH, a wake that stands starts power-up (R26, R28). -/
theorem tryWake_of_open {s : State} (hopen : wakeOpen s = true) (hwake : s.pow.wakePin = true ∨ s.pow.wakeHeld = true) :
    tryWake s = wakeNow s := by
  obtain h | h := hwake <;> simp [tryWake, hopen, h]

theorem wakeNow_st (s : State) : (wakeNow s).pow.st = .powerUp := by rw [wakeNow_pow]

/-- A loss of VDD_CORE where the device is on and not on its way to HEARTH (R26). -/
theorem coreLoss_on {s : State} (hoff : s.pow.st ≠ .off) (hway : s.pow.st ≠ .standbyToHearth) :
    coreLoss s = systemReset (logFault 0x05 (BitVec.ofNat 16 (powCode s.pow.st))
      { setRail .vddCore false s with flt := { s.flt with supply := true } }) := by
  cases h : s.pow.st with
  | off => exact absurd h hoff
  | standbyToHearth => exact absurd h hway
  | _ => simp only [coreLoss, setRail, h]

/-- Settles O35: each event writes the record of the power state, and what it starts follows from that. -/
theorem powerEventsComplete : Obligations.PowerEventsComplete := by
  refine ⟨fun low s hoff => ?_, fun s => ⟨_, rfl, rfl, rfl⟩, fun sel stays s hst hrstN hrails hscan => ?_,
    fun s hst hpin hrails hscan => ?_, fun r s hst hpin hrstN hscan hrails => ?_, fun s hon => ?_,
    fun s hon hway => ?_, fun s => ⟨rfl, rfl, rfl, rfl, rfl, rfl⟩⟩
  · have hoff' : hearthOn s = false := by simp [hearthOn, hoff]
    have hexec : exec (.vddHearthRise true low) s = .next (raiseIf s.keeper.isOpen 7 3
        { setRail .vddHearth true s with
          pow := { (setRail .vddHearth true s).pow with st := .hearth }, keeper := { pin := low } }) := by
      change execVddHearthRise true low s = _
      simp only [execVddHearthRise, hoff', Bool.false_eq_true, if_false, Bool.not_true]
      rfl
    refine ⟨_, hexec, ?_⟩
    rw [raiseIf_frame]
    exact ⟨rfl, rfl⟩
  · refine ⟨_, execWakeRequest_hearth ⟨sel, stays⟩ hst hrstN hrails hscan, ?_, wakeNow_step _⟩
    rw [wakeNow_pow]
    rfl
  · refine ⟨_, congrArg Host.Outcome.next (tryWake_of_open
      (s := { s with pow := { s.pow with rstN := true } }) (wakeOpen_of_hearth hst rfl hrails hscan) (.inl hpin)),
      wakeNow_st _, wakeNow_step _⟩
  · have hall (i : Fin 6) : (setRail r true s).pow.rails[i] = true := by
      change (s.pow.rails.set (railIx r) true)[i] = true
      by_cases hi : i = railIx r
      · rw [hi]
        exact Vector.getElem_set_self ..
      · have hne : (railIx r).val ≠ i.val := fun h => hi (Fin.ext h.symm)
        exact (Vector.getElem_set_ne _ _ hne).trans ((hrails i).resolve_left hi)
    exact ⟨_, congrArg Host.Outcome.next (tryWake_of_open (s := setRail r true s)
      (wakeOpen_of_hearth hst hrstN hall hscan) (.inl hpin)), wakeNow_st _, wakeNow_step _⟩
  · have hrst (t : State) (h : t.pow.st = s.pow.st) : rstLow t = systemReset { t with pow := { t.pow with rstN := false } } := by
      unfold rstLow
      exact if_pos (by simp [hearthOn, h, hon])
    exact ⟨congrArg _ (hrst s rfl), congrArg _ (hrst (setRail .vddioA false s) rfl)⟩
  · exact ⟨_, congrArg Host.Outcome.next (coreLoss_on hon hway), rfl, rfl, rfl, rfl⟩

end Sys2Proof.Machine
end

section
/-! Tamper, the presence window, the thermal sensor, and the ends of the power state's transitions (R26, R417, R483, R487,
R488, R493, R498, R499, R553 to R557). -/

namespace Sys2Proof.Machine

/-! ### What shared operations leave unchanged -/

/-- A completion waits for its record, or is nobody's; nothing else changes (R478). -/
theorem complete_frame (op k : Nat) (tag : BitVec 16) (st : Byte) (ws : List Word) (s : State) :
    complete op k tag st ws s =
      { s with evt := { s.evt with waiting := (complete op k tag st ws s).evt.waiting } } := by
  unfold complete
  split <;> rfl

@[simp] theorem complete_pow (op k : Nat) (tag : BitVec 16) (st : Byte) (ws : List Word) (s : State) :
    (complete op k tag st ws s).pow = s.pow := by rw [complete_frame]

/-! ### Tamper -/

/-- What the wipe of the Vault leaves to others: cells, the memory care, the image work and the completions apart (R417,
R418). -/
def wipeRest (s : State) : State :=
  { s with
    evt := { s.evt with waiting := [] }, hive := { s.hive with cells := .replicate 32 {} }, care := {}
    boot := { s.boot with job := none, jobs := [] } }

section
variable (s : State)

theorem wipeRest_healWords (mk : Nat → WordAt) (l : List Nat) : wipeRest (healWords mk l s) = wipeRest s := by
  induction l generalizing s with
  | nil => rfl
  | cons a l ih => exact ih (healWord (mk a) s)

theorem wipeRest_modCell (c : Fin 32) (f : Cell → Cell) : wipeRest (modCell c f s) = wipeRest s := rfl

theorem wipeRest_clearProg (c : Fin 32) (b : Fin 2) : wipeRest (clearProg c b s) = wipeRest s := by
  rw [clearProg, wipeRest_modCell, wipeRest_healWords]

theorem wipeRest_clearCoef (c : Fin 32) (b : Fin 2) : wipeRest (clearCoef c b s) = wipeRest s := by
  rw [clearCoef, wipeRest_modCell, wipeRest_healWords]

theorem wipeRest_jobFails (st : Nat) (j : TuneJob) : wipeRest (jobFails st j s) = wipeRest s := by
  rw [jobFails, complete_frame]
  rfl

theorem wipeRest_jobEnds (st : Nat) : wipeRest (jobEnds st s) = wipeRest s := by
  unfold jobEnds
  split
  · exact wipeRest_jobFails ..
  · rfl

theorem wipeRest_jobClear : wipeRest (jobClear s) = wipeRest s := by
  unfold jobClear
  split
  · split
    · dsimp only
      split <;> split <;> simp only [wipeRest_clearCoef, wipeRest_clearProg]
    · split
      · exact foldl_keeps_eq wipeRest (fun _ _ => by simp only [wipeRest_clearCoef, wipeRest_clearProg]) _ s
      · rfl
  · rfl

theorem wipeRest_jobWiped : wipeRest (jobWiped s) = wipeRest s := by
  unfold jobWiped
  refine (foldl_keeps_eq wipeRest (fun _ _ => wipeRest_jobFails ..) _ _).trans ?_
  split
  · exact (wipeRest_jobEnds ..).trans ((wipeRest_jobClear _).trans rfl)
  · rfl

theorem wipeRest_wipeVault (k : Nat) : wipeRest (wipeVault k s) = wipeRest s :=
  wipeRest_jobWiped s

end

/-- Tamper or a glitch, recorded and logged, before the wipe (R555, R557). -/
def tamperLogged (cause : Nat) (s : State) : State :=
  logFault 0x08 (BitVec.ofNat 16 cause)
    { s with flt := if cause = 0 then { s.flt with tamper := true } else { s.flt with glitch := true } }

/-- The wipe that tamper or a glitch begins, with its event (R417, R550). -/
def tamperWiped (cause : Nat) (s : State) : State :=
  raise 59 (n2w cause 0) (wipeVault (if cause = 0 then 0 else 1) (tamperLogged cause s))

theorem declared_eq (cause : Nat) (s : State) : declared cause s = closePresence 2 (tamperWiped cause s) := rfl

/-- The end of a presence window closes it with EV7, and changes nothing else (R488, R550). -/
theorem closePresence_frame (k : Nat) (s : State) :
    closePresence k s = { s with
      keeper := { s.keeper with isOpen := false }, evt := (closePresence k s).evt } := by
  unfold closePresence
  cases h : s.keeper.isOpen with
  | true => rfl
  | false =>
    have hsame : { s.keeper with isOpen := false } = s.keeper := by rw [← h]
    simp only [Bool.false_eq_true, if_false, hsame]

theorem acc_closePresence_seven (k : Nat) (s : State) : (closePresence k s).evt.acc[7] =
    if s.keeper.isOpen then stick 65535 s.evt.acc[7] else s.evt.acc[7] := by
  unfold closePresence
  split
  · exact acc_raise_same 7 _ _
  · rfl

theorem acc_closePresence_of_ne (k : Nat) (s : State) {n : Fin 64} (h : 7 ≠ n.val) :
    (closePresence k s).evt.acc[n] = s.evt.acc[n] := by
  unfold closePresence
  split
  · exact acc_raise_of_ne _ _ h
  · rfl

/-- Tamper and glitches are recorded, logged and raised, the Vault is wiped, and no presence window stays open (R417,
R488). -/
theorem declared_effect (cause : Nat) (s : State) :
    (if cause = 0 then (declared cause s).flt.tamper = true else (declared cause s).flt.glitch = true) ∧
    (declared cause s).flt.log = (⟨0x08, s.pow.wakes, BitVec.ofNat 16 cause, logFrame s,
      Config.freeLong s.fresh⟩ :: s.flt.log).take 16 ∧
    (declared cause s).evt.acc[59] = stick 65535 s.evt.acc[59] ∧ (declared cause s).care.wiping = true ∧
    (declared cause s).keeper.isOpen = false ∧
    (declared cause s).evt.acc[7] = (if s.keeper.isOpen then stick 65535 s.evt.acc[7] else s.evt.acc[7]) := by
  have hrest := wipeRest_wipeVault (tamperLogged cause s) (if cause = 0 then 0 else 1)
  have hflt : (tamperWiped cause s).flt = (tamperLogged cause s).flt := by
    have h := congrArg State.flt hrest
    exact h
  have hkeeper : (tamperWiped cause s).keeper = s.keeper := by
    have h := congrArg State.keeper hrest
    exact h
  have hacc : (wipeVault (if cause = 0 then 0 else 1) (tamperLogged cause s)).evt.acc = s.evt.acc := by
    have h := congrArg (fun u => u.evt.acc) hrest
    exact h
  have h59 : (tamperWiped cause s).evt.acc[59] = stick 65535 s.evt.acc[59] := by
    rw [← hacc]
    exact acc_raise_same 59 ..
  have h7 : (tamperWiped cause s).evt.acc[7] = s.evt.acc[7] := by
    rw [← hacc]
    exact acc_raise_of_ne (k := 7) _ _ (by decide)
  rw [declared_eq]
  refine ⟨?_, ?_, (acc_closePresence_of_ne (n := 59) 2 _ (by decide)).trans h59, ?_, ?_, ?_⟩
  · rw [closePresence_frame]
    change if cause = 0 then (tamperWiped cause s).flt.tamper = true else (tamperWiped cause s).flt.glitch = true
    rw [hflt]
    by_cases h : cause = 0 <;> simp [h, tamperLogged, logFault, drawLong]
  · rw [closePresence_frame]
    change (tamperWiped cause s).flt.log = _
    rw [hflt]
    by_cases h : cause = 0 <;> simp [h, tamperLogged, logFault, drawLong, logFrame]
  · rw [closePresence_frame]
    rfl
  · rw [closePresence_frame]
  · rw [acc_closePresence_seven, hkeeper, h7]

/-- Settles O36: each event is its effect where the Hearth is powered. -/
theorem tamperAndPresenceEventsComplete : Obligations.TamperAndPresenceEventsComplete := by
  refine ⟨fun s hon k => ?_, fun s hon => ⟨?_, fun harmed => ?_, fun harmed => ?_, fun hopen => ?_⟩⟩
  · have hexec (n : Nat) : (if hearthOn s then declared n s else s) = declared n s := if_pos (hearthOn_of_ne_off hon)
    match k with
    | 0 =>
      obtain ⟨hbit, hlog, h59, hwipe, hopen, h7⟩ := declared_effect 0 s
      exact ⟨_, congrArg Host.Outcome.next (hexec 0), hbit, hlog, h59, fun _ => hwipe, hopen, h7⟩
    | 1 =>
      obtain ⟨hbit, hlog, h59, hwipe, hopen, h7⟩ := declared_effect 1 s
      exact ⟨_, congrArg Host.Outcome.next (hexec 1), hbit, hlog, h59, fun _ => hwipe, hopen, h7⟩
    | 2 =>
      obtain ⟨hbit, hlog, h59, hwipe, hopen, h7⟩ := declared_effect 2 s
      exact ⟨_, congrArg Host.Outcome.next (hexec 2), hbit, hlog, h59, fun _ => hwipe, hopen, h7⟩
  · exact congrArg Host.Outcome.next (if_pos (hearthOn_of_ne_off hon))
  · change execKeeperHold s = _
    simp only [execKeeperHold, hearthOn_of_ne_off hon, harmed, Bool.not_true, Bool.false_eq_true, if_false, if_true]
    rfl
  · change execKeeperHold s = _
    simp only [execKeeperHold, hearthOn_of_ne_off hon, harmed, Bool.not_true, Bool.false_eq_true, if_false]
  · change execPresenceWindowEnd s = _
    simp only [execPresenceWindowEnd, hearthOn_of_ne_off hon, if_true, closePresence, hopen]
    rfl

end Sys2Proof.Machine
end

section
/-! The thermal sensor (R553, R554) and the ends of the power state's transitions and of resets (R26, R483, R493, R498,
R499). -/

namespace Sys2Proof.Machine

/-! ### The thermal sensor -/

/-- EV58 comes with its fault bit and a log entry where the die is critical (R554, R555, R557). -/
theorem thermCrit_effect (tj : F32) (s : State) :
    let crit := tjAt 130 tj && !s.hearth.critHeld
    let t := thermCrit tj s
    t = { s with hearth := t.hearth, evt := t.evt, flt := t.flt, fresh := t.fresh } ∧
    t.hearth.tj = s.hearth.tj ∧ t.hearth.warnHeld = s.hearth.warnHeld ∧
    t.hearth.critHeld = (crit || (s.hearth.critHeld && !tjUnder 125 tj)) ∧
    t.hearth.runBarred = (crit || s.hearth.runBarred) ∧ t.evt.acc[57] = s.evt.acc[57] ∧
    t.evt.acc[58] = (if crit then stick 65535 s.evt.acc[58] else s.evt.acc[58]) ∧
    t.flt.therm = (s.flt.therm || crit) := by
  intro crit t
  have ht : t = thermCrit tj s := rfl
  unfold thermCrit at ht
  dsimp only at ht
  split at ht
  case isTrue h =>
    have hcrit : crit = true := h
    rw [ht, hcrit]
    exact ⟨rfl, rfl, rfl, congrArg (· || (s.hearth.critHeld && !tjUnder 125 tj)) hcrit, rfl, acc_raise_of_ne (k := 57) _ _ (by decide), acc_raise_same 58 .., (Bool.or_true _).symm⟩
  case isFalse h =>
    have hcrit : crit = false := Bool.eq_false_iff.mpr h
    rw [ht, hcrit]
    exact ⟨rfl, rfl, rfl, congrArg (· || (s.hearth.critHeld && !tjUnder 125 tj)) hcrit, rfl, rfl, rfl, (Bool.or_false _).symm⟩

theorem thermalConversion_effect (tj : F32) {s : State} (hon : s.pow.st ≠ .off) :
    let warn := tjAt 115 tj && !s.hearth.warnHeld
    let crit := tjAt 130 tj && !s.hearth.critHeld
    ∃ t, exec (.thermalConversion tj) s = .next t ∧
      t = { s with hearth := t.hearth, evt := t.evt, flt := t.flt, fresh := t.fresh } ∧
      t.hearth.tj = tj ∧
      t.hearth.warnHeld = (warn || (s.hearth.warnHeld && !tjUnder 110 tj)) ∧
      t.hearth.critHeld = (crit || (s.hearth.critHeld && !tjUnder 125 tj)) ∧
      t.hearth.runBarred = (crit || (s.hearth.runBarred && !tjUnder 110 tj)) ∧
      t.evt.acc[57] = (if warn then stick 65535 s.evt.acc[57] else s.evt.acc[57]) ∧
      t.evt.acc[58] = (if crit then stick 65535 s.evt.acc[58] else s.evt.acc[58]) ∧
      t.flt.therm = (s.flt.therm || crit) := by
  intro warn crit
  obtain ⟨u, hu⟩ : ∃ u, u = thermWarn tj { s with hearth := { s.hearth with
      tj := tj, runBarred := s.hearth.runBarred && !tjUnder 110 tj } } := ⟨_, rfl⟩
  have hframe : u = { s with
      hearth := { s.hearth with
        tj := tj, runBarred := s.hearth.runBarred && !tjUnder 110 tj
        warnHeld := warn || (s.hearth.warnHeld && !tjUnder 110 tj) }
      evt := u.evt } := by
    rw [hu]
    unfold thermWarn
    dsimp only
    rw [raiseIf_frame]
  have h57 : u.evt.acc[57] = if warn then stick 65535 s.evt.acc[57] else s.evt.acc[57] := by
    rw [hu]
    exact acc_raiseIf_same _ 57 ..
  have h58 : u.evt.acc[58] = s.evt.acc[58] := by
    rw [hu]
    exact acc_raiseIf_of_ne (k := 58) _ _ (by decide)
  have hhearth : u.hearth = { s.hearth with
      tj := tj, runBarred := s.hearth.runBarred && !tjUnder 110 tj
      warnHeld := warn || (s.hearth.warnHeld && !tjUnder 110 tj) } := by rw [hframe]
  have hflt : u.flt = s.flt := by rw [hframe]
  obtain ⟨ht, htj, hwarn, hcrit, hbar, k57, k58, htherm⟩ := thermCrit_effect tj u
  rw [hhearth] at htj hwarn hcrit hbar k58 htherm
  refine ⟨thermCrit tj u, ?_, ?_, htj, hwarn, hcrit, hbar, k57.trans h57, ?_, ?_⟩
  · change execThermalConversion tj s = _
    rw [execThermalConversion, hearthOn_of_ne_off hon, hu]
    rfl
  · exact ht.trans (by rw [hframe])
  · rw [k58, h58]
  · rw [htherm, hflt]

/-! ### What accesses to the memories leave unchanged -/

/-- The state without the events, the memory care and its record in the Hearth, and the Store with its turns. -/
def memRest (s : State) : State :=
  { s with
    evt := {}, care := {}, hearth := {}
    hive := { s.hive with store := [], storeWritten := [], free := [], cycle := 0 } }

section
variable (s : State)

@[simp] theorem memRest_healWord (w : WordAt) : memRest (healWord w s) = memRest s := rfl

@[simp] theorem memRest_healWords (mk : Nat → WordAt) (l : List Nat) : memRest (healWords mk l s) = memRest s := by
  induction l generalizing s with
  | nil => rfl
  | cons a l ih => exact ih (healWord (mk a) s)

@[simp] theorem memRest_checkWord (w : WordAt) : memRest (checkWord w s).2 = memRest s := by
  unfold checkWord
  split
  · rfl
  · split <;> rfl

@[simp] theorem memRest_patrolWord (w : WordAt) : memRest (patrolWord w s).2 = memRest s := by
  unfold patrolWord
  split
  · rfl
  · split
    · rfl
    · split <;> rfl

@[simp] theorem memRest_wrStore (a : Nat) (x : Word) : memRest (wrStore a x s) = memRest s := by
  have hheal (b : Bool) (l : List Nat) : memRest (if b then healWords (fun a => ⟨.store, 0, 0, a⟩) l s
      else healWord ⟨.store, 0, 0, a⟩ s) = memRest s := by
    cases b
    · rfl
    · exact memRest_healWords ..
  refine Eq.trans ?_ (hheal (!s.hive.storeWritten.contains (storeGroup a)) (storeGroupWords a))
  unfold wrStore
  extract_lets marked healed
  change _ = memRest healed
  clear_value healed
  rfl

@[simp] theorem memRest_rdStore (a : Nat) : memRest (rdStore a s).2.2 = memRest s := by
  have h := memRest_checkWord s ⟨.store, 0, 0, a⟩
  unfold rdStore
  split
  · rfl
  · dsimp only
    split <;> exact h

@[simp] theorem memRest_patrolStore (a : Nat) : memRest (patrolStore a s).2 = memRest s := by
  have h := memRest_patrolWord s ⟨.store, 0, 0, a⟩
  unfold patrolStore
  split
  · rfl
  · dsimp only
    split
    · exact h
    · exact (memRest_wrStore ..).trans h

@[simp] theorem memRest_freePerform (w : FreeAcc) : memRest (freePerform w s).2 = memRest s := by
  unfold freePerform
  dsimp only
  split
  · rfl
  · split
    · exact memRest_wrStore ..
    · split
      · exact memRest_patrolStore ..
      · exact memRest_rdStore ..

@[simp] theorem memRest_freeCycle : memRest (freeCycle s).2 = memRest s :=
  foldl_keeps_eq (fun p : List (FreeAcc × Word) × State => memRest p.2) (fun _ _ => memRest_freePerform ..) _ ([], s)

@[simp] theorem memRest_freeStall (m : Master) (b n : Nat) : memRest (freeStall m b n s) = memRest s := by
  induction n generalizing s with
  | zero => rfl
  | succ n ih =>
    unfold freeStall
    split
    · exact (ih _).trans (memRest_freeCycle s)
    · rfl

@[simp] theorem memRest_freeFlush (n : Nat) : memRest (freeFlush n s) = memRest s := by
  induction n generalizing s with
  | zero => rfl
  | succ n ih =>
    unfold freeFlush
    split
    · rfl
    · exact (ih _).trans (memRest_freeCycle s)

@[simp] theorem memRest_wrStoreX (m : Master) (a : Nat) (x : Word) : memRest (wrStoreX m a x s) = memRest s :=
  memRest_freeStall ..

@[simp] theorem memRest_wrStoresX (m : Master) (a : Nat) (ws : List Word) : memRest (wrStoresX m a ws s) = memRest s := by
  induction ws generalizing a s with
  | nil => rfl
  | cons w ws ih => exact (ih _ _).trans (memRest_wrStoreX ..)

@[simp] theorem memRest_patrolRams (k n : Nat) : memRest (patrolRams k n s).2 = memRest s := by
  induction n generalizing k s with
  | zero => rfl
  | succ n ih => exact (ih _ _).trans (memRest_patrolWord s ⟨.ianikRam, 0, 0, k⟩)

@[simp] theorem memRest_wrRam (a : Nat) (ws : List Word) : memRest (wrRam a ws s) = memRest s := by
  unfold wrRam
  exact memRest_healWords ..

@[simp] theorem memRest_regionWrite (ram : Bool) (r : Nat) (ws : List Word) : memRest (regionWrite ram r ws s) = memRest s := by
  cases ram
  · exact memRest_wrStoresX ..
  · exact memRest_wrRam ..

theorem memRest_regionBroken (ram : Bool) (r : Nat) : memRest (regionBroken ram r s) = memRest s := by
  refine Eq.trans ?_ (memRest_regionWrite s ram r (List.replicate 256 0))
  unfold regionBroken
  generalize regionWrite ram r _ s = t
  rfl

/-- Patrol recovers what a region test has saved (R415). -/
theorem memRest_regionRecover : memRest (regionRecover s) = memRest s := by
  unfold regionRecover
  dsimp only
  refine Eq.trans (b := memRest (if s.hearth.pmPhase = 2 ∨ s.hearth.pmPhase = 3 then _ else _)) rfl ?_
  split
  · split
    · exact (memRest_regionWrite ..).trans (memRest_patrolRams ..)
    · exact (memRest_regionBroken ..).trans (memRest_patrolRams ..)
  · rfl

end

/-! ### The end of RUN -/

@[simp] theorem endMeasure_pow (c : Fin 32) (status : Nat) (s : State) : (endMeasure c status s).pow = s.pow := by
  unfold endMeasure
  split
  · rfl
  · dsimp only
    split
    · rfl
    · exact complete_pow ..

@[simp] theorem measuresEnd_pow (s : State) : (measuresEnd s).pow = s.pow :=
  foldl_keeps_eq State.pow (fun _ _ => endMeasure_pow ..) _ s

theorem bellowsHold_pow (s : State) : (bellowsHold s).pow = { s.pow with seqBel := false } := by
  have hends : (bellowsEnds s).pow = s.pow := by simp only [bellowsEnds, dropEvts_pow, unstage_pow, measuresEnd_pow]
  rw [bellowsHold, ← hends]
  rfl

@[simp] theorem walkDone_pow (status m : Nat) (tag : BitVec 16) (c : Chain) (s : State) :
    (walkDone status m tag c s).pow = s.pow :=
  complete_pow ..

@[simp] theorem endWalk_pow (x : Fin 2) (reason : Nat) (s : State) : (endWalk x reason s).pow = s.pow := by
  unfold endWalk
  dsimp only
  split
  · rfl
  · split
    · rw [walkDone_pow]
      split <;> rfl
    · split <;> rfl

@[simp] theorem xactEnds_pow (x : Fin 2) (status : Nat) (q : Xact) (s : State) : (xactEnds x status q s).pow = s.pow := by
  unfold xactEnds
  split
  · exact complete_pow ..
  · exact complete_pow ..
  · split
    · exact complete_pow ..
    · rfl
  · dsimp only
    split <;> exact endWalk_pow ..
  · rfl

@[simp] theorem xactsEnd_pow (x : Fin 2) (s : State) : (xactsEnd x s).pow = s.pow := by
  refine (foldl_keeps_eq State.pow (fun _ _ => walkDone_pow ..) _ _).trans ?_
  refine (foldl_keeps_eq State.pow (fun _ _ => complete_pow ..) _ _).trans ?_
  refine foldl_keeps_eq State.pow (fun t q => ?_) _ s
  split
  · rfl
  · exact xactEnds_pow ..

theorem chainHold_pow (x : Fin 2) (s : State) :
    (chainHold x s).pow = { s.pow with seqHw := s.pow.seqHw.set x false } := by
  simp only [chainHold, modHw_pow, dropEvts_pow, unstage_pow, xactsEnd_pow, endWalk_pow]

@[simp] theorem standbyAnswer_pow (n : Nat) (s : State) : (standbyAnswer n s).pow = { s.pow with st := .standby } := by
  unfold standbyAnswer
  dsimp only
  split
  · exact complete_pow ..
  · rfl

/-- The sides of the ports with the reset that waits for STANDBY staged (R499). -/
theorem standbyResets_frame (n : Nat) (s : State) : standbyResets n s =
    { s with
      pow := { s.pow with sysResetPends := false }, ianik := (standbyResets n s).ianik } := by
  unfold standbyResets
  cases h : s.pow.sysResetPends with
  | true => rfl
  | false =>
    have hsame : { s.pow with sysResetPends := false } = s.pow := by rw [← h]
    simp only [Bool.false_eq_true, if_false, hsame]

theorem standbyAnswer_frame (n : Nat) (s : State) : standbyAnswer n s =
    { s with
      pow := { s.pow with st := .standby }, ianik := (standbyAnswer n s).ianik, evt := (standbyAnswer n s).evt } := by
  unfold standbyAnswer
  dsimp only
  split
  · rw [complete_frame]
  · rfl

theorem portsOff_st (s : State) (p : Fin 8) : (portsOff s).rx[p].st = .off ∧ (portsOff s).tx[p].st = .off := by
  simp [portsOff]

/-- The sequencers that the Bellows and the chains leave held (R26). -/
theorem chainsHold_pow (s : State) : (portsOff (chainHold 1 (chainHold 0 (bellowsHold s)))).pow =
    { s.pow with seqBel := false, seqHw := (s.pow.seqHw.set 0 false).set 1 false } := by
  change (chainHold 1 (chainHold 0 (bellowsHold s))).pow = _
  rw [chainHold_pow, chainHold_pow, bellowsHold_pow]
  rfl

/-- The RUN to STANDBY transition ends in STANDBY, with every sequencer held and every port side off (R26, R498). -/
theorem standbyDone_effect (s : State) :
    (standbyDone s).pow.st = .standby ∧ (standbyDone s).pow.seqHive = false ∧ (standbyDone s).pow.seqBel = false ∧
    (standbyDone s).pow.seqHw = .replicate 2 false ∧
    ∀ p : Fin 8, (standbyDone s).rx[p].st = .off ∧ (standbyDone s).tx[p].st = .off := by
  have hhive : (hiveHold s).pow.seqHive = false := rfl
  rw [standbyDone]
  generalize hiveHold s = v at hhive ⊢
  have hpow := chainsHold_pow v
  have hports := portsOff_st (chainHold 1 (chainHold 0 (bellowsHold v)))
  generalize portsOff (chainHold 1 (chainHold 0 (bellowsHold v))) = u at hpow hports ⊢
  have hchains (w : Vector Bool 2) : (w.set 0 false).set 1 false = .replicate 2 false := by
    ext i hi
    obtain rfl | rfl : i = 0 ∨ i = 1 := by omega
    · simp
    · simp
  rw [standbyResets_frame, standbyAnswer_frame]
  dsimp only
  rw [hpow]
  exact ⟨rfl, hhive, rfl, hchains _, hports⟩

/-! ### The end of an Ianik reset -/

@[simp] theorem ramWrites_boot (a : Nat) (ws : List Word) (s : State) : (ramWrites a ws s).boot = s.boot := by
  induction ws generalizing a s with
  | nil => rfl
  | cons w ws ih => exact (ih _ _).trans rfl

@[simp] theorem ramWrites_mbx (a : Nat) (ws : List Word) (s : State) : (ramWrites a ws s).mbx = s.mbx := by
  induction ws generalizing a s with
  | nil => rfl
  | cons w ws ih => exact (ih _ _).trans rfl

@[simp] theorem ramWrite_boot (a : Nat) (w : Word) (s : State) : (ramWrite a w s).boot = s.boot := rfl

theorem ringPut_boot (kind : Nat) (ws : List Word) (s : State) : (ringPut kind ws s).boot = s.boot := by
  simp only [ringPut, ramWrite_boot, ramWrites_boot, apply_ite State.boot, ite_self]

theorem completionWrite_boot (s : State) : (completionWrite s).boot = s.boot := by
  unfold completionWrite
  split
  · rfl
  · simp only [apply_ite State.boot, raise_boot, ringPut_boot, ite_self]

theorem completionsWrite_boot (n : Nat) (s : State) : (completionsWrite n s).boot = s.boot := by
  induction n generalizing s with
  | zero => rfl
  | succ n ih => exact (ih _).trans (completionWrite_boot s)

theorem flashPut_boot (a : Nat) (bs : List Byte) (s : State) : (flashPut a bs s).boot = s.boot := by
  induction bs generalizing a s with
  | nil => rfl
  | cons b bs ih =>
    refine (ih _ _).trans ?_
    split <;> rfl

/-- A power record and the boot record of a state. -/
def powBoot (s : State) : PowerSt × Boot := (s.pow, s.boot)

theorem powBoot_complete (op k : Nat) (tag : BitVec 16) (st : Byte) (ws : List Word) (s : State) :
    powBoot (complete op k tag st ws s) = powBoot s := by
  rw [complete_frame]
  rfl

theorem powBoot_confirmDone (j : ImgJob) (s : State) : powBoot (confirmDone j s) = powBoot s := by
  refine (powBoot_complete ..).trans (foldl_keeps_eq powBoot (fun t o => ?_) _ s)
  split
  · exact Prod.ext (flashPut_pow ..) (flashPut_boot ..)
  · rfl

/-- Ianik is back without an image job of its own (R493, R532). -/
theorem powBoot_ianikBack (s : State) :
    powBoot (ianikBack s) = ({ s.pow with ianikRst := false }, { s.boot with img := [] }) := by
  have hrest := memRest_regionRecover { s with pow := { s.pow with ianikRst := false } }
  unfold ianikBack
  dsimp only
  refine (foldl_keeps_eq powBoot (fun _ _ => powBoot_complete ..) _ _).trans ?_
  refine (foldl_keeps_eq powBoot (fun _ _ => powBoot_confirmDone ..) _ _).trans ?_
  generalize regionRecover { s with pow := { s.pow with ianikRst := false } } = u at hrest ⊢
  have hpow : u.pow = { s.pow with ianikRst := false } := by
    have h := congrArg State.pow hrest
    exact h
  have hboot : u.boot = s.boot := by
    have h := congrArg State.boot hrest
    exact h
  change (u.pow, { u.boot with img := [] }) = _
  rw [hpow, hboot]

theorem powBoot_ianikRecords (s : State) : powBoot (ianikRecords s) = powBoot s := by
  unfold ianikRecords
  split
  · exact Prod.ext (completionsWrite_countsKept ..).pow (completionsWrite_boot ..)
  · rfl

/-! ### The Hearth responder -/

/-- The response to what mailbox `m` held as `b` has been posted by the Hearth responder (R470, R483). -/
structure PostedFor (m : Fin 4) (b : Mbx) (t : State) : Prop where
  st : t.mbx[m].st = .done
  hearth : t.mbx[m].hearth = true
  seqDone : t.mbx[m].seqDone = b.seqRung
  ver : t.mbx[m].ver = b.grant.getD b.ver

@[simp] theorem modMbx_mbx_same (m : Fin 4) (f : Mbx → Mbx) (s : State) : (modMbx m f s).mbx[m] = f s.mbx[m] := by
  simp only [modMbx, vmod, Fin.getElem_fin, Vector.getElem_set_self]

/-- A response of the Hearth's is posted with the number rung (R470, R483). -/
theorem postedFor_answer (op : Nat) (m : Fin 4) (r : Req) (st : Nat) (ws : List Word) (s : State) :
    PostedFor m s.mbx[m] (post m (answer op m r st ws true s)) := by
  obtain ⟨b, hb⟩ : ∃ b, b = s.mbx[m] := ⟨_, rfl⟩
  have hask : (answer op m r st ws true s).mbx[m] =
      { b with
        st := .busy, sampled := s.stove.frame, quiet := r.flags.getLsbD 0, fromHearth := true
        resp := some ⟨BitVec.ofNat 16 op, BitVec.ofNat 8 st, r.ver, r.tag, r.target, ws⟩ } := by
    rw [hb]
    exact modMbx_mbx_same ..
  rw [← hb]
  generalize answer op m r st ws true s = t at hask
  have hposted (u : State) (hu : u.mbx = t.mbx) (f : Mbx → Mbx) : (modMbx m f u).mbx[m] = f t.mbx[m] := by
    rw [modMbx_mbx_same, hu]
  have hmbx : (post m t).mbx[m] = { t.mbx[m] with
      st := .done, status := BitVec.ofNat 8 st, seqDone := t.mbx[m].seqRung, hearth := t.mbx[m].fromHearth
      ver := t.mbx[m].grant.getD t.mbx[m].ver, grant := none, bulk := none, resp := none } := by
    unfold post
    split
    case h_1 h => simp [hask] at h
    case h_2 p h =>
      obtain rfl : _ = p := by simpa [hask] using h
      dsimp only
      split
      · exact hposted _ (ramWrites_mbx ..) _
      · split
        · exact hposted _ (ramWrites_mbx ..) _
        · exact hposted _ (ramWrites_mbx ..) _
  constructor <;> rw [hmbx, hask]

/-- Errors met in a command's words are counted, and no mailbox changes (R409). -/
theorem cmdErrs_mbx (m : Nat) (r : Req) (s : State) : (cmdErrs m r s).mbx = s.mbx :=
  foldl_keeps_eq State.mbx (fun t u => by rw [checkWord_frame]) _ s

/-- What the responder serves leaves the mailboxes as they are (R483). -/
theorem responderDef_act_mbx {op : Nat} {r : Req} {d : CmdDef} (h : responderDef op r = some d) (m : Fin 4) (s : State) :
    (d.act m r s).1.mbx = s.mbx := by
  unfold responderDef at h
  split at h
  · obtain rfl := Option.some.inj h
    rfl
  · split at h
    · obtain rfl := Option.some.inj h
      rfl
    · cases h
  · obtain rfl := Option.some.inj h
    rfl
  · obtain rfl := Option.some.inj h
    rfl
  · cases h

theorem respond_posts (m : Fin 4) (s : State) : PostedFor m s.mbx[m] (respond m s) := by
  have hanswer (op : Nat) (r : Req) (st : Nat) (ws : List Word) (u : State) (hu : u.mbx = s.mbx) :
      PostedFor m s.mbx[m] (post m (answer op m r st ws true u)) := by
    rw [← hu]
    exact postedFor_answer ..
  have herrs := cmdErrs_mbx m (readReq m s).2 s
  unfold respond
  dsimp only
  split
  · exact hanswer _ _ _ _ _ herrs
  · split
    · unfold mbxFails
      dsimp only
      refine hanswer _ _ _ _ _ ?_
      split <;> exact herrs
    · rename_i d hd
      split
      · exact hanswer _ _ _ _ _ herrs
      · refine hanswer _ _ _ _ _ ?_
        split at hd
        · exact (responderDef_act_mbx hd ..).trans herrs
        · cases hd

/-! ### The obligation -/

/-- Settles O37: each event is its effect in the power state that it ends. -/
theorem thermalAndTransitionEndsComplete : Obligations.ThermalAndTransitionEndsComplete := by
  refine ⟨fun tj s hon => thermalConversion_effect tj hon, fun s hst hbusy => ?_, fun s hst hmuted hover => ?_,
    fun s hst => ⟨?_, fun hpin hheld => ?_, fun hwake hrstN hscan hrails => ?_⟩, fun s hrst hsafe => ?_,
    fun s hst hpends => ?_, fun m s hst hm hrung => ?_⟩
  · refine congrArg Host.Outcome.next (if_neg ?_)
    obtain h | h := hbusy <;> simp [h]
  · have hdone : exec .runToStandbyComplete s = .next (standbyDone s) :=
      congrArg Host.Outcome.next (if_pos (by simp [hst, hmuted, hover]))
    exact ⟨_, hdone, standbyDone_effect s⟩
  · exact congrArg Host.Outcome.next (if_pos (by simp [hst]))
  · have hnone : tryWake (systemReset s) = systemReset s := by
      refine if_neg ?_
      simp [systemReset, hpin, hheld]
    exact congrArg Host.Outcome.next ((if_pos (by simp [hst])).trans hnone)
  · have hopen : wakeOpen (systemReset s) = true := wakeOpen_of_hearth rfl hrstN hrails hscan
    exact ⟨_, congrArg Host.Outcome.next ((if_pos (by simp [hst])).trans (tryWake_of_open hopen hwake)), wakeNow_st _⟩
  · have hpair := (powBoot_ianikRecords _).trans (powBoot_ianikBack s)
    refine ⟨_, congrArg Host.Outcome.next (if_pos (by simp [hrst, hsafe])), congrArg Prod.fst hpair, ?_⟩
    have hboot := congrArg (fun p => p.2.img) hpair
    exact hboot
  · exact congrArg Host.Outcome.next (if_pos (by simp [hst, hpends]))
  · obtain ⟨hdone, hhearth, hseq, hver⟩ := respond_posts m s
    exact ⟨_, congrArg Host.Outcome.next (if_pos (by simpa [hst, hm] using hrung)), hdone, hhearth, hseq, hver⟩

end Sys2Proof.Machine
end

section
/-! Host accesses and transfers of PSP1 (R7, R273, R395, R440 to R447, R465, R552, R575, R578, R580). -/

namespace Sys2Proof.Machine

/-! ### Writes of registers -/

/-- A write at a mapped address of the register area writes the register (R7). -/
theorem hostWrite_register {a : Nat} (page : Bool) (v : Word) {s : State} (harea : areaOf (a / 4 * 4) = 0)
    (hmapped : regUnmapped (a / 4 * 4) s = false) : hostWrite page a v s = regWrite (a / 4 * 4) v s := by
  simp only [hostWrite, harea, hmapped, Bool.false_eq_true, if_false]

/-- The first registers are mapped in every power state (R572). -/
theorem regUnmapped_of_low {a : Nat} (s : State) (h : a % 0x1000 < 0x100) : regUnmapped a s = false := by
  simp [regUnmapped, h]

theorem doorbell_of_free {m : Fin 4} {seq : Byte} {s : State} (hfree : mbxFree m s = true)
    (hpartner : m = 2 → s.hw[0].partner = 0 ∧ s.hw[1].partner = 0) (hseen : m = 3 → s.pow.sawStandby = true) :
    doorbell m seq s = ringMbx m seq s := by
  have hopen : ((m == 2 && (s.hw[0].partner != 0 || s.hw[1].partner != 0)) || (m == 3 && !s.pow.sawStandby)) = false := by
    rw [Bool.or_eq_false_iff, Bool.and_eq_false_imp, Bool.and_eq_false_imp]
    refine ⟨fun h => ?_, fun h => ?_⟩
    · obtain ⟨hA, hB⟩ := hpartner (by simpa using h)
      simp [hA, hB]
    · simp [hseen (by simpa using h)]
  simp only [doorbell, hopen, hfree, Bool.not_true, Bool.or_self, Bool.false_eq_true, if_false]

/-- A write unit that PSP1 takes past its transfer's area only closes its unit, at the end itself with flag 0 (R446). -/
theorem hostUnit_pastEnd {a : Nat} {v : Word} {s : State} (htaken : unitTaken a s = true) (hpast : pastEnd s = true) :
    hostUnit a v s = unitDone (s.host.xfer.elim s (fun x => areaPassed x s)) := by
  simp [hostUnit, unitPut, htaken, hpast]

/-- Bit 23 of PSP1_STAT clears the count of protocol errors; the word's other bits clear no flag (R447). -/
theorem regWrite_countClear (s : State) :
    regWrite 0x80 0x00800000 s = { s with host := { s.host with errCnt := 0 } } := by
  have hflags : s.host.flags &&& ~~~ ((0x00800000 : Word).extractLsb' 0 8) = s.host.flags :=
    BitVec.and_allOnes
  have hwrite : regWrite 0x80 0x00800000 s = { s with host := { s.host with
      flags := s.host.flags &&& ~~~ ((0x00800000 : Word).extractLsb' 0 8), errCnt := 0 } } := rfl
  rw [hwrite, hflags]

/-- The unit at the end of its area sets flag 0 and counts (R446). -/
theorem areaPassed_end {x : Transfer} (h : x.addr = areaEnd x.area) (s : State) : areaPassed x s = pspFlag 0 s := if_pos h

theorem unitDone_areaPassed_frame (x : Transfer) (s : State) : unitDone (areaPassed x s) =
    { s with host := (unitDone (areaPassed x s)).host, evt := (unitDone (areaPassed x s)).evt } := by
  unfold areaPassed
  split <;> rfl

/-! ### Reads of registers -/

/-- A read of a register where no transfer is open is a transfer of its own (R440). -/
theorem hostRead_alone {a : Nat} {s : State} (hreach : mbxReach s = true) (hnone : s.host.xfer = none) :
    hostRead a s = modHost (fun h => { h with statusUnit := 0x3C, out := [(unitRead false s.host.winPage a s).1] })
      (unitRead false s.host.winPage a s).2 := by
  simp [hostRead, hreach, hnone]

/-- A read of a register at the address of an open transfer is its next unit (R440). -/
theorem hostRead_next {a : Nat} {x : Transfer} {s : State} (hreach : mbxReach s = true) (hxfer : s.host.xfer = some x)
    (haddr : x.addr = a) (harea : x.area = areaOf a) : hostRead a s = unitNext s := by
  simp [hostRead, hreach, hxfer, haddr, harea]

/-- FRAME_COUNT_LO latches the counter copy and reads its low word (R552). -/
theorem unitRead_frameCount (latched page : Bool) (s : State) :
    unitRead latched page 0x60 s = (BitVec.ofNat 32 (frameCopy s), latchFrame s) := by
  have hlow : (BitVec.ofNat 64 (frameCopy s)).extractLsb' 0 32 = BitVec.ofNat 32 (frameCopy s) := by
    apply BitVec.eq_of_toNat_eq
    simp only [BitVec.extractLsb'_toNat, BitVec.toNat_ofNat]
    omega
  have hread : unitRead latched page 0x60 s = ((BitVec.ofNat 64 (frameCopy s)).extractLsb' 0 32, latchFrame s) := by
    simp only [unitRead, areaOf, regUnmapped_of_low (a := 0x60) s (by decide)]
    cases latched <;> rfl
  rw [hread, hlow]

/-- STKR_SW_SEQ latches the phase of its comparison (R273). -/
theorem unitRead_swSeq (page : Bool) (s : State) (hsafe : s.pow.st ≠ .hearthSafe) (hruns : s.stove.running = true) :
    unitRead false page 0x380 s = (swSeq s, { s with stove := { s.stove with
      sw := { s.stove.sw with phLatch := BitVec.ofInt 32 s.stove.sw.phaseNow } } }) := by
  have hread : unitRead false page 0x380 s = (regVal 0x380 (latchPhase s), latchPhase s) := by
    simp only [unitRead, areaOf, regUnmapped_of_not_safe 0x380 hsafe]
    rfl
  have hlatch : latchPhase s = _ := if_pos hruns
  have hval : regVal 0x380 (latchPhase s) = swSeq s := by
    rw [hlatch]
    exact if_pos hruns
  rw [hread, hval, hlatch]

/-- Settles O32: each write unit reaches its register alone, and each read latches before it answers. -/
theorem hostAccessesComplete : Obligations.HostAccessesComplete := by
  refine ⟨fun m seq s htaken hin hfree hpartner hseen => ?_, fun v s htaken hin hserves hkey hbit => ?_,
    fun s htaken hin => ?_, fun v s htaken hin => ?_, fun v s htaken hin hsafe hruns => ?_,
    fun a v s htaken hpast => ?_, fun s hreach hnone => ?_, fun s hreach hnone hsafe hruns => ?_,
    fun x s hreach hxfer harea hread hdead hleft => ⟨fun haddr => ?_, fun haddr => ?_⟩, fun s hreach hsafe => ?_,
    fun a v s htaken hin => ?_, fun v s htaken hin => ?_, fun v s htaken hin => ?_, fun v s htaken hin => ?_,
    fun v s htaken hin => ?_⟩
  · refine congrArg Host.Outcome.next ?_
    rw [hostUnit_taken _ htaken hin, hostWrite_doorbell, doorbell_of_free hfree hpartner hseen]
    rfl
  · refine congrArg Host.Outcome.next ?_
    rw [hostUnit_taken _ htaken hin, hostWrite_register _ _ rfl (regUnmapped_of_low s (by decide))]
    exact congrArg unitDone (if_pos ⟨hkey, hbit, hserves⟩)
  · refine congrArg Host.Outcome.next ?_
    rw [hostUnit_taken _ htaken hin, hostWrite_register _ _ rfl (regUnmapped_of_low s (by decide)), regWrite_countClear]
  · refine congrArg Host.Outcome.next ?_
    rw [hostUnit_taken _ htaken hin, hostWrite_winPage]
    rfl
  · refine congrArg Host.Outcome.next ?_
    rw [hostUnit_taken _ htaken hin, hostWrite_register _ _ rfl (regUnmapped_of_not_safe _ hsafe)]
    exact congrArg unitDone (if_pos hruns)
  · refine ⟨_, congrArg Host.Outcome.next (hostUnit_pastEnd htaken hpast), ?_, fun x hxfer haddr => ?_⟩
    · cases hxfer : s.host.xfer with
      | none => rfl
      | some x => exact unitDone_areaPassed_frame x s
    · rw [hxfer]
      refine ⟨congrArg (·.host.flags) (areaPassed_end haddr s), ?_⟩
      change (areaPassed x s).evt.acc[51] = _
      rw [areaPassed_end haddr]
      exact acc_raise_same 51 ..
  · refine congrArg Host.Outcome.next ?_
    rw [hostRead_alone hreach hnone, unitRead_frameCount]
    rfl
  · refine congrArg Host.Outcome.next ?_
    rw [hostRead_alone hreach hnone, unitRead_swSeq _ _ hsafe hruns]
    rfl
  · refine congrArg Host.Outcome.next ?_
    rw [hostRead_next hreach hxfer haddr harea, unitNext_read (w := BitVec.ofNat 32 (frameCopy s)) (t := latchFrame s) hxfer hread hdead
      (Nat.ne_of_gt hleft) (by rw [harea, haddr]; decide) (by rw [haddr, unitRead_frameCount])]
    simp [unitDone, modHost, latchFrame, hxfer]
  · exact congrArg Host.Outcome.next (hostRead_next hreach hxfer haddr harea)
  · change execMeasLatchRead s = _
    simp [execMeasLatchRead, hreach, hsafe, latchMeas, modHost]
  · exact congrArg Host.Outcome.next (hostUnit_taken v htaken hin)
  · refine congrArg Host.Outcome.next ?_
    refine (hostUnit_taken v htaken hin).trans ?_
    rw [hostWrite_register _ _ rfl (regUnmapped_of_low s (by decide))]
    rfl
  · refine congrArg Host.Outcome.next ((hostUnit_taken v htaken hin).trans (congrArg unitDone ?_))
    exact if_neg (Bool.eq_false_iff.mp (regUnmapped_of_low s (by decide)))
  · refine congrArg Host.Outcome.next ((hostUnit_taken v htaken hin).trans (congrArg unitDone ?_))
    exact if_neg (Bool.eq_false_iff.mp (regUnmapped_of_low s (by decide)))
  · refine congrArg Host.Outcome.next ((hostUnit_taken v htaken hin).trans (congrArg unitDone ?_))
    exact if_neg (Bool.eq_false_iff.mp (regUnmapped_of_low s (by decide)))

end Sys2Proof.Machine
end

section
/-! Transfers of PSP1: how they open, what their data units read, and how they end (R440 to R446, R575). -/

namespace Sys2Proof.Machine

/-! ### The units of a read -/

/-- A read unit changes the protocol flags, the latches and what an error in the mailbox RAM counts: the RAM, the power
state, the transfer and the units read before it stand (R443). -/
structure ReadKept (s t : State) : Prop where
  ram : t.ram = s.ram
  pow : t.pow = s.pow
  xfer : t.host.xfer = s.host.xfer
  out : t.host.out = s.host.out

theorem readKept_pspFlag (i : Nat) (s : State) : ReadKept s (pspFlag i s) := by
  unfold pspFlag
  dsimp only
  split <;> exact ⟨rfl, rfl, rfl, rfl⟩

theorem readKept_ramRead (a : Nat) (s : State) : ReadKept s (ramRead a s).2 := by
  unfold ramRead
  split
  · exact ⟨rfl, rfl, rfl, rfl⟩
  · have h := checkWord_frame ⟨.mailboxRam, 0, 0, a / 4⟩ s
    dsimp only
    rw [h]
    exact ⟨rfl, rfl, rfl, rfl⟩

theorem readKept_regRead (a : Nat) (s : State) : ReadKept s (regRead a s).2 := by
  have hlatch : ReadKept s (if a = 0x0060 then latchFrame s else if a = 0x0380 then latchPhase s else s) := by
    unfold latchPhase
    repeat' split
    all_goals exact ⟨rfl, rfl, rfl, rfl⟩
  obtain ⟨hram, hpow, hxfer, hout⟩ := hlatch
  unfold regRead
  generalize (if a = 0x0060 then latchFrame s else if a = 0x0380 then latchPhase s else s) = u at hram hpow hxfer hout ⊢
  dsimp only
  split <;> exact ⟨hram, hpow, hxfer, hout⟩

theorem readKept_unitRead (latched page : Bool) (a : Nat) (s : State) : ReadKept s (unitRead latched page a s).2 := by
  unfold unitRead
  dsimp only
  split
  · exact readKept_ramRead ..
  · exact readKept_pspFlag 5 s
  · split
    · exact readKept_pspFlag 5 s
    · split
      · exact ⟨rfl, rfl, rfl, rfl⟩
      · exact readKept_regRead ..
  · split
    · exact readKept_pspFlag 5 s
    · exact ⟨rfl, rfl, rfl, rfl⟩

/-- A data unit of a read, inside its area or past it (R443, R446). -/
def unitWord (x : Transfer) (s : State) : Word × State :=
  if areaEnd x.area ≤ x.addr then (0, areaPassed x s) else unitRead x.meas x.page x.addr s

theorem readKept_unitWord (x : Transfer) (s : State) : ReadKept s (unitWord x s).2 := by
  unfold unitWord
  split
  · unfold areaPassed
    split
    · exact readKept_pspFlag 0 s
    · exact ⟨rfl, rfl, rfl, rfl⟩
  · exact readKept_unitRead ..

/-- What `n` units of the open read transfer `x` leave: its place, `n` words more, and the status sent (R440, R443). -/
structure UnitsRead (n : Nat) (x : Transfer) (s t : State) : Prop where
  ram : t.ram = s.ram
  pow : t.pow = s.pow
  xfer : ∃ y, t.host.xfer = some y ∧ y.read = true ∧ y.dead = false ∧ y.count = x.count - n
  out : t.host.out.length = s.host.out.length + n
  status : 0 < n → t.host.statusUnit = 0x3C

theorem unitNext_eq {x : Transfer} {s : State} (hxfer : s.host.xfer = some x) (hread : x.read = true)
    (hdead : x.dead = false) (hleft : 0 < x.count) : unitNext s = unitDone
      (modHost (fun h => { h with statusUnit := 0x3C, out := h.out ++ [(unitWord x s).1] }) (unitWord x s).2) := by
  have hcount : (x.count == 0) = false := by simpa using Nat.ne_of_gt hleft
  simp only [unitNext, hxfer, hread, hdead, hcount, Bool.not_true, Bool.or_self, Bool.false_eq_true, if_false]
  unfold unitWord
  split <;> rfl

theorem unitNext_reads {x : Transfer} {s : State} (hxfer : s.host.xfer = some x) (hread : x.read = true)
    (hdead : x.dead = false) (hleft : 0 < x.count) : UnitsRead 1 x s (unitNext s) ∧
      (unitNext s).host.xfer = some x.next := by
  have hkept := readKept_unitWord x s
  rw [unitNext_eq hxfer hread hdead hleft]
  generalize (unitWord x s).1 = w
  generalize (unitWord x s).2 = u at hkept ⊢
  obtain ⟨hram, hpow, hux, hout⟩ := hkept
  have hnext : (unitDone (modHost (fun h => { h with statusUnit := 0x3C, out := h.out ++ [w] }) u)).host.xfer =
      some x.next := by
    change u.host.xfer.map Transfer.next = _
    rw [hux, hxfer]
    rfl
  refine ⟨⟨hram, hpow, ⟨x.next, hnext, hread, hdead, rfl⟩, ?_, fun _ => rfl⟩, hnext⟩
  change (u.host.out ++ [w]).length = _
  rw [hout, List.length_append, List.length_singleton]

/-- The next `n` units of a read that has as many left (R440, R443). -/
theorem unitsNext_reads {n : Nat} {x : Transfer} {s : State} (hxfer : s.host.xfer = some x) (hread : x.read = true)
    (hdead : x.dead = false) (hn : n ≤ x.count) : UnitsRead n x s (unitsNext n s) := by
  induction n generalizing s x with
  | zero => exact ⟨rfl, rfl, ⟨x, hxfer, hread, hdead, rfl⟩, rfl, fun h => absurd h (by omega)⟩
  | succ n ih =>
    obtain ⟨hone, hnext⟩ := unitNext_reads hxfer hread hdead (by omega)
    have hcount : x.next.count = x.count - 1 := rfl
    obtain ⟨hram, hpow, ⟨y, hy, hyr, hyd, hyc⟩, hout, hstat⟩ := ih hnext hread hdead (by omega)
    refine ⟨hram.trans hone.ram, hpow.trans hone.pow, ⟨y, hy, hyr, hyd, by omega⟩, ?_, fun _ => ?_⟩
    · have := hone.out
      change (unitsNext n (unitNext s)).host.out.length = _
      omega
    · cases n with
      | zero => exact hone.status (by omega)
      | succ n => exact hstat (by omega)

theorem unitsLeft_eq {x : Transfer} {s : State} (hxfer : s.host.xfer = some x) (hread : x.read = true)
    (hdead : x.dead = false) : unitsLeft s = x.count := by
  simp [unitsLeft, hxfer, hread, hdead]

theorem isDead_eq {x : Transfer} {s : State} (hxfer : s.host.xfer = some x) : isDead s = x.dead := by
  simp [isDead, hxfer]

/-- A read that breaks off has read some of its units, the first among them (R443). -/
theorem unitsSome_reads {x : Transfer} {s : State} (hxfer : s.host.xfer = some x) (hread : x.read = true)
    (hdead : x.dead = false) (hleft : 0 < x.count) : ∃ n, n ≤ x.count ∧ 1 ≤ s.host.out.length + n ∧
      UnitsRead n x s (unitsSome true s) := by
  have hcount := unitsLeft_eq hxfer hread hdead
  have hcount' : unitsLeft (drawWord s).2 = x.count := unitsLeft_eq (s := (drawWord s).2) hxfer hread hdead
  have hsome : unitsSome true s = unitsNext ((if s.host.out.isEmpty then 1 else 0) + (drawWord s).1.toNat %
      (x.count + 1 - (if s.host.out.isEmpty then 1 else 0))) (drawWord s).2 := by
    unfold unitsSome
    rw [if_neg (by omega)]
    dsimp only
    rw [hcount', Bool.true_and]
  rw [hsome]
  have hmod (k : Nat) (hk : k ≤ 1) : (drawWord s).1.toNat % (x.count + 1 - k) < x.count + 1 - k :=
    Nat.mod_lt _ (by omega)
  have hreads {n : Nat} (hn : n ≤ x.count) : UnitsRead n x s (unitsNext n (drawWord s).2) := by
    obtain ⟨hram, hpow, hx, hout, hstat⟩ := unitsNext_reads (s := (drawWord s).2) hxfer hread hdead hn
    exact ⟨hram, hpow, hx, hout, hstat⟩
  cases hempty : s.host.out.isEmpty with
  | true =>
    have hlt := hmod 1 (by omega)
    simp only [if_true]
    exact ⟨_, by omega, by omega, hreads (by omega)⟩
  | false =>
    have hlt := hmod 0 (by omega)
    have hlen : s.host.out.length ≠ 0 := by
      intro h
      simp [List.length_eq_zero_iff.mp h] at hempty
    simp only [Bool.false_eq_true, if_false]
    exact ⟨_, by omega, by omega, hreads (by omega)⟩

/-! ### Flags -/

theorem pspFlag_flags (i : Nat) (s : State) : (pspFlag i s).host.flags = s.host.flags ||| BitVec.ofNat 8 (2 ^ i) := by
  unfold pspFlag
  dsimp only
  split <;> rfl

/-! ### The obligation -/

/-- The transfer that a command and its address open (R440, R575). -/
def transferOf (cmd : Byte) (a : Nat) (meas : Bool) (s : State) : Transfer :=
  ⟨cmd.getLsbD 7, fld cmd 0 6 + 1, a / 4 * 4, areaOf (a / 4 * 4), s.host.winPage, cmd.getLsbD 6, meas⟩

/-- The command and address units open a transfer, or one that is ignored (R440, R445, R446, R575). -/
theorem commandUnit_opens (cmd : Byte) (addr : BitVec 16) {s : State} (hreach : mbxReach s = true) :
    ∃ t, exec (.psp1CommandUnit cmd addr) s = .next t ∧
      (∃ x, t.host.xfer = some x ∧ x.read = cmd.getLsbD 7 ∧ x.count = fld cmd 0 6 + 1 ∧ x.addr = addr.toNat / 4 * 4 ∧
        x.area = areaOf (addr.toNat / 4 * 4) ∧ x.page = s.host.winPage ∧ x.dead = cmd.getLsbD 6) ∧
      t.host.out = [] ∧ t.host.statusUnit = 0 ∧ t = { s with host := t.host, evt := t.evt } ∧
      t.host.flags = (if cmd.getLsbD 6 then s.host.flags ||| 0x10 else s.host.flags) ∧
      (cmd.getLsbD 6 = false → t.evt = s.evt) ∧
      t.host.measLatch = (if cmd.getLsbD 7 && !cmd.getLsbD 6 && decide (0x200 ≤ addr.toNat) &&
        decide (addr.toNat < 0x300) && s.pow.st != .hearthSafe then s.boot.meas else s.host.measLatch) := by
  have hlow : decide (0x200 ≤ addr.toNat / 4 * 4) = decide (0x200 ≤ addr.toNat) := decide_eq_decide.mpr (by omega)
  have hhigh : decide (addr.toNat / 4 * 4 < 0x300) = decide (addr.toNat < 0x300) := decide_eq_decide.mpr (by omega)
  obtain ⟨meas, hmeas⟩ : ∃ b, b = (cmd.getLsbD 7 && !cmd.getLsbD 6 && decide (0x200 ≤ addr.toNat) &&
    decide (addr.toNat < 0x300) && s.pow.st != .hearthSafe) := ⟨_, rfl⟩
  obtain ⟨u, hu⟩ : ∃ u, u = modHost (fun h => { h with
      xfer := some (transferOf cmd addr.toNat meas s), statusUnit := 0, out := [] }) s := ⟨_, rfl⟩
  have hexec : exec (.psp1CommandUnit cmd addr) s = .next
      (if meas then latchMeas (if cmd.getLsbD 6 then pspFlag 4 u else u) else if cmd.getLsbD 6 then pspFlag 4 u else u) := by
    change execPsp1CommandUnit cmd addr s = _
    simp only [execPsp1CommandUnit, hreach, hlow, hhigh, Bool.not_true, Bool.false_eq_true, if_false, hu, hmeas]
    rfl
  rw [← hmeas]
  refine ⟨_, hexec, ?_⟩
  cases hbad : cmd.getLsbD 6 with
  | true =>
    rw [hbad, Bool.not_true, Bool.and_false, Bool.false_and, Bool.false_and, Bool.false_and] at hmeas
    rw [hu, hmeas]
    exact ⟨⟨_, rfl, rfl, rfl, rfl, rfl, rfl, hbad⟩, rfl, rfl, rfl, rfl, fun h => absurd h (by decide), rfl⟩
  | false =>
    rw [hu]
    cases meas <;> exact ⟨⟨_, rfl, rfl, rfl, rfl, rfl, rfl, hbad⟩, rfl, rfl, rfl, rfl, fun _ => rfl, rfl⟩

/-- A select that rises on a transfer still heard (R443, R446). -/
def selRisen (k : SelRise) (s : State) : State :=
  match k with
  | .insideUnit => pspFlag 1 (unitsSome true s)
  | .atBoundary => pspFlag 2 (unitsSome true s)
  | .afterExtraEdges => pspFlag 3 (unitsNext (unitsLeft s) s)
  | .beforeStatus => modHost (fun h => { h with out := [] }) s
  | .complete => unitsNext (unitsLeft s) s

theorem exec_selRise (k : SelRise) {s : State} (hreach : mbxReach s = true) (hdead : isDead s = false) :
    exec (.psp1SelRise k) s = .next (xferClosed (selRisen k s)) := by
  change execPsp1SelRise k s = _
  simp only [execPsp1SelRise, hreach, hdead, Bool.not_true, Bool.false_eq_true, if_false]
  cases k <;> rfl

theorem exec_selRise_dead (k : SelRise) {s : State} (hreach : mbxReach s = true) (hdead : isDead s = true) :
    exec (.psp1SelRise k) s = .next (xferClosed s) := by
  change execPsp1SelRise k s = _
  simp only [execPsp1SelRise, hreach, hdead, Bool.not_true, Bool.false_eq_true, if_false, if_true]

/-- The end of a transfer none of whose units are left to read (R443, R446). -/
theorem selRise_noneLeft (k : SelRise) {s : State} (hreach : mbxReach s = true) (hleft : unitsLeft s = 0) :
    ∃ t, exec (.psp1SelRise k) s = .next t ∧
      t.host.xfer = none ∧ t = { s with host := t.host, evt := t.evt } ∧
      t.host.flags = s.host.flags ||| (if isDead s then 0 else match k with
        | .insideUnit => 2
        | .atBoundary => 4
        | .afterExtraEdges => 8
        | _ => 0) := by
  have hsome : unitsSome true s = s := if_pos hleft
  have hall : unitsNext (unitsLeft s) s = s := by rw [hleft]; rfl
  have hzero : s.host.flags = s.host.flags ||| 0 := BitVec.or_zero.symm
  cases hdead : isDead s with
  | true => exact ⟨_, exec_selRise_dead k hreach hdead, rfl, rfl, hzero⟩
  | false =>
    refine ⟨_, exec_selRise k hreach hdead, rfl, ?_⟩
    cases k with
    | insideUnit =>
      rw [selRisen, hsome]
      exact ⟨rfl, rfl⟩
    | atBoundary =>
      rw [selRisen, hsome]
      exact ⟨rfl, rfl⟩
    | afterExtraEdges =>
      rw [selRisen, hall]
      exact ⟨rfl, rfl⟩
    | beforeStatus => exact ⟨rfl, hzero⟩
    | complete =>
      rw [selRisen, hall]
      exact ⟨rfl, hzero⟩

theorem getLsbD_or_bit (x : Byte) (i : Fin 8) : (x ||| BitVec.ofNat 8 (2 ^ i.val)).getLsbD i = true := by
  have h : (BitVec.ofNat 8 (2 ^ i.val)).getLsbD i.val = true := by
    revert i
    decide
  rw [BitVec.getLsbD_or, h, Bool.or_true]

/-- A read that a select rise breaks off has read some of its units, and sets its flag (R443, R446). -/
theorem selRise_broken {x : Transfer} {s u : State} (i : Fin 8) (hxfer : s.host.xfer = some x) (hread : x.read = true)
    (hdead : x.dead = false) (hleft : 0 < x.count) (hu : u = xferClosed (pspFlag i.val (unitsSome true s))) :
    u.host.xfer = none ∧ 1 ≤ u.host.out.length ∧ u.host.out.length ≤ s.host.out.length + x.count ∧
      u.host.flags.getLsbD i = true ∧ u.ram = s.ram ∧ u.pow = s.pow := by
  obtain ⟨n, hn, hone, hram, hpow, -, hout, -⟩ := unitsSome_reads hxfer hread hdead hleft
  have hkept := readKept_pspFlag i.val (unitsSome true s)
  subst hu
  have hlen : (xferClosed (pspFlag i.val (unitsSome true s))).host.out.length = s.host.out.length + n :=
    (congrArg List.length hkept.out).trans hout
  refine ⟨rfl, by omega, by omega, ?_, hkept.ram.trans hram, hkept.pow.trans hpow⟩
  exact (congrArg (·.getLsbD i) (pspFlag_flags i.val _)).trans (getLsbD_or_bit _ i)

/-- Settles O34: the units of a read are its next ones, and each end of a transfer is its flag and its close. -/
theorem transfersComplete : Obligations.TransfersComplete := by
  refine ⟨fun cmd addr s hreach => commandUnit_opens cmd addr hreach,
    fun x s hreach hxfer hread hdead k hk => ?_, fun x s hreach hxfer hread hdead hleft k hk => ?_,
    fun s hreach hdead => ⟨_, exec_selRise _ hreach hdead, rfl⟩, fun k s hreach hleft => selRise_noneLeft k hreach hleft,
    fun x s hreach hxfer hread hdead hleft hout => ?_, fun a v s htaken harea => ?_⟩
  · obtain ⟨hram, hpow, -, hout, hstat⟩ := unitsNext_reads hxfer hread hdead (Nat.le_refl x.count)
    rw [← unitsLeft_eq hxfer hread hdead] at hram hpow hout hstat ⊢
    have hexec := exec_selRise k hreach ((isDead_eq hxfer).trans hdead)
    simp only [List.mem_cons, List.not_mem_nil, or_false] at hk
    obtain rfl | rfl := hk
    · exact ⟨_, hexec, rfl, hout, fun h => absurd h (by decide), hram, hpow, hstat⟩
    · have hkept := readKept_pspFlag 3 (unitsNext (unitsLeft s) s)
      refine ⟨_, hexec, rfl, (congrArg List.length hkept.out).trans hout, fun _ => ?_, hkept.ram.trans hram,
        hkept.pow.trans hpow, hstat⟩
      exact (congrArg (·.getLsbD 3) (pspFlag_flags 3 _)).trans (getLsbD_or_bit _ 3)
  · have hexec := exec_selRise k hreach ((isDead_eq hxfer).trans hdead)
    simp only [List.mem_cons, List.not_mem_nil, or_false] at hk
    obtain rfl | rfl := hk
    · exact ⟨_, hexec, selRise_broken 1 hxfer hread hdead hleft rfl⟩
    · exact ⟨_, hexec, selRise_broken 2 hxfer hread hdead hleft rfl⟩
  · change execPspBuzzed s = _
    have hbuzz : (mbxReach s && decide (0 < unitsLeft s) && s.host.out.isEmpty) = true := by
      rw [unitsLeft_eq hxfer hread hdead, hreach, hout, decide_eq_true hleft]
      rfl
    simp only [execPspBuzzed, hbuzz, if_true]
    simp [xferDead, modHost, pspFlag, hxfer]
  · have hopen : (!unitTaken a.toNat s || areaOf a.toNat == 4) = false := by simp [htaken, harea]
    refine ⟨_, ?_, rfl, fun hin => hostUnit_taken v htaken hin⟩
    change execPspBusyDrop a v s = _
    simp only [execPspBusyDrop, hopen, Bool.false_eq_true, if_false]
    rfl

end Sys2Proof.Machine
end

section
/-! The crossing timeout (R40, R41, R550, R555, R557): a withdrawal reaches neither the fault record nor the count of EV52. -/

namespace Sys2Proof.Machine

/-- The Hearth's fault record and the count of EV52 at its source. -/
def faultPart (s : State) : FaultRec × Nat := (s.flt, s.evt.acc[(52 : Fin 64)])

section
variable (s : State)

theorem faultPart_raise {n : Nat} (h : n ≠ 52) (d : Word) : faultPart (raise n d s) = faultPart s :=
  Prod.ext rfl (acc_raise_of_ne d s h)

theorem faultPart_raiseIf {n : Nat} (h : n ≠ 52) (c : Bool) (d : Word) : faultPart (raiseIf c n d s) = faultPart s := by
  cases c
  · rfl
  · exact faultPart_raise s h d

theorem faultPart_raiseFrom {n : Nat} (h : n ≠ 52) (src : Nat) (d : Word) : faultPart (raiseFrom src n d s) = faultPart s :=
  faultPart_raise s h d

theorem faultPart_complete (op k : Nat) (tag : BitVec 16) (st : Byte) (ws : List Word) :
    faultPart (complete op k tag st ws s) = faultPart s := by
  rw [complete_frame]
  rfl

theorem faultPart_modCell (c : Fin 32) (f : Cell → Cell) : faultPart (modCell c f s) = faultPart s := rfl

theorem faultPart_modHw (x : Fin 2) (f : Chain → Chain) : faultPart (modHw x f s) = faultPart s := rfl

theorem faultPart_modComb (d : Dom) (f : Comb → Comb) : faultPart (modComb d f s) = faultPart s := by
  cases d <;> rfl

theorem faultPart_healWords (mk : Nat → WordAt) (l : List Nat) : faultPart (healWords mk l s) = faultPart s := by
  induction l generalizing s with
  | nil => rfl
  | cons a l ih => exact ih (healWord (mk a) s)

theorem faultPart_checkWord (w : WordAt) : faultPart (checkWord w s).2 = faultPart s := by
  unfold checkWord
  split
  · rfl
  · split
    · exact faultPart_raiseFrom (n := 54) _ (by decide) ..
    · rfl

theorem faultPart_memReadEnds (st : Nat) (q : QEntry) : faultPart (memReadEnds st q s) = faultPart s := by
  unfold memReadEnds
  split
  · exact faultPart_complete ..
  · rfl

theorem faultPart_entryLost (q : QEntry) : faultPart (entryLost q s) = faultPart s := by
  unfold entryLost
  split
  · rfl
  · exact faultPart_memReadEnds ..

theorem faultPart_stageNow (d : Dom) (row : Bool) (a b : Nat) (gs : List F32) :
    faultPart (stageNow d row a b gs s) = faultPart s :=
  (faultPart_modComb ..).trans (faultPart_healWords ..)

theorem faultPart_commitGone (d : Dom) (e : Nat) : faultPart (commitGone d e s) = faultPart s := by
  unfold commitGone
  dsimp only
  split
  · exact (faultPart_modComb ..).trans (faultPart_modComb ..)
  · unfold releaseHeld
    exact (foldl_keeps_eq faultPart (fun _ _ => faultPart_stageNow ..) _ _).trans
      ((faultPart_modComb ..).trans (faultPart_modComb ..))

theorem faultPart_jobEnds (st : Nat) : faultPart (jobEnds st s) = faultPart s := by
  unfold jobEnds
  split
  · exact faultPart_complete ..
  · rfl

theorem faultPart_dropMap (x : Fin 2) (p : PendMap) : faultPart (dropMap x s p) = faultPart s :=
  faultPart_complete ..

theorem faultPart_undoPart (c : Stamped) : faultPart (undoPart s c) = faultPart s := by
  unfold undoPart
  split
  · exact faultPart_commitGone ..
  · dsimp only
    split
    · exact (faultPart_jobEnds ..).trans (foldl_keeps_eq faultPart (fun _ _ => faultPart_modCell ..) _ s)
    · exact foldl_keeps_eq faultPart (fun _ _ => faultPart_modCell ..) _ s
  · exact foldl_keeps_eq faultPart (fun _ _ => faultPart_dropMap ..) _ s
  · rfl
  · split <;> rfl
  · rfl

theorem faultPart_responseLost (k : CmdKey) : faultPart (responseLost k s) = faultPart s := by
  unfold responseLost
  change faultPart (List.foldl _ s _) = _
  refine foldl_keeps_eq faultPart (fun t p => ?_) _ s
  exact (faultPart_raiseIf (n := 15) _ (by decide) ..).trans rfl

theorem faultPart_deferredLost (c : Stamped) : faultPart (deferredLost s c) = faultPart s :=
  foldl_keeps_eq faultPart (fun _ _ => faultPart_complete ..) _ s

theorem faultPart_refill (n : Nat) : faultPart (refill n s) = faultPart s := by
  induction n generalizing s with
  | zero => rfl
  | succ n ih =>
    unfold refill
    split
    · rfl
    · split
      · exact ih _
      · rfl

/-- A withdrawal leaves the fault record and the count of EV52. -/
theorem faultPart_withdraw (l : List CmdKey) : faultPart (withdraw l s) = faultPart s := by
  unfold withdraw
  refine (faultPart_refill ..).trans ?_
  refine (foldl_keeps_eq faultPart (fun _ _ => faultPart_undoPart ..) _ _).trans ?_
  refine (foldl_keeps_eq faultPart (fun _ _ => faultPart_entryLost ..) _ _).trans ?_
  refine (foldl_keeps_eq faultPart (fun _ _ => faultPart_deferredLost ..) _ _).trans ?_
  exact foldl_keeps_eq faultPart (fun _ _ => faultPart_responseLost ..) _ _

theorem faultPart_dropStale (q : QEntry) : faultPart (dropStale q s) = faultPart s :=
  (faultPart_memReadEnds ..).trans (faultPart_raiseFrom (n := 11) _ (by decide) ..)

theorem faultPart_wrCoefs (c : Fin 32) (b : Fin 2) (a : Nat) (ws : List Word) :
    faultPart (wrCoefs c b a ws s) = faultPart s := by
  induction ws generalizing a s with
  | nil => rfl
  | cons w ws ih => exact ih (s := wrCoef c b a w s) (a + 1)

theorem faultPart_wrProgs (c : Fin 32) (b : Fin 2) (a : Nat) (ws : List Word) :
    faultPart (wrProgs c b a ws s) = faultPart s := by
  induction ws generalizing a s with
  | nil => rfl
  | cons w ws ih => exact (ih _ (a + 1)).trans rfl

theorem faultPart_snapWords (mk : Nat → WordAt) (rd : Nat → Word) (l : List Nat) :
    faultPart (snapWords mk rd l s).2 = faultPart s := by
  induction l generalizing s with
  | nil => rfl
  | cons a l ih => exact (ih _).trans (faultPart_checkWord s (mk a))

theorem faultPart_memSnapshot (c : Fin 32) (pre : Cell) (k : Nat) (b : Fin 2) (first n : Nat) :
    faultPart (memSnapshot c pre k b first n s).2 = faultPart s := by
  unfold memSnapshot
  dsimp only
  split <;> exact faultPart_snapWords ..

theorem faultPart_memMasked (c : Fin 32) (pre : Cell) (k : Nat) (b : Fin 2) (first : Nat) (ws : List Word) :
    faultPart (memMasked c pre k b first ws s).2 = faultPart s := by
  unfold memMasked
  extract_lets on
  split <;> rfl

theorem faultPart_applyMsg (pre : Cell) (e : Nat) (q : QEntry) : faultPart (applyMsg pre e q s) = faultPart s := by
  unfold applyMsg
  dsimp only
  split
  · rfl
  · split
    · exact faultPart_wrProgs ..
    · rfl
  · split <;> rfl
  · split
    · refine (faultPart_wrCoefs ..).trans ?_
      unfold setCoefId
      split <;> rfl
    · rfl
  · rfl
  · rfl
  · rfl
  · rfl
  · exact (faultPart_complete ..).trans ((faultPart_memMasked ..).trans (faultPart_memSnapshot ..))

theorem faultPart_arriveNow (q : QEntry) : faultPart (arriveNow q s) = faultPart s := by
  unfold arriveNow
  dsimp only
  split
  · exact faultPart_applyMsg ..
  · exact faultPart_dropStale ..

theorem faultPart_arriveLater (f : Nat) (q : QEntry) : faultPart (arriveLater f q s) = faultPart s := by
  unfold arriveLater
  split
  · exact faultPart_entryLost ..
  · rfl

theorem faultPart_queueArrive (q : QEntry) : faultPart (queueArrive q s) = faultPart s := by
  unfold queueArrive
  split
  · exact faultPart_arriveNow ..
  · split
    · split
      · exact (faultPart_arriveLater ..).trans rfl
      · exact (faultPart_arriveNow ..).trans rfl
    · exact faultPart_arriveLater ..

theorem faultPart_endWalk (x : Fin 2) (reason : Nat) : faultPart (endWalk x reason s) = faultPart s := by
  have hevt : hwEvt x 35 ≠ 52 := by
    revert x
    decide
  unfold endWalk
  dsimp only
  split
  · rfl
  · split
    · refine (faultPart_complete ..).trans ?_
      split
      · exact (faultPart_modHw ..).trans ((faultPart_raise _ hevt _).trans (faultPart_modHw ..))
      · exact faultPart_modHw ..
    · split
      · exact (faultPart_modHw ..).trans ((faultPart_raise _ hevt _).trans (faultPart_modHw ..))
      · exact faultPart_modHw ..

theorem faultPart_xactEnds (x : Fin 2) (st : Nat) (q : Xact) : faultPart (xactEnds x st q s) = faultPart s := by
  unfold xactEnds
  split
  · exact faultPart_complete ..
  · exact faultPart_complete ..
  · split
    · exact (faultPart_complete ..).trans rfl
    · rfl
  · dsimp only
    split <;> exact faultPart_endWalk ..
  · rfl

theorem faultPart_xactLost (x : Fin 2) : faultPart (xactLost x s) = faultPart s := by
  unfold xactLost
  split
  · exact (faultPart_xactEnds ..).trans rfl
  · rfl

theorem faultPart_messageLost : faultPart (messageLost s) = faultPart s := by
  unfold messageLost
  split
  · exact faultPart_withdraw ..
  · dsimp only
    split
    · exact (faultPart_withdraw ..).trans ((faultPart_queueArrive ..).trans rfl)
    · exact (faultPart_withdraw ..).trans rfl
  · rfl

end

/-- A crossing timeout, recorded, logged and raised (R550, R555, R557). -/
def crossingLogged (a b : Fin 26) (s : State) : State :=
  logFault 0x0A (BitVec.ofNat 16 (crossingWord a b).toNat)
    (raiseFrom a 52 (crossingWord a b) { s with flt := { s.flt with
      xto := true, xsrc := BitVec.ofNat 5 a, xdst := BitVec.ofNat 5 b } })

/-- What a crossing timeout withdraws leaves its record (R40, R41). -/
theorem execCrossingTimeout_faultPart (a b : Fin 26) {s : State} (hon : s.pow.st ≠ .off) :
    ∃ t, exec (.crossingTimeout a b) s = .next t ∧ faultPart t = faultPart (crossingLogged a b s) := by
  have hexec : exec (.crossingTimeout a b) s = if a ≠ 3 then .next (crossingLogged a b s)
      else if (crossingLogged a b s).ianik.staged.any (fun c => c.shake == .raised && chgIsland c.chg == some b.val) then
        .next (shakeLost b (crossingLogged a b s))
      else if b = 0 then .next (messageLost (crossingLogged a b s))
      else if b = 24 then .next (xactLost 0 (crossingLogged a b s))
      else if b = 25 then .next (xactLost 1 (crossingLogged a b s))
      else .next (crossingLogged a b s) := by
    change execCrossingTimeout a b s = _
    rw [execCrossingTimeout, hearthOn_of_ne_off hon]
    rfl
  rw [hexec]
  split
  · exact ⟨_, rfl, rfl⟩
  · split
    · exact ⟨_, rfl, rfl⟩
    · split
      · exact ⟨_, rfl, faultPart_messageLost _⟩
      · split
        · exact ⟨_, rfl, faultPart_xactLost ..⟩
        · split
          · exact ⟨_, rfl, faultPart_xactLost ..⟩
          · exact ⟨_, rfl, rfl⟩

theorem crossingWord_low : ∀ a b : Fin 26, BitVec.ofNat 16 (crossingWord a b).toNat = BitVec.ofNat 16 (32 * a.val + b.val) := by
  decide +kernel

theorem crossingTimeout_effect (a b : Fin 26) {s : State} (hon : s.pow.st ≠ .off) :
    ∃ t, exec (.crossingTimeout a b) s = .next t ∧
      t.flt.xto = true ∧ t.flt.xsrc = BitVec.ofNat 5 a ∧ t.flt.xdst = BitVec.ofNat 5 b ∧
      t.evt.acc[52] = stick 65535 s.evt.acc[52] ∧
      t.flt.log = (⟨0x0A, s.pow.wakes, BitVec.ofNat 16 (32 * a.val + b.val), logFrame s, Config.freeLong s.fresh⟩ ::
        s.flt.log).take 16 := by
  obtain ⟨t, ht, hpart⟩ := execCrossingTimeout_faultPart a b hon
  have hflt : t.flt = (crossingLogged a b s).flt := congrArg Prod.fst hpart
  have hacc : t.evt.acc[52] = (crossingLogged a b s).evt.acc[52] := congrArg Prod.snd hpart
  refine ⟨t, ht, ?_⟩
  rw [hflt, hacc, ← crossingWord_low a b]
  exact ⟨rfl, rfl, rfl, acc_raise_same 52 (crossingWord a b) _, rfl⟩

end Sys2Proof.Machine
end

section
/-! The doorbell strobe: what is posted, and what a mailbox rung since the strobe before is answered (R467, R470, R474, R492,
R493); completion records and firmware faults (R475, R478, R495). -/

namespace Sys2Proof.Machine

/-! ### Folds of which one step counts -/

theorem foldl_keeps_of_mem {σ α β : Type} (f : σ → β) {g : σ → α → σ} {l : List α}
    (hg : ∀ s, ∀ a ∈ l, f (g s a) = f s) (s : σ) : f (l.foldl g s) = f s := by
  induction l generalizing s with
  | nil => rfl
  | cons a l ih =>
    exact (ih (fun t b hb => hg t b (List.mem_cons_of_mem _ hb)) (g s a)).trans (hg s a List.mem_cons_self)

/-- What the step of `m` makes of a part that the other steps keep stands at the end of the fold. -/
theorem foldl_at {σ α β γ : Type} [DecidableEq α] {g : σ → α → σ} {m : α} {f : σ → β} {h : σ → γ} {b : β} {c : γ}
    (hf : ∀ s k, k ≠ m → f (g s k) = f s) (hh : ∀ s k, k ≠ m → h (g s k) = h s) (hm : ∀ s, f s = b → h (g s m) = c)
    {l : List α} (hnodup : l.Nodup) (hmem : m ∈ l) {s : σ} (hs : f s = b) : h (l.foldl g s) = c := by
  induction l generalizing s with
  | nil => exact absurd hmem (List.not_mem_nil)
  | cons a l ih =>
    obtain ⟨ha, hl⟩ := List.nodup_cons.mp hnodup
    by_cases hma : a = m
    · subst hma
      exact (foldl_keeps_of_mem h (fun t k hk => hh t k fun e => ha (e ▸ hk)) _).trans (hm s hs)
    · exact ih hl ((List.mem_cons.mp hmem).resolve_left (Ne.symm hma)) ((hf s a hma).trans hs)

/-! ### A mailbox -/

/-- A mailbox, the count of its event at its source, and the Stove, whose frame tells what is due. -/
def mbxPart (m : Fin 4) (s : State) : Mbx × Nat × Stove := (s.mbx[m], s.evt.acc[m.val], s.stove)

theorem modMbx_mbx_ne {m k : Fin 4} (h : k ≠ m) (f : Mbx → Mbx) (s : State) : (modMbx k f s).mbx[m] = s.mbx[m] := by
  have hne : k.val ≠ m.val := fun e => h (Fin.ext e)
  simp only [modMbx, vmod, Fin.getElem_fin, Vector.getElem_set_ne _ _ hne]

theorem mbxPart_modMbx {m k : Fin 4} (h : k ≠ m) (f : Mbx → Mbx) (s : State) : mbxPart m (modMbx k f s) = mbxPart m s :=
  Prod.ext (modMbx_mbx_ne h f s) rfl

section
variable (m : Fin 4) (s : State)

theorem mbxPart_raise {n : Nat} (h : n ≠ m.val) (d : Word) : mbxPart m (raise n d s) = mbxPart m s :=
  Prod.ext rfl (Prod.ext (acc_raise_of_ne (k := ⟨m.val, by omega⟩) d s h) rfl)

theorem mbxPart_raiseFrom {n : Nat} (h : n ≠ m.val) (src : Nat) (d : Word) :
    mbxPart m (raiseFrom src n d s) = mbxPart m s :=
  mbxPart_raise m s h d

theorem mbxPart_complete (op k : Nat) (tag : BitVec 16) (st : Byte) (ws : List Word) :
    mbxPart m (complete op k tag st ws s) = mbxPart m s := by
  rw [complete_frame]
  rfl

theorem mbxPart_ramWrites (a : Nat) (ws : List Word) : mbxPart m (ramWrites a ws s) = mbxPart m s := by
  induction ws generalizing a s with
  | nil => rfl
  | cons w ws ih => exact (ih (ramWrite a w s) (a + 4)).trans rfl

variable {m} in
theorem mbxPart_post {k : Fin 4} (h : k ≠ m) : mbxPart m (post k s) = mbxPart m s := by
  have hne : k.val ≠ m.val := fun e => h (Fin.ext e)
  unfold post
  split
  · rfl
  · dsimp only
    split
    · exact (mbxPart_modMbx h ..).trans (mbxPart_ramWrites ..)
    · split
      · exact (mbxPart_raiseFrom _ _ hne ..).trans ((mbxPart_modMbx h ..).trans (mbxPart_ramWrites ..))
      · exact (mbxPart_raise _ _ hne ..).trans ((mbxPart_modMbx h ..).trans (mbxPart_ramWrites ..))

theorem mbxPart_dropMap (x : Fin 2) (p : PendMap) : mbxPart m (dropMap x s p) = mbxPart m s :=
  mbxPart_complete ..

theorem mbxPart_hwStrobe (n : Nat) (x : Fin 2) : mbxPart m (hwStrobe n x s) = mbxPart m s := by
  unfold hwStrobe
  refine (foldl_keeps_eq (mbxPart m) (fun t p => ?_) _ _).trans rfl
  split
  · exact mbxPart_complete ..
  · exact mbxPart_dropMap ..

theorem mbxPart_strobeThermal : mbxPart m (strobeThermal s) = mbxPart m s := by
  unfold strobeThermal
  split
  · rfl
  · dsimp only
    split <;> rfl

theorem mbxPart_checkWord (w : WordAt) : mbxPart m (checkWord w s).2 = mbxPart m s := by
  unfold checkWord
  split
  · rfl
  · split
    · exact mbxPart_raiseFrom (n := 54) m _ (by omega) ..
    · rfl

theorem mbxPart_readTail : mbxPart m (readTail s) = mbxPart m s := by
  have hpart := mbxPart_checkWord m s ⟨.mailboxRam, 0, 0, 0xF004 / 4⟩
  unfold readTail
  generalize checkWord ⟨.mailboxRam, 0, 0, 0xF004 / 4⟩ s = c at hpart ⊢
  obtain ⟨ok, t⟩ := c
  dsimp only at hpart ⊢
  by_cases h : (if ok then (rdW t.ram 0xF004).toNat else 0) ≤ 1019
  · rw [if_pos h]
    exact hpart
  · rw [if_neg h]
    exact hpart

end

theorem readReq_congr {m : Fin 4} {s t : State} (hram : t.ram = s.ram) (hups : t.care.upsets = s.care.upsets) :
    readReq m t = readReq m s := by
  simp only [readReq, ramReads, hram, hups]

/-! ### Posting -/

/-- A mailbox whose response `p` is posted (R470). -/
def postedMbx (p : Response) (b : Mbx) : Mbx :=
  { b with
    st := .done, status := p.status, seqDone := b.seqRung, hearth := b.fromHearth
    ver := b.grant.getD b.ver, grant := none, bulk := none, resp := none }

theorem post_mbx_same {m : Fin 4} {p : Response} {s : State} (h : s.mbx[m].resp = some p) :
    (post m s).mbx[m] = postedMbx p s.mbx[m] := by
  have hposted (f : Mbx → Mbx) : (modMbx m f (ramWrites (rspArea m) (rspWords p) s)).mbx[m] = f s.mbx[m] := by
    rw [modMbx_mbx_same, ramWrites_mbx]
  unfold post
  rw [h]
  dsimp only
  split
  · exact hposted _
  · split <;> exact hposted _

theorem ramWrites_acc (a : Nat) (ws : List Word) (s : State) : (ramWrites a ws s).evt.acc = s.evt.acc := by
  induction ws generalizing a s with
  | nil => rfl
  | cons w ws ih => exact (ih (a + 4) (ramWrite a w s)).trans rfl

theorem raise_acc (m : Fin 4) (d : Word) (s : State) :
    (raise m.val d s).evt.acc = s.evt.acc.set m.val (stick 65535 s.evt.acc[m.val]) := by
  have hm : m.val < 64 := by omega
  simp only [raise_evt, raiseEvt, vmodN, hm, dite_true]

theorem post_acc {m : Fin 4} {p : Response} {s : State} (h : s.mbx[m].resp = some p) :
    (post m s).evt.acc = if s.mbx[m].quiet then s.evt.acc else s.evt.acc.set m.val (stick 65535 s.evt.acc[m.val]) := by
  have hposted (f : Mbx → Mbx) : (modMbx m f (ramWrites (rspArea m) (rspWords p) s)).evt.acc = s.evt.acc :=
    ramWrites_acc ..
  unfold post
  rw [h]
  dsimp only
  split
  · exact hposted _
  · have hraised (f : Mbx → Mbx) (d : Word) : (raise m.val d (modMbx m f
        (ramWrites (rspArea m) (rspWords p) s))).evt.acc = s.evt.acc.set m.val (stick 65535 s.evt.acc[m.val]) := by
      rw [raise_acc]
      simp only [hposted]
    split
    · exact hraised _ (n2w p.tag.toNat 16 ||| n2w p.status.toNat 8)
    · exact hraised ..

theorem ramWrites_stove (a : Nat) (ws : List Word) (s : State) : (ramWrites a ws s).stove = s.stove := by
  induction ws generalizing a s with
  | nil => rfl
  | cons w ws ih => exact (ih (a + 4) (ramWrite a w s)).trans rfl

theorem post_stove (m : Fin 4) (s : State) : (post m s).stove = s.stove := by
  unfold post
  split
  · rfl
  · dsimp only
    split
    · exact ramWrites_stove ..
    · split <;> exact ramWrites_stove ..

/-- One mailbox of the posting (R470, R485). -/
def strobePost (s : State) (m : Fin 4) : State :=
  if postDue m s then (if m = 2 then tunnelPosted (post m s) else post m s) else s

theorem strobePosts_eq (s : State) : strobePosts s = (List.finRange 4).foldl strobePost s := rfl

theorem mbxPart_strobePost {m k : Fin 4} (s : State) (h : k ≠ m) : mbxPart m (strobePost s k) = mbxPart m s := by
  unfold strobePost
  split
  · split <;> exact mbxPart_post s h
  · rfl

/-- A mailbox whose response is due is posted, with its event unless it is QUIET (R470, R472). -/
theorem strobePosts_due {m : Fin 4} {p : Response} {s : State} (hst : s.mbx[m].st = .busy)
    (hresp : s.mbx[m].resp = some p) (hdue : s.mbx[m].sampled ≠ s.stove.frame) :
    (strobePosts s).mbx[m] = postedMbx p s.mbx[m] ∧ (strobePosts s).evt.acc[m.val] =
      if s.mbx[m].quiet then s.evt.acc[m.val] else stick 65535 s.evt.acc[m.val] := by
  have hpart : mbxPart m (strobePosts s) = (postedMbx p s.mbx[m],
      (if s.mbx[m].quiet then s.evt.acc[m.val] else stick 65535 s.evt.acc[m.val]), s.stove) := by
    rw [strobePosts_eq]
    refine foldl_at (g := strobePost) (m := m) (f := mbxPart m) (b := mbxPart m s)
      (fun t k hk => mbxPart_strobePost t hk) (fun t k hk => mbxPart_strobePost t hk) (fun t ht => ?_)
      (List.nodup_finRange 4) (List.mem_finRange m) rfl
    simp only [mbxPart, Prod.mk.injEq] at ht
    obtain ⟨hmbx, hacc, hstove⟩ := ht
    have hdue' : postDue m t = true := by
      simp only [postDue, hmbx, hst, hresp, hstove, bne_iff_ne.mpr hdue]
      rfl
    have hpost : mbxPart m (post m t) = (postedMbx p s.mbx[m],
        (if s.mbx[m].quiet then s.evt.acc[m.val] else stick 65535 s.evt.acc[m.val]), s.stove) := by
      have hresp' : t.mbx[m].resp = some p := by rw [hmbx, hresp]
      refine Prod.ext ((post_mbx_same hresp').trans (by rw [hmbx])) (Prod.ext ?_ ?_)
      · refine (congrArg (fun v => v[m.val]'(by omega)) (post_acc hresp')).trans ?_
        dsimp only
        rw [hmbx]
        split
        · exact hacc
        · simp [hacc]
      · exact (post_stove ..).trans hstove
    unfold strobePost
    rw [if_pos hdue']
    split <;> exact hpost
  simp only [mbxPart, Prod.mk.injEq] at hpart
  obtain ⟨hmbx, hacc, -⟩ := hpart
  exact ⟨hmbx, hacc⟩

theorem strobePosts_not_due {m : Fin 4} {s : State} (hnot : postDue m s = false) :
    (strobePosts s).mbx[m] = s.mbx[m] := by
  have hpart : mbxPart m (strobePosts s) = mbxPart m s := by
    rw [strobePosts_eq]
    refine foldl_at (g := strobePost) (m := m) (f := mbxPart m) (b := mbxPart m s)
      (fun t k hk => mbxPart_strobePost t hk) (fun t k hk => mbxPart_strobePost t hk) (fun t ht => ?_)
      (List.nodup_finRange 4) (List.mem_finRange m) rfl
    have hnot' : postDue m t = false := by
      simp only [mbxPart, Prod.mk.injEq] at ht
      obtain ⟨hmbx, -, hstove⟩ := ht
      rw [← hnot]
      simp only [postDue, hmbx, hstove]
    unfold strobePost
    rw [if_neg (by simp [hnot'])]
    exact ht
  simp only [mbxPart, Prod.mk.injEq] at hpart
  obtain ⟨hmbx, -⟩ := hpart
  exact hmbx

/-! ### The strobe of a device in an Ianik reset -/

/-- A mailbox and the words that a command is read from. -/
def readPart (m : Fin 4) (s : State) : (Mbx × Nat × Stove) × Mem × List Upset := (mbxPart m s, s.ram, s.care.upsets)

/-- One mailbox at a strobe during an Ianik reset (R492). -/
def strobeHeld (s : State) (m : Fin 4) : State :=
  if s.mbx[m].st = .rung then mbxFails m stBusy s else if leftBusy m s then mbxFails m stTimeout s else s

theorem strobeReset_eq (s : State) : strobeReset s = (List.finRange 4).foldl strobeHeld s := rfl

theorem readPart_mbxFails {m k : Fin 4} (h : k ≠ m) (st : Nat) (s : State) :
    readPart m (mbxFails k st s) = readPart m s := by
  have hraise (c : Prop) [Decidable c] (d : Word) : readPart m (if c then raiseFrom 5 15 d s else s) = readPart m s := by
    split
    · exact Prod.ext (mbxPart_raiseFrom (n := 15) m s (by omega) ..) rfl
    · rfl
  unfold mbxFails
  dsimp only
  have hmod (t : State) (f : Mbx → Mbx) : readPart m (modMbx k f t) = readPart m t :=
    Prod.ext (mbxPart_modMbx h f t) rfl
  exact (hmod ..).trans (hraise _ (n2w (readReq k s).1 16 ||| n2w st 8))

theorem readPart_strobeHeld {m k : Fin 4} (s : State) (h : k ≠ m) : readPart m (strobeHeld s k) = readPart m s := by
  unfold strobeHeld
  split
  · exact readPart_mbxFails h ..
  · split
    · exact readPart_mbxFails h ..
    · rfl

/-- A mailbox that is neither rung nor left busy stands at a strobe during an Ianik reset. -/
theorem mbxPart_strobeReset {m : Fin 4} {s : State} (hrung : s.mbx[m].st ≠ .rung) (hleft : leftBusy m s = false) :
    mbxPart m (strobeReset s) = mbxPart m s := by
  rw [strobeReset_eq]
  refine foldl_at (m := m) (f := mbxPart m) (b := mbxPart m s)
    (fun t k hk => congrArg Prod.fst (readPart_strobeHeld t hk)) (fun t k hk => congrArg Prod.fst (readPart_strobeHeld t hk))
    (fun t ht => ?_) (List.nodup_finRange 4) (List.mem_finRange m) rfl
  have hmbx : t.mbx[m] = s.mbx[m] := by
    simp only [mbxPart, Prod.mk.injEq] at ht
    exact ht.1
  unfold strobeHeld
  rw [if_neg (by rw [hmbx]; exact hrung), if_neg (by rw [leftBusy, hmbx, ← leftBusy, hleft]; decide)]
  exact ht

/-- The mailbox of a command that the Hearth has refused. -/
def failedMbx (op : Nat) (r : Req) (st n : Nat) (b : Mbx) : Mbx :=
  { b with
    st := .busy, sampled := n, quiet := r.flags.getLsbD 0, fromHearth := true
    resp := some ⟨BitVec.ofNat 16 op, BitVec.ofNat 8 st, r.ver, r.tag, r.target, []⟩ }

theorem mbxFails_mbx (m : Fin 4) (st : Nat) (s : State) :
    (mbxFails m st s).mbx[m] = failedMbx (readReq m s).1 (readReq m s).2 st s.stove.frame s.mbx[m] ∧
      (mbxFails m st s).stove = s.stove := by
  unfold mbxFails answer
  dsimp only
  rw [modMbx_mbx_same]
  split <;> exact ⟨rfl, rfl⟩

/-- A mailbox rung since the strobe before is answered BUSY while Ianik is in reset (R492). -/
theorem strobeReset_rung {m : Fin 4} {s : State} (hrung : s.mbx[m].st = .rung) :
    (strobeReset s).mbx[m] = failedMbx (readReq m s).1 (readReq m s).2 stBusy s.stove.frame s.mbx[m] ∧
      (strobeReset s).stove = s.stove := by
  have hpart : ((strobeReset s).mbx[m], (strobeReset s).stove) =
      (failedMbx (readReq m s).1 (readReq m s).2 stBusy s.stove.frame s.mbx[m], s.stove) := by
    rw [strobeReset_eq]
    refine foldl_at (m := m) (f := readPart m) (h := fun t => (t.mbx[m], t.stove)) (b := readPart m s)
      (fun t k hk => readPart_strobeHeld t hk) (fun t k hk => ?_)
      (fun t ht => ?_) (List.nodup_finRange 4) (List.mem_finRange m) rfl
    · have h := readPart_strobeHeld t hk
      simp only [readPart, mbxPart, Prod.mk.injEq] at h
      obtain ⟨⟨hmbx, -, hstove⟩, -⟩ := h
      exact Prod.ext hmbx hstove
    · simp only [readPart, mbxPart, Prod.mk.injEq] at ht
      obtain ⟨⟨hmbx, -, hstove⟩, hram, hups⟩ := ht
      obtain ⟨hfails, hsame⟩ := mbxFails_mbx m stBusy t
      have hheld : strobeHeld t m = mbxFails m stBusy t := if_pos (by rw [hmbx]; exact hrung)
      rw [hheld, hfails, hsame, readReq_congr hram hups, hmbx, hstove]
  simpa only [Prod.mk.injEq] using hpart

/-! ### The strobe that Ianik serves -/

/-- One mailbox that an Ianik reset left busy, at a strobe that Ianik serves (R493). -/
def strobeLeft (s : State) (m : Fin 4) : State := if leftBusy m s && mbxServed m s then mbxFails m stTimeout s else s

/-- One mailbox at a strobe that Ianik serves (R467, R470). -/
def strobeSampled (s : State) (m : Fin 4) : State := if s.mbx[m].st = .rung && mbxServed m s then sampleRung m s else s

theorem strobeServed_eq (s : State) :
    strobeServed s = (List.finRange 4).foldl strobeSampled ((List.finRange 4).foldl strobeLeft s) := rfl

theorem foldl_eq_self {σ α : Type} {g : σ → α → σ} {s : σ} (l : List α) (h : ∀ a ∈ l, g s a = s) : l.foldl g s = s := by
  induction l with
  | nil => rfl
  | cons a l ih =>
    rw [List.foldl_cons, h a List.mem_cons_self]
    exact ih fun b hb => h b (List.mem_cons_of_mem _ hb)

theorem strobeLeft_none {s : State} (h : ∀ k, leftBusy k s = false) : (List.finRange 4).foldl strobeLeft s = s :=
  foldl_eq_self _ fun k _ => by simp [strobeLeft, h k]

/-- Without a rung mailbox, and with none left busy, a strobe samples nothing. -/
theorem strobeServed_idle {s : State} (h : ∀ k : Fin 4, s.mbx[k].st ≠ .rung ∧ leftBusy k s = false) :
    strobeServed s = s := by
  rw [strobeServed_eq, strobeLeft_none fun k => (h k).2]
  refine foldl_eq_self _ fun k _ => ?_
  unfold strobeSampled
  rw [decide_eq_false (h k).1, Bool.false_and, if_neg Bool.false_ne_true]

/-- What a strobe does once the mailboxes are served, where nothing is staged or under way (R42, R357, R554). -/
theorem mbxPart_strobeIanik {m : Fin 4} {s t : State} (ht : strobeServed (readTail s) = t) (hstaged : t.ianik.staged = [])
    (hstalled : t.ianik.stalled = []) (htransit : t.hive.transit = []) : mbxPart m (strobeIanik s) = mbxPart m t := by
  have hlost : strobeLost t = [] := by simp [strobeLost, hstaged, hstalled, htransit]
  unfold strobeIanik
  dsimp only
  rw [ht, hlost]
  exact (mbxPart_strobeThermal ..).trans ((mbxPart_hwStrobe ..).trans (mbxPart_hwStrobe ..))

/-! ### A rung mailbox with an opcode of no command -/

theorem checkWord_clean {w : WordAt} {s : State} (h : s.care.upsets = []) : checkWord w s = (true, s) := by
  simp [checkWord, upsetOf, h]

/-- Without errors in the memories, the read of the ring tail counts none. -/
theorem readTail_care {s : State} (h : s.care.upsets = []) : (readTail s).care = s.care := by
  unfold readTail
  rw [checkWord_clean h]
  simp only [if_true, apply_ite State.care, ite_self]

/-- An opcode that no command has is refused with BAD_OPCODE (R474). -/
theorem sampleRung_badOpcode {m : Fin 4} {s : State} (hups : s.care.upsets = []) (hop : cmdOf (readReq m s).1 = none) :
    sampleRung m s = answer (readReq m s).1 m (readReq m s).2 stBadOpcode [] false (tunCleared m s) := by
  have hblind : wordBad (cmdArea m) s = false := by simp [wordBad, hups]
  have herrs : cmdErrs m (readReq m s).2 s = s := by simp [cmdErrs, hups]
  simp only [sampleRung, hblind, herrs, hop, Bool.false_eq_true, if_false]

theorem tunCleared_frame (m : Fin 4) (s : State) : tunCleared m s =
    { s with ianik := { s.ianik with tunOverflow := (tunCleared m s).ianik.tunOverflow } } := by
  unfold tunCleared
  split <;> rfl

theorem leftBusy_congr {m : Fin 4} {s t : State} (h : t.mbx[m] = s.mbx[m]) : leftBusy m t = leftBusy m s := by
  rw [leftBusy, h, ← leftBusy]

/-- A strobe at which only `m` is rung samples it alone (R467). -/
theorem strobeServed_one {m : Fin 4} {s : State} (hrung : ∀ k : Fin 4, s.mbx[k].st = .rung ↔ k = m)
    (hleft : ∀ k, leftBusy k s = false) (hserved : mbxServed m s = true)
    (hstays : ∀ k, k ≠ m → (sampleRung m s).mbx[k] = s.mbx[k]) : strobeServed s = sampleRung m s := by
  rw [strobeServed_eq, strobeLeft_none hleft]
  have hskip (t : State) (ht : ∀ k, k ≠ m → t.mbx[k] = s.mbx[k]) (l : List (Fin 4)) (hl : m ∉ l) :
      l.foldl strobeSampled t = t := by
    refine foldl_eq_self _ fun k hk => ?_
    have hkm : k ≠ m := fun e => hl (e ▸ hk)
    have hnot : ¬ t.mbx[k].st = .rung := by
      rw [ht k hkm]
      exact fun h => hkm ((hrung k).mp h)
    unfold strobeSampled
    rw [decide_eq_false hnot, Bool.false_and, if_neg Bool.false_ne_true]
  obtain ⟨l, l', hl⟩ := List.append_of_mem (List.mem_finRange m)
  have hnodup := List.nodup_finRange 4
  rw [hl] at hnodup ⊢
  have hl1 : m ∉ l := fun h => (List.nodup_append.mp hnodup).2.2 m h m List.mem_cons_self rfl
  have hl2 : m ∉ l' := (List.nodup_cons.mp (List.nodup_append.mp hnodup).2.1).1
  have hone : strobeSampled s m = sampleRung m s := by
    unfold strobeSampled
    rw [decide_eq_true ((hrung m).mpr rfl), hserved, Bool.and_self, if_pos rfl]
  rw [List.foldl_append, hskip s (fun _ _ => rfl) l hl1, List.foldl_cons, hone, hskip _ hstays l' hl2]

/-! ### Completion records and firmware faults -/

theorem ramWrites_evt (a : Nat) (ws : List Word) (s : State) : (ramWrites a ws s).evt = s.evt := by
  induction ws generalizing a s with
  | nil => rfl
  | cons w ws ih => exact (ih (a + 4) (ramWrite a w s)).trans rfl

theorem ramWrites_ianik (a : Nat) (ws : List Word) (s : State) : (ramWrites a ws s).ianik = s.ianik := by
  induction ws generalizing a s with
  | nil => rfl
  | cons w ws ih => exact (ih (a + 4) (ramWrite a w s)).trans rfl

@[simp] theorem ramWrite_evt (a : Nat) (w : Word) (s : State) : (ramWrite a w s).evt = s.evt := rfl

@[simp] theorem ramWrite_ianik (a : Nat) (w : Word) (s : State) : (ramWrite a w s).ianik = s.ianik := rfl

/-- A record moves the head of the ring and its sequence number on (R477). -/
theorem ringPut_evt (kind : Nat) (ws : List Word) (s : State) : (ringPut kind ws s).evt =
    { s.evt with head := (ringPut kind ws s).evt.head, ringSeq := (s.evt.ringSeq + 1) % 65536 } := by
  simp only [ringPut, ramWrite_evt, ramWrites_evt, apply_ite State.evt, ite_self]

theorem ringPut_ianik (kind : Nat) (ws : List Word) (s : State) : (ringPut kind ws s).ianik = s.ianik := by
  simp only [ringPut, ramWrite_ianik, ramWrites_ianik, apply_ite State.ianik, ite_self]

theorem length_completionWords (c : Completion) (n : Nat) : (completionWords c n).length + 1 = 4 + c.payload.length := by
  simp only [completionWords, List.length_append, List.length_cons, List.length_nil]
  omega

/-- The oldest completion record is written where it fits: its command ends, and EV4 is raised (R475, R478). -/
theorem completionWrite_fits {c : Completion} {cs : List Completion} {s : State} (hwait : s.evt.waiting = c :: cs)
    (hfits : ringFits (4 + c.payload.length) s.evt = true) :
    (completionWrite s).evt.waiting = cs ∧ (completionWrite s).evt.acc[4] = stick 65535 s.evt.acc[4] ∧
      (completionWrite s).ianik.deferred =
        dropFirst (fun d => d.opcode == c.opcode && d.mbx == c.mbx && d.tag == c.tag) s.ianik.deferred ∧
      (completionWrite s).evt.ringSeq = (s.evt.ringSeq + 1) % 65536 := by
  have hput := ringPut_evt 1 (completionWords c s.stove.frame) { s with evt := { s.evt with waiting := cs } }
  have hianik := ringPut_ianik 1 (completionWords c s.stove.frame) { s with evt := { s.evt with waiting := cs } }
  have hwrite : completionWrite s = raise 4 (n2w c.opcode.toNat 16 ||| n2w c.status.toNat 8 ||| n2w c.mbx 0)
      (let t := ringPut 1 (completionWords c s.stove.frame) { s with evt := { s.evt with waiting := cs } }
       { t with ianik := { t.ianik with deferred := dropFirst (fun d =>
          d.opcode == c.opcode && d.mbx == c.mbx && d.tag == c.tag) t.ianik.deferred } }) := by
    simp only [completionWrite, hwait, length_completionWords, hfits, if_true]
  rw [hwrite]
  generalize ringPut 1 (completionWords c s.stove.frame) { s with evt := { s.evt with waiting := cs } } = t at hput hianik ⊢
  refine ⟨?_, (acc_raise_same 4 _ _).trans ?_, ?_, ?_⟩
  · exact (congrArg Events.waiting hput).trans rfl
  · exact congrArg (fun e => stick 65535 e.acc[4]) hput
  · exact congrArg (fun i => dropFirst _ i.deferred) hianik
  · exact (congrArg Events.ringSeq hput).trans rfl

/-! ### The obligation -/

/-- The state of a strobe as it begins (R422). -/
def strobeBegun (s : State) : State := { s with care := { s.care with strobeAt := some s.stove.frame } }

theorem mbxPart_strobeBegun (m : Fin 4) (s : State) : mbxPart m (strobeBegun s) = mbxPart m s := by
  unfold mbxPart strobeBegun
  rfl

theorem exec_strobe {s : State} (hruns : s.stove.running = true) : exec .doorbellStrobe s =
    .next (strobePosts (if s.pow.ianikRst then strobeReset (strobeBegun s) else strobeIanik (strobeBegun s))) := by
  change execDoorbellStrobe s = _
  simp only [execDoorbellStrobe, hruns, if_true]
  rfl

/-- A response that is due at a strobe, where nothing else calls for its mailbox, is posted (R470, R472, R492). -/
theorem strobe_posts {m : Fin 4} {p : Response} {s v : State} (hst : s.mbx[m].st = .busy)
    (hresp : s.mbx[m].resp = some p) (hdue : s.mbx[m].sampled ≠ s.stove.frame) (hv : mbxPart m v = mbxPart m s) :
    (strobePosts v).mbx[m] = postedMbx p s.mbx[m] ∧ (strobePosts v).evt.acc[m.val] =
      if s.mbx[m].quiet then s.evt.acc[m.val] else stick 65535 s.evt.acc[m.val] := by
  simp only [mbxPart, Prod.mk.injEq] at hv
  obtain ⟨hmbx, hacc, hstove⟩ := hv
  have h := strobePosts_due (m := m) (p := p) (s := v) (by rw [hmbx, hst]) (by rw [hmbx, hresp])
    (by rw [hmbx, hstove]; exact hdue)
  rwa [hmbx, hacc] at h

/-- What a strobe has just answered is not due yet (R470). -/
theorem postDue_answered {m : Fin 4} {s : State} (hvalid : s.stove.valid = true)
    (hsampled : s.mbx[m].sampled = s.stove.frame) : postDue m s = false := by
  simp only [postDue, hsampled, hvalid, bne_self_eq_false, Bool.not_true, Bool.or_self, Bool.and_false]

/-- A mailbox rung with an opcode that no command has is answered BAD_OPCODE (R474). -/
theorem strobeServed_badOpcode {m : Fin 4} {s : State} (hserved : mbxServed m s = true)
    (hone : ∀ k : Fin 4, (s.mbx[k].st = .rung ↔ k = m) ∧ leftBusy k s = false) (hups : s.care.upsets = [])
    (hop : cmdOf (readReq m s).1 = none) :
    strobeServed s = answer (readReq m s).1 m (readReq m s).2 stBadOpcode [] false (tunCleared m s) := by
  have hsample := sampleRung_badOpcode (m := m) hups hop
  rw [← hsample]
  refine strobeServed_one (fun k => (hone k).1) (fun k => (hone k).2) hserved fun k hk => ?_
  rw [hsample, answer, modMbx_mbx_ne (Ne.symm hk), tunCleared_frame]

theorem mbxServed_not_reset {m : Fin 4} {s : State} (h : mbxServed m s = true) : s.pow.ianikRst = false := by
  cases hrst : s.pow.ianikRst with
  | false => rfl
  | true => simp [mbxServed, ianikRuns, hrst] at h

theorem exec_strobe_ianik {s : State} (hruns : s.stove.running = true) (hrst : s.pow.ianikRst = false) :
    exec .doorbellStrobe s = .next (strobePosts (strobeIanik (strobeBegun s))) := by
  rw [exec_strobe hruns, hrst, if_neg Bool.false_ne_true]

theorem exec_strobe_reset {s : State} (hruns : s.stove.running = true) (hrst : s.pow.ianikRst = true) :
    exec .doorbellStrobe s = .next (strobePosts (strobeReset (strobeBegun s))) := by
  rw [exec_strobe hruns, hrst, if_pos rfl]

/-- A response of the frame before is posted where nothing else calls for its mailbox (R470, R472, R492). -/
theorem doorbellStrobe_posts {m : Fin 4} {p : Response} {s : State} (hruns : s.stove.running = true)
    (hst : s.mbx[m].st = .busy) (hresp : s.mbx[m].resp = some p) (hdue : s.mbx[m].sampled ≠ s.stove.frame)
    (hidle : s.pow.ianikRst = true ∨ (s.ianik.staged = [] ∧ s.ianik.stalled = [] ∧ s.hive.transit = [] ∧
      ∀ k : Fin 4, s.mbx[k].st ≠ .rung ∧ leftBusy k s = false)) :
    ∃ t, exec .doorbellStrobe s = .next t ∧ t.mbx[m] = postedMbx p s.mbx[m] ∧ t.evt.acc[m.val] =
      if s.mbx[m].quiet then s.evt.acc[m.val] else stick 65535 s.evt.acc[m.val] := by
  have hleft : leftBusy m s = false := by
    rw [leftBusy, hresp]
    exact Bool.and_false _
  obtain ⟨v, hv⟩ : ∃ v, v = if s.pow.ianikRst then strobeReset (strobeBegun s) else strobeIanik (strobeBegun s) :=
    ⟨_, rfl⟩
  have hpart : mbxPart m v = mbxPart m s := by
    rw [hv]
    cases hrst : s.pow.ianikRst with
    | true =>
      rw [if_pos rfl]
      exact mbxPart_strobeReset (s := strobeBegun s) (by change s.mbx[m].st ≠ .rung; rw [hst]; decide) hleft
    | false =>
      rw [if_neg Bool.false_ne_true]
      obtain ⟨hstaged, hstalled, htransit, hnone⟩ := hidle.resolve_left (by simp [hrst])
      have htail := readTail_frame (strobeBegun s)
      have hserved : strobeServed (readTail (strobeBegun s)) = readTail (strobeBegun s) := by
        refine strobeServed_idle fun k => ?_
        have hk : (readTail (strobeBegun s)).mbx[k] = s.mbx[k] := by rw [htail]; rfl
        rw [hk, leftBusy_congr hk]
        exact hnone k
      refine (mbxPart_strobeIanik hserved ?_ ?_ ?_).trans ((mbxPart_readTail ..).trans (mbxPart_strobeBegun m s))
      · rw [htail]; exact hstaged
      · rw [htail]; exact hstalled
      · rw [htail]; exact htransit
  have hposts := strobe_posts hst hresp hdue hpart
  rw [exec_strobe hruns, ← hv]
  exact ⟨strobePosts v, rfl, hposts⟩

/-- A mailbox rung since the strobe before is answered BUSY while Ianik is in reset (R492). -/
theorem doorbellStrobe_rung {m : Fin 4} {s : State} (hruns : s.stove.running = true) (hvalid : s.stove.valid = true)
    (hrst : s.pow.ianikRst = true) (hrung : s.mbx[m].st = .rung) :
    ∃ t, exec .doorbellStrobe s = .next t ∧
      t.mbx[m] = failedMbx (readReq m s).1 (readReq m s).2 stBusy s.stove.frame s.mbx[m] := by
  obtain ⟨v, hv⟩ : ∃ v, v = strobeReset (strobeBegun s) := ⟨_, rfl⟩
  obtain ⟨hmbx, hstove⟩ := strobeReset_rung (s := strobeBegun s) hrung
  rw [← hv] at hmbx hstove
  have hnot : postDue m v = false := postDue_answered (by rw [hstove]; exact hvalid) (by rw [hmbx, hstove]; rfl)
  refine ⟨strobePosts v, (exec_strobe_reset hruns hrst).trans (by rw [hv]), ?_⟩
  exact (strobePosts_not_due hnot).trans hmbx

/-- The mailbox of a command that Ianik has refused. -/
def refusedMbx (op : Nat) (r : Req) (st n : Nat) (b : Mbx) : Mbx :=
  { b with
    st := .busy, sampled := n, quiet := r.flags.getLsbD 0, fromHearth := false
    resp := some ⟨BitVec.ofNat 16 op, BitVec.ofNat 8 st, r.ver, r.tag, r.target, []⟩ }

/-- A mailbox rung since the strobe before with an opcode that no command has is answered BAD_OPCODE (R474). -/
theorem doorbellStrobe_badOpcode {m : Fin 4} {s : State} (hruns : s.stove.running = true) (hvalid : s.stove.valid = true)
    (hserved : mbxServed m s = true) (hone : ∀ k : Fin 4, (s.mbx[k].st = .rung ↔ k = m) ∧ leftBusy k s = false)
    (hstaged : s.ianik.staged = []) (hstalled : s.ianik.stalled = []) (htransit : s.hive.transit = [])
    (hups : s.care.upsets = []) (hop : cmdOf (readReq m s).1 = none) :
    ∃ t, exec .doorbellStrobe s = .next t ∧
      t.mbx[m] = refusedMbx (readReq m s).1 (readReq m s).2 stBadOpcode s.stove.frame s.mbx[m] := by
  obtain ⟨v, hv⟩ : ∃ v, v = readTail (strobeBegun s) := ⟨_, rfl⟩
  have htail := readTail_frame (strobeBegun s)
  have hcare : (readTail (strobeBegun s)).care = (strobeBegun s).care := readTail_care hups
  rw [← hv] at htail hcare
  have hmbx (k : Fin 4) : v.mbx[k] = s.mbx[k] := by rw [htail]; rfl
  have hstove : v.stove = s.stove := by rw [htail]; rfl
  have hread : readReq m v = readReq m s := readReq_congr (by rw [htail]; rfl) (by rw [hcare]; rfl)
  have hserve : strobeServed v = answer (readReq m s).1 m (readReq m s).2 stBadOpcode [] false (tunCleared m v) := by
    rw [← hread]
    refine strobeServed_badOpcode ?_ (fun k => ?_) (by rw [hcare]; exact hups) (by rw [hread]; exact hop)
    · rw [htail]
      exact hserved
    · rw [leftBusy_congr (hmbx k), hmbx]
      exact hone k
  obtain ⟨u, hu⟩ : ∃ u, u = answer (readReq m s).1 m (readReq m s).2 stBadOpcode [] false (tunCleared m v) := ⟨_, rfl⟩
  have hclear := tunCleared_frame m v
  have humbx : u.mbx[m] = refusedMbx (readReq m s).1 (readReq m s).2 stBadOpcode s.stove.frame s.mbx[m] := by
    rw [hu, answer, modMbx_mbx_same, hclear, ← hmbx m, ← hstove]
    rfl
  have hustove : u.stove = s.stove := by
    rw [hu, ← hstove, hclear]
    rfl
  obtain ⟨w, hw⟩ : ∃ w, w = strobeIanik (strobeBegun s) := ⟨_, rfl⟩
  have hpart : mbxPart m w = mbxPart m u := by
    rw [hw]
    refine mbxPart_strobeIanik (by rw [← hv, hserve, hu]) ?_ ?_ ?_
    · rw [hu, answer_ianik, hclear, htail]; exact hstaged
    · rw [hu, answer_ianik, hclear, htail]; exact hstalled
    · rw [hu, answer_hive, hclear, htail]; exact htransit
  simp only [mbxPart, Prod.mk.injEq] at hpart
  obtain ⟨hwmbx, -, hwstove⟩ := hpart
  rw [humbx] at hwmbx
  rw [hustove] at hwstove
  have hnot : postDue m w = false := postDue_answered (by rw [hwstove]; exact hvalid) (by rw [hwmbx, hwstove]; rfl)
  refine ⟨strobePosts w, (exec_strobe hruns).trans ?_, (strobePosts_not_due hnot).trans hwmbx⟩
  rw [mbxServed_not_reset hserved, if_neg Bool.false_ne_true, hw]

/-- Settles O39: a strobe serves and then posts; of a mailbox, only its own service and posting count. -/
theorem strobeAndRecordEventsComplete : Obligations.StrobeAndRecordEventsComplete := by
  refine ⟨fun s hruns => ⟨fun hrst => ?_, fun hrst => ?_⟩, fun m p s hruns hvalid hst hresp hdue hidle => ?_,
    fun m s hruns hvalid hrst hrung => ?_,
    fun m s hruns hvalid hserved hrung hone hstaged hstalled htransit hups hop => ?_,
    fun m p s hresp => ⟨post_mbx_same hresp, post_acc hresp⟩, fun a b s hon => crossingTimeout_effect a b hon,
    fun c cs s hrec hwait hfits => ?_, fun cls code s hrec => ?_⟩
  · exact exec_strobe_ianik hruns hrst
  · exact exec_strobe_reset hruns hrst
  · exact doorbellStrobe_posts hruns hst hresp hdue hidle
  · obtain ⟨t, ht, hmbx⟩ := doorbellStrobe_rung hruns hvalid hrst hrung
    refine ⟨t, ht, ?_⟩
    rw [hmbx]
    exact ⟨rfl, rfl, rfl, rfl⟩
  · obtain ⟨t, ht, hmbx⟩ := doorbellStrobe_badOpcode hruns hvalid hserved hone hstaged hstalled htransit hups hop
    refine ⟨t, ht, ?_⟩
    rw [hmbx]
    exact ⟨rfl, rfl, rfl, rfl⟩
  · exact ⟨_, congrArg Host.Outcome.next (if_pos hrec), completionWrite_fits hwait hfits⟩
  · refine ⟨_, if_pos hrec, rfl, rfl, acc_raise_same 5 ..⟩

end Sys2Proof.Machine
end

section
/-! ## PSP0: what starting its work leaves unchanged, and the Forager's descriptors -/

namespace Sys2Proof.Machine

/-! ### PSP0 starts its next transaction -/

/-- The state without what PSP0 takes and drives when it starts a transaction, and what its accesses to the Store change. -/
def portRest (s : State) : State :=
  { memRest s with p0 := { s.p0 with
    prof := .replicate 15 {}, queue := [], cur := none, frame := none, rings := .replicate 16 {} } }

/-- What a descriptor's burst leaves of a ring's descriptors: how many there are, the begun, and where each begins. -/
def descsBegun (r : Fin 16) (s : State) : List (Bool × Nat) :=
  s.p0.rings[r].descs.map (fun d => (d.started, d.first))

section
variable (s : State)

theorem portRest_of_memRest {s t : State} (h : memRest t = memRest s) : portRest t = portRest s := by
  have hp0 : t.p0 = s.p0 := by
    have hfield := congrArg State.p0 h
    exact hfield
  unfold portRest
  rw [h, hp0]

theorem descsBegun_of_memRest {r : Fin 16} {s t : State} (h : memRest t = memRest s) : descsBegun r t = descsBegun r s := by
  have hp0 : t.p0 = s.p0 := by
    have hfield := congrArg State.p0 h
    exact hfield
  unfold descsBegun
  rw [hp0]

theorem memRest_freeRun (w : FreeAcc) (n : Nat) : memRest (freeRun w n s).2 = memRest s := by
  induction n generalizing s with
  | zero => rfl
  | succ n ih =>
    unfold freeRun
    dsimp only
    split
    · exact memRest_freeCycle s
    · exact (ih _).trans (memRest_freeCycle s)

theorem memRest_rdStoreX (m : Master) (a : Nat) : memRest (rdStoreX m a s).2 = memRest s :=
  (memRest_freeRun ..).trans (memRest_freeStall ..)

/-- What PSP0 does where it looks for work: nothing, a burst of a ring, or a waiting request. -/
theorem p0Kick_cases : p0Kick s = s ∨ (∃ r, p0Kick s = p0Burst r s) ∨ ∃ q, p0Kick s = p0Take q s := by
  have hpick (r : Fin 16) (q : P0Req) (c : Bool) : (∃ k, (if c then p0Burst r s else p0Take q s) = p0Burst k s) ∨
      ∃ k, (if c then p0Burst r s else p0Take q s) = p0Take k s := by
    cases c
    · exact .inr ⟨q, rfl⟩
    · exact .inl ⟨r, rfl⟩
  unfold p0Kick
  split
  · exact .inl rfl
  · dsimp only
    split
    · exact .inr (.inl ⟨_, rfl⟩)
    · exact .inr (hpick ..)
    · exact .inr (.inr ⟨_, rfl⟩)
    · exact .inr (.inr ⟨_, rfl⟩)
    · exact .inl rfl

/-! ### The requests of a ring -/

theorem portRest_modP0 {f : Flash → Flash} (hf : ∀ p : Flash, { f p with
    prof := .replicate 15 {}, queue := [], cur := none, frame := none, rings := .replicate 16 {} } = { p with
    prof := .replicate 15 {}, queue := [], cur := none, frame := none, rings := .replicate 16 {} }) :
    portRest (modP0 f s) = portRest s := by
  unfold portRest memRest
  exact congrArg (fun p : Flash => { s with
    evt := {}, care := {}, hearth := {}, p0 := p
    hive := { s.hive with store := [], storeWritten := [], free := [], cycle := 0 } }) (hf s.p0)

theorem portRest_modRing (r : Fin 16) (f : Ring → Ring) : portRest (modRing r f s) = portRest s :=
  portRest_modP0 s fun _ => rfl

theorem portRest_modHead (r : Fin 16) (f : Desc → Desc) : portRest (modHead r f s) = portRest s := portRest_modRing ..

theorem descsBegun_modRing {f : Ring → Ring} (hf : ∀ x, (f x).descs.map (fun d => (d.started, d.first)) =
    x.descs.map (fun d => (d.started, d.first))) (r k : Fin 16) : descsBegun r (modRing k f s) = descsBegun r s := by
  unfold descsBegun
  rw [modRing_p0]
  change List.map _ ((vmod s.p0.rings k f)[r].descs) = _
  by_cases h : k = r
  · subst h
    simp only [vmod, Fin.getElem_fin, Vector.getElem_set_self]
    exact hf _
  · simp only [vmod, Fin.getElem_fin]
    rw [Vector.getElem_set_ne _ _ (fun hv => h (Fin.ext hv))]

theorem descsBegun_modHead {f : Desc → Desc} (hf : ∀ d, ((f d).started, (f d).first) = (d.started, d.first)) (r k : Fin 16) :
    descsBegun r (modHead k f s) = descsBegun r s := by
  refine descsBegun_modRing s (fun x => ?_) r k
  cases hx : x.descs with
  | nil => rw [hx]
  | cons d ds => simp only [List.map_cons, hf]

/-- What the requests of PSP0 leave unchanged. -/
def requestRest (r : Fin 16) (s : State) : State × List (Bool × Nat) := (portRest s, descsBegun r s)

theorem requestRest_of_memRest {r : Fin 16} {s t : State} (h : memRest t = memRest s) : requestRest r t = requestRest r s :=
  Prod.ext (portRest_of_memRest h) (descsBegun_of_memRest h)

theorem requestRest_modRing {f : Ring → Ring} (hf : ∀ x, (f x).descs.map (fun d => (d.started, d.first)) =
    x.descs.map (fun d => (d.started, d.first))) (i r : Fin 16) : requestRest i (modRing r f s) = requestRest i s :=
  Prod.ext (portRest_modRing ..) (descsBegun_modRing s hf i r)

theorem requestRest_modHead {f : Desc → Desc} (hf : ∀ d, ((f d).started, (f d).first) = (d.started, d.first))
    (i r : Fin 16) : requestRest i (modHead r f s) = requestRest i s :=
  Prod.ext (portRest_modHead ..) (descsBegun_modHead s hf i r)

theorem requestRest_descRead (i r : Fin 16) (d : Desc) (z : Bool) (w n : Nat) :
    requestRest i (descRead r d z w n s).2 = requestRest i s := by
  induction n generalizing z w s with
  | zero => rfl
  | succ n ih =>
    unfold descRead
    extract_lets x begins ovr u z' a
    have hu : requestRest i u = requestRest i s := by
      unfold u
      split
      · exact requestRest_modRing s (f := fun x => { x with sub := stick 255 x.sub }) (fun _ => rfl) i r
      · rfl
    clear_value u z' a
    refine Eq.trans (ih ..) (Eq.trans ?_ hu)
    cases z' with
    | true => rfl
    | false => exact requestRest_of_memRest (memRest_rdStoreX ..)

theorem requestRest_burstData (i r : Fin 16) (d : Desc) (n : Nat) : requestRest i (burstData r d n s).2 = requestRest i s := by
  unfold burstData
  extract_lets x need k
  dsimp only
  refine Eq.trans ?_ (requestRest_descRead s i r d false (d.done / 4 + d.carry.length) k)
  exact requestRest_modHead _ (f := fun e => { e with
    carry := (d.carry ++ (descRead r d false (d.done / 4 + d.carry.length) k s).1).drop n }) (fun _ => rfl) i r

theorem requestRest_ringBurst (i r : Fin 16) : requestRest i (ringBurst r s).2 = requestRest i s := by
  unfold ringBurst
  split
  · rfl
  · dsimp only
    split
    · exact requestRest_burstData ..
    · rfl

theorem requestRest_p0Begin (i : Fin 16) (q : P0Req) : requestRest i (p0Begin q s) = requestRest i s :=
  Prod.ext ((portRest_modP0 _ fun _ => rfl).trans (portRest_modP0 s fun _ => rfl)) rfl

theorem requestRest_p0Burst (i r : Fin 16) : requestRest i (p0Burst r s) = requestRest i s := by
  have hburst := requestRest_ringBurst s i r
  unfold p0Burst
  split
  next q t ht => exact (requestRest_p0Begin ..).trans (by rw [ht] at hburst; exact hburst)
  next t ht => rw [ht] at hburst; exact hburst

theorem requestRest_p0Take (i : Fin 16) (q : P0Req) : requestRest i (p0Take q s) = requestRest i s :=
  (requestRest_p0Begin ..).trans (Prod.ext (portRest_modP0 s fun _ => rfl) rfl)

/-- Starting PSP0's next work changes its requests and the Store's accesses alone. -/
theorem requestRest_p0Kick (i : Fin 16) : requestRest i (p0Kick s) = requestRest i s := by
  obtain h | ⟨r, h⟩ | ⟨q, h⟩ := p0Kick_cases s <;> rw [h]
  · exact requestRest_p0Burst ..
  · exact requestRest_p0Take ..

theorem portRest_p0Kick : portRest (p0Kick s) = portRest s := congrArg Prod.fst (requestRest_p0Kick s 0)

theorem descsBegun_p0Kick (i : Fin 16) : descsBegun i (p0Kick s) = descsBegun i s := congrArg Prod.snd (requestRest_p0Kick s i)

end

/-! ### Descriptors -/

theorem modRing_ring_same (r : Fin 16) (f : Ring → Ring) (s : State) : (modRing r f s).p0.rings[r] = f s.p0.rings[r] := by
  simp [modRing, modP0, vmod]

theorem exec_descriptorStart {r : Fin 16} {d : Desc} {ds : List Desc} {s : State} (hon : p0On s = true)
    (hdescs : s.p0.rings[r].descs = d :: ds) (hidle : d.started = false) (hready : descReady s.p0.rings[r] d = true) :
    exec (.descriptorStart r) s =
      .next (p0Kick (modHead r (fun d => { d with started := true, first := ringHead s.p0.rings[r] }) s)) := by
  change execDescriptorStart r s = _
  unfold execDescriptorStart
  dsimp only
  split
  next e es he =>
    obtain ⟨rfl, rfl⟩ := List.cons.inj (he.symm.trans hdescs)
    rw [hon, hidle, hready]
    rfl
  next he => exact absurd (he.symm.trans hdescs) (List.cons_ne_nil _ _).symm

/-- The head descriptor of a ring begins (R451, R453). -/
theorem descriptorStart_begins {r : Fin 16} {d : Desc} {ds : List Desc} {s : State} (hon : p0On s = true)
    (hdescs : s.p0.rings[r].descs = d :: ds) (hidle : d.started = false) (hready : descReady s.p0.rings[r] d = true) :
    ∃ t, exec (.descriptorStart r) s = .next t ∧
      ∃ e es, t.p0.rings[r].descs = e :: es ∧ e.started = true ∧ e.first = ringHead s.p0.rings[r] := by
  refine ⟨_, exec_descriptorStart hon hdescs hidle hready, ?_⟩
  obtain ⟨u, hu⟩ : ∃ u, u = modHead r (fun d => { d with started := true, first := ringHead s.p0.rings[r] }) s := ⟨_, rfl⟩
  have hbegun : descsBegun r (p0Kick u) = (true, ringHead s.p0.rings[r]) :: ds.map (fun d => (d.started, d.first)) := by
    rw [descsBegun_p0Kick, hu, descsBegun, modHead, modRing_ring_same, hdescs]
    rfl
  rw [← hu]
  obtain ⟨e, es, he, hhead, -⟩ := List.map_eq_cons_iff.mp hbegun
  obtain ⟨hstarted, hfirst⟩ := Prod.mk.inj hhead
  exact ⟨e, es, he, hstarted, hfirst⟩

/-- What the end of a descriptor without a media error leaves of its ring, and the event it raises. -/
theorem descDone_ring {r : Fin 16} {d : Desc} (hruns : d.stopped = false) (hmedia : d.media = false) (s : State) :
    (descDone r d s).p0.rings[r] = { s.p0.rings[r] with
      descs := s.p0.rings[r].descs.drop 1, lastDone := (d.tag, descStatus d)
      fill := if s.p0.rings[r].kind == .playback then s.p0.rings[r].fill + descFrames s.p0.rings[r] d else s.p0.rings[r].fill
      reads := if s.p0.rings[r].kind == .capture then s.p0.rings[r].reads + descFrames s.p0.rings[r] d
        else s.p0.rings[r].reads } ∧
      (descDone r d s).evt = (raiseIf d.irq 49 (bit r.val) s).evt := by
  have hshort : descDone r d s = raiseIf d.irq 49 (bit r.val) (modRing r (fun x => { x with
      descs := x.descs.drop 1, lastDone := (d.tag, descStatus d)
      fill := if x.kind == .playback then x.fill + descFrames s.p0.rings[r] d else x.fill
      reads := if x.kind == .capture then x.reads + descFrames s.p0.rings[r] d else x.reads }) s) := by
    simp [descDone, hruns, hmedia]
  rw [hshort]
  constructor
  · cases d.irq <;> exact modRing_ring_same ..
  · cases d.irq <;> rfl

/-- The head descriptor of a ring is done (R451, R455). -/
theorem descriptorComplete_ends {r : Fin 16} {d : Desc} {ds : List Desc} {s : State}
    (hdescs : s.p0.rings[r].descs = d :: ds) (hstarted : d.started = true) (hruns : d.stopped = false)
    (hmedia : d.media = false) (hdone : d.len ≤ d.done) (hpolled : s.p0.polled = []) (hcur : s.p0.cur = none) :
    ∃ t, exec (.descriptorComplete r) s = .next t ∧ t.p0.rings[r].descs = ds ∧
      t.p0.rings[r].lastDone = (d.tag, if d.late then 1 else 0) ∧
      (s.p0.rings[r].kind = .playback → t.p0.rings[r].fill = s.p0.rings[r].fill + descFrames s.p0.rings[r] d) ∧
      (s.p0.rings[r].kind = .capture → t.p0.rings[r].reads = s.p0.rings[r].reads + descFrames s.p0.rings[r] d) ∧
      (d.irq = true → t.evt.acc[49] = stick 65535 s.evt.acc[49]) := by
  have hexec : exec (.descriptorComplete r) s = .next (descDone r d s) := by
    change execDescriptorComplete r s = _
    unfold execDescriptorComplete
    split
    next e es he =>
      obtain ⟨rfl, rfl⟩ := List.cons.inj (he.symm.trans hdescs)
      simp [hstarted, hpolled, hcur, hdone]
    next he => exact absurd (he.symm.trans hdescs) (List.cons_ne_nil _ _).symm
  refine ⟨_, hexec, ?_⟩
  have hnext := descDone_ring (r := r) hruns hmedia s
  rw [hnext.1, hdescs]
  refine ⟨rfl, by rw [descStatus, hruns, hmedia]; rfl, fun hkind => ?_, fun hkind => ?_, fun hirq => ?_⟩
  · exact if_pos (beq_iff_eq.mpr hkind)
  · exact if_pos (beq_iff_eq.mpr hkind)
  · rw [hnext.2, hirq]
    exact acc_raise_same 49 ..

theorem deadlineMiss_counts {r : Fin 16} {d : Desc} {s : State} (hdescs : s.p0.rings[r].descs = [d])
    (hlate : d.late = false) (hmedia : d.media = false) (hruns : d.stopped = false) (hleft : d.done < d.len)
    (hdue : descDeadline s.p0.rings[r] (ringHead s.p0.rings[r]) d = some s.stove.frame) :
    ∃ t, exec (.deadlineMiss r) s = .next t ∧ t.p0.rings[r].miss = min 255 (s.p0.rings[r].miss + 1) ∧
      t.p0.rings[r].descs = [{ d with late := true }] ∧ t.evt.acc[48] = stick 65535 s.evt.acc[48] := by
  have hfirsts : descFirsts s.p0.rings[r] (ringHead s.p0.rings[r]) s.p0.rings[r].descs = [(d, ringHead s.p0.rings[r])] := by
    rw [hdescs]
    rfl
  have hmiss : missesNow s.p0.rings[r] s.stove.frame (d, ringHead s.p0.rings[r]) = true := by
    simp only [missesNow, hlate, hmedia, hruns, hleft, hdue, decide_true, Bool.not_false, Bool.and_self, beq_self_eq_true]
  have hexec : exec (.deadlineMiss r) s = .next (raise 48 (bit r.val) (modRing r (fun x => { x with
      miss := min 255 (x.miss + 1)
      descs := [{ d with late := d.late || missesNow x s.stove.frame (d, ringHead s.p0.rings[r]) }] }) s)) := by
    change execDeadlineMiss r s = _
    unfold execDeadlineMiss
    simp only [hfirsts, List.filter_cons, hmiss, List.filter_nil, if_true, List.length_cons, List.length_nil,
      List.map_cons, List.map_nil]
    rfl
  refine ⟨_, hexec, ?_, ?_, acc_raise_same 48 ..⟩
  · exact congrArg Ring.miss (modRing_ring_same ..)
  · refine (congrArg Ring.descs (modRing_ring_same ..)).trans ?_
    rw [hmiss, Bool.or_true]

/-- Settles O51: a descriptor starts, ends or misses its deadline; PSP0's next work leaves what has begun. -/
theorem descriptorEventsComplete : Obligations.DescriptorEventsComplete :=
  ⟨fun _ _ _ _ => descriptorStart_begins, fun _ _ _ _ => descriptorComplete_ends, fun _ _ _ => deadlineMiss_counts⟩

end Sys2Proof.Machine
end

section
/-! A scrub read of a Store word whose unit is not 0: the Store is one unit, and its read looks the upset up there. -/

namespace Sys2Proof.Machine

/-- Word 0 of the Store, under a unit that the Store does not have. -/
def otherUnitWord : WordAt := ⟨.store, 1, 0, 0⟩

/-- STANDBY with the Hive running, the first words of the Store written, and an upset under that unit. -/
def otherUnitUpset : State :=
  { State.reset with
    pow := { State.reset.pow with st := .standby, seqHive := true, ianikRst := false }
    hive := { State.reset.hive with
      firstFrame := some 0, storePow := State.reset.hive.storePow.map (fun _ => .on), storeWritten := [0] }
    care := { State.reset.care with upsets := [⟨otherUnitWord, false, 0⟩] } }

/-- The scrub read of that word leaves its upset. -/
theorem exec_otherUnitUpset : ∃ t, exec (.patrolScrubRead otherUnitWord []) otherUnitUpset = .next t ∧
    upsetOf otherUnitWord t = some ⟨otherUnitWord, false, 0⟩ :=
  ⟨_, rfl, by decide +kernel⟩

/-- Refutes O52: a scrub read of a Store word under a unit other than 0 reads the word of unit 0, so the upset stays. -/
theorem not_vaultAndPatrolEventsComplete : ¬ Obligations.VaultAndPatrolEventsComplete := by
  intro h
  obtain ⟨-, hscrub, -⟩ := h
  obtain ⟨t, ht, hstays⟩ := exec_otherUnitUpset
  obtain ⟨u, hu, hgone, -⟩ := hscrub otherUnitWord ⟨otherUnitWord, false, 0⟩ otherUnitUpset (by decide +kernel)
    (by decide +kernel) (by decide +kernel) rfl (fun _ => rfl)
  obtain rfl := Host.Outcome.next.inj (ht.symm.trans hu)
  exact absurd (hstays.symm.trans hgone) (by decide)

end Sys2Proof.Machine
end

section
/-! ## PSP0's transactions and polls, and the fetch window -/

namespace Sys2Proof.Machine

/-! ### What the waiting requests leave unchanged -/

section
variable (s : State)

theorem portRest_p0Ask (q : P0Req) : portRest (p0Ask q s) = portRest s :=
  (portRest_p0Kick _).trans (portRest_modP0 s fun _ => rfl)

theorem portRest_nextLine (l : Nat) (dem : Bool) : portRest (nextLine l dem s) = portRest s := by
  unfold nextLine
  split
  · exact portRest_p0Ask ..
  · rfl

theorem portRest_complete (op k : Nat) (tag : BitVec 16) (st : Byte) (ws : List Word) :
    portRest (complete op k tag st ws s) = portRest s := by
  unfold complete
  split <;> rfl

end

section
variable {s t : State} (h : portRest t = portRest s)
include h

theorem portRest_p0 : { t.p0 with
      prof := .replicate 15 {}, queue := [], cur := none, frame := none, rings := .replicate 16 {} } = { s.p0 with
      prof := .replicate 15 {}, queue := [], cur := none, frame := none, rings := .replicate 16 {} } := by
  have hfield := congrArg State.p0 h
  exact hfield

theorem portRest_mem : t.p0.mem = s.p0.mem := by
  have hfield := congrArg Flash.mem (portRest_p0 h)
  exact hfield

theorem portRest_lines : t.p0.lines = s.p0.lines := by
  have hfield := congrArg Flash.lines (portRest_p0 h)
  exact hfield

theorem portRest_stalled : t.p0.stalled = s.p0.stalled := by
  have hfield := congrArg Flash.stalled (portRest_p0 h)
  exact hfield

theorem portRest_tagFail : t.p0.tagFail = s.p0.tagFail ∧ t.p0.evTag = s.p0.evTag := by
  have hfail := congrArg Flash.tagFail (portRest_p0 h)
  have hevt := congrArg Flash.evTag (portRest_p0 h)
  exact ⟨hfail, hevt⟩

theorem portRest_pow : t.pow = s.pow := by
  have hfield := congrArg State.pow h
  exact hfield

theorem portRest_lineHeld (l : Nat) : lineHeld l t = lineHeld l s := by
  unfold lineHeld
  rw [portRest_lines h]

end

/-! ### Transactions -/

theorem p0Page_read {q : P0Req} (hread : q.write = false) (s : State) : p0Page q s = q := by
  simp [p0Page, hread]

theorem enables_read {q : P0Req} (hread : q.write = false) (s : State) : enables q s = false := by
  simp [enables, hread]

/-- A PSP_XFER's read answers its bytes (R462). -/
theorem exec_psp0Read {q : P0Req} {m : Nat} {tag : BitVec 16} {data : List Byte} {s : State} (hcur : s.p0.cur = some q)
    (hwhy : q.why = .xfer m tag) (hread : q.write = false) :
    exec (.psp0TransactionEnd data) s = .next (p0Kick (complete 0x0A02 m tag 0x00 (bytesToWords (p0Bytes q data s))
      (modP0 (fun p => { p with cur := none }) s))) := by
  change execPsp0TransactionEnd data s = _
  simp only [execPsp0TransactionEnd, hcur, p0Page_read hread, enables_read hread, hread, p0Read, hwhy, Bool.false_and,
    Bool.false_eq_true, if_false]
  rfl

theorem flashPut_modP0_cur (a : Nat) (bs : List Byte) (c : Option P0Req) (s : State) :
    flashPut a bs (modP0 (fun p => { p with cur := c }) s) = modP0 (fun p => { p with cur := c }) (flashPut a bs s) := by
  induction bs generalizing a s with
  | nil => rfl
  | cons b bs ih =>
    have hput : (if inTagged a (modP0 (fun p => { p with cur := c }) s) then modP0 (fun p => { p with cur := c }) s
        else modP0 (fun p => { p with mem := progFlash p.mem a b }) (modP0 (fun p => { p with cur := c }) s)) =
        modP0 (fun p => { p with cur := c })
          (if inTagged a s then s else modP0 (fun p => { p with mem := progFlash p.mem a b }) s) := by
      have htagged : inTagged a (modP0 (fun p => { p with cur := c }) s) = inTagged a s := rfl
      rw [htagged]
      split <;> rfl
    unfold flashPut
    rw [hput]
    exact ih ..

theorem portRest_p0Written_xfer {q : P0Req} {m : Nat} {tag : BitVec 16} (hwhy : q.why = .xfer m tag) (s : State) :
    portRest (p0Written q s) = portRest s := by
  unfold p0Written
  dsimp only
  rw [hwhy]
  dsimp only
  split
  · exact portRest_modP0 s fun _ => rfl
  · exact portRest_complete ..

/-- A page program of a PSP_XFER programs one page's bytes (R432). -/
theorem psp0Write_programs {q : P0Req} {m : Nat} {tag : BitVec 16} {data : List Byte} {s : State} (hcur : s.p0.cur = some q)
    (hwhy : q.why = .xfer m tag) (hwrite : q.write = true) (herase : q.erase = false) (hraw : q.raw = false)
    (hsel : q.sel = 0) (hbare : q.bare = false) (hen : enables q s = false) :
    ∃ t, exec (.psp0TransactionEnd data) s = .next t ∧ t.p0.mem = (flashProg q.addr (q.data.take (min q.data.length
      (pageOf (profOf 0 s) - q.addr % pageOf (profOf 0 s)))) s).p0.mem := by
  obtain ⟨n, hn⟩ : ∃ n, n = min q.data.length (pageOf (profOf 0 s) - q.addr % pageOf (profOf 0 s)) := ⟨_, rfl⟩
  have hpage : p0Page q s = { q with len := n } := by
    simp [p0Page, hwrite, herase, hraw, hsel, hn]
  obtain ⟨u, hu⟩ : ∃ u, u = flashProg q.addr (q.data.take n) (modP0 (fun p => { p with cur := none }) s) := ⟨_, rfl⟩
  have humem : u.p0.mem = (flashProg q.addr (q.data.take n) s).p0.mem := by
    have hput := congrArg (fun t : State => t.p0.mem) (flashPut_modP0_cur (q.addr % 2 ^ addrWidth s.p0.prof[0])
      (q.data.take n) none s)
    rw [hu]
    exact hput
  obtain ⟨k, hk⟩ : ∃ k, k = { q with len := n } := ⟨_, rfl⟩
  have hkwrite : k.write = true := by rw [hk, hwrite]
  have hkwhy : k.why = .xfer m tag := by rw [hk, hwhy]
  have hken : enables k (modP0 (fun p => { p with cur := none }) s) = false := by rw [hk]; exact hen
  have hprog : p0Program k (modP0 (fun p => { p with cur := none }) s) = u := by
    simp only [hk, p0Program, hsel, hbare, herase, hraw, ne_eq, not_true_eq_false, Bool.false_eq_true, or_self, if_false,
      Bool.false_and, hu]
  have hexec : exec (.psp0TransactionEnd data) s = .next (p0Kick (if !k.raw && stCmd (profOf k.sel u) != 0 then
      modP0 (fun p => { p with polled := p.polled ++ [(k, 0)] }) u else p0Written k u)) := by
    rw [← hk] at hpage
    change execPsp0TransactionEnd data s = _
    simp only [execPsp0TransactionEnd, hcur, hpage, hken, hkwrite, p0Wrote, hkwhy, hprog, Bool.false_and,
      Bool.false_eq_true, if_false, if_true, reduceCtorEq]
  refine ⟨_, hexec, ?_⟩
  rw [← hn, ← humem]
  refine (portRest_mem (portRest_p0Kick _)).trans ?_
  split
  · rfl
  · exact portRest_mem (portRest_p0Written_xfer hkwhy u)

/-- A device that holds PSP0_RDY low ends a PSP_XFER with MEDIA (R433). -/
theorem exec_psp0RdyTimeout_xfer {q : P0Req} {m : Nat} {tag : BitVec 16} {s : State} (hcur : s.p0.cur = some q)
    (hwhy : q.why = .xfer m tag) (hrdy : (profOf q.sel s).w4.getLsbD 8 = true) (hdata : hasData q s = true) :
    exec .psp0RdyTimeout s =
      .next (p0Kick (complete 0x0A02 m tag 0x09 [] (mediaError q.sel (modP0 (fun p => { p with cur := none }) s)))) := by
  change execPsp0RdyTimeout s = _
  simp only [execPsp0RdyTimeout, hcur, hrdy, hdata, p0Failed, hwhy, Bool.and_self, if_true]
  rfl

/-- A poll of a device in an erase of a PSP_XFER (R432, R433). -/
theorem exec_statusPoll_xfer {q : P0Req} {n m : Nat} {tag : BitVec 16} {st : Byte} {rest : List (P0Req × Nat)} {s : State}
    (hcur : s.p0.cur = none) (hpolled : s.p0.polled = (q, n) :: rest) (hwhy : q.why = .xfer m tag) (herase : q.erase = true) :
    exec (.statusPoll st) s =
      if st &&& (profOf q.sel s).w4.extractLsb' 24 8 = 0 then .next (p0Kick (complete 0x0A02 m tag 0x00 []
        (modP0 (fun p => { p with frame := some (pollFrame (profOf q.sel s)), polled := rest }) s)))
      else if fld (profOf q.sel s).w6 0 16 ≤ n + 1 then .next (p0Kick (complete 0x0A02 m tag 0x09 []
        (mediaError q.sel (modP0 (fun p => { p with frame := some (pollFrame (profOf q.sel s)), polled := rest }) s))))
      else .next { s with p0 := { s.p0 with
        frame := some (pollFrame (profOf q.sel s)), polled := rest ++ [(q, n + 1)] } } := by
  have hidle : s.p0.cur.isSome = false := by rw [hcur, Option.isSome_none]
  change execStatusPoll st s = _
  simp only [execStatusPoll, hidle, hpolled, p0Written, p0Failed, hwhy, herase, Bool.not_true, Bool.false_and,
    Bool.false_eq_true, if_false]
  rfl

/-! ### The fetch window -/

theorem lineHeld_none {l : Nat} {s : State} (h : lineHeld l s = false) :
    s.p0.lines.find? (fun x => decide (x.1 = l)) = none := by
  simpa [lineHeld, List.find?_eq_none] using h

theorem exec_fetchMiss_hit {addr : Nat} {bs : List Byte} {s : State} (haddr : addr < 0x4000000) (hon : p0On s = true)
    (hidle : s.p0.stalled = none)
    (hline : s.p0.lines.find? (fun x => decide (x.1 = addr / 64)) = some (addr / 64, bs)) :
    exec (.fetchMiss addr) s =
      .next { s with p0 := { s.p0 with lines := lineTouch (addr / 64) bs s.p0.lines } } := by
  have hidle : s.p0.stalled.isSome = false := by rw [hidle, Option.isSome_none]
  change execFetchMiss addr s = _
  simp only [execFetchMiss, hon, hidle, hline, Nat.not_le.mpr haddr, Bool.not_true, Bool.false_eq_true,
    or_self, if_false]
  rfl

theorem exec_fetchMiss_missing {addr : Nat} {s : State} (haddr : addr < 0x4000000) (hon : p0On s = true)
    (hidle : s.p0.stalled = none) (hline : lineHeld (addr / 64) s = false) :
    exec (.fetchMiss addr) s = if present 0 s then
        .next (if lineComes (addr / 64) (modP0 (fun p => { p with stalled := some (addr / 64) }) s) then
          lineWanted (addr / 64) (modP0 (fun p => { p with stalled := some (addr / 64) }) s)
        else p0Ask (fillReq (addr / 64) true (modP0 (fun p => { p with stalled := some (addr / 64) }) s))
          (modP0 (fun p => { p with stalled := some (addr / 64) }) s))
      else .next (fetchFault (addr / 64) (raise 50 0 s)) := by
  have hidle : s.p0.stalled.isSome = false := by rw [hidle, Option.isSome_none]
  change execFetchMiss addr s = _
  simp only [execFetchMiss, hon, hidle, lineHeld_none hline, Nat.not_le.mpr haddr, Bool.not_true, Bool.false_eq_true,
    or_self, if_false]
  cases present 0 s <;> rfl

/-- A request is the fill of line `l`. -/
def fillsLine (l : Nat) (q : P0Req) : Bool :=
  match q.why with
  | .fill k _ => k == l
  | _ => false

theorem lineComes_eq (l : Nat) (s : State) : lineComes l s =
    (s.p0.queue.any (fillsLine l) || (s.p0.cur.map (fillsLine l) == some true) ||
      s.p0.filled.any (fun x => decide (x.1 = l))) := rfl

theorem descRead_queue (r : Fin 16) (d : Desc) (z : Bool) (w n : Nat) (s : State) :
    (descRead r d z w n s).2.p0.queue = s.p0.queue := by
  induction n generalizing z w s with
  | zero => rfl
  | succ n ih =>
    unfold descRead
    extract_lets x begins ovr u z' a
    have hu : u.p0.queue = s.p0.queue := by
      unfold u
      split <;> rfl
    clear_value u z' a
    refine Eq.trans (ih ..) (Eq.trans ?_ hu)
    cases z' with
    | true => rfl
    | false =>
      have hrest := congrArg (fun t : State => t.p0.queue) (memRest_rdStoreX u .forager a)
      exact hrest

theorem ringBurst_queue (r : Fin 16) (s : State) : (ringBurst r s).2.p0.queue = s.p0.queue := by
  unfold ringBurst
  split
  · rfl
  · dsimp only
    split
    · exact descRead_queue ..
    · rfl

theorem p0Burst_queue (r : Fin 16) (s : State) : (p0Burst r s).p0.queue = s.p0.queue := by
  have hburst := ringBurst_queue r s
  unfold p0Burst
  split
  next q t ht =>
    rw [ht] at hburst
    exact hburst
  next t ht =>
    rw [ht] at hburst
    exact hburst

/-- A request that waits for line `l` still comes after the port looks for work. -/
theorem lineComes_p0Kick {l : Nat} {q : P0Req} {s : State} (hq : q ∈ s.p0.queue) (hfills : fillsLine l q = true) :
    lineComes l (p0Kick s) = true := by
  have hwaits {t : State} (ht : t.p0.queue = s.p0.queue) : lineComes l t = true := by
    rw [lineComes_eq, ht, List.any_eq_true.mpr ⟨q, hq, hfills⟩, Bool.true_or, Bool.true_or]
  obtain h | ⟨r, h⟩ | ⟨k, h⟩ := p0Kick_cases s <;> rw [h]
  · exact hwaits rfl
  · exact hwaits (p0Burst_queue r s)
  · by_cases hk : q = k
    · subst hk
      rw [lineComes_eq]
      change (_ || ((some q).map (fillsLine l) == some true) || _) = true
      simp [hfills]
    · have hkept : q ∈ (p0Take k s).p0.queue := (List.mem_erase_of_ne hk).mpr hq
      rw [lineComes_eq, List.any_eq_true.mpr ⟨q, hkept, hfills⟩, Bool.true_or, Bool.true_or]

/-- A fill becomes a demand fill (R435). -/
def toDemand (l : Nat) (q : P0Req) : P0Req := if q.why = .fill l false then { q with why := .fill l true } else q

theorem fillsLine_toDemand (k l : Nat) (q : P0Req) : fillsLine k (toDemand l q) = fillsLine k q := by
  unfold toDemand
  split
  next h => simp [fillsLine, h]
  next => rfl

theorem lineComes_lineWanted (l : Nat) (s : State) : lineComes l (lineWanted l s) = lineComes l s := by
  have hany : (s.p0.queue.map (toDemand l)).any (fillsLine l) = s.p0.queue.any (fillsLine l) := by
    rw [List.any_map]
    exact congrArg s.p0.queue.any (funext fun q => fillsLine_toDemand l l q)
  have hcur : (s.p0.cur.map (toDemand l)).map (fillsLine l) = s.p0.cur.map (fillsLine l) := by
    rw [Option.map_map]
    exact congrArg (s.p0.cur.map ·) (funext fun q => fillsLine_toDemand l l q)
  have hfilled : (s.p0.filled.map (fun x => if x.1 = l then (l, true) else x)).any (fun x => decide (x.1 = l)) =
      s.p0.filled.any (fun x => decide (x.1 = l)) := by
    rw [List.any_map]
    refine congrArg s.p0.filled.any (funext fun x => ?_)
    by_cases h : x.1 = l <;> simp [h]
  rw [lineComes_eq, lineComes_eq, ← hany, ← hcur, ← hfilled]
  rfl

/-- A miss of a device that answers stalls Ianik, and its line comes (R435). -/
theorem fetchMiss_stalls {addr : Nat} {s : State} (haddr : addr < 0x4000000) (hon : p0On s = true)
    (hidle : s.p0.stalled = none) (hline : lineHeld (addr / 64) s = false) (hthere : present 0 s = true) :
    ∃ t, exec (.fetchMiss addr) s = .next t ∧ t.p0.stalled = some (addr / 64) ∧ lineComes (addr / 64) t = true := by
  refine ⟨_, (exec_fetchMiss_missing haddr hon hidle hline).trans (if_pos hthere), ?_⟩
  obtain ⟨u, hu⟩ : ∃ u, u = modP0 (fun p => { p with stalled := some (addr / 64) }) s := ⟨_, rfl⟩
  have hstalled : u.p0.stalled = some (addr / 64) := by
    rw [hu]
    rfl
  rw [← hu]
  split
  next hcomes => exact ⟨hstalled, (lineComes_lineWanted ..).trans hcomes⟩
  next =>
    refine ⟨(portRest_stalled (portRest_p0Ask u _)).trans hstalled, ?_⟩
    exact lineComes_p0Kick (q := fillReq (addr / 64) true u) (List.mem_append_right _ (List.mem_singleton_self _))
      (beq_self_eq_true _)

/-! ### Fills -/

theorem checkWord_modP0 (w : WordAt) (f : Flash → Flash) (s : State) :
    checkWord w (modP0 f s) = ((checkWord w s).1, modP0 f (checkWord w s).2) := by
  have hups : upsetOf w (modP0 f s) = upsetOf w s := rfl
  unfold checkWord
  rw [hups]
  split
  · rfl
  · split <;> rfl

theorem checkWord_ianikRam (w : WordAt) (s : State) : (checkWord w s).2.care.ianikRam = s.care.ianikRam := by
  unfold checkWord
  split
  · rfl
  · split <;> rfl

theorem checkWord_p0 (w : WordAt) (s : State) : (checkWord w s).2.p0 = s.p0 := by rw [checkWord_frame]

theorem checkWord_pow (w : WordAt) (s : State) : (checkWord w s).2.pow = s.pow := by rw [checkWord_frame]

theorem tagRead_filled (l : Nat) (fs : List (Nat × Bool)) (s : State) :
    tagRead l (modP0 (fun p => { p with filled := fs }) s) =
      ((tagRead l s).1, modP0 (fun p => { p with filled := fs }) (tagRead l s).2) := by
  have htagged : inTagged (64 * l) (modP0 (fun p => { p with filled := fs }) s) = inTagged (64 * l) s := rfl
  have haddr (t : State) : tagAddr l (modP0 (fun p => { p with filled := fs }) t) = tagAddr l t := rfl
  unfold tagRead
  rw [htagged]
  split
  · rfl
  · simp only [haddr, checkWord_modP0]

theorem tagRead_frame (l : Nat) (s : State) : (tagRead l s).2.p0 = s.p0 ∧ (tagRead l s).2.pow = s.pow ∧
    (tagRead l s).2.care.ianikRam = s.care.ianikRam := by
  unfold tagRead
  split
  · exact ⟨rfl, rfl, rfl⟩
  · exact ⟨(checkWord_p0 ..).trans (checkWord_p0 ..), (checkWord_pow ..).trans (checkWord_pow ..),
      (checkWord_ianikRam ..).trans (checkWord_ianikRam ..)⟩

theorem lineGood_tagRead (l : Nat) (fs : List (Nat × Bool)) (s : State) :
    lineGood l (modP0 (fun p => { p with filled := fs }) (tagRead l s).2) = lineGood l s := by
  obtain ⟨hp0, -, hram⟩ := tagRead_frame l s
  simp only [lineGood, inTagged, lineTag, lineBytes, flashBytes, tagHeld, tagAddr, modP0, hp0, hram]

/-- The check of the oldest fill whose line has arrived (R436 to R438). -/
theorem exec_lineFillComplete {l : Nat} {dem : Bool} {rest : List (Nat × Bool)} {s : State}
    (hfilled : s.p0.filled = (l, dem) :: rest) (htest : tagTested l s = false) :
    exec (.lineFillComplete false) s = .next (if (tagRead l s).1 && lineGood l s then
        fillGood l dem (modP0 (fun p => { p with filled := rest }) (tagRead l s).2)
      else fillBad l dem (modP0 (fun p => { p with filled := rest }) (tagRead l s).2)) := by
  change execLineFillComplete false s = _
  simp only [execLineFillComplete, hfilled, htest, tagRead_filled, lineGood_tagRead, Bool.false_eq_true, if_false]

theorem fillGood_delivers (l : Nat) (dem : Bool) (s : State) : lineHeld l (fillGood l dem s) = true ∧
    (s.p0.stalled = some l → (fillGood l dem s).p0.stalled = none) := by
  have hrest := portRest_nextLine (modP0 (fun p => { p with
    lines := lineTouch l (lineBytes l s) p.lines, stalled := if p.stalled = some l then none else p.stalled }) s) l dem
  refine ⟨(portRest_lineHeld hrest l).trans ?_, fun h => (portRest_stalled hrest).trans ?_⟩
  · exact List.any_eq_true.mpr ⟨(l, lineBytes l s), List.mem_cons_self .., decide_eq_true rfl⟩
  · exact if_pos h

theorem fetchFault_survived {l : Nat} {s : State} (h : s.pow.bootCrit = false) :
    fetchFault l s = modP0 (fun p => { p with stalled := none }) s := by
  unfold fetchFault
  exact if_neg (by rw [modP0_pow, h]; exact Bool.false_ne_true)

theorem fillBad_counts {l : Nat} {dem : Bool} {s : State} (h : dem = false ∨ s.pow.bootCrit = false) :
    (fillBad l dem s).p0.tagFail = stick 255 s.p0.tagFail ∧ (fillBad l dem s).p0.evTag = true ∧
      lineHeld l (fillBad l dem s) = lineHeld l s ∧ (dem = true → (fillBad l dem s).p0.stalled = none) := by
  unfold fillBad
  extract_lets u
  have hu : u.p0.tagFail = stick 255 s.p0.tagFail ∧ u.p0.evTag = true ∧ lineHeld l u = lineHeld l s ∧ u.pow = s.pow :=
    ⟨rfl, rfl, rfl, rfl⟩
  clear_value u
  obtain ⟨hfail, hevt, hheld, hpow⟩ := hu
  cases dem with
  | false => exact ⟨hfail, hevt, hheld, fun h => absurd h Bool.false_ne_true⟩
  | true =>
    have hrest := portRest_nextLine u l true
    have hcrit : (nextLine l true u).pow.bootCrit = false := by
      rw [portRest_pow hrest, hpow]
      exact h.resolve_left (Bool.false_ne_true ∘ Eq.symm)
    rw [if_pos rfl, fetchFault_survived hcrit]
    obtain ⟨hfail', hevt'⟩ := portRest_tagFail hrest
    exact ⟨hfail'.trans hfail, hevt'.trans hevt, (portRest_lineHeld hrest l).trans hheld, fun _ => rfl⟩

/-- Settles O50: each event's branch, and PSP0's next work, which keeps the flash, the lines and the stall. -/
theorem psp0AndFetchEventsComplete : Obligations.Psp0AndFetchEventsComplete := by
  refine ⟨fun _ _ _ _ _ => exec_psp0Read, fun _ _ _ _ _ => psp0Write_programs, fun _ _ _ _ => exec_psp0RdyTimeout_xfer,
    fun q n m tag st rest s hcur hpolled hwhy herase => ?_, fun _ _ _ => exec_fetchMiss_hit,
    fun addr s haddr hon hidle hline => ⟨fetchMiss_stalls haddr hon hidle hline, fun hthere => ?_⟩,
    fun l dem rest s hfilled htest => ⟨fun htag hgood => ?_, fun hbad hcrit => ?_⟩⟩
  · have hpoll := exec_statusPoll_xfer (st := st) hcur hpolled hwhy herase
    exact ⟨fun hdone => hpoll.trans (if_pos hdone), fun hbusy hlast => hpoll.trans ((if_neg hbusy).trans (if_pos hlast)),
      fun hbusy hmore => hpoll.trans ((if_neg hbusy).trans (if_neg (Nat.not_le.mpr hmore)))⟩
  · exact (exec_fetchMiss_missing haddr hon hidle hline).trans (if_neg (by rw [hthere]; exact Bool.false_ne_true))
  · have hexec := exec_lineFillComplete hfilled htest
    rw [htag, hgood, Bool.and_self, if_pos rfl] at hexec
    obtain ⟨hheld, hstalled⟩ := fillGood_delivers l dem (modP0 (fun p => { p with filled := rest }) (tagRead l s).2)
    refine ⟨_, hexec, hheld, fun h => hstalled ?_⟩
    exact (congrArg Flash.stalled (tagRead_frame l s).1).trans h
  · have hexec := exec_lineFillComplete hfilled htest
    rw [hbad, if_neg Bool.false_ne_true] at hexec
    obtain ⟨hp0, hpow, -⟩ := tagRead_frame l s
    obtain ⟨hfail, hevt, hheld, hstalled⟩ := fillBad_counts (l := l) (dem := dem)
      (s := modP0 (fun p => { p with filled := rest }) (tagRead l s).2) (by rw [modP0_pow, hpow]; exact hcrit)
    have hfail' := congrArg (fun p : Flash => stick 255 p.tagFail) hp0
    have hheld' := congrArg (fun p : Flash => p.lines.any (fun x => decide (x.1 = l))) hp0
    exact ⟨_, hexec, hfail.trans hfail', hevt, hheld.trans hheld', hstalled⟩

end Sys2Proof.Machine
end

section
/-! ## The operations of a Hivewire chain, and the walk's timed events -/

namespace Sys2Proof.Machine

/-! ### What the operations of a chain leave unchanged -/

/-- The state without the chains, the events, Ianik's own state and the Combs. -/
def linkRest (s : State) : State :=
  { s with hw := .replicate 2 {}, evt := {}, ianik := {}, hive := { s.hive with combs := .replicate 3 {} } }

section
variable (s : State)

theorem linkRest_modHw (x : Fin 2) (f : Chain → Chain) : linkRest (modHw x f s) = linkRest s := rfl

theorem linkRest_raise (n : Nat) (d : Word) : linkRest (raise n d s) = linkRest s := rfl

theorem linkRest_complete (op k : Nat) (tag : BitVec 16) (st : Byte) (ws : List Word) :
    linkRest (complete op k tag st ws s) = linkRest s := by
  unfold complete
  split <;> rfl

theorem linkRest_endWalk (x : Fin 2) (reason : Nat) : linkRest (endWalk x reason s) = linkRest s := by
  unfold endWalk
  dsimp only
  split
  · rfl
  · split
    · refine (linkRest_complete ..).trans ?_
      split <;> rfl
    · split <;> rfl

theorem linkRest_xactEnds (x : Fin 2) (status : Nat) (q : Xact) : linkRest (xactEnds x status q s) = linkRest s := by
  unfold xactEnds
  split
  · exact linkRest_complete ..
  · exact linkRest_complete ..
  · split
    · exact (linkRest_complete ..).trans rfl
    · rfl
  · dsimp only
    split <;> exact linkRest_endWalk ..
  · rfl

theorem linkRest_advanceGen (x : Fin 2) : linkRest (advanceGen x s) = linkRest s := by
  unfold advanceGen
  refine (foldl_keeps_eq linkRest (fun t q => ?_) _ _).trans (linkRest_modHw ..)
  split
  · rfl
  · exact linkRest_xactEnds ..

theorem linkRest_dropPartner (x : Fin 2) : linkRest (dropPartner x s) = linkRest s := by
  unfold dropPartner
  dsimp only
  split <;> rfl

theorem linkRest_loseFrom (x : Fin 2) (n : Nat) : linkRest (loseFrom x n s) = linkRest s := by
  unfold loseFrom
  extract_lets c lost flagged f lostNow dropped walked gone
  have hflagged : linkRest flagged = linkRest s :=
    (linkRest_modHw ..).trans (foldl_keeps_eq linkRest (fun t i => linkRest_raise t _ _) lost s)
  have hdropped : linkRest dropped = linkRest lostNow := by
    unfold dropped
    split
    · exact linkRest_dropPartner ..
    · rfl
  have hwalked : linkRest walked = linkRest dropped := by
    unfold walked
    split
    · rfl
    · exact linkRest_endWalk ..
  have hgone : linkRest gone = linkRest s :=
    (linkRest_advanceGen ..).trans (hwalked.trans (hdropped.trans ((linkRest_modHw ..).trans hflagged)))
  split
  · rfl
  · split
    · exact hgone
    · exact (linkRest_modHw ..).trans hgone

end

theorem linkRest_stove {s t : State} (h : linkRest t = linkRest s) : t.stove = s.stove := by
  have hfield := congrArg State.stove h
  exact hfield

theorem linkRest_dmpr {s t : State} (h : linkRest t = linkRest s) : t.dmpr = s.dmpr := by
  have hfield := congrArg State.dmpr h
  exact hfield

/-! ### What they do to their chain -/

theorem modHw_chain_same (x : Fin 2) (f : Chain → Chain) (s : State) : (modHw x f s).hw[x] = f s.hw[x] := by
  simp [modHw, vmod]

theorem modHw_modHw (x : Fin 2) (f g : Chain → Chain) (s : State) :
    modHw x g (modHw x f s) = modHw x (fun c => g (f c)) s := by
  simp [modHw, vmod]

theorem complete_hw (op k : Nat) (tag : BitVec 16) (st : Byte) (ws : List Word) (s : State) :
    (complete op k tag st ws s).hw = s.hw := by rw [complete_frame]

theorem complete_chain (x : Fin 2) (op k : Nat) (tag : BitVec 16) (st : Byte) (ws : List Word) (s : State) :
    (complete op k tag st ws s).hw[x] = s.hw[x] := by rw [complete_hw]

theorem modHw_of_fixed {x : Fin 2} {f : Chain → Chain} {s : State} (h : f s.hw[x] = s.hw[x]) : modHw x f s = s := by
  unfold modHw vmod
  rw [h]
  simp

/-- The chain after a walk has stopped with a reason in M frame `f` (R345). -/
def walkEnded (reason f : Nat) (c : Chain) : Chain :=
  let drop := [1, 2, 3, 4, 5, 6, 8].contains reason
  let k := c.nodes.length + 1
  let low := reason == 9 || (drop && k == 1)
  { c with
    walk := .none, walkReq := none, walkDesc := [], stop := reason, check := none
    out := match c.out with
      | some o => if o.1.why = .walk then none else some o
      | none => none
    pwr := c.pwr && !low
    st := if c.st = 3 then 3 else if c.pwr && !low then 2 else 0
    retryFrom := if c.nodes.isEmpty then some f else c.retryFrom
    walkCmd := none
    queue := if drop && k != 1 then c.queue ++ [mkXact c (k - 1) 0x05 [0] .walk] else c.queue
    ev := if [2, 6, 7, 9].contains reason then c.ev ||| BitVec.ofNat 7 (2 ^ 5) else c.ev }

theorem endWalk_chain {x : Fin 2} {s : State} (h : s.hw[x].walk ≠ .none) (reason : Nat) :
    (endWalk x reason s).hw[x] = walkEnded reason s.stove.frame s.hw[x] := by
  unfold endWalk
  extract_lets c k drop low ended flagged
  have hended : ended.hw[x] = { walkEnded reason s.stove.frame s.hw[x] with ev := s.hw[x].ev } := modHw_chain_same ..
  have hflagged : flagged.hw[x] = walkEnded reason s.stove.frame s.hw[x] := by
    unfold flagged walkEnded
    split
    · rw [hwFlag, modHw_chain_same, raise_hw, hended]
      rfl
    · rw [hended]
      rfl
  rw [if_neg h]
  split
  · rw [walkDone, complete_hw]
    exact hflagged
  · exact hflagged

theorem endWalk_none {x : Fin 2} {s : State} (h : s.hw[x].walk = .none) (reason : Nat) : endWalk x reason s = s := by
  unfold endWalk
  exact if_pos h

/-- A chain without its pending slot maps. -/
def noMaps (c : Chain) : Chain := { c with maps := [] }

theorem noMaps_xactEnds {x : Fin 2} {q : Xact} (hq : q.why ≠ .walk) (status : Nat) (s : State) :
    noMaps (xactEnds x status q s).hw[x] = noMaps s.hw[x] := by
  unfold xactEnds
  split
  · exact congrArg noMaps (complete_chain ..)
  · exact congrArg noMaps (complete_chain ..)
  · split
    · exact ((congrArg noMaps (complete_chain ..)).trans (congrArg noMaps (modHw_chain_same ..))).trans rfl
    · rfl
  next hwalk => exact absurd hwalk hq
  · rfl

/-- A generation that advances discards the chain's requests (R340). -/
theorem noMaps_advanceGen (x : Fin 2) (s : State) : noMaps (advanceGen x s).hw[x] =
    noMaps { s.hw[x] with gen := nextGen s.hw[x].gen, queue := [], out := none } := by
  unfold advanceGen
  extract_lets c g old begun
  have hbegun : begun.hw[x] = { s.hw[x] with gen := nextGen s.hw[x].gen, queue := [], out := none } := modHw_chain_same ..
  rw [← hbegun]
  refine foldl_keeps_eq (fun t : State => noMaps t.hw[x]) (fun t q => ?_) old begun
  split
  next => rfl
  next hq => exact noMaps_xactEnds hq ..

/-! ### Sending -/

/-- A request that is no DOWN_POWER close goes out at once. -/
theorem transmit_open {x : Fin 2} {n : Nat} {q : Xact} (hopen : closes q = false) (s : State) :
    transmit x n q s = modHw x (launch n q) s := by
  unfold transmit
  rw [if_neg (by rw [hopen]; exact Bool.false_ne_true)]

/-- What a chain on which no other request waits does in M frame `n` with the walk's request. -/
def walkSent (n : Nat) (c : Chain) : Chain :=
  if c.out.isSome || decide (n < c.nextAt) then c
  else if c.genLeft.1 ≠ 0 then
    launch n ⟨0, c.genLeft.2, 0x04, [byteOf c.gen], c.tag, 0, .genUpdate⟩ { c with genLeft := (c.genLeft.1 - 1, c.genLeft.2) }
  else match c.walkReq with
    | none => c
    | some w => launch n { w with tag := c.tag + 1 } { c with walkReq := none, lastWalk := true, tag := c.tag + 1 }

theorem nextXact_walk (n : Nat) {c : Chain} (hqueue : c.queue = []) :
    nextXact n c = c.walkReq.map (fun w => (w, { c with walkReq := none, lastWalk := true })) := by
  have hfind : c.queue.find? (canSend n) = none := by rw [hqueue, List.find?_nil]
  unfold nextXact
  rw [hfind]
  cases c.walkReq <;> rfl

theorem hwSend_chain {x : Fin 2} (n : Nat) {s : State} (hopen : ∀ w, s.hw[x].walkReq = some w → closes w = false)
    (hqueue : s.hw[x].queue = []) : (hwSend x n s).hw[x] = walkSent n s.hw[x] := by
  have hkept : modHw x (fun c => { c with queue := c.queue.filter (fun q => !tooLate n q) }) s = s :=
    modHw_of_fixed (by rw [hqueue, List.filter_nil, ← hqueue])
  unfold hwSend walkSent
  rw [hkept]
  dsimp only
  split
  · rfl
  · split
    · exact modHw_chain_same ..
    · rw [nextXact_walk n hqueue]
      cases hreq : s.hw[x].walkReq with
      | none => rfl
      | some w =>
        have hclose : closes { w with tag := s.hw[x].tag + 1 } = false := hopen w hreq
        dsimp only [Option.map]
        rw [transmit_open hclose, modHw_chain_same, modHw_chain_same]

/-! ### The walk's timed events -/

theorem exec_walkVsnsLow {x : Fin 2} {s : State} (hruns : hwRuns x s = true) (hwalk : s.hw[x].walk = .vsnsLow)
    (hfrom : s.hw[x].walkFrom ≤ s.stove.frame) (hlow : lineVolts x s < 1) :
    exec (.walkVsnsLow x) s = .next (modHw x (fun c => { c with walk := .check1, check := some (100, true) }) s) := by
  change execWalkVsnsLow x s = _
  unfold execWalkVsnsLow
  dsimp only
  rw [hruns, hwalk, decide_eq_true hfrom, decide_eq_true hlow]
  rfl

/-- A chain on which step 1 of R344 begins in M frame `n`. -/
def discovers (n : Nat) (c : Chain) : Chain :=
  { c with
    walkFrom := n, walkDesc := [], walkAttach := !c.nodes.isEmpty, walk := .discover
    walkReq := some (mkXact c 15 0x01 [] .walk) }

theorem walkDiscover_eq (x : Fin 2) (n : Nat) (s : State) : walkDiscover x n s = modHw x (discovers n) s :=
  modHw_modHw ..

theorem walkSent_walk (n : Nat) (c : Chain) : (walkSent n c).walk = c.walk ∧ (walkSent n c).walkFrom = c.walkFrom := by
  unfold walkSent
  split
  · exact ⟨rfl, rfl⟩
  · split
    · exact ⟨rfl, rfl⟩
    · split <;> exact ⟨rfl, rfl⟩

theorem walkSent_out {n : Nat} {c : Chain} {w : Xact} (hreq : c.walkReq = some w) (hout : c.out = none)
    (hgen : c.genLeft.1 = 0) (hnext : c.nextAt ≤ n) :
    (walkSent n c).out = some (stampDelta n { w with tag := c.tag + 1 }, n) := by
  unfold walkSent
  rw [hout, hreq, if_neg (by simpa using hnext), if_neg (by simpa using hgen)]
  rfl

theorem walkVgoodReached_discovers {x : Fin 2} {s : State} (hruns : hwRuns x s = true) (hwalk : s.hw[x].walk = .vgood)
    (hgood : f32Q s.hw[x].vgood ≤ lineVolts x s) (hqueue : s.hw[x].queue = []) :
    ∃ t, exec (.walkVgoodReached x) s = .next t ∧ t.hw[x].walk = .discover ∧ t.hw[x].walkFrom = s.stove.frame ∧
      (s.hw[x].out = none → s.hw[x].genLeft.1 = 0 → s.hw[x].nextAt ≤ s.stove.frame →
        ∃ q, t.hw[x].out = some (q, s.stove.frame) ∧ q.dest = 15 ∧ q.op = 0x01 ∧ q.gen = s.hw[x].gen ∧
          q.tag = s.hw[x].tag + 1) := by
  have hexec : exec (.walkVgoodReached x) s = .next (hwSend x s.stove.frame (walkDiscover x s.stove.frame s)) := by
    change execWalkVgoodReached x s = _
    unfold execWalkVgoodReached
    dsimp only
    rw [hruns, hwalk, decide_eq_true hgood]
    rfl
  have hdisc : (walkDiscover x s.stove.frame s).hw[x] = discovers s.stove.frame s.hw[x] := by
    rw [walkDiscover_eq, modHw_chain_same]
  have hsent : (hwSend x s.stove.frame (walkDiscover x s.stove.frame s)).hw[x] =
      walkSent s.stove.frame (discovers s.stove.frame s.hw[x]) := by
    refine (hwSend_chain _ (fun w hw => ?_) ?_).trans (by rw [hdisc])
    · rw [hdisc] at hw
      obtain rfl := Option.some.inj hw
      rfl
    · rw [hdisc]
      exact hqueue
  obtain ⟨hdiscover, hfrom⟩ := walkSent_walk s.stove.frame (discovers s.stove.frame s.hw[x])
  refine ⟨_, hexec, ?_⟩
  rw [hsent]
  refine ⟨hdiscover, hfrom, fun hout hgen hnext => ⟨_, walkSent_out rfl hout hgen hnext, rfl, rfl, rfl, rfl⟩⟩

theorem discoverRepeat_repeats {x : Fin 2} {q : Xact} {t : Nat} {s : State} (hruns : hwRuns x s = true)
    (hwalk : s.hw[x].walk = .discover) (hreq : s.hw[x].walkReq = none) (hout : s.hw[x].out = some (q, t))
    (hop : q.op = 0x01) (hdue : t + 2 ≤ s.stove.frame) (hqueue : s.hw[x].queue = []) (hgen : s.hw[x].genLeft.1 = 0)
    (hnext : s.hw[x].nextAt ≤ s.stove.frame) :
    ∃ u, exec (.discoverRepeat x) s = .next u ∧
      ∃ r, u.hw[x].out = some (r, s.stove.frame) ∧ r.dest = 15 ∧ r.op = 0x01 ∧ r.tag = s.hw[x].tag + 1 := by
  obtain ⟨v, hv⟩ : ∃ v, v = walkSend x .discover 15 0x01 [] (modHw x (fun c => { c with out := none }) s) := ⟨_, rfl⟩
  have hexec : exec (.discoverRepeat x) s = .next (hwSend x s.stove.frame v) := by
    change execDiscoverRepeat x s = _
    unfold execDiscoverRepeat
    dsimp only
    rw [hruns, hwalk, hreq, hout, hv]
    exact (if_pos rfl).trans (if_pos (And.intro hop hdue))
  have hvx : v.hw[x] = { s.hw[x] with
      out := none, walk := .discover, walkReq := some (mkXact s.hw[x] 15 0x01 [] .walk) } := by
    rw [hv, walkSend, modHw_modHw, modHw_chain_same]
    rfl
  have hsent : (hwSend x s.stove.frame v).hw[x] = walkSent s.stove.frame v.hw[x] := by
    refine hwSend_chain _ (fun w hw => ?_) ?_
    · rw [hvx] at hw
      obtain rfl := Option.some.inj hw
      rfl
    · rw [hvx]
      exact hqueue
  refine ⟨_, hexec, ?_⟩
  rw [hsent, hvx]
  exact ⟨_, walkSent_out rfl rfl hgen hnext, rfl, rfl, rfl⟩

theorem discoverTimeout_ends {x : Fin 2} {s : State} (hruns : hwRuns x s = true) (hwalk : s.hw[x].walk = .discover)
    (hdue : s.hw[x].walkFrom + s.hw[x].bootTmo ≤ s.stove.frame) :
    ∃ t, exec (.discoverTimeout x) s = .next t ∧ t.hw[x].walk = .none ∧
      t.hw[x].stop = (if s.hw[x].walkAttach then 2 else 1) := by
  have hexec : exec (.discoverTimeout x) s = .next (endWalk x (if s.hw[x].walkAttach then 2 else 1) s) := by
    change execDiscoverTimeout x s = _
    unfold execDiscoverTimeout
    dsimp only
    rw [hruns, hwalk, decide_eq_true hdue]
    rfl
  refine ⟨_, hexec, ?_⟩
  rw [endWalk_chain (by rw [hwalk]; decide)]
  exact ⟨rfl, rfl⟩

theorem flag_set {k : Nat} (hk : k < 7) (v : BitVec 7) : (v ||| BitVec.ofNat 7 (2 ^ k)).getLsbD k = true := by
  rw [BitVec.getLsbD_or, BitVec.getLsbD_ofNat, Nat.testBit_two_pow_self, decide_eq_true hk]
  exact Bool.or_true _

theorem walkVgoodTimeout_ends {x : Fin 2} {s : State} (hruns : hwRuns x s = true)
    (hdue : (s.hw[x].walk = .vsnsLow ∧ 4800 ≤ s.stove.frame - s.hw[x].walkFrom) ∨
      (s.hw[x].walk = .vgood ∧ 480 < s.stove.frame - s.hw[x].walkFrom)) :
    ∃ t, exec (.walkVgoodTimeout x) s = .next t ∧ t.hw[x].walk = .none ∧ t.hw[x].stop = 9 ∧ t.hw[x].pwr = false ∧
      t.hw[x].ev.getLsbD 5 = true := by
  have hwalk : s.hw[x].walk ≠ .none := by
    rcases hdue with ⟨h, -⟩ | ⟨h, -⟩ <;> rw [h] <;> decide
  have hexec : exec (.walkVgoodTimeout x) s = .next (endWalk x 9 s) := by
    change execWalkVgoodTimeout x s = _
    unfold execWalkVgoodTimeout
    dsimp only
    rw [hruns]
    rcases hdue with ⟨h, hlong⟩ | ⟨h, hlong⟩
    · rw [h, decide_eq_true hlong]
      rfl
    · rw [h, decide_eq_true hlong]
      rfl
  refine ⟨_, hexec, ?_⟩
  rw [endWalk_chain hwalk]
  refine ⟨rfl, rfl, Bool.and_false _, ?_⟩
  exact flag_set (by decide) _

/-! ### Losses -/

/-- What a loss of nodes leaves for the chain's later operations. -/
def lossPart (c : Chain) : List HwNode × Nat × Nat × Option Nat × Bool :=
  (c.nodes, c.lostCnt, c.gen, c.retryFrom, c.ev.getLsbD 3)

theorem lossPart_of_noMaps {c d : Chain} (h : noMaps c = noMaps d) : lossPart c = lossPart d := by
  have hpart := congrArg lossPart h
  exact hpart

theorem lossPart_dropPartner (x : Fin 2) (s : State) : lossPart (dropPartner x s).hw[x] = lossPart s.hw[x] := by
  unfold dropPartner
  dsimp only
  split
  · rfl
  · rw [modHw_chain_same]
    rfl

theorem lossPart_advanceGen (x : Fin 2) (s : State) :
    lossPart (advanceGen x s).hw[x] = lossPart { s.hw[x] with gen := nextGen s.hw[x].gen } :=
  (lossPart_of_noMaps (noMaps_advanceGen x s)).trans rfl

theorem lostNodes_length (k n : Nat) : ((List.range n).filter (fun i => decide (k + 1 ≤ i + 1))).length = n - k := by
  induction n with
  | zero => simp
  | succ n ih =>
    rw [List.range_succ, List.filter_append, List.length_append, ih]
    by_cases h : k ≤ n <;> simp [h] <;> omega

theorem lossPart_endWalk {x : Fin 2} {s : State} (hfrom : s.hw[x].retryFrom = some s.stove.frame) :
    lossPart (endWalk x 10 s).hw[x] = lossPart s.hw[x] := by
  by_cases h : s.hw[x].walk = .none
  · rw [endWalk_none h]
  · rw [endWalk_chain h]
    unfold lossPart walkEnded
    dsimp only
    rw [hfrom, ite_self]
    rfl

theorem loseFrom_chain {x : Fin 2} {k : Nat} {s : State} (hk : k < s.hw[x].nodes.length) :
    lossPart (loseFrom x (k + 1) s).hw[x] = (s.hw[x].nodes.take k, min 255 (s.hw[x].lostCnt + (s.hw[x].nodes.length - k)),
      nextGen s.hw[x].gen, some s.stove.frame, true) := by
  obtain ⟨c, hc⟩ : ∃ c, c = s.hw[x] := ⟨_, rfl⟩
  have hlost := lostNodes_length k s.hw[x].nodes.length
  unfold loseFrom
  extract_lets _ lost flagged f lostNow dropped walked gone
  have hflagged : flagged.hw[x] = { s.hw[x] with ev := s.hw[x].ev ||| BitVec.ofNat 7 (2 ^ 3) } := by
    have hraised : (lost.foldl (fun s i => raise (hwEvt x 33) (bit i) s) s).hw = s.hw :=
      foldl_keeps_eq State.hw (fun _ _ => raise_hw ..) lost s
    unfold flagged
    rw [hwFlag, modHw_chain_same, hraised]
  have hnow : lossPart lostNow.hw[x] = (s.hw[x].nodes.take k, min 255 (s.hw[x].lostCnt + (s.hw[x].nodes.length - k)),
      s.hw[x].gen, some f, true) := by
    unfold lostNow
    rw [modHw_chain_same, hflagged, ← hlost]
    unfold lossPart
    dsimp only
    rw [flag_set (by decide)]
    rfl
  have hdropped : lossPart dropped.hw[x] = lossPart lostNow.hw[x] := by
    unfold dropped
    split
    · exact lossPart_dropPartner ..
    · rfl
  have hf : f = s.stove.frame :=
    congrArg Stove.frame (foldl_keeps_eq State.stove (fun _ _ => raise_stove ..) lost s)
  have hframe : dropped.stove.frame = f := by
    have hrest : linkRest dropped = linkRest flagged := by
      unfold dropped
      split
      · exact (linkRest_dropPartner ..).trans (linkRest_modHw ..)
      · exact linkRest_modHw ..
    exact congrArg Stove.frame (linkRest_stove hrest)
  have hwalked : lossPart walked.hw[x] = lossPart dropped.hw[x] := by
    have hfrom : dropped.hw[x].retryFrom = some dropped.stove.frame := by
      have hpart := hdropped.trans hnow
      simp only [lossPart, Prod.mk.injEq] at hpart
      rw [hframe]
      exact hpart.2.2.2.1
    unfold walked
    split
    · rfl
    · exact lossPart_endWalk hfrom
  have hgone : lossPart gone.hw[x] = (s.hw[x].nodes.take k, min 255 (s.hw[x].lostCnt + (s.hw[x].nodes.length - k)),
      nextGen s.hw[x].gen, some s.stove.frame, true) := by
    have hpart := (hwalked.trans hdropped).trans hnow
    refine (lossPart_advanceGen x walked).trans ?_
    simp only [lossPart, Prod.mk.injEq] at hpart ⊢
    obtain ⟨hnodes, hcnt, hgen, hfrom, hev⟩ := hpart
    exact ⟨hnodes, hcnt, congrArg nextGen hgen, hfrom.trans (congrArg some hf), hev⟩
  have hsome : lost.isEmpty = false := by
    rw [List.isEmpty_eq_false_iff, ← List.length_pos_iff, hlost]
    omega
  rw [hsome, if_neg Bool.false_ne_true]
  split
  · exact hgone
  · refine Eq.trans ?_ hgone
    rw [startGenUpdate, modHw_chain_same]
    rfl

theorem nodeLoss_loses {x : Fin 2} {k : Nat} {y : HwNode} {s : State} (hruns : hwRuns x s = true)
    (hnode : s.hw[x].nodes[k]? = some y) (hmissed : 16 ≤ y.missed) :
    ∃ t, exec (.nodeLoss x (k + 1)) s = .next t ∧ t.hw[x].nodes = s.hw[x].nodes.take k ∧
      t.hw[x].lostCnt = min 255 (s.hw[x].lostCnt + (s.hw[x].nodes.length - k)) ∧
      t.hw[x].gen = (s.hw[x].gen + 1) % 16 ∧ t.hw[x].retryFrom = some s.stove.frame ∧
      t.hw[x].ev.getLsbD 3 = true := by
  have hexec : exec (.nodeLoss x (k + 1)) s = .next (loseFrom x (k + 1) s) := by
    change execNodeLoss x (k + 1) s = _
    unfold execNodeLoss
    dsimp only
    rw [hruns, Nat.add_sub_cancel, hnode]
    exact if_pos (by simpa using hmissed)
  have hpart := loseFrom_chain (x := x) (k := k) (s := s) (List.getElem?_eq_some_iff.mp hnode).1
  simp only [lossPart, Prod.mk.injEq] at hpart
  exact ⟨_, hexec, hpart⟩

/-! ### Tail-outs and automatic walks -/

/-- The slots of a list take the rate off. -/
theorem freeSlots_chain (x : Fin 2) (ks : List Nat) (s : State) (k : Fin 40) :
    (ks.foldl (fun s k => silenceSlot (hwClass x true) k (modHw x (fun c => { c with up := vmodN c.up k (fun _ => {}) }) s))
      s).hw[x].up[k] = if k.val ∈ ks then {} else s.hw[x].up[k] := by
  induction ks generalizing s with
  | nil => rfl
  | cons i ks ih =>
    have hone : (silenceSlot (hwClass x true) i (modHw x (fun c => { c with up := vmodN c.up i (fun _ => {}) }) s)).hw[x].up[k] =
        if k.val = i then {} else s.hw[x].up[k] := by
      have hup := congrArg (fun c : Chain => c.up[k]) (modHw_chain_same x (fun c => { c with up := vmodN c.up i (fun _ => {}) }) s)
      refine Eq.trans hup ?_
      change (vmodN s.hw[x].up i (fun _ => {}))[k] = _
      unfold vmodN
      split
      next hi =>
        by_cases hk : k.val = i
        · subst hk
          simp
        · rw [if_neg hk]
          exact Vector.getElem_set_ne _ _ (Ne.symm hk)
      next hi => rw [if_neg (fun hk : k.val = i => hi (hk ▸ k.isLt))]
    rw [List.foldl_cons, ih, hone]
    by_cases hk : k.val ∈ ks
    · rw [if_pos hk, if_pos (List.mem_cons_of_mem _ hk)]
    · rw [if_neg hk]
      simp only [List.mem_cons, hk, or_false]

theorem slotTailOutEnd_frees (x : Fin 2) (s : State) : ∃ t, exec (.slotTailOutEnd x) s = .next t ∧ ∀ k : Fin 40,
    t.hw[x].up[k] = (if (s.hw[x].up[k].tail.any (fun e => decide (e.1 + 16 * s.hive.dom.d ≤ s.stove.frame))) = true
      then {} else s.hw[x].up[k]) := by
  refine ⟨_, rfl, fun k => ?_⟩
  unfold freeSlots
  rw [freeSlots_chain]
  refine ite_congr (propext ?_) (fun _ => rfl) (fun _ => rfl)
  rw [List.mem_filter, List.mem_range, vgetD_val, and_iff_right k.isLt]
  dsimp only
  cases s.hw[x].up[k].tail <;> rfl

theorem autoWalkRetry_walks {x : Fin 2} {f : Nat} {s : State} (hruns : hwRuns x s = true) (hauto : s.hw[x].auto = true)
    (hwalk : s.hw[x].walk = .none) (hst : s.hw[x].st ≠ 3) (hfrom : s.hw[x].retryFrom = some f)
    (hdue : f + s.hw[x].retry ≤ s.stove.frame) :
    exec (.autoWalkRetry x) s = if s.hw[x].nodes.isEmpty then .next (startWalk x none s.stove.frame s)
      else if lastAttach s.hw[x] then
        .next (resumeWalk x none s.stove.frame (modHw x (fun c => { c with retryFrom := none }) s))
      else .next s := by
  change execAutoWalkRetry x s = _
  unfold execAutoWalkRetry
  dsimp only
  rw [hruns, hauto, hwalk, hfrom]
  exact (if_pos (bne_iff_ne.mpr hst)).trans (if_pos hdue)

/-- Settles O49: the branch of each event, with what the end of a walk, a loss and a send leave of the chain. -/
theorem walkAndLossEventsComplete : Obligations.WalkAndLossEventsComplete := by
  refine ⟨fun _ _ => exec_walkVsnsLow, fun _ _ => walkVgoodReached_discovers, fun _ _ _ _ => discoverRepeat_repeats,
    fun _ _ => discoverTimeout_ends, fun _ _ => walkVgoodTimeout_ends, fun _ _ _ _ => nodeLoss_loses,
    slotTailOutEnd_frees, fun x f s hruns hauto hwalk hst hfrom hdue => ⟨fun hnodes => ?_, fun hattach => ?_⟩⟩
  · refine ⟨_, (autoWalkRetry_walks hruns hauto hwalk hst hfrom hdue).trans (if_pos (List.isEmpty_iff.mpr hnodes)), ?_⟩
    rw [startWalk, modHw_chain_same]
    exact ⟨rfl, rfl, rfl, rfl⟩
  · have hnodes : s.hw[x].nodes.isEmpty = false := by
      simp only [lastAttach, Bool.and_eq_true, Bool.not_eq_true'] at hattach
      exact hattach.1
    refine ⟨_, (autoWalkRetry_walks hruns hauto hwalk hst hfrom hdue).trans ((if_neg (by rw [hnodes]; decide)).trans
      (if_pos hattach)), ?_⟩
    rw [resumeWalk, modHw_chain_same, modHw_chain_same]
    exact ⟨rfl, rfl, rfl, rfl⟩

end Sys2Proof.Machine
end

section
/-! ## Line frames, control replies and retries -/

namespace Sys2Proof.Machine

/-! ### Line frames -/

/-- What the samples of a line frame leave of a chain. -/
def framePart (c : Chain) : Nat × Nat × List HwNode × Vector (Option (List Byte)) 4 := (c.trip, c.errCnt, c.nodes, c.frags)

theorem framePart_quadEntries (m l : Nat) (c : Chain) : framePart (quadEntries m l c) = framePart c := by
  unfold quadEntries
  dsimp only
  split
  · rfl
  · rfl
  · split <;> rfl

theorem framePart_lineSamples (n m d q : Nat) (xs : Nat → Option F32) (c : Chain) :
    framePart (lineSamples n m d q xs c) = framePart c := by
  unfold lineSamples
  extract_lets begun entered
  have hentered : framePart entered = framePart c := by
    unfold entered
    rw [framePart_quadEntries]
    unfold framePart quadIn begun
    rfl
  clear_value entered
  rw [← hentered]
  unfold framePart keepLast
  split
  · dsimp only
    split <;> rfl
  · rfl

theorem framePart_fillLines (n m d upTo : Nat) (c : Chain) : framePart (fillLines n m d upTo c) = framePart c := by
  refine foldl_keeps_eq framePart (fun b q => ?_) _ c
  split
  · exact (framePart_lineSamples n m d q (fun _ => none) b)
  · rfl

theorem framePart_hwFlag (x : Fin 2) (b : Nat) (s : State) : framePart (hwFlag x b s).hw[x] = framePart s.hw[x] := by
  rw [hwFlag, modHw_chain_same]
  rfl

theorem framePart_partnerReport (x : Fin 2) (bad : Bool) (cs : List (Option (Bool × Byte))) (s : State) :
    framePart (partnerReport x bad cs s).hw[x] = framePart s.hw[x] := by
  unfold partnerReport
  dsimp only
  split
  · rfl
  · split
    · rw [modHw_chain_same]
      rfl
    · exact (congrArg framePart (modHw_chain_same ..)).trans rfl

theorem framePart_lineError (x : Fin 2) (s : State) : framePart (lineError x s).hw[x] =
    framePart { s.hw[x] with errCnt := stick 65535 s.hw[x].errCnt } := by
  unfold lineError
  extract_lets c w n was hit counted
  have hcounted : framePart counted.hw[x] = framePart { s.hw[x] with errCnt := stick 65535 s.hw[x].errCnt } :=
    (congrArg framePart (modHw_chain_same ..)).trans rfl
  split
  · exact (framePart_hwFlag ..).trans hcounted
  · exact hcounted

theorem framePart_attention (x : Fin 2) (w : BitVec 16) (s : State) :
    framePart (attention x w s).hw[x] = framePart s.hw[x] ∧ (attention x w s).hw[x].attention = w.extractLsb' 0 12 := by
  have hpart : (framePart (attention x w s).hw[x], (attention x w s).hw[x].attention) =
      (framePart s.hw[x], w.extractLsb' 0 12) := by
    unfold attention
    extract_lets c noted
    have hnoted : (framePart noted.hw[x], noted.hw[x].attention) = (framePart s.hw[x], w.extractLsb' 0 12) :=
      (congrArg (fun c : Chain => (framePart c, c.attention)) (modHw_chain_same ..)).trans rfl
    split
    · exact hnoted
    · refine (foldl_keeps_eq (fun t : State => (framePart t.hw[x], t.hw[x].attention)) (fun t i => ?_) _ noted).trans hnoted
      split
      · rfl
      · split
        · exact (congrArg (fun c : Chain => (framePart c, c.attention)) (modHw_chain_same ..)).trans rfl
        · have hqueue (q : Xact) : (framePart (queueXact x q t).hw[x], (queueXact x q t).hw[x].attention) =
              (framePart t.hw[x], t.hw[x].attention) :=
            (congrArg (fun c : Chain => (framePart c, c.attention)) (modHw_chain_same ..)).trans rfl
          cases c.out <;> dsimp only <;> split
          · rfl
          · exact hqueue _
          · rfl
          · exact hqueue _
  exact ⟨congrArg Prod.fst hpart, congrArg Prod.snd hpart⟩

theorem framePart_attachBits (x : Fin 2) (w : BitVec 16) (s : State) :
    framePart (attachBits x w s).hw[x] = framePart s.hw[x] ∧ (attachBits x w s).hw[x].attach = w.extractLsb' 0 12 := by
  unfold attachBits
  extract_lets was noted c
  have hnoted : noted.hw[x] = { s.hw[x] with attach := w.extractLsb' 0 12 } := modHw_chain_same ..
  split
  · rw [resumeWalk, modHw_chain_same, hnoted]
    exact ⟨rfl, rfl⟩
  · rw [hnoted]
    exact ⟨rfl, rfl⟩

/-- The state of a chain once a line frame's samples and fragment are in, before its service field is. -/
theorem execLineFrameReceived_samples {x : Fin 2} (f : LineFrame) {s : State} (hruns : hwRuns x s = true) :
    ∃ u : State, framePart u.hw[x] = (f.trip,
        (if upBad (upChars f) = true then stick 65535 s.hw[x].errCnt else s.hw[x].errCnt), s.hw[x].nodes,
        vmodN (if f.q.val = 0 then Vector.replicate 4 none else s.hw[x].frags) f.q.val
          (fun _ => if upBad (upChars f) = true then none else some (((upBytes (upChars f)).drop 120).take 5))) ∧
      exec (.lineFrameReceived x f) s = (match f.q.val with
        | 0 => .next (modHw x (heartbeat (upBad (upChars f)) (service (upChars f))) u)
        | 1 => .next (if upBad (upChars f) then u else attention x (service (upChars f)) u)
        | 2 => .next (if upBad (upChars f) then u else attachBits x (service (upChars f)) u)
        | _ => .next u) := by
  obtain ⟨bad, hbad⟩ : ∃ b, b = upBad (upChars f) := ⟨_, rfl⟩
  obtain ⟨u1, hu1⟩ : ∃ u, u = if bad then lineError x s else s := ⟨_, rfl⟩
  have h1 : framePart u1.hw[x] = framePart { s.hw[x] with
      errCnt := if bad then stick 65535 s.hw[x].errCnt else s.hw[x].errCnt } := by
    rw [hu1]
    cases bad
    · rfl
    · exact framePart_lineError ..
  obtain ⟨u2, hu2⟩ : ∃ u, u = modHw x (fun c => { fillLines s.stove.frame u1.hive.dom.m u1.hive.dom.d f.q.val c with
      gotQ := f.q.val + 1 }) u1 := ⟨_, rfl⟩
  have h2 : framePart u2.hw[x] = framePart u1.hw[x] := by
    rw [hu2, modHw_chain_same]
    refine Eq.trans ?_ (framePart_fillLines s.stove.frame u1.hive.dom.m u1.hive.dom.d f.q.val u1.hw[x])
    generalize fillLines s.stove.frame u1.hive.dom.m u1.hive.dom.d f.q.val u1.hw[x] = c
    unfold framePart
    rfl
  obtain ⟨xs, hxs⟩ : ∃ xs : Nat → Option F32, xs = fun k =>
      if bad then none else upSample (upChars f) (vgetD u2.hw[x].up k {}) k := ⟨_, rfl⟩
  obtain ⟨u3, hu3⟩ : ∃ u, u = if anyMissing s.stove.frame u2.hive.dom.d xs u2.hw[x] then hwFlag x 0 u2 else u2 := ⟨_, rfl⟩
  have h3 : framePart u3.hw[x] = framePart u2.hw[x] := by
    rw [hu3]
    split
    · exact framePart_hwFlag ..
    · rfl
  obtain ⟨u4, hu4⟩ : ∃ u, u = modHw x (fun c =>
      lineSamples s.stove.frame u3.hive.dom.m u3.hive.dom.d f.q.val xs { c with trip := f.trip }) u3 := ⟨_, rfl⟩
  have h4 : framePart u4.hw[x] = framePart { u3.hw[x] with trip := f.trip } := by
    rw [hu4, modHw_chain_same]
    exact framePart_lineSamples ..
  obtain ⟨u5, hu5⟩ : ∃ u, u = partnerReport x bad (upChars f) u4 := ⟨_, rfl⟩
  have h5 : framePart u5.hw[x] = framePart u4.hw[x] := by
    rw [hu5]
    exact framePart_partnerReport ..
  obtain ⟨frag, hfrag⟩ : ∃ o : Option (List Byte), o = if bad = true then none else
      some (((upBytes (upChars f)).drop 120).take 5) := ⟨_, rfl⟩
  refine ⟨modHw x (fun c => { c with
    frags := vmodN (if f.q.val = 0 then Vector.replicate 4 none else c.frags) f.q.val (fun _ => frag) }) u5, ?_, ?_⟩
  · rw [modHw_chain_same, ← hbad, ← hfrag]
    have hpart := h5.trans h4
    simp only [framePart, Prod.mk.injEq] at h1 h2 h3 hpart ⊢
    obtain ⟨htrip, herr, hnodes, hfrags⟩ := hpart
    obtain ⟨-, herr3, hnodes3, hfrags3⟩ := h3
    obtain ⟨-, herr2, hnodes2, hfrags2⟩ := h2
    obtain ⟨-, herr1, hnodes1, hfrags1⟩ := h1
    refine ⟨htrip, herr.trans (herr3.trans (herr2.trans herr1)), hnodes.trans (hnodes3.trans (hnodes2.trans hnodes1)), ?_⟩
    rw [hfrags, hfrags3, hfrags2, hfrags1]
  · rw [← hbad]
    change execLineFrameReceived x f s = _
    unfold execLineFrameReceived
    rw [hruns, if_neg (by decide)]
    dsimp only
    rw [← hbad, ← hu1, ← hu2, ← hxs, ← hu3, ← hu4, ← hu5, ← hfrag] <;> rfl

theorem lineFrameReceived_brings {x : Fin 2} (f : LineFrame) {s : State} (hruns : hwRuns x s = true) :
    ∃ t, exec (.lineFrameReceived x f) s = .next t ∧ t.hw[x].trip = f.trip ∧
      t.hw[x].frags[f.q] = (if upBad (upChars f) = true then none else some (((upBytes (upChars f)).drop 120).take 5)) ∧
      t.hw[x].errCnt = (if upBad (upChars f) = true then stick 65535 s.hw[x].errCnt else s.hw[x].errCnt) ∧
      (f.q = 0 → t.hw[x].nodes = (heartbeat (upBad (upChars f)) (service (upChars f)) s.hw[x]).nodes) ∧
      (f.q = 1 → upBad (upChars f) = false → t.hw[x].attention = (service (upChars f)).extractLsb' 0 12) ∧
      (f.q = 2 → upBad (upChars f) = false → t.hw[x].attach = (service (upChars f)).extractLsb' 0 12) := by
  obtain ⟨u, hpart, hexec⟩ := execLineFrameReceived_samples f hruns
  obtain ⟨bad, hbad⟩ : ∃ b, b = upBad (upChars f) := ⟨_, rfl⟩
  obtain ⟨w, hw⟩ : ∃ w, w = service (upChars f) := ⟨_, rfl⟩
  obtain ⟨frag, hfrag⟩ : ∃ o : Option (List Byte), o = if bad = true then none else
      some (((upBytes (upChars f)).drop 120).take 5) := ⟨_, rfl⟩
  rw [← hbad, ← hfrag] at hpart
  rw [← hbad, ← hw] at hexec
  rw [← hbad, ← hw, ← hfrag]
  have hpart' : u.hw[x].trip = f.trip ∧ u.hw[x].frags[f.q] = frag ∧
      u.hw[x].errCnt = (if bad = true then stick 65535 s.hw[x].errCnt else s.hw[x].errCnt) ∧ u.hw[x].nodes = s.hw[x].nodes := by
    simp only [framePart, Prod.mk.injEq] at hpart
    obtain ⟨htrip, herr, hnodes, hfrags⟩ := hpart
    refine ⟨htrip, ?_, herr, hnodes⟩
    rw [hfrags, vmodN_val]
    simp
  obtain ⟨htrip, hfrags, herr, hnodes⟩ := hpart'
  have hkept {v : State} (hv : framePart v.hw[x] = framePart u.hw[x]) : v.hw[x].trip = f.trip ∧
      v.hw[x].frags[f.q] = frag ∧
      v.hw[x].errCnt = if bad = true then stick 65535 s.hw[x].errCnt else s.hw[x].errCnt := by
    simp only [framePart, Prod.mk.injEq] at hv
    obtain ⟨htrip', herr', -, hfrags'⟩ := hv
    exact ⟨htrip'.trans htrip, (by rw [hfrags']; exact hfrags), herr'.trans herr⟩
  have hcases : ∀ q : Fin 4, q = 0 ∨ q = 1 ∨ q = 2 ∨ q = 3 := by decide
  rcases hcases f.q with hq | hq | hq | hq
  · refine ⟨modHw x (heartbeat bad w) u, by rw [hexec, hq]; rfl, ?_⟩
    rw [modHw_chain_same]
    refine ⟨htrip, hfrags, herr, fun _ => ?_, fun h => absurd (hq.symm.trans h) (by decide),
      fun h => absurd (hq.symm.trans h) (by decide)⟩
    unfold heartbeat
    rw [hnodes]
  · obtain ⟨hpart1, hattn⟩ := framePart_attention x w u
    refine ⟨if bad then u else attention x w u, by rw [hexec, hq]; rfl, ?_⟩
    obtain ⟨htrip1, hfrags1, herr1⟩ := hkept (v := if bad then u else attention x w u) (by
      split
      · rfl
      · exact hpart1)
    refine ⟨htrip1, hfrags1, herr1, fun h => absurd (hq.symm.trans h) (by decide), fun _ hgood => ?_,
      fun h => absurd (hq.symm.trans h) (by decide)⟩
    rw [hgood, if_neg Bool.false_ne_true]
    exact hattn
  · obtain ⟨hpart2, hattach⟩ := framePart_attachBits x w u
    refine ⟨if bad then u else attachBits x w u, by rw [hexec, hq]; rfl, ?_⟩
    obtain ⟨htrip2, hfrags2, herr2⟩ := hkept (v := if bad then u else attachBits x w u) (by
      split
      · rfl
      · exact hpart2)
    refine ⟨htrip2, hfrags2, herr2, fun h => absurd (hq.symm.trans h) (by decide),
      fun h => absurd (hq.symm.trans h) (by decide), fun _ hgood => ?_⟩
    rw [hgood, if_neg Bool.false_ne_true]
    exact hattach
  · exact ⟨u, by rw [hexec, hq]; rfl, htrip, hfrags, herr, fun h => absurd (hq.symm.trans h) (by decide),
      fun h => absurd (hq.symm.trans h) (by decide), fun h => absurd (hq.symm.trans h) (by decide)⟩

/-! ### Replies and retries -/

theorem exec_controlReply_good {x : Fin 2} {s : State} {q : Xact} {t g : Nat} {bs : List Byte} (hruns : hwRuns x s = true)
    (hout : s.hw[x].out = some (q, t)) (hlate : t < s.stove.frame) (hmsg : replyMsg s.hw[x] = some (q.dest, g, bs))
    (hfits : replyFits s.hw[x] q q.dest g bs = true) : exec (.controlReplyReceived x) s =
      .next (replyActs x q bs (modHw x (fun c => { c with frags := .replicate 4 none, out := none }) s)) := by
  refine (execControlReplyReceived_good hruns hout hmsg hlate hfits).trans ?_
  rw [modHw_modHw]

theorem controlReply_event {x : Fin 2} {s : State} {q : Xact} {t g k : Nat} {bs : List Byte} (hruns : hwRuns x s = true)
    (hout : s.hw[x].out = some (q, t)) (hlate : t < s.stove.frame) (hmsg : replyMsg s.hw[x] = some (q.dest, g, bs))
    (hfits : replyFits s.hw[x] q q.dest g bs = true) (hwhy : q.why = .event (k + 1)) :
    ∃ u, exec (.controlReplyReceived x) s = .next u ∧ u.hw[x].out = none ∧
      (∀ y, s.hw[x].nodes[k]? = some y → u.hw[x].nodes[k]? = some { y with event := (bs.drop 2).take 12 }) := by
  have hexec := exec_controlReply_good hruns hout hlate hmsg hfits
  unfold replyActs at hexec
  rw [hwhy] at hexec
  refine ⟨_, hexec, ?_⟩
  rw [modHw_chain_same, modHw_chain_same]
  refine ⟨rfl, fun y hy => ?_⟩
  simp only [List.getElem?_map, List.getElem?_zipIdx, hy, Option.map_some, Nat.zero_add, if_true]

theorem exec_controlRequestRetry {x : Fin 2} {q : Xact} {t : Nat} {s : State} (hruns : hwRuns x s = true)
    (hout : s.hw[x].out = some (q, t)) (hdue : t + 2 ≤ s.stove.frame) (hdest : q.dest ≠ 0) (hop : q.op ≠ 0x01) :
    exec (.controlRequestRetry x) s =
      if tooLate s.stove.frame q then .next (modHw x (fun c => { c with out := none }) s)
      else if q.tries < 3 ∧ (closes q = false ∨ s.dmpr.line[x].permit = true) then
        .next (hwFlag x 1 (transmit x s.stove.frame { q with tries := q.tries + 1 }
          (modHw x (fun c => { c with retryCnt := stick 255 c.retryCnt }) s)))
      else .next (xactEnds x stTimeout q (modHw x (fun c => { c with out := none }) s)) := by
  change execControlRequestRetry x s = _
  unfold execControlRequestRetry
  rw [hout]
  dsimp only
  rw [hruns, decide_eq_true hdue, decide_eq_true hdest, bne_iff_ne.mpr hop]
  rfl

theorem transmit_chain {x : Fin 2} {n : Nat} {q : Xact} {s : State}
    (h : closes q = false ∨ s.dmpr.line[x].permit = true) : (transmit x n q s).hw[x] = launch n q s.hw[x] := by
  unfold transmit
  split
  next hclose =>
    rw [if_pos (h.resolve_left (by rw [hclose]; decide)), modHw_chain_same]
  next => exact modHw_chain_same ..

/-- Settles O48: what the samples of a line frame leave, a good reply's act, and the branches of a retry. -/
theorem lineEventsComplete : Obligations.LineEventsComplete := by
  refine ⟨fun x f s hruns => lineFrameReceived_brings f hruns,
    fun x q t g bs s hruns hout hlate hmsg hfits => ⟨fun m tag wr n hwhy => ?_,
      fun k => controlReply_event hruns hout hlate hmsg hfits⟩,
    fun x q t s hruns hout hdue hdest hop => ⟨fun hlate => ?_, fun hlate htries hclose => ?_, fun htries m tag wr n hwhy => ?_⟩⟩
  · have hexec := exec_controlReply_good hruns hout hlate hmsg hfits
    unfold replyActs at hexec
    rw [hwhy] at hexec
    exact hexec
  · exact (exec_controlRequestRetry hruns hout hdue hdest hop).trans (if_pos hlate)
  · refine ⟨_, (exec_controlRequestRetry hruns hout hdue hdest hop).trans ((if_neg (by rw [hlate]; decide)).trans
      (if_pos ⟨htries, hclose⟩)), ?_⟩
    rw [hwFlag, modHw_chain_same, transmit_chain (q := { q with tries := q.tries + 1 })
      (s := modHw x (fun c => { c with retryCnt := stick 255 c.retryCnt }) s) hclose, modHw_chain_same]
    exact ⟨rfl, rfl, flag_set (by decide) _⟩
  · have hlate : tooLate s.stove.frame q = false := by
      unfold tooLate
      rw [hwhy]
    refine (exec_controlRequestRetry hruns hout hdue hdest hop).trans ((if_neg (by rw [hlate]; decide)).trans
      ((if_neg (fun h => absurd h.1 (Nat.not_lt.mpr htries))).trans ?_))
    unfold xactEnds
    rw [hwhy]
    rfl

end Sys2Proof.Machine
end

section
/-! ## The Damper's events -/

namespace Sys2Proof.Machine

/-! ### The Damper's ceilings and kill lines -/

theorem dmprMove_dmpr (f : Damper → Damper) (s : State) : (dmprMove f s).dmpr = dmprSend (f s.dmpr) := by
  unfold dmprMove dmprCopies
  split <;> rfl

theorem dmprMove_frame (f : Damper → Damper) (s : State) :
    dmprMove f s = { s with dmpr := (dmprMove f s).dmpr, bel := { s.bel with ch := (dmprMove f s).bel.ch } } := by
  unfold dmprMove dmprCopies
  split <;> rfl

theorem dmprMove_evt (f : Damper → Damper) (s : State) : (dmprMove f s).evt = s.evt := by rw [dmprMove_frame]

/-- What issuing the ceilings leaves of the Damper. -/
def unsent (d : Damper) : Damper := { d with issued := false, ch := d.ch.map (fun y => { y with sent := 0 }) }

theorem unsent_dmprSend (d : Damper) : unsent (dmprSend d) = unsent d := by
  unfold dmprSend
  split
  · rfl
  · unfold unsent
    simp [Vector.map_map, Function.comp_def]

/-- The count of raises. -/
def raisedTimes (n k : Nat) : Nat := (List.range k).foldl (fun n _ => stick 65535 n) n

theorem raisedTimes_succ (n k : Nat) : raisedTimes n (k + 1) = raisedTimes (stick 65535 n) k := by
  rw [raisedTimes, List.range_succ_eq_map, List.foldl_cons, List.foldl_map]
  rfl

theorem acc_raises (n : Fin 64) (d : Word) (l : List Nat) (s : State) :
    (l.foldl (fun s k => if d.getLsbD k then raise n.val (BitVec.ofNat 32 (2 ^ k)) s else s) s).evt.acc[n] =
      raisedTimes s.evt.acc[n] (l.countP d.getLsbD) := by
  induction l generalizing s with
  | nil => rfl
  | cons i l ih =>
    rw [List.foldl_cons, ih]
    by_cases h : d.getLsbD i = true
    · rw [if_pos h, acc_raise_same, List.countP_cons_of_pos h, raisedTimes_succ]
    · rw [if_neg h, List.countP_cons_of_neg h]

theorem acc_raiseMask_same (n : Fin 64) (d : Word) (s : State) : (raiseMask n.val d s).evt.acc[n] =
    raisedTimes s.evt.acc[n] ((List.range 32).countP d.getLsbD) := acc_raises ..

theorem acc_raiseMask_of_ne {n : Nat} (d : Word) (s : State) {k : Fin 64} (h : n ≠ k.val) :
    (raiseMask n d s).evt.acc[k] = s.evt.acc[k] := by
  refine foldl_keeps_eq (fun t : State => t.evt.acc[k]) (fun t i => ?_) _ s
  split
  · exact acc_raise_of_ne _ _ h
  · rfl

theorem maskOf_getLsbD (l : List Nat) (k : Nat) (hk : k < 32) : (maskOf l).getLsbD k = decide (k ∈ l) := by
  induction l with
  | nil => simp [maskOf]
  | cons i l ih =>
    have hbit : (bit i).getLsbD k = decide (k = i) := by
      rw [bit, BitVec.getLsbD_ofNat, Nat.testBit_two_pow, decide_eq_true hk, Bool.true_and, decide_eq_decide]
      exact eq_comm
    rw [maskOf, BitVec.getLsbD_or, ih, hbit]
    simp [List.mem_cons]

/-- The bits of a mask of channels, counted. -/
theorem countP_maskOf (p : Fin 32 → Bool) :
    (List.range 32).countP (maskOf ((List.finRange 32).filterMap (fun c => if p c then some c.val else none))).getLsbD =
      (List.finRange 32).countP p := by
  have hmem (k : Fin 32) : decide (k.val ∈ (List.finRange 32).filterMap (fun c => if p c then some c.val else none)) = p k := by
    by_cases hp : p k = true
    · rw [hp, decide_eq_true_eq, List.mem_filterMap]
      exact ⟨k, List.mem_finRange k, if_pos hp⟩
    · rw [Bool.not_eq_true] at hp
      rw [hp, decide_eq_false_iff_not, List.mem_filterMap]
      rintro ⟨c, -, hc⟩
      split at hc
      next hpc =>
        obtain rfl := Fin.ext (Option.some.inj hc)
        exact Bool.false_ne_true (hp.symm.trans hpc)
      next => exact absurd hc (by simp)
  have hrange : List.range 32 = (List.finRange 32).map Fin.val := by decide
  rw [hrange, List.countP_map]
  refine List.countP_congr fun k _ => ?_
  rw [Function.comp_apply, maskOf_getLsbD _ _ k.isLt, hmem]

/-! ### Samples -/

theorem senseStuck_frame (k : Nat) (code : BitVec 12) (s : State) : senseStuck k code s =
    { s with dmpr := { s.dmpr with stuck := (senseStuck k code s).dmpr.stuck, ev := (senseStuck k code s).dmpr.ev } } := by
  unfold senseStuck
  extract_lets n counted
  clear_value n
  split <;> rfl

/-- What a battery sample changes of the supply's judgement. -/
def batPart (d : Damper) : List Rat × Nat × DmprCfg × Option DmprCfg × Supply := (d.bat, d.batN, d.cfg, d.cfgNext, d.supply)

theorem batPart_dmprSend (d : Damper) : batPart (dmprSend d) = batPart d := by
  unfold dmprSend
  split <;> rfl

/-- The Damper with a battery sample taken and its counts in a row moved (R365, R366). -/
def batTaken (v : Rat) (d : Damper) : Damper :=
  { d with
    bat := (v :: d.bat).take 16, batN := min 16 (d.batN + 1)
    runs := (inRow (decide (v < f32Q d.cfg.cut)) d.runs.1, inRow (decide (f32Q d.cfg.resume ≤ v)) d.runs.2.1,
      inRow (decide (f32Q d.cfg.dump < v)) d.runs.2.2.1, inRow (decide (v ≤ f32Q d.cfg.release)) d.runs.2.2.2) }

/-- The event by which a battery sample enters a supply state (R366). -/
def batEvent (ev : Nat) (m : Word) (s : State) : State :=
  match ev with
  | 43 => dmprFlag 1 (raise 43 m s)
  | 44 => dmprFlag 2 (raise 44 m s)
  | 45 => dmprFlag 3 (raise 45 m s)
  | _ => s

/-- The Damper after a battery sample, but for what it sends and its event bits (R366). -/
def batJudged (v : Rat) (d : Damper) : Damper :=
  { batTaken v d with
    supply := (supplyMove (batTaken v d)).1
    killCnt := if (supplyMove (batTaken v d)).2 = 45 then stick 255 d.killCnt else d.killCnt }

theorem batSample_eq (v : Rat) (s : State) : batSample v s =
    batEvent (supplyMove (batTaken v s.dmpr)).2 (qF32 (batMean (batJudged v s.dmpr)))
      (dmprMove (fun _ => batJudged v s.dmpr) s) := rfl

theorem batPart_batEvent (ev : Nat) (m : Word) (s : State) : batPart (batEvent ev m s).dmpr = batPart s.dmpr := by
  unfold batEvent
  split <;> rfl

theorem batSample_part (v : Rat) (s : State) : batPart (batSample v s).dmpr = batPart (batJudged v s.dmpr) := by
  rw [batSample_eq, batPart_batEvent, dmprMove_dmpr, batPart_dmprSend]

/-- The eighth sample in a row below the threshold cuts the supply (R366). -/
theorem supplyMove_cut {d : Damper} (hnormal : d.supply = .normal) (hbelow : 8 ≤ d.runs.1) (hdump : d.runs.2.2.1 = 0) :
    supplyMove d = (.cut, 44) := by
  simp [supplyMove, hnormal, hbelow, hdump]

theorem inRow_true (n : Nat) : inRow true n = min 64 (n + 1) := rfl

theorem inRow_false (n : Nat) : inRow false n = 0 := rfl

theorem batSample_cut {v : Rat} {s : State} (hmove : supplyMove (batTaken v s.dmpr) = (.cut, 44)) :
    (batSample v s).evt.acc[(44 : Fin 64)] = stick 65535 s.evt.acc[(44 : Fin 64)] := by
  rw [batSample_eq, hmove]
  have hraise := acc_raise_same 44 (qF32 (batMean (batJudged v s.dmpr))) (dmprMove (fun _ => batJudged v s.dmpr) s)
  rw [dmprMove_evt] at hraise
  exact hraise

theorem adcSample_bat (code : BitVec 12) {s : State} (hruns : damperRuns s = true) :
    exec (.damperAdcSample 0 code) s = .next (batSample (senseVolts code (s.dmpr.cfgNext.getD s.dmpr.cfg).batRatio)
      (senseStuck 0 code (modDmpr takeConfig s))) := by
  have hcfg : (senseStuck 0 code (modDmpr takeConfig s)).dmpr.cfg = s.dmpr.cfgNext.getD s.dmpr.cfg := by
    rw [senseStuck_frame]
    rfl
  rw [← hcfg]
  change execDamperAdcSample 0 code s = _
  unfold execDamperAdcSample
  rw [hruns, if_neg (by decide), if_pos rfl]
  rfl

theorem adcSample_battery {code : BitVec 12} {s : State} (hruns : damperRuns s = true) (v : Rat)
    (hv : v = senseVolts code (s.dmpr.cfgNext.getD s.dmpr.cfg).batRatio) :
    ∃ t, exec (.damperAdcSample 0 code) s = .next t ∧ t.dmpr.bat = (v :: s.dmpr.bat).take 16 ∧
      t.dmpr.batN = min 16 (s.dmpr.batN + 1) ∧ t.dmpr.cfg = s.dmpr.cfgNext.getD s.dmpr.cfg ∧
      t.dmpr.cfgNext = none ∧
      (s.dmpr.supply = .normal → 7 ≤ s.dmpr.runs.1 → v < f32Q t.dmpr.cfg.cut → v ≤ f32Q t.dmpr.cfg.dump →
        t.dmpr.supply = .cut ∧ t.evt.acc[44] = stick 65535 s.evt.acc[44]) := by
  obtain ⟨u, hu⟩ : ∃ u, u = senseStuck 0 code (modDmpr takeConfig s) := ⟨_, rfl⟩
  have huevt : u.evt = s.evt := by
    rw [hu, senseStuck_frame]
    rfl
  have hud : u.dmpr.bat = s.dmpr.bat ∧ u.dmpr.batN = s.dmpr.batN ∧ u.dmpr.cfg = s.dmpr.cfgNext.getD s.dmpr.cfg ∧
      u.dmpr.cfgNext = none ∧ u.dmpr.supply = s.dmpr.supply ∧ u.dmpr.runs = s.dmpr.runs := by
    rw [hu, senseStuck_frame]
    exact ⟨rfl, rfl, rfl, rfl, rfl, rfl⟩
  obtain ⟨hbat, hbatN, hcfg, hnext, hsupply, hcounts⟩ := hud
  have hpart := batSample_part v u
  simp only [batPart, batJudged, batTaken, Prod.mk.injEq] at hpart
  obtain ⟨hbat', hbatN', hcfg', hnext', hsupply'⟩ := hpart
  refine ⟨batSample v u, by rw [adcSample_bat code hruns, hv, hu], ?_⟩
  rw [hbat', hbatN', hcfg', hnext', hbat, hbatN, hcfg, hnext]
  refine ⟨rfl, rfl, rfl, rfl, fun hnormal hlow hcut hdump => ?_⟩
  have hmove : supplyMove (batTaken v u.dmpr) = (.cut, 44) := by
    refine supplyMove_cut (hsupply.trans hnormal) ?_ ?_
    · change 8 ≤ inRow (decide (v < f32Q u.dmpr.cfg.cut)) u.dmpr.runs.1
      rw [hcfg, hcounts, decide_eq_true hcut, inRow_true]
      omega
    · change inRow (decide (f32Q u.dmpr.cfg.dump < v)) u.dmpr.runs.2.2.1 = 0
      rw [hcfg, decide_eq_false (Rat.not_lt.mpr hdump), inRow_false]
  refine ⟨hsupply'.trans (congrArg Prod.fst hmove), ?_⟩
  rw [← huevt]
  exact batSample_cut hmove

/-- What a conversion does in a slot other than the round's first, its input's faults judged (R361, R378, R380). -/
def adcTaken (slot : Nat) (code : BitVec 12) (s : State) : State :=
  match slot with
  | 2 =>
    let v := senseVolts code s.dmpr.cfg.railRatio
    let s := modDmpr (fun d => { d with rail := v }) s
    if s.pow.seqBel then { s with bel := { s.bel with vrail := qF32 v } } else s
  | 4 => lineSense 0 code s
  | 6 => lineSense 1 code s
  | 1 => lineAmps 0 code s
  | 5 => lineAmps 0 code s
  | _ => lineAmps 1 code s

theorem exec_adcSample {slot : Fin 8} (code : BitVec 12) {s : State} (hruns : damperRuns s = true) (hslot : slot ≠ 0) :
    exec (.damperAdcSample slot code) s = .next (adcTaken slot.val code (senseStuck (slotInput slot.val) code s)) := by
  change execDamperAdcSample slot code s = _
  unfold execDamperAdcSample
  rw [hruns, if_neg (by decide), if_neg hslot]
  dsimp only
  generalize senseStuck (slotInput slot.val) code s = u
  have hval : slot.val ≠ 0 := fun h => hslot (Fin.ext h)
  generalize slot.val = n at hval
  unfold adcTaken
  match n with
  | 0 => exact absurd rfl hval
  | 1 | 2 | 3 | 4 | 5 | 6 | n + 7 => rfl

theorem senseStuck_line (k : Nat) (code : BitVec 12) (s : State) : (senseStuck k code s).dmpr.line = s.dmpr.line := by
  rw [senseStuck_frame]

theorem senseStuck_hw (k : Nat) (code : BitVec 12) (s : State) : (senseStuck k code s).hw = s.hw := by
  rw [senseStuck_frame]

theorem adcSample_rail {code : BitVec 12} {s : State} (hruns : damperRuns s = true) :
    ∃ t, exec (.damperAdcSample 2 code) s = .next t ∧ t.dmpr.rail = senseVolts code s.dmpr.cfg.railRatio ∧
      t.bel.vrail = (if s.pow.seqBel then qF32 (senseVolts code s.dmpr.cfg.railRatio) else s.bel.vrail) := by
  refine ⟨_, exec_adcSample code hruns (by decide), ?_⟩
  have hframe := senseStuck_frame (slotInput (2 : Fin 8).val) code s
  obtain ⟨u, hu⟩ : ∃ u, u = senseStuck (slotInput (2 : Fin 8).val) code s := ⟨_, rfl⟩
  rw [← hu] at hframe ⊢
  have hcfg : u.dmpr.cfg = s.dmpr.cfg := by rw [hframe]
  have hpow : u.pow = s.pow := by rw [hframe]
  have hbel : u.bel = s.bel := by rw [hframe]
  rw [← hcfg, ← hpow, ← hbel]
  change (if u.pow.seqBel then _ else _ : State).dmpr.rail = _ ∧ (if u.pow.seqBel then _ else _ : State).bel.vrail = _
  split <;> exact ⟨rfl, rfl⟩

theorem modLine_same (x : Fin 2) (f : DmprLine → DmprLine) (s : State) : (modLine x f s).dmpr.line[x] = f s.dmpr.line[x] := by
  simp [modLine, modDmpr, vmod]

theorem lineTrip_amps (x : Fin 2) (s : State) : (lineTrip x s).dmpr.line[x].amps = s.dmpr.line[x].amps := by
  have htripped (latch : Bool) (t : State) : (lineTripped x latch t).dmpr = t.dmpr :=
    linkRest_dmpr ((linkRest_modHw ..).trans ((linkRest_loseFrom ..).trans (linkRest_endWalk ..)))
  unfold lineTrip
  extract_lets l latch flagged tripped cut
  have hamps : tripped.dmpr.line[x].amps = s.dmpr.line[x].amps := (congrArg DmprLine.amps (modLine_same ..)).trans rfl
  have hcut : cut.dmpr.line[x].amps = s.dmpr.line[x].amps :=
    (congrArg (fun d : Damper => d.line[x].amps) (htripped latch tripped)).trans hamps
  split <;> exact hcut

theorem lineAmps_amps (x : Fin 2) (code : BitVec 12) (s : State) :
    (lineAmps x code s).dmpr.line[x].amps = senseAmps code s.dmpr.line[x].shunt := by
  unfold lineAmps
  extract_lets l i n taken
  have htaken : taken.dmpr.line[x].amps = i := congrArg DmprLine.amps (modLine_same ..)
  split
  · exact (lineTrip_amps ..).trans htaken
  · exact htaken

theorem lineSense_volts (x : Fin 2) (code : BitVec 12) (s : State) :
    (lineSense x code s).dmpr.line[x].volts = (senseVolts code s.hw[x].ratio :: s.dmpr.line[x].volts).take 8 := by
  unfold lineSense
  extract_lets v taken
  have htaken : taken.dmpr.line[x].volts = (v :: s.dmpr.line[x].volts).take 8 := congrArg DmprLine.volts (modLine_same ..)
  split <;> exact htaken

theorem adcSample_amps {slot : Fin 8} {x : Fin 2} {code : BitVec 12} {s : State} (hruns : damperRuns s = true)
    (h : (slot.val = 1 ∨ slot.val = 5) ∧ x = 0 ∨ (slot.val = 3 ∨ slot.val = 7) ∧ x = 1) :
    ∃ t, exec (.damperAdcSample slot code) s = .next t ∧ t.dmpr.line[x].amps = senseAmps code s.dmpr.line[x].shunt := by
  have hslot : slot ≠ 0 := by
    rintro rfl
    simp at h
  refine ⟨_, exec_adcSample code hruns hslot, ?_⟩
  have htaken : adcTaken slot.val code (senseStuck (slotInput slot.val) code s) =
      lineAmps x code (senseStuck (slotInput slot.val) code s) := by
    rcases h with ⟨h | h, rfl⟩ | ⟨h | h, rfl⟩ <;> rw [h] <;> rfl
  rw [htaken, lineAmps_amps, senseStuck_line]

theorem adcSample_volts {slot : Fin 8} {x : Fin 2} {code : BitVec 12} {s : State} (hruns : damperRuns s = true)
    (h : slot.val = 4 ∧ x = 0 ∨ slot.val = 6 ∧ x = 1) : ∃ t, exec (.damperAdcSample slot code) s = .next t ∧
      t.dmpr.line[x].volts = (senseVolts code s.hw[x].ratio :: s.dmpr.line[x].volts).take 8 := by
  have hslot : slot ≠ 0 := by
    rintro rfl
    simp at h
  refine ⟨_, exec_adcSample code hruns hslot, ?_⟩
  have htaken : adcTaken slot.val code (senseStuck (slotInput slot.val) code s) =
      lineSense x code (senseStuck (slotInput slot.val) code s) := by
    rcases h with ⟨h, rfl⟩ | ⟨h, rfl⟩ <;> rw [h] <;> rfl
  rw [htaken, lineSense_volts, senseStuck_line, senseStuck_hw]

/-! ### Blocks -/

theorem routineBlock_frame (bits : List (List (BitVec 16 × BitVec 16))) (s : State) :
    routineBlock bits s = { s with ianik := (routineBlock bits s).ianik } := by
  unfold routineBlock
  split
  · split <;> rfl
  · rfl

/-- What a block does to the channels (R371 to R375). -/
def blockResult (bits : List (List (BitVec 16 × BitVec 16))) (s : State) (c : Fin 32) : DmprCh × Bool × Bool :=
  channelBlock s.hive.dom.fm (bits.getD c.val []) s.dmpr.ch[c]

/-- The channels for which `p` holds of what a block does. -/
def blockMask (bits : List (List (BitVec 16 × BitVec 16))) (p : DmprCh × Bool × Bool → Bool) (s : State) : Word :=
  maskOf ((List.finRange 32).filterMap (fun c => if p (blockResult bits s c) then some c.val else none))

theorem exec_energyBlockEnd {bits : List (List (BitVec 16 × BitVec 16))} {s : State} (hruns : damperRuns s = true)
    (hbel : belRuns s = true) : exec (.energyBlockEnd bits) s =
      .next (raiseMask 42 (blockMask bits (fun r => r.2.2) s) (raiseMask 46 (blockMask bits (fun r => r.2.1) s)
        (dmprMove (fun d => { d with ch := vmap d.ch (fun c _ => (blockResult bits s c).1) }) (routineBlock bits s)))) := by
  have hresult (c : Fin 32) : ((List.finRange 32).map (blockResult bits s))[c.val]? = some (blockResult bits s c) := by
    simp
  have hdom : (routineBlock bits s).hive.dom.fm = s.hive.dom.fm := by rw [routineBlock_frame]
  have hdmpr : (routineBlock bits s).dmpr = s.dmpr := by rw [routineBlock_frame]
  have hblock : (fun c => channelBlock (routineBlock bits s).hive.dom.fm (bits.getD c.val []) (routineBlock bits s).dmpr.ch[c]) =
      blockResult bits s := by
    funext c
    rw [hdom, hdmpr, blockResult]
  change execEnergyBlockEnd bits s = _
  unfold execEnergyBlockEnd
  rw [hruns, hbel, if_neg (by decide)]
  dsimp only
  rw [hblock]
  simp only [hresult]
  rfl

theorem countP_blockMask (bits : List (List (BitVec 16 × BitVec 16))) (p : DmprCh × Bool × Bool → Bool) (s : State) :
    (List.range 32).countP (blockMask bits p s).getLsbD = (List.finRange 32).countP (fun c => p (blockResult bits s c)) :=
  countP_maskOf ..

theorem unsent_ch {d e : Damper} (h : unsent d = unsent e) (c : Fin 32) :
    { d.ch[c] with sent := 0 } = { e.ch[c] with sent := 0 } := by
  have hch : d.ch.map (fun y => { y with sent := 0 }) = e.ch.map (fun y => { y with sent := 0 }) := congrArg Damper.ch h
  have hget := congrArg (fun v : Vector DmprCh 32 => v[c]) hch
  simpa using hget

theorem dmprSend_ch (d : Damper) (c : Fin 32) : { (dmprSend d).ch[c] with sent := 0 } = { d.ch[c] with sent := 0 } :=
  unsent_ch (unsent_dmprSend d) c

theorem energyBlockEnd_moves {bits : List (List (BitVec 16 × BitVec 16))} {s : State} (hruns : damperRuns s = true)
    (hbel : belRuns s = true) : ∃ t, exec (.energyBlockEnd bits) s = .next t ∧
      (∀ c : Fin 32, t.dmpr.ch[c].eWin = (blockResult bits s c).1.eWin ∧ t.dmpr.ch[c].dWin = (blockResult bits s c).1.dWin ∧
        t.dmpr.ch[c].st = (blockResult bits s c).1.st) ∧
      t.evt.acc[46] = raisedTimes s.evt.acc[46] ((List.finRange 32).countP (fun c => (blockResult bits s c).2.1)) ∧
      t.evt.acc[42] = raisedTimes s.evt.acc[42] ((List.finRange 32).countP (fun c => (blockResult bits s c).2.2)) := by
  have hevt (f : Damper → Damper) : (dmprMove f (routineBlock bits s)).evt = s.evt := by
    rw [dmprMove_evt, routineBlock_frame]
  refine ⟨_, exec_energyBlockEnd hruns hbel, fun c => ?_, ?_, ?_⟩
  · have hkept (n : Nat) (d : Word) (t : State) : (raiseMask n d t).dmpr = t.dmpr := by
      refine foldl_keeps_eq State.dmpr (fun t k => ?_) _ t
      split <;> rfl
    have hdmpr : (routineBlock bits s).dmpr = s.dmpr := by rw [routineBlock_frame]
    have hmoved : (vmap s.dmpr.ch (fun c _ => (blockResult bits s c).1))[c] = (blockResult bits s c).1 := by
      simp [vmap]
    rw [hkept, hkept, dmprMove_dmpr, hdmpr]
    have hsent := dmprSend_ch { s.dmpr with ch := vmap s.dmpr.ch (fun c _ => (blockResult bits s c).1) } c
    rw [hmoved] at hsent
    have hewin := congrArg DmprCh.eWin hsent
    have hdwin := congrArg DmprCh.dWin hsent
    have hst := congrArg DmprCh.st hsent
    exact ⟨hewin, hdwin, hst⟩
  · refine (acc_raiseMask_of_ne (n := 42) (k := 46) _ _ (by decide)).trans ((acc_raiseMask_same 46 ..).trans ?_)
    rw [countP_blockMask, hevt]
    rfl
  · refine (acc_raiseMask_same 42 ..).trans ?_
    rw [countP_blockMask, acc_raiseMask_of_ne (n := 46) (k := 42) _ _ (by decide), hevt]
    rfl

/-! ### Cool-downs, retries and permits -/

theorem modDch_same (c : Fin 32) (f : DmprCh → DmprCh) (s : State) : (modDch c f s).dmpr.ch[c] = f s.dmpr.ch[c] := by
  simp [modDch, modDmpr, vmod]

theorem coolDownEnd_ends {c : Fin 32} {s : State} (hruns : damperRuns s = true) (hcool : s.dmpr.ch[c].cooling = true) :
    ∃ t, exec (.coolDownEnd c) s = .next t ∧ t = { s with dmpr := t.dmpr, bel := { s.bel with ch := t.bel.ch } } ∧
      t.dmpr.ch[c].cooling = false ∧ t.dmpr.ch[c].eWin = [] ∧ t.dmpr.ch[c].eZero = false := by
  obtain ⟨u, hu⟩ : ∃ u, u = modDch c (fun y => { y with
      cooling := false, eWin := [], eZero := false, st := if y.st = 1 then 0 else y.st }) s := ⟨_, rfl⟩
  have hexec : exec (.coolDownEnd c) s = .next (dmprMove id u) := by
    change execCoolDownEnd c s = _
    unfold execCoolDownEnd
    dsimp only
    rw [hruns, hcool, hu]
    rfl
  have hch : u.dmpr.ch[c].cooling = false ∧ u.dmpr.ch[c].eWin = [] ∧ u.dmpr.ch[c].eZero = false := by
    rw [hu, modDch_same]
    exact ⟨rfl, rfl, rfl⟩
  have hsent := dmprSend_ch u.dmpr c
  have hcool := congrArg DmprCh.cooling hsent
  have hwin := congrArg DmprCh.eWin hsent
  have hzero := congrArg DmprCh.eZero hsent
  obtain ⟨hcool', hwin', hzero'⟩ := hch
  refine ⟨_, hexec, ?_, ?_⟩
  · rw [dmprMove_frame, hu]
    rfl
  · rw [dmprMove_dmpr]
    exact ⟨hcool.trans hcool', hwin.trans hwin', hzero.trans hzero'⟩

theorem energyTriesReset_resets {c : Fin 32} {s : State} (hruns : damperRuns s = true)
    (hcool : s.dmpr.ch[c].cooling = false) (hzero : s.dmpr.ch[c].eZero = false) :
    ∃ t, exec (.energyTriesReset c) s = .next t ∧
      t = { s with dmpr := { s.dmpr with ch := s.dmpr.ch.set c { s.dmpr.ch[c] with tries := 0 } } } := by
  refine ⟨modDch c (fun y => { y with tries := 0 }) s, ?_, rfl⟩
  change execEnergyTriesReset c s = _
  unfold execEnergyTriesReset
  dsimp only
  rw [hruns, hcool, hzero]
  rfl

theorem lineRetry_walks {x : Fin 2} {s : State} (hruns : damperRuns s = true) (hst : s.dmpr.line[x].st = 1)
    (hhw : hwRuns x s = true) (hwalk : s.hw[x].walk = .none) (hlatch : s.hw[x].st ≠ 3) :
    ∃ t, exec (.lineRetry x) s = .next t ∧ t.dmpr.line[x].st = 0 ∧
      t.hw[x].st = 1 ∧ t.hw[x].walk = .vsnsLow ∧ t.hw[x].walkFrom = s.stove.frame ∧ t.hw[x].pwr = false := by
  have hexec : exec (.lineRetry x) s = .next (startWalk x none s.stove.frame (modLine x (fun l => { l with st := 0 }) s)) := by
    change execLineRetry x s = _
    unfold execLineRetry
    rw [hruns, hst]
    change Host.Outcome.next (if hwRuns x s && s.hw[x].walk == .none && s.hw[x].st != 3 then _ else _) = _
    rw [hhw, hwalk, bne_iff_ne.mpr hlatch]
    rfl
  refine ⟨_, hexec, congrArg DmprLine.st (modLine_same ..), ?_⟩
  rw [startWalk, modHw_chain_same]
  exact ⟨rfl, rfl, rfl, rfl⟩

theorem lineTriesReset_resets {x : Fin 2} {s : State} (hruns : damperRuns s = true) (hpwr : s.hw[x].pwr = true)
    (hst : s.dmpr.line[x].st = 0) : ∃ t, exec (.lineTriesReset x) s = .next t ∧
      t = { s with dmpr := { s.dmpr with line := s.dmpr.line.set x { s.dmpr.line[x] with tries := 0 } } } := by
  refine ⟨modLine x (fun l => { l with tries := 0 }) s, ?_, rfl⟩
  change execLineTriesReset x s = _
  unfold execLineTriesReset
  rw [hruns, hpwr, hst]
  rfl

theorem endWalk_dmpr (x : Fin 2) (reason : Nat) (s : State) : (endWalk x reason s).dmpr = s.dmpr :=
  linkRest_dmpr (linkRest_endWalk ..)

theorem checkAnswer_granted {x : Fin 2} {s : State} (hwalk : s.hw[x].walk = .check1) :
    (checkAnswer x true s).hw[x] = { s.hw[x] with
      check := none, pwr := true, walk := .vgood, walkFrom := s.stove.frame } := by
  unfold checkAnswer
  dsimp only
  rw [hwalk]
  dsimp only
  rw [if_pos rfl, modHw_chain_same]
  exact congrArg (fun c : Chain => { c with pwr := true, walk := .vgood, walkFrom := s.stove.frame }) (modHw_chain_same ..)

theorem checkAnswer_refused {x : Fin 2} {s : State} (hwalk : s.hw[x].walk = .check1) :
    (checkAnswer x false s).hw[x] = walkEnded 7 s.stove.frame { s.hw[x] with check := none } ∧
      (checkAnswer x false s).dmpr = s.dmpr := by
  have hans : checkAnswer x false s = endWalk x 7 (modHw x (fun c => { c with check := none }) s) := by
    unfold checkAnswer
    dsimp only
    rw [hwalk]
    rfl
  rw [hans, endWalk_dmpr, endWalk_chain (by rw [modHw_chain_same]; exact fun h => absurd (hwalk.symm.trans h) (by decide)),
    modHw_chain_same]
  exact ⟨rfl, rfl⟩

theorem storedEnergyCheck_answers {x : Fin 2} {c : Nat} {s : State} (hruns : damperRuns s = true)
    (hcheck : s.hw[x].check = some (c, true)) (hwalk : s.hw[x].walk = .check1) (ok : Bool)
    (hok : ok = decide (f64Q (storedEnergy c (maxQ (s.dmpr.bat.take 8))) ≤ f32Q s.dmpr.line[x].elim / 1000)) :
    ∃ t, exec (.storedEnergyCheck x) s = .next t ∧ t.hw[x].check = none ∧
      (ok = true → t.hw[x].pwr = true ∧ t.hw[x].walk = .vgood ∧ t.hw[x].walkFrom = s.stove.frame) ∧
      (ok = false → t.hw[x].walk = .none ∧ t.hw[x].stop = 7 ∧ t.dmpr.ev.getLsbD 0 = true) := by
  have hexec : exec (.storedEnergyCheck x) s = .next (checkAnswer x ok
      (if ok then modLine x (fun l => { l with permit := true }) s else dmprFlag 0 s)) := by
    change execStoredEnergyCheck x s = _
    unfold execStoredEnergyCheck
    rw [hcheck, hok]
    dsimp only
    rw [hruns]
    rfl
  refine ⟨_, hexec, ?_⟩
  cases ok with
  | true =>
    have hans := checkAnswer_granted (x := x) (s := modLine x (fun l => { l with permit := true }) s) hwalk
    rw [if_pos rfl, hans]
    exact ⟨rfl, fun _ => ⟨rfl, rfl, rfl⟩, fun h => absurd h (by decide)⟩
  | false =>
    obtain ⟨hchain, hdmpr⟩ := checkAnswer_refused (x := x) (s := dmprFlag 0 s) hwalk
    rw [if_neg Bool.false_ne_true, hchain, hdmpr]
    exact ⟨rfl, fun h => absurd h (by decide), fun _ => ⟨rfl, rfl, flag_set (by decide) _⟩⟩

/-- Settles O46: each sample's input, a block's windows and excesses, and the branches of the other events. -/
theorem damperEventsComplete : Obligations.DamperEventsComplete :=
  ⟨fun _ _ hruns => adcSample_battery hruns _ rfl, fun _ _ => adcSample_rail,
    fun _ _ _ _ hruns => ⟨adcSample_amps hruns, adcSample_volts hruns⟩, fun _ _ => energyBlockEnd_moves,
    fun _ _ => coolDownEnd_ends, fun _ _ => energyTriesReset_resets, fun _ _ => lineRetry_walks,
    fun _ _ => lineTriesReset_resets, fun _ _ _ hruns hcheck hwalk => storedEnergyCheck_answers hruns hcheck hwalk _ rfl,
    fun _ _ => ⟨_, rfl, rfl⟩⟩

end Sys2Proof.Machine
end

section
/-! ## The events of the port sides -/

namespace Sys2Proof.Machine

/-! ### A side -/

theorem sideAt_modSide_same (p : Fin 8) (d : Side) (f : PortSide → PortSide) (s : State) :
    sideAt p d (modSide p d f s) = f (sideAt p d s) := by
  cases d <;> simp [sideAt, modSide, vmod]

theorem sideAt_modSide_of_ne {p q : Fin 8} {d e : Side} (h : (p, d) ≠ (q, e)) (f : PortSide → PortSide) (s : State) :
    sideAt q e (modSide p d f s) = sideAt q e s := by
  cases d <;> cases e
  case rx.tx | tx.rx => rfl
  all_goals
    simp only [sideAt, modSide, vmod, Fin.getElem_fin]
    exact Vector.getElem_set_ne _ _ (fun hv => h (by rw [Fin.ext hv]))

theorem modSide_congr {p : Fin 8} {d : Side} {f g : PortSide → PortSide} {s : State} (h : f (sideAt p d s) = g (sideAt p d s)) :
    modSide p d f s = modSide p d g s := by
  cases d <;> simp only [sideAt] at h <;> simp only [modSide, vmod, h]

theorem modSide_modSide (p : Fin 8) (d : Side) (f g : PortSide → PortSide) (s : State) :
    modSide p d g (modSide p d f s) = modSide p d (fun y => g (f y)) s := by
  cases d <;> simp [modSide, vmod]

theorem modSide_stove (p : Fin 8) (d : Side) (f : PortSide → PortSide) (s : State) : (modSide p d f s).stove = s.stove := by
  cases d <;> rfl

theorem modSide_grps (p : Fin 8) (d : Side) (f : PortSide → PortSide) (s : State) : (modSide p d f s).grps = s.grps := by
  cases d <;> rfl

theorem sideAt_portFlag (p : Fin 8) (d : Side) (b : Nat) (s : State) :
    sideAt p d (portFlag p d b s) = { sideAt p d s with ev := (sideAt p d s).ev ||| BitVec.ofNat 9 (2 ^ b) } := by
  refine Eq.trans ?_ (sideAt_modSide_same p d (fun y => { y with ev := y.ev ||| BitVec.ofNat 9 (2 ^ b) }) s)
  unfold portFlag
  dsimp only
  split
  · rfl
  · cases d <;> rfl

theorem portFlag_stove (p : Fin 8) (d : Side) (b : Nat) (s : State) : (portFlag p d b s).stove = s.stove := by
  refine Eq.trans ?_ (modSide_stove p d (fun y => { y with ev := y.ev ||| BitVec.ofNat 9 (2 ^ b) }) s)
  unfold portFlag
  dsimp only
  split <;> rfl

theorem portFlag_set {k : Nat} (hk : k < 9) (v : BitVec 9) : (v ||| BitVec.ofNat 9 (2 ^ k)).getLsbD k = true := by
  rw [BitVec.getLsbD_or, BitVec.getLsbD_ofNat, Nat.testBit_two_pow_self, decide_eq_true hk]
  exact Bool.or_true _

theorem portFlag_kept {k : Nat} {v : BitVec 9} (h : v.getLsbD k = true) (w : BitVec 9) : (v ||| w).getLsbD k = true := by
  rw [BitVec.getLsbD_or, h, Bool.true_or]

theorem sideAt_portLate (p : Fin 8) (d : Side) (b : Nat) (s : State) : sideAt p d (portLate p d b s) =
    { sideAt p d s with
      lateCnt := stick 255 (sideAt p d s).lateCnt, ev := (sideAt p d s).ev ||| BitVec.ofNat 9 (2 ^ b) } := by
  unfold portLate
  rw [sideAt_portFlag, sideAt_modSide_same]

/-! ### Entries and numbers -/

theorem numberSide_numbered {p : Fin 8} {d : Side} {s : State} (h : (sideAt p d s).numbered = true) (n : Nat) :
    numberSide p d n s = s := by
  unfold numberSide
  rw [modSide_congr (g := id)]
  · cases d <;> simp [modSide, vmod]
  · dsimp only
    rw [if_pos h, id_eq]

theorem fadeStep_run {p : Fin 8} {d : Side} {s : State} (h : (sideAt p d s).st ≠ .fadeIn) :
    fadeStep p d s = (0x3F800000, s) := by
  unfold fadeStep
  exact if_neg h

theorem scaleVals_one (vs : List F32) : scaleVals 0x3F800000 vs = vs := if_pos rfl

theorem vgetD_vmodN_same {α : Type} {n : Nat} (v : Vector α n) {i : Nat} (hi : i < n) (f : α → α) (d : α) :
    vgetD (vmodN v i f) i d = f v[i] := by
  simp [vgetD, vmodN, hi]

theorem rxWrite_buf (p : Fin 8) (n : Nat) (vs : List F32) (s : State) :
    vgetD (rxWrite p n vs s).rx[p].buf (n % 4) none = some ⟨true, BitVec.ofNat 16 n, vs⟩ := by
  have hside := sideAt_modSide_same p .rx (fun y => { y with
    lastVals := vs, buf := vmodN y.buf (n % 4) (fun _ => some ⟨true, BitVec.ofNat 16 n, vs⟩) }) s
  refine (congrArg (fun y : PortSide => vgetD y.buf (n % 4) none) hside).trans ?_
  exact vgetD_vmodN_same _ (Nat.mod_lt _ (by decide)) ..

theorem rxEntry_of_buf {p : Fin 8} {n : Nat} {vs : List F32} {s : State}
    (h : vgetD s.rx[p].buf (n % 4) none = some ⟨true, BitVec.ofNat 16 n, vs⟩) : rxEntry p n s = vs := by
  unfold rxEntry
  rw [h]
  exact if_pos ⟨rfl, rfl⟩

theorem rxEntry_rxWrite (p : Fin 8) (n : Nat) (vs : List F32) (s : State) : rxEntry p n (rxWrite p n vs s) = vs :=
  rxEntry_of_buf (rxWrite_buf ..)

/-! ### Frames -/

theorem sideAt_rxWrite (p : Fin 8) (n : Nat) (vs : List F32) (s : State) : sideAt p .rx (rxWrite p n vs s) =
    { sideAt p .rx s with
      lastVals := vs, buf := vmodN (sideAt p .rx s).buf (n % 4) (fun _ => some ⟨true, BitVec.ofNat 16 n, vs⟩) } :=
  sideAt_modSide_same ..

theorem exec_portFrame_wait {f : PortFrame} {s : State} (hruns : portsRun s = true)
    (hmode : (sideAt f.port f.side s).mode ≠ .master) (hst : (sideAt f.port f.side s).st = .wait)
    (hopens : fsOpens (clockWord f.port f.side s) f.sync.1 f.sync.2 = true) : exec (.portFrameComplete f) s =
      .next (modSide f.port f.side (fun y =>
        let z := if f.side = .rx ∧ y.mode = .foreign then
          ercPush (rxVals (clockWord f.port f.side s) y.w4 (frameCodes (clockWord f.port f.side s) f.data)) y else y
        { z with period := f.period, fill := f.fill, st := .measure, measured := 1 }) s) := by
  have hmode' : ((sideAt f.port f.side s).mode == PortMode.master) = false := beq_eq_false_iff_ne.mpr hmode
  obtain ⟨vs, hvs⟩ : ∃ vs, vs = rxVals (clockWord f.port f.side s) (sideAt f.port f.side s).w4
    (frameCodes (clockWord f.port f.side s) f.data) := ⟨_, rfl⟩
  change execPortFrameComplete f s = _
  simp only [execPortFrameComplete, hruns, hopens, hmode', hst, ← hvs, Bool.not_true, Bool.false_or, Bool.false_and,
    Bool.or_true, Bool.false_eq_true, if_false, reduceCtorEq]
  refine (if_neg (by decide)).trans ?_
  by_cases hforeign : f.side = .rx ∧ (sideAt f.port f.side s).mode = .foreign
  · rw [if_pos hforeign]
    obtain ⟨hside, hfm⟩ := hforeign
    rw [hside] at hfm hvs ⊢
    rw [modSide_modSide, modSide_modSide]
    refine congrArg Host.Outcome.next (modSide_congr ?_)
    rw [if_pos ⟨rfl, hfm⟩, ← hvs]
    rfl
  · rw [if_neg hforeign, modSide_modSide]
    refine congrArg Host.Outcome.next (modSide_congr ?_)
    dsimp only
    rw [if_neg hforeign]

theorem countSide_same (p : Fin 8) (d : Side) (s : State) :
    sideAt p d (countSide p d s) = { sideAt p d s with next := addF (sideAt p d s).next 1 } := sideAt_modSide_same ..

theorem deliverRx_run {p : Fin 8} {vs : List F32} {s : State} (hst : s.rx[p].st = .run) (hnum : s.rx[p].numbered = true)
    (htime : s.stove.frame ≤ s.rx[p].next) (hcheck : s.rx[p].checked ≠ some s.rx[p].next) :
    deliverRx p vs s = rxWrite p s.rx[p].next vs (countSide p .rx s) := by
  have hlate : (decide (s.rx[p].next < s.stove.frame) || s.rx[p].checked == some s.rx[p].next) = false := by
    rw [decide_eq_false (Nat.not_lt.mpr htime), beq_eq_false_iff_ne.mpr hcheck, Bool.or_false]
  have hnumber : numberSide p .rx s.stove.frame s = s := numberSide_numbered (d := .rx) hnum _
  have hfade : fadeStep p .rx s = (0x3F800000, s) := fadeStep_run (by change s.rx[p].st ≠ _; rw [hst]; decide)
  unfold deliverRx
  dsimp only
  rw [hnumber, hfade, hlate, scaleVals_one]
  rfl

theorem exec_portFrame_run {f : PortFrame} {s : State} (hruns : portsRun s = true) (hside : f.side = .rx)
    (hst : s.rx[f.port].st = .run) (hmode : s.rx[f.port].mode = .master) (hclk : s.stove.clocksHeld = false) :
    ∃ k : Nat, exec (.portFrameComplete f) s = .next (deliverRx f.port
      (rxVals (clockWord f.port .rx s) s.rx[f.port].w4 (frameCodes (clockWord f.port .rx s) f.data))
      (modSide f.port .rx (fun y => { y with period := f.period, fill := f.fill, offRate := k }) s)) := by
  have hy : sideAt f.port .rx s = s.rx[f.port] := rfl
  obtain ⟨k, hk⟩ : ∃ k, k = if decide (s.rx[f.port].refPeriod <
      50 * (max f.period s.rx[f.port].refPeriod - min f.period s.rx[f.port].refPeriod)) then
      s.rx[f.port].offRate + 1 else 0 := ⟨_, rfl⟩
  refine ⟨k, ?_⟩
  change execPortFrameComplete f s = _
  simp only [execPortFrameComplete, hside, hy, hruns, hst, hmode, hclk, ← hk, modSide_modSide, reduceCtorEq, and_false,
    false_and, if_false, beq_self_eq_true, Bool.true_or, Bool.not_true, Bool.and_false, Bool.or_false, Bool.false_or,
    ne_eq, not_true_eq_false, if_true, Bool.false_eq_true]
  rfl

theorem portFrame_delivers {f : PortFrame} {s : State} (hruns : portsRun s = true) (hside : f.side = .rx)
    (hst : s.rx[f.port].st = .run) (hmode : s.rx[f.port].mode = .master) (hclk : s.stove.clocksHeld = false)
    (hnum : s.rx[f.port].numbered = true) (htime : s.stove.frame ≤ s.rx[f.port].next)
    (hcheck : s.rx[f.port].checked ≠ some s.rx[f.port].next) :
    ∃ t, exec (.portFrameComplete f) s = .next t ∧
      rxEntry f.port s.rx[f.port].next t = rxVals (clockWord f.port .rx s) s.rx[f.port].w4 (frameCodes (clockWord f.port .rx s) f.data) ∧
      t.rx[f.port].next = addF s.rx[f.port].next 1 := by
  obtain ⟨k, hexec⟩ := exec_portFrame_run hruns hside hst hmode hclk
  obtain ⟨u, hu⟩ : ∃ u, u = modSide f.port .rx (fun y => { y with period := f.period, fill := f.fill, offRate := k }) s := ⟨_, rfl⟩
  have hux : u.rx[f.port] = { s.rx[f.port] with period := f.period, fill := f.fill, offRate := k } := by
    rw [hu]
    exact sideAt_modSide_same f.port .rx (fun y => { y with period := f.period, fill := f.fill, offRate := k }) s
  have hframe : u.stove.frame = s.stove.frame := by rw [hu, modSide_stove]
  rw [← hu, deliverRx_run (by rw [hux]; exact hst) (by rw [hux]; exact hnum) (by rw [hux, hframe]; exact htime)
    (by rw [hux]; exact hcheck)] at hexec
  have hnext : u.rx[f.port].next = s.rx[f.port].next := (congrArg PortSide.next hux).trans rfl
  rw [hnext] at hexec
  refine ⟨_, hexec, rxEntry_rxWrite .., ?_⟩
  have hside' := congrArg PortSide.next (sideAt_rxWrite f.port s.rx[f.port].next
    (rxVals (clockWord f.port .rx s) s.rx[f.port].w4 (frameCodes (clockWord f.port .rx s) f.data)) (countSide f.port .rx u))
  have hcount := congrArg PortSide.next (countSide_same f.port .rx u)
  exact hside'.trans (hcount.trans (congrArg (addF · 1) hnext))

/-! ### Glitches -/

/-- What a side's counts and its glitch flag say. -/
def glitchPart (y : PortSide) : Nat × Bool := (y.glitchCnt, y.ev.getLsbD 6)

theorem exec_portFrame_glitch {f : PortFrame} {s : State} (hruns : portsRun s = true)
    (hst : (sideAt f.port f.side s).st ≠ .off) (hmode : (sideAt f.port f.side s).mode ≠ .master)
    (hopens : fsOpens (clockWord f.port f.side s) f.sync.1 f.sync.2 = false) :
    exec (.portFrameComplete f) s = exec (.frameSyncGlitch f.port f.side) s := by
  have hmode' : ((sideAt f.port f.side s).mode == PortMode.master) = false := beq_eq_false_iff_ne.mpr hmode
  have hst' : ((sideAt f.port f.side s).st == PortSt.off) = false := beq_eq_false_iff_ne.mpr hst
  change execPortFrameComplete f s = .next (syncGlitch f.port f.side s)
  unfold execPortFrameComplete
  dsimp only
  rw [hruns, hst', hmode', hopens]
  rfl

theorem getLsbD_otherFlag {b k : Nat} (h : b ≠ k) (v : BitVec 9) :
    (v ||| BitVec.ofNat 9 (2 ^ b)).getLsbD k = v.getLsbD k := by
  rw [BitVec.getLsbD_or, BitVec.getLsbD_ofNat, Nat.testBit_two_pow, decide_eq_false h, Bool.and_false, Bool.or_false]

theorem glitchPart_portFlag {b : Nat} (h : b ≠ 6) (p : Fin 8) (d : Side) (s : State) :
    glitchPart (sideAt p d (portFlag p d b s)) = glitchPart (sideAt p d s) := by
  rw [sideAt_portFlag]
  exact Prod.ext rfl (getLsbD_otherFlag h _)

theorem glitchPart_modSide {f : PortSide → PortSide} (hf : ∀ y, glitchPart (f y) = glitchPart y) (p : Fin 8) (d : Side)
    (s : State) : glitchPart (sideAt p d (modSide p d f s)) = glitchPart (sideAt p d s) := by
  rw [sideAt_modSide_same, hf]

theorem glitchPart_fadeStep (p : Fin 8) (d : Side) (s : State) :
    glitchPart (sideAt p d (fadeStep p d s).2) = glitchPart (sideAt p d s) := by
  unfold fadeStep
  dsimp only
  split
  · refine (glitchPart_modSide (fun _ => by rfl) ..).trans ?_
    split
    · exact (glitchPart_portFlag (by decide) ..).trans
        (glitchPart_modSide (f := fun y => { y with tailD := none, tailH := [] }) (fun _ => rfl) ..)
    · rfl
  · rfl

theorem glitchPart_portLate {b : Nat} (h : b ≠ 6) (p : Fin 8) (d : Side) (s : State) :
    glitchPart (sideAt p d (portLate p d b s)) = glitchPart (sideAt p d s) := by
  rw [sideAt_portLate]
  exact Prod.ext rfl (getLsbD_otherFlag h _)

/-- What a glitch does after it has counted (R297, R301). -/
def glitchTaken (p : Fin 8) (side : Side) (y : PortSide) (s : State) : State :=
  match y.st with
  | .wait | .tail => s
  | .measure | .incompat => modSide p side (fun y => { y with measured := 0 }) s
  | _ =>
    if side = .rx ∧ y.mode = .foreign then modSide p .rx (fun y => ercPush (y.erc.headD []) y) s
    else if side = .rx ∧ y.numbered = true then
      let (_, s) := fadeStep p .rx s
      let k := y.next
      let s := countSide p .rx s
      if k < s.stove.frame ∨ y.checked = some k then portLate p .rx 2 s else rxWrite p k y.lastVals s
    else s

theorem syncGlitch_eq {p : Fin 8} {d : Side} {s : State} (hruns : portsRun s = true) (hst : (sideAt p d s).st ≠ .off)
    (hmode : (sideAt p d s).mode ≠ .master) : syncGlitch p d s = glitchTaken p d (sideAt p d s)
      (portFlag p d 6 (modSide p d (fun y => { y with glitchCnt := stick 255 y.glitchCnt }) s)) := by
  have hmode' : ((sideAt p d s).mode == PortMode.master) = false := beq_eq_false_iff_ne.mpr hmode
  have hst' : ((sideAt p d s).st == PortSt.off) = false := beq_eq_false_iff_ne.mpr hst
  unfold syncGlitch
  dsimp only
  rw [hruns, hst', hmode']
  rfl

theorem glitchPart_glitchTaken (p : Fin 8) (d : Side) (y : PortSide) (s : State) :
    glitchPart (sideAt p d (glitchTaken p d y s)) = glitchPart (sideAt p d s) := by
  unfold glitchTaken
  split
  · rfl
  · rfl
  · exact glitchPart_modSide (fun _ => by rfl) ..
  · exact glitchPart_modSide (fun _ => by rfl) ..
  · split
    next h =>
      obtain ⟨rfl, -⟩ := h
      exact glitchPart_modSide (fun _ => by rfl) ..
    next =>
      split
      next h =>
        obtain ⟨rfl, -⟩ := h
        have hcount : glitchPart (sideAt p .rx (countSide p .rx (fadeStep p .rx s).2)) = glitchPart (sideAt p .rx s) :=
          (glitchPart_modSide (fun _ => by rfl) ..).trans (glitchPart_fadeStep ..)
        dsimp only
        split
        · exact (glitchPart_portLate (by decide) ..).trans hcount
        · exact (glitchPart_modSide (fun _ => by rfl) ..).trans hcount
      next => rfl

theorem frameSyncGlitch_counts {p : Fin 8} {d : Side} {s : State} (hruns : portsRun s = true)
    (hst : (sideAt p d s).st ≠ .off) (hmode : (sideAt p d s).mode ≠ .master) :
    ∃ t, exec (.frameSyncGlitch p d) s = .next t ∧
      ((sideAt p d s).st = .measure ∨ (sideAt p d s).st = .incompat → (sideAt p d t).measured = 0) ∧
      (sideAt p d t).glitchCnt = stick 255 (sideAt p d s).glitchCnt ∧ (sideAt p d t).ev.getLsbD 6 = true := by
  refine ⟨_, rfl, fun h => ?_, ?_⟩
  · rw [syncGlitch_eq hruns hst hmode]
    unfold glitchTaken
    rcases h with h | h <;> rw [h] <;> exact congrArg PortSide.measured (sideAt_modSide_same ..)
  · have hpart : glitchPart (sideAt p d (syncGlitch p d s)) = (stick 255 (sideAt p d s).glitchCnt, true) := by
      rw [syncGlitch_eq hruns hst hmode, glitchPart_glitchTaken, sideAt_portFlag, sideAt_modSide_same]
      exact Prod.ext rfl (portFlag_set (by decide) _)
    exact ⟨congrArg Prod.fst hpart, congrArg Prod.snd hpart⟩

/-! ### The hold stage -/

theorem exec_holdStage {p : Fin 8} {s : State} (hruns : portsRun s = true) (hst : s.rx[p].st = .fadeIn ∨ s.rx[p].st = .run)
    (hmode : s.rx[p].mode ≠ .foreign) (e : Bool) : exec (.holdStageCheck p e) s =
      if s.rx[p].numbered = false ∨ s.stove.frame < s.rx[p].first ∨ entryReady s.rx[p].buf s.stove.frame = true then
        .next (modSide p .rx (fun y => { y with checked := some s.stove.frame }) s)
      else if e then .next (portLate p .rx 1 (rxWrite p s.stove.frame []
        (modSide p .rx (fun y => { y with checked := some s.stove.frame }) s)))
      else .next (rxWrite p s.stove.frame (rxEntry p (prevF s.stove.frame)
        (modSide p .rx (fun y => { y with checked := some s.stove.frame }) s))
          (modSide p .rx (fun y => { y with checked := some s.stove.frame }) s)) := by
  have hon : (s.rx[p].st == .fadeIn || s.rx[p].st == .run) = true := by
    rcases hst with h | h <;> rw [h] <;> rfl
  change execHoldStageCheck p e s = _
  unfold execHoldStageCheck
  dsimp only
  rw [hruns, hon, if_neg hmode]
  rfl

theorem rxEntry_congr {p : Fin 8} {s t : State} (h : t.rx[p].buf = s.rx[p].buf) (n : Nat) : rxEntry p n t = rxEntry p n s := by
  unfold rxEntry
  rw [h]

theorem portLate_rx (p : Fin 8) (n : Nat) (s : State) : vgetD (portLate p .rx 1 s).rx[p].buf n none = vgetD s.rx[p].buf n none ∧
    (portLate p .rx 1 s).rx[p].lateCnt = stick 255 s.rx[p].lateCnt := by
  have h := sideAt_portLate p .rx 1 s
  have hbuf := congrArg (fun y : PortSide => vgetD y.buf n none) h
  have hcnt := congrArg PortSide.lateCnt h
  exact ⟨hbuf, hcnt⟩

theorem holdStage_repeats {p : Fin 8} {s : State} (hruns : portsRun s = true) (hst : s.rx[p].st = .run)
    (hmode : s.rx[p].mode ≠ .foreign) (hnum : s.rx[p].numbered = true) (hfirst : s.rx[p].first ≤ s.stove.frame)
    (hmiss : entryReady s.rx[p].buf s.stove.frame = false) :
    (∃ t, exec (.holdStageCheck p false) s = .next t ∧ rxEntry p s.stove.frame t = rxEntry p (prevF s.stove.frame) s) ∧
      ∃ t, exec (.holdStageCheck p true) s = .next t ∧ rxEntry p s.stove.frame t = [] ∧
        t.rx[p].lateCnt = stick 255 s.rx[p].lateCnt := by
  have hnot : ¬ (s.rx[p].numbered = false ∨ s.stove.frame < s.rx[p].first ∨
      entryReady s.rx[p].buf s.stove.frame = true) := by
    rintro (h | h | h)
    · exact absurd (hnum.symm.trans h) (by decide)
    · exact absurd h (Nat.not_lt.mpr hfirst)
    · exact absurd (hmiss.symm.trans h) (by decide)
  have hexec (e : Bool) := (exec_holdStage hruns (.inr hst) hmode e).trans (if_neg hnot)
  obtain ⟨u, hu⟩ : ∃ u, u = modSide p .rx (fun y => { y with checked := some s.stove.frame }) s := ⟨_, rfl⟩
  have hux : u.rx[p] = { s.rx[p] with checked := some s.stove.frame } := by
    rw [hu]
    exact sideAt_modSide_same p .rx (fun y => { y with checked := some s.stove.frame }) s
  rw [← hu] at hexec
  have hlate := portLate_rx p (s.stove.frame % 4) (rxWrite p s.stove.frame [] u)
  clear hu hnot
  refine ⟨⟨_, (hexec false).trans (if_neg Bool.false_ne_true), ?_⟩, _, (hexec true).trans (if_pos rfl), ?_, ?_⟩
  · rw [rxEntry_rxWrite]
    exact rxEntry_congr ((congrArg PortSide.buf hux).trans rfl) _
  · exact rxEntry_of_buf (hlate.1.trans (rxWrite_buf ..))
  · refine hlate.2.trans (congrArg (stick 255) ?_)
    have hwrite := congrArg PortSide.lateCnt (sideAt_rxWrite p s.stove.frame [] u)
    have hcheck := congrArg PortSide.lateCnt hux
    exact hwrite.trans hcheck

/-! ### Pin frames -/

/-- What a transmit side's pin frame and counts say. -/
def pinPart (y : PortSide) : List (Option Word) × Nat × Nat := (y.pin, y.next, y.lateCnt)

theorem sendPin_eq {p : Fin 8} {vs : List F32} {s : State} (h : s.tx[p].tailD = none ∨ vs = []) : sendPin p vs s =
    if pinClips s.tx[p].w3 s.tx[p].w4 vs then
      portFlag p .tx 0 (modSide p .tx (fun y => { y with clipCnt := stick 255 y.clipCnt })
        (modSide p .tx (fun y => { y with pin := pinCodes y.w3 y.w4 vs }) s))
    else modSide p .tx (fun y => { y with pin := pinCodes y.w3 y.w4 vs }) s := by
  unfold sendPin
  dsimp only
  cases htail : s.tx[p].tailD with
  | none => rfl
  | some d =>
    obtain rfl : vs = [] := h.resolve_left (by rw [htail]; exact Option.some_ne_none d)
    simp only [List.map_nil, ite_self]

theorem sendPin_part {p : Fin 8} {vs : List F32} {s : State} (h : s.tx[p].tailD = none ∨ vs = []) :
    pinPart (sideAt p .tx (sendPin p vs s)) =
      (pinCodes s.tx[p].w3 s.tx[p].w4 vs, s.tx[p].next, s.tx[p].lateCnt) := by
  have hpin : pinPart (sideAt p .tx (modSide p .tx (fun y => { y with pin := pinCodes y.w3 y.w4 vs }) s)) =
      (pinCodes s.tx[p].w3 s.tx[p].w4 vs, s.tx[p].next, s.tx[p].lateCnt) :=
    (congrArg pinPart (sideAt_modSide_same ..)).trans rfl
  rw [sendPin_eq h]
  split
  · rw [sideAt_portFlag]
    exact (congrArg pinPart (sideAt_modSide_same p .tx (fun y => { y with clipCnt := stick 255 y.clipCnt }) _)).trans hpin
  · exact hpin

theorem pinFrame_idle {p : Fin 8} {s : State} (hruns : portsRun s = true) (hst : s.tx[p].st = .wait)
    (hnum : s.tx[p].numbered = false) (hmode : s.tx[p].mode ≠ .master) :
    ∃ t, exec (.transmitPinFrameOpen p) s = .next t ∧
      t.tx[p].pin = pinCodes s.tx[p].w3 s.tx[p].w4 [] ∧ t.tx[p].next = s.tx[p].next := by
  have hexec : exec (.transmitPinFrameOpen p) s = .next (sendPin p [] s) := by
    change execTransmitPinFrameOpen p s = _
    unfold execTransmitPinFrameOpen
    dsimp only
    rw [hruns, hst, hnum, beq_eq_false_iff_ne.mpr hmode]
    rfl
  have hpart := sendPin_part (p := p) (vs := []) (s := s) (.inr rfl)
  exact ⟨_, hexec, congrArg Prod.fst hpart, congrArg (fun x => x.2.1) hpart⟩

theorem pinFrame_sends {p : Fin 8} {e : Entry} {s : State} (hruns : portsRun s = true) (hst : s.tx[p].st = .run)
    (hnum : s.tx[p].numbered = true) (hmode : s.tx[p].mode = .locked) (htail : s.tx[p].tailD = none)
    (hentry : vgetD s.tx[p].buf (prevF s.tx[p].next % 4) none = some e)
    (hready : entryReady s.tx[p].buf (prevF s.tx[p].next) = true) :
    ∃ t, exec (.transmitPinFrameOpen p) s = .next t ∧
      t.tx[p].pin = pinCodes s.tx[p].w3 s.tx[p].w4 e.vals ∧ t.tx[p].next = addF s.tx[p].next 1 ∧
      t.tx[p].lateCnt = s.tx[p].lateCnt := by
  obtain ⟨u, hu⟩ : ∃ u, u = countSide p .tx s := ⟨_, rfl⟩
  have hux : u.tx[p] = { s.tx[p] with next := addF s.tx[p].next 1 } := by
    rw [hu]
    exact countSide_same p .tx s
  have hvals : pinVals s.tx[p].next u.tx[p] = some e.vals := by
    rw [hux]
    simp only [pinVals, txErc, htail, hmode, hready, hentry, Option.isSome_none, Bool.false_eq_true, if_false, reduceCtorEq,
      if_true, Option.map_some]
  have hexec : exec (.transmitPinFrameOpen p) s = .next (sendPin p e.vals u) := by
    have hnumber : numberSide p .tx s.stove.frame s = s := numberSide_numbered (d := .tx) hnum _
    have hfade : fadeStep p .tx s = (0x3F800000, s) := fadeStep_run (by change s.tx[p].st ≠ _; rw [hst]; decide)
    change execTransmitPinFrameOpen p s = _
    unfold execTransmitPinFrameOpen
    dsimp only
    rw [hnumber, hfade, hruns, hst, hmode, hnum]
    dsimp only
    rw [← hu, pinBody, hvals]
    dsimp only
    rw [scaleVals_one]
    rfl
  have hpart := sendPin_part (p := p) (vs := e.vals) (s := u) (.inl ((congrArg PortSide.tailD hux).trans htail))
  rw [hux] at hpart
  exact ⟨_, hexec, congrArg Prod.fst hpart, congrArg (fun x => x.2.1) hpart, congrArg (fun x => x.2.2) hpart⟩

/-! ### A clock lost -/

/-- A side that counts `n` losses of its clock, shows the last, and does not run. -/
def ClockLost (n : Nat) (y : PortSide) : Prop := y.lossCnt = n ∧ y.ev.getLsbD 7 = true ∧ y.st ≠ .run

/-- A change of a side that keeps its losses and the flag, and starts nothing. -/
def Restarts (f : PortSide → PortSide) : Prop := ∀ n y, ClockLost n y → ClockLost n (f y)

theorem Restarts.modSide {f : PortSide → PortSide} (hf : Restarts f) {p : Fin 8} {d : Side} {n : Nat} {s : State}
    (h : ClockLost n (sideAt p d s)) : ClockLost n (sideAt p d (modSide p d f s)) := by
  rw [sideAt_modSide_same]
  exact hf n _ h

theorem clockLost_portFlag {p : Fin 8} {d : Side} {n : Nat} {s : State} (b : Nat) (h : ClockLost n (sideAt p d s)) :
    ClockLost n (sideAt p d (portFlag p d b s)) := by
  obtain ⟨hcnt, hev, hst⟩ := h
  rw [sideAt_portFlag]
  exact ⟨hcnt, portFlag_kept hev _, hst⟩

theorem clockLost_alignSide {p : Fin 8} {d : Side} {n : Nat} {s : State} (g : Bool) (h : ClockLost n (sideAt p d s)) :
    ClockLost n (sideAt p d (alignSide p d g s)) := by
  refine Restarts.modSide ?_ h
  rintro n y ⟨hcnt, hev, -⟩
  exact ⟨hcnt, hev, PortSt.noConfusion⟩

theorem clockLost_alignAlone {p : Fin 8} {d : Side} {n : Nat} {s : State} (h : ClockLost n (sideAt p d s)) :
    ClockLost n (sideAt p d (alignAlone p d s)) := by
  unfold alignAlone
  dsimp only
  split
  · exact clockLost_alignSide _ (by cases d <;> exact h)
  · exact clockLost_alignSide _ h

theorem clockLost_rejoin {p : Fin 8} {d : Side} {n : Nat} {s : State} (h : ClockLost n (sideAt p d s)) :
    ClockLost n (sideAt p d (rejoin p d s)) := by
  unfold rejoin
  dsimp only
  split
  · split
    · split
      · exact h
      · refine Restarts.modSide ?_ (clockLost_portFlag 3 h)
        exact fun _ _ ⟨hcnt, hev, hst⟩ => ⟨hcnt, hev, hst⟩
    · exact clockLost_alignAlone h
  · exact clockLost_alignAlone h

/-- What a side's count of losses and their flag say. -/
def lossesPart (y : PortSide) : Nat × Bool := (y.lossCnt, y.ev.getLsbD 7)

theorem lossesPart_modSide {f : PortSide → PortSide} (hf : ∀ y, lossesPart (f y) = lossesPart y) (p : Fin 8) (d : Side)
    (s : State) : lossesPart (sideAt p d (modSide p d f s)) = lossesPart (sideAt p d s) := by
  rw [sideAt_modSide_same, hf]

theorem lossesPart_startTail (p : Fin 8) (d : Side) (n : Nat) (s : State) :
    lossesPart (sideAt p d (startTail p d n s)) = lossesPart (sideAt p d s) := by
  unfold startTail
  dsimp only
  split
  · rfl
  · cases d with
    | tx => exact lossesPart_modSide (fun _ => by rfl) ..
    | rx =>
      dsimp only [writeTail]
      split
      · split
        · exact (lossesPart_modSide (fun _ => by rfl) ..).trans (lossesPart_modSide (fun _ => by rfl) ..)
        · exact lossesPart_modSide (fun _ => by rfl) ..
      · exact lossesPart_modSide (fun _ => by rfl) ..

theorem clockLost_restartSide {p : Fin 8} {d : Side} {tail : Bool} {n k : Nat} {s : State}
    (hcnt : (sideAt p d s).lossCnt = k) (hev : (sideAt p d s).ev.getLsbD 7 = true) :
    ClockLost k (sideAt p d (restartSide p d tail n s)) := by
  unfold restartSide
  dsimp only
  obtain ⟨u, hu⟩ : ∃ u, u = if tail = true then startTail p d n s else s := ⟨_, rfl⟩
  have hpart : lossesPart (sideAt p d u) = (k, true) := by
    rw [hu]
    split
    · exact (lossesPart_startTail ..).trans (Prod.ext hcnt hev)
    · exact Prod.ext hcnt hev
  obtain ⟨hlosses, hflag⟩ := Prod.mk.inj hpart
  have hwait (m : PortMode) : ClockLost k (sideAt p d (modSide p d (fun y => { y with
      mode := m, st := .wait, ercLock := false, measured := 0, offRate := 0, fadeK := 0, offAfter := false
      ready := false, refused := false
      numbered := y.numbered && d == .tx && y.tailD.isSome }) u)) := by
    rw [sideAt_modSide_same]
    exact ⟨hlosses, hflag, PortSt.noConfusion⟩
  rw [← hu]
  split
  · refine iteInduction (motive := fun t => ClockLost k (sideAt p d t)) (fun _ => ?_) (fun _ => clockLost_rejoin ?_) <;>
    · refine Restarts.modSide ?_ (hwait _)
      exact fun _ _ ⟨hn, hf, _⟩ => ⟨hn, hf, PortSt.noConfusion⟩
  · exact hwait _

theorem lossOfClock_restarts {p : Fin 8} {d : Side} {s : State} (hruns : portsRun s = true) (hst : (sideAt p d s).st = .run)
    (hclk : (sideAt p d s).mode ≠ .master ∨ s.stove.clocksHeld = true) :
    ∃ t, exec (.lossOfClock p d) s = .next t ∧ ClockLost (stick 255 (sideAt p d s).lossCnt) (sideAt p d t) := by
  have hidle : ((sideAt p d s).mode == PortMode.master && !s.stove.clocksHeld) = false := by
    rcases hclk with h | h
    · rw [beq_eq_false_iff_ne.mpr h, Bool.false_and]
    · rw [h, Bool.not_true, Bool.and_false]
  obtain ⟨u, hu⟩ : ∃ u, u = portFlag p d 7 (modSide p d (fun y => { y with lossCnt := stick 255 y.lossCnt }) s) := ⟨_, rfl⟩
  have hexec : exec (.lossOfClock p d) s = .next (restartSide p d (d == .rx) s.stove.frame u) := by
    change execLossOfClock p d s = _
    unfold execLossOfClock
    dsimp only
    rw [hruns, hst, hidle, ← hu]
    have hframe : u.stove.frame = s.stove.frame := by rw [hu, portFlag_stove, modSide_stove]
    rw [hframe]
    rfl
  have hside : lossesPart (sideAt p d u) = (stick 255 (sideAt p d s).lossCnt, true) := by
    rw [hu, sideAt_portFlag, sideAt_modSide_same]
    exact Prod.ext rfl (portFlag_set (by decide) _)
  obtain ⟨hcnt, hev⟩ := Prod.mk.inj hside
  exact ⟨_, hexec, clockLost_restartSide hcnt hev⟩

/-! ### Measurements -/

theorem measureDone_incompat {p : Fin 8} {d : Side} {period : Nat} {s : State} (pos : Nat) (hruns : portsRun s = true)
    (hst : (sideAt p d s).st = .measure) (hmode : (sideAt p d s).mode ≠ .master) (hcnt : 64 ≤ (sideAt p d s).measured)
    (hfits : rateFits ((sideAt p d s).mode == .foreign) (cfgBits (clockWord p d s)) period s.hive.dom.fm = false) :
    ∃ t, exec (.portMeasureDone p d period pos) s = .next t ∧ (sideAt p d t).st = .incompat ∧
      (sideAt p d t).measured = 0 ∧ (sideAt p d t).ev.getLsbD 4 = true := by
  have hexec : exec (.portMeasureDone p d period pos) s = .next (portFlag p d 4 (modSide p d (fun y => { y with
      st := .incompat, measured := 0, ready := false }) s)) := by
    change execPortMeasureDone p d period pos s = _
    unfold execPortMeasureDone
    dsimp only
    rw [hruns, hst, beq_eq_false_iff_ne.mpr hmode, decide_eq_false (Nat.not_lt.mpr hcnt), hfits]
    rfl
  refine ⟨_, hexec, ?_⟩
  rw [sideAt_portFlag, sideAt_modSide_same]
  exact ⟨rfl, rfl, portFlag_set (by decide) _⟩

theorem clockWord_modSide {f : PortSide → PortSide} (hf : ∀ y, (f y).w3 = y.w3) (p : Fin 8) (d : Side) (s : State) :
    clockWord p d (modSide p d f s) = clockWord p d s := by
  cases d <;> simp [clockWord, modSide, vmod, hf]

theorem measureDone_aligns {p : Fin 8} {d : Side} {period : Nat} {s : State} (pos : Nat) (hruns : portsRun s = true)
    (hst : (sideAt p d s).st = .measure) (hmode : (sideAt p d s).mode = .locked) (hgrp : (sideAt p d s).grp = none)
    (hcnt : 64 ≤ (sideAt p d s).measured)
    (hfits : rateFits false (cfgBits (clockWord p d s)) period s.hive.dom.fm = true) :
    ∃ t, exec (.portMeasureDone p d period pos) s = .next t ∧ (sideAt p d t).st = .fadeIn ∧
      (sideAt p d t).pos = pos ∧ (sideAt p d t).g = inBand d (cfgBits (clockWord p d s)) pos := by
  have hfits' : rateFits ((sideAt p d s).mode == .foreign) (cfgBits (clockWord p d s)) period s.hive.dom.fm = true := by
    rw [hmode]
    exact hfits
  obtain ⟨u, hu⟩ : ∃ u, u = modSide p d (fun y => { y with
    st := .measure, measured := 0, pos := pos, ercLock := y.mode == .foreign
    fill := if y.mode = .foreign then 0 else y.fill
    refPeriod := if y.mode = .foreign then period / 64 else 32000 }) s := ⟨_, rfl⟩
  have hside := sideAt_modSide_same p d (fun y => { y with
    st := .measure, measured := 0, pos := pos, ercLock := y.mode == .foreign
    fill := if y.mode = .foreign then 0 else y.fill
    refPeriod := if y.mode = .foreign then period / 64 else 32000 }) s
  rw [← hu] at hside
  have hpos : (sideAt p d u).pos = pos := (congrArg PortSide.pos hside).trans rfl
  have hgrp' : (sideAt p d u).grp = none := (congrArg PortSide.grp hside).trans hgrp
  have hmode' : (sideAt p d u).mode = .locked := (congrArg PortSide.mode hside).trans hmode
  have hword : clockWord p d u = clockWord p d s := by
    rw [hu]
    exact clockWord_modSide (fun _ => by rfl) ..
  have halone : alignAlone p d u = alignSide p d (inBand d (cfgBits (clockWord p d s)) pos) u := by
    unfold alignAlone
    dsimp only
    rw [hgrp', hmode', hword, hpos]
    rfl
  have hexec : exec (.portMeasureDone p d period pos) s = .next (alignAlone p d u) := by
    have hwaits (t : State) : groupWaits (sideAt p d s) t = false := by
      unfold groupWaits
      rw [hgrp]
    have hjoin : rejoin p d u = alignAlone p d u := by
      unfold rejoin
      dsimp only
      rw [hgrp']
    change execPortMeasureDone p d period pos s = _
    unfold execPortMeasureDone
    dsimp only
    rw [hfits', hwaits, ← hu, hjoin, hruns, hst, hmode, decide_eq_false (Nat.not_lt.mpr hcnt)]
    rfl
  refine ⟨_, hexec, ?_⟩
  rw [halone, alignSide, sideAt_modSide_same]
  exact ⟨rfl, hpos, rfl⟩

/-! ### A group -/

theorem allSides_nodup : allSides.Nodup := by decide

theorem mem_allSides (p : Fin 8) (d : Side) : (p, d) ∈ allSides := by
  cases d
  · exact List.mem_append_left _ (List.mem_map_of_mem (List.mem_finRange p))
  · exact List.mem_append_right _ (List.mem_map_of_mem (List.mem_finRange p))

theorem foldl_alignSide_grps (o : Bool) (l : List (Fin 8 × Side)) (s : State) :
    (l.foldl (fun s x => alignSide x.1 x.2 o s) s).grps = s.grps :=
  foldl_keeps_of_mem State.grps (fun _ _ _ => modSide_grps ..) s

theorem sideAt_foldl_alignSide {o : Bool} {p : Fin 8} {d : Side} {l : List (Fin 8 × Side)} (hl : l.Nodup) (s : State) :
    sideAt p d (l.foldl (fun s x => alignSide x.1 x.2 o s) s) = if (p, d) ∈ l then { sideAt p d s with
      st := .fadeIn, g := o, fadeK := 0, numbered := false, offRate := 0, ready := false, refused := false }
      else sideAt p d s := by
  have hother (t : State) (x : Fin 8 × Side) (hx : x ≠ (p, d)) : sideAt p d (alignSide x.1 x.2 o t) = sideAt p d t :=
    sideAt_modSide_of_ne hx _ t
  split
  · next hmem =>
    refine foldl_at (m := (p, d)) (f := sideAt p d) (h := sideAt p d) (b := sideAt p d s) hother hother ?_ hl hmem rfl
    intro t ht
    rw [← ht]
    exact sideAt_modSide_same ..
  · next hmem =>
    exact foldl_keeps_of_mem (sideAt p d) (fun t x hx => hother t x (fun e => hmem (e ▸ hx))) s

theorem alignGroup_aligns (g : Fin 4) (s : State) : (alignGroup g s).grps[g].enabledAt = none ∧
    ∀ (p : Fin 8) (d : Side), (sideAt p d s).grp = some g → sideAt p d (alignGroup g s) =
      (if (sideAt p d s).ready then { sideAt p d s with
        st := .fadeIn, g := ((alignGroup g s).grps[g].g).getD false, fadeK := 0, numbered := false, offRate := 0
        ready := false, refused := false } else sideAt p d s) := by
  obtain ⟨ms, hms⟩ : ∃ ms, ms = (membersOf g s).filter (fun x => (sideAt x.1 x.2 s).ready) := ⟨_, rfl⟩
  obtain ⟨o, ho⟩ : ∃ o, o = (groupG g s).getD
    (ms.any (fun x => inBand x.2 (cfgBits (clockWord x.1 x.2 s)) (sideAt x.1 x.2 s).pos)) := ⟨_, rfl⟩
  have hnodup : ms.Nodup := by
    rw [hms]
    exact (allSides_nodup.filter _).filter _
  have hgroup : (alignGroup g s).grps[g] = { s.grps[g] with g := some o, enabledAt := none } := by
    unfold alignGroup
    dsimp only
    rw [← hms, ← ho, foldl_alignSide_grps]
    exact Vector.getElem_set_self _
  refine ⟨(congrArg _ hgroup).trans rfl, fun p d hgrp => ?_⟩
  have hmem : (p, d) ∈ ms ↔ (sideAt p d s).ready = true := by
    rw [hms, membersOf, List.mem_filter, List.mem_filter]
    exact ⟨fun h => h.2, fun h => ⟨⟨mem_allSides p d, by rw [hgrp]; exact beq_self_eq_true _⟩, h⟩⟩
  rw [hgroup]
  unfold alignGroup
  dsimp only
  rw [← hms, ← ho, sideAt_foldl_alignSide hnodup]
  by_cases hready : (sideAt p d s).ready = true
  · rw [if_pos (hmem.mpr hready), if_pos hready]
    cases d <;> rfl
  · rw [if_neg (mt hmem.mp hready), if_neg hready]
    cases d <;> rfl

theorem exec_groupAlignTimeout {g : Fin 4} {e : Nat} {s : State} (hen : s.grps[g].enabledAt = some e)
    (hlate : e + 256 ≤ s.stove.frame) (hready : (membersOf g s).any (fun x => (sideAt x.1 x.2 s).ready) = true) :
    exec (.groupAlignTimeout g) s = .next (alignGroup g s) := by
  change execGroupAlignTimeout g s = _
  unfold execGroupAlignTimeout
  rw [hen]
  exact (if_pos hlate).trans (if_pos hready)

/-- Settles O47: each event of a port side, from what it makes of the side and, where the counts of several steps add up, from
what every step of it keeps of the side. -/
theorem portEventsComplete : Obligations.PortEventsComplete := by
  unfold Obligations.PortEventsComplete
  refine ⟨?wait, ?delivers, ?opensNot, ?glitch, ?checked, ?hold, ?idle, ?sends, ?loss, ?incompat, ?aligns, ?group⟩
  case wait => exact fun f s hruns _ hmode hst hopens => exec_portFrame_wait hruns hmode hst hopens
  case delivers => exact fun f s hruns hside hst hmode hclk hnum => portFrame_delivers hruns hside hst hmode hclk hnum
  case opensNot => exact fun f s => exec_portFrame_glitch
  case glitch => exact fun p d s => frameSyncGlitch_counts
  case checked => exact fun p s hruns hst hmode h e => (exec_holdStage hruns hst hmode e).trans (if_pos h)
  case hold => exact fun p s => holdStage_repeats
  case idle => exact fun p s => pinFrame_idle
  case sends => exact fun p e s => pinFrame_sends
  case loss => exact fun p d s => lossOfClock_restarts
  case incompat => exact fun p d period pos s => measureDone_incompat pos
  case aligns => exact fun p d period pos s => measureDone_aligns pos
  case group =>
    intro g e s hen hlate hready
    exact ⟨_, exec_groupAlignTimeout hen hlate hready, alignGroup_aligns g s⟩

end Sys2Proof.Machine
end

section
/-! ## The power-up sequence, the boot sources and the boot chain -/

namespace Sys2Proof.Machine

/-! ### What the loads and the ports leave -/

/-- The power state, and the power-up step under way with what has passed. -/
def stepPart (s : State) : PowerSt × Nat × BitVec 9 × Bool := (s.pow, s.boot.step, s.boot.pass, s.boot.done)

theorem stepPart_of_loadRest {m : Fin 4} {s t : State} (h : loadRest m t = loadRest m s) : stepPart t = stepPart s :=
  congrArg (fun x : State × Mem => stepPart x.1) h

theorem loadRest_tuneBanks (m : Fin 4) (c4 c5 : Component) (d4 d5 : BitVec 256) (s : State) :
    loadRest m (tuneBanks c4 c5 d4 d5 s) = loadRest m s := by
  refine foldl_keeps_eq (loadRest m) (fun t c => ?_) _ s
  unfold tuneBank
  dsimp only
  refine (loadRest_loadCoef ..).trans ?_
  split
  · rfl
  · exact loadRest_loadProg ..

theorem stepPart_applyBanks (x : Manifest) (k : Nat) (s : State) : stepPart (applyBanks x k s) = stepPart s := by
  unfold applyBanks
  split
  · exact stepPart_of_loadRest (loadRest_tuneBanks 0 ..)
  · rfl

theorem stepPart_banksPass (s : State) : stepPart (banksPass s) = stepPart s := by
  unfold banksPass
  dsimp only
  split
  · exact (foldl_keeps_eq stepPart (fun _ _ => stepPart_applyBanks ..) _ _).trans rfl
  · rfl

theorem powBoot_of_selRest {m : Fin 4} {s t : State} (h : selRest m t = selRest m s) : powBoot t = powBoot s :=
  congrArg (fun x : State × Mem => powBoot x.1) h

theorem boot_of_powBoot {s t : State} (h : powBoot t = powBoot s) : t.boot = s.boot := congrArg Prod.snd h

theorem powBoot_restartSide (p : Fin 8) (d : Side) (tail : Bool) (n : Nat) (s : State) :
    powBoot (restartSide p d tail n s) = powBoot s :=
  powBoot_of_selRest (selRest_restartSide (m := 0) ..)

theorem powBoot_portsNotify (s : State) : powBoot (portsNotify s) = powBoot s :=
  powBoot_of_selRest (selRest_portsNotify (m := 0) ..)

theorem powBoot_modSide (p : Fin 8) (d : Side) (f : PortSide → PortSide) (s : State) :
    powBoot (modSide p d f s) = powBoot s := by
  cases d <;> rfl

theorem powBoot_dropEvts (src : Nat) (own : List Nat) (s : State) : powBoot (dropEvts src own s) = powBoot s := by
  unfold powBoot
  rw [dropEvts_pow, dropEvts_boot]

theorem powBoot_sideCut (p : Fin 8) (d : Side) (s : State) : powBoot (sideCut p d s) = powBoot s :=
  (powBoot_dropEvts ..).trans rfl

theorem powBoot_emptyGroups (s : State) : powBoot (emptyGroups s) = powBoot s := rfl

theorem powBoot_portsReset (n : Nat) (s : State) : powBoot (portsReset n s) = powBoot s := by
  unfold portsReset
  rw [powBoot_emptyGroups]
  refine foldl_keeps_eq powBoot (fun t x => ?_) _ s
  dsimp only
  have hside := (powBoot_modSide x.1 x.2 (fun y => { w3 := y.w3, w4 := y.w4, enabled := y.enabled }) _).trans
    (powBoot_sideCut x.1 x.2 t)
  split
  · exact (powBoot_restartSide ..).trans hside
  · exact hside

theorem powBoot_rateLock (n : Nat) (s : State) : powBoot (rateLock n s) = powBoot s := by
  unfold rateLock
  split
  next x hx =>
    split
    · dsimp only
      generalize (if hiveHeld s = true then 0 else upTo _ _) = r
      have hdone := powBoot_complete 0x0301 x.mbx x.tag (BitVec.ofNat 8 stOk) (pair64 r) s
      split
      · exact Eq.trans rfl hdone
      · exact Eq.trans rfl hdone
    · rfl
  next => rfl

theorem powBoot_lockReport (s : State) : powBoot (lockReport s) = powBoot s := by
  unfold lockReport
  dsimp only
  refine (powBoot_rateLock ..).trans ?_
  split
  · exact (powBoot_portsReset ..).trans rfl
  · exact (powBoot_portsNotify _).trans rfl

/-! ### The steps -/

theorem stepPart_of_powBoot {s t : State} (h : powBoot t = powBoot s) : stepPart t = stepPart s :=
  congrArg (fun x : PowerSt × Boot => (x.1, x.2.step, x.2.pass, x.2.done)) h

/-- A step that passes is noted; the last one ends power-up's checks (R505). -/
theorem stepPart_stepDone (k : Nat) (x : StepResult) (s : State) : stepPart (stepDone k x s) =
    (s.pow, k + 1, s.boot.pass ||| BitVec.ofNat 9 (2 ^ (k - 1)), if k = 9 then true else s.boot.done) := by
  unfold stepDone
  dsimp only
  split
  · exact (stepPart_banksPass _).trans rfl
  · rfl
  · exact (stepPart_of_powBoot (powBoot_lockReport _)).trans rfl
  · rfl
  · next h5 h2 h6 h9 => rw [if_neg h9]; rfl

theorem powerUpStep_passes {res : StepResult} {s : State} (hst : s.pow.st = .powerUp) (hdone : s.boot.done = false)
    (hstep : s.boot.step ≠ 0) (hpass : stepPasses s.boot.step res = true) : ∃ t, exec (.powerUpStep res) s = .next t ∧
      t.boot.step = s.boot.step + 1 ∧ t.boot.pass = s.boot.pass ||| BitVec.ofNat 9 (2 ^ (s.boot.step - 1)) ∧
      t.boot.done = decide (s.boot.step = 9) ∧ t.pow = s.pow := by
  have hrun : ¬ (s.pow.st ≠ .powerUp ∨ s.boot.done = true ∨ s.boot.step = 0) := by
    rintro (h | h | h)
    · exact h hst
    · exact absurd (hdone.symm.trans h) (by decide)
    · exact hstep h
  have hpart := stepPart_stepDone s.boot.step res s
  simp only [stepPart, Prod.mk.injEq] at hpart
  obtain ⟨hpow, hnext, hpassed, hend⟩ := hpart
  refine ⟨_, (if_neg hrun).trans (if_pos hpass), hnext, hpassed, hend.trans ?_, hpow⟩
  rw [hdone]
  by_cases h9 : s.boot.step = 9 <;> simp [h9]

/-! ### Failures -/

theorem hearthSafe_kept {s : State} (cause : Nat) (h : PartsOk s.evt) :
    HearthKept (raise 62 (n2w cause 0) (safeRegs s)) (enterSafe cause s) := by
  cases hr : s.pow.ianikRst with
  | false => exact enterSafe_hearthKept cause h hr
  | true =>
    have hreset : ianikReset s.pow.rstLast s = s := if_pos hr
    have hheld := chainHold_hearthKept 1 (chainHold_hearthKept 0 (bellowsHold_hearthKept (hiveHold_hearthKept (.refl h))))
    unfold enterSafe
    rw [hreset]
    refine .foldl (fun _ m h => safeAnswer_hearthKept m h) _ ?_
    exact (portsReset_hearthKept _ hheld.safeRegs_both).raise_both 62 _

theorem complete_boot (op k : Nat) (tag : BitVec 16) (st : Byte) (ws : List Word) (s : State) :
    (complete op k tag st ws s).boot = s.boot :=
  boot_of_powBoot (powBoot_complete ..)

theorem entryLost_boot (q : QEntry) (s : State) : (entryLost q s).boot = s.boot := by
  unfold entryLost memReadEnds
  split
  · rfl
  · split
    · exact complete_boot ..
    · rfl

theorem writeCut_boot (s : State) : (writeCut s).boot = s.boot := by
  unfold writeCut
  split
  · dsimp only
    split
    · exact flashPut_boot ..
    · rfl
  · rfl

theorem psp0Reset_boot (s : State) : (psp0Reset s).boot = s.boot := by
  unfold psp0Reset
  rw [modP0_boot, writeCut_boot]

theorem chainCut_boot (x : Fin 2) (s : State) : (chainCut x s).boot = s.boot := rfl

theorem shakesIdle_boot (s : State) : (shakesIdle s).boot = s.boot := rfl

theorem ianikCuts_boot (s : State) : (ianikCuts s).boot = s.boot := by
  have hlost (l : List QEntry) (t : State) : (l.foldl (fun s q => entryLost q s) t).boot = t.boot :=
    foldl_keeps_eq State.boot (fun _ _ => entryLost_boot ..) l t
  unfold ianikCuts
  dsimp only
  rw [chainCut_boot, chainCut_boot, psp0Reset_boot, dropEvts_boot, dropEvts_boot, hlost, shakesIdle_boot]

theorem fail_ianikClear (s : State) : (ianikClear s).boot.fail = s.boot.fail := rfl

theorem fail_ianikReset (cause : BitVec 4) (s : State) : (ianikReset cause s).boot.fail = s.boot.fail := by
  unfold ianikReset
  split
  · rfl
  · rw [fail_ianikClear, ianikCuts_boot]

theorem holdMbx_boot (m : Fin 4) (s : State) : (holdMbx m s).boot = s.boot := by
  unfold holdMbx
  split
  · split
    · dsimp only
      split <;> rfl
    · rfl
  · rfl

theorem fail_jobEnds (st : Nat) (s : State) : (jobEnds st s).boot.fail = s.boot.fail := by
  unfold jobEnds
  split
  · unfold jobFails
    exact (congrArg Boot.fail (complete_boot ..)).trans rfl
  · rfl

theorem regionHold_boot (s : State) : (regionHold s).boot = s.boot := by
  unfold regionHold
  split <;> rfl

theorem rateHeld_boot (s : State) : (rateHeld s).boot = s.boot := by
  unfold rateHeld
  dsimp only
  split
  · exact complete_boot ..
  · rfl

theorem hiveClear_boot (s : State) : (hiveClear s).boot = s.boot := rfl

theorem slotsReset_boot (s : State) : (slotsReset s).boot = s.boot := rfl

theorem fail_hiveHold (s : State) : (hiveHold s).boot.fail = s.boot.fail := by
  unfold hiveHold hiveEnds
  dsimp only
  rw [hiveClear_boot, modCare_boot, modP0_boot, dropEvts_boot, slotsReset_boot, unstage_boot, rateHeld_boot, regionHold_boot]
  refine (foldl_keeps_eq (fun t : State => t.boot.fail) (fun _ _ => fail_jobEnds ..) _ _).trans ?_
  refine (foldl_keeps_eq (fun t : State => t.boot.fail) (fun _ _ => congrArg Boot.fail (holdMbx_boot ..)) _ _).trans ?_
  exact foldl_keeps_eq (fun t : State => t.boot.fail) (fun _ _ => congrArg Boot.fail (entryLost_boot ..)) _ _

theorem endMeasure_boot (c : Fin 32) (st : Nat) (s : State) : (endMeasure c st s).boot = s.boot := by
  unfold endMeasure
  split
  · rfl
  · dsimp only
    split
    · rfl
    · exact complete_boot ..

theorem bellowsClear_boot (s : State) : (bellowsClear s).boot = s.boot := rfl

theorem bellowsHold_boot (s : State) : (bellowsHold s).boot = s.boot := by
  unfold bellowsHold bellowsEnds
  rw [bellowsClear_boot, dropEvts_boot, unstage_boot]
  exact foldl_keeps_eq State.boot (fun _ _ => endMeasure_boot ..) _ s

theorem endWalk_boot (x : Fin 2) (reason : Nat) (s : State) : (endWalk x reason s).boot = s.boot := by
  unfold endWalk
  dsimp only
  split
  · rfl
  · split
    · refine (complete_boot ..).trans ?_
      split <;> rfl
    · split <;> rfl

theorem xactEnds_boot (x : Fin 2) (st : Nat) (q : Xact) (s : State) : (xactEnds x st q s).boot = s.boot := by
  unfold xactEnds
  split
  · exact complete_boot ..
  · exact complete_boot ..
  · split
    · exact complete_boot ..
    · rfl
  · dsimp only
    split <;> exact endWalk_boot ..
  · rfl

theorem xactsEnd_boot (x : Fin 2) (s : State) : (xactsEnd x s).boot = s.boot := by
  refine (foldl_keeps_eq State.boot (fun _ _ => complete_boot ..) _ _).trans ?_
  refine (foldl_keeps_eq State.boot (fun _ _ => complete_boot ..) _ _).trans ?_
  refine foldl_keeps_eq State.boot (fun t q => ?_) _ _
  split
  · rfl
  · exact xactEnds_boot ..

theorem chainHold_boot (x : Fin 2) (s : State) : (chainHold x s).boot = s.boot := by
  unfold chainHold
  dsimp only
  rw [modHw_boot, dropEvts_boot, unstage_boot, xactsEnd_boot, endWalk_boot]

theorem post_boot (m : Fin 4) (s : State) : (post m s).boot = s.boot := by
  unfold post
  split
  · rfl
  · dsimp only
    simp only [apply_ite State.boot, raiseFrom_boot, raise_boot, modMbx_boot, ramWrites_boot, ite_self]

theorem mbxFails_boot (m : Fin 4) (st : Nat) (s : State) : (mbxFails m st s).boot = s.boot := by
  unfold mbxFails answer
  dsimp only
  split <;> rfl

theorem safeRegs_fail (s : State) : (safeRegs s).boot.fail = s.boot.fail := rfl

theorem portsReset_boot (n : Nat) (s : State) : (portsReset n s).boot = s.boot :=
  boot_of_powBoot (powBoot_portsReset n s)

theorem safeAnswer_boot (m : Fin 4) (s : State) : (safeAnswer m s).boot = s.boot := by
  unfold safeAnswer
  dsimp only
  split
  · rfl
  · split
    · exact post_boot ..
    · exact (post_boot ..).trans (mbxFails_boot ..)

/-- The entry to Hearth-safe leaves the code of what failed (R506). -/
theorem fail_enterSafe (cause : Nat) (s : State) : (enterSafe cause s).boot.fail = s.boot.fail := by
  unfold enterSafe
  dsimp only
  rw [foldl_keeps_eq State.boot (fun _ _ => safeAnswer_boot ..), raise_boot, portsReset_boot, safeRegs_fail, chainHold_boot,
    chainHold_boot, bellowsHold_boot, fail_hiveHold, fail_ianikReset]

theorem powerUpFails_effect (code : Nat) {s : State} (hparts : PartsOk s.evt) :
    (powerUpFails code s).pow.st = .hearthSafe ∧ (powerUpFails code s).boot.fail = BitVec.ofNat 4 code ∧
    (powerUpFails code s).flt.step = BitVec.ofNat 4 code ∧ (powerUpFails code s).flt.safe = true ∧
    (powerUpFails code s).evt.acc[60] = stick 65535 s.evt.acc[60] ∧
    (powerUpFails code s).evt.acc[62] = stick 65535 s.evt.acc[62] := by
  obtain ⟨u, hu⟩ : ∃ u : State, u = { modBoot (fun b => { b with fail := BitVec.ofNat 4 code }) s with
    flt := { s.flt with step := BitVec.ofNat 4 code } } := ⟨_, rfl⟩
  obtain ⟨v, hv⟩ : ∃ v : State, v = raise 60 (bootResult u) (logFault 0x01 (BitVec.ofNat 16 code) u) := ⟨_, rfl⟩
  have hfails : powerUpFails code s = enterSafe 1 v := by
    rw [hv, hu]
    rfl
  have hacc (n : Fin 64) : (logFault 0x01 (BitVec.ofNat 16 code) u).evt.acc[n] = s.evt.acc[n] := by
    rw [hu]
    rfl
  have hev60 : v.evt.acc[(60 : Fin 64)] = stick 65535 s.evt.acc[(60 : Fin 64)] := by
    rw [hv]
    exact (acc_raise_same 60 ..).trans (congrArg _ (hacc 60))
  have hev62 : v.evt.acc[(62 : Fin 64)] = s.evt.acc[(62 : Fin 64)] := by
    rw [hv]
    exact (acc_raise_of_ne (k := 62) _ _ (by decide)).trans (hacc 62)
  have hfail : v.boot.fail = BitVec.ofNat 4 code := by
    rw [hv, hu]
    rfl
  have hrec : v.flt.step = BitVec.ofNat 4 code := by
    rw [hv, hu]
    rfl
  have hvparts : PartsOk v.evt := by
    rw [hv, hu]
    exact hparts
  have hkept := hearthSafe_kept 1 hvparts
  rw [hfails]
  refine ⟨hkept.st.trans rfl, (fail_enterSafe 1 v).trans hfail, ?_, ?_, ?_, ?_⟩
  · exact (congrArg FaultRec.step hkept.flt).trans hrec
  · exact (congrArg FaultRec.safe hkept.flt).trans rfl
  · exact (hkept.acc 60 (by decide)).trans ((acc_raise_of_ne (k := 60) _ _ (by decide)).trans hev60)
  · exact (hkept.acc 62 (by decide)).trans ((acc_raise_same 62 ..).trans (congrArg _ hev62))

/-! ### The sources -/

/-- The order of the boot sources still to try, and the attempts the ROM has read. -/
def orderPart (s : State) : List Nat × Nat := (s.boot.order, s.boot.attempts)

theorem orderPart_retireSlot (b : Bool) (s : State) : orderPart (retireSlot b s) = orderPart s :=
  congrArg (fun x : Boot => (x.order, x.attempts)) (flashPut_boot ..)

theorem orderPart_nextSlot (s : State) : orderPart (nextSlot s) = orderPart s := by
  unfold nextSlot
  split
  · dsimp only
    refine Eq.trans (b := orderPart (if _ then progState _ 3 s else s)) rfl ?_
    split
    · exact congrArg (fun x : Boot => (x.order, x.attempts)) (flashPut_boot ..)
    · rfl
  · rfl

theorem orderPart_trySlots (s : State) : orderPart (trySlots s) = orderPart s := by
  unfold trySlots
  extract_lets cs order
  split
  · rfl
  · exact (orderPart_nextSlot _).trans rfl

theorem orderPart_startSlots (s : State) : orderPart (startSlots s) = (s.boot.order, min 3 (s.pow.attempts + 1)) := by
  unfold startSlots
  dsimp only
  split
  · rfl
  · refine (orderPart_trySlots _).trans ((foldl_keeps_eq orderPart (fun t b => ?_) _ _).trans ?_)
    · exact Eq.trans (b := orderPart (retireSlot b t)) rfl (orderPart_retireSlot ..)
    · unfold dirProfile
      split <;> rfl

/-- The start of a source (R510 to R514, R537). -/
def sourceStarted : Nat → State → State
  | 0, s => startSlots s
  | 1, s => startWait .push s
  | _ + 2, s => startWait .recovery { s with pow := { s.pow with recovery := false } }

theorem bootSourceStart_tries {k : Nat} {rest : List Nat} {s : State} (hst : s.pow.st = .powerUp)
    (hrst : s.pow.ianikRst = false) (hsrc : s.boot.src = .none) (hstep : 5 ≤ s.boot.step)
    (horder : s.boot.order = k :: rest) :
    ∃ t, exec .bootSourceStart s = .next t ∧ t.boot.order = rest ∧
      (k = 0 → t.pow.attempts = min 3 (s.pow.attempts + 1) ∧ t.boot.attempts = min 3 (s.pow.attempts + 1)) ∧
      (k = 1 → t.boot.src = .push ∧ t.boot.wait = true) ∧
      (2 ≤ k → t.boot.src = .recovery ∧ t.boot.wait = true ∧ t.pow.recovery = false) := by
  have hexec : exec .bootSourceStart s = .next (sourceStarted k (modBoot (fun b => { b with order := rest }) s)) := by
    have hrun : ¬ (s.pow.st ≠ .powerUp ∨ s.pow.ianikRst = true ∨ s.boot.src ≠ .none ∨ s.boot.step < 5) := by
      rintro (h | h | h | h)
      · exact h hst
      · exact absurd (hrst.symm.trans h) (by decide)
      · exact h hsrc
      · omega
    change execBootSourceStart s = _
    refine (if_neg hrun).trans ?_
    rw [horder]
    match k with
    | 0 | 1 | _ + 2 => rfl
  refine ⟨_, hexec, ?_⟩
  clear hexec
  match k with
  | 0 =>
    have hpart := orderPart_startSlots (modBoot (fun b => { b with order := rest }) s)
    have hpow := congrArg PowerSt.attempts (startSlots_pow (modBoot (fun b => { b with order := rest }) s))
    exact ⟨congrArg Prod.fst hpart, fun _ => ⟨hpow, congrArg Prod.snd hpart⟩, by omega, by omega⟩
  | 1 => exact ⟨rfl, by omega, fun _ => ⟨rfl, rfl⟩, by omega⟩
  | k + 2 => exact ⟨rfl, by omega, by omega, fun _ => ⟨rfl, rfl, rfl⟩⟩

/-! ### Manifests and blocks -/

theorem manifestVerified_takes {bs : List Byte} {s : State} (hst : s.pow.st = .powerUp) (hrst : s.pow.ianikRst = false)
    (hsrc : s.boot.src ≠ .none) (hman : s.boot.man = none) (hwait : bootWaits s = false) (hbs : manBytes s = some bs)
    (hgood : manReason (recovers s) (s.boot.src == .push) bs s = none) :
    exec (.manifestVerified false) s = .next (bootProgress { s with boot := { s.boot with
      man := some (parseMan bs), verified := [], retried := false
      bootTuning := match bootedSlot s with
        | some b => (logTuning b s).getD (parseMan bs).tuning
        | none => (parseMan bs).tuning } }) := by
  have hrun : ¬ (s.pow.st ≠ .powerUp ∨ s.pow.ianikRst = true ∨ s.boot.src = .none ∨ s.boot.man.isSome = true ∨
      bootWaits s = true) := by
    rw [hst, hrst, hman, hwait]
    rintro (h | h | h | h | h)
    · exact h rfl
    · cases h
    · exact hsrc h
    · cases h
    · cases h
  change execManifestVerified false s = _
  refine (if_neg hrun).trans ?_
  rw [hbs]
  dsimp only
  rw [hgood]
  exact if_neg Bool.false_ne_true

theorem blockVerified_notes {m : Manifest} {k : Nat} {s : State} (hst : s.pow.st = .powerUp) (hrst : s.pow.ianikRst = false)
    (hman : s.boot.man = some m) (hnext : nextBlock s = some k) (hwait : bootWaits s = false)
    (hload : s.boot.loadFailed = false) (hhere : blockHere k s = true) (hgood : blockGood m (imageBlock k s) k = true) :
    exec (.blockVerified false) s = .next (bootProgress { s with boot := { s.boot with
      verified := insertN k s.boot.verified, retried := false } }) := by
  have hrun : ¬ (s.pow.ianikRst = true ∨ (!(s.pow.st == .powerUp || inService s)) = true ∨ bootWaits s = true) := by
    rw [hst, hrst, hwait]
    rintro (h | h | h) <;> cases h
  change execBlockVerified false s = _
  refine (if_neg hrun).trans ?_
  rw [hman, hnext]
  dsimp only
  refine (if_neg (by rw [hload]; decide)).trans ((if_neg (by rw [hhere]; decide)).trans ?_)
  exact (if_neg Bool.false_ne_true).trans (if_pos hgood)

theorem pushWaitTimeout_over {s : State} (hsrc : s.boot.src = .push) (hrom : romServing s = true)
    (hlen : s.boot.pushedLen = 0) (hnone : s.boot.pushedN = []) (hend : s.boot.pushEnd = false) :
    exec .pushWaitTimeout s = .next (sourceOver (bootNote 9 0 s)) := by
  refine (if_pos ⟨hsrc, hrom, hlen, hnone, hend⟩).trans ?_
  unfold sourceFails
  rw [hsrc]

/-! ### STANDBY -/

/-- The power-up step and the attempts that BOOT_ST shows. -/
def reachedPart (s : State) : Nat × Nat := (s.boot.step, s.boot.attempts)

theorem reachedPart_housekeeping (s : State) : reachedPart (housekeeping s) = reachedPart s := by
  unfold housekeeping
  split
  · exact congrArg (fun b : Boot => (b.step, b.attempts)) (flashPut_boot ..)
  · rfl

theorem reachedPart_stageOwn (e : Nat) (c : Change) (s : State) : reachedPart (stageOwn e c s) = reachedPart s := rfl

theorem reachedPart_autoStamp (e : Nat) (s : State) : reachedPart (autoStamp e s) = reachedPart s := by
  unfold autoStamp
  dsimp only
  split
  · rfl
  · split
    · rfl
    · split
      · rw [reachedPart_stageOwn, reachedPart_stageOwn]
        split <;> rfl
      · split <;> rfl

theorem standbyReached_reports {s : State} (hst : s.pow.st = .powerUp) (hdone : s.boot.done = true)
    (hbooted : s.boot.booted = true) (hrates : ratesSet s = true) (hlock : s.stove.lock = true)
    (hrst : s.pow.ianikRst = false) : ∃ t, exec .standbyReached s = .next t ∧
      t.pow = { s.pow with st := .standby, bootCrit := false, attempts := 0, sawStandby := true } ∧
      t.boot.step = 11 ∧ t.boot.attempts = 0 := by
  have hexec : exec .standbyReached s = .next (autoStamp (effFrame s) (housekeeping
      (modBoot (fun b => { b with step := 11, attempts := 0, wait := false }) { s with pow := standbyPower s.pow }))) :=
    if_pos ⟨hst, hdone, hbooted, hrates, .inl hlock, hrst⟩
  obtain ⟨u, hu⟩ : ∃ u, u =
    modBoot (fun b => { b with step := 11, attempts := 0, wait := false }) { s with pow := standbyPower s.pow } := ⟨_, rfl⟩
  have hpow : u.pow = standbyPower s.pow := by rw [hu]; rfl
  have hpart : reachedPart u = (11, 0) := by rw [hu]; rfl
  rw [← hu] at hexec
  have hreached := (reachedPart_autoStamp (effFrame s) _).trans ((reachedPart_housekeeping u).trans hpart)
  refine ⟨_, hexec, ?_, congrArg Prod.fst hreached, congrArg Prod.snd hreached⟩
  rw [autoStamp_pow, housekeeping_pow]
  exact hpow

/-- Settles O41: each event of the power-up and of the boot chain, from what the step it takes makes of the power state and the
boot's record, which what the step brings to the rest of the device leaves. -/
theorem powerUpAndBootEventsComplete : Obligations.PowerUpAndBootEventsComplete := by
  unfold Obligations.PowerUpAndBootEventsComplete
  refine ⟨?passes, ?fails, ?budget, ?source, ?manifest, ?block, ?push, ?standby⟩
  case passes => exact fun res s hst hdone hstep hpass => powerUpStep_passes hst hdone hstep hpass
  case fails =>
    intro res s hparts hst hdone hstep hfail
    have hrun : ¬ (s.pow.st ≠ .powerUp ∨ s.boot.done = true ∨ s.boot.step = 0) := by
      rw [hst, hdone]
      rintro (h | h | h)
      · exact h rfl
      · cases h
      · exact hstep h
    exact ⟨_, (if_neg hrun).trans (if_neg (by rw [hfail]; exact Bool.false_ne_true)), powerUpFails_effect s.boot.step hparts⟩
  case budget =>
    intro s hparts hst hdone
    have hrun : ¬ (s.pow.st ≠ .powerUp ∨ s.boot.done = true) := by
      rw [hst, hdone]
      rintro (h | h)
      · exact h rfl
      · cases h
    exact ⟨_, if_neg hrun, powerUpFails_effect 10 hparts⟩
  case source => exact fun k rest s hst hrst hsrc hstep horder => bootSourceStart_tries hst hrst hsrc hstep horder
  case manifest =>
    exact fun bs s hst hrst hsrc hman hwait hbs hgood => manifestVerified_takes hst hrst hsrc hman hwait hbs hgood
  case block =>
    exact fun m k s hst hrst hman hnext hwait hload hhere hgood =>
      blockVerified_notes hst hrst hman hnext hwait hload hhere hgood
  case push => exact fun s hsrc hrom hlen hnone hend => pushWaitTimeout_over hsrc hrom hlen hnone hend
  case standby =>
    exact fun s hst hdone hbooted hrates hlock hrst => standbyReached_reports hst hdone hbooted hrates hlock hrst

end Sys2Proof.Machine
end

section
/-! A Store access whose turn comes while another cell of the domain is behind it. -/

namespace Sys2Proof.Machine

/-- A store by a program's first word, whose turn is slot 5. -/
def turnFive : StoreWait := ⟨0, 0, 0, 5, 0, false, 0, [], 0⟩

/-- Cell 0 has issued six slots, and cell 1, with a program of 100 slots, none. -/
def cellBehind : State :=
  modCell 1 (fun y => { y with
      role := some { dom := .M, slot := 1 }, mem := { y.mem with pmeta := .replicate 2 { len := 100 } } })
    (modCell 0 (fun y => { y with
      role := some { dom := .M, slot := 0 }, run := { y.run with slot := 6, waits := [turnFive] } }) State.reset)

/-- The access of cell 0 waits until cell 1 has issued as far. -/
theorem exec_cellBehind : exec (.storeTurn 0 []) cellBehind = .next cellBehind := by
  have hwait : firstWait (cellAt cellBehind 0).run.waits = some turnFive := by decide +kernel
  have hbehind : ((List.finRange 32).filter
      (fun k => cellDom (cellAt cellBehind k) == cellDom (cellAt cellBehind 0))).all
        (fun k => issuedTo turnFive.turn (cellAt cellBehind k)) = false := by decide +kernel
  change execStoreTurn 0 [] cellBehind = _
  unfold execStoreTurn
  dsimp only [strike, List.foldl_nil]
  rw [hwait]
  exact if_neg (by rw [hbehind]; exact Bool.false_ne_true)

/-- Refutes O43: the turn of an access comes only once every cell of its domain has issued its slots as far (R139), and no
premise of the first clause says so. -/
theorem not_cellAndRampEventsComplete : ¬ Obligations.CellAndRampEventsComplete := by
  intro h
  obtain ⟨hturn, -⟩ := h
  have hexec := hturn 0 turnFive [] cellBehind (by decide +kernel) (by decide +kernel)
  have hsame := Host.Outcome.next.inj (exec_cellBehind.symm.trans hexec)
  have hwaits := congrArg (fun t => (cellAt t 0).run.waits) hsame
  exact absurd hwaits (by decide +kernel)

end Sys2Proof.Machine
end

section
/-! ## The cell window, the Chimney and the Outlet -/

namespace Sys2Proof.Machine

/-! ### What a cell's slot leaves of the Hive -/

/-- The Hive cycle, the domains' rates and the cells other than `c`. -/
def otherCells (c : Fin 32) (s : State) : Nat × Domains × Vector Cell 32 := (s.hive.cycle, s.hive.dom, s.hive.cells.set c {})

section
variable (c : Fin 32) (s : State)

theorem otherCells_modCell (f : Cell → Cell) : otherCells c (modCell c f s) = otherCells c s := by
  simp [otherCells, modCell, vmod]

theorem otherCells_healWords (mk : Nat → WordAt) (l : List Nat) : otherCells c (healWords mk l s) = otherCells c s := by
  induction l generalizing s with
  | nil => rfl
  | cons a l ih => exact (ih _).trans rfl

theorem otherCells_checkWord (w : WordAt) : otherCells c (checkWord w s).2 = otherCells c s := by
  unfold checkWord
  split
  · rfl
  · split <;> rfl

theorem otherCells_wrStore (a : Nat) (x : Word) : otherCells c (wrStore a x s) = otherCells c s := by
  unfold wrStore
  extract_lets marked healed
  have hheal : otherCells c healed = otherCells c s := by
    unfold healed
    split
    · exact otherCells_healWords ..
    · rfl
  refine Eq.trans ?_ hheal
  clear_value healed
  rfl

theorem otherCells_rdStore (a : Nat) : otherCells c (rdStore a s).2.2 = otherCells c s := by
  unfold rdStore
  split
  · rfl
  · dsimp only
    split <;> exact otherCells_checkWord ..

theorem otherCells_cellFault (b pc : Nat) : otherCells c (cellFault c b pc s) = otherCells c s :=
  otherCells_modCell ..

theorem otherCells_cellWaggle : otherCells c (cellWaggle c s) = otherCells c s :=
  otherCells_modCell ..

theorem otherCells_rdData (pc a : Nat) : otherCells c (rdData c pc a s).2 = otherCells c s := by
  unfold rdData
  dsimp only
  split
  · rfl
  · split
    · exact otherCells_checkWord ..
    · exact (otherCells_cellFault ..).trans (otherCells_checkWord ..)

theorem otherCells_rdCoef (pc a : Nat) : otherCells c (rdCoef c pc a s).2 = otherCells c s := by
  unfold rdCoef
  dsimp only
  split
  · exact otherCells_checkWord ..
  · exact (otherCells_cellFault ..).trans (otherCells_checkWord ..)

theorem otherCells_wrData (a : Nat) (x : F32) : otherCells c (wrData c a x s) = otherCells c s := by
  unfold wrData
  dsimp only
  split
  · rfl
  · refine (otherCells_modCell ..).trans ?_
    split
    · exact otherCells_healWords ..
    · rfl

/-! ### The slots of a word -/

theorem otherCells_rdSpace (pc space a : Nat) : otherCells c (rdSpace c pc space a s).2 = otherCells c s := by
  unfold rdSpace
  split
  · exact otherCells_rdData ..
  · exact otherCells_rdCoef ..

theorem otherCells_rdLanes (pc space : Nat) (addr : Nat → Nat) (ls : List Nat) :
    otherCells c (rdLanes c pc space addr ls s).2 = otherCells c s := by
  induction ls generalizing s with
  | nil => rfl
  | cons l ls ih => exact (ih _).trans (otherCells_rdSpace ..)

theorem otherCells_tliLane (pc space j x : Nat) (u : F32) : otherCells c (tliLane c pc space j x u s).2 = otherCells c s := by
  unfold tliLane
  exact (otherCells_rdSpace ..).trans (otherCells_rdSpace ..)

theorem otherCells_tliLanes (pc space j x : Nat) (u : Vector F32 8) (ls : List Nat) :
    otherCells c (tliLanes c pc space j x u ls s).2 = otherCells c s := by
  induction ls generalizing s with
  | nil => rfl
  | cons l ls ih =>
    exact (ih _).trans (otherCells_tliLane ..)

theorem otherCells_storeIssue (phi i pc : Nat) (load : Bool) (reg : Nat) (lanes : List Nat) (a : Nat) (x : F32) :
    otherCells c (storeIssue c phi i pc load reg lanes a x s) = otherCells c s := by
  unfold storeIssue
  dsimp only
  split
  · split
    · exact (otherCells_modCell ..).trans (otherCells_cellWaggle ..)
    · exact otherCells_cellWaggle ..
  · exact otherCells_modCell ..

theorem otherCells_storePerform (w : StoreWait) : otherCells c (storePerform c w s) = otherCells c s := by
  unfold storePerform
  extract_lets t on
  have ht : otherCells c t = otherCells c s := otherCells_modCell ..
  clear_value t on
  cases on
  · split
    · exact (otherCells_modCell ..).trans ht
    · exact ht
  · split
    · rw [otherCells_modCell]
      have hread := (otherCells_rdStore c t w.addr).trans ht
      rw [if_pos rfl]
      generalize rdStore w.addr t = read at hread
      split
      · exact (otherCells_cellFault ..).trans hread
      · exact hread
    · exact (otherCells_wrStore ..).trans ht

theorem otherCells_performTurn (i : Nat) : otherCells c (performTurn c i s) = otherCells c s :=
  foldl_keeps_eq (otherCells c) (fun _ _ => otherCells_storePerform ..) _ s

theorem otherCells_storeLanes (phi i pc space : Nat) (l : List (Nat × F32)) :
    otherCells c (storeLanes c phi i pc space l s) = otherCells c s := by
  induction l generalizing s with
  | nil => rfl
  | cons e l ih =>
    refine (ih _).trans ?_
    split
    · exact otherCells_wrData ..
    · exact otherCells_storeIssue ..

theorem otherCells_mLoad (phi i pc : Nat) (m : MOp) (lanes : List Nat) :
    otherCells c (mLoad c phi i pc m lanes s) = otherCells c s := by
  unfold mLoad
  dsimp only
  split
  · split
    · exact foldl_keeps_eq (otherCells c) (fun _ _ => otherCells_storeIssue ..) _ s
    · exact (otherCells_modCell ..).trans (otherCells_rdLanes ..)
  · split
    · rfl
    · split
      · exact otherCells_storeIssue ..
      · exact (otherCells_modCell ..).trans (otherCells_rdSpace ..)

theorem otherCells_mExec (phi i pc : Nat) (m : MOp) : otherCells c (mExec c phi i pc m s) = otherCells c s := by
  unfold mExec
  dsimp only
  split
  · exact otherCells_cellFault ..
  · split
    · exact (otherCells_modCell ..).trans (otherCells_mLoad ..)
    · exact (otherCells_modCell ..).trans (otherCells_mLoad ..)
    · exact (otherCells_modCell ..).trans (otherCells_storeLanes ..)
    · exact (otherCells_modCell ..).trans (otherCells_storeLanes ..)
    · refine (otherCells_modCell ..).trans ((otherCells_modCell ..).trans ?_)
      exact (otherCells_rdLanes ..).trans (otherCells_rdLanes ..)
    · exact (otherCells_modCell ..).trans ((otherCells_modCell ..).trans (otherCells_tliLanes ..))
    · exact otherCells_modCell ..
    · exact otherCells_modCell ..
    · exact otherCells_modCell ..
    · rfl

theorem otherCells_checkProg (w : Nat) (ks : List Nat) : otherCells c (checkProg c w ks s).2 = otherCells c s := by
  induction ks generalizing s with
  | nil => rfl
  | cons k ks ih => exact (ih _).trans (otherCells_checkWord ..)

theorem otherCells_fetchWord : otherCells c (fetchWord c s).2 = otherCells c s := by
  unfold fetchWord
  dsimp only
  split
  · rfl
  · split
    · exact otherCells_checkProg ..
    · exact (otherCells_cellFault ..).trans (otherCells_checkProg ..)

theorem otherCells_issueA (i pc w : Nat) (y : Cell) : otherCells c (issueA c i pc w y s) = otherCells c s := by
  unfold issueA
  split
  · exact otherCells_cellFault ..
  · exact otherCells_modCell ..

theorem otherCells_issueC (i pc w : Nat) (y : Cell) : otherCells c (issueC c i pc w y s) = otherCells c s := by
  unfold issueC
  split
  · exact otherCells_modCell ..
  · dsimp only
    split
    · exact (otherCells_cellFault ..).trans (otherCells_modCell ..)
    · exact otherCells_modCell ..

theorem otherCells_issueSlot (phi : Nat) : otherCells c (issueSlot c phi s) = otherCells c s := by
  unfold issueSlot
  dsimp only
  rw [otherCells_issueC, otherCells_mExec, otherCells_issueA, otherCells_fetchWord, otherCells_modCell]

theorem otherCells_cellSlot (phi : Nat) : otherCells c (cellSlot c phi s) = otherCells c s := by
  unfold cellSlot
  dsimp only
  rw [otherCells_modCell, otherCells_performTurn]
  split
  · exact otherCells_issueSlot ..
  · exact otherCells_modCell ..

end

/-! ### A cycle of the window -/

theorem cellAt_modCell_same (c : Fin 32) (f : Cell → Cell) (s : State) : cellAt (modCell c f s) c = f (cellAt s c) := by
  simp [cellAt, modCell, vmod]

theorem cellAt_of_otherCells {c k : Fin 32} {s t : State} (h : otherCells k t = otherCells k s) (hk : k ≠ c) :
    cellAt t c = cellAt s c := by
  have hv : k.val ≠ c.val := fun e => hk (Fin.ext e)
  have hcells := congrArg (fun x : Nat × Domains × Vector Cell 32 => x.2.2[c]) h
  simp only [otherCells, Fin.getElem_fin, Vector.getElem_set_ne _ _ hv] at hcells
  exact hcells

theorem cellAt_modCell_of_ne {c k : Fin 32} (h : k ≠ c) (f : Cell → Cell) (s : State) : cellAt (modCell k f s) c = cellAt s c :=
  cellAt_of_otherCells (otherCells_modCell ..) h

/-- The Hive cycle and the domains' rates. -/
def ratePart (s : State) : Nat × Domains := (s.hive.cycle, s.hive.dom)

theorem ratePart_cellSlot (c : Fin 32) (phi : Nat) (s : State) : ratePart (cellSlot c phi s) = ratePart s :=
  congrArg (fun x : Nat × Domains × Vector Cell 32 => (x.1, x.2.1)) (otherCells_cellSlot c s phi)

theorem slot_cellSlot (c : Fin 32) (phi : Nat) (s : State) :
    (cellAt (cellSlot c phi s) c).run.slot = (cellAt s c).run.slot + 1 := by
  unfold cellSlot
  dsimp only
  rw [cellAt_modCell_same]

theorem ratePart_windowCycle (d : Dom) (phi : Nat) (cs : List (Fin 32)) (s : State) :
    ratePart (windowCycle d phi cs s) = ratePart s := by
  refine foldl_keeps_eq ratePart (fun t c => ?_) cs s
  split
  · exact ratePart_cellSlot ..
  · rfl

theorem slot_windowCycle {d : Dom} {phi : Nat} {cs : List (Fin 32)} {c : Fin 32} (hcs : cs.Nodup) (hc : c ∈ cs) (s : State) :
    (cellAt (windowCycle d phi cs s) c).run.slot =
      if (cellAt s c).run.slot < winLen d s.hive.dom.m s.hive.dom.d then (cellAt s c).run.slot + 1
      else (cellAt s c).run.slot := by
  unfold windowCycle
  dsimp only
  generalize winLen d s.hive.dom.m s.hive.dom.d = len
  have hother (t : State) (k : Fin 32) (hk : k ≠ c) :
      cellAt (if (cellAt t k).run.slot < len then cellSlot k phi t else t) c = cellAt t c := by
    split
    · exact cellAt_of_otherCells (otherCells_cellSlot ..) hk
    · rfl
  refine foldl_at (m := c) (f := fun t => cellAt t c) (h := fun t => (cellAt t c).run.slot) (b := cellAt s c) hother
    (fun t k hk => congrArg (fun y : Cell => y.run.slot) (hother t k hk)) (fun t ht => ?_) hcs hc rfl
  have ht' : cellAt t c = cellAt s c := ht
  split
  next h => rw [if_pos (ht' ▸ h), slot_cellSlot, ht']
  next h => rw [if_neg (ht' ▸ h), ht']

theorem cellAt_windowCycle_of_notMem {d : Dom} {phi : Nat} {cs : List (Fin 32)} {c : Fin 32} (hc : c ∉ cs) (s : State) :
    cellAt (windowCycle d phi cs s) c = cellAt s c := by
  refine foldl_keeps_of_mem (fun t => cellAt t c) (fun t k hk => ?_) s
  split
  · exact cellAt_of_otherCells (otherCells_cellSlot ..) (fun e => hc (e ▸ hk))
  · rfl

theorem cells_freeCycle (s : State) : (freeCycle s).2.hive.cells = s.hive.cells := by
  have h := congrArg (fun t : State => t.hive.cells) (memRest_freeCycle s)
  exact h

theorem dom_freeCycle (s : State) : (freeCycle s).2.hive.dom = s.hive.dom := by
  have h := congrArg (fun t : State => t.hive.dom) (memRest_freeCycle s)
  exact h

theorem cycle_freePerform (w : FreeAcc) (s : State) : (freePerform w s).2.hive.cycle = s.hive.cycle := by
  have hwr (t : State) (a : Nat) (x : Word) : (wrStore a x t).hive.cycle = t.hive.cycle :=
    congrArg Prod.fst (otherCells_wrStore 0 t a x)
  have hrd (t : State) (a : Nat) : (rdStore a t).2.2.hive.cycle = t.hive.cycle :=
    congrArg Prod.fst (otherCells_rdStore 0 t a)
  have hword (t : State) (x : WordAt) : (patrolWord x t).2.hive = t.hive := by
    unfold patrolWord
    split
    · rfl
    · split
      · rfl
      · split <;> rfl
  have hpatrol (t : State) (a : Nat) : (patrolStore a t).2.hive.cycle = t.hive.cycle := by
    unfold patrolStore
    split
    · rfl
    · dsimp only
      split
      · exact congrArg Hive.cycle (hword ..)
      · exact (hwr ..).trans (congrArg Hive.cycle (hword ..))
  unfold freePerform
  dsimp only
  split
  · rfl
  · split
    · exact hwr ..
    · split
      · exact hpatrol ..
      · exact hrd ..

theorem cycle_freeCycle (s : State) : (freeCycle s).2.hive.cycle = (s.hive.cycle + 1) % 64 := by
  refine congrArg (fun k => (k + 1) % 64) ?_
  exact foldl_keeps_eq (fun p : List (FreeAcc × Word) × State => p.2.hive.cycle) (fun _ _ => cycle_freePerform ..) _ ([], s)

theorem cellAt_freeCycle (s : State) (c : Fin 32) : cellAt (freeCycle s).2 c = cellAt s c :=
  congrArg (fun v : Vector Cell 32 => v[c]) (cells_freeCycle s)

theorem dom_windowCycle (d : Dom) (phi : Nat) (cs : List (Fin 32)) (s : State) :
    (windowCycle d phi cs s).hive.dom = s.hive.dom :=
  congrArg Prod.snd (ratePart_windowCycle ..)

theorem cycle_windowCycle (d : Dom) (phi : Nat) (cs : List (Fin 32)) (s : State) :
    (windowCycle d phi cs s).hive.cycle = s.hive.cycle :=
  congrArg Prod.fst (ratePart_windowCycle ..)

/-! ### The cycles of a window -/

theorem cycle_windowCycles (d : Dom) (phi : Nat) (cs : List (Fin 32)) {n : Nat} (hn : 0 < n) (s : State) :
    (windowCycles d phi cs n s).hive.cycle = (s.hive.cycle + n) % 64 := by
  induction n generalizing s with
  | zero => exact absurd hn (Nat.lt_irrefl 0)
  | succ n ih =>
    have hfirst : (freeCycle (windowCycle d phi cs s)).2.hive.cycle = (s.hive.cycle + 1) % 64 := by
      rw [cycle_freeCycle, cycle_windowCycle]
    rw [windowCycles]
    cases n with
    | zero => exact hfirst
    | succ n =>
      rw [ih (Nat.succ_pos n), hfirst]
      omega

theorem slot_windowCycles {d : Dom} {phi : Nat} {cs : List (Fin 32)} {c : Fin 32} (hcs : cs.Nodup) (hc : c ∈ cs) (n : Nat)
    (s : State) : (cellAt (windowCycles d phi cs n s) c).run.slot = max (cellAt s c).run.slot
      (min (winLen d s.hive.dom.m s.hive.dom.d) ((cellAt s c).run.slot + n)) := by
  induction n generalizing s with
  | zero => rw [windowCycles]; omega
  | succ n ih =>
    rw [windowCycles, ih, dom_freeCycle, dom_windowCycle, cellAt_freeCycle, slot_windowCycle hcs hc]
    split <;> omega

theorem cellAt_windowCycles_of_notMem {d : Dom} {phi : Nat} {cs : List (Fin 32)} {c : Fin 32} (hc : c ∉ cs) (n : Nat)
    (s : State) : cellAt (windowCycles d phi cs n s) c = cellAt s c := by
  induction n generalizing s with
  | zero => rfl
  | succ n ih => rw [windowCycles, ih, cellAt_freeCycle, cellAt_windowCycle_of_notMem hc]

/-! ### The zero-output frame -/

/-- What the clear of a role change leaves of a cell in its zero-output frame (R75). -/
def clearedNow (y : Cell) : Cell :=
  if y.zeroFrame && y.clearReq then { clearDataRam y with clearReq := false } else y

theorem cellAt_forget (p : WordAt → Bool) (s : State) (c : Fin 32) : cellAt (forget p s) c = cellAt s c := rfl

theorem cellAt_clearNow_same (c : Fin 32) (s : State) : cellAt (clearNow c s) c = clearedNow (cellAt s c) := by
  unfold clearNow clearedNow
  split
  · rw [cellAt_modCell_same, clearData, cellAt_forget, cellAt_modCell_same]
  · rfl

theorem cellAt_clearNow_of_ne {c k : Fin 32} (h : k ≠ c) (s : State) : cellAt (clearNow k s) c = cellAt s c := by
  unfold clearNow
  split
  · rw [cellAt_modCell_of_ne h, clearData, cellAt_forget, cellAt_modCell_of_ne h]
  · rfl

theorem cellsOf_nodup (d : Dom) (s : State) : (cellsOf d s).Nodup := (List.nodup_finRange 32).filter _

theorem mem_cellsOf {d : Dom} {c : Fin 32} {s : State} (h : cellDom (cellAt s c) = some d) : c ∈ cellsOf d s :=
  List.mem_filter.mpr ⟨List.mem_finRange c, by rw [h]; exact beq_self_eq_true _⟩

theorem cellAt_clears {l : List (Fin 32)} {c : Fin 32} (hl : l.Nodup) (hc : c ∈ l) (s : State) :
    cellAt (l.foldl (fun s c => clearNow c s) s) c = clearedNow (cellAt s c) := by
  refine foldl_at (m := c) (f := fun t => cellAt t c) (h := fun t => cellAt t c) (b := cellAt s c)
    (fun t k hk => cellAt_clearNow_of_ne hk t) (fun t k hk => cellAt_clearNow_of_ne hk t) (fun t ht => ?_) hl hc rfl
  have ht' : cellAt t c = cellAt s c := ht
  exact (cellAt_clearNow_same c t).trans (by rw [ht'])

theorem ratePart_clears (l : List (Fin 32)) (s : State) : ratePart (l.foldl (fun s c => clearNow c s) s) = ratePart s := by
  refine foldl_keeps_eq ratePart (fun t c => ?_) l s
  unfold clearNow
  split <;> rfl

theorem clearedNow_zeroFrame (y : Cell) : (clearedNow y).zeroFrame = y.zeroFrame := by
  unfold clearedNow
  split <;> rfl

theorem clearedNow_run (y : Cell) : (clearedNow y).run = y.run := by
  unfold clearedNow
  split <;> rfl

/-- New upsets leave everything but the record of upsets. -/
theorem strike_care (ups : List Upset) (s : State) : strike ups s = { s with care := (strike ups s).care } := by
  have h : ({ strike ups s with care := {} } : State) = { s with care := {} } := by
    refine foldl_keeps_eq (fun t : State => ({ t with care := {} } : State)) (fun t u => ?_) ups s
    dsimp only
    split <;> rfl
  have h' := congrArg (fun t : State => ({ t with care := (strike ups s).care } : State)) h
  exact h'

theorem exec_cellWindow {d : Dom} {n : Nat} {ups : List Upset} {s : State} (hphases : hivePhases (strike ups s) = true)
    (hbegun : domBegun d (strike ups s) = true) : exec (.cellWindow d n ups) s = .next (
      let s := strike ups s
      let cs := cellsOf d s
      let s := cs.foldl (fun s c => clearNow c s) s
      windowCycles d (wagglePhi d s) (cs.filter (fun c => !(cellAt s c).zeroFrame)) n s) := by
  change execCellWindow d n ups s = _
  unfold execCellWindow
  dsimp only
  rw [hphases, hbegun]
  rfl

theorem cellWindow_cycles {d : Dom} {n : Nat} {ups : List Upset} {c : Fin 32} {s : State} (hphases : hivePhases s = true)
    (hbegun : domBegun d s = true) (hdom : cellDom (cellAt s c) = some d) :
    ∃ t, exec (.cellWindow d n ups) s = .next t ∧ (0 < n → t.hive.cycle = (s.hive.cycle + n) % 64) ∧
      ((cellAt s c).zeroFrame = false → (cellAt t c).run.slot =
        max (cellAt s c).run.slot (min (winLen d s.hive.dom.m s.hive.dom.d) ((cellAt s c).run.slot + n))) ∧
      ((cellAt s c).zeroFrame = true → (cellAt t c).run = (cellAt s c).run ∧ (cellAt t c).clearReq = false ∧
        ((cellAt s c).clearReq = true → (cellAt t c).mem = (clearDataRam (cellAt s c)).mem)) := by
  obtain ⟨u, hu⟩ : ∃ u, u = strike ups s := ⟨_, rfl⟩
  have hhive : u.hive = s.hive := by rw [hu, strike_care]
  have hcell : cellAt u c = cellAt s c := congrArg (fun h : Hive => h.cells[c]) hhive
  have hphases' : hivePhases u = true := by rw [hu, strike_care]; exact hphases
  have hbegun' : domBegun d u = true := by rw [hu, strike_care]; exact hbegun
  have hexec := exec_cellWindow (n := n) (hu ▸ hphases') (hu ▸ hbegun')
  rw [← hu] at hexec
  dsimp only at hexec
  obtain ⟨v, hv⟩ : ∃ v, v = (cellsOf d u).foldl (fun s c => clearNow c s) u := ⟨_, rfl⟩
  rw [← hv] at hexec
  have hmem : c ∈ cellsOf d u := mem_cellsOf (hcell ▸ hdom)
  have hnow : cellAt v c = clearedNow (cellAt s c) := by rw [hv, cellAt_clears (cellsOf_nodup ..) hmem, hcell]
  have hrate : ratePart v = ratePart s := by
    rw [hv, ratePart_clears]
    unfold ratePart
    rw [hhive]
  have hcycle : v.hive.cycle = s.hive.cycle := congrArg Prod.fst hrate
  have hrates : v.hive.dom = s.hive.dom := congrArg Prod.snd hrate
  refine ⟨_, hexec, fun hn => ?_, fun hzero => ?_, fun hzero => ?_⟩
  · rw [cycle_windowCycles _ _ _ hn, hcycle]
  · have hin : c ∈ (cellsOf d u).filter (fun c => !(cellAt v c).zeroFrame) :=
      List.mem_filter.mpr ⟨hmem, by rw [hnow, clearedNow_zeroFrame, hzero]; rfl⟩
    rw [slot_windowCycles ((cellsOf_nodup ..).filter _) hin, hnow, clearedNow_run, hrates]
  · have hout : c ∉ (cellsOf d u).filter (fun c => !(cellAt v c).zeroFrame) := by
      intro h
      have h' := (List.mem_filter.mp h).2
      rw [hnow, clearedNow_zeroFrame, hzero] at h'
      cases h'
    rw [cellAt_windowCycles_of_notMem hout, hnow]
    refine ⟨clearedNow_run _, ?_, fun hreq => ?_⟩
    · unfold clearedNow
      rw [hzero]
      cases hreq : (cellAt s c).clearReq
      · exact hreq
      · rfl
    · unfold clearedNow
      rw [hzero, hreq]
      rfl

/-! ### The Chimney -/

theorem cellAt_raiseIf (b : Bool) (n : Nat) (d : Word) (s : State) (c : Fin 32) : cellAt (raiseIf b n d s) c = cellAt s c := by
  unfold raiseIf
  split <;> rfl

/-- What the Chimney makes of a cell, but for what the spark screen notes (R67, R74, R97). -/
def chimneyTaken (len : Nat) (y : Cell) : Cell :=
  let z := clearedNow y
  chimneyCell (if z.zeroFrame then z else landTo len z)

/-- What two cells share whose records differ at most in what the spark screen notes. -/
def sparkRest (y : Cell) : Cell := { y with stat := { y.stat with spkNonfin := 0, spkClamp := 0, spkCount := 0 } }

theorem dom_clearNow (c : Fin 32) (s : State) : (clearNow c s).hive.dom = s.hive.dom := by
  unfold clearNow
  split <;> rfl

theorem clearedNow_role (y : Cell) : (clearedNow y).role = y.role := by
  unfold clearedNow
  split <;> rfl

theorem cellAt_chimneyLand_same (c : Fin 32) (s : State) : cellAt (chimneyLand c (clearNow c s)) c =
    (let z := clearedNow (cellAt s c)
      if z.zeroFrame then z else landTo (winLen ((cellDom (cellAt s c)).getD .M) s.hive.dom.m s.hive.dom.d) z) := by
  unfold chimneyLand
  dsimp only
  rw [cellAt_modCell_same, cellAt_clearNow_same, dom_clearNow, cellDom, clearedNow_role, ← cellDom]

theorem sparkRest_chimneyOne (s : State) (c : Fin 32) : sparkRest (cellAt (chimneyOne s c) c) =
    sparkRest (chimneyTaken (winLen ((cellDom (cellAt s c)).getD .M) s.hive.dom.m s.hive.dom.d) (cellAt s c)) := by
  obtain ⟨u, hu⟩ : ∃ u, u = chimneyLand c (clearNow c s) := ⟨_, rfl⟩
  have huc := cellAt_chimneyLand_same c s
  rw [← hu] at huc
  obtain ⟨v, hv⟩ : ∃ v, v = raiseIf (cellAt u c).zeroFrame 10 (bit c) (modCell c chimneyCell u) := ⟨_, rfl⟩
  have hvc : cellAt v c = chimneyTaken (winLen ((cellDom (cellAt s c)).getD .M) s.hive.dom.m s.hive.dom.d) (cellAt s c) := by
    rw [hv, cellAt_raiseIf, cellAt_modCell_same, huc, chimneyTaken]
  rw [← hvc]
  unfold chimneyOne
  dsimp only
  rw [← hu, ← hv]
  split
  · refine (congrArg sparkRest (cellAt_modCell_same c (fun y => { y with stat := sparkNote y.stat }) v)).trans ?_
    rfl
  · rfl

theorem cellAt_chimneyOne_of_ne {c k : Fin 32} (h : k ≠ c) (s : State) : cellAt (chimneyOne s k) c = cellAt s c := by
  have hland : cellAt (chimneyLand k (clearNow k s)) c = cellAt s c :=
    (cellAt_modCell_of_ne h _ _).trans (cellAt_clearNow_of_ne h s)
  have hchim : cellAt (raiseIf (cellAt (chimneyLand k (clearNow k s)) k).zeroFrame 10 (bit k)
      (modCell k chimneyCell (chimneyLand k (clearNow k s)))) c = cellAt s c := by
    rw [cellAt_raiseIf, cellAt_modCell_of_ne h, hland]
  unfold chimneyOne
  dsimp only
  split
  · exact (cellAt_modCell_of_ne h _ _).trans hchim
  · exact hchim

theorem dom_chimneyOne (s : State) (c : Fin 32) : (chimneyOne s c).hive.dom = s.hive.dom := by
  have hraise (b : Bool) (n : Nat) (w : Word) (t : State) : (raiseIf b n w t).hive.dom = t.hive.dom := by
    cases b <;> rfl
  have hchim (b : Bool) : (raiseIf b 10 (bit c)
      (modCell c chimneyCell (chimneyLand c (clearNow c s)))).hive.dom = s.hive.dom :=
    (hraise ..).trans (dom_clearNow c s)
  unfold chimneyOne
  dsimp only
  split
  · exact hchim _
  · exact hchim _

theorem sparkRest_chimneys {d : Dom} {c : Fin 32} {s : State} (hdom : cellDom (cellAt s c) = some d) :
    sparkRest (cellAt ((cellsOf d s).foldl chimneyOne s) c) =
      sparkRest (chimneyTaken (winLen d s.hive.dom.m s.hive.dom.d) (cellAt s c)) := by
  refine foldl_at (m := c) (f := fun t => (cellAt t c, t.hive.dom)) (h := fun t => sparkRest (cellAt t c))
    (b := (cellAt s c, s.hive.dom)) ?_ ?_ ?_ (cellsOf_nodup d s) (mem_cellsOf hdom) rfl
  · exact fun t k hk => Prod.ext (cellAt_chimneyOne_of_ne hk t) (dom_chimneyOne t k)
  · exact fun t k hk => congrArg sparkRest (cellAt_chimneyOne_of_ne hk t)
  · intro t ht
    obtain ⟨hcell, hdoms⟩ := Prod.mk.inj ht
    rw [sparkRest_chimneyOne, hcell, hdoms, hdom]
    rfl

theorem chimneyTaken_zeroFrame {y : Cell} (hzero : y.zeroFrame = true) (len : Nat) :
    (chimneyTaken len y).zeroFrame = false ∧ (chimneyTaken len y).stat.last = .replicate 8 0 := by
  unfold chimneyTaken chimneyCell
  dsimp only
  rw [clearedNow_zeroFrame, hzero, if_pos rfl, clearedNow_zeroFrame, hzero]
  exact ⟨rfl, rfl⟩

theorem chimneyTaken_last {y : Cell} (hzero : y.zeroFrame = false) (len : Nat) :
    (chimneyTaken len y).stat.last = actionOut (landTo len y).regs.outb (actionNow y.stat) := by
  have hsame : clearedNow y = y := by
    unfold clearedNow
    rw [hzero]
    rfl
  have hland : (landTo len y).zeroFrame = false := hzero
  unfold chimneyTaken chimneyCell
  dsimp only
  rw [hsame, hzero, if_neg Bool.false_ne_true, hland]
  rfl

theorem chimneyTaken_muted {y : Cell} (hzero : y.zeroFrame = false) (hact : y.stat.act = .muted) (len : Nat) :
    (chimneyTaken len y).stat.last = .replicate 8 0 := by
  have hnow : actionNow y.stat = y.stat := by
    unfold actionNow
    rw [hact]
    exact if_neg (by rw [Bool.and_false]; exact Bool.false_ne_true)
  rw [chimneyTaken_last hzero, hnow, actionOut, hact]

theorem chimneyTaken_live {y : Cell} (hzero : y.zeroFrame = false) (hact : y.stat.act = .live) (hfault : y.stat.newFault = false)
    (len : Nat) : (chimneyTaken len y).stat.last = (landTo len y).regs.outb := by
  have hnow : actionNow y.stat = y.stat := by
    unfold actionNow
    rw [hfault]
    exact if_neg Bool.false_ne_true
  rw [chimneyTaken_last hzero, hnow, actionOut, hact]

/-! ### The columns of the outputs -/

/-- A cell but for the notice of a role change to none. -/
def noneRest (y : Cell) : Cell := { y with noneDone := false }

theorem noneRest_noneDone (k c : Fin 32) (s : State) : noneRest (cellAt (noneDone s k) c) = noneRest (cellAt s c) := by
  unfold noneDone
  split
  · change noneRest (cellAt (modCell k _ s) c) = _
    by_cases h : k = c
    · subst h
      rw [cellAt_modCell_same]
      rfl
    · rw [cellAt_modCell_of_ne h]
  · rfl

theorem combs_noneDone (s : State) (k : Fin 32) : (noneDone s k).hive.combs = s.hive.combs := by
  unfold noneDone
  split <;> rfl

/-- A column of the cells' outputs. -/
def outColumn (d : Dom) (s : State) (k : Nat) : F32 :=
  match (cellsOf d s).find? (fun c => combSlot c s == k / 8) with
  | some c => screened (vgetD (cellAt s c).stat.last (k % 8) 0)
  | none => 0

theorem chimneyCols_eq (d : Dom) (s : State) : chimneyCols d s =
    ((List.range (extCols d)).map (fun k => (extCols d + k, outColumn d s k))).filter (fun e => e.2 ≠ 0) := by
  refine congrArg (List.filter _) (List.map_congr_left fun k _ => ?_)
  unfold outColumn
  generalize (cellsOf d s).find? (fun c => combSlot c s == k / 8) = found
  cases found <;> rfl

theorem sget_filled (base : Nat) (f : Nat → F32) (l : List Nat) (k : Nat) :
    sget 0 ((l.map (fun k => (base + k, f k))).filter (fun e => e.2 ≠ 0)) (base + k) = if k ∈ l then f k else 0 := by
  induction l with
  | nil => rfl
  | cons a l ih =>
    rw [List.map_cons]
    by_cases hzero : f a = 0
    · rw [List.filter_cons_of_neg (by simp [hzero]), ih]
      by_cases hk : k = a
      · subst hk
        rw [if_pos List.mem_cons_self, hzero, ite_self]
      · simp [hk]
    · rw [List.filter_cons_of_pos (by simpa using hzero), sget, ih]
      by_cases hk : k = a
      · subst hk
        rw [if_pos rfl, if_pos List.mem_cons_self]
      · simp [hk]

theorem sget_chimneyCols {d : Dom} {k : Nat} (hk : k < extCols d) (s : State) :
    sget 0 (chimneyCols d s) (extCols d + k) = outColumn d s k := by
  rw [chimneyCols_eq, sget_filled, if_pos (List.mem_range.mpr hk)]

theorem outColumn_congr {s t : State} (h : ∀ c, noneRest (cellAt t c) = noneRest (cellAt s c)) (d : Dom) (k : Nat) :
    outColumn d t k = outColumn d s k := by
  have hrole (c : Fin 32) : (cellAt t c).role = (cellAt s c).role := by
    have hc := congrArg Cell.role (h c)
    exact hc
  have hstat (c : Fin 32) : (cellAt t c).stat = (cellAt s c).stat := by
    have hc := congrArg Cell.stat (h c)
    exact hc
  unfold outColumn cellsOf combSlot cellDom
  simp only [hrole, hstat]

theorem exec_chimneyPhase {d : Dom} {s : State} (hphases : hivePhases s = true) (hhere : phaseHere d s = true) :
    exec (.chimneyPhase d) s = .next (
      let s := (cellsOf d s).foldl chimneyOne s
      let s := modComb d (fun c => { c with cellOut := chimneyCols d s }) s
      if d = .M then (List.finRange 32).foldl noneDone s else s) := by
  change execChimneyPhase d s = _
  unfold execChimneyPhase
  rw [hphases, hhere]
  rfl

theorem chimneyPhase_outputs {d : Dom} {c : Fin 32} {s : State} (hphases : hivePhases s = true)
    (hhere : phaseHere d s = true) (hdom : cellDom (cellAt s c) = some d) :
    ∃ t, exec (.chimneyPhase d) s = .next t ∧
      ((cellAt s c).zeroFrame = true →
        (cellAt t c).zeroFrame = false ∧ (cellAt t c).stat.last = .replicate 8 0) ∧
      ((cellAt s c).zeroFrame = false → (cellAt s c).stat.act = .muted → (cellAt t c).stat.last = .replicate 8 0) ∧
      ((cellAt s c).zeroFrame = false → (cellAt s c).stat.act = .live → (cellAt s c).stat.newFault = false →
        (cellAt t c).stat.last = (landTo (winLen d s.hive.dom.m s.hive.dom.d) (cellAt s c)).regs.outb) ∧
      ∀ k : Nat, k < extCols d → sget 0 (combAt t d).cellOut (extCols d + k) = outColumn d t k := by
  obtain ⟨v, hv⟩ : ∃ v, v = (cellsOf d s).foldl chimneyOne s := ⟨_, rfl⟩
  obtain ⟨u, hu⟩ : ∃ u, u = modComb d (fun c => { c with cellOut := chimneyCols d v }) v := ⟨_, rfl⟩
  obtain ⟨t, ht⟩ : ∃ t, t = if d = .M then (List.finRange 32).foldl noneDone u else u := ⟨_, rfl⟩
  have hexec : exec (.chimneyPhase d) s = .next t := by
    rw [exec_chimneyPhase hphases hhere, ht, hu, hv]
  have hcells (k : Fin 32) : noneRest (cellAt t k) = noneRest (cellAt v k) := by
    have huv : cellAt u k = cellAt v k := by rw [hu]; rfl
    rw [ht]
    split
    · exact (foldl_keeps_eq (fun w => noneRest (cellAt w k)) (fun _ _ => noneRest_noneDone ..) _ u).trans (congrArg _ huv)
    · exact congrArg _ huv
  have hcombs : t.hive.combs = u.hive.combs := by
    rw [ht]
    split
    · exact foldl_keeps_eq (fun w : State => w.hive.combs) combs_noneDone _ u
    · rfl
  have hspark := sparkRest_chimneys hdom
  rw [← hv] at hspark
  have hlast : (cellAt t c).stat.last =
      (chimneyTaken (winLen d s.hive.dom.m s.hive.dom.d) (cellAt s c)).stat.last := by
    have hnone := congrArg (fun y : Cell => y.stat.last) (hcells c)
    have hshown := congrArg (fun y : Cell => y.stat.last) hspark
    exact hnone.trans hshown
  have hframe : (cellAt t c).zeroFrame =
      (chimneyTaken (winLen d s.hive.dom.m s.hive.dom.d) (cellAt s c)).zeroFrame := by
    have hnone := congrArg Cell.zeroFrame (hcells c)
    have hshown := congrArg Cell.zeroFrame hspark
    exact hnone.trans hshown
  refine ⟨t, hexec, fun hzero => ?_, fun hzero hact => ?_, fun hzero hact hfault => ?_, fun k hk => ?_⟩
  · rw [hlast, hframe]
    exact chimneyTaken_zeroFrame hzero _
  · rw [hlast, chimneyTaken_muted hzero hact]
  · rw [hlast, chimneyTaken_live hzero hact hfault]
  · have hcomb : (combAt t d).cellOut = chimneyCols d v := by
      have hsame : combAt t d = combAt u d := congrArg (fun w => w[domIx d]) hcombs
      rw [hsame, hu, combAt_modComb_same]
    rw [hcomb, sget_chimneyCols hk, outColumn_congr hcells]

/-! ### The Outlet -/

theorem exec_outletPhase {d : Dom} {ups : List Upset} {s : State} (hruns : hiveRuns (strike ups s) = true)
    (hhere : phaseHere d (strike ups s) = true) (hpaused : hivePaused (strike ups s) = false) :
    exec (.outletPhase d ups) s = .next (
      let s := combErrors d 0 (extCols d) (strike ups s)
      let vs := sinkVals d s
      outletBridges d vs (outletOut d vs s)) := by
  change execOutletPhase d ups s = _
  unfold execOutletPhase
  dsimp only
  rw [hruns, hhere, hpaused]
  rfl

theorem exec_outletPhase_paused {d : Dom} {ups : List Upset} {s : State} (hruns : hiveRuns (strike ups s) = true)
    (hhere : phaseHere d (strike ups s) = true) (hpaused : hivePaused (strike ups s) = true) :
    exec (.outletPhase d ups) s = .next (outletOut d [] (strike ups s)) := by
  change execOutletPhase d ups s = _
  unfold execOutletPhase
  dsimp only
  rw [hruns, hhere, hpaused]
  rfl

theorem sinkList_nil (cls n : Nat) (index : Nat → Nat) : sinkList [] cls n index = List.replicate n 0 :=
  (List.map_const ..).trans (by rw [List.length_range])

theorem vgetD_putEntry (n : Nat) (vals : List F32) (b : SlotBuf) :
    vgetD (putEntry n vals b) (n % 4) none = some ⟨true, BitVec.ofNat 16 n, vals⟩ :=
  vgetD_vmodN_same _ (Nat.mod_lt _ (by decide)) ..

theorem getElem_vmap {α : Type} {n : Nat} (v : Vector α n) (f : Fin n → α → α) (i : Fin n) : (vmap v f)[i] = f i v[i] := by
  simp [vmap]

theorem buf_outletM (n : Nat) (vs : List (ChanId × F32)) (s : State) (p : Fin 8) :
    vgetD (outletM n vs s).tx[p].buf (n % 4) none =
      some ⟨true, BitVec.ofNat 16 n, sinkList vs 0x02 32 (fun k => 32 * p.val + k)⟩ := by
  have hside := getElem_vmap s.tx (fun p y => { y with
    buf := putEntry n (sinkList vs 0x02 32 (fun k => 32 * p.val + k)) y.buf }) p
  exact (congrArg (fun y : PortSide => vgetD y.buf (n % 4) none) hside).trans (vgetD_putEntry ..)

theorem buf_outletF (n : Nat) (vs : List (ChanId × F32)) (s : State) (x : Fin 2) :
    vgetD (outletF n vs s).hw[x].outF (n % 4) none =
      some ⟨true, BitVec.ofNat 16 n, sinkList vs (0x04 + 2 * x.val) 64 id⟩ := by
  have hchain := getElem_vmap s.hw (fun x c => { c with
    outF := putEntry n (sinkList vs (0x04 + 2 * x.val) 64 id) c.outF }) x
  exact (congrArg (fun c : Chain => vgetD c.outF (n % 4) none) hchain).trans (vgetD_putEntry ..)

theorem buf_outletS (n : Nat) (vs : List (ChanId × F32)) (s : State) (x : Fin 2) :
    vgetD (outletS n vs s).hw[x].outS (n % 4) none =
      some ⟨true, BitVec.ofNat 16 n, sinkList vs (0x04 + 2 * x.val) 64 id⟩ := by
  have hchain := getElem_vmap s.hw (fun x c => { c with
    outS := putEntry n (sinkList vs (0x04 + 2 * x.val) 64 id) c.outS }) x
  exact (congrArg (fun c : Chain => vgetD c.outS (n % 4) none) hchain).trans (vgetD_putEntry ..)

theorem sinkList_getD {n k : Nat} (hk : k < n) (vs : List (ChanId × F32)) (cls : Nat) (index : Nat → Nat) :
    (sinkList vs cls n index).getD k 0 =
      ((vs.find? (fun e => e.1 = BitVec.ofNat 16 (cls * 2048 + index k))).map (·.2)).getD 0 := by
  simp only [sinkList, List.getD_eq_getElem?_getD, List.getElem?_map, List.getElem?_range hk, Option.map_some,
    Option.getD_some]
  split
  next e he => rw [he]; rfl
  next he => rw [he]; rfl

theorem sinkVals_find {d : Dom} {s : State} {i : ChanId} {col : Nat} (hfactor : outFactor s.stove.frame s = 0x3F800000)
    (hcol : (((combAt s d).outlet.filter (fun x => !(combAt s d).outDead.contains x.1)).find? (fun x => x.2 = i)).map (·.1) =
      some col) : ((sinkVals d s).find? (fun e => e.1 = i)).map (·.2) =
        some (sinkSum d (combAt s d).nodes (sourceVal d (domFrame d s) s) col) := by
  obtain ⟨x, hx, rfl⟩ := Option.map_eq_some_iff.mp hcol
  unfold sinkVals
  dsimp only
  rw [List.find?_map, hfactor]
  have hfind : ((combAt s d).outlet.filter (fun e => !(combAt s d).outDead.contains e.1)).find?
      ((fun e : ChanId × F32 => decide (e.1 = i)) ∘ fun e => (e.2,
        if (0x3F800000 : F32) = 0x3F800000 then sinkSum d (combAt s d).nodes (sourceVal d (domFrame d s) s) e.1
        else f32Mul (sinkSum d (combAt s d).nodes (sourceVal d (domFrame d s) s) e.1) 0x3F800000)) = some x := hx
  rw [hfind]
  rfl

theorem outlet_sums {p : Fin 8} {s : State} (hruns : hiveRuns s = true) (hhere : phaseHere .M s = true)
    (hpaused : hivePaused s = false) (hups : s.care.upsets = []) (hfactor : outFactor s.stove.frame s = 0x3F800000) :
    ∃ t e, exec (.outletPhase .M []) s = .next t ∧ vgetD t.tx[p].buf (s.stove.frame % 4) none = some e ∧
      e.complete = true ∧ e.tag = BitVec.ofNat 16 s.stove.frame ∧ e.vals.length = 32 ∧
      ∀ (k col : Nat), k < 32 → (((combAt s .M).outlet.filter (fun x => !(combAt s .M).outDead.contains x.1)).find?
          (fun x => x.2 = BitVec.ofNat 16 (0x02 * 2048 + (32 * p.val + k)))).map (·.1) = some col →
        e.vals.getD k 0 = sinkSum .M (combAt s .M).nodes (sourceVal .M s.stove.frame s) col := by
  have herrs : combErrors .M 0 (extCols .M) s = s := by
    unfold combErrors
    rw [hups]
    rfl
  have hexec := exec_outletPhase (ups := []) (d := .M) hruns hhere hpaused
  dsimp only [strike, List.foldl_nil] at hexec
  rw [herrs] at hexec
  refine ⟨_, _, hexec, buf_outletM s.stove.frame (sinkVals .M s) s p, rfl, rfl, ?_, fun k col hk hcol => ?_⟩
  · exact (List.length_map ..).trans List.length_range
  · rw [sinkList_getD hk, sinkVals_find hfactor hcol]
    rfl

/-- In a state `t`, the outbound entry of the present frame of a domain carries +0.0 only (R186). -/
def ZeroEntry (d : Dom) (p : Fin 8) (x : Fin 2) (s t : State) : Prop :=
  match d with
  | .M => vgetD t.tx[p].buf (s.stove.frame % 4) none =
      some ⟨true, BitVec.ofNat 16 s.stove.frame, List.replicate 32 0⟩ ∧ t.hive.capture = List.replicate 64 0
  | .F => vgetD t.hw[x].outF (domFrame .F s % 4) none =
      some ⟨true, BitVec.ofNat 16 (domFrame .F s), List.replicate 64 0⟩ ∧ t.hive.belLL = List.replicate 32 0
  | .S => vgetD t.hw[x].outS (domFrame .S s % 4) none =
      some ⟨true, BitVec.ofNat 16 (domFrame .S s), List.replicate 64 0⟩

theorem outlet_paused {d : Dom} {ups : List Upset} (p : Fin 8) (x : Fin 2) {s : State} (hruns : hiveRuns s = true)
    (hhere : phaseHere d s = true) (hpaused : hivePaused s = true) :
    ∃ t, exec (.outletPhase d ups) s = .next t ∧ ZeroEntry d p x s t := by
  have hruns' : hiveRuns (strike ups s) = true := by rw [strike_care]; exact hruns
  have hhere' : phaseHere d (strike ups s) = true := by rw [strike_care]; exact hhere
  have hpaused' : hivePaused (strike ups s) = true := by rw [strike_care]; exact hpaused
  have hframe (e : Dom) : domFrame e (strike ups s) = domFrame e s := by rw [strike_care]; rfl
  refine ⟨_, exec_outletPhase_paused hruns' hhere' hpaused', ?_⟩
  cases d with
  | M =>
    dsimp only [outletOut]
    rw [hframe]
    refine ⟨(buf_outletM s.stove.frame [] (strike ups s) p).trans ?_, sinkList_nil 0x0B 64 id⟩
    rw [sinkList_nil]
  | F =>
    dsimp only [outletOut]
    rw [hframe]
    refine ⟨(buf_outletF (domFrame .F s) [] (strike ups s) x).trans ?_, sinkList_nil 0x07 32 (fun k => 2 * k + 1)⟩
    rw [sinkList_nil]
  | S =>
    dsimp only [outletOut]
    rw [hframe]
    refine (buf_outletS (domFrame .S s) [] (strike ups s) x).trans ?_
    rw [sinkList_nil]

/-- Settles O42: a cell's slot leaves the other cells and the rates, so the cycles of a window count up slot by slot; each phase
then makes of a cell, or of an outbound entry, what its own slot of the phase does. -/
theorem hivePhasesComplete : Obligations.HivePhasesComplete := by
  unfold Obligations.HivePhasesComplete
  refine ⟨?window, ?cells, ?chimney, ?outputs, ?outlet, ?sums, ?paused⟩
  case window => exact fun d n ups s => exec_cellWindow
  case cells => exact fun d n ups c s => cellWindow_cycles
  case chimney => exact fun d s => exec_chimneyPhase
  case outputs => exact fun d c s => chimneyPhase_outputs
  case outlet => exact fun d ups s => exec_outletPhase
  case sums => exact fun p s => outlet_sums
  case paused =>
    intro d ups p x s hruns hhere hpaused
    obtain ⟨t, ht, hzero⟩ := outlet_paused (ups := ups) p x hruns hhere hpaused
    refine ⟨t, ht, ?_⟩
    cases d <;> exact hzero

end Sys2Proof.Machine
end

section
/-! ## The Stoker's timed events -/

namespace Sys2Proof.Machine

/-! ### The ports learn of a change -/

/-- The Stove, the occurrences of event `n`, and what the Hearth records of the device. -/
def notifyPart (n : Fin 64) (s : State) : Stove × Nat × HearthUnits × FaultRec × PowerSt :=
  (s.stove, s.evt.acc[n], s.hearth, s.flt, s.pow)

section
variable {n : Fin 64} (hn : n.val < 24) (p : Fin 8) (d : Side) (s : State)

theorem notifyPart_modSide (f : PortSide → PortSide) : notifyPart n (modSide p d f s) = notifyPart n s := by
  cases d <;> rfl

include hn

theorem notifyPart_portFlag (b : Nat) : notifyPart n (portFlag p d b s) = notifyPart n s := by
  have hraise (src : Nat) (w : Word) (t : State) : notifyPart n (raiseFrom src (24 + p.val) w t) = notifyPart n t :=
    Prod.ext rfl (Prod.ext (acc_raise_of_ne (n := 24 + p.val) w t (by omega)) rfl)
  unfold portFlag
  dsimp only
  split
  · exact notifyPart_modSide ..
  · exact (hraise ..).trans (notifyPart_modSide ..)

theorem notifyPart_rejoin : notifyPart n (rejoin p d s) = notifyPart n s := by
  have halone : notifyPart n (alignAlone p d s) = notifyPart n s := by
    unfold alignAlone
    dsimp only
    split
    · exact (notifyPart_modSide ..).trans rfl
    · exact notifyPart_modSide ..
  unfold rejoin
  dsimp only
  split
  · split
    · split
      · rfl
      · exact (notifyPart_modSide ..).trans (notifyPart_portFlag hn ..)
    · exact halone
  · exact halone

theorem notifyPart_restartSide (tail : Bool) (k : Nat) : notifyPart n (restartSide p d tail k s) = notifyPart n s := by
  have htail : notifyPart n (startTail p d k s) = notifyPart n s := by
    unfold startTail
    split
    · rfl
    · cases d
      · dsimp only [writeTail]
        split
        · split
          · exact (notifyPart_modSide ..).trans (notifyPart_modSide ..)
          · exact notifyPart_modSide ..
        · exact notifyPart_modSide ..
      · exact notifyPart_modSide ..
  simp only [restartSide, apply_ite (notifyPart n), notifyPart_modSide, notifyPart_rejoin hn, htail, ite_self]

theorem notifyPart_portsNotify : notifyPart n (portsNotify s) = notifyPart n s := by
  refine foldl_keeps_eq (notifyPart n) (fun t x => ?_) _ s
  dsimp only
  split
  · exact notifyPart_restartSide hn ..
  · rfl

end

theorem portsNotify_stove (s : State) : (portsNotify s).stove = s.stove :=
  congrArg Prod.fst (notifyPart_portsNotify (n := 0) (by decide) s)

/-! ### What the choice of a reference leaves -/

/-- A reference but for its wait-to-restore. -/
def refRest (r : Ref) : Ref := { r with wtr := false, wtrLeft := 0 }

/-- The gates, the build-out, the lock and the references of the Stove, the occurrences of event `n`, and what the Hearth records
of the device. -/
def gatePart (n : Fin 64) (s : State) : (Nat × List (Option Int) × Rat × Bool × Vector Ref 13) × Nat × HearthUnits × FaultRec × PowerSt :=
  ((s.stove.gate, s.stove.dcoGates, s.stove.buildOut, s.stove.lock, s.stove.refs.map refRest), s.evt.acc[n], s.hearth, s.flt,
    s.pow)

section
variable {n : Fin 64}

theorem gatePart_of_notifyPart {s t : State} (h : notifyPart n t = notifyPart n s) : gatePart n t = gatePart n s :=
  congrArg (fun x : Stove × Nat × HearthUnits × FaultRec × PowerSt =>
    ((x.1.gate, x.1.dcoGates, x.1.buildOut, x.1.lock, x.1.refs.map refRest), x.2)) h

theorem map_vmap_of {α β : Type} {k : Nat} {f : α → β} {g : Fin k → α → α} (h : ∀ i x, f (g i x) = f x) (v : Vector α k) :
    (vmap v g).map f = v.map f := by
  ext i hi
  simp [vmap, h]

theorem gatePart_wtrStop (s : State) : gatePart n (wtrStop s) = gatePart n s := by
  have hrefs := map_vmap_of (f := refRest) (g := fun i r =>
    if r.wtr && !restores i s then { r with wtr := false, wtrLeft := 0 } else r) (fun i r => by split <;> rfl) s.stove.refs
  exact congrArg (fun v => ((s.stove.gate, s.stove.dcoGates, s.stove.buildOut, s.stove.lock, v), s.evt.acc[n], s.hearth, s.flt,
    s.pow)) hrefs

theorem gatePart_wtrStep (s : State) : gatePart n (wtrStep s) = gatePart n s := by
  have hrefs := map_vmap_of (f := refRest) (g := fun i r =>
    if restores i s then
      if r.wtr then { r with wtrLeft := r.wtrLeft - 1 } else { r with wtr := true, wtrLeft := if s.stove.compat then 5 else 10 }
    else { r with wtr := false, wtrLeft := 0 }) (fun i r => by
      split
      · split <;> rfl
      · rfl) s.stove.refs
  exact congrArg (fun v => ((s.stove.gate, s.stove.dcoGates, s.stove.buildOut, s.stove.lock, v), s.evt.acc[n], s.hearth, s.flt,
    s.pow)) hrefs

section
variable (hn : n.val < 24)
include hn

theorem gatePart_portsNotify (s : State) : gatePart n (portsNotify s) = gatePart n s :=
  gatePart_of_notifyPart (notifyPart_portsNotify hn s)

theorem gatePart_toFreeRun (s : State) : gatePart n (toFreeRun s) = gatePart n s :=
  (gatePart_portsNotify hn _).trans rfl

theorem gatePart_selectByList (s : State) : gatePart n (selectByList s) = gatePart n s := by
  unfold selectByList
  refine Eq.trans ?_ (gatePart_wtrStop s)
  generalize wtrStop s = u
  dsimp only
  split
  · split <;> rfl
  · split
    · exact gatePart_toFreeRun hn _
    · split
      · split <;> rfl
      · rfl
  · split
    · exact gatePart_toFreeRun hn _
    · split <;> rfl
  · rfl

variable (h17 : n ≠ 17)
include h17

theorem gatePart_enterEmber (s : State) : gatePart n (enterEmber s) = gatePart n s := by
  have hraise (d : Word) : gatePart n (raise 17 d s) = gatePart n s :=
    Prod.ext rfl (Prod.ext (acc_raise_of_ne (n := 17) d s (fun h => h17 (Fin.ext h.symm))) rfl)
  unfold enterEmber
  dsimp only
  rw [gatePart_portsNotify hn, ← hraise (n2w ((s.stove.sel.map (·.val)).getD 15) 0)]
  generalize raise 17 (n2w ((s.stove.sel.map (·.val)).getD 15) 0) s = u
  rfl

theorem gatePart_noTarget (s : State) : gatePart n (noTarget s) = gatePart n s := by
  unfold noTarget
  split
  · rfl
  · split
    · exact gatePart_enterEmber hn h17 s
    · rfl

theorem gatePart_selGone (g : Nat) (s : State) : gatePart n (selGone g s) = gatePart n s := by
  unfold selGone
  split
  · dsimp only
    split
    · rfl
    · exact (gatePart_enterEmber hn h17 _).trans rfl
  · dsimp only
    split
    · rfl
    · exact (gatePart_enterEmber hn h17 _).trans rfl
  · rfl
  · rfl

theorem gatePart_tgtGone (s : State) : gatePart n (tgtGone s) = gatePart n s := by
  unfold tgtGone
  split
  · split
    · rfl
    · exact gatePart_noTarget hn h17 s
  · rfl

theorem gatePart_refsGone (is : List (Fin 13 × Nat)) (s : State) : gatePart n (refsGone is s) = gatePart n s := by
  refine foldl_keeps_eq (gatePart n) (fun t g => ?_) is s
  split
  · exact gatePart_selGone hn h17 ..
  · split
    · exact gatePart_tgtGone hn h17 _
    · rfl

end

theorem gatePart_betterTarget (new : List (Fin 13)) (s : State) : gatePart n (betterTarget new s) = gatePart n s := by
  unfold betterTarget
  split
  · split <;> rfl
  · rfl

end

theorem refs_of_gatePart {n : Fin 64} {s t : State} (h : gatePart n t = gatePart n s) (i : Fin 13) :
    refRest t.stove.refs[i] = refRest s.stove.refs[i] := by
  have hv := congrArg (fun x => x.1.2.2.2.2[i]) h
  simpa only [gatePart, Fin.getElem_fin, Vector.getElem_map] using hv

/-! ### Switches -/

/-- A reference that is picked is one of those asked for. -/
theorem bestRef_admits {p : Fin 13 → Bool} {s : State} {i : Fin 13} (h : bestRef p s = some i) : p i = true := by
  have hkeep (l : List (Fin 13)) : ∀ best : Option (Fin 13), (∀ k, best = some k → p k = true) →
      ∀ k, l.foldl (fun best i =>
        if p i && refRanked i s then
          match best with
          | some j => if refKey i s < refKey j s then some i else some j
          | none => some i
        else best) best = some k → p k = true := by
    induction l with
    | nil => exact fun best hb k hk => hb k hk
    | cons a l ih =>
      intro best hb
      refine ih _ fun k hk => ?_
      dsimp only at hk
      by_cases ha : (p a && refRanked a s) = true
      · rw [if_pos ha] at hk
        have hpa := (Bool.and_eq_true_iff.mp ha).1
        cases best with
        | none => exact Option.some.inj hk ▸ hpa
        | some j =>
          dsimp only at hk
          split at hk
          · exact Option.some.inj hk ▸ hpa
          · exact hb k hk
      · rw [if_neg ha] at hk
        exact hb k hk
  exact hkeep _ none (fun k hk => nomatch hk) i h

theorem switchTarget_not_dropped {s : State} {t : Fin 13} (h : t.val ∈ s.stove.dropped) : switchTarget s ≠ some t := by
  intro ht
  have hadmits := bestRef_admits ht
  simp [h] at hadmits

theorem waitToRestoreExpiry_pends {k r : Fin 13} {s : State} (hruns : s.stove.running = true)
    (hwtr : s.stove.refs[r].wtr = true) (hleft : s.stove.refs[r].wtrLeft = 0) (hrev : s.stove.revert = true)
    (hst : s.stove.st = .locked) (hpends : s.stove.switchPends = false) (hsel : s.stove.sel = some k)
    (hrank : outranks r k s = true) : ∃ t, exec (.waitToRestoreExpiry r) s = .next t ∧ t.stove.switchPends = true ∧
      t.stove.tgt = switchTarget s ∧ t.stove.sel = some k ∧ t = { s with stove := t.stove } := by
  have hexec : exec (.waitToRestoreExpiry r) s = .next (pendSwitch s) := by
    change execWaitToRestoreExpiry r s = _
    unfold execWaitToRestoreExpiry
    dsimp only
    rw [hruns, hwtr, hleft, hrev, hst, hpends, hsel]
    exact (if_pos (by decide)).trans (if_pos hrank)
  exact ⟨_, hexec, rfl, rfl, hsel, rfl⟩

theorem qualifyEnd_passes {f p : Int} {t : Fin 13} {s : State} (hst : s.stove.st = .qualify) (hcmps : 16 ≤ s.stove.cmps)
    (htgt : s.stove.tgt = some t) (hmiss : s.stove.qMiss = false)
    (htol : ((max f (-f) : Int) : Rat) ≤ f32Q s.stove.refs[t].tol * 1000) :
    exec (.qualifyEnd (some f) p) s = .next { s with stove := { s.stove with
      st := .move, cmps := 0, moveFrom := s.stove.buildOut, buildOut := phaseNs p s
      dco := if t = 12 then s.stove.dco else retune s.stove.dco f, hitFrom := none } } := by
  have hgo : (s.stove.st == .qualify && decide (16 ≤ s.stove.cmps)) = true := by rw [hst, decide_eq_true hcmps]; rfl
  change execQualifyEnd (some f) p s = _
  refine (if_pos hgo).trans ?_
  rw [htgt]
  refine if_pos ?_
  rw [hmiss]
  exact decide_eq_true htol

theorem noTarget_leaves (s : State) : (noTarget s).stove.st ≠ .qualify ∧ (noTarget s).stove.tgt = none := by
  unfold noTarget
  split
  · exact ⟨StkrSt.noConfusion, rfl⟩
  · split
    · unfold enterEmber
      rw [portsNotify_stove]
      exact ⟨StkrSt.noConfusion, rfl⟩
    · exact ⟨StkrSt.noConfusion, rfl⟩

theorem qualifyEnd_drops {freq : Option Int} {p : Int} {t : Fin 13} {s : State} (hst : s.stove.st = .qualify)
    (hcmps : 16 ≤ s.stove.cmps) (htgt : s.stove.tgt = some t) (hmiss : s.stove.qMiss = true) :
    ∃ u, exec (.qualifyEnd freq p) s = .next u ∧ u.stove.st ≠ .qualify ∧ u.stove.buildOut = s.stove.buildOut ∧
      u.stove.tgt ≠ some t := by
  obtain ⟨v, hv⟩ : ∃ v, v = modStove (fun x => { x with
    dropped := t.val :: x.dropped, st := if x.inEmber then .ember else .locked }) s := ⟨_, rfl⟩
  have hexec : exec (.qualifyEnd freq p) s =
      if (switchTarget v).isSome then .next (pendSwitch v) else .next (noTarget v) := by
    have hgo : (s.stove.st == .qualify && decide (16 ≤ s.stove.cmps)) = true := by rw [hst, decide_eq_true hcmps]; rfl
    change execQualifyEnd freq p s = _
    refine (if_pos hgo).trans ?_
    rw [htgt]
    exact (if_neg (by rw [hmiss]; exact Bool.false_ne_true)).trans (by rw [hv])
  have hvst : v.stove.st ≠ .qualify := by
    rw [hv]
    change (if s.stove.inEmber = true then StkrSt.ember else StkrSt.locked) ≠ .qualify
    split <;> exact StkrSt.noConfusion
  have hbuild : v.stove.buildOut = s.stove.buildOut := by rw [hv]; rfl
  have hdropped : t.val ∈ v.stove.dropped := by rw [hv]; exact List.mem_cons_self
  clear hv
  by_cases htarget : (switchTarget v).isSome
  · exact ⟨_, hexec.trans (if_pos htarget), hvst, hbuild, switchTarget_not_dropped hdropped⟩
  · obtain ⟨hleft, hnone⟩ := noTarget_leaves v
    have hkept : (noTarget v).stove.buildOut = v.stove.buildOut :=
      congrArg (fun x => x.1.2.2.1) (gatePart_noTarget (n := 0) (by decide) (by decide) v)
    exact ⟨_, hexec.trans (if_neg htarget), hleft, hkept.trans hbuild, by rw [hnone]; exact (Option.some_ne_none t).symm⟩

/-- The Stove once a move ends at `t` (R261, R268, R275). -/
def movedTo (t : Fin 13) (x : Stove) : Stove :=
  { x with
    st := .settle, sel := some t, inEmber := false, holding := false, switches := stick 255 x.switches
    cmps := 0, inWin := 0, outWin := 0, dropped := []
    err := (x.tgtErr.map (· - x.buildOut)).getD 0, hitFrom := x.tgtHit.map (fun h => (h.1 - x.buildOut, h.2))
    tgtErr := none, tgtHit := none
    refs := x.refs.map (fun r => { r with freeze := none, calm := 0 })
    sw := if t = 12 then { x.sw with cur := x.dco, ofs := BitVec.ofInt 32 x.dco } else x.sw }

theorem refQual_movedTo {t : Fin 13} {s u : State} (hstove : u.stove = movedTo t s.stove) (hhearth : u.hearth = s.hearth) :
    refQual t u = refQual t s := by
  unfold refQual
  rw [hstove, hhearth]
  simp [movedTo]

theorem moveEnd_settles {t : Fin 13} {s : State} (hst : s.stove.st = .move) (hcmps : 1 ≤ s.stove.cmps)
    (htgt : s.stove.tgt = some t) (hqual : refQual t s = true) : ∃ u, exec .moveEnd s = .next u ∧
      u.stove.st = .settle ∧ u.stove.sel = some t ∧ u.stove.inEmber = false ∧
      u.stove.switches = stick 255 s.stove.switches ∧ u.evt.acc[16] = stick 65535 s.evt.acc[16] := by
  obtain ⟨v, hv⟩ : ∃ v, v = raiseIf s.stove.inEmber 18 (n2w t.val 0) (buildOutEvt (s.stove.buildOut - s.stove.moveFrom)
    (raise 16 (n2w t.val 4 ||| n2w ((s.stove.sel.map (·.val)).getD 15) 0) s)) := ⟨_, rfl⟩
  have hvstove : v.stove = s.stove := by
    rw [hv]
    unfold raiseIf
    split <;> rfl
  have hvhearth : v.hearth = s.hearth := by
    rw [hv]
    unfold raiseIf
    split <;> rfl
  have hvacc : v.evt.acc[(16 : Fin 64)] = stick 65535 s.evt.acc[(16 : Fin 64)] := by
    rw [hv]
    unfold raiseIf buildOutEvt
    split
    · exact (acc_raise_of_ne (k := 16) _ _ (by decide)).trans
        ((acc_raise_of_ne (k := 16) _ _ (by decide)).trans (acc_raise_same 16 ..))
    · exact (acc_raise_of_ne (k := 16) _ _ (by decide)).trans (acc_raise_same 16 ..)
  obtain ⟨u, hu⟩ : ∃ u, u = portsNotify (modStove (movedTo t) v) := ⟨_, rfl⟩
  have hexec : exec .moveEnd s = .next (if refQual t u then u else selGone (lossOf t u) u) := by
    have hgo : (s.stove.st == .move && decide (1 ≤ s.stove.cmps)) = true := by rw [hst, decide_eq_true hcmps]; rfl
    rw [hu, hv]
    change execMoveEnd s = _
    refine (if_pos hgo).trans ?_
    rw [htgt]
    rfl
  have hpart := notifyPart_portsNotify (n := 16) (by decide) (modStove (movedTo t) v)
  rw [← hu] at hpart
  have hstove : u.stove = movedTo t s.stove := (congrArg Prod.fst hpart).trans (congrArg (movedTo t) hvstove)
  have hhearth : u.hearth = s.hearth := (congrArg (fun x => x.2.2.1) hpart).trans hvhearth
  have hacc : u.evt.acc[(16 : Fin 64)] = stick 65535 s.evt.acc[(16 : Fin 64)] :=
    (congrArg (fun x => x.2.1) hpart).trans hvacc
  have hqual' := (refQual_movedTo hstove hhearth).trans hqual
  rw [if_pos hqual'] at hexec
  refine ⟨u, hexec, ?_, ?_, ?_, ?_, hacc⟩ <;> rw [hstove] <;> rfl

/-! ### Locks -/

theorem lockLoss_effect {s : State} (cause : Nat) (h : s.stove.relock = false) :
    (lockLoss cause s).stove.lock = false ∧ (lockLoss cause s).stove.relock = true ∧
    (lockLoss cause s).stove.st = .acquire ∧ (lockLoss cause s).stove.acq = none ∧
    (lockLoss cause s).stove.dco = s.stove.dco ∧ (lockLoss cause s).bel.muteAck = false ∧
    (lockLoss cause s).evt.acc[21] = stick 65535 s.evt.acc[21] := by
  have hloss : lockLoss cause s = modStove (fun x => { x with
      lock := false, st := .acquire, relock := true, acq := none, tgt := none, switchPends := false
      dropped := [], holding := true, inEmber := false, hitFrom := none, inWin := 0, outWin := 0, cmps := 0 })
      { raise 21 (n2w cause 0) s with bel := { s.bel with muteAck := false } } := by
    unfold lockLoss
    rw [h]
    rfl
  rw [hloss]
  exact ⟨rfl, rfl, rfl, rfl, rfl, rfl, acc_raise_same 21 ..⟩

theorem lockLoss_flt (cause : Nat) (s : State) : (lockLoss cause s).flt = s.flt := by
  unfold lockLoss
  split <;> rfl

theorem settleTimeout_loses {s : State} (hst : s.stove.st = .settle) (hcmps : 8000 ≤ s.stove.cmps)
    (hrelock : s.stove.relock = false) : ∃ t, exec .settleTimeout s = .next t ∧ t.stove.lock = false ∧
      t.stove.relock = true ∧ t.stove.st = .acquire ∧ t.stove.acq = none ∧ t.stove.dco = s.stove.dco ∧
      t.bel.muteAck = false ∧ t.evt.acc[21] = stick 65535 s.evt.acc[21] :=
  ⟨_, if_pos (by rw [hst, decide_eq_true hcmps]; rfl), lockLoss_effect 0 hrelock⟩

theorem relockAcquire_acquires {s : State} (hrelock : s.stove.relock = true) (hack : s.bel.muteAck = true)
    (hacq : s.stove.acq = none) : ∃ t, exec .relockAcquire s = .next t ∧
      t.stove.acq = some ((bestRef (fun _ => true) s).getD 0) ∧ t.stove.buildOut = 0 ∧ t.stove.cmps = 0 ∧
      t = { s with stove := t.stove } :=
  ⟨_, if_pos (by rw [hrelock, hack, hacq]; rfl), rfl, rfl, rfl, rfl⟩

theorem relockAttemptTimeout_next {k : Fin 13} {s : State} (hacq : s.stove.acq = some k) (hrelock : s.stove.relock = true)
    (hst : s.stove.st = .acquire) (hcmps : 32 ≤ s.stove.cmps) :
    let u : State := { s with stove := { s.stove with dropped := k.val :: s.stove.dropped } }
    ∃ t, exec .relockAttemptTimeout s = .next t ∧ t.stove.buildOut = 0 ∧ t.stove.cmps = 0 ∧
      t = { s with stove := t.stove } ∧
      (∀ i : Fin 13, bestRef (fun i => !u.stove.dropped.contains i.val) u = some i → t.stove.acq = some i) ∧
      (bestRef (fun i => !u.stove.dropped.contains i.val) u = none → u.stove.dropped.contains 0 = false →
        t.stove.acq = some 0) := by
  intro u
  have hgo : (s.stove.relock && s.stove.st == .acquire && decide (32 ≤ s.stove.cmps)) = true := by
    rw [hrelock, hst, decide_eq_true hcmps]
    rfl
  have hexec : exec .relockAttemptTimeout s = match bestRef (fun i => !u.stove.dropped.contains i.val) u with
      | some i => .next (acquireRef i u)
      | none =>
        if u.stove.dropped.contains 0 then
          .next (acquireRef ((bestRef (fun _ => true) (modStove (fun x => { x with dropped := [] }) u)).getD 0)
            (modStove (fun x => { x with dropped := [] }) u))
        else .next (acquireRef 0 u) := by
    change execRelockAttemptTimeout s = _
    unfold execRelockAttemptTimeout
    rw [hacq]
    exact if_pos hgo
  rw [hexec]
  cases hbest : bestRef (fun i => !u.stove.dropped.contains i.val) u with
  | some i => exact ⟨_, rfl, rfl, rfl, rfl, fun j hj => hj, fun hj => nomatch hj⟩
  | none =>
    by_cases hzero : u.stove.dropped.contains 0 = true
    · exact ⟨_, if_pos hzero, rfl, rfl, rfl, fun j hj => absurd hj.symm (Option.some_ne_none j),
        fun _ h => absurd (hzero.symm.trans h) Bool.noConfusion⟩
    · exact ⟨_, if_neg hzero, rfl, rfl, rfl, fun j hj => absurd hj.symm (Option.some_ne_none j), fun _ _ => rfl⟩

theorem stoveTickMissing_effect {s : State} (hruns : s.stove.running = true) : ∃ t, exec .stoveTickMissing s = .next t ∧
    t.flt.tick = true ∧ t.stove.lock = (s.stove.lock && s.stove.relock) ∧
    (s.stove.relock = false → t.evt.acc[21] = stick 65535 s.evt.acc[21]) ∧
    t.flt.log = (⟨0x07, s.pow.wakes, 0, logFrame s, Config.freeLong s.fresh⟩ :: s.flt.log).take 16 := by
  obtain ⟨v, hv⟩ : ∃ v, v = logFault 0x07 0 { s with flt := { s.flt with tick := true } } := ⟨_, rfl⟩
  have hstove : v.stove = s.stove := by rw [hv]; rfl
  have hacc : v.evt = s.evt := by rw [hv]; rfl
  have hexec : exec .stoveTickMissing s = .next (lockLoss 2 v) := by
    rw [hv]
    exact if_pos hruns
  refine ⟨_, hexec, ?_, ?_, fun hrelock => ?_, ?_⟩
  · rw [lockLoss_flt, hv]
    rfl
  · cases hrelock : s.stove.relock with
    | true =>
      have hsame : lockLoss 2 v = v := if_pos (by rw [hstove, hrelock])
      rw [hsame, hstove, Bool.and_true]
    | false =>
      obtain ⟨hlock, -⟩ := lockLoss_effect (s := v) 2 (by rw [hstove, hrelock])
      rw [hlock, Bool.and_false]
  · obtain ⟨-, -, -, -, -, -, hev⟩ := lockLoss_effect (s := v) 2 (by rw [hstove, hrelock])
    rw [hev, hacc]
  · rw [lockLoss_flt, hv]
    rfl

/-! ### References that go and come -/

theorem swRefWatchdog_effect {s : State} (hruns : s.stove.running = true) (hsw : s.stove.sw.enabled = true)
    (hwdog : s.stove.sw.wdog ≤ s.stove.sw.since) (hqual : s.stove.refs[12].qual = true) :
    ∃ t, exec .swRefWatchdog s = .next t ∧ t.stove.refs[12].qual = false ∧
      t.evt.acc[19] = stick 65535 s.evt.acc[19] := by
  obtain ⟨v, hv⟩ : ∃ v, v = modStove (fun x => { x with sw := { x.sw with goodGates := 0 } })
    (modRef 12 (fun r => { r with qual := false, good := 0, wtr := false, wtrLeft := 0 }) s) := ⟨_, rfl⟩
  have hexec : exec .swRefWatchdog s =
      .next (selectByList (refsGone [(12, s.stove.gate)] (raise 19 (refBit 12) v))) := by
    have hgo : (s.stove.running && s.stove.sw.enabled && decide (s.stove.sw.wdog ≤ s.stove.sw.since) &&
        s.stove.refs[12].qual) = true := by
      rw [hruns, hsw, decide_eq_true hwdog, hqual]
      rfl
    rw [hv]
    exact if_pos hgo
  have hpart := (gatePart_selectByList (n := 19) (by decide) _).trans
    (gatePart_refsGone (n := 19) (by decide) (by decide) [(12, s.stove.gate)] (raise 19 (refBit 12) v))
  have hvqual : v.stove.refs[(12 : Fin 13)].qual = false := by
    rw [hv]
    simp [modStove, modRef, vmod]
  have hvacc : v.evt.acc[(19 : Fin 64)] = s.evt.acc[(19 : Fin 64)] := by rw [hv]; rfl
  refine ⟨_, hexec, ?_, ?_⟩
  · exact (congrArg Ref.qual (refs_of_gatePart hpart 12)).trans hvqual
  · exact (congrArg (fun x => x.2.1) hpart).trans ((acc_raise_same 19 ..).trans (congrArg _ hvacc))

theorem crystalStopped_effect {s : State} (hxtal : s.hearth.xtalStopped = false) (hon : s.pow.st ≠ .off) :
    ∃ t, exec .crystalStopped s = .next t ∧ t.hearth.xtalStopped = true ∧ t.flt.xtal = true ∧
    t.flt.log = (⟨0x06, s.pow.wakes, 0, logFrame s, Config.freeLong s.fresh⟩ :: s.flt.log).take 16 ∧
    (s.stove.running = true → s.stove.refs[0].listed = true ∨ s.stove.sel = some 0 →
      t.evt.acc[19] = stick 65535 s.evt.acc[19]) := by
  obtain ⟨v, hv⟩ : ∃ v, v = logFault 0x06 0 { s with
    hearth := { s.hearth with xtalStopped := true }, flt := { s.flt with xtal := true } } := ⟨_, rfl⟩
  have hstove : v.stove = s.stove := by rw [hv]; rfl
  have hhearth : v.hearth.xtalStopped = true := by rw [hv]; rfl
  have hfault : v.flt.xtal = true := by rw [hv]; rfl
  have hlog : v.flt.log = (⟨0x06, s.pow.wakes, 0, logFrame s, Config.freeLong s.fresh⟩ :: s.flt.log).take 16 := by
    rw [hv]
    rfl
  have hevt : v.evt = s.evt := by rw [hv]; rfl
  have hexec : exec .crystalStopped s = if v.stove.running && (v.stove.refs[0].listed || v.stove.sel == some 0) then
      .next (refsGone [(0, v.stove.gate)] (raise 19 1 v)) else .next v := by
    have hgo : (s.hearth.xtalStopped || s.pow.st == .off) = false := by rw [hxtal, beq_eq_false_iff_ne.mpr hon]; rfl
    change execCrystalStopped s = _
    unfold execCrystalStopped
    rw [hgo, hv]
    rfl
  clear hv
  have hpart := gatePart_refsGone (n := 19) (by decide) (by decide) [(0, v.stove.gate)] (raise 19 1 v)
  by_cases hgone : (v.stove.running && (v.stove.refs[0].listed || v.stove.sel == some 0)) = true
  · refine ⟨_, hexec.trans (if_pos hgone), ?_, ?_, ?_, fun _ _ => ?_⟩
    · exact (congrArg (fun x => x.2.2.1.xtalStopped) hpart).trans hhearth
    · exact (congrArg (fun x => x.2.2.2.1.xtal) hpart).trans hfault
    · exact (congrArg (fun x => x.2.2.2.1.log) hpart).trans hlog
    · exact (congrArg (fun x => x.2.1) hpart).trans ((acc_raise_same 19 ..).trans (by rw [hevt]))
  · refine ⟨_, hexec.trans (if_neg hgone), hhearth, hfault, hlog, fun hruns hsel => absurd ?_ hgone⟩
    rw [hstove, hruns]
    rcases hsel with h | h <;> rw [h]
    · rfl
    · exact Bool.or_true _

theorem gatePart_emberWord (n : Fin 64) (s : State) : gatePart n (emberWord s) = gatePart n s := by
  unfold emberWord
  split <;> rfl

theorem crystalResume_effect {s : State} (hxtal : s.hearth.xtalStopped = true) : ∃ t, exec .crystalResume s = .next t ∧
    t.hearth.xtalStopped = false ∧
    (s.stove.running = true → s.stove.refs[0].listed = true → t.evt.acc[20] = stick 65535 s.evt.acc[20]) := by
  obtain ⟨v, hv⟩ : ∃ v, v = emberWord { s with hearth := { s.hearth with xtalStopped := false } } := ⟨_, rfl⟩
  have hvpart := gatePart_emberWord 20 { s with hearth := { s.hearth with xtalStopped := false } }
  rw [← hv] at hvpart
  have hhearth : v.hearth.xtalStopped = false := congrArg (fun x => x.2.2.1.xtalStopped) hvpart
  have hacc : v.evt.acc[(20 : Fin 64)] = s.evt.acc[(20 : Fin 64)] := congrArg (fun x => x.2.1) hvpart
  have hshown : v.stove.running = s.stove.running ∧ v.stove.refs = s.stove.refs := by
    rw [hv]
    unfold emberWord
    split <;> exact ⟨rfl, rfl⟩
  obtain ⟨hrunning, hrefs⟩ := hshown
  have hexec : exec .crystalResume s = if v.stove.running && v.stove.refs[0].listed then
      .next (selectByList (betterTarget [0] (raise 20 1 v))) else .next v := by
    rw [hv]
    exact if_pos hxtal
  have hpart := (gatePart_selectByList (n := 20) (by decide) _).trans (gatePart_betterTarget [0] (raise 20 1 v))
  by_cases hback : (v.stove.running && v.stove.refs[0].listed) = true
  · refine ⟨_, hexec.trans (if_pos hback), ?_, fun _ _ => ?_⟩
    · exact (congrArg (fun x => x.2.2.1.xtalStopped) hpart).trans hhearth
    · exact (congrArg (fun x => x.2.1) hpart).trans ((acc_raise_same 20 ..).trans (congrArg _ hacc))
  · refine ⟨_, hexec.trans (if_neg hback), hhearth, fun hruns hlisted => absurd ?_ hback⟩
    rw [hrunning, hrefs, hruns, hlisted]
    rfl

/-! ### Gates -/

theorem raiseMask_frame (n : Nat) (d : Word) (s : State) : raiseMask n d s = { s with evt := (raiseMask n d s).evt } := by
  have h : ({ raiseMask n d s with evt := s.evt } : State) = s := by
    refine (foldl_keeps_eq (fun t : State => ({ t with evt := s.evt } : State)) (fun t k => ?_) _ s).trans rfl
    split <;> rfl
  have h' := congrArg (fun t : State => ({ t with evt := (raiseMask n d s).evt } : State)) h
  exact h'

theorem gatePart_raiseMask {n : Fin 64} {k : Nat} (h : k ≠ n.val) (d : Word) (s : State) :
    gatePart n (raiseMask k d s) = gatePart n s := by
  have hacc := acc_raiseMask_of_ne d s h
  rw [raiseMask_frame] at hacc ⊢
  exact Prod.ext rfl (Prod.ext hacc rfl)

theorem slopeStep_lastOfs (r : Ref) : (slopeStep r).lastOfs = r.lastOfs := rfl

theorem freezeStep_lastOfs (g : Nat) (r : Ref) : (freezeStep g r).lastOfs = r.lastOfs := by
  unfold freezeStep
  split
  · split
    · rfl
    · split
      · split <;> rfl
      · rfl
  · rfl

theorem gateRef_lastOfs {g : Nat} {sel : Option (Fin 13)} {w : SwLoop} {offs : List (Option Int)} {i : Fin 13} {f : Int}
    {r : Ref} (hi : i ≠ 12) (hlisted : r.listed = true) (hwhole : r.gateWhole = true) (hoff : offs.getD i.val none = some f) :
    (gateRef g false sel w offs i r).lastOfs = f := by
  have hresult : (if i = 0 then { gateResult g r f with qual := r.qual } else gateResult g r f).lastOfs = f := by
    split <;> rfl
  unfold gateRef
  rw [hlisted, hwhole, hoff, if_neg hi]
  simp only [Bool.not_false, Bool.and_self, if_true]
  split
  · rw [freezeStep_lastOfs, slopeStep_lastOfs, hresult]
  · rw [slopeStep_lastOfs, hresult]

theorem gateEnd_keeps {offs : List (Option Int)} {dco : Int} {s : State} (hruns : s.stove.running = true) :
    ∃ t, exec (.measurementGateEnd offs dco) s = .next t ∧ t.stove.gate = addF s.stove.gate 1 ∧ t.pow = s.pow ∧
      t.stove.dcoGates = ((if s.stove.gateLocked && !s.hearth.xtalStopped then some dco else none) ::
        s.stove.dcoGates).take 160 ∧
      ∀ (i : Fin 13) (f : Int), i ≠ 12 → s.stove.refs[i].listed = true → s.hearth.xtalStopped = false →
        s.stove.refs[i].gateWhole = true → offs.getD i.val none = some f → t.stove.refs[i].lastOfs = f := by
  obtain ⟨v, hv⟩ : ∃ v, v = modStove (fun x => { x with
      refs := vmap x.refs (gateRef s.stove.gate s.hearth.xtalStopped x.sel x.sw offs)
      gate := addF s.stove.gate 1
      dcoGates := ((if x.gateLocked && !s.hearth.xtalStopped then some dco else none) :: x.dcoGates).take 160
      gateLocked := x.st == .locked || x.st == .freeRun
      sw := { x.sw with inGate := false, goodGates := if x.sw.inGate then min 7 (x.sw.goodGates + 1) else 0 } }) s :=
    ⟨_, rfl⟩
  obtain ⟨off, hoff⟩ : ∃ off, off = (List.finRange 13).filter (fun i => s.stove.refs[i].qual && !v.stove.refs[i].qual) :=
    ⟨_, rfl⟩
  obtain ⟨on, hon⟩ : ∃ on, on = (List.finRange 13).filter (fun i => !s.stove.refs[i].qual && v.stove.refs[i].qual) :=
    ⟨_, rfl⟩
  obtain ⟨u, hu⟩ : ∃ u, u = wtrStep (raiseMask 20 (maskOf (on.map (·.val))) (raiseMask 19 (maskOf (off.map (·.val))) v)) :=
    ⟨_, rfl⟩
  have hexec : exec (.measurementGateEnd offs dco) s =
      .next (selectByList (betterTarget on (refsGone (off.map (fun i => (i, u.stove.refs[i].badFrom))) u))) := by
    rw [hu, hon, hoff, hv]
    change execMeasurementGateEnd offs dco s = _
    unfold execMeasurementGateEnd
    rw [hruns]
    rfl
  have hpart : gatePart 0 (selectByList (betterTarget on (refsGone (off.map (fun i => (i, u.stove.refs[i].badFrom))) u))) =
      gatePart 0 v := by
    rw [gatePart_selectByList (by decide), gatePart_betterTarget, gatePart_refsGone (by decide) (by decide), hu,
      gatePart_wtrStep, gatePart_raiseMask (by decide), gatePart_raiseMask (by decide)]
  have hgate : v.stove.gate = addF s.stove.gate 1 := by rw [hv]; rfl
  have hpow : v.pow = s.pow := by rw [hv]; rfl
  have hdco : v.stove.dcoGates = ((if s.stove.gateLocked && !s.hearth.xtalStopped then some dco else none) ::
        s.stove.dcoGates).take 160 := by rw [hv]; rfl
  have hrefs (i : Fin 13) : v.stove.refs[i] =
      gateRef s.stove.gate s.hearth.xtalStopped s.stove.sel s.stove.sw offs i s.stove.refs[i] := by
    rw [hv]
    exact getElem_vmap ..
  clear hv hu hon hoff
  refine ⟨_, hexec, (congrArg (fun x => x.1.1) hpart).trans hgate, (congrArg (fun x => x.2.2.2.2) hpart).trans hpow,
    (congrArg (fun x => x.1.2.1) hpart).trans hdco, fun i f hi hlisted hxtal hwhole hof => ?_⟩
  refine (congrArg Ref.lastOfs (refs_of_gatePart hpart i)).trans ?_
  have hkept : (refRest v.stove.refs[i]).lastOfs = v.stove.refs[i].lastOfs := rfl
  rw [hkept, hrefs, hxtal]
  exact gateRef_lastOfs hi hlisted hwhole hof

/-! ### Comparisons -/

/-- The end of a comparison instant, once the references have seen or missed their edges. -/
def comparisonEnd (x : Comparison) (follows : Option (Fin 13)) (lost : List (Fin 13)) (s : State) : State :=
  let s := match follows with
    | some i => loopStepNow i x s
    | none => s
  let s := if slews x s then modStove rezeroStep s else s
  let s := refsGone (lost.map (fun i => (i, s.stove.gate))) s
  let s := selectByList s
  modStove (fun y => { y with gateLocked := y.gateLocked && (y.st == .locked || y.st == .freeRun) }) s

theorem countTarget_idle (x : Comparison) {s : State} (hq : s.stove.st ≠ .qualify) (hm : s.stove.st ≠ .move) :
    ∃ c m, countTarget x s = modStove (fun y => { y with cmps := c, qMiss := m }) s := by
  unfold countTarget
  split
  next t _ =>
    split
    · refine ⟨min 8000 (s.stove.cmps + 1),
        s.stove.qMiss || (s.stove.st == .qualify && !x.edges.getLsbD (cmpBase t).val), ?_⟩
      exact if_neg (fun ⟨_, _, h⟩ => h.elim hq hm)
    · exact ⟨s.stove.cmps, s.stove.qMiss, rfl⟩
  next => exact ⟨s.stove.cmps, s.stove.qMiss, rfl⟩

/-- The occurrences of EV19 with the loss of these references. -/
def lossesRaised (lost : List (Fin 13)) (n : Nat) : Nat :=
  raisedTimes n ((List.range 32).countP (maskOf (lost.map (·.val))).getLsbD)

/-- A comparison instant at which no switch begins or is under way. -/
theorem exec_stoveComparison {x : Comparison} {s : State} (hruns : s.stove.running = true) (hq : s.stove.st ≠ .qualify)
    (hm : s.stove.st ≠ .move) (hpends : s.stove.switchPends = false) : ∃ c m w e,
    e.acc[(19 : Fin 64)] = lossesRaised (refsLost (heardEdges x s) s) s.evt.acc[(19 : Fin 64)] ∧
    exec (.stoveComparison x) s = .next (comparisonEnd (heardEdges x s) (loopRef s) (refsLost (heardEdges x s) s)
      { s with
        stove := { s.stove with
          cmps := c, qMiss := m, sw := w, refs := vmap s.stove.refs (refEdge (heardEdges x s)) }
        evt := e }) := by
  obtain ⟨c, m, hcount⟩ := countTarget_idle (heardEdges x s) hq hm
  obtain ⟨v, hv⟩ : ∃ v : State, v = { s with stove := { s.stove with
    cmps := c, qMiss := m, refs := vmap s.stove.refs (refEdge (heardEdges x s)) } } := ⟨_, rfl⟩
  obtain ⟨d, hd⟩ : ∃ d, d = maskOf ((refsLost (heardEdges x s) s).map (·.val)) := ⟨_, rfl⟩
  refine ⟨c, m, if (heardEdges x s).due.getLsbD 0 then swCompare (heardEdges x s) s.stove.sw else s.stove.sw,
    (raiseMask 19 d v).evt, ?_, ?_⟩
  · refine (acc_raiseMask_same 19 d v).trans ?_
    rw [hv, hd]
    rfl
  · have hraised : raiseMask 19 d v = { v with evt := (raiseMask 19 d v).evt } := raiseMask_frame ..
    generalize (raiseMask 19 d v).evt = e at hraised ⊢
    obtain ⟨w, hw⟩ : ∃ w, w = if (heardEdges x s).due.getLsbD 0 then swCompare (heardEdges x s) s.stove.sw else s.stove.sw :=
      ⟨_, rfl⟩
    rw [← hw]
    obtain ⟨z, hz⟩ : ∃ z : State, z = { s with
      stove := { s.stove with cmps := c, qMiss := m, sw := w, refs := vmap s.stove.refs (refEdge (heardEdges x s)) }
      evt := e } := ⟨_, rfl⟩
    rw [← hz]
    change execStoveComparison x s = _
    unfold execStoveComparison
    dsimp only
    rw [hruns, hpends, hcount]
    refine (if_neg Bool.false_ne_true).trans (congrArg Host.Outcome.next ?_)
    have hlost : refsLost (heardEdges x s) (if false = true then startSwitch (heardEdges x s) s
      else modStove (fun y => { y with cmps := c, qMiss := m }) s) = refsLost (heardEdges x s) s := rfl
    have hseen : modStove (fun y => { y with refs := vmap y.refs (refEdge (heardEdges x s)) })
        (if false = true then startSwitch (heardEdges x s) s else modStove (fun y => { y with cmps := c, qMiss := m }) s) = v := by
      rw [hv]
      rfl
    have hsoft : (if (heardEdges x s).due.getLsbD 0 = true then
        modStove (fun y => { y with sw := swCompare (heardEdges x s) y.sw }) { v with evt := e }
        else { v with evt := e }) = z := by
      rw [hz, hw, hv]
      split <;> rfl
    rw [hlost, ← hd, hseen, hraised, hsoft]
    clear hsoft hseen hlost hw hv hraised
    unfold comparisonEnd
    cases loopRef s <;> rfl

theorem refsGone_of_idle {is : List (Fin 13 × Nat)} {s : State} (hq : s.stove.st ≠ .qualify)
    (h : ∀ g ∈ is, s.stove.sel = some g.1 → s.stove.st ≠ .locked ∧ s.stove.st ≠ .settle) : refsGone is s = s := by
  induction is with
  | nil => rfl
  | cons g is ih =>
    have hstep : (if s.stove.sel = some g.1 then selGone g.2 s else if s.stove.tgt = some g.1 then tgtGone s else s) = s := by
      split
      next hsel =>
        obtain ⟨hlocked, hsettle⟩ := h g List.mem_cons_self hsel
        unfold selGone
        split
        next hst => exact absurd hst hlocked
        next hst => exact absurd hst hsettle
        next hst => exact absurd hst hq
        next => rfl
      next =>
        split
        · exact if_neg hq
        · rfl
    refine Eq.trans ?_ (ih fun g hg => h g (List.mem_cons_of_mem _ hg))
    exact congrArg (fun t => refsGone is t) hstep

/-- The frequency word, the build-out, the last phase error, the lock and the power state. -/
def loopPart (s : State) : Int × Rat × Rat × Bool × PowerSt :=
  (s.stove.dco, s.stove.buildOut, s.stove.err, s.stove.lock, s.pow)

theorem loopPart_selectByList (s : State) : loopPart (selectByList s) = loopPart s :=
  congrArg (fun x : State × Mem => loopPart x.1) (selRest_selectByList 0 s)

theorem le_raisedTimes (n k : Nat) : n ≤ raisedTimes n k := by
  induction k generalizing n with
  | zero => exact Nat.le_refl n
  | succ k ih =>
    rw [raisedTimes_succ]
    refine Nat.le_trans ?_ (ih _)
    unfold stick
    split
    · exact Nat.le_succ n
    · exact Nat.le_refl n

theorem stick_le_lossesRaised {lost : List (Fin 13)} {i : Fin 13} (hi : i ∈ lost) (n : Nat) :
    stick 65535 n ≤ lossesRaised lost n := by
  have hbit : (maskOf (lost.map (·.val))).getLsbD i.val = true := by
    rw [maskOf_getLsbD _ _ (by omega), decide_eq_true (List.mem_map_of_mem hi)]
  have hpos : 0 < (List.range 32).countP (maskOf (lost.map (·.val))).getLsbD :=
    List.countP_pos_iff.mpr ⟨i.val, List.mem_range.mpr (by omega), hbit⟩
  unfold lossesRaised
  obtain ⟨k, hk⟩ := Nat.exists_eq_succ_of_ne_zero (Nat.pos_iff_ne_zero.mp hpos)
  rw [hk, raisedTimes_succ]
  exact le_raisedTimes ..

theorem heardEdges_unheard {x : Comparison} {i : Nat} (h : x.edges.getLsbD i = false) (s : State) :
    (heardEdges x s).edges.getLsbD i = false := by
  unfold heardEdges
  rw [BitVec.getLsbD_and, h, Bool.false_and]

theorem mem_refsLost {x : Comparison} {s : State} {i : Fin 13} (h0 : i ≠ 0) (h12 : i ≠ 12) (hlisted : s.stove.refs[i].listed = true)
    (hdue : x.due.getLsbD i.val = true) (hedge : x.edges.getLsbD i.val = false) (hmissed : s.stove.refs[i].missed = 1) :
    i ∈ refsLost x s := by
  refine List.mem_filter.mpr ⟨List.mem_finRange i, ?_⟩
  dsimp only
  rw [hlisted, hdue, hedge, hmissed, decide_eq_true ⟨h12, h0⟩]
  rfl

theorem refEdge_lost {x : Comparison} {i : Fin 13} {r : Ref} (h0 : i ≠ 0) (h12 : i ≠ 12) (hlisted : r.listed = true)
    (hdue : x.due.getLsbD i.val = true) (hedge : x.edges.getLsbD i.val = false) (hmissed : r.missed = 1) :
    (refEdge x i r).qual = false := by
  have hseen : (x.due.getLsbD i.val && decide (i ≠ 12)) = true := by rw [hdue, decide_eq_true h12]; rfl
  have htaken : (r.listed && x.due.getLsbD i.val && decide (i ≠ 12)) = true := by
    rw [hlisted, hdue, decide_eq_true h12]
    rfl
  unfold refEdge
  dsimp only
  rw [if_pos hseen]
  refine (congrArg Ref.qual (if_pos htaken)).trans ?_
  dsimp only
  rw [hedge, hmissed, decide_eq_true h0]
  exact Bool.and_false _

theorem comparison_ember {x : Comparison} {s : State} (hruns : s.stove.running = true) (hst : s.stove.st = .ember)
    (hpends : s.stove.switchPends = false) : ∃ t, exec (.stoveComparison x) s = .next t ∧ t.stove.dco = s.stove.dco ∧
      t.stove.buildOut = s.stove.buildOut ∧ t.pow = s.pow ∧ ∀ i : Fin 13, i ≠ 0 → i ≠ 12 →
        s.stove.refs[i].listed = true → x.due.getLsbD i.val = true → x.edges.getLsbD i.val = false →
        s.stove.refs[i].missed = 1 → t.stove.refs[i].qual = false ∧ stick 65535 s.evt.acc[19] ≤ t.evt.acc[19] := by
  obtain ⟨c, m, w, e, hacc, hexec⟩ := exec_stoveComparison (x := x) hruns (by rw [hst]; decide) (by rw [hst]; decide) hpends
  obtain ⟨y, hy⟩ : ∃ y, y = heardEdges x s := ⟨_, rfl⟩
  obtain ⟨v, hv⟩ : ∃ v : State, v = { s with
    stove := { s.stove with cmps := c, qMiss := m, sw := w, refs := vmap s.stove.refs (refEdge y) }
    evt := e } := ⟨_, rfl⟩
  rw [← hy] at hexec hacc
  rw [← hv] at hexec
  have hvst : v.stove.st = .ember := by rw [hv]; exact hst
  have hend : comparisonEnd y (loopRef s) (refsLost y s) v =
      modStove (fun y => { y with gateLocked := y.gateLocked && (y.st == .locked || y.st == .freeRun) }) (selectByList v) := by
    have hfollows : loopRef s = none := by
      unfold loopRef
      rw [hst]
    have hslews : slews y v = false := by
      unfold slews
      rw [hvst]
      exact Bool.and_false _
    unfold comparisonEnd
    rw [hfollows]
    dsimp only
    rw [hslews, if_neg Bool.false_ne_true, refsGone_of_idle (by rw [hvst]; decide) (fun _ _ _ => by rw [hvst]; decide)]
  rw [hend] at hexec
  have hloop := loopPart_selectByList v
  have hpart := gatePart_selectByList (n := 19) (by decide) v
  have hsame : loopPart v = loopPart s := by rw [hv]; rfl
  have hvacc : v.evt.acc[(19 : Fin 64)] = lossesRaised (refsLost y s) s.evt.acc[(19 : Fin 64)] := by
    rw [hv]
    exact hacc
  have hvref (i : Fin 13) : v.stove.refs[i] = refEdge y i s.stove.refs[i] := by
    rw [hv]
    exact getElem_vmap ..
  clear hv hend
  have hkept := hloop.trans hsame
  refine ⟨_, hexec, congrArg Prod.fst hkept, congrArg (fun x => x.2.1) hkept, congrArg (fun x => x.2.2.2.2) hkept,
    fun i h0 h12 hlisted hdue hedge hmissed => ?_⟩
  have hheard : y.edges.getLsbD i.val = false := hy ▸ heardEdges_unheard hedge s
  have hydue : y.due.getLsbD i.val = true := by rw [hy]; exact hdue
  constructor
  · refine (congrArg Ref.qual (refs_of_gatePart hpart i)).trans ?_
    have hqual : (refRest v.stove.refs[i]).qual = v.stove.refs[i].qual := rfl
    rw [hqual, hvref]
    exact refEdge_lost h0 h12 hlisted hydue hheard hmissed
  · have hraised := (congrArg (fun x => x.2.1) hpart).trans hvacc
    exact Nat.le_trans (stick_le_lossesRaised (mem_refsLost h0 h12 hlisted hydue hheard hmissed) _) (Nat.le_of_eq hraised.symm)

/-- A comparison of a locked Stove's reference: the phase error is taken, and the lock goes only at the fourth error in a row
beyond the lock window (R244). -/
theorem loopCompare_locked {x : Comparison} {s : State} (hrange : x.rangeEnd = false) (hst : s.stove.st = .locked)
    (hhit : s.stove.hitFrom = none) : (loopCompare x s).stove.dco = s.stove.dco ∧
      (loopCompare x s).stove.err = phaseNs x.phase s - s.stove.buildOut ∧ (loopCompare x s).stove.sel = s.stove.sel ∧
      (loopCompare x s).stove.st ≠ .qualify ∧
      (s.stove.outWin < 3 ∨ absQ (phaseNs x.phase s - s.stove.buildOut) ≤ 500 →
        (loopCompare x s).stove.lock = s.stove.lock) := by
  obtain ⟨e, he⟩ : ∃ e, e = phaseNs x.phase s - s.stove.buildOut := ⟨_, rfl⟩
  obtain ⟨sus, hsus⟩ : ∃ sus, hitStep e s.stove = (windowStep { s.stove with err := e, hitFrom := sus }, 0) := by
    unfold hitStep hitJudge
    rw [hhit]
    exact ⟨_, rfl⟩
  obtain ⟨y, hy⟩ : ∃ y, y = windowStep { s.stove with err := e, hitFrom := sus } := ⟨_, rfl⟩
  have hcompare : loopCompare x s = if windowLost s.stove y false then lockLoss 0 { s with stove := y }
      else { s with stove := y } := by
    have hystate : y.st = .locked := by rw [hy]; exact hst
    unfold loopCompare
    dsimp only
    rw [← he, hsus, ← hy, hrange, if_neg Bool.false_ne_true, if_neg (by rw [hst]; decide), if_pos rfl]
    dsimp only
    have hnone : decide ((0 : Rat) ≠ 0) = false := decide_eq_false (fun h => h rfl)
    rw [hnone]
    split
    · rfl
    · exact if_neg (fun h => absurd (hystate.symm.trans h.1) (by decide))
  have hwin : y.outWin = if 500 < absQ e then min 4 (s.stove.outWin + 1) else 0 := by rw [hy]; rfl
  have hkept (b : Bool) (t : State) (ht : t = if b then lockLoss 0 { s with stove := y } else { s with stove := y }) :
      t.stove.dco = s.stove.dco ∧ t.stove.err = e ∧ t.stove.sel = s.stove.sel ∧ t.stove.st ≠ .qualify ∧
      (b = false → t.stove.lock = s.stove.lock) := by
    subst ht
    cases b with
    | false =>
      rw [if_neg Bool.false_ne_true, hy]
      exact ⟨rfl, rfl, rfl, fun h => absurd (hst.symm.trans h) (by decide), fun _ => rfl⟩
    | true =>
      rw [if_pos rfl]
      unfold lockLoss
      split
      · rw [hy]
        exact ⟨rfl, rfl, rfl, fun h => absurd (hst.symm.trans h) (by decide), fun h => absurd h Bool.noConfusion⟩
      · rw [hy]
        exact ⟨rfl, rfl, rfl, StkrSt.noConfusion, fun h => absurd h Bool.noConfusion⟩
  obtain ⟨hdco, herr, hsel, hst', hlock⟩ := hkept _ _ hcompare
  rw [← he]
  refine ⟨hdco, herr, hsel, hst', fun hin => hlock ?_⟩
  have hfew : ¬ 4 ≤ y.outWin := by
    rw [hwin]
    rcases hin with h | h
    · split <;> omega
    · rw [if_neg (Rat.not_lt.mpr h)]
      omega
  unfold windowLost
  rw [decide_eq_false hfew, hhit]
  rw [Bool.false_and, Option.isSome_none, Bool.and_false, Bool.false_and, Bool.or_false]

theorem cmpBase_of_ne {i : Fin 13} (h : i ≠ 12) : cmpBase i = i := if_neg h

/-- What the loop's comparison of a locked Stove leaves to its end. -/
theorem comparison_locked {x : Comparison} {i : Fin 13} {s : State} (hruns : s.stove.running = true)
    (hst : s.stove.st = .locked) (hpends : s.stove.switchPends = false) (hhold : s.stove.holding = false)
    (hember : s.stove.inEmber = false) (hsel : s.stove.sel = some i) (hi : i ≠ 12) (hdue : x.due.getLsbD i.val = true)
    (hedge : (heardEdges x s).edges.getLsbD i.val = true) (hrange : x.rangeEnd = false) (hhit : s.stove.hitFrom = none) :
    ∃ t, exec (.stoveComparison x) s = .next t ∧ t.stove.dco = x.dcoOfs ∧
      t.stove.err = phaseNs x.phase s - s.stove.buildOut ∧
      (s.stove.outWin < 3 ∨ absQ (phaseNs x.phase s - s.stove.buildOut) ≤ 500 → t.stove.lock = s.stove.lock) := by
  obtain ⟨c, m, w, e, -, hexec⟩ := exec_stoveComparison (x := x) hruns (by rw [hst]; decide) (by rw [hst]; decide) hpends
  obtain ⟨y, hy⟩ : ∃ y, y = heardEdges x s := ⟨_, rfl⟩
  obtain ⟨v, hv⟩ : ∃ v : State, v = { s with
    stove := { s.stove with cmps := c, qMiss := m, sw := w, refs := vmap s.stove.refs (refEdge y) }
    evt := e } := ⟨_, rfl⟩
  obtain ⟨u, hu⟩ : ∃ u, u = modStove (fun z => { z with dco := x.dcoOfs }) v := ⟨_, rfl⟩
  rw [← hy] at hexec hedge
  rw [← hv] at hexec
  have hydue : y.due = x.due := by rw [hy]; rfl
  have hyphase : y.phase = x.phase := by rw [hy]; rfl
  have hydco : y.dcoOfs = x.dcoOfs := by rw [hy]; rfl
  have hyrange : y.rangeEnd = false := by rw [hy]; exact hrange
  have hfollows : loopRef s = some i := by
    unfold loopRef
    rw [hst, hhold, hember, hsel]
    rfl
  have hvst : v.stove.st = .locked := by rw [hv]; exact hst
  have hstep : loopStepNow i y v = loopCompare y u := by
    unfold loopStepNow
    rw [cmpBase_of_ne hi, hydue, hdue, hedge, if_neg (by decide)]
    dsimp only
    have hsame : modStove (fun z => if z.st = .acquire then { z with cmps := min 8000 (z.cmps + 1) } else z) v = v := by
      unfold modStove
      dsimp only
      rw [if_neg (by rw [hvst]; decide)]
    have hword : modStove (fun z => { z with dco := if i = 12 then z.sw.cur else y.dcoOfs }) v = u := by
      rw [hu, hydco]
      unfold modStove
      dsimp only
      rw [if_neg hi]
    rw [hsame, hword]
    exact if_pos rfl
  obtain ⟨hdco, herr, hsel', hst', hlock⟩ := loopCompare_locked (x := y) (s := u) hyrange (by rw [hu]; exact hvst)
    (by rw [hu, hv]; exact hhit)
  have hphase : phaseNs y.phase u = phaseNs x.phase s := by rw [hyphase, hu, hv]; rfl
  have hudco : u.stove.dco = x.dcoOfs := by rw [hu]; rfl
  have husel : u.stove.sel = some i := by rw [hu, hv]; exact hsel
  have hubuild : u.stove.buildOut = s.stove.buildOut := by rw [hu, hv]; rfl
  have huwin : u.stove.outWin = s.stove.outWin := by rw [hu, hv]; rfl
  have hulock : u.stove.lock = s.stove.lock := by rw [hu, hv]; rfl
  have hheld : i ∉ refsLost y s := by
    intro hmem
    have hgone := (List.mem_filter.mp hmem).2
    dsimp only at hgone
    rw [hedge, Bool.not_true, Bool.and_false, Bool.false_and] at hgone
    cases hgone
  clear hv hu hy
  obtain ⟨r, hr⟩ : ∃ r, r = loopCompare y u := ⟨_, rfl⟩
  rw [← hr] at hdco herr hsel' hst' hlock
  obtain ⟨z, hz⟩ : ∃ z, z = if slews y r then modStove rezeroStep r else r := ⟨_, rfl⟩
  have hzpart : z.stove.dco = r.stove.dco ∧ z.stove.err = r.stove.err ∧ z.stove.lock = r.stove.lock ∧
      z.stove.sel = r.stove.sel ∧ z.stove.st = r.stove.st := by
    have hslew : (rezeroStep r.stove).dco = r.stove.dco ∧ (rezeroStep r.stove).err = r.stove.err ∧
        (rezeroStep r.stove).lock = r.stove.lock ∧ (rezeroStep r.stove).sel = r.stove.sel ∧
        (rezeroStep r.stove).st = r.stove.st := by
      unfold rezeroStep
      dsimp only
      split <;> exact ⟨rfl, rfl, rfl, rfl, rfl⟩
    rw [hz]
    split
    · exact hslew
    · exact ⟨rfl, rfl, rfl, rfl, rfl⟩
  obtain ⟨hzdco, hzerr, hzlock, hzsel, hzst⟩ := hzpart
  have hend : comparisonEnd y (loopRef s) (refsLost y s) v =
      modStove (fun y => { y with gateLocked := y.gateLocked && (y.st == .locked || y.st == .freeRun) }) (selectByList z) := by
    unfold comparisonEnd
    rw [hfollows]
    dsimp only
    rw [hstep, ← hr, ← hz, refsGone_of_idle (by rw [hzst]; exact hst')]
    intro g hg hgsel
    obtain ⟨k, hk, rfl⟩ := List.mem_map.mp hg
    rw [hzsel, hsel', husel] at hgsel
    exact absurd (Option.some.inj hgsel ▸ hk) hheld
  rw [hend] at hexec
  have hloop := loopPart_selectByList z
  refine ⟨_, hexec, ?_, ?_, fun hin => ?_⟩
  · exact (congrArg Prod.fst hloop).trans (hzdco.trans (hdco.trans hudco))
  · refine (congrArg (fun x => x.2.2.1) hloop).trans (hzerr.trans (herr.trans ?_))
    rw [hphase, hubuild]
  · refine (congrArg (fun x => x.2.2.2.1) hloop).trans (hzlock.trans ((hlock ?_).trans hulock))
    rw [hphase, hubuild, huwin]
    exact hin

/-- Settles O44: each timed event of the Stoker, from what it writes of the Stove itself and what the choice of a reference that
follows leaves of the gates, the build-out, the lock and the references. -/
theorem stokerEventsComplete : Obligations.StokerEventsComplete := by
  unfold Obligations.StokerEventsComplete
  refine ⟨?ember, ?locked, ?gate, ?restore, ?qualify, ?dropped, ?move, ?settle, ?watchdog, ?acquire, ?attempt, ?stopped, ?resume,
    ?tick⟩
  case ember => exact fun x s => comparison_ember
  case locked =>
    exact fun x i s hruns hst hpends hhold hember hsel hi hdue hedge hrange hhit =>
      comparison_locked hruns hst hpends hhold hember hsel hi hdue hedge hrange hhit
  case gate => exact fun offs dco s => gateEnd_keeps
  case restore =>
    exact fun k r s hruns hwtr hleft hrev hst hpends hsel hrank =>
      waitToRestoreExpiry_pends hruns hwtr hleft hrev hst hpends hsel hrank
  case qualify => exact fun f p t s => qualifyEnd_passes
  case dropped => exact fun freq p t s => qualifyEnd_drops
  case move => exact fun t s => moveEnd_settles
  case settle => exact fun s => settleTimeout_loses
  case watchdog => exact fun s => swRefWatchdog_effect
  case acquire => exact fun s => relockAcquire_acquires
  case attempt => exact fun k s => relockAttemptTimeout_next
  case stopped => exact fun s => crystalStopped_effect
  case resume => exact fun s => crystalResume_effect
  case tick => exact fun s => stoveTickMissing_effect

end Sys2Proof.Machine
end

section
/-! PROOF. The Bellows' timed and fault events: what each writes of a channel, and what it leaves of the others (O45). -/

namespace Sys2Proof.Machine

/-! ### One channel and its group -/

theorem belAt_modBel_same (c : Fin 32) (f : BelCh → BelCh) (s : State) : belAt (modBel c f s) c = f (belAt s c) := by
  simp [belAt, vmod]

theorem belAt_modBel_of_ne {c d : Fin 32} (h : d ≠ c) (f : BelCh → BelCh) (s : State) :
    belAt (modBel d f s) c = belAt s c := by
  have hne : d.val ≠ c.val := fun e => h (Fin.ext e)
  simp only [belAt, modBel, vmod, Fin.getElem_fin, Vector.getElem_set_ne _ _ hne]

theorem modBel_congr {c : Fin 32} {f g : BelCh → BelCh} {s : State} (h : f (belAt s c) = g (belAt s c)) :
    modBel c f s = modBel c g s := by
  unfold modBel vmod
  unfold belAt at h
  rw [h]

theorem mem_chansOf {g : Fin 8} {c : Fin 32} : c ∈ chansOf g ↔ c.val / 4 = g.val := by
  simp [chansOf]

theorem chansOf_nodup (g : Fin 8) : (chansOf g).Nodup := (List.nodup_finRange 32).filter _

/-- The channel after a fold of which only its own step changes it. `part` is what the steps read of the rest. -/
theorem belAt_foldl {α : Type} {g : State → Fin 32 → State} {f : BelCh → BelCh} (part : State → α) {s : State}
    (hpart : ∀ s d, part (g s d) = part s) (hother : ∀ s c d, d ≠ c → belAt (g s d) c = belAt s c)
    (hsame : ∀ t c, part t = part s → belAt (g t c) c = f (belAt t c)) {l : List (Fin 32)} (hl : l.Nodup) (c : Fin 32) :
    belAt (l.foldl g s) c = if c ∈ l then f (belAt s c) else belAt s c := by
  split
  · next hmem =>
    refine foldl_at (m := c) (f := fun t => (part t, belAt t c)) (h := fun t => belAt t c) (b := (part s, belAt s c))
      (fun t d hd => Prod.ext (hpart t d) (hother t c d hd)) (fun t d hd => hother t c d hd) ?_ hl hmem rfl
    intro t ht
    rw [hsame t c (congrArg Prod.fst ht)]
    exact congrArg (fun x => f x.2) ht
  · next hmem =>
    exact foldl_keeps_of_mem (fun t => belAt t c) (fun t d hd => hother t c d (fun e => hmem (e ▸ hd))) s

/-! ### Measurements that end, and faults -/

/-- What a change of one channel and a completion leave as they were: all but the channels, the values drawn and the waiting
completions. -/
def belRest (s : State) : State :=
  { s with fresh := 0, evt := { s.evt with waiting := [] }, bel := { s.bel with ch := .replicate 32 {} } }

theorem belRest_modBel (c : Fin 32) (f : BelCh → BelCh) (s : State) : belRest (modBel c f s) = belRest s := rfl

theorem belRest_complete (op m : Nat) (tag : BitVec 16) (st : Byte) (ws : List Word) (s : State) :
    belRest (complete op m tag st ws s) = belRest s := by
  unfold complete
  split <;> rfl

theorem belAt_complete (op m : Nat) (tag : BitVec 16) (st : Byte) (ws : List Word) (s : State) (c : Fin 32) :
    belAt (complete op m tag st ws s) c = belAt s c := by
  unfold complete
  split <;> rfl

theorem belRest_endMeasure (c : Fin 32) (st : Nat) (s : State) : belRest (endMeasure c st s) = belRest s := by
  unfold endMeasure
  split
  · rfl
  · dsimp only
    split
    · rfl
    · exact belRest_complete ..

theorem belAt_endMeasure_same (c : Fin 32) (st : Nat) (s : State) :
    belAt (endMeasure c st s) c = { belAt s c with meas := none } := by
  unfold endMeasure
  split
  · next h => rw [← h]
  · dsimp only
    split
    · exact belAt_modBel_same ..
    · exact (belAt_complete ..).trans (belAt_modBel_same c (fun y => { y with meas := none }) s)

theorem belAt_endMeasure_of_ne {c d : Fin 32} (h : d ≠ c) (st : Nat) (s : State) :
    belAt (endMeasure d st s) c = belAt s c := by
  unfold endMeasure
  split
  · rfl
  · dsimp only
    split
    · exact belAt_modBel_of_ne h ..
    · exact (belAt_complete ..).trans (belAt_modBel_of_ne h (fun y => { y with meas := none }) s)

/-- A channel that a fault has taken (R212, R217, R228, R229). -/
def faultedChan (y : BelCh) : BelCh :=
  if y.st = .killed then { y with meas := none, faultPends := true }
  else { loopOff y with meas := none, st := .faulted, mute := 0, up := false, unmutePends := false, stopping := false
                        holding := false, openLoop := false }

theorem belRest_belFault (c : Fin 32) (s : State) : belRest (belFault c s) = belRest s := belRest_endMeasure ..

theorem belAt_belFault_same (c : Fin 32) (s : State) : belAt (belFault c s) c = faultedChan (belAt s c) := by
  unfold belFault faultedChan
  refine (belAt_modBel_same ..).trans ?_
  rw [belAt_endMeasure_same]
  dsimp only
  split <;> rfl

theorem belAt_belFault_of_ne {c d : Fin 32} (h : d ≠ c) (s : State) : belAt (belFault d s) c = belAt s c :=
  (belAt_modBel_of_ne h ..).trans (belAt_endMeasure_of_ne h ..)

theorem acc_of_belRest {s t : State} (h : belRest s = belRest t) : s.evt.acc = t.evt.acc := congrArg (fun x => x.evt.acc) h

theorem grp_of_belRest {s t : State} (h : belRest s = belRest t) : s.bel.grp = t.bel.grp := congrArg (fun x => x.bel.grp) h

theorem st_faultedChan {y : BelCh} (h : y.st ≠ .killed) : (faultedChan y).st = .faulted := by
  unfold faultedChan
  rw [if_neg h]

theorem flt_faultedChan (y : BelCh) : (faultedChan y).flt = y.flt := by
  unfold faultedChan
  split <;> rfl

theorem window_faultedChan (y : BelCh) :
    (faultedChan y).errN = y.errN ∧ (faultedChan y).errVoid = y.errVoid := by
  unfold faultedChan
  split <;> exact ⟨rfl, rfl⟩

/-! ### Updates -/

/-- What an update is for, and no measurement that ends with it changes: the bits, the applied ceiling and its target. -/
def sampled (y : BelCh) : BitVec 48 × BitVec 48 × F32 := (y.fbv, y.fbi, y.ceil)

theorem sampled_holdStep (u : Nat) (y : BelCh) : sampled (holdStep u y) = sampled y := by
  unfold holdStep
  split <;> rfl

theorem sampled_muteStep (y : BelCh) : sampled (muteStep y) = sampled y := by
  unfold muteStep
  split
  · split <;> rfl
  · rfl
  · rfl

theorem sampled_loopStep (m u len start : Nat) (vrail : F32) (y : BelCh) : sampled (loopStep m u len start vrail y) = sampled y :=
  rfl

theorem ceilIn_holdStep (u : Nat) (y : BelCh) : (holdStep u y).ceilIn = y.ceilIn := by
  unfold holdStep
  split <;> rfl

theorem sampled_belUpdate (m u len start : Nat) (vrail : F32) (b : BitVec 16 × BitVec 16) (y : BelCh) :
    sampled (belUpdate m u len start vrail b y) = (bitsIn y.fbv b.1, bitsIn y.fbi b.2, ceilStep y.ceilIn y.ceil) := by
  unfold belUpdate
  dsimp only
  obtain ⟨z, hz⟩ : ∃ z, z = holdStep u { y with fbv := bitsIn y.fbv b.1, fbi := bitsIn y.fbi b.2 } := ⟨_, rfl⟩
  have hs : sampled z = (bitsIn y.fbv b.1, bitsIn y.fbi b.2, y.ceil) := by
    rw [hz]
    exact sampled_holdStep u { y with fbv := bitsIn y.fbv b.1, fbi := bitsIn y.fbi b.2 }
  have hin : z.ceilIn = y.ceilIn := by
    rw [hz]
    exact ceilIn_holdStep ..
  obtain ⟨hv, hi, hc⟩ := (by simpa [sampled] using hs : z.fbv = _ ∧ z.fbi = _ ∧ z.ceil = _)
  rw [← hz]
  have hend : sampled { z with ceil := ceilStep z.ceilIn z.ceil } =
      (bitsIn y.fbv b.1, bitsIn y.fbi b.2, ceilStep y.ceilIn y.ceil) := by
    unfold sampled
    rw [hin, hc, hv, hi]
  split
  · exact ((sampled_muteStep _).trans (sampled_loopStep ..)).trans hend
  · exact hend

/-- A measurement of a channel that leaves QUIET with the update ends with STATE (R236). -/
def quietLeft (was s : State) (c : Fin 32) : State :=
  if (belAt was c).st = .quiet ∧ (belAt s c).st ≠ .quiet then endMeasure c stState s else s

theorem belRest_quietLeft (was s : State) (c : Fin 32) : belRest (quietLeft was s c) = belRest s := by
  unfold quietLeft
  split
  · exact belRest_endMeasure ..
  · rfl

theorem sampled_quietLeft (was s : State) (d c : Fin 32) : sampled (belAt (quietLeft was s d) c) = sampled (belAt s c) := by
  unfold quietLeft
  split
  · by_cases h : d = c
    · rw [h, belAt_endMeasure_same]
      rfl
    · rw [belAt_endMeasure_of_ne h]
  · rfl

theorem bellowsUpdate_effect {fb : List (BitVec 16 × BitVec 16)} {s : State} (hruns : belRuns s = true) (hupd : s.bel.upd < 16) :
    ∃ t, exec (.bellowsUpdate fb) s = .next t ∧ t.bel.upd = s.bel.upd + 1 ∧ t.pow = s.pow ∧ t.dmpr = s.dmpr ∧
      ∀ c : Fin 32, (belAt t c).fbv = bitsIn (belAt s c).fbv (fb.getD c.val (0, 0)).1 ∧
        (belAt t c).fbi = bitsIn (belAt s c).fbi (fb.getD c.val (0, 0)).2 ∧
        (belAt t c).ceil = ceilStep (belAt s c).ceilIn (belAt s c).ceil := by
  obtain ⟨u, hu⟩ : ∃ u : State, u = { s with bel := { s.bel with
      upd := s.bel.upd + 1
      ch := vmap s.bel.ch (fun c y =>
        belUpdate s.hive.dom.m s.bel.upd (carrierLen s.bel (s.bel.upd / 2))
          (carrierStart s.bel (belPhase c y) (s.bel.upd / 2)) s.bel.vrail (fb.getD c.val (0, 0)) y) } } := ⟨_, rfl⟩
  obtain ⟨v, hv⟩ : ∃ v, v = (List.finRange 32).foldl (quietLeft s) u := ⟨_, rfl⟩
  have hexec : exec (.bellowsUpdate fb) s = .next (if s.bel.upd = 15 then writeMonitors v.stove.frame v else v) := by
    show execBellowsUpdate fb s = _
    unfold execBellowsUpdate
    rw [if_pos (by rw [hruns]; exact decide_eq_true hupd), hv, hu]
    rfl
  have hrest : belRest v = belRest u := by
    rw [hv]
    exact foldl_keeps_eq belRest (belRest_quietLeft s) ..
  have hbits (c : Fin 32) : sampled (belAt v c) = (bitsIn (belAt s c).fbv (fb.getD c.val (0, 0)).1,
      bitsIn (belAt s c).fbi (fb.getD c.val (0, 0)).2, ceilStep (belAt s c).ceilIn (belAt s c).ceil) := by
    rw [hv]
    refine (foldl_keeps_eq (fun t => sampled (belAt t c)) (fun t d => sampled_quietLeft s t d c) ..).trans ?_
    refine Eq.trans (congrArg sampled ?_) (sampled_belUpdate s.hive.dom.m s.bel.upd (carrierLen s.bel (s.bel.upd / 2))
      (carrierStart s.bel (belPhase c (belAt s c)) (s.bel.upd / 2)) s.bel.vrail (fb.getD c.val (0, 0)) (belAt s c))
    unfold belAt
    rw [hu]
    exact getElem_vmap ..
  have hu' : u.bel.upd = s.bel.upd + 1 ∧ u.pow = s.pow ∧ u.dmpr = s.dmpr := by rw [hu]; exact ⟨rfl, rfl, rfl⟩
  obtain ⟨hupd', hpow, hdmpr⟩ := hu'
  obtain ⟨w, hw⟩ : ∃ w, w = if s.bel.upd = 15 then writeMonitors v.stove.frame v else v := ⟨_, rfl⟩
  have hwv : w.bel = v.bel ∧ w.pow = v.pow ∧ w.dmpr = v.dmpr := by
    rw [hw]
    split <;> exact ⟨rfl, rfl, rfl⟩
  obtain ⟨hwbel, hwpow, hwdmpr⟩ := hwv
  rw [← hw] at hexec
  refine ⟨w, hexec, ?_, ?_, ?_, fun c => ?_⟩
  · rw [hwbel, ← hupd']
    exact congrArg (fun x => x.bel.upd) hrest
  · rw [hwpow, ← hpow]
    exact congrArg (fun x => x.pow) hrest
  · rw [hwdmpr, ← hdmpr]
    exact congrArg (fun x => x.dmpr) hrest
  · have hc := hbits c
    have hat : belAt w c = belAt v c := congrArg (fun b : Bellows => b.ch[c]) hwbel
    rw [hat]
    exact ⟨congrArg Prod.fst hc, congrArg (fun x => x.2.1) hc, congrArg (fun x => x.2.2) hc⟩

/-! ### Waking, ramps, stops and kills -/

/-- A waking channel at the end of the wake time of its group. -/
def wakeStep (v : Stove) (y : BelCh) : BelCh :=
  if y.st = .waking ∧ y.wakeAt ≤ v.frame then wakeEnd (!v.lock) y else y

theorem belAt_drvWakeEnd {g : Fin 8} {c : Fin 32} (hc : c.val / 4 = g.val) (s : State) :
    ∃ t, exec (.drvWakeEnd g) s = .next t ∧ t = { s with bel := { s.bel with ch := t.bel.ch } } ∧
      belAt t c = wakeStep s.stove (belAt s c) := by
  obtain ⟨step, hstep⟩ : ∃ step : State → Fin 32 → State, step = fun s c => modBel c (wakeStep s.stove) s := ⟨_, rfl⟩
  refine ⟨(chansOf g).foldl step s, by rw [hstep]; rfl, ?_, ?_⟩
  · have hrest : { (chansOf g).foldl step s with bel := { ((chansOf g).foldl step s).bel with ch := s.bel.ch } } = s :=
      foldl_keeps_eq (fun t : State => { t with bel := { t.bel with ch := s.bel.ch } })
        (fun t d => by rw [hstep]; rfl) (chansOf g) s
    generalize (chansOf g).foldl step s = t at hrest ⊢
    rw [← hrest]
  · refine (belAt_foldl (g := step) State.stove (fun t d => by rw [hstep]; rfl)
      (fun t d e he => by rw [hstep]; exact belAt_modBel_of_ne he ..)
      (fun t d ht => ?_) (chansOf_nodup g) c).trans (if_pos (mem_chansOf.mpr hc))
    rw [hstep, ← ht]
    exact belAt_modBel_same ..

theorem drvWakeEnd_effect {g : Fin 8} {c : Fin 32} {s : State} (hc : c.val / 4 = g.val) (hst : (belAt s c).st = .waking)
    (hwake : (belAt s c).wakeAt ≤ s.stove.frame) : ∃ t, exec (.drvWakeEnd g) s = .next t ∧
      t = { s with bel := { s.bel with ch := t.bel.ch } } ∧
      ((belAt s c).killIn = true → (belAt t c).st = .killed ∧ (belAt t c).flt = (belAt s c).flt ||| 1 ∧
        (belAt t c).restore = ((belAt s c).up || (belAt s c).unmutePends || ((belAt s c).holding && (belAt s c).restore))) ∧
      ((belAt s c).killIn = false → s.stove.lock = false → (belAt t c).st = .held ∧
        (belAt t c).restore = (belAt s c).unmutePends) ∧
      ((belAt s c).killIn = false → s.stove.lock = true →
        belAt t c = { toQuiet (belAt s c) with unmutePends := (belAt s c).unmutePends }) := by
  obtain ⟨t, hexec, hrest, hat⟩ := belAt_drvWakeEnd hc s
  have hwakes : belAt t c = wakeEnd (!s.stove.lock) (belAt s c) := hat.trans (if_pos ⟨hst, hwake⟩)
  refine ⟨t, hexec, hrest, fun hkill => ?_, fun hkill hlock => ?_, fun hkill hlock => ?_⟩
  · have hkilled : belAt t c = killNow (belAt s c) := hwakes.trans (if_pos hkill)
    rw [hkilled]
    refine ⟨rfl, rfl, ?_⟩
    show towardPlaying (belAt s c) = _
    unfold towardPlaying
    rw [hst]
  · have hheld := hwakes.trans ((if_neg (by rw [hkill]; decide)).trans (if_pos (by rw [hlock]; rfl)))
    rw [hheld]
    exact ⟨rfl, rfl⟩
  · exact hwakes.trans ((if_neg (by rw [hkill]; decide)).trans (if_neg (by rw [hlock]; decide)))

theorem unmuteStart_effect {c : Fin 32} {s : State} (hst : (belAt s c).st = .quiet) (hpends : (belAt s c).unmutePends = true)
    (hupd : s.bel.upd = 0) (hquiet : 32 ≤ (belAt s c).quietUpd) (hstop : (belAt s c).stopping = false)
    (hhold : (belAt s c).holding = false) (hlock : s.stove.lock = true) :
    ∃ t, exec (.unmuteStart c) s = .next t ∧ (belAt t c).st = .ramping ∧ (belAt t c).up = true ∧
      (belAt t c).unmutePends = false ∧ (belAt t c).meas = none := by
  obtain ⟨u, hu⟩ : ∃ u, u = modBel c (fun y => { y with st := .ramping, up := true, unmutePends := false }) s := ⟨_, rfl⟩
  have huc : belAt u c = { belAt s c with st := .ramping, up := true, unmutePends := false } := by
    rw [hu]
    exact belAt_modBel_same ..
  have hholds : relockHolds s = false := by
    unfold relockHolds
    rw [hlock]
    rfl
  refine ⟨endMeasure c stState u, ?_, ?_⟩
  · rw [hu]
    exact if_pos ⟨hst, hpends, hupd, hquiet, hstop, hhold, hholds⟩
  · rw [belAt_endMeasure_same, huc]
    exact ⟨rfl, rfl, rfl, rfl⟩

theorem muteRampEnd_plays {c : Fin 32} {s : State} (hst : (belAt s c).st = .ramping) (hup : (belAt s c).up = true)
    (hmute : (belAt s c).cfg.muteLen ≤ (belAt s c).mute) :
    exec (.muteRampEnd c) s = .next (modBel c (fun y => { y with st := .playing }) s) :=
  congrArg Host.Outcome.next (modBel_congr (if_pos ⟨hst, hup, hmute⟩))

theorem muteRampEnd_quiets {c : Fin 32} {s : State} (hst : (belAt s c).st = .ramping) (hup : (belAt s c).up = false)
    (hmute : (belAt s c).mute = 0) :
    exec (.muteRampEnd c) s = .next (modBel c (fun y => { y with st := .quiet, quietUpd := 0 }) s) := by
  have hdown : ¬ ((belAt s c).st = .ramping ∧ (belAt s c).up = true ∧ (belAt s c).cfg.muteLen ≤ (belAt s c).mute) :=
    fun h => absurd (hup.symm.trans h.2.1) Bool.false_ne_true
  exact congrArg Host.Outcome.next (modBel_congr ((if_neg hdown).trans (if_pos ⟨hst, hup, hmute⟩)))

theorem disableStop_effect {c : Fin 32} {s : State} (hsw : belSwitches (belAt s c).st = true)
    (hstop : (belAt s c).stopping = true) (hmute : (belAt s c).mute = 0) :
    ∃ t, exec (.disableStop c) s = .next t ∧ (belAt t c).st = .disabled ∧
      (belAt t c).s1 = 0 ∧ (belAt t c).s2 = 0 ∧ (belAt t c).s3 = 0 ∧ (belAt t c).meas = none := by
  refine ⟨_, if_pos ⟨hsw, hstop, hmute⟩, ?_⟩
  rw [belAt_modBel_same, belAt_endMeasure_same]
  exact ⟨rfl, rfl, rfl, rfl, rfl⟩

theorem killEnter_effect {c : Fin 32} {s : State} (hruns : belRuns s = true) (hkill : (belAt s c).killIn = true)
    (hst : belSwitches (belAt s c).st = true ∨ (belAt s c).st = .held ∨ (belAt s c).st = .waking) :
    ∃ t, exec (.killEnter c) s = .next t ∧
      (belAt t c).st = .killed ∧ (belAt t c).flt = (belAt s c).flt ||| 1 ∧ (belAt t c).mute = 0 ∧
      (belAt t c).s1 = 0 ∧ (belAt t c).s2 = 0 ∧ (belAt t c).s3 = 0 ∧
      (belAt t c).restore = towardPlaying (belAt s c) := by
  refine ⟨_, if_pos ⟨hruns, hkill, hst⟩, ?_⟩
  rw [belAt_modBel_same, belAt_endMeasure_same]
  exact ⟨rfl, rfl, rfl, rfl, rfl, rfl, rfl⟩

/-- A channel whose kill is released (R223, R228, R231). -/
def releasedChan (v : Stove) (y : BelCh) : BelCh :=
  if y.faultPends then { y with st := .faulted, faultPends := false, stopping := false, holding := false, openLoop := false }
  else if y.stopping then { y with st := .disabled, stopping := false, holding := false, restore := false }
  else if !v.lock then { y with st := .held, holding := false }
  else if v.frame < y.wakeAt then { y with st := .waking, unmutePends := y.restore, restore := false, holding := false }
  else { toQuiet y with unmutePends := y.restore }

theorem exec_killReleaseRestart {c : Fin 32} {s : State} (hst : (belAt s c).st = .killed) (hkill : (belAt s c).killIn = false) :
    exec (.killReleaseRestart c) s = .next (modBel c (releasedChan s.stove) s) := if_pos ⟨hst, hkill⟩

section
variable {y : BelCh} {v : Stove}

theorem releasedChan_faulted (h : y.faultPends = true) : (releasedChan v y).st = .faulted := by
  unfold releasedChan
  rw [if_pos h]

variable (hfault : y.faultPends = false)
include hfault

theorem releasedChan_disabled (h : y.stopping = true) : (releasedChan v y).st = .disabled := by
  unfold releasedChan
  rw [if_neg (by rw [hfault]; decide), if_pos h]

variable (hstop : y.stopping = false)
include hstop

theorem releasedChan_held (h : v.lock = false) : (releasedChan v y).st = .held := by
  unfold releasedChan
  rw [if_neg (by rw [hfault]; decide), if_neg (by rw [hstop]; decide), if_pos (by rw [h]; rfl)]

theorem releasedChan_waking (hlock : v.lock = true) (h : v.frame < y.wakeAt) :
    (releasedChan v y).st = .waking ∧ (releasedChan v y).unmutePends = y.restore := by
  unfold releasedChan
  rw [if_neg (by rw [hfault]; decide), if_neg (by rw [hstop]; decide), if_neg (by rw [hlock]; decide), if_pos h]
  exact ⟨rfl, rfl⟩

theorem releasedChan_quiet (hlock : v.lock = true) (h : y.wakeAt ≤ v.frame) :
    releasedChan v y = { toQuiet y with unmutePends := y.restore } := by
  unfold releasedChan
  rw [if_neg (by rw [hfault]; decide), if_neg (by rw [hstop]; decide), if_neg (by rw [hlock]; decide), if_neg (Nat.not_lt.mpr h)]

end

/-! ### Driver faults and their retries -/

theorem grp_modGrp_same (g : Fin 8) (f : BelGrp → BelGrp) (s : State) : (modGrp g f s).bel.grp[g] = f s.bel.grp[g] := by
  simp [vmod]

/-- One channel's part of a driver fault (R229). -/
def driverFaultStep (s : State) (c : Fin 32) : State := belFault c (modBel c (fun y => { y with flt := y.flt ||| 2 }) s)

theorem belRest_driverFaultStep (s : State) (c : Fin 32) : belRest (driverFaultStep s c) = belRest s :=
  (belRest_belFault ..).trans (belRest_modBel ..)

theorem belAt_driverFaultStep_same (s : State) (c : Fin 32) :
    belAt (driverFaultStep s c) c = faultedChan { belAt s c with flt := (belAt s c).flt ||| 2 } := by
  unfold driverFaultStep
  rw [belAt_belFault_same, belAt_modBel_same]

theorem belAt_driverFaultStep_of_ne (s : State) (c d : Fin 32) (h : d ≠ c) : belAt (driverFaultStep s d) c = belAt s c :=
  (belAt_belFault_of_ne h _).trans (belAt_modBel_of_ne h ..)

theorem driverFault_effect {g : Fin 8} {s : State} (hruns : belRuns s = true) (hdrv : s.bel.grp[g].drvEn = true)
    (hwaking : ∀ c : Fin 32, c.val / 4 = g.val → (belAt s c).st ≠ .waking) : ∃ t, exec (.driverFault g) s = .next t ∧
      t.bel.grp[g].drvEn = false ∧
      (s.bel.grp[g].retries ≠ 3 → t.bel.grp[g].faultAt = some s.stove.frame) ∧
      (∀ c : Fin 32, c.val / 4 = g.val → (belAt s c).st ≠ .killed → (belAt t c).st = .faulted) ∧
      t.evt.acc[40] = stick 65535 s.evt.acc[40] := by
  have hnone : (chansOf g).any (fun c => (belAt s c).st == .waking) = false :=
    List.any_eq_false.mpr fun c hc h => hwaking c (mem_chansOf.mp hc) (eq_of_beq h)
  obtain ⟨near, hnear⟩ : ∃ near, near = (match s.bel.grp[g].retryAt with
      | some r => decide (s.stove.frame < r + 48000)
      | none => false) := ⟨_, rfl⟩
  obtain ⟨f, hf⟩ : ∃ f : BelGrp → BelGrp, f = fun x => { x with
      drvEn := false
      retries := if near then min 3 (x.retries + 1) else x.retries
      latched := x.latched || (near && x.retries == 3)
      faultAt := if near && x.retries == 3 then none else some s.stove.frame
      wasOn := ((chansOf g).filter (fun c => !belIdle (belAt s c).st)).map (·.val) } := ⟨_, rfl⟩
  obtain ⟨u, hu⟩ : ∃ u, u = modGrp g f s := ⟨_, rfl⟩
  have hugrp : u.bel.grp[g] = f s.bel.grp[g] := by rw [hu]; exact grp_modGrp_same g f s
  have huat (c : Fin 32) : belAt u c = belAt s c := by rw [hu]; rfl
  have huacc : u.evt.acc = s.evt.acc := by rw [hu]; rfl
  obtain ⟨v, hv⟩ : ∃ v, v = (chansOf g).foldl driverFaultStep u := ⟨_, rfl⟩
  have hexec : exec (.driverFault g) s = .next (raise 40 (bit g) v) := by
    rw [hv, hu, hf, hnear]
    refine if_pos ?_
    rw [hruns, hdrv, hnone]
    rfl
  have hrest : belRest v = belRest u := by
    rw [hv]
    exact foldl_keeps_eq belRest belRest_driverFaultStep ..
  have hat (c : Fin 32) (hc : c.val / 4 = g.val) : belAt v c = faultedChan { belAt s c with flt := (belAt s c).flt ||| 2 } := by
    rw [hv, ← huat]
    exact (belAt_foldl (fun _ => ()) (fun _ _ => rfl) belAt_driverFaultStep_of_ne
      (f := fun y => faultedChan { y with flt := y.flt ||| 2 }) (fun t d _ => belAt_driverFaultStep_same t d)
      (chansOf_nodup g) c).trans (if_pos (mem_chansOf.mpr hc))
  have hgrp : v.bel.grp[g] = f s.bel.grp[g] := (congrArg (fun b : Vector BelGrp 8 => b[g]) (grp_of_belRest hrest)).trans hugrp
  refine ⟨_, hexec, ?_, fun hretries => ?_, fun c hc hst => ?_, ?_⟩
  · refine (congrArg BelGrp.drvEn hgrp).trans ?_
    rw [hf]
  · refine (congrArg BelGrp.faultAt hgrp).trans ?_
    rw [hf]
    refine if_neg fun h => hretries ?_
    exact eq_of_beq (Bool.and_eq_true_iff.mp h).2
  · refine (congrArg BelCh.st (hat c hc)).trans (st_faultedChan ?_)
    exact hst
  · refine (acc_raise_same 40 (bit g) v).trans ?_
    rw [acc_of_belRest hrest, huacc]
    rfl

/-- The channels of a group that its retry wakes (R230). -/
def retried (g : Fin 8) (s : State) : List (Fin 32) :=
  (chansOf g).filter (fun c => s.bel.grp[g].wasOn.contains c.val && (belAt s c).cfg.retry && (belAt s c).st == .faulted)

theorem driverFaultRetry_effect {g : Fin 8} {f : Nat} {c : Fin 32} {s : State} (hruns : belRuns s = true)
    (hfault : s.bel.grp[g].faultAt = some f) (hdue : f + 48000 ≤ s.stove.frame) (hlatch : s.bel.grp[g].latched = false)
    (hc : c.val / 4 = g.val) (hon : c.val ∈ s.bel.grp[g].wasOn) (hretry : (belAt s c).cfg.retry = true)
    (hst : (belAt s c).st = .faulted) :
    ∃ t, exec (.driverFaultRetry g) s = .next t ∧ t.bel.grp[g].drvEn = true ∧
      t.bel.grp[g].retryAt = some s.stove.frame ∧ (belAt t c).st = .waking ∧
      (belAt t c).wakeAt = addF s.stove.frame s.bel.grp[g].drvWake := by
  have hmem : c ∈ retried g s := by
    refine List.mem_filter.mpr ⟨mem_chansOf.mpr hc, ?_⟩
    rw [List.contains_iff_mem.mpr hon, hretry, hst]
    rfl
  obtain ⟨step, hstep⟩ : ∃ step : State → Fin 32 → State, step = fun t d => modBel d (fun y =>
      { y with st := .waking, wakeAt := addF t.stove.frame s.bel.grp[g].drvWake }) t := ⟨_, rfl⟩
  obtain ⟨u, hu⟩ : ∃ u, u = modGrp g (fun x => { x with drvEn := true, faultAt := none, retryAt := some s.stove.frame }) s :=
    ⟨_, rfl⟩
  obtain ⟨v, hv⟩ : ∃ v, v = (retried g s).foldl step u := ⟨_, rfl⟩
  have hexec : exec (.driverFaultRetry g) s = .next v := by
    show execDriverFaultRetry g s = _
    unfold execDriverFaultRetry
    dsimp only
    rw [hfault]
    dsimp only
    refine (if_pos ?_).trans ?_
    · have hsome : (retried g s).isEmpty = false := List.isEmpty_eq_false_iff.mpr (List.ne_nil_of_mem hmem)
      rw [hruns, decide_eq_true hdue, hlatch]
      exact congrArg (fun b => !b) hsome
    · rw [hv, hstep, hu]
      rfl
  have hgrp : v.bel.grp[g] = { s.bel.grp[g] with drvEn := true, faultAt := none, retryAt := some s.stove.frame } := by
    have hkept : v.bel.grp = u.bel.grp := by
      rw [hv]
      exact foldl_keeps_eq (fun t : State => t.bel.grp) (fun t d => by rw [hstep]; rfl) _ u
    rw [hkept, hu]
    exact grp_modGrp_same ..
  have hat : belAt v c = { belAt s c with st := .waking, wakeAt := addF s.stove.frame s.bel.grp[g].drvWake } := by
    have hfold := belAt_foldl (g := step) (s := u) (l := retried g s)
      (f := fun y => { y with st := .waking, wakeAt := addF u.stove.frame s.bel.grp[g].drvWake }) State.stove
      (fun t d => by rw [hstep]; rfl) (fun t d e he => by rw [hstep]; exact belAt_modBel_of_ne he ..)
      (fun t d ht => by rw [hstep, ← ht]; exact belAt_modBel_same ..) ((chansOf_nodup g).filter _) c
    rw [if_pos hmem] at hfold
    rw [hv, hfold, hu]
    rfl
  refine ⟨v, hexec, ?_, ?_, ?_, ?_⟩
  · rw [hgrp]
  · rw [hgrp]
  · rw [hat]
  · rw [hat]

/-! ### Feedback losses and mismatches -/

theorem feedbackLoss_effect {c : Fin 32} {v : Bool} {s : State} (hruns : belRuns s = true)
    (hsw : belSwitches (belAt s c).st = true) :
    ∃ t, exec (.feedbackLoss c v) s = .next t ∧ t.evt.acc[41] = stick 65535 s.evt.acc[41] ∧
      (belAt t c).flt = (belAt s c).flt ||| (if v then 8 else 16) ∧
      (if (belAt s c).cfg.lossOpen then (belAt t c).openLoop = true ∧ (belAt t c).st = (belAt s c).st
        else (belAt t c).st = .faulted) := by
  obtain ⟨u, hu⟩ : ∃ u, u = raise 41 (bit c) (modBel c (fun y => { y with flt := y.flt ||| (if v then 8 else 16) }) s) :=
    ⟨_, rfl⟩
  have huc : belAt u c = { belAt s c with flt := (belAt s c).flt ||| (if v then 8 else 16) } := by
    rw [hu]
    exact belAt_modBel_same c (fun y => { y with flt := y.flt ||| (if v then 8 else 16) }) s
  have huacc : u.evt.acc[(41 : Fin 64)] = stick 65535 s.evt.acc[(41 : Fin 64)] := by
    rw [hu]
    exact acc_raise_same 41 ..
  have hexec : exec (.feedbackLoss c v) s = .next (if (belAt s c).cfg.lossOpen then
      modBel c (fun y => { y with openLoop := true, s1 := 0, s2 := 0, s3 := 0 }) u else belFault c u) := by
    rw [hu]
    refine if_pos ?_
    rw [hruns, hsw]
    rfl
  have hkilled : (belAt u c).st ≠ .killed := by
    rw [huc]
    intro h
    exact absurd (h ▸ hsw : belSwitches .killed = true) (by decide)
  refine ⟨_, hexec, ?_⟩
  split
  · rw [belAt_modBel_same, huc]
    exact ⟨huacc, rfl, rfl, rfl⟩
  · refine ⟨?_, ?_, ?_⟩
    · exact (congrArg (fun a : Vector Nat 64 => a[(41 : Fin 64)]) (acc_of_belRest (belRest_belFault c u))).trans huacc
    · rw [belAt_belFault_same, flt_faultedChan, huc]
    · rw [belAt_belFault_same, st_faultedChan hkilled]

/-- A channel with a feedback mismatch (R217). -/
def mismatchedChan (y : BelCh) : BelCh :=
  if y.cfg.mismatchFault then faultedChan { y with flt := y.flt ||| 4 } else { y with flt := y.flt ||| 4 }

theorem mismatchedChan_keeps (y : BelCh) : (mismatchedChan y).errN = y.errN ∧ (mismatchedChan y).errVoid = y.errVoid ∧
    (mismatchedChan y).flt = y.flt ||| 4 := by
  unfold mismatchedChan
  split
  · obtain ⟨hn, hvoid⟩ := window_faultedChan { y with flt := y.flt ||| 4 }
    exact ⟨hn, hvoid, flt_faultedChan _⟩
  · exact ⟨rfl, rfl, rfl⟩

/-- One channel's feedback mismatch at the end of the windows (R217). -/
def mismatchStep (s : State) (c : Fin 32) : State :=
  let s := raise 41 (bit c) (modBel c (fun y => { y with flt := y.flt ||| 4 }) s)
  if (belAt s c).cfg.mismatchFault then belFault c s else s

theorem belAt_mismatchStep_same (s : State) (c : Fin 32) : belAt (mismatchStep s c) c = mismatchedChan (belAt s c) := by
  have hflt : belAt (raise 41 (bit c) (modBel c (fun y => { y with flt := y.flt ||| 4 }) s)) c =
      { belAt s c with flt := (belAt s c).flt ||| 4 } := belAt_modBel_same c (fun y => { y with flt := y.flt ||| 4 }) s
  unfold mismatchStep mismatchedChan
  dsimp only
  rw [hflt]
  split
  · rw [belAt_belFault_same, hflt]
  · exact hflt

theorem belAt_mismatchStep_of_ne (s : State) (c d : Fin 32) (h : d ≠ c) : belAt (mismatchStep s d) c = belAt s c := by
  have hother : belAt (raise 41 (bit d) (modBel d (fun y => { y with flt := y.flt ||| 4 }) s)) c = belAt s c :=
    belAt_modBel_of_ne h ..
  unfold mismatchStep
  dsimp only
  split
  · exact (belAt_belFault_of_ne h _).trans hother
  · exact hother

theorem mismatchWindowEnd_effect {s : State} (hruns : belRuns s = true) (hupd : s.bel.upd = 16) (hframe : s.stove.frame % 4 = 3) :
    ∃ t, exec .mismatchWindowEnd s = .next t ∧
      ∀ c : Fin 32, (belAt t c).errN = 0 ∧ (belAt t c).errVoid = false ∧
        ((belAt s c).errN = 64 → (belAt s c).errVoid = false →
          f32Q (belAt s c).cfg.mismatch < (belAt s c).errSum / 64 → (belAt t c).flt.getLsbD 2 = true) := by
  obtain ⟨bad, hbad⟩ : ∃ bad, bad = (List.finRange 32).filter (fun c =>
      (belAt s c).errN == 64 && !(belAt s c).errVoid && decide (f32Q (belAt s c).cfg.mismatch < (belAt s c).errSum / 64)) :=
    ⟨_, rfl⟩
  obtain ⟨u, hu⟩ : ∃ u : State, u = { s with bel := { s.bel with ch := s.bel.ch.map (fun y =>
      { y with errSum := 0, errN := 0, errVoid := false }) } } := ⟨_, rfl⟩
  have huat (c : Fin 32) : belAt u c = { belAt s c with errSum := 0, errN := 0, errVoid := false } := by
    rw [hu]
    exact Vector.getElem_map ..
  have hexec : exec .mismatchWindowEnd s = .next (bad.foldl mismatchStep u) := by
    rw [hbad, hu]
    refine if_pos ?_
    rw [hruns, hupd, hframe]
    rfl
  have hat (c : Fin 32) := belAt_foldl (s := u) (f := mismatchedChan) (fun _ => ()) (fun _ _ => rfl) belAt_mismatchStep_of_ne
    (fun t d _ => belAt_mismatchStep_same t d) (hbad ▸ (List.nodup_finRange 32).filter _) c
  refine ⟨_, hexec, fun c => ?_⟩
  obtain ⟨hn, hvoid, hflt⟩ := mismatchedChan_keeps (belAt u c)
  rw [hat c]
  refine ⟨?_, ?_, fun h64 hclean hmean => ?_⟩
  · split
    · rw [hn, huat]
    · rw [huat]
  · split
    · rw [hvoid, huat]
    · rw [huat]
  · have hmem : c ∈ bad := by
      rw [hbad]
      refine List.mem_filter.mpr ⟨List.mem_finRange c, ?_⟩
      rw [h64, hclean, decide_eq_true hmean]
      rfl
    rw [if_pos hmem, hflt, BitVec.getLsbD_or]
    exact Bool.or_true _

/-! ### The mute that a relock asks for, and measurements -/

theorem bellowsMuteRequest_effect {s : State} (hrelock : s.stove.relock = true) (hacq : s.stove.acq = none)
    (hreq : s.bel.muteReq = false) (hruns : belRuns s = true) :
    ∃ t, exec .bellowsMuteRequest s = .next t ∧ t.bel.muteReq = true ∧ t.bel.muteAck = false ∧
      ∀ c : Fin 32, (belAt s c).st = .playing → (belAt t c).st = .ramping ∧ (belAt t c).up = false ∧
        (belAt t c).holding = true := by
  refine ⟨muteRequest s, if_pos ?_, rfl, rfl, fun c hst => ?_⟩
  · rw [hrelock, hacq, hreq, hruns]
    rfl
  · have hat : belAt (muteRequest s) c =
        { belAt s c with st := .ramping, up := false, holding := true, restore := towardPlaying (belAt s c) } := by
      refine (Vector.getElem_map ..).trans ?_
      unfold belAt at hst ⊢
      dsimp only [Fin.getElem_fin] at hst ⊢
      rw [hst]
    rw [hat]
    exact ⟨rfl, rfl, rfl⟩

theorem bellowsMuteAck_effect {s : State} (hrelock : s.stove.relock = true) (hreq : s.bel.muteReq = true)
    (hstill : ∀ c : Fin 32, belSwitches (belAt s c).st = false) :
    exec .bellowsMuteAck s = .next { s with bel := { s.bel with muteAck := true } } := by
  have hall : s.bel.ch.toList.all (fun y => !belSwitches y.st) = true := by
    refine List.all_eq_true.mpr fun y hy => ?_
    obtain ⟨i, hi, rfl⟩ := Vector.mem_iff_getElem.mp (Vector.mem_toList_iff.mp hy)
    exact Bool.not_eq_true' _ ▸ hstill ⟨i, hi⟩
  refine if_pos ?_
  rw [hrelock, hreq, hall, Bool.and_true, Bool.or_true]
  rfl

theorem measureEnds_idle {c : Fin 32} {s : State} (h : (belAt s c).meas = none) : measureEnds c s = s := by
  unfold measureEnds
  rw [h]

/-- A fold of which only one step, which then changes nothing more, does anything. -/
theorem foldl_only {σ α : Type} [DecidableEq α] {g : σ → α → σ} {a : α} {s : σ} (hother : ∀ b, b ≠ a → g s b = s)
    (hafter : ∀ b, g (g s a) b = g s a) {l : List α} (hmem : a ∈ l) : l.foldl g s = g s a := by
  induction l with
  | nil => exact absurd hmem List.not_mem_nil
  | cons b l ih =>
    rw [List.foldl_cons]
    by_cases hb : b = a
    · rw [hb]
      exact foldl_eq_self l fun d _ => hafter d
    · rw [hother b hb]
      exact ih ((List.mem_cons.mp hmem).resolve_left (Ne.symm hb))

theorem measureZComplete_effect {c : Fin 32} {q : Measure} {s : State} (hroutine : s.ianik.routine = none)
    (hmeas : (belAt s c).meas = some q) (hothers : ∀ k : Fin 32, k ≠ c → (belAt s k).meas = none)
    (hservice : q.service = false) (hdue : q.frame + q.k + 32 ≤ s.stove.frame) :
    ∃ t, exec .measureZComplete s = .next t ∧ (belAt t c).meas = none ∧ (belAt t c).st = (belAt s c).st ∧
      (s.pow.ianikRst = false → outstanding 0x0409 q.mbx q.tag s = true → ∃ ws : List Word, ws.length = 5 ∧
        t.evt.waiting = s.evt.waiting ++ [⟨0x0409, 0x00, q.mbx, q.tag, ws⟩]) := by
  obtain ⟨u, hu⟩ : ∃ u, u = modBel c (fun y => { y with meas := none }) s := ⟨_, rfl⟩
  obtain ⟨fs, o, l, hfigures, hlen⟩ : ∃ fs o l, measFigures q u = (fs, o, l, { u with fresh := u.fresh + 1 + 1 }) ∧
      fs.length = 4 := ⟨_, _, _, rfl, rfl⟩
  obtain ⟨v, hv⟩ : ∃ v : State, v = { u with fresh := u.fresh + 1 + 1 } := ⟨_, rfl⟩
  obtain ⟨t, ht⟩ : ∃ t, t = complete 0x0409 q.mbx q.tag (BitVec.ofNat 8 stOk) (fs ++ [b2w o 0 ||| b2w l 1]) v :=
    ⟨_, rfl⟩
  have hends : measureEnds c s = t := by
    unfold measureEnds
    rw [hmeas]
    dsimp only
    rw [if_neg (Nat.not_lt.mpr hdue), if_neg (by rw [hservice]; decide), ← hu, hfigures, ht, hv]
  have hat (k : Fin 32) : belAt t k = belAt u k := by
    rw [ht, belAt_complete, hv]
    rfl
  have hown : belAt u c = { belAt s c with meas := none } := by
    rw [hu]
    exact belAt_modBel_same ..
  have hnone (k : Fin 32) : (belAt t k).meas = none := by
    rw [hat]
    by_cases hk : k = c
    · rw [hk, hown]
    · rw [hu, belAt_modBel_of_ne (Ne.symm hk), hothers k hk]
  refine ⟨t, ?_, hnone c, ?_, fun hrst hout => ⟨fs ++ [b2w o 0 ||| b2w l 1], ?_, ?_⟩⟩
  · show execMeasureZComplete s = _
    unfold execMeasureZComplete
    rw [hroutine]
    dsimp only
    rw [foldl_only (g := fun s c => measureEnds c s) (a := c) (fun b hb => measureEnds_idle (hothers b hb))
      (fun b => measureEnds_idle (by rw [hends]; exact hnone b)) (List.mem_finRange c), hends]
  · rw [hat, hown]
  · exact (List.length_append ..).trans (by rw [hlen]; rfl)
  · have hvrst : v.pow.ianikRst = false := by rw [hv, hu]; exact hrst
    have hvout : outstanding 0x0409 q.mbx q.tag v = true := by rw [hv, hu]; exact hout
    have hvevt : v.evt = s.evt := by rw [hv, hu]; rfl
    rw [ht]
    unfold complete
    rw [if_neg (by rw [hvrst, hvout]; decide), hvevt]
    rfl

/-- Settles O45: each event of the Bellows, from what it makes of a channel and what it leaves of the other channels and the
rest. -/
theorem bellowsEventsComplete : Obligations.BellowsEventsComplete := by
  unfold Obligations.BellowsEventsComplete
  refine ⟨?update, ?wake, ?unmute, ?plays, ?quiets, ?stop, ?kill, ?restart, ?release, ?fault, ?retry, ?loss, ?mismatch,
    ?request, ?ack, ?measure⟩
  case update => exact fun fb s => bellowsUpdate_effect
  case wake => exact fun g c s => drvWakeEnd_effect
  case unmute =>
    exact fun c s hst hpends hupd hquiet hstop hhold hlock => unmuteStart_effect hst hpends hupd hquiet hstop hhold hlock
  case plays => exact fun c s => muteRampEnd_plays
  case quiets => exact fun c s => muteRampEnd_quiets
  case stop => exact fun c s => disableStop_effect
  case kill => exact fun c s => killEnter_effect
  case restart =>
    intro c s hst hkill hfault hstop hlock hwake
    rw [exec_killReleaseRestart hst hkill]
    exact congrArg Host.Outcome.next (modBel_congr (releasedChan_quiet hfault hstop hlock hwake))
  case release =>
    intro c s hst hkill
    refine ⟨_, exec_killReleaseRestart hst hkill, ?_⟩
    rw [belAt_modBel_same]
    exact ⟨releasedChan_faulted, releasedChan_disabled, releasedChan_held, releasedChan_waking⟩
  case fault => exact fun g s => driverFault_effect
  case retry =>
    exact fun g f c s hruns hfault hdue hlatch hc hon hretry hst =>
      driverFaultRetry_effect hruns hfault hdue hlatch hc hon hretry hst
  case loss => exact fun c v s => feedbackLoss_effect
  case mismatch => exact fun s => mismatchWindowEnd_effect
  case request => exact fun s => bellowsMuteRequest_effect
  case ack => exact fun s => bellowsMuteAck_effect
  case measure => exact fun c q s => measureZComplete_effect

end Sys2Proof.Machine
end

section
/-! PROOF. The M and F frame ticks: what each island's tick leaves of the frame's count, the Bellows and the staged changes
(O40). -/

namespace Sys2Proof.Machine

/-! ### What a tick of the islands leaves -/

/-- The values of `tickPart`. -/
abbrev TickPart : Type :=
  PowerSt × (Bool × Nat × Bool) × Nat × SlotBuf × Nat × Vector (List F32) 32 × Bool

/-- The values of `islePart`. -/
abbrev IslePart : Type :=
  PowerSt × Stove × Domains × (SlotBuf × SlotBuf × List F32) × Bellows × Bool × List Stamped

/-- The power, whether the Stove runs, the frame under way, the F frame in it, the M entries for the Bellows, its update and
its M histories, and whether a life-cycle advance waits for its reset. -/
def tickPart (s : State) : TickPart :=
  (s.pow, (s.stove.running, s.stove.frame, s.stove.valid), s.hive.dom.fIdx, s.hive.belM, s.bel.upd,
    s.bel.ch.map BelCh.histM, s.boot.lcReset)

/-- The same, with the staged changes. -/
def earlyPart (s : State) : TickPart × List Stamped :=
  (tickPart s, s.ianik.staged)

/-- What the Hive's tick leaves, but for a change of the rates: the power, the Stove, the rates, the entries for the Bellows,
the Bellows, and the staged changes. -/
def islePart (s : State) : IslePart :=
  (s.pow, s.stove, s.hive.dom, (s.hive.belM, s.hive.belF, s.hive.belLL), s.bel, s.boot.lcReset, s.ianik.staged)

section
variable {s t : State}

theorem earlyPart_of_islePart (h : islePart t = islePart s) : earlyPart t = earlyPart s :=
  congrArg (fun x : IslePart =>
    ((x.1, (x.2.1.running, x.2.1.frame, x.2.1.valid), x.2.2.1.fIdx, x.2.2.2.1.1, x.2.2.2.2.1.upd,
      x.2.2.2.2.1.ch.map BelCh.histM, x.2.2.2.2.2.1), x.2.2.2.2.2.2)) h

theorem tickPart_of_earlyPart (h : earlyPart t = earlyPart s) : tickPart t = tickPart s := congrArg Prod.fst h

theorem tickPart_of_islePart (h : islePart t = islePart s) : tickPart t = tickPart s :=
  tickPart_of_earlyPart (earlyPart_of_islePart h)

theorem islePart_of_memRest (h : memRest t = memRest s) : islePart t = islePart s := by
  have hpart := congrArg islePart h
  exact hpart

theorem tickPart_of_portRest (h : portRest t = portRest s) : tickPart t = tickPart s := by
  have hpart := congrArg tickPart h
  exact hpart

theorem tickPart_of_linkRest (h : linkRest t = linkRest s) : tickPart t = tickPart s := by
  have hpart := congrArg tickPart h
  exact hpart

theorem tickPart_of_loadRest {m : Fin 4} (h : loadRest m t = loadRest m s) : tickPart t = tickPart s := by
  have hpart := congrArg (fun x => tickPart x.1) h
  exact hpart

theorem islePart_complete (op m : Nat) (tag : BitVec 16) (st : Byte) (ws : List Word) :
    islePart (complete op m tag st ws s) = islePart s := by
  unfold complete
  split <;> rfl

theorem islePart_modCell (c : Fin 32) (f : Cell → Cell) : islePart (modCell c f s) = islePart s := rfl

theorem islePart_modComb (d : Dom) (f : Comb → Comb) : islePart (modComb d f s) = islePart s := rfl

theorem islePart_modRing (r : Fin 16) (f : Ring → Ring) : islePart (modRing r f s) = islePart s := rfl

theorem islePart_playNext (vs : List F32) : islePart { s with hive := { s.hive with playNext := vs } } = islePart s := rfl

theorem islePart_raise (n : Nat) (d : Word) : islePart (raise n d s) = islePart s := rfl

end

/-! ### The Hive's frames -/

section
variable (s : State)

theorem islePart_strike (ups : List Upset) : islePart (strike ups s) = islePart s := by
  rw [strike_care]
  rfl

theorem islePart_storePerform (c : Fin 32) (w : StoreWait) : islePart (storePerform c w s) = islePart s := by
  unfold storePerform
  extract_lets u on
  have hu : islePart u = islePart s := rfl
  clear_value u
  rw [← hu]
  split
  · have hrd : islePart (if on then rdStore w.addr u else (0, false, u)).2.2 = islePart u := by
      split
      · exact islePart_of_memRest (memRest_rdStore ..)
      · rfl
    dsimp only
    refine (islePart_modCell ..).trans (Eq.trans ?_ hrd)
    generalize (if on then rdStore w.addr u else (0, false, u)) = r
    split <;> rfl
  · split
    · exact islePart_of_memRest (memRest_wrStore ..)
    · rfl

theorem islePart_turnsBefore (cs : List (Fin 32)) (t n : Nat) : islePart (turnsBefore cs t n s) = islePart s := by
  induction n generalizing s with
  | zero => rfl
  | succ n ih =>
    unfold turnsBefore
    split
    · split
      · exact (ih _).trans (islePart_storePerform ..)
      · rfl
    · rfl

theorem islePart_endFrame (d : Dom) : islePart (endFrame d s) = islePart s :=
  (foldl_keeps_eq islePart (fun _ _ => islePart_modCell ..) _ _).trans (islePart_turnsBefore ..)

theorem islePart_startFrame (d : Dom) : islePart (startFrame d s) = islePart s :=
  foldl_keeps_eq islePart (fun _ _ => islePart_modCell ..) _ s

theorem islePart_glideFrame (d : Dom) (n : Nat) : islePart (glideFrame d n s) = islePart s :=
  foldl_keeps_eq islePart (fun _ _ => islePart_modCell ..) _ s

theorem islePart_raiseEv12 (n : Nat) : islePart (raiseEv12 n s) = islePart s :=
  foldl_keeps_eq islePart (fun _ _ => islePart_raise ..) _ s

theorem islePart_memReadEnds (st : Nat) (q : QEntry) : islePart (memReadEnds st q s) = islePart s := by
  unfold memReadEnds
  split
  · exact islePart_complete ..
  · rfl

theorem islePart_entryLost (q : QEntry) : islePart (entryLost q s) = islePart s := by
  unfold entryLost
  split
  · rfl
  · exact islePart_memReadEnds ..

theorem islePart_wrCoefs (c : Fin 32) (b : Fin 2) (a : Nat) (ws : List Word) : islePart (wrCoefs c b a ws s) = islePart s := by
  induction ws generalizing a s with
  | nil => rfl
  | cons w ws ih => exact ih (s := wrCoef c b a w s) (a + 1)

theorem islePart_wrProgs (c : Fin 32) (b : Fin 2) (a : Nat) (ws : List Word) : islePart (wrProgs c b a ws s) = islePart s := by
  induction ws generalizing a s with
  | nil => rfl
  | cons w ws ih => exact (ih _ (a + 1)).trans rfl

theorem islePart_snapWords (mk : Nat → WordAt) (rd : Nat → Word) (l : List Nat) :
    islePart (snapWords mk rd l s).2 = islePart s := by
  induction l generalizing s with
  | nil => rfl
  | cons a l ih => exact (ih _).trans (islePart_of_memRest (memRest_checkWord s (mk a)))

theorem islePart_memSnapshot (c : Fin 32) (pre : Cell) (k : Nat) (b : Fin 2) (first n : Nat) :
    islePart (memSnapshot c pre k b first n s).2 = islePart s := by
  unfold memSnapshot
  dsimp only
  split <;> exact islePart_snapWords ..

theorem islePart_memMasked (c : Fin 32) (pre : Cell) (k : Nat) (b : Fin 2) (first : Nat) (ws : List Word) :
    islePart (memMasked c pre k b first ws s).2 = islePart s := by
  unfold memMasked
  extract_lets on
  split <;> rfl

theorem islePart_setCoefId (c : Fin 32) (b : Fin 2) (i : Option (BitVec 16)) : islePart (setCoefId c b i s) = islePart s := by
  unfold setCoefId
  split <;> rfl

theorem islePart_applyMsg (pre : Cell) (e : Nat) (q : QEntry) : islePart (applyMsg pre e q s) = islePart s := by
  unfold applyMsg
  dsimp only
  split
  · rfl
  · split
    · exact islePart_wrProgs ..
    · rfl
  · split <;> rfl
  · split
    · exact (islePart_wrCoefs ..).trans (islePart_setCoefId ..)
    · rfl
  · rfl
  · rfl
  · rfl
  · rfl
  · exact (islePart_complete ..).trans ((islePart_memMasked ..).trans (islePart_memSnapshot ..))

theorem islePart_dropStale (q : QEntry) : islePart (dropStale q s) = islePart s := islePart_memReadEnds ..

theorem islePart_applyDue (pre : Cell) (e : Nat) (qs : List QEntry) : islePart (applyDue pre e qs s) = islePart s := by
  induction qs generalizing s with
  | nil => rfl
  | cons q qs ih =>
    unfold applyDue
    refine (ih _).trans ?_
    split
    · exact islePart_applyMsg ..
    · exact islePart_dropStale ..

theorem islePart_cellTick (c : Fin 32) (n : Nat) : islePart (cellTick c n s) = islePart s := by
  unfold cellTick
  dsimp only
  refine (foldl_keeps_eq islePart (fun _ _ => islePart_entryLost ..) _ _).trans ?_
  refine (islePart_applyDue ..).trans ((islePart_modCell ..).trans ?_)
  split
  · exact (foldl_keeps_eq islePart (fun _ _ => islePart_memReadEnds ..) _ _).trans rfl
  · rfl

/-! ### The Combs and the streams -/

theorem islePart_healWords (mk : Nat → WordAt) (l : List Nat) : islePart (healWords mk l s) = islePart s :=
  islePart_of_memRest (memRest_healWords ..)

theorem islePart_stageNow (d : Dom) (row : Bool) (a b : Nat) (gs : List F32) : islePart (stageNow d row a b gs s) = islePart s :=
  (islePart_modComb ..).trans (islePart_healWords ..)

theorem islePart_releaseHeld (d : Dom) (e : Nat) : islePart (releaseHeld d e s) = islePart s :=
  (foldl_keeps_eq islePart (fun _ _ => islePart_stageNow ..) _ _).trans rfl

theorem islePart_raiseIf (b : Bool) (n : Nat) (d : Word) : islePart (raiseIf b n d s) = islePart s := by
  cases b <;> rfl

theorem islePart_commitTick (d : Dom) (e : Nat) : islePart (commitTick d e s) = islePart s := by
  unfold commitTick
  split
  · exact (islePart_releaseHeld ..).trans ((islePart_raiseIf ..).trans rfl)
  · rfl

theorem islePart_combCommits (n : Nat) : islePart (combCommits n s) = islePart s :=
  (islePart_commitTick ..).trans ((islePart_commitTick ..).trans (islePart_commitTick ..))

theorem islePart_combFrame (d : Dom) (n : Nat) : islePart (combFrame d n s) = islePart s := by
  unfold combFrame
  split <;> rfl

theorem islePart_captureWrite (n : Nat) (r : Fin 16) : islePart (captureWrite n r s) = islePart s := by
  unfold captureWrite
  dsimp only
  split
  · rfl
  · exact (islePart_modRing ..).trans (islePart_of_memRest (memRest_wrStoresX ..))

theorem memRest_rdStoresX (m : Master) (a n : Nat) : memRest (rdStoresX m a n s).2 = memRest s := by
  induction n generalizing a s with
  | zero => rfl
  | succ n ih => exact (ih _ _).trans (memRest_rdStoreX ..)

theorem islePart_playDecide (n : Nat) (r : Fin 16) : islePart (playDecide n r s) = islePart s := by
  unfold playDecide
  dsimp only
  split
  · rfl
  · split
    · exact (islePart_playNext ..).trans ((islePart_of_memRest (memRest_rdStoresX ..)).trans (islePart_modRing ..))
    · rfl

theorem islePart_streamsTick (n : Nat) : islePart (streamsTick n s) = islePart s := by
  unfold streamsTick
  refine (foldl_keeps_eq islePart (fun _ _ => islePart_playDecide ..) _ _).trans ?_
  exact (foldl_keeps_eq islePart (fun _ _ => islePart_captureWrite ..) _ _).trans rfl

/-! ### The Intake -/

theorem islePart_nodeError (d : Dom) (u : Upset) : islePart (nodeError d u s) = islePart s := by
  unfold nodeError
  split
  · exact (islePart_modComb ..).trans ((islePart_healWords ..).trans rfl)
  · rfl

theorem islePart_combErrors (d : Dom) (lo hi : Nat) : islePart (combErrors d lo hi s) = islePart s :=
  foldl_keeps_eq islePart (fun _ _ => islePart_nodeError ..) _ s

theorem islePart_bridgeErrors (d : Dom) : islePart (bridgeErrors d s) = islePart s := by
  unfold bridgeErrors
  extract_lets mask
  split <;> rfl

theorem islePart_intake (d : Dom) : islePart (intake d s) = islePart s := by
  unfold intake
  refine (foldl_keeps_eq islePart (fun _ _ => islePart_modCell ..) _ _).trans ?_
  exact (islePart_combErrors ..).trans (islePart_bridgeErrors ..)

theorem islePart_stepGens (d : Dom) : islePart (stepGens d s) = islePart s := by
  unfold stepGens islePart
  rfl

theorem islePart_openFrame (d : Dom) : islePart (openFrame d s) = islePart s := by
  unfold openFrame
  split
  · exact (islePart_intake ..).trans (islePart_stepGens ..)
  · rfl

end

/-! ### The F frame ticks -/

section
variable {s t : State}

theorem islePart_modDom (f : Domains → Domains) (h : islePart t = islePart s) :
    islePart (modDom f t) = islePart (modDom f s) :=
  congrArg (fun x : IslePart =>
    (x.1, x.2.1, f x.2.2.1, x.2.2.2)) h

theorem fields_of_islePart (h : islePart t = islePart s) : t.pow = s.pow ∧ t.stove = s.stove ∧ t.hive.dom = s.hive.dom ∧
    t.hive.belF = s.hive.belF ∧ t.hive.belLL = s.hive.belLL ∧ t.bel = s.bel := by
  simp only [islePart, Prod.mk.injEq] at h
  obtain ⟨hpow, hstove, hdom, ⟨-, hbelF, hbelLL⟩, hbel, -, -⟩ := h
  exact ⟨hpow, hstove, hdom, hbelF, hbelLL, hbel⟩

theorem belRuns_congr (h : t.pow = s.pow) : belRuns t = belRuns s := by
  unfold belRuns inService
  rw [h]

end

section
variable (s : State)

theorem islePart_hiveTickF (n k : Nat) : islePart (hiveTickF n k s) = islePart (modDom (fun x => { x with fIdx := k }) s) := by
  unfold hiveTickF
  extract_lets u v
  have hu : islePart u = islePart s := by
    unfold u
    split
    · exact islePart_endFrame ..
    · rfl
  refine Eq.trans ?_ (islePart_modDom _ hu)
  change _ = islePart v
  clear_value v
  split
  · exact (islePart_openFrame ..).trans ((islePart_modComb ..).trans ((islePart_glideFrame ..).trans (islePart_startFrame ..)))
  · rfl

theorem islePart_hwTickF (n k : Nat) (x : Fin 2) : islePart (hwTickF n k x s) = islePart s := by
  unfold hwTickF
  dsimp only
  split <;> rfl

end

theorem belTickF_rest (j : Nat) (s : State) : (belTickF j s).pow = s.pow ∧ (belTickF j s).stove = s.stove ∧
    (belTickF j s).hive.dom = s.hive.dom := by
  unfold belTickF
  exact ⟨rfl, rfl, rfl⟩

theorem belAt_belTickF (j : Nat) (s : State) (c : Fin 32) : belAt (belTickF j s) c = { belAt s c with
    histF := (entryVal s.hive.belF (prevF j) c :: (belAt s c).histF).take 17
    histLL := (s.hive.belLL.getD c.val 0 :: (belAt s c).histLL).take 2 } := by
  unfold belAt belTickF
  generalize prevF j = i
  dsimp only
  rw [getElem_vmap]

theorem fFrameTick_effect {ups : List Upset} {s : State} (hruns : s.stove.running = true) (hvalid : s.stove.valid = true)
    (hk : s.hive.dom.fIdx + 1 < s.hive.dom.m) : ∃ t, exec (.fFrameTick ups) s = .next t ∧ t.pow = s.pow ∧
      t.stove = s.stove ∧ t.hive.dom = { s.hive.dom with fIdx := s.hive.dom.fIdx + 1 } ∧
      (belRuns s = true → ∀ c : Fin 32,
        (belAt t c).histF = (entryVal s.hive.belF
          (prevF (s.stove.frame * s.hive.dom.m + (s.hive.dom.fIdx + 1))) c.val :: (belAt s c).histF).take 17 ∧
        (belAt t c).histLL = (s.hive.belLL.getD c.val 0 :: (belAt s c).histLL).take 2) := by
  obtain ⟨k, hkeq⟩ : ∃ k, k = s.hive.dom.fIdx + 1 := ⟨_, rfl⟩
  obtain ⟨z, hz⟩ : ∃ z, z = strike ups s := ⟨_, rfl⟩
  obtain ⟨u, hu⟩ : ∃ u, u = (if hiveRuns (hwLines s.stove.frame k z) then hiveTickF s.stove.frame k (hwLines s.stove.frame k z)
      else modDom (fun x => { x with fIdx := k }) (hwLines s.stove.frame k z)) := ⟨_, rfl⟩
  obtain ⟨v, hv⟩ : ∃ v, v = hwTickF s.stove.frame k 1 (hwTickF s.stove.frame k 0 u) := ⟨_, rfl⟩
  have hz' := strike_care ups s
  rw [← hz] at hz'
  have hexec : exec (.fFrameTick ups) s =
      .next (if belRuns v then belTickF (s.stove.frame * v.hive.dom.m + k) v else v) := by
    show execFFrameTick ups s = _
    unfold execFFrameTick
    dsimp only
    rw [← hz]
    have hdom : z.hive.dom = s.hive.dom := by rw [hz']
    have hstove : z.stove = s.stove := by rw [hz']
    rw [hdom, hstove, ← hkeq, hruns, hvalid, decide_eq_true (hkeq ▸ hk : k < s.hive.dom.m), ← hu, ← hv]
    rfl
  have hpart : islePart v = islePart (modDom (fun x => { x with fIdx := k }) s) := by
    rw [hv]
    refine (islePart_hwTickF ..).trans ((islePart_hwTickF ..).trans ?_)
    have hlines : islePart (hwLines s.stove.frame k z) = islePart s := by
      rw [hz']
      rfl
    rw [hu]
    split
    · exact (islePart_hiveTickF ..).trans (islePart_modDom _ hlines)
    · exact islePart_modDom _ hlines
  obtain ⟨hpow, hstove, hdom, hbelF, hbelLL, hbel⟩ := fields_of_islePart hpart
  have hpow' : v.pow = s.pow := hpow
  have hstove' : v.stove = s.stove := hstove
  obtain ⟨htpow, htstove, htdom⟩ := belTickF_rest (s.stove.frame * s.hive.dom.m + k) v
  have hdom' : v.hive.dom = { s.hive.dom with fIdx := k } := hdom
  have hbel' : v.bel = s.bel := hbel
  have hm : v.hive.dom.m = s.hive.dom.m := by rw [hdom']
  rw [hm, belRuns_congr hpow'] at hexec
  rw [← hkeq]
  refine ⟨_, hexec, ?_, ?_, ?_, fun hbr c => ?_⟩
  · split
    · exact htpow.trans hpow'
    · exact hpow'
  · split
    · exact htstove.trans hstove'
    · exact hstove'
  · split
    · exact htdom.trans hdom'
    · exact hdom'
  · rw [if_pos hbr]
    have hat := belAt_belTickF (s.stove.frame * s.hive.dom.m + k) v c
    have hvc : belAt v c = belAt s c := congrArg (fun b : Bellows => b.ch[c]) hbel'
    have hF : v.hive.belF = s.hive.belF := hbelF
    have hLL : v.hive.belLL = s.hive.belLL := hbelLL
    rw [hat, hvc, hF, hLL]
    exact ⟨rfl, rfl⟩

/-! ### The tick's beginning -/

section
variable (s : State)

theorem memRest_regionRead (ram : Bool) (r : Nat) : memRest (regionRead ram r s).2 = memRest s := by
  unfold regionRead
  split
  · exact memRest_patrolRams ..
  · exact memRest_rdStoresX ..

theorem memRest_regionSave : memRest (regionSave s) = memRest s := (memRest_wrRam ..).trans (memRest_regionRead ..)

theorem memRest_regionAdvance : memRest (regionAdvance s) = memRest s := by
  unfold regionAdvance
  extract_lets g last n u
  have hu : memRest u = memRest s := rfl
  clear_value u
  rw [← hu]
  split <;> rfl

theorem memRest_regionIdle : memRest (regionIdle s) = memRest s := rfl

theorem memRest_regionRestore (ok : Bool) : memRest (regionRestore ok s) = memRest s := by
  unfold regionRestore
  dsimp only
  refine (memRest_regionAdvance _).trans ((memRest_regionIdle _).trans ?_)
  have hwrite : memRest (regionWrite (testRegion s).1 (testRegion s).2 (savedRead s).1 (savedRead s).2) = memRest s :=
    (memRest_regionWrite ..).trans (memRest_patrolRams ..)
  split
  · exact hwrite
  · exact (memRest_regionBroken ..).trans hwrite

theorem memRest_regionForced (n : Nat) : memRest (regionForced n s) = memRest s := by
  unfold regionForced
  split
  · rfl
  · split
    · split <;> rfl
    · split
      · exact memRest_regionRestore ..
      · split
        · rfl
        · dsimp only
          refine (rfl : memRest (modCare _ _) = _).trans ?_
          split
          · exact memRest_regionSave s
          · rfl

theorem earlyPart_modHost (f : HostPort → HostPort) : earlyPart (modHost f s) = earlyPart s := rfl

theorem earlyPart_pspFlag (i : Nat) : earlyPart (pspFlag i s) = earlyPart s := by
  unfold pspFlag
  dsimp only
  split <;> rfl

theorem earlyPart_regRead (a : Nat) : earlyPart (regRead a s).2 = earlyPart s := by
  unfold regRead
  extract_lets u
  have hu : earlyPart u = earlyPart s := by
    unfold u
    split
    · rfl
    · split
      · unfold latchPhase
        split <;> rfl
      · rfl
  rw [← hu]
  clear_value u
  dsimp only
  split <;> rfl

theorem earlyPart_ramRead (a : Nat) : earlyPart (ramRead a s).2 = earlyPart s := by
  unfold ramRead
  split
  · rfl
  · exact earlyPart_of_islePart (islePart_of_memRest (memRest_checkWord ..))

theorem earlyPart_unitRead (latched page : Bool) (a : Nat) : earlyPart (unitRead latched page a s).2 = earlyPart s := by
  unfold unitRead
  extract_lets b
  split
  · exact earlyPart_ramRead ..
  · exact earlyPart_pspFlag ..
  · split
    · exact earlyPart_pspFlag ..
    · split
      · rfl
      · exact earlyPart_regRead ..
  · split
    · exact earlyPart_pspFlag ..
    · rfl

theorem earlyPart_unitNext : earlyPart (unitNext s) = earlyPart s := by
  unfold unitNext
  split
  · rfl
  · split
    · rfl
    · dsimp only
      refine (earlyPart_modHost ..).trans ((earlyPart_modHost ..).trans ?_)
      split
      · unfold areaPassed
        split
        · exact earlyPart_pspFlag ..
        · rfl
      · exact earlyPart_unitRead ..

theorem earlyPart_unitsNext (n : Nat) : earlyPart (unitsNext n s) = earlyPart s := by
  induction n generalizing s with
  | zero => rfl
  | succ n ih => exact (ih _).trans (earlyPart_unitNext s)

theorem earlyPart_hostReads : earlyPart (hostReads s) = earlyPart s := by
  unfold hostReads
  split
  · unfold unitsSome
    split
    · rfl
    · exact (earlyPart_unitsNext ..).trans rfl
  · rfl

theorem earlyPart_bootRates : earlyPart (bootRates s) = earlyPart s := by
  unfold bootRates
  split
  · rfl
  · extract_lets w fm u v
    have hv : earlyPart v = earlyPart s := rfl
    clear_value v
    rw [← hv]
    split <;> rfl

end

theorem staged_of_earlyPart {s t : State} (h : earlyPart t = earlyPart s) : t.ianik.staged = s.ianik.staged := congrArg Prod.snd h

/-- With nothing staged, no change applies. -/
theorem islePart_applyPicked {p : Change → Bool} {n : Nat} {s : State} (h : s.ianik.staged = []) :
    islePart (applyPicked p n s) = islePart s := by
  unfold applyPicked
  rw [h]
  simp [islePart, unstage, h]

theorem earlyPart_shakesDone {s : State} (h : s.ianik.staged = []) : earlyPart (shakesDone s) = earlyPart s :=
  Prod.ext rfl (by simp [earlyPart, shakesDone, h])

/-- The state with which the islands' ticks begin, from the one the tick finds. -/
def tickBegun (s : State) : State :=
  bootRates (applyStaged (nextFrame s) (regionForced (nextFrame s) (shakesDone (countFrame (hwLinesEnd s.stove.frame s)))))

/-- What the counting of the frame makes of the part that the ticks keep. -/
def countedPart (s : State) : TickPart :=
  (s.pow, (s.stove.running, nextFrame s, true), 0, s.hive.belM, s.bel.upd, s.bel.ch.map BelCh.histM, s.boot.lcReset)

theorem earlyPart_tickBegun {s : State} (h : s.ianik.staged = []) : earlyPart (tickBegun s) = (countedPart s, []) := by
  obtain ⟨u, hu⟩ : ∃ u, u = countFrame (hwLinesEnd s.stove.frame s) := ⟨_, rfl⟩
  have hpart : earlyPart u = (countedPart s, []) := by
    rw [hu, ← h]
    rfl
  have hshakes : earlyPart (shakesDone u) = earlyPart u := earlyPart_shakesDone (by rw [hu]; exact h)
  obtain ⟨v, hv⟩ : ∃ v, v = regionForced (nextFrame s) (shakesDone u) := ⟨_, rfl⟩
  have hregion : earlyPart v = earlyPart (shakesDone u) := by
    rw [hv]
    exact earlyPart_of_islePart (islePart_of_memRest (memRest_regionForced ..))
  have hvpart := hregion.trans (hshakes.trans hpart)
  unfold tickBegun
  rw [← hu, ← hv]
  refine (earlyPart_bootRates _).trans (Eq.trans ?_ hvpart)
  exact earlyPart_of_islePart (islePart_applyPicked (congrArg Prod.snd hvpart))

/-! ### The Hive's tick -/

section
variable {s : State}

theorem fIdx_of_earlyPart {t : State} (h : earlyPart t = earlyPart s) : t.hive.dom.fIdx = s.hive.dom.fIdx :=
  congrArg (fun x : TickPart × List Stamped =>
    x.1.2.2.1) h

theorem earlyPart_modDom {f : Domains → Domains} (hf : (f s.hive.dom).fIdx = s.hive.dom.fIdx) :
    earlyPart (modDom f s) = earlyPart s := by
  unfold earlyPart tickPart modDom
  dsimp only
  rw [hf]

theorem earlyPart_rateDone : earlyPart (rateDone s) = earlyPart s := earlyPart_modDom rfl

theorem earlyPart_slips (mask : Word) : earlyPart (slips mask s) = earlyPart s := rfl

theorem earlyPart_clearData (c : Fin 32) : earlyPart (clearData c s) = earlyPart s := rfl

theorem earlyPart_clearFS : earlyPart (clearFS s) = earlyPart s :=
  foldl_keeps_eq earlyPart (fun _ _ => earlyPart_clearData _) _ s

theorem earlyPart_retimeGens : earlyPart (retimeGens s) = earlyPart s := by
  unfold retimeGens earlyPart tickPart
  rfl

theorem earlyPart_chains (v : Vector Chain 2) : earlyPart { s with hw := v } = earlyPart s := rfl

theorem earlyPart_rateAtP (x : RateChange) (h : s.hive.dom.fIdx = 0) : earlyPart (rateAtP x s) = earlyPart s := by
  unfold rateAtP
  extract_lets u v
  have hu : earlyPart u = earlyPart s := earlyPart_modDom h.symm
  have hv : earlyPart v = earlyPart u := (earlyPart_chains (s := retimeGens u) _).trans earlyPart_retimeGens
  rw [← hu, ← hv]
  clear_value v
  split
  · exact earlyPart_clearFS
  · rfl

theorem earlyPart_rateTick (n : Nat) (h : s.hive.dom.fIdx = 0) : earlyPart (rateTick n s) = earlyPart s := by
  unfold rateTick
  split
  · rfl
  next x hx =>
    extract_lets u v w
    have hu : earlyPart u = earlyPart s := by
      unfold u
      split
      · exact earlyPart_modDom rfl
      · rfl
    have hv : earlyPart v = earlyPart s := (earlyPart_rateAtP x ((fIdx_of_earlyPart hu).trans h)).trans hu
    clear_value u v
    have hw : earlyPart w = earlyPart s := by
      unfold w
      split
      · split
        · exact (earlyPart_modDom rfl).trans hv
        · split
          · exact earlyPart_rateDone.trans hv
          · exact (earlyPart_modDom rfl).trans hv
      · exact hu
    clear_value w
    rw [← hw]
    split
    · rfl
    · split
      · exact (earlyPart_modDom rfl).trans (earlyPart_slips _)
      · split
        · exact earlyPart_rateDone
        · rfl

theorem earlyPart_belRatio (m : Nat) : earlyPart (belRatio m s) = earlyPart s := by
  simp only [earlyPart, tickPart, belRatio, Vector.map_map]
  rfl

theorem earlyPart_stoveRetarget : earlyPart (stoveRetarget s) = earlyPart s := rfl

theorem earlyPart_ratesAt (n : Nat) (h : s.hive.dom.fIdx = 0) : earlyPart (ratesAt n s) = earlyPart s := by
  unfold ratesAt
  split
  · next x hx =>
    have hrate := earlyPart_rateTick (s := s) n h
    dsimp only
    split
    · split
      · exact earlyPart_stoveRetarget.trans ((earlyPart_belRatio _).trans hrate)
      · exact (earlyPart_belRatio _).trans hrate
    · exact hrate
  · rfl

theorem islePart_domains {g : State → Dom → State} (hg : ∀ s d, islePart (g s d) = islePart s) (b : Bool) (ds : List Dom) :
    islePart (if b then ds.foldl g s else s) = islePart s := by
  cases b
  · rfl
  · exact foldl_keeps_eq islePart hg ds s

/-- With nothing staged, and in the first F frame, the Hive's tick leaves what the ticks keep. -/
theorem tickPart_hiveTick (n : Nat) (hidx : s.hive.dom.fIdx = 0) (hstaged : s.ianik.staged = []) :
    tickPart (hiveTick n s) = tickPart s := by
  unfold hiveTick
  extract_lets u1 u2 ds u3 u4 u5 u6 u7 u8
  have h1 : earlyPart u1 = earlyPart s :=
    earlyPart_of_islePart (islePart_domains (fun t d => islePart_endFrame t d) (hivePhases s) (domsAt n s))
  have h2 : earlyPart u2 = earlyPart s := (earlyPart_ratesAt n ((fIdx_of_earlyPart h1).trans hidx)).trans h1
  clear_value u2 ds
  have h3 : earlyPart u3 = earlyPart s :=
    (earlyPart_of_islePart (islePart_domains (fun t d => islePart_startFrame t d) _ ds)).trans h2
  clear_value u3
  have h4 : earlyPart u4 = earlyPart s := by
    refine (earlyPart_of_islePart ((islePart_raiseEv12 ..).trans (islePart_applyPicked ?_))).trans h3
    exact (staged_of_earlyPart h3).trans hstaged
  clear_value u4
  refine Eq.trans (tickPart_of_islePart ?_) (tickPart_of_earlyPart h4)
  have h5 : islePart u5 = islePart u4 := foldl_keeps_eq islePart (fun _ _ => islePart_cellTick ..) _ u4
  clear_value u5
  have h6 : islePart u6 = islePart u5 := islePart_domains (fun t d => islePart_glideFrame t d n) _ ds
  clear_value u6
  have h7 : islePart u7 = islePart u6 :=
    (islePart_combCommits ..).trans (foldl_keeps_eq islePart (fun _ _ => islePart_combFrame ..) ds u6)
  clear_value u7
  have h8 : islePart u8 = islePart u7 := islePart_streamsTick ..
  clear_value u8
  exact (foldl_keeps_eq islePart (fun _ _ => islePart_openFrame ..) ds u8).trans (h8.trans (h7.trans (h6.trans h5)))

end

/-! ### The tuning that a boot commits -/

section
variable (s : State)

theorem tickPart_stageOwn (e : Nat) (c : Change) : tickPart (stageOwn e c s) = tickPart s := rfl

theorem tickPart_modComb (d : Dom) (f : Comb → Comb) : tickPart (modComb d f s) = tickPart s := rfl

theorem tickPart_modCell (c : Fin 32) (f : Cell → Cell) : tickPart (modCell c f s) = tickPart s := rfl

theorem tickPart_tuneStage (d6 : BitVec 256) : tickPart (tuneStage d6 s) = tickPart s :=
  foldl_keeps_eq tickPart (fun _ _ => tickPart_modComb ..) _ s

theorem tickPart_tuneCommit (tuning : Nat) (d4 d6 : BitVec 256) (e : Nat) :
    tickPart (tuneCommit tuning d4 d6 e s) = tickPart s := by
  unfold tuneCommit
  dsimp only
  refine (foldl_keeps_eq tickPart (fun _ _ => (tickPart_stageOwn ..).trans (tickPart_modComb ..)) _ _).trans ?_
  refine (foldl_keeps_eq tickPart (fun _ _ => tickPart_stageOwn ..) _ _).trans ((tickPart_tuneStage ..).trans ?_)
  exact (tickPart_stageOwn ..).trans (foldl_keeps_eq tickPart (fun _ _ => tickPart_modCell ..) _ s)

theorem tickPart_applyBanks (m : Manifest) (tuning : Nat) : tickPart (applyBanks m tuning s) = tickPart s := by
  unfold applyBanks
  split
  · exact tickPart_of_loadRest (loadRest_tuneBanks 0 ..)
  · rfl

theorem tickPart_bootCommit (m : Manifest) : tickPart (bootCommit m s) = tickPart s := by
  unfold bootCommit
  extract_lets t
  split
  · extract_lets d4 e
    split
    · rfl
    · split
      · rfl
      · exact (tickPart_tuneCommit ..).trans (tickPart_applyBanks ..)
  · rfl

theorem tickPart_bootTuneTick : tickPart (bootTuneTick s) = tickPart s := by
  unfold bootTuneTick
  extract_lets waits u
  have hu : tickPart u = tickPart s := rfl
  clear_value u
  split
  · split
    · exact (tickPart_bootCommit ..).trans hu
    · exact hu
  · rfl

/-! ### The Bellows' tick -/

theorem map_map_of {α β : Type} {k : Nat} {f : α → β} {g : α → α} (h : ∀ x, f (g x) = f x) (v : Vector α k) :
    (v.map g).map f = v.map f := by
  have hcomp : f ∘ g = f := funext h
  rw [Vector.map_map, hcomp]

theorem tickPart_of_ch {f : BelCh → BelCh} (hf : ∀ y, (f y).histM = y.histM) (b : Bellows) (hupd : b.upd = s.bel.upd)
    (hch : b.ch = s.bel.ch.map f) : tickPart { s with bel := b } = tickPart s := by
  unfold tickPart
  dsimp only
  rw [hupd, hch, map_map_of hf]

theorem tickPart_vmap {g : Fin 32 → BelCh → BelCh} (hg : ∀ i y, (g i y).histM = y.histM) :
    tickPart { s with bel := { s.bel with ch := vmap s.bel.ch g } } = tickPart s := by
  unfold tickPart
  dsimp only
  rw [map_vmap_of hg]

/-- A channel at the first tick after the Stove reports lock (R232). -/
def restartedChan (y : BelCh) : BelCh :=
  match y.st with
  | .held => { toQuiet y with unmutePends := y.restore }
  | .killed => { y with holding := false }
  | _ => if y.holding then { y with holding := false, unmutePends := y.restore } else y

theorem histM_restartedChan (y : BelCh) : (restartedChan y).histM = y.histM := by
  unfold restartedChan
  split
  · rfl
  · rfl
  · split <;> rfl

theorem tickPart_heldRestart : tickPart (heldRestart s) = tickPart s := by
  unfold heldRestart
  split
  · exact tickPart_of_ch s histM_restartedChan _ rfl rfl
  · rfl

theorem tickPart_belTickF (j : Nat) : tickPart (belTickF j s) = tickPart s := by
  unfold belTickF
  generalize prevF j = i
  exact tickPart_vmap s (fun _ _ => by rfl)

/-- After the Bellows' tick its M paths have the entry of the frame before, and its updates start anew, where it runs. -/
theorem tickPart_bellowsTick (n : Nat) : tickPart (bellowsTick n s) = tickPart (if belRuns s then belTickM n s else s) := by
  unfold bellowsTick
  extract_lets u
  have hu : tickPart u = tickPart (if belRuns s then belTickM n s else s) := by
    unfold u
    split
    · exact tickPart_belTickF ..
    · rfl
  rw [← hu]
  clear_value u
  exact (rfl : tickPart (drvTick _) = _).trans (tickPart_heldRestart u)

/-! ### The ports' and the lines' ticks -/

theorem tickPart_modSide (p : Fin 8) (d : Side) (f : PortSide → PortSide) : tickPart (modSide p d f s) = tickPart s := by
  cases d <;> rfl

theorem tickPart_groupTick (n : Nat) (g : Fin 4) : tickPart (groupTick n g s) = tickPart s := by
  unfold groupTick
  split
  · rfl
  · dsimp only
    split
    · exact (foldl_keeps_eq tickPart (fun _ _ => tickPart_modSide ..) _ _).trans rfl
    · rfl

theorem tickPart_writeTail (p : Fin 8) (n : Nat) : tickPart (writeTail p n s) = tickPart s := by
  unfold writeTail
  split
  · split
    · exact tickPart_modSide ..
    · rfl
  · rfl

theorem tickPart_ercTick (n : Nat) : tickPart (ercTick n s) = tickPart s := by
  unfold ercTick tickPart
  rfl

theorem tickPart_portsTick (n : Nat) : tickPart (portsTick n s) = tickPart s := by
  unfold portsTick
  dsimp only
  refine (foldl_keeps_eq tickPart (fun _ _ => tickPart_writeTail ..) _ _).trans ?_
  refine (foldl_keeps_eq tickPart (fun t x => ?_) _ _).trans ?_
  · split
    · split
      · exact tickPart_modSide ..
      · rfl
    · rfl
  · exact (foldl_keeps_eq tickPart (fun _ _ => tickPart_groupTick ..) _ _).trans (tickPart_ercTick ..)

theorem tickPart_complete (op m : Nat) (tag : BitVec 16) (st : Byte) (ws : List Word) :
    tickPart (complete op m tag st ws s) = tickPart s := tickPart_of_islePart (islePart_complete ..)

theorem tickPart_modHw (x : Fin 2) (f : Chain → Chain) : tickPart (modHw x f s) = tickPart s := rfl

theorem tickPart_silenceSlot (cls slot : Nat) : tickPart (silenceSlot cls slot s) = tickPart s := rfl

theorem tickPart_freeSlots (x : Fin 2) (p : HwSlot → Bool) : tickPart (freeSlots x p s) = tickPart s :=
  foldl_keeps_eq tickPart (fun _ _ => (tickPart_silenceSlot ..).trans (tickPart_modHw ..)) _ s

theorem tickPart_hwPowerOff (x : Fin 2) : tickPart (hwPowerOff x s) = tickPart s := by
  unfold hwPowerOff
  refine (tickPart_of_linkRest (linkRest_advanceGen ..)).trans ((tickPart_modHw ..).trans ((tickPart_freeSlots ..).trans ?_))
  exact tickPart_of_linkRest ((linkRest_dropPartner ..).trans (linkRest_endWalk ..))

theorem tickPart_hwCommandOne (x : Fin 2) (n : Nat) (p : Nat × Nat × BitVec 16) :
    tickPart (hwCommandOne x n s p) = tickPart s := by
  unfold hwCommandOne
  dsimp only
  split
  · split
    · rfl
    · exact tickPart_complete ..
  · split
    · rfl
    · exact tickPart_complete ..
  · exact (tickPart_complete ..).trans (tickPart_hwPowerOff ..)

theorem tickPart_hwCommand (x : Fin 2) (n : Nat) : tickPart (hwCommand x n s) = tickPart s :=
  (foldl_keeps_eq tickPart (fun _ _ => tickPart_hwCommandOne ..) _ _).trans (tickPart_modHw ..)

theorem tickPart_walkOn (x : Fin 2) : tickPart (walkOn x s) = tickPart s := by
  unfold walkOn
  dsimp only
  split
  · rfl
  · exact tickPart_of_linkRest (linkRest_endWalk ..)

theorem tickPart_transmit (x : Fin 2) (n : Nat) (q : Xact) : tickPart (transmit x n q s) = tickPart s := by
  unfold transmit
  split
  · split
    · rfl
    · exact tickPart_of_linkRest (linkRest_xactEnds ..)
  · rfl

theorem tickPart_hwSend (x : Fin 2) (n : Nat) : tickPart (hwSend x n s) = tickPart s := by
  unfold hwSend
  extract_lets u c g
  have hu : tickPart u = tickPart s := tickPart_modHw ..
  clear_value u
  rw [← hu]
  split
  · rfl
  · split
    · rfl
    · split
      · rfl
      · exact (tickPart_transmit ..).trans (tickPart_modHw ..)

theorem tickPart_hwTunnel (x : Fin 2) : tickPart (hwTunnel x s) = tickPart s := by
  unfold hwTunnel
  extract_lets c busy
  split <;> rfl

theorem tickPart_hwTick (n : Nat) (x : Fin 2) : tickPart (hwTick n x s) = tickPart s := by
  unfold hwTick
  split
  · extract_lets u v c w z
    have hv : tickPart v = tickPart s := (tickPart_hwCommand ..).trans (tickPart_modHw ..)
    clear_value v
    have hw : tickPart w = tickPart v := by
      unfold w
      split
      · exact tickPart_walkOn ..
      · rfl
    clear_value w
    refine (tickPart_of_islePart (islePart_hwTickF ..)).trans ((tickPart_modHw ..).trans ?_)
    exact (tickPart_hwSend ..).trans ((tickPart_hwTunnel ..).trans (hw.trans hv))
  · rfl

/-! ### Ianik's routines and its tuning -/

theorem tickPart_modBel {f : BelCh → BelCh} (hf : ∀ y, (f y).histM = y.histM) (c : Fin 32) :
    tickPart (modBel c f s) = tickPart s := by
  have hch : (vmod s.bel.ch c f).map BelCh.histM = s.bel.ch.map BelCh.histM := by
    ext i hi
    simp only [vmod, Vector.getElem_map, Vector.getElem_set]
    split
    · next h => subst h; rw [hf]; rfl
    · rfl
  unfold tickPart modBel
  dsimp only
  rw [hch]

theorem tickPart_setMeasure (c : Fin 32) (m : Option Measure) :
    tickPart (modBel c (fun y => { y with meas := m }) s) = tickPart s :=
  tickPart_modBel s (f := fun y => { y with meas := m }) (fun _ => rfl) c

theorem tickPart_endMeasure (c : Fin 32) (st : Nat) : tickPart (endMeasure c st s) = tickPart s := by
  unfold endMeasure
  split
  · rfl
  · dsimp only
    split
    · exact tickPart_setMeasure ..
    · exact (tickPart_complete ..).trans (tickPart_setMeasure s c none)

theorem tickPart_belMeasureNow (c : Fin 32) (m : Measure) : tickPart (belMeasureNow c m s) = tickPart s := by
  have hset := tickPart_setMeasure s c (some m)
  unfold belMeasureNow
  extract_lets u
  change tickPart u = _ at hset
  clear_value u
  rw [← hset]
  split
  · rfl
  · exact tickPart_endMeasure ..

theorem tickPart_routineStart (n : Nat) (r : Routine) : tickPart (routineStart n r s) = tickPart s := by
  unfold routineStart
  split
  · extract_lets dc amp m
    split
    · rfl
    · exact tickPart_belMeasureNow ..
  · rfl

theorem tickPart_routineEnds (r : Routine) (ws : List Word) : tickPart (routineEnds r ws s) = tickPart s :=
  (tickPart_complete ..).trans rfl

theorem tickPart_drawWord : tickPart (drawWord s).2 = tickPart s := rfl

theorem tickPart_dcPayload (r : Routine) : tickPart (dcPayload r s).2 = tickPart s := by
  unfold dcPayload
  extract_lets cs good mean
  exact foldl_keeps_eq (g := fun p c => (p.1 ++ [if good c then f64To32 (mean c) else (drawWord p.2).1], (drawWord p.2).2))
    (fun p : List Word × State => tickPart p.2) (fun p _ => tickPart_drawWord p.2) cs ([], s)

theorem tickPart_micWords (r : Routine) : tickPart (micWords r s).2 = tickPart s := by
  unfold micWords
  refine foldl_keeps_eq (fun p : List Word × State => tickPart p.2) (fun p i => ?_) _ ([], s)
  exact tickPart_of_islePart (islePart_of_memRest ((memRest_rdStoresX ..).trans (memRest_freeFlush ..)))

theorem tickPart_micEnds (r : Routine) : tickPart (micEnds r s) = tickPart s := by
  unfold micEnds
  dsimp only
  refine (tickPart_routineEnds ..).trans (Eq.trans ?_ (tickPart_micWords s r))
  unfold micFigures
  split <;> rfl

theorem tickPart_routineTick (n : Nat) : tickPart (routineTick n s) = tickPart s := by
  unfold routineTick
  split
  · rfl
  · split
    · split
      · exact (tickPart_routineEnds ..).trans (tickPart_dcPayload ..)
      · rfl
    · split
      · split
        · rfl
        · dsimp only
          split
          · exact tickPart_routineEnds ..
          · rfl
      · split
        · split
          · split
            · exact tickPart_micEnds ..
            · exact tickPart_routineEnds ..
          · exact tickPart_routineStart ..
        · rfl

theorem tickPart_tuneMeasure (tuning : Nat) : tickPart (tuneMeasure tuning s) = tickPart s := by
  unfold tuneMeasure
  split
  · refine foldl_keeps_eq tickPart (fun t k => ?_) _ s
    split <;> rfl
  · rfl

theorem tickPart_imgKick : tickPart (imgKick s) = tickPart s := by
  unfold imgKick
  split
  · rfl
  · split
    · split
      · exact tickPart_of_portRest (portRest_p0Ask ..)
      · rfl
    · rfl

theorem tickPart_tuneEnds (j : TuneJob) (e st : Nat) (i : Word) : tickPart (tuneEnds j e st i s) = tickPart s :=
  (tickPart_complete ..).trans rfl

theorem tickPart_tuneApplied (j : TuneJob) (e : Nat) : tickPart (tuneApplied j e s) = tickPart s := by
  have hmeasure := tickPart_tuneMeasure s j.tuning
  unfold tuneApplied
  extract_lets u
  change tickPart u = _ at hmeasure
  clear_value u
  rw [← hmeasure]
  split
  · exact tickPart_tuneEnds ..
  · split
    · exact tickPart_tuneEnds ..
    · split
      · exact tickPart_tuneEnds ..
      · exact (tickPart_imgKick ..).trans rfl

theorem tickPart_tuneTick (n : Nat) : tickPart (tuneTick n s) = tickPart s := by
  unfold tuneTick
  split
  · split
    · split
      · exact tickPart_tuneApplied ..
      · rfl
    · rfl
  · rfl

theorem tickPart_lcTick (h : s.boot.lcReset = false) : tickPart (lcTick s) = tickPart s := by
  unfold lcTick
  rw [h, Bool.false_and, if_neg Bool.false_ne_true]

end

/-! ### The M frame ticks -/

theorem histM_of_map {s t : State} (h : t.bel.ch.map BelCh.histM = s.bel.ch.map BelCh.histM) (c : Fin 32) :
    (belAt t c).histM = (belAt s c).histM := by
  have hat (v : Vector BelCh 32) : (v.map BelCh.histM)[c] = v[c].histM := Vector.getElem_map ..
  exact (hat t.bel.ch).symm.trans ((congrArg (fun v : Vector (List F32) 32 => v[c]) h).trans (hat s.bel.ch))

theorem histM_of_tickPart {s t : State} (h : tickPart t = tickPart s) (c : Fin 32) : (belAt t c).histM = (belAt s c).histM :=
  histM_of_map
    (congrArg (fun x : TickPart => x.2.2.2.2.2.1) h) c

theorem fields_of_tickPart {s t : State} (h : tickPart t = tickPart s) : t.pow = s.pow ∧ t.stove.running = s.stove.running ∧
    t.stove.frame = s.stove.frame ∧ t.stove.valid = s.stove.valid ∧ t.hive.dom.fIdx = s.hive.dom.fIdx ∧
    t.hive.belM = s.hive.belM ∧ t.bel.upd = s.bel.upd ∧ t.boot.lcReset = s.boot.lcReset := by
  simp only [tickPart, Prod.mk.injEq] at h
  obtain ⟨hpow, ⟨hruns, hframe, hvalid⟩, hidx, hbelM, hupd, -, hreset⟩ := h
  exact ⟨hpow, hruns, hframe, hvalid, hidx, hbelM, hupd, hreset⟩

theorem belAt_belTickM (n : Nat) (s : State) (c : Fin 32) : belAt (belTickM n s) c = { belAt s c with
    histM := (entryVal s.hive.belM (prevF n) c :: (belAt s c).histM).take 25
    monV := 0, monI := 0, monN := 0 } := by
  unfold belAt belTickM
  generalize prevF n = i
  dsimp only
  rw [getElem_vmap]

theorem belTickM_rest (n : Nat) (s : State) :
    belTickM n s = { s with bel := (belTickM n s).bel } ∧ (belTickM n s).bel.upd = 0 := by
  unfold belTickM
  exact ⟨rfl, rfl⟩

theorem tickPart_unstage (p : Stamped → Bool) (s : State) : tickPart (unstage p s) = tickPart s := rfl

/-- The tick of the Hive, or what falls in its place while it does not run. -/
theorem tickPart_hiveIsland {n : Nat} {s : State} (hidx : s.hive.dom.fIdx = 0) (hstaged : s.ianik.staged = []) :
    tickPart (if hiveRuns s then bootTuneTick (hiveTick n s)
      else unstage (fun c => decide (c.frame ≤ n) && cellsChange c.chg) (ratesAt n s)) = tickPart s := by
  split
  · exact (tickPart_bootTuneTick _).trans (tickPart_hiveTick n hidx hstaged)
  · exact (tickPart_unstage ..).trans (tickPart_of_earlyPart (earlyPart_ratesAt n hidx))

/-- What the islands' ticks make of the part they keep: what the Bellows' own tick makes of it. -/
theorem tickPart_islandTicks {n : Nat} {s : State} (hidx : s.hive.dom.fIdx = 0) (hstaged : s.ianik.staged = [])
    (hreset : s.boot.lcReset = false) : ∃ u, tickPart u = tickPart s ∧
      tickPart (islandTicks n s) = tickPart (if belRuns u then belTickM n u else u) := by
  unfold islandTicks
  extract_lets u v w z
  have hu : tickPart u = tickPart s := tickPart_hiveIsland hidx hstaged
  clear_value u
  have hv : tickPart v = tickPart (if belRuns u then belTickM n u else u) := tickPart_bellowsTick ..
  clear_value v
  have hw : tickPart w = tickPart v := by
    unfold w
    split
    · exact tickPart_portsTick ..
    · rfl
  clear_value w
  have hz : tickPart z = tickPart w := (tickPart_hwTick ..).trans (tickPart_hwTick ..)
  clear_value z
  obtain ⟨y, hy⟩ : ∃ y, y = routineTick n (tuneTick n z) := ⟨_, rfl⟩
  have hrest : tickPart y = tickPart (if belRuns u then belTickM n u else u) := by
    rw [hy]
    exact (tickPart_routineTick ..).trans ((tickPart_tuneTick ..).trans (hz.trans (hw.trans hv)))
  have hyreset : y.boot.lcReset = false := by
    obtain ⟨-, -, -, -, -, -, -, hyu⟩ := fields_of_tickPart hrest
    obtain ⟨-, -, -, -, -, -, -, hus⟩ := fields_of_tickPart hu
    refine hyu.trans (Eq.trans ?_ (hus.trans hreset))
    split
    · rw [(belTickM_rest n u).1]
    · rfl
  rw [← hy]
  exact ⟨u, hu, (tickPart_lcTick y hyreset).trans hrest⟩

/-- What the M frame tick begins with: the upsets, the host's reads and the accesses that wait for a turn. -/
def tickFound (ups : List Upset) (s : State) : State := freeFlush 64 (hostReads (strike ups s))

theorem earlyPart_tickFound (ups : List Upset) (s : State) : earlyPart (tickFound ups s) = earlyPart s :=
  (earlyPart_of_islePart (islePart_of_memRest (memRest_freeFlush ..))).trans
    ((earlyPart_hostReads _).trans (earlyPart_of_islePart (islePart_strike ..)))

theorem exec_mFrameTick {ups : List Upset} {s : State} (hruns : s.stove.running = true) : exec (.mFrameTick ups) s = .next
    (if (tickBegun (tickFound ups s)).stove.running then
      islandTicks (nextFrame (tickFound ups s)) (tickBegun (tickFound ups s)) else tickBegun (tickFound ups s)) := by
  obtain ⟨z, hz⟩ : ∃ z, z = hostReads (strike ups s) := ⟨_, rfl⟩
  have hpart : earlyPart z = earlyPart s := by
    rw [hz]
    exact (earlyPart_hostReads _).trans (earlyPart_of_islePart (islePart_strike ..))
  obtain ⟨-, hzruns, -⟩ := fields_of_tickPart (tickPart_of_earlyPart hpart)
  have hstove : (freeFlush 64 z).stove = z.stove := by
    have hmem := congrArg State.stove (memRest_freeFlush z 64)
    exact hmem
  show execMFrameTick ups s = _
  unfold execMFrameTick tickFound
  rw [← hz]
  dsimp only
  rw [if_pos (hzruns.trans hruns), ← hstove]
  rfl

theorem mFrameTick_effect {ups : List Upset} {s : State} (hruns : s.stove.running = true) (hstaged : s.ianik.staged = [])
    (hreset : s.boot.lcReset = false) : ∃ t, exec (.mFrameTick ups) s = .next t ∧ t.pow = s.pow ∧
      t.stove.frame = (if s.stove.valid then addF s.stove.frame 1 else 0) ∧ t.stove.valid = true ∧
      t.hive.dom.fIdx = 0 ∧
      (belRuns s = true → t.bel.upd = 0 ∧ ∀ c : Fin 32, (belAt t c).histM =
        (entryVal s.hive.belM (prevF t.stove.frame) c.val :: (belAt s c).histM).take 25) := by
  have hexec := exec_mFrameTick (ups := ups) hruns
  obtain ⟨w, hw⟩ : ∃ w, w = tickFound ups s := ⟨_, rfl⟩
  have hwpart : earlyPart w = earlyPart s := by rw [hw]; exact earlyPart_tickFound ..
  obtain ⟨hwpow, hwruns, hwframe, hwvalid, -, hwbelM, -, hwreset⟩ := fields_of_tickPart (tickPart_of_earlyPart hwpart)
  obtain ⟨n, hn⟩ : ∃ n, n = nextFrame w := ⟨_, rfl⟩
  have hnext : n = if s.stove.valid then addF s.stove.frame 1 else 0 := by
    rw [hn]
    unfold nextFrame
    rw [hwframe, hwvalid]
  obtain ⟨v, hv⟩ : ∃ v, v = tickBegun w := ⟨_, rfl⟩
  rw [← hw, ← hn, ← hv] at hexec
  have hvpart : earlyPart v = (countedPart w, []) := by
    rw [hv]
    exact earlyPart_tickBegun ((staged_of_earlyPart hwpart).trans hstaged)
  have hvstaged : v.ianik.staged = [] := congrArg Prod.snd hvpart
  have hvtick : tickPart v = countedPart w := congrArg Prod.fst hvpart
  clear hw hv
  simp only [tickPart, countedPart, Prod.mk.injEq] at hvtick
  obtain ⟨hvpow, ⟨hvruns, hvframe, hvvalid⟩, hvidx, hvbelM, -, hvhist, hvreset⟩ := hvtick
  rw [if_pos (hvruns.trans (hwruns.trans hruns))] at hexec
  obtain ⟨u, hu, ht⟩ := tickPart_islandTicks (n := n) hvidx hvstaged (hvreset.trans (hwreset.trans hreset))
  obtain ⟨hupow, -, huframe, huvalid, huidx, hubelM, -, -⟩ := fields_of_tickPart hu
  obtain ⟨t, htdef⟩ : ∃ t, t = islandTicks n v := ⟨_, rfl⟩
  rw [← htdef] at hexec ht
  obtain ⟨z, hz⟩ : ∃ z, z = if belRuns u then belTickM n u else u := ⟨_, rfl⟩
  rw [← hz] at ht
  have hzrest : z.pow = u.pow ∧ z.stove = u.stove ∧ z.hive = u.hive := by
    rw [hz]
    split
    · rw [(belTickM_rest n u).1]
      exact ⟨rfl, rfl, rfl⟩
    · exact ⟨rfl, rfl, rfl⟩
  obtain ⟨hzpow, hzstove, hzhive⟩ := hzrest
  obtain ⟨htpow, -, htframe, htvalid, htidx, -, htupd, -⟩ := fields_of_tickPart ht
  have hpow : u.pow = s.pow := hupow.trans (hvpow.trans hwpow)
  have hframe : t.stove.frame = n := by rw [htframe, hzstove, huframe, hvframe, hn]
  refine ⟨t, hexec, htpow.trans (hzpow.trans hpow), hframe.trans hnext, ?_, ?_, fun hbel => ⟨?_, fun c => ?_⟩⟩
  · rw [htvalid, hzstove, huvalid, hvvalid]
  · rw [htidx, hzhive, huidx, hvidx]
  · rw [htupd, hz, if_pos ((belRuns_congr hpow).trans hbel)]
    exact (belTickM_rest n u).2
  · have hmap : v.bel.ch.map BelCh.histM = w.bel.ch.map BelCh.histM := hvhist
    rw [histM_of_tickPart ht, hz, if_pos ((belRuns_congr hpow).trans hbel), belAt_belTickM, hframe, hubelM, hvbelM, hwbelM,
      histM_of_tickPart hu, histM_of_map hmap, histM_of_tickPart (tickPart_of_earlyPart hwpart)]

/-- Settles O40: the M frame tick is the composition of its parts; with nothing staged each part but the count and the Bellows'
own tick keeps the frame's count and the M paths, and in an F frame each part but the count and the Bellows' own tick keeps
the Stove, the rates and the Bellows. -/
theorem frameTicksComplete : Obligations.FrameTicksComplete := by
  unfold Obligations.FrameTicksComplete
  refine ⟨fun ups s hruns => exec_mFrameTick hruns, fun ups s hruns hstaged hreset => mFrameTick_effect hruns hstaged hreset,
    fun ups s hruns hvalid hk => fFrameTick_effect hruns hvalid hk⟩

end Sys2Proof.Machine
end
